-- ==== Sys2Proof/Word.lean ====
section
/-!
DEFINITION. The plainest words of the model and their arithmetic: bytes, 32-bit register words, saturating and
wrapping counts (00_scope.md R5, R7; Table 0-2).
-/
namespace Sys2Proof

/-- One byte. -/
abbrev Byte := BitVec 8
/-- One 32-bit register word (R5: bit 0 is the least significant bit). -/
abbrev W32 := BitVec 32
/-- One 64-bit word. -/
abbrev W64 := BitVec 64

/-- Add to a counter that saturates at `2^w - 1`. -/
def satAdd (w n k : Nat) : Nat := min (n + k) (2 ^ w - 1)
/-- Count one event in a counter that saturates at `2^w - 1`. -/
def satInc (w n : Nat) : Nat := satAdd w n 1
/-- Saturate an integer into the two's complement range of `w` bits. -/
def satInt (w : Nat) (x : Int) : Int := max (-(2 ^ (w - 1))) (min x (2 ^ (w - 1) - 1))
/-- Does an integer lie in the two's complement range of `w` bits? -/
def inInt (w : Nat) (x : Int) : Bool := decide (-(2 ^ (w - 1)) ≤ x) && decide (x ≤ 2 ^ (w - 1) - 1)

/-- Bits `[hi:lo]` of a natural number (Table 0-2: both inclusive). -/
def bits (n hi lo : Nat) : Nat := (n >>> lo) % 2 ^ (hi + 1 - lo)
/-- Bit `i` of a natural number. -/
def bit (n i : Nat) : Bool := (n >>> i) % 2 == 1
/-- A truth value as a bit. -/
def b2n (b : Bool) : Nat := if b then 1 else 0
/-- Ceiling division. -/
def ceilDiv (a b : Nat) : Nat := (a + b - 1) / b
/-- Read the low `w` bits of a natural number as two's complement. -/
def toSigned (w n : Nat) : Int :=
  let m := n % 2 ^ w
  if m < 2 ^ (w - 1) then (m : Int) else (m : Int) - 2 ^ w
/-- The two's complement encoding of an integer in `w` bits. -/
def ofSigned (w : Nat) (x : Int) : Nat := (x % 2 ^ w).toNat

/-- The reversal of the low `w` bits of `n`. -/
def bitRev : Nat → Nat → Nat
  | 0, _ => 0
  | w + 1, n => (n % 2) * 2 ^ w + bitRev w (n / 2)

/-- Set one element of a vector to a function of its old value. -/
def upd {α : Type} {n : Nat} (v : Vector α n) (i : Fin n) (f : α → α) : Vector α n := v.set i (f v[i])

@[simp] theorem upd_same {α : Type} {n : Nat} (v : Vector α n) (i : Fin n) (f : α → α) :
    (upd v i f)[i] = f v[i] := by simp [upd]

theorem upd_other {α : Type} {n : Nat} (v : Vector α n) (i j : Fin n) (f : α → α) (h : j ≠ i) :
    (upd v i f)[j] = v[j] := by
  have : i.val ≠ j.val := fun e => h (Fin.ext e.symm)
  simp [upd, this]

end Sys2Proof
end

