-- ==== Sys2Proof/Riscv.lean ====
section
/-!
DEFINITION. The RISC-V instructions that the harts of the block run (07_ibex_chamois.md R157, 08_kudu_markhor_criward.md R165):
RV64IMAFD with Zicsr and Zifencei and, on a Chamois tile, the V extension 1.0, in decoded form; a compressed instruction is its
expanded form marked short. What each one means is that of the ratified RISC-V specifications, which the rules name (PRESUMED, log
entry 110).
-/
namespace Sys2Proof

/-- A register number; which file it is in follows from its use. -/
abbrev Reg := Fin 32

/-- RV64I arithmetic and logic. -/
inductive AluOp where
  | add | sub | sll | slt | sltu | xor | srl | sra | or | and
deriving DecidableEq, Repr

/-- The M extension. -/
inductive MulOp where
  | mul | mulh | mulhsu | mulhu | div | divu | rem | remu
deriving DecidableEq, Repr

/-- Atomic memory operations. -/
inductive AmoOp where
  | swap | add | xor | and | or | min | max | minu | maxu
deriving DecidableEq, Repr

/-- Branch conditions. -/
inductive Cond where
  | eq | ne | lt | ge | ltu | geu
deriving DecidableEq, Repr

/-- A second operand: a register, or an immediate. -/
inductive Src where
  | reg (r : Reg)
  | imm (v : Int)
deriving DecidableEq, Repr

/-- What a CSR instruction does with its source (Zicsr). -/
inductive CsrOp where
  | write | set | clear
deriving DecidableEq, Repr

/-- Floating-point operations of two sources and an F or D result. -/
inductive F2Op where
  | add | sub | mul | div | sgnj | sgnjn | sgnjx | min | max
deriving DecidableEq, Repr

/-- Fused multiply-add forms: ±(a·b) ± c. -/
inductive FmaOp where
  | madd | msub | nmsub | nmadd
deriving DecidableEq, Repr

inductive FcmpOp where
  | eq | lt | le
deriving DecidableEq, Repr

/-- Integer types of conversions. -/
inductive IntTy where
  | w | wu | l | lu
deriving DecidableEq, Repr

/-- The second or first source of a vector instruction (.vv, .vx, .vi, .vf). -/
inductive VSrc where
  | v (r : Reg)
  | x (r : Reg)
  | imm (i : Int)
  | f (r : Reg)
deriving DecidableEq, Repr

/-- Where a vset instruction takes the application vector length: a register, or an immediate (vsetivli). -/
inductive Avl where
  | reg (r : Reg)
  | imm (n : Nat)
deriving DecidableEq, Repr

/-- Single-width vector integer and fixed-point operations; the last four accumulate into vd. -/
inductive ViOp where
  | add | sub | rsub | and | or | xor | minu | min | maxu | max | sll | srl | sra
  | mul | mulh | mulhu | mulhsu | divu | div | remu | rem
  | saddu | sadd | ssubu | ssub | aaddu | aadd | asubu | asub | smul | ssrl | ssra
  | macc | nmsac | madd | nmsub
deriving DecidableEq, Repr

/-- Vector integer comparisons. -/
inductive VcOp where
  | eq | ne | ltu | lt | leu | le | gtu | gt
deriving DecidableEq, Repr

/-- Add with carry and subtract with borrow. -/
inductive VcarryOp where
  | adc | sbc | madc | msbc
deriving DecidableEq, Repr

/-- Widening integer operations; the last four accumulate into vd. -/
inductive VwOp where
  | addu | add | subu | sub | mulu | mulsu | mul | maccu | macc | maccsu | maccus
deriving DecidableEq, Repr

/-- Narrowing shifts and clips. -/
inductive VnOp where
  | srl | sra | clipu | clip
deriving DecidableEq, Repr

/-- Integer reductions; the last two widen. -/
inductive VredOp where
  | sum | and | or | xor | minu | min | maxu | max | wsumu | wsum
deriving DecidableEq, Repr

/-- Mask register logic. -/
inductive VmOp where
  | andn | and | or | xor | orn | nand | nor | xnor
deriving DecidableEq, Repr

inductive VmsetOp where
  | sbf | sif | sof
deriving DecidableEq, Repr

/-- Vector floating-point operations of two sources; the last eight accumulate into vd. -/
inductive VfOp where
  | add | sub | rsub | mul | div | rdiv | min | max | sgnj | sgnjn | sgnjx
  | macc | nmacc | msac | nmsac | madd | nmadd | msub | nmsub
deriving DecidableEq, Repr

inductive VfcOp where
  | eq | ne | lt | le | gt | ge
deriving DecidableEq, Repr

/-- Vector floating-point operations of one source. -/
inductive Vf1Op where
  | sqrt | rsqrt7 | rec7 | classify
deriving DecidableEq, Repr

/-- Vector conversions; `rtz`: the mode is in the instruction; `rod`: to odd. -/
inductive VcvtOp where
  | toInt (signed rtz : Bool)
  | fromInt (signed : Bool)
  | toFp (rod : Bool)
deriving DecidableEq, Repr

/-- How the width of a conversion's result compares with its source's. -/
inductive VcvtW where
  | same | widen | narrow
deriving DecidableEq, Repr

/-- Widening floating-point operations; the last four accumulate into vd. -/
inductive VfwOp where
  | add | sub | mul | macc | nmacc | msac | nmsac
deriving DecidableEq, Repr

/-- Floating-point reductions. -/
inductive VfredOp where
  | usum | osum | min | max | wusum | wosum
deriving DecidableEq, Repr

/-- The addressing of vector loads and stores. -/
inductive VAddr where
  | unit
  | faultFirst
  | strided (rs2 : Reg)
  | indexed (vs2 : Reg)
  | mask
  | whole
deriving DecidableEq, Repr

/-- A decoded instruction. Sizes are log2 of bytes; `vm` is true where the instruction is unmasked; `dbl` chooses the D form over the
F form, and of LR, SC and AMOs the 64-bit form; `rm` 7 takes the mode from frm. -/
inductive Rv where
  | lui (rd : Reg) (imm : Int)
  | auipc (rd : Reg) (imm : Int)
  | jal (rd : Reg) (ofs : Int)
  | jalr (rd rs1 : Reg) (ofs : Int)
  | branch (c : Cond) (rs1 rs2 : Reg) (ofs : Int)
  | load (size : Fin 4) (unsigned : Bool) (rd rs1 : Reg) (ofs : Int)
  | store (size : Fin 4) (rs2 rs1 : Reg) (ofs : Int)
  | alu (op : AluOp) (word : Bool) (rd rs1 : Reg) (src : Src)
  | mul (op : MulOp) (word : Bool) (rd rs1 rs2 : Reg)
  | lr (dbl : Bool) (rd rs1 : Reg)
  | sc (dbl : Bool) (rd rs1 rs2 : Reg)
  | amo (op : AmoOp) (dbl : Bool) (rd rs1 rs2 : Reg)
  | fence
  | fenceI
  /-- `served`: the Kudu executive serves it and the code goes on (08 R167). -/
  | ecall (served : Bool)
  | ebreak
  | wfi
  /-- A CSR instruction, in CCLK `cclk` of its tick, which time and cycle count. -/
  | csr (op : CsrOp) (rd : Reg) (num : Nat) (src : Src) (cclk : Nat)
  | fload (dbl : Bool) (rd rs1 : Reg) (ofs : Int)
  | fstore (dbl : Bool) (rs2 rs1 : Reg) (ofs : Int)
  | f2 (op : F2Op) (dbl : Bool) (rm : Nat) (rd rs1 rs2 : Reg)
  | fsqrt (dbl : Bool) (rm : Nat) (rd rs1 : Reg)
  | fma (op : FmaOp) (dbl : Bool) (rm : Nat) (rd rs1 rs2 rs3 : Reg)
  | fcmp (op : FcmpOp) (dbl : Bool) (rd rs1 rs2 : Reg)
  | fclass (dbl : Bool) (rd rs1 : Reg)
  | fToInt (dbl : Bool) (rm : Nat) (ty : IntTy) (rd rs1 : Reg)
  | fFromInt (dbl : Bool) (rm : Nat) (ty : IntTy) (rd rs1 : Reg)
  /-- fcvt.d.s where `dbl`, else fcvt.s.d. -/
  | fcvt (dbl : Bool) (rm : Nat) (rd rs1 : Reg)
  | fmvX (dbl : Bool) (rd rs1 : Reg)
  | fmvF (dbl : Bool) (rd rs1 : Reg)
  /-- vsetvli and vsetivli (an immediate vtype), vsetvl (a register). -/
  | vset (rd : Reg) (avl : Avl) (vtype : Src)
  | vload (mode : VAddr) (size : Fin 4) (nf : Nat) (vm : Bool) (vd rs1 : Reg)
  | vstore (mode : VAddr) (size : Fin 4) (nf : Nat) (vm : Bool) (vs3 rs1 : Reg)
  | vint (op : ViOp) (vm : Bool) (vd vs2 : Reg) (src : VSrc)
  | vcmp (op : VcOp) (vm : Bool) (vd vs2 : Reg) (src : VSrc)
  | vcarry (op : VcarryOp) (withMask : Bool) (vd vs2 : Reg) (src : VSrc)
  | vmerge (vd vs2 : Reg) (src : VSrc)
  | vmv (vd : Reg) (src : VSrc)
  | vwide (op : VwOp) (vm wideVs2 : Bool) (vd vs2 : Reg) (src : VSrc)
  | vnarrow (op : VnOp) (vm : Bool) (vd vs2 : Reg) (src : VSrc)
  /-- vzext and vsext from a 2^log-th of the width. -/
  | vext (signed : Bool) (log : Fin 4) (vm : Bool) (vd vs2 : Reg)
  | vred (op : VredOp) (vm : Bool) (vd vs2 vs1 : Reg)
  | vmask (op : VmOp) (vd vs2 vs1 : Reg)
  | vcpop (vm : Bool) (rd vs2 : Reg)
  | vfirst (vm : Bool) (rd vs2 : Reg)
  | vmset (op : VmsetOp) (vm : Bool) (vd vs2 : Reg)
  | viota (vm : Bool) (vd vs2 : Reg)
  | vid (vm : Bool) (vd : Reg)
  | vmvXS (rd vs2 : Reg)
  | vmvSX (vd rs1 : Reg)
  | vfmvFS (rd vs2 : Reg)
  | vfmvSF (vd rs1 : Reg)
  | vslide (up : Bool) (vm : Bool) (vd vs2 : Reg) (src : Src)
  | vslide1 (up : Bool) (vm : Bool) (vd vs2 : Reg) (src : VSrc)
  /-- vrgather; `ei16`: its indices are 16 bits wide. -/
  | vgather (ei16 : Bool) (vm : Bool) (vd vs2 : Reg) (src : VSrc)
  | vcompress (vd vs2 vs1 : Reg)
  /-- vmv<2^log>r.v. -/
  | vmvr (log : Fin 4) (vd vs2 : Reg)
  | vfp (op : VfOp) (vm : Bool) (vd vs2 : Reg) (src : VSrc)
  | vfcmp (op : VfcOp) (vm : Bool) (vd vs2 : Reg) (src : VSrc)
  | vf1 (op : Vf1Op) (vm : Bool) (vd vs2 : Reg)
  | vfcvt (op : VcvtOp) (w : VcvtW) (vm : Bool) (vd vs2 : Reg)
  | vfwide (op : VfwOp) (vm wideVs2 : Bool) (vd vs2 : Reg) (src : VSrc)
  | vfred (op : VfredOp) (vm : Bool) (vd vs2 vs1 : Reg)
deriving DecidableEq, Repr

/-- One instruction that a hart runs; `short`: in its compressed form. -/
structure RvStep where
  short : Bool
  insn : Rv
deriving DecidableEq, Repr

/-- The operand ranges that the encodings admit. -/
def Src.wf (lo hi : Int) : Src → Bool
  | .reg _ => true
  | .imm v => decide (lo ≤ v) && decide (v < hi)

def imm12 (v : Int) : Bool := decide (-2048 ≤ v) && decide (v < 2048)
def imm20 (v : Int) : Bool := decide (-(2 ^ 31) ≤ v) && decide (v < 2 ^ 31) && v % 4096 == 0

/-- An immediate of an integer operation: a shift amount, or 12 bits; subtraction has none. -/
def aluImmWf (op : AluOp) (word : Bool) : Src → Bool
  | .reg _ => true
  | .imm v => match op with
    | .sll | .srl | .sra => decide (0 ≤ v) && decide (v < (if word then 32 else 64))
    | .sub => false
    | _ => imm12 v

def VSrc.wf : VSrc → Bool
  | .imm i => decide (-16 ≤ i) && decide (i < 32)
  | _ => true

/-- Is a decoded instruction one that an encoding spells? -/
def Rv.wf : Rv → Bool
  | .lui _ imm | .auipc _ imm => imm20 imm
  | .jal _ ofs => decide (-(2 ^ 20) ≤ ofs) && decide (ofs < 2 ^ 20) && ofs % 2 == 0
  | .jalr _ _ ofs | .load _ _ _ _ ofs | .store _ _ _ ofs | .fload _ _ _ ofs | .fstore _ _ _ ofs => imm12 ofs
  | .branch _ _ _ ofs => decide (-4096 ≤ ofs) && decide (ofs < 4096) && ofs % 2 == 0
  | .alu op word _ _ src => aluImmWf op word src && (!word || match op with | .add | .sub | .sll | .srl | .sra => true | _ => false)
  | .mul op word _ _ _ => !word || match op with | .mul | .div | .divu | .rem | .remu => true | _ => false
  | .csr _ _ num src cclk => decide (num < 4096) && src.wf 0 32 && decide (cclk < 3200)
  | .f2 _ _ rm _ _ _ | .fsqrt _ rm _ _ | .fma _ _ rm _ _ _ _ | .fToInt _ rm _ _ _ | .fFromInt _ rm _ _ _ | .fcvt _ rm _ _ =>
    decide (rm < 8)
  | .vset _ avl vtype => (match avl with | .reg _ => true | .imm n => decide (n < 32)) && vtype.wf 0 2048
  | .vload _ _ nf _ _ _ | .vstore _ _ nf _ _ _ => decide (1 ≤ nf) && decide (nf ≤ 8)
  | .vint _ _ _ _ src | .vcmp _ _ _ _ src | .vcarry _ _ _ _ src | .vmerge _ _ src | .vmv _ src | .vwide _ _ _ _ _ src
  | .vnarrow _ _ _ _ src | .vgather _ _ _ _ src | .vslide1 _ _ _ _ src | .vfp _ _ _ _ src | .vfcmp _ _ _ _ src
  | .vfwide _ _ _ _ _ src => src.wf
  | .vslide _ _ _ _ src => src.wf 0 32
  | _ => true

def codeWf (l : List RvStep) : Bool := l.all fun r => r.insn.wf

end Sys2Proof
end

