-- ==== Sys2Proof/Syntax.lean ====
section
/-!
DEFINITION. The commands of the block: one constructor for each row of spec/opcode_table.json, with the row's
operands. A command's operands carry what comes from outside the block (register data, PCIe accesses, messages,
flits, samples, temperatures, detected hardware errors) and which of several waiting things a device step acts on.
-/
namespace Sys2Proof

/-- A register view (R418): the PF, or VF n + 1, which serves region n; `tvf` is that VF reached by a request in its
bound IDE stream with T = 1 (R252). -/
inductive View where
  | pf
  | vf (n : Fin 8)
  | tvf (n : Fin 8)
deriving DecidableEq, Repr

/-- What SECDED finds on a flit (R48, R64). -/
inductive Ecc where
  | clean | single | double
deriving DecidableEq, Repr

/-- An output port (Table 3-2). -/
inductive Port where
  | n | e | s | w
deriving DecidableEq, Repr

/-- A link direction, named by its sending tile and output port (R47). -/
structure LinkDir where
  x : Nat
  y : Nat
  port : Port
deriving DecidableEq, Repr

/-- What a VC0 flit carries, beside the destination in its 8 header bytes (R51). -/
inductive Vc0Load where
  /-- Send-list bytes for the halo area of a Herd tile, or for the state window of an Ibex tile (R84, R154). -/
  | halo (ofs : Nat) (data : List Byte)
  /-- External fields of slots of a Herd tile, (slot, field) (R83, R154). -/
  | field (vals : List (Nat × Int))
  /-- Part of write `id` of a sample record or a reservoir state, on its way to the emit staging buffer, and the device
  address it is for (R231, R132); a masked one changes no byte there (R265). -/
  | emit (id addr : Nat) (masked : Bool) (data : List Byte)
  /-- Part of ring block `bid` on its way to the staging buffer (R366). -/
  | ring (bid : Nat) (data : List Byte)
  /-- Part of a ring block delivered to a local address of its target (R370). -/
  | deliver (addr : Nat) (data : List Byte)
deriving DecidableEq, Repr

/-- A VC0 flit (R51, R66): the region it is tagged for, its destination tile, its payload. -/
structure Vc0Flit where
  tag : Nat
  dx : Nat
  dy : Nat
  load : Vc0Load
deriving DecidableEq, Repr

/-- What reaches a router on VC0: the next flit of the slot-table entry of a slot (R50), or a flit that misbehaving hardware
has let through a wall (R66). -/
inductive Vc0Arrival where
  | planned (slot : Nat)
  | stray (f : Vc0Flit)
deriving DecidableEq, Repr

/-- The unscheduled virtual channels (Table 3-1). -/
inductive Vc where
  | vc1 | vc2 | vc3
deriving DecidableEq, Repr

/-- A VC1-VC3 packet (R52, R66): channel, the context that sends it, region tag, the job that sent it (the queue and position
of its RUN), destination tile, flits, and the bytes it writes at a local address of its destination (none for control packets). -/
structure MeshPacket where
  vc : Vc
  ctx : Fin 9
  tag : Nat
  job : Option (Fin 4 × W32)
  dx : Nat
  dy : Nat
  flits : Nat
  addr : Nat
  data : List Byte
deriving DecidableEq, Repr

/-- What moves on the Rim (R61). -/
inductive RimMove where
  /-- A flit of context `ctx` other than a record's enters its first Rim tile's buffer at ring position `p`. -/
  | enter (p : Fin 24) (ctx : Fin 9) (dest : Fin 24) (bytes : Nat)
  /-- The oldest part in region `r`'s emit staging buffer at ring position `p` enters the Rim (R231). -/
  | emit (r : Fin 8) (p : Fin 24)
  /-- A flit crosses segment `seg` in the lane-slot of `lane` and `slot`. -/
  | cross (seg : Fin 24) (ccw : Bool) (lane : Fin 4) (slot : Nat)
deriving DecidableEq, Repr

/-- What a mover command moves (R159). -/
inductive MoverCmd where
  /-- Local memory to local memory of another tile of the region. -/
  | toTile (src lx ly addr len : Nat)
  /-- Local memory of another tile of the region to local memory. -/
  | fromTile (lx ly addr dst len : Nat)
  /-- Local memory to a device address. -/
  | toDevice (src addr len : Nat)
  /-- A device address to local memory. -/
  | fromDevice (addr dst len : Nat)
  /-- Local memory to VC0 staging as ring block `bid` (R366). -/
  | toStaging (src bid len : Nat)
deriving DecidableEq, Repr

/-- What the memory port finds for a request beyond R211 (R221, R342). -/
inductive PortEvent where
  | clean | tagMismatch | corrected | uncorrectable
deriving DecidableEq, Repr

/-- A memory request (R211): its context, the tile that issues it, the job it belongs to as the queue and position of its RUN (a
request of context 8 belongs to none), its device address, and the bytes it writes or the number it reads. -/
structure MemReq where
  ctx : Fin 9
  x : Nat
  y : Nat
  job : Option (Fin 4 × W32)
  addr : Nat
  write : Option (List Byte)
  len : Nat
  port : PortEvent
deriving DecidableEq, Repr

/-- A host access: a read of `n` bytes or a write. -/
inductive HostAccess where
  | read (n : Nat)
  | write (data : List Byte)
deriving DecidableEq, Repr

/-- What the joining module sees in step 6 of Table 15-3 (R360). -/
structure Formation where
  /-- A closed loop of JOINING and JOINED modules is seen. -/
  closedLoop : Bool
  /-- A lead is seen in the ring (false: none yet, this module may become it). -/
  leadSeen : Bool
  /-- Another module that joined with tick_from_ring = 0 has the lower serial number. -/
  lowerSerialSeen : Bool
  /-- Hops from the lead in the Down direction, if it is reached that way. -/
  hopsDown : Option (Fin 16)
  /-- Hops from the lead in the Up direction, if it is reached that way. -/
  hopsUp : Option (Fin 16)
  /-- The ring was already formed, with these positions present. -/
  formed : Bool
  present : BitVec 16
  /-- The lead's members field. -/
  members : Nat
  /-- The ring's TN of the tick that begins at the next boundary. -/
  tn : Nat
deriving DecidableEq, Repr

/-- Measured input power averages in mW (R379). -/
structure PowerAvg where
  us100 : Nat
  ms1 : Nat
  ms10 : Nat
  s1 : Nat
deriving DecidableEq, Repr

/-- A PCIe configuration write that the spec gives an effect (R224, R225, R233, R253). -/
inductive CfgWrite where
  | command (fn : Fin 9) (v : BitVec 16)
  | bar (fn : Fin 9) (n : Fin 6) (v : W32)
  /-- Max_Payload_Size and Max_Read_Request_Size in Device Control, as powers of two of 128 bytes (R224) -/
  | sizes (fn : Fin 9) (mps mrrs : Nat)
  | vfEnable (on : Bool)
  | bar4Size (log2GiB : Nat)
deriving DecidableEq, Repr

/-- An edge at a Halyard input's connector, once the glitch filter has passed it: its input, its kind, and its instant in
1/16 CCLK from CCLK offset 0 of the reference tick (R31). -/
structure RefEdge where
  input : Fin 4
  rising : Bool
  at16 : Int
deriving DecidableEq, Repr

/-- What a reference event of R31 meets: for HALYARD the reference tick, counted from the present one, and the edges that
Pennant saw; for RING the phase error of a marker (1/16 CCLK). -/
inductive RefEvent where
  | edges (tick : Int) (l : List RefEdge)
  | marker (phase : Int)
deriving DecidableEq, Repr

/-- The commands, in the order of spec/opcode_table.json. -/
inductive Instr where
  /-- TICK_BOUNDARY. R22. CCLK offset 0 of a tick: TN counts on and the Ingest phase begins. -/
  | tickBoundary
  /-- SWEEP_START. R26. Slot 25 at Herd tile `h`: a fresh sweep starts, or an unfinished one resumes. -/
  | sweepStart (h : Fin 64)
  /-- CLASS_BEGIN. R80. Herd tile `h` begins its next colour class. -/
  | classBegin (h : Fin 64)
  /-- SWEEP_DONE. R91. Herd tile `h` raises sweep_done at CCLK offset `cclk` of the tick. -/
  | sweepDone (h : Fin 64) (cclk : Nat)
  /-- OVERRUN_TEST. R25. CCLK offset 2,800: Pennant's test of the ticking job of region `r`, then the Emit phase. -/
  | overrunTest (r : Fin 8)
  /-- HEADER_WRITE. R97. The head tile of a chain writes the record header, then the count word. -/
  | headerWrite (r : Fin 8) (chain : Nat)
  /-- RESERVOIR_WRITE_DONE. R132. All slice writes of an admitted state are complete. -/
  | reservoirWriteDone (r : Fin 8) (chain slot : Nat)
  /-- TICKING_END. R134. Ticking of region `r`'s job ends; its slot-table entries go idle at the next boundary. -/
  | tickingEnd (r : Fin 8)
  /-- MERGE_START. R135. The Kudu cluster of logical macro-block 0 starts the merge. -/
  | mergeStart (r : Fin 8)
  /-- MERGE_COMPLETE. R136. The merge writes its entries and state blocks, then the header. -/
  | mergeComplete (r : Fin 8)
  /-- REFERENCE_EVENT. R31. The window of a reference event closes, its reference edge among those seen; or a marker arrives. -/
  | referenceEvent (e : RefEvent)
  /-- MISSED_REFERENCE_EVENT. R31. A reference window closes without a selected edge or marker; `tick`: the reference tick,
  counted from the present one. -/
  | missedReferenceEvent (tick : Int)
  /-- TICK_CTRL_WRITE. R31. A PF write of TICK_CTRL. -/
  | tickCtrlWrite (v : W32)
  /-- TICK_IN_WRITE. R31. A PF write of TICK_IN_CFG (`ofs` false) or TICK_IN_OFS (`ofs` true). -/
  | tickInWrite (ofs : Bool) (v : W32)
  /-- TN_LATCH_READ. R414. A read of TICK_TN_LO through view `w`; `wide` a 64-bit read. -/
  | tnLatchRead (w : View) (wide : Bool)
  /-- SLACK_READ. R30. A read of TICK_RGN_SLACK of region `r` through view `w`. -/
  | slackRead (w : View) (r : Fin 8)
  /-- OUT_ENABLE_WRITE. R34. A PF write of HALY_CTRL. -/
  | outEnableWrite (v : W32)
  /-- ARM. R36. A write of HALY_OUT_ARM with arm = 1, and disarm = `alsoDisarm`. -/
  | arm (w : View) (n : Fin 8) (alsoDisarm : Bool)
  /-- DISARM. R37. A write of HALY_OUT_ARM with disarm = 1 and arm = 0. -/
  | disarm (w : View) (n : Fin 8)
  /-- PULSE_RISE. R34. The next pulse of output `n` rises. -/
  | pulseRise (n : Fin 8)
  /-- PULSE_FALL. R34. The programmed width of output `n`'s pulse expires. -/
  | pulseFall (n : Fin 8)
  /-- STROBE_END_EDGE. R35. An edge on input `input`, at connector time CCLK offset `cclk` of the tick `ago` ticks before this
  one, whose level lasted `held` CCLK there; a pulse of output `n` that it ends falls `delay` CCLK after it. -/
  | strobeEndEdge (n : Fin 8) (input : Fin 4) (rising : Bool) (ago cclk held delay : Nat)
  /-- OUT_OWNER_WRITE. R39. A PF write of HALY_OUT_OWNER. -/
  | outOwnerWrite (v : W32)
  /-- IN_OWNER_WRITE. R39. A PF write of HALY_IN_OWNER, at CCLK offset `cclk` of the current tick. -/
  | inOwnerWrite (v : W32) (cclk : Nat)
  /-- HALY_IN_CFG_WRITE. R41. A write of HALY_IN_CFG. -/
  | halyInCfgWrite (w : View) (n : Fin 4) (v : W32)
  /-- INPUT_EDGE. R41. An edge of input `n` at connector time CCLK offset `cclk` of the tick `ago` ticks before this one, whose
  level has lasted `held` CCLK at the connector: the glitch filter passes it or not. -/
  | inputEdge (n : Fin 4) (rising : Bool) (ago cclk held : Nat)
  /-- TIMESTAMP_POP. R42. A read of HALY_IN_TS_HI (`wide`: as the upper half of a 64-bit read). -/
  | timestampPop (w : View) (n : Fin 4) (wide : Bool)
  /-- VC0_FLIT_ARRIVAL. R51. A VC0 flit reaches the router at the far end of link direction `d`. -/
  | vc0FlitArrival (d : LinkDir) (f : Vc0Arrival) (ecc : Ecc)
  /-- MESH_PACKET_ARRIVAL. R52. The VC1-VC3 packet that R50 lets out next reaches the router at the far end of link direction
  `d`; `own`: a packet that the sending tile itself offers beside those in its input buffers. -/
  | meshPacketArrival (d : LinkDir) (own : Option MeshPacket) (ecc : Ecc)
  /-- RIM_FLIT_ARRIVAL. R61. A Rim flit enters its first Rim tile or reaches the next one. -/
  | rimFlitArrival (m : RimMove) (ecc : Ecc)
  /-- REGION_CREATE. R69. The maintenance packet at the head of queue 32. -/
  | regionCreate
  /-- CREATION_COMPLETE. R70. The creation steps of region `r` finish. -/
  | creationComplete (r : Fin 8)
  /-- REGION_DESTROY. R71. The maintenance packet at the head of queue 32. -/
  | regionDestroy
  /-- DESTROY_COMPLETE. R71. Steps 4-7 of Table 3-6 for region `r`. -/
  | destroyComplete (r : Fin 8)
  /-- CONDITIONED_BLOCK. R103. A SHA-256 block of 640 samples completes. -/
  | conditionedBlock
  /-- REPETITION_COUNT_FAIL. R100. A run of 61 identical samples. -/
  | repetitionCountFail (src : Fin 16)
  /-- ADAPTIVE_WINDOW_END. R100. A 1,024-sample window ends. -/
  | adaptiveWindowEnd (src : Fin 16)
  /-- DRBG_INSTANTIATE. R104. Two blocks are held; the DRBG's known-answer test passes or fails. -/
  | drbgInstantiate (drbgKat : Bool)
  /-- DRBG_RESEED. R105. A due reseed runs; the known-answer test passed or failed. -/
  | drbgReseed (drbgKat : Bool)
  /-- DRBG_GENERATE. R105. The Secure Markhor serves region `r`'s request for its next FRESH key. -/
  | drbgGenerate (r : Fin 8)
  /-- FRESH_KEY_STAGED. R115. The next FRESH key is staged in the shadow key registers of region `r`'s tiles. -/
  | freshKeyStaged (r : Fin 8)
  /-- ENGINE_DESCRIPTOR_ARRIVAL. R310. The `k`-th descriptor in flight reaches its engine's queue. -/
  | engineDescriptorArrival (k : Nat)
  /-- DESCRIPTOR_ADMISSION. R378. The oldest waiting descriptor that fits under the cap is admitted. -/
  | descriptorAdmission
  /-- IBEX_OP_START. R147. Ibex tile `i` starts the operation at the head of its queue. -/
  | ibexOpStart (i : Fin 48)
  /-- IBEX_OP_COMPLETE. R147. Ibex tile `i` makes its last write. -/
  | ibexOpComplete (i : Fin 48)
  /-- SPILL_PARTIAL. R149. The `k`-th partial on its way to Chamois tile `c` arrives. -/
  | spillPartial (c : Fin 48) (k : Nat)
  /-- SPILL. R149. All partials are received; Chamois tile `c` adds them and applies the epilogue. -/
  | spill (c : Fin 48)
  /-- KERNEL. R157. The KERNEL descriptor at the head of Chamois tile `c`'s queue starts. -/
  | kernel (c : Fin 48)
  /-- KERNEL_DONE. R160. The kernel writes DONE; `code`, here and below: the instructions that it runs from the command before
  on, in the order in which they run. -/
  | kernelDone (c : Fin 48) (code : List RvStep)
  /-- CHAMOIS_TRAP. R160. A trap reaches the Chamois monitor: the first of `code`, else one of another cause. -/
  | chamoisTrap (c : Fin 48) (cause : BitVec 8) (tval : W64) (code : List RvStep)
  /-- RECOMBINE. R256. The RECOMBINE descriptor at the head of Chamois tile `c`'s queue. -/
  | recombine (c : Fin 48)
  /-- MOVER_TRANSFER. R159. The running kernel's mover moves data. -/
  | moverTransfer (c : Fin 48) (m : MoverCmd) (code : List RvStep)
  /-- MOVER_SWAP. R159. The running kernel's mover sends a swap request. -/
  | moverSwap (c : Fin 48) (lx ly : Nat) (buf : Fin 2) (code : List RvStep)
  /-- KUDU_DESCRIPTOR. R166. The executive of cluster `m` starts the descriptor at the head of its queue. -/
  | kuduDescriptor (m : Fin 8)
  /-- KUDU_DESCRIPTOR_COMPLETE. R310. The descriptor on a hart completes, once it has run the rest of its code. -/
  | kuduDescriptorComplete (m : Fin 8) (hart : Fin 16) (code : List RvStep)
  /-- KUDU_TRAP. R167. A user-mode trap ends the descriptor on a hart: the first of `code`, else one of another cause. -/
  | kuduTrap (m : Fin 8) (hart : Fin 16) (cause : BitVec 8) (tval : W64) (code : List RvStep)
  /-- LOCKSTEP_MISMATCH. R169. The Secure Markhor's two cores disagree. -/
  | lockstepMismatch
  /-- WATCHDOG_EXPIRY. R172. The watchdog of command-processor core `cp` expires. -/
  | watchdogExpiry (cp : Fin 6)
  /-- FW_STAGE. R175. The maintenance packet at the head of queue 32. -/
  | fwStage
  /-- TRIAL_BOOT_TIMEOUT. R176. A trial image has not reached ready within 1,000 ms. -/
  | trialBootTimeout (aux : Bool)
  /-- PE_OWNER_WRITE. R181. A write of PE_OWNER by the PF or by the secure world. -/
  | peOwnerWrite (secure : Bool) (e : Fin 4) (v : W32)
  /-- PSET_LOAD. R185. PE `e` executes the PSET_LOAD at the head of its queue. -/
  | psetLoad (e : Fin 4)
  /-- NTT. R189. -/
  | ntt (e : Fin 4)
  /-- INTT. R189. -/
  | intt (e : Fin 4)
  /-- ADD. R190. -/
  | add (e : Fin 4)
  /-- SUB. R190. -/
  | sub (e : Fin 4)
  /-- MUL. R190. -/
  | mul (e : Fin 4)
  /-- AUTO. R191. -/
  | auto (e : Fin 4)
  /-- BASE_EXT. R192. -/
  | baseExt (e : Fin 4)
  /-- KEYSWITCH. R195. -/
  | keyswitch (e : Fin 4)
  /-- MASK. R202. -/
  | mask (e : Fin 4)
  /-- PE_OP_COMPLETE. R201. The operation of PE `e` reaches its last write. -/
  | peOpComplete (e : Fin 4)
  /-- PE_PACE_FAULT. R200. A read of PE `e` is late for the pace. -/
  | pePaceFault (e : Fin 4)
  /-- MEMORY_REQUEST. R211. A memory request is translated, checked and performed. -/
  | memoryRequest (m : MemReq)
  /-- TRANSLATION_MISS_FILL. R213. A miss at the entry tile of ring position `tile` completes; entry number `drop` of that cache gives way if it is full. -/
  | translationMissFill (tile : Fin 24) (ctx : Fin 9) (v : Nat) (drop : Nat)
  /-- MEM_INV. R214. A write of MEM_INV. -/
  | memInv (v : W32)
  /-- MEM_FRAME_OWN_WRITE. R215. A write of MEM_FRAME_OWN by the PF or by the secure world. -/
  | memFrameOwnWrite (secure : Bool) (v : W32)
  /-- BAR4_ACCESS. R226. A host access through PF BAR4. -/
  | bar4Access (o : Nat) (a : HostAccess)
  /-- DMA_DESCRIPTOR. R229. The DMA engine starts the admitted descriptor. -/
  | dmaDescriptor
  /-- DMA_COMPLETE. R310. The `k`-th DMA descriptor in execution completes. -/
  | dmaComplete (k : Nat)
  /-- PF_FLR. R233. FLR of the PF. -/
  | pfFlr
  /-- VF_FLR. R233. FLR of the VF of region `r`. -/
  | vfFlr (r : Fin 8)
  /-- POWER_STATE_CHANGE. R224. A function enters D3hot or D0. -/
  | powerStateChange (fn : Fin 9) (d3 : Bool)
  /-- SEAL_OFFER. R243. Message 0x01 in secured session `sid`. -/
  | sealOffer (sid : Nat) (msg : List Byte)
  /-- SEAL_RESUME. R263. Message 0x02. -/
  | sealResume (sid : Nat) (msg : List Byte)
  /-- TAG_KEY_SET. R244. Message 0x03. -/
  | tagKeySet (sid : Nat) (msg : List Byte)
  /-- SEAL_QUERY. R242. Message 0x04. -/
  | sealQuery (sid : Nat) (msg : List Byte)
  /-- KEY_EXCHANGE. R240. SPDM KEY_EXCHANGE by a requester with P-256 public key `reqKey` (X then Y). -/
  | keyExchange (mutualAuth : Bool) (reqKey : List Byte)
  /-- GET_MEASUREMENTS. R241. Measurement block `index`; 0xFF asks for all. -/
  | getMeasurements (index : Nat)
  /-- GET_CERTIFICATE. R239. The certificate chain of a slot. -/
  | getCertificate (slot : Nat)
  /-- SESSION_END. R243. A secured session ends. -/
  | sessionEnd (sid : Nat)
  /-- KEY_PROG. R250. IDE_KM KEY_PROG for stream slot `k`. -/
  | keyProg (sid : Nat) (k : Fin 8) (streamId : Byte) (fn : Fin 9) (keySet : Fin 2) (sub : Fin 3) (transmit : Bool)
      (key : List Byte)
  /-- K_SET_GO. R250. IDE_KM K_SET_GO. -/
  | kSetGo (sid : Nat) (k : Fin 8) (keySet : Fin 2)
  /-- IDE_INTEGRITY_FAILURE. R250. A received TLP of stream slot `k` fails its check. -/
  | ideIntegrityFailure (k : Fin 8)
  /-- LOCK_INTERFACE_REQUEST. R251. TDISP lock of the VF of region `r`, naming stream slot `k`. -/
  | lockInterfaceRequest (sid : Nat) (r : Fin 8) (k : Fin 8) (noFwUpdate : Bool)
  /-- START_INTERFACE_REQUEST. R252. -/
  | startInterfaceRequest (sid : Nat) (r : Fin 8)
  /-- STOP_INTERFACE_REQUEST. R253. -/
  | stopInterfaceRequest (sid : Nat) (r : Fin 8)
  /-- REGION_SEAL. R245. The maintenance packet at the head of queue 32. -/
  | regionSeal
  /-- SEAL_COMPLETE. R247. Steps 4-7 of Table 11-6; `measured`: the executives and monitors match their slots. -/
  | sealComplete (r : Fin 8) (measured : Bool)
  /-- RAIL_FAULT. R262. A rail fault cuts the tile at (x, y) at once. -/
  | railFault (x y : Nat)
  /-- DOORBELL. R278. A 64-bit doorbell write; `stores` are the host-memory bytes the host made visible before it. -/
  | doorbell (w : View) (i : Fin 33) (data : W64) (stores : List (Nat × Byte))
  /-- CCONS_WRITE. R291. A write at offset 8 of a doorbell page. -/
  | cconsWrite (w : View) (i : Fin 33) (v : W32)
  /-- QUEUE_ENABLE. R274. A write of QUE_CTRL with enable = 1. -/
  | queueEnable (w : View) (i : Fin 33) (v : W32)
  /-- QUEUE_DISABLE. R274. A write of QUE_CTRL with enable = 0 to an enabled queue. -/
  | queueDisable (w : View) (i : Fin 33) (v : W32)
  /-- PACKET_FETCH. R281. The fetcher of queue `i` reads its next packet or goes idle. -/
  | packetFetch (i : Fin 33)
  /-- NOP. R282. The packet at the head of queue `i`. -/
  | nop (i : Fin 33)
  /-- RUN. R284. Check and staging of the RUN at the head of queue `i`, or of the RUN behind a running one. -/
  | run (i : Fin 33)
  /-- CANCEL. R285. -/
  | cancel (i : Fin 33)
  /-- FENCE_SIGNAL. R286. -/
  | fenceSignal (i : Fin 33)
  /-- FENCE_WAIT. R286. -/
  | fenceWait (i : Fin 33)
  /-- EVENT_RECORD. R313. -/
  | eventRecord (i : Fin 33)
  /-- EVENT_WAIT. R286. -/
  | eventWait (i : Fin 33)
  /-- QUERY. R287. -/
  | query (i : Fin 33)
  /-- RING_JOIN. R359. The maintenance packet at the head of queue 32, with what the join meets: the TN the ring shows,
  whether loopback training and attestation succeed, and for each port whether the peer's measurements match (R362). -/
  | ringJoin (ringTn : Nat) (trained attested : Bool) (meas : BitVec 2)
  /-- RING_LEAVE. R361. -/
  | ringLeave
  /-- TICK_CONFIG. R23. The maintenance packet at the head of queue 32. -/
  | tickConfig
  /-- JOB_START. R317. A ready RUN of region `r`'s queue `q` starts. -/
  | jobStart (r : Fin 8) (q : Fin 4)
  /-- LAUNCH. R310. The current control word of the job of region `r`'s queue `q`. -/
  | launch (r : Fin 8) (q : Fin 4)
  /-- CHAIN_ARM. R311. -/
  | chainArm (r : Fin 8) (q : Fin 4)
  /-- CHAIN_FIRE. R311. The `k`-th armed chain of the job fires or is dropped. -/
  | chainFire (r : Fin 8) (q : Fin 4) (k : Nat)
  /-- WAIT_EVENT. R314. -/
  | waitEvent (r : Fin 8) (q : Fin 4)
  /-- WAIT_FENCE. R312. -/
  | waitFence (r : Fin 8) (q : Fin 4)
  /-- SIGNAL_FENCE. R312. -/
  | signalFence (r : Fin 8) (q : Fin 4)
  /-- SIGNAL_EVENT. R313. -/
  | signalEvent (r : Fin 8) (q : Fin 4)
  /-- RECORD_POINT. R312. The oldest deferred effect of the job takes place. -/
  | recordPoint (r : Fin 8) (q : Fin 4)
  /-- IF_CMP. R303. -/
  | ifCmp (r : Fin 8) (q : Fin 4)
  /-- LOOP. R304. -/
  | loop (r : Fin 8) (q : Fin 4)
  /-- JUMP. R303. -/
  | jump (r : Fin 8) (q : Fin 4)
  /-- LOCK. R315. -/
  | lock (r : Fin 8) (q : Fin 4)
  /-- UNLOCK. R315. -/
  | unlock (r : Fin 8) (q : Fin 4)
  /-- PRELOAD. R318. -/
  | preload (r : Fin 8) (q : Fin 4)
  /-- AT_TICK_WAIT. R305, arm = 0. -/
  | atTickWait (r : Fin 8) (q : Fin 4)
  /-- AT_TICK_REACHED. R305. Tick T begins for the waiting program. -/
  | atTickReached (r : Fin 8) (q : Fin 4)
  /-- AT_TICK_ARM. R305, arm = 1. -/
  | atTickArm (r : Fin 8) (q : Fin 4)
  /-- EMIT_STORE. R306 kind 0. -/
  | emitStore (r : Fin 8) (q : Fin 4)
  /-- TICK_STOP. R306 kind 1. -/
  | tickStop (r : Fin 8) (q : Fin 4)
  /-- MAP_UNMAP. R306 kind 2, map 0. -/
  | mapUnmap (r : Fin 8) (q : Fin 4)
  /-- MAP_HBM. R306 kind 2, map 1. -/
  | mapHbm (r : Fin 8) (q : Fin 4)
  /-- MAP_STORE. R306 kind 2, map 2. -/
  | mapStore (r : Fin 8) (q : Fin 4)
  /-- MAP_HOST. R306 kind 2, map 3. -/
  | mapHost (r : Fin 8) (q : Fin 4)
  /-- END. R320. -/
  | endJob (r : Fin 8) (q : Fin 4)
  /-- HANG_DETECTED. R329. The job's idle count reaches its budget. -/
  | hangDetected (r : Fin 8) (q : Fin 4)
  /-- DRAIN_END. R331. No engine still executes a descriptor of the stopped job. -/
  | drainEnd (r : Fin 8) (q : Fin 4)
  /-- KILL. R332. drain_ticks have passed with an engine still busy. -/
  | kill (r : Fin 8) (q : Fin 4)
  /-- CAPTURE_COPY_DONE. R334. The capture blocks are copied into the save slot. -/
  | captureCopyDone (r : Fin 8) (q : Fin 4)
  /-- RESTART. R337. A restartable job starts its next attempt. -/
  | restart (r : Fin 8) (q : Fin 4)
  /-- REGION_RECOVERY_COMPLETE. R339. Recovery of region `r` finishes. -/
  | regionRecoveryComplete (r : Fin 8)
  /-- LOG_CLEAR. R326. 1 written to FIRST's valid bit of region log 0-7 or of the device log (8). -/
  | logClear (w : View) (log : Fin 9)
  /-- MARKER_ARRIVAL. R352. Codeword 0 of the peer's tick, 85 bytes, arrives on ring port `p` (0 Up, 1 Down) at CCLK offset `cclk`. -/
  | markerArrival (p : Fin 2) (word : List Byte) (cclk : Nat)
  /-- RING_FLIT_ARRIVAL. R354. The ring flit of a slot arrives: the codewords that carry it, 85 bytes each. -/
  | ringFlitArrival (p : Fin 2) (slot : Nat) (words : List (List Byte))
  /-- RETRY_TIMEOUT. R354. No ack has advanced for 2 ticks. -/
  | retryTimeout (p : Fin 2)
  /-- PORT_DOWN. R355. The port direction goes DOWN. -/
  | portDown (p : Fin 2)
  /-- PORT_RETRAIN. R355. A DOWN port retries training. -/
  | portRetrain (p : Fin 2)
  /-- RING_FORMATION. R360. The lead numbers or admits the joining modules. -/
  | ringFormation (f : Formation)
  /-- RING_JOIN_TIMEOUT. R359. join_timeout ticks pass. -/
  | ringJoinTimeout
  /-- STREAM_KEY_ADVANCE. R363. The stream's key_index advances. -/
  | streamKeyAdvance (r : Fin 8)
  /-- BLOCK_STAGED. R366. All bytes of ring block `bid` are in staging. -/
  | blockStaged (r : Fin 8) (bid : Fin 16)
  /-- RING_CUTOFF. R370. The cutoff slot of an in entry. -/
  | ringCutoff (r : Fin 8) (entry : Nat)
  /-- RING_RGN_RSV_WRITE. R374. A PF write of RING_RGN_RSV. -/
  | ringRgnRsvWrite (r : Fin 8) (v : W32)
  /-- POWER_LIMIT_EXCEEDED. R379. The measured averages. -/
  | powerLimitExceeded (m : PowerAvg)
  /-- GATE_WRITE. R382. A write of PWR_TILE for the selected tile. -/
  | gateWrite (secure : Bool) (v : W32)
  /-- DUTY_UPDATE. R383. Junction temperatures (tile index 16·y + x, 1/16 °C) at a boundary with TN mod 64 = 0. -/
  | dutyUpdate (tj : List (Nat × Int))
  /-- THERMAL_TRIP. R386. A tile reaches 110 °C. -/
  | thermalTrip (x y : Nat) (tj : Int)
  /-- TILE_COOLED. R386. A cut tile falls below 95 °C. -/
  | tileCooled (x y : Nat) (tj : Int)
  /-- INPUT_POWER_LOSS. R388. All module input power is lost, or only the auxiliary supply. -/
  | inputPowerLoss (all : Bool)
  /-- AUX_PRESENT_CHANGE. R397. What Stag reads at the auxiliary connector. -/
  | auxPresentChange (millivolts : Nat) (sense0 sense1 : Bool)
  /-- COLD_RESET. R392. Power-good after a power cycle or a Stag reset; `aux`: the auxiliary supply is present. -/
  | coldReset (aux : Bool)
  /-- WARM_RESET. R392. PERST# assertion. -/
  | warmReset (aux : Bool)
  /-- STARTUP_STAGE_COMPLETE. R390. The current start-up stage passes or fails, having taken `ms` milliseconds; `cores` are
  the command-processor cores whose self-test passes in stage NORMAL (R172), `kat` whether the conditioner's power-on known-answer
  test passes in stage ROM (R108). -/
  | startupStageComplete (ok : Bool) (ms : Nat) (cores : BitVec 6) (kat : Bool)
  /-- GET_STATE. R406. -/
  | getState
  /-- STAG_COLD_RESET. R406. -/
  | stagColdReset
  /-- WRITE_BANK. R406. -/
  | writeBank (ofs : Nat) (data : List Byte)
  /-- COMMIT_BANK. R406. -/
  | commitBank
  /-- PLDM_SENSOR_READ. R405. A read of sensor `id`, with the quantity Stag measures. -/
  | pldmSensorRead (id : Nat) (measured : Int)
  /-- EXTEST. R408. -/
  | extest
  /-- CLAMP. R408. -/
  | clamp
  /-- HIGHZ. R408. -/
  | highz
  /-- SAMPLE_PRELOAD. R407. The levels at the chain's pins. -/
  | samplePreload (pins : List Bool)
  /-- IDCODE. R407. -/
  | idcode
  /-- BYPASS. R407. BYPASS, or an instruction code that is not admitted. -/
  | bypass (code : Nat)
  /-- REGISTER_WRITE. R411. A BAR0 write of `width` bits to a register with no row of its own, at CCLK offset `cclk` of the
  current tick. -/
  | registerWrite (w : View) (off width : Nat) (v : W64) (cclk : Nat)
  /-- PERST_DEASSERTION. R389. The link trains to speed code `speed` (1 to 5) and `width` lanes (R224). -/
  | perstDeassertion (speed width : Nat)
  /-- CONFIGURATION_WRITE. R253. A PCIe configuration write. -/
  | configurationWrite (c : CfgWrite)
  /-- TILE_POWER_RETURN. R262. -/
  | tilePowerReturn (x y : Nat)
  /-- ADMIT_HOLD_CLEAR. R379. -/
  | admitHoldClear (m : PowerAvg)
  /-- RAW_SAMPLE. R102. Entropy source `src` produces a raw sample. -/
  | rawSample (src : Fin 16) (b : Bool)
deriving DecidableEq, Repr

end Sys2Proof
end

