-- ==== Sys2Proof/Decode.lean ====
section
/-!
DEFINITION. The table's words. spec/opcode_table.json gives none of its 186 rows any bits (every row is an operation or
an event of the block), so no word spells a command.
-/
namespace Sys2Proof

/-- The command that a word of the table spells: none, since the table gives no row any bits. -/
def decodeTableWord (_nbits _w : Nat) : Option Instr := none

end Sys2Proof
end

