-- ==== Sys2Proof/Machine/State.lean ====
section
/-!
DEFINITION. The state of the XS-64 block: every register, buffer, counter, mode and pin the spec gives it, grouped by
the spec's register blocks, and the queue of waiting commands. Each field's comment gives its width, the file and rule
of spec/ that names it, and its value at reset; "model's own" marks what the model needs beside the spec's names.
-/
namespace Sys2Proof.Machine

/-- Sparse memory: (address, byte) pairs, addresses strictly rising, no entry 0 (what an unlisted address reads as). -/
abbrev Mem := List Host.Cell

/-! ### DEV: start-up and reset (ch. 16, 17) -/

/-- DEV_STATUS.stage (Table 16-7). -/
inductive Stage where
  | power | rom | verify | hbm | selftest | entropy | normal | ready | failed
deriving DecidableEq, Repr

/-- DEV_STATUS.reset_cause (Table 16-7). -/
inductive ResetCause where
  | powerCycle | perst | pfFlr | stag | stagThermal
deriving DecidableEq, Repr

/-- What the TAP's instruction holds the pins with (R408). -/
inductive TestMode where
  | none | extest | clamp | highz
deriving DecidableEq, Repr

structure DevState where
  /-- DEV_STATUS.ready; 1 bit; 16 R389; reset 0 -/
  ready : Bool
  /-- DEV_STATUS.stage; 4 bits; 16 R389; reset 0 (POWER) -/
  stage : Stage
  /-- DEV_STATUS.reset_cause; 3 bits; 16 Table 16-7; reset 0 (power cycle; the register reads 0 before boot, 18 R412) -/
  resetCause : ResetCause
  /-- DEV_BOOT.boot_ms; 16 bits; 16 Table 16-7; reset 0 -/
  bootMs : Nat
  /-- DEV_BOOT.hbm_ms; 16 bits; 16 Table 16-7; reset 0 -/
  hbmMs : Nat
  /-- DEV_SCRATCH; 32 bits RWS; 16 Table 16-7, 18 R411; reset 0 -/
  scratch : W32
  /-- module input power present; 1 bit; 16 R388; reset DESIGN CHOICE true (log entry 5) -/
  powered : Bool
  /-- PERST# asserted; 1 bit; 16 R392; reset DESIGN CHOICE false (log entry 5) -/
  perst : Bool
  /-- a cold reset Stag must apply next, by cause; 16 R386, R388, 8 R176, 17 R406; reset none (model's own) -/
  stagReset : Option ResetCause
  /-- the TAP instruction that holds the pins; 17 R408; reset none -/
  test : TestMode
  /-- the start-up that runs is a warm one (Table 16-4); 16 R392; reset false (model's own) -/
  warm : Bool
deriving DecidableEq, Repr

/-! ### TICK: Pennant (ch. 2) -/

/-- TICK_STATUS.lock_state (Table 2-3). -/
inductive Lock where
  | freeRun | acquiring | locked | holdover
deriving DecidableEq, Repr

/-- TICK_CTRL.source (Table 2-2). -/
inductive TickSource where
  | internal | halyard | ring
deriving DecidableEq, Repr

/-- The TICK_RGN registers of a region (Tables 2-10 to 2-13). -/
structure TickRgn where
  /-- TICK_RGN_STAT.ticking; 1 bit; 02 Table 2-10; reset 0 -/
  ticking : Bool
  /-- TICK_RGN_STAT.continuing; 1 bit; 02 R27; reset 0 -/
  continuing : Bool
  /-- TICK_RGN_STAT.evid_active_write; 1 bit W1C; 02 R44; reset 0 -/
  evidActiveWrite : Bool
  /-- TICK_RGN_STAT.consec_overrun; 4 bits; 02 R28; reset 0 -/
  consec : Nat
  /-- TICK_RGN_STAT.overrun_limit; 4 bits; 02 Table 2-10; reset 4 -/
  limit : Nat
  /-- TICK_RGN_OVR.overrun_count; 32 bits saturating; 02 Table 2-11; reset 0 -/
  overruns : Nat
  /-- TICK_RGN_OVR_TN.last_overrun_tn; 64 bits; 02 R30; reset 0 -/
  lastOverrunTn : Nat
  /-- TICK_RGN_SLACK.last_done_slot; 8 bits; 02 R30; reset 0xFF -/
  lastDoneSlot : Nat
  /-- TICK_RGN_SLACK.max_done_slot; 8 bits; 02 R30; reset 0 -/
  maxDoneSlot : Nat
deriving DecidableEq, Repr

structure TickState where
  /-- TN; 64 bits; 02 R22, R23; reset 0 -/
  tn : W64
  /-- TICK_STATUS.tn_epoch; 16 bits wrapping; 02 R23; reset 0 -/
  tnEpoch : BitVec 16
  /-- ticks run (TN 0 has begun); 1 bit; 02 R23; reset false -/
  running : Bool
  /-- mtime at the beginning of the tick, which counts CCLK; 64 bits; 07 R158, 08 R165; reset DESIGN CHOICE 0 (log entry 5) -/
  mtime : W64
  /-- an accepted TICK_CONFIG or ring TN waiting for the next boundary; 64 bits; 02 R23; reset none -/
  newTn : Option W64
  /-- TN of the tick before the present one; 64 bits; 02 R41; reset DESIGN CHOICE 0 (model's own; log entry 5) -/
  lastTn : W64
  /-- the reference tick (HALYARD) or tick (RING) of the last reference event evaluated; 02 R31; reset none (model's own) -/
  refDone : Option Int
  /-- TICK_CTRL.source; 2 bits; 02 Table 2-4; reset INTERNAL -/
  source : TickSource
  /-- TICK_CTRL.tick_in_sel; 2 bits; 02 Table 2-4; reset 0 -/
  inSel : Nat
  /-- TICK_CTRL.tick_in_edge; 1 bit; 02 Table 2-4; reset 0 -/
  inEdge : Bool
  /-- TICK_IN_CFG.tick_in_div (P - 1); 16 bits; 02 Table 2-7; reset 0 -/
  inDiv : Nat
  /-- TICK_IN_CFG.tick_in_phase; 16 bits; 02 Table 2-7; reset 0 -/
  inPhase : Nat
  /-- TICK_IN_OFS.tick_in_offset; int16; 02 Table 2-8; reset 0 -/
  inOfs : Int
  /-- TICK_STATUS.lock_state; 2 bits; 02 R31; reset FREE_RUN -/
  lock : Lock
  /-- run of references within the bound; 02 R31; reset DESIGN CHOICE 0 (log entry 5) -/
  runWithin : Nat
  /-- run of references beyond the bound; 02 R31; reset DESIGN CHOICE 0 (log entry 5) -/
  runBeyond : Nat
  /-- run of missed events; 02 R31; reset DESIGN CHOICE 0 (log entry 5) -/
  runMissed : Nat
  /-- TICK_PHASE.phase_err; int16, 1/16 CCLK; 02 Table 2-9; reset 0 -/
  phaseErr : Int
  /-- TICK_PHASE.trim; int16, 0.01 ppm; 02 R24, R32; reset 0 -/
  trim : Int
  /-- latch of TN[63:32] per view, PF then VF1-VF8; 32 bits each; 18 R414; reset DESIGN CHOICE 0 (log entry 5) -/
  latch : Vector W32 9
  /-- the TICK_RGN registers, regions 0-7; 02 R46 -/
  rgn : Vector TickRgn 8
deriving DecidableEq, Repr

/-! ### HALY: Halyard lines (ch. 2) -/

/-- The owner of a line (Table 2-14): region 0-7, device 8, none 0xF. -/
inductive Owner where
  | rgn (n : Fin 8)
  | device
  | nobody
deriving DecidableEq, Repr

/-- Output schedule mode (Table 2-15). -/
inductive OutMode where
  | off | trigger | strobe
deriving DecidableEq, Repr

/-- A schedule as armed (R34, R35). -/
structure Sched where
  start : Nat
  offset : Nat
  mode : OutMode
  width : Nat
  period : Nat
  count : Nat
  endSel : Nat
  endEn : Bool
  endEdge : Bool
  /-- index of the next pulse to rise -/
  next : Nat
  /-- pulses that rise at or after this TN do not happen (R37, a replaced schedule) -/
  cutoff : Option Nat
deriving DecidableEq, Repr

/-- A pulse in progress: the TN and offset of its rise, its width and end rule (R34, R35). -/
structure Pulse where
  tn : Nat
  offset : Nat
  width : Nat
  endSel : Nat
  endEn : Bool
  endEdge : Bool
  strobe : Bool
deriving DecidableEq, Repr

/-- The level of an output at the connector (R34). -/
inductive Pin where
  | hiZ | low | high
deriving DecidableEq, Repr

structure HalyOut where
  /-- HALY_OUT_OWNER.out_owner_n; 4 bits; 02 R39; reset 0xF -/
  owner : Owner
  /-- HALY_OUT_START; 64 bits; 02 R46; reset 0 -/
  start : W64
  /-- HALY_OUT_TIMING.offset; 12 bits; 02 Table 2-15; reset 0 -/
  offset : Nat
  /-- HALY_OUT_TIMING.mode; 2 bits; 02 Table 2-15; reset 0 -/
  mode : OutMode
  /-- HALY_OUT_TIMING.end_in_sel; 2 bits; 02 Table 2-15; reset 0 -/
  endSel : Nat
  /-- HALY_OUT_TIMING.end_in_en; 1 bit; 02 Table 2-15; reset 0 -/
  endEn : Bool
  /-- HALY_OUT_TIMING.end_edge (1 falling); 1 bit; 02 Table 2-15; reset 0 -/
  endEdge : Bool
  /-- HALY_OUT_WIDTH.width_ticks; 16 bits; 02 Table 2-15; reset 0 -/
  widthTicks : Nat
  /-- HALY_OUT_WIDTH.width_cclk; 12 bits; 02 Table 2-15; reset 0 -/
  widthCclk : Nat
  /-- HALY_OUT_PERIOD; 24 bits; 02 R46; reset 0 -/
  period : Nat
  /-- HALY_OUT_COUNT; 32 bits; 02 R46; reset 0 -/
  count : Nat
  /-- HALY_OUT_STAT.arm_err; 3 bits; 02 R36; reset 0 -/
  armErr : Nat
  /-- HALY_OUT_STAT.pulses_done; 24 bits saturating; 02 R34; reset 0 -/
  pulsesDone : Nat
  /-- the armed schedule; 02 R36; reset none -/
  sched : Option Sched
  /-- replaced schedules whose earlier pulses still happen; 02 R37; reset none -/
  old : List Sched
  /-- the pulses in progress; 02 R34; reset none -/
  pulses : List Pulse
  /-- the output's level at the connector; 02 R34; reset hiZ -/
  pin : Pin
deriving DecidableEq, Repr

/-- One timestamp (Table 2-16, R42). -/
structure Stamp where
  tn : Nat
  ofs : Nat
  rising : Bool
  lost : Bool
deriving DecidableEq, Repr

structure HalyIn where
  /-- HALY_IN_OWNER.in_owner_n; 4 bits; 02 R39; reset 0xF -/
  owner : Owner
  /-- instant, in CCLK from TN 0, at which the present owner took the line; 02 R39; reset none (model's own) -/
  ownerSince : Option Int
  /-- HALY_IN_CFG.edges; 2 bits; 02 Table 2-16; reset 0 -/
  edges : Nat
  /-- HALY_IN_CFG.filter; 8 bits; 02 Table 2-16; reset 0 -/
  filter : Nat
  /-- the level at the connector, an input pin; 02 R41; reset DESIGN CHOICE low (log entry 5); no reset changes it -/
  pin : Bool
  /-- filtered level; 1 bit; 02 R41; after any reset the level at the connector -/
  level : Bool
  /-- FIFO of timestamps, at most 64; 02 R42; reset empty -/
  fifo : List Stamp
  /-- a drop since the last entry that entered; 02 R42; reset false -/
  lost : Bool
  /-- HALY_IN_STAT.lost_count; 16 bits saturating W1C; 02 R42; reset 0 -/
  lostCount : Nat
deriving DecidableEq, Repr

structure HalyState where
  /-- HALY_CTRL.out_enable; 1 bit; 02 R34; reset 0 -/
  outEnable : Bool
  /-- outputs OUT0-OUT7; 02 R34 -/
  out : Vector HalyOut 8
  /-- inputs IN0-IN3; 02 R41 -/
  inp : Vector HalyIn 4
deriving DecidableEq, Repr

/-! ### MESH and RIM (ch. 3) -/

/-- A slot-table entry (Table 3-2): slot, source (0 idle, 1 N, 2 E, 3 S, 4 W, 5 local), flits. -/
structure SlotEnt where
  slot : Nat
  src : Nat
  flits : Nat
deriving DecidableEq, Repr

/-- A flit in a VC0 buffer, and the slot of the present tick from which it may be forwarded (R51). -/
structure Vc0Held where
  flit : Vc0Flit
  ready : Nat
deriving DecidableEq, Repr

/-- One link direction and the receiving router's input buffers behind it (R47-R49). -/
structure Link where
  /-- bank 0 of the slot table, entries that are not idle; 200 entries of 8 bits; 03 R53; reset idle -/
  bank0 : List SlotEnt
  /-- bank 1 of the slot table; 03 R53; reset idle -/
  bank1 : List SlotEnt
  /-- MESH_LINK_CNT0.vc0_empty; 16 bits saturating; 03 R56; reset 0 -/
  vc0Empty : Nat
  /-- VC0 flits sent in the present tick; 03 R50; reset 0 (model's own: R56's count is taken at the end of the tick) -/
  vc0Sent : Nat
  /-- slot of the present tick in which a VC0 flit was last sent; 03 R50; reset 0 (model's own) -/
  vc0Slot : Nat
  /-- VC0 flits sent in that slot; 03 R50; reset 0 (model's own) -/
  vc0InSlot : Nat
  /-- MESH_LINK_CNT0.vc0_overflow; 16 bits saturating; 03 R56; reset 0 -/
  vc0Overflow : Nat
  /-- MESH_LINK_CNT1.ce_count; 16 bits saturating; 03 R48; reset 0 -/
  ceCount : Nat
  /-- MESH_LINK_CNT1.wall_drop; 16 bits saturating; 03 R66; reset 0 -/
  wallDrop : Nat
  /-- receiver's VC0 buffer, 32 flits; 03 R49; reset empty -/
  vc0 : List Vc0Held
  /-- receiver's VC1, VC2, VC3 buffers, 32, 32 and 8 flits; 03 R49; reset empty -/
  vc : List MeshPacket
  /-- the input served last on VC1, VC2 and VC3 (0 N, 1 E, 2 S, 3 W, 4 local); 03 R50; reset DESIGN CHOICE 4 (log entry 5) -/
  served : Vector (Fin 5) 3
deriving DecidableEq, Repr

structure MeshState where
  /-- MESH_STATUS.selftest_done; 1 bit; 03 Table 3-7; reset 0 -/
  testDone : Bool
  /-- MESH_STATUS.selftest_pass; 1 bit; 03 Table 3-7; reset 0 -/
  testPass : Bool
  /-- MESH_ST_ADDR; 19 bits; 03 Table 3-8; reset 0 -/
  stAddr : Nat
  /-- MESH_LINK_SEL; 10 bits; 03 Table 3-8; reset 0 -/
  linkSel : Nat
  /-- link directions, index 4·(16·y + x) + port; 03 R47 -/
  links : Vector Link 768
  /-- the local VC0 source of every tile, index 16·y + x: flits that the tile sends, of an edge tile those that leave its
  staging buffers; 03 R50, R54; reset empty -/
  src : Vector (List Vc0Flit) 192
  /-- the region tag of each macro-block's tiles; 4 bits; 03 R66; reset 0xF -/
  tag : Vector (Option (Fin 8)) 8
  /-- the tags as written, which `tag` takes at CCLK 0 of the next tick; 4 bits; 03 R70; reset 0xF -/
  tagNext : Vector (Option (Fin 8)) 8
deriving DecidableEq, Repr

/-- Where a device address lies (R211). -/
inductive Place where
  /-- the physical address of a device frame, and for an HBM frame of a SEALED region the context and where the tags of its
  page begin; 10 R219 -/
  | dev (pa : Nat) (tags : Option (Fin 9 × Nat))
  /-- a host bus address -/
  | host (ha : Nat)
  /-- a frame that takes no write of the normal world; 10 R210 -/
  | shut
deriving DecidableEq, Repr

/-- What a Rim flit carries: part of write `id` of a record or reservoir state (R231), or other traffic's bytes. -/
inductive RimLoad where
  | write (id : Nat) (place : Place) (masked : Bool) (data : List Byte)
  | other (bytes : Nat)
deriving DecidableEq, Repr

/-- A Rim flit (R61): the context that owns it (0-7 region, 8 device), its destination ring position, its load. -/
structure RimFlit where
  ctx : Fin 9
  dest : Fin 24
  load : RimLoad
deriving DecidableEq, Repr

/-- A flit waiting in a Rim buffer (R61): the ring position that holds it, its direction, and the slot of the present tick
from which it may leave. -/
structure RimHeld where
  pos : Fin 24
  ccw : Bool
  ready : Nat
  flit : RimFlit
deriving DecidableEq, Repr

/-- A part of a record or reservoir state in a staging buffer (R231): its write, its device address, its bytes. -/
structure Staged where
  id : Nat
  addr : Nat
  masked : Bool
  data : List Byte
deriving DecidableEq, Repr

structure RimState where
  /-- RIM_STATUS.selftest_done; 1 bit; 03 Table 3-7; reset 0 -/
  testDone : Bool
  /-- RIM_STATUS.selftest_pass; 1 bit; 03 Table 3-7; reset 0 -/
  testPass : Bool
  /-- RIM_RSV_SEL; 6 bits; 03 R72; reset 0 -/
  rsvSel : Nat
  /-- owner of unit u of segment direction d = 2·segment + dir; 4 bits each; 03 R60, R62; reset 0xF, unit 0 8 -/
  owner : Vector (Vector (Option (Fin 9)) 32) 48
  /-- the units as allocated, which `owner` takes at CCLK 0 of the next tick; 4 bits each; 03 R62; reset 0xF, unit 0 8 -/
  alloc : Vector (Vector (Option (Fin 9)) 32) 48
  /-- RIM_SEG_CE.ce_count per segment direction; 16 bits saturating; 03 R72; reset 0 -/
  ceCount : Vector Nat 48
  /-- Rim buffers, 32 flits for each position, direction and context; 03 R61; reset empty -/
  held : List RimHeld
  /-- flits sent in the present tick in each lane-slot used, (800·segment direction + 4·slot + lane, flits); 16 at most; 03
  R60; reset empty (model's own) -/
  used : List (Nat × Nat)
  /-- emit staging buffers, per region and ring position; 32 KiB each, oldest part first; 10 R231; reset empty -/
  staging : Vector (Vector (List Staged) 24) 8
  /-- bytes of ring blocks in a region's staging buffers, (ring position, bid, bytes); 15 R366; reset empty -/
  blocks : Vector (List (Fin 24 × Nat × List Byte)) 8
deriving DecidableEq, Repr

/-! ### RGN: regions (ch. 3) -/

/-- RGN_STAT.state (Table 3-13). -/
inductive RState where
  | free | forming | opened | sealed | faulted | disabled
deriving DecidableEq, Repr

/-- Where a queue's packet stands: region or maintenance queue, and position. -/
structure PktRef where
  i : Fin 33
  pos : W32
deriving DecidableEq, Repr

structure Region where
  /-- RGN_CFG.bx0; 1 bit; 03 Table 3-12; reset 0 -/
  bx0 : Nat
  /-- RGN_CFG.by0; 2 bits; 03 Table 3-12; reset 0 -/
  by0 : Nat
  /-- RGN_CFG.bw_m1; 1 bit; 03 Table 3-12; reset 0 -/
  bwM1 : Nat
  /-- RGN_CFG.bh_m1; 2 bits; 03 Table 3-12; reset 0 -/
  bhM1 : Nat
  /-- RGN_CFG.cp; 4 bits; 08 R171; reset 0 -/
  cp : Nat
  /-- RGN_CFG.rim_units; 5 bits; 03 Table 3-12; reset 0 -/
  rimUnits : Nat
  /-- RGN_SEG.seg_mask; 24 bits; 03 Table 3-13; reset 0 -/
  segMask : Nat
  /-- RGN_STAT.state; 3 bits; 03 R68; reset FREE -/
  state : RState
  /-- RGN_STAT.tearing_down; 1 bit; 03 R71; reset 0 -/
  tearingDown : Bool
  /-- RGN_STAT.active_bank; 1 bit; 03 R53; reset 0 -/
  activeBank : Bool
  /-- RGN_GEN; 32 bits wrapping; 03 R70; reset 0 -/
  gen : W32
  /-- the state held before FAULTED; 03 R68, 14 R339; reset FREE (model's own) -/
  before : RState
  /-- the frames claimed in step 1 of creation; 03 R69; reset empty -/
  claimed : List Nat
  /-- the creation or destruction in progress is a VF FLR's (no maintenance packet waits on it); 10 R233; reset false -/
  byFlr : Bool
  /-- a VF FLR waits for the creation or sealing in progress; 10 R233; reset false -/
  flrWaits : Bool
  /-- a REGION_DESTROY waits for the VF FLR's re-creation; 03 R71; reset false -/
  destroyWaits : Bool
  /-- the region's job counter; 32 bits; 12 R292; reset DESIGN CHOICE 0 (set to 0 by REGION_CREATE; log entry 5) -/
  jobCounter : W32
  /-- region recovery: the step of Table 14-3 it stands at, 0 for none; 14 R339; reset 0 -/
  recovery : Nat
deriving DecidableEq, Repr

structure RgnState where
  /-- the regions 0-7; 03 R65 -/
  rgn : Vector Region 8
  /-- RGN_MAP.mb_owner_m; 4 bits each; 03 Table 3-14; reset 0xF -/
  mbOwner : Vector (Option (Fin 8)) 8
deriving DecidableEq, Repr

/-! ### HERD (ch. 4) -/

/-- HERD_STAT.state (Table 4-6). -/
inductive HState where
  | idle | init | sweeping | waiting
deriving DecidableEq, Repr

/-- Per slice: flips of the last completed sweep, flips so far in this one, partial energy Q, FIELD_SAT of the sweep, and
ENERGY_SAT since the sample before (R85, R86, R95). -/
structure Slice where
  flips : Nat
  flipsNow : Nat
  q : Int
  fieldSat : Bool
  energySat : Bool
deriving DecidableEq, Repr

structure HerdTile where
  /-- local memory, 1.5 MiB: states, unary buffers, colour map, halo, send list, format area; 04 R77; reset 0 -/
  mem : Mem
  /-- active HCB image; 64 bytes; 04 R98; reset 0 -/
  hcb : List Byte
  /-- shadow HCB image; 64 bytes; 04 R98; reset 0 -/
  shadow : List Byte
  /-- HERD_STAT.cfg_bank; 1 bit; 04 Table 4-6; reset 0 -/
  cfgBank : Bool
  /-- HERD_STAT.state; 2 bits; 04 Table 4-6; reset IDLE -/
  state : HState
  /-- HERD_STAT.sweep_done; 1 bit; 04 Table 4-6; reset 0 -/
  sweepDone : Bool
  /-- the CCLK offset at which sweep_done was raised; 02 R25, R30; reset 0 (model's own) -/
  doneCclk : Nat
  /-- the TN of the tick in which sweep_done was raised; 02 R25, R30; reset 0 (model's own) -/
  doneTn : Nat
  /-- HERD_STAT.active_unary; 1 bit; 02 R43; reset 0 -/
  activeUnary : Bool
  /-- HERD_STAT.swap_pending and the buffer that the last request latched names; 02 R43; reset none -/
  swap : Option Bool
  /-- an earlier request held back by a continuation or excluded tick, which waits for a fresh sweep (HERD_STAT.swap_pending
  too); 02 R27, 16 R384; reset none -/
  held : Option Bool
  /-- class 0 of the sweep begun waits for exchange flits; 04 R80; reset false (model's own) -/
  waits : Bool
  /-- HERD_STAT.class; 3 bits; 04 Table 4-6; reset 0 -/
  cls : Nat
  /-- HERD_DRAWS.draws, D; 19 bits; 04 R90; reset 0 -/
  draws : Nat
  /-- HERD_SLICE_SEL per view, PF then VF1-VF8; 6 bits each; 04 Table 4-6, 18 R416; reset 0 -/
  sliceSel : Vector Nat 9
  /-- the slices, Q int40 and flips 15 bits each; 04 R86, R95; reset none -/
  slices : List Slice
  /-- HERD_SWEEPS; 32 bits wrapping; 04 R95; reset 0 -/
  sweeps : W32
  /-- HERD_SAT.field_sat; 16 bits saturating; 04 R85; reset 0 -/
  fieldSat : Nat
  /-- HERD_SAT.load_clamp; 16 bits saturating; 04 R73; reset 0 -/
  loadClamp : Nat
  /-- HERD_RECORDS; 32 bits wrapping; 04 R97; reset 0 -/
  records : W32
  /-- colour and frozen flag of every slot as latched at the initialisation tick; 4 bits each; 04 R90; reset empty -/
  colours : List Nat
  /-- exchange flits received since the class began; 04 R80; reset 0 -/
  haloFlits : Nat
  /-- number of the sweep's next draw, q; 04 R89; reset 0 -/
  nextDraw : Nat
  /-- jt of the sweep's first tick; 48 bits; 05 R113; reset 0 -/
  sweepJt : Nat
  /-- β_eff of each slice for the sweep that runs; u8.8; 06 R125; reset empty -/
  betaEff : List Nat
  /-- the generator's key register; 256 bits; 05 R111; reset none (no key) -/
  key : Option (List Byte)
  /-- the shadow key register; 256 bits; 05 R115; reset none -/
  shadowKey : Option (List Byte)
  /-- captured states of the completed sweep, one per slot; 04 R95; reset empty -/
  captured : List Nat
  /-- a stale ring boundary was used since the last sample record (its `stale` flag); 1 bit; 15 R370; reset false (model's own) -/
  stale : Bool
deriving DecidableEq, Repr

/-! ### Ticking jobs and annealing (ch. 4, 6) -/

/-- A write of a record's payload or of a reservoir state that is under way (R132, R231): its number, the parts that are
neither visible nor discarded, and whether one was discarded (R232). -/
structure PartWrite where
  id : Nat
  left : Nat
  dropped : Bool
  /-- a masked write, which nothing waits for; 11 R265 -/
  masked : Bool
deriving DecidableEq, Repr

/-- A record on its way out (R97): what its header will hold, where the record and the chain's count word lie, its head
tile, and the number of its payload's write. -/
structure Emission where
  chain : Nat
  t : Nat
  tn : Nat
  epoch : Nat
  sweep : Nat
  energy : Int
  flags : Nat
  skip : Bool
  addr : Nat
  countAddr : Nat
  head : Fin 64
  write : Nat
deriving DecidableEq, Repr

/-- A reservoir entry (R130). -/
structure ResEntry where
  energy : Int
  hash : W64
  sweep : Nat
  slot : Nat
  /-- valid for the merge: all slice writes complete (R132) -/
  valid : Bool
deriving DecidableEq, Repr

/-- What the ANL registers show of a chain's latest annealing update (R140, Table 6-4). -/
structure ChainShown where
  offset : Nat
  decaying : Bool
  quiet : Nat
  grow : Nat
  best : Int
deriving DecidableEq, Repr

/-- The annealing state of a chain (R126, R130). -/
structure Chain where
  /-- job chain index -/
  idx : Nat
  /-- best; int64; 06 R126; initially 2^63 - 1 -/
  best : Int
  /-- quiet; uint16; 06 R126 -/
  quiet : Nat
  /-- offset; u8.8; 06 R126 -/
  offset : Nat
  /-- decaying; 06 R126 -/
  decaying : Bool
  /-- grow_count; 16 bits saturating; 06 Table 6-4 -/
  grow : Nat
  /-- β_eff of the current sweep; u8.8; 06 R125 -/
  beta : Nat
  /-- sweeps completed in the attempt; 04 R95 -/
  sweeps : Nat
  /-- reservoir entries in reservoir order; 06 R130 -/
  res : List ResEntry
  /-- the state left by the latest completed annealing update, 0 before the first; 06 R140 -/
  shown : ChainShown
deriving DecidableEq, Repr

/-- Ring section entries of a tick plan (Table 15-4). -/
structure RingOut where
  bid : Nat
  dst : Nat
  down : Bool
  len : Nat
deriving DecidableEq, Repr

structure RingIn where
  src : Nat
  bid : Nat
  lx : Nat
  ly : Nat
  cutoff : Nat
  addr : Nat
  len : Nat
  cham : Bool
deriving DecidableEq, Repr

/-- A tick plan as loaded (R53, R54, R318, R365). -/
structure Plan where
  /-- (lx, ly, port, into, entry) -/
  entries : List (Nat × Nat × Port × Bool × SlotEnt)
  tiles : List (Fin 64)
  fields : List (Fin 48)
  acb : List Byte
  sched : List (Nat × Nat)
  stream : Nat
  outs : List RingOut
  ins : List RingIn
  /-- the Q0 packet whose RUN staged it -/
  pos : W32
deriving DecidableEq, Repr

/-- The part of the tick that a ticking job's Herd tiles have reached: before slot 25, in the Sweep phase, after the test of
slot 175 (R22, R25). -/
inductive TickPart where
  | ingest | sweep | emit
deriving DecidableEq, Repr

/-- What a region's ticking job does on its Herd tiles (R92-R97, R113, R134). -/
structure TickJob where
  /-- the active tick plan; 03 R53; reset none -/
  plan : Option Plan
  /-- the staged tick plan of the next Q0 RUN; 13 R317; reset none -/
  shadow : Option Plan
  /-- jt; 48 bits; 05 R113; reset 0 -/
  jt : Nat
  /-- the initialisation tick is still to come or runs; 04 R94; reset false -/
  init : Bool
  /-- sweeps begun in the attempt (w of the sweep in progress or next); 32 bits; 04 R94; reset 0 -/
  w : Nat
  /-- ticks of the present sweep's group already used; 04 R93; reset 0 -/
  groupTick : Nat
  /-- a sweep or group is in progress (begun, not finished); 04 R93; reset false -/
  active : Bool
  /-- this tick is excluded by duty; 16 R384; reset false -/
  excluded : Bool
  /-- the part of the present tick reached; 02 R22; reset ingest (model's own) -/
  part : TickPart
  /-- this tick is a continuation tick of a late sweep; 02 R27; reset false -/
  late : Bool
  /-- the job holds this tick under R92, R107 or R115; 14 R329; reset false -/
  holds : Bool
  /-- ticking ends at the next boundary (TICK_STOP or sweep_limit); 06 R134; reset false -/
  stop : Bool
  /-- ticking has ended normally, a merge may follow; 06 R135; reset false -/
  ended : Bool
  /-- next emission number t; 04 R97; reset 0 -/
  emitNo : Nat
  /-- records written this Emit phase whose headers are still to come; 04 R97; reset empty -/
  emissions : List Emission
  /-- reservoir writes pending, (chain, slot, number of the write); 06 R132; reset empty -/
  pending : List (Nat × Nat × Nat)
  /-- the writes under way; 06 R132, 10 R231; reset empty -/
  writes : List PartWrite
  /-- number of the next write; reset 0 (model's own) -/
  nextWrite : Nat
  /-- Herd tiles of the last ticking job's plan, which keep their charge while L ≥ 1; 16 Table 16-1; reset empty -/
  lastTiles : List (Fin 64)
deriving DecidableEq, Repr

/-- The ANL registers of a region (Tables 6-3 to 6-5). -/
structure AnlRgn where
  /-- ANL_RGN_STAT.active; 1 bit; 06 Table 6-3; reset 0 -/
  active : Bool
  /-- ANL_RGN_STAT.merging; 1 bit; 06 Table 6-3; reset 0 -/
  merging : Bool
  /-- ANL_RGN_STAT.sched_bank; 1 bit; 06 Table 6-3; reset 0 -/
  schedBank : Bool
  /-- active ACB image; 64 bytes; 06 R122; reset 0 -/
  acb : List Byte
  /-- active schedule (t_i, β_i); 06 R123; reset empty -/
  sched : List (Nat × Nat)
  /-- ANL_BETA.beta_sched; 16 bits; 06 Table 6-3; reset 0 -/
  betaSched : Nat
  /-- ANL_CHAIN_SEL, PF copy; 32 bits; 06 R140; reset 0 -/
  chainSelPf : Nat
  /-- ANL_CHAIN_SEL, VF copy; 32 bits; 18 R416; reset 0 -/
  chainSelVf : Nat
  /-- ANL_SCHED_SEL, PF copy; 9 bits; 06 Table 6-5; reset 0 -/
  schedSelPf : Nat
  /-- ANL_SCHED_SEL, VF copy; 9 bits; 18 R416; reset 0 -/
  schedSelVf : Nat
  /-- the chains of the ticking job; 06 R126; reset empty -/
  chains : List Chain
  /-- ANL_DUP.dup_count; 32 bits saturating; 06 R131; reset 0 -/
  dup : Nat
  /-- ANL_MERGE.merged, m of the last merge; 32 bits; 06 R135; reset 0 -/
  merged : Nat
deriving DecidableEq, Repr

structure HerdState where
  /-- the 64 Herd tiles, i = 8·m + k; 04 R98 -/
  tile : Vector HerdTile 64
  /-- the ticking jobs' progress on the Herd, per region; 04 R94 -/
  job : Vector TickJob 8
deriving DecidableEq, Repr

structure AnlState where
  /-- the ANL registers, regions 0-7; 06 R140 -/
  rgn : Vector AnlRgn 8
deriving DecidableEq, Repr

/-! ### NOISE (ch. 5) -/

/-- NOISE_STATUS.state (Table 5-3). -/
inductive NState where
  | gathering | ready | failed
deriving DecidableEq, Repr

/-- One entropy source and its health tests (R99-R102, Table 5-5). -/
structure Source where
  /-- NOISE_SRC_STAT.last_ones; 11 bits; 05 Table 5-5; reset 0 -/
  lastOnes : Nat
  /-- NOISE_SRC_STAT.max_run; 8 bits saturating; 05 Table 5-5; reset 0 -/
  maxRun : Nat
  /-- NOISE_SRC_CNT; 32 bits wrapping; 05 Table 5-5; reset 0 -/
  samples : W32
  /-- last sample; 05 R100; reset none -/
  last : Option Bool
  /-- length of the present run of identical samples; 05 R100; reset 0 -/
  run : Nat
  /-- samples in the present window; 05 R100; reset 0 -/
  count : Nat
  /-- first sample of the present window; 05 R100; reset false -/
  first : Bool
  /-- samples of the present window equal to its first; 05 R100; reset 0 -/
  same : Nat
  /-- ones in the present window; 05 Table 5-5; reset 0 -/
  ones : Nat
  /-- longest run in the present window; 05 Table 5-5; reset 0 -/
  winRun : Nat
  /-- the source has passed its start-up window; 05 R101; reset false -/
  passed : Bool
  /-- the source has failed a test; 05 R108, Table 5-3; reset false -/
  failed : Bool
  /-- the present run has failed the repetition count test; 05 R100; reset false -/
  stuck : Bool
  /-- samples gathered for the conditioner, oldest first; 05 R103; reset empty -/
  gathered : List Bool
deriving DecidableEq, Repr

/-- CTR_DRBG working state (R104): Key, V, and the counts of R105. -/
structure Drbg where
  key : List Byte
  v : List Byte
  /-- generate requests since the last reseed; 05 R105 -/
  requests : Nat
  /-- ticks since the last reseed; 05 R105 -/
  ticks : Nat
deriving DecidableEq, Repr

/-- NOISE_RGN of a region and its keys (R115-R117). -/
structure NoiseRgn where
  /-- NOISE_RGN.mode; 2 bits; 05 Table 5-6; reset 0 -/
  mode : Nat
  /-- NOISE_RGN.key_wait; 1 bit; 05 R115; reset 0 -/
  keyWait : Bool
  /-- FRESH key index i; 05 R115; reset 0 -/
  keyIndex : Nat
  /-- log2 I as read when the attempt started; 05 R115; reset 0 -/
  log2I : Nat
  /-- a request for K_(i+1) is waiting; 05 R115; reset false -/
  requested : Bool
  /-- K_(i+1) as returned, not yet staged; 05 R115; reset none -/
  nextKey : Option (List Byte)
  /-- NR_rgn; 256 bits; 05 R117; reset none -/
  root : Option (List Byte)
deriving DecidableEq, Repr

structure NoiseState where
  /-- NOISE_STATUS.state; 2 bits; 05 R106; reset GATHERING -/
  state : NState
  /-- NOISE_STATUS.startup_done; 1 bit; 05 Table 5-3; reset 0 -/
  startupDone : Bool
  /-- NOISE_STATUS.fail_src; 4 bits; 05 R108; reset 0 -/
  failSrc : Nat
  /-- NOISE_STATUS.fail_cause; 3 bits; 05 Table 5-3; reset 0 -/
  failCause : Nat
  /-- NOISE_STATUS.src_ok; 16 bits; 05 Table 5-3; reset 0 -/
  srcOk : BitVec 16
  /-- NOISE_READY_TN; 64 bits; 05 R121; reset 0 -/
  readyTn : Nat
  /-- NOISE_CFG.fresh_log2; 5 bits; 05 Table 5-4; reset 16 -/
  freshLog2 : Nat
  /-- NOISE_SRC_SEL; 4 bits; 05 R121; reset 0 -/
  srcSel : Nat
  /-- the sixteen sources; 05 R99 -/
  src : Vector Source 16
  /-- conditioned blocks held for the DRBG, at most 2, older first; 256 bits each; 05 R103; reset empty -/
  held : List (List Byte)
  /-- the DRBG, when instantiated (NOISE_STATUS.drbg_inst); 05 R104; reset none -/
  drbg : Option Drbg
  /-- NOISE_DRBG_STAT.reseeds; 16 bits saturating; 05 Table 5-5; reset 0 -/
  reseeds : Nat
  /-- NOISE_RGN and keys, regions 0-7; 05 R121 -/
  rgn : Vector NoiseRgn 8
deriving DecidableEq, Repr

/-! ### Descriptors and engines (ch. 7, 8, 9, 13) -/

/-- The job a descriptor belongs to: region, queue, position of its packet. -/
structure JobRef where
  r : Fin 8
  q : Fin 4
  pos : W32
deriving DecidableEq, Repr

/-- What an engine has prefetched as the next descriptor (R311). -/
inductive Next where
  | none
  | got (d : List Byte)
  | fault
deriving DecidableEq, Repr

/-- A dispatched descriptor (R308, R310): its job, its chain, its 64 bytes, the prefetched successor. -/
structure Desc where
  job : JobRef
  chain : Nat
  bytes : List Byte
  next : Next
  /-- order in which it arrived at its engine (model's own) -/
  stamp : Nat
deriving DecidableEq, Repr

/-- A spill partial (R149): the job and the Ibex tile that sent it, its list position, its 4,096 words. -/
structure Partial where
  job : JobRef
  src : Fin 48
  idx : Nat
  /-- the panel, until it lies in its slot of the spill area -/
  words : List W32
deriving DecidableEq, Repr

/-- IBEX_STAT.state (Table 7-4). -/
inductive IState where
  | idle | busy | waiting | fault
deriving DecidableEq, Repr

structure Ibex where
  /-- local memory 1 MiB and accumulator panels 4 × 16 KiB; 07 R141; reset 0 -/
  mem : Mem
  /-- IBEX_STAT.state; 2 bits; 07 Table 7-4; reset IDLE -/
  state : IState
  /-- IBEX_STAT.field_rsv, by region; 1 bit; 07 R156; reset none -/
  fieldRsv : Option (Fin 8)
  /-- descriptor queue, at most 16 (IBEX_STAT.qdepth); 07 R148; reset empty -/
  queue : List Desc
  /-- the head of the queue has been admitted; 16 R378; reset false -/
  admitted : Bool
  /-- the descriptor that executes; 07 R148; reset none -/
  running : Option Desc
  /-- accumulator panels received from chain predecessors, by job, oldest first; 07 R150; reset empty -/
  chainIn : List (JobRef × List W32)
  /-- flits received in the state window since the last field-mode start; 07 R154; reset 0 -/
  windowFlits : Nat
  /-- IBEX_OPS; 32 bits wrapping; 07 Table 7-4; reset 0 -/
  ops : W32
  /-- IBEX_SAT.sat_count; 16 bits saturating; 07 R153; reset 0 -/
  satCount : Nat
  /-- IBEX_SAT.nan_count; 16 bits saturating; 07 R153; reset 0 -/
  nanCount : Nat
  /-- busy time in CCLK, IBEX_BUSY shows it in units of 1,024; 42 bits wrapping; 07 Table 7-4; reset 0 -/
  busyCclk : Nat
  /-- IBEX_FAULT.fault_cause; 8 bits; 07 Table 7-4; reset 0 -/
  faultCause : Nat
deriving DecidableEq, Repr

/-- CHAM_STAT.state (Table 7-5). -/
inductive CState where
  | idle | kernel | spill | fault
deriving DecidableEq, Repr

/-- A hart (07 R157, 08 R165); the rules give no register a reset value but what RISC-V's does (log entry 5). -/
structure Hart where
  /-- x0-x31; 64 bits each; x0 reads 0; 07 R157, 08 R165; reset DESIGN CHOICE 0 (log entry 5) -/
  x : Vector W64 32
  /-- f0-f31; 64 bits each; 07 R157, 08 R165; reset DESIGN CHOICE 0 (log entry 5) -/
  f : Vector W64 32
  /-- the address of the next instruction; 64 bits; reset DESIGN CHOICE 0 (log entry 5) -/
  pc : W64
  /-- fcsr.fflags; 5 bits; 07 R158; reset DESIGN CHOICE 0 (log entry 5) -/
  fflags : Nat
  /-- fcsr.frm; 3 bits; reset DESIGN CHOICE 0 (log entry 5) -/
  frm : Nat
  /-- instret; 64 bits; reset DESIGN CHOICE 0 (log entry 5) -/
  instret : W64
  /-- the hart is in machine mode; 07 R157, 08 R165; reset true (RISC-V) -/
  machine : Bool
  /-- mepc, mcause, mtval of the last trap; 64 bits each; 07 R160, 08 R167; reset DESIGN CHOICE 0 (log entry 5) -/
  mepc : W64
  mcause : W64
  mtval : W64
  /-- the LR reservation: address and size; 08 R165; reset none -/
  resv : Option (Nat × Nat)
  /-- the memory that instruction fetches see: as of the last FENCE.I; 08 R165; reset empty -/
  seen : Mem
deriving DecidableEq, Repr

/-- The vector unit of a Chamois core, VLEN = 1,024 (07 R157, R158). -/
structure VecUnit where
  /-- v0-v31; 1,024 bits each; 07 R157; reset DESIGN CHOICE 0 (log entry 5) -/
  v : Vector (BitVec 1024) 32
  /-- vl; reset 0 (PRESUMED, RISC-V) -/
  vl : Nat
  /-- vtype's low 8 bits, and vill; reset 0, true (PRESUMED, RISC-V) -/
  vtype : Nat
  vill : Bool
  /-- vstart; 07 R158; reset DESIGN CHOICE 0 (log entry 5) -/
  vstart : Nat
  /-- vxrm; 2 bits; reset DESIGN CHOICE 0 (log entry 5) -/
  vxrm : Nat
  /-- vxsat; 1 bit; reset DESIGN CHOICE 0 (log entry 5) -/
  vxsat : Bool
deriving DecidableEq, Repr

structure Cham where
  /-- local memory 512 KiB; 07 R157; reset 0 -/
  mem : Mem
  /-- CHAM_STAT.state; 2 bits; 07 Table 7-5; reset IDLE -/
  state : CState
  /-- CHAM_STAT.ct_mode; 1 bit; 07 R161; reset 0 -/
  ctMode : Bool
  /-- descriptor queue, at most 16 (CHAM_STAT.qdepth); 07 Table 7-5; reset empty -/
  queue : List Desc
  /-- the descriptor that executes; 07 R157; reset none -/
  running : Option Desc
  /-- registers x10-x13 as passed to the kernel; 64 bits each; 13 Table 13-5; reset 0 -/
  args : Vector W64 4
  /-- entry address of the kernel started; 13 Table 13-5; reset 0 -/
  entry : Nat
  /-- partials on their way to the tile; 07 R149; reset empty -/
  coming : List Partial
  /-- partials held in their slots (CHAM_STAT.spill_recv); 07 R149; reset empty -/
  slots : List Partial
  /-- CHAM_INSTRET; 32 bits wrapping; 07 Table 7-5; reset 0 -/
  instret : W32
  /-- CHAM_CAUSE; 8 bits; 07 Table 7-5; reset 0xFF (Table 18-4 says 0; log entry 12) -/
  cause : BitVec 8
  /-- CHAM_TVAL; 32 bits; 07 Table 7-5; reset 0 -/
  tval : W32
  /-- the Chamois monitor is loaded and matches its measurement; 08 R168; reset false -/
  monitor : Bool
  /-- the monitor's code, of which the spec gives no local address; 08 R168; reset empty -/
  code : List Byte
  /-- the scalar core; 07 R157 -/
  core : Hart
  /-- the vector unit; 07 R157 -/
  vec : VecUnit
  /-- CCLK that the admitted instructions of the kernel have taken in ct_mode, wrapping; 64 bits; 07 R161; reset 0 (model's own) -/
  ctTime : W64
deriving DecidableEq, Repr

structure Kudu where
  /-- shared memory 4 MiB; 08 R165; reset 0 -/
  mem : Mem
  /-- descriptor queue, at most 64 (KUDU_STAT.qdepth); 08 R166; reset empty -/
  queue : List Desc
  /-- descriptors running on harts 1-15 (KUDU_STAT.hart_busy); 08 R166; reset none -/
  hart : Vector (Option Desc) 16
  /-- registers x10-x13 and entry as passed to each hart; 13 Table 13-5; reset 0 -/
  args : Vector (Nat × List W64) 16
  /-- a merge waits ahead of the queue; 08 R166; reset false -/
  mergeWaits : Bool
  /-- KUDU_STAT.merging; 1 bit; 08 Table 8-5; reset 0 -/
  merging : Bool
  /-- KUDU_STAT.exec_loaded; 1 bit; 08 R168; reset 0 -/
  execLoaded : Bool
  /-- KUDU_DONE; 32 bits wrapping; 08 Table 8-6; reset 0 -/
  done : W32
  /-- KUDU_CAUSE.cause; 8 bits; 08 Table 8-6; reset 0xFF -/
  cause : BitVec 8
  /-- KUDU_CAUSE.hart; 4 bits; 08 Table 8-6; reset 0 -/
  trapHart : Nat
  /-- KUDU_TVAL; 32 bits; 08 Table 8-6; reset 0 -/
  tval : W32
  /-- the harts 0-15; 08 R165 -/
  core : Vector Hart 16
  /-- the 16 PMP entries of each hart, configuration and address; 8 and 64 bits; 08 R165; reset DESIGN CHOICE 0 (log entry 5) -/
  pmp : Vector (Vector (Byte × W64) 16) 16
deriving DecidableEq, Repr

/-- PE_STAT.state (Table 9-6). -/
inductive PState where
  | idle | busy | waiting | fault
deriving DecidableEq, Repr

/-- The outcome of a PE operation that waits for its last write (R197, R201). -/
inductive PeResult where
  /-- device writes, (device address, bytes): the bodies of its outputs, then their headers; of KEYSWITCH also the scratch
  area (address, length) -/
  | commit (bodies heads : List (Nat × List Byte)) (scratch : Option (Nat × Nat))
  /-- the key tag differed: the scratch area (address, length), whose last `staged` bytes are zeroed; nothing reaches z -/
  | badTag (scratch : Nat × Nat) (staged : Nat)
  /-- PSET_LOAD: the slot and its new content -/
  | slot (n : Fin 4) (d : List Byte)
deriving DecidableEq, Repr

structure Pe where
  /-- PE_OWNER.owner; 4 bits; 09 R180; reset 0xF -/
  owner : Option (Fin 8)
  /-- PE_OWNER.lend_err; 1 bit W1C; 09 R181; reset 0 -/
  lendErr : Bool
  /-- PE_STAT.state; 2 bits; 09 Table 9-6; reset IDLE -/
  state : PState
  /-- descriptor queue, at most 16 (PE_STAT.qdepth); 09 R183; reset empty -/
  queue : List Desc
  /-- the head of the queue has been admitted; 16 R378; reset false -/
  admitted : Bool
  /-- the descriptor that executes; 09 R183; reset none -/
  running : Option Desc
  /-- its outcome, waiting for the last write; 09 R201; reset none -/
  result : Option PeResult
  /-- parameter-set slots 0-3 (PE_PSET); 09 R184; reset none -/
  pset : Vector (Option (List Byte)) 4
  /-- the blob-tag key register (PE_STAT.tag_key); 256 bits; 09 R194; reset none -/
  tagKey : Option (List Byte)
  /-- PE_OPS; 32 bits wrapping; 09 Table 9-6; reset 0 -/
  ops : W32
  /-- PE_FAULT.cause; 8 bits; 09 Table 9-6; reset 0 -/
  faultCause : Nat
  /-- PE_LAST_T; 32 bits; 09 Table 9-7; reset 0 -/
  lastT : Nat
  /-- MASK operations since cold reset; 62 bits; 09 R203; reset 0 -/
  serial : Nat
  /-- PE_SERIAL of the last MASK; 64 bits; 09 Table 9-7; reset 0 -/
  lastSerial : Nat
  /-- PE_PSET_SEL; 2 bits; 09 Table 9-7, a copy for each view (18 R416); reset 0 -/
  psetSel : Vector Nat 9
deriving DecidableEq, Repr

/-- The DMA engine and the descriptors between engines (R229, R310). -/
structure EngState where
  /-- dispatched descriptors that have not reached their engine's queue; 13 R310; reset empty -/
  flight : List Desc
  /-- the DMA engine's queue; 10 R229; reset empty -/
  dmaQueue : List Desc
  /-- the DMA descriptor admitted but not started; 16 R378; reset none -/
  dmaAdmitted : Option Desc
  /-- DMA descriptors in execution; 16 Table 16-1; reset empty -/
  dmaRunning : List Desc
  /-- arrivals counted, orders waiting descriptors; 16 R378; reset 0 (model's own) -/
  arrivals : Nat
deriving DecidableEq, Repr

/-! ### MKH (ch. 8) -/

/-- A command-processor core (Table 8-9). -/
structure CpCore where
  /-- MKH_CP_STAT.online; 1 bit; 08 R172; reset 0 -/
  online : Bool
  /-- MKH_CP_STAT.regions (and assigned, their number); 8 bits; 08 R171; reset 0 -/
  regions : BitVec 8
  /-- MKH_CP_STAT.offline_cause; 2 bits; 08 Table 8-9; reset 0 -/
  offlineCause : Nat
  /-- the region served last among equals; 12 R271; reset none (model's own) -/
  lastServed : Option (Fin 8)
deriving DecidableEq, Repr

structure MkhState where
  /-- MKH_FW_STAT.active_bank; 1 bit; 08 R176; reset 0 (boot) -/
  activeBank : Bool
  /-- MKH_FW_STAT.pending; 1 bit; 08 R175; reset 0 (boot) -/
  pending : Bool
  /-- MKH_FW_STAT.fallback; 1 bit; 08 R176; reset 0 (boot) -/
  fallback : Bool
  /-- the image that runs is a trial; 08 R176; reset false -/
  trial : Bool
  /-- MKH_FW_STAT.svn; 16 bits; 08 Table 8-7; reset 0 (boot) -/
  svn : Nat
  /-- MKH_FW_REL; 32 bits; 08 Table 8-7; reset 0 (boot) -/
  release : W32
  /-- MKH_MEAS_SEL; 3 bits; 08 R179; reset 0 -/
  measSel : Nat
  /-- the measurement slots 0-7; 256 bits each; 08 R178; reset 0 (boot) -/
  meas : Vector (List Byte) 8
  /-- the memories of Markhor A, B, C and D, 1 MiB each; A's is the secure world's alone, and no command reaches one;
  08 R169, R170; reset 0 -/
  mem : Vector Mem 4
  /-- cores cp 0-5; 08 R170 -/
  cp : Vector CpCore 6
  /-- MKH_SEC_STAT.lockstep_ok; 1 bit; 08 Table 8-9; reset 0 -/
  lockstepOk : Bool
  /-- MKH_SEC_STAT.mismatch; 16 bits saturating; 08 Table 8-9; reset 0 -/
  mismatch : Nat
deriving DecidableEq, Repr

/-! ### MEM (ch. 10) -/

/-- The registers of a context (Tables 10-7, 10-8). -/
structure MemCtx where
  /-- MEM_CTX_CFG.stack_mask; 4 bits; 10 Table 10-7; reset 0 -/
  stackMask : BitVec 4
  /-- MEM_CTX_CFG.tags; 1 bit; 10 Table 10-7; reset 0 -/
  tags : Bool
  /-- MEM_CTX_CFG.key_valid; 1 bit; 10 Table 10-7; reset 0 -/
  keyValid : Bool
  /-- the XTS key of the context, in slot c of every port and Store tile; 512 bits; 10 R218; reset none -/
  key : Option (List Byte)
  /-- the integrity key of a SEALED region; 256 bits; 10 R218; reset none -/
  integKey : Option (List Byte)
  /-- MEM_CTX_PAGES; 17 bits; 10 Table 10-7; reset 0 -/
  pages : Nat
  /-- MEM_CTX_PTB; 40 bits; 10 R210; reset 0 -/
  ptb : Nat
  /-- MEM_CTX_FAULT address; 48 bits; 10 R212; reset 0 -/
  faultAddr : Nat
  /-- MEM_CTX_FAULT_HI.cause; 3 bits; 10 R211; reset 0 -/
  faultCause : Nat
  /-- MEM_CTX_FAULT_HI.fault_valid; 1 bit W1C; 10 R212; reset 0 -/
  faultValid : Bool
  /-- MEM_CTX_INTEG; 32 bits saturating; 10 R221; reset 0 -/
  integ : Nat
  /-- MEM_CTX_EMIT_DROP; 32 bits saturating; 10 R232; reset 0 -/
  emitDrop : Nat
  /-- MEM_INV for this context is waiting for the next boundary (MEM_INV.busy); 10 R214; reset false -/
  invBusy : Bool
  /-- frames that MAP took from the region's pages, free again once MEM_INV has run; 13 R306; reset empty -/
  release : List Nat
deriving DecidableEq, Repr

/-- A translation cache entry (R213): entry tile by ring position, context, page, page-table entry. -/
structure Tlb where
  tile : Fin 24
  ctx : Fin 9
  v : Nat
  pte : Nat
deriving DecidableEq, Repr

/-- A BAR4 window entry (R226). -/
structure WinEnt where
  entry : Nat
  valid : Bool
  ctx : Nat
  page : Nat
deriving DecidableEq, Repr

/-- An HBM stack (Table 10-5). -/
structure Stack where
  /-- MEM_STACK_STAT.trained; 1 bit; 10 Table 10-5; reset 0 -/
  trained : Bool
  /-- MEM_STACK_STAT.ue; 1 bit; 10 Table 10-5; reset 0 -/
  ue : Bool
  /-- MEM_STACK_STAT.ce_count; 16 bits saturating; 10 Table 10-5; reset 0 -/
  ceCount : Nat
deriving DecidableEq, Repr

/-- What a frame that was taken from an owner still holds under that owner's key (R217): its cells by physical address. -/
structure Aside where
  frame : Nat
  key : List Byte
  cells : Mem
deriving DecidableEq, Repr

structure MemState where
  /-- HBM and Store frames by physical address, as their owners read them; 10 R208; reset nothing listed -/
  phys : Mem
  /-- what frames hold under the keys of owners they were taken from; 10 R217; reset nothing -/
  aside : List Aside
  /-- frame owners that are not the reset owner: (frame, owner 0-8 or 15); 4 bits each; 10 R215; reset none listed
  (free 0xF; the carve-out 8) -/
  owner : List (Nat × Nat)
  /-- contexts 0-8; 10 R234 -/
  ctx : Vector MemCtx 9
  /-- translation caches, 64 entries for each entry tile and context, oldest first; 10 R213; reset empty -/
  tlb : List Tlb
  /-- MEM_FRAME_SEL; 19 bits; 10 Table 10-6; reset 0 -/
  frameSel : Nat
  /-- MEM_WIN_SEL; 16 bits; 10 Table 10-8; reset 0 -/
  winSel : Nat
  /-- the window entries that have been written; others are 0 (not valid); 10 R226; reset none -/
  win : List WinEnt
  /-- HBM stacks 0-3; 10 R206 -/
  stack : Vector Stack 4
  /-- MEM_LINK.speed, width, mps; 4, 6, 3 bits; 10 Table 10-5; reset 0 -/
  link : Nat × Nat × Nat
deriving DecidableEq, Repr

/-! ### PCIe functions (ch. 10) -/

structure PcieState where
  /-- D3hot per function, PF then VF1-VF8; 10 R224; reset D0 -/
  d3 : Vector Bool 9
  /-- Command register per function; 16 bits; 10 R253 (11); reset DESIGN CHOICE 0 (log entry 5) -/
  command : Vector (BitVec 16) 9
  /-- BAR registers per function; 32 bits × 6; 10 R225; reset DESIGN CHOICE 0 (log entry 5) -/
  bars : Vector (Vector W32 6) 9
  /-- Max_Payload_Size and Max_Read_Request_Size per function, as powers of two of 128 bytes; 3 bits each; 10 R224; reset 0
  (128) and 2 (512), PRESUMED (log entry 5) -/
  sizes : Vector (Nat × Nat) 9
  /-- SR-IOV VF Enable; 1 bit; 10 R225; reset DESIGN CHOICE false (log entry 5) -/
  vfEnable : Bool
  /-- log2 of the BAR4 size in GiB; 0-7; 10 R225; reset 6 (64 GiB) -/
  bar4 : Nat
  /-- host memory as the device sees it; 10 R229; reset nothing listed (log entry 4) -/
  host : Mem
  /-- VF_TILE_SEL per VF; 18 bits; 18 R421; reset 0 -/
  tileSel : Vector Nat 8
  /-- MSI-X tables as written, (function, byte offset of a word, word), words not listed 0; 18 Table 18-1; reset DESIGN CHOICE 0 (log entry 5) -/
  msixTab : List (Nat × Nat × W32)
deriving DecidableEq, Repr

/-! ### SEC (ch. 11) -/

/-- A secured SPDM session (R240): its number, requester key digest, mutual authentication, and the number of
withdrawals seen by each region when it was established (R263). -/
structure Session where
  sid : Nat
  owner : List Byte
  mutualAuth : Bool
  /-- establishment order (model's own) -/
  since : Nat
deriving DecidableEq, Repr

/-- TDI states (Table 11-4). -/
inductive Tdi where
  | unlocked | locked | run | error
deriving DecidableEq, Repr

/-- A pending seal offer (R243). -/
structure Offer where
  sid : Nat
  owner : List Byte
  policy : BitVec 8
  gen : W32
deriving DecidableEq, Repr

structure SecRgn where
  /-- SEC_RGN_STAT.sealing; 1 bit; 11 Table 11-10; reset 0 -/
  sealing : Bool
  /-- the secure world alone writes the gating controls: from step 3 of sealing until destruction; 11 R259; reset false -/
  gated : Bool
  /-- the pending offer (SEC_RGN_STAT.offer_pending); 11 R243; reset none -/
  offer : Option Offer
  /-- SEC_RGN_STAT.attest_required; 1 bit; 11 R263; reset 0 -/
  attest : Bool
  /-- SEC_RGN_STAT.host_ide; 1 bit; 11 Table 11-10; reset 0 -/
  hostIde : Bool
  /-- SEC_RGN_STAT.ring_ok; 1 bit; 11 Table 11-10; reset 0 -/
  ringOk : Bool
  /-- the blob-tag key (SEC_RGN_STAT.tag_key); 256 bits; 11 R244; reset none -/
  tagKey : Option (List Byte)
  /-- SEC_RGN_STAT.tdi_state; 3 bits; 11 R251; reset CONFIG_UNLOCKED -/
  tdi : Tdi
  /-- the TDI was locked with NO_FW_UPDATE; 11 R251; reset false -/
  noFw : Bool
  /-- SEC_RGN_STAT.stream; 4 bits; 11 Table 11-10; reset 0xF (none) -/
  stream : Option (Fin 8)
  /-- SEC_RGN_EPOCH; 32 bits; 11 R248; reset 0 -/
  epoch : W32
  /-- SEC_RGN_PWW.withdrawals; 16 bits saturating; 11 Table 11-10; reset 0 -/
  withdrawals : Nat
  /-- session count when attest_required was set; 11 R263; reset 0 (model's own) -/
  withdrawnAt : Nat
  /-- SEC_RGN_OWNER; 256 bits; 11 R235; reset 0 -/
  owner : List Byte
deriving DecidableEq, Repr

/-- An IDE stream slot (Table 11-11, R250). -/
structure Stream where
  /-- SEC_IDE_STAT.stream_id; 8 bits; 11 Table 11-11; reset 0 -/
  id : Byte
  /-- SEC_IDE_STAT.secure; 1 bit; 11 Table 11-11; reset 0 -/
  secure : Bool
  /-- SEC_IDE_STAT.key_set; 1 bit; 11 Table 11-11; reset 0 -/
  keySet : Fin 2
  /-- SEC_IDE_STAT.function; 4 bits; 11 Table 11-11; reset 0 -/
  fn : Fin 9
  /-- SEC_IDE_STAT.integ_fail; 16 bits saturating; 11 Table 11-11; reset 0 -/
  fails : Nat
  /-- keys of key sets 0 and 1, each with the key slots 2·sub-stream + direction (0 receive, 1 transmit); 11 R250; reset
  none -/
  keys : Vector (Vector (Option (List Byte)) 6) 2
deriving DecidableEq, Repr

structure SecState where
  /-- SEC_STATUS.secure_up; 1 bit; 11 Table 11-9; reset 0 -/
  up : Bool
  /-- SEC_STATUS.alias_ok; 1 bit; 11 Table 11-9; reset 0 -/
  aliasOk : Bool
  /-- DeviceID, CDI and Alias keys as derived; 256 bits each; 11 R237; reset none -/
  keys : Option (List Byte × List Byte × List Byte)
  /-- the secured sessions, at most 8 (SEC_STATUS.sessions); 11 R240; reset none -/
  sessions : List Session
  /-- sessions established since reset; 11 R240; reset 0 (model's own) -/
  opened : Nat
  /-- SEC_GATE_LOG.last_x; 4 bits; 11 R259; reset 0 -/
  gateX : Nat
  /-- SEC_GATE_LOG.last_y; 4 bits; 11 R259; reset 0 -/
  gateY : Nat
  /-- SEC_GATE_LOG.denied; 16 bits saturating; 11 R259; reset 0 -/
  denied : Nat
  /-- SEC_PWW.withdrawals; 16 bits saturating; 11 Table 11-9; reset 0 -/
  withdrawals : Nat
  /-- SEC_PWW.last_cause; 2 bits; 11 Table 11-9; reset 0 -/
  lastCause : Nat
  /-- SEC_PWW.last_warned; 1 bit; 11 Table 11-9; reset 0 -/
  lastWarned : Bool
  /-- the SEC_RGN registers, regions 0-7; 11 R268 -/
  rgn : Vector SecRgn 8
  /-- the IDE stream slots 0-7; 11 R250 -/
  stream : Vector Stream 8
deriving DecidableEq, Repr

/-! ### QUE (ch. 12) -/

/-- QUE_STAT.state (Table 12-7). -/
inductive QState where
  | disabled | idle | active | held
deriving DecidableEq, Repr

/-- A completion status with the fields of a record that vary (Table 12-5), and the save slot that it keeps until the record is
written (R334). -/
structure Done where
  status : Nat
  jobId : W32
  epoch : Nat
  progress : W32
  slot : Option Nat
deriving DecidableEq, Repr

/-- A packet between fetch and record: its position, its 64 bytes, whether a CANCEL has marked it, whether it has
started (waiting commands, running jobs, maintenance commands in progress), the generation an EVENT_WAIT took when it
executed, its outcome once decided. -/
structure Pkt where
  pos : W32
  bytes : List Byte
  marked : Bool
  started : Bool
  gen : Nat
  done : Option Done
deriving DecidableEq, Repr

structure Queue where
  /-- QUE_CTRL.enable; 1 bit; 12 R274; reset 0 -/
  enable : Bool
  /-- QUE_CTRL.continue_after_fault; 1 bit; 12 R288; reset 0 -/
  cont : Bool
  /-- QUE_CTRL.loc; 1 bit; 12 R273; reset 0 -/
  loc : Bool
  /-- QUE_CTRL.cloc; 1 bit; 12 R273; reset 0 -/
  cloc : Bool
  /-- QUE_CTRL.size_log2; 5 bits; 12 R273; reset 0 -/
  size : Nat
  /-- QUE_CTRL.csize_log2; 5 bits; 12 R273; reset 0 -/
  csize : Nat
  /-- QUE_CTRL.vector; 6 bits; 12 R293; reset 0 -/
  vector : Nat
  /-- QUE_BASE; 64 bits; 12 Table 12-8; reset 0 -/
  base : W64
  /-- QUE_CBASE; 64 bits; 12 Table 12-8; reset 0 -/
  cbase : W64
  /-- QUE_PROGRESS; 32 bits; 12 R283; reset 0 -/
  progress : W32
  /-- QUE_STAT.state; 2 bits; 12 Table 12-7; reset DISABLED -/
  state : QState
  /-- QUE_STAT.idle_pending; 1 bit; 12 R281; reset 0 -/
  idlePending : Bool
  /-- QUE_STAT.cq_full; 1 bit; 12 R291; reset 0 -/
  cqFull : Bool
  /-- QUE_STAT.db_err; 1 bit W1C; 12 R278; reset 0 -/
  dbErr : Bool
  /-- QUE_STAT.cfg_err; 1 bit W1C; 12 R274; reset 0 -/
  cfgErr : Bool
  /-- QUE_STAT.gen; 16 bits wrapping; 12 R275; reset 0 -/
  gen : BitVec 16
  /-- QUE_LATCHED; 32 bits; 12 R278; reset 0 -/
  latched : W32
  /-- QUE_CONS; 32 bits; 12 R281; reset 0 -/
  cons : W32
  /-- QUE_CDONE; 32 bits; 12 R291; reset 0 -/
  cdone : W32
  /-- QUE_CCONS; 32 bits; 12 R277; reset 0 -/
  ccons : W32
  /-- QUE_DB_CNT.db_ignored; 16 bits saturating; 12 R278; reset 0 -/
  dbIgnored : Nat
  /-- QUE_DB_CNT.stale_gen; 16 bits saturating; 12 R278; reset 0 -/
  staleGen : Nat
  /-- packets fetched whose records are not written, oldest first; 12 R270, R281; reset empty -/
  pkts : List Pkt
  /-- submitted packets, not yet fetched, that a CANCEL has marked; 12 R285; reset empty -/
  marks : List W32
  /-- the class of the first record, written since the queue was enabled, that is not of class 0x00; 13 R313; reset none (model's
  own) -/
  bad : Option Nat
deriving DecidableEq, Repr

/-! ### Jobs (ch. 13, 14) -/

/-- Event states (R313). -/
inductive EState where
  | unset | pending | signalled | error | cancelled
deriving DecidableEq, Repr

/-- What a control word waits for (Table 13-10). -/
inductive Wait where
  | none
  | chain (id : Nat)
  | event (e : Nat) (g : Nat) (strict : Bool)
  | fence (f : Nat) (v : W64)
  | lock (l : Nat)
  | tick (t : Nat)
  /-- MAP, until MEM_INV has run (R306, R214) -/
  | map
deriving DecidableEq, Repr

/-- A deferred effect (R312). -/
inductive Effect where
  | fence (f : Nat) (v : W64)
  | event (e : Nat) (g : Nat)
  | store (addr : Nat) (v : W64)
deriving DecidableEq, Repr

/-- A deferred word: its effect and the chains that must complete first. -/
structure Deferred where
  eff : Effect
  after : List Nat
deriving DecidableEq, Repr

/-- An armed chain (R311): trigger event, the generation it waits for, head descriptor address, done event. -/
structure Arm where
  event : Nat
  gen : Nat
  head : Nat
  doneEvent : Option Nat
  /-- the terminal state that its generation reached (UNSET: none yet), latched until CHAIN_FIRE acts -/
  due : EState
deriving DecidableEq, Repr

/-- An engine of a job's engine set (R310). -/
inductive Eng where
  | herd (i : Fin 64) | ibex (i : Fin 48) | cham (i : Fin 48) | kudu (i : Fin 8) | pe (i : Fin 4) | dma
deriving DecidableEq, Repr

/-- Where a job stands (R317, R330-R337, R320). -/
inductive Phase where
  | staged | running | stopped | restoring | ending
deriving DecidableEq, Repr

structure Job where
  /-- the job's region, queue and packet position; 12 R283 -/
  ref : JobRef
  /-- its RUN packet; 64 bytes; 12 Table 12-2 -/
  pkt : List Byte
  /-- where it stands; 13 R317 -/
  phase : Phase
  /-- job_id; 32 bits; 12 R292 -/
  jobId : W32
  /-- epoch (attempt number, equals restarts); 12 R290 -/
  epoch : Nat
  /-- start TN of the attempt; 13 R317 -/
  startTn : Nat
  /-- index of the current control word; 16 bits; 13 R299 -/
  pc : Nat
  /-- what it waits for; 13 Table 13-10 -/
  wait : Wait
  /-- CW; 32 bits; 13 R302 -/
  cw : W32
  /-- loop counters; 4 × 32 bits; 13 R304 -/
  lc : Vector W32 4
  /-- progress counter; 64 bits; 14 R328 -/
  progress : W64
  /-- progress counter as it stood at the last tick boundary; 14 R329 (model's own) -/
  seen : W64
  /-- idle count; 32 bits; 14 R329 -/
  idle : Nat
  /-- progress budget in force; 32 bits; 12 R283 -/
  budget : Nat
  /-- bytes the job's DMA descriptors have moved in the attempt, beyond the last 65,536; 14 R328 -/
  moved : Nat
  /-- live chains; 13 R310 -/
  chains : List Nat
  /-- next chain number (model's own) -/
  nextChain : Nat
  /-- done events of fired chains, (chain, event), which their completion records; 13 R311 -/
  armDone : List (Nat × Nat)
  /-- armed chains, at most 16; 13 R311 -/
  arms : List Arm
  /-- deferred effects in program order; 13 R312 -/
  deferred : List Deferred
  /-- the job's engine set; 13 R310 -/
  engines : List Eng
  /-- tick = 1: the job owns the region's tick plan (CW.ticking); 12 R272 -/
  tick : Bool
  /-- it has carried a descriptor that requests randomness; 05 R106 -/
  noisy : Bool
  /-- END has executed; 13 R320 -/
  ended : Bool
  /-- the merge is done or not due; 06 R135 -/
  merged : Bool
  /-- the error that ended the attempt: code of Table 14-1 and status; 14 R323 -/
  cause : Option (Nat × Nat)
  /-- the CANCEL that stopped it; 12 R285 -/
  cancel : Option PktRef
  /-- TN at which the stop happened, when the drain began; 14 R331 -/
  stopTn : Int
  /-- order of error detection within the region; 14 R343 (model's own) -/
  order : Nat
  /-- the drain has begun (no earlier recovery of the region runs); 14 R331, R343 -/
  drainOn : Bool
  /-- restarts consumed by errors detected between attempts; 14 R344 -/
  extra : Nat
  /-- its capture list; 12 R283 -/
  caps : List (Nat × Nat)
  /-- it was ready, with its captures copied, when the present tick began, and may start in it; 13 R317 (model's own) -/
  go : Bool
  /-- save slot held; 0-3; 14 R334 -/
  saveSlot : Option Nat
deriving DecidableEq, Repr

/-! ### EVT (ch. 13) -/

/-- An event (EVT_EVENTe): state code and 28-bit generation; 13 R313; reset 0. -/
structure Event where
  state : EState
  gen : BitVec 28
deriving DecidableEq, Repr

/-- Lock states (R315). -/
inductive LState where
  | free | held | broken
deriving DecidableEq, Repr

/-- A lock (EVT_LOCK): state, holding job, 16-bit epoch, waiting jobs in grant order; 13 R315; reset FREE, epoch 0. -/
structure LockReg where
  state : LState
  holder : Option JobRef
  epoch : BitVec 16
  waiters : List JobRef
deriving DecidableEq, Repr

structure EvtRgn where
  /-- the region's 256 events; 4 + 28 bits each; 13 R313; reset 0 -/
  event : Vector Event 256
  /-- the region's 64 fences; 64 bits each; 13 R312; reset 0 -/
  fence : Vector W64 64
  /-- the region's locks 0-31; 13 R315; reset FREE -/
  lock : Vector LockReg 32
  /-- EVENT_RECORD generations still PENDING: event, generation, queue, position; 13 R313; reset empty -/
  records : List (Nat × Nat × Fin 4 × W32)
deriving DecidableEq, Repr

structure EvtState where
  /-- regions 0-7; 13 R322 -/
  rgn : Vector EvtRgn 8
  /-- device locks 0-15; 13 R315; reset FREE -/
  dlock : Vector LockReg 16
deriving DecidableEq, Repr

/-! ### ERR (ch. 14) -/

/-- An error record's words (Table 14-2); 4 × 32 bits; reset 0 (not valid). -/
structure ErrRec where
  w0 : W32
  w1 : W32
  w2 : W32
  w3 : W32
deriving DecidableEq, Repr

structure ErrLog where
  /-- FIRST; 4 × 32 bits; 14 R326; reset 0 -/
  first : Option ErrRec
  /-- NEXT; 4 × 32 bits; 14 R326; reset 0 -/
  next : Option ErrRec
  /-- error count; 16 bits saturating; 14 R326; reset 0 -/
  count : Nat
deriving DecidableEq, Repr

structure ErrState where
  /-- ERR_DEV_STAT.rim_ue; 1 bit; 14 Table 14-5; reset 0 -/
  rimUe : Bool
  /-- ERR_DEV_STAT.lockstep; 1 bit; 14 Table 14-5; reset 0 -/
  lockstep : Bool
  /-- ERR_DEV_STAT.entropy; 1 bit; 14 Table 14-5; reset 0 -/
  entropy : Bool
  /-- ERR_DEV_STAT.maint_cp; 1 bit; 14 Table 14-5; reset 0 -/
  maintCp : Bool
  /-- ERR_DEV_STAT.hbm_ue; 4 bits; 14 Table 14-5; reset 0 -/
  hbmUe : Vector Bool 4
  /-- the device log; 14 R326; reset clear -/
  dev : ErrLog
  /-- the region logs 0-7; 14 R326; reset clear -/
  rgn : Vector ErrLog 8
  /-- ERR_RGN_CFG.drain_ticks per region; 8 bits; 14 R331; reset 64 -/
  drainTicks : Vector Nat 8
  /-- ERR_JOB_PROG, IDLE, BUDGET of the most recently started job per region queue; 14 R347; reset 0 -/
  job : Vector (Nat × Nat × Nat) 32
  /-- errors detected, orders recoveries; 14 R343; reset 0 (model's own) -/
  detected : Nat
deriving DecidableEq, Repr

/-! ### RING (ch. 15) -/

/-- RING_STAT.state (Table 15-5). -/
inductive RingSt where
  | alone | joining | joined | leaving
deriving DecidableEq, Repr

/-- RING_PORT_STAT.link (Table 15-6). -/
inductive LinkSt where
  | dark | training | up | down
deriving DecidableEq, Repr

/-- A ring flit waiting to be sent or acknowledged: its 256 bytes, and whether it is forwarded. -/
structure OutFlit where
  bytes : List Byte
  fwd : Bool
deriving DecidableEq, Repr

structure RingPort where
  /-- RING_PORT_STAT.link; 2 bits; 15 Table 15-6; reset DARK -/
  link : LinkSt
  /-- RING_PORT_STAT.peer_pos; 4 bits; 15 Table 15-6; reset 0 -/
  peerPos : Nat
  /-- RING_PORT_STAT.attested; 1 bit; 15 R362; reset 0 -/
  attested : Bool
  /-- RING_PORT_STAT.meas_match; 1 bit; 15 R362; reset 0 -/
  measMatch : Bool
  /-- RING_PORT_DELAY, d in 1/16 CCLK; 20 bits; 15 R356; reset 0 -/
  delay : Nat
  /-- measurements of d since the last average, at most 64; 15 R356; reset empty -/
  delays : List Nat
  /-- RING_PORT_FEC; 32 bits wrapping; 15 Table 15-6; reset 0 -/
  fecCorr : W32
  /-- RING_PORT_ERR.crc_fail; 16 bits saturating; 15 R353; reset 0 -/
  crcFail : Nat
  /-- RING_PORT_ERR.retries; 16 bits saturating; 15 R354; reset 0 -/
  retries : Nat
  /-- RING_PORT_DOWNS; 16 bits saturating; 15 Table 15-6; reset 0 -/
  downs : Nat
  /-- RING_PORT_SERIAL; 128 bits; 15 Table 15-6; reset 0 -/
  serial : List Byte
  /-- hops shown by the peer's last marker; 15 R357; reset DESIGN CHOICE 255 (no reference; log entry 5) -/
  peerHops : Nat
  /-- TN[15:0] of the last marker received, echoed in the next one sent; 15 Table 15-1; reset 0 -/
  lastMarker : Nat
  /-- next seq to send; 12 bits; 15 R354; reset DESIGN CHOICE 0 (log entry 5) -/
  txSeq : BitVec 12
  /-- oldest unacknowledged seq; 12 bits; 15 R354; reset DESIGN CHOICE 0 (log entry 5) -/
  txAck : BitVec 12
  /-- retry buffer, at most 512 flits, oldest first; 15 R354; reset empty -/
  retry : List OutFlit
  /-- rounds the oldest flit has been resent; 15 R355; reset 0 -/
  resent : Nat
  /-- flits waiting to be sent for the first time; 15 R367; reset empty -/
  tx : List OutFlit
  /-- next expected seq; 12 bits; 15 R354; reset DESIGN CHOICE 0 (log entry 5) -/
  rxSeq : BitVec 12
  /-- nak is set in the next ack sent; 15 R354; reset 0 -/
  nak : Bool
  /-- consecutive markers received since training began; 15 R355; reset 0 -/
  good : Nat
  /-- consecutive ticks without a correctable marker; 15 R355; reset 0 -/
  missed : Nat
  /-- a marker arrived this tick; 15 R355; reset false (model's own) -/
  seen : Bool
  /-- the line bit of the peer's last marker; 15 Table 15-1; reset 0 -/
  peerLine : Bool
  /-- ticks in which no ack has advanced while flits are unacknowledged; 15 R354; reset 0 (model's own) -/
  ackTicks : Nat
  /-- how many of the unacknowledged flits the present round of resending has sent; none outside a round; 15 R354; reset none -/
  again : Option Nat
  /-- CCLK offset in this tick of the last marker's arrival, if it came in this tick; 15 Table 15-1; reset none -/
  lastCclk : Option Nat
  /-- CCLK from the last marker's arrival to the start of this tick (echo_hold); 16 bits; 15 Table 15-1; reset 0 -/
  hold : Nat
  /-- the data bytes of the marker that opened this tick; 15 R352; reset empty (model's own output port) -/
  marker : List Byte
  /-- the flits of this tick in slot order, IDLE flits behind them; 15 R352, R367; reset empty (model's own output port) -/
  sent : List (List Byte)
deriving DecidableEq, Repr

/-- What the staging buffer keeps for an in entry (R370): the newest complete block and its stamp, the last copy
delivered and its stamp, and the flits of a block still arriving. -/
structure InBuf where
  newest : Option (Nat × List Byte)
  last : Nat × List Byte
  coming : List (Nat × List Byte)
deriving DecidableEq, Repr

structure RingRgn where
  /-- RING_RGN_RSV.rsv_up; 8 bits; 15 R367; reset 0 -/
  rsvUp : Nat
  /-- RING_RGN_RSV.rsv_down; 8 bits; 15 R367; reset 0 -/
  rsvDown : Nat
  /-- RING_RGN_RSV.stream; 8 bits; 15 R365; reset 0 -/
  stream : Nat
  /-- RING_RGN_RSV.sealed; 1 bit; 15 R363; reset 0 -/
  sealed : Bool
  /-- RING_RGN_RSV.key_ok; 1 bit; 15 R363; reset 0 -/
  keyOk : Bool
  /-- RING_RGN_RSV.rsv_err; 1 bit W1C; 15 R374; reset 0 -/
  rsvErr : Bool
  /-- RING_RGN_STALE; 32 bits saturating; 15 R370; reset 0 -/
  stale : Nat
  /-- stream keys held, current then next; 256 bits; 15 R363; reset none -/
  key : Option (List Byte)
  /-- the next stream key; 256 bits; 15 R363; reset none -/
  nextKey : Option (List Byte)
  /-- key_index; 2 bits; 15 R363; reset 0 -/
  keyIndex : Nat
  /-- ticks since the present key_index came into use; 15 R363; reset 0 (model's own) -/
  keyTicks : Nat
  /-- sealed flits sent under the present key; 64 bits; 15 R364; reset 0 -/
  sent : Nat
  /-- the in entries' buffers, in plan order; 15 R370; reset empty -/
  bufs : List InBuf
  /-- sealed flits received under the present key, by source position; 64 bits each; 15 R364; reset 0 -/
  recv : Vector Nat 16
  /-- the present tick is stale for an in entry and counted; 15 R370; reset false (model's own) -/
  staleTick : Bool
deriving DecidableEq, Repr

structure RingState where
  /-- RING_STAT.state; 2 bits; 15 Table 15-5; reset ALONE -/
  state : RingSt
  /-- RING_STAT.bypass (true INSERT), the latched switch; 1 bit; 15 R349; reset THROUGH -/
  insert : Bool
  /-- RING_STAT.line; 1 bit; 15 R372; reset 0 -/
  line : Bool
  /-- RING_STAT.lead; 1 bit; 15 R348; reset 0 -/
  lead : Bool
  /-- RING_STAT.position; 4 bits; 15 R348; reset 0 -/
  position : Nat
  /-- RING_STAT.ref_port; 2 bits; 15 R357; reset 0 -/
  refPort : Nat
  /-- RING_STAT.tn_skew; int8 saturating; 15 R357; reset 0 -/
  tnSkew : Int
  /-- RING_STAT.join_err; 4 bits; 15 R359; reset 0 -/
  joinErr : Nat
  /-- RING_ID; 32 bits; 15 Table 15-5; reset 0 -/
  id : W32
  /-- RING_PRESENT (RING_STAT.members is its population count); 16 bits; 15 Table 15-5; reset 0 -/
  present : BitVec 16
  /-- RING_DROP.no_stream; 16 bits saturating; 15 R368; reset 0 -/
  noStream : Nat
  /-- RING_DROP.unreachable; 16 bits saturating; 15 R368; reset 0 -/
  unreachable : Nat
  /-- the join's tick_from_ring flag; 15 R359; reset false -/
  fromRing : Bool
  /-- the join's members field; 15 R360; reset 0 -/
  wanted : Nat
  /-- the TN at which the join times out; 15 R359; reset 0 -/
  joinLimit : Nat
  /-- join_timeout of the join; 15 R360; reset 0 -/
  joinTicks : Nat
  /-- a lead has been seen since the join began; 15 R360; reset false (model's own) -/
  leadSeen : Bool
  /-- hops of this module from the tick reference; 15 R357; reset DESIGN CHOICE 255 (none; log entry 5) -/
  hops : Nat
  /-- ports Up and Down; 15 R374 -/
  port : Vector RingPort 2
  /-- regions 0-7; 15 R374 -/
  rgn : Vector RingRgn 8
deriving DecidableEq, Repr

/-! ### PWR (ch. 16) -/

/-- A tile's power controls (Table 16-9). -/
structure TilePwr where
  /-- PWR_TILE.gate (true OFF); 1 bit; 16 R382; reset AUTO -/
  off : Bool
  /-- PWR_TILE.cut; 1 bit; 16 R386; reset 0 -/
  cut : Bool
  /-- power is back after a cut without warning, the scrub is still to come; 11 R262; reset false -/
  scrubDue : Bool
  /-- PWR_TILE.duty, u_t; 5 bits; 16 R383; reset 16 -/
  duty : Nat
  /-- PWR_TILE.tj; int16, 1/16 °C; 16 Table 16-9; reset 0 -/
  tj : Int
deriving DecidableEq, Repr

structure PwrRgn where
  /-- PWR_RGN.level, L; 5 bits; 16 R380; reset 0 -/
  level : Nat
  /-- a rise of L is waiting; 16 R380; reset false -/
  waits : Bool
  /-- the region has had a ticking job during the present tick; 16 R380; reset false -/
  ticked : Bool
  /-- PWR_RGN_SKIP.duty_skip; 32 bits saturating; 16 R384; reset 0 -/
  skip : Nat
  /-- the TN until which duty is held at most 8; 16 R379; reset none (model's own) -/
  capUntil : Option Int
deriving DecidableEq, Repr

structure PwrState where
  /-- PWR_STATUS.aux_present; 1 bit; 16 R397 (17); reset 0 (boot) -/
  aux : Bool
  /-- PWR_STATUS.cap_forced; 1 bit; 16 R378; reset 0 (boot) -/
  capForced : Bool
  /-- PWR_STATUS.admit_hold; 1 bit; 16 R379; reset 0 -/
  admitHold : Bool
  /-- PWR_STATUS.last_code; 3 bits; 16 R382; reset 0 -/
  lastCode : Nat
  /-- PWR_STATUS.trips; 16 bits saturating; 16 R386; reset 0 -/
  trips : Nat
  /-- PWR_CFG.cap_w; 8 bits RWS; 16 Table 16-8; reset 150 -/
  capW : Nat
  /-- PWR_IN_1MS; 18 bits; 16 Table 16-9; reset 0 -/
  in1ms : Nat
  /-- PWR_IN_1S; 18 bits; 16 Table 16-9; reset 0 -/
  in1s : Nat
  /-- PWR_TILE_SEL; 8 bits; 16 Table 16-9; reset 0 -/
  tileSel : Nat
  /-- tiles, index 16·y + x; 16 R382 -/
  tile : Vector TilePwr 192
  /-- regions 0-7; 16 Table 16-10 -/
  rgn : Vector PwrRgn 8
  /-- the supply was lost while running, so that the next start has cap_forced; 16 R388; reset false -/
  auxLost : Bool
deriving DecidableEq, Repr

/-! ### Stag (ch. 8, 17) -/

/-- A flash bank (R175): its image and whether it is marked invalid. -/
structure Bank where
  img : List Byte
  invalid : Bool
deriving DecidableEq, Repr

structure StagState where
  /-- banks A and B; 16 MiB each; 08 R175; reset DESIGN CHOICE empty (factory content is not given; log entry 5) -/
  bank : Vector Bank 2
  /-- the fused svn floor; 16 bits; 08 R174; reset DESIGN CHOICE 0 (log entry 5) -/
  floor : Nat
  /-- the pending mark on the inactive bank; 08 R175; reset false -/
  pending : Bool
  /-- stored HBM training values exist; 16 R392; reset false -/
  trained : Bool
  /-- the image that Stag is writing to the inactive bank; 08 R175; reset none -/
  writing : Option (List Byte)
deriving DecidableEq, Repr

/-! ### What leaves the block -/

/-- An MSI-X message: function (0 PF, 1-8 VF) and vector (R228). -/
structure Msix where
  fn : Fin 9
  vector : Nat
deriving DecidableEq, Repr

/-- What a request of the device to a host page carries (R229, R252, R230). -/
structure Tlp where
  /-- requester: 0 PF, n + 1 the VF of region n -/
  fn : Fin 9
  /-- the IDE stream it travels in, with T = 1 -/
  stream : Option (Fin 8)
  /-- Relaxed Ordering is set -/
  relaxed : Bool
deriving DecidableEq, Repr

structure OutState where
  /-- data of the last register or BAR4 read that is a command (model's own output port); reset 0 -/
  bar : Nat
  /-- the last BAR4 read was answered with Unsupported Request; 10 R226; reset false -/
  ur : Bool
  /-- bytes of the last BAR4 read; 10 R226; reset empty -/
  data : List Byte
  /-- response to the last SPDM, IDE_KM, TDISP or MCTP message; 11 R242, 17 R406; reset empty -/
  msg : List Byte
  /-- bits the TAP shifts out; 17 R407; reset empty -/
  tap : List Bool
  /-- MSI-X messages sent, oldest first; 10 R228; reset empty -/
  msix : List Msix
  /-- the last request of a MEMORY_REQUEST or DMA descriptor to a host page; 10 R229; reset none (model's own output port) -/
  tlp : Option Tlp
deriving DecidableEq, Repr

/-! ### The state -/

structure State where
  /-- commands waiting, first in first out; reset empty (model's own: the block's command queue) -/
  pending : List Instr
  dev : DevState
  tick : TickState
  haly : HalyState
  mesh : MeshState
  rim : RimState
  rgn : RgnState
  herd : HerdState
  anl : AnlState
  noise : NoiseState
  ibex : Vector Ibex 48
  cham : Vector Cham 48
  kudu : Vector Kudu 8
  pe : Vector Pe 4
  eng : EngState
  mkh : MkhState
  mem : MemState
  pcie : PcieState
  sec : SecState
  que : Vector Queue 33
  /-- the jobs staged, running or in recovery; 13 R317 -/
  jobs : List Job
  evt : EvtState
  err : ErrState
  ring : RingState
  pwr : PwrState
  stag : StagState
  out : OutState
  /-- counter that the free values of Config are applied to (model's own; reset DESIGN CHOICE 0, log entry 6) -/
  free : Nat
deriving DecidableEq, Repr

/-! ### Reset -/

def TickRgn.reset : TickRgn :=
  { ticking := false, continuing := false, evidActiveWrite := false, consec := 0, limit := 4, overruns := 0,
    lastOverrunTn := 0, lastDoneSlot := 0xFF, maxDoneSlot := 0 }

def HalyOut.reset : HalyOut :=
  { owner := .nobody, start := 0, offset := 0, mode := .off, endSel := 0, endEn := false, endEdge := false,
    widthTicks := 0, widthCclk := 0, period := 0, count := 0, armErr := 0, pulsesDone := 0, sched := none,
    old := [], pulses := [], pin := .hiZ }

def HalyIn.reset : HalyIn :=
  { owner := .nobody, ownerSince := none, edges := 0, filter := 0, pin := false, level := false, fifo := [], lost := false,
    lostCount := 0 }

def Link.reset : Link :=
  { bank0 := [], bank1 := [], vc0Empty := 0, vc0Sent := 0, vc0Slot := 0, vc0InSlot := 0, vc0Overflow := 0, ceCount := 0,
    wallDrop := 0, vc0 := [], vc := [], served := Vector.replicate 3 4 }

/-- The Rim units of a segment direction at reset: unit 0 belongs to the device context (R60). -/
def rimUnitsReset : Vector (Option (Fin 9)) 32 := (Vector.replicate 32 none).set 0 (some 8)

def Region.reset : Region :=
  { bx0 := 0, by0 := 0, bwM1 := 0, bhM1 := 0, cp := 0, rimUnits := 0, segMask := 0, state := .free,
    tearingDown := false, activeBank := false, gen := 0, before := .free, claimed := [], byFlr := false,
    flrWaits := false, destroyWaits := false, jobCounter := 0, recovery := 0 }

def HerdTile.reset : HerdTile :=
  { mem := [], hcb := List.replicate 64 0, shadow := List.replicate 64 0, cfgBank := false, state := .idle,
    sweepDone := false, doneCclk := 0, doneTn := 0, activeUnary := false, swap := none, held := none, waits := false, cls := 0, draws := 0,
    sliceSel := Vector.replicate 9 0,
    slices := [], sweeps := 0, fieldSat := 0, loadClamp := 0, records := 0, colours := [], haloFlits := 0,
    nextDraw := 0, sweepJt := 0, betaEff := [], key := none, shadowKey := none, captured := [], stale := false }

def TickJob.reset : TickJob :=
  { plan := none, shadow := none, jt := 0, init := false, w := 0, groupTick := 0, active := false,
    excluded := false, part := .ingest, late := false, holds := false, stop := false, ended := false, emitNo := 0,
    emissions := [], pending := [], writes := [], nextWrite := 0, lastTiles := [] }

def AnlRgn.reset : AnlRgn :=
  { active := false, merging := false, schedBank := false, acb := List.replicate 64 0, sched := [], betaSched := 0,
    chainSelPf := 0, chainSelVf := 0, schedSelPf := 0, schedSelVf := 0, chains := [], dup := 0, merged := 0 }

def Source.reset : Source :=
  { lastOnes := 0, maxRun := 0, samples := 0, last := none, run := 0, count := 0, first := false, same := 0,
    ones := 0, winRun := 0, passed := false, failed := false, stuck := false, gathered := [] }

def NoiseRgn.reset : NoiseRgn :=
  { mode := 0, keyWait := false, keyIndex := 0, log2I := 0, requested := false, nextKey := none, root := none }

def NoiseState.reset : NoiseState :=
  { state := .gathering, startupDone := false, failSrc := 0, failCause := 0, srcOk := 0, readyTn := 0,
    freshLog2 := 16, srcSel := 0, src := Vector.replicate 16 Source.reset, held := [], drbg := none, reseeds := 0,
    rgn := Vector.replicate 8 NoiseRgn.reset }

def Ibex.reset : Ibex :=
  { mem := [], state := .idle, fieldRsv := none, queue := [], admitted := false, running := none, chainIn := [],
    windowFlits := 0, ops := 0, satCount := 0, nanCount := 0, busyCclk := 0, faultCause := 0 }

def Hart.reset : Hart :=
  { x := Vector.replicate 32 0, f := Vector.replicate 32 0, pc := 0, fflags := 0, frm := 0, instret := 0, machine := true,
    mepc := 0, mcause := 0, mtval := 0, resv := none, seen := [] }

def VecUnit.reset : VecUnit :=
  { v := Vector.replicate 32 0, vl := 0, vtype := 0, vill := true, vstart := 0, vxrm := 0, vxsat := false }

def Cham.reset : Cham :=
  { mem := [], state := .idle, ctMode := false, queue := [], running := none, args := Vector.replicate 4 0,
    entry := 0, coming := [], slots := [], instret := 0, cause := 0xFF, tval := 0, monitor := false,
    code := [], core := Hart.reset, vec := VecUnit.reset, ctTime := 0 }

def Kudu.reset : Kudu :=
  { mem := [], queue := [], hart := Vector.replicate 16 none, args := Vector.replicate 16 (0, []),
    mergeWaits := false, merging := false, execLoaded := false, done := 0, cause := 0xFF, trapHart := 0, tval := 0,
    core := Vector.replicate 16 Hart.reset, pmp := Vector.replicate 16 (Vector.replicate 16 (0, 0)) }

def Pe.reset : Pe :=
  { owner := none, lendErr := false, state := .idle, queue := [], admitted := false, running := none, result := none,
    pset := Vector.replicate 4 none, tagKey := none, ops := 0, faultCause := 0, lastT := 0, serial := 0,
    lastSerial := 0, psetSel := Vector.replicate 9 0 }

def CpCore.reset : CpCore := { online := false, regions := 0, offlineCause := 0, lastServed := none }

def MemCtx.reset : MemCtx :=
  { stackMask := 0, tags := false, keyValid := false, key := none, integKey := none, pages := 0, ptb := 0,
    faultAddr := 0, faultCause := 0, faultValid := false, integ := 0, emitDrop := 0, invBusy := false, release := [] }

def SecRgn.reset : SecRgn :=
  { sealing := false, gated := false, offer := none, attest := false, hostIde := false, ringOk := false, tagKey := none,
    tdi := .unlocked, noFw := false, stream := none, epoch := 0, withdrawals := 0, withdrawnAt := 0,
    owner := List.replicate 32 0 }

def Stream.reset : Stream :=
  { id := 0, secure := false, keySet := 0, fn := 0, fails := 0,
    keys := Vector.replicate 2 (Vector.replicate 6 none) }

def Queue.reset : Queue :=
  { enable := false, cont := false, loc := false, cloc := false, size := 0, csize := 0, vector := 0, base := 0,
    cbase := 0, progress := 0, state := .disabled, idlePending := false, cqFull := false, dbErr := false,
    cfgErr := false, gen := 0, latched := 0, cons := 0, cdone := 0, ccons := 0, dbIgnored := 0, staleGen := 0,
    pkts := [], marks := [], bad := none }

def LockReg.reset : LockReg := { state := .free, holder := none, epoch := 0, waiters := [] }

def EvtRgn.reset : EvtRgn :=
  { event := Vector.replicate 256 { state := .unset, gen := 0 }, fence := Vector.replicate 64 0,
    lock := Vector.replicate 32 LockReg.reset, records := [] }

def ErrLog.reset : ErrLog := { first := none, next := none, count := 0 }

def RingPort.reset : RingPort :=
  { link := .dark, peerPos := 0, attested := false, measMatch := false, delay := 0, delays := [], fecCorr := 0,
    crcFail := 0, retries := 0, downs := 0, serial := List.replicate 16 0, peerHops := 255, lastMarker := 0,
    txSeq := 0, txAck := 0, retry := [], resent := 0, tx := [], rxSeq := 0, nak := false, good := 0, missed := 0,
    seen := false, peerLine := false, ackTicks := 0, again := none, lastCclk := none, hold := 0, marker := [], sent := [] }

def RingRgn.reset : RingRgn :=
  { rsvUp := 0, rsvDown := 0, stream := 0, sealed := false, keyOk := false, rsvErr := false, stale := 0, key := none,
    nextKey := none, keyIndex := 0, keyTicks := 0, sent := 0, bufs := [], recv := Vector.replicate 16 0, staleTick := false }

def RingState.reset : RingState :=
  { state := .alone, insert := false, line := false, lead := false, position := 0, refPort := 0, tnSkew := 0,
    joinErr := 0, id := 0, present := 0, noStream := 0, unreachable := 0, fromRing := false, wanted := 0,
    joinLimit := 0, joinTicks := 0, leadSeen := false, hops := 255, port := Vector.replicate 2 RingPort.reset,
    rgn := Vector.replicate 8 RingRgn.reset }

def TilePwr.reset : TilePwr := { off := false, cut := false, scrubDue := false, duty := 16, tj := 0 }
def PwrRgn.reset : PwrRgn := { level := 0, waits := false, ticked := false, skip := 0, capUntil := none }

/-- The block at power-good, before the first start-up stage has completed (R389, R392, R412): every register at its
Reset value of Table 18-4. -/
def State.reset : State :=
  { pending := [],
    dev := { ready := false, stage := .power, resetCause := .powerCycle, bootMs := 0, hbmMs := 0, scratch := 0,
             powered := true, perst := false, stagReset := none, test := .none, warm := false },
    tick := { tn := 0, tnEpoch := 0, running := false, mtime := 0, newTn := none, lastTn := 0, refDone := none, source := .internal, inSel := 0,
              inEdge := false, inDiv := 0, inPhase := 0, inOfs := 0, lock := .freeRun, runWithin := 0,
              runBeyond := 0, runMissed := 0, phaseErr := 0, trim := 0, latch := Vector.replicate 9 0,
              rgn := Vector.replicate 8 TickRgn.reset },
    haly := { outEnable := false, out := Vector.replicate 8 HalyOut.reset, inp := Vector.replicate 4 HalyIn.reset },
    mesh := { testDone := false, testPass := false, stAddr := 0, linkSel := 0,
              links := Vector.replicate 768 Link.reset, src := Vector.replicate 192 [], tag := Vector.replicate 8 none,
              tagNext := Vector.replicate 8 none },
    rim := { testDone := false, testPass := false, rsvSel := 0, owner := Vector.replicate 48 rimUnitsReset,
             alloc := Vector.replicate 48 rimUnitsReset,
             ceCount := Vector.replicate 48 0, held := [], used := [],
             staging := Vector.replicate 8 (Vector.replicate 24 []), blocks := Vector.replicate 8 [] },
    rgn := { rgn := Vector.replicate 8 Region.reset, mbOwner := Vector.replicate 8 none },
    herd := { tile := Vector.replicate 64 HerdTile.reset, job := Vector.replicate 8 TickJob.reset },
    anl := { rgn := Vector.replicate 8 AnlRgn.reset },
    noise := NoiseState.reset,
    ibex := Vector.replicate 48 Ibex.reset,
    cham := Vector.replicate 48 Cham.reset,
    kudu := Vector.replicate 8 Kudu.reset,
    pe := Vector.replicate 4 Pe.reset,
    eng := { flight := [], dmaQueue := [], dmaAdmitted := none, dmaRunning := [], arrivals := 0 },
    mkh := { activeBank := false, pending := false, fallback := false, trial := false, svn := 0, release := 0,
             measSel := 0, meas := Vector.replicate 8 (List.replicate 32 0), mem := Vector.replicate 4 [], cp := Vector.replicate 6 CpCore.reset,
             lockstepOk := false, mismatch := 0 },
    mem := { phys := [], aside := [], owner := [], ctx := Vector.replicate 9 MemCtx.reset, tlb := [], frameSel := 0, winSel := 0,
             win := [], stack := Vector.replicate 4 { trained := false, ue := false, ceCount := 0 },
             link := (0, 0, 0) },
    pcie := { d3 := Vector.replicate 9 false, command := Vector.replicate 9 0,
              bars := Vector.replicate 9 (Vector.replicate 6 0), sizes := Vector.replicate 9 (0, 2), vfEnable := false, bar4 := 6, host := [],
              tileSel := Vector.replicate 8 0, msixTab := [] },
    sec := { up := false, aliasOk := false, keys := none, sessions := [], opened := 0, gateX := 0, gateY := 0,
             denied := 0, withdrawals := 0, lastCause := 0, lastWarned := false,
             rgn := Vector.replicate 8 SecRgn.reset, stream := Vector.replicate 8 Stream.reset },
    que := Vector.replicate 33 Queue.reset,
    jobs := [],
    evt := { rgn := Vector.replicate 8 EvtRgn.reset, dlock := Vector.replicate 16 LockReg.reset },
    err := { rimUe := false, lockstep := false, entropy := false, maintCp := false, hbmUe := Vector.replicate 4 false,
             dev := ErrLog.reset, rgn := Vector.replicate 8 ErrLog.reset, drainTicks := Vector.replicate 8 64,
             job := Vector.replicate 32 (0, 0, 0), detected := 0 },
    ring := RingState.reset,
    pwr := { aux := false, capForced := false, admitHold := false, lastCode := 0, trips := 0, capW := 150, in1ms := 0,
             in1s := 0, tileSel := 0, tile := Vector.replicate 192 TilePwr.reset,
             rgn := Vector.replicate 8 PwrRgn.reset, auxLost := false },
    stag := { bank := Vector.replicate 2 { img := [], invalid := false }, floor := 0, pending := false,
              trained := false, writing := none },
    out := { bar := 0, ur := false, data := [], msg := [], tap := [], msix := [], tlp := none },
    free := 0 }

/-! ### Outcomes other than a next state -/

/-- Why the block stops with a fault. -/
inductive Fault where
  /-- Raised by the BAR commands on a misaligned or out-of-BAR access, which R12 forbids host software to make and for
  which the spec gives no effect (ground i). Safe: the model stops. -/
  | misalignedAccess
deriving DecidableEq, Repr

/-- Why the model gives a command no meaning. -/
inductive Refusal where
  /-- Raised by an arm of exec whose meaning is not written yet. Safe: the model stops. -/
  | notModelled (mnemonic : String)
deriving DecidableEq, Repr

/-- The outcome of a command. -/
abbrev Out := Host.Outcome State Fault Refusal

end Sys2Proof.Machine
end

