-- ==== Sys2Proof/Machine/Flags.lean ====
section
/-!
DEFINITION. The codes the block reports with: completion status codes (Table 12-6), error codes with their level, status
and restartability (Table 14-1), the bits of CW (R302), and the codes by which registers show states.
-/
namespace Sys2Proof.Machine

/-! ### Completion status codes (Table 12-6) -/

namespace Status
def ok : Nat := 0x0000
def okAfterRestart : Nat := 0x0001
def cancelled : Nat := 0x0100
def cancelledBeforeStart : Nat := 0x0101
def depCancelled : Nat := 0x0102
def badOpcode : Nat := 0x0200
def reservedNonzero : Nat := 0x0201
def badField : Nat := 0x0202
def notPermitted : Nat := 0x0203
def regionState : Nat := 0x0204
def tickPlanInvalid : Nat := 0x0205
def configInvalid : Nat := 0x0206
def cancelNoTarget : Nat := 0x0207
def tickBusy : Nat := 0x0208
def fwImageInvalid : Nat := 0x0209
def fwLocked : Nat := 0x020A
def createIdState : Nat := 0x0210
def createRect : Nat := 0x0211
def createOverlap : Nat := 0x0212
def createRimRequest : Nat := 0x0213
def createResources : Nat := 0x0214
def createNoCp : Nat := 0x0215
def sealNotOpen : Nat := 0x0218
def sealBusy : Nat := 0x0219
def sealNoOffer : Nat := 0x021A
def ringState : Nat := 0x0220
def ringJoinFailed : Nat := 0x0221
def jobFault : Nat := 0x0300
def jobHang : Nat := 0x0301
def jobOverrun : Nat := 0x0302
def jobRestartExhausted : Nat := 0x0303
def keyMismatch : Nat := 0x0304
def keyIntegrity : Nat := 0x0305
def depError : Nat := 0x0306
def regionFaulted : Nat := 0x0400
def deviceFault : Nat := 0x0500
def securePowerWithdrawn : Nat := 0x0600
def entropyFailure : Nat := 0x0601
end Status

/-- The class of a status code (R294). -/
def statusClass (s : Nat) : Nat := s / 256

/-! ### Error codes (Table 14-1) -/

/-- The errors of Table 14-1. -/
inductive Err where
  | descriptor | translation | vc0Overflow | pePace | program | hang | overrun | keyMismatch | keyIntegrity
  | reserved | dependency (cancelled : Bool) | capture | powerWithdrawn
  | meshUe | wallDrop | tagFail | cpOffline | sealMeasure
  | rimUe | hbmUe | lockstep | entropy | maintCp
deriving DecidableEq, Repr

/-- The code of an error. -/
def errCode : Err → Nat
  | .descriptor => 0x01 | .translation => 0x02 | .vc0Overflow => 0x03 | .pePace => 0x04 | .program => 0x05
  | .hang => 0x06 | .overrun => 0x07 | .keyMismatch => 0x08 | .keyIntegrity => 0x09 | .reserved => 0x0A
  | .dependency _ => 0x0B | .capture => 0x0C | .powerWithdrawn => 0x0D
  | .meshUe => 0x20 | .wallDrop => 0x21 | .tagFail => 0x22 | .cpOffline => 0x23 | .sealMeasure => 0x24
  | .rimUe => 0x40 | .hbmUe => 0x41 | .lockstep => 0x42 | .entropy => 0x43 | .maintCp => 0x44

/-- The level of an error: 0 job, 1 region, 2 device. -/
def errLevel (e : Err) : Nat := if errCode e < 0x20 then 0 else if errCode e < 0x40 then 1 else 2

/-- The status an error gives the job it ends (that of the requesting job for TAG_FAIL); 0 where it has none. -/
def errStatus : Err → Nat
  | .hang => Status.jobHang
  | .overrun => Status.jobOverrun
  | .keyMismatch => Status.keyMismatch
  | .keyIntegrity => Status.keyIntegrity
  | .reserved => Status.reservedNonzero
  | .dependency c => if c then Status.depCancelled else Status.depError
  | .powerWithdrawn => Status.securePowerWithdrawn
  | .meshUe => Status.regionFaulted | .wallDrop => Status.regionFaulted | .cpOffline => Status.regionFaulted
  | .sealMeasure => Status.regionFaulted
  | .rimUe => Status.deviceFault | .hbmUe => Status.deviceFault | .lockstep => Status.deviceFault
  | .entropy => Status.entropyFailure
  | .maintCp => 0
  | .descriptor => Status.jobFault | .translation => Status.jobFault | .vc0Overflow => Status.jobFault
  | .pePace => Status.jobFault | .program => Status.jobFault | .capture => Status.jobFault
  | .tagFail => Status.jobFault

/-- Is a job ended by this error eligible for restart? -/
def errRestartable : Err → Bool
  | .descriptor => true | .translation => true | .vc0Overflow => true | .pePace => true | .program => true
  | .hang => true | .overrun => true
  | .keyMismatch => false | .keyIntegrity => false | .reserved => false | .dependency _ => false
  | .capture => false | .powerWithdrawn => false
  | .meshUe => false | .wallDrop => false | .tagFail => false | .cpOffline => false | .sealMeasure => false
  | .rimUe => false | .hbmUe => false | .lockstep => false | .entropy => false | .maintCp => false

/-- Is the code of a logged cause one of the restartable ones? -/
def codeRestartable (c : Nat) : Bool := decide (1 ≤ c) && decide (c ≤ 7)

/-! ### Where an error was raised (Table 14-2) -/

/-- The tile, engine and detail that an error record shows; 15 names none. -/
structure Site where
  x : Nat
  y : Nat
  engine : Nat
  detail : Nat
deriving DecidableEq, Repr

/-- An error raised by no tile and no engine. -/
def noSite : Site := { x := 15, y := 15, engine := 15, detail := 0 }

/-! ### CW (R302) -/

/-- Put one bit of CW. -/
def cwPut (i : Nat) (b : Bool) (cw : W32) : W32 :=
  if b then cw ||| ((1 : W32) <<< i) else cw &&& ~~~((1 : W32) <<< i)

/-- CW at the start of an attempt: only `restarted` and `ticking` may be 1 (R302). -/
def cwStart (epoch : Nat) (tick : Bool) : W32 :=
  cwPut 9 tick (cwPut 8 (decide (1 ≤ epoch)) 0)

/-! ### Codes of states in registers -/

def stageCode : Stage → Nat
  | .power => 0 | .rom => 1 | .verify => 2 | .hbm => 3 | .selftest => 4 | .entropy => 5 | .normal => 6 | .ready => 7
  | .failed => 8
def resetCauseCode : ResetCause → Nat
  | .powerCycle => 0 | .perst => 1 | .pfFlr => 2 | .stag => 3 | .stagThermal => 4
def lockCode : Lock → Nat
  | .freeRun => 0 | .acquiring => 1 | .locked => 2 | .holdover => 3
def sourceCode : TickSource → Nat
  | .internal => 0 | .halyard => 1 | .ring => 2
def ownerCode : Owner → Nat
  | .rgn n => n.val | .device => 8 | .nobody => 15
def outModeCode : OutMode → Nat
  | .off => 0 | .trigger => 1 | .strobe => 2
def rstateCode : RState → Nat
  | .free => 0 | .forming => 1 | .opened => 2 | .sealed => 3 | .faulted => 4 | .disabled => 5
def hstateCode : HState → Nat
  | .idle => 0 | .init => 1 | .sweeping => 2 | .waiting => 3
def nstateCode : NState → Nat
  | .gathering => 0 | .ready => 1 | .failed => 2
def istateCode : IState → Nat
  | .idle => 0 | .busy => 1 | .waiting => 2 | .fault => 3
def cstateCode : CState → Nat
  | .idle => 0 | .kernel => 1 | .spill => 2 | .fault => 3
def pstateCode : PState → Nat
  | .idle => 0 | .busy => 1 | .waiting => 2 | .fault => 3
def tdiCode : Tdi → Nat
  | .unlocked => 0 | .locked => 1 | .run => 2 | .error => 3
def qstateCode : QState → Nat
  | .disabled => 0 | .idle => 1 | .active => 2 | .held => 3
def estateCode : EState → Nat
  | .unset => 0 | .pending => 1 | .signalled => 2 | .error => 3 | .cancelled => 4
def lstateCode : LState → Nat
  | .free => 0 | .held => 1 | .broken => 2
def ringStCode : RingSt → Nat
  | .alone => 0 | .joining => 1 | .joined => 2 | .leaving => 3
def linkStCode : LinkSt → Nat
  | .dark => 0 | .training => 1 | .up => 2 | .down => 3
def portCode : Port → Nat
  | .n => 0 | .e => 1 | .s => 2 | .w => 3

end Sys2Proof.Machine
end

