-- ==== Sys2Proof/Config.lean ====
section
/-!
DEFINITION. What is fixed for one chip or left open by the spec: opaque constants with no body, so that nothing can be
proved of their values (log entries 6 to 9), and the fixed constants the spec names.
-/
namespace Sys2Proof.Config

/-! ### Fused values (R412, R173, R174, R237): one chip's own, unknown to every statement -/

/-- The 16-byte public chip serial number (DEV_SERIAL, R104). -/
opaque chipSerial : BitVec 128
/-- The hardware unique key (R116). -/
opaque hardwareKey : BitVec 256
/-- The fused site policy, 0-2 (R174). -/
opaque sitePolicy : BitVec 2
/-- The fused SHA-256 hash of the site key (R174). -/
opaque siteKeyHash : BitVec 256
/-- The Vendor ID of the PF configuration header (R242): the spec names it and gives no value. -/
opaque vendorId : BitVec 16

/-- The image that the factory put into the flash: its components by kind, then its manifest (R175, R178). -/
opaque factoryPart : Nat → List Byte
/-- Its svn and its release (Table 8-3). -/
opaque factorySvn : BitVec 16
opaque factoryRelease : BitVec 32

/-! ### Free values: applied to the state's counter `free`, or to what they depend on -/

/-- The step of the CCLK trim at a tick boundary (R32 bounds it and gives no control law). -/
opaque trimStep : Nat → Int
/-- Which of the free frames of a stack is taken (R216: free). -/
opaque framePick : Nat → Nat
/-- A byte left undefined by an abandoned operation (R332), or by a
reservoir slot or scratch area whose content the spec does not define (R132, R197). -/
opaque undefByte : Nat → Byte
/-- log2 N of a share whose parameter set no PE holds, of its param_id and chain_hash (R256). -/
opaque shareLog : Nat → List Byte → Byte
/-- The message of a CONTROL flit that announces a leave (R361). -/
opaque leaveNotice : Byte
/-! ### Verdicts of public-key cryptography (FIPS 186-5, X.509; the spec names the standards) -/

/-- Is (r, s) a valid P-256 ECDSA signature over the digest by the Pustiori Foundation key? (R173) -/
opaque foundationSigned : List Byte → List Byte → Bool
/-- The same by the fused site key. -/
opaque siteSigned : List Byte → List Byte → Bool
/-- The certificates of slot 0 (R239): the device root, the DeviceID certificate that Stag's flash holds, and the Alias
certificate of a DeviceID key and an Alias key, whose TcbInfo has the given fwid and vendor. -/
opaque rootCert : List Byte
opaque deviceIdCert : List Byte
opaque aliasCert (deviceIdKey aliasKey fwid vendor : List Byte) : List Byte
/-- The Alias key's signature over a measurement response (R241). -/
opaque aliasSign : List Byte → List Byte → List Byte

/-! ### Fixed constants -/

/-! Configuration space (R224, R225, R240, Tables 10-3 and 11-2): what the functions present there; no command reads it. -/

/-- Device IDs of the PF and of every VF, and their class code. -/
def pfDeviceId : Nat := 0x0640
def vfDeviceId : Nat := 0x0641
def classCode : Nat := 0x120000
/-- The SR-IOV capability: TotalVFs, First VF Offset, VF Stride. -/
def totalVfs : Nat := 8
def firstVfOffset : Nat := 1
def vfStride : Nat := 1
/-- A 64-bit BAR: its number, its size, whether it is prefetchable. -/
structure Bar where
  bar : Nat
  size : Nat
  prefetchable : Bool
deriving DecidableEq, Repr
/-- The BARs of the PF, BAR4 at its size after reset, and of a VF. -/
def pfBars : List Bar := [⟨0, 2 ^ 24, false⟩, ⟨2, 2 ^ 18, false⟩, ⟨4, 2 ^ 36, true⟩]
def vfBars : List Bar := [⟨0, 2 ^ 16, false⟩, ⟨2, 2 ^ 14, false⟩]
/-- The capabilities of R224, and the DOE object types, which the PF alone carries (R240). -/
def capabilities : List String := ["AER", "ARI", "SR-IOV", "MSI-X", "Resizable BAR", "FLR", "DOE", "IDE", "TDISP"]
def doeTypes : List String := ["DOE Discovery", "CMA/SPDM", "Secured CMA/SPDM"]
/-- Device reads outstanding with 10-bit tags. -/
def outstandingReads : Nat := 768
/-- The largest DOE data object in bytes, and the version of SPDM (R240). -/
def doeMax : Nat := 4096
def spdmVersion : BitVec 8 := 0x12
/-- The options of Table 11-2. -/
def spdmOptions : List (String × String) := [
  ("Capabilities", "CERT, CHAL, MEAS with signature, ENCRYPT, MAC, MUT_AUTH, KEY_EX, KEY_UPD"),
  ("BaseAsymAlgo and ReqBaseAsymAlg", "ECDSA P-256"), ("BaseHashAlgo and MeasurementHashAlgo", "SHA-256"),
  ("DHE", "secp256r1"), ("AEAD", "AES-256-GCM"), ("KeySchedule", "SPDM key schedule"), ("Signing key", "Alias key")]

/-- CCLK per tick (R22). -/
def tickCclk : Nat := 3200
/-- The IDCODE of the TAP (R407). -/
def idcode : Nat := 0xB0640A6F

end Sys2Proof.Config
end

