-- ==== Sys2Proof/Machine/Crypto.lean ====
section
/-!
DEFINITION. The named standards the spec builds on: SHA-256 and HMAC (R103, R116, R194, R219, R235), AES-256 (R111,
R203), XTS-AES-256 (R217), CTR_DRBG of SP 800-90A with AES-256 and the derivation function (R104, R105), the KDF of SP 800-108 as R116
writes it, AES-256-GCM (R364) and CRC-32C (R353). PRESUMED: the spec names these standards and gives no algorithm
(log entry 7).
-/
namespace Sys2Proof.Machine

/-! ### Byte strings -/

/-- The `n` little-endian bytes of a number (R6). -/
def leBytes : Nat → Nat → List Byte
  | 0, _ => []
  | n + 1, v => BitVec.ofNat 8 v :: leBytes n (v / 256)

/-- The number that little-endian bytes spell (R6). -/
def ofLe : List Byte → Nat
  | [] => 0
  | b :: bs => b.toNat + 256 * ofLe bs

/-- The `n` big-endian bytes of a number. -/
def beBytes (n v : Nat) : List Byte := (leBytes n v).reverse
/-- The number that big-endian bytes spell. -/
def ofBe (bs : List Byte) : Nat := ofLe bs.reverse

/-- `len` bytes from position `ofs`, zero where the list ends. -/
def slice (bs : List Byte) (ofs len : Nat) : List Byte :=
  (List.range len).map fun i => bs.getD (ofs + i) 0
/-- The little-endian field of `len` bytes at `ofs`. -/
def fieldAt (bs : List Byte) (ofs len : Nat) : Nat := ofLe (slice bs ofs len)
/-- Replace bytes from position `ofs`. -/
def splice (bs : List Byte) (ofs : Nat) (new : List Byte) : List Byte :=
  bs.take ofs ++ new ++ bs.drop (ofs + new.length)

/-- Bytewise XOR. -/
def xorBytes (a b : List Byte) : List Byte := List.zipWith (· ^^^ ·) a b

/-- Cut a list into pieces of `n` elements. -/
def pieces {α : Type} (n : Nat) : Nat → List α → List (List α)
  | 0, _ => []
  | k + 1, l => if l.isEmpty then [] else l.take n :: pieces n k (l.drop n)

/-! ### SHA-256 and HMAC -/

def shaK0 : List W32 :=
  [0x428A2F98, 0x71374491, 0xB5C0FBCF, 0xE9B5DBA5, 0x3956C25B, 0x59F111F1, 0x923F82A4, 0xAB1C5ED5,
   0xD807AA98, 0x12835B01, 0x243185BE, 0x550C7DC3, 0x72BE5D74, 0x80DEB1FE, 0x9BDC06A7, 0xC19BF174,
   0xE49B69C1, 0xEFBE4786, 0x0FC19DC6, 0x240CA1CC, 0x2DE92C6F, 0x4A7484AA, 0x5CB0A9DC, 0x76F988DA,
   0x983E5152, 0xA831C66D, 0xB00327C8, 0xBF597FC7, 0xC6E00BF3, 0xD5A79147, 0x06CA6351, 0x14292967]
def shaK1 : List W32 :=
  [0x27B70A85, 0x2E1B2138, 0x4D2C6DFC, 0x53380D13, 0x650A7354, 0x766A0ABB, 0x81C2C92E, 0x92722C85,
   0xA2BFE8A1, 0xA81A664B, 0xC24B8B70, 0xC76C51A3, 0xD192E819, 0xD6990624, 0xF40E3585, 0x106AA070,
   0x19A4C116, 0x1E376C08, 0x2748774C, 0x34B0BCB5, 0x391C0CB3, 0x4ED8AA4A, 0x5B9CCA4F, 0x682E6FF3,
   0x748F82EE, 0x78A5636F, 0x84C87814, 0x8CC70208, 0x90BEFFFA, 0xA4506CEB, 0xBEF9A3F7, 0xC67178F2]
def shaInit : List W32 :=
  [0x6A09E667, 0xBB67AE85, 0x3C6EF372, 0xA54FF53A, 0x510E527F, 0x9B05688C, 0x1F83D9AB, 0x5BE0CD19]

/-- Extend the message schedule, newest word first. -/
def shaExtend : Nat → List W32 → List W32
  | 0, r => r
  | k + 1, r =>
    let s0 (x : W32) : W32 := x.rotateRight 7 ^^^ x.rotateRight 18 ^^^ (x >>> 3)
    let s1 (x : W32) : W32 := x.rotateRight 17 ^^^ x.rotateRight 19 ^^^ (x >>> 10)
    shaExtend k ((s1 (r.getD 1 0) + r.getD 6 0 + s0 (r.getD 14 0) + r.getD 15 0) :: r)

/-- The working variables of one compression. -/
structure ShaVars where
  (a b c d e f g h : W32)

def shaRound (v : ShaVars) (kw : W32 × W32) : ShaVars :=
  let e1 := v.e.rotateRight 6 ^^^ v.e.rotateRight 11 ^^^ v.e.rotateRight 25
  let ch := (v.e &&& v.f) ^^^ (~~~v.e &&& v.g)
  let t1 := v.h + e1 + ch + kw.1 + kw.2
  let e0 := v.a.rotateRight 2 ^^^ v.a.rotateRight 13 ^^^ v.a.rotateRight 22
  let maj := (v.a &&& v.b) ^^^ (v.a &&& v.c) ^^^ (v.b &&& v.c)
  { a := t1 + (e0 + maj), b := v.a, c := v.b, d := v.c, e := v.d + t1, f := v.e, g := v.f, h := v.g }

def shaBlock (h : List W32) (blk : List Byte) : List W32 :=
  let w0 : List W32 := (pieces 4 16 blk).map fun p => BitVec.ofNat 32 (ofBe p)
  let w := (shaExtend 48 w0.reverse).reverse
  let g (i : Nat) := h.getD i 0
  let v := ((shaK0 ++ shaK1).zip w).foldl shaRound
    { a := g 0, b := g 1, c := g 2, d := g 3, e := g 4, f := g 5, g := g 6, h := g 7 }
  [g 0 + v.a, g 1 + v.b, g 2 + v.c, g 3 + v.d, g 4 + v.e, g 5 + v.f, g 6 + v.g, g 7 + v.h]

/-- SHA-256 (FIPS 180-4): 32 bytes. -/
def sha256 (msg : List Byte) : List Byte :=
  let n := msg.length
  let zeros := (119 - n % 64) % 64
  let padded := msg ++ [0x80] ++ List.replicate zeros 0 ++ beBytes 8 (8 * n)
  let h := (pieces 64 (padded.length / 64) padded).foldl shaBlock shaInit
  h.flatMap fun w => beBytes 4 w.toNat

/-- HMAC-SHA-256 (FIPS 198-1). -/
def hmac (key msg : List Byte) : List Byte :=
  let k := if key.length ≤ 64 then key else sha256 key
  let k := k ++ List.replicate (64 - k.length) 0
  sha256 (k.map (· ^^^ 0x5C) ++ sha256 (k.map (· ^^^ 0x36) ++ msg))

/-- ASCII bytes of a label. -/
def ascii (s : String) : List Byte := s.toList.map fun c => BitVec.ofNat 8 c.toNat

/-- The one-iteration counter-mode KDF of R116. -/
def kdf (key : List Byte) (label : String) (context : List Byte) : List Byte :=
  hmac key ([0, 0, 0, 1] ++ ascii label ++ [0] ++ context ++ [0, 0, 1, 0])

/-! ### AES-256 -/

def aesBox0 : List Byte :=
  [0x63, 0x7C, 0x77, 0x7B, 0xF2, 0x6B, 0x6F, 0xC5, 0x30, 0x01, 0x67, 0x2B, 0xFE, 0xD7, 0xAB, 0x76,
   0xCA, 0x82, 0xC9, 0x7D, 0xFA, 0x59, 0x47, 0xF0, 0xAD, 0xD4, 0xA2, 0xAF, 0x9C, 0xA4, 0x72, 0xC0,
   0xB7, 0xFD, 0x93, 0x26, 0x36, 0x3F, 0xF7, 0xCC, 0x34, 0xA5, 0xE5, 0xF1, 0x71, 0xD8, 0x31, 0x15,
   0x04, 0xC7, 0x23, 0xC3, 0x18, 0x96, 0x05, 0x9A, 0x07, 0x12, 0x80, 0xE2, 0xEB, 0x27, 0xB2, 0x75]
def aesBox1 : List Byte :=
  [0x09, 0x83, 0x2C, 0x1A, 0x1B, 0x6E, 0x5A, 0xA0, 0x52, 0x3B, 0xD6, 0xB3, 0x29, 0xE3, 0x2F, 0x84,
   0x53, 0xD1, 0x00, 0xED, 0x20, 0xFC, 0xB1, 0x5B, 0x6A, 0xCB, 0xBE, 0x39, 0x4A, 0x4C, 0x58, 0xCF,
   0xD0, 0xEF, 0xAA, 0xFB, 0x43, 0x4D, 0x33, 0x85, 0x45, 0xF9, 0x02, 0x7F, 0x50, 0x3C, 0x9F, 0xA8,
   0x51, 0xA3, 0x40, 0x8F, 0x92, 0x9D, 0x38, 0xF5, 0xBC, 0xB6, 0xDA, 0x21, 0x10, 0xFF, 0xF3, 0xD2]
def aesBox2 : List Byte :=
  [0xCD, 0x0C, 0x13, 0xEC, 0x5F, 0x97, 0x44, 0x17, 0xC4, 0xA7, 0x7E, 0x3D, 0x64, 0x5D, 0x19, 0x73,
   0x60, 0x81, 0x4F, 0xDC, 0x22, 0x2A, 0x90, 0x88, 0x46, 0xEE, 0xB8, 0x14, 0xDE, 0x5E, 0x0B, 0xDB,
   0xE0, 0x32, 0x3A, 0x0A, 0x49, 0x06, 0x24, 0x5C, 0xC2, 0xD3, 0xAC, 0x62, 0x91, 0x95, 0xE4, 0x79,
   0xE7, 0xC8, 0x37, 0x6D, 0x8D, 0xD5, 0x4E, 0xA9, 0x6C, 0x56, 0xF4, 0xEA, 0x65, 0x7A, 0xAE, 0x08]
def aesBox3 : List Byte :=
  [0xBA, 0x78, 0x25, 0x2E, 0x1C, 0xA6, 0xB4, 0xC6, 0xE8, 0xDD, 0x74, 0x1F, 0x4B, 0xBD, 0x8B, 0x8A,
   0x70, 0x3E, 0xB5, 0x66, 0x48, 0x03, 0xF6, 0x0E, 0x61, 0x35, 0x57, 0xB9, 0x86, 0xC1, 0x1D, 0x9E,
   0xE1, 0xF8, 0x98, 0x11, 0x69, 0xD9, 0x8E, 0x94, 0x9B, 0x1E, 0x87, 0xE9, 0xCE, 0x55, 0x28, 0xDF,
   0x8C, 0xA1, 0x89, 0x0D, 0xBF, 0xE6, 0x42, 0x68, 0x41, 0x99, 0x2D, 0x0F, 0xB0, 0x54, 0xBB, 0x16]

def aesSub (b : Byte) : Byte := (aesBox0 ++ aesBox1 ++ aesBox2 ++ aesBox3).getD b.toNat 0
/-- Multiply by x in GF(2^8). -/
def xtime (b : Byte) : Byte := (b <<< 1) ^^^ (if b.msb then 0x1B else 0)

/-- Expand the key, newest 4-byte word first; `n` counts the words already made. -/
def aesExpand : Nat → Nat → Byte → List (List Byte) → List (List Byte)
  | 0, _, _, r => r
  | k + 1, n, rc, r =>
    let t := r.getD 0 []
    let t' :=
      if n % 8 = 0 then xorBytes ((t.drop 1 ++ t.take 1).map aesSub) [rc, 0, 0, 0]
      else if n % 8 = 4 then t.map aesSub else t
    aesExpand k (n + 1) (if n % 8 = 0 then xtime rc else rc) (xorBytes (r.getD 7 []) t' :: r)

/-- The fifteen round keys of 16 bytes. -/
def aesKeys (key : List Byte) : List (List Byte) :=
  let w := (aesExpand 52 8 1 (pieces 4 8 key).reverse).reverse
  (pieces 4 15 w).map List.flatten

def aesShift (s : List Byte) : List Byte :=
  [0, 5, 10, 15, 4, 9, 14, 3, 8, 13, 2, 7, 12, 1, 6, 11].map fun i => s.getD i 0

def aesMixCol (c : List Byte) : List Byte :=
  let g (i : Nat) := c.getD (i % 4) 0
  (List.range 4).map fun i => xtime (g i) ^^^ (xtime (g (i + 1)) ^^^ g (i + 1)) ^^^ g (i + 2) ^^^ g (i + 3)

/-- AES-256 encryption of one 16-byte block (FIPS 197). -/
def aes256 (key block : List Byte) : List Byte :=
  let ks := aesKeys key
  let s := (List.range 13).foldl (fun s i =>
    xorBytes ((pieces 4 4 (aesShift (s.map aesSub))).flatMap aesMixCol) (ks.getD (i + 1) []))
    (xorBytes block (ks.getD 0 []))
  xorBytes (aesShift (s.map aesSub)) (ks.getD 14 [])

/-! ### XTS-AES-256 (IEEE 1619) -/

/-- Multiply a 16-byte little-endian tweak by x in GF(2^128). -/
def xtsDouble (t : List Byte) : List Byte :=
  let v := 2 * ofLe t
  leBytes 16 ((if 2 ^ 128 ≤ v then Nat.xor v 0x87 else v) % 2 ^ 128)

/-- Encrypt the blocks of a data unit, the tweak of the first one given. -/
def xtsBlocks (key : List Byte) : List (List Byte) → List Byte → List Byte
  | [], _ => []
  | b :: bs, t => xorBytes (aes256 key (xorBytes b t)) t ++ xtsBlocks key bs (xtsDouble t)

/-- A data unit under a 512-bit key, its halves K1 and K2, with a 128-bit little-endian tweak. -/
def xtsEncrypt (key : List Byte) (tweak : Nat) (data : List Byte) : List Byte :=
  xtsBlocks (key.take 32) (pieces 16 (data.length / 16) data) (aes256 (slice key 32 32) (leBytes 16 tweak))

/-! ### CTR_DRBG (SP 800-90A, AES-256, derivation function) -/

/-- Add `k` to a 16-byte big-endian counter. -/
def ctrAdd (v : List Byte) (k : Nat) : List Byte := beBytes 16 (ofBe v + k)

def bcc (key data : List Byte) : List Byte :=
  (pieces 16 (data.length / 16) data).foldl (fun c p => aes256 key (xorBytes c p)) (List.replicate 16 0)

/-- Block_Cipher_df, 48 bytes. -/
def drbgDf (input : List Byte) : List Byte :=
  let s := beBytes 4 input.length ++ beBytes 4 48 ++ input ++ [0x80]
  let s := s ++ List.replicate ((16 - s.length % 16) % 16) 0
  let k : List Byte := (List.range 32).map (BitVec.ofNat 8)
  let t := (List.range 3).flatMap fun i => bcc k (beBytes 4 i ++ List.replicate 12 0 ++ s)
  let k' := t.take 32
  let x0 := (t.drop 32).take 16
  let x1 := aes256 k' x0
  let x2 := aes256 k' x1
  x1 ++ x2 ++ aes256 k' x2

/-- CTR_DRBG_Update: new (Key, V). -/
def drbgUpdate (data : List Byte) (kv : List Byte × List Byte) : List Byte × List Byte :=
  let t := xorBytes ((List.range 3).flatMap fun i => aes256 kv.1 (ctrAdd kv.2 (i + 1))) data
  (t.take 32, t.drop 32)

def drbgInstantiate (entropy nonce pers : List Byte) : List Byte × List Byte :=
  drbgUpdate (drbgDf (entropy ++ nonce ++ pers)) (List.replicate 32 0, List.replicate 16 0)

def drbgReseed (entropy : List Byte) (kv : List Byte × List Byte) : List Byte × List Byte :=
  drbgUpdate (drbgDf entropy) kv

/-- One generate request of 256 bits: the output and the new (Key, V). -/
def drbgOutput (kv : List Byte × List Byte) : List Byte × (List Byte × List Byte) :=
  (aes256 kv.1 (ctrAdd kv.2 1) ++ aes256 kv.1 (ctrAdd kv.2 2),
   drbgUpdate (List.replicate 48 0) (kv.1, ctrAdd kv.2 2))

/-! ### AES-256-GCM (SP 800-38D) -/

/-- Multiply in GF(2^128) as GCM orders the bits (bit 0 is the most significant). -/
def gfMul (x y : BitVec 128) : BitVec 128 :=
  ((List.range 128).foldl (fun (zv : BitVec 128 × BitVec 128) i =>
    let z := if x.getMsbD i then zv.1 ^^^ zv.2 else zv.1
    let v := if zv.2.getLsbD 0 then (zv.2 >>> 1) ^^^ (0xE1 <<< 120) else zv.2 >>> 1
    (z, v)) (0, y)).1

def ghash (h : BitVec 128) (data : List Byte) : BitVec 128 :=
  (pieces 16 (data.length / 16) data).foldl (fun y p => gfMul (y ^^^ BitVec.ofNat 128 (ofBe p)) h) 0

def padTo16 (d : List Byte) : List Byte := d ++ List.replicate ((16 - d.length % 16) % 16) 0

/-- The GCM key stream applied to data, and the tag over AAD and ciphertext, for a 96-bit nonce. -/
def gcmStream (key nonce data : List Byte) : List Byte :=
  let ks := (List.range (ceilDiv data.length 16)).flatMap fun i => aes256 key (nonce ++ beBytes 4 (i + 2))
  xorBytes data ks

def gcmTag (key nonce aad cipher : List Byte) : List Byte :=
  let h := BitVec.ofNat 128 (ofBe (aes256 key (List.replicate 16 0)))
  let s := ghash h (padTo16 aad ++ padTo16 cipher ++ beBytes 8 (8 * aad.length) ++ beBytes 8 (8 * cipher.length))
  xorBytes (aes256 key (nonce ++ [0, 0, 0, 1])) (beBytes 16 s.toNat)

/-! ### CRC-32C (R353) -/

def crcBit (c : W32) : W32 := if c.getLsbD 0 then (c >>> 1) ^^^ 0x82F63B78 else c >>> 1
def crcByte (c : W32) (b : Byte) : W32 :=
  let c := c ^^^ b.setWidth 32
  crcBit (crcBit (crcBit (crcBit (crcBit (crcBit (crcBit (crcBit c)))))))
/-- CRC-32C, reflected, initial value and final XOR all ones. -/
def crc32c (data : List Byte) : W32 := ~~~(data.foldl crcByte 0xFFFFFFFF)

end Sys2Proof.Machine
end

