-- ==== Sys2Proof/Machine/Memory.lean ====
section
/-!
DEFINITION. The block's memories: a memory in its one canonical form and the operations that keep it (R208, R230), the
frames and their owners (R207, R215), the translation of device addresses (R209-R213), and reads and writes by device
address, host bus address and tile address.
-/
namespace Sys2Proof.Machine

/-! ### A memory -/

/-- The canonical form of a memory: addresses strictly rising, no entry equal to what an unlisted address reads as. -/
def Memory.wf (m : Mem) : Bool :=
  match m with
  | [] => true
  | c :: r => c.2 != 0 && r.all (fun d => decide (c.1 < d.1)) && Memory.wf r

/-- Read one byte; a byte that is not listed reads 0 (DESIGN CHOICE, log entry 4). -/
def memGet : Mem → Nat → Byte
  | [], _ => 0
  | c :: r, a => if c.1 = a then c.2 else memGet r a

/-- Write one byte. -/
def memPut : Mem → Nat → Byte → Mem
  | [], a, b => if b = 0 then [] else [(a, b)]
  | c :: r, a, b =>
    if a < c.1 then (if b = 0 then c :: r else (a, b) :: c :: r)
    else if a = c.1 then (if b = 0 then r else (a, b) :: r)
    else c :: memPut r a b

/-- Read `n` bytes from `a`. -/
def memRead (m : Mem) (a n : Nat) : List Byte := (List.range n).map fun i => memGet m (a + i)

/-- The entries of bytes that lie from `a` on. -/
def cells : Nat → List Byte → Mem
  | _, [] => []
  | a, b :: bs => if b = 0 then cells (a + 1) bs else (a, b) :: cells (a + 1) bs

/-- Write bytes from `a`. -/
def memWrite (m : Mem) (a : Nat) (bs : List Byte) : Mem :=
  m.filter (fun c => decide (c.1 < a)) ++ (cells a bs ++ m.filter (fun c => decide (a + bs.length ≤ c.1)))

/-- Set the `n` bytes from `a` to 0. -/
def memZero (m : Mem) (a n : Nat) : Mem := m.filter fun c => decide (c.1 < a) || decide (a + n ≤ c.1)

/-- Read the little-endian number of `n` bytes at `a` (R6). -/
def memNum (m : Mem) (a n : Nat) : Nat := ofLe (memRead m a n)

/-! ### The die (R47, R59, R65, R207) -/

/-- Ring position of the edge tile where an interior tile's row meets the Rim (R52, R59); an edge tile's own. -/
def entryTile (x y : Nat) : Fin 24 :=
  if x < 8 then Fin.ofNat 24 y else Fin.ofNat 24 (23 - y)

/-- Coordinates of a ring position (R59). -/
def edgeXY (p : Fin 24) : Nat × Nat := if p.val < 12 then (0, p.val) else (15, 23 - p.val)

/-- The Host tile, (0, 5). -/
def hostTile : Fin 24 := 5
/-- The edge tile of PE e: (0, 4), (0, 7), (15, 4), (15, 7). -/
def peTile (e : Fin 4) : Fin 24 := match e with | 0 => 4 | 1 => 7 | 2 => 19 | 3 => 16
/-- The tile of command-processor core cp: Markhor B (0, 11), C (15, 0), D (15, 11) (Table 8-2). -/
def cpTile (cp : Nat) : Fin 24 := if cp < 2 then 11 else if cp < 4 then 23 else 12

/-- The frames of Table 10-1: an HBM frame as (stack, frame). -/
def hbmFrame (f : Nat) : Option (Nat × Nat) :=
  if f / 2 ^ 14 < 4 ∧ f % 2 ^ 14 < 12288 then some (f / 2 ^ 14, f % 2 ^ 14) else none
/-- Is f a Store frame of Table 10-1? -/
def isStore (f : Nat) : Bool := decide (0x40000 ≤ f) && decide (f < 0x40020)
/-- Does f name a frame of Table 10-1? -/
def isFrame (f : Nat) : Bool := (hbmFrame f).isSome || isStore f
/-- Is f a frame of the device carve-out (R207)? -/
def isCarve (f : Nat) : Bool :=
  match hbmFrame f with
  | some (_, p) => decide (12160 ≤ p)
  | none => false

/-- The owner of a frame (R215): as written, else the carve-out's 8 and every other frame's 0xF. -/
def frameOwner (m : MemState) (f : Nat) : Nat :=
  match m.owner.find? (fun e => e.1 == f) with
  | some e => e.2
  | none => if isCarve f then 8 else 15

/-- Set the owner of a frame, keeping only owners that differ from those at reset. -/
def setOwner (f o : Nat) (m : MemState) : MemState :=
  let rest := m.owner.filter fun e => e.1 != f
  { m with owner := if o = (if isCarve f then 8 else 15) then rest else (f, o) :: rest }

/-- A frame whose content no key opens any more, or whose memory is lost, reads as unlisted bytes do (R218, R223; log entry
4). -/
def dropFrame (f : Nat) (m : MemState) : MemState :=
  { m with phys := memZero m.phys (f * 2 ^ 21) (2 ^ 21), aside := m.aside.filter fun x => x.frame != f }

/-- The key that an owner's frames are encrypted with (R217). -/
def ownerKey (m : MemState) (o : Nat) : Option (List Byte) := if o < 9 then (m.ctx[Fin.ofNat 9 o]).key else none

/-- A frame gets another owner: what it held is unreadable under the new owner's key, and is there again once it is back under
the old one (R217, R218). -/
def giveFrame (f o : Nat) (m : MemState) : MemState :=
  let new := ownerKey m o
  let back (x : Aside) : Bool := x.frame == f && some x.key == new
  let cells := m.phys.filter fun c => c.1 / 2 ^ 21 == f
  let kept := match ownerKey m (frameOwner m f) with
    | some k => if cells.isEmpty then [] else [{ frame := f, key := k, cells := cells }]
    | none => []
  setOwner f o { m with
    phys := ((m.aside.filter back).flatMap Aside.cells).foldl (fun p c => memPut p c.1 c.2)
      (memZero m.phys (f * 2 ^ 21) (2 ^ 21)),
    aside := (m.aside.filter fun x => !back x) ++ kept }

/-- Bytes are written at a physical address: no line written is there again under another owner's key. -/
def physWrite (m : MemState) (pa : Nat) (data : List Byte) : MemState :=
  let lost (c : Nat × Byte) : Bool := decide (pa / 128 ≤ c.1 / 128) && decide (c.1 / 128 ≤ (pa + data.length - 1) / 128)
  { m with
    phys := memWrite m.phys pa data,
    aside := if data.isEmpty then m.aside else m.aside.map fun x => { x with cells := x.cells.filter fun c => !lost c } }

/-- Physical read: an address that Table 10-1 does not list names nothing and reads 0 (R208, R211). -/
def physRead (m : MemState) (pa n : Nat) : List Byte :=
  (List.range n).map fun i => if isFrame ((pa + i) >>> 21) then memGet m.phys (pa + i) else 0

/-! ### Translation (R210-R213) -/

/-- Is a context a SEALED region? A FAULTED region that was SEALED keeps its keys and tags until its recovery ends. -/
def ctxSealed (s : State) (c : Fin 9) : Bool :=
  if h : c.val < 8 then
    let r := s.rgn.rgn[c.val]
    r.state == .sealed || ((r.state == .faulted || r.state == .disabled) && r.before == .sealed)
  else false

/-- Does context c see stack k (R209)? -/
def seesStack (s : State) (c : Fin 9) (k : Nat) : Bool :=
  if h : c.val < 8 then
    let r := s.rgn.rgn[c.val]
    if r.bwM1 = 1 then true else k / 2 == r.bx0
  else true

/-- The page-table entry of page v of context c as the table holds it. -/
def tableEntry (s : State) (c : Fin 9) (v : Nat) : Nat :=
  ofLe (physRead s.mem (s.mem.ctx[c].ptb + 8 * v) 8)

/-- The entry a request at an entry tile uses: the cached one, else the table's (R213, R214). -/
def pageEntry (s : State) (tile : Fin 24) (c : Fin 9) (v : Nat) : Nat :=
  match s.mem.tlb.find? (fun e => e.tile == tile && e.ctx == c && e.v == v) with
  | some e => e.pte
  | none => tableEntry s c v

/-- Are the reserved fields of an entry 0 (Table 10-2)? -/
def pteReservedOk (pte : Nat) : Bool :=
  !bit pte 3 &&
    (if bit pte 2 then bits pte 63 47 == 0 else bits pte 27 23 == 0 && bits pte 63 51 == 0)

/-- Does a device frame hold the page table of a SEALED region, or of one being sealed, and take no write of the normal world
(R210, Table 11-6 step 3)? -/
def tableShut (s : State) (f : Nat) : Bool :=
  isCarve f && (List.range 8).any fun i =>
    (ctxSealed s (Fin.ofNat 9 i) || (s.sec.rgn[Fin.ofNat 8 i]).sealing) && (s.mem.ctx[Fin.ofNat 9 i]).ptb / 2 ^ 21 == f

/-- Where the tags of a page begin, by its entry: none of a Store frame and of a context that is no SEALED region (R219). -/
def pageTags (s : State) (c : Fin 9) (pte : Nat) : Option (Fin 9 × Nat) :=
  if s.mem.ctx[c].tags && (hbmFrame (bits pte 22 4)).isSome then
    some (c, bits pte 46 28 * 2 ^ 21 + bits pte 50 47 * 2 ^ 17)
  else none

/-- Translate one address of context c at an entry tile: the place, or the first failing cause of R211. -/
def translate (s : State) (tile : Fin 24) (c : Fin 9) (addr : Nat) (write : Bool) : Except Nat Place :=
  if 2 ^ 37 ≤ addr then .error 1 else
  let pte := pageEntry s tile c (addr >>> 21)
  if !bit pte 0 || !pteReservedOk pte then .error 2 else
  if write && !bit pte 1 then .error 3 else
  if bit pte 2 then .ok (.host (bits pte 46 4 * 2 ^ 21 + addr % 2 ^ 21)) else
  let f := bits pte 22 4
  let seen := match hbmFrame f with
    | some (k, _) => seesStack s c k
    | none => isStore f
  if !seen then .error 4 else
  if frameOwner s.mem f != c.val then .error 5 else
  if write && c == 8 && tableShut s f then .ok .shut else
  .ok (.dev (f * 2 ^ 21 + addr % 2 ^ 21) (pageTags s c pte))

/-! ### Integrity tags (R219, R221, R222) -/

/-- The lines that a stretch of physical memory touches. -/
def linesOf (pa n : Nat) : List Nat :=
  if n = 0 then [] else (List.range ((pa + n - 1) / 128 - pa / 128 + 1)).map fun i => pa / 128 + i

/-- Where the tag of a line lies, and the tag of what the line holds. -/
def tagAddr (base line : Nat) : Nat := base + 8 * (line % 16384)
def lineTag (m : MemState) (c : Fin 9) (line : Nat) : List Byte :=
  let k := m.ctx[c]
  (hmac (k.integKey.getD []) (leBytes 8 (128 * line) ++
    xtsEncrypt (k.key.getD []) line (memRead m.phys (128 * line) 128))).take 8

/-- Does a line fail its tag check? -/
def tagBad (m : MemState) (t : Fin 9 × Nat) (line : Nat) : Bool :=
  memRead m.phys (tagAddr t.2 line) 8 != lineTag m t.1 line

/-- The port writes the tags of lines. -/
def putTags (t : Fin 9 × Nat) (lines : List Nat) (m : MemState) : MemState :=
  lines.foldl (fun m l => physWrite m (tagAddr t.2 l) (lineTag m t.1 l)) m

/-- Every line of a frame is written with zeros, and with its tag if the page carries tags (R220). -/
def zeroFrame (f : Nat) (t : Option (Fin 9 × Nat)) (m : MemState) : MemState :=
  match t with
  | none => dropFrame f m
  | some t => putTags t ((List.range 16384).map fun i => f * 16384 + i) (dropFrame f m)

/-- The lines of a write that are written in part, and so read first (R222). -/
def partLines (pa n : Nat) : List Nat :=
  (linesOf pa n).filter fun l => decide (128 * l < pa) || decide (pa + n < 128 * l + 128)

/-- The cause that stands for a failed tag check among those of R211. -/
def tagCause : Nat := 9

/-- Read n bytes at a place: a line that fails its tag check reads zeros (R221). -/
def readPlace (s : State) (p : Place) (n : Nat) : List Byte × Bool :=
  match p with
  | .dev pa none => (memRead s.mem.phys pa n, false)
  | .dev pa (some t) =>
    let ls := linesOf pa n
    (slice (ls.flatMap fun l => if tagBad s.mem t l then List.replicate 128 0 else memRead s.mem.phys (128 * l) 128)
      (pa % 128) n, ls.any (tagBad s.mem t))
  | .host ha => (memRead s.pcie.host ha n, false)
  | .shut => (List.replicate n 0, false)

/-- Does a write of n bytes at a place meet a failed tag check, in a line that it writes in part? -/
def writeFails (s : State) (p : Place) (n : Nat) : Bool :=
  match p with
  | .dev pa (some t) => (partLines pa n).any (tagBad s.mem t)
  | _ => false

/-- Cut an access at page boundaries (R212: each page is translated on its own): (address, length). -/
def pageParts : Nat → Nat → Nat → List (Nat × Nat)
  | 0, _, _ => []
  | k + 1, a, n =>
    if n = 0 then [] else
    let here := min n (2 ^ 21 - a % 2 ^ 21)
    (a, here) :: pageParts k (a + here) (n - here)

/-- What an access meets: its first translation fault or failed tag check, as (device address, cause). -/
abbrev MemFault := Option (Nat × Nat)

/-- Read `n` bytes at a device address: a part whose translation faults reads zeros (R212). -/
def readDev (s : State) (tile : Fin 24) (c : Fin 9) (a n : Nat) : List Byte × MemFault :=
  (pageParts (n / 2 ^ 21 + 2) a n).foldl (fun acc p =>
    match translate s tile c p.1 false with
    | .ok place =>
      let r := readPlace s place p.2
      (acc.1 ++ r.1, acc.2.orElse fun _ => if r.2 then some (p.1, tagCause) else none)
    | .error e => (acc.1 ++ List.replicate p.2 0, acc.2.orElse fun _ => some (p.1, e))) ([], none)

/-- Write bytes at a place: where the frame carries tags, a line written in part whose check failed holds zeros beside the bytes
written, and every line written gets its tag (R219, R221, R222). -/
def writePlace (p : Place) (data : List Byte) (s : State) : State :=
  match p with
  | .dev pa none => { s with mem := physWrite s.mem pa data }
  | .dev pa (some t) =>
    let bad := (partLines pa data.length).filter (tagBad s.mem t)
    let m := bad.foldl (fun m l => physWrite m (128 * l) (List.replicate 128 0)) s.mem
    { s with mem := putTags t (linesOf pa data.length) (physWrite m pa data) }
  | .shut => s
  | .host ha => { s with pcie := { s.pcie with host := memWrite s.pcie.host ha data } }

/-- Write bytes at a device address: a part whose translation faults is discarded (R212). -/
def writeDev (tile : Fin 24) (c : Fin 9) (a : Nat) (data : List Byte) (s : State) : State × MemFault :=
  let r := (pageParts (data.length / 2 ^ 21 + 2) a data.length).foldl
    (fun (acc : State × List Byte × MemFault) p =>
      let here := acc.2.1.take p.2
      let rest := acc.2.1.drop p.2
      match translate s tile c p.1 true with
      | .ok place => (writePlace place here acc.1, rest,
          acc.2.2.orElse fun _ => if writeFails acc.1 place p.2 then some (p.1, tagCause) else none)
      | .error e => (acc.1, rest, acc.2.2.orElse fun _ => some (p.1, e)))
    (s, data, none)
  (r.1, r.2.2)

/-- MEM_CTX_FAULT of context c latches the first fault since it was cleared (R212); MEM_CTX_INTEG counts a failed tag check
(R221). -/
def latchFault (c : Fin 9) (addr cause : Nat) (s : State) : State :=
  if cause = tagCause then
    { s with mem := { s.mem with ctx := upd s.mem.ctx c fun x => { x with integ := satInc 32 x.integ } } }
  else
  { s with mem := { s.mem with ctx := upd s.mem.ctx c fun x =>
      if x.faultValid then x else { x with faultValid := true, faultAddr := addr % 2 ^ 48, faultCause := cause } } }

/-- Latch the fault of an access, if it had one. -/
def latchIf (c : Fin 9) (f : MemFault) (s : State) : State :=
  match f with
  | some (a, cause) => latchFault c a cause s
  | none => s

/-! ### Host memory by bus address (loc = 1, R273) -/

def readHost (s : State) (a n : Nat) : List Byte := memRead s.pcie.host (a % 2 ^ 64) n
def writeHost (a : Nat) (data : List Byte) (s : State) : State :=
  { s with pcie := { s.pcie with host := memWrite s.pcie.host (a % 2 ^ 64) data } }

/-- The little-endian 64-bit word at a device address. -/
def readWord (s : State) (tile : Fin 24) (c : Fin 9) (a : Nat) : W64 × MemFault :=
  let r := readDev s tile c a 8
  (BitVec.ofNat 64 (ofLe r.1), r.2)

/-! ### Free values -/

/-- `n` bytes that the spec leaves undefined: free values, fresh for each use of the state's counter (log entry 6). -/
def undefBytes (s : State) (n : Nat) : List Byte := (List.range n).map fun i => Config.undefByte (s.free + i)
/-- Count off `n` used free values. -/
def useFree (n : Nat) (s : State) : State := { s with free := s.free + n }

end Sys2Proof.Machine
end

