-- ==== Sys2Proof/Machine/Operands.lean ====
section
/-!
DEFINITION. The structures the block consumes, read from their bytes: command packets (R282, Tables 12-1 to 12-3), control
words (R299, R424, Tables 13-1 to 13-3), engine descriptors (R308, Tables 13-4 and 13-5), tile addresses (R309), capture
lists (R283) and schedule records (R319), each with the reserved fields that R10 requires to be 0.
-/
namespace Sys2Proof.Machine

/-! ### Reserved fields -/

/-- `n` bytes from `ofs` in which every bit belongs to a listed field. -/
def span (ofs n : Nat) : List (Nat × Byte) := (List.range n).map fun i => (ofs + i, 0xFF)

/-- Is every bit that no listed field holds 0 (R10)? `used` gives the listed bits of each byte. -/
def reservedOk (used : List (Nat × Byte)) (bs : List Byte) (n : Nat) : Bool :=
  (List.range n).all fun i =>
    let m := match used.find? (fun e => e.1 == i) with
      | some e => e.2
      | none => 0
    bs.getD i 0 &&& ~~~m == 0

/-! ### Command packets -/

/-- Packet byte 0. -/
def pktOp (b : List Byte) : Nat := fieldAt b 0 1
/-- Packet byte 1 bit 0: signal the completion (R293). -/
def pktNotify (b : List Byte) : Bool := bit (fieldAt b 1 1) 0
/-- The tag, echoed in the record. -/
def pktTag (b : List Byte) : Nat := fieldAt b 8 8

/-- RUN body. -/
def runProg (b : List Byte) : Nat := fieldAt b 16 6
def runMode (b : List Byte) : Nat := fieldAt b 22 2
def runParam (b : List Byte) : Nat := fieldAt b 24 6
def runCapCount (b : List Byte) : Nat := fieldAt b 30 2
def runCapAddr (b : List Byte) : Nat := fieldAt b 32 6
def runBudget (b : List Byte) : Nat := fieldAt b 40 4
def runSeed (b : List Byte) : List Byte := slice b 48 16
/-- Table 12-3. -/
def modeNoise (b : List Byte) : Nat := bits (runMode b) 1 0
def modeRestartable (b : List Byte) : Bool := bit (runMode b) 2
def modeRestartBudget (b : List Byte) : Nat := bits (runMode b) 5 3
def modeTick (b : List Byte) : Bool := bit (runMode b) 6

/-- Is an opcode listed in Table 12-2? -/
def opListed (op : Nat) : Bool := decide (op ≤ 7) || (decide (0x40 ≤ op) && decide (op ≤ 0x46))
/-- Does Table 12-2 admit an opcode on queue i? -/
def opPermitted (op i : Nat) : Bool :=
  if i = 32 then op == 0 || op == 7 || decide (0x40 ≤ op) else decide (op ≤ 7)

/-- The listed bits of a packet by opcode (Tables 12-1 to 12-3). -/
def pktUsed (op : Nat) : List (Nat × Byte) :=
  [(0, 0xFF), (1, 0x01)] ++ span 8 8 ++
  match op with
  | 0x01 => span 16 6 ++ [(22, 0x7F)] ++ span 24 14 ++ span 40 4 ++ span 48 16
  | 0x02 => span 16 1 ++ span 20 4
  | 0x03 => span 16 1 ++ span 24 8
  | 0x04 => span 16 1 ++ span 24 8
  | 0x05 => span 16 2
  | 0x06 => span 16 2 ++ span 20 4
  | 0x07 => span 16 2 ++ span 24 6
  | 0x40 => [(16, 0xFF), (17, 0x3F), (18, 0xFF)] ++ span 20 3 ++ span 24 4
  | 0x41 => span 16 1
  | 0x42 => span 16 1 ++ span 32 32
  | 0x43 => span 16 5 ++ [(21, 0x01)] ++ span 24 4
  | 0x45 => span 24 8
  | 0x46 => span 24 6 ++ span 32 4
  | _ => []

/-- Do the fields of a packet lie in their stated ranges and alignments (R289)? The REGION_CREATE fields that R69 checks
are left to it. -/
def pktRangesOk (i : Nat) (b : List Byte) : Bool :=
  match pktOp b with
  | 0x01 => runProg b % 16 == 0 && decide (modeNoise b ≤ 1) && decide (runCapCount b ≤ 16) && runCapAddr b % 16 == 0
  | 0x02 => decide (fieldAt b 16 1 ≤ 3)
  | 0x03 => decide (fieldAt b 16 1 ≤ 63)
  | 0x04 => decide (fieldAt b 16 1 ≤ 63)
  | 0x05 => decide (fieldAt b 16 2 ≤ 255)
  | 0x06 => decide (fieldAt b 16 2 ≤ 255)
  | 0x07 =>
    let kind := fieldAt b 16 1
    let target := fieldAt b 17 1
    decide (kind ≤ 4) && fieldAt b 24 6 % 64 == 0 &&
      (if kind = 0 then target == 0
       else if i = 32 then (if kind = 2 then decide (target ≤ 32) else decide (target ≤ 7))
       else (if kind = 2 then decide (target ≤ 3) else target == 0))
  | 0x40 => decide (fieldAt b 24 4 ≤ 65536)
  | 0x41 => decide (fieldAt b 16 1 ≤ 7)
  | 0x42 => decide (fieldAt b 16 1 ≤ 7)
  | 0x43 => fieldAt b 16 4 != 0 && decide (2 ≤ fieldAt b 20 1) && decide (fieldAt b 20 1 ≤ 16)
  | 0x46 => decide (fieldAt b 32 4 ≤ 2 ^ 24)
  | _ => true

/-- The rejection of R289, in its order: the first case that holds. -/
def pktReject (i : Nat) (b : List Byte) : Option Nat :=
  if !opListed (pktOp b) then some Status.badOpcode
  else if !reservedOk (pktUsed (pktOp b)) b 64 then some Status.reservedNonzero
  else if !pktRangesOk i b then some Status.badField
  else if !opPermitted (pktOp b) i then some Status.notPermitted
  else if pktOp b = 1 ∧ modeTick b = true ∧ i % 4 ≠ 0 then some Status.notPermitted
  else none

/-- A capture entry (R283): address and length. -/
structure CapEnt where
  addr : Nat
  len : Nat
deriving DecidableEq, Repr

/-- Read a capture list; none where an entry breaks R10 or a stated range, with the status it earns. -/
def capList (bs : List Byte) (n : Nat) : Except Nat (List CapEnt) :=
  let es := (List.range n).map fun i => slice bs (16 * i) 16
  if es.any (fun e => fieldAt e 6 2 != 0 || fieldAt e 12 4 != 0) then .error Status.reservedNonzero
  else if es.any (fun e => fieldAt e 0 6 % 16 != 0 || fieldAt e 8 4 == 0 || fieldAt e 8 4 % 16 != 0) then
    .error Status.badField
  else if 2 ^ 20 < (es.map fun e => fieldAt e 8 4).sum then .error Status.badField
  else .ok (es.map fun e => { addr := fieldAt e 0 6, len := fieldAt e 8 4 })

/-! ### Control words -/

/-- A control word (Table 13-1). -/
structure Word where
  op : Nat
  flags : Nat
  t : Nat
  x : Nat
  y : Nat
deriving DecidableEq, Repr

/-- The sixteen bytes of a control word. -/
def readCw (b : List Byte) : Word :=
  { op := fieldAt b 0 1, flags := fieldAt b 1 1, t := fieldAt b 2 2, x := fieldAt b 4 4, y := fieldAt b 8 8 }

/-- The amode of a word's operand (R300). -/
def Word.amode (w : Word) : Nat := w.flags % 4

/-- EMIT's kind, flags [5:2] (Table 13-2). -/
def Word.emitKind (w : Word) : Nat := bits w.flags 5 2
/-- MAP's kind, x [17:16] (R306). -/
def Word.mapKind (w : Word) : Nat := bits w.x 17 16

/-- Are the reserved fields of a control word 0, and its encodings listed (R10, R299, R424)? Object numbers and encodings
outside their lists count as reserved encodings. -/
def cwOk (w : Word) : Bool :=
  let f := w.flags
  match w.op with
  | 0x01 => f / 8 == 0 && w.t == 0 && w.x == 0
  | 0x02 => f / 8 == 0 && decide (w.t ≤ 255) && w.x / 256 == 0 && (bit f 2 || w.x == 0)
  | 0x03 => f % 4 == 0 && f / 8 == 0 && decide (w.t ≤ 255) && w.y == 0
  | 0x04 => f / 4 == 0 && decide (w.t ≤ 63) && w.x == 0
  | 0x05 =>
    f / 16 == 0 && w.x == 0 &&
      (if bits f 3 2 = 0 then decide (w.t ≤ 63)
       else if bits f 3 2 = 1 then decide (w.t ≤ 255) && w.y == 0 && f % 4 == 0 else false)
  | 0x06 => f / 128 == 0 && decide (bits f 6 3 ≤ 7) && (!bit f 2 || (w.y == 0 && f % 4 == 0))
  | 0x07 => f / 16 == 0 && w.x == 0
  | 0x08 => f == 0 && w.x == 0 && w.y == 0
  | 0x09 => f == 0 && decide (w.t ≤ 47) && w.x == 0 && w.y == 0
  | 0x0A => f == 0 && decide (w.t ≤ 47) && w.x == 0 && w.y == 0
  | 0x0B => f / 4 == 0 && w.t == 0 && w.x == 0
  | 0x0C => f / 128 == 0 && w.t == 0 && (bit f 3 || (w.x == 0 && bits f 6 4 == 0))
  | 0x0D =>
    f / 64 == 0 && w.t == 0 &&
      (match w.emitKind with
       | 0 => true
       | 1 => w.x == 0 && w.y == 0 && f % 4 == 0
       | 2 => w.x / 2 ^ 19 == 0 && (decide (2 ≤ w.mapKind) || (w.y == 0 && f % 4 == 0))
       | _ => false)
  | 0x0E => f == 0 && w.t == 0 && w.x == 0 && w.y == 0
  | _ => false

/-! ### Descriptors -/

/-- Descriptor header fields (Table 13-4). -/
def dClass (b : List Byte) : Nat := bits (fieldAt b 0 1) 3 0
def dChain (b : List Byte) : Bool := bit (fieldAt b 0 1) 4
def dDoneEn (b : List Byte) : Bool := bit (fieldAt b 0 1) 5
def dTarget (b : List Byte) : Nat := fieldAt b 1 1
def dLx (b : List Byte) : Nat := bits (fieldAt b 1 1) 3 0
def dLy (b : List Byte) : Nat := bits (fieldAt b 1 1) 7 4
def dDoneEvent (b : List Byte) : Nat := fieldAt b 2 1
def dNext (b : List Byte) : Nat := fieldAt b 8 6

/-- The listed bits of a descriptor by class, and for IBEX and CHAM by form (Tables 13-4, 13-5). -/
def descUsed (b : List Byte) : List (Nat × Byte) :=
  [(0, 0x3F)] ++ span 2 1 ++ span 8 6 ++
  match dClass b with
  | 0 => [(1, 0xFF)] ++ span 16 6 ++ span 24 6
  | 1 => [(1, 0xFF), (16, 0x7F), (17, 0x7F), (18, 0x1F)] ++ span 19 2 ++ span 22 2 ++ [(24, 0x1F)] ++ span 28 8 ++
      (if bit (fieldAt b 16 1) 6 then span 36 11 else span 36 10)
  | 2 => [(1, 0xFF), (16, 0xFF), (17, 0x01)] ++
      (match fieldAt b 16 1 with
       | 0 => span 20 4 ++ span 32 32
       | 1 => span 18 1 ++ [(19, 0x01)] ++ span 20 6 ++ span 28 4 ++ span 40 6
       | _ => span 18 1 ++ span 24 6 ++ span 32 6 ++ span 40 6 ++ span 48 8)
  | 3 => [(1, 0x07)] ++ span 20 4 ++ span 32 32
  | 4 => [(1, 0x03), (16, 0xFF), (17, 0x03), (18, 0x0F), (19, 0x0F), (20, 0x0F), (21, 0x07)] ++ span 22 36
  | 5 => span 16 6 ++ span 24 6 ++ span 32 6 ++ span 40 8
  | _ => []

/-- A tile address (R309): local address and logical tile. -/
structure TileAddr where
  ofs : Nat
  lx : Nat
  ly : Nat
deriving DecidableEq, Repr

/-- Is a 48-bit address field a tile address? -/
def isTileAddr (a : Nat) : Bool := bit a 47
def tileAddr (a : Nat) : TileAddr := { ofs := bits a 20 0, lx := bits a 24 21, ly := bits a 28 25 }

/-- Does a rectangle of bw × bh macro-blocks hold a logical tile (R67)? -/
def inRect (bwM1 bhM1 lx ly : Nat) : Bool := decide (lx < 7 * (bwM1 + 1)) && decide (ly < 3 * (bhM1 + 1))

/-- Is a field that may hold a tile address well formed: not one, or one with no reserved bit and a tile of the region? -/
def tileAddrOk (bwM1 bhM1 a : Nat) : Bool :=
  !isTileAddr a || (bits a 46 29 == 0 && inRect bwM1 bhM1 (tileAddr a).lx (tileAddr a).ly)

/-- Does a descriptor keep R10: no reserved bit set, no reserved encoding, every logical coordinate inside the region
(R67), and no range of Table 13-5 broken? -/
def descOk (bwM1 bhM1 : Nat) (b : List Byte) : Bool :=
  reservedOk (descUsed b) b 64 && decide (dClass b ≤ 5) &&
  match dClass b with
  | 0 => inRect bwM1 bhM1 (dLx b) (dLy b)
  | 1 =>
    inRect bwM1 bhM1 (dLx b) (dLy b) &&
      (!bit (fieldAt b 18 1) 3 || inRect bwM1 bhM1 (bits (fieldAt b 22 1) 3 0) (bits (fieldAt b 22 1) 7 4)) &&
      (!bit (fieldAt b 18 1) 4 || inRect bwM1 bhM1 (bits (fieldAt b 23 1) 3 0) (bits (fieldAt b 23 1) 7 4)) &&
      (if bit (fieldAt b 16 1) 6 then inRect bwM1 bhM1 (bits (fieldAt b 46 1) 3 0) (bits (fieldAt b 46 1) 7 4)
       else tileAddrOk bwM1 bhM1 (fieldAt b 40 6))
  | 2 =>
    inRect bwM1 bhM1 (dLx b) (dLy b) && decide (fieldAt b 16 1 ≤ 2) &&
      (fieldAt b 16 1 != 1 || tileAddrOk bwM1 bhM1 (fieldAt b 40 6))
  | 3 => decide (dTarget b < (bwM1 + 1) * (bhM1 + 1))
  | 4 => decide (1 ≤ fieldAt b 16 1) && decide (fieldAt b 16 1 ≤ 10)
  | _ => tileAddrOk bwM1 bhM1 (fieldAt b 16 6) && tileAddrOk bwM1 bhM1 (fieldAt b 24 6) && fieldAt b 32 4 != 0

/-! ### Schedule records (Table 13-7) -/

/-- Are the reserved bytes of a schedule record 0 (R319)? -/
def schedRecOk (b : List Byte) : Bool :=
  bits (fieldAt b 3 1) 7 4 == 0 && fieldAt b 16 8 == 0 && fieldAt b 24 8 == 0

end Sys2Proof.Machine
end

