-- ==== Sys2Proof/Machine/Ops.lean ====
section
/-!
DEFINITION. The operations that commands share: changing one part of the state, MSI-X messages (R228), error logs (R326,
R327), events, fences and locks (R312-R316), completion records (R288-R293), stopping and completing jobs (R325, R330),
and what follows of itself when one of them changes (`settle`).
-/
namespace Sys2Proof.Machine

/-! ### Changing one part of the state -/

def modRgn (n : Fin 8) (f : Region → Region) (s : State) : State :=
  { s with rgn := { s.rgn with rgn := upd s.rgn.rgn n f } }
def modTickRgn (n : Fin 8) (f : TickRgn → TickRgn) (s : State) : State :=
  { s with tick := { s.tick with rgn := upd s.tick.rgn n f } }
def modOut (n : Fin 8) (f : HalyOut → HalyOut) (s : State) : State :=
  { s with haly := { s.haly with out := upd s.haly.out n f } }
def modIn (n : Fin 4) (f : HalyIn → HalyIn) (s : State) : State :=
  { s with haly := { s.haly with inp := upd s.haly.inp n f } }
def modHerd (h : Fin 64) (f : HerdTile → HerdTile) (s : State) : State :=
  { s with herd := { s.herd with tile := upd s.herd.tile h f } }
def modTickJob (n : Fin 8) (f : TickJob → TickJob) (s : State) : State :=
  { s with herd := { s.herd with job := upd s.herd.job n f } }
def modAnl (n : Fin 8) (f : AnlRgn → AnlRgn) (s : State) : State :=
  { s with anl := { s.anl with rgn := upd s.anl.rgn n f } }
def modNoiseRgn (n : Fin 8) (f : NoiseRgn → NoiseRgn) (s : State) : State :=
  { s with noise := { s.noise with rgn := upd s.noise.rgn n f } }
def modIbex (i : Fin 48) (f : Ibex → Ibex) (s : State) : State := { s with ibex := upd s.ibex i f }
def modCham (i : Fin 48) (f : Cham → Cham) (s : State) : State := { s with cham := upd s.cham i f }
def modKudu (m : Fin 8) (f : Kudu → Kudu) (s : State) : State := { s with kudu := upd s.kudu m f }
def modPe (e : Fin 4) (f : Pe → Pe) (s : State) : State := { s with pe := upd s.pe e f }
def modCp (c : Fin 6) (f : CpCore → CpCore) (s : State) : State :=
  { s with mkh := { s.mkh with cp := upd s.mkh.cp c f } }
def modMem (f : MemState → MemState) (s : State) : State := { s with mem := f s.mem }
def modCtx (c : Fin 9) (f : MemCtx → MemCtx) (s : State) : State :=
  { s with mem := { s.mem with ctx := upd s.mem.ctx c f } }
def modSecRgn (n : Fin 8) (f : SecRgn → SecRgn) (s : State) : State :=
  { s with sec := { s.sec with rgn := upd s.sec.rgn n f } }
def modStream (k : Fin 8) (f : Stream → Stream) (s : State) : State :=
  { s with sec := { s.sec with stream := upd s.sec.stream k f } }
def modQue (i : Fin 33) (f : Queue → Queue) (s : State) : State := { s with que := upd s.que i f }
def modEvt (n : Fin 8) (f : EvtRgn → EvtRgn) (s : State) : State :=
  { s with evt := { s.evt with rgn := upd s.evt.rgn n f } }
def modErr (f : ErrState → ErrState) (s : State) : State := { s with err := f s.err }
def modRing (f : RingState → RingState) (s : State) : State := { s with ring := f s.ring }
def modPort (p : Fin 2) (f : RingPort → RingPort) (s : State) : State :=
  { s with ring := { s.ring with port := upd s.ring.port p f } }
def modRingRgn (n : Fin 8) (f : RingRgn → RingRgn) (s : State) : State :=
  { s with ring := { s.ring with rgn := upd s.ring.rgn n f } }
def modPwrRgn (n : Fin 8) (f : PwrRgn → PwrRgn) (s : State) : State :=
  { s with pwr := { s.pwr with rgn := upd s.pwr.rgn n f } }
def modTile (i : Fin 192) (f : TilePwr → TilePwr) (s : State) : State :=
  { s with pwr := { s.pwr with tile := upd s.pwr.tile i f } }
def modEng (f : EngState → EngState) (s : State) : State := { s with eng := f s.eng }

/-- Apply a change for each element of a list, in order. -/
def forEach {α : Type} (l : List α) (f : α → State → State) (s : State) : State := l.foldl (fun s a => f a s) s

/-- All numbers below n. -/
def allFin (n : Nat) [NeZero n] : List (Fin n) := (List.range n).map fun i => Fin.ofNat n i

/-! ### Numbers -/

/-- Region of a region queue. -/
def qRegion (i : Fin 33) : Option (Fin 8) := if i.val < 32 then some (Fin.ofNat 8 (i.val / 4)) else none
/-- Queue number within its region. -/
def qClass (i : Fin 33) : Fin 4 := Fin.ofNat 4 (i.val % 4)
/-- Queue i = 4·n + q (R269). -/
def qIndex (n : Fin 8) (q : Fin 4) : Fin 33 := Fin.ofNat 33 (4 * n.val + q.val)
/-- The maintenance queue. -/
def maintQ : Fin 33 := 32
/-- The context of a queue: its region's, or 8 for the maintenance queue (R273). -/
def qCtx (i : Fin 33) : Fin 9 := if i.val < 32 then Fin.ofNat 9 (i.val / 4) else 8
/-- The context of a region. -/
def ctxOf (n : Fin 8) : Fin 9 := Fin.ofNat 9 n.val
/-- The function of a region's VF; 0 is the PF. -/
def vfOf (n : Fin 8) : Fin 9 := Fin.ofNat 9 (n.val + 1)
/-- The function of a queue. -/
def qFn (i : Fin 33) : Fin 9 := if i.val < 32 then Fin.ofNat 9 (i.val / 4 + 1) else 0
/-- The tile of the command-processor core that serves a region. -/
def regionCpTile (s : State) (n : Fin 8) : Fin 24 := cpTile s.rgn.rgn[n].cp
/-- The tile of the core that serves a queue (cp 1 for the maintenance queue, R295). -/
def queueTile (s : State) (i : Fin 33) : Fin 24 :=
  match qRegion i with
  | some n => regionCpTile s n
  | none => cpTile 1

/-- The site of an error that region n's command processor raises: its tile (R327); engine 6 is a control word, 10 other work. -/
def cpSite (s : State) (n : Fin 8) (engine detail : Nat) : Site :=
  let p := edgeXY (regionCpTile s n)
  { x := p.1, y := p.2, engine := engine, detail := detail }
/-- A control word's site. -/
def wordSite (s : State) (n : Fin 8) (detail : Nat) : Site := cpSite s n 6 detail
/-- The site of an access that the core makes for a queue. -/
def queueSite (s : State) (i : Fin 33) : Site :=
  let p := edgeXY (queueTile s i)
  { x := p.1, y := p.2, engine := 10, detail := 0 }

/-! ### MSI-X (R228) -/

def sendMsix (fn : Fin 9) (v : Nat) (s : State) : State :=
  { s with out := { s.out with msix := s.out.msix ++ [{ fn := fn, vector := v }] } }

/-! ### Error logs (R326, R327) -/

/-- An error record (Table 14-2). -/
def mkRec (e : Err) (region queue : Nat) (site : Site) (jobId : W32) (tn : W64) (epoch : Nat) : ErrRec :=
  { w0 := BitVec.ofNat 32 (errCode e + errLevel e * 2 ^ 8 + region * 2 ^ 10 + queue * 2 ^ 14 + site.x * 2 ^ 16
            + site.y * 2 ^ 20 + site.engine * 2 ^ 24 + 2 ^ 31),
    w1 := jobId, w2 := tn.setWidth 32,
    w3 := BitVec.ofNat 32 (errStatus e + site.detail % 256 * 2 ^ 16 + epoch % 8 * 2 ^ 24) }

/-- Put an error into a log. -/
def pushLog (r : ErrRec) (l : ErrLog) : ErrLog :=
  { first := match l.first with | none => some r | some x => some x,
    next := match l.first with | none => l.next | some _ => some r,
    count := satInc 16 l.count }

def logRegion (n : Fin 8) (r : ErrRec) (s : State) : State :=
  modErr (fun e => { e with rgn := upd e.rgn n (pushLog r) }) s
def logDevice (r : ErrRec) (s : State) : State := modErr (fun e => { e with dev := pushLog r e.dev }) s

/-! ### Jobs -/

/-- The job of a packet. -/
def findJob (s : State) (k : JobRef) : Option Job := s.jobs.find? fun j => j.ref == k
def modJob (k : JobRef) (f : Job → Job) (s : State) : State :=
  { s with jobs := s.jobs.map fun j => if j.ref == k then f j else j }
def dropJob (k : JobRef) (s : State) : State := { s with jobs := s.jobs.filter fun j => j.ref != k }

/-- Is a job started and not over (it has a job_id)? -/
def Job.started (j : Job) : Bool := j.phase != .staged

/-- Discard a staged job and its staged image (R321). -/
def dropStaged (k : JobRef) (s : State) : State :=
  match findJob s k with
  | some j =>
    if j.started then s
    else if j.tick then modTickJob k.r (fun t => { t with shadow := none }) (dropJob k s) else dropJob k s
  | none => s

/-- The started job of region n's queue q whose program may step: running, not stopped. -/
def runningJob (s : State) (n : Fin 8) (q : Fin 4) : Option Job :=
  s.jobs.find? fun j => j.ref.r == n && j.ref.q == q && j.phase == .running

/-- One more unit of progress (R328). -/
def Job.progressBy (k : Nat) (j : Job) : Job := { j with progress := j.progress + BitVec.ofNat 64 k }

/-- A control word completes: the next word is `pc`, and progress counts it (R301, R328). -/
def Job.goto (pc : Nat) (j : Job) : Job := { j with pc := pc, wait := .none, progress := j.progress + 1 }
/-- The index has 16 bits (R299; past word 65,535 it wraps, log entry 28). -/
def Job.advance (j : Job) : Job := j.goto ((j.pc + 1) % 65536)

/-- Is a job noise-consuming: its engine set includes a Herd tile, or it has carried a descriptor that requests
randomness (R106)? -/
def Job.noiseConsuming (j : Job) : Bool := j.tick || j.noisy

/-! ### Locks (R315, R316) -/

/-- Lock number l of region n: 0-31 its own, 32-47 device-wide. -/
def getLock (s : State) (n : Fin 8) (l : Nat) : LockReg :=
  if l < 32 then (s.evt.rgn[n]).lock[Fin.ofNat 32 l] else s.evt.dlock[Fin.ofNat 16 (l - 32)]
def modLock (n : Fin 8) (l : Nat) (f : LockReg → LockReg) (s : State) : State :=
  if l < 32 then modEvt n (fun e => { e with lock := upd e.lock (Fin.ofNat 32 l) f }) s
  else { s with evt := { s.evt with dlock := upd s.evt.dlock (Fin.ofNat 16 (l - 32)) f } }

/-- Give a lock's next waiter the lock, or leave it in `state` with no holder. -/
def LockReg.pass (state : LState) (l : LockReg) : LockReg :=
  match l.waiters with
  | w :: ws => { l with state := .held, holder := some w, waiters := ws }
  | [] => { l with state := state, holder := none }

/-- Put CW.lock_was_broken of a job. -/
def setLockCw (k : JobRef) (b : Bool) (s : State) : State := modJob k (fun j => { j with cw := cwPut 0 b j.cw }) s

/-- UNLOCK by the holder: the lock becomes FREE or is granted to the next waiter (R315). -/
def unlockLock (n : Fin 8) (l : Nat) (s : State) : State :=
  let next := (getLock s n l).waiters.head?
  let s := modLock n l (LockReg.pass .free) s
  match next with
  | some w => setLockCw w false s
  | none => s

/-- A lock still held when its job ends becomes BROKEN and passes to the next waiter (R316). -/
def breakLock (n : Fin 8) (l : Nat) (s : State) : State :=
  let next := (getLock s n l).waiters.head?
  let s := modLock n l (fun x => LockReg.pass .broken { x with epoch := x.epoch + 1 }) s
  match next with
  | some w => setLockCw w true s
  | none => s

/-- Take a job out of the waiters of every lock it can wait for. -/
def leaveLocks (k : JobRef) (s : State) : State :=
  let drop (x : LockReg) : LockReg := { x with waiters := x.waiters.filter fun w => w != k }
  let s := modEvt k.r (fun e => { e with lock := e.lock.map drop }) s
  { s with evt := { s.evt with dlock := s.evt.dlock.map drop } }

/-- Break every lock that a job holds. -/
def breakLocks (k : JobRef) (s : State) : State :=
  forEach (List.range 48) (fun l s => if (getLock s k.r l).holder == some k then breakLock k.r l s else s) s

/-! ### Events and fences (R312-R314) -/

/-- The generation after g: modulo 2^28, skipping 0 (R313). -/
def bumpGen (g : BitVec 28) : BitVec 28 := if g + 1 = 0 then 1 else g + 1

def getEvent (s : State) (n : Fin 8) (e : Nat) : Event := (s.evt.rgn[n]).event[Fin.ofNat 256 e]
def modEvent (n : Fin 8) (e : Nat) (f : Event → Event) (s : State) : State :=
  modEvt n (fun x => { x with event := upd x.event (Fin.ofNat 256 e) f }) s

/-- Record an event: a new PENDING generation (R313). -/
def recordEvent (n : Fin 8) (e : Nat) (s : State) : State :=
  modEvent n e (fun x => { state := .pending, gen := bumpGen x.gen }) s

/-- A PENDING generation becomes terminal; a superseded one changes nothing (R313, R314). -/
def endEvent (n : Fin 8) (e g : Nat) (st : EState) (s : State) : State :=
  modEvent n e (fun x => if x.gen.toNat = g ∧ x.state = .pending then { x with state := st } else x) s

/-- An event recorded and at once CANCELLED (R311, R321). -/
def cancelEvent (n : Fin 8) (e : Nat) (s : State) : State :=
  let g := bumpGen (getEvent s n e).gen
  endEvent n e g.toNat .cancelled (recordEvent n e s)

/-- Drop an armed chain: its done event goes to CANCELLED (R311). -/
def dropArm (n : Fin 8) (a : Arm) (s : State) : State :=
  match a.doneEvent with
  | some e => cancelEvent n e s
  | none => s

def isTerminal : EState → Bool
  | .signalled => true | .error => true | .cancelled => true | .unset => false | .pending => false

/-- The state a wait for generation g is released with, if it is satisfied (R314). -/
def waitOutcome (ev : Event) (g : Nat) : Option EState :=
  if isTerminal ev.state && decide ((ev.gen - BitVec.ofNat 28 g).toNat < 2 ^ 27) then some ev.state else none

def getFence (s : State) (n : Fin 8) (f : Nat) : W64 := (s.evt.rgn[n]).fence[Fin.ofNat 64 f]

/-- Raise a fence: it never decreases (R286, R312). -/
def raiseFence (n : Fin 8) (f : Nat) (v : W64) (s : State) : State :=
  modEvt n (fun x => { x with fence := upd x.fence (Fin.ofNat 64 f) fun old => if old.ult v then v else old }) s

/-! ### Packets and completion records -/

/-- Change the packet at a position of queue i. -/
def modPkt (i : Fin 33) (pos : W32) (f : Pkt → Pkt) (s : State) : State :=
  modQue i (fun q => { q with pkts := q.pkts.map fun p => if p.pos == pos then f p else p }) s

/-- The outcome of a packet that is no job's. -/
def plainDone (status : Nat) : Done := { status := status, jobId := 0, epoch := 0, progress := 0, slot := none }

/-- Decide the outcome of a packet, if it is not decided yet. -/
def decide' (i : Fin 33) (pos : W32) (d : Done) (s : State) : State :=
  modPkt i pos (fun p => match p.done with | none => { p with done := some d } | some _ => p) s

/-- The class of an outcome that is not of class 0x00. -/
def Done.badClass (d : Done) : Option Nat := if statusClass d.status = 0 then none else some (statusClass d.status)

/-- Does the completion ring have no free slot (R291)? -/
def Queue.full (q : Queue) : Bool := decide (2 ^ q.csize ≤ (q.cdone - q.ccons).toNat)

/-- An enabled queue whose completion ring is full is HELD with cq_full set, until a slot is free (R291). -/
def Queue.hold (q : Queue) : Queue :=
  if q.enable then
    { q with cqFull := q.full, state := if q.full then .held else if q.state = .held then .active else q.state }
  else q

/-- The 32 bytes of a completion record (Table 12-5). -/
def recordBytes (q : Queue) (p : Pkt) (d : Done) (tn : W64) : List Byte :=
  let phase := if (q.cdone.toNat >>> q.csize) % 2 = 0 then 1 else 0
  leBytes 4 p.pos.toNat ++ leBytes 2 d.status ++ leBytes 1 (phase + d.epoch % 8 * 2) ++ leBytes 1 (pktOp p.bytes)
    ++ leBytes 4 d.jobId.toNat ++ leBytes 2 d.epoch ++ leBytes 6 tn.toNat ++ leBytes 4 d.progress.toNat
    ++ leBytes 8 (pktTag p.bytes)

/-- Write the record of the oldest packet and count it; then its MSI-X message if it has one (R291, R293). -/
def writeRecord (i : Fin 33) (p : Pkt) (d : Done) (s : State) : State :=
  let q := s.que[i]
  let a := q.cbase.toNat + 32 * (q.cdone.toNat % 2 ^ q.csize)
  let data := recordBytes q p d s.tick.tn
  let s :=
    if q.cloc then writeHost a data s
    else
      let r := writeDev (queueTile s i) (qCtx i) a data s
      latchIf (qCtx i) r.2 r.1
  let s := modQue i (fun q => Queue.hold { q with
    cdone := q.cdone + 1, pkts := q.pkts.tail, bad := q.bad.orElse fun _ => d.badClass }) s
  if q.vector ≠ 0 ∧ (pktNotify p.bytes ∨ statusClass d.status ≠ 0) then sendMsix (qFn i) q.vector s else s

/-- Has the job of a packet faulted, in this attempt or an earlier one, so that a queue with continue_after_fault goes on
beside it (R288)? -/
def jobFaulted (s : State) (i : Fin 33) (p : Pkt) : Bool :=
  match qRegion i with
  | some n => match findJob s { r := n, q := qClass i, pos := p.pos } with
    | some j => j.cause.isSome || decide (1 ≤ j.epoch)
    | none => false
  | none => false

/-- The packets before the first undecided one that keeps later ones waiting, and that one (R270, R288). -/
def turn (s : State) (i : Fin 33) : List Pkt → Option Pkt
  | [] => none
  | p :: rest =>
    match p.done with
    | none => if s.que[i].cont && jobFaulted s i p then turn s i rest else some p
    | some _ => if s.que[i].cont then turn s i rest else none

/-- The packet of queue i whose turn it is: at the head, or behind faulted jobs under continue_after_fault; none while
the completion ring is full (R291) or its region is DISABLED (R297). -/
def current (s : State) (i : Fin 33) : Option Pkt :=
  let off := match qRegion i with
    | some n => s.rgn.rgn[n].state == .disabled
    | none => false
  if s.que[i].full || off then none else turn s i s.que[i].pkts

/-- Do queue i's packets start: not while its region is FAULTED (Table 14-3 step 5: they continue after the recovery;
DEDUCED, log entry 23), nor the maintenance queue's while its core is halted (Table 14-4)? -/
def startsPackets (s : State) (i : Fin 33) : Bool :=
  match qRegion i with
  | some n => s.rgn.rgn[n].state != .faulted
  | none => !s.err.maintCp

/-- The packet whose turn it is, if it is not started and carries an opcode. -/
def currentOp (s : State) (i : Fin 33) (op : Nat) : Option Pkt :=
  match current s i with
  | some p => if startsPackets s i && !p.started && !p.marked && pktOp p.bytes == op then some p else none
  | none => none

/-! ### The order in which a core serves its queues (R271) -/

/-- The core that serves queue i: cp 1 the maintenance queue, the region's core its queues. -/
def queueCore (s : State) (i : Fin 33) : Option (Fin 6) :=
  match qRegion i with
  | none => some 1
  | some n => (allFin 6).find? fun c => (s.mkh.cp[c]).regions.getLsbD n.val

/-- The rank of a queue's class: Q0, the maintenance queue, Q1, Q2, Q3. -/
def queueRank (i : Fin 33) : Nat := if i = maintQ then 1 else if qClass i = 0 then 0 else (qClass i).val + 1

/-- Has queue i a packet ready to start: for a RUN, a job that is ready at this tick (R317)? -/
def packetReady (s : State) (i : Fin 33) : Bool :=
  match current s i with
  | none => false
  | some p => startsPackets s i && !p.started && !p.marked &&
    (pktOp p.bytes != 1 || match qRegion i with
      | some n => (findJob s { r := n, q := qClass i, pos := p.pos }).any fun j => j.phase == .staged && j.go
      | none => false)

/-- Has queue i a run program ready to step? -/
def wordReady (s : State) (i : Fin 33) : Bool :=
  match qRegion i with
  | some n => s.jobs.any fun j => j.ref.r == n && j.ref.q == qClass i && j.phase == .running && j.wait == .none
  | none => false

/-- Does queue j's core take it before queue i: of a higher class, or of the same class and of the region not served last? -/
def takenBefore (s : State) (c : Fin 6) (i j : Fin 33) : Bool :=
  decide (queueRank j < queueRank i) ||
    (queueRank j == queueRank i && j != i && (qRegion i).isSome && (s.mkh.cp[c]).lastServed == qRegion i)

/-- Is queue i the one its core takes: no other queue of the core that is ready comes before it (R271)? -/
def coreTakes (s : State) (i : Fin 33) : Bool :=
  match queueCore s i with
  | none => true
  | some c => (allFin 33).all fun j =>
      !(queueCore s j == some c && takenBefore s c i j && (packetReady s j || wordReady s j))

/-- A region queue's core has served its region. -/
def served (i : Fin 33) (s : State) : State :=
  match qRegion i with
  | none => s
  | some n =>
    match queueCore s i with
    | none => s
    | some c => { s with mkh := { s.mkh with cp := upd s.mkh.cp c fun x => { x with lastServed := some n } } }

/-- Is the record of the packet at a position of queue i written (it lies before cdone)? -/
def recordWritten (s : State) (i : Fin 33) (pos : W32) : Bool := decide (2 ^ 31 ≤ (pos - s.que[i].cdone).toNat)

/-! ### Stopping and completing jobs (R325, R330) -/

/-- Take a job's descriptors that no engine has started out of every engine queue, and the panels that wait for them
(R330). -/
def purgeJob (k : JobRef) (s : State) : State :=
  let keep (l : List Desc) : List Desc := l.filter fun d => d.job != k
  let headOurs (l : List Desc) : Bool := match l with | d :: _ => d.job == k | [] => false
  { s with
    ibex := s.ibex.map fun x => { x with queue := keep x.queue, admitted := x.admitted && !headOurs x.queue,
                                         state := if x.state == .waiting && headOurs x.queue then .idle else x.state,
                                         chainIn := x.chainIn.filter fun c => c.1 != k },
    cham := s.cham.map fun x => { x with queue := keep x.queue,
                                         state := if x.state == .spill && headOurs x.queue then .idle else x.state, coming := x.coming.filter fun p => p.job != k,
                                         slots := x.slots.filter fun p => p.job != k },
    kudu := s.kudu.map fun x => { x with queue := keep x.queue },
    pe := s.pe.map fun x => { x with queue := keep x.queue, admitted := x.admitted && !headOurs x.queue,
                                     state := if x.state == .waiting && headOurs x.queue then .idle else x.state },
    eng := { s.eng with flight := keep s.eng.flight, dmaQueue := keep s.eng.dmaQueue,
                        dmaAdmitted := s.eng.dmaAdmitted.filter fun d => d.job != k } }

/-- Is a job in recovery: stopped, or being restored for its next attempt? -/
def Job.recovering (j : Job) : Bool := j.phase == .stopped || j.phase == .restoring

/-- The recovering job of region n whose error was detected first (R343). -/
def firstRecovery (s : State) (n : Fin 8) : Option Job :=
  (s.jobs.filter fun j => j.ref.r == n && j.recovering).foldl
    (fun best j => match best with
      | none => some j
      | some b => if j.order < b.order then some j else some b) none

/-- Let the drain of the first recovery of region n begin, if it has not (R331, R343). -/
def beginDrain (n : Fin 8) (s : State) : State :=
  match firstRecovery s n with
  | some j =>
    if j.phase = .stopped ∧ j.drainOn = false then
      modJob j.ref (fun j => { j with drainOn := true, stopTn := (s.tick.tn.toNat : Int) }) s
    else s
  | none => s

/-- Stop a running job (R330): no control word, no armed chain, no chain successor; unstarted descriptors removed. A
CANCEL that meets a chain about to fire cancels its done event (R321). -/
def stopJob (k : JobRef) (cause : Option (Nat × Nat)) (by_ : Option PktRef) (s : State) : State :=
  let due := match by_, findJob s k with
    | some _, some j => j.arms.filter fun a => a.due != .unset
    | _, _ => []
  let s := forEach due (dropArm k.r) (leaveLocks k (purgeJob k s))
  let n := s.err.detected
  let s := modJob k (fun j => { j with phase := .stopped, wait := .none, cause := cause, cancel := by_, arms := [],
                                       order := n, drainOn := false }) s
  beginDrain k.r (modErr (fun e => { e with detected := n + 1 }) s)

/-- The error record of a job-level error of a job. -/
def jobRecord (e : Err) (site : Site) (j : Job) (tn : W64) : ErrRec :=
  mkRec e j.ref.r.val j.ref.q.val site j.jobId tn j.epoch

/-- A job-level error (R324, R330): it is logged, and a running job is stopped. Of a job that waits for its next attempt it
consumes one more restart (R344); of a job that drains it is logged only (DEDUCED, log entry 20). -/
def jobError (k : JobRef) (e : Err) (site : Site) (s : State) : State :=
  match findJob s k with
  | none => s
  | some j =>
    let s := logRegion k.r (jobRecord e site j s.tick.tn) s
    match j.phase with
    | .running => stopJob k (some (errCode e, errStatus e)) none s
    | .ending => stopJob k (some (errCode e, errStatus e)) none s
    | .restoring => modJob k (fun j => { j with extra := j.extra + 1 }) s
    | .stopped => s
    | .staged => s

/-- The PENDING generations of a job that ends with a status: ERROR for an error, CANCELLED for class 1 (R313); DEP_CANCELLED is an
error's (R325; DEDUCED, log entry 107).
Its deferred effects never take place (R312). -/
def endDeferred (k : JobRef) (st : EState) (s : State) : State :=
  match findJob s k with
  | none => s
  | some j =>
    let s := forEach j.deferred (fun d s => match d.eff with
      | .event e g => endEvent k.r e g st s
      | .fence _ _ => s
      | .store _ _ => s) s
    modJob k (fun j => { j with deferred := [] }) s

/-- Keep what ERR_JOB of a queue shows of its most recently started job (R347). -/
def keepJobRegs (j : Job) (s : State) : State :=
  modErr (fun e => { e with job := upd e.job (Fin.ofNat 32 (4 * j.ref.r.val + j.ref.q.val)) (fun _ => (j.progress.toNat, j.idle, j.budget)) }) s

/-- Write off a job with its final status: its generations, its locks, its save slot, and the outcome of its packet
(R288, R316, R325, R334). -/
def completeJob (k : JobRef) (status : Nat) (s : State) : State :=
  match findJob s k with
  | none => s
  | some j =>
    let s := if statusClass status = 0 then s
      else endDeferred k (if statusClass status = 1 ∧ status ≠ Status.depCancelled then .cancelled else .error) s
    let s := breakLocks k (leaveLocks k s)
    let s := keepJobRegs j s
    let s := dropJob k s
    beginDrain k.r (decide' (qIndex k.r k.q) k.pos
      { status := status, jobId := j.jobId, epoch := j.epoch, progress := j.progress.setWidth 32, slot := j.saveSlot } s)

/-! ### What follows of itself -/

/-- Ready and complete: END has executed, and everything it waits for has happened (R320). -/
def Job.over (busy : Bool) (j : Job) : Bool :=
  j.phase == .ending && j.chains.isEmpty && j.deferred.isEmpty && j.arms.isEmpty && !busy && j.merged

/-- Does region n's ticking job still tick, this being it? -/
def stillTicks (s : State) (j : Job) : Bool := j.tick && s.tick.rgn[j.ref.r].ticking

/-- Are writes of a ticking job's samples and reservoir states not complete yet (R132, R230)? -/
def stillWrites (s : State) (j : Job) : Bool :=
  j.tick && !(s.herd.job[j.ref.r].emissions.isEmpty && s.herd.job[j.ref.r].pending.isEmpty)

/-- Is a ticking job alone: no other started ticking job of its region has its outcome (R15, R272)? A staged one waits for it
(R317); of two, neither starts beside the other. -/
def ticksAlone (s : State) (j : Job) : Bool :=
  !(j.tick && s.jobs.any fun k => k.tick && k.started && k.ref.r == j.ref.r && k.ref != j.ref)

/-- Release the wait of a control word, if what it waits for has happened (R310, R312, R314, R315). -/
def releaseWord (s : State) (j : Job) : Option State :=
  if j.phase != .running then none else
  match j.wait with
  | .chain c => if j.chains.contains c then none else some (modJob j.ref Job.advance s)
  | .fence f v => if (getFence s j.ref.r f).ult v then none else some (modJob j.ref Job.advance s)
  | .lock l => if (getLock s j.ref.r l).holder == some j.ref then some (modJob j.ref Job.advance s) else none
  | .event e g strict =>
    match waitOutcome (getEvent s j.ref.r e) g with
    | none => none
    | some st =>
      let s := modJob j.ref (fun j => { j with cw := cwPut 6 (st == .cancelled) (cwPut 5 (st == .error) j.cw) }) s
      if strict ∧ st ≠ .signalled then
        some (jobError j.ref (.dependency (st == .cancelled)) (wordSite s j.ref.r 0) s)
      else some (modJob j.ref Job.advance s)
  | .tick _ => none
  | .map => none
  | .none => none

/-- An armed chain with the outcome of its trigger generation, once that is terminal (R311). -/
def latchArm (s : State) (n : Fin 8) (a : Arm) : Arm :=
  match waitOutcome (getEvent s n a.event) a.gen with
  | some st => if a.due = .unset then { a with due := st } else a
  | none => a

/-- May a job's armed chains still fire: it runs, or END still waits (R311, R320, R330)? -/
def Job.firing (j : Job) : Bool := j.phase == .running || j.phase == .ending

/-- Latch the outcomes of a job's armed chains (R311). -/
def latchArms (s : State) (j : Job) : Option State :=
  let arms := j.arms.map (latchArm s j.ref.r)
  if j.firing && arms != j.arms then some (modJob j.ref (fun j => { j with arms := arms }) s) else none

/-- END drops the armed chains once every chain and deferred effect is done (R320 step 2). -/
def endArms (s : State) (j : Job) : Option State :=
  if j.phase == .ending && j.chains.isEmpty && j.deferred.isEmpty && !j.arms.isEmpty &&
      j.arms.all (fun a => a.due == .unset) then
    some (modJob j.ref (fun j => { j with arms := [], cw := cwPut 7 true j.cw })
      (forEach j.arms (dropArm j.ref.r) s))
  else none

/-- What a job does of itself: a released wait, a latched arm, or its completion after END, which progress counts as a word
(R301). -/
def jobSettles (s : State) (j : Job) : Option State :=
  (releaseWord s j).orElse fun _ => (latchArms s j).orElse fun _ => (endArms s j).orElse fun _ =>
    if j.over (stillTicks s j || stillWrites s j) then
      some (completeJob j.ref (if j.epoch = 0 then Status.ok else Status.okAfterRestart)
        (modJob j.ref (Job.progressBy 1) s))
    else none

/-- An EVENT_RECORD generation that the packets before its own decide, those whose records are written among them (R313); the
oldest that did not end with class 0x00 (DESIGN CHOICE, log entry 106). -/
def recordSettles (n : Fin 8) (s : State) (r : Nat × Nat × Fin 4 × W32) : Option State :=
  let before := (s.que[qIndex n r.2.2.1].pkts).takeWhile fun p => p.pos != r.2.2.2
  let drop (s : State) : State := modEvt n (fun e => { e with records := e.records.filter (· != r) }) s
  let bad := (s.que[qIndex n r.2.2.1]).bad.orElse fun _ => before.findSome? fun p => p.done.bind Done.badClass
  match bad with
  | some c => some (drop (endEvent n r.1 r.2.1 (if c = 1 then .cancelled else .error) s))
  | none => if before.isEmpty then some (drop (endEvent n r.1 r.2.1 .signalled s)) else none

/-- A packet whose turn it is does of itself: a marked packet completes unstarted; one whose opcode its queue does not take
is rejected; a waiting FENCE_WAIT, EVENT_WAIT or CANCEL is released (R285, R286, R289). -/
def packetSettles (i : Fin 33) (p : Pkt) (s : State) : Option State :=
  let done (st : Nat) (s : State) : Option State := some (decide' i p.pos (plainDone st) s)
  let b := p.bytes
  if !p.started then
    if !startsPackets s i then none
    else if p.marked then
      match qRegion i with
      | some n =>
        let s := if pktOp b = 5 then
            cancelEvent n (fieldAt b 16 2) s
          else dropStaged { r := n, q := qClass i, pos := p.pos } s
        done Status.cancelledBeforeStart s
      | none => done Status.cancelledBeforeStart s
    else if !opListed (pktOp b) || !opPermitted (pktOp b) i.val then
      done ((pktReject i.val b).getD Status.badOpcode) s
    else none
  else
    match qRegion i with
    | none => none
    | some n =>
      match pktOp b with
      | 0x02 => if recordWritten s (qIndex n (Fin.ofNat 4 (fieldAt b 16 1))) (BitVec.ofNat 32 (fieldAt b 20 4)) then done Status.ok s else none
      | 0x04 => if (getFence s n (fieldAt b 16 1)).ult (BitVec.ofNat 64 (fieldAt b 24 8)) then none else done Status.ok s
      | 0x06 =>
        match waitOutcome (getEvent s n (fieldAt b 16 2)) p.gen with
        | some .error => done Status.depError s
        | some .cancelled => done Status.depCancelled s
        | some _ => done Status.ok s
        | none => none
      | _ => none

/-- What queue i does of itself: it writes its oldest decided record, unless the completion ring is full, or lets the
packet whose turn it is complete; nothing in a DISABLED region (R297), nor on the maintenance queue without its core. -/
def queueSettles (i : Fin 33) (s : State) : Option State :=
  let off := match qRegion i with
    | some n => s.rgn.rgn[n].state == .disabled
    | none => s.err.maintCp
  if off = true then none else
  let q := s.que[i]
  let rest : Option State := match current s i with
    | some p => packetSettles i p s
    | none => none
  match q.pkts with
  | p :: _ =>
    match p.done with
    | some d => if q.full then none else some (writeRecord i p d s)
    | none => rest
  | [] => none

/-- A job of another region that has been granted a device lock waits for it no more (R315). -/
def lockSettles (s : State) (j : Job) : Option State :=
  match j.wait with
  | .lock l => if 32 ≤ l then releaseWord s j else none
  | _ => none

/-- The first thing that happens of itself in region n. -/
def regionSettles (n : Fin 8) (s : State) : Option State :=
  (((s.evt.rgn[n]).records.findSome? (recordSettles n s)).orElse fun _ =>
    ((allFin 4).findSome? fun q => queueSettles (qIndex n q) s).orElse fun _ =>
      s.jobs.findSome? fun j => if j.ref.r = n then jobSettles s j else lockSettles s j)

/-- Let everything that happens of itself in region n happen, one thing after another. -/
def settleUpTo : Nat → Fin 8 → State → State
  | 0, _, s => s
  | k + 1, n, s =>
    match regionSettles n s with
    | some s' => settleUpTo k n s'
    | none => s

/-- More rounds than a region's waiters, packets and records can take. -/
def settle (n : Fin 8) (s : State) : State := settleUpTo 96 n s

/-- The maintenance queue writes the records it can. -/
def settleMaintUpTo : Nat → State → State
  | 0, s => s
  | k + 1, s =>
    match queueSettles maintQ s with
    | some s' => settleMaintUpTo k s'
    | none => s
def settleMaint (s : State) : State := settleMaintUpTo 16 s

/-- Let a queue, and its region, do what follows of itself. -/
def settleQueue (i : Fin 33) (s : State) : State :=
  match qRegion i with
  | some n => settle n s
  | none => settleMaint s

/-- Complete the packet at a position of queue i with a status, and let what follows happen. -/
def finish (i : Fin 33) (pos : W32) (status : Nat) (s : State) : State :=
  settleQueue i (decide' i pos (plainDone status) s)

end Sys2Proof.Machine
end

