-- ==== Sys2Proof/Machine/Access.lean ====
section
/-!
DEFINITION. Who reaches a register: the views (R225, R252, R391, R418), the values that reads put on the model's output port, and
what a request that leaves for a host page carries (R229, R230, R252).
-/
namespace Sys2Proof.Machine

/-- The region of a VF view. -/
def viewRegion : View → Option (Fin 8)
  | .pf => none
  | .vf n => some n
  | .tvf n => some n

/-- The number of a view: PF 0, VF v v. -/
def viewIdx : View → Fin 9
  | .pf => 0
  | .vf n => vfOf n
  | .tvf n => vfOf n

/-- Does a VF's TDI admit a request to its BARs: in CONFIG_LOCKED and RUN only one in its bound stream with T = 1
(R252)? -/
def tdiAdmits (s : State) : View → Bool
  | .pf => true
  | .vf n => let t := s.sec.rgn[n].tdi; t != .locked && t != .run
  | .tvf _ => true

/-- Does a view reach the register blocks other than DEV: the module is ready (R391), a VF's region is neither FREE nor
FORMING (R225), and its TDI admits the request? -/
def viewOk (s : State) (w : View) : Bool :=
  s.dev.ready && tdiAdmits s w &&
  match viewRegion w with
  | none => true
  | some n => let st := s.rgn.rgn[n].state; st != .free && st != .forming

/-- A read's value, put on the model's output port. -/
def putBar (v : Nat) (s : State) : State := { s with out := { s.out with bar := v, ur := false } }

/-- A read that reaches no register reads 0; one that the TDI refuses completes with Unsupported Request (R252). -/
def missRead (w : View) (s : State) : State :=
  if tdiAdmits s w then putBar 0 s else { s with out := { s.out with bar := 0, ur := true } }

/-! ### What leaves on the host link (R229, R230, R252) -/

/-- What a request of context c to a host page carries: the requester ID of the region's VF or of the PF (R229), while the
region's TDI is in RUN the bound stream with T = 1 (R252), Relaxed Ordering if it writes payload (R230). -/
def hostTlp (s : State) (c : Fin 9) (write : Bool) : Tlp :=
  if c.val < 8 then
    let n : Fin 8 := Fin.ofNat 8 c.val
    { fn := vfOf n, stream := if s.sec.rgn[n].tdi = .run then s.sec.rgn[n].stream else none, relaxed := write }
  else { fn := 0, stream := none, relaxed := write }

/-- A request of context c leaves for a host page. -/
def sendTlp (c : Fin 9) (write : Bool) (s : State) : State := { s with out := { s.out with tlp := some (hostTlp s c write) } }

/-- A BAR0 access must be naturally aligned (R12). -/
def aligned (off width : Nat) : Bool := off % (width / 8) == 0

end Sys2Proof.Machine
end

