-- ==== Sys2Proof/Machine/Halyard.lean ====
section
/-!
DEFINITION. Halyard lines (02_pennant_tick.md R34-R42): output schedules and their pulses, arming and disarming, owners,
input timestamps.
-/
namespace Sys2Proof.Machine

/-! ### Schedules -/

/-- TN at which a schedule's next pulse rises (R34). -/
def Sched.dueTn (d : Sched) : Nat := d.start + d.next * d.period

/-- Has a schedule a pulse still to rise: within its count, its one shot and its cutoff (R34, R37)? -/
def Sched.live (d : Sched) : Bool :=
  (d.count == 0 || decide (d.next < d.count)) && (d.period != 0 || d.next == 0) &&
    match d.cutoff with
    | none => true
    | some c => decide (d.dueTn < c)

/-- Is an output armed: some schedule of it has a pulse still to rise? -/
def HalyOut.armed (o : HalyOut) : Bool :=
  (match o.sched with | some d => d.live | none => false) || o.old.any Sched.live

/-- HALY_OUT_STAT.state: 0 IDLE, 1 ARMED, 2 PULSING. -/
def HalyOut.stat (o : HalyOut) : Nat := if !o.pulses.isEmpty then 2 else if o.armed then 1 else 0

/-- The level of an output: high-impedance, or driven by its pulses. A pulse in progress when out_enable becomes 0 ends at the
connector (R37) and keeps its place in the schedule, so that the output is driven high again if out_enable returns inside its
programmed width (R34; DESIGN CHOICE between the two rules, log entry 89). -/
def drive (enable : Bool) (pulses : List Pulse) : Pin :=
  if !enable then .hiZ else if pulses.isEmpty then .low else .high

/-- The instant of a pulse's fall by its programmed width, in CCLK from TN 0. -/
def Pulse.fall (p : Pulse) : Nat := p.tn * Config.tickCclk + p.offset + p.width
/-- The instant of its rise. -/
def Pulse.rise (p : Pulse) : Nat := p.tn * Config.tickCclk + p.offset

/-! ### Arming (R35-R37) -/

/-- The width of a schedule in CCLK. -/
def widthOf (ticks cclk : Nat) : Nat := ticks * Config.tickCclk + cclk

/-- Does a width satisfy R35? -/
def widthOk (m : OutMode) (ticks cclk : Nat) : Bool :=
  let w := widthOf ticks cclk
  decide (cclk < 3200) && decide (16 ≤ w) &&
    match m with
    | .trigger => decide (w ≤ 3200)
    | .strobe => decide (w ≤ 65535 * 3200)
    | .off => false

/-- Does a period satisfy R35: one-shot, or longer than the width and of 24 bits? -/
def periodOk (period w : Nat) : Bool :=
  period == 0 || (decide (w < period * Config.tickCclk) && decide (period < 2 ^ 24))

/-- What is asked of an output: the values an arm checks, as registers or as a schedule record (R36, R319). -/
structure ArmReq where
  start : Nat
  offset : Nat
  mode : Nat
  widthTicks : Nat
  widthCclk : Nat
  period : Nat
  count : Nat
  endSel : Nat
  endEn : Bool
  endEdge : Bool
deriving DecidableEq, Repr

def modeOf (m : Nat) : OutMode := if m = 1 then .trigger else if m = 2 then .strobe else .off

/-- The arm_err code of the first failing condition of R36; 0 if all hold. -/
def armCheck (s : State) (writer : Owner) (n : Fin 8) (a : ArmReq) : Nat :=
  if a.start < s.tick.tn.toNat + 2 then 1
  else if !(a.mode == 1 || a.mode == 2) || decide (3200 ≤ a.offset) then 6
  else if !widthOk (modeOf a.mode) a.widthTicks a.widthCclk then 2
  else if !periodOk a.period (widthOf a.widthTicks a.widthCclk) then 3
  else if s.haly.out[n].owner ≠ writer then 4
  else if !s.haly.outEnable then 5
  else 0

/-- Start a schedule on an output: earlier schedules keep their pulses before the new start TN (R37). -/
def startSched (a : ArmReq) (o : HalyOut) : HalyOut :=
  let cut (d : Sched) : Sched :=
    { d with cutoff := some (match d.cutoff with | some c => min c a.start | none => a.start) }
  { o with
    sched := some { start := a.start, offset := a.offset, mode := modeOf a.mode,
                    width := widthOf a.widthTicks a.widthCclk, period := a.period, count := a.count,
                    endSel := a.endSel, endEn := a.endEn, endEdge := a.endEdge, next := 0, cutoff := none },
    old := ((o.old ++ o.sched.toList).map cut).filter Sched.live,
    armErr := 0, pulsesDone := 0 }

/-- What the schedule registers of an output ask for. -/
def HalyOut.request (o : HalyOut) : ArmReq :=
  { start := o.start.toNat, offset := o.offset, mode := outModeCode o.mode, widthTicks := o.widthTicks,
    widthCclk := o.widthCclk, period := o.period, count := o.count, endSel := o.endSel, endEn := o.endEn,
    endEdge := o.endEdge }

/-- Arm output n for a writer: the outcome of R36. -/
def armOutput (writer : Owner) (n : Fin 8) (a : ArmReq) (s : State) : State :=
  let e := armCheck s writer n a
  if e = 0 then modOut n (startSched a) s else modOut n (fun o => { o with armErr := e }) s

/-- Cancel every pulse that has not yet risen; a pulse in progress completes its width (R37). -/
def disarmOut (o : HalyOut) : HalyOut := { o with sched := none, old := [], pulsesDone := 0 }

/-- Disarm, end a pulse in progress and drive the output low (R38, R39). -/
def quietOut (enable : Bool) (o : HalyOut) : HalyOut :=
  { disarmOut o with pulses := [], pin := drive enable [] }

/-- Destruction or FLR of a region disarms the outputs it owns and drives them low (R38). -/
def quietRegion (n : Fin 8) (s : State) : State :=
  { s with haly := { s.haly with
      out := s.haly.out.map fun o => if o.owner = .rgn n then quietOut s.haly.outEnable o else o } }

/-- The owner that a view writes as (R36). -/
def viewOwner (w : View) : Owner :=
  match viewRegion w with
  | none => .device
  | some n => .rgn n

/-- May a view reach the registers of a line: the PF any, a VF only its own (R419)? -/
def ownsLine (w : View) (o : Owner) : Bool :=
  match viewRegion w with
  | none => true
  | some n => o == .rgn n

/-! ### Commands -/

/-- HALY_CTRL.out_enable (R34): every output is high-impedance, or driven by its pulses (`drive`; log entry 89). -/
def execOutEnableWrite (v : W32) (s : State) : Out :=
  if viewOk s .pf then
    let e := bit v.toNat 0
    .next { s with haly := { s.haly with outEnable := e,
                                         out := s.haly.out.map fun o => { o with pin := drive e o.pulses } } }
  else .next s

/-- An arm request through a view (R36, R37, R419): with disarm set as well, a disarm followed by the arm. -/
def execArm (w : View) (n : Fin 8) (alsoDisarm : Bool) (s : State) : Out :=
  if viewOk s w then
    if ownsLine w s.haly.out[n].owner then
      let s := if alsoDisarm then modOut n disarmOut s else s
      .next (armOutput (viewOwner w) n s.haly.out[n].request s)
    else .next (modOut n (fun o => { o with armErr := 4 }) s)
  else .next s

/-- The disarm bit: the line's owner or the PF cancels the pulses not yet risen (R37). -/
def execDisarm (w : View) (n : Fin 8) (s : State) : Out :=
  if viewOk s w && ownsLine w s.haly.out[n].owner then .next (modOut n disarmOut s) else .next s

/-- A schedule whose next pulse is due in this tick (R34). -/
def Sched.dueNow (tn : Nat) (d : Sched) : Bool := d.live && d.dueTn == tn

/-- The pulse that a schedule's next rise starts. -/
def Sched.pulse (d : Sched) : Pulse :=
  { tn := d.dueTn, offset := d.offset, width := d.width, endSel := d.endSel, endEn := d.endEn, endEdge := d.endEdge,
    strobe := d.mode == .strobe }

/-- The output after a pulse of a replaced schedule rises: it is not counted for the current one. -/
def riseOld (enable : Bool) (d : Sched) (o : HalyOut) : HalyOut :=
  { o with old := (o.old.map fun x => if x = d then { x with next := x.next + 1 } else x).filter Sched.live,
           pulses := o.pulses ++ [d.pulse], pin := drive enable (o.pulses ++ [d.pulse]) }

/-- The output after the current schedule's next pulse rises. -/
def riseNew (enable : Bool) (d : Sched) (o : HalyOut) : HalyOut :=
  let d' := { d with next := d.next + 1 }
  { o with sched := if d'.live then some d' else none, pulsesDone := satInc 24 o.pulsesDone,
           pulses := o.pulses ++ [d.pulse], pin := drive enable (o.pulses ++ [d.pulse]) }

/-- A pulse of output n that falls due in this tick rises and counts (R34, R37). -/
def execPulseRise (n : Fin 8) (s : State) : Out :=
  let o := s.haly.out[n]
  let tn := s.tick.tn.toNat
  match s.tick.running, o.old.find? (Sched.dueNow tn), o.sched with
  | true, some d, _ => .next (modOut n (riseOld s.haly.outEnable d) s)
  | true, none, some d =>
    if d.dueNow tn then .next (modOut n (riseNew s.haly.outEnable d) s) else .next s
  | _, _, _ => .next s

/-- Take one pulse off an output. -/
def endPulse (enable : Bool) (p : Pulse) (o : HalyOut) : HalyOut :=
  { o with pulses := o.pulses.erase p, pin := drive enable (o.pulses.erase p) }

/-- The width of a pulse of output n, as programmed or as its end edge has cut it, expires by the end of this tick and it falls
(R34, R35). -/
def execPulseFall (n : Fin 8) (s : State) : Out :=
  match s.haly.out[n].pulses.find? (fun p => decide (p.fall / Config.tickCclk ≤ s.tick.tn.toNat)) with
  | some p => .next (modOut n (endPulse s.haly.outEnable p) s)
  | none => .next s

/-- The instant of an event at a connector, in CCLK from TN 0, `ago` ticks before the present one. -/
def atCclk (s : State) (ago cclk : Nat) : Int := ((s.tick.tn.toNat : Int) - ago) * Config.tickCclk + cclk

/-- Is an edge an end edge of a pulse (R35): a STROBE pulse with end_in_en whose end edge has not come, the right input and
kind, at or after the rise and before the programmed fall? -/
def Pulse.endedBy (p : Pulse) (input : Fin 4) (rising : Bool) (at_ : Int) : Bool :=
  p.strobe && p.endEn && p.endSel == input.val && p.endEdge != rising && decide ((p.rise : Int) ≤ at_) && decide (at_ < p.fall)

/-- A pulse whose end edge has come: it falls `delay` CCLK after the edge, not earlier than 16 CCLK after its rise and at its
programmed width if that comes first; a later edge does not count (R35). -/
def Pulse.cutAt (p : Pulse) (at_ : Int) (delay : Nat) : Pulse :=
  { p with width := min p.width (max 16 (at_ + delay - p.rise).toNat), endEn := false }

/-- STROBE_END_EDGE (R35): the first end edge that the input's glitch filter passes sets the pulse's fall, at most filter + 8
CCLK after the edge; PULSE_FALL performs it. -/
def execStrobeEndEdge (n : Fin 8) (input : Fin 4) (rising : Bool) (ago cclk held delay : Nat) (s : State) : Out :=
  let at_ := atCclk s ago cclk
  let filter := s.haly.inp[input].filter
  if filter ≤ held ∧ delay ≤ filter + 8 then
    match s.haly.out[n].pulses.find? (fun p => p.endedBy input rising at_) with
    | some p => .next (modOut n (fun o => { o with pulses := o.pulses.map fun x => if x = p then p.cutAt at_ delay else x }) s)
    | none => .next s
  else .next s

/-- The owner an owner field names; reserved encodings 9-14 keep the old one (R11, R39). -/
def ownerOf (code : Nat) (old : Owner) : Owner :=
  if code < 8 then .rgn (Fin.ofNat 8 code) else if code = 8 then .device else if code = 15 then .nobody else old

/-- An output after a write of its owner field (R39). -/
def setOutOwner (enable : Bool) (code : Nat) (o : HalyOut) : HalyOut :=
  if ownerOf code o.owner = o.owner then o else { quietOut enable o with owner := ownerOf code o.owner }

/-- HALY_OUT_OWNER (R39): an output whose owner changes is disarmed and driven low. -/
def execOutOwnerWrite (v : W32) (s : State) : Out :=
  if viewOk s .pf then
    .next (forEach (allFin 8) (fun n => modOut n (setOutOwner s.haly.outEnable (bits v.toNat (4 * n.val + 3) (4 * n.val)))) s)
  else .next s

/-- An input after a write of its owner field at an instant (R39). -/
def setInOwner (now : Int) (code : Nat) (i : HalyIn) : HalyIn :=
  if ownerOf code i.owner = i.owner then i
  else { i with owner := ownerOf code i.owner, ownerSince := some now, fifo := [], lost := false, lostCount := 0 }

/-- HALY_IN_OWNER (R39): an input whose owner changes loses its timestamps. -/
def execInOwnerWrite (v : W32) (cclk : Nat) (s : State) : Out :=
  if viewOk s .pf then
    let now := atCclk s 0 cclk
    .next (forEach (allFin 4) (fun n => modIn n (setInOwner now (bits v.toNat (4 * n.val + 3) (4 * n.val)))) s)
  else .next s

/-- An input after a write of HALY_IN_CFG: the filter restarts from the connector's level when edges becomes nonzero
(R41). -/
def setInCfg (v : Nat) (i : HalyIn) : HalyIn :=
  { i with edges := bits v 1 0, filter := bits v 15 8,
           level := if i.edges = 0 ∧ bits v 1 0 ≠ 0 then i.pin else i.level }

/-- HALY_IN_CFG of input n (R41, R419). -/
def execHalyInCfgWrite (w : View) (n : Fin 4) (v : W32) (s : State) : Out :=
  if viewOk s w && ownsLine w s.haly.inp[n].owner then .next (modIn n (setInCfg v.toNat) s) else .next s

/-- Does the edges field select an edge? -/
def selectsEdge (edges : Nat) (rising : Bool) : Bool := if rising then bit edges 0 else bit edges 1

/-- Put a timestamp into the FIFO, or drop and count it (R42). -/
def stampEdge (tn cclk : Nat) (rising : Bool) (i : HalyIn) : HalyIn :=
  if i.fifo.length < 64 then
    { i with fifo := i.fifo ++ [{ tn := tn % 2 ^ 48, ofs := cclk, rising := rising, lost := i.lost }], lost := false }
  else { i with lost := true, lostCount := satInc 16 i.lostCount }

/-- The TN of the tick `ago` ticks before the present one: that of the tick before is kept, since TN may have changed. -/
def tnAgo (t : TickState) (ago : Nat) : Nat := if ago = 0 then t.tn.toNat else t.lastTn.toNat

/-- An edge that the glitch filter has passed: timestamped if edges selects it and it belongs to the present owner. -/
def passEdge (tn cclk : Nat) (rising ours : Bool) (i : HalyIn) : HalyIn :=
  if i.level = rising then i
  else { (if selectsEdge i.edges rising && ours then stampEdge tn cclk rising i else i) with level := rising }

/-- INPUT_EDGE (R39, R41, R42): a pulse shorter than filter CCLK is discarded; an edge belongs to the owner at its connector
time and is timestamped with that time. The filter confirms an edge at most 255 CCLK after it, so in its own tick or the next.
Without a tick the connector's level alone is known. -/
def execInputEdge (n : Fin 4) (rising : Bool) (ago cclk held : Nat) (s : State) : Out :=
  let i := s.haly.inp[n]
  if held < i.filter ∨ Config.tickCclk ≤ cclk ∨ 1 < ago then .next s
  else
    let s := modIn n (fun i => { i with pin := rising }) s
    if s.tick.running = false then .next s
    else
      let ours := match i.ownerSince with
        | none => true
        | some t => decide (t < atCclk s ago cclk)
      .next (modIn n (passEdge (tnAgo s.tick ago) cclk rising ours) s)

/-- HALY_IN_TS_HI of an entry (Table 2-16). -/
def stampHi (t : Stamp) : Nat :=
  bits t.tn 47 32 + t.ofs * 2 ^ 16 + b2n t.rising * 2 ^ 28 + b2n t.lost * 2 ^ 29 + 2 ^ 31
/-- HALY_IN_TS_LO of an entry. -/
def stampLo (t : Stamp) : Nat := t.tn % 2 ^ 32

/-- A read of HALY_IN_TS_HI returns the head entry and removes it (R42, R414); a line the view's region does not own reads
0 (R419). -/
def execTimestampPop (w : View) (n : Fin 4) (wide : Bool) (s : State) : Out :=
  if viewOk s w && ownsLine w s.haly.inp[n].owner then
    match s.haly.inp[n].fifo with
    | t :: rest =>
      .next (putBar (if wide then stampLo t + stampHi t * 2 ^ 32 else stampHi t) (modIn n (fun i => { i with fifo := rest }) s))
    | [] => .next (putBar 0 s)
  else .next (missRead w s)

end Sys2Proof.Machine
end

