-- ==== Sys2Proof/Machine/Image.lean ====
section
/-!
DEFINITION. The Criward image (08_kudu_markhor_criward.md R168, R173-R178): its manifest and signatures, the two banks, its
components and their measurements.
-/
namespace Sys2Proof.Machine

/-! ### The manifest (Table 8-3) -/

/-- The 64-byte entry of component i. -/
def compEntry (img : List Byte) (i : Nat) : List Byte := slice img (64 + 64 * i) 64
def compKind (img : List Byte) (i : Nat) : Nat := fieldAt (compEntry img i) 0 4
def compOfs (img : List Byte) (i : Nat) : Nat := fieldAt (compEntry img i) 4 4
def compSize (img : List Byte) (i : Nat) : Nat := fieldAt (compEntry img i) 8 4
/-- The digest that the manifest states for component i. -/
def compDigest (img : List Byte) (i : Nat) : List Byte := slice (compEntry img i) 32 32
/-- The manifest: 64 bytes and five entries. -/
def manifest (img : List Byte) : List Byte := slice img 0 384
def imgRelease (img : List Byte) : Nat := fieldAt img 8 4
def imgSvn (img : List Byte) : Nat := fieldAt img 12 2
def imgRaiseFloor (img : List Byte) : Bool := bit (fieldAt img 14 2) 0
/-- The end of the last component, where the signature block begins. -/
def imgEnd (img : List Byte) : Nat := ((List.range 5).map fun i => compOfs img i + compSize img i).foldl max 384

/-- Is the manifest well formed: its fields, its five kinds once each, its reserved bytes 0, its components and the signature
block inside the image's `size` bytes (R173)? -/
def manifestOk (img : List Byte) (size : Nat) : Bool :=
  fieldAt img 0 4 == 0x44575243 && fieldAt img 4 2 == 1 && fieldAt img 6 2 == 5 && decide (fieldAt img 14 2 ≤ 1)
    && (slice img 16 48).all (· == 0)
    && ((List.range 5).all fun k => (List.range 5).any fun i => compKind img i == k)
    && ((List.range 5).all fun i => (slice (compEntry img i) 12 20).all (· == 0) && decide (384 ≤ compOfs img i))
    && decide (imgEnd img + 128 ≤ size) && decide (size ≤ 2 ^ 24)

/-- A component's bytes. -/
def compBytes (img : List Byte) (i : Nat) : List Byte := slice img (compOfs img i) (compSize img i)
/-- Does every digest match its component? -/
def digestsOk (img : List Byte) : Bool := (List.range 5).all fun i => sha256 (compBytes img i) == compDigest img i

/-- The Foundation's and the site's signature, r then s. -/
def foundationSig (img : List Byte) : List Byte := slice img (imgEnd img) 64
def siteSig (img : List Byte) : List Byte := slice img (imgEnd img + 64) 64

/-- Is a signature of an image valid by the Foundation key? One that is absent, 64 zero bytes, is not (R173). -/
def foundationOk (img : List Byte) : Bool :=
  (foundationSig img).any (· != 0) && Config.foundationSigned (sha256 (manifest img)) (foundationSig img)
/-- The same by the site key, where its hash is fused (R174). -/
def siteOk (img : List Byte) : Bool :=
  Config.siteKeyHash != 0 && (siteSig img).any (· != 0) && Config.siteSigned (sha256 (manifest img)) (siteSig img)

/-- Do the signatures satisfy the fused site policy (R174)? -/
def policyOk (img : List Byte) : Bool :=
  match Config.sitePolicy.toNat with
  | 0 => foundationOk img
  | 1 => foundationOk img && siteOk img
  | 2 => foundationOk img || (siteOk img)
  | _ => false

/-- Does the boot ROM accept an image (R174)? -/
def imageOk (floor : Nat) (img : List Byte) (size : Nat) : Bool :=
  manifestOk img size && digestsOk img && decide (floor ≤ imgSvn img) && policyOk img

/-! ### The banks (R175, R176) -/

/-- The active bank, and the other one. -/
def activeBank (s : State) : Fin 2 := if s.mkh.activeBank then 1 else 0
def inactiveBank (s : State) : Fin 2 := if s.mkh.activeBank then 0 else 1

/-- The active image (R168, R175). -/
def activeImage (s : State) : List Byte := s.stag.bank[activeBank s].img

/-! ### Components and their measurements (R168, R178) -/

/-- The site-policy record of slot 6 (Table 8-4). -/
def policyRecord (floor : Nat) : List Byte :=
  leBytes 1 Config.sitePolicy.toNat ++ leBytes 32 Config.siteKeyHash.toNat ++ leBytes 2 floor

/-- The place in an image of the component of a kind. -/
def compOfKind (img : List Byte) (k : Nat) : Nat := ((List.range 5).find? fun i => compKind img i == k).getD 0

/-- The code of the component of a kind: of a bank as it left the factory, which the model does not hold, the chip's own (log
entry 38). -/
def compCode (img : List Byte) (k : Nat) : List Byte :=
  if img = [] then Config.factoryPart k else compBytes img (compOfKind img k)
/-- The measurement of a component (R178). -/
def measureComp (img : List Byte) (k : Nat) : List Byte := sha256 (compCode img k)
def measureManifest (img : List Byte) : List Byte := sha256 (if img = [] then Config.factoryPart 5 else manifest img)
/-- svn and release of an image. -/
def svnOf (img : List Byte) : Nat := if img = [] then Config.factorySvn.toNat else imgSvn img
def releaseOf (img : List Byte) : Nat := if img = [] then Config.factoryRelease.toNat else imgRelease img

/-- Does the boot ROM boot a bank: valid, and its image accepted? Of a bank as it left the factory `ok` says so. -/
def bankBoots (s : State) (b : Fin 2) (ok : Bool) : Bool :=
  let k := s.stag.bank[b]
  !k.invalid && (if k.img = [] then ok else imageOk s.stag.floor k.img (2 ^ 24))

/-- Does the component of a kind, as the active image has it, match its measurement slot (R168, R233)? -/
def partMatches (s : State) (k : Fin 8) : Bool := measureComp (activeImage s) k.val == s.mkh.meas[k]

end Sys2Proof.Machine
end

