-- ==== Sys2Proof/Machine/Tiles.lean ====
section
/-!
DEFINITION. The tiles of the die (R47, R98, R164, R67; 01_machine_in_one_tick.md): which unit stands where, the tiles of a
region, tile-local memories with their backed addresses (R77, R141, R157, R165) and writes to them (R44), descriptor queues, scrubs (R223)
and reloads (R168).
-/
namespace Sys2Proof.Machine

/-! ### Where the units stand -/

/-- Is (x, y) an interior tile? -/
def interior (x y : Nat) : Bool := decide (1 ≤ x) && decide (x ≤ 14) && decide (y < 12)
/-- Is (x, y) a tile at all: an interior tile or an edge tile? -/
def onDie (x y : Nat) : Bool := decide (x < 16) && decide (y < 12)
/-- The number of a tile: 16·y + x. -/
def tileIdx (x y : Nat) : Fin 192 := Fin.ofNat 192 (16 * y + x)
/-- The macro-block of an interior tile, m = bx + 2·by. -/
def mbOf (x y : Nat) : Fin 8 := Fin.ofNat 8 ((x - 1) / 7 + 2 * (y / 3))

/-- The unit at local (column, row) of macro-block m (R98, R164): Herd, Ibex and Chamois sites and the Kudu cluster. -/
def unitOfMb (m c r : Nat) : Eng :=
  let h (k : Nat) : Eng := .herd (Fin.ofNat 64 (8 * m + k))
  let i (k : Nat) : Eng := .ibex (Fin.ofNat 48 (6 * m + k))
  let a (k : Nat) : Eng := .cham (Fin.ofNat 48 (6 * m + k))
  let row : List Eng := match r with
    | 0 => [h 0, i 0, a 0, h 1, a 1, i 1, h 2]
    | 1 => [h 3, a 2, i 2, .kudu (Fin.ofNat 8 m), i 3, a 3, h 4]
    | _ => [h 5, i 4, a 4, h 6, a 5, i 5, h 7]
  row.getD c (.kudu (Fin.ofNat 8 m))

/-- The unit of an interior tile. -/
def unitAt (x y : Nat) : Eng := unitOfMb (mbOf x y).val ((x - 1) % 7) (y % 3)

/-- The local sites of the units of a macro-block, by unit number (R98, R164). -/
def herdSite (k : Nat) : Nat × Nat := [(0, 0), (3, 0), (6, 0), (0, 1), (6, 1), (0, 2), (3, 2), (6, 2)].getD k (0, 0)
def ibexSite (k : Nat) : Nat × Nat := [(1, 0), (5, 0), (2, 1), (4, 1), (1, 2), (5, 2)].getD k (0, 0)
def chamSite (k : Nat) : Nat × Nat := [(2, 0), (4, 0), (1, 1), (5, 1), (2, 2), (4, 2)].getD k (0, 0)

/-- Coordinates of a site of a macro-block. -/
def siteXY (m : Nat) (p : Nat × Nat) : Nat × Nat := (1 + 7 * (m % 2) + p.1, 3 * (m / 2) + p.2)

/-- Coordinates of a unit; the DMA engine stands in the Host tile. -/
def engXY : Eng → Nat × Nat
  | .herd i => siteXY (i.val / 8) (herdSite (i.val % 8))
  | .ibex i => siteXY (i.val / 6) (ibexSite (i.val % 6))
  | .cham i => siteXY (i.val / 6) (chamSite (i.val % 6))
  | .kudu m => siteXY m.val (3, 1)
  | .pe e => edgeXY (peTile e)
  | .dma => edgeXY hostTile

/-- The macro-block of an interior unit. -/
def engMb : Eng → Option (Fin 8)
  | .herd i => some (Fin.ofNat 8 (i.val / 8))
  | .ibex i => some (Fin.ofNat 8 (i.val / 6))
  | .cham i => some (Fin.ofNat 8 (i.val / 6))
  | .kudu m => some m
  | .pe _ => none
  | .dma => none

/-- The edge tile where a unit's requests enter the Rim (R52, R211). -/
def engEntry (e : Eng) : Fin 24 := let p := engXY e; entryTile p.1 p.2

/-- The region that owns a unit: its macro-block's region, or the one a PE is lent to. -/
def engRegion (s : State) (e : Eng) : Option (Fin 8) :=
  match e with
  | .pe p => s.pe[p].owner
  | e => match engMb e with
    | some m => s.rgn.mbOwner[m]
    | none => none

/-- The code of an engine in an error record (Table 14-2: descriptor classes). -/
def engCode : Eng → Nat
  | .herd _ => 0 | .ibex _ => 1 | .cham _ => 2 | .kudu _ => 3 | .pe _ => 4 | .dma => 5

/-- An error raised by an engine's work. -/
def engSite (e : Eng) (detail : Nat) : Site :=
  { x := (engXY e).1, y := (engXY e).2, engine := engCode e, detail := detail }

/-! ### Regions -/

/-- The physical tile of a logical one (R67). -/
def physXY (r : Region) (lx ly : Nat) : Nat × Nat := (7 * r.bx0 + 1 + lx, 3 * r.by0 + ly)
/-- The unit at a logical tile of a region. -/
def unitOf (r : Region) (lx ly : Nat) : Eng := let p := physXY r lx ly; unitAt p.1 p.2
/-- Does a region's rectangle hold a logical tile? -/
def Region.holds (r : Region) (lx ly : Nat) : Bool := inRect r.bwM1 r.bhM1 lx ly
/-- Does a region's rectangle hold an interior tile? -/
def Region.covers (r : Region) (x y : Nat) : Bool :=
  interior x y && decide (7 * r.bx0 + 1 ≤ x) && decide (x < 7 * (r.bx0 + r.bwM1 + 1) + 1) && decide (3 * r.by0 ≤ y)
    && decide (y < 3 * (r.by0 + r.bhM1 + 1))
/-- Does a region's rectangle hold macro-block m? -/
def Region.hasMb (r : Region) (m : Nat) : Bool :=
  decide (r.bx0 ≤ m % 2) && decide (m % 2 ≤ r.bx0 + r.bwM1) && decide (r.by0 ≤ m / 2) && decide (m / 2 ≤ r.by0 + r.bhM1)
/-- The macro-blocks of a region. -/
def Region.mbs (r : Region) : List (Fin 8) := (allFin 8).filter fun m => r.hasMb m.val

/-- The units of a region's rectangle. -/
def regionUnits (r : Region) : List Eng :=
  r.mbs.flatMap fun m => (List.range 21).map fun t => unitOfMb m.val (t % 7) (t / 7)
/-- The PEs lent to a region. -/
def lentPes (s : State) (n : Fin 8) : List (Fin 4) := (allFin 4).filter fun e => s.pe[e].owner == some n
/-- The logical tile of a unit of a region. -/
def logicalOf (r : Region) (e : Eng) : Nat × Nat :=
  let p := engXY e
  (p.1 - (7 * r.bx0 + 1), p.2 - 3 * r.by0)
/-- The Ibex tiles of a region in ascending logical tile index (Table 13-6, field_map). -/
def ibexRanks (r : Region) : List (Fin 48) :=
  (List.range (3 * (r.bhM1 + 1))).flatMap fun ly => (List.range (7 * (r.bwM1 + 1))).filterMap fun lx =>
    match unitOf r lx ly with
    | .ibex i => some i
    | _ => none

/-! ### Local memories -/

/-- Are the n bytes at a local address backed and reachable by mesh, mover and descriptors (Table 4-1, R141, R157,
Table 8-1)? -/
def backed (e : Eng) (a n : Nat) : Bool :=
  let within (lo hi : Nat) : Bool := decide (lo ≤ a) && decide (a + n ≤ hi)
  match e with
  | .herd _ => within 0 0x2000 || within 0x40000 0xC0000 || within 0x100000 0x1FE000
  | .ibex _ => within 0 0x110000
  | .cham _ => within 0 0x80000
  | .kudu _ => within 0x40000 0x3F8000
  | .pe _ => false
  | .dma => false

/-- The detail that an access to an unbacked address shows (Table 14-1: 0x02 for a Herd tile's). -/
def unbackedDetail : Eng → Nat
  | .herd _ => 2
  | _ => 0

/-- A unit's local memory. -/
def localMem (s : State) : Eng → Mem
  | .herd i => s.herd.tile[i].mem
  | .ibex i => s.ibex[i].mem
  | .cham i => s.cham[i].mem
  | .kudu m => s.kudu[m].mem
  | .pe _ => []
  | .dma => []
def modLocal (e : Eng) (f : Mem → Mem) (s : State) : State :=
  match e with
  | .herd i => modHerd i (fun t => { t with mem := f t.mem }) s
  | .ibex i => modIbex i (fun t => { t with mem := f t.mem }) s
  | .cham i => modCham i (fun t => { t with mem := f t.mem }) s
  | .kudu m => modKudu m (fun t => { t with mem := f t.mem }) s
  | .pe _ => s
  | .dma => s

/-- A store to one of some stretches ends a hart's reservation there (08 R165). -/
def breakResv (stored : List (Nat × Nat)) (h : Hart) : Hart :=
  match h.resv with
  | some (a, n) => if stored.any fun x => decide (a < x.1 + x.2) && decide (x.1 < a + n) then { h with resv := none } else h
  | none => h

/-- Read n bytes of a unit's local memory. -/
def localRead (s : State) (e : Eng) (a n : Nat) : List Byte := memRead (localMem s e) a n

/-- Where unary buffer b of a Herd tile begins (Table 4-1). -/
def unaryBase (b : Bool) : Nat := if b then 0x80000 else 0x40000

/-- Write bytes around a stretch of memory, which keeps its content. -/
def writeAround (m : Mem) (lo hi a : Nat) (data : List Byte) : Mem :=
  memWrite (memWrite m a (data.take (lo - a))) (max a hi) (data.drop (hi - a))

/-- Write bytes into a unit's local memory: the active unary buffer of a Herd tile discards them, and evid_active_write of the
region that owns the tile is set (R44). -/
def localWrite (e : Eng) (a : Nat) (data : List Byte) (s : State) : State :=
  match e with
  | .herd i =>
    let lo := unaryBase s.herd.tile[i].activeUnary
    let hi := lo + 0x40000
    let s' := modLocal e (fun m => writeAround m lo hi a data) s
    (if a < hi ∧ lo < a + data.length then
      match engRegion s e with
      | some n => modTickRgn n (fun t => { t with evidActiveWrite := true }) s'
      | none => s'
    else s')
  | .kudu m => modKudu m (fun t => { t with mem := memWrite t.mem a data, core := t.core.map (breakResv [(a, data.length)]) }) s
  | e => modLocal e (fun m => memWrite m a data) s

/-! ### Descriptor queues -/

/-- The waiting descriptors of a unit's queue. -/
def queueOf (s : State) : Eng → List Desc
  | .herd _ => []
  | .ibex i => s.ibex[i].queue
  | .cham i => s.cham[i].queue
  | .kudu m => s.kudu[m].queue
  | .pe e => s.pe[e].queue
  | .dma => s.eng.dmaQueue

def modQueueOf (e : Eng) (f : List Desc → List Desc) (s : State) : State :=
  match e with
  | .herd _ => s
  | .ibex i => modIbex i (fun x => { x with queue := f x.queue }) s
  | .cham i => modCham i (fun x => { x with queue := f x.queue }) s
  | .kudu m => modKudu m (fun x => { x with queue := f x.queue }) s
  | .pe p => modPe p (fun x => { x with queue := f x.queue }) s
  | .dma => modEng (fun x => { x with dmaQueue := f x.dmaQueue }) s

/-- How many descriptors a unit's queue holds (R148, R166, R183, Table 7-5); the DMA engine's has no stated limit. -/
def queueRoom (s : State) (e : Eng) : Bool :=
  match e with
  | .dma => true
  | .kudu _ => decide ((queueOf s e).length < 64)
  | _ => decide ((queueOf s e).length < 16)

/-! ### Scrubs (R223, R204) -/

/-- Set every byte of a unit's SRAM to 0, with what else its scrub clears; a scrubbed Kudu cluster or Chamois tile loses
its executive or monitor until it is reloaded (R168). -/
def scrubUnit (e : Eng) (s : State) : State :=
  match e with
  | .herd i => modHerd i (fun t => { t with mem := [], slices := [], colours := [], captured := [], betaEff := [],
                                            key := none, shadowKey := none }) s
  | .ibex i => modIbex i (fun t => { t with mem := [], chainIn := [] }) s
  | .cham i => modCham i (fun t => { t with
      mem := [], slots := [], args := Vector.replicate 4 0, monitor := false, code := [], core := Hart.reset, vec := VecUnit.reset }) s
  | .kudu m => modKudu m (fun t => { t with
      mem := [], args := Vector.replicate 16 (0, []), execLoaded := false, core := Vector.replicate 16 Hart.reset }) s
  | .pe p => modPe p (fun t => { t with pset := Vector.replicate 4 none, tagKey := none, result := none }) s
  | .dma => s

/-- Load the executive of a cluster, from local address 0 on (Table 8-1), or the monitor of a Chamois tile from the active image;
it counts as loaded only if it matches its measurement slot (R168). -/
def reloadUnit (e : Eng) (s : State) : State :=
  match e with
  | .cham i => modCham i (fun t => { t with code := compCode (activeImage s) 3, monitor := partMatches s 3 }) s
  | .kudu m =>
    let code := compCode (activeImage s) 2
    modKudu m (fun t => { t with
      mem := memWrite t.mem 0 (code.take 0x40000), execLoaded := partMatches s 2 && decide (code.length ≤ 0x40000) }) s
  | .herd _ => s
  | .ibex _ => s
  | .pe _ => s
  | .dma => s

end Sys2Proof.Machine
end

