-- ==== Sys2Proof/Machine/Router.lean ====
section
/-!
DEFINITION. The links of the mesh (03_mesh_regions_rim.md R47) and the writes that packets bring to a tile
(07_ibex_chamois.md R148; 04_herd_arrays.md R77).
-/
namespace Sys2Proof.Machine

/-- The far end of link direction l = 4·(16·y + x) + port: the tile it leads to. -/
def linkEnd (l : Nat) : Nat × Nat :=
  let x := l / 4 % 16
  let y := l / 64
  match l % 4 with
  | 0 => (x, y - 1)
  | 1 => (x + 1, y)
  | 2 => (x, y + 1)
  | _ => (x - 1, y)

/-- Does a link direction exist (R47)? -/
def linkExists (l : Nat) : Bool :=
  let x := l / 4 % 16
  let y := l / 64
  match l % 4 with
  | 0 => interior x y && decide (1 ≤ y)
  | 1 => decide (x ≤ 14)
  | 2 => interior x y && decide (y ≤ 10)
  | _ => decide (1 ≤ x)

def modLink (l : Fin 768) (f : Link → Link) (s : State) : State :=
  { s with mesh := { s.mesh with links := upd s.mesh.links l f } }

/-- The link direction that ends at an input of a tile: 1 N, 2 E, 3 S, 4 W. -/
def inLink (x y src : Nat) : Option (Fin 768) :=
  let l := match src with
    | 1 => if 1 ≤ y then some (4 * (16 * (y - 1) + x) + 2) else none
    | 2 => if x ≤ 14 then some (4 * (16 * y + x + 1) + 3) else none
    | 3 => if y ≤ 10 then some (4 * (16 * (y + 1) + x)) else none
    | 4 => if 1 ≤ x then some (4 * (16 * y + x - 1) + 1) else none
    | _ => none
  (l.filter fun l => onDie x y && linkExists l).map (Fin.ofNat 768)

/-- The link directions that lead into a tile. -/
def linksInto (x y : Nat) : List (Fin 768) := [1, 2, 3, 4].filterMap (inLink x y)

/-- Does a unit serve a mesh write now? An Ibex tile serves its local memory only between two operations, but its state
window at any time (R148). -/
def servesWrite (s : State) (e : Eng) (a n : Nat) : Bool :=
  match e with
  | .ibex i => s.ibex[i].running.isNone || (decide (0xFE000 ≤ a) && decide (a + n ≤ 0x100000))
  | _ => true

/-- Perform a packet's write at its destination; an unbacked address is a descriptor fault of the job that names it
(R77). -/
def landPacket (e : Eng) (p : MeshPacket) (s : State) : State :=
  if p.data.isEmpty then s
  else if backed e p.addr p.data.length then localWrite e p.addr p.data s
  else match engRegion s e, p.job with
    | some n, some k =>
      settle n (jobError { r := n, q := k.1, pos := k.2 } .descriptor (engSite e (unbackedDetail e)) s)
    | _, _ => s

/-- The packets of a channel that wait in link l's buffer for the tile (x, y) behind it, up to the first that its unit does not
serve now; on VC3 none while its descriptor queue is full (R148, R166). -/
def servable (s : State) (x y : Nat) (l : Fin 768) (vc : Vc) : List MeshPacket :=
  if vc == .vc3 && interior x y && !queueRoom s (unitAt x y) then [] else
  (s.mesh.links[l].vc.filter fun p => p.vc == vc).takeWhile fun p =>
    (p.dx, p.dy) == (x, y) && (!interior x y || servesWrite s (unitAt x y) p.addr p.data.length)

/-- The packets that wait at a tile for its unit are served in order (R148). -/
def serveHeld (x y : Nat) (s : State) : State :=
  forEach (linksInto x y) (fun l s =>
    forEach [Vc.vc3, Vc.vc1, Vc.vc2] (fun vc s =>
      let ps := servable s x y l vc
      let s := modLink l (fun k => { k with vc := ps.foldl List.erase k.vc }) s
      if interior x y then forEach ps (landPacket (unitAt x y)) s else s) s) s

end Sys2Proof.Machine
end

