-- ==== Sys2Proof/Machine/Recovery.lean ====
section
/-!
DEFINITION. What ends work (14_faults_restart.md): killing a job and resetting its tiles (R332), ending ticking (R134),
region-level errors and region recovery (R339, R340, R345), device-level errors (R341), the failure of noise (R109), power
withdrawal (R261), and the freeing of a region (Table 3-6).
-/
namespace Sys2Proof.Machine

/-! ### Destinations -/

/-- Where a 48-bit address field of a descriptor leads (R309). -/
inductive Dst where
  | tile (e : Eng) (a : Nat)
  | dev (a : Nat)
deriving DecidableEq, Repr

def dstOf (s : State) (n : Fin 8) (a : Nat) : Dst :=
  if isTileAddr a then .tile (unitOf s.rgn.rgn[n] (tileAddr a).lx (tileAddr a).ly) (tileAddr a).ofs else .dev a

/-- The place `ofs` bytes behind a 48-bit address field: a row of a DMA transfer (Table 13-5). -/
def rowDst (s : State) (n : Fin 8) (a ofs : Nat) : Dst :=
  match dstOf s n a with
  | .tile e x => .tile e (x + ofs)
  | .dev x => .dev ((x + ofs) % 2 ^ 48)

/-- Write bytes to a destination of region n's unit e; an unbacked local address takes nothing. -/
def writeDst (e : Eng) (n : Fin 8) (d : Dst) (data : List Byte) (s : State) : State × MemFault :=
  match d with
  | .tile t a => if backed t a data.length then (localWrite t a data s, none) else (s, none)
  | .dev a => writeDev (engEntry e) (ctxOf n) a data s

/-- Leave the bytes of a destination undefined (R332). -/
def undefDst (e : Eng) (n : Fin 8) (d : Dst) (len : Nat) (s : State) : State :=
  useFree len (writeDst e n d (undefBytes s len) s).1

/-- Bytes of a panel by output format (R142, Table 7-2). -/
def outBytes (fmt : Nat) : Nat :=
  match fmt with
  | 0 => 0 | 1 => 4096 | 2 => 8192 | 3 => 16384 | 4 => 4096 | 5 => 4096 | 6 => 8192 | _ => 16384

/-- The destinations of an operation that is abandoned (R332): (destination, bytes). A kernel's own stores are not known
to the model (log entry 13). -/
def openDsts (s : State) (e : Eng) (d : Desc) : List (Dst × Nat) :=
  let n := d.job.r
  let b := d.bytes
  match e with
  | .ibex _ =>
    let acc : Dst × Nat := (.tile e (0x100000 + 0x4000 * bits (fieldAt b 17 1) 1 0), 16384)
    if bit (fieldAt b 16 1) 6 then [acc]
    else [acc, (dstOf s n (fieldAt b 40 6), outBytes (bits (fieldAt b 17 1) 6 4))]
  | .cham _ => if fieldAt b 16 1 = 1 then [(dstOf s n (fieldAt b 40 6), outBytes (bits (fieldAt b 24 1) 4 2))] else []
  | .dma =>
    (List.range (fieldAt b 36 2 + 1)).map fun i =>
      (rowDst s n (fieldAt b 24 6) (i * fieldAt b 44 4), fieldAt b 32 4)
  | .pe p =>
    match s.pe[p].result with
    | some (.commit ws _ none) => ws.map fun w => (.dev w.1, w.2.length)
    | some (.commit _ _ (some a)) => [(.dev a.1, a.2)]
    | some (.badTag a _) => [(.dev a.1, a.2)]
    | some (.slot _ _) => []
    | none => []
  | .herd _ => []
  | .kudu _ => []

/-- The descriptors that a unit executes. -/
def runningOn (s : State) (e : Eng) : List Desc :=
  match e with
  | .herd _ => []
  | .ibex i => s.ibex[i].running.toList
  | .cham i => s.cham[i].running.toList
  | .kudu m => s.kudu[m].hart.toList.filterMap id
  | .pe p => s.pe[p].running.toList
  | .dma => s.eng.dmaRunning

/-- Does any engine execute a descriptor of a job (R331)? -/
def executing (s : State) (k : JobRef) : Bool :=
  let ours (l : List Desc) : Bool := l.any fun d => d.job == k
  ((allFin 48).any fun i => ours (runningOn s (.ibex i)) || ours (runningOn s (.cham i))) ||
    ((allFin 8).any fun m => ours (runningOn s (.kudu m))) || ((allFin 4).any fun e => ours (runningOn s (.pe e))) ||
    ours (runningOn s .dma)

/-- The flits that an interior tile has not sent are given up with its operation. -/
def dropSource (e : Eng) (s : State) : State :=
  match engMb e with
  | some _ => { s with mesh := { s.mesh with src := upd s.mesh.src (tileIdx (engXY e).1 (engXY e).2) fun _ => [] } }
  | none => s

/-- Abandon what a unit executes, leaving its unfinished destinations undefined, and set it idle; descriptors that wait in
its queue stay (R332). -/
def resetUnit (e : Eng) (s : State) : State :=
  let s := forEach (runningOn s e) (fun d s =>
    forEach (openDsts s e d) (fun p s => undefDst e d.job.r p.1 p.2 s) s) s
  let s := dropSource e s
  match e with
  | .herd i => modHerd i (fun t => { t with state := .idle, sweepDone := false, cls := 0 }) s
  | .ibex i =>
    let p := engXY e
    serveHeld p.1 p.2 (modIbex i (fun t => { t with running := none, state := .idle }) s)
  | .cham i => modCham i (fun t => { t with running := none, state := .idle, core := Hart.reset, vec := VecUnit.reset }) s
  | .kudu m => modKudu m (fun t => { t with hart := Vector.replicate 16 none, core := Vector.replicate 16 Hart.reset }) s
  | .pe p => modPe p (fun t => { t with running := none, result := none, state := .idle }) s
  | .dma => s

/-! ### The end of ticking (R134, R53, R156) -/

/-- Region n's ticking job ticks no more: its tiles are idle, its reserved Ibex tiles free; its slot-table entries go idle
at the next boundary, before which the writes of R132 and R231 may still leave (R53). -/
def endTicking (n : Fin 8) (s : State) : State :=
  let tiles := match s.herd.job[n].plan with | some p => p.tiles | none => []
  let s := modTickRgn n (fun t => { t with ticking := false, continuing := false }) s
  let s := modTickJob n (fun t => { TickJob.reset with
    shadow := t.shadow, jt := t.jt, w := t.w, ended := t.ended, emitNo := t.emitNo, emissions := t.emissions,
    pending := t.pending, writes := t.writes, nextWrite := t.nextWrite, lastTiles := tiles }) s
  let s := forEach tiles (fun h => modHerd h fun t => { t with state := .idle, sweepDone := false, cls := 0 }) s
  let s := forEach ((allFin 48).filter fun i => s.ibex[i].fieldRsv == some n)
    (fun i => modIbex i fun x => { x with fieldRsv := none }) s
  let s := modAnl n (fun a => { a with active := false }) s
  let s := modNoiseRgn n (fun x => { x with mode := 0, keyWait := false, requested := false, nextKey := none }) s
  modRingRgn n (fun x => { x with bufs := [], stream := 0, sealed := false, keyOk := false, key := none, nextKey := none }) s

/-- A merge of region n that waits or runs is given up (R136). -/
def dropMerge (n : Fin 8) (s : State) : State :=
  let s := forEach ((allFin 8).filter fun m => s.rgn.mbOwner[m] == some n)
    (fun m => modKudu m fun k => { k with mergeWaits := false, merging := false }) s
  modTickJob n (fun t => { t with ended := false, pending := [], emissions := [], writes := [] }) (modAnl n (fun a => { a with merging := false }) s)

/-! ### Kills (R332, R204) -/

/-- The lent PEs and the units that a kill with scrub clears, reloaded where R168 asks it. -/
def scrubAll (es : List Eng) (s : State) : State := forEach es (fun e s => reloadUnit e (scrubUnit e s)) s

/-- The armed chains of a job that were about to fire are dropped, their done events CANCELLED (R321, Table 13-8). -/
def dropReady (j : Job) (s : State) : State :=
  forEach (j.arms.filter fun a => a.due != .unset) (dropArm j.ref.r) s

/-- Kill a job: reset every tile of its engine set, abandon its DMA, and with `scrub` scrub those tiles and every PE lent
to the region; a job that ticks ticks no more (R332, R204). -/
def killJob (k : JobRef) (scrub : Bool) (s : State) : State :=
  match findJob s k with
  | none => s
  | some j =>
    let s := forEach j.engines resetUnit (purgeJob k (dropReady j s))
    let s := forEach (s.eng.dmaRunning.filter fun d => d.job == k) (fun d s =>
      forEach (openDsts s .dma d) (fun p s => undefDst .dma d.job.r p.1 p.2 s) s) s
    let s := modEng (fun x => { x with dmaRunning := x.dmaRunning.filter fun d => d.job != k }) s
    let s := if j.tick then dropMerge k.r (endTicking k.r s) else s
    if scrub then scrubAll (j.engines ++ (lentPes s k.r).map Eng.pe) s else s

/-- Kill a job and complete it with a status. -/
def killWith (k : JobRef) (scrub : Bool) (status : Nat) (s : State) : State :=
  completeJob k status (killJob k scrub s)

/-- The started jobs of region n. -/
def startedJobs (s : State) (n : Fin 8) : List Job := s.jobs.filter fun j => j.ref.r == n && j.started

/-! ### Host pages of a TDI that leaves RUN (R253, R254) -/

/-- Invalidate every host entry of context c (R254, R214). -/
def dropHostPages (c : Fin 9) (s : State) : State :=
  let base := s.mem.ctx[c].ptb
  let hosts := s.mem.phys.filter fun x =>
    decide (base ≤ x.1) && decide (x.1 < base + 2 ^ 19) && (x.1 - base) % 8 == 0 && bit x.2.toNat 0 && bit x.2.toNat 2
  let s := forEach hosts (fun x => modMem fun m => physWrite m x.1 (List.replicate 8 0)) s
  if hosts.isEmpty then s else modCtx c (fun x => { x with invBusy := true }) s

/-- The TDI of region n leaves its state for another; leaving RUN drops the host pages of a host_ide region (R254). -/
def setTdi (n : Fin 8) (t : Tdi) (s : State) : State :=
  let old := s.sec.rgn[n]
  let s := modSecRgn n (fun x => { x with tdi := t }) s
  if old.tdi = .run ∧ t ≠ .run ∧ old.hostIde then dropHostPages (ctxOf n) s else s

/-- A TDI in CONFIG_LOCKED or RUN goes to ERROR (R253). -/
def tdiError (n : Fin 8) (s : State) : State :=
  let t := s.sec.rgn[n].tdi
  if t = .locked ∨ t = .run then setTdi n .error s else s

/-! ### Region-level errors (R339, R340, R345) -/

/-- The status of a job that region recovery ends (R340): its own where its error came first and it has not begun to be
restored, CANCELLED where a CANCEL stopped it. -/
def recoveryStatus (j : Job) (own : Option (JobRef × Nat)) : Nat :=
  match own with
  | some o => if o.1 = j.ref then o.2 else Status.regionFaulted
  | none =>
    if j.phase != .stopped then Status.regionFaulted
    else if j.cancel.isSome then Status.cancelled
    else match j.cause with
      | some c => c.2
      | none => Status.regionFaulted

/-- Table 14-3 step 2: every job of region n is killed without drain and completes; a SEALED region's rectangle and lent
PEs are scrubbed (R332, R340). -/
def endRegionJobs (n : Fin 8) (own : Option (JobRef × Nat)) (s : State) : State :=
  let shut := ctxSealed s (ctxOf n)
  let s := forEach (startedJobs s n) (fun j => killWith j.ref shut (recoveryStatus j (own.filter fun o => o.1 == j.ref))) s
  if shut then
    forEach (regionUnits s.rgn.rgn[n] ++ (lentPes s n).map Eng.pe) (fun e s => scrubUnit e s) s
  else s

/-- CP_OFFLINE step 2 (R339): the device stops and resets everything of region n itself; no record is written. -/
def haltRegion (n : Fin 8) (s : State) : State :=
  let shut := ctxSealed s (ctxOf n)
  let s := forEach (startedJobs s n) (fun j s =>
    let s := endDeferred j.ref .error (killJob j.ref shut s)
    dropJob j.ref (breakLocks j.ref (leaveLocks j.ref s))) s
  let s := { s with jobs := s.jobs.filter fun j => j.ref.r != n }
  let es := regionUnits s.rgn.rgn[n] ++ (lentPes s n).map Eng.pe
  let s := forEach es resetUnit s
  if shut then forEach es scrubUnit s else s

/-- A REGION_SEAL or REGION_CREATE of region n that waits on the maintenance queue completes with a status. -/
def failMaint (op : Nat) (n : Fin 8) (status : Nat) (s : State) : State :=
  match current s maintQ with
  | some p =>
    if p.started && pktOp p.bytes == op && (op == 0x40 || fieldAt p.bytes 16 1 == n.val) then
      decide' maintQ p.pos (plainDone status) s
    else s
  | none => s

/-- The frames of region n's save area (R334). -/
def saveFrames (n : Fin 8) : List Nat :=
  (List.range 8).map fun i => (n.val % 4) * 2 ^ 14 + 12272 + 8 * (n.val / 4) + i

/-- The save frames of region n take an owner: n while the region is SEALED, else 8; their content is gone (R335). -/
def ownSave (n : Fin 8) (o : Nat) (s : State) : State :=
  forEach (saveFrames n) (fun f => modMem fun m => giveFrame f o m) s

/-- A seal that fails leaves nothing of the offer; the gating controls stay the secure world's until the region is destroyed
(R259). -/
def giveUpSeal (n : Fin 8) (s : State) : State :=
  modSecRgn n (fun x => { x with sealing := false, hostIde := false, ringOk := false, owner := List.replicate 32 0 }) s

/-- A pending offer lapses (R243). -/
def lapseOffer (n : Fin 8) (s : State) : State := modSecRgn n (fun x => { x with offer := none }) s

/-- A region-level error of region n: it is logged and signalled by vector 0 of the VF (R228); an OPEN or SEALED region goes to
FAULTED, by CP_OFFLINE to DISABLED, and a FAULTED one to DISABLED (R339, R345; Table 3-4); one that is being torn down goes to
DISABLED by CP_OFFLINE (R172), by another error nowhere. `own`: the job that keeps a status of its own, and that status. -/
def regionError (n : Fin 8) (e : Err) (site : Site) (own : Option (JobRef × Nat)) (s : State) : State :=
  let r := s.rgn.rgn[n]
  if r.state = .free then s else
  let j := own.bind fun o => findJob s o.1
  let q := match own with | some o => o.1.q.val | none => 0
  let entry := mkRec e n.val q site ((j.map Job.jobId).getD 0) s.tick.tn ((j.map Job.epoch).getD 0)
  let s := sendMsix (vfOf n) 0 (logRegion n entry s)
  if r.tearingDown then
    if e = .cpOffline ∧ (r.state = .opened ∨ r.state = .sealed ∨ r.state = .faulted) then
      modRgn n (fun r => { r with state := .disabled, recovery := 0 }) s
    else s
  else
  match r.state with
  | .opened | .sealed =>
    let s := tdiError n (modRgn n (fun r => { r with before := r.state, recovery := 3 }) s)
    let s := if s.sec.rgn[n].sealing then giveUpSeal n (failMaint 0x42 n Status.regionFaulted s) else s
    let s := lapseOffer n s
    let s := if r.state = .sealed then ownSave n 8 s else s
    let s := if e = .cpOffline then haltRegion n s else endRegionJobs n own s
    settleMaint (settle n (modRgn n (fun r =>
      if e = .cpOffline then { r with state := .disabled, recovery := 0 } else { r with state := .faulted }) s))
  | .faulted =>
    let s := forEach (regionUnits r) resetUnit s
    modRgn n (fun r => { r with state := .disabled, recovery := 0 }) s
  | .free | .forming | .disabled => s

/-! ### What memory accesses meet (R212, R221) -/

/-- A translation fault or failed tag check that no job asked for: it is latched or counted, and a failed check is a region-level
error. -/
def noteFault (n : Fin 8) (f : Nat × Nat) (site : Site) (s : State) : State :=
  let s := latchFault (ctxOf n) f.1 f.2 s
  if f.2 = tagCause then regionError n .tagFail { site with engine := 9, detail := 0 } none s else s

/-- What an access of context c met, if anything. -/
def noteIf (c : Fin 9) (f : MemFault) (site : Site) (s : State) : State :=
  match f with
  | none => s
  | some f => if c.val < 8 then noteFault (Fin.ofNat 8 c.val) f site s else latchFault c f.1 f.2 s

/-- A job's access meets a translation fault, which faults the job (R212), or a failed tag check, which does so as a region-level
error (R221). -/
def memError (k : JobRef) (f : Nat × Nat) (site : Site) (s : State) : State :=
  let s := latchFault (ctxOf k.r) f.1 f.2 s
  if f.2 = tagCause then
    regionError k.r .tagFail { site with engine := 9, detail := 0 } ((findJob s k).map fun _ => (k, Status.jobFault)) s
  else jobError k .translation { site with detail := f.2 } s

/-! ### The freeing of a region (Table 3-6 steps 4-7) -/

/-- Does a link direction belong to a region: both its ends in the rectangle, or for a row-to-edge link its interior end
(R66)? -/
def linkOf (r : Region) (l : Nat) : Bool :=
  let x := l / 4 % 16
  let y := l / 64
  let e := linkEnd l
  linkExists l && (r.covers x y || !interior x y) && (r.covers e.1 e.2 || !interior e.1 e.2)

/-- Change the link directions of a region. -/
def mapLinks (r : Region) (f : Link → Link) (s : State) : State :=
  let pick (l : Fin 768) : Link := if linkOf r l.val then f s.mesh.links[l] else s.mesh.links[l]
  { s with mesh := { s.mesh with links := Vector.ofFn pick } }

/-- The VC0, Rim and edge-tile buffers of region n are cleared, with what its tiles have not sent (Table 3-6 step 4, Table 14-3
step 3). -/
def clearBuffers (n : Fin 8) (s : State) : State :=
  let s := mapLinks s.rgn.rgn[n] (fun l => { l with vc0 := [] }) s
  { s with
    mesh := { s.mesh with src := s.mesh.src.map fun q => q.filter fun f => f.tag != n.val },
    rim := { s.rim with
      held := s.rim.held.filter fun h => h.flit.ctx != ctxOf n,
      staging := upd s.rim.staging n fun _ => Vector.replicate 24 [],
      blocks := upd s.rim.blocks n fun _ => [] } }

/-- Close the walls: slot tables idle, tags 0xF, Rim units free, Rim, edge-tile and router buffers clear (Table 3-6
step 4; the router buffers DEDUCED, log entry 21). -/
def closeWalls (n : Fin 8) (s : State) : State :=
  let r := s.rgn.rgn[n]
  let c := ctxOf n
  let s := clearBuffers n (mapLinks r (fun l => { l with bank0 := [], bank1 := [], vc := [] }) s)
  { s with
    mesh := { s.mesh with tag := s.mesh.tag.map (Option.filter (· != n)),
                          tagNext := s.mesh.tagNext.map (Option.filter (· != n)) },
    rgn := { s.rgn with mbOwner := s.rgn.mbOwner.map (Option.filter (· != n)) },
    rim := { s.rim with
      owner := s.rim.owner.map fun v => v.map (Option.filter (· != c)),
      alloc := s.rim.alloc.map fun v => v.map (Option.filter (· != c)) } }

/-- Every frame of region n returns to 0xF, its save area to 8 (R215, R335), the content unreadable. -/
def freeFrames (n : Fin 8) (s : State) : State :=
  let mine := (s.mem.owner.filter fun e => e.2 == n.val).map fun e => e.1
  forEach mine (fun f => modMem fun m => giveFrame f (if isCarve f then 8 else 15) m) s

/-- Return a PE: its memory, slots and tag key are scrubbed and its queue emptied (R181). -/
def returnPe (e : Fin 4) (s : State) : State :=
  modPe e (fun p => { p with owner := none, queue := [], admitted := false, running := none, state := .idle })
    (scrubUnit (.pe e) s)

/-- Empty the queues of region n's units and give up what they execute. -/
def clearUnit (e : Eng) (s : State) : State :=
  match e with
  | .herd i => modHerd i (fun t => { t with state := .idle, sweepDone := false, cls := 0, swap := none, held := none, waits := false,
                                            activeUnary := false, shadow := List.replicate 64 0 }) s
  | .ibex i => modIbex i (fun t => { t with queue := [], admitted := false, running := none, state := .idle,
                                            fieldRsv := none, windowFlits := 0 }) s
  | .cham i => modCham i (fun t => { t with queue := [], running := none, state := .idle, coming := [], ctMode := false, ctTime := 0 }) s
  | .kudu m => modKudu m (fun t => { t with queue := [], hart := Vector.replicate 16 none, mergeWaits := false, merging := false }) s
  | .pe _ => s
  | .dma => s

/-- The core of region n serves it no more (R171). -/
def leaveCore (n : Fin 8) (s : State) : State :=
  { s with mkh := { s.mkh with cp := s.mkh.cp.map fun c => { c with regions := c.regions &&& ~~~((1 : BitVec 8) <<< n.val) } } }

/-- Steps 4-6 of Table 3-6, and what step 7 returns to reset values; the region is FREE, its core's place kept if a VF FLR
creates it again (R233). What RGN_CFG, RGN_SEG and rim_units
show of it is kept until the next REGION_CREATE (DESIGN CHOICE, log entry 97). -/
def freeRegion (n : Fin 8) (s : State) : State :=
  let r := s.rgn.rgn[n]
  let es := regionUnits r
  let s := closeWalls n s
  let s := forEach es (fun e s => clearUnit e (scrubUnit e s)) s
  let s := forEach (lentPes s n) returnPe s
  let s := freeFrames n s
  let s := modCtx (ctxOf n) (fun _ => MemCtx.reset) s
  let s := modMem (fun m => { m with tlb := m.tlb.filter fun t => t.ctx != ctxOf n }) s
  let s := modNoiseRgn n (fun _ => NoiseRgn.reset) s
  let s := modSecRgn n (fun x => { SecRgn.reset with tdi := x.tdi, stream := x.stream }) s
  let s := if r.byFlr then s else leaveCore n s
  let s := { s with jobs := s.jobs.filter fun j => j.ref.r != n }
  let s := modEng (fun x => { x with flight := x.flight.filter fun d => d.job.r != n,
                                     dmaQueue := x.dmaQueue.filter fun d => d.job.r != n,
                                     dmaAdmitted := x.dmaAdmitted.filter fun d => d.job.r != n,
                                     dmaRunning := x.dmaRunning.filter fun d => d.job.r != n }) s
  let s := modTickJob n (fun t => { TickJob.reset with lastTiles := t.lastTiles }) s
  modRgn n (fun r => { r with state := .free, tearingDown := false, recovery := 0, claimed := [] }) s

/-- Steps 1-3 of Table 3-6: running jobs are killed and complete with CANCELLED, jobs not started with
CANCELLED_BEFORE_START, owned outputs are driven low. -/
def beginTeardown (n : Fin 8) (s : State) : State :=
  let disabled := s.rgn.rgn[n].state == .disabled
  let shut := ctxSealed s (ctxOf n)
  let s := tdiError n (modRgn n (fun r => { r with tearingDown := true }) s)
  let s := forEach (startedJobs s n) (fun j => killWith j.ref shut Status.cancelled) s
  let s := { s with jobs := s.jobs.filter fun j => j.ref.r != n }
  let s := if disabled then s else
    forEach (allFin 4) (fun q s =>
      forEach (s.que[qIndex n q].pkts.filter fun p => p.done.isNone && pktOp p.bytes == 1)
        (fun p => decide' (qIndex n q) p.pos (plainDone Status.cancelledBeforeStart)) s) s
  settle n (quietRegion n s)

/-- A region whose creation fails is FREE; the command that waits for it completes: REGION_CREATE with the status, a
REGION_DESTROY that waited for a VF FLR's re-creation finds the region FREE (R69, R71, R233). -/
def creationFails (n : Fin 8) (status : Nat) (s : State) : State :=
  let byFlr := s.rgn.rgn[n].byFlr
  let s := modRgn n (fun r => { r with byFlr := false, destroyWaits := false, flrWaits := false }) (freeRegion n s)
  if byFlr then failMaint 0x41 n Status.regionState s else failMaint 0x40 n status s

/-! ### Device-level errors (R341) -/

/-- Is an error's bit of ERR_DEV_STAT to be set; `stack` for HBM_UE. -/
def setDevBit (e : Err) (stack : Nat) (x : ErrState) : ErrState :=
  match e with
  | .rimUe => { x with rimUe := true }
  | .hbmUe => { x with hbmUe := x.hbmUe.set (stack % 4) true (Nat.mod_lt _ (by decide)) }
  | .lockstep => { x with lockstep := true }
  | .entropy => { x with entropy := true }
  | .maintCp => { x with maintCp := true }
  | _ => x

/-- Does region n see stack k by its context's stack mask? -/
def maskHas (s : State) (n : Fin 8) (k : Nat) : Bool := s.mem.ctx[ctxOf n].stackMask.getLsbD k

/-- Does a device-level error end a job (Table 14-4)? -/
def devEnds (s : State) (e : Err) (stack : Nat) (j : Job) : Bool :=
  match e with
  | .rimUe => true
  | .hbmUe => maskHas s j.ref.r stack
  | .lockstep => ctxSealed s (ctxOf j.ref.r) || j.noiseConsuming
  | .entropy => j.noiseConsuming
  | _ => false

/-- End a started job by an error that is not its own: a SEALED region's is killed with scrub at once, another is stopped and
drained, or keeps draining, with the error's status (R341, R346). -/
def endByDevice (e : Err) (j : Job) (s : State) : State :=
  if ctxSealed s (ctxOf j.ref.r) then
    killWith j.ref true (if j.cancel.isSome then Status.cancelled else errStatus e) s
  else match j.phase with
    | .stopped => modJob j.ref (fun j => { j with cause := some (errCode e, errStatus e) }) s
    | _ => stopJob j.ref (some (errCode e, errStatus e)) none s

/-- Settle every region and the maintenance queue. -/
def settleAll (s : State) : State := settleMaint (forEach (allFin 8) settle s)

/-- A device-level error (R341): its bit, its log record, vector 0 of the PF, and the jobs it ends. -/
def deviceError (e : Err) (site : Site) (region : Nat) (stack : Nat) (s : State) : State :=
  let s := modErr (setDevBit e stack) s
  let s := logDevice (mkRec e region 0 site 0 s.tick.tn 0) s
  let s := sendMsix 0 0 s
  let ends := s.jobs.filter fun j => j.started && devEnds s e stack j
  settleAll (forEach ends (endByDevice e) s)

/-! ### Noise fails (R108, R109) -/

/-- A PE that executes MASK gives it up when noise fails: its outputs keep valid = 0 (09 R201, Table 9-6). -/
def abandonMask (p : Pe) : Pe :=
  match p.running with
  | some d => if fieldAt d.bytes 16 1 = 10 then
      { p with running := none, result := none, state := .fault, faultCause := 6 } else p
  | none => p

/-- Noise goes to FAILED for a first cause: the DRBG and the generator keys are zeroised, noise-consuming jobs end, FORMING
regions return to FREE, creation and sealing complete with ENTROPY_FAILURE, and the device-level error is recorded. -/
def noiseFail (cause src : Nat) (s : State) : State :=
  if s.noise.state = .failed then s else
  let s := { s with
    noise := { s.noise with state := .failed, failCause := cause, failSrc := src, drbg := none,
                            rgn := s.noise.rgn.map fun x => { x with nextKey := none, requested := false } },
    herd := { s.herd with tile := s.herd.tile.map fun t => { t with key := none, shadowKey := none } },
    pe := s.pe.map abandonMask }
  let s := forEach (allFin 8) (fun n s =>
    if s.rgn.rgn[n].state = .forming then creationFails n Status.entropyFailure s
    else if s.sec.rgn[n].sealing then
      giveUpSeal n (failMaint 0x42 n Status.entropyFailure s)
    else s) s
  deviceError .entropy noSite 15 0 s

/-! ### Power withdrawal (R261-R263) -/

/-- What of region n a cut at (x, y) affects: a tile of its rectangle, a lent PE, or a Store tile with its frames is named
by the caller. -/
def cutAffects (s : State) (n : Fin 8) (x y : Nat) : Bool :=
  s.rgn.rgn[n].covers x y || (lentPes s n).any fun e => edgeXY (peTile e) == (x, y)

/-- The unit of a tile that a cut takes: an interior unit or a PE. -/
def cutUnit (x y : Nat) : Option Eng :=
  if interior x y then some (unitAt x y)
  else ((allFin 4).find? fun e => edgeXY (peTile e) == (x, y)).map Eng.pe

/-- A withdrawal of power from SEALED region n: its running jobs end with SECURE_POWER_WITHDRAWN, killed with scrub;
attest_required is set and its TDI goes to ERROR (R261). -/
def withdrawRegion (n : Fin 8) (site : Site) (s : State) : State :=
  let s := forEach (startedJobs s n) (fun j s =>
    killWith j.ref true Status.securePowerWithdrawn (logRegion n (jobRecord .powerWithdrawn site j s.tick.tn) s)) s
  let s := modSecRgn n (fun x => { x with attest := true, withdrawals := satInc 16 x.withdrawals,
                                          withdrawnAt := s.sec.opened }) s
  settle n (tdiError n s)

/-- One event of R261 or R262: counted with its cause and whether it was warned, and every affected SEALED region's power
withdrawn. -/
def withdraw (cause : Nat) (warned : Bool) (site : Site) (affected : List (Fin 8)) (s : State) : State :=
  if affected.isEmpty then s else
  let s := { s with sec := { s.sec with withdrawals := satInc 16 s.sec.withdrawals, lastCause := cause,
                                        lastWarned := warned } }
  forEach affected (fun n => withdrawRegion n site) s

/-- The SEALED regions, and those being sealed, which a withdrawal meets as well (11, Corners). -/
def sealedRegions (s : State) : List (Fin 8) :=
  (allFin 8).filter fun n => s.rgn.rgn[n].state == .sealed || s.sec.rgn[n].sealing

end Sys2Proof.Machine
end

