-- ==== Sys2Proof/Machine/Noise.lean ====
section
/-!
DEFINITION. Noise (05_noise.md): raw samples and their health tests (R99-R102), the conditioner (R103), the DRBG (R104,
R105), readiness and failure (R106-R109), the keys of the Herd generators (R111-R117).
-/
namespace Sys2Proof.Machine

/-! ### The DRBG -/

/-- Is a reseed due (R105)? -/
def Drbg.due (d : Drbg) : Bool := decide (65536 ≤ d.requests) || decide (500000 ≤ d.ticks)

/-- Does the DRBG serve k requests in a row now: READY, no reseed due, and two blocks at hand for one that falls due before the
last of them (R105, R107)? -/
def drbgServes (s : State) (k : Nat) : Bool :=
  s.noise.state == .ready &&
    match s.noise.drbg with
    | some d => !d.due && (decide (d.requests + k ≤ 65536) || s.noise.held.length == 2)
    | none => false

/-- A reseed consumes both held blocks (R103, R105). -/
def reseed (d : Drbg) (s : State) : State :=
  let kv := drbgReseed (s.noise.held.flatten.take 48) (d.key, d.v)
  { s with noise := { s.noise with
    held := [], reseeds := satInc 16 s.noise.reseeds,
    drbg := some { key := kv.1, v := kv.2, requests := 0, ticks := 0 } } }

/-- Between two requests made in a row, a reseed that is due takes place, if its blocks are at hand; its known-answer test passes
(DESIGN CHOICE, log entry 100). -/
def reseedBetween (s : State) : State :=
  match s.noise.drbg with
  | some d => if d.due && s.noise.held.length == 2 then reseed d s else s
  | none => s

/-- One generate request: 256 bits (R105); an absent DRBG gives none. -/
def drbgDraw (s : State) : List Byte × State :=
  let s := reseedBetween s
  match s.noise.drbg with
  | none => ([], s)
  | some d =>
    let r := drbgOutput (d.key, d.v)
    (r.1, { s with noise := { s.noise with
      drbg := some { d with key := r.2.1, v := r.2.2, requests := d.requests + 1 } } })

/-- k generate requests in a row, joined. -/
def drbgDraws : Nat → State → List Byte × State
  | 0, s => ([], s)
  | k + 1, s =>
    let a := drbgDraw s
    let b := drbgDraws k a.2
    (a.1 ++ b.1, b.2)

/-- An XTS key: two halves drawn separately that differ, a third draw taking the place of an equal second (R218). -/
def drawXts (s : State) : List Byte × State :=
  let a := drbgDraw s
  let b := drbgDraw a.2
  if a.1 = b.1 then
    let c := drbgDraw b.2
    (a.1 ++ c.1, c.2)
  else (a.1 ++ b.1, b.2)

/-! ### The key ladder (R116, R117) -/

def serialBytes : List Byte := leBytes 16 Config.chipSerial.toNat
/-- NR_dev. -/
def noiseRootDev : List Byte := kdf (leBytes 32 Config.hardwareKey.toNat) "XS64-NOISE-ROOT" serialBytes
/-- NR_rgn for an owner identity. -/
def noiseRoot (owner : List Byte) : List Byte := kdf noiseRootDev "XS64-OWNER-NOISE" owner
/-- K_rep for a region root and the RUN's seed bytes. -/
def repeatKey (root seed : List Byte) : List Byte := kdf root "XS64-REPEAT-KEY" seed

/-! ### Sources -/

def modSource (i : Fin 16) (f : Source → Source) (s : State) : State :=
  { s with noise := { s.noise with src := upd s.noise.src i f } }

/-- Has the present run or window of a source failed its test: no sample of it is conditioned (R100, R103)? -/
def Source.fails (x : Source) : Bool := decide (61 ≤ x.run) || decide (810 ≤ x.same)

/-- A source after one more sample (R100); `keep`: the sample may be conditioned (R101, R103). -/
def takeSample (b keep : Bool) (x : Source) : Source :=
  let run := if x.last = some b then x.run + 1 else 1
  let first := if x.count = 0 then b else x.first
  { x with samples := x.samples + 1, last := some b, run := run, stuck := x.stuck && x.last == some b, count := x.count + 1,
           first := first,
           same := (if x.count = 0 then 0 else x.same) + b2n (b == first), ones := x.ones + b2n b,
           winRun := max x.winRun (min run (x.count + 1)),
           gathered := if keep && decide (x.gathered.length < 40) then x.gathered ++ [b] else x.gathered }

/-- A raw sample of source `src` (R99-R102): sources run as long as the module is powered. A window of 1,024 samples and a run of
61 are dealt with before the next one. -/
def execRawSample (src : Fin 16) (b : Bool) (s : State) : Out :=
  let x := s.noise.src[src]
  if s.dev.powered ∧ x.count < 1024 ∧ (x.run < 61 ∨ x.stuck) then
    .next (modSource src (fun x =>
      let y := takeSample b s.noise.startupDone x
      if y.fails then { y with gathered := x.gathered } else y) s)
  else .next s

/-- Source n has failed (src_ok), and what it has gathered is not conditioned. -/
def failSource (n : Fin 16) (s : State) : State :=
  modSource n (fun x => { x with failed := true, gathered := [] })
    { s with noise := { s.noise with srcOk := s.noise.srcOk &&& ~~~((1 : BitVec 16) <<< n.val) } }

/-- A run of 61 identical samples: noise fails, in the source's start-up window or after it (R100, R108). -/
def execRepetitionCountFail (src : Fin 16) (s : State) : Out :=
  let x := s.noise.src[src]
  if 61 ≤ x.run ∧ x.stuck = false then
    .next (noiseFail (if x.passed then 3 else 1) src.val (failSource src (modSource src (fun x => { x with stuck := true }) s)))
  else .next s

/-- A source after its window of 1,024 samples. -/
def endWindow (x : Source) : Source :=
  { x with lastOnes := x.ones, maxRun := min 255 x.winRun, count := 0, same := 0, ones := 0, winRun := 0 }

/-- Source n passes its start-up window; with all sixteen, start-up testing is done (R101). -/
def passSource (n : Fin 16) (s : State) : State :=
  let s := modSource n (fun x => { x with passed := true }) s
  { s with noise := { s.noise with
      srcOk := s.noise.srcOk ||| ((1 : BitVec 16) <<< n.val),
      startupDone := s.noise.src.toList.all Source.passed } }

/-- A window of 1,024 samples ends: 810 or more samples equal to its first one fail it (R100, R101, R108). -/
def execAdaptiveWindowEnd (src : Fin 16) (s : State) : Out :=
  let x := s.noise.src[src]
  if x.count = 1024 then
    let s' := modSource src endWindow s
    if 810 ≤ x.same then
      .next (noiseFail (if x.passed then 4 else 2) src.val (failSource src s'))
    else if x.passed || x.failed then .next s'
    else .next (passSource src s')
  else .next s

/-- Forty samples as five bytes, the first in bit 7 of the first byte (R103). -/
def packSamples (bs : List Bool) : List Byte :=
  (pieces 8 5 bs).map fun p => BitVec.ofNat 8 (p.foldl (fun n b => 2 * n + b2n b) 0)

/-- A block of 640 samples is conditioned and held; of three the oldest gives way (R103). A run or window that has failed is dealt
with first. -/
def execConditionedBlock (s : State) : Out :=
  if s.dev.powered ∧ s.noise.startupDone ∧ s.noise.src.toList.all (fun x => decide (40 ≤ x.gathered.length) && (!x.fails || x.stuck)) then
    let block := sha256 (s.noise.src.toList.flatMap fun x => packSamples (x.gathered.take 40))
    .next { s with noise := { s.noise with
      held := (if s.noise.held.length < 2 then s.noise.held else s.noise.held.drop 1) ++ [block],
      src := s.noise.src.map fun x => { x with gathered := [] } } }
  else .next s

/-- The DRBG is instantiated from two blocks in start-up stage ENTROPY, when secure Criward has been measured, unless its
known-answer test fails (R104, R106, R108, Table 16-3); context 8 gets its key from it (R218; log entry 39). -/
def execDrbgInstantiate (drbgKat : Bool) (s : State) : Out :=
  if s.noise.state = .gathering ∧ s.dev.stage = .entropy ∧ s.noise.startupDone ∧ s.noise.held.length = 2 then
    if !drbgKat then .next (noiseFail 6 0 s)
    else
      let e := s.noise.held.flatten
      let kv := drbgInstantiate (e.take 48) (e.drop 48) (serialBytes ++ s.mkh.meas[0])
      let s := { s with noise := { s.noise with
        state := .ready, readyTn := s.tick.tn.toNat, held := [], reseeds := 0,
        drbg := some { key := kv.1, v := kv.2, requests := 0, ticks := 0 } } }
      let k := drawXts s
      .next (modCtx 8 (fun c => { c with key := some k.1, keyValid := true }) k.2)
  else .next s

/-- A due reseed consumes both held blocks, unless its known-answer test fails (R105, R108). -/
def execDrbgReseed (drbgKat : Bool) (s : State) : Out :=
  match s.noise.drbg with
  | none => .next s
  | some d =>
    if d.due ∧ s.noise.held.length = 2 then
      if !drbgKat then .next (noiseFail 6 0 s) else .next (reseed d s)
    else .next s

/-- The request for region r's next FRESH key is served (R105, R115). -/
def execDrbgGenerate (r : Fin 8) (s : State) : Out :=
  if s.noise.rgn[r].requested ∧ drbgServes s 1 then
    let d := drbgDraw s
    .next (modNoiseRgn r (fun x => { x with requested := false, nextKey := some d.1 }) d.2)
  else .next s

/-- The next FRESH key is staged in the shadow key registers of the ticking job's tiles (R115). -/
def execFreshKeyStaged (r : Fin 8) (s : State) : Out :=
  match s.noise.rgn[r].nextKey, s.herd.job[r].plan with
  | some k, some p =>
    .next (modNoiseRgn r (fun x => { x with nextKey := none, keyWait := false })
      (forEach p.tiles (fun h => modHerd h fun t => { t with shadowKey := some k }) s))
  | _, _ => .next s

end Sys2Proof.Machine
end

