-- ==== Sys2Proof/Machine/HerdCfg.lean ====
section
/-!
DEFINITION. What configures a Herd tile and its chains: the Herd configuration block and its checks (04_herd_arrays.md R73,
R74, R78, R79, R83, R90, R114), the annealing configuration block and the β schedule (06_annealing_low_states.md R122,
R123), colours and draw counts (R75, R90), the format area (R81, R82).
-/
namespace Sys2Proof.Machine

/-! ### The HCB (Table 4-2) -/

structure Hcb where
  s : Nat
  c : Nat
  rule : Nat
  format : Nat
  wide : Bool
  sh : Nat
  efrac : Nat
  pairFn : Bool
  tau : Nat
  k : Nat
  init : Nat
  slices : Nat
  nLog2 : Nat
  head : Bool
  parts : Nat
  first : Nat
  unitOfs : Nat
  gwLog2 : Nat
  kwHalf : Nat
  khHalf : Nat
  burnIn : Nat
  halo : List Nat
  emitBase : Nat
  emitEvery : Nat
  ringLog2 : Nat
  units : Nat
  chains : Nat
deriving DecidableEq, Repr

/-- Read an HCB; fields with an m1 suffix in Table 4-2 are read as their value plus 1. -/
def readHcb (b : List Byte) : Hcb :=
  let w0 := fieldAt b 0 4
  let w1 := fieldAt b 4 4
  let w4 := fieldAt b 16 4
  { s := bits w0 3 0 + 1, c := bits w0 6 4 + 1, rule := bits w0 8 7, format := bits w0 10 9, wide := bit w0 11,
    sh := bits w0 15 12, efrac := bits w0 19 16, pairFn := bit w0 20, tau := bits w0 24 21, k := bits w0 28 25 + 1,
    init := bits w0 30 29, slices := bits w1 6 0, nLog2 := bits w1 9 7 + 8, head := bit w1 10,
    parts := bits w1 16 11 + 1, first := fieldAt b 8 4, unitOfs := fieldAt b 12 4, gwLog2 := bits w4 3 0,
    kwHalf := bits w4 6 4, khHalf := bits w4 9 7, burnIn := fieldAt b 20 4,
    halo := (List.range 8).map fun i => fieldAt b (24 + 2 * i) 2, emitBase := fieldAt b 40 6,
    emitEvery := fieldAt b 46 2, ringLog2 := bits (fieldAt b 48 1) 4 0, units := fieldAt b 52 4,
    chains := fieldAt b 56 4 }

/-- Units per slice, n. -/
def Hcb.n (h : Hcb) : Nat := 2 ^ h.nLog2
/-- Unit slots in use. -/
def Hcb.slots (h : Hcb) : Nat := h.slices * h.n
/-- Potentials stored per unit (R78). -/
def Hcb.su (h : Hcb) : Nat := if h.s = 2 then 1 else h.s
/-- Bits per unit in a payload (R96). -/
def Hcb.bitsPer (h : Hcb) : Nat := if h.s = 2 then 1 else 4
/-- Payload bytes P of a sample record (R96). -/
def Hcb.payload (h : Hcb) : Nat := ceilDiv (h.units * h.bitsPer) 256 * 32
/-- Slot size of a sample record (R96). -/
def Hcb.slotSize (h : Hcb) : Nat := 32 + h.payload
/-- Draws per updated unit (Table 4-4). -/
def Hcb.drawsPer (h : Hcb) : Nat := if h.s = 2 then 1 else if h.rule = 0 then h.s else 2

/-- The listed bits of an HCB. -/
def hcbUsed : List (Nat × Byte) :=
  [(0, 0xFF), (1, 0xFF), (2, 0xFF), (3, 0x7F), (4, 0xFF), (5, 0xFF), (6, 0x01), (16, 0xFF), (17, 0x03), (48, 0x1F)]
    ++ span 8 8 ++ span 20 28 ++ span 52 8

/-- The checks of R79 on the HCB itself: encodings (Table 4-2), R74, R78, R83, R114. -/
def Hcb.ok (b : List Byte) (h : Hcb) : Bool :=
  decide (2 ≤ h.s) && decide (2 ≤ h.c) && decide (h.rule ≤ 1) && decide (h.format ≤ 2) && decide (h.init ≤ 2)
    && (!h.pairFn || decide (1 ≤ h.tau)) && decide (1 ≤ h.slices) && decide (h.slices ≤ 64)
    && decide (bits (fieldAt b 4 4) 9 7 ≤ 6) && decide (h.slots ≤ 16384)
    && (if h.slices = 1 then h.unitOfs % h.n == 0
        else h.unitOfs == 0 && h.head && h.parts == 1 && decide (h.units ≤ h.n))
    && decide (h.slots * h.su ≤ 131072) && (h.format != 2 || h.s == 2)
    && (h.format != 0 || decide (h.gwLog2 ≤ h.nLog2)) && decide (h.ringLog2 ≤ 20) && h.emitBase % 32 == 0
    && decide (256 ≤ h.units) && decide (1 ≤ h.chains) && decide (h.first < 2 ^ 24) && decide (h.unitOfs < 2 ^ 24)

/-! ### Colours (R75, R90) -/

/-- A nibble of an array in nibble order (Table 4-1). -/
def nib (m : Mem) (base j : Nat) : Nat :=
  let b := (memGet m (base + j / 2)).toNat
  if j % 2 = 0 then b % 16 else b / 16

/-- The state that a nibble of states or halo entries holds: of a binary unit bit 0 (R73). -/
def Hcb.stateAt (h : Hcb) (m : Mem) (base j : Nat) : Nat := if h.s = 2 then nib m base j % 2 else nib m base j

/-- The colours and frozen flags of the slots in use. -/
def colourMap (m : Mem) (slots : Nat) : List Nat := (List.range slots).map fun j => nib m 0x100000 j

/-- Is a unit of this colour nibble ever updated? -/
def updates (c col : Nat) : Bool := decide (col % 8 < c) && decide (col < 8)

/-- The draw count D (R90). -/
def drawCount (h : Hcb) (cols : List Nat) : Nat := (cols.filter fun x => updates h.c x).length * h.drawsPer

/-- The capacity rule of R90. -/
def capacityOk (h : Hcb) (cols : List Nat) : Bool := decide (drawCount h cols ≤ 16384 * h.k)

/-! ### The format area (R81, R82, R123, R130) -/

/-- Where the format area begins (Table 4-1). -/
def fmtBase : Nat := 0x105000

/-- Entries of the halo frame of a LATTICE slice (R81). -/
def Hcb.frame (h : Hcb) : Nat :=
  let gw := 2 ^ h.gwLog2
  (gw + 2 * h.kwHalf) * (h.n / gw + 2 * h.khHalf) - h.n

/-- The local address after the last byte of a tile's format data. -/
def formatEnd (h : Hcb) (m : Mem) : Nat :=
  match h.format with
  | 0 =>
    let kernel := (2 * h.khHalf + 1) * (2 * h.kwHalf + 1) * (if h.wide then 2 else 1)
    fmtBase + (if h.slices = 1 ∧ 0 < h.frame then 0xC00 + ceilDiv h.frame 8 else kernel)
  | 1 =>
    let e := if h.wide then 4 else 3
    (List.range h.slots).foldl (fun top j =>
      let w := memNum m (fmtBase + 4 * j) 4
      let n := min (bits w 30 24) 64
      if n = 0 then top else max top (fmtBase + 0x10000 + (bits w 23 0 + n) * e)) (fmtBase + 4 * h.slots)
  | _ => fmtBase + 4 * h.slots

/-! ### The ACB (Table 6-1) -/

structure Acb where
  count : Nat
  stallOn : Bool
  decayMode : Bool
  resetOnSwap : Bool
  resK : Nat
  stallFlips : Nat
  window : Nat
  step : Nat
  offsetMax : Nat
  betaMin : Nat
  decay : Nat
  schedBase : Nat
  resBase : Nat
  mergeK : Nat
  outBase : Nat
  limit : Nat
deriving DecidableEq, Repr

def readAcb (b : List Byte) : Acb :=
  let w := fieldAt b 0 4
  { count := bits w 8 0, stallOn := bit w 9, decayMode := bit w 10, resetOnSwap := bit w 11, resK := bits w 18 12,
    stallFlips := fieldAt b 4 4, window := fieldAt b 8 2, step := fieldAt b 10 2, offsetMax := fieldAt b 12 2,
    betaMin := fieldAt b 14 2, decay := fieldAt b 16 2, schedBase := fieldAt b 18 6, resBase := fieldAt b 24 6,
    mergeK := fieldAt b 30 2, outBase := fieldAt b 32 6, limit := fieldAt b 40 4 }

/-- The listed bits of an ACB. -/
def acbUsed : List (Nat × Byte) := [(0, 0xFF), (1, 0xFF), (2, 0x07)] ++ span 4 34 ++ span 40 4

/-- The encodings of an ACB (R123). -/
def Acb.ok (a : Acb) : Bool :=
  decide (1 ≤ a.count) && decide (a.count ≤ 256) && decide (a.resK ≤ 64) && (!a.stallOn || decide (1 ≤ a.window))
    && (!a.decayMode || decide (1 ≤ a.decay)) && a.schedBase % 8 == 0 && a.resBase % 32 == 0 && a.outBase % 32 == 0

/-- The schedule entries (t_i, β_i) in bytes (R123). -/
def readSched (bs : List Byte) (n : Nat) : List (Nat × Nat) :=
  (List.range n).map fun i => (fieldAt bs (8 * i) 6, fieldAt bs (8 * i + 6) 2)

/-- Are the t_i strictly ascending? -/
def ascending : List (Nat × Nat) → Bool
  | [] => true
  | [_] => true
  | a :: b :: r => decide (a.1 < b.1) && ascending (b :: r)

/-- The conditions of R123 on a schedule. -/
def schedOk (l : List (Nat × Nat)) : Bool := (l.head?.map Prod.fst) == some 0 && ascending l

end Sys2Proof.Machine
end

