-- ==== Sys2Proof/Machine/HerdMath.lean ====
section
/-!
DEFINITION. The arithmetic of a Herd tile (04_herd_arrays.md R75, R76, R81-R90; 05_noise.md R111-R113): the three tables,
fields and energies, the sampling rules, the draws of the noise stream, the update of one colour class.
-/
namespace Sys2Proof.Machine

/-! ### The tables (R87), in fixed point with 64 fraction bits -/

/-- Fixed-point one. -/
def fxOne : Nat := 2 ^ 64
/-- exp(-1/128). -/
def expStep : Nat := 0xFE01FEAB551127CB
/-- ln 2. -/
def ln2 : Nat := 0xB17217F7D1CF79AB

/-- b^n by squaring; `k` bounds the bits of n. -/
def fxPow : Nat → Nat → Nat → Nat → Nat
  | 0, _, _, acc => acc
  | k + 1, b, n, acc => fxPow k (b * b / fxOne) (n / 2) (if n % 2 = 1 then acc * b / fxOne else acc)

/-- exp(-k/128). -/
def expNeg (k : Nat) : Nat := fxPow 13 expStep k fxOne

/-- The sum of the odd powers y^(2i+1)/(2i+1). -/
def oddSeries : Nat → Nat → Nat → Nat → Nat → Nat
  | 0, _, _, _, acc => acc
  | k + 1, i, p, y2, acc => oddSeries k (i + 1) (p * y2 / fxOne) y2 (acc + p / (2 * i + 1))

/-- ln of a positive fixed-point number. -/
def fxLn (x : Nat) : Int :=
  let l := Nat.log2 x
  let m := if 64 ≤ l then x / 2 ^ (l - 64) else x * 2 ^ (64 - l)
  let y := (m - fxOne) * fxOne / (m + fxOne)
  2 * (oddSeries 24 0 y (y * y / fxOne) 0 : Int) + ((l : Int) - 64) * ln2

/-- Round to the nearest integer, ties away from zero. -/
def fxRound (v : Int) : Int := if 0 ≤ v then (v + 2 ^ 63) / 2 ^ 64 else -((-v + 2 ^ 63) / 2 ^ 64)

def logi (t : Nat) : Nat :=
  let e := expNeg (if 2048 ≤ t then t - 2048 else 2048 - t)
  let num := if 2048 ≤ t then fxOne else e
  min 65535 ((65536 * num * 2 + (fxOne + e)) / (2 * (fxOne + e)))
def met (d : Nat) : Nat := min 65535 ((65536 * expNeg d * 2 + fxOne) / (2 * fxOne))
def gumb (g : Nat) : Int := fxRound (-128 * fxLn ((-(fxLn ((2 * g + 1) * fxOne / 8192))).toNat))

/-! ### Neighbours (R81-R83) -/

/-- What a neighbour contributes with: weight, state, remote flag. -/
structure Term where
  w : Int
  state : Nat
  remote : Bool
deriving DecidableEq, Repr

/-- The signed number of `n` bytes at a local address. -/
def memInt (m : Mem) (a n : Nat) : Int := toSigned (8 * n) (memNum m a n)

/-- The number of a frame position: row-major, interior positions skipped (R81). -/
def frameIndex (gw gh kw kh x y : Nat) : Nat :=
  let before := min (y - kh) gh * gw + (if kh ≤ y ∧ y < kh + gh then min (x - kw) gw else 0)
  y * (gw + 2 * kw) + x - before

/-- The neighbours of a LATTICE unit in kernel order. A frame of more than 16,384 entries runs on: its valid bits into the remote
bitmap, its states into the send list (DESIGN CHOICE, log entry 91: R81 gives the two no more room). -/
def latticeTerms (h : Hcb) (m : Mem) (j : Nat) : List Term :=
  let gw := 2 ^ h.gwLog2
  let gh := h.n / gw
  let i := j / h.n
  let g := j % h.n
  let kw := 2 * h.kwHalf + 1
  let size := if h.wide then 2 else 1
  (List.range ((2 * h.khHalf + 1) * kw)).filterMap fun p =>
    let dx := p % kw
    let dy := p / kw
    if dx = h.kwHalf ∧ dy = h.khHalf then none else
    let w := memInt m (fmtBase + p * size) size
    let x := g % gw + dx
    let y := g / gw + dy
    if h.kwHalf ≤ x ∧ x < h.kwHalf + gw ∧ h.khHalf ≤ y ∧ y < h.khHalf + gh then
      some { w := w, state := h.stateAt m 0 (i * h.n + (y - h.khHalf) * gw + (x - h.kwHalf)), remote := false }
    else if h.slices ≠ 1 then none
    else
      let e := frameIndex gw gh h.kwHalf h.khHalf x y
      let flag (ofs : Nat) : Bool := bit (memGet m (fmtBase + ofs + e / 8)).toNat (e % 8)
      if flag 0x400 then some { w := w, state := h.stateAt m 0x102000 e, remote := flag 0xC00 } else none

/-- The neighbours of a SPARSE unit in list order. -/
def sparseTerms (h : Hcb) (m : Mem) (j : Nat) : List Term :=
  let w := memNum m (fmtBase + 4 * j) 4
  let size := if h.wide then 4 else 3
  (List.range (min (bits w 30 24) 64)).map fun k =>
    let e := memNum m (fmtBase + 0x10000 + (bits w 23 0 + k) * size) size
    let src := bits e 14 0
    { w := if h.wide then toSigned 16 (bits e 31 16) else toSigned 8 (bits e 23 16),
      state := if src < 16384 then h.stateAt m 0 src else h.stateAt m 0x102000 (src - 16384), remote := bit e 15 }

/-- The neighbours of a unit. -/
def termsOf (h : Hcb) (m : Mem) (j : Nat) : List Term :=
  match h.format with
  | 0 => latticeTerms h m j
  | 1 => sparseTerms h m j
  | _ => []

/-! ### Fields and energy (R85, R86) -/

/-- φ(s, t). -/
def phi (h : Hcb) (s t : Nat) : Int :=
  if h.s = 2 then (if s = 0 then 0 else (t : Int))
  else if h.pairFn then ((h.tau - min (if s ≤ t then t - s else s - t) h.tau : Nat) : Int)
  else if s = t then 1 else 0

/-- The unary potential of a unit for a state (R78). -/
def unaryOf (h : Hcb) (m : Mem) (active : Bool) (j s : Nat) : Int :=
  if h.s = 2 ∧ s = 0 then 0
  else memInt m (unaryBase active + 2 * (j * h.su + (if h.s = 2 then 0 else s))) 2

/-- The external field of a DENSE unit (R83). -/
def extOf (h : Hcb) (m : Mem) (j s : Nat) : Int := if h.format = 2 ∧ s = 1 then memInt m (fmtBase + 4 * j) 4 else 0

/-- A sum in int32 with saturation after each addition, and how many additions saturated. -/
def satSum (start : Int) (l : List Int) : Int × Nat :=
  l.foldl (fun a x => (satInt 32 (a.1 + x), a.2 + b2n (!inInt 32 (a.1 + x)))) (start, 0)

/-- A field: h_j(s), h'_j(s), and the saturations of h. -/
structure Field where
  h : Int
  own : Int
  sats : Nat
deriving DecidableEq, Repr

/-- The field of unit j for state s (R85). -/
def fieldOf (h : Hcb) (m : Mem) (active : Bool) (terms : List Term) (j s : Nat) : Field :=
  if h.s = 2 ∧ s = 0 then { h := 0, own := 0, sats := 0 } else
  let a := unaryOf h m active j s * 2 ^ h.sh
  let x := if h.format = 2 then [extOf h m j s] else []
  let all := satSum a ((terms.map fun t => t.w * phi h s t.state) ++ x)
  let own := satSum a (((terms.filter fun t => !t.remote).map fun t => t.w * phi h s t.state) ++ x)
  { h := all.1, own := own.1, sats := all.2 }

/-- Add to Q, which saturates at the int40 bounds. -/
def addQ (d : Int) (x : Slice) : Slice :=
  { x with q := satInt 40 (x.q + d), energySat := x.energySat || !inInt 40 (x.q + d) }

/-- The term of slot j in the initial Q (R86). -/
def initTerm (h : Hcb) (m : Mem) (active : Bool) (j : Nat) : Int :=
  let s := h.stateAt m 0 j
  2 * unaryOf h m active j s * 2 ^ h.sh
    + (((termsOf h m j).filter fun t => !t.remote).map fun t => t.w * phi h s t.state).sum + extOf h m j s

/-! ### The sampling rules (R87, R88) -/

/-- idx(e) (R88). The product is formed without a bound on its width (DESIGN CHOICE, log entry 93). -/
def idx (beta efrac : Nat) (e : Int) : Int := ((beta : Int) * e + 2 ^ efrac) / 2 ^ (efrac + 1)

def clampInt (lo hi x : Int) : Int := max lo (min hi x)

/-- Heat-bath: the new state of a binary unit. -/
def heatBath (beta efrac : Nat) (h1 : Int) (u : Nat) : Nat :=
  let t := (clampInt (-2048) 2047 (idx beta efrac h1) + 2048).toNat
  if u < logi t then 1 else 0

/-- Gumbel-max: the state with the highest score, the lowest of equals. -/
def gumbelMax (beta efrac : Nat) (fs : List Int) (us : List Nat) : Nat :=
  let scores := (fs.zip us).map fun p => clampInt (-32768) 32767 (idx beta efrac p.1) + gumb (p.2 / 16)
  (scores.zipIdx.foldl (fun best x => match best with
    | none => some x
    | some b => if b.1 < x.1 then some x else some b) none).elim 0 Prod.snd

/-- The Metropolis proposal. -/
def proposal (s states u0 : Nat) : Nat :=
  if states = 2 then 1 - s else (s + 1 + (u0 * (states - 1)) / 65536) % states

/-- Is a Metropolis proposal with energy change ΔE accepted on the draw u? -/
def accepts (beta efrac : Nat) (dE : Int) (u : Nat) : Bool :=
  let d := idx beta efrac dE
  decide (dE ≤ 0) || (decide (0 ≤ d) && decide (d ≤ 4095) && decide (u < met d.toNat))

/-! ### Draws (R89, R111, R112) -/

/-- The counter block of a word (Table 5-1). -/
def counterBlock (jt first unitOfs word : Nat) : List Byte :=
  beBytes 6 jt ++ [0x01] ++ beBytes 3 first ++ beBytes 2 (unitOfs / 256) ++ [0, 0] ++ beBytes 2 word

/-- The eight lanes of a word. -/
def lanes (key : List Byte) (jt first unitOfs word : Nat) : List Nat :=
  let b := aes256 key (counterBlock jt first unitOfs word)
  (List.range 8).map fun l => (b.getD (2 * l) 0).toNat * 256 + (b.getD (2 * l + 1) 0).toNat

/-- `n` draws from number q on. -/
def drawsFrom (key : List Byte) (jt first unitOfs q n : Nat) : List Nat :=
  (((List.range (ceilDiv (q % 8 + n) 8)).flatMap fun i => lanes key jt first unitOfs (q / 8 + i)).drop (q % 8)).take n

/-! ### The update of a colour class (R75, R76, R88) -/

/-- Put a nibble of an array in nibble order. -/
def putNib (m : Mem) (base j v : Nat) : Mem :=
  let b := (memGet m (base + j / 2)).toNat
  memPut m (base + j / 2) (BitVec.ofNat 8 (if j % 2 = 0 then b / 16 * 16 + v % 16 else b % 16 + v % 16 * 16))

/-- What the update of one unit changes. -/
structure UnitUpdate where
  slot : Nat
  old : Nat
  new : Nat
  dQ : Int
  sats : Nat
deriving DecidableEq, Repr

/-- Update unit j with its draws, on the memory as it stood when its class began. -/
def updateUnit (h : Hcb) (m : Mem) (active : Bool) (beta j : Nat) (us : List Nat) : UnitUpdate :=
  let s := h.stateAt m 0 j
  let terms := termsOf h m j
  let fs := (List.range h.s).map fun x => fieldOf h m active terms j x
  let f (x : Nat) : Field := fs.getD x { h := 0, own := 0, sats := 0 }
  let new :=
    if h.rule = 1 then
      let p := proposal s h.s (us.getD 0 0)
      if accepts beta h.efrac ((f s).h - (f p).h) (us.getLastD 0) then p else s
    else if h.s = 2 then heatBath beta h.efrac (f 1).h (us.getD 0 0)
    else gumbelMax beta h.efrac (fs.map Field.h) us
  { slot := j, old := s, new := new, dQ := 2 * ((f s).own - (f new).own), sats := (fs.map Field.sats).sum }

/-- The slots that class c updates, ascending (R75). -/
def classSlots (cols : List Nat) (h : Hcb) (c : Nat) : List Nat :=
  (cols.zipIdx.filter fun x => x.1 == c && decide (c < h.c)).map Prod.snd

/-- The updates of class c of a tile. -/
def classUpdates (t : HerdTile) (c : Nat) : List UnitUpdate :=
  let h := readHcb t.hcb
  let js := classSlots t.colours h c
  let us := drawsFrom (t.key.getD []) t.sweepJt h.first h.unitOfs t.nextDraw (js.length * h.drawsPer)
  js.zipIdx.map fun p =>
    updateUnit h t.mem t.activeUnary (t.betaEff.getD (p.1 / h.n) 0) p.1 ((us.drop (p.2 * h.drawsPer)).take h.drawsPer)

/-- Book one unit's update on its slice. -/
def bookUnit (u : UnitUpdate) (x : Slice) : Slice :=
  let x := addQ u.dQ x
  { x with flipsNow := x.flipsNow + b2n (u.old != u.new), fieldSat := x.fieldSat || decide (0 < u.sats) }

/-- A tile after class c: new states, Q, flips, saturations, and the draws consumed. -/
def updateClass (c : Nat) (t : HerdTile) : HerdTile :=
  let h := readHcb t.hcb
  let us := classUpdates t c
  { t with
    mem := us.foldl (fun m u => putNib m 0 u.slot u.new) t.mem,
    slices := us.foldl (fun l u => l.modify (u.slot / h.n) (bookUnit u)) t.slices,
    fieldSat := us.foldl (fun n u => satAdd 16 n u.sats) t.fieldSat,
    nextDraw := t.nextDraw + us.length * h.drawsPer, cls := c, waits := false, haloFlits := 0 }

/-- Q of every slice at the end of the initialisation tick (R86). -/
def initQ (t : HerdTile) : HerdTile :=
  let h := readHcb t.hcb
  let total (i : Nat) : Int := ((List.range h.n).map fun j => initTerm h t.mem t.activeUnary (i * h.n + j)).sum
  { t with slices := t.slices.zipIdx.map fun x => addQ (-(total x.2)) { x.1 with q := 0 } }

end Sys2Proof.Machine
end

