-- ==== Sys2Proof/Machine/Anneal.lean ====
section
/-!
DEFINITION. Annealing (06_annealing_low_states.md): the β schedule (R124, R125), the annealing update of a chain (R126-R128),
the state hash (R129), the reservoir (R130, R131) and the merged output (R135).
-/
namespace Sys2Proof.Machine

/-! ### β (R124, R125) -/

/-- β between two breakpoints, rounded half toward +∞ (R124). -/
def betaBetween (a b : Nat × Nat) (jt : Nat) : Nat :=
  let d := (b.1 : Int) - a.1
  ((a.2 : Int) + (2 * ((b.2 : Int) - a.2) * ((jt : Int) - a.1) + d) / (2 * d)).toNat

/-- β_sched at a job-relative tick (R124). -/
def betaSched : List (Nat × Nat) → Nat → Nat
  | [], _ => 0
  | [a], _ => a.2
  | a :: b :: r, jt => if jt < b.1 then betaBetween a b jt else betaSched (b :: r) jt

/-- β_eff of a chain (R125). -/
def betaEff (a : Acb) (sched offset : Nat) : Nat := max a.betaMin (sched - offset)

/-! ### The annealing update (R126-R128) -/

/-- A chain at the start of an attempt (R137). -/
def freshChain (g : Nat) : Chain :=
  { idx := g, best := 2 ^ 63 - 1, quiet := 0, offset := 0, decaying := false, grow := 0, beta := 0, sweeps := 0, res := [],
    shown := { offset := 0, decaying := false, quiet := 0, grow := 0, best := 0 } }

/-- Quiet sweeps and growth (R126, R128). -/
def stallStep (a : Acb) (improved : Bool) (flips : Nat) (c : Chain) : Chain × Bool :=
  if improved then
    (if a.decayMode then { c with quiet := 0, decaying := true } else { c with quiet := 0, offset := 0 }, false)
  else if flips < a.stallFlips then
    let q := c.quiet + 1
    if a.window ≤ q then
      ({ c with offset := min a.offsetMax (c.offset + a.step), quiet := 0, decaying := false, grow := satInc 16 c.grow }, true)
    else ({ c with quiet := q }, false)
  else ({ c with quiet := 0 }, false)

/-- The decay of an offset (R126). -/
def decayStep (a : Acb) (grew : Bool) (c : Chain) : Chain :=
  if c.decaying && !grew then
    let o := c.offset - a.decay
    { c with offset := o, decaying := o != 0 }
  else c

/-- The annealing update of one chain after a completed sweep, but for its reservoir offer (R126). -/
def annealUpdate (a : Acb) (energy : Int) (energySat : Bool) (flips : Nat) (c : Chain) : Chain :=
  let improved := !energySat && decide (energy < c.best)
  let c := if improved then { c with best := energy } else c
  if !a.stallOn then c
  else
    let r := stallStep a improved flips c
    decayStep a r.2 r.1

/-- The registers show what a completed update leaves (R140). -/
def Chain.show (c : Chain) : Chain :=
  { c with shown := { offset := c.offset, decaying := c.decaying, quiet := c.quiet, grow := c.grow, best := c.best } }

/-! ### The state hash (R129) -/

def mixWord (v i : W64) : W64 :=
  let x := v ^^^ (i * 0x9E3779B97F4A7C15)
  let x := (x ^^^ (x >>> 30)) * 0xBF58476D1CE4E5B9
  let x := (x ^^^ (x >>> 27)) * 0x94D049BB133111EB
  x ^^^ (x >>> 31)

/-- H of a payload; a word that no slice covers counts as zero, as the payload holds it. -/
def stateHash (payload : List Byte) : W64 :=
  ((pieces 8 (payload.length / 8) payload).zipIdx.map fun p =>
    mixWord (BitVec.ofNat 64 (ofLe p.1)) (BitVec.ofNat 64 p.2)).foldl (· ^^^ ·) 0

/-! ### The reservoir (R130, R131) -/

/-- Reservoir order: energy, then H, both ascending. -/
def resBefore (e : Int) (h : W64) (x : ResEntry) : Bool := decide (e < x.energy) || (e == x.energy && h.ult x.hash)

/-- Insert an entry in reservoir order. -/
def resInsert (n : ResEntry) : List ResEntry → List ResEntry
  | [] => [n]
  | x :: r => if resBefore n.energy n.hash x then n :: x :: r else x :: resInsert n r

/-- The lowest-numbered free state slot. -/
def freeSlot (k : Nat) (l : List ResEntry) : Nat :=
  ((List.range k).find? fun j => !l.any fun x => x.slot == j).getD 0

/-- What a reservoir offer does (R131). -/
inductive Offered where
  | nothing
  | duplicate
  | inserted (slot : Nat) (res : List ResEntry)
deriving DecidableEq, Repr

/-- reservoir_offer (R131), for a sweep w ≥ burn_in. -/
def resOffer (k w : Nat) (e : Int) (h : W64) (energySat : Bool) (l : List ResEntry) : Offered :=
  if k = 0 ∨ energySat ∨ inInt 40 e = false then .nothing
  else if l.any (fun x => x.hash == h) then .duplicate
  else
    let new (j : Nat) : ResEntry := { energy := e, hash := h, sweep := w % 2 ^ 32, slot := j, valid := false }
    if l.length < k then
      let j := freeSlot k l
      .inserted j (resInsert (new j) l)
    else match l.getLast? with
      | some x => if resBefore e h x then .inserted x.slot (resInsert (new x.slot) l.dropLast) else .nothing
      | none => .nothing

/-- A reservoir entry in its chain's index (R130). -/
def resEntryBytes (x : ResEntry) : List Byte :=
  leBytes 8 (ofSigned 64 x.energy) ++ leBytes 8 x.hash.toNat ++ leBytes 4 x.sweep
    ++ leBytes 1 (x.slot % 64 + b2n x.valid * 64) ++ List.replicate 11 0

/-- Where slice i's index begins. -/
def resIndexBase (i : Nat) : Nat := 0x1FE000 - 0x800 * (i + 1)

/-- Show a chain's reservoir in the index of slice i of its head tile. -/
def showRes (i : Nat) (l : List ResEntry) (t : HerdTile) : HerdTile :=
  { t with mem := memWrite (memZero t.mem (resIndexBase i) 0x800) (resIndexBase i) (l.flatMap resEntryBytes) }

/-! ### The merge (R135) -/

/-- An entry gathered for the merge. -/
structure Gathered where
  energy : Int
  hash : W64
  chain : Nat
  sweep : Nat
  slot : Nat
deriving DecidableEq, Repr

def Gathered.before (a b : Gathered) : Bool :=
  decide (a.energy < b.energy) || (a.energy == b.energy && (a.hash.ult b.hash || (a.hash == b.hash &&
    (decide (a.chain < b.chain) || (a.chain == b.chain && decide (a.sweep < b.sweep))))))

def insertGathered (n : Gathered) : List Gathered → List Gathered
  | [] => [n]
  | x :: r => if n.before x then n :: x :: r else x :: insertGathered n r

/-- Step 1: every valid entry of every chain. -/
def gather (cs : List Chain) : List Gathered :=
  cs.flatMap fun c => (c.res.filter ResEntry.valid).map fun x =>
    { energy := x.energy, hash := x.hash, chain := c.idx, sweep := x.sweep, slot := x.slot }

/-- Step 3: the first entry of each H. -/
def firstOfHash : List Gathered → List W64 → List Gathered
  | [], _ => []
  | x :: r, seen => if seen.contains x.hash then firstOfHash r seen else x :: firstOfHash r (x.hash :: seen)

/-- Steps 2-4: the entries kept. -/
def mergeKept (k : Nat) (cs : List Chain) : List Gathered :=
  (firstOfHash ((gather cs).foldl (fun l x => insertGathered x l) []) []).take k

/-- An output entry (Table 6-2). -/
def mergeEntryBytes (x : Gathered) : List Byte :=
  leBytes 8 (ofSigned 64 x.energy) ++ leBytes 8 x.hash.toNat ++ leBytes 4 x.chain ++ leBytes 4 x.sweep ++ List.replicate 8 0

end Sys2Proof.Machine
end

