-- ==== Sys2Proof/Machine/Mesh.lean ====
section
/-!
DEFINITION. The mesh and the Rim (03_mesh_regions_rim.md R47-R52, R56, R59-R61, R64, R66; 10_memory_host_link.md R231,
R232): the arrival of VC0 flits, of VC1-VC3 packets and of Rim flits, with the walls between regions, and the staging
buffers of the edge tiles.
-/
namespace Sys2Proof.Machine

/-- The number of a link direction: 4·(16·y + x) + port. -/
def linkIdx (d : LinkDir) : Nat := 4 * (16 * d.y + d.x) + portCode d.port

/-- The region tag of an interior tile. -/
def tileTag (s : State) (x y : Nat) : Option (Fin 8) := if interior x y then s.mesh.tag[mbOf x y] else none

/-- The tag of a link direction: the common tag of its ends, or the tag of a row-to-edge link's interior end (R66). -/
def linkTag (s : State) (l : Nat) : Option (Fin 8) :=
  let x := l / 4 % 16
  let y := l / 64
  let e := linkEnd l
  if !interior x y then tileTag s e.1 e.2
  else if !interior e.1 e.2 then tileTag s x y
  else if tileTag s x y == tileTag s e.1 e.2 then tileTag s x y else none

/-- The active slot-table entries of a link direction: those of the region whose tag it carries (R53). -/
def activeEntries (s : State) (l : Fin 768) : List SlotEnt :=
  match linkTag s l.val with
  | some n => if s.rgn.rgn[n].activeBank then s.mesh.links[l].bank1 else s.mesh.links[l].bank0
  | none => []

/-- The VC0 flits that the active entries of a link direction can send in one tick (R50). -/
def vc0Room (s : State) (l : Fin 768) : Nat := ((activeEntries s l).map SlotEnt.flits).sum

/-- The tick ends: each CCLK of an entry whose buffer was empty has been given away and is counted (R56), and slots are
counted from the new tick on. -/
def countVc0Empty (s : State) : State :=
  { s with
    mesh := { s.mesh with links := Vector.ofFn fun l =>
      let k := s.mesh.links[l]
      { k with vc0Empty := satAdd 16 k.vc0Empty (vc0Room s l - k.vc0Sent), vc0Sent := 0, vc0Slot := 0, vc0InSlot := 0,
               vc0 := k.vc0.map fun h => { h with ready := 0 } } },
    rim := { s.rim with used := [], held := s.rim.held.map fun h => { h with ready := 0 } } }

/-- The started ticking job of region n. -/
def tickJobOf (s : State) (n : Fin 8) : Option Job := s.jobs.find? fun j => j.ref.r == n && j.tick && j.started

/-- What a router finds before it takes a flit: a double-bit error, or a tag that differs from the link's (R48, R66). -/
inductive Admit where
  | take | lost
deriving DecidableEq, Repr

/-- Check a flit that reaches the far end of link l: SECDED, then the wall; a lost flit is a region-level error of the
link's region. On a link of no region it is recorded in no region's log (DESIGN CHOICE, log entry 98). -/
def admitFlit (l : Fin 768) (tag : Nat) (ecc : Ecc) (s : State) : Admit × State :=
  let e := linkEnd l.val
  let site : Site := { x := e.1, y := e.2, engine := 7, detail := 0 }
  let t := linkTag s l.val
  match ecc with
  | .double =>
    (.lost, match t with
      | some n => regionError n .meshUe site none s
      | none => s)
  | _ =>
    let s := if ecc = .single then modLink l (fun x => { x with ceCount := satInc 16 x.ceCount }) s else s
    if t.map Fin.val = some tag then (.take, s)
    else
      let s := modLink l (fun x => { x with wallDrop := satInc 16 x.wallDrop }) s
      (.lost, match t with
        | some n => regionError n .wallDrop site none s
        | none => s)

/-! ### VC0: sources (R50, R51, R84) -/

/-- The payload of a VC0 flit beside its 8 header bytes (R84). -/
def vc0Bytes : Nat := 120

/-- Bytes cut into flit payloads: (offset, bytes). -/
def chunks (data : List Byte) : List (Nat × List Byte) :=
  ((pieces vc0Bytes (ceilDiv data.length vc0Bytes) data).zipIdx).map fun p => (vc0Bytes * p.2, p.1)

/-- A tile's flits enter its local VC0 source, from which slot-table entries take them. -/
def pushVc0 (p : Nat × Nat) (fs : List Vc0Flit) (s : State) : State :=
  { s with mesh := { s.mesh with src := upd s.mesh.src (tileIdx p.1 p.2) fun q => q ++ fs } }

/-- The entry that may send a flit on link direction l in a slot (R50 step 1): the active one of that slot, not idle, with a
CCLK left; slots do not go backwards within a tick. -/
def entryAt (s : State) (l : Fin 768) (slot : Nat) : Option SlotEnt :=
  let k := s.mesh.links[l]
  ((activeEntries s l).find? fun e => e.slot == slot && e.src != 0).filter fun e =>
    decide (k.vc0Slot ≤ slot) && (k.vc0Slot != slot || decide (k.vc0InSlot < e.flits))

/-- The flit that an entry of region n finds at the head of the buffer it names, in a slot of the tick (R50, R51). -/
def vc0Head (s : State) (x y src : Nat) (n : Fin 8) (slot : Nat) : Option Vc0Flit :=
  if src = 5 then s.mesh.src[tileIdx x y].find? fun f => f.tag == n.val
  else match inLink x y src with
    | some i => ((s.mesh.links[i].vc0.head?).filter fun h => decide (h.ready ≤ slot)).map Vc0Held.flit
    | none => none

/-- That flit leaves its buffer. -/
def takeVc0 (x y src : Nat) (f : Vc0Flit) (s : State) : State :=
  if src = 5 then { s with mesh := { s.mesh with src := upd s.mesh.src (tileIdx x y) fun q => q.erase f } }
  else match inLink x y src with
    | some i => modLink i (fun k => { k with vc0 := k.vc0.tail }) s
    | none => s

/-! ### Staging buffers (R231, R232, R366) -/

/-- One part of write `id` of region n is visible, or discarded; a masked write is forgotten with its last part. -/
def endPart (n : Fin 8) (id : Nat) (dropped : Bool) (s : State) : State :=
  modTickJob n (fun t => { t with writes := (t.writes.map fun w =>
    if w.id == id then { w with left := w.left - 1, dropped := w.dropped || dropped } else w).filter fun w =>
      !(w.masked && w.left == 0) }) s

/-- Bytes in an emit staging buffer. -/
def stagedBytes (l : List Staged) : Nat := (l.map fun x => x.data.length).sum

/-- A part of a record reaches the emit staging buffer at ring position p; a full one discards and counts it (R231, R232). -/
def stageEmit (n : Fin 8) (p : Fin 24) (x : Staged) (s : State) : State :=
  if stagedBytes (s.rim.staging[n])[p] + x.data.length ≤ 32768 then
    { s with rim := { s.rim with staging := upd s.rim.staging n fun v => upd v p fun q => q ++ [x] } }
  else endPart n x.id true (modCtx (ctxOf n) (fun c => { c with emitDrop := satInc 32 c.emitDrop }) s)

/-- Bytes of ring block `bid` reach the staging buffer at ring position p (R366). -/
def stageBlock (n : Fin 8) (p : Fin 24) (bid : Nat) (data : List Byte) (s : State) : State :=
  let put (l : List (Fin 24 × Nat × List Byte)) : List (Fin 24 × Nat × List Byte) :=
    if l.any fun b => b.1 == p && b.2.1 == bid then
      l.map fun b => if b.1 == p && b.2.1 == bid then (p, bid, b.2.2 ++ data) else b
    else l ++ [(p, bid, data)]
  { s with rim := { s.rim with blocks := upd s.rim.blocks n put } }

/-! ### VC0: arrival (R51, R56) -/

/-- Store external fields, one int32 per slot (R83). -/
def storeFields (i : Fin 64) (vals : List (Nat × Int)) (s : State) : State :=
  forEach vals (fun v s =>
    if v.1 < 16384 then localWrite (.herd i) (0x105000 + 4 * v.1) (leBytes 4 (ofSigned 32 v.2)) s else s) s

/-- Deliver a VC0 flit of region n to its destination's sink (R51, R84, R154, R155, R231, R366, R370): the halo area or the
external fields of a Herd tile, the state window of an Ibex tile, the memory of a Chamois tile that a ring block is for, the
region's staging buffers in an edge tile. What a send list addresses to a tile without a halo area or window reaches nothing
(DESIGN CHOICE, log entry 92). -/
def deliverVc0 (n : Fin 8) (x y : Nat) (load : Vc0Load) (s : State) : State :=
  if !interior x y then
    match load with
    | .emit id addr masked data => stageEmit n (entryTile x y) { id := id, addr := addr, masked := masked, data := data } s
    | .ring bid data => stageBlock n (entryTile x y) bid data s
    | _ => s
  else
  let exchanged (i : Fin 64) (s : State) : State := modHerd i (fun t => { t with haloFlits := t.haloFlits + 1 }) s
  match unitAt x y, load with
  | .herd i, .halo ofs data => exchanged i (localWrite (.herd i) (0x102000 + ofs) data s)
  | .herd i, .field vals => exchanged i (storeFields i vals s)
  | .herd i, .deliver a data => exchanged i (localWrite (.herd i) a data s)
  | .ibex i, .halo ofs data =>
    modIbex i (fun t => { t with windowFlits := t.windowFlits + 1 }) (localWrite (.ibex i) (0xFE000 + ofs) data s)
  | .cham c, .deliver a data => localWrite (.cham c) a data s
  | _, _ => s

/-- A flit that finds its buffer full is discarded and counted, and faults the region's ticking job (R56). -/
def overflowVc0 (l : Fin 768) (n : Fin 8) (s : State) : State :=
  let e := linkEnd l.val
  let s := modLink l (fun k => { k with vc0Overflow := satInc 16 k.vc0Overflow }) s
  match tickJobOf s n with
  | some j => settle n (jobError j.ref .vc0Overflow { x := e.1, y := e.2, engine := 7, detail := 0 } s)
  | none => s

/-- A flit of region n sent in a slot reaches the router at the far end of link direction l: delivered at its destination, else
into the input's buffer, from where it may be forwarded in the next slot (R51). -/
def arriveVc0 (l : Fin 768) (n : Fin 8) (slot : Nat) (f : Vc0Flit) (s : State) : State :=
  let e := linkEnd l.val
  if e = (f.dx, f.dy) then deliverVc0 n e.1 e.2 f.load s
  else if s.mesh.links[l].vc0.length < 32 then
    modLink l (fun k => { k with vc0 := k.vc0 ++ [{ flit := f, ready := slot + 1 }] }) s
  else overflowVc0 l n s

/-- VC0_FLIT_ARRIVAL (R50, R51, R56, R66): the next flit of the active entry of a slot; where its buffer is empty nothing
crosses. A flit that no entry sends crosses no link (R14); one let through by misbehaving hardware meets the wall. -/
def execVc0FlitArrival (d : LinkDir) (f : Vc0Arrival) (ecc : Ecc) (s : State) : Out :=
  if h : linkIdx d < 768 then
    let l : Fin 768 := ⟨linkIdx d, h⟩
    if !onDie d.x d.y || !linkExists l.val then .next s else
    match f with
    | .stray f => if (linkTag s l.val).map Fin.val = some f.tag then .next s else .next (admitFlit l f.tag ecc s).2
    | .planned slot =>
      match linkTag s l.val, entryAt s l slot with
      | some n, some e =>
        match vc0Head s d.x d.y e.src n slot with
        | none => .next s
        | some f =>
          let s := modLink l (fun k => { k with
            vc0Sent := k.vc0Sent + 1, vc0Slot := slot, vc0InSlot := if k.vc0Slot = slot then k.vc0InSlot + 1 else 1 })
            (takeVc0 d.x d.y e.src f s)
          let a := admitFlit l f.tag ecc s
          match a.1 with
          | .lost => .next a.2
          | .take => .next (settle n (arriveVc0 l n slot f a.2))
      | _, _ => .next s
  else .next s

/-! ### VC1-VC3 (R49, R50, R52) -/

/-- Flits that a buffer of VC1, VC2 or VC3 holds at most (Table 3-1). -/
def vcRoom : Vc → Nat
  | .vc1 => 32 | .vc2 => 32 | .vc3 => 8
/-- Has an input buffer room for a packet? -/
def Link.hasRoom (k : Link) (p : MeshPacket) : Bool :=
  decide (((k.vc.filter fun q => q.vc == p.vc).map MeshPacket.flits).sum + p.flits ≤ vcRoom p.vc)

/-- The port by which a packet leaves tile (x, y): along its row to the destination column, then along that column (R52). -/
def nextPort (x y dx dy : Nat) : Option Port :=
  if x < dx then some .e else if dx < x then some .w else if y < dy then some .s else if dy < y then some .n else none

/-- May a tile send a packet of its own: between an interior tile and the Rim by the row-to-edge link of the interior tile's row
(R52); the device context only from an edge tile on VC3, with flits tagged for a region (R66)? -/
def packetOk (x y : Nat) (p : MeshPacket) : Bool :=
  (p.ctx != 8 || (p.vc == .vc3 && !interior x y)) &&
    if interior x y then interior p.dx p.dy || edgeXY (entryTile x y) == (p.dx, p.dy)
    else interior p.dx p.dy && edgeXY (entryTile p.dx p.dy) == (x, y)

/-- The packet that an input of tile (x, y) offers a port on a channel: the oldest of its buffer, or the tile's own. -/
def offer (s : State) (x y : Nat) (port : Port) (own : Option MeshPacket) (vc : Vc) (i : Fin 5) : Option MeshPacket :=
  let p := if i = 4 then own.filter fun p => p.vc == vc && packetOk x y p
    else match inLink x y (i.val + 1) with
      | some l => (s.mesh.links[l].vc.filter fun p => p.vc == vc).head?
      | none => none
  p.filter fun p => nextPort x y p.dx p.dy == some port

/-- The index of a channel in `served`. -/
def vcIdx : Vc → Fin 3
  | .vc1 => 0 | .vc2 => 1 | .vc3 => 2

/-- The packet that an output sends next (R50 steps 2 and 3): VC3, then VC1, then VC2, among the packets that the receiving
buffer has room for; within a channel round-robin over the inputs N, E, S, W, local after the one served last. -/
def nextPacket (s : State) (d : LinkDir) (l : Fin 768) (own : Option MeshPacket) : Option (Fin 5 × MeshPacket) :=
  let k := s.mesh.links[l]
  [Vc.vc3, Vc.vc1, Vc.vc2].findSome? fun vc =>
    (List.range 5).findSome? fun i =>
      let i : Fin 5 := Fin.ofNat 5 (k.served[vcIdx vc].val + 1 + i)
      ((offer s d.x d.y d.port own vc i).filter k.hasRoom).map fun p => (i, p)

/-- A packet leaves the input buffer that offered it. -/
def takePacket (x y : Nat) (i : Fin 5) (p : MeshPacket) (s : State) : State :=
  match inLink x y (i.val + 1) with
  | some l => modLink l (fun k => { k with vc := k.vc.erase p }) s
  | none => s

/-- MESH_PACKET_ARRIVAL (R49, R50, R52): the packet that the output sends next reaches the far end of its link. -/
def execMeshPacketArrival (d : LinkDir) (own : Option MeshPacket) (ecc : Ecc) (s : State) : Out :=
  if h : linkIdx d < 768 then
    let l : Fin 768 := ⟨linkIdx d, h⟩
    if !onDie d.x d.y || !linkExists l.val then .next s else
    match nextPacket s d l own with
    | none => .next s
    | some (i, p) =>
      let s := modLink l (fun k => { k with served := upd k.served (vcIdx p.vc) fun _ => i }) (takePacket d.x d.y i p s)
      let a := admitFlit l p.tag ecc s
      match a.1 with
      | .lost => .next a.2
      | .take =>
        let e := linkEnd l.val
        .next (serveHeld e.1 e.2 (modLink l (fun k => { k with vc := k.vc ++ [p] }) a.2))
  else .next s

/-! ### The Rim (R59-R61, R64, R231) -/

/-- Does a transfer from ring position p to q go counter-clockwise: the shorter way, clockwise when both are equal (R59)? -/
def goesCcw (p q : Fin 24) : Bool := decide (12 < (q - p).val)

/-- The Rim unit that a lane-slot belongs to: unit u is lane u div 8 in the slots with the phase of u mod 8, the three bits of
u mod 8 reversed (R60, Table 3-3). -/
def rimUnit (lane : Fin 4) (slot : Nat) : Fin 32 := Fin.ofNat 32 (8 * lane.val + bitRev 3 (slot % 8))

/-- The Rim tile that serves a place: its HBM port, its Store tile, or the Host tile (Table 1-2, 18). -/
def placeTile : Place → Fin 24
  | .host _ => hostTile
  | .shut => hostTile
  | .dev pa _ => match hbmFrame (pa >>> 21) with
    | some (k, _) => [2, 9, 21, 14].getD k 2
    | none => [1, 3, 8, 10, 22, 20, 15, 13].getD ((pa >>> 21) % 32 / 4) 1

/-- Has the buffer of a context and direction at a ring position room for a flit (R61)? -/
def rimRoom (s : State) (p : Fin 24) (ccw : Bool) (c : Fin 9) : Bool :=
  decide ((s.rim.held.filter fun h => h.pos == p && h.ccw == ccw && h.flit.ctx == c).length < 32)

/-- A Rim flit is at its destination: a record's part is written (R231), of a masked write no byte (R265). -/
def landRim (f : RimFlit) (s : State) : State :=
  match f.load with
  | .other _ => s
  | .write id place masked data =>
    let n : Fin 8 := Fin.ofNat 8 f.ctx.val
    let bad := writeFails s place data.length
    let s := endPart n id false (if masked then s else writePlace place data s)
    let p := edgeXY f.dest
    settle n (if bad then
      match tickJobOf s n with
      | some j => memError j.ref (0, tagCause) { x := p.1, y := p.2, engine := 9, detail := 0 } s
      | none => noteFault n (0, tagCause) { x := p.1, y := p.2, engine := 9, detail := 0 } s
    else s)

/-- A flit enters its first Rim tile at ring position p, if its buffer has room; none leaves the tile that it is for. -/
def enterRim (p : Fin 24) (f : RimFlit) (s : State) : Option State :=
  if f.dest = p then some (landRim f s)
  else
    let ccw := goesCcw p f.dest
    if rimRoom s p ccw f.ctx then
      some { s with rim := { s.rim with held := s.rim.held ++ [{ pos := p, ccw := ccw, ready := 0, flit := f }] } }
    else none

/-- The oldest part of region r's emit staging buffer at ring position p is translated there and enters the Rim, cut at a page
boundary; a part whose translation faults is discarded and faults the ticking job (R211, R212, R231). -/
def emitRim (r : Fin 8) (p : Fin 24) (s : State) : State :=
  match (s.rim.staging[r])[p] with
  | [] => s
  | x :: rest =>
    let setHead (l : List Staged) (s : State) : State :=
      { s with rim := { s.rim with staging := upd s.rim.staging r fun v => upd v p fun _ => l } }
    let k := min x.data.length (2 ^ 21 - x.addr % 2 ^ 21)
    match translate s p (ctxOf r) x.addr true with
    | .error e =>
      let s := latchFault (ctxOf r) x.addr e (endPart r x.id true (setHead rest s))
      match tickJobOf s r with
      | some j => settle r (jobError j.ref .translation { x := (edgeXY p).1, y := (edgeXY p).2, engine := 8, detail := e } s)
      | none => s
    | .ok place =>
      let f : RimFlit := { ctx := ctxOf r, dest := placeTile place, load := .write x.id place x.masked (x.data.take k) }
      let more := k < x.data.length
      let tail := if more then { x with addr := x.addr + k, data := x.data.drop k } :: rest else rest
      let s' := if more then modTickJob r (fun t => { t with writes := t.writes.map fun w =>
          if w.id == x.id then { w with left := w.left + 1 } else w }) s else s
      (enterRim p f (setHead tail s')).getD s

/-- A flit crosses a segment in a lane-slot: only of the context that owns the lane-slot's unit, at most 16 flits in one
lane-slot, a flit of the sending tile's buffer that may leave by now, into room at the next tile (R60, R61, R64). -/
def crossRim (seg : Fin 24) (ccw : Bool) (lane : Fin 4) (slot : Nat) (ecc : Ecc) (s : State) : State :=
  let d : Fin 48 := Fin.ofNat 48 (2 * seg.val + b2n ccw)
  let from_ : Fin 24 := if ccw then seg + 1 else seg
  let next : Fin 24 := if ccw then seg else seg + 1
  let key := 800 * d.val + 4 * slot + lane.val
  let sent := ((s.rim.used.find? fun u => u.1 == key).map Prod.snd).getD 0
  match (s.rim.owner[d])[rimUnit lane slot] with
  | none => s
  | some c =>
    match s.rim.held.find? fun h => h.pos == from_ && h.ccw == ccw && h.flit.ctx == c && decide (h.ready ≤ slot) with
    | none => s
    | some h =>
      if 200 ≤ slot ∨ 16 ≤ sent ∨ !(h.flit.dest == next || rimRoom s next ccw c) then s else
      let s := { s with rim := { s.rim with
        held := s.rim.held.erase h, used := (key, sent + 1) :: s.rim.used.filter fun u => u.1 != key } }
      match ecc with
      | .double =>
        let p := edgeXY next
        deviceError .rimUe { x := p.1, y := p.2, engine := 8, detail := 0 } 15 0 s
      | _ =>
        let s := if ecc = .single then { s with rim := { s.rim with ceCount := upd s.rim.ceCount d (satInc 16) } } else s
        if h.flit.dest = next then landRim h.flit s
        else { s with rim := { s.rim with held := s.rim.held ++ [{ h with pos := next, ready := slot + 1 }] } }

/-- RIM_FLIT_ARRIVAL (R59-R61, R64, R231): a flit enters the Rim, staged records ahead of a region's other traffic, or crosses a
segment. -/
def execRimFlitArrival (m : RimMove) (ecc : Ecc) (s : State) : Out :=
  match m with
  | .enter p c dest bytes =>
    let first := decide (c.val < 8) && !((s.rim.staging[Fin.ofNat 8 c.val])[p]).isEmpty
    if first then .next s else .next ((enterRim p { ctx := c, dest := dest, load := .other bytes } s).getD s)
  | .emit r p => .next (emitRim r p s)
  | .cross seg ccw lane slot => .next (crossRim seg ccw lane slot ecc s)

end Sys2Proof.Machine
end

