-- ==== Sys2Proof/Machine/Herd.lean ====
section
/-!
DEFINITION. The ticking job on the Herd: the initialisation tick (04_herd_arrays.md R94, R90), sweeps and their classes (R80,
R84; 05_noise.md R113, R115; 16 R381), the budget check and what it emits (02_pennant_tick.md R25-R30; 04 R95-R97; 10
R231, R232), annealing and the reservoir (06 R126-R133), the end of ticking and the merge (R134-R136).
-/
namespace Sys2Proof.Machine

/-! ### Memory of a job -/

/-- A write of a job's unit e to a device address: a translation fault is latched and faults the job (R212). -/
def jobWrite (k : JobRef) (e : Eng) (a : Nat) (data : List Byte) (s : State) : State :=
  let r := writeDev (engEntry e) (ctxOf k.r) a data s
  match r.2 with
  | none => r.1
  | some f => memError k f (engSite e 0) r.1

/-- A read of a job's unit e from a device address. -/
def jobRead (k : JobRef) (e : Eng) (a n : Nat) (s : State) : List Byte × State :=
  let r := readDev s (engEntry e) (ctxOf k.r) a n
  match r.2 with
  | none => (r.1, s)
  | some f => (r.1, memError k f (engSite e 0) s)

/-- The ticking job of region n, if it is not stopped. -/
def sweepingJob (s : State) (n : Fin 8) : Option Job := (tickJobOf s n).filter Job.firing

/-! ### The send list (R84) -/

structure SendEnt where
  src : Nat
  dst : Nat
  lx : Nat
  ly : Nat
  len : Nat
  after : Nat
  last : Bool
deriving DecidableEq, Repr

def readSend (w : Nat) : SendEnt :=
  { src := bits w 12 0, dst := bits w 25 13, lx := bits w 29 26, ly := bits w 33 30, len := bits w 44 34 + 1,
    after := bits w 47 45, last := bit w 48 }

/-- The entries of a tile's send list, up to its end (at most 512). -/
def sendList (m : Mem) : Nat → List SendEnt
  | 0 => []
  | k + 1 =>
    let e := readSend (memNum m (0x104000 + 8 * (511 - k)) 8)
    if e.last then [e] else e :: sendList m k

/-- Is an entry for a ring block (R366)? -/
def SendEnt.ring (e : SendEnt) : Bool := e.ly == 15

/-- Does an entry of region r name only unit states that are backed, and a receiver's bytes in its halo area or window (R77)? One
that runs past the halo area, or names a tile outside the region, is treated as an unbacked address (DESIGN CHOICE, log entry
92). -/
def SendEnt.ok (r : Region) (e : SendEnt) : Bool :=
  decide (e.src + e.len ≤ 0x2000) && (e.ring || (decide (e.dst + e.len ≤ 0x2000) && r.holds e.lx e.ly))

/-- Copy an entry of the tile to itself into its own halo area (R84). -/
def copySelf (e : SendEnt) (t : HerdTile) : HerdTile :=
  { t with mem := memWrite t.mem (0x102000 + e.dst) (memRead t.mem e.src e.len),
           haloFlits := t.haloFlits + ceilDiv e.len 120 }

/-- The flits of an entry: for its receiving tile, or as part of a ring block for the staging buffer where the tile's row meets
the Rim (R84, R366). -/
def entFlits (n : Fin 8) (r : Region) (h : Fin 64) (m : Mem) (e : SendEnt) : List Vc0Flit :=
  let d := if e.ring then edgeXY (engEntry (.herd h)) else physXY r e.lx e.ly
  (chunks (memRead m e.src e.len)).map fun p =>
    { tag := n.val, dx := d.1, dy := d.2, load := if e.ring then .ring e.lx p.2 else .halo (e.dst + p.1) p.2 }

/-- The tile sends its entries for class c, in list order: those to itself are copied at once, the others enter its VC0 source,
from which the tick plan's entries take them; an unbacked address is a descriptor fault of the job (R77, R84). -/
def sendClass (n : Fin 8) (h : Fin 64) (c : Nat) (s : State) : State :=
  let r := s.rgn.rgn[n]
  let es := (sendList s.herd.tile[h].mem 512).filter fun e => e.after == c
  let s := forEach (es.filter (SendEnt.ok r)) (fun e s =>
    if (e.lx, e.ly) == logicalOf r (.herd h) then modHerd h (copySelf e) s
    else pushVc0 (engXY (.herd h)) (entFlits n r h s.herd.tile[h].mem e) s) s
  if es.all (SendEnt.ok r) then s
  else match sweepingJob s n with
    | some j => jobError j.ref .descriptor (engSite (.herd h) 2) s
    | none => s

/-! ### Chains -/

/-- A slice of a chain: its tile, its number there, and the tile's HCB. -/
structure Part where
  tile : Fin 64
  i : Nat
  cfg : Hcb
deriving DecidableEq, Repr

/-- The tiles of region n's active tick plan. -/
def planTiles (s : State) (n : Fin 8) : List (Fin 64) :=
  match s.herd.job[n].plan with
  | some p => p.tiles
  | none => []

/-- The active HCB of a tile. -/
def cfgOf (s : State) (h : Fin 64) : Hcb := readHcb s.herd.tile[h].hcb

/-- Every slice of region n's ticking job. -/
def allParts (s : State) (n : Fin 8) : List Part :=
  (planTiles s n).flatMap fun h => (List.range (cfgOf s h).slices).map fun i => { tile := h, i := i, cfg := cfgOf s h }

/-- The job chain index of a slice. -/
def Part.chain (p : Part) : Nat := p.cfg.first + p.i

/-- The slices of chain g. -/
def chainParts (s : State) (n : Fin 8) (g : Nat) : List Part := (allParts s n).filter fun p => p.chain == g

/-- The chains of region n's ticking job, ascending. -/
def chainIds (s : State) (n : Fin 8) : List Nat :=
  (allParts s n).foldl (fun l p => if l.contains p.chain then l else
    l.takeWhile (· < p.chain) ++ [p.chain] ++ l.dropWhile (· < p.chain)) []

/-- The head slice of a chain: on the tile that holds chain unit 0. -/
def headOf (ps : List Part) : Option Part := ps.find? fun p => p.cfg.head

/-- The head of a chain all of whose tiles take part: it receives its energy partials (R97). -/
def completeHead (ps : List Part) : Option Part := (headOf ps).filter fun p => decide (p.cfg.parts ≤ ps.length)

/-- The slice of a chain with the lowest units here. -/
def lowestOf (ps : List Part) : Option Part :=
  ps.foldl (fun best p => match best with
    | none => some p
    | some b => if p.cfg.unitOfs < b.cfg.unitOfs then some p else some b) none

/-- The slice that stands for a chain's part in this module: its head, or where chain unit 0 lies on another module the slice with
the lowest units (R139; DESIGN CHOICE, log entry 102). -/
def leadOf (ps : List Part) : Option Part := (headOf ps).orElse fun _ => lowestOf ps

/-- The slice that runs a chain's annealing update and reservoir: a complete head, or the lead of a part without one (R139). -/
def annealHead (ps : List Part) : Option Part := match headOf ps with | some _ => completeHead ps | none => lowestOf ps

def sliceOf (s : State) (p : Part) : Slice :=
  s.herd.tile[p.tile].slices.getD p.i { flips := 0, flipsNow := 0, q := 0, fieldSat := false, energySat := false }

/-- Bytes of states, one bit or one nibble per unit (R96). -/
def packStates (binary : Bool) (l : List Nat) : List Byte :=
  let k := if binary then 8 else 2
  (pieces k (ceilDiv l.length k) l).map fun p =>
    BitVec.ofNat 8 (p.zipIdx.map fun x => if binary then (x.1 % 2) * 2 ^ x.2 else (x.1 % 16) * 16 ^ x.2).sum

/-- Where a slice's states begin in a payload. -/
def Part.ofs (p : Part) : Nat := p.cfg.unitOfs * p.cfg.bitsPer / 8

/-- The part of a payload that a slice writes: below P, with chain units U and beyond as zeros (R96). -/
def partBytes (s : State) (p : Part) : List Byte :=
  let l := (s.herd.tile[p.tile].captured.drop (p.i * p.cfg.n)).take p.cfg.n
  let l := l.zipIdx.map fun x => if p.cfg.unitOfs + x.2 < p.cfg.units then x.1 else 0
  (packStates (p.cfg.s == 2) l).take (p.cfg.payload - p.ofs)

/-- The payload of a chain, with zeros where no slice covers it (R96). -/
def chainPayload (s : State) (hd : Part) (ps : List Part) : List Byte :=
  (ps.foldl (fun b p => splice b p.ofs (partBytes s p)) (List.replicate hd.cfg.payload 0)).take hd.cfg.payload

/-- The 32-byte blocks of a payload that no slice covers, as stretches (offset, bytes). -/
def gaps (s : State) (hd : Part) (ps : List Part) : List (Nat × Nat) :=
  let bare := ((List.range (hd.cfg.payload / 32)).map (32 * ·)).filter fun o =>
    !ps.any fun p => decide (p.ofs ≤ o) && decide (o < p.ofs + (partBytes s p).length)
  (bare.foldl (fun l o => match l with
    | g :: rest => if g.1 + g.2 = o then (g.1, g.2 + 32) :: rest else (o, 32) :: l
    | [] => [(o, 32)]) []).reverse

/-- What a chain's tiles write of a payload: (tile, offset, bytes); the head tile writes the zeros (R96). -/
def payloadParts (s : State) (hd : Part) (ps : List Part) : List (Fin 64 × Nat × List Byte) :=
  (ps.map fun p => (p.tile, p.ofs, partBytes s p)) ++ (gaps s hd ps).map fun g => (hd.tile, g.1, List.replicate g.2 0)

/-- The flits of one part of write `id`, for the emit staging buffer where the tile's row meets the Rim (R231). -/
def partFlits (n : Fin 8) (id base : Nat) (masked : Bool) (p : Fin 64 × Nat × List Byte) : List Vc0Flit :=
  let d := edgeXY (engEntry (.herd p.1))
  (chunks p.2.2).map fun c => { tag := n.val, dx := d.1, dy := d.2, load := .emit id (base + p.2.1 + c.1) masked c.2 }

/-- Parts of a payload for a device address leave on the VC0 emit entries as one write, whose number is answered (R132, R231,
R265). -/
def sendPayload (n : Fin 8) (base : Nat) (masked : Bool) (parts : List (Fin 64 × Nat × List Byte)) (s : State) : Nat × State :=
  let id := s.herd.job[n].nextWrite
  let s := forEach parts (fun p => pushVc0 (engXY (.herd p.1)) (partFlits n id base masked p)) s
  (id, modTickJob n (fun t => { t with
    nextWrite := id + 1,
    writes := t.writes ++ [{ id := id, left := (parts.map fun p => (partFlits n id base masked p).length).sum, dropped := false,
                             masked := masked }] }) s)

/-- A write of region n that is complete: every part is visible or discarded (R132, R232). -/
def doneWrite (s : State) (n : Fin 8) (id : Nat) : Option PartWrite :=
  s.herd.job[n].writes.find? fun w => w.id == id && w.left == 0

/-- The write is booked off. -/
def endWrite (n : Fin 8) (id : Nat) (s : State) : State :=
  modTickJob n (fun t => { t with writes := t.writes.filter fun w => w.id != id }) s

/-- The chain energy: floor(ΣQ / 2) (R86). -/
def chainEnergy (s : State) (ps : List Part) : Int := ((ps.map fun p => (sliceOf s p).q).sum) / 2
def chainFlips (s : State) (ps : List Part) : Nat := (ps.map fun p => (sliceOf s p).flips).sum
def chainEnergySat (s : State) (ps : List Part) : Bool := ps.any fun p => (sliceOf s p).energySat
def chainFieldSat (s : State) (ps : List Part) : Bool := ps.any fun p => (sliceOf s p).fieldSat

/-- Every reservoir index of region n's job is emptied: it lies in the chain's head tile, and with res_k = 0 there is none
(R130, R137). -/
def emptyIndexes (n : Fin 8) (s : State) : State :=
  if (readAcb s.anl.rgn[n].acb).resK = 0 then s
  else forEach ((chainIds s n).filterMap fun g => leadOf (chainParts s n g)) (fun p => modHerd p.tile (showRes p.i [])) s

/-! ### The initialisation tick (R94, R90) -/

/-- The states of a tile for its HCB's init; loaded states ≥ S become S - 1 and are counted; a binary unit's bits [3:1] are 0
(R73, R94). -/
def initStates (t : HerdTile) : HerdTile :=
  let h := readHcb t.hcb
  match h.init with
  | 0 => { t with mem := (List.range h.slots).foldl (fun m j => putNib m 0 j (h.stateAt m 0 j)) t.mem }
  | 1 => { t with mem := memZero t.mem 0 0x2000 }
  | _ =>
    let bad := (List.range h.slots).filter fun j => decide (h.s ≤ nib t.mem 0 j)
    { t with mem := bad.foldl (fun m j => putNib m 0 j (h.s - 1)) t.mem, loadClamp := satAdd 16 t.loadClamp bad.length }

/-- A tile takes its shadow image and begins an attempt: counters 0, colours and D latched, states set (R53, R90, R94, R98). -/
def initTile (t : HerdTile) : HerdTile :=
  let h := readHcb t.shadow
  let cols := colourMap t.mem h.slots
  initStates { t with
    hcb := t.shadow, shadow := t.hcb, cfgBank := !t.cfgBank, state := .init, sweepDone := false, doneCclk := 0, doneTn := 0, cls := 0,
    draws := drawCount h cols, colours := cols, haloFlits := 0, nextDraw := 0, sweepJt := 0, betaEff := [], key := none,
    shadowKey := none, captured := [], stale := false, waits := false, sweeps := 0, fieldSat := 0, loadClamp := 0,
    records := 0,
    slices := List.replicate h.slices { flips := 0, flipsNow := 0, q := 0, fieldSat := false, energySat := false } }

/-- Initialise a tile of region n's job: the recount of R90 and the format area of R77 may fault the attempt; the tile then runs
its send list for every class, 0 to C - 1. -/
def initHerd (n : Fin 8) (k : JobRef) (h : Fin 64) (s : State) : State :=
  let s := modHerd h initTile s
  let t := s.herd.tile[h]
  let c := readHcb t.hcb
  let s := if capacityOk c t.colours then s else jobError k .descriptor (engSite (.herd h) 1) s
  let s := if formatEnd c t.mem ≤ 0x1FE000 then s else jobError k .descriptor (engSite (.herd h) 2) s
  forEach (List.range c.c) (sendClass n h) s

/-- Swap the slot-table banks of region n (R53). -/
def swapBanks (n : Fin 8) (s : State) : State := modRgn n (fun r => { r with activeBank := !r.activeBank }) s

/-- The keys of an attempt (R115-R117): FRESH draws K_0 or requests it; REPEATABLE derives K_rep. What the DRBG or the ladder
cannot serve yet is made when noise is READY. -/
def startKeys (n : Fin 8) (pkt : List Byte) (s : State) : State :=
  let tiles := planTiles s n
  let stage (k : List Byte) (s : State) : State := forEach tiles (fun h => modHerd h fun t => { t with shadowKey := some k }) s
  let s := modNoiseRgn n (fun x => { x with mode := if modeNoise pkt = 1 then 2 else 1, keyWait := false, keyIndex := 0,
                                            log2I := s.noise.freshLog2, requested := false, nextKey := none }) s
  if modeNoise pkt = 1 then
    if s.noise.state = .ready then stage (repeatKey ((s.noise.rgn[n].root).getD []) (runSeed pkt)) s else s
  else if drbgServes s 1 then
    let d := drbgDraw s
    stage d.1 d.2
  else modNoiseRgn n (fun x => { x with requested := true }) s

/-- The stream of a tick plan is registered (R363, R365, R370, Table 15-7). -/
def registerStream (p : Plan) (shut : Bool) (x : RingRgn) : RingRgn :=
  { x with
    stream := p.stream, sealed := shut && p.stream != 0, keyOk := false, key := none, nextKey := none, keyIndex := 0,
    sent := 0, recv := Vector.replicate 16 0, staleTick := false, stale := if p.stream = 0 then x.stale else 0,
    bufs := p.ins.map fun e => { newest := none, last := (0, List.replicate e.len 0), coming := [] } }

/-- Start the ticking of a job at CCLK 0 of its first tick: the shadow-context swap and the initialisation tick (R53, R94,
R122, R137, R156, R317, R365). -/
def startTicking (n : Fin 8) (j : Job) (s : State) : State :=
  let old := s.herd.job[n]
  match old.shadow with
  | none => s
  | some p =>
    let s := modTickRgn n (fun t => { t with ticking := true, continuing := false, consec := 0 }) s
    let s := modTickJob n (fun _ => { TickJob.reset with
      plan := some p, init := true, emitNo := if j.epoch = 0 then 0 else old.emitNo, nextWrite := old.nextWrite,
      lastTiles := p.tiles }) s
    let s := modPwrRgn n (fun x => { x with ticked := true }) (swapBanks n s)
    let s := forEach p.fields (fun i => modIbex i fun x => { x with
      fieldRsv := some n, windowFlits := 0,
      admitted := x.admitted && (match x.queue with | d :: _ => d.job == j.ref | [] => false) }) s
    let s := modAnl n (fun a => { a with active := true, schedBank := false, acb := p.acb, sched := p.sched, merging := false,
                                         betaSched := 0, chains := [], dup := 0, merged := 0, chainSelPf := 0, chainSelVf := 0 }) s
    let s := modRingRgn n (registerStream p (ctxSealed s (ctxOf n))) s
    let s := forEach p.tiles (initHerd n j.ref) s
    let s := modAnl n (fun a => { a with chains := (chainIds s n).map freshChain }) s
    let s := emptyIndexes n s
    startKeys n j.pkt s

/-! ### The start of a sweep (R92, R93, R113, R115, R124, R125, R381) -/

/-- The FRESH key interval of a job-relative tick. -/
def keyInterval (x : NoiseRgn) (jt : Nat) : Nat := jt / 2 ^ x.log2I

/-- Does a sweep at jt need a new key on a tile? -/
def needsKey (x : NoiseRgn) (jt : Nat) (t : HerdTile) : Bool := t.key.isNone || (x.mode == 1 && keyInterval x jt != x.keyIndex)

/-- REPEATABLE keys that could not be derived at the start of the attempt. -/
def lateRepeatKey (n : Fin 8) (pkt : List Byte) (s : State) : State :=
  if s.noise.rgn[n].mode = 2 then
    forEach (planTiles s n) (fun h => modHerd h fun t =>
      if t.key.isNone && t.shadowKey.isNone then
        { t with shadowKey := some (repeatKey ((s.noise.rgn[n].root).getD []) (runSeed pkt)) } else t) s
  else s

/-- The keys of a sweep that begins at jt: a tile whose interval begins takes its shadow key, and the next key is requested
(R115). -/
def takeKeys (n : Fin 8) (jt : Nat) (s : State) : State :=
  let x := s.noise.rgn[n]
  let tiles := (planTiles s n).filter fun h => needsKey x jt s.herd.tile[h]
  if tiles.isEmpty then s else
  let s := forEach tiles (fun h => modHerd h fun t => { t with key := t.shadowKey, shadowKey := none }) s
  modNoiseRgn n (fun x => { x with keyIndex := keyInterval x jt, requested := x.mode == 1 }) s

/-- The reset of R133, when an evidence swap takes effect with reset_on_swap = 1. -/
def resetOnSwap (n : Fin 8) (s : State) : State :=
  if (readAcb s.anl.rgn[n].acb).resetOnSwap then
    let s := modAnl n (fun a => { a with chains := a.chains.map fun c =>
      { c with best := 2 ^ 63 - 1, quiet := 0, offset := 0, decaying := false, res := [] } }) s
    emptyIndexes n (modTickJob n (fun t => { t with pending := [] }) s)
  else s

/-- The swap that a tile waits to take: the last one latched, else the one held back. -/
def HerdTile.dueSwap (t : HerdTile) : Option Bool := t.swap.orElse fun _ => t.held

/-- A swap takes effect on a tile (R43). -/
def applySwap (t : HerdTile) : HerdTile :=
  match t.dueSwap with
  | some b => { t with activeUnary := b, swap := none, held := none }
  | none => t

/-- Does a tile's swap name the buffer that is not active? One that names the active buffer changes nothing (19 Corners). -/
def swapChanges (t : HerdTile) : Bool := t.dueSwap.any fun b => b != t.activeUnary

/-- Swaps take effect on tiles of region n's job; one that changes a buffer ends a group in progress (R43, R45, R133). -/
def takeSwaps (n : Fin 8) (due : List (Fin 64)) (s : State) : State :=
  let changes := due.any fun h => swapChanges s.herd.tile[h]
  let s := forEach due (fun h => modHerd h applySwap) s
  if !changes then s else
  let s := if s.herd.job[n].active then
      forEach (planTiles s n) (fun h => modHerd h fun x => { x with state := .idle, sweepDone := false, waits := false })
        (modTickJob n (fun t => { t with active := false, groupTick := 0 }) s)
    else s
  resetOnSwap n s

/-- A fresh sweep of the job: its jt, its β, its keys; a swap that has waited for it takes effect (R27). -/
def beginSweep (n : Fin 8) (s : State) : State :=
  let s := takeSwaps n ((planTiles s n).filter fun h => s.herd.tile[h].held.isSome) s
  let jt := s.herd.job[n].jt + 1
  let a := s.anl.rgn[n]
  let b := betaSched a.sched jt
  let s := forEach (planTiles s n) (fun h => modHerd h fun t => { t with sweepDone := false }) s
  let s := modAnl n (fun a => { a with
    betaSched := b, chains := a.chains.map fun c => { c with beta := betaEff (readAcb a.acb) b c.offset } }) s
  modTickJob n (fun t => { t with jt := jt, part := .sweep, active := true, groupTick := 0, holds := false }) (takeKeys n jt s)

/-- Slot 25 for region n's job: a continuation or a group goes on; a fresh sweep begins, or the job holds for noise, for a key
or for the ramp. -/
def openSweep (n : Fin 8) (j : Job) (s : State) : State :=
  let t := s.herd.job[n]
  if t.late then modTickJob n (fun t => { t with part := .sweep }) s
  else if t.active then modTickJob n (fun t => { t with part := .sweep, jt := t.jt + 1 }) s
  else if s.noise.state ≠ .ready then modTickJob n (fun t => { t with holds := true }) s
  else
    let s := lateRepeatKey n j.pkt s
    let x := s.noise.rgn[n]
    if (planTiles s n).any fun h => needsKey x (t.jt + 1) s.herd.tile[h] && s.herd.tile[h].shadowKey.isNone then
      modNoiseRgn n (fun x => { x with keyWait := true }) (modTickJob n (fun t => { t with holds := true }) s)
    else if s.pwr.rgn[n].level < 16 then s
    else beginSweep n (modNoiseRgn n (fun x => { x with keyWait := false }) s)

/-- Update a class of a tile and send its entries (R75, R84); format data out of the format area is a descriptor fault (R77). -/
def runClass (n : Fin 8) (h : Fin 64) (c : Nat) (s : State) : State :=
  let t := s.herd.tile[h]
  if formatEnd (readHcb t.hcb) t.mem ≤ 0x1FE000 then sendClass n h c (modHerd h (updateClass c) s)
  else match sweepingJob s n with
    | some j => jobError j.ref .descriptor (engSite (.herd h) 2) s
    | none => s

/-- A tile begins its part of a fresh sweep; class 0 waits for the exchange flits of the sweep before (R80), counted since its
last class began; where R45 ended the group before its last class, since the class that had begun (DESIGN CHOICE, log entry
90). -/
def startTile (n : Fin 8) (h : Fin 64) (s : State) : State :=
  let job := s.herd.job[n]
  let cs := s.anl.rgn[n].chains
  let c := cfgOf s h
  let beta (g : Nat) : Nat := match cs.find? (fun x => x.idx == g) with
    | some x => x.beta
    | none => 0
  let ready := job.w == 0 || decide (c.halo.getD (c.c - 1) 0 ≤ s.herd.tile[h].haloFlits)
  let s := modHerd h (fun t => { t with
    state := .sweeping, nextDraw := 0, sweepJt := job.jt, betaEff := (List.range c.slices).map fun i => beta (c.first + i),
    cls := 0, waits := !ready,
    slices := t.slices.map fun x => { x with flipsNow := 0, fieldSat := false } }) s
  if ready then runClass n h 0 s else s

/-- The region whose ticking job names Herd tile h. -/
def sweepRegion (s : State) (h : Fin 64) : Option (Fin 8) :=
  match engRegion s (.herd h) with
  | some n => if s.tick.rgn[n].ticking && (planTiles s n).contains h then some n else none
  | none => none

/-- Slot 25 at Herd tile h (R26, R92, R93, R113, R115, R381, R384): a fresh sweep starts, an unfinished one resumes, or the
tile holds. -/
def execSweepStart (h : Fin 64) (s : State) : Out :=
  match sweepRegion s h with
  | none => .next s
  | some n =>
    match sweepingJob s n with
    | none => .next s
    | some j =>
      let t := s.herd.job[n]
      if t.init || t.excluded || t.part == .emit || s.pwr.tile[Fin.ofNat 192 ((engXY (.herd h)).2 * 16 + (engXY (.herd h)).1)].cut then
        .next s
      else
        let s := if t.part = .ingest then openSweep n j s else s
        let x := s.herd.tile[h]
        if s.herd.job[n].part ≠ .sweep then
          .next (if s.herd.job[n].holds then modHerd h (fun x => { x with state := .waiting }) s else s)
        else if x.state = .sweeping ∨ x.sweepDone then .next s
        else .next (settle n (startTile n h s))

/-- Herd tile h begins its next colour class once it has received the exchange flits of the class before (R80). -/
def execClassBegin (h : Fin 64) (s : State) : Out :=
  match sweepRegion s h with
  | none => .next s
  | some n =>
    let t := s.herd.tile[h]
    let c := cfgOf s h
    if s.herd.job[n].part ≠ .sweep ∨ t.state ≠ .sweeping then .next s
    else if t.waits then
      if c.halo.getD (c.c - 1) 0 ≤ t.haloFlits then .next (settle n (runClass n h 0 s)) else .next s
    else if t.cls + 1 < c.c ∧ c.halo.getD t.cls 0 ≤ t.haloFlits then .next (settle n (runClass n h (t.cls + 1) s))
    else .next s

/-- Herd tile h has updated its last class, at CCLK offset `cclk` of tick `tn` (02 R25, R30; 04 R91). -/
def finishTile (tn cclk : Nat) (t : HerdTile) : HerdTile :=
  { t with state := .idle, sweepDone := true, doneTn := tn, doneCclk := cclk }

/-- A tile's sample is captured and its sweep counted, in the Emit phase of the tick that completes it (R93, R95). -/
def captureTile (t : HerdTile) : HerdTile :=
  let h := readHcb t.hcb
  { t with sweeps := t.sweeps + 1, captured := (List.range h.slots).map fun j => h.stateAt t.mem 0 j,
           slices := t.slices.map fun x => { x with flips := x.flipsNow } }

/-- Herd tile h raises sweep_done at CCLK offset `cclk` (R25, R91). -/
def execSweepDone (h : Fin 64) (cclk : Nat) (s : State) : Out :=
  let t := s.herd.tile[h]
  if (sweepRegion s h).isSome ∧ t.state = .sweeping ∧ t.waits = false ∧ t.cls + 1 = (cfgOf s h).c ∧ cclk < Config.tickCclk then
    .next (modHerd h (finishTile s.tick.tn.toNat cclk) s)
  else .next s

/-! ### Records (R96, R97, R231, R232) -/

/-- The slot address of chain g's record t, and its count word's address (R97). -/
def recordAddr (h : Hcb) (g t : Nat) : Nat := h.emitBase + ((t * h.chains + g) % 2 ^ h.ringLog2) * h.slotSize
def countAddr (h : Hcb) (g : Nat) : Nat := h.emitBase + 2 ^ h.ringLog2 * h.slotSize + 8 * g

/-- The flags of a record (Table 4-5). Those of a SKIP record that tell of a sample, ENERGY_SAT, STALE and FIELD_SAT, are 0 (DESIGN
CHOICE, log entry 95). -/
def recordFlags (s : State) (j : Job) (hd : Part) (ps : List Part) (w : Nat) (late skip : Bool) : Nat :=
  b2n (decide (w < hd.cfg.burnIn)) + b2n late * 2 + b2n skip * 4 + b2n (decide (1 ≤ j.epoch)) * 8
    + b2n (!skip && chainEnergySat s ps) * 16 + b2n (!skip && ps.any fun p => s.herd.tile[p.tile].stale) * 32
    + b2n (!skip && chainFieldSat s ps) * 64

/-- Chain g writes a record, or a SKIP record, in emission t: its tiles send their parts; the header follows, where the chain's
head tile has all its partials (R97). -/
def emitChain (j : Job) (g t w : Nat) (late skip : Bool) (s : State) : State :=
  let n := j.ref.r
  let ps := chainParts s n g
  match completeHead ps with
  | none => match leadOf ps with
    | some p =>
      if skip then s else
      let r := sendPayload n (recordAddr p.cfg g t + 32) false (ps.map fun p => (p.tile, p.ofs, partBytes s p)) s
      endWrite n r.1 r.2
    | none => s
  | some hd =>
    let addr := recordAddr hd.cfg g t
    let r := sendPayload n (addr + 32) false (if skip then [] else payloadParts s hd ps) s
    modTickJob n (fun x => { x with emissions := x.emissions ++ [{
      chain := g, t := t, tn := s.tick.tn.toNat, epoch := j.epoch, sweep := w % 2 ^ 32,
      energy := if skip then 0 else chainEnergy s ps, flags := recordFlags s j hd ps w late skip, skip := skip,
      addr := addr, countAddr := countAddr hd.cfg g, head := hd.tile, write := r.1 }] }) r.2

/-- Does a chain write a record of sweep w (R97)? -/
def emits (s : State) (n : Fin 8) (w g : Nat) : Bool :=
  match leadOf (chainParts s n g) with
  | some hd => hd.cfg.emitEvery != 0 && (w + 1) % hd.cfg.emitEvery == 0
  | none => false

/-- Does a chain emit at all? -/
def emitsAny (s : State) (n : Fin 8) (g : Nat) : Bool :=
  match leadOf (chainParts s n g) with
  | some hd => hd.cfg.emitEvery != 0
  | none => false

/-- One emission: every chain in the list writes under the same number (R97). The samples have carried their tiles' STALE
(R370). -/
def emission (j : Job) (gs : List Nat) (w : Nat) (late skip : Bool) (s : State) : State :=
  if gs.isEmpty then s else
  let n := j.ref.r
  let t := s.herd.job[n].emitNo
  let s := modTickJob n (fun x => { x with emitNo := t + 1 }) (forEach gs (fun g => emitChain j g t w late skip) s)
  if skip then s
  else forEach (gs.flatMap fun g => (chainParts s n g).map Part.tile) (fun h => modHerd h fun x => { x with stale := false }) s

/-- The header of a record (Table 4-5). -/
def headerBytes (n : Fin 8) (e : Emission) : List Byte :=
  leBytes 8 e.tn ++ leBytes 8 (ofSigned 64 e.energy) ++ leBytes 4 e.chain ++ leBytes 4 e.epoch ++ leBytes 4 e.sweep
    ++ leBytes 1 n.val ++ leBytes 1 e.flags ++ [0, 0]

/-- The head tile of a chain has its energy partials, and the parts of the record are visible or discarded: it writes the header,
unless a part was discarded, then the count word (R97, R230, R232). HERD_RECORDS counts a record without a header too (DESIGN
CHOICE, log entry 96). -/
def execHeaderWrite (r : Fin 8) (chain : Nat) (s : State) : Out :=
  match s.herd.job[r].emissions.find? (fun e => e.chain == chain), tickJobOf s r with
  | some e, some j =>
    match doneWrite s r e.write with
    | none => .next s
    | some w =>
      let s := endWrite r w.id (modTickJob r (fun x => { x with emissions := x.emissions.erase e }) s)
      let s := if w.dropped then s else jobWrite j.ref (.herd e.head) e.addr (headerBytes r e) s
      let s := jobWrite j.ref (.herd e.head) e.countAddr (leBytes 8 (e.t + 1)) s
      .next (settle r (modHerd e.head (fun t => { t with records := t.records + 1 }) s))
  | _, _ => .next s

/-! ### Annealing after a sweep (R126, R131, R132) -/

def modChain (n : Fin 8) (g : Nat) (f : Chain → Chain) (s : State) : State :=
  modAnl n (fun a => { a with chains := a.chains.map fun c => if c.idx == g then f c else c }) s

/-- Where state slot k of chain g lies (R132). -/
def slotAddr (a : Acb) (p g k : Nat) : Nat := a.resBase + (g * a.resK + k) * p

/-- In a SEALED region, a sweep that is emitted and not admitted makes a masked write toward the state slot of the worst entry
(R265); where there is none, toward slot 0 (DESIGN CHOICE, log entry 103). -/
def maskedWrite (n : Fin 8) (g w : Nat) (hd : Part) (ps : List Part) (c : Chain) (s : State) : State :=
  let a := readAcb s.anl.rgn[n].acb
  if ctxSealed s (ctxOf n) && decide (1 ≤ a.resK) && emits s n w g then
    let k := (c.res.getLast?.map ResEntry.slot).getD 0
    (sendPayload n (slotAddr a hd.cfg.payload g k) true (payloadParts s hd ps) s).2
  else s

/-- The reservoir offer of a chain (R131): burn-in sweeps, ENERGY_SAT and energies beyond int40 are refused. -/
def offerState (j : Job) (g w : Nat) (hd : Part) (ps : List Part) (c : Chain) (s : State) : State :=
  let n := j.ref.r
  let a := readAcb s.anl.rgn[n].acb
  let refused (s : State) : State := maskedWrite n g w hd ps c s
  if w < hd.cfg.burnIn then refused s else
  match resOffer a.resK w (chainEnergy s ps) (stateHash (chainPayload s hd ps)) (chainEnergySat s ps) c.res with
  | .nothing => refused s
  | .duplicate => refused (modAnl n (fun x => { x with dup := satInc 32 x.dup }) s)
  | .inserted k res =>
    let s := modHerd hd.tile (showRes hd.i res) (modChain n g (fun c => { c with res := res }) s)
    let r := sendPayload n (slotAddr a hd.cfg.payload g k) false (payloadParts s hd ps) s
    modTickJob n (fun t => { t with
      pending := t.pending.filter (fun x => (x.1, x.2.1) != (g, k)) ++ [(g, k, r.1)] }) r.2

/-- The annealing update of a chain after sweep w, of its part in this module (R126, R139). -/
def updateChain (j : Job) (w g : Nat) (s : State) : State :=
  let n := j.ref.r
  let ps := chainParts s n g
  match annealHead ps, (s.anl.rgn[n].chains).find? (fun c => c.idx == g) with
  | some hd, some c =>
    let a := readAcb s.anl.rgn[n].acb
    let s' := modChain n g (fun c =>
      { (annealUpdate a (chainEnergy s ps) (chainEnergySat s ps) (chainFlips s ps) c).show with sweeps := c.sweeps + 1 }) s
    offerState j g w hd ps c s'
  | none, some _ => modChain n g (fun c => { c with sweeps := c.sweeps + 1 }) s
  | _, none => s

/-- The lead slice of a chain of region n's present or last ticking job. -/
def chainHead (s : State) (n : Fin 8) (g : Nat) : Option (Fin 64 × Hcb) :=
  let ps := (s.herd.job[n].lastTiles.map fun h => ({ tile := h, i := 0, cfg := cfgOf s h } : Part)).filter fun p =>
    decide (p.cfg.first ≤ g) && decide (g < p.cfg.first + p.cfg.slices)
  (leadOf ps).map fun p => (p.tile, p.cfg)

/-- All slice writes of an admitted state are complete: its entry is valid for the merge, unless a part of them was discarded
(R130, R132; DEDUCED, log entry 27). -/
def execReservoirWriteDone (r : Fin 8) (chain slot : Nat) (s : State) : Out :=
  match s.herd.job[r].pending.find? fun x => (x.1, x.2.1) == (chain, slot) with
  | none => .next s
  | some x =>
    match doneWrite s r x.2.2 with
    | none => .next s
    | some w =>
      let s := endWrite r w.id (modTickJob r (fun t => { t with pending := t.pending.erase x }) s)
      let s := if w.dropped then s else modChain r chain (fun c => { c with
        res := c.res.map fun x => if x.slot = slot then { x with valid := true } else x }) s
      .next (settle r (match chainHead s r chain, (s.anl.rgn[r].chains).find? (fun c => c.idx == chain) with
        | some hd, some c => modHerd hd.1 (showRes (chain - hd.2.first) c.res) s
        | _, _ => s))

/-! ### The budget check (R25-R30) -/

/-- Ticks per sweep of a job, k: that of its tiles; of tiles that differ the largest (DESIGN CHOICE, log entry 94). -/
def sweepTicks (s : State) (n : Fin 8) : Nat := ((planTiles s n).map fun h => (cfgOf s h).k).foldl max 1

/-- Has a tile raised sweep_done in time for the test of tick `tn` (R25)? -/
def inTime (tn : Nat) (t : HerdTile) : Bool := t.sweepDone && (t.doneTn != tn || decide (t.doneCclk < 2800))

/-- The slot in which the last tile raised sweep_done (R30): the greatest of the latest tick. -/
def lastSlot (ts : List HerdTile) : Nat :=
  let tn := (ts.map HerdTile.doneTn).foldl max 0
  (((ts.filter fun t => t.doneTn == tn).map fun t => t.doneCclk / 16)).foldl max 0

/-- The slack of a passed or failed test (R30). -/
def slack (slot : Nat) (x : TickRgn) : TickRgn := { x with lastDoneSlot := slot, maxDoneSlot := max x.maxDoneSlot slot }

/-- A sample has carried the ENERGY_SAT of its slices: the next one carries what saturates from now on (R86). -/
def clearSat (t : HerdTile) : HerdTile := { t with slices := t.slices.map fun x => { x with energySat := false } }

/-- Every tile raised sweep_done in time: the sample is captured and emitted, the chains that have not reached sweep_limit are
updated, sweep_limit may end ticking (R25-R28, R97,
R126, R134). -/
def sweepPasses (n : Fin 8) (j : Job) (s : State) : State :=
  let job := s.herd.job[n]
  let slot := lastSlot ((planTiles s n).map fun h => s.herd.tile[h])
  let s := modTickRgn n (fun x => slack slot { x with consec := 0 }) s
  let s := forEach (planTiles s n) (fun h => modHerd h captureTile) s
  let limit := (readAcb s.anl.rgn[n].acb).limit
  let gs := (chainIds s n).filter fun g => !(s.anl.rgn[n].chains.any fun c =>
    c.idx == g && decide (1 ≤ limit) && decide (limit ≤ c.sweeps))
  let s := emission j (gs.filter (emits s n job.w)) job.w job.late false s
  let s := forEach gs (updateChain j job.w) s
  let s := forEach (planTiles s n) (fun h => modHerd h clearSat) s
  let full := decide (1 ≤ limit) && (s.anl.rgn[n].chains).all fun c => decide (limit ≤ c.sweeps)
  modJob j.ref (Job.progressBy 1)
    (modTickJob n (fun t => { t with w := t.w + 1, active := false, groupTick := 0, late := false, stop := t.stop || full }) s)

/-- The tick is overrun: SKIP records, the counts of R28 and R30, and the continuation or JOB_OVERRUN (R26-R28). -/
def sweepOverruns (n : Fin 8) (j : Job) (s : State) : State :=
  let job := s.herd.job[n]
  let x := s.tick.rgn[n]
  let s := modTickRgn n (fun x => slack 0xFF { x with
    consec := min 15 (x.consec + 1), overruns := satInc 32 x.overruns, lastOverrunTn := s.tick.tn.toNat }) s
  let s := emission j ((chainIds s n).filter (emitsAny s n)) job.w false true s
  if x.limit ≤ x.consec + 1 then
    let site := match (planTiles s n).find? fun h => !inTime s.tick.tn.toNat s.herd.tile[h] with
      | some h => engSite (.herd h) (x.consec + 1)
      | none => noSite
    jobError j.ref .overrun site (modTickJob n (fun t => { t with active := false, late := false }) s)
  else modTickJob n (fun t => { t with late := true }) s

/-- Pennant's test of region r's ticking job at CCLK 2,800, in the last tick of a sweep's group and in every continuation tick
(R25, R29); a tick in which nothing sweeps has no test. -/
def execOverrunTest (r : Fin 8) (s : State) : Out :=
  match sweepingJob s r with
  | none => .next s
  | some j =>
    let t := s.herd.job[r]
    if !s.tick.rgn[r].ticking || t.part != .sweep then .next s
    else
      let s := modTickJob r (fun t => { t with part := .emit }) s
      if t.late = false ∧ t.groupTick + 1 < sweepTicks s r then
        .next (modTickJob r (fun t => { t with groupTick := t.groupTick + 1 }) s)
      else if (planTiles s r).all fun h => inTime s.tick.tn.toNat s.herd.tile[h] then .next (settle r (sweepPasses r j s))
      else .next (settle r (sweepOverruns r j s))

/-! ### The tick boundary of a ticking job -/

/-- brv4 (R383). -/
def brv4 (x : Nat) : Nat := bitRev 4 x

/-- What R379 leaves of a region's duty: at most 8 until tick `capUntil`, then 1 more at each tick with TN mod 64 = 0 (as
R383 recovers; DEDUCED, log entry 37). -/
def dutyLimit (capUntil : Option Int) (tn : Int) : Nat :=
  match capUntil with
  | none => 16
  | some c => if tn < c then 8 else 8 + (tn / 64 - (c - 1) / 64).toNat

/-- A region's duty: the least u_t over the tiles of its rectangle that are not cut (R383), at most 8 while R379 holds it. -/
def regionDuty (s : State) (n : Fin 8) : Nat :=
  let r := s.rgn.rgn[n]
  let us := (regionUnits r).map fun e => s.pwr.tile[Fin.ofNat 192 ((engXY e).2 * 16 + (engXY e).1)]
  let u := ((us.filter fun t => !t.cut).map TilePwr.duty).foldl min 16
  min u (dutyLimit s.pwr.rgn[n].capUntil s.tick.tn.toNat)

/-- Is the present tick included for region n (R383)? -/
def included (s : State) (n : Fin 8) : Bool := decide (brv4 (s.tick.tn.toNat % 16) < regionDuty s n)

/-- The evidence swaps of region n's ticking job in the Ingest phase of the tick that begins: held back in a continuation or
excluded tick until the first tick that starts a fresh sweep, else applied (R27, R43, R384). One that a tick without a sweep
(R92, R115, R381) meets for the first time is applied in it. -/
def swapEvidence (n : Fin 8) (s : State) : State :=
  let t := s.herd.job[n]
  let tiles := planTiles s n
  if t.late || t.excluded then
    forEach tiles (fun h => modHerd h fun x => { x with held := x.dueSwap, swap := none }) s
  else takeSwaps n (tiles.filter fun h => s.herd.tile[h].swap.isSome) s

/-- Region n's ticking job enters a tick: the initialisation tick before it ends with Q (R86, DEDUCED, log entry 26), and the
tick is excluded, a continuation, or neither (R27, R384). -/
def enterTick (n : Fin 8) (s : State) : State :=
  let t := s.herd.job[n]
  let s := if t.init then
      forEach (planTiles s n) (fun h => modHerd h fun x => { initQ x with state := .idle, haloFlits := 0 }) s
    else s
  let out := !included s n
  let s := if out then modPwrRgn n (fun x => { x with skip := satInc 32 x.skip }) s else s
  let s := modTickJob n (fun t => { t with init := false, part := .ingest, holds := false, excluded := out }) s
  let s := modTickRgn n (fun x => { x with continuing := t.late && !out }) s
  swapEvidence n s

/-! ### The end of ticking and the merge (R134-R136) -/

/-- Does region n's ticking job end its ticking at the next boundary: TICK_STOP, sweep_limit, END (R134, R306, R320)? -/
def ticksLast (s : State) (n : Fin 8) (j : Job) : Bool :=
  s.herd.job[n].stop || (j.phase == .ending && j.chains.isEmpty && j.deferred.isEmpty)

/-- Ticking ends normally: a merge follows if merge_k ≥ 1 (R134, R135). -/
def endNormally (n : Fin 8) (j : Job) (s : State) : State :=
  let a := readAcb s.anl.rgn[n].acb
  let merge := decide (1 ≤ a.mergeK)
  let s := modTickJob n (fun t => { t with ended := true, stop := false }) s
  let s := modJob j.ref (fun j => { j with cw := cwPut 9 false j.cw, merged := !merge }) s
  let s := endTicking n s
  let s := if merge then
      match (s.rgn.rgn[n]).mbs.head? with
      | some m => modKudu m (fun k => { k with mergeWaits := true }) s
      | none => s
    else s
  settle n s

/-- Ticking of region r's job ends (R134). -/
def execTickingEnd (r : Fin 8) (s : State) : Out :=
  match sweepingJob s r with
  | some j => if s.tick.rgn[r].ticking && ticksLast s r j then .next (endNormally r j s) else .next s
  | none => .next s

/-- The Kudu cluster in the region's logical macro-block 0 starts the merge once every reservoir write is complete and its
running descriptors are done (R135; 08 R166). -/
def execMergeStart (r : Fin 8) (s : State) : Out :=
  match (s.rgn.rgn[r]).mbs.head?, sweepingJob s r with
  | some m, some _ =>
    if s.kudu[m].mergeWaits && (s.herd.job[r].pending).isEmpty then
      .next (modAnl r (fun a => { a with merging := true })
        (modKudu m (fun k => { k with mergeWaits := false, merging := true }) s))
    else .next s
  | _, _ => .next s

/-- The merge writes its entries and state blocks, in a SEALED region zeros for those beyond m (R266), then the header, unless a
write has faulted the job (R135, R136). -/
def mergeOutput (r : Fin 8) (m : Fin 8) (j : Job) (s : State) : State :=
  let a := readAcb s.anl.rgn[r].acb
  let cs := s.anl.rgn[r].chains
  let cfg := ((cs.findSome? fun c => chainHead s r c.idx).map Prod.snd).getD (readHcb [])
  let kept := mergeKept a.mergeK cs
  let e : Eng := .kudu m
  let s := forEach kept.zipIdx (fun x s => if (sweepingJob s r).isNone then s else
    let s := jobWrite j.ref e (a.outBase + 64 + 32 * x.2) (mergeEntryBytes x.1) s
    let d := jobRead j.ref e (slotAddr a cfg.payload x.1.chain x.1.slot) cfg.payload s
    jobWrite j.ref e (a.outBase + 64 + 32 * a.mergeK + x.2 * cfg.payload) d.1 d.2) s
  let rest := if ctxSealed s (ctxOf r) then a.mergeK - kept.length else 0
  let zero (x n : Nat) (s : State) : State :=
    if n = 0 ∨ (sweepingJob s r).isNone then s else jobWrite j.ref e x (List.replicate n 0) s
  let s := zero (a.outBase + 64 + 32 * kept.length) (32 * rest) s
  let s := zero (a.outBase + 64 + 32 * a.mergeK + kept.length * cfg.payload) (rest * cfg.payload) s
  let head := leBytes 4 kept.length ++ leBytes 4 cfg.chains ++ leBytes 4 cfg.payload ++ leBytes 4 j.epoch
    ++ leBytes 8 s.tick.tn.toNat ++ leBytes 4 (gather cs).length ++ List.replicate 36 0
  if (sweepingJob s r).isNone then s else
  let s := jobWrite j.ref e a.outBase head s
  modAnl r (fun x => { x with merging := false, merged := kept.length })
    (modJob j.ref (fun j => { j with merged := true, progress := j.progress + BitVec.ofNat 64 cs.length }) s)

/-- The merge of region r completes (R135, R136). -/
def execMergeComplete (r : Fin 8) (s : State) : Out :=
  match (s.rgn.rgn[r]).mbs.head?, sweepingJob s r with
  | some m, some j =>
    if s.kudu[m].merging then
      .next (settle r (modTickJob r (fun t => { t with ended := false })
        (modKudu m (fun k => { k with merging := false }) (mergeOutput r m j s))))
    else .next s
  | _, _ => .next s

end Sys2Proof.Machine
end

