-- ==== Sys2Proof/Machine/Plan.lean ====
section
/-!
DEFINITION. The tick plan of a ticking RUN (13_run_programs.md R318; 03 R54, R55; 15 R365; 04 R79, R90; 06 R122, R123): its
checks at staging and its image in the region's shadow banks.
-/
namespace Sys2Proof.Machine

/-! ### Staging results -/

/-- Why a RUN fails a staging check: the status, and the translation fault that a staging read met. -/
structure Reject where
  status : Nat
  fault : MemFault
deriving DecidableEq, Repr

abbrev Checked (α : Type) := Except Reject α

def reject {α : Type} (status : Nat) : Checked α := .error { status := status, fault := none }
def require (ok : Bool) (status : Nat) : Checked Unit := if ok then .ok () else reject status

/-- A read of the region's command processor at staging; one that faults fails the RUN with a status. -/
def fetchBytes (s : State) (n : Fin 8) (a len status : Nat) : Checked (List Byte) :=
  let r := readDev s (regionCpTile s n) (ctxOf n) a len
  match r.2 with
  | none => .ok r.1
  | some f => .error { status := status, fault := some f }

/-! ### The slot-table section (Table 3-2, R55) -/

/-- An entry of the section. -/
abbrev PlanEnt := Nat × Nat × Port × Bool × SlotEnt

def portOf (c : Nat) : Port := match c with | 0 => .n | 1 => .e | 2 => .s | _ => .w

def slotHeadUsed : List (Nat × Byte) := span 0 2 ++ span 4 4
def slotEntUsed : List (Nat × Byte) := span 0 3 ++ [(3, 0x07)]

def readEnt (b : List Byte) : PlanEnt :=
  let w := fieldAt b 0 4
  (bits w 3 0, bits w 7 4, portOf (bits w 9 8), bit w 10,
    { slot := bits w 18 11, src := bits w 21 19, flits := bits w 26 22 })

/-- The order of condition 3 as a number. -/
def entKey (e : PlanEnt) : Nat :=
  (((e.2.1 * 16 + e.1) * 4 + portCode e.2.2.1) * 2 + b2n e.2.2.2.1) * 256 + e.2.2.2.2.slot

def strictlyRising : List Nat → Bool
  | [] => true
  | [_] => true
  | a :: b :: r => decide (a < b) && strictlyRising (b :: r)

/-- The link direction of an entry, if it names one of the region (conditions 2 and the into column of Table 3-2). -/
def entLink (r : Region) (e : PlanEnt) : Option Nat :=
  let p := physXY r e.1 e.2.1
  if !r.holds e.1 e.2.1 then none
  else if e.2.2.2.1 then
    if e.2.2.1 = .w ∧ e.1 = 0 ∧ p.1 = 1 then some (4 * (16 * p.2) + 1)
    else if e.2.2.1 = .e ∧ e.1 = 7 * (r.bwM1 + 1) - 1 ∧ p.1 = 14 then some (4 * (16 * p.2 + 15) + 3)
    else none
  else
    let l := 4 * (16 * p.2 + p.1) + portCode e.2.2.1
    if linkOf r l then some l else none

/-- Condition 5 and the encodings of Table 3-2. -/
def entFieldsOk (e : PlanEnt) : Bool :=
  let x := e.2.2.2.2
  decide (x.slot ≤ 199) && decide (x.src ≤ 5) &&
    (if x.src = 0 then x.flits == 0 else decide (1 ≤ x.flits) && decide (x.flits ≤ 16)) &&
    (!e.2.2.2.1 || x.src == 0 || x.src == 5)

/-- The input port at which flits of link l arrive, in the code of src. -/
def arrivalSrc (l : Nat) : Nat := match l % 4 with | 0 => 3 | 1 => 4 | 2 => 1 | _ => 2

/-- Flits of a list of entries in one slot. -/
def slotFlits (es : List SlotEnt) (k : Nat) : Nat := ((es.filter fun e => e.slot == k).map SlotEnt.flits).sum

/-- What of a tick's arrivals stays in a buffer, by the slot at whose CCLK 0 it arrives, and how much a tick's entries still lack
before it: going back from the tick's end, each entry takes the latest flits that it can. -/
def passBack (arr draws : List SlotEnt) (need : Nat) : Nat × List Nat :=
  (List.range 200).reverse.foldl (fun x k =>
    let want := x.1 + slotFlits draws k
    let p := min want (slotFlits arr ((k + 199) % 200))
    (want - p, p :: x.2)) (need, [])

/-- A VC0 input buffer in the simulation of condition 4: the link that fills it, the entries that name it (link, entry) in the
order N, E, S, W, how many of the flits arriving at CCLK 0 of each slot are for other tiles, its flits, and those it held at the
end of the first tick. -/
structure SimBuf where
  link : Nat
  draws : List (Nat × SlotEnt)
  stay : List Nat
  held : Nat
  mid : Nat
deriving DecidableEq, Repr

/-- The simulation: the buffers, the links of the flits sent in the slot before, and whether every condition held. -/
structure VcSim where
  bufs : List SimBuf
  sent : List Nat
  ok : Bool
deriving DecidableEq, Repr

/-- One CCLK at a buffer (R50): the entries that send in it take a flit each, while there are any. (flits, links sent on, whether
no entry found the buffer empty and at most 32 stayed.) -/
def simCclk (ds : List (Nat × SlotEnt)) (x : Nat × List Nat × Bool × Bool) (c : Nat) : Nat × List Nat × Bool × Bool :=
  let ts := ds.filter fun d => decide (c < d.2.flits)
  let n := min ts.length x.1
  (x.1 - n, x.2.1 ++ (ts.take n).map Prod.fst, x.2.2.1 && decide (ts.length ≤ x.1), x.2.2.2 && decide (x.1 - n ≤ 32))

/-- One slot of the simulation, 0 to 399: the flits sent in the slot before arrive at its CCLK 0 (R51). -/
def simSlot (own : List (Nat × SlotEnt)) (x : VcSim) (k : Nat) : VcSim :=
  let rs := x.bufs.map fun b =>
    let here := b.held + min (b.stay.getD (k % 200) 0) (x.sent.count b.link)
    (b, (List.range 16).foldl (simCclk (b.draws.filter fun d => d.2.slot == k % 200)) (here, [], true, true))
  { bufs := rs.map fun r => { r.1 with held := r.2.1, mid := if k = 199 then r.2.1 else r.1.mid },
    sent := (rs.flatMap fun r => r.2.2.1) ++ (own.filter fun d => d.2.slot == k % 200).flatMap fun d => List.replicate d.2.flits d.1,
    ok := x.ok && rs.all fun r => r.2.2.2.2 && (decide (k < 200) || r.2.2.2.1) }

/-- The input buffers that entries of a plan name, empty. -/
def simBufs (es : List (Nat × SlotEnt)) : List SimBuf :=
  let fed (l : Nat) (d : Nat × SlotEnt) : Bool :=
    let p := linkEnd l
    d.1 / 4 == 16 * p.2 + p.1 && d.2.src == arrivalSrc l
  ((es.map Prod.fst).eraseDups.filter fun l => es.any (fed l)).map fun l =>
    let ds := es.filter (fed l)
    let arr := (es.filter fun e => e.1 == l).map Prod.snd
    let back := passBack arr (ds.map Prod.snd)
    { link := l, draws := ds, stay := (back (back 0).1).2, held := 0, mid := 0 }

/-- Is every buffer that an entry names fed by some entry? -/
def sourcesFed (es : List (Nat × SlotEnt)) : Bool :=
  es.all fun d => d.2.src == 0 || d.2.src == 5 || es.any fun e =>
    let p := linkEnd e.1
    e.2.src != 0 && d.1 / 4 == 16 * p.2 + p.1 && d.2.src == arrivalSrc e.1

/-- Condition 4: two ticks from empty buffers. The section does not say which flits are for which tile: a flit is taken to go on
where an entry needs it, no earlier than needed, and to end otherwise (DEDUCED, log entry 25). -/
def buffersOk (es : List (Nat × SlotEnt)) : Bool :=
  let es := es.filter fun e => e.2.src != 0
  let x := (List.range 400).foldl (simSlot (es.filter fun e => e.2.src == 5)) { bufs := simBufs es, sent := [], ok := true }
  sourcesFed es && x.ok && x.bufs.all fun b => b.held == b.mid

/-- The slot-table section at an offset of the plan at `a`, under R55: its entries, and the offset where it ends. -/
def stageSlots (s : State) (n : Fin 8) (a ofs len : Nat) : Checked (List PlanEnt × Nat) := do
  let bad := Status.tickPlanInvalid
  let r := s.rgn.rgn[n]
  let h ← fetchBytes s n (a + ofs) 16 bad
  require (reservedOk slotHeadUsed h 16) Status.reservedNonzero
  let count := fieldAt h 4 4
  let fin := ofs + 16 + 8 * count
  require (decide (fin ≤ len)) bad
  let body ← fetchBytes s n (a + ofs + 16) (8 * count) bad
  let raw := pieces 8 count body
  require (raw.all fun b => reservedOk slotEntUsed b 8) Status.reservedNonzero
  let es := raw.map readEnt
  require (fieldAt h 0 1 == r.bwM1 + 1 && fieldAt h 1 1 == r.bhM1 + 1) bad
  require (es.all fun e => (entLink r e).isSome) bad
  require (strictlyRising (es.map entKey)) bad
  require (es.all entFieldsOk) bad
  require (buffersOk (es.filterMap fun e => (entLink r e).map fun l => (l, e.2.2.2.2))) bad
  return (es, fin)

/-! ### The list of HERD descriptors (R318) -/

/-- The list of a plan: (tile, hcb_addr, acb_addr) of each descriptor. -/
def stageHerds (s : State) (n : Fin 8) : Nat → Nat → Checked (List (Fin 64 × Nat × Nat))
  | 0, _ => .ok []
  | k + 1, a => do
    let bad := Status.tickPlanInvalid
    let r := s.rgn.rgn[n]
    require (a % 64 == 0) bad
    let b ← fetchBytes s n a 64 bad
    require (descOk r.bwM1 r.bhM1 b) Status.reservedNonzero
    require (dClass b == 0 && dChain b == (k != 0)) bad
    let rest ← stageHerds s n k (dNext b)
    match unitOf r (dLx b) (dLy b) with
    | .herd h => return (h, fieldAt b 16 6, fieldAt b 24 6) :: rest
    | _ => reject bad

/-- The HCB of a tile, under R79 and R90. -/
def stageHcb (s : State) (n : Fin 8) (h : Fin 64) (a : Nat) : Checked (List Byte) := do
  let bad := Status.configInvalid
  require (a % 64 == 0) bad
  let b ← fetchBytes s n a 64 bad
  require (reservedOk hcbUsed b 64) Status.reservedNonzero
  let c := readHcb b
  require (Hcb.ok b c) bad
  require (capacityOk c (colourMap s.herd.tile[h].mem c.slots)) bad
  return b

/-- The ACB and its schedule, under R123; `hs` the tiles of the job with their HCBs. -/
def stageAcb (s : State) (n : Fin 8) (a : Nat) (hs : List (Fin 64 × List Byte)) :
    Checked (List Byte × List (Nat × Nat)) := do
  let bad := Status.configInvalid
  require (a % 64 == 0) bad
  let b ← fetchBytes s n a 64 bad
  require (reservedOk acbUsed b 64) Status.reservedNonzero
  let c := readAcb b
  require c.ok bad
  let t ← fetchBytes s n c.schedBase (8 * c.count) bad
  let sched := readSched t c.count
  require (schedOk sched) bad
  require (c.resK == 0 || hs.all fun x =>
    let h := readHcb x.2
    decide (formatEnd h s.herd.tile[x.1].mem ≤ 0x1FE000 - 0x800 * h.slices)) bad
  return (b, sched)

/-! ### The ring section (Table 15-4, R365) -/

def ringHeadUsed : List (Nat × Byte) := span 0 3
def ringOutUsed : List (Nat × Byte) := [(0, 0xFF), (1, 0x1F)] ++ span 2 2
def ringInUsed : List (Nat × Byte) := [(0, 0x0F), (1, 0xFF), (2, 0xFF), (3, 0xFF), (4, 0xFF), (5, 0xFF), (6, 0x1F)] ++ span 8 3

def readOut (b : List Byte) : RingOut :=
  { bid := fieldAt b 0 1, dst := bits (fieldAt b 1 1) 3 0, down := bit (fieldAt b 1 1) 4, len := fieldAt b 2 2 }
def readIn (b : List Byte) : RingIn :=
  { src := bits (fieldAt b 0 1) 3 0, bid := fieldAt b 1 1, lx := bits (fieldAt b 2 1) 3 0, ly := bits (fieldAt b 2 1) 7 4,
    cutoff := fieldAt b 3 1, addr := bits (fieldAt b 4 4) 20 0, len := fieldAt b 8 2, cham := fieldAt b 10 1 == 1 }

def lenOk (n : Nat) : Bool := decide (1 ≤ n) && decide (n ≤ 2048)
def outOk (o : RingOut) : Bool := decide (o.bid ≤ 15) && lenOk o.len

/-- An in entry's target: inside the halo area of a Herd tile, or inside the local memory of a Chamois tile below its random
block (R365, R157). -/
def inOk (r : Region) (x : RingIn) : Bool :=
  decide (x.bid ≤ 15) && decide (x.cutoff ≤ 24) && lenOk x.len && r.holds x.lx x.ly &&
    match unitOf r x.lx x.ly with
    | .herd _ => !x.cham && decide (0x102000 ≤ x.addr) && decide (x.addr + x.len ≤ 0x104000)
    | .cham _ => x.cham && decide (x.addr + x.len + 8 ≤ 0x7FFC0)
    | _ => false

/-- The stream, out entries and in entries of the ring section at an offset; a plan that ends at `fin` has none. -/
def stageRing (s : State) (n : Fin 8) (a fin len : Nat) : Checked (Nat × List RingOut × List RingIn) :=
  if len ≤ fin then .ok (0, [], []) else do
    let bad := Status.tickPlanInvalid
    let r := s.rgn.rgn[n]
    let ofs := ceilDiv fin 16 * 16
    require (decide (ofs + 16 ≤ len)) bad
    let h ← fetchBytes s n (a + ofs) 16 bad
    require (reservedOk ringHeadUsed h 16) Status.reservedNonzero
    let stream := fieldAt h 0 1
    let outs := fieldAt h 1 1
    let ins := fieldAt h 2 1
    require (decide (outs ≤ 16) && decide (ins ≤ 16) && decide (ofs + 16 + 16 * (outs + ins) ≤ len)) bad
    let body ← fetchBytes s n (a + ofs + 16) (16 * (outs + ins)) bad
    let raw := pieces 16 (outs + ins) body
    require ((raw.take outs).all fun b => reservedOk ringOutUsed b 16) Status.reservedNonzero
    require ((raw.drop outs).all fun b => reservedOk ringInUsed b 16 && decide (fieldAt b 10 1 ≤ 1)) Status.reservedNonzero
    require (stream != 0 && (allFin 8).all fun m => m == n || s.ring.rgn[m].stream != stream) bad
    require (!(ctxSealed s (ctxOf n)) || s.sec.rgn[n].ringOk) bad
    let os := (raw.take outs).map readOut
    let is := (raw.drop outs).map readIn
    require (os.all outOk && (os.map RingOut.bid).eraseDups.length == os.length) bad
    require (is.all (inOk r)) bad
    return (stream, os, is)

/-- Do the ring entries of a tile's send list match out entries (R365, R366)? -/
def sendsMatch (outs : List RingOut) (m : Mem) : Bool :=
  ((sendList m 512).filter SendEnt.ring).all fun e => e.dst == 0 && outs.any fun o => o.bid == e.lx && o.len == e.len

/-! ### The plan -/

def planHeadUsed (ibex : Nat) : List (Nat × Byte) :=
  span 0 16 ++ (List.range 6).map fun i => (16 + i, BitVec.ofNat 8 (2 ^ (min 8 (ibex - 8 * i)) - 1))

/-- What a plan stages: the plan itself and the HCBs of its tiles. -/
structure Image where
  plan : Plan
  hcbs : List (Fin 64 × List Byte)
deriving DecidableEq, Repr

/-- Stage the tick plan at `a` for the RUN at position `pos` of region n's Q0 (R317, R318). -/
def stagePlan (s : State) (n : Fin 8) (pos : W32) (a : Nat) : Checked Image := do
  let bad := Status.tickPlanInvalid
  let ranks := ibexRanks s.rgn.rgn[n]
  let h ← fetchBytes s n a 64 bad
  require (reservedOk (planHeadUsed ranks.length) h 64) Status.reservedNonzero
  let len := fieldAt h 0 4
  let ofs := fieldAt h 4 4
  let count := fieldAt h 14 2
  require (ofs % 16 == 0 && decide (1 ≤ count) && decide (count ≤ 64)) bad
  let herds ← stageHerds s n count (fieldAt h 8 6)
  let tiles := herds.map fun x => x.1
  require (tiles.eraseDups.length == tiles.length) bad
  let slots ← stageSlots s n a ofs len
  let ring ← stageRing s n a slots.2 len
  require (tiles.all fun t => sendsMatch ring.2.1 s.herd.tile[t].mem) bad
  let acbs := (herds.map fun x => x.2.2).eraseDups
  require (acbs.length == 1) Status.configInvalid
  let hcbs ← herds.mapM fun x => do
    let b ← stageHcb s n x.1 x.2.1
    return (x.1, b)
  let acb ← stageAcb s n (acbs.getD 0 0) hcbs
  let fields := ranks.zipIdx.filterMap fun x => if bit (fieldAt h 16 16) x.2 then some x.1 else none
  return { plan := { entries := slots.1, tiles := tiles, fields := fields, acb := acb.1, sched := acb.2, stream := ring.1,
                     outs := ring.2.1, ins := ring.2.2, pos := pos },
           hcbs := hcbs }

/-- Put entries into the shadow bank of a link. -/
def setShadow (active : Bool) (es : List SlotEnt) (k : Link) : Link :=
  if active then { k with bank0 := es } else { k with bank1 := es }

/-- Write a staged image into region n's shadow banks (R53, R79, R122, R317). -/
def writeImage (n : Fin 8) (i : Image) (s : State) : State :=
  let r := s.rgn.rgn[n]
  let es := i.plan.entries.filterMap fun e => (entLink r e).map fun l => (l, e.2.2.2.2)
  let pick (l : Fin 768) : Link :=
    if linkOf r l.val then
      setShadow r.activeBank ((es.filter fun e => e.1 == l.val && e.2.src != 0).map Prod.snd) s.mesh.links[l]
    else s.mesh.links[l]
  let s := { s with mesh := { s.mesh with links := Vector.ofFn pick } }
  let s := forEach i.hcbs (fun x => modHerd x.1 fun t => { t with shadow := x.2 }) s
  modTickJob n (fun t => { t with shadow := some i.plan }) s

end Sys2Proof.Machine
end

