-- ==== Sys2Proof/Machine/Regions.lean ====
section
/-!
DEFINITION. Regions (03_mesh_regions_rim.md R65-R71; 08 R171; 10 R216, R218): the checks of REGION_CREATE, creation, and
destruction, with the re-creation that a VF FLR asks for (10 R233).
-/
namespace Sys2Proof.Machine

/-! ### Maintenance commands -/

/-- Is a maintenance opcode refused while a device-level error is in force (Table 14-4)? -/
def maintRefused (op : Nat) (s : State) : Bool :=
  s.err.rimUe || (s.err.hbmUe.toList.any id && op == 0x40) ||
    (s.err.lockstep && (op == 0x40 || op == 0x42 || op == 0x43 || op == 0x46))

/-- Run a maintenance command: the packet at the head of queue 32 if it carries `op`, rejected under R289, refused under
R341, or acted on. -/
def maintCommand (op : Nat) (act : Pkt → State → State) (s : State) : Out :=
  match currentOp s maintQ op with
  | none => .next s
  | some p =>
    if !coreTakes s maintQ then .next s
    else match pktReject 32 p.bytes with
    | some st => .next (finish maintQ p.pos st s)
    | none =>
      if maintRefused op s then .next (finish maintQ p.pos Status.deviceFault s)
      else .next (settleMaint (act p s))

/-- Decide the outcome of a maintenance packet. -/
def maintDone (p : Pkt) (status : Nat) (s : State) : State := decide' maintQ p.pos (plainDone status) s

/-- Mark a maintenance packet as in progress. -/
def maintStart (p : Pkt) (s : State) : State := modPkt maintQ p.pos (fun p => { p with started := true }) s

/-! ### The parameters of a region -/

/-- What REGION_CREATE asks for. -/
structure Create where
  id : Nat
  bx0 : Nat
  by0 : Nat
  bwM1 : Nat
  bhM1 : Nat
  units : Nat
  segMask : Nat
  pages : Nat
deriving DecidableEq, Repr

/-- The parameters of a REGION_CREATE packet (Table 12-2; rect as byte 12 of Table 11-4). -/
def readCreate (b : List Byte) : Create :=
  let rect := fieldAt b 17 1
  { id := fieldAt b 16 1, bx0 := bits rect 0 0, by0 := bits rect 2 1, bwM1 := bits rect 3 3, bhM1 := bits rect 5 4,
    units := fieldAt b 18 1, segMask := bits (fieldAt b 20 4) 23 0, pages := fieldAt b 24 4 }

/-- The rectangle of a request, as a region. -/
def Create.rect (c : Create) : Region :=
  { Region.reset with bx0 := c.bx0, by0 := c.by0, bwM1 := c.bwM1, bhM1 := c.bhM1 }

/-- Is the rectangle one of the 30 of R65? -/
def Create.rectOk (c : Create) : Bool := decide (c.bx0 + c.bwM1 + 1 ≤ 2) && decide (c.by0 + c.bhM1 + 1 ≤ 4)

/-- Does a region that is not FREE share a macro-block with the rectangle (R65)? -/
def Create.overlaps (c : Create) (s : State) : Bool :=
  s.rgn.rgn.toList.any fun r => r.state != .free && r.mbs.any fun m => c.rect.hasMb m.val

/-- The segment directions a segment mask names, as 2·segment + direction. -/
def segDirs (mask : Nat) : List (Fin 48) := (allFin 48).filter fun d => bit mask (d.val / 2)

/-- Units of a segment direction that are not allocated. -/
def freeUnits (s : State) (d : Fin 48) : Nat := (s.rim.alloc[d].toList.filter Option.isNone).length

/-- The stack of a region's page v (R216). -/
def pageStack (bx0 bwM1 v : Nat) : Nat := if bwM1 = 1 then [0, 2, 1, 3].getD (v % 4) 0 else 2 * bx0 + v % 2

/-- Free region frames of a stack: those whose owner is 0xF. -/
def freeFrameCount (m : MemState) (k : Nat) : Nat :=
  12160 - (m.owner.filter fun e => e.1 / 2 ^ 14 == k && decide (e.1 % 2 ^ 14 < 12160)).length

/-- Are there free frames enough for the pages, in each stack they go to (R216)? -/
def framesEnough (m : MemState) (bx0 bwM1 pages : Nat) : Bool :=
  (List.range 4).all fun k =>
    let need := if bwM1 = 1 then
        (match k with | 0 => (pages + 3) / 4 | 2 => (pages + 2) / 4 | 1 => (pages + 1) / 4 | _ => pages / 4)
      else if k = 2 * bx0 then (pages + 1) / 2 else if k = 2 * bx0 + 1 then pages / 2 else 0
    decide (need ≤ freeFrameCount m k)

/-! ### Cores (R171) -/

/-- Capacity of a core (Table 8-2). -/
def coreCapacity (c : Nat) : Nat := if c = 1 then 1 else 2
/-- Preference rank of a core (Table 8-2). -/
def coreRank (c : Nat) : Nat := [1, 6, 2, 4, 3, 5].getD c 9
/-- Regions a core serves. -/
def CpCore.load (c : CpCore) : Nat := ((List.range 8).filter fun i => c.regions.getLsbD i).length

/-- The core a new region goes to, if one qualifies (R171). -/
def pickCore (s : State) : Option (Fin 6) :=
  ((allFin 6).filter fun c => s.mkh.cp[c].online && decide (s.mkh.cp[c].load < coreCapacity c.val)).foldl
    (fun best c => match best with
      | none => some c
      | some b =>
        if s.mkh.cp[c].load < s.mkh.cp[b].load ∨
            (s.mkh.cp[c].load = s.mkh.cp[b].load ∧ coreRank c.val < coreRank b.val) then some c else some b) none

/-- The first failing check of R69, as its status. -/
def createCheck (c : Create) (s : State) : Option Nat :=
  if 7 < c.id ∨ s.rgn.rgn[Fin.ofNat 8 c.id].state ≠ .free then some Status.createIdState
  else if !c.rectOk then some Status.createRect
  else if c.overlaps s then some Status.createOverlap
  else if c.segMask = 0 ∨ c.units = 0 ∨ 31 < c.units then some Status.createRimRequest
  else if (segDirs c.segMask).any (fun d => decide (freeUnits s d < c.units)) || !framesEnough s.mem c.bx0 c.bwM1 c.pages then
    some Status.createResources
  else if (pickCore s).isNone then some Status.createNoCp
  else if s.noise.state = .failed then some Status.entropyFailure
  else none

/-! ### Creation (Table 3-5) -/

/-- Give the n lowest-numbered free units of a list of owners to context c (R62). -/
def takeUnits (c : Fin 9) : Nat → List (Option (Fin 9)) → List (Option (Fin 9))
  | _, [] => []
  | 0, l => l
  | n + 1, o :: l => match o with
    | none => some c :: takeUnits c n l
    | some x => some x :: takeUnits c (n + 1) l

def takeUnitsV (c : Fin 9) (n : Nat) (v : Vector (Option (Fin 9)) 32) : Vector (Option (Fin 9)) 32 :=
  let l := takeUnits c n v.toList
  Vector.ofFn fun i => l.getD i.val none

/-- The free frames of stack k (R207, R215). -/
def stackFree (s : State) (k : Nat) : List Nat :=
  let used := (s.mem.owner.map Prod.fst).filter fun f => f / 2 ^ 14 == k
  ((List.range 12160).map fun p => k * 2 ^ 14 + p).filter fun f => !used.contains f

/-- A free frame of each named stack in turn; which one is free (R216, log entry 6). -/
def pickFrames : List (Fin 4) → Nat → Vector (List Nat) 4 → List Nat
  | [], _, _ => []
  | k :: ks, i, free =>
    let l := free[k]
    let j := Config.framePick i % l.length
    l.getD j 0 :: pickFrames ks (i + 1) (upd free k fun l => l.eraseIdx j)

/-- Claim a free frame of each named stack in turn for region n (R69, R216). -/
def claimFrames (n : Fin 8) (ks : List (Fin 4)) (s : State) : State :=
  let fs := pickFrames ks s.free (Vector.ofFn fun k => if ks.contains k then stackFree s k.val else [])
  modRgn n (fun r => { r with claimed := fs })
    (useFree ks.length (modMem (fun m => { m with owner := fs.map (fun f => (f, n.val)) ++ m.owner }) s))

/-- What REGION_CREATE returns to reset values: the tick registers but for overrun_limit (R423), events, fences and locks
(R322), the region log (R326), the Ibex and Chamois counters (R164), duty_skip (Table 16-10), the annealing registers. -/
def freshRegion (n : Fin 8) (s : State) : State :=
  let r := s.rgn.rgn[n]
  let s := modTickRgn n (fun t => { TickRgn.reset with limit := t.limit }) s
  let s := modEvt n (fun _ => EvtRgn.reset) s
  let s := modErr (fun e => { e with rgn := upd e.rgn n fun _ => ErrLog.reset }) s
  let s := modTickJob n (fun t => { TickJob.reset with lastTiles := t.lastTiles }) s
  let s := modAnl n (fun a => { AnlRgn.reset with chainSelPf := a.chainSelPf, chainSelVf := a.chainSelVf, schedSelPf := a.schedSelPf, schedSelVf := a.schedSelVf }) s
  let s := modPwrRgn n (fun p => { p with level := 0, waits := false, skip := 0 }) s
  let s := modNoiseRgn n (fun _ => NoiseRgn.reset) s
  forEach (regionUnits r) (fun e s => match e with
    | .ibex i => modIbex i (fun x => { x with ops := 0, satCount := 0, nanCount := 0, busyCclk := 0, faultCause := 0 }) s
    | .cham i => modCham i (fun x => { x with instret := 0, cause := 0xFF, tval := 0 }) s
    | _ => s) s

/-- Steps 1-3 of creation: FORMING, a new generation, claimed frames, tags and Rim units (in force from the next tick on), idle slot tables, cleared link
counters (R62, R69, R72). -/
def startCreate (c : Create) (s : State) : State :=
  let n : Fin 8 := Fin.ofNat 8 c.id
  let s := modRgn n (fun r => { r with
    bx0 := c.bx0, by0 := c.by0, bwM1 := c.bwM1, bhM1 := c.bhM1, rimUnits := c.units, segMask := c.segMask,
    state := .forming, tearingDown := false, activeBank := false, gen := r.gen + 1, before := .free, claimed := [],
    jobCounter := 0, recovery := 0 }) s
  let r := s.rgn.rgn[n]
  let s := claimFrames n ((List.range c.pages).map fun v => Fin.ofNat 4 (pageStack c.bx0 c.bwM1 v)) s
  let s := modCtx (ctxOf n) (fun x => { x with pages := c.pages }) s
  let s := forEach r.mbs (fun m s =>
    { s with mesh := { s.mesh with tagNext := s.mesh.tagNext.set m (some n) },
             rgn := { s.rgn with mbOwner := s.rgn.mbOwner.set m (some n) } }) s
  let s := forEach (segDirs c.segMask) (fun d s =>
    { s with rim := { s.rim with alloc := upd s.rim.alloc d (takeUnitsV (ctxOf n) c.units) } }) s
  let s := mapLinks r (fun _ => Link.reset) s
  freshRegion n s

/-- The bytes of a page table whose first pages lie in the given frames: valid and writable (Table 10-2, R216). -/
def tableBytes (frames : List Nat) : List Byte := frames.flatMap fun f => leBytes 8 (3 + f * 16)

/-- The carve-out frames free for a page table: none a context's table lies in, none of a save area (R207, R334). -/
def tableFrames (s : State) : List Nat :=
  let all := (List.range 4).flatMap fun k => (List.range 112).map fun p => k * 2 ^ 14 + 12160 + p
  all.filter fun f => !(s.mem.ctx.toList.any fun x => x.ptb == f * 2 ^ 21)

/-- Step 4: the memory key and the page table (R216, R218); which carve-out frame holds the table is free. -/
def openMemory (n : Fin 8) (s : State) : State :=
  let c := ctxOf n
  let k := drawXts s
  let s := k.2
  let r := s.rgn.rgn[n]
  let l := tableFrames s
  let base := l.getD (Config.framePick s.free % l.length) 0 * 2 ^ 21
  let s := useFree 1 s
  let s := modMem (fun m => physWrite (dropFrame (base / 2 ^ 21) m) base (tableBytes r.claimed)) s
  let mask : BitVec 4 := if r.bwM1 = 1 then 0xF else if r.bx0 = 0 then 0x3 else 0xC
  modCtx c (fun x => { x with key := some k.1, keyValid := true, ptb := base, stackMask := mask, tags := false, integKey := none }) s

/-- Step 5: the region's core; on a VF FLR it keeps the core it had, if that is online (R171, R233). -/
def assignCore (n : Fin 8) (s : State) : Option State :=
  let r := s.rgn.rgn[n]
  let keep : Option (Fin 6) :=
    if r.byFlr && s.mkh.cp[Fin.ofNat 6 r.cp].online && decide (r.cp < 6) then some (Fin.ofNat 6 r.cp) else none
  match keep.orElse fun _ => pickCore s with
  | none => none
  | some c => some (modCp c (fun x => { x with regions := x.regions ||| ((1 : BitVec 8) <<< n.val) })
      (modRgn n (fun r => { r with cp := c.val }) s))

/-- Discard the queues of a region: disabled, positions 0 (R275). -/
def Queue.discard (q : Queue) : Queue :=
  { q with enable := false, state := .disabled, idlePending := false, cqFull := false, latched := 0, cons := 0,
           cdone := 0, ccons := 0, pkts := [], marks := [], bad := none }
def discardQueues (n : Fin 8) (s : State) : State :=
  forEach (allFin 4) (fun q => modQue (qIndex n q) Queue.discard) s

/-- Begin the destruction of region n (steps 1-3 of Table 3-6). -/
def startDestroy (n : Fin 8) (s : State) : State := beginTeardown n s

/-- Begin a VF FLR of region n (R233): its log is cleared, and it is destroyed in order to be created again. -/
def startFlr (n : Fin 8) (s : State) : State :=
  let s := modErr (fun e => { e with rgn := upd e.rgn n fun _ => ErrLog.reset }) s
  startDestroy n (modRgn n (fun r => { r with byFlr := true, flrWaits := false }) s)

/-- The maintenance packet that destroys region n and is in progress, if there is one. -/
def destroyPkt (s : State) (n : Fin 8) : Option Pkt :=
  match current s maintQ with
  | some p => if p.started && pktOp p.bytes == 0x41 && fieldAt p.bytes 16 1 == n.val then some p else none
  | none => none

/-- REGION_CREATE (R69, R70): the first failing check decides the status; otherwise creation starts. -/
def execRegionCreate (s : State) : Out :=
  maintCommand 0x40 (fun p s =>
    let c := readCreate p.bytes
    match createCheck c s with
    | some st => maintDone p st s
    | none => maintStart p (modRgn (Fin.ofNat 8 c.id) (fun r => { r with byFlr := false }) (startCreate c s))) s

/-- Step 6: OPEN, and the completion; a VF FLR or a REGION_DESTROY that waited then begins (R71, R233). -/
def creationDone (n : Fin 8) (s : State) : State :=
  let r := s.rgn.rgn[n]
  let s := forEach (regionUnits r) reloadUnit s
  let s := modNoiseRgn n (fun x => { x with root := some (noiseRoot (List.replicate 32 0)) }) s
  let s := modRgn n (fun r => { r with state := .opened, byFlr := false }) s
  let s := if r.byFlr then s else failMaint 0x40 n Status.ok s
  if r.destroyWaits then startDestroy n (modRgn n (fun r => { r with destroyWaits := false }) s)
  else if r.flrWaits then startFlr n s else s

/-- Do the firmware cores that create and seal regions run: the Secure Markhor (R169), and for a maintenance command the
maintenance core (R172)? -/
def creators (s : State) (byFlr : Bool) : Bool := s.mkh.lockstepOk && (byFlr || !s.err.maintCp)

/-- Are the Rim units of region n its own by now (R62)? -/
def unitsTaken (s : State) (n : Fin 8) : Bool :=
  (segDirs s.rgn.rgn[n].segMask).all fun d => s.rim.owner[d].toList.contains (some (ctxOf n))

/-- The creation steps of region r finish, once noise is READY (R70) and its Rim units are its own (R62). -/
def execCreationComplete (r : Fin 8) (s : State) : Out :=
  if s.rgn.rgn[r].state = .forming ∧ drbgServes s 3 ∧ unitsTaken s r ∧ creators s s.rgn.rgn[r].byFlr then
    let s := openMemory r s
    .next (settleMaint (match assignCore r s with
      | none => creationFails r Status.createNoCp s
      | some s => creationDone r s))
  else .next s

/-- REGION_DESTROY (R71): of a FREE region REGION_STATE; while a VF FLR re-creates the region it waits. -/
def execRegionDestroy (s : State) : Out :=
  maintCommand 0x41 (fun p s =>
    let n : Fin 8 := Fin.ofNat 8 (fieldAt p.bytes 16 1)
    let r := s.rgn.rgn[n]
    if r.state = .free then maintDone p Status.regionState s
    else if r.byFlr || r.state == .forming then
      maintStart p (modRgn n (fun r => { r with destroyWaits := true }) s)
    else startDestroy n (maintStart p s)) s

/-- Steps 4-7 of destruction at the tick boundary (Table 3-6); after a VF FLR the region is created again with the same
rectangle, Rim units and mem_pages (R233). -/
def execDestroyComplete (r : Fin 8) (s : State) : Out :=
  let g := s.rgn.rgn[r]
  if g.tearingDown then
    let pages := s.mem.ctx[ctxOf r].pages
    let s := discardQueues r (freeRegion r s)
    let s := modEvt r (fun e => { e with records := [] }) s
    if g.byFlr then
      if s.noise.state = .failed then
        .next (settleMaint (creationFails r Status.entropyFailure s))
      else
        .next (startCreate { id := r.val, bx0 := g.bx0, by0 := g.by0, bwM1 := g.bwM1, bhM1 := g.bhM1,
                             units := g.rimUnits, segMask := g.segMask, pages := pages } s)
    else
      .next (settleMaint (match destroyPkt s r with
        | some p => maintDone p Status.ok s
        | none => s))
  else .next s

end Sys2Proof.Machine
end

