-- ==== Sys2Proof/Machine/Snapshots.lean ====
section
/-!
DEFINITION. State as the block shows it in words and records: DEV_STATUS, QUE_CTRL and QUE_STAT (Table 12-7), the region
record (Table 11-4), event words, and the snapshots that QUERY writes (Table 12-4).
-/
namespace Sys2Proof.Machine

/-- DEV_STATUS (Table 16-7); reset_cause is a boot field, 0 until ready (R412). -/
def devStatus (s : State) : Nat :=
  b2n s.dev.ready + stageCode s.dev.stage * 2 + (if s.dev.ready then resetCauseCode s.dev.resetCause else 0) * 2 ^ 8

/-- MKH_FW_STAT (Table 8-7). -/
def fwStat (s : State) : Nat :=
  b2n s.mkh.activeBank + b2n s.mkh.pending * 2 + b2n s.mkh.fallback * 4 + Config.sitePolicy.toNat * 8 + s.mkh.svn % 2 ^ 16 * 2 ^ 16

/-- QUE_CTRL (Table 12-7). -/
def queCtrl (q : Queue) : Nat :=
  b2n q.enable + b2n q.cont * 2 + b2n q.loc * 4 + b2n q.cloc * 8 + q.size * 2 ^ 4 + q.csize * 2 ^ 9 + q.vector * 2 ^ 14

/-- QUE_STAT (Table 12-7). -/
def queStat (q : Queue) : Nat :=
  qstateCode q.state + b2n q.idlePending * 4 + b2n q.cqFull * 8 + b2n q.dbErr * 16 + b2n q.cfgErr * 32 + q.gen.toNat * 2 ^ 16

/-- EVT_EVENTe (Table 13-9). -/
def eventWord (e : Event) : Nat := e.gen.toNat + estateCode e.state * 2 ^ 28

/-- The region's rectangle byte (byte 12 of Table 11-4). -/
def rectByte (r : Region) : Nat := r.bx0 + r.by0 * 2 + r.bwM1 * 8 + r.bhM1 * 16

/-- The owner measurement of region n: 32 zero bytes unless it is SEALED (R235). -/
def ownerMeas (s : State) (n : Fin 8) : List Byte :=
  if s.rgn.rgn[n].state = .sealed then slice s.sec.rgn[n].owner 0 32 else List.replicate 32 0

/-- The region record of region n, 64 bytes (Table 11-4). -/
def regionRecord (s : State) (n : Fin 8) : List Byte :=
  let r := s.rgn.rgn[n]
  let x := s.sec.rgn[n]
  leBytes 1 n.val ++ leBytes 1 (rstateCode r.state) ++ leBytes 1 (b2n x.hostIde + b2n x.ringOk * 2)
    ++ leBytes 1 (b2n x.attest + b2n x.tagKey.isSome * 2 + tdiCode x.tdi * 4) ++ leBytes 4 r.gen.toNat
    ++ leBytes 4 x.epoch.toNat ++ leBytes 4 (rectByte r) ++ leBytes 4 s.mem.ctx[ctxOf n].pages
    ++ List.replicate 12 0 ++ ownerMeas s n

/-- The snapshot of a QUERY kind; `n` the region, `i` the queue it is of (Table 12-4). -/
def querySnapshot (s : State) (kind : Nat) (n : Fin 8) (i : Fin 33) : List Byte :=
  match kind with
  | 0 =>
    leBytes 16 Config.chipSerial.toNat ++ leBytes 4 s.mkh.release.toNat ++ leBytes 1 0xB0
      ++ leBytes 1 (nstateCode s.noise.state) ++ leBytes 2 (lockCode s.tick.lock) ++ leBytes 8 s.tick.tn.toNat
      ++ leBytes 4 (devStatus s) ++ List.replicate 28 0
  | 1 => regionRecord s n
  | 2 =>
    let q := s.que[i]
    leBytes 4 q.latched.toNat ++ leBytes 4 q.cons.toNat ++ leBytes 4 q.cdone.toNat ++ leBytes 4 q.ccons.toNat
      ++ leBytes 4 (queStat q) ++ List.replicate 12 0
  | 3 => (s.evt.rgn[n]).fence.toList.flatMap fun v => leBytes 8 v.toNat
  | _ => (s.evt.rgn[n]).event.toList.flatMap fun e => leBytes 4 (eventWord e)

end Sys2Proof.Machine
end

