-- ==== Sys2Proof/Machine/Queues.lean ====
section
/-!
DEFINITION. Queues and command packets (12_queues_commands.md): enabling and disabling, doorbells and completion positions,
the fetch of packets, and the packets that are not RUN nor a region's or the ring's maintenance command.
-/
namespace Sys2Proof.Machine

/-! ### The doorbell pages (R277, R278, R291) -/

/-- The doorbell page a view has for queue i: the PF every queue's, a VF its own region's (Table 10-3). -/
def pageOf (w : View) (i : Fin 33) : Bool :=
  match viewRegion w with
  | none => true
  | some n => qRegion i == some n

/-- Do R224, R225, R227 or R391 refuse what a view writes to queue i's page? -/
def pageShut (s : State) (w : View) (i : Fin 33) : Bool :=
  !s.dev.ready || s.pcie.d3[viewIdx w] ||
    match viewRegion w, qRegion i with
    | some n, _ => s.rgn.rgn[n].state == .free || s.rgn.rgn[n].state == .forming
    | none, some n => ctxSealed s (ctxOf n)
    | none, none => false

/-- The window conditions of R278 on a producer position. -/
def prodOk (q : Queue) (prod : W32) : Bool :=
  decide ((prod - q.cons).toNat ≤ 2 ^ q.size) && decide ((q.latched - q.cons).toNat ≤ (prod - q.cons).toNat)

/-- A refused doorbell: counted, and db_err set; stale_gen counts it when gen alone failed (R278; log entry 22). -/
def refuseDoorbell (stale : Bool) (q : Queue) : Queue :=
  { q with dbErr := true, dbIgnored := satInc 16 q.dbIgnored,
           staleGen := if stale then satInc 16 q.staleGen else q.staleGen }

/-- An accepted doorbell: prod replaces latched, and an idle queue wakes (R278, R281). -/
def takeDoorbell (prod : W32) (q : Queue) : Queue :=
  { q with latched := prod, state := if q.state = .idle ∧ prod ≠ q.cons then .active else q.state }

/-- A 64-bit doorbell write to queue i's page through a view (R277, R278). -/
def execDoorbell (w : View) (i : Fin 33) (data : W64) (stores : List (Nat × Byte)) (s : State) : Out :=
  let s := forEach stores (fun x => writeHost x.1 [x.2]) s
  if !pageOf w i || !tdiAdmits s w then .next s else
  let prod : W32 := data.setWidth 32
  let gen : W32 := (data >>> 32).setWidth 32
  let q := s.que[i]
  let genOk := gen.toNat == q.gen.toNat
  let rest := q.enable && prodOk q prod && !pageShut s w i
  if genOk && rest then .next (modQue i (takeDoorbell prod) s)
  else .next (modQue i (refuseDoorbell (rest && !genOk)) s)

/-- A write of the completion consumer position, which may free a slot of the completion ring (R277, R291). -/
def execCconsWrite (w : View) (i : Fin 33) (v : W32) (s : State) : Out :=
  if !pageOf w i || !tdiAdmits s w || pageShut s w i then .next s
  else .next (settleQueue i (modQue i (fun q => Queue.hold { q with ccons := v }) s))

/-! ### QUE_CTRL (R274, R276) -/

/-- May a view write queue i's registers (R276, R298)? -/
def queWritable (s : State) (w : View) (i : Fin 33) : Bool :=
  viewOk s w && pageOf w i &&
    match viewRegion w, qRegion i with
    | none, some n => !ctxSealed s (ctxOf n)
    | _, _ => true

/-- The ring size a field names; a reserved encoding keeps the old one (R11). -/
def sizeOf' (code old : Nat) : Nat := if 4 ≤ code ∧ code ≤ 16 then code else old

/-- The fields of QUE_CTRL but enable after an accepted write; continue_after_fault is reserved for queue 32. -/
def setQueCtrl (i : Fin 33) (v : Nat) (q : Queue) : Queue :=
  { q with cont := bit v 1 && i != maintQ, loc := bit v 2, cloc := bit v 3, size := sizeOf' (bits v 8 4) q.size,
           csize := sizeOf' (bits v 13 9) q.csize, vector := bits v 19 14 }

/-- A write that R274 refuses: every field keeps its value. -/
def refuseCtrl (q : Queue) : Queue := { q with cfgErr := true }

/-- Enable a queue: a new generation, positions 0, IDLE (R274). Sizes that no accepted write has set keep it from being
enabled (DESIGN CHOICE, log entry 24). -/
def enableQueue (i : Fin 33) (v : Nat) (q : Queue) : Queue :=
  let q' := setQueCtrl i v q
  if q.enable ∨ q'.size < 4 ∨ q'.csize < 4 then refuseCtrl q
  else { q' with enable := true, gen := q.gen + 1, latched := 0, cons := 0, cdone := 0, ccons := 0, pkts := [],
                 marks := [], bad := none, state := .idle, idlePending := false, cqFull := false }

/-- Disable an IDLE queue with no packet fetched or running (R274). -/
def disableQueue (i : Fin 33) (v : Nat) (q : Queue) : Queue :=
  if q.state = .idle ∧ q.pkts = [] then
    { setQueCtrl i v q with enable := false, state := .disabled, idlePending := false }
  else refuseCtrl q

/-- A write of QUE_CTRL with enable = 1 (R274). -/
def execQueueEnable (w : View) (i : Fin 33) (v : W32) (s : State) : Out :=
  if queWritable s w i && bit v.toNat 0 then .next (modQue i (enableQueue i v.toNat) s) else .next s

/-- A write of QUE_CTRL with enable = 0 to an enabled queue (R274). -/
def execQueueDisable (w : View) (i : Fin 33) (v : W32) (s : State) : Out :=
  if queWritable s w i && !bit v.toNat 0 && s.que[i].enable then .next (modQue i (disableQueue i v.toNat) s)
  else .next s

/-! ### Fetching (R281) -/

/-- Does the device fetch from queue i: enabled and served, its region OPEN, SEALED or being torn down, not sealing, not
DISABLED (R246, R297, R339), the maintenance queue's core online (R341)? -/
def fetches (s : State) (i : Fin 33) : Bool :=
  s.dev.ready && s.que[i].enable &&
    match qRegion i with
    | some n =>
      let r := s.rgn.rgn[n]
      (r.state == .opened || r.state == .sealed || (r.tearingDown && r.state != .disabled)) && !s.sec.rgn[n].sealing
    | none => !s.err.maintCp

/-- The packet at a queue's consumer position; one whose address faults reads as zeros (R212, R273). -/
def packetAt (s : State) (i : Fin 33) : List Byte × MemFault :=
  let q := s.que[i]
  let a := q.base.toNat + 64 * (q.cons.toNat % 2 ^ q.size)
  if q.loc then (readHost s a 64, none) else readDev s (queueTile s i) (qCtx i) a 64

/-- A queue after its fetcher has read a packet. -/
def pushPkt (p : Pkt) (q : Queue) : Queue :=
  { q with cons := q.cons + 1, pkts := q.pkts ++ [p], marks := q.marks.filter (· != p.pos), idlePending := false,
           state := if q.full then .held else .active }

/-- The fetched packets from the running one on (R281): the one whose turn it is, or nothing where none is waiting. -/
def ahead (s : State) (i : Fin 33) : Nat :=
  match turn s i s.que[i].pkts with
  | some p => (s.que[i].pkts.dropWhile fun x => x.pos != p.pos).length
  | none => if s.que[i].cont then 0 else s.que[i].pkts.length

/-- The fetcher of queue i reads its next packet, at most four ahead of the running one, or goes IDLE after re-reading latched
(R281). A packet fetched after tearing_down completes with REGION_STATE (R297). -/
def execPacketFetch (i : Fin 33) (s : State) : Out :=
  let q := s.que[i]
  if !fetches s i then .next s
  else if q.latched = q.cons then
    .next (modQue i (fun q => { q with idlePending := false, state := if q.full then .held else .idle }) s)
  else if 5 ≤ ahead s i then .next s
  else
    let b := packetAt s i
    let down := match qRegion i with
      | some n => s.rgn.rgn[n].tearingDown
      | none => false
    let p : Pkt := { pos := q.cons, bytes := b.1, marked := q.marks.contains q.cons, started := false, gen := 0,
                     done := if down then some (plainDone Status.regionState) else none }
    .next (settleQueue i (modQue i (pushPkt p) (noteIf (qCtx i) b.2 (queueSite s i) s)))

/-! ### Packets -/

/-- Run the packet whose turn it is on queue i, if it carries `op` and the queue is the one its core takes (R271): rejected under
R289, or acted on. -/
def packetCommand (i : Fin 33) (op : Nat) (act : Pkt → State → State) (s : State) : Out :=
  match currentOp s i op with
  | none => .next s
  | some p =>
    if !coreTakes s i then .next s
    else match pktReject i.val p.bytes with
      | some st => .next (finish i p.pos st (served i s))
      | none => .next (settleQueue i (act p (served i s)))

/-- Decide a packet's outcome. -/
def done (i : Fin 33) (p : Pkt) (status : Nat) (s : State) : State := decide' i p.pos (plainDone status) s

/-- Mark a packet as started: it waits. -/
def started (i : Fin 33) (p : Pkt) (s : State) : State := modPkt i p.pos (fun p => { p with started := true }) s

/-- The region of a region queue; queue 32 has none of these packets. -/
def regionOf (i : Fin 33) : Fin 8 := Fin.ofNat 8 (i.val / 4)

/-- NOP (R282). -/
def execNop (i : Fin 33) (s : State) : Out := packetCommand i 0x00 (fun p s => done i p Status.ok s) s

/-- FENCE_SIGNAL (R286). -/
def execFenceSignal (i : Fin 33) (s : State) : Out :=
  packetCommand i 0x03 (fun p s =>
    done i p Status.ok
      (raiseFence (regionOf i) (fieldAt p.bytes 16 1) (BitVec.ofNat 64 (fieldAt p.bytes 24 8)) s)) s

/-- FENCE_WAIT (R286): it waits until the fence has reached its value. -/
def execFenceWait (i : Fin 33) (s : State) : Out := packetCommand i 0x04 (fun p s => started i p s) s

/-- EVENT_RECORD (R313): a new generation, which the earlier packets of the queue decide. -/
def execEventRecord (i : Fin 33) (s : State) : Out :=
  packetCommand i 0x05 (fun p s =>
    let n := regionOf i
    let e := fieldAt p.bytes 16 2
    let s := recordEvent n e s
    let g := (getEvent s n e).gen.toNat
    done i p Status.ok (modEvt n (fun x => { x with records := x.records ++ [(e, g, qClass i, p.pos)] }) s)) s

/-- EVENT_WAIT (R286, R314): generation 0 is the latest one; an event never recorded releases it at once. -/
def execEventWait (i : Fin 33) (s : State) : Out :=
  packetCommand i 0x06 (fun p s =>
    let g := fieldAt p.bytes 20 4 % 2 ^ 28
    let c := (getEvent s (regionOf i) (fieldAt p.bytes 16 2)).gen.toNat
    if g = 0 ∧ c = 0 then done i p Status.ok s
    else modPkt i p.pos (fun p => { p with started := true, gen := if g = 0 then c else g }) s) s

/-- QUERY (R287): a snapshot to memory in the queue's context. -/
def execQuery (i : Fin 33) (s : State) : Out :=
  packetCommand i 0x07 (fun p s =>
    let kind := fieldAt p.bytes 16 1
    let target := fieldAt p.bytes 17 1
    let n : Fin 8 := if i = maintQ then Fin.ofNat 8 target else regionOf i
    let q : Fin 33 := if i = maintQ then Fin.ofNat 33 target else qIndex (regionOf i) (Fin.ofNat 4 target)
    let r := writeDev (queueTile s i) (qCtx i) (fieldAt p.bytes 24 6) (querySnapshot s kind n q) s
    done i p Status.ok (noteIf (qCtx i) r.2 (queueSite s i) r.1)) s

/-! ### CANCEL (R285) -/

/-- What a CANCEL finds at a sequence of a queue. -/
inductive Target where
  | unstarted
  | job (k : JobRef)
  | waiting
  | none
deriving DecidableEq, Repr

/-- Is a position submitted and not yet fetched? -/
def submitted (q : Queue) (pos : W32) : Bool := decide ((pos - q.cons).toNat < (q.latched - q.cons).toNat)

/-- The target of a CANCEL on region n's queue q (R285). -/
def cancelTarget (s : State) (n : Fin 8) (q : Fin 4) (pos : W32) : Target :=
  let i := qIndex n q
  match s.que[i].pkts.find? (fun p => p.pos == pos) with
  | some p =>
    if p.done.isSome then .none
    else if !p.started then .unstarted
    else if pktOp p.bytes = 1 then
      match findJob s { r := n, q := q, pos := pos } with
      | some j => if j.phase = .ending then .none else .job j.ref
      | none => .none
    else if pktOp p.bytes = 4 ∨ pktOp p.bytes = 6 then .waiting
    else .none
  | none => if submitted s.que[i] pos then .unstarted else .none

/-- Mark a packet that has not started; its job's staged image is discarded (R321). -/
def markPacket (n : Fin 8) (q : Fin 4) (pos : W32) (s : State) : State :=
  let i := qIndex n q
  let s := modPkt i pos (fun p => { p with marked := true }) s
  let s := if submitted s.que[i] pos then modQue i (fun x => { x with marks := x.marks ++ [pos] }) s else s
  dropStaged { r := n, q := q, pos := pos } s

/-- A CANCEL reaches a job: a running one is stopped, one whose attempt has ended keeps draining, one that waits for its
next attempt completes (R285, R333). -/
def cancelJob (k : JobRef) (by_ : PktRef) (s : State) : State :=
  match findJob s k with
  | some j => match j.phase with
    | .restoring => completeJob k Status.cancelled s
    | .stopped => modJob k (fun j => { j with cancel := some by_ }) s
    | _ => stopJob k none (some by_) s
  | none => s

/-- CANCEL of a packet of its own region (R285). -/
def execCancel (i : Fin 33) (s : State) : Out :=
  packetCommand i 0x02 (fun p s =>
    let n := regionOf i
    let q : Fin 4 := Fin.ofNat 4 (fieldAt p.bytes 16 1)
    let pos := BitVec.ofNat 32 (fieldAt p.bytes 20 4)
    let own := q == qClass i && pos == p.pos
    match if own then .none else cancelTarget s n q pos with
    | .none => done i p Status.cancelNoTarget s
    | .unstarted =>
      let s := markPacket n q pos s
      if q = qClass i then done i p Status.ok s else started i p s
    | .job k => started i p (cancelJob k { i := i, pos := p.pos } s)
    | .waiting => started i p (decide' (qIndex n q) pos (plainDone Status.cancelled) s)) s

/-! ### TICK_CONFIG (R23) -/

/-- Does no region tick, and is no Halyard output armed (R23)? -/
def tnFree (s : State) : Bool :=
  s.tick.rgn.toList.all (fun t => !t.ticking) && s.haly.out.toList.all fun o => !o.armed

/-- TICK_CONFIG (R23, R296): TN changes at the next tick boundary, where the command completes. -/
def execTickConfig (s : State) : Out :=
  maintCommand 0x45 (fun p s =>
    if tnFree s then
      maintStart p { s with tick := { s.tick with newTn := some (BitVec.ofNat 64 (fieldAt p.bytes 24 8)) } }
    else maintDone p Status.tickBusy s) s

end Sys2Proof.Machine
end

