-- ==== Sys2Proof/Machine/RunProg.lean ====
section
/-!
DEFINITION. Run programs (13_run_programs.md): staging and starting a RUN (R284, R317, R318), operands (R300), the control
words (R301-R306, R310-R315), chains and deferred effects (R311, R312), and END (R320).
-/
namespace Sys2Proof.Machine

/-! ### Staging (R284, R317) -/

/-- The capture list of a RUN (R283): (address, length); a list that cannot be read holds zeros (R212). -/
def stageCaps (s : State) (n : Fin 8) (b : List Byte) : Checked (List (Nat × Nat)) :=
  if runCapCount b = 0 then .ok [] else
  let r := readDev s (regionCpTile s n) (ctxOf n) (runCapAddr b) (16 * runCapCount b)
  match capList r.1 (runCapCount b) with
  | .ok l => .ok (l.map fun e => (e.addr, e.len))
  | .error st => .error { status := st, fault := r.2 }

/-- A control word's bytes. -/
def wordAt (s : State) (n : Fin 8) (prog i : Nat) : List Byte × MemFault :=
  readDev s (regionCpTile s n) (ctxOf n) (prog + 16 * i) 16

/-- The checks of control words `i` to 15, up to the first END (R317, R318): reserved fields, and PRELOAD where it must stand
and nowhere else. A word that cannot be read is read again when it executes. -/
def stageWords (s : State) (n : Fin 8) (prog : Nat) (tick : Bool) : Nat → Nat → Checked Unit
  | 0, _ => .ok ()
  | k + 1, i =>
    let r := wordAt s n prog i
    if r.2.isSome then (if i = 0 ∧ tick then .error { status := Status.tickPlanInvalid, fault := r.2 } else .ok ())
    else
      let w := readCw r.1
      if !cwOk w then reject Status.reservedNonzero
      else if i = 0 ∧ tick ∧ w.op ≠ 0x0B then reject Status.tickPlanInvalid
      else if w.op = 0x0B ∧ (i ≠ 0 ∨ tick = false) then reject Status.badField
      else if w.op = 0x0E then .ok ()
      else stageWords s n prog tick k (i + 1)

/-! ### Operands (R300) -/

/-- An aligned 64-bit word of the job's context; the error is the translation fault, none for a misaligned address. -/
def operandWord (s : State) (n : Fin 8) (a : Nat) : Except MemFault Nat :=
  if a % 8 ≠ 0 then .error none
  else
    let r := readWord s (regionCpTile s n) (ctxOf n) a
    match r.2 with
    | none => .ok r.1.toNat
    | some f => .error (some f)

/-- Where a word's amode finds its operand: an address, for amodes 1 to 3. -/
def operandAddr (s : State) (n : Fin 8) (param lc0 : Nat) (w : Word) : Except MemFault Nat :=
  match w.amode with
  | 1 => .ok ((param + w.y) % 2 ^ 64)
  | 2 => (operandWord s n ((param + w.y) % 2 ^ 64)).map (· % 2 ^ 48)
  | _ => (operandWord s n ((param + w.y + 8 * lc0) % 2 ^ 64)).map (· % 2 ^ 48)

/-- An address operand. -/
def addrOperand (s : State) (n : Fin 8) (param lc0 : Nat) (w : Word) : Except MemFault Nat :=
  if w.amode = 0 then .ok (w.y % 2 ^ 48) else operandAddr s n param lc0 w

/-- A value operand. -/
def valueOperand (s : State) (n : Fin 8) (param lc0 : Nat) (w : Word) : Except MemFault Nat :=
  if w.amode = 0 then .ok w.y else (operandAddr s n param lc0 w).bind (operandWord s n)

/-! ### Which RUNs consume noise (R106) -/

/-- The generate requests of a descriptor: one of MASK, two of a Chamois descriptor with its random flag (R160, R201). -/
def noiseNeed (b : List Byte) : Nat :=
  if dClass b == 4 && fieldAt b 16 1 == 10 then 1
  else if dClass b == 2 && bit (fieldAt b 17 1) 0 then 2
  else 0

/-- Does a descriptor request randomness: MASK, or a Chamois descriptor with its random flag (R106)? -/
def wantsRandom (b : List Byte) : Bool := noiseNeed b != 0

/-- Does one of the first `k` descriptors of the chain at `a` request randomness? -/
def chainWantsRandom (s : State) (n : Fin 8) : Nat → Nat → Bool
  | 0, _ => false
  | k + 1, a =>
    let r := readDev s (regionCpTile s n) (ctxOf n) a 64
    if a % 64 ≠ 0 ∨ r.2.isSome then false
    else wantsRandom r.1 || (dChain r.1 && chainWantsRandom s n k (dNext r.1))

/-- Does a RUN carry a descriptor that requests randomness, in a chain that one of its control words 0 to 15 launches or arms? What
later words launch is met when it is dispatched (DEDUCED, log entry 101). -/
def carriesRandom (s : State) (n : Fin 8) (b : List Byte) : Bool :=
  let words := (List.range 16).map fun i => wordAt s n (runProg b) i
  ((words.takeWhile fun r => r.2.isNone && (readCw r.1).op != 0x0E).map fun r => readCw r.1).any fun w =>
    (w.op == 0x01 || w.op == 0x02) && match addrOperand s n (runParam b) 0 w with
      | .ok a => chainWantsRandom s n 1024 a
      | .error _ => false

/-- Is a RUN of region n refused while a device-level error is in force (Table 14-4); `noisy`: it is noise-consuming
(R106)? -/
def runRefused (s : State) (n : Fin 8) (noisy : Bool) : Bool :=
  s.err.rimUe || (List.range 4).any (fun k => s.err.hbmUe.toList.getD k false && maskHas s n k) ||
    (s.err.lockstep && (ctxSealed s (ctxOf n) || noisy))

/-- The checks of R284 that are made again when a RUN starts: region state, attestation, noise, device-level errors. -/
def startRefused (s : State) (n : Fin 8) (b : List Byte) : Option Nat :=
  if s.rgn.rgn[n].tearingDown then some Status.regionState
  else if s.sec.rgn[n].attest then some Status.securePowerWithdrawn
  else if s.noise.state = .failed ∧ (modeTick b || carriesRandom s n b) then some Status.entropyFailure
  else if runRefused s n (modeTick b || carriesRandom s n b) then some Status.deviceFault
  else none

/-! ### Staging a RUN -/

/-- The address of a ticking RUN's plan: PRELOAD's operand, with the loop counters 0. -/
def planAddr (s : State) (n : Fin 8) (b : List Byte) : Checked Nat :=
  match addrOperand s n (runParam b) 0 (readCw (wordAt s n (runProg b) 0).1) with
  | .ok a => .ok a
  | .error f => .error { status := Status.tickPlanInvalid, fault := f }

/-- Stage a RUN of queue i: its capture list, and its image if it ticks (R284, R317). -/
def stageRun (s : State) (i : Fin 33) (n : Fin 8) (p : Pkt) : Checked (List (Nat × Nat) × Option Image) := do
  let b := p.bytes
  require (!s.rgn.rgn[n].tearingDown) Status.regionState
  match pktReject i.val b with
  | some st => reject st
  | none => .ok ()
  let caps ← stageCaps s n b
  match startRefused s n b with
  | some st => reject st
  | none => .ok ()
  stageWords s n (runProg b) (modeTick b) 16 0
  if modeTick b then
    let a ← planAddr s n b
    let img ← stagePlan s n p.pos a
    return (caps, some img)
  else return (caps, none)

/-- The oldest fetched RUN of queue i that is neither staged nor started, marked or decided. -/
def nextRun (s : State) (i : Fin 33) (n : Fin 8) : Option Pkt :=
  s.que[i].pkts.find? fun p => pktOp p.bytes == 1 && !p.started && !p.marked && p.done.isNone &&
    (findJob s { r := n, q := qClass i, pos := p.pos }).isNone

/-- Is the shadow image of region n free for the next Q0 RUN: no other RUN of Q0 is staged (R317)? -/
def shadowFree (s : State) (n : Fin 8) : Bool :=
  s.herd.job[n].shadow.isNone && !s.jobs.any fun j => j.ref.r == n && j.ref.q == 0 && j.phase == .staged

/-- A job as it is staged. -/
def newJob (k : JobRef) (b : List Byte) (caps : List (Nat × Nat)) : Job :=
  { ref := k, pkt := b, phase := .staged, jobId := 0, epoch := 0, startTn := 0, pc := 0, wait := .none, cw := 0,
    lc := Vector.replicate 4 0, progress := 0, seen := 0, idle := 0, budget := 0, moved := 0, chains := [], nextChain := 0, armDone := [],
    arms := [], deferred := [], engines := [], tick := modeTick b, noisy := false, ended := false, merged := true,
    cause := none, cancel := none, stopTn := 0, order := 0, drainOn := false, extra := 0, caps := caps, go := false,
    saveSlot := none }

/-- Check and stage the oldest unstaged RUN of queue i (R284, R317). A failing check completes it, in its turn. -/
def execRun (i : Fin 33) (s : State) : Out :=
  match qRegion i with
  | none => .next s
  | some n =>
    match nextRun s i n with
    | none => .next s
    | some p =>
      if !startsPackets s i || s.rgn.rgn[n].state == .disabled then .next s else
      match stageRun s i n p with
      | .ok (caps, img) =>
        if img.isSome && !shadowFree s n then .next s
        else
          let s := match img with
            | some x => writeImage n x s
            | none => s
          .next { s with jobs := s.jobs ++ [newJob { r := n, q := qClass i, pos := p.pos } p.bytes caps] }
      | .error e =>
        match currentOp s i 0x01 with
        | some c => if c.pos = p.pos then .next (finish i p.pos e.status (noteIf (ctxOf n) e.fault (queueSite s i) s)) else .next s
        | none => .next s

/-! ### The start of an attempt (R302, R304, R317) -/

/-- The engines that a tick plan names: its Herd tiles, its field Ibex tiles, the targets of its ring in entries (R310). The
routers that its slot tables name are no engines (DEDUCED, log entry 104). -/
def planEngines (s : State) (n : Fin 8) (p : Option Plan) : List Eng :=
  match p with
  | some p => (p.tiles.map Eng.herd ++ p.fields.map Eng.ibex ++
      p.ins.map fun i => unitOf s.rgn.rgn[n] i.lx i.ly).eraseDups
  | none => []

/-- The tiles of region n that a descriptor names beside its target (Tables 13-4, 13-5; R310). -/
def bodyTiles (s : State) (n : Fin 8) (b : List Byte) : List Eng :=
  let r := s.rgn.rgn[n]
  let at_ (v : Nat) : List Eng := if r.holds (bits v 3 0) (bits v 7 4) then [unitOf r (bits v 3 0) (bits v 7 4)] else []
  let dst (v : Nat) : List Eng :=
    if isTileAddr v && r.holds (tileAddr v).lx (tileAddr v).ly then [unitOf r (tileAddr v).lx (tileAddr v).ly] else []
  match dClass b with
  | 1 =>
    let b18 := fieldAt b 18 1
    (if bit b18 3 then at_ (fieldAt b 22 1) else []) ++ (if bit b18 4 then at_ (fieldAt b 23 1) else []) ++
      (if bit (fieldAt b 16 1) 6 then at_ (fieldAt b 46 1) else if bits (fieldAt b 17 1) 6 4 = 0 then [] else dst (fieldAt b 40 6))
  | 2 => if fieldAt b 16 1 = 1 ∧ bits (fieldAt b 24 1) 4 2 ≠ 0 then dst (fieldAt b 40 6) else []
  | 5 => dst (fieldAt b 16 6) ++ dst (fieldAt b 24 6)
  | _ => []

/-- The progress budget in force (R283). -/
def budgetOf (q : Queue) (b : List Byte) : Nat :=
  if runBudget b ≠ 0 then runBudget b else if q.progress ≠ 0 then q.progress.toNat else 500000

/-- A job at the start of an attempt. -/
def beginAttempt (tn budget : Nat) (engines : List Eng) (noisy : Bool) (j : Job) : Job :=
  { j with phase := .running, startTn := tn, pc := 0, wait := .none, cw := cwStart j.epoch j.tick,
           lc := Vector.replicate 4 0, seen := j.progress, idle := 0, budget := budget, moved := 0, chains := [], armDone := [],
           arms := [], deferred := [], engines := engines, noisy := noisy, ended := false, merged := true, cause := none,
           cancel := none, drainOn := false, extra := 0, go := false }

/-- Start an attempt of a job at the present tick; a ticking one with its initialisation tick. -/
def startAttempt (k : JobRef) (s : State) : State :=
  match findJob s k with
  | none => s
  | some j =>
    let budget := budgetOf s.que[qIndex k.r k.q] j.pkt
    let engines := if j.tick then planEngines s k.r s.herd.job[k.r].shadow else []
    let j' := beginAttempt s.tick.tn.toNat budget engines (carriesRandom s k.r j.pkt) j
    let s := modJob k (fun _ => j') s
    if j.tick then startTicking k.r j' s else s

/-- A staged RUN whose turn has come starts: it takes its job_id (R284, R292, R317). -/
def startJob (k : JobRef) (s : State) : State :=
  let id := s.rgn.rgn[k.r].jobCounter + 1
  let s := modRgn k.r (fun r => { r with jobCounter := id }) s
  let s := modPkt (qIndex k.r k.q) k.pos (fun p => { p with started := true }) s
  startAttempt k (modJob k (fun j => { j with jobId := id }) s)

/-- JOB_START (R317): at the first tick that begins after the RUN is ready and its captures are copied; never beside another
ticking job (R15), and in its core's order (R271). -/
def execJobStart (r : Fin 8) (q : Fin 4) (s : State) : Out :=
  let i := qIndex r q
  match currentOp s i 0x01 with
  | none => .next s
  | some p =>
    let k : JobRef := { r := r, q := q, pos := p.pos }
    match findJob s k with
    | none => .next s
    | some j =>
      if j.phase ≠ .staged ∨ j.go = false ∨ ticksAlone s j = false ∨ coreTakes s i = false then .next s else
      match startRefused s r j.pkt with
      | some st => .next (finish i p.pos st (dropStaged k (served i s)))
      | none => .next (settle r (startJob k (served i s)))

/-! ### Control words -/

/-- A translation fault of the command processor's own read or write for a job. -/
def cpFault (k : JobRef) (f : Nat × Nat) (s : State) : State :=
  memError k f (wordSite s k.r 0) s

/-- An operand that cannot be read (R300). -/
def operandFault (k : JobRef) (f : MemFault) (s : State) : State :=
  match f with
  | none => jobError k .program (wordSite s k.r 0) s
  | some x => if x.2 = tagCause then memError k x (wordSite s k.r 0) s
    else jobError k .program (wordSite s k.r x.2) (latchFault (ctxOf k.r) x.1 x.2 s)

/-- The jobs of region n's queue q whose program may execute a word. -/
def stepJobs (s : State) (n : Fin 8) (q : Fin 4) : List Job :=
  s.jobs.filter fun j => j.ref.r == n && j.ref.q == q && j.phase == .running && j.wait == .none

/-- A job's current control word. -/
def currentWord (s : State) (j : Job) : List Byte × MemFault := wordAt s j.ref.r (runProg j.pkt) j.pc

/-- Does a command that executes words that satisfy `is` act on a job: its word is one, or cannot be read, or breaks R10? -/
def takesWord (s : State) (is : Word → Bool) (j : Job) : Bool :=
  let r := currentWord s j
  r.2.isSome || !cwOk (readCw r.1) || is (readCw r.1)

/-- Execute the current control word of the job of region n's queue q, if it satisfies `is` and the queue is the one its core takes
(R271, R301). -/
def wordCommand (n : Fin 8) (q : Fin 4) (is : Word → Bool) (act : Job → Word → State → State) (s : State) : Out :=
  match (stepJobs s n q).find? (takesWord s is) with
  | none => .next s
  | some j =>
    if !coreTakes s (qIndex n q) then .next s else
    let r := currentWord s j
    let s := served (qIndex n q) s
    match r.2 with
    | some f => .next (settle n (cpFault j.ref f s))
    | none =>
      let w := readCw r.1
      if cwOk w then .next (settle n (act j w s))
      else .next (settle n (jobError j.ref .reserved (wordSite s j.ref.r 0) s))

/-- Act on an address operand. -/
def withAddr (j : Job) (w : Word) (f : Nat → State → State) (s : State) : State :=
  match addrOperand s j.ref.r (runParam j.pkt) j.lc[0].toNat w with
  | .ok a => f a s
  | .error e => operandFault j.ref e s

/-- Act on a value operand. -/
def withValue (j : Job) (w : Word) (f : Nat → State → State) (s : State) : State :=
  match valueOperand s j.ref.r (runParam j.pkt) j.lc[0].toNat w with
  | .ok v => f v s
  | .error e => operandFault j.ref e s

/-- The word completes; the next one follows it. -/
def stepOn (k : JobRef) (s : State) : State := modJob k Job.advance s
/-- The word completes; the next one is `t`. -/
def jumpTo (k : JobRef) (t : Nat) (s : State) : State := modJob k (Job.goto t) s
/-- The word waits. -/
def waitFor (k : JobRef) (w : Wait) (s : State) : State := modJob k (fun j => { j with wait := w }) s

/-! ### Dispatching descriptors (R308, R310, R311) -/

/-- The engine that a descriptor of region n targets, if the tile it names is of its class. -/
def descEngine (s : State) (n : Fin 8) (b : List Byte) : Option Eng :=
  let r := s.rgn.rgn[n]
  match dClass b with
  | 1 => match unitOf r (dLx b) (dLy b) with | .ibex i => some (.ibex i) | _ => none
  | 2 => match unitOf r (dLx b) (dLy b) with | .cham i => some (.cham i) | _ => none
  | 3 => (r.mbs[bits (dTarget b) 2 0]?).map Eng.kudu
  | 4 => some (.pe (Fin.ofNat 4 (dTarget b)))
  | 5 => some .dma
  | _ => none

/-- The error that keeps a descriptor of region n from being dispatched (R310): a reserved bit or encoding, HERD, a tile of
another class. -/
def dispatchError (s : State) (n : Fin 8) (b : List Byte) : Option Err :=
  if !descOk s.rgn.rgn[n].bwM1 s.rgn.rgn[n].bhM1 b then some .reserved
  else if (descEngine s n b).isNone then some .descriptor
  else none

/-- A job that meets a descriptor that requests randomness when noise has failed ends (R109). -/
def endIfFailed (k : JobRef) (b : List Byte) (s : State) : State :=
  match findJob s k with
  | some j => if wantsRandom b ∧ s.noise.state = .failed then endByDevice .entropy j s else s
  | none => s

/-- A descriptor of a job's chain leaves for its engine; the tiles that it names join the job's engine set (R310). -/
def dispatchDesc (k : JobRef) (chain : Nat) (b : List Byte) (s : State) : State :=
  let e := descEngine s k.r b
  let s := modJob k (fun j => { j with
    engines := (j.engines ++ e.toList ++ bodyTiles s k.r b).eraseDups,
    noisy := j.noisy || wantsRandom b }) s
  endIfFailed k b
    (modEng (fun x => { x with flight := x.flight ++ [{ job := k, chain := chain, bytes := b, next := .none, stamp := 0 }] }) s)

/-- The command processor starts the chain whose head lies at `a`: the new state, and the chain's number if it started. -/
def startChain (k : JobRef) (a : Nat) (s : State) : State × Option Nat :=
  if a % 64 ≠ 0 then (jobError k .program (wordSite s k.r 0) s, none)
  else
    let r := readDev s (regionCpTile s k.r) (ctxOf k.r) a 64
    match r.2, findJob s k with
    | some f, _ => (cpFault k f s, none)
    | none, none => (s, none)
    | none, some j =>
      match dispatchError s k.r r.1 with
      | some e => (jobError k e (wordSite s k.r 0) s, none)
      | none =>
        let c := j.nextChain
        let s := modJob k (fun j => { j with chains := j.chains ++ [c], nextChain := c + 1 }) s
        (dispatchDesc k c r.1 s, some c)

/-- LAUNCH (R310). -/
def execLaunch (r : Fin 8) (q : Fin 4) (s : State) : Out :=
  wordCommand r q (fun w => w.op == 0x01) (fun j w =>
    withAddr j w fun a s =>
      match startChain j.ref a s with
      | (s, some c) => if bit w.flags 2 then waitFor j.ref (.chain c) s else stepOn j.ref s
      | (s, none) => s) s

/-- CHAIN_ARM (R311): on the first generation recorded from now on; a seventeenth one faults. -/
def execChainArm (r : Fin 8) (q : Fin 4) (s : State) : Out :=
  wordCommand r q (fun w => w.op == 0x02) (fun j w =>
    withAddr j w fun a s =>
      if 16 ≤ j.arms.length then jobError j.ref .program (wordSite s j.ref.r 0) s
      else
        let arm : Arm := { event := w.t, gen := (bumpGen (getEvent s r w.t).gen).toNat, head := a,
                           doneEvent := if bit w.flags 2 then some (w.x % 256) else none, due := .unset }
        stepOn j.ref (modJob j.ref (fun j => { j with arms := j.arms ++ [arm] }) s)) s

/-- The `k`-th armed chain of the job fires or is dropped, once its generation is terminal (R311). -/
def execChainFire (r : Fin 8) (q : Fin 4) (k : Nat) (s : State) : Out :=
  let ready (j : Job) : Bool := j.ref.r == r && j.ref.q == q && j.firing &&
    match j.arms[k]? with
    | some a => a.due != .unset
    | none => false
  match s.jobs.find? ready with
  | none => .next s
  | some j =>
    match j.arms[k]? with
    | none => .next s
    | some a =>
      let s := modJob j.ref (fun j => { j with arms := j.arms.eraseIdx k }) s
      if a.due = .signalled then
        let x := startChain j.ref a.head s
        let done := match x.2, a.doneEvent with
          | some c, some e => [(c, e)]
          | _, _ => []
        .next (settle r (modJob j.ref (fun j => { j with armDone := j.armDone ++ done }) x.1))
      else .next (settle r (dropArm r a (modJob j.ref (fun j => { j with cw := cwPut 7 true j.cw }) s)))

/-! ### Waits and signals (R312-R314) -/

/-- WAIT_EVENT (R314). -/
def execWaitEvent (r : Fin 8) (q : Fin 4) (s : State) : Out :=
  wordCommand r q (fun w => w.op == 0x03) (fun j w s =>
    let g := w.x % 2 ^ 28
    let c := (getEvent s r w.t).gen.toNat
    if g = 0 ∧ c = 0 then
      stepOn j.ref (modJob j.ref (fun j => { j with cw := cwPut 6 false (cwPut 5 false j.cw) }) s)
    else waitFor j.ref (.event w.t (if g = 0 then c else g) (bit w.flags 2)) s) s

/-- WAIT_FENCE (R312). -/
def execWaitFence (r : Fin 8) (q : Fin 4) (s : State) : Out :=
  wordCommand r q (fun w => w.op == 0x04) (fun j w =>
    withValue j w fun v s => waitFor j.ref (.fence w.t (BitVec.ofNat 64 v)) s) s

/-- Defer an effect until every chain launched or fired so far has completed (R312). -/
def deferEffect (k : JobRef) (e : Effect) (s : State) : State :=
  modJob k (fun j => { j with deferred := j.deferred ++ [{ eff := e, after := j.chains }] }) s

/-- SIGNAL FENCE (R312). -/
def execSignalFence (r : Fin 8) (q : Fin 4) (s : State) : Out :=
  wordCommand r q (fun w => w.op == 0x05 && bits w.flags 3 2 == 0) (fun j w =>
    withValue j w fun v s => stepOn j.ref (deferEffect j.ref (.fence w.t (BitVec.ofNat 64 v)) s)) s

/-- SIGNAL EVENT (R313): the event is recorded now, and signalled at the record point. -/
def execSignalEvent (r : Fin 8) (q : Fin 4) (s : State) : Out :=
  wordCommand r q (fun w => w.op == 0x05 && bits w.flags 3 2 == 1) (fun j w s =>
    let s := recordEvent r w.t s
    stepOn j.ref (deferEffect j.ref (.event w.t (getEvent s r w.t).gen.toNat) s)) s

/-- A deferred effect takes place. -/
def applyEffect (k : JobRef) (e : Effect) (s : State) : State :=
  match e with
  | .fence f v => raiseFence k.r f v s
  | .event e g => endEvent k.r e g .signalled s
  | .store a v =>
    let r := writeDev (regionCpTile s k.r) (ctxOf k.r) a (leBytes 8 v.toNat) s
    match r.2 with
    | none => r.1
    | some f => cpFault k f r.1

/-- Has a job reached the record point of its oldest deferred effect? -/
def Job.pointDue (j : Job) : Bool :=
  j.firing && match j.deferred with
    | d :: _ => d.after.all fun c => !j.chains.contains c
    | [] => false

/-- The oldest deferred effect of the job takes place (R312). -/
def execRecordPoint (r : Fin 8) (q : Fin 4) (s : State) : Out :=
  match s.jobs.find? (fun j => j.ref.r == r && j.ref.q == q && j.pointDue) with
  | none => .next s
  | some j =>
    match j.deferred with
    | [] => .next s
    | d :: rest => .next (settle r (applyEffect j.ref d.eff (modJob j.ref (fun j => { j with deferred := rest }) s)))

/-! ### Tests, loops, jumps (R303, R304) -/

/-- The test of IF_CMP: the value against the immediate, sign-extended for ops 4 and 5. -/
def ifTest (op : Nat) (v : W64) (x : W32) : Bool :=
  let z : W64 := x.setWidth 64
  let g : W64 := x.signExtend 64
  match op with
  | 0 => v == z
  | 1 => v != z
  | 2 => v.ult z
  | 3 => !v.ult z
  | 4 => v.slt g
  | 5 => !v.slt g
  | 6 => v &&& z != 0
  | _ => v &&& z == 0

/-- IF_CMP (R303); amodes 1 to 3 read an aligned word (R300). -/
def execIfCmp (r : Fin 8) (q : Fin 4) (s : State) : Out :=
  wordCommand r q (fun w => w.op == 0x06) (fun j w =>
    let test (v : W64) (s : State) : State :=
      if ifTest (bits w.flags 6 3) v (BitVec.ofNat 32 w.x) then jumpTo j.ref w.t s else stepOn j.ref s
    if bit w.flags 2 then test (j.cw.setWidth 64)
    else withAddr j w fun a s =>
      let v := readWord s (regionCpTile s r) (ctxOf r) a
      if w.amode ≠ 0 ∧ a % 8 ≠ 0 then operandFault j.ref none s else
      match v.2 with
      | none => test v.1 s
      | some f => cpFault j.ref f s) s

/-- A loop counter after LOOP (R304). -/
def loopCount (count old : W32) : W32 := (if old = 0 then (if count = 0 then 1 else count) else old) - 1

/-- LOOP (R304). -/
def execLoop (r : Fin 8) (q : Fin 4) (s : State) : Out :=
  wordCommand r q (fun w => w.op == 0x07) (fun j w =>
    let c : Fin 4 := Fin.ofNat 4 (bits w.flags 3 2)
    withValue j w fun v s =>
      let n := loopCount (BitVec.ofNat 32 v) j.lc[c]
      let s := modJob j.ref (fun j => { j with lc := j.lc.set c n }) s
      if n ≠ 0 then jumpTo j.ref w.t s else stepOn j.ref s) s

/-- JUMP (R303). -/
def execJump (r : Fin 8) (q : Fin 4) (s : State) : Out :=
  wordCommand r q (fun w => w.op == 0x08) (fun j w => jumpTo j.ref w.t) s

/-! ### Locks (R315) -/

/-- LOCK (R315). -/
def execLock (r : Fin 8) (q : Fin 4) (s : State) : Out :=
  wordCommand r q (fun w => w.op == 0x09) (fun j w s =>
    let l := getLock s r w.t
    if l.state = .held then
      if l.holder = some j.ref then stepOn j.ref (setLockCw j.ref false s)
      else waitFor j.ref (.lock w.t) (modLock r w.t (fun l => { l with waiters := l.waiters ++ [j.ref] }) s)
    else
      let s := modLock r w.t (fun l => { l with state := .held, holder := some j.ref }) s
      stepOn j.ref (setLockCw j.ref (l.state == .broken) s)) s

/-- UNLOCK (R315). -/
def execUnlock (r : Fin 8) (q : Fin 4) (s : State) : Out :=
  wordCommand r q (fun w => w.op == 0x0A) (fun j w s =>
    if (getLock s r w.t).holder = some j.ref then stepOn j.ref (unlockLock r w.t s)
    else jobError j.ref .program (wordSite s j.ref.r 0) s) s

/-! ### PRELOAD and AT_TICK (R318, R305) -/

/-- PRELOAD (R318): at word 0 of a ticking RUN it has no further effect; anywhere else it ends the job with BAD_FIELD. -/
def execPreload (r : Fin 8) (q : Fin 4) (s : State) : Out :=
  wordCommand r q (fun w => w.op == 0x0B) (fun j _ s =>
    if j.pc = 0 ∧ j.tick then stepOn j.ref s else stopJob j.ref (some (0, Status.badField)) none s) s

/-- The tick an AT_TICK names. -/
def tickOf (j : Job) (w : Word) (v : Nat) : Nat := if bit w.flags 2 then (v + j.startTn) % 2 ^ 64 else v

/-- AT_TICK with arm = 0 (R305). -/
def execAtTickWait (r : Fin 8) (q : Fin 4) (s : State) : Out :=
  wordCommand r q (fun w => w.op == 0x0C && !bit w.flags 3) (fun j w =>
    withValue j w fun v s =>
      if tickOf j w v ≤ s.tick.tn.toNat then stepOn j.ref s else waitFor j.ref (.tick (tickOf j w v)) s) s

/-- Tick T of a waiting program has begun (R305). -/
def execAtTickReached (r : Fin 8) (q : Fin 4) (s : State) : Out :=
  let due (j : Job) : Bool := j.ref.r == r && j.ref.q == q && j.phase == .running &&
    match j.wait with
    | .tick t => decide (t ≤ s.tick.tn.toNat)
    | _ => false
  match s.jobs.find? due with
  | none => .next s
  | some j => .next (settle r (stepOn j.ref s))

/-- What a schedule record asks of an output, from tick T on (Table 13-7). -/
def recordRequest (b : List Byte) (t : Nat) : ArmReq :=
  { start := t, offset := fieldAt b 0 2, mode := fieldAt b 2 1, widthTicks := fieldAt b 4 2, widthCclk := fieldAt b 6 2,
    period := fieldAt b 8 4, count := fieldAt b 12 4, endSel := bits (fieldAt b 3 1) 1 0, endEn := bit (fieldAt b 3 1) 2,
    endEdge := bit (fieldAt b 3 1) 3 }

/-- An output's schedule registers take a record's values. -/
def takeRecord (a : ArmReq) (o : HalyOut) : HalyOut :=
  { o with start := BitVec.ofNat 64 a.start, offset := a.offset, mode := modeOf a.mode, endSel := a.endSel,
           endEn := a.endEn, endEdge := a.endEdge, widthTicks := a.widthTicks, widthCclk := a.widthCclk,
           period := a.period, count := a.count }

/-- AT_TICK with arm = 1 (R305, R319): the outcome goes into CW. -/
def execAtTickArm (r : Fin 8) (q : Fin 4) (s : State) : Out :=
  wordCommand r q (fun w => w.op == 0x0C && bit w.flags 3) (fun j w =>
    withValue j w fun v s =>
      let d := readDev s (regionCpTile s r) (ctxOf r) (runParam j.pkt + w.x) 32
      match d.2 with
      | some f => cpFault j.ref f s
      | none =>
        if !schedRecOk d.1 then jobError j.ref .reserved (wordSite s j.ref.r 0) s
        else
          let n : Fin 8 := Fin.ofNat 8 (bits w.flags 6 4)
          let a := recordRequest d.1 (tickOf j w v)
          let e := armCheck s (.rgn r) n a
          let s := armOutput (.rgn r) n a s
          let s := if e = 0 then modOut n (takeRecord a) s else s
          stepOn j.ref (modJob j.ref (fun j => { j with
            cw := (List.range 3).foldl (fun c i => cwPut (2 + i) (bit e i) c) (cwPut 1 (e != 0) j.cw) }) s)) s

/-! ### EMIT (R306) -/

/-- EMIT STORE (R306, R312). -/
def execEmitStore (r : Fin 8) (q : Fin 4) (s : State) : Out :=
  wordCommand r q (fun w => w.op == 0x0D && w.emitKind == 0) (fun j w =>
    withAddr j w fun a s => stepOn j.ref (deferEffect j.ref (.store a (BitVec.ofNat 64 w.x)) s)) s

/-- EMIT TICK_STOP (R306): the job's ticking ends at the next tick boundary. -/
def execTickStop (r : Fin 8) (q : Fin 4) (s : State) : Out :=
  wordCommand r q (fun w => w.op == 0x0D && w.emitKind == 1) (fun j _ s =>
    stepOn j.ref (if j.tick && s.tick.rgn[r].ticking then modTickJob r (fun t => { t with stop := true }) s else s)) s

/-- Is a word EMIT MAP with a kind of mapping? -/
def isMap (kind : Nat) (w : Word) : Bool := w.op == 0x0D && w.emitKind == 2 && w.mapKind == kind

/-- The HBM frame that page v of region n gives up: one allocated to the region (R306). -/
def frameGiven (s : State) (n : Fin 8) (pte : Nat) : List Nat :=
  let f := bits pte 22 4
  if bit pte 0 && !bit pte 2 && (hbmFrame f).isSome && frameOwner s.mem f == n.val then [f] else []

/-- Criward or the Secure Markhor changes the entry of page v and asks for MEM_INV; MAP completes once that has run (R306,
R214). -/
def mapPage (k : JobRef) (v pte : Nat) (s : State) : State :=
  let c := ctxOf k.r
  let gone := frameGiven s k.r (tableEntry s c v)
  let base := s.mem.ctx[c].ptb
  let s := modMem (fun m => physWrite m (base + 8 * v) (leBytes 8 pte)) s
  waitFor k .map (modCtx c (fun x => { x with invBusy := true, release := x.release ++ gone }) s)

/-- A MAP request that cannot be met (R306). -/
def mapFault (k : JobRef) (s : State) : State := jobError k .program (wordSite s k.r 0) s

/-- EMIT MAP, unmap. -/
def execMapUnmap (r : Fin 8) (q : Fin 4) (s : State) : Out :=
  wordCommand r q (isMap 0) (fun j w => mapPage j.ref (bits w.x 15 0) 0) s

/-- The tags of data page v of a SEALED region, as bits of its entry; none where the region's tag pages hold none for it
(R220). -/
def tagBits (s : State) (n : Fin 8) (v : Nat) : Option Nat :=
  if !ctxSealed s (ctxOf n) then some 0 else
  let pages := s.mem.ctx[ctxOf n].pages
  let data := pages - ceilDiv pages 16
  if v < data then
    ((s.rgn.rgn[n].claimed)[data + v / 16]?).map fun f => f * 2 ^ 28 + (v % 16) * 2 ^ 47
  else none

/-- A data page that is mapped for region n: of a SEALED region its frame is zeroed, with tags if it is an HBM frame, before the
entry becomes valid (R220). -/
def zeroPage (s : State) (n : Fin 8) (f pte : Nat) (m : MemState) : MemState :=
  if ctxSealed s (ctxOf n) then zeroFrame f (pageTags s (ctxOf n) pte) m else m

/-- EMIT MAP, a free HBM frame of the stack that R216 gives for the page; which one is free. -/
def execMapHbm (r : Fin 8) (q : Fin 4) (s : State) : Out :=
  wordCommand r q (isMap 1) (fun j w s =>
    let v := bits w.x 15 0
    let g := s.rgn.rgn[r]
    let k := pageStack g.bx0 g.bwM1 v
    let l := ((List.range 12160).map fun p => k * 2 ^ 14 + p).filter fun f => frameOwner s.mem f == 15
    match tagBits s r v, l[Config.framePick s.free % l.length]? with
    | some t, some f =>
      let s := useFree 1 (modMem (fun m => giveFrame f r.val m) s)
      let pte := 1 + b2n (bit w.x 18) * 2 + f * 16 + t
      mapPage j.ref v pte (modMem (zeroPage s r f pte) s)
    | _, _ => mapFault j.ref s) s

/-- EMIT MAP, a Store frame that the region owns. -/
def execMapStore (r : Fin 8) (q : Fin 4) (s : State) : Out :=
  wordCommand r q (isMap 2) (fun j w =>
    withValue j w fun f s =>
      if isStore f && frameOwner s.mem f == r.val then
        let pte := 1 + b2n (bit w.x 18) * 2 + f * 16
        mapPage j.ref (bits w.x 15 0) pte (modMem (zeroPage s r f pte) s)
      else mapFault j.ref s) s

/-- May a host page be mapped for region n: a SEALED region with host_ide only while its TDI is in RUN (R254)? -/
def hostMaps (s : State) (n : Fin 8) : Bool :=
  !(ctxSealed s (ctxOf n)) || !s.sec.rgn[n].hostIde || s.sec.rgn[n].tdi == .run

/-- EMIT MAP, a host page, 2 MiB aligned. -/
def execMapHost (r : Fin 8) (q : Fin 4) (s : State) : Out :=
  wordCommand r q (isMap 3) (fun j w =>
    withValue j w fun y s =>
      if y % 2 ^ 21 = 0 ∧ hostMaps s r then
        mapPage j.ref (bits w.x 15 0) (5 + b2n (bit w.x 18) * 2 + y / 2 ^ 21 * 16) s
      else mapFault j.ref s) s

/-! ### END (R320) -/

/-- END: the job waits for its chains, effects, ticking and merge, and completes. -/
def execEndJob (r : Fin 8) (q : Fin 4) (s : State) : Out :=
  wordCommand r q (fun w => w.op == 0x0E) (fun j _ =>
    modJob j.ref (fun j => { j with phase := .ending, ended := true })) s

end Sys2Proof.Machine
end

