-- ==== Sys2Proof/Machine/Power.lean ====
section
/-!
DEFINITION. Charged power and the cap (16_power_energy_startup.md R377, R378), and what a tile's gate, cut and duty allow
(R382, R383, R385, R386).
-/
namespace Sys2Proof.Machine

/-- The power controls of the tile that a unit stands in. -/
def engTile (s : State) (e : Eng) : TilePwr := let p := engXY e; s.pwr.tile[tileIdx p.1 p.2]

/-- Does a unit's tile take descriptors: neither gated OFF nor cut (R382, R386)? -/
def tileOpen (s : State) (e : Eng) : Bool := !(engTile s e).off && !(engTile s e).cut

/-- Does the present tick allow a unit to start a descriptor: its own u_t includes it (R385)? -/
def dutyAllows (s : State) (e : Eng) : Bool :=
  decide (16 ≤ (engTile s e).duty) || decide (brv4 (s.tick.tn.toNat % 16) < (engTile s e).duty)

/-! ### Charges (Table 16-1) -/

/-- The Herd tiles of a region that carry a charge while L ≥ 1. -/
def rampTiles (s : State) (n : Fin 8) : Nat :=
  match s.herd.job[n].plan with
  | some p => p.tiles.length
  | none => (s.herd.job[n].lastTiles).length

/-- The charge of an Ibex operation by its A type. -/
def ibexCharge (b : List Byte) : Nat := if bits (fieldAt b 16 1) 1 0 = 3 then 800 else 1100

/-- The Ibex descriptor that executes, or the admitted one about to start. -/
def Ibex.charged (x : Ibex) : Option Desc :=
  match x.running with
  | some d => some d
  | none => if x.admitted then x.queue.head? else none

/-- The charge of an Ibex tile: its operation's, and 1,100 mW once for an int8 or fp8 operation or a reservation. -/
def ibexPower (x : Ibex) : Nat :=
  let op := match x.charged with
    | some d => ibexCharge d.bytes
    | none => 0
  if x.fieldRsv.isSome && op != 1100 then 1100 + op else op

/-- The PE descriptor that executes, or the admitted one about to start. -/
def Pe.charged (x : Pe) : Option Desc :=
  match x.running with
  | some d => some d
  | none => if x.admitted then x.queue.head? else none

/-- The pace ρ that a PE descriptor runs at: its slot's, or that of the slot's new content for PSET_LOAD, which the slot
does not hold yet (0). -/
def pePace (x : Pe) (b : List Byte) : Nat :=
  if fieldAt b 16 1 = 1 then 0
  else match x.pset[Fin.ofNat 4 (fieldAt b 17 1)] with
    | some d => 16 * fieldAt d 9 1
    | none => 0

def pePower (x : Pe) : Nat :=
  match x.charged with
  | some d => 4000 + 25 * min (pePace x d.bytes) 1024
  | none => 0

/-- The charged power in mW (R377). -/
def chargedPower (s : State) : Nat :=
  45000 + 2500 * (s.rgn.mbOwner.toList.filter Option.isSome).length
    + ((allFin 8).map fun n => 60 * s.pwr.rgn[n].level * rampTiles s n).sum
    + (s.ibex.toList.map ibexPower).sum + (s.pe.toList.map pePower).sum
    + 3000 * (s.eng.dmaRunning.length + s.eng.dmaAdmitted.toList.length)

/-- The cap in mW (R378). -/
def powerCap (s : State) : Nat := 1000 * (if s.pwr.capForced then min s.pwr.capW 60 else s.pwr.capW)

/-- Does a state's charge stay under the cap? -/
def fits (s : State) : Bool := decide (chargedPower s ≤ powerCap s)

end Sys2Proof.Machine
end

