-- ==== Sys2Proof/Machine/Engines.lean ====
section
/-!
DEFINITION. Descriptors on the engines (13_run_programs.md R308-R311): the arrival at an engine's queue, the prefetch of a
successor, completion with its done event and chaining, and faults of a descriptor.
-/
namespace Sys2Proof.Machine

/-! ### Starting and completing a descriptor -/

/-- An engine that starts a descriptor with chain = 1 reads `next` (R311); a fault is latched, and ends the job when the
descriptor completes. -/
def readNext (e : Eng) (d : Desc) (s : State) : Desc × State :=
  if !dChain d.bytes then (d, s)
  else if dNext d.bytes % 64 ≠ 0 then ({ d with next := .fault }, s)
  else
    let r := readDev s (engEntry e) (ctxOf d.job.r) (dNext d.bytes) 64
    match r.2 with
    | some f => ({ d with next := .fault }, latchFault (ctxOf d.job.r) f.1 f.2 s)
    | none => ({ d with next := .got r.1 }, s)

/-- An event recorded and at once SIGNALLED: a completion's done event (R311, R313). -/
def doneEvent (n : Fin 8) (e : Nat) (s : State) : State :=
  let s := recordEvent n e s
  endEvent n e (getEvent s n e).gen.toNat .signalled s

/-- A chain of a job completes, with the done event of the arm that fired it (R311; DEDUCED, log entry 51). -/
def endChain (j : Job) (c : Nat) (s : State) : State :=
  let s := modJob j.ref (fun j => { j with chains := j.chains.filter (· != c), armDone := j.armDone.filter fun x => x.1 != c }) s
  forEach (j.armDone.filter fun x => x.1 == c) (fun x => doneEvent j.ref.r x.2) s

/-- The chain of a completed descriptor goes on, unless its job has been stopped (R311, R330). -/
def followChain (e : Eng) (d : Desc) (s : State) : State :=
  match findJob s d.job with
  | none => s
  | some j =>
    if !j.firing then s
    else match d.next with
      | .none => endChain j d.chain s
      | .fault => jobError d.job .program (engSite e 0) s
      | .got b =>
        match dispatchError s d.job.r b with
        | some er => jobError d.job er (engSite e 0) s
        | none => dispatchDesc d.job d.chain b s

/-- A descriptor completes (R310, R311, R328): progress, its done event, its successor. -/
def completeDesc (e : Eng) (d : Desc) (s : State) : State :=
  let n := d.job.r
  let s := modJob d.job (Job.progressBy 1) s
  let s := if dDoneEn d.bytes then doneEvent n (dDoneEvent d.bytes) s else s
  settle n (followChain e d s)

/-- A descriptor's engine raises an error of its job, which ends the descriptor. -/
def descError (e : Eng) (d : Desc) (er : Err) (detail : Nat) (s : State) : State :=
  settle d.job.r (jobError d.job er (engSite e detail) s)

/-- A translation fault or failed tag check of a descriptor's engine (R212, R221). -/
def descFault (e : Eng) (d : Desc) (f : Nat × Nat) (s : State) : State :=
  settle d.job.r (memError d.job f (engSite e 0) s)

/-- Complete a descriptor, or end its job on what its accesses met. -/
def endDesc (e : Eng) (d : Desc) (f : MemFault) (s : State) : State :=
  match f with
  | some f => descFault e d f s
  | none => completeDesc e d s

/-! ### Destinations (R77, R309) -/

/-- May n bytes be written to a destination: a tile's address must be backed? -/
def dstBacked (d : Dst) (n : Nat) : Bool :=
  match d with
  | .tile t a => backed t a n
  | .dev _ => true

/-- The detail of an access to a destination that is not backed. -/
def dstDetail : Dst → Nat
  | .tile t _ => unbackedDetail t
  | .dev _ => 0

/-- Does a destination's tile serve a write now (R148)? -/
def dstServes (s : State) (d : Dst) (n : Nat) : Bool :=
  match d with
  | .tile t a => servesWrite s t a n
  | .dev _ => true

/-- Read from a source of region n's unit e. -/
def readDst (s : State) (e : Eng) (n : Fin 8) (d : Dst) (len : Nat) : List Byte × MemFault :=
  match d with
  | .tile t a => (localRead s t a len, none)
  | .dev a => readDev s (engEntry e) (ctxOf n) a len

/-! ### Queues -/

/-- The next order number for a descriptor that begins to wait (R378). -/
def nextStamp (s : State) : Nat := s.eng.arrivals + 1
def useStamp (s : State) : State := modEng (fun x => { x with arrivals := x.arrivals + 1 }) s

/-- The head of a queue begins to wait for admission now. -/
def stampHead (e : Eng) (s : State) : State :=
  let t := nextStamp s
  useStamp (modQueueOf e (fun l => match l with
    | d :: r => { d with stamp := t } :: r
    | [] => []) s)

/-- A queue has room again: what waited for the tile's VC3 credit is served (R148, R166). -/
def serveTile (e : Eng) (s : State) : State := let p := engXY e; if interior p.1 p.2 then serveHeld p.1 p.2 s else s

/-- Take a descriptor out of a unit's queue; the new head begins to wait. -/
def takeQueued (e : Eng) (d : Desc) (s : State) : State := serveTile e (stampHead e (modQueueOf e (fun l => l.erase d) s))

/-- Take the oldest descriptor out of a unit's queue. -/
def popQueue (e : Eng) (s : State) : State := serveTile e (modQueueOf e List.tail s)

/-- The `k`-th descriptor in flight reaches its engine's queue, once its tile takes descriptors and has room (R310, R382);
a PE that is not lent to the region is a descriptor fault. -/
def execEngineDescriptorArrival (k : Nat) (s : State) : Out :=
  match s.eng.flight[k]? with
  | none => .next s
  | some d =>
    match descEngine s d.job.r d.bytes with
    | none => .next s
    | some e =>
      let gone := modEng (fun x => { x with flight := x.flight.eraseIdx k }) s
      let lent := match e with
        | .pe p => s.pe[p].owner == some d.job.r
        | _ => true
      if !lent then .next (descError e d .descriptor 0 gone)
      else if !tileOpen s e || !queueRoom s e then .next s
      else .next (useStamp (modQueueOf e (fun l => l ++ [{ d with stamp := nextStamp s }]) gone))

end Sys2Proof.Machine
end

