-- ==== Sys2Proof/Machine/Fp.lean ====
section
/-!
DEFINITION. The numbers of the Ibex and Chamois tiles (07_ibex_chamois.md R142-R146, R149, R151-R153): formats, exact sums
rounded once, the epilogue and its conversion.
-/
namespace Sys2Proof.Machine

/-- A floating-point value: NaN, an infinity, or ± m·2^e (zero keeps its sign). -/
inductive Fv where
  | nan
  | inf (neg : Bool)
  | num (neg : Bool) (m : Nat) (e : Int)
deriving DecidableEq, Repr

/-- A binary format: exponent bits, fraction bits, whether its top exponent holds infinities (IEEE 754) or, as E4M3's, one
NaN. -/
structure Fmt where
  eb : Nat
  mb : Nat
  ieee : Bool
deriving DecidableEq, Repr

def e4m3 : Fmt := { eb := 4, mb := 3, ieee := false }
def e5m2 : Fmt := { eb := 5, mb := 2, ieee := true }
def bf16 : Fmt := { eb := 8, mb := 7, ieee := true }
def fp32 : Fmt := { eb := 8, mb := 23, ieee := true }

def Fmt.bias (f : Fmt) : Nat := 2 ^ (f.eb - 1) - 1

/-- The value of a code (R142: subnormal numbers honoured). -/
def fpRead (f : Fmt) (code : Nat) : Fv :=
  let neg := bit code (f.eb + f.mb)
  let e := bits code (f.eb + f.mb - 1) f.mb
  let m := bits code (f.mb - 1) 0
  let top := 2 ^ f.eb - 1
  let least : Int := 1 - (f.bias : Int) - (f.mb : Int)
  if e = top ∧ f.ieee then (if m = 0 then .inf neg else .nan)
  else if e = top ∧ m = 2 ^ f.mb - 1 then .nan
  else if e = 0 then .num neg m least
  else .num neg (2 ^ f.mb + m) (least + (e : Int) - 1)

/-- The value of an integer. -/
def fpInt (x : Int) : Fv := .num (decide (x < 0)) x.natAbs 0

/-- Rounding modes (Table 7-2). -/
inductive Rnd where
  | rne | rtz | rdn | rup | rna
deriving DecidableEq, Repr

def rndOf (c : Nat) : Rnd := match c with | 0 => .rne | 1 => .rtz | 2 => .rdn | 3 => .rup | _ => .rna

/-- m / 2^k rounded, of a value with the sign `neg` (R152). -/
def roundShift (r : Rnd) (neg : Bool) (m k : Nat) : Nat :=
  let q := m / 2 ^ k
  let rest := m % 2 ^ k
  let up := match r with
    | .rne => decide (2 ^ k < 2 * rest) || (2 * rest == 2 ^ k && q % 2 == 1 && rest != 0)
    | .rtz => false
    | .rdn => neg && rest != 0
    | .rup => !neg && rest != 0
    | .rna => decide (2 ^ k ≤ 2 * rest) && rest != 0
  q + b2n up

/-- m·2^e as a multiple of 2^q, rounded. -/
def roundAt (r : Rnd) (neg : Bool) (m : Nat) (e q : Int) : Nat :=
  if q ≤ e then m * 2 ^ (e - q).toNat else roundShift r neg m (q - e).toNat

/-- The magnitude code of the largest finite value. -/
def Fmt.maxCode (f : Fmt) : Nat := if f.ieee then (2 ^ f.eb - 1) * 2 ^ f.mb - 1 else 2 ^ (f.eb + f.mb) - 2
/-- The code of an infinity's magnitude. -/
def Fmt.infCode (f : Fmt) : Nat := (2 ^ f.eb - 1) * 2 ^ f.mb
/-- The canonical NaN: the quiet one without a sign; E4M3's 0x7F. -/
def Fmt.nanCode (f : Fmt) : Nat := if f.ieee then f.infCode + 2 ^ (f.mb - 1) else 2 ^ (f.eb + f.mb) - 1

def Fmt.signed (f : Fmt) (neg : Bool) (code : Nat) : Nat := code + b2n neg * 2 ^ (f.eb + f.mb)

/-- What an overflow becomes: E4M3 its limit; else an infinity or the largest finite value by the mode (R153). -/
def overflow (f : Fmt) (r : Rnd) (neg : Bool) : Nat :=
  let toInf := match r with
    | .rne => true
    | .rna => true
    | .rtz => false
    | .rdn => neg
    | .rup => !neg
  f.signed neg (if f.ieee && toInf then f.infCode else f.maxCode)

/-- The magnitude code of m·2^e rounded into a format, with no bound on the exponent. -/
def roundCode (f : Fmt) (r : Rnd) (neg : Bool) (m : Nat) (e : Int) : Nat :=
  let least : Int := 1 - (f.bias : Int) - (f.mb : Int)
  let q : Int := max ((m.log2 : Int) + e - (f.mb : Int)) least
  roundAt r neg m e q + (q - least).toNat * 2 ^ f.mb

/-- A conversion's code, and whether it counts in sat_count or in nan_count. -/
structure Conv where
  code : Nat
  sat : Bool
  nan : Bool
deriving DecidableEq, Repr

/-- Convert into a floating-point format (R152, R153). -/
def toFmt (f : Fmt) (r : Rnd) (v : Fv) : Conv :=
  match v with
  | .nan => { code := f.nanCode, sat := false, nan := true }
  | .inf neg => { code := overflow f r neg, sat := true, nan := false }
  | .num neg m e =>
    if m = 0 then { code := f.signed neg 0, sat := false, nan := false }
    else
      let c := roundCode f r neg m e
      if f.maxCode < c then { code := overflow f r neg, sat := true, nan := false }
      else { code := f.signed neg c, sat := false, nan := false }

/-- Convert into an integer type of w bits. -/
def toInt (w : Nat) (r : Rnd) (v : Fv) : Conv :=
  match v with
  | .nan => { code := 0, sat := false, nan := true }
  | .inf neg => { code := if neg then 2 ^ (w - 1) else 2 ^ (w - 1) - 1, sat := true, nan := false }
  | .num neg m e =>
    let n : Int := roundAt r neg m e 0
    let x := if neg then -n else n
    { code := ofSigned w (satInt w x), sat := !inInt w x, nan := false }

/-! ### Exact sums and products -/

/-- The sign of an exact-zero sum: the common sign of its terms, else `odd`. -/
def zeroSign (terms : List Fv) (odd : Bool) : Bool :=
  let zero (n : Bool) : Bool := terms.all fun t => match t with
    | .num neg m _ => m == 0 && neg == n
    | _ => false
  if zero true then true else if zero false then false else odd

/-- Is a term an infinity of a sign? -/
def isInf (n : Bool) : Fv → Bool
  | .inf neg => neg == n
  | _ => false

/-- Exact sum; an exact zero takes the common sign of its terms, else `odd` (R146, R153). -/
def fpSum (terms : List Fv) (odd : Bool) : Fv :=
  if terms.any (fun t => t == .nan) || (terms.any (isInf true) && terms.any (isInf false)) then .nan
  else if terms.any (isInf true) then .inf true
  else if terms.any (isInf false) then .inf false
  else
    let low : Int := terms.foldl (fun l t => match t with | .num _ _ e => min l e | _ => l) 0
    let sum : Int := terms.foldl (fun a t => match t with
      | .num neg m e =>
        let x : Int := ((m * 2 ^ (e - low).toNat : Nat) : Int)
        if neg then a - x else a + x
      | _ => a) 0
    if sum = 0 then .num (zeroSign terms odd) 0 0 else .num (decide (sum < 0)) sum.natAbs low

/-- Exact product. -/
def fpMul (a b : Fv) : Fv :=
  match a, b with
  | .nan, _ => .nan
  | _, .nan => .nan
  | .inf x, .inf y => .inf (x != y)
  | .inf x, .num y m _ => if m = 0 then .nan else .inf (x != y)
  | .num x m _, .inf y => if m = 0 then .nan else .inf (x != y)
  | .num x m e, .num y n k => .num (x != y) (m * n) (e + k)

/-- A sum rounded once to fp32 under RNE; a NaN is 0x7FC0_0000 (R146, R149). -/
def sum32 (terms : List Fv) : W32 := BitVec.ofNat 32 (toFmt fp32 .rne (fpSum terms false)).code

/-! ### One element of an operation -/

/-- An operand type (Table 7-2): its size in bytes, the value of a code. -/
def typeSize (t : Nat) : Nat := if t = 3 then 2 else 1
def typeRead (t code : Nat) : Fv :=
  match t with
  | 1 => fpRead e4m3 code
  | 2 => fpRead e5m2 code
  | _ => fpRead bf16 code

/-- The integer path: C = X + Σ A·B modulo 2^32 (R144, R145). -/
def intElement (x : W32) (row col : List Int) : W32 :=
  x + BitVec.ofInt 32 ((List.zipWith (· * ·) row col).foldl (· + ·) 0)

/-- One K-step of the floating-point path (R146). -/
def fpStep (acc : W32) (row col : List Fv) : W32 := sum32 (fpRead fp32 acc.toNat :: List.zipWith fpMul row col)

/-- One addition of a spill (R149). -/
def spillAdd (fp : Bool) (a b : W32) : W32 :=
  if fp then sum32 [fpRead fp32 a.toNat, fpRead fp32 b.toNat] else a + b

/-- V of the epilogue (R151): the accumulator, or its exact sum or product with the second operand, as int32 or fp32. -/
def epilogue (fp : Bool) (op : Nat) (r : Rnd) (acc e : W32) : Fv :=
  let rd (w : W32) : Fv := if fp then fpRead fp32 w.toNat else fpInt w.toInt
  match op with
  | 1 => fpSum [rd acc, rd e] (r == .rdn)
  | 2 => fpMul (rd acc) (rd e)
  | _ => rd acc

/-- V·2^scale. -/
def fpScale (k : Int) : Fv → Fv
  | .num neg m e => .num neg m (e + k)
  | v => v

/-- Bytes of an output element. -/
def fmtBytes (fmt : Nat) : Nat := match fmt with | 0 => 0 | 1 => 1 | 2 => 2 | 3 => 4 | 4 => 1 | 5 => 1 | 6 => 2 | _ => 4

/-- The conversion into out_fmt (R152, R153). -/
def convert (fmt : Nat) (r : Rnd) (scale : Int) (v : Fv) : Conv :=
  let v := fpScale scale v
  match fmt with
  | 1 => toInt 8 r v
  | 2 => toInt 16 r v
  | 3 => toInt 32 r v
  | 4 => toFmt e4m3 r v
  | 5 => toFmt e5m2 r v
  | 6 => toFmt bf16 r v
  | _ => toFmt fp32 r v

/-! ### Panels -/

/-- The 32-bit words of a panel (R142). -/
def panelWords (bs : List Byte) : List W32 := (pieces 4 4096 bs).map fun p => BitVec.ofNat 32 (ofLe p)
def panelBytes (ws : List W32) : List Byte := ws.flatMap fun w => leBytes 4 w.toNat

/-- An epilogue over a panel: its bytes, and how many elements count in sat_count and nan_count. -/
structure OutPanel where
  bytes : List Byte
  sats : Nat
  nans : Nat
deriving DecidableEq, Repr

def outPanel (fp : Bool) (op fmt : Nat) (r : Rnd) (scale : Int) (acc e : List W32) : OutPanel :=
  let cs := (List.zip acc e).map fun x => convert fmt r scale (epilogue fp op r x.1 x.2)
  { bytes := cs.flatMap fun c => leBytes (fmtBytes fmt) c.code,
    sats := (cs.filter Conv.sat).length, nans := (cs.filter Conv.nan).length }

/-- A panel of operand codes, as rows of 64. -/
def rowsOf {α : Type} (l : List α) : List (List α) := pieces 64 64 l
/-- Its columns. -/
def colsOf {α : Type} (d : α) (l : List α) : List (List α) :=
  (List.range 64).map fun c => (rowsOf l).map fun r => r.getD c d

/-- The accumulator after a K-step, element by element. -/
def panelStep {α : Type} (f : W32 → List α → List α → W32) (d : α) (acc : List W32) (a b : List α) : List W32 :=
  let cols := colsOf d b
  let rows := (rowsOf a).flatMap fun r => cols.map fun c => (r, c)
  List.zipWith (fun x rc => f x rc.1 rc.2) acc rows

end Sys2Proof.Machine
end

