-- ==== Sys2Proof/Machine/Ibex.lean ====
section
/-!
DEFINITION. The Ibex tiles (07_ibex_chamois.md R142-R156): an operation's start, with its checks and waits, and its
completion, with accumulation, reductions, the epilogue and the counters.
-/
namespace Sys2Proof.Machine

/-- The parameters of an operation (Table 7-2, Table 13-5). -/
structure IbexOp where
  ta : Nat
  tb : Nat
  init : Nat
  field : Bool
  acc : Nat
  epi : Nat
  fmt : Nat
  round : Nat
  chain : Bool
  spill : Bool
  scale : Int
  k : Nat
  a : Nat
  b : Nat
  e : Nat
  out : Nat
deriving DecidableEq, Repr

def readIbex (b : List Byte) : IbexOp :=
  let b16 := fieldAt b 16 1
  let b17 := fieldAt b 17 1
  let b18 := fieldAt b 18 1
  { ta := bits b16 1 0, tb := bits b16 3 2, init := bits b16 5 4, field := bit b16 6, acc := bits b17 1 0,
    epi := bits b17 3 2, fmt := bits b17 6 4, round := bits b18 2 0, chain := bit b18 3, spill := bit b18 4,
    scale := toSigned 8 (fieldAt b 19 1), k := fieldAt b 20 1 + 1, a := fieldAt b 28 4, b := fieldAt b 32 4,
    e := fieldAt b 36 4, out := fieldAt b 40 6 }

/-- Floating-point path (Table 7-1). -/
def IbexOp.fp (o : IbexOp) : Bool := o.ta != 0
/-- t_s (Table 7-1). -/
def IbexOp.ts (o : IbexOp) : Nat := if o.ta = 3 then 256 else 64
/-- T (R147). -/
def IbexOp.time (o : IbexOp) : Nat := 32 + o.k * o.ts + (if o.fmt = 0 then 0 else 64)
/-- Bytes of an operand panel (R142). -/
def IbexOp.panel (o : IbexOp) : Nat := 4096 * typeSize o.ta
/-- Local address of the destination accumulator (R141). -/
def IbexOp.accAddr (o : IbexOp) : Nat := 0x100000 + 0x4000 * o.acc

/-! ### The checks at the start -/

/-- Are the encodings listed (Tables 7-1, 7-2; R151, R154)? -/
def IbexOp.listed (o : IbexOp) (spillIdx : Nat) : Bool :=
  ((o.ta == 0) == (o.tb == 0)) && ((o.ta == 3) == (o.tb == 3)) && decide (o.init ≤ 2) && decide (o.epi ≤ 2)
    && decide (o.round ≤ 4) && !(o.epi != 0 && o.fmt == 0) && decide (-64 ≤ o.scale) && decide (o.scale ≤ 63)
    && (!o.spill || decide (spillIdx ≤ 23)) && (!o.field || o.ta == 0)

/-- Panels aligned to their size and below 0x11_0000 (R142). -/
def panelsOk (a size k : Nat) : Bool := a % size == 0 && decide (a + k * size ≤ 0x110000)

/-- The tile a chain or spill names. -/
def namedTile (s : State) (d : Desc) (ofs : Nat) : Eng :=
  unitOf s.rgn.rgn[d.job.r] (bits (fieldAt d.bytes ofs 1) 3 0) (bits (fieldAt d.bytes ofs 1) 7 4)

/-- Are the operand, epilogue and local destination addresses of an operation in order (R142)? -/
def ibexAddrsOk (s : State) (i : Fin 48) (d : Desc) (o : IbexOp) : Bool :=
  panelsOk o.a o.panel o.k && (o.field ||
    (panelsOk o.b o.panel o.k && (o.epi == 0 || panelsOk o.e 0x4000 1) &&
      (o.fmt == 0 || match dstOf s d.job.r o.out with
        | .tile t a => t != .ibex i || panelsOk a (outBytes o.fmt) 1
        | .dev _ => true)))

/-- Is chain_next an Ibex tile of the same logical row with a larger lx (R150)? -/
def chainNextOk (s : State) (d : Desc) : Bool :=
  let v := fieldAt d.bytes 22 1
  bits v 7 4 == dLy d.bytes && decide (dLx d.bytes < bits v 3 0) &&
    match namedTile s d 22 with
    | .ibex _ => true
    | _ => false

def isCham : Eng → Bool
  | .cham _ => true
  | _ => false
def isHerd : Eng → Bool
  | .herd _ => true
  | _ => false

/-- What keeps an operation from starting: the error and the fault cause (Table 7-4; a target of another kind shows cause 4,
DEDUCED, log entry 30). -/
def ibexCheck (s : State) (i : Fin 48) (d : Desc) : Option (Err × Nat) :=
  let o := readIbex d.bytes
  if !o.listed (bits (fieldAt d.bytes 24 1) 4 0) then some (.reserved, 4)
  else if !ibexAddrsOk s i d o then some (.descriptor, 1)
  else if o.chain && !chainNextOk s d then some (.descriptor, 2)
  else if o.spill && !isCham (namedTile s d 23) then some (.descriptor, 4)
  else if o.field && !isHerd (namedTile s d 46) then some (.descriptor, 4)
  else none

/-! ### The sums (R144-R146, R154) -/

/-- The codes of an operand panel. -/
def operandCodes (m : Mem) (a t : Nat) : List Nat := (pieces (typeSize t) 4096 (memRead m a (4096 * typeSize t))).map ofLe
def intPanel (codes : List Nat) : List Int := codes.map (toSigned 8)
def fpPanel (t : Nat) (codes : List Nat) : List Fv := codes.map (typeRead t)

/-- The B panel of step t in field mode: bits of the state window's nibbles; a nibble beyond the window is a free value. -/
def windowPanel (s : State) (m : Mem) (base stride t : Nat) : List Int :=
  (List.range 4096).map fun x =>
    let n := base + (x % 64) * stride + 64 * t + x / 64
    if n < 16384 then ((nib m 0xFE000 n % 2 : Nat) : Int) else ((Config.undefByte (s.free + n)).toNat % 2 : Nat)

/-- One K-step. -/
def ibexStep (s : State) (m : Mem) (d : Desc) (o : IbexOp) (acc : List W32) (t : Nat) : List W32 :=
  let a := operandCodes m (o.a + t * o.panel) o.ta
  if o.field then
    panelStep intElement 0 acc (intPanel a) (windowPanel s m (fieldAt d.bytes 36 2) (fieldAt d.bytes 38 2) t)
  else
    let b := operandCodes m (o.b + t * o.panel) o.tb
    if o.fp then panelStep fpStep (.num false 0 0) acc (fpPanel o.ta a) (fpPanel o.tb b)
    else panelStep intElement 0 acc (intPanel a) (intPanel b)

/-- X: the accumulator's initial value. -/
def ibexStart (x : Ibex) (d : Desc) (o : IbexOp) : List W32 :=
  match o.init with
  | 1 => panelWords (memRead x.mem o.accAddr 0x4000)
  | 2 => match x.chainIn.find? (fun c => c.1 == d.job) with
    | some c => c.2
    | none => List.replicate 4096 0
  | _ => List.replicate 4096 0

/-- The accumulator after the K-steps. -/
def ibexSum (s : State) (i : Fin 48) (d : Desc) : List W32 :=
  let o := readIbex d.bytes
  (List.range o.k).foldl (ibexStep s s.ibex[i].mem d o) (ibexStart s.ibex[i] d o)

/-- Put a panel into the destination accumulator; a consumed chain sum is gone. -/
def putAcc (i : Fin 48) (d : Desc) (acc : List W32) (s : State) : State :=
  let o := readIbex d.bytes
  modIbex i (fun x => { x with
    mem := memWrite x.mem o.accAddr (panelBytes acc),
    chainIn := if o.init = 2 then x.chainIn.eraseP (fun c => c.1 == d.job) else x.chainIn }) s

/-! ### Starting an operation -/

/-- The descriptor that may start next: the oldest, on a reserved tile the ticking job's oldest (R148, R156). -/
def ibexHead (s : State) (i : Fin 48) : Option Desc :=
  match s.ibex[i].fieldRsv with
  | none => s.ibex[i].queue.head?
  | some n => s.ibex[i].queue.find? fun d => some d.job == (tickJobOf s n).map Job.ref

/-- Does an operation still wait for its chain sum or its field flits (R150, R154)? -/
def ibexWaits (x : Ibex) (d : Desc) : Bool :=
  let o := readIbex d.bytes
  (o.init == 2 && !x.chainIn.any fun c => c.1 == d.job) ||
    (o.field && decide (x.windowFlits < fieldAt d.bytes 44 2))

/-- The operation of an admitted descriptor starts; in field mode the window is read now. -/
def startIbex (i : Fin 48) (d : Desc) (s : State) : State :=
  let e : Eng := .ibex i
  let s := modIbex i (fun x => { x with admitted := false }) (takeQueued e d s)
  match ibexCheck s i d with
  | some (er, c) => descError e d er c (modIbex i (fun x => { x with state := .fault, faultCause := c }) s)
  | none =>
    let r := readNext e d s
    let s := modIbex i (fun x => { x with running := some r.1, state := .busy }) r.2
    if (readIbex d.bytes).field then
      useFree 4210624 (modIbex i (fun x => { x with windowFlits := 0 }) (putAcc i d (ibexSum s i d) s))
    else s

/-- IBEX_OP_START (R147, R148): the head of the queue starts, or shows that it waits. -/
def execIbexOpStart (i : Fin 48) (s : State) : Out :=
  let x := s.ibex[i]
  if x.running.isSome || (engTile s (.ibex i)).cut then .next s else
  match ibexHead s i with
  | none => .next s
  | some d =>
    if ibexWaits x d then .next (modIbex i (fun x => { x with state := .waiting }) s)
    else if x.admitted && x.queue.head? == some d && dutyAllows s (.ibex i) then .next (startIbex i d s)
    else .next s

/-! ### Completing an operation -/

/-- The accumulator leaves for the chain successor and for the spill's Chamois tile (R149, R150). -/
def sendSums (i : Fin 48) (d : Desc) (acc : List W32) (s : State) : State :=
  let o := readIbex d.bytes
  let s := if o.chain then
      match namedTile s d 22 with
      | .ibex j => modIbex j (fun x => { x with chainIn := x.chainIn ++ [(d.job, acc)] }) s
      | _ => s
    else s
  if o.spill then
    match namedTile s d 23 with
    | .cham c => modCham c (fun x => { x with coming := x.coming ++
        [{ job := d.job, src := i, idx := bits (fieldAt d.bytes 24 1) 4 0, words := acc }] }) s
    | _ => s
  else s

/-- The epilogue's panel (R151-R153); its second operand is read before anything is written. -/
def ibexOut (x : Ibex) (o : IbexOp) (acc : List W32) : OutPanel :=
  outPanel o.fp o.epi o.fmt (rndOf o.round) o.scale acc (panelWords (memRead x.mem o.e 0x4000))

/-- The counters of a completed operation (Table 7-4). -/
def countOp (o : IbexOp) (p : OutPanel) (x : Ibex) : Ibex :=
  { x with ops := x.ops + 1, satCount := satAdd 16 x.satCount p.sats, nanCount := satAdd 16 x.nanCount p.nans,
           busyCclk := (x.busyCclk + o.time) % 2 ^ 42, running := none, state := .idle }

/-- The field flits of a panel: 30 consecutive elements each, j outer and i inner, element (i, j) for the external field of
slot fld_base + j·fld_stride + i (R154). -/
def fieldFlits (s : State) (d : Desc) (acc : List W32) : List Vc0Flit :=
  let base := fieldAt d.bytes 40 2
  let stride := fieldAt d.bytes 42 2
  let x := engXY (namedTile s d 46)
  let elems := (List.range 4096).map fun m => (base + (m / 64) * stride + m % 64, (acc.getD (64 * (m % 64) + m / 64) 0).toInt)
  (pieces 30 137 elems).map fun v => { tag := d.job.r.val, dx := x.1, dy := x.2, load := .field v }

/-- Write the converted panel, or let the field flits wait for their slot-table entries (R154); the descriptor completes, or its job ends on what the write met (R77, R152, R212). -/
def finishIbex (i : Fin 48) (d : Desc) (o : IbexOp) (p : OutPanel) (s : State) : State :=
  let e : Eng := .ibex i
  let served (s : State) : State := let q := engXY e; serveHeld q.1 q.2 s
  if o.field then
    completeDesc e d (served (pushVc0 (engXY e) (fieldFlits s d (panelWords (memRead s.ibex[i].mem o.accAddr 0x4000))) s))
  else if o.fmt == 0 then completeDesc e d (served s)
  else
    let dst := dstOf s d.job.r o.out
    if !dstBacked dst p.bytes.length then descError e d .descriptor (dstDetail dst) (served s)
    else
      let w := writeDst e d.job.r dst p.bytes s
      endDesc e d w.2 (served w.1)

/-- IBEX_OP_COMPLETE (R144-R153): the last write, which waits while another Ibex tile's operation keeps its memory. -/
def execIbexOpComplete (i : Fin 48) (s : State) : Out :=
  match s.ibex[i].running with
  | none => .next s
  | some d =>
    let o := readIbex d.bytes
    let dst := dstOf s d.job.r o.out
    let own := match dst with
      | .tile t _ => t == .ibex i
      | .dev _ => true
    if !o.field && o.fmt != 0 && !own && !dstServes s dst (outBytes o.fmt) then .next s
    else
      let acc := if o.field then panelWords (memRead s.ibex[i].mem o.accAddr 0x4000) else ibexSum s i d
      let s := if o.field then s else putAcc i d acc s
      let p := if o.field || o.fmt == 0 then { bytes := [], sats := 0, nans := 0 } else ibexOut s.ibex[i] o acc
      .next (finishIbex i d o p (modIbex i (countOp o p) (sendSums i d acc s)))

end Sys2Proof.Machine
end

