-- ==== Sys2Proof/Machine/Float.lean ====
section
/-!
DEFINITION. Scalar floating-point operations with their exception flags (07_ibex_chamois.md R157, R158; the F and D extensions,
log entry 110): every result is the exact one rounded once, a NaN result is the canonical one, and flags only accumulate.
-/
namespace Sys2Proof.Machine

def fp64 : Fmt := { eb := 11, mb := 52, ieee := true }

/-- F or D. -/
def fmtOf (dbl : Bool) : Fmt := if dbl then fp64 else fp32

/-- The exception flags: inexact, underflow, overflow, division by zero, invalid. -/
def fNX : Nat := 1
def fUF : Nat := 2
def fOF : Nat := 4
def fDZ : Nat := 8
def fNV : Nat := 16

/-- A code and the flags that its operation raises. -/
structure FpRes where
  code : Nat
  flags : Nat
deriving DecidableEq, Repr

def fpIsNan (f : Fmt) (c : Nat) : Bool := fpRead f c == .nan
/-- A signalling NaN: its quiet bit is clear. -/
def fpIsSnan (f : Fmt) (c : Nat) : Bool := fpIsNan f c && !bit c (f.mb - 1)

/-- Is m·2^e the same as n·2^k? -/
def sameMag (m : Nat) (e : Int) (n : Nat) (k : Int) : Bool :=
  let l := min e k
  m * 2 ^ (e - l).toNat == n * 2 ^ (k - l).toNat

/-- Is m·2^e, rounded with no bound on its exponent, below the least normal number (tininess after rounding)? -/
def fpTiny (f : Fmt) (r : Rnd) (neg : Bool) (m : Nat) (e : Int) : Bool :=
  let q : Int := (m.log2 : Int) + e - (f.mb : Int)
  decide (((roundAt r neg m e q).log2 : Int) + q < 1 - (f.bias : Int))

/-- Is a magnitude code the exact m·2^e? -/
def fpExact (f : Fmt) (c m : Nat) (e : Int) : Bool :=
  match fpRead f c with
  | .num _ n k => sameMag m e n k
  | _ => false

/-- Round an exact value, with the flags of the rounding. -/
def fpRound (f : Fmt) (r : Rnd) (v : Fv) : FpRes :=
  match v with
  | .nan => { code := f.nanCode, flags := 0 }
  | .inf neg => { code := f.signed neg f.infCode, flags := 0 }
  | .num neg m e =>
    if m = 0 then { code := f.signed neg 0, flags := 0 }
    else
      let c := roundCode f r neg m e
      if f.maxCode < c then { code := overflow f r neg, flags := fOF + fNX }
      else
        let x := fpExact f c m e
        { code := f.signed neg c, flags := if x then 0 else if fpTiny f r neg m e then fUF + fNX else fNX }

/-- A result whose operation is invalid where a source is a signalling NaN, or where it gives a NaN of no NaN. -/
def fpResult (f : Fmt) (r : Rnd) (ins : List Nat) (v : Fv) : FpRes :=
  let x := fpRound f r v
  if ins.any (fpIsSnan f) || (v == .nan && !ins.any (fpIsNan f)) then { x with flags := fNV } else x

def fvNeg : Fv → Fv
  | .nan => .nan
  | .inf n => .inf (!n)
  | .num n m e => .num (!n) m e

/-- The integer part of a square root, bit by bit. -/
def isqrtGo : Nat → Nat → Nat → Nat
  | 0, _, r => r
  | i + 1, n, r =>
    let t := r + 2 ^ i
    isqrtGo i n (if t * t ≤ n then t else r)
def isqrt (n : Nat) : Nat := isqrtGo (n.log2 / 2 + 1) n 0

/-- A quotient, with enough bits and a last one for the rest that every rounding of it is that of the exact one. -/
def fvDiv (f : Fmt) (a b : Fv) : Fv :=
  match a, b with
  | .nan, _ => .nan
  | _, .nan => .nan
  | .inf _, .inf _ => .nan
  | .inf x, .num y _ _ => .inf (x != y)
  | .num x _ _, .inf y => .num (x != y) 0 0
  | .num x m e, .num y n k =>
    if n = 0 then (if m = 0 then .nan else .inf (x != y))
    else
      let s := f.mb + 4 + n.log2
      .num (x != y) (2 * (m * 2 ^ s / n) + b2n (m * 2 ^ s % n != 0)) (e - k - s - 1)

/-- A square root, likewise. -/
def fvSqrt (f : Fmt) : Fv → Fv
  | .nan => .nan
  | .inf neg => if neg then .nan else .inf false
  | .num neg m e =>
    if m = 0 then .num neg 0 e
    else if neg then .nan
    else
      let s := 2 * (f.mb + 4) + (e % 2).toNat
      let n := m * 2 ^ s
      let q := isqrt n
      .num false (2 * q + b2n (q * q != n)) ((e - s) / 2 - 1)

def fpAdd (f : Fmt) (r : Rnd) (a b : Nat) : FpRes :=
  fpResult f r [a, b] (fpSum [fpRead f a, fpRead f b] (r == .rdn))
def fpSub (f : Fmt) (r : Rnd) (a b : Nat) : FpRes :=
  fpResult f r [a, b] (fpSum [fpRead f a, fvNeg (fpRead f b)] (r == .rdn))
def fpTimes (f : Fmt) (r : Rnd) (a b : Nat) : FpRes := fpResult f r [a, b] (fpMul (fpRead f a) (fpRead f b))

def fpDivide (f : Fmt) (r : Rnd) (a b : Nat) : FpRes :=
  let x := fpResult f r [a, b] (fvDiv f (fpRead f a) (fpRead f b))
  match fpRead f a, fpRead f b with
  | .num _ m _, .num _ n _ => if n = 0 ∧ m ≠ 0 then { x with flags := fDZ } else x
  | _, _ => x

def fpSquareRoot (f : Fmt) (r : Rnd) (a : Nat) : FpRes := fpResult f r [a] (fvSqrt f (fpRead f a))

/-- ±(a·b) ± c, rounded once; ∞·0 is invalid whatever c is. -/
def fpFma (f : Fmt) (r : Rnd) (negProd negAdd : Bool) (a b c : Nat) : FpRes :=
  let p := fpMul (fpRead f a) (fpRead f b)
  let add := fpRead f c
  let v := fpSum [if negProd then fvNeg p else p, if negAdd then fvNeg add else add] (r == .rdn)
  let x := fpResult f r [a, b, c] v
  if p == .nan && !fpIsNan f a && !fpIsNan f b then { x with flags := fNV } else x

/-- The order of the codes that are no NaN; both zeros are 0. -/
def fpKey (f : Fmt) (c : Nat) : Int :=
  let m : Int := (c % 2 ^ (f.eb + f.mb) : Nat)
  if bit c (f.eb + f.mb) then -m else m

/-- A comparison: `quiet` ones are invalid only for signalling NaNs. -/
def fpCompare (f : Fmt) (quiet : Bool) (test : Int → Int → Bool) (a b : Nat) : Bool × Nat :=
  let nan := fpIsNan f a || fpIsNan f b
  let snan := fpIsSnan f a || fpIsSnan f b
  (!nan && test (fpKey f a) (fpKey f b), if snan || (nan && !quiet) then fNV else 0)

/-- minimumNumber and maximumNumber; −0 is less than +0. -/
def fpMinMax (f : Fmt) (isMax : Bool) (a b : Nat) : FpRes :=
  let flags := if fpIsSnan f a || fpIsSnan f b then fNV else 0
  let less := decide (fpKey f a < fpKey f b) || (fpKey f a == fpKey f b && bit a (f.eb + f.mb))
  let code :=
    if fpIsNan f a && fpIsNan f b then f.nanCode
    else if fpIsNan f a then b
    else if fpIsNan f b then a
    else if less != isMax then a else b
  { code := code, flags := flags }

/-- The sign of b (or its inverse, or the exclusive or) on the magnitude of a: `inv`, `xor`. -/
def fpSign (f : Fmt) (inv xor : Bool) (a b : Nat) : Nat :=
  let s := bit b (f.eb + f.mb)
  let s := if xor then s != bit a (f.eb + f.mb) else if inv then !s else s
  f.signed s (a % 2 ^ (f.eb + f.mb))

/-- FCLASS: one bit of ten. -/
def fpClassify (f : Fmt) (a : Nat) : Nat :=
  let neg := bit a (f.eb + f.mb)
  let exp := bits a (f.eb + f.mb - 1) f.mb
  match fpRead f a with
  | .nan => if fpIsSnan f a then 2 ^ 8 else 2 ^ 9
  | .inf n => if n then 2 ^ 0 else 2 ^ 7
  | .num _ m _ =>
    if m = 0 then (if neg then 2 ^ 3 else 2 ^ 4)
    else if exp = 0 then (if neg then 2 ^ 2 else 2 ^ 5)
    else if neg then 2 ^ 1 else 2 ^ 6

/-- Conversion into an integer of w bits: out of range saturates and is invalid, a NaN is the largest value. -/
def fpToInteger (f : Fmt) (r : Rnd) (signed : Bool) (w a : Nat) : FpRes :=
  let lo : Int := if signed then -(2 ^ (w - 1)) else 0
  let hi : Int := if signed then 2 ^ (w - 1) - 1 else 2 ^ w - 1
  match fpRead f a with
  | .nan => { code := ofSigned w hi, flags := fNV }
  | .inf neg => { code := ofSigned w (if neg then lo else hi), flags := fNV }
  | .num neg m e =>
    let n := roundAt r neg m e 0
    let x : Int := if neg then -(n : Int) else n
    if x < lo then { code := ofSigned w lo, flags := fNV }
    else if hi < x then { code := ofSigned w hi, flags := fNV }
    else { code := ofSigned w x, flags := if sameMag m e n 0 then 0 else fNX }

def fpFromInteger (f : Fmt) (r : Rnd) (signed : Bool) (w n : Nat) : FpRes :=
  fpRound f r (fpInt (if signed then toSigned w n else (n % 2 ^ w : Nat)))

/-- Conversion between formats. -/
def fpConvert (src dst : Fmt) (r : Rnd) (a : Nat) : FpRes :=
  let x := fpRound dst r (fpRead src a)
  if fpIsSnan src a then { x with flags := fNV } else x

/-- Conversion rounding to odd. -/
def fpConvertOdd (src dst : Fmt) (a : Nat) : FpRes :=
  let x := fpConvert src dst .rtz a
  if bit x.flags 0 && x.code % 2 == 0 then { x with code := x.code + 1 } else x

/-- The 7-bit estimates: the fraction of 2/x at the middle of a 128-th of [1, 2), and of 2/√x at the middle of a 64-th of [1, 2)
(`even`) or of [2, 4). -/
def rec7Frac (i : Nat) : Nat := (2 * 65536 / (257 + 2 * i) + 1) / 2 - 128
def rsqrt7Frac (even : Bool) (i : Nat) : Nat := (isqrt (4 * (2 ^ (if even then 23 else 22) / (129 + 2 * i))) + 1) / 2 - 128

/-- A significand's place above the binary point: (exponent, fraction bits below the leading one). -/
def normOf (f : Fmt) (m : Nat) (e : Int) : Int × Nat := ((m.log2 : Int) + e, (m - 2 ^ m.log2) * 2 ^ (f.mb - m.log2))

/-- VFRSQRT7. -/
def fpRsqrt7 (f : Fmt) (a : Nat) : FpRes :=
  match fpRead f a with
  | .nan => { code := f.nanCode, flags := if fpIsSnan f a then fNV else 0 }
  | .inf neg => if neg then { code := f.nanCode, flags := fNV } else { code := 0, flags := 0 }
  | .num neg m e =>
    if m = 0 then { code := f.signed neg f.infCode, flags := fDZ }
    else if neg then { code := f.nanCode, flags := fNV }
    else
      let x := normOf f m e
      let even := x.1 % 2 == 0
      let frac := rsqrt7Frac even (x.2 / 2 ^ (f.mb - 6))
      let exp := -((x.1 - (if even then 0 else 1)) / 2) - 1
      { code := (exp + f.bias).toNat * 2 ^ f.mb + frac * 2 ^ (f.mb - 7), flags := 0 }

/-- VFREC7. -/
def fpRec7 (f : Fmt) (r : Rnd) (a : Nat) : FpRes :=
  match fpRead f a with
  | .nan => { code := f.nanCode, flags := if fpIsSnan f a then fNV else 0 }
  | .inf neg => { code := f.signed neg 0, flags := 0 }
  | .num neg m e =>
    if m = 0 then { code := f.signed neg f.infCode, flags := fDZ }
    else
      let x := normOf f m e
      let exp := -x.1 - 1
      let sig := 2 ^ 7 + rec7Frac (x.2 / 2 ^ (f.mb - 7))
      if (f.bias : Int) < exp then { code := overflow f r neg, flags := fOF + fNX }
      else { code := f.signed neg (roundCode f .rtz neg sig (exp - 7)), flags := 0 }

end Sys2Proof.Machine
end

