-- ==== Sys2Proof/Machine/Hart.lean ====
section
/-!
DEFINITION. What a hart does with one scalar instruction (07_ibex_chamois.md R157, R158; 08_kudu_markhor_criward.md R165; the
meanings are RISC-V's, log entry 110): registers, traps, loads and stores, atomics, CSRs, floating point.
-/
namespace Sys2Proof.Machine

/-- A hart that runs code in user mode, with the memory that it reaches. -/
structure Core where
  hart : Hart
  vec : VecUnit
  mem : Mem
  /-- a Chamois core, else a Kudu hart -/
  cham : Bool
  /-- ct_mode (07 R161) -/
  ct : Bool
  /-- mtime at the beginning of the tick -/
  mtime : W64
  /-- the model's counter of free values -/
  free : Nat
  /-- the stretches stored to, (address, length) -/
  stored : List (Nat × Nat)
  /-- CCLK taken in ct_mode -/
  ctTime : W64
deriving DecidableEq, Repr

/-- An exception: its code and mtval. -/
structure RvTrap where
  cause : Nat
  tval : W64
deriving DecidableEq, Repr

/-- What an instruction does: the core after it, a trap, where the code goes on if not at the next instruction. -/
structure RvOut where
  core : Core
  trap : Option RvTrap
  jump : Option W64
deriving DecidableEq, Repr

def rvOk (c : Core) : RvOut := { core := c, trap := none, jump := none }
def rvTrap (cause : Nat) (tval : W64) (c : Core) : RvOut := { core := c, trap := some { cause := cause, tval := tval }, jump := none }
/-- An illegal instruction; the model gives mtval 0 for it (DESIGN CHOICE, log entry 112). -/
def rvIllegal (c : Core) : RvOut := rvTrap 2 0 c

/-! ### Registers -/

/-- x0 reads 0. -/
def Hart.rx (h : Hart) (r : Reg) : W64 := if r = 0 then 0 else h.x[r]
/-- A write of x0 is discarded. -/
def Hart.wx (r : Reg) (v : W64) (h : Hart) : Hart := if r = 0 then h else { h with x := h.x.set r v }

/-- The code in an f register; one that is not boxed reads as the canonical NaN in the F form. -/
def Hart.rf (h : Hart) (dbl : Bool) (r : Reg) : Nat :=
  let n := h.f[r].toNat
  if dbl then n else if n / 2 ^ 32 = 2 ^ 32 - 1 then n % 2 ^ 32 else fp32.nanCode
/-- An F result is boxed in ones. -/
def Hart.wf (dbl : Bool) (r : Reg) (code : Nat) (h : Hart) : Hart :=
  { h with f := h.f.set r (BitVec.ofNat 64 (if dbl then code else 0xFFFFFFFF00000000 + code % 2 ^ 32)) }

/-- Exception flags accumulate in fflags (07 R158). -/
def Hart.raise (flags : Nat) (h : Hart) : Hart := { h with fflags := (h.fflags ||| flags) % 32 }

def Core.x (c : Core) (r : Reg) : W64 := c.hart.rx r
def Core.setX (r : Reg) (v : W64) (c : Core) : Core := { c with hart := c.hart.wx r v }
def Core.setF (dbl : Bool) (r : Reg) (v : FpRes) (c : Core) : Core := { c with hart := (c.hart.wf dbl r v.code).raise v.flags }

/-- The value of a second operand. -/
def Core.src (c : Core) : Src → W64
  | .reg r => c.x r
  | .imm v => BitVec.ofInt 64 v

/-! ### Integer arithmetic, at 64 bits or in a W form at 32 -/

def aluEval {w : Nat} (op : AluOp) (a b : BitVec w) : BitVec w :=
  match op with
  | .add => a + b
  | .sub => a - b
  | .sll => a <<< (b.toNat % w)
  | .slt => if a.slt b then 1 else 0
  | .sltu => if a.ult b then 1 else 0
  | .xor => a ^^^ b
  | .srl => a >>> (b.toNat % w)
  | .sra => a.sshiftRight (b.toNat % w)
  | .or => a ||| b
  | .and => a &&& b

/-- Division by zero gives all ones and the dividend; the overflow of a signed division wraps. -/
def mulEval {w : Nat} (op : MulOp) (a b : BitVec w) : BitVec w :=
  match op with
  | .mul => a * b
  | .mulh => BitVec.ofInt w (a.toInt * b.toInt / 2 ^ w)
  | .mulhsu => BitVec.ofInt w (a.toInt * b.toNat / 2 ^ w)
  | .mulhu => BitVec.ofNat w (a.toNat * b.toNat / 2 ^ w)
  | .div => if b = 0 then BitVec.ofInt w (-1) else BitVec.ofInt w (a.toInt.tdiv b.toInt)
  | .divu => if b = 0 then BitVec.ofInt w (-1) else BitVec.ofNat w (a.toNat / b.toNat)
  | .rem => if b = 0 then a else BitVec.ofInt w (a.toInt.tmod b.toInt)
  | .remu => if b = 0 then a else BitVec.ofNat w (a.toNat % b.toNat)

def amoEval {w : Nat} (op : AmoOp) (a b : BitVec w) : BitVec w :=
  match op with
  | .swap => b
  | .add => a + b
  | .xor => a ^^^ b
  | .and => a &&& b
  | .or => a ||| b
  | .min => if a.slt b then a else b
  | .max => if a.slt b then b else a
  | .minu => if a.ult b then a else b
  | .maxu => if a.ult b then b else a

/-- At 64 bits, or on the low 32 with a sign-extended result. -/
def atWidth (word : Bool) (f32 : W32 → W32 → W32) (f64 : W64 → W64 → W64) (a b : W64) : W64 :=
  if word then (f32 (a.setWidth 32) (b.setWidth 32)).signExtend 64 else f64 a b

def condHolds (op : Cond) (a b : W64) : Bool :=
  match op with
  | .eq => a == b
  | .ne => a != b
  | .lt => a.slt b
  | .ge => !a.slt b
  | .ltu => a.ult b
  | .geu => !a.ult b

/-! ### Memory (07 R157, 08 Table 8-1) -/

/-- Does user code reach a stretch: the local memory of a Chamois tile, the job memory of a Kudu cluster? -/
def Core.reaches (c : Core) (a n : Nat) : Bool :=
  if c.cham then decide (a + n ≤ 0x80000) else decide (0x40000 ≤ a) && decide (a + n ≤ 0x3F8000)

/-- Is an address in the mover registers (07 R157)? The rules give none of them a layout: what one reads is free, a write's effect
is that of a mover command (log entry 113). -/
def Core.mover (c : Core) (a : Nat) : Bool := c.cham && decide (0xF0000 ≤ a) && decide (a < 0x100000)

/-- The address that a base and an offset name. -/
def Core.ea (c : Core) (rs1 : Reg) (ofs : Int) : Nat := (c.x rs1 + BitVec.ofInt 64 ofs).toNat

/-- Why an access of 2^size bytes traps: misaligned (07 R158), or outside what user code reaches. -/
def Core.accessTrap (c : Core) (store : Bool) (a size : Nat) : Option RvTrap :=
  if a % 2 ^ size ≠ 0 then some { cause := if store then 6 else 4, tval := BitVec.ofNat 64 a }
  else if c.reaches a (2 ^ size) then none
  else some { cause := if store then 7 else 5, tval := BitVec.ofNat 64 a }

def Core.get (c : Core) (a n : Nat) : Nat := ofLe (memRead c.mem a n)
def Core.put (a n v : Nat) (c : Core) : Core := { c with mem := memWrite c.mem a (leBytes n v), stored := (a, n) :: c.stored }

/-- A free value of n bytes. -/
def Core.freeBytes (n : Nat) (c : Core) : Nat × Core :=
  (ofLe ((List.range n).map fun i => Config.undefByte (c.free + i)), { c with free := c.free + n })

/-- A scalar load of 2^size bytes, given to a continuation. -/
def Core.loaded (c : Core) (a size : Nat) (k : Nat → Core → Core) : RvOut :=
  if a % 2 ^ size = 0 ∧ c.mover a = true then let r := c.freeBytes (2 ^ size); rvOk (k r.1 r.2)
  else match c.accessTrap false a size with
    | some t => { core := c, trap := some t, jump := none }
    | none => rvOk (k (c.get a (2 ^ size)) c)

/-- A scalar store. -/
def Core.storing (c : Core) (a size v : Nat) : RvOut :=
  if a % 2 ^ size = 0 ∧ c.mover a = true then rvOk c
  else match c.accessTrap true a size with
    | some t => { core := c, trap := some t, jump := none }
    | none => rvOk (c.put a (2 ^ size) v)

/-- A loaded value, extended by its sign or by zeros. -/
def extend (unsigned : Bool) (bytes v : Nat) : W64 :=
  if unsigned then BitVec.ofNat 64 v else BitVec.ofInt 64 (toSigned (8 * bytes) v)

/-- 4 or 8 bytes, log2. -/
def wordSize (dbl : Bool) : Nat := if dbl then 3 else 2

/-- LR: the reservation is set. -/
def rvLr (dbl : Bool) (rd rs1 : Reg) (c : Core) : RvOut :=
  let a := (c.x rs1).toNat
  match c.accessTrap false a (wordSize dbl) with
  | some t => { core := c, trap := some t, jump := none }
  | none =>
    let c := { c with hart := { c.hart with resv := some (a, 2 ^ wordSize dbl) } }
    rvOk (c.setX rd (extend false (2 ^ wordSize dbl) (c.get a (2 ^ wordSize dbl))))

/-- SC: it stores while the reservation of the same stretch is held; either way the reservation is gone. -/
def rvSc (dbl : Bool) (rd rs1 rs2 : Reg) (c : Core) : RvOut :=
  let a := (c.x rs1).toNat
  match c.accessTrap true a (wordSize dbl) with
  | some t => { core := c, trap := some t, jump := none }
  | none =>
    let held := c.hart.resv == some (a, 2 ^ wordSize dbl)
    let v := (c.x rs2).toNat
    let c := { c with hart := { c.hart with resv := none } }
    rvOk ((if held then c.put a (2 ^ wordSize dbl) v else c).setX rd (if held then 0 else 1))

/-- An atomic operation: nothing comes between its read and its write (08 R165). -/
def rvAmo (op : AmoOp) (dbl : Bool) (rd rs1 rs2 : Reg) (c : Core) : RvOut :=
  let a := (c.x rs1).toNat
  let n := 2 ^ wordSize dbl
  match c.accessTrap true a (wordSize dbl) with
  | some t => { core := c, trap := some t, jump := none }
  | none =>
    let old := c.get a n
    let new := if dbl then (amoEval op (BitVec.ofNat 64 old) (c.x rs2)).toNat
      else (amoEval op (BitVec.ofNat 32 old) ((c.x rs2).setWidth 32)).toNat
    rvOk ((c.put a n new).setX rd (extend false n old))

/-! ### CSRs that user mode reaches -/

/-- What a CSR reads, none where user mode has none of that number; time and cycle count CCLK (07 R158, 08 R165). -/
def Core.csrRead (c : Core) (num cclk : Nat) : Option W64 :=
  let h := c.hart
  let v := c.vec
  let vec (n : Nat) : Option W64 := if c.cham then some (BitVec.ofNat 64 n) else none
  match num with
  | 0x001 => some (BitVec.ofNat 64 h.fflags)
  | 0x002 => some (BitVec.ofNat 64 h.frm)
  | 0x003 => some (BitVec.ofNat 64 (h.frm * 32 + h.fflags))
  | 0x008 => vec v.vstart
  | 0x009 => vec (b2n v.vxsat)
  | 0x00A => vec v.vxrm
  | 0x00F => vec (v.vxrm * 2 + b2n v.vxsat)
  | 0xC00 => some (c.mtime + BitVec.ofNat 64 cclk)
  | 0xC01 => some (c.mtime + BitVec.ofNat 64 cclk)
  | 0xC02 => some h.instret
  | 0xC20 => vec v.vl
  | 0xC21 => vec (if v.vill then 2 ^ 63 else v.vtype)
  | 0xC22 => vec 128
  | _ => none

/-- A CSR takes a value. -/
def Core.csrWrite (num : Nat) (x : Nat) (c : Core) : Core :=
  let h := c.hart
  let v := c.vec
  match num with
  | 0x001 => { c with hart := { h with fflags := x % 32 } }
  | 0x002 => { c with hart := { h with frm := x % 8 } }
  | 0x003 => { c with hart := { h with fflags := x % 32, frm := x / 32 % 8 } }
  | 0x008 => { c with vec := { v with vstart := x % 1024 } }
  | 0x009 => { c with vec := { v with vxsat := x % 2 == 1 } }
  | 0x00A => { c with vec := { v with vxrm := x % 4 } }
  | 0x00F => { c with vec := { v with vxsat := x % 2 == 1, vxrm := x / 2 % 4 } }
  | _ => c

/-- Does a CSR instruction write: always, but for setting or clearing by x0 or 0? -/
def csrWrites (op : CsrOp) (src : Src) : Bool := op == .write || (src != .reg 0 && src != .imm 0)

def rvCsr (op : CsrOp) (rd : Reg) (num : Nat) (src : Src) (cclk : Nat) (c : Core) : RvOut :=
  match c.csrRead num cclk with
  | none => rvIllegal c
  | some old =>
    if csrWrites op src then
      if 0xC00 ≤ num then rvIllegal c
      else
        let s := c.src src
        let new := match op with
          | .write => s
          | .set => old ||| s
          | .clear => old &&& ~~~s
        rvOk ((c.csrWrite num new.toNat).setX rd old)
    else rvOk (c.setX rd old)

/-! ### Floating point -/

/-- The rounding mode of an instruction; none where it, or frm, holds a reserved code. -/
def Hart.mode (h : Hart) (rm : Nat) : Option Rnd :=
  let m := if rm = 7 then h.frm else rm
  if m ≤ 4 then some (rndOf m) else none

/-- An instruction that rounds: a reserved mode makes it illegal. -/
def rounding (rm : Nat) (c : Core) (k : Rnd → Core) : RvOut :=
  match c.hart.mode rm with
  | some r => rvOk (k r)
  | none => rvIllegal c

def f2Eval (f : Fmt) (op : F2Op) (r : Rnd) (a b : Nat) : FpRes :=
  match op with
  | .add => fpAdd f r a b
  | .sub => fpSub f r a b
  | .mul => fpTimes f r a b
  | .div => fpDivide f r a b
  | .sgnj => { code := fpSign f false false a b, flags := 0 }
  | .sgnjn => { code := fpSign f true false a b, flags := 0 }
  | .sgnjx => { code := fpSign f false true a b, flags := 0 }
  | .min => fpMinMax f false a b
  | .max => fpMinMax f true a b

/-- Has an operation a rounding mode? -/
def f2Rounds : F2Op → Bool
  | .add | .sub | .mul | .div => true
  | _ => false

def rvF2 (op : F2Op) (dbl : Bool) (rm : Nat) (rd rs1 rs2 : Reg) (c : Core) : RvOut :=
  let run (r : Rnd) : Core := c.setF dbl rd (f2Eval (fmtOf dbl) op r (c.hart.rf dbl rs1) (c.hart.rf dbl rs2))
  if f2Rounds op then rounding rm c run else rvOk (run .rne)

def fmaEval (f : Fmt) (op : FmaOp) (r : Rnd) (a b c : Nat) : FpRes :=
  match op with
  | .madd => fpFma f r false false a b c
  | .msub => fpFma f r false true a b c
  | .nmsub => fpFma f r true false a b c
  | .nmadd => fpFma f r true true a b c

def fcmpEval (f : Fmt) (op : FcmpOp) (a b : Nat) : Bool × Nat :=
  match op with
  | .eq => fpCompare f true (· == ·) a b
  | .lt => fpCompare f false (fun x y => decide (x < y)) a b
  | .le => fpCompare f false (fun x y => decide (x ≤ y)) a b

def intSigned : IntTy → Bool
  | .w | .l => true
  | _ => false
def intWidth : IntTy → Nat
  | .w | .wu => 32
  | _ => 64

/-- A 32-bit integer result is sign-extended, that of an unsigned conversion too. -/
def intResult (w n : Nat) : W64 := BitVec.ofInt 64 (toSigned w n)

/-! ### One scalar instruction -/

/-- ECALL traps, but where the Kudu executive serves it, whose answer in x10 is free (08 R167; log entry 113). -/
def rvEcall (served : Bool) (c : Core) : RvOut :=
  if served && !c.cham then
    let r := c.freeBytes 8
    rvOk (r.2.setX 10 (BitVec.ofNat 64 r.1))
  else rvTrap 8 0 c


/-- The instructions of RV64IMAFD, Zicsr and Zifencei at address pc; `len`: 2 or 4. -/
def scalarExec (len : Nat) (i : Rv) (c : Core) : RvOut :=
  let h := c.hart
  let next := h.pc + BitVec.ofNat 64 len
  match i with
  | .lui rd imm => rvOk (c.setX rd (BitVec.ofInt 64 imm))
  | .auipc rd imm => rvOk (c.setX rd (h.pc + BitVec.ofInt 64 imm))
  | .jal rd ofs => { rvOk (c.setX rd next) with jump := some (h.pc + BitVec.ofInt 64 ofs) }
  | .jalr rd rs1 ofs => { rvOk (c.setX rd next) with jump := some ((c.x rs1 + BitVec.ofInt 64 ofs) &&& ~~~1) }
  | .branch op rs1 rs2 ofs =>
    { rvOk c with jump := if condHolds op (c.x rs1) (c.x rs2) then some (h.pc + BitVec.ofInt 64 ofs) else none }
  | .load size uns rd rs1 ofs => c.loaded (c.ea rs1 ofs) size.val fun v c => c.setX rd (extend uns (2 ^ size.val) v)
  | .store size rs2 rs1 ofs => c.storing (c.ea rs1 ofs) size.val (c.x rs2).toNat
  | .alu op word rd rs1 src => rvOk (c.setX rd (atWidth word (aluEval op) (aluEval op) (c.x rs1) (c.src src)))
  | .mul op word rd rs1 rs2 => rvOk (c.setX rd (atWidth word (mulEval op) (mulEval op) (c.x rs1) (c.x rs2)))
  | .lr dbl rd rs1 => rvLr dbl rd rs1 c
  | .sc dbl rd rs1 rs2 => rvSc dbl rd rs1 rs2 c
  | .amo op dbl rd rs1 rs2 => rvAmo op dbl rd rs1 rs2 c
  | .fence => rvOk c
  | .fenceI => rvOk { c with hart := { h with seen := c.mem } }
  | .ecall served => rvEcall served c
  | .ebreak => rvTrap 3 h.pc c
  | .wfi => rvOk c
  | .csr op rd num src cclk => rvCsr op rd num src cclk c
  | .fload dbl rd rs1 ofs => c.loaded (c.ea rs1 ofs) (wordSize dbl) fun v c => { c with hart := c.hart.wf dbl rd v }
  | .fstore dbl rs2 rs1 ofs => c.storing (c.ea rs1 ofs) (wordSize dbl) h.f[rs2].toNat
  | .f2 op dbl rm rd rs1 rs2 => rvF2 op dbl rm rd rs1 rs2 c
  | .fsqrt dbl rm rd rs1 => rounding rm c fun r => c.setF dbl rd (fpSquareRoot (fmtOf dbl) r (h.rf dbl rs1))
  | .fma op dbl rm rd rs1 rs2 rs3 =>
    rounding rm c fun r => c.setF dbl rd (fmaEval (fmtOf dbl) op r (h.rf dbl rs1) (h.rf dbl rs2) (h.rf dbl rs3))
  | .fcmp op dbl rd rs1 rs2 =>
    let r := fcmpEval (fmtOf dbl) op (h.rf dbl rs1) (h.rf dbl rs2)
    rvOk { c with hart := (h.wx rd (BitVec.ofNat 64 (b2n r.1))).raise r.2 }
  | .fclass dbl rd rs1 => rvOk (c.setX rd (BitVec.ofNat 64 (fpClassify (fmtOf dbl) (h.rf dbl rs1))))
  | .fToInt dbl rm ty rd rs1 =>
    rounding rm c fun r =>
      let x := fpToInteger (fmtOf dbl) r (intSigned ty) (intWidth ty) (h.rf dbl rs1)
      { c with hart := (h.wx rd (intResult (intWidth ty) x.code)).raise x.flags }
  | .fFromInt dbl rm ty rd rs1 =>
    rounding rm c fun r => c.setF dbl rd (fpFromInteger (fmtOf dbl) r (intSigned ty) (intWidth ty) (c.x rs1).toNat)
  | .fcvt dbl rm rd rs1 => rounding rm c fun r => c.setF dbl rd (fpConvert (fmtOf !dbl) (fmtOf dbl) r (h.rf (!dbl) rs1))
  | .fmvX dbl rd rs1 => rvOk (c.setX rd (if dbl then h.f[rs1] else (h.f[rs1].setWidth 32).signExtend 64))
  | .fmvF dbl rd rs1 => rvOk { c with hart := h.wf dbl rd (c.x rs1).toNat }
  | _ => rvIllegal c

end Sys2Proof.Machine
end

