-- ==== Sys2Proof/Machine/Vector.lean ====
section
/-!
DEFINITION. The vector unit of a Chamois core (07_ibex_chamois.md R157, R158; the V extension 1.0, log entry 110), with the
choices of R158: tail and masked-off elements are left undisturbed, floating-point sums run in ascending element order, a
misaligned element traps, a fault-only-first load trims vl only at the first element that would fault, and vstart names the
element that traps.
-/
namespace Sys2Proof.Machine

/-! ### Elements -/

/-- Element i of width w of the group that begins at register r; a mask's element has width 1. -/
def VecUnit.get (v : VecUnit) (r : Reg) (w i : Nat) : Nat :=
  let p := i * w
  (v.v[Fin.ofNat 32 (r.val + p / 1024)].toNat >>> (p % 1024)) % 2 ^ w

/-- The same element written; every other bit stays. -/
def VecUnit.put (r : Reg) (w i x : Nat) (v : VecUnit) : VecUnit :=
  let p := i * w
  let k : Fin 32 := Fin.ofNat 32 (r.val + p / 1024)
  let old := v.v[k].toNat
  let gone := old - ((old >>> (p % 1024)) % 2 ^ w) <<< (p % 1024)
  { v with v := v.v.set k (BitVec.ofNat 1024 (gone + (x % 2 ^ w) <<< (p % 1024))) }

/-- SEW, and LMUL in eighths (0 where reserved). -/
def VecUnit.sew (v : VecUnit) : Nat := 8 * 2 ^ bits v.vtype 5 3
def lmulOf (vtype : Nat) : Nat := match bits vtype 2 0 with | 4 => 0 | 5 => 1 | 6 => 2 | 7 => 4 | k => 8 * 2 ^ k
def VecUnit.lmul (v : VecUnit) : Nat := lmulOf v.vtype
/-- The most elements that a vtype holds. -/
def vlmaxOf (vtype : Nat) : Nat := lmulOf vtype * 128 / (8 * 2 ^ bits vtype 5 3)
/-- Is a vtype one that the unit supports: SEW at most 64 and at most LMUL·ELEN? -/
def vtypeOk (vtype : Nat) : Bool :=
  decide (vtype < 256) && decide (bits vtype 5 3 ≤ 3) && decide (1 ≤ lmulOf vtype)
    && decide (8 * 2 ^ bits vtype 5 3 ≤ 8 * lmulOf vtype)

/-- The elements that an instruction may change: from vstart to vl, those not masked off. -/
def VecUnit.body (v : VecUnit) (vm : Bool) : List Nat :=
  (List.range v.vl).filter fun i => decide (v.vstart ≤ i) && (vm || v.get 0 1 i == 1)

/-! ### Register groups -/

/-- EMUL in eighths of operands of width w. -/
def VecUnit.emul (v : VecUnit) (w : Nat) : Nat := v.lmul * w / v.sew
/-- The registers of a group. -/
def groupRegs (emul : Nat) : Nat := max 1 (emul / 8)
/-- Is a register a legal start of a group? -/
def groupOk (emul : Nat) (r : Reg) : Bool := decide (1 ≤ emul) && decide (emul ≤ 64) && r.val % groupRegs emul == 0

/-- May a destination overlap a source: of the same width wholly, of a narrower source its high part, of a wider one its low part? -/
def overlapOk (v : VecUnit) (vd : Reg) (dw : Nat) (vs : Reg) (sw : Nat) : Bool :=
  let d := groupRegs (v.emul dw)
  let s := groupRegs (v.emul sw)
  let apart := decide (vd.val + d ≤ vs.val) || decide (vs.val + s ≤ vd.val)
  apart || sw == dw || (if dw < sw then vd == vs else decide (8 ≤ v.emul sw) && vs.val + s == vd.val + d)

/-- Is a vector instruction legal: vtype valid, destination and sources legal groups, v0 no destination where it masks? -/
def vLegal (v : VecUnit) (vm : Bool) (vd : Reg) (dw : Nat) (srcs : List (Reg × Nat)) : Bool :=
  !v.vill && groupOk (v.emul dw) vd && (vm || vd != 0)
    && srcs.all fun x => groupOk (v.emul x.2) x.1 && overlapOk v vd dw x.1 x.2

/-- The same of an instruction whose destination is a mask or a scalar element. -/
def vLegalTo (v : VecUnit) (srcs : List (Reg × Nat)) : Bool := !v.vill && srcs.all fun x => groupOk (v.emul x.2) x.1

/-- The vector register of a source operand, with its width. -/
def srcRegs (src : VSrc) (w : Nat) : List (Reg × Nat) := match src with | .v r => [(r, w)] | _ => []

/-- Element i of a source operand. -/
def Core.elem (c : Core) (src : VSrc) (w i : Nat) : Nat :=
  match src with
  | .v r => c.vec.get r w i
  | .x r => (c.x r).toNat % 2 ^ w
  | .imm n => ofSigned w n
  | .f r => c.hart.rf (w == 64) r

/-! ### The shape of every element-wise instruction -/

/-- What one element becomes, with the exception flags and the saturation that it raises. -/
structure VEl where
  val : Nat
  flags : Nat
  sat : Bool
deriving DecidableEq, Repr

def vel (x : Nat) : VEl := { val := x, flags := 0, sat := false }
def velF (r : FpRes) : VEl := { val := r.code, flags := r.flags, sat := false }

/-- Elements of a list of indexes are written; flags accumulate; vstart returns to 0. -/
def vApply (vd : Reg) (w : Nat) (is : List Nat) (f : Nat → VEl) (c : Core) : Core :=
  let out (c : Core) (i : Nat) : Core :=
    let e := f i
    { c with vec := { VecUnit.put vd w i e.val c.vec with vxsat := c.vec.vxsat || e.sat }, hart := c.hart.raise e.flags }
  let c := is.foldl out c
  { c with vec := { c.vec with vstart := 0 } }

/-- An element-wise instruction: tail and masked-off elements stay (07 R158). -/
def vMap (vm : Bool) (vd : Reg) (w : Nat) (f : Nat → VEl) (c : Core) : Core := vApply vd w (c.vec.body vm) f c

/-- An instruction that is legal runs; else it is illegal. -/
def vIf (ok : Bool) (c : Core) (k : Core) : RvOut := if ok then rvOk k else rvIllegal c

/-! ### Fixed point -/

/-- x / 2^d rounded as vxrm says: to nearest up, to nearest even, down, to odd. -/
def vxRound (vxrm : Nat) (x : Int) (d : Nat) : Int :=
  let q := x / 2 ^ d
  let rest := x % 2 ^ d
  let up := match vxrm with
    | 0 => decide ((2 : Int) ^ d ≤ 2 * rest)
    | 1 => decide ((2 : Int) ^ d < 2 * rest) || (2 * rest == 2 ^ d && q % 2 == 1)
    | 2 => false
    | _ => q % 2 == 0 && rest != 0
  q + b2n up

/-- Saturate into w bits, signed or not. -/
def velSat (signed : Bool) (w : Nat) (x : Int) : VEl :=
  let y := if signed then satInt w x else max 0 (min x (2 ^ w - 1))
  { val := ofSigned w y, flags := 0, sat := y != x }

/-! ### Integer operations on elements -/

def viEval (op : ViOp) (vxrm w a b d : Nat) : VEl :=
  let sa := toSigned w a
  let sb := toSigned w b
  let ua : Int := a
  let ub : Int := b
  let int (x : Int) : VEl := vel (ofSigned w x)
  match op with
  | .add => int (a + b)
  | .sub => int (ua - ub)
  | .rsub => int (ub - ua)
  | .and => vel (a &&& b)
  | .or => vel (a ||| b)
  | .xor => vel (a ^^^ b)
  | .minu => vel (min a b)
  | .maxu => vel (max a b)
  | .min => int (min sa sb)
  | .max => int (max sa sb)
  | .sll => vel (a <<< (b % w))
  | .srl => vel (a >>> (b % w))
  | .sra => int (sa / 2 ^ (b % w))
  | .mul => int (ua * ub)
  | .mulh => int (sa * sb / 2 ^ w)
  | .mulhu => int (ua * ub / 2 ^ w)
  | .mulhsu => int (sa * ub / 2 ^ w)
  | .divu => if b = 0 then int (-1) else vel (a / b)
  | .div => if b = 0 then int (-1) else int (sa.tdiv sb)
  | .remu => if b = 0 then vel a else vel (a % b)
  | .rem => if b = 0 then vel a else int (sa.tmod sb)
  | .saddu => velSat false w (ua + ub)
  | .sadd => velSat true w (sa + sb)
  | .ssubu => velSat false w (ua - ub)
  | .ssub => velSat true w (sa - sb)
  | .aaddu => int (vxRound vxrm (ua + ub) 1)
  | .aadd => int (vxRound vxrm (sa + sb) 1)
  | .asubu => int (vxRound vxrm (ua - ub) 1)
  | .asub => int (vxRound vxrm (sa - sb) 1)
  | .smul => velSat true w (vxRound vxrm (sa * sb) (w - 1))
  | .ssrl => int (vxRound vxrm ua (b % w))
  | .ssra => int (vxRound vxrm sa (b % w))
  | .macc => int (d + ub * ua)
  | .nmsac => int (d - ub * ua)
  | .madd => int (ub * d + ua)
  | .nmsub => int (ua - ub * d)

def vcEval (op : VcOp) (w a b : Nat) : Bool :=
  let sa := toSigned w a
  let sb := toSigned w b
  match op with
  | .eq => a == b
  | .ne => a != b
  | .ltu => decide (a < b)
  | .lt => decide (sa < sb)
  | .leu => decide (a ≤ b)
  | .le => decide (sa ≤ sb)
  | .gtu => decide (b < a)
  | .gt => decide (sb < sa)

/-- Widening: `aw`: the width of a. -/
def vwEval (op : VwOp) (w aw a b d : Nat) : VEl :=
  let sa := toSigned aw a
  let sb := toSigned w b
  let ua : Int := a
  let ub : Int := b
  let int (x : Int) : VEl := vel (ofSigned (2 * w) x)
  match op with
  | .addu => int (ua + ub)
  | .add => int (sa + sb)
  | .subu => int (ua - ub)
  | .sub => int (sa - sb)
  | .mulu => int (ua * ub)
  | .mulsu => int (sa * ub)
  | .mul => int (sa * sb)
  | .maccu => int (d + ub * ua)
  | .macc => int (d + sb * sa)
  | .maccsu => int (d + sb * ua)
  | .maccus => int (d + ub * sa)

def vnEval (op : VnOp) (vxrm w a b : Nat) : VEl :=
  let sa := toSigned (2 * w) a
  match op with
  | .srl => vel ((a >>> (b % (2 * w))) % 2 ^ w)
  | .sra => vel (ofSigned w (sa / 2 ^ (b % (2 * w))))
  | .clipu => velSat false w (vxRound vxrm a (b % (2 * w)))
  | .clip => velSat true w (vxRound vxrm sa (b % (2 * w)))

/-- One step of an integer reduction: `w`: the width of an element; a widening one sums at 2·w. -/
def vredEval (op : VredOp) (w acc x : Nat) : Nat :=
  match op with
  | .sum => (acc + x) % 2 ^ w
  | .and => acc &&& x
  | .or => acc ||| x
  | .xor => acc ^^^ x
  | .minu => min acc x
  | .maxu => max acc x
  | .min => ofSigned w (min (toSigned w acc) (toSigned w x))
  | .max => ofSigned w (max (toSigned w acc) (toSigned w x))
  | .wsumu => (acc + x) % 2 ^ (2 * w)
  | .wsum => ofSigned (2 * w) (acc + toSigned w x)

def vmEval (op : VmOp) (a b : Bool) : Bool :=
  match op with
  | .andn => a && !b
  | .and => a && b
  | .or => a || b
  | .xor => a != b
  | .orn => a || !b
  | .nand => !(a && b)
  | .nor => !(a || b)
  | .xnor => a == b

/-! ### Integer instructions -/

def vInt (op : ViOp) (vm : Bool) (vd vs2 : Reg) (src : VSrc) (c : Core) : RvOut :=
  let v := c.vec
  let w := v.sew
  vIf (vLegal v vm vd w ((vs2, w) :: srcRegs src w)) c
    (vMap vm vd w (fun i => viEval op v.vxrm w (v.get vs2 w i) (c.elem src w i) (v.get vd w i)) c)

def vCmp (op : VcOp) (vm : Bool) (vd vs2 : Reg) (src : VSrc) (c : Core) : RvOut :=
  let v := c.vec
  let w := v.sew
  vIf (vLegalTo v ((vs2, w) :: srcRegs src w)) c
    (vMap vm vd 1 (fun i => vel (b2n (vcEval op w (v.get vs2 w i) (c.elem src w i)))) c)

/-- vadc and vsbc take the mask as carry; vmadc and vmsbc write the carry out. -/
def vCarry (op : VcarryOp) (withMask : Bool) (vd vs2 : Reg) (src : VSrc) (c : Core) : RvOut :=
  let v := c.vec
  let w := v.sew
  let sum (i : Nat) : Int :=
    let cin : Int := if withMask then v.get 0 1 i else 0
    let a : Int := v.get vs2 w i
    let b : Int := c.elem src w i
    match op with
    | .adc | .madc => a + b + cin
    | .sbc | .msbc => a - b - cin
  let srcs := (vs2, w) :: srcRegs src w
  match op with
  | .adc | .sbc => vIf (vLegal v (!withMask) vd w srcs) c (vMap true vd w (fun i => vel (ofSigned w (sum i))) c)
  | .madc | .msbc =>
    vIf (vLegalTo v srcs) c (vMap true vd 1 (fun i => vel (b2n (decide (sum i < 0) || decide ((2 : Int) ^ w ≤ sum i)))) c)

/-- Is SEW a floating-point width of the unit, where a source is an f register? -/
def srcFp (v : VecUnit) (src : VSrc) : Bool := match src with | .f _ => v.sew == 32 || v.sew == 64 | _ => true

/-- vmerge and vfmerge: the mask chooses the second source. -/
def vMerge (vd vs2 : Reg) (src : VSrc) (c : Core) : RvOut :=
  let v := c.vec
  let w := v.sew
  vIf (vLegal v false vd w ((vs2, w) :: srcRegs src w) && srcFp v src) c
    (vMap true vd w (fun i => vel (if v.get 0 1 i = 1 then c.elem src w i else v.get vs2 w i)) c)

/-- vmv.v and vfmv.v. -/
def vMove (vd : Reg) (src : VSrc) (c : Core) : RvOut :=
  let w := c.vec.sew
  vIf (vLegal c.vec true vd w (srcRegs src w) && srcFp c.vec src) c (vMap true vd w (fun i => vel (c.elem src w i)) c)

def vWide (op : VwOp) (vm wideVs2 : Bool) (vd vs2 : Reg) (src : VSrc) (c : Core) : RvOut :=
  let v := c.vec
  let w := v.sew
  let aw := if wideVs2 then 2 * w else w
  vIf (decide (w ≤ 32) && vLegal v vm vd (2 * w) ((vs2, aw) :: srcRegs src w)) c
    (vMap vm vd (2 * w) (fun i => vwEval op w aw (v.get vs2 aw i) (c.elem src w i) (v.get vd (2 * w) i)) c)

def vNarrow (op : VnOp) (vm : Bool) (vd vs2 : Reg) (src : VSrc) (c : Core) : RvOut :=
  let v := c.vec
  let w := v.sew
  vIf (decide (w ≤ 32) && vLegal v vm vd w ((vs2, 2 * w) :: srcRegs src w)) c
    (vMap vm vd w (fun i => vnEval op v.vxrm w (v.get vs2 (2 * w) i) (c.elem src w i)) c)

def vExt (signed : Bool) (log : Nat) (vm : Bool) (vd vs2 : Reg) (c : Core) : RvOut :=
  let v := c.vec
  let w := v.sew
  let sw := w / 2 ^ log
  vIf (decide (1 ≤ log) && decide (8 ≤ sw) && vLegal v vm vd w [(vs2, sw)]) c
    (vMap vm vd w (fun i => vel (if signed then ofSigned w (toSigned sw (v.get vs2 sw i)) else v.get vs2 sw i)) c)

/-- A reduction into element 0 of vd; nothing is written where vl is 0. -/
def vReduce (ok vm : Bool) (vd vs2 vs1 : Reg) (w rw : Nat) (f : VEl → Nat → VEl) (c : Core) : RvOut :=
  let v := c.vec
  vIf (ok && vLegalTo v [(vs2, w)] && v.vstart == 0) c
    (if v.vl = 0 then c
      else vApply vd rw [0] (fun _ => ((v.body vm).map fun i => v.get vs2 w i).foldl f (vel (v.get vs1 rw 0))) c)

def vRed (op : VredOp) (vm : Bool) (vd vs2 vs1 : Reg) (c : Core) : RvOut :=
  let w := c.vec.sew
  let wide := match op with | .wsumu | .wsum => true | _ => false
  vReduce (!wide || decide (w ≤ 32)) vm vd vs2 vs1 w (if wide then 2 * w else w) (fun acc x => vel (vredEval op w acc.val x)) c

/-! ### Masks -/

def VecUnit.bitAt (v : VecUnit) (r : Reg) (i : Nat) : Bool := v.get r 1 i == 1

def vMaskOp (op : VmOp) (vd vs2 vs1 : Reg) (c : Core) : RvOut :=
  let v := c.vec
  vIf (!v.vill) c (vMap true vd 1 (fun i => vel (b2n (vmEval op (v.bitAt vs2 i) (v.bitAt vs1 i)))) c)

/-- The active elements whose bit of vs2 is set. -/
def VecUnit.ones (v : VecUnit) (vm : Bool) (vs2 : Reg) : List Nat := (v.body vm).filter (v.bitAt vs2)

def vPop (vm : Bool) (rd vs2 : Reg) (c : Core) : RvOut :=
  vIf (!c.vec.vill && c.vec.vstart == 0) c (c.setX rd (BitVec.ofNat 64 (c.vec.ones vm vs2).length))

def vFirst (vm : Bool) (rd vs2 : Reg) (c : Core) : RvOut :=
  vIf (!c.vec.vill && c.vec.vstart == 0) c (c.setX rd (match (c.vec.ones vm vs2).head? with
    | some i => BitVec.ofNat 64 i
    | none => BitVec.ofInt 64 (-1)))

/-- vmsbf, vmsif, vmsof: before, up to, at the first set bit. -/
def vMaskSet (op : VmsetOp) (vm : Bool) (vd vs2 : Reg) (c : Core) : RvOut :=
  let v := c.vec
  let first := (v.ones vm vs2).head?
  let set (i : Nat) : Bool := match op, first with
    | .sof, none => false
    | _, none => true
    | .sbf, some k => decide (i < k)
    | .sif, some k => decide (i ≤ k)
    | .sof, some k => i == k
  vIf (!v.vill && v.vstart == 0 && vd != vs2 && (vm || vd != 0)) c (vMap vm vd 1 (fun i => vel (b2n (set i))) c)

def vIota (vm : Bool) (vd vs2 : Reg) (c : Core) : RvOut :=
  let v := c.vec
  let w := v.sew
  let apart := decide (vs2.val < vd.val) || decide (vd.val + groupRegs v.lmul ≤ vs2.val)
  vIf (vLegal v vm vd w [] && v.vstart == 0 && apart) c
    (vMap vm vd w (fun i => vel ((v.ones vm vs2).filter (· < i)).length) c)

def vId (vm : Bool) (vd : Reg) (c : Core) : RvOut :=
  vIf (vLegal c.vec vm vd c.vec.sew []) c (vMap vm vd c.vec.sew vel c)

/-! ### Permutations -/

/-- Element 0 to a scalar register, sign-extended, and back. -/
def vToX (rd vs2 : Reg) (c : Core) : RvOut :=
  let w := c.vec.sew
  vIf (!c.vec.vill) c
    { c.setX rd (BitVec.ofInt 64 (toSigned w (c.vec.get vs2 w 0))) with vec := { c.vec with vstart := 0 } }
def vFromX (vd rs1 : Reg) (c : Core) : RvOut :=
  let w := c.vec.sew
  vIf (!c.vec.vill) c (vApply vd w (if c.vec.vstart < c.vec.vl then [0] else []) (fun _ => vel (c.x rs1).toNat) c)

/-- Is SEW a floating-point width of the unit? -/
def VecUnit.fp (v : VecUnit) : Bool := v.sew == 32 || v.sew == 64

def vToF (rd vs2 : Reg) (c : Core) : RvOut :=
  let w := c.vec.sew
  vIf (!c.vec.vill && c.vec.fp) c { c with
    hart := c.hart.wf (w == 64) rd (c.vec.get vs2 w 0), vec := { c.vec with vstart := 0 } }
def vFromF (vd rs1 : Reg) (c : Core) : RvOut :=
  let w := c.vec.sew
  vIf (!c.vec.vill && c.vec.fp) c
    (vApply vd w (if c.vec.vstart < c.vec.vl then [0] else []) (fun _ => vel (c.hart.rf (w == 64) rs1)) c)

/-- Do two groups of the present LMUL share no register? -/
def groupsApart (v : VecUnit) (a b : Reg) : Bool :=
  decide (a.val + groupRegs v.lmul ≤ b.val) || decide (b.val + groupRegs v.lmul ≤ a.val)

/-- Slides: up, the elements below the offset stay; down, those from beyond VLMAX are 0. -/
def vSlide (up vm : Bool) (vd vs2 : Reg) (src : Src) (c : Core) : RvOut :=
  let v := c.vec
  let w := v.sew
  let k := (c.src src).toNat
  let ok := vLegal v vm vd w [(vs2, w)]
  if up then
    vIf (ok && groupsApart v vd vs2) c
      (vApply vd w ((v.body vm).filter (k ≤ ·)) (fun i => vel (v.get vs2 w (i - k))) c)
  else vIf ok c (vMap vm vd w (fun i => vel (if i + k < vlmaxOf v.vtype then v.get vs2 w (i + k) else 0)) c)

/-- Slides by one element, the scalar entering at the end. -/
def vSlide1 (up vm : Bool) (vd vs2 : Reg) (src : VSrc) (c : Core) : RvOut :=
  let v := c.vec
  let w := v.sew
  let x := c.elem src w 0
  let val (i : Nat) : Nat :=
    if up then (if i = 0 then x else v.get vs2 w (i - 1)) else if i + 1 = v.vl then x else v.get vs2 w (i + 1)
  vIf (vLegal v vm vd w [(vs2, w)] && srcFp v src && (!up || groupsApart v vd vs2)) c (vMap vm vd w (fun i => vel (val i)) c)

/-- vrgather: an index from VLMAX on reads 0; a scalar index is the whole register. -/
def vGather (ei16 vm : Bool) (vd vs2 : Reg) (src : VSrc) (c : Core) : RvOut :=
  let v := c.vec
  let w := v.sew
  let iw := if ei16 then 16 else w
  let idx (i : Nat) : Nat := match src with
    | .x r => (c.x r).toNat
    | .imm n => n.toNat
    | s => c.elem s iw i
  let apart := (srcRegs src iw).all fun x => decide (vd.val + groupRegs v.lmul ≤ x.1.val) ||
    decide (x.1.val + groupRegs (v.emul x.2) ≤ vd.val)
  vIf (vLegal v vm vd w ((vs2, w) :: srcRegs src iw) && groupsApart v vd vs2 && apart) c
    (vMap vm vd w (fun i => vel (if idx i < vlmaxOf v.vtype then v.get vs2 w (idx i) else 0)) c)

def vCompress (vd vs2 vs1 : Reg) (c : Core) : RvOut :=
  let v := c.vec
  let w := v.sew
  let from_ := (List.range v.vl).filter (v.bitAt vs1)
  let apart := decide (vs1.val < vd.val) || decide (vd.val + groupRegs v.lmul ≤ vs1.val)
  vIf (vLegal v true vd w [(vs2, w)] && v.vstart == 0 && groupsApart v vd vs2 && apart) c
    (vApply vd w (List.range from_.length) (fun i => vel (v.get vs2 w (from_.getD i 0))) c)

/-- vmv<n>r: whole registers, whatever vl is, from vstart on. -/
def vMoveRegs (log : Nat) (vd vs2 : Reg) (c : Core) : RvOut :=
  let v := c.vec
  let n := 2 ^ log
  let w := v.sew
  vIf (!v.vill && vd.val % n == 0 && vs2.val % n == 0) c
    (vApply vd w ((List.range (n * 1024 / w)).filter (v.vstart ≤ ·)) (fun i => vel (v.get vs2 w i)) c)

/-! ### Floating point: SEW 32 or 64, the mode in frm -/

def vFmt (w : Nat) : Fmt := fmtOf (w == 64)

def vfEval (f : Fmt) (r : Rnd) (op : VfOp) (a b d : Nat) : FpRes :=
  match op with
  | .add => fpAdd f r a b
  | .sub => fpSub f r a b
  | .rsub => fpSub f r b a
  | .mul => fpTimes f r a b
  | .div => fpDivide f r a b
  | .rdiv => fpDivide f r b a
  | .min => fpMinMax f false a b
  | .max => fpMinMax f true a b
  | .sgnj => { code := fpSign f false false a b, flags := 0 }
  | .sgnjn => { code := fpSign f true false a b, flags := 0 }
  | .sgnjx => { code := fpSign f false true a b, flags := 0 }
  | .macc => fpFma f r false false b a d
  | .nmacc => fpFma f r true true b a d
  | .msac => fpFma f r false true b a d
  | .nmsac => fpFma f r true false b a d
  | .madd => fpFma f r false false b d a
  | .nmadd => fpFma f r true true b d a
  | .msub => fpFma f r false true b d a
  | .nmsub => fpFma f r true false b d a

/-- A vector floating-point instruction: it is illegal while frm holds a reserved mode. -/
def vFloat (ok : Bool) (c : Core) (k : Rnd → Core) : RvOut :=
  match c.hart.mode 7 with
  | some r => vIf ok c (k r)
  | none => rvIllegal c

def vFp (op : VfOp) (vm : Bool) (vd vs2 : Reg) (src : VSrc) (c : Core) : RvOut :=
  let v := c.vec
  let w := v.sew
  vFloat (v.fp && vLegal v vm vd w ((vs2, w) :: srcRegs src w)) c fun r =>
    vMap vm vd w (fun i => velF (vfEval (vFmt w) r op (v.get vs2 w i) (c.elem src w i) (v.get vd w i))) c

def vfcEval (f : Fmt) (op : VfcOp) (a b : Nat) : Bool × Nat :=
  match op with
  | .eq => fpCompare f true (· == ·) a b
  | .ne => let r := fpCompare f true (· == ·) a b; (!r.1, r.2)
  | .lt => fpCompare f false (fun x y => decide (x < y)) a b
  | .le => fpCompare f false (fun x y => decide (x ≤ y)) a b
  | .gt => fpCompare f false (fun x y => decide (y < x)) a b
  | .ge => fpCompare f false (fun x y => decide (y ≤ x)) a b

def vFcmp (op : VfcOp) (vm : Bool) (vd vs2 : Reg) (src : VSrc) (c : Core) : RvOut :=
  let v := c.vec
  let w := v.sew
  vFloat (v.fp && vLegalTo v ((vs2, w) :: srcRegs src w)) c fun _ =>
    vMap vm vd 1 (fun i =>
      let r := vfcEval (vFmt w) op (v.get vs2 w i) (c.elem src w i)
      { val := b2n r.1, flags := r.2, sat := false }) c

def vf1Eval (f : Fmt) (r : Rnd) (op : Vf1Op) (a : Nat) : FpRes :=
  match op with
  | .sqrt => fpSquareRoot f r a
  | .rsqrt7 => fpRsqrt7 f a
  | .rec7 => fpRec7 f r a
  | .classify => { code := fpClassify f a, flags := 0 }

def vF1 (op : Vf1Op) (vm : Bool) (vd vs2 : Reg) (c : Core) : RvOut :=
  let v := c.vec
  let w := v.sew
  vFloat (v.fp && vLegal v vm vd w [(vs2, w)]) c fun r => vMap vm vd w (fun i => velF (vf1Eval (vFmt w) r op (v.get vs2 w i))) c

/-- A conversion from elements of width sw to width dw. -/
def vcvtEval (op : VcvtOp) (r : Rnd) (sw dw a : Nat) : FpRes :=
  match op with
  | .toInt signed rtz => fpToInteger (vFmt sw) (if rtz then .rtz else r) signed dw a
  | .fromInt signed => fpFromInteger (vFmt dw) r signed sw a
  | .toFp rod => if rod then fpConvertOdd (vFmt sw) (vFmt dw) a else fpConvert (vFmt sw) (vFmt dw) r a

/-- Are the widths of a conversion ones that the unit has: floating point 32 or 64? -/
def vcvtOk (op : VcvtOp) (sw dw : Nat) : Bool :=
  let fp (w : Nat) : Bool := w == 32 || w == 64
  match op with
  | .toInt _ _ => fp sw && decide (8 ≤ dw) && decide (dw ≤ 64)
  | .fromInt _ => fp dw && decide (8 ≤ sw) && decide (sw ≤ 64)
  | .toFp _ => fp sw && fp dw && sw != dw

def vCvt (op : VcvtOp) (wd : VcvtW) (vm : Bool) (vd vs2 : Reg) (c : Core) : RvOut :=
  let v := c.vec
  let w := v.sew
  let sw := match wd with | .narrow => 2 * w | _ => w
  let dw := match wd with | .widen => 2 * w | _ => w
  vFloat (vcvtOk op sw dw && vLegal v vm vd dw [(vs2, sw)]) c fun r =>
    vMap vm vd dw (fun i => velF (vcvtEval op r sw dw (v.get vs2 sw i))) c

/-- A single-width code at double width; the conversion is exact, and a NaN's kind is kept for the operation's flags. -/
def vWiden (a : Nat) : Nat := if fpIsSnan fp32 a then fp64.infCode + 1 else (fpConvert fp32 fp64 .rne a).code

def vfwEval (r : Rnd) (op : VfwOp) (a b d : Nat) : FpRes :=
  match op with
  | .add => fpAdd fp64 r a b
  | .sub => fpSub fp64 r a b
  | .mul => fpTimes fp64 r a b
  | .macc => fpFma fp64 r false false b a d
  | .nmacc => fpFma fp64 r true true b a d
  | .msac => fpFma fp64 r false true b a d
  | .nmsac => fpFma fp64 r true false b a d

def vFwide (op : VfwOp) (vm wideVs2 : Bool) (vd vs2 : Reg) (src : VSrc) (c : Core) : RvOut :=
  let v := c.vec
  let aw := if wideVs2 then 64 else 32
  vFloat (v.sew == 32 && vLegal v vm vd 64 ((vs2, aw) :: srcRegs src 32)) c fun r =>
    vMap vm vd 64 (fun i =>
      let a := v.get vs2 aw i
      velF (vfwEval r op (if wideVs2 then a else vWiden a) (vWiden (c.elem src 32 i)) (v.get vd 64 i))) c

/-- The unordered sums are the ordered ones, in ascending element order (07 R158). -/
def vFred (op : VfredOp) (vm : Bool) (vd vs2 vs1 : Reg) (c : Core) : RvOut :=
  match c.hart.mode 7 with
  | none => rvIllegal c
  | some r =>
    let w := c.vec.sew
    let wide := match op with | .wusum | .wosum => true | _ => false
    let f := if wide then fp64 else vFmt w
    let one (acc : VEl) (x : Nat) : VEl :=
      let e := match op with
        | .usum | .osum => fpAdd f r acc.val x
        | .wusum | .wosum => fpAdd f r acc.val (vWiden x)
        | .min => fpMinMax f false acc.val x
        | .max => fpMinMax f true acc.val x
      { val := e.code, flags := acc.flags ||| e.flags, sat := false }
    vReduce (if wide then w == 32 else c.vec.fp) vm vd vs2 vs1 w (if wide then 64 else w) one c

/-! ### vsetvli, vsetivli, vsetvl -/

/-- vl becomes the lesser of the length asked for and VLMAX (DESIGN CHOICE where RISC-V leaves a length between VLMAX and twice that
open, log entry 112); a vtype that the unit does not support sets vill, and vl 0. -/
def vSet (rd : Reg) (avl : Avl) (vtype : Src) (c : Core) : RvOut :=
  let t := (c.src vtype).toNat
  let v := c.vec
  if vtypeOk t then
    let n := match avl with
      | .imm n => min n (vlmaxOf t)
      | .reg r => if r != 0 then min (c.x r).toNat (vlmaxOf t) else if rd != 0 then vlmaxOf t else min v.vl (vlmaxOf t)
    rvOk ({ c with vec := { v with vtype := t, vill := false, vl := n, vstart := 0 } }.setX rd (BitVec.ofNat 64 n))
  else rvOk ({ c with vec := { v with vtype := 0, vill := true, vl := 0, vstart := 0 } }.setX rd 0)

/-! ### Loads and stores -/

/-- What a vector access moves: element width, registers of a field, the elements, whether the instruction is legal. -/
structure VAcc where
  w : Nat
  regs : Nat
  els : List Nat
  ok : Bool
deriving DecidableEq, Repr

def vAccess (mode : VAddr) (size nf : Nat) (vm store : Bool) (vd : Reg) (v : VecUnit) : VAcc :=
  let sw := 8 * 2 ^ size
  match mode with
  | .mask =>
    { w := 8, regs := 1, els := (List.range (ceilDiv v.vl 8)).filter (v.vstart ≤ ·), ok := !v.vill && nf == 1 && size == 0 && vm }
  | .whole =>
    { w := sw, regs := 1, els := (List.range (nf * 1024 / sw)).filter (v.vstart ≤ ·),
      ok := [1, 2, 4, 8].contains nf && vd.val % nf == 0 && vm && (!store || size == 0) }
  | .indexed vs2 =>
    let w := v.sew
    let regs := groupRegs v.lmul
    { w := w, regs := regs, els := v.body vm,
      ok := !v.vill && groupOk v.lmul vd && groupOk (v.emul sw) vs2 && decide (nf * regs ≤ 8) && decide (vd.val + nf * regs ≤ 32)
        && (vm || vd != 0 || store) && (store || nf == 1 || decide (vd.val + nf * regs ≤ vs2.val) ||
          decide (vs2.val + groupRegs (v.emul sw) ≤ vd.val)) && (store || nf != 1 || overlapOk v vd w vs2 sw) }
  | _ =>
    let regs := groupRegs (v.emul sw)
    { w := sw, regs := regs, els := v.body vm,
      ok := !v.vill && groupOk (v.emul sw) vd && decide (nf * regs ≤ 8) && decide (vd.val + nf * regs ≤ 32)
        && (vm || vd != 0 || store) && (match mode with | .faultFirst => !store | _ => true) }

/-- The address of field k of element i. -/
def vAddress (mode : VAddr) (size nf : Nat) (rs1 : Reg) (c : Core) (w i k : Nat) : Nat :=
  let base := c.x rs1
  let b := w / 8
  let ofs : W64 := match mode with
    | .strided rs2 => BitVec.ofNat 64 i * c.x rs2 + BitVec.ofNat 64 (k * b)
    | .indexed vs2 => BitVec.ofNat 64 (c.vec.get vs2 (8 * 2 ^ size) i + k * b)
    | .whole => BitVec.ofNat 64 (i * b)
    | _ => BitVec.ofNat 64 ((i * nf + k) * b)
  (base + ofs).toNat

/-- The register of field k. -/
def fieldReg (vd : Reg) (regs k : Nat) : Reg := Fin.ofNat 32 (vd.val + k * regs)

/-- The fields of one element, in order; the first that traps ends it. -/
def vFields (store : Bool) (vd : Reg) (regs w i : Nat) (addr : Nat → Nat) : List Nat → Core → Core × Option RvTrap
  | [], c => (c, none)
  | k :: ks, c =>
    match c.accessTrap store (addr k) (w / 8).log2 with
    | some t => (c, some t)
    | none =>
      let r := fieldReg vd regs k
      let c := if store then c.put (addr k) (w / 8) (c.vec.get r w i)
        else { c with vec := VecUnit.put r w i (c.get (addr k) (w / 8)) c.vec }
      vFields store vd regs w i addr ks c

/-- The elements in order. A trap leaves vstart at its element; of a fault-only-first load, beyond element 0, it trims vl
(07 R158). -/
def vElements (store first : Bool) (vd : Reg) (regs w nf : Nat) (addr : Nat → Nat → Nat) : List Nat → Core → RvOut
  | [], c => rvOk { c with vec := { c.vec with vstart := 0 } }
  | i :: is, c =>
    let r := vFields store vd regs w i (addr i) (List.range nf) c
    match r.2 with
    | none => vElements store first vd regs w nf addr is r.1
    | some t =>
      if first && i != 0 then rvOk { c with vec := { c.vec with vl := i, vstart := 0 } }
      else { core := { r.1 with vec := { r.1.vec with vstart := i } }, trap := some t, jump := none }

def vMemory (store : Bool) (mode : VAddr) (size nf : Nat) (vm : Bool) (vd rs1 : Reg) (c : Core) : RvOut :=
  let a := vAccess mode size nf vm store vd c.vec
  let fields := match mode with | .whole => 1 | _ => nf
  if a.ok then
    vElements store (mode == .faultFirst) vd a.regs a.w fields (fun i k => vAddress mode size nf rs1 c a.w i k) a.els c
  else rvIllegal c

/-! ### One vector instruction -/

def vectorExec (i : Rv) (c : Core) : RvOut :=
  match i with
  | .vset rd avl vtype => vSet rd avl vtype c
  | .vload mode size nf vm vd rs1 => vMemory false mode size.val nf vm vd rs1 c
  | .vstore mode size nf vm vs3 rs1 => vMemory true mode size.val nf vm vs3 rs1 c
  | .vint op vm vd vs2 src => vInt op vm vd vs2 src c
  | .vcmp op vm vd vs2 src => vCmp op vm vd vs2 src c
  | .vcarry op withMask vd vs2 src => vCarry op withMask vd vs2 src c
  | .vmerge vd vs2 src => vMerge vd vs2 src c
  | .vmv vd src => vMove vd src c
  | .vwide op vm wideVs2 vd vs2 src => vWide op vm wideVs2 vd vs2 src c
  | .vnarrow op vm vd vs2 src => vNarrow op vm vd vs2 src c
  | .vext signed log vm vd vs2 => vExt signed log.val vm vd vs2 c
  | .vred op vm vd vs2 vs1 => vRed op vm vd vs2 vs1 c
  | .vmask op vd vs2 vs1 => vMaskOp op vd vs2 vs1 c
  | .vcpop vm rd vs2 => vPop vm rd vs2 c
  | .vfirst vm rd vs2 => vFirst vm rd vs2 c
  | .vmset op vm vd vs2 => vMaskSet op vm vd vs2 c
  | .viota vm vd vs2 => vIota vm vd vs2 c
  | .vid vm vd => vId vm vd c
  | .vmvXS rd vs2 => vToX rd vs2 c
  | .vmvSX vd rs1 => vFromX vd rs1 c
  | .vfmvFS rd vs2 => vToF rd vs2 c
  | .vfmvSF vd rs1 => vFromF vd rs1 c
  | .vslide up vm vd vs2 src => vSlide up vm vd vs2 src c
  | .vslide1 up vm vd vs2 src => vSlide1 up vm vd vs2 src c
  | .vgather ei16 vm vd vs2 src => vGather ei16 vm vd vs2 src c
  | .vcompress vd vs2 vs1 => vCompress vd vs2 vs1 c
  | .vmvr log vd vs2 => vMoveRegs log.val vd vs2 c
  | .vfp op vm vd vs2 src => vFp op vm vd vs2 src c
  | .vfcmp op vm vd vs2 src => vFcmp op vm vd vs2 src c
  | .vf1 op vm vd vs2 => vF1 op vm vd vs2 c
  | .vfcvt op w vm vd vs2 => vCvt op w vm vd vs2 c
  | .vfwide op vm wideVs2 vd vs2 src => vFwide op vm wideVs2 vd vs2 src c
  | .vfred op vm vd vs2 vs1 => vFred op vm vd vs2 vs1 c
  | _ => rvIllegal c

end Sys2Proof.Machine
end

