-- ==== Sys2Proof/Machine/Kernel.lean ====
section
/-!
DEFINITION. Code on a hart: one instruction after another until a trap, and the constant-time subset (07_ibex_chamois.md R157, R158,
R160, R161; 08_kudu_markhor_criward.md R165, R167).
-/
namespace Sys2Proof.Machine

/-! ### The constant-time subset (Table 7-3) -/

/-- The CCLK of a vector instruction: a fixed number and ceil(vl·SEW/512). -/
def ctVector (v : VecUnit) (base : Nat) : Option Nat := some (base + ceilDiv (v.vl * v.sew) 512)

/-- CSRs that ct_mode admits to be read, and to be accessed. -/
def ctCsr (op : CsrOp) (num : Nat) (src : Src) : Bool :=
  [0x001, 0x002, 0x009, 0x00A].contains num || ([0xC00, 0xC01, 0xC02].contains num && !csrWrites op src)

def ctMul : MulOp → Bool
  | .mul | .mulh | .mulhsu | .mulhu => true
  | _ => false

def ctF2 : F2Op → Bool
  | .add | .sub | .mul | .sgnj | .sgnjn | .sgnjx => true
  | _ => false

def ctVi : ViOp → Bool
  | .divu | .div | .remu | .rem => false
  | _ => true

def ctVf : VfOp → Bool
  | .div | .rdiv => false
  | _ => true

/-- The CCLK that an instruction takes in ct_mode, none where Table 7-3 does not admit it: the time depends on the opcode, vl and
vtype alone (R161). Which row an instruction that the table does not name falls under: log entry 114 (DEDUCED). -/
def ctCclk (v : VecUnit) (i : Rv) : Option Nat :=
  match i with
  | .lui _ _ | .auipc _ _ | .alu _ _ _ _ _ => some 1
  | .jal _ _ | .jalr _ _ _ | .branch _ _ _ _ => some 3
  | .load _ _ _ _ _ | .store _ _ _ _ | .fload _ _ _ _ | .fstore _ _ _ _ => some 2
  | .amo _ _ _ _ _ => some 3
  | .mul op _ _ _ _ => if ctMul op then some 4 else none
  | .f2 op _ _ _ _ _ => if ctF2 op then some 5 else none
  | .fma _ _ _ _ _ _ _ | .fcmp _ _ _ _ _ | .fToInt _ _ _ _ _ | .fFromInt _ _ _ _ _ | .fcvt _ _ _ _ | .fmvX _ _ _ | .fmvF _ _ _ => some 5
  | .vset _ _ _ => some 1
  | .csr op _ num src _ => if ctCsr op num src then some 2 else none
  | .vload mode _ _ _ _ _ => if mode == .faultFirst then none else ctVector v 4
  | .vint op _ _ _ _ => if ctVi op then ctVector v 4 else none
  | .vstore _ _ _ _ _ _ | .vcmp _ _ _ _ _ | .vcarry _ _ _ _ _ | .vmerge _ _ _ | .vmv _ _ | .vwide _ _ _ _ _ _ | .vnarrow _ _ _ _ _
  | .vext _ _ _ _ _ | .vred _ _ _ _ _ | .vmask _ _ _ _ | .vcpop _ _ _ | .vfirst _ _ _ | .vmset _ _ _ _ | .viota _ _ _ | .vid _ _
  | .vmvXS _ _ | .vmvSX _ _ | .vfmvFS _ _ | .vfmvSF _ _ | .vslide _ _ _ _ _ | .vslide1 _ _ _ _ _ | .vgather _ _ _ _ _
  | .vcompress _ _ _ | .vmvr _ _ _ => ctVector v 4
  | .vfp op _ _ _ _ => if ctVf op then ctVector v 6 else none
  | .vf1 op _ _ _ => if op == .sqrt then none else ctVector v 6
  | .vfcmp _ _ _ _ _ | .vfcvt _ _ _ _ _ | .vfwide _ _ _ _ _ _ | .vfred _ _ _ _ _ => ctVector v 6
  | .lr _ _ _ | .sc _ _ _ _ | .fence | .fenceI | .ecall _ | .ebreak | .wfi | .fsqrt _ _ _ _ | .fclass _ _ _ => none

/-! ### Running code -/

/-- Is an instruction a scalar one? -/
def isScalar (i : Rv) : Bool :=
  match i with
  | .lui _ _ | .auipc _ _ | .jal _ _ | .jalr _ _ _ | .branch _ _ _ _ | .load _ _ _ _ _ | .store _ _ _ _ | .alu _ _ _ _ _
  | .mul _ _ _ _ _ | .lr _ _ _ | .sc _ _ _ _ | .amo _ _ _ _ _ | .fence | .fenceI | .ecall _ | .ebreak | .wfi | .csr _ _ _ _ _
  | .fload _ _ _ _ | .fstore _ _ _ _ | .f2 _ _ _ _ _ _ | .fsqrt _ _ _ _ | .fma _ _ _ _ _ _ _ | .fcmp _ _ _ _ _ | .fclass _ _ _
  | .fToInt _ _ _ _ _ | .fFromInt _ _ _ _ _ | .fcvt _ _ _ _ | .fmvX _ _ _ | .fmvF _ _ _ => true
  | _ => false

/-- What an instruction does: only a Chamois core has the vector unit (R157, R165). -/
def rvExec (len : Nat) (i : Rv) (c : Core) : RvOut :=
  if isScalar i then scalarExec len i c else if c.cham then vectorExec i c else rvIllegal c

/-- A trap is taken in machine mode: mepc, mcause and mtval hold the instruction's address, the code and the value. -/
def enterTrap (t : RvTrap) (c : Core) : Core :=
  { c with hart := { c.hart with machine := true, mepc := c.hart.pc, mcause := BitVec.ofNat 64 t.cause, mtval := t.tval } }

/-- The bytes of an instruction. -/
def rvLen (r : RvStep) : Nat := if r.short then 2 else 4

/-- What an instruction meets: a fetch from outside user code's memory faults; in ct_mode one that Table 7-3 does not admit is
illegal (R161). -/
def rvAttempt (r : RvStep) (c : Core) : RvOut :=
  if !c.reaches c.hart.pc.toNat (rvLen r) then rvTrap 1 c.hart.pc c
  else if c.ct && (ctCclk c.vec r.insn).isNone then rvIllegal c
  else rvExec (rvLen r) r.insn c

/-- An instruction retires: the next one's address, instret, the time in ct_mode. -/
def rvRetire (r : RvStep) (before : Core) (o : RvOut) : Core :=
  let h := o.core.hart
  { o.core with
    hart := { h with pc := o.jump.getD (before.hart.pc + BitVec.ofNat 64 (rvLen r)), instret := h.instret + 1 },
    ctTime := if before.ct then o.core.ctTime + BitVec.ofNat 64 ((ctCclk before.vec r.insn).getD 0) else o.core.ctTime }

/-- Code runs until its end or its first trap; also how many instructions have retired. -/
def runCode : List RvStep → Core → Core × Option RvTrap × Nat
  | [], c => (c, none, 0)
  | r :: rs, c =>
    let o := rvAttempt r c
    match o.trap with
    | some t => (enterTrap t o.core, some t, 0)
    | none =>
      let x := runCode rs (rvRetire r c o)
      (x.1, x.2.1, x.2.2 + 1)

/-! ### Code on the tiles -/

/-- The core of a Chamois tile. -/
def chamCore (s : State) (c : Fin 48) : Core :=
  let x := s.cham[c]
  { hart := x.core, vec := x.vec, mem := x.mem, cham := true, ct := x.ctMode, mtime := s.tick.mtime, free := s.free, stored := [],
    ctTime := x.ctTime }

/-- A kernel's code runs on a Chamois tile: what it leaves, and its trap. -/
def runCham (c : Fin 48) (code : List RvStep) (s : State) : State × Option RvTrap :=
  let r := runCode code (chamCore s c)
  (useFree (r.1.free - s.free) (modCham c (fun x => { x with
    core := r.1.hart, vec := r.1.vec, mem := r.1.mem, ctTime := r.1.ctTime,
    instret := x.instret + BitVec.ofNat 32 r.2.2 }) s), r.2.1)

/-- Hart h of a Kudu cluster. -/
def kuduCore (s : State) (m : Fin 8) (h : Fin 16) : Core :=
  let k := s.kudu[m]
  { hart := k.core[h], vec := VecUnit.reset, mem := k.mem, cham := false, ct := false, mtime := s.tick.mtime, free := s.free,
    stored := [], ctTime := 0 }

/-- A descriptor's code runs on a hart; its stores end the reservations of the other harts (R165). -/
def runKudu (m : Fin 8) (h : Fin 16) (code : List RvStep) (s : State) : State × Option RvTrap :=
  let r := runCode code (kuduCore s m h)
  (useFree (r.1.free - s.free) (modKudu m (fun k => { k with
    mem := r.1.mem,
    core := upd (k.core.map (breakResv r.1.stored)) h fun _ => r.1.hart }) s), r.2.1)

/-- A hart begins a descriptor's code in user mode: its entry and x10-x13 (13 Table 13-5); every other register is as it was (DESIGN
CHOICE, log entry 112). -/
def beginCode (entry : Nat) (args : List W64) (h : Hart) : Hart :=
  let set (h : Hart) (x : Nat × W64) : Hart := h.wx (Fin.ofNat 32 (10 + x.1)) x.2
  { (args.zipIdx.map fun x => (x.2, x.1)).foldl set h with pc := BitVec.ofNat 64 entry, machine := false, resv := none }

end Sys2Proof.Machine
end

