-- ==== Sys2Proof/Machine/Chamois.lean ====
section
/-!
DEFINITION. The Chamois tiles (07_ibex_chamois.md R149, R157-R161; 11_owners_secrecy.md R255-R258): kernels and what they
store, the mover, spills, recombination.
-/
namespace Sys2Proof.Machine

/-! ### Starting a descriptor -/

/-- May the descriptor at the head of a Chamois tile's queue start: an idle, powered, included tile (R385), its random bytes
at hand (R160, R107)? -/
def chamReady (s : State) (c : Fin 48) : Option Desc :=
  match s.cham[c].running, s.cham[c].queue with
  | none, d :: _ =>
    if (engTile s (.cham c)).cut || !dutyAllows s (.cham c) || (bit (fieldAt d.bytes 17 1) 0 && !drbgServes s 2) then none
    else some d
  | _, _ => none

/-- The head of the queue, if it may start and is of a kind. -/
def chamKind (s : State) (c : Fin 48) (kind : Nat) : Option Desc :=
  (chamReady s c).filter fun d => fieldAt d.bytes 16 1 == kind

/-- The random block (R160): 64 bytes from two generate requests. -/
def drawRandom (c : Fin 48) (d : Desc) (s : State) : State :=
  if bit (fieldAt d.bytes 17 1) 0 then
    let r := drbgDraws 2 s
    modCham c (fun x => { x with mem := memWrite x.mem 0x7FFC0 r.1 }) r.2
  else s

/-- A descriptor leaves the queue and starts: its random block and its successor are read. -/
def startCham (c : Fin 48) (d : Desc) (s : State) : Desc × State :=
  readNext (.cham c) d (drawRandom c d (popQueue (.cham c) s))

/-- Registers x10-x13 of a kernel: four 64-bit values from byte 32. -/
def kernelArgs (b : List Byte) : Vector W64 4 := Vector.ofFn fun i => BitVec.ofNat 64 (fieldAt b (32 + 8 * i.val) 8)

/-- KERNEL (R157, R160). -/
def execKernel (c : Fin 48) (s : State) : Out :=
  match chamKind s c 0 with
  | none => .next s
  | some d =>
    if !s.cham[c].monitor then .next s else
    let r := startCham c d s
    .next (modCham c (fun x => { x with running := some r.1, state := .kernel, args := kernelArgs d.bytes,
                                        entry := fieldAt d.bytes 20 4,
                                        core := beginCode (fieldAt d.bytes 20 4) (kernelArgs d.bytes).toList x.core }) r.2)

/-! ### A running kernel -/

/-- The kernel's descriptor. -/
def kernelOf (s : State) (c : Fin 48) : Option Desc := s.cham[c].running

/-- A kernel's descriptor ends in a descriptor fault by a trap that reaches the monitor: its cause and mtval are kept (R160). -/
def kernelTraps (c : Fin 48) (d : Desc) (t : RvTrap) (s : State) : State :=
  let s := modCham c (fun x => { x with running := none, state := .fault, cause := BitVec.ofNat 8 t.cause,
                                        tval := t.tval.setWidth 32 }) s
  descError (.cham c) d .descriptor (t.cause % 256) s

/-- The kernel's code runs; where it traps, the descriptor ends so, whatever was to follow (R160, R161). -/
def afterCode (c : Fin 48) (d : Desc) (code : List RvStep) (k : State → State) (s : State) : State :=
  let r := runCham c code s
  match r.2 with
  | some t => kernelTraps c d t r.1
  | none => k r.1

/-- KERNEL_DONE (R160): the kernel runs the rest of its code and writes DONE. -/
def execKernelDone (c : Fin 48) (code : List RvStep) (s : State) : Out :=
  match kernelOf s c with
  | none => .next s
  | some d =>
    .next (afterCode c d code (fun s => completeDesc (.cham c) d (modCham c (fun x => { x with running := none, state := .idle }) s)) s)

/-- CHAMOIS_TRAP (R160, R161): the kernel runs code and traps, by an instruction of it or by another cause. -/
def execChamoisTrap (c : Fin 48) (cause : BitVec 8) (tval : W64) (code : List RvStep) (s : State) : Out :=
  match kernelOf s c with
  | none => .next s
  | some d =>
    let t : RvTrap := { cause := cause.toNat, tval := tval }
    .next (afterCode c d code (fun s => kernelTraps c d t (modCham c (fun x => { x with
      core := { x.core with machine := true, mepc := x.core.pc, mcause := BitVec.ofNat 64 t.cause, mtval := tval } }) s)) s)

/-! ### The mover (R159) -/

/-- Is a stretch of the tile's own memory? -/
def chamHolds (a n : Nat) : Bool := decide (a + n ≤ 0x80000)

/-- Move bytes from local memory to another tile of the region, once that tile serves the write. -/
def moveToTile (c : Fin 48) (d : Desc) (t : Dst) (data : List Byte) (s : State) : State :=
  if !dstBacked t data.length then descError (.cham c) d .descriptor (dstDetail t) s
  else (writeDst (.cham c) d.job.r t data s).1

/-- One mover command of the kernel. A tile outside the region and an unbacked address are descriptor faults (R67, R77). -/
def moveData (c : Fin 48) (d : Desc) (m : MoverCmd) (s : State) : Option State :=
  let e : Eng := .cham c
  let r := s.rgn.rgn[d.job.r]
  let bad (s : State) : Option State := some (descError e d .descriptor 0 s)
  match m with
  | .toTile src lx ly addr len =>
    if !r.holds lx ly || !chamHolds src len then bad s
    else
      let t : Dst := .tile (unitOf r lx ly) addr
      if dstServes s t len then some (moveToTile c d t (memRead s.cham[c].mem src len) s) else none
  | .fromTile lx ly addr dst len =>
    if !r.holds lx ly || !chamHolds dst len then bad s
    else
      let u := unitOf r lx ly
      let busy := match u with
        | .ibex i => s.ibex[i].running.isSome
        | _ => false
      if busy then none
      else if !backed u addr len then some (descError e d .descriptor (unbackedDetail u) s)
      else some (localWrite e dst (localRead s u addr len) s)
  | .toDevice src addr len =>
    if !chamHolds src len then bad s
    else some (settle d.job.r (jobWrite d.job e addr (memRead s.cham[c].mem src len) s))
  | .fromDevice addr dst len =>
    if !chamHolds dst len then bad s
    else
      let x := jobRead d.job e addr len s
      some (settle d.job.r (localWrite e dst x.1 x.2))
  | .toStaging src bid len =>
    if !chamHolds src len then bad s
    else
      let p := edgeXY (engEntry e)
      some (pushVc0 (engXY e) ((chunks (memRead s.cham[c].mem src len)).map fun x =>
        { tag := d.job.r.val, dx := p.1, dy := p.2, load := .ring bid x.2 }) s)

/-- MOVER_TRANSFER (R159, R162): it waits while an Ibex tile's operation keeps the tile's memory (R148). Bytes for VC0 staging
leave in flits along the tick plan's entries (R366). -/
def execMoverTransfer (c : Fin 48) (m : MoverCmd) (code : List RvStep) (s : State) : Out :=
  match kernelOf s c with
  | none => .next s
  | some d =>
    let r := runCham c code s
    match r.2 with
    | some t => .next (kernelTraps c d t r.1)
    | none => match moveData c d m r.1 with
      | some s' => .next s'
      | none => .next s

/-- MOVER_SWAP (R159, R43): the named Herd tile latches the request; the last one latched in a tick decides. -/
def execMoverSwap (c : Fin 48) (lx ly : Nat) (buf : Fin 2) (code : List RvStep) (s : State) : Out :=
  match kernelOf s c with
  | none => .next s
  | some d => .next (afterCode c d code (fun s =>
      let r := s.rgn.rgn[d.job.r]
      if !r.holds lx ly then descError (.cham c) d .descriptor 0 s
      else match unitOf r lx ly with
        | .herd h => modHerd h (fun t => { t with swap := some (buf == 1) }) s
        | _ => descError (.cham c) d .descriptor 0 s) s)

/-! ### Spills (R149) -/

/-- The parameters of a spill operation (Table 13-5). -/
structure SpillOp where
  p : Nat
  fp : Bool
  area : Nat
  epi : Nat
  fmt : Nat
  round : Nat
  scale : Int
  e : Nat
  out : Nat
deriving DecidableEq, Repr

def readSpill (b : List Byte) : SpillOp :=
  let b24 := fieldAt b 24 1
  { p := fieldAt b 18 1, fp := bit (fieldAt b 19 1) 0, area := fieldAt b 20 4, epi := bits b24 1 0, fmt := bits b24 4 2,
    round := bits b24 7 5, scale := toSigned 8 (fieldAt b 25 1), e := fieldAt b 28 4, out := fieldAt b 40 6 }

def SpillOp.listed (o : SpillOp) : Bool :=
  decide (2 ≤ o.p) && decide (o.p ≤ 24) && decide (o.epi ≤ 2) && decide (o.round ≤ 4) && !(o.epi != 0 && o.fmt == 0)
    && decide (-64 ≤ o.scale) && decide (o.scale ≤ 63)

/-- Local panels aligned and inside the tile's memory (R142 for a Chamois tile, DEDUCED, log entry 31). -/
def spillAddrsOk (s : State) (c : Fin 48) (d : Desc) (o : SpillOp) : Bool :=
  let panel (a n : Nat) : Bool := a % n == 0 && chamHolds a n
  chamHolds o.area (o.p * 0x4000) && (o.epi == 0 || panel o.e 0x4000) &&
    (o.fmt == 0 || match dstOf s d.job.r o.out with
      | .tile t a => t != .cham c || panel a (outBytes o.fmt)
      | .dev _ => true)

/-- The spill descriptor that waits at the head of a tile's queue. -/
def spillWaiting (s : State) (c : Fin 48) : Option Desc :=
  match s.cham[c].running, s.cham[c].queue with
  | none, d :: _ => if fieldAt d.bytes 16 1 = 1 then some d else none
  | _, _ => none

/-- A partial beyond p faults the Ibex tile that sent it (Table 7-4 cause 3). -/
def beyondP (x : Partial) (d : Desc) (s : State) : State :=
  settle d.job.r (jobError d.job .descriptor (engSite (.ibex x.src) 3)
    (modIbex x.src (fun t => { t with state := .fault, faultCause := 3 }) s))

/-- The partials of the SPILL that waits at the head of a tile's queue land in their slots of its spill area. -/
def landPartials (c : Fin 48) (d : Desc) (s : State) : State :=
  let o := readSpill d.bytes
  if o.listed && spillAddrsOk s c d o then
    modCham c (fun t =>
      let ours := t.slots.filter fun x => x.job == d.job && decide (x.idx < o.p) && !x.words.isEmpty
      { t with
        mem := ours.foldl (fun m x => memWrite m (o.area + 0x4000 * x.idx) (panelBytes x.words)) t.mem,
        slots := t.slots.map fun x => if x.job == d.job && decide (x.idx < o.p) then { x with words := [] } else x }) s
  else s

/-- SPILL_PARTIAL (R149): the `k`-th coming partial goes into its slot of the spill area, which the SPILL of its job names, at once
where that one waits at the head; one whose slot still holds an earlier partial waits. -/
def execSpillPartial (c : Fin 48) (k : Nat) (s : State) : Out :=
  match s.cham[c].coming[k]? with
  | none => .next s
  | some x =>
    if s.cham[c].slots.any fun y => y.job == x.job && y.idx == x.idx then .next s
    else
      let s := modCham c (fun t => { t with coming := t.coming.eraseIdx k, slots := t.slots ++ [x] }) s
      match spillWaiting s c with
      | some d =>
        if d.job != x.job then .next s
        else if fieldAt d.bytes 18 1 ≤ x.idx then .next (beyondP x d s)
        else .next (landPartials c d s)
      | none => .next s

/-- How many of a spill's p partials have been received. -/
def received (s : State) (c : Fin 48) (k : JobRef) (p : Nat) : Nat :=
  ((List.range p).filter fun i => s.cham[c].slots.any fun x => x.job == k && x.idx == i).length

/-- The partials in a tile's spill area, in ascending order of their slots. -/
def areaPanels (s : State) (c : Fin 48) (area p : Nat) : List (List W32) :=
  (List.range p).map fun i => panelWords (memRead s.cham[c].mem (area + 0x4000 * i) 0x4000)

/-- S (R149). -/
def spillSum (fp : Bool) (ps : List (List W32)) : List W32 :=
  match ps with
  | [] => []
  | p :: rest => rest.foldl (List.zipWith (spillAdd fp)) p

/-- The end of a spill: the conversion and the write. -/
def finishSpill (c : Fin 48) (d : Desc) (o : SpillOp) (sum : List W32) (s : State) : State :=
  let e : Eng := .cham c
  if o.fmt = 0 then completeDesc e d s
  else
    let dst := dstOf s d.job.r o.out
    let x := outPanel o.fp o.epi o.fmt (rndOf o.round) o.scale sum (panelWords (memRead s.cham[c].mem o.e 0x4000))
    if !dstBacked dst x.bytes.length then descError e d .descriptor (dstDetail dst) s
    else
      let w := writeDst e d.job.r dst x.bytes s
      endDesc e d w.2 w.1

/-- SPILL (R149, R151): all partials are there; they are added in ascending order, and the epilogue is applied. -/
def execSpill (c : Fin 48) (s : State) : Out :=
  match chamKind s c 1 with
  | none => .next s
  | some d =>
    let o := readSpill d.bytes
    let start := startCham c d s
    let fail (er : Err) : Out := .next (descError (.cham c) d er 0 (modCham c (fun t => { t with state := .fault }) start.2))
    if !o.listed then fail .reserved
    else if !spillAddrsOk s c d o then fail .descriptor
    else match s.cham[c].slots.find? fun x => x.job == d.job && decide (o.p ≤ x.idx) with
      | some x => .next (beyondP x d (modCham c (fun t => { t with slots := t.slots.filter fun y => y.job != d.job }) start.2))
      | none =>
        let l := landPartials c d s
        if received s c d.job o.p < o.p || !(o.fmt == 0 || dstServes s (dstOf s d.job.r o.out) (outBytes o.fmt)) then
          .next (modCham c (fun t => { t with state := .spill }) l)
        else
          let r := startCham c d l
          let sum := spillSum o.fp (areaPanels l c o.area o.p)
          .next (finishSpill c r.1 o sum
            (modCham c (fun t => { t with state := .idle, slots := t.slots.filter fun y => y.job != d.job }) r.2))

/-! ### Recombination (R255-R258) -/

/-- An object header (Table 9-3), as its 64 bytes hold it. -/
structure Obj where
  sk : List Byte
  param : Nat
  hash : List Byte
  comps : Nat
  limb0 : Nat
  limbs : Nat
  ntt : Bool
  valid : Bool
  modT : Bool
  serial : Nat
  scale : List Byte
deriving DecidableEq, Repr

def readObj (b : List Byte) : Obj :=
  let f := fieldAt b 31 1
  { sk := slice b 0 16, param := fieldAt b 16 4, hash := slice b 20 8, comps := fieldAt b 28 1, limb0 := fieldAt b 29 1,
    limbs := fieldAt b 30 1, ntt := bit f 0, valid := bit f 1, modT := bit f 2, serial := fieldAt b 32 8,
    scale := slice b 40 8 }

def objBytes (o : Obj) : List Byte :=
  o.sk ++ leBytes 4 o.param ++ o.hash ++ leBytes 1 o.comps ++ leBytes 1 o.limb0 ++ leBytes 1 o.limbs
    ++ leBytes 1 (b2n o.ntt + b2n o.valid * 2 + b2n o.modT * 4) ++ leBytes 8 o.serial ++ o.scale ++ List.replicate 16 0

/-- Sixteen zero bytes: the sk_id of a plaintext. -/
def noKey : List Byte := List.replicate 16 0

/-- Are the reserved bits of an object header zero (R10)? -/
def objReservedOk (b : List Byte) : Bool := fieldAt b 31 1 < 8 && (slice b 48 16).all (· == 0)

/-- The checks of R255 on the two headers and r. -/
def recombineOk (s : State) (n : Fin 8) (x y : Obj) (r : Nat) : Bool :=
  s.rgn.rgn[n].state == .sealed
    && x.valid && y.valid && x.comps == 1 && y.comps == 1 && x.limbs == 1 && y.limbs == 1 && !x.ntt && !y.ntt
    && y.sk == noKey && x.param == y.param && x.hash == y.hash && x.limb0 == y.limb0 && x.modT == y.modT
    && x.serial == y.serial && x.serial != 0 && decide (2 ≤ r)

/-- The first 8 bytes of the digest of a parameter set (R186). -/
def chainHash (d : List Byte) : List Byte := (sha256 (slice d 4 5 ++ d.drop 64)).take 8

/-- N of a share: that of the parameter set that its header names, where a PE holds it; the header itself does not give the
body's size, which is otherwise a free value of the two identifiers (log entry 32). -/
def shareN (s : State) (x : Obj) : Nat :=
  let sets := (allFin 4).flatMap fun e => s.pe[e].pset.toList.filterMap id
  match sets.find? fun d => fieldAt d 0 4 == x.param && chainHash d == x.hash with
  | some d => 2 ^ fieldAt d 5 1
  | none => 2 ^ (12 + (Config.shareLog x.param x.hash).toNat % 6)

/-- The words of a limb. -/
def limbWords (bs : List Byte) (n : Nat) : List Nat := (pieces 8 n bs).map ofLe

/-- One output word (R256). -/
def recombineWord (form r y x : Nat) : Nat :=
  let v := (y % r + x % r) % r
  if form = 1 ∧ r / 2 < v then ofSigned 64 ((v : Int) - r) else v

/-- The monitor's work: the output, then the share is consumed (R256, R257). -/
def recombineWork (c : Fin 48) (d : Desc) (x : Obj) (s : State) : State × MemFault :=
  let e : Eng := .cham c
  let b := d.bytes
  let n := d.job.r
  let share := fieldAt b 24 6
  let len := 8 * shareN s x
  let sw := readDev s (engEntry e) (ctxOf n) (share + 64) len
  let yw := readDev s (engEntry e) (ctxOf n) (fieldAt b 32 6 + 64) len
  match sw.2.orElse fun _ => yw.2 with
  | some f => (s, some f)
  | none =>
    let out := List.zipWith (recombineWord (fieldAt b 18 1) (fieldAt b 48 8)) (limbWords yw.1 (len / 8)) (limbWords sw.1 (len / 8))
    let w := writeDev (engEntry e) (ctxOf n) (fieldAt b 40 6) (out.flatMap fun v => leBytes 8 v) (useFree 1 s)
    match w.2 with
    | some f => (w.1, some f)
    | none =>
      let z := writeDev (engEntry e) (ctxOf n) (share + 64) (List.replicate len 0) w.1
      let h := writeDev (engEntry e) (ctxOf n) share (objBytes { x with valid := false }) z.1
      (h.1, z.2.orElse fun _ => h.2)

/-- RECOMBINE (R255-R258). -/
def execRecombine (c : Fin 48) (s : State) : Out :=
  match chamKind s c 2 with
  | none => .next s
  | some d =>
    if !s.cham[c].monitor then .next s else
    let e : Eng := .cham c
    let n := d.job.r
    let t := startCham c d s
    let s := modCham c (fun x => { x with state := .idle }) t.2
    let xs := readDev s (engEntry e) (ctxOf n) (fieldAt d.bytes 24 6) 64
    let ys := readDev s (engEntry e) (ctxOf n) (fieldAt d.bytes 32 6) 64
    let fault (s : State) : State := modCham c (fun x => { x with state := .fault }) s
    match xs.2.orElse fun _ => ys.2 with
    | some f => .next (descFault e d f (fault s))
    | none =>
      let x := readObj xs.1
      if 1 < fieldAt d.bytes 18 1 || !objReservedOk xs.1 || !objReservedOk ys.1 then .next (descError e d .reserved 0 (fault s))
      else if !recombineOk s n x (readObj ys.1) (fieldAt d.bytes 48 8) then .next (descError e d .descriptor 0 (fault s))
      else
        let r := recombineWork c d x s
        .next (endDesc e t.1 r.2 r.1)

end Sys2Proof.Machine
end

