-- ==== Sys2Proof/Machine/PolyMath.lean ====
section
/-!
DEFINITION. The arithmetic of the Polynomial Engine (09_polynomial_engine.md R184-R195, R199, R202): parameter sets, residue
polynomials, transforms, automorphisms, basis extension, key switching, masks, operation times.
-/
namespace Sys2Proof.Machine

/-! ### Modular arithmetic -/

def powModGo : Nat → Nat → Nat → Nat → Nat → Nat
  | 0, _, _, _, acc => acc
  | f + 1, b, e, m, acc => powModGo f (b * b % m) (e / 2) m (if e % 2 = 1 then acc * b % m else acc)
/-- b^e mod m, for e below 2^64. -/
def powMod (b e m : Nat) : Nat := powModGo 64 (b % m) e m (1 % m)

/-- Euclid's algorithm, with the coefficient of the second number. -/
def euclid : Nat → Nat → Nat → Int → Int → Nat × Int
  | 0, a, _, s, _ => (a, s)
  | f + 1, a, b, s, t => if b = 0 then (a, s) else euclid f b (a % b) t (s - ((a / b : Nat) : Int) * t)
/-- The inverse of a modulo m, where they are coprime. -/
def invMod (a m : Nat) : Nat := ((euclid 128 m (a % m) 0 1).2 % (m : Int)).toNat
def coprime (a b : Nat) : Bool := (euclid 128 a b 0 1).1 == 1

/-- (a − b) mod q. -/
def subMod (q a b : Nat) : Nat := (a + (q - b % q)) % q

/-! ### Parameter sets (R184-R186) -/

/-- A parameter set, read from its descriptor. -/
structure Pset where
  id : Nat
  scheme : Nat
  lg : Nat
  l : Nat
  k : Nat
  dnum : Nat
  pace : Nat
  t : Nat
  /-- (modulus, root) of index 0 to L + K − 1 -/
  mods : List (Nat × Nat)
  hash : List Byte
deriving DecidableEq, Repr

def readPset (d : List Byte) : Pset :=
  let l := fieldAt d 6 1
  let k := fieldAt d 7 1
  { id := fieldAt d 0 4, scheme := fieldAt d 4 1, lg := fieldAt d 5 1, l := l, k := k, dnum := fieldAt d 8 1,
    pace := fieldAt d 9 1, t := fieldAt d 16 8,
    mods := (List.range (l + k)).map fun i => (fieldAt d (64 + 16 * i) 8, fieldAt d (72 + 16 * i) 8), hash := chainHash d }

def Pset.n (p : Pset) : Nat := 2 ^ p.lg
/-- Z, the size of a limb (R187). -/
def Pset.z (p : Pset) : Nat := 8 * p.n
def Pset.alpha (p : Pset) : Nat := ceilDiv p.l p.dnum
def Pset.q (p : Pset) (i : Nat) : Nat := (p.mods.getD i (1, 0)).1
def Pset.psi (p : Pset) (i : Nat) : Nat := (p.mods.getD i (1, 0)).2
/-- B, the size of a key blob's body (R193). -/
def Pset.blob (p : Pset) : Nat := 2 * p.dnum * (p.l + p.k) * p.z

/-- Are the reserved bytes of a descriptor 0? -/
def psetReservedOk (d : List Byte) : Bool := fieldAt d 10 6 == 0 && (slice d 24 40).all (· == 0)

/-- The ranges of Table 9-2. -/
def Pset.rangesOk (p : Pset) : Bool :=
  p.id != 0 && (p.scheme == 1 || p.scheme == 2) && decide (12 ≤ p.lg) && decide (p.lg ≤ 17)
    && decide (1 ≤ p.l) && decide (p.l ≤ 63) && decide (1 ≤ p.k) && decide (p.k ≤ 64 - p.l)
    && decide (1 ≤ p.dnum) && decide (p.dnum ≤ p.l) && decide (p.alpha ≤ p.k) && decide (1 ≤ p.pace) && decide (p.pace ≤ 124)
    && (if p.scheme = 1 then decide (2 ≤ p.t) && decide (p.t ≤ 2 ^ 60) else p.t == 0)

/-- One modulus and its root (R185). -/
def modulusOk (n : Nat) (m : Nat × Nat) : Bool :=
  m.1 % 2 == 1 && decide (2 ^ 20 < m.1) && decide (m.1 < 2 ^ 61) && m.1 % (2 * n) == 1 && decide (m.2 < m.1)
    && powMod m.2 n m.1 == m.1 - 1

def pairwiseCoprime : List Nat → Bool
  | [] => true
  | q :: r => r.all (coprime q) && pairwiseCoprime r

/-- Does PSET_LOAD accept a parameter set (R185)? -/
def Pset.ok (p : Pset) : Bool :=
  p.rangesOk && p.mods.all (modulusOk p.n) && pairwiseCoprime (p.mods.map Prod.fst)

/-! ### Polynomials: one limb is a list of N residues -/

abbrev Limb := List Nat

/-- ψ^0 to ψ^(2N−1). -/
def psiTable (q psi n : Nat) : Array Nat :=
  ((List.range (2 * n)).foldl (fun (a : Array Nat × Nat) _ => (a.1.push a.2, a.2 * psi % q)) (#[], 1 % q)).1

/-- NTT (R189). -/
def ntt (lg q psi : Nat) (a : Limb) : Limb :=
  let n := 2 ^ lg
  let t := psiTable q psi n
  (List.range n).map fun k =>
    let e := 2 * bitRev lg k + 1
    (a.zipIdx.foldl (fun acc x => acc + x.1 * t.getD (x.2 * e % (2 * n)) 0) 0) % q

/-- INTT (R189). -/
def intt (lg q psi : Nat) (a : Limb) : Limb :=
  let n := 2 ^ lg
  let t := psiTable q psi n
  let inv := invMod n q
  (List.range n).map fun i =>
    (a.zipIdx.foldl (fun acc x => acc + x.1 * t.getD ((2 * n - i * (2 * bitRev lg x.2 + 1) % (2 * n)) % (2 * n)) 0) 0) % q * inv % q

/-- Pointwise sums, differences and products (R190). -/
def addLimb (q : Nat) (a b : Limb) : Limb := List.zipWith (fun x y => (x + y) % q) a b
def subLimb (q : Nat) (a b : Limb) : Limb := List.zipWith (subMod q) a b
def mulLimb (q : Nat) (a b : Limb) : Limb := List.zipWith (fun x y => x * y % q) a b

/-- g of R191. -/
def autoG (n rot : Nat) (conj : Bool) : Nat := powMod 5 rot (2 * n) * (if conj then 2 * n - 1 else 1) % (2 * n)

/-- AUTO (R191) of one limb. -/
def autoLimb (lg q g : Nat) (eval : Bool) (a : Limb) : Limb :=
  let n := 2 ^ lg
  if eval then
    let arr := a.toArray
    (List.range n).map fun k => arr.getD (bitRev lg ((g * (2 * bitRev lg k + 1) % (2 * n) - 1) / 2)) 0
  else
    (a.zipIdx.foldl (fun (out : Array Nat) x =>
      let r := x.2 * g % (2 * n)
      if r < n then out.setIfInBounds r x.1 else out.setIfInBounds (r - n) (subMod q 0 x.1)) (Array.replicate n 0)).toList

/-- The product of moduli, but one. -/
def prodBut (qs : List Nat) (i : Nat) : Nat := (qs.eraseIdx i).foldl (· * ·) 1

/-- Basis extension of limbs (modulus, words) to modulus m (R192). -/
def baseExt (m n : Nat) (ins : List (Nat × Limb)) : Limb :=
  let qs := ins.map Prod.fst
  let terms := ins.zipIdx.map fun x =>
    let hat := prodBut qs x.2
    let inv := invMod hat x.1.1
    (x.1.2).map fun w => (w * inv % x.1.1) * (hat % m)
  (terms.foldl (List.zipWith (· + ·)) (List.replicate n 0)).map (· % m)

/-! ### Key switching (R195) -/

/-- The moduli that a digit is formed over, by index: q_0 to q_(l−1), then the special ones. -/
def Pset.over (p : Pset) (l : Nat) : List Nat := List.range l ++ (List.range p.k).map fun i => p.l + i

/-- Digit j of a level-l polynomial, extended to every modulus, in evaluation form (step 2). -/
def digitAt (p : Pset) (x : List Limb) (l j i : Nat) : Limb :=
  let lo := j * p.alpha
  let hi := min ((j + 1) * p.alpha) l
  let own : Limb := x.getD i []
  let inside := (List.range (hi - lo)).map fun d => (p.q (lo + d), x.getD (lo + d) [])
  ntt p.lg (p.q i) (p.psi i) (if lo ≤ i ∧ i < hi then own else baseExt (p.q i) p.n inside)

/-- Σ_j e_j ⊙ key_j for modulus i, and one component of the key (step 3). -/
def keyAcc (p : Pset) (x : List Limb) (l i : Nat) (key : Nat → Limb) : Limb :=
  (List.range (ceilDiv l p.alpha)).foldl (fun acc j => addLimb (p.q i) acc (mulLimb (p.q i) (digitAt p x l j i) (key j)))
    (List.replicate p.n 0)

/-- One component of the result (step 4): `acc i` is the accumulator of modulus index i. -/
def modDown (p : Pset) (l : Nat) (acc : Nat → Limb) : List Limb :=
  let special := (List.range p.k).map fun i =>
    let m := p.l + i
    (p.q m, intt p.lg (p.q m) (p.psi m) (acc m))
  let big := (special.map Prod.fst).foldl (· * ·) 1
  (List.range l).map fun i =>
    let q := p.q i
    let u := ntt p.lg q (p.psi i) (baseExt q p.n special)
    let inv := invMod big q
    (subLimb q (acc i) u).map fun w => w * inv % q

/-! ### Masks (R202, R203) -/

/-- Block k of the mask generator, as a number. -/
def maskBlock (key : List Byte) (k : Nat) : Nat := ofBe (aes256 key (beBytes 16 (2 * 2 ^ 72 + k)))
/-- m. -/
def maskPoly (key : List Byte) (r n : Nat) : Limb := (List.range n).map fun k => maskBlock key k * r / 2 ^ 128

/-! ### Times (R199, Table 9-5) -/

/-- C and M of an operation, with c components and BASE_EXT's counts. -/
def opCost (p : Pset) (op c ins outs : Nat) : Nat × Nat :=
  let tn := p.n * p.lg / 1024
  let tp := p.n / 512
  let all := p.l + p.k
  match op with
  | 2 => (c * p.l * tn, 2 * c * p.l * p.z)
  | 3 => (c * p.l * tn, 2 * c * p.l * p.z)
  | 4 => (c * p.l * tp, 3 * c * p.l * p.z)
  | 5 => (c * p.l * tp, 3 * c * p.l * p.z)
  | 6 => (c * p.l * tp, (2 * c + 1) * p.l * p.z)
  | 7 => (c * p.l * tp, 2 * c * p.l * p.z)
  | 8 => (c * ins * outs * tp, c * (ins + outs) * p.z)
  | 9 => ((3 * p.l + 2 * p.k + p.dnum * all) * tn + (p.dnum * p.alpha * all + 2 * p.dnum * all + 2 * p.k * p.l + 2 * p.l) * tp,
          p.blob + p.z * (7 * p.l + (2 * p.dnum + 4) * all))
  | _ => (2 * p.l * tp + p.n / 4, (4 * p.l + 1) * p.z)

/-- T. -/
def opTime (p : Pset) (op c ins outs : Nat) : Nat :=
  let x := opCost p op c ins outs
  256 + max x.1 (ceilDiv x.2 (16 * p.pace))

end Sys2Proof.Machine
end

