-- ==== Sys2Proof/Machine/PolyEngine.lean ====
section
/-!
DEFINITION. The Polynomial Engines (09_polynomial_engine.md R181-R204): lending, the checks of an operation, each operation's
result, its last write, the pace fault.
-/
namespace Sys2Proof.Machine

/-! ### Descriptors -/

/-- The parameters of an operation (Tables 9-1, 13-5): component ranges as (comp0, ncomp). -/
structure PeOp where
  op : Nat
  slot : Fin 4
  x : Nat × Nat
  y : Nat × Nat
  z : Nat × Nat
  conj : Bool
  kind : Nat
  rot : Nat
  xa : Nat
  ya : Nat
  za : Nat
  ka : Nat
  sa : Nat
  ins : Nat × Nat
  outs : Nat × Nat
deriving DecidableEq, Repr

def readPe (b : List Byte) : PeOp :=
  let range (o : Nat) : Nat × Nat := (bits (fieldAt b o 1) 1 0, bits (fieldAt b o 1) 3 2)
  { op := fieldAt b 16 1, slot := Fin.ofNat 4 (fieldAt b 17 1), x := range 18, y := range 19, z := range 20,
    conj := bit (fieldAt b 21 1) 0, kind := bits (fieldAt b 21 1) 2 1, rot := fieldAt b 22 2, xa := fieldAt b 24 6,
    ya := fieldAt b 30 6, za := fieldAt b 36 6, ka := fieldAt b 42 6, sa := fieldAt b 48 6,
    ins := (fieldAt b 54 1, fieldAt b 55 1), outs := (fieldAt b 56 1, fieldAt b 57 1) }

/-- What keeps an operation from its result: a translation fault, or an error with its fault cause (Table 9-6). -/
inductive PeFail where
  | fault (f : Nat × Nat)
  | err (e : Err) (cause : Nat)
deriving DecidableEq, Repr

abbrev Pres (α : Type) := Except PeFail α

/-- Fail the structure checks (R196 checks 1-4). -/
def shape (b : Bool) : Pres Unit := if b then .ok () else .error (.err .descriptor 1)
/-- Fail the identifier checks (R196 checks 5-7). -/
def ident (b : Bool) : Pres Unit := if b then .ok () else .error (.err .keyMismatch 2)

/-- Read device memory in the region's context. -/
def peRead (s : State) (e : Fin 4) (n : Fin 8) (a len : Nat) : Pres (List Byte) :=
  let r := readDev s (peTile e) (ctxOf n) a len
  match r.2 with
  | some f => .error (.fault f)
  | none => .ok r.1

/-! ### Operands -/

/-- An operand's header (R196 check 2). -/
def peHeader (s : State) (e : Fin 4) (n : Fin 8) (p : Pset) (a : Nat) (range : Nat × Nat) : Pres Obj := do
  let b ← peRead s e n a 64
  if objReservedOk b then .ok () else .error (.err .reserved 1)
  let o := readObj b
  shape (o.valid && decide (1 ≤ o.comps) && decide (o.comps ≤ 3) && decide (1 ≤ range.2) && decide (range.1 ≤ 2)
    && decide (range.1 + range.2 ≤ o.comps) && decide (1 ≤ o.limbs) && decide (o.limb0 + o.limbs ≤ p.l + p.k))
  return o

/-- The words of component j, limb i of an object, reduced by the limb's modulus (R187, R188). -/
def peLimb (s : State) (e : Fin 4) (n : Fin 8) (p : Pset) (a : Nat) (o : Obj) (j i : Nat) : Pres Limb := do
  let b ← peRead s e n (a + 64 + (j * o.limbs + i) * p.z) p.z
  return (limbWords b p.n).map (· % p.q (o.limb0 + i))

/-- The selected components of an object, as lists of limbs. -/
def peComps (s : State) (e : Fin 4) (n : Fin 8) (p : Pset) (a : Nat) (o : Obj) (range : Nat × Nat) : Pres (List (List Limb)) :=
  (List.range range.2).mapM fun j => (List.range o.limbs).mapM fun i => peLimb s e n p a o (range.1 + j) i

/-- The bytes of limbs. -/
def limbBytes (l : Limb) : List Byte := l.flatMap fun w => leBytes 8 w

/-- The body writes of output components from comp0 on. -/
def bodyWrites (p : Pset) (a comp0 limbs : Nat) (cs : List (List Limb)) : List (Nat × List Byte) :=
  cs.zipIdx.map fun c => (a + 64 + (comp0 + c.2) * limbs * p.z, c.1.flatMap limbBytes)

/-- Do identifiers agree with the slot (check 5)? -/
def idsMatch (p : Pset) (o : Obj) : Bool := o.param == p.id && o.hash == p.hash

/-- The sk_id of an output: the operand's that is not a plaintext (check 6). -/
def joinSk (a b : List Byte) : List Byte := if a = noKey then b else a

/-! ### What an operation has prepared when it starts -/

structure PeRun where
  /-- writes made at the start: headers with valid = 0 (R201) -/
  first : List (Nat × List Byte)
  result : PeResult
  time : Nat
deriving DecidableEq, Repr

/-- The header of z, and the same with valid = 0. -/
def zHeader (o : PeOp) (x : Obj) (limb0 limbs : Nat) (ntt : Bool) (sk : List Byte) : Obj :=
  { x with sk := sk, comps := o.z.1 + o.z.2, limb0 := limb0, limbs := limbs, ntt := ntt, valid := true }

/-- Is the component range of z inside the three components of an object (Tables 9-1, 9-3)? -/
def PeOp.zFits (o : PeOp) : Bool := decide (o.z.1 ≤ 2) && decide (o.z.1 + o.z.2 ≤ 3)

/-- An operation other than KEYSWITCH: z's header is invalid from the start to the last write (R201). -/
def plainRun (p : Pset) (o : PeOp) (h : Obj) (cs : List (List Limb)) : PeRun :=
  { first := [(o.za, objBytes { h with valid := false })],
    result := .commit (bodyWrites p o.za o.z.1 h.limbs cs) [(o.za, objBytes h)] none,
    time := opTime p o.op o.z.2 o.ins.2 o.outs.2 }

/-- The parameter set of a descriptor's slot (check 1). -/
def slotSet (s : State) (e : Fin 4) (o : PeOp) : Pres Pset :=
  match s.pe[e].pset[o.slot] with
  | some d => .ok (readPset d)
  | none => .error (.err .descriptor 1)

/-- Limb i of a list of limbs, with its modulus and root: apply a transform. -/
def mapLimbs (p : Pset) (limb0 : Nat) (f : Nat → Nat → Limb → Limb) (l : List Limb) : List Limb :=
  l.zipIdx.map fun x => f (p.q (limb0 + x.2)) (p.psi (limb0 + x.2)) x.1

/-- An operation on one operand, limb by limb: NTT, INTT, AUTO (R189, R191). -/
def runOne (s : State) (e : Fin 4) (n : Fin 8) (o : PeOp) (form : Obj → Bool) (out : Obj → Bool)
    (f : Pset → Obj → Nat → Nat → Limb → Limb) : Pres PeRun := do
  let p ← slotSet s e o
  let x ← peHeader s e n p o.xa o.x
  shape (form x && o.z.2 == o.x.2 && o.zFits)
  ident (idsMatch p x)
  let cs ← peComps s e n p o.xa x o.x
  return plainRun p o (zHeader o x x.limb0 x.limbs (out x) x.sk) (cs.map (mapLimbs p x.limb0 (f p x)))

/-- An operation on two operands (R190); `f` takes the modulus. -/
def runTwo (s : State) (e : Fin 4) (n : Fin 8) (o : PeOp) (form : Obj → Obj → Bool) (comps : Nat)
    (f : Nat → Limb → Limb → Limb) (yOf : Nat → Nat) : Pres PeRun := do
  let p ← slotSet s e o
  let x ← peHeader s e n p o.xa o.x
  let y ← peHeader s e n p o.ya o.y
  shape (form x y && x.limb0 == y.limb0 && x.limbs == y.limbs && x.ntt == y.ntt && o.z.2 == comps && o.zFits)
  ident (idsMatch p x && idsMatch p y)
  ident (x.sk == y.sk || x.sk == noKey || y.sk == noKey)
  let xs ← peComps s e n p o.xa x o.x
  let ys ← peComps s e n p o.ya y o.y
  let zero : List Limb := List.replicate x.limbs (List.replicate p.n 0)
  let cs := (List.range comps).map fun j =>
    ((xs.getD j zero).zip (ys.getD (yOf j) zero)).zipIdx.map fun w => f (p.q (x.limb0 + w.2)) w.1.1 w.1.2
  return plainRun p o (zHeader o x x.limb0 x.limbs x.ntt (joinSk x.sk y.sk)) cs

/-- NTT (R189). -/
def runNtt (s : State) (e : Fin 4) (n : Fin 8) (o : PeOp) : Pres PeRun :=
  runOne s e n o (fun x => !x.ntt) (fun _ => true) (fun p _ q psi => ntt p.lg q psi)
/-- INTT (R189). -/
def runIntt (s : State) (e : Fin 4) (n : Fin 8) (o : PeOp) : Pres PeRun :=
  runOne s e n o (fun x => x.ntt) (fun _ => false) (fun p _ q psi => intt p.lg q psi)
/-- AUTO (R191). -/
def runAuto (s : State) (e : Fin 4) (n : Fin 8) (o : PeOp) : Pres PeRun :=
  runOne s e n o (fun _ => true) Obj.ntt (fun p x q _ => autoLimb p.lg q (autoG p.n o.rot o.conj) x.ntt)
/-- ADD (R190). -/
def runAdd (s : State) (e : Fin 4) (n : Fin 8) (o : PeOp) : Pres PeRun :=
  runTwo s e n o (fun _ _ => true) (max o.x.2 o.y.2) addLimb id
/-- SUB (R190). -/
def runSub (s : State) (e : Fin 4) (n : Fin 8) (o : PeOp) : Pres PeRun :=
  runTwo s e n o (fun _ _ => true) (max o.x.2 o.y.2) subLimb id
/-- MUL (R190). -/
def runMul (s : State) (e : Fin 4) (n : Fin 8) (o : PeOp) : Pres PeRun :=
  runTwo s e n o (fun x _ => x.ntt && o.y.2 == 1) o.x.2 mulLimb (fun _ => 0)

/-- BASE_EXT (R192). -/
def runBaseExt (s : State) (e : Fin 4) (n : Fin 8) (o : PeOp) : Pres PeRun := do
  let p ← slotSet s e o
  let x ← peHeader s e n p o.xa o.x
  shape (!x.ntt && o.z.2 == o.x.2 && o.zFits && decide (1 ≤ o.ins.2) && decide (1 ≤ o.outs.2)
    && decide (x.limb0 ≤ o.ins.1) && decide (o.ins.1 + o.ins.2 ≤ x.limb0 + x.limbs) && decide (o.outs.1 + o.outs.2 ≤ p.l + p.k))
  ident (idsMatch p x)
  let cs ← peComps s e n p o.xa x o.x
  let ext (c : List Limb) : List Limb :=
    let ins := (List.range o.ins.2).map fun i => (p.q (o.ins.1 + i), c.getD (o.ins.1 + i - x.limb0) [])
    (List.range o.outs.2).map fun i => baseExt (p.q (o.outs.1 + i)) p.n ins
  return plainRun p o (zHeader o x o.outs.1 o.outs.2 false x.sk) (cs.map ext)

/-! ### KEYSWITCH (R193-R197) -/

/-- A key blob's tag over its header and chunk digests (R194). -/
def blobTag (key header body : List Byte) : List Byte :=
  hmac key (slice header 0 32 ++ (pieces 65536 (body.length / 65536) body).flatMap sha256)

/-- Limb i, digit j, component b (0) or a (1) of a key body (R193). -/
def keyLimb (p : Pset) (body : List Byte) (i j comp : Nat) : Limb :=
  (limbWords (slice body ((i * p.dnum + j) * 2 * p.z + comp * p.z) p.z) p.n).map (· % p.q i)

/-- The bytes of the scratch area (R197). -/
def scratchLen (p : Pset) : Nat := p.z * (p.dnum + 2) * (p.l + p.k) + 2 * p.l * p.z

def runKeyswitch (s : State) (e : Fin 4) (n : Fin 8) (o : PeOp) : Pres PeRun := do
  let p ← slotSet s e o
  let x ← peHeader s e n p o.xa o.x
  shape (o.x.2 == 1 && x.limb0 == 0 && decide (x.limbs ≤ p.l) && o.z.2 == 2 && o.zFits)
  let h ← peRead s e n o.ka 64
  shape (fieldAt h 29 1 == 1)
  let key ← match s.pe[e].tagKey with
    | some k => .ok k
    | none => .error (.err .descriptor 1)
  ident (idsMatch p x && fieldAt h 16 4 == p.id && slice h 20 8 == p.hash)
  ident (x.sk != noKey && x.sk == slice h 0 16 && fieldAt h 28 1 == o.kind && fieldAt h 30 2 == o.rot)
  let cs ← peComps s e n p o.xa x o.x
  let body ← peRead s e n (o.ka + 64) p.blob
  let coef := mapLimbs p 0 (fun q psi a => if x.ntt then intt p.lg q psi a else a) (cs.getD 0 [])
  let l := x.limbs
  let out (comp : Nat) : List Limb := modDown p l fun i => keyAcc p coef l i fun j => keyLimb p body i j comp
  let z := zHeader o x 0 l true x.sk
  let scratch := (o.sa, scratchLen p)
  let result : PeResult :=
    if blobTag key h body = slice h 32 32 then
      .commit (bodyWrites p o.za o.z.1 l [out 0, out 1]) [(o.za, objBytes z)] (some scratch)
    else .badTag scratch (2 * p.l * p.z)
  return { first := [], result := result, time := opTime p o.op 1 0 0 }

/-! ### MASK (R202, R203) -/

/-- MASK, with the drawn key and the new serial. -/
def runMask (s : State) (e : Fin 4) (n : Fin 8) (o : PeOp) (key : List Byte) (serial : Nat) : Pres PeRun := do
  let p ← slotSet s e o
  let x ← peHeader s e n p o.xa o.x
  shape (o.x.2 == 2 && o.z.2 == 2 && o.zFits && x.limb0 == 0 && !x.ntt && decide (x.limbs ≤ p.l)
    && (p.scheme == 1 || x.limbs == 1))
  shape (s.rgn.rgn[n].state == .sealed)
  ident (idsMatch p x)
  let cs ← peComps s e n p o.xa x o.x
  let r := if p.scheme = 1 then p.t else p.q 0
  let m := maskPoly key r p.n
  let big := ((List.range x.limbs).map p.q).foldl (· * ·) 1
  let delta := if p.scheme = 1 then big / p.t else 1
  let z0 := mapLimbs p 0 (fun q _ a => List.zipWith (fun a b => (a + delta % q * b) % q) a m) (cs.getD 0 [])
  let z : Obj := { zHeader o x 0 x.limbs false x.sk with serial := serial }
  let share : Obj := { x with comps := 1, limb0 := 0, limbs := 1, ntt := false, valid := true, modT := p.scheme == 1, serial := serial }
  return { first := [(o.za, objBytes { z with valid := false }), (o.ka, objBytes { share with valid := false })],
           result := .commit (bodyWrites p o.za o.z.1 x.limbs [z0, cs.getD 1 []] ++ [(o.ka + 64, limbBytes (m.map fun v => (r - v) % r))])
             [(o.ka, objBytes share), (o.za, objBytes z)] none,
           time := opTime p o.op 2 0 0 }

/-! ### PSET_LOAD (R185) -/

def runPsetLoad (s : State) (e : Fin 4) (n : Fin 8) (o : PeOp) : Pres PeRun := do
  let h ← peRead s e n o.xa 64
  if psetReservedOk h then .ok () else .error (.err .reserved 5)
  if (readPset h).rangesOk then .ok () else .error (.err .descriptor 5)
  let d ← peRead s e n o.xa (64 + 16 * (fieldAt h 6 1 + fieldAt h 7 1))
  if (readPset d).ok then .ok () else .error (.err .descriptor 5)
  return { first := [], result := .slot o.slot d, time := 65536 }

/-! ### Starting an operation -/

/-- Are a PE's power, duty and head of queue such that the operation may start, but for its noise (R201, R378, R385)? -/
def peHead (s : State) (e : Fin 4) : Option Desc :=
  let x := s.pe[e]
  if x.running.isSome || (engTile s (.pe e)).cut || !dutyAllows s (.pe e) then none else x.queue.head?

/-- The admitted descriptor at the head of a PE's queue, if it carries operation `op`. -/
def peNext (s : State) (e : Fin 4) (op : Nat) : Option Desc :=
  if s.pe[e].admitted then (peHead s e).filter fun d => fieldAt d.bytes 16 1 == op else none

/-- Make writes of a PE, in order: the first translation fault. -/
def peWrites (e : Fin 4) (n : Fin 8) : List (Nat × List Byte) → State → State × MemFault
  | [], s => (s, none)
  | w :: rest, s =>
    let r := writeDev (peTile e) (ctxOf n) w.1 w.2 s
    match r.2 with
    | some f => (r.1, some f)
    | none => peWrites e n rest r.1

/-- A PE's descriptor ends with an error. -/
def peFails (e : Fin 4) (d : Desc) (f : PeFail) (s : State) : State :=
  let stop (cause : Nat) (s : State) : State :=
    modPe e (fun x => { x with running := none, result := none, state := .fault, faultCause := if cause = 0 then x.faultCause else cause }) s
  match f with
  | .fault f => descFault (.pe e) d f (stop 0 s)
  | .err er c => descError (.pe e) d er c (stop c s)

/-- The descriptor leaves the queue; it fails its checks, or starts. -/
def startPe (e : Fin 4) (d : Desc) (run : Pres PeRun) (s : State) : State :=
  let s := modPe e (fun x => { x with admitted := false }) (takeQueued (.pe e) d s)
  match run with
  | .error f => peFails e d f s
  | .ok r =>
    let t := readNext (.pe e) d s
    let w := peWrites e d.job.r r.first t.2
    match w.2 with
    | some f => peFails e d (.fault f) w.1
    | none => modPe e (fun x => { x with running := some t.1, result := some r.result, state := .busy, lastT := r.time }) w.1

/-- Start the operation at the head of PE e's queue, if it is `op`. -/
def peStart (e : Fin 4) (op : Nat) (run : State → Fin 4 → Fin 8 → PeOp → Pres PeRun) (s : State) : Out :=
  match peNext s e op with
  | none => .next s
  | some d => .next (startPe e d (run s e d.job.r (readPe d.bytes)) s)

/-- PSET_LOAD. -/
def execPsetLoad (e : Fin 4) (s : State) : Out := peStart e 1 runPsetLoad s
/-- NTT. -/
def execNtt (e : Fin 4) (s : State) : Out := peStart e 2 runNtt s
/-- INTT. -/
def execIntt (e : Fin 4) (s : State) : Out := peStart e 3 runIntt s
/-- ADD. -/
def execAdd (e : Fin 4) (s : State) : Out := peStart e 4 runAdd s
/-- SUB. -/
def execSub (e : Fin 4) (s : State) : Out := peStart e 5 runSub s
/-- MUL. -/
def execMul (e : Fin 4) (s : State) : Out := peStart e 6 runMul s
/-- AUTO. -/
def execAuto (e : Fin 4) (s : State) : Out := peStart e 7 runAuto s
/-- BASE_EXT. -/
def execBaseExt (e : Fin 4) (s : State) : Out := peStart e 8 runBaseExt s
/-- KEYSWITCH. -/
def execKeyswitch (e : Fin 4) (s : State) : Out := peStart e 9 runKeyswitch s

/-- PE e's mask serial: e in bits [63:62], the count below (R203). -/
def maskSerial (e : Fin 4) (count : Nat) : Nat := e.val * 2 ^ 62 + count % 2 ^ 62

/-- MASK waits for noise (R107); then it draws its key, and the serial counts on (R203). An operation that fails its checks
does not start: it draws and counts nothing. -/
def execMask (e : Fin 4) (s : State) : Out :=
  match (peHead s e).filter (fun d => fieldAt d.bytes 16 1 == 10) with
  | none => .next s
  | some d =>
    if !drbgServes s 1 then .next (modPe e (fun x => { x with state := .waiting }) s)
    else if !s.pe[e].admitted then .next s
    else
      let k := drbgDraw s
      let serial := (s.pe[e].serial + 1) % 2 ^ 62
      let run := runMask s e d.job.r (readPe d.bytes) k.1 (maskSerial e serial)
      match run with
      | .ok _ => .next (startPe e d run (modPe e (fun x => { x with serial := serial, lastSerial := maskSerial e serial }) k.2))
      | .error _ => .next (startPe e d run s)

/-! ### The last write, and the pace fault -/

/-- What the last write of an operation does (R185, R197, R201): the state, and the error that it ends with. -/
def peCommit (e : Fin 4) (n : Fin 8) (r : PeResult) (s : State) : State × Option PeFail :=
  let tell (x : State × MemFault) : State × Option PeFail := (x.1, x.2.map PeFail.fault)
  match r with
  | .slot i d => (modPe e (fun x => { x with pset := upd x.pset i fun _ => some d }) s, none)
  | .commit bodies heads none => tell (peWrites e n (bodies ++ heads) s)
  | .commit bodies heads (some a) =>
    tell (peWrites e n ((a.1, undefBytes s a.2) :: (bodies ++ heads)) (useFree a.2 s))
  | .badTag a staged =>
    let w := peWrites e n [(a.1, undefBytes s (a.2 - staged) ++ List.replicate staged 0)] (useFree a.2 s)
    (w.1, some (.err .keyIntegrity 3))

/-- PE_OP_COMPLETE (R197, R199, R201). -/
def execPeOpComplete (e : Fin 4) (s : State) : Out :=
  match s.pe[e].running, s.pe[e].result with
  | some d, some r =>
    let c := peCommit e d.job.r r s
    match c.2 with
    | some f => .next (peFails e d f c.1)
    | none =>
      .next (completeDesc (.pe e) d (modPe e (fun x => { x with running := none, result := none, state := .idle, ops := x.ops + 1 }) c.1))
  | _, _ => .next s

/-- PE_PACE_FAULT (R200): the operation is abandoned and its staged result zeroed. -/
def execPePaceFault (e : Fin 4) (s : State) : Out :=
  match s.pe[e].running with
  | none => .next s
  | some d =>
    let n := d.job.r
    if fieldAt d.bytes 16 1 = 1 then .next s else
    let s' := match s.pe[e].result with
      | some (.commit ws _ none) => forEach ws (fun w s => undefDst (.pe e) n (.dev w.1) w.2.length s) s
      | some (.commit _ _ (some a)) =>
        match slotSet s e (readPe d.bytes) with
        | .ok p => (peCommit e n (.badTag a (2 * p.l * p.z)) s).1
        | .error _ => s
      | some (.badTag a k) => (peCommit e n (.badTag a k) s).1
      | some (.slot _ _) => s
      | none => s
    .next (peFails e d (.err .pePace 4) s')

/-! ### Lending (R180, R181) -/

/-- PE_OWNER after an accepted write: a new owner finds the PE scrubbed, with the region's blob-tag key (R181, R194). -/
def lendPe (e : Fin 4) (code : Nat) (s : State) : State :=
  let new : Option (Fin 8) := if code < 8 then some (Fin.ofNat 8 code) else none
  if 8 ≤ code ∧ code < 15 then s
  else if s.pe[e].owner = new then s
  else
    let key := new.bind fun n => s.sec.rgn[n].tagKey
    modPe e (fun x => { x with owner := new, tagKey := key }) (returnPe e s)

/-- A write of PE_OWNER by the PF, or by the secure world while the owner is SEALED (R181); lend_err is W1C. -/
def execPeOwnerWrite (secure : Bool) (e : Fin 4) (v : W32) (s : State) : Out :=
  if !s.dev.ready then .next s else
  let x := s.pe[e]
  let shut := match x.owner with
    | some n => ctxSealed s (ctxOf n) || s.sec.rgn[n].sealing
    | none => false
  let s := if bit v.toNat 4 then modPe e (fun x => { x with lendErr := false }) s else s
  if x.state = .idle ∧ x.queue = [] ∧ (secure = true ∨ shut = false) then .next (lendPe e (v.toNat % 16) s)
  else .next (modPe e (fun x => { x with lendErr := true }) s)

end Sys2Proof.Machine
end

