-- ==== Sys2Proof/Machine/Admission.lean ====
section
/-!
DEFINITION. Admission under the power cap (16_power_energy_startup.md R378, R379, R385) and the DMA engine
(10_memory_host_link.md R229; 13_run_programs.md Table 13-5).
-/
namespace Sys2Proof.Machine

/-! ### Admission (R378) -/

/-- A descriptor that waits for admission: when it began to wait, and the state in which it is admitted. -/
structure Candidate where
  stamp : Nat
  admitted : State
deriving DecidableEq, Repr

/-- Ibex tile i's waiting descriptor, if it could start but for its charge. -/
def ibexCandidate (s : State) (i : Fin 48) : Option Candidate :=
  let x := s.ibex[i]
  if x.running.isSome || x.admitted || (engTile s (.ibex i)).cut || !dutyAllows s (.ibex i) then none
  else match ibexHead s i with
    | none => none
    | some d =>
      if ibexWaits x d then none
      else some { stamp := d.stamp,
                  admitted := modIbex i (fun x => { x with queue := d :: x.queue.erase d, admitted := true }) s }

/-- PE e's waiting descriptor, if it could start but for its charge; MASK needs noise (R107). -/
def peCandidate (s : State) (e : Fin 4) : Option Candidate :=
  if s.pe[e].admitted then none
  else match peHead s e with
    | none => none
    | some d =>
      if fieldAt d.bytes 16 1 = 10 ∧ drbgServes s 1 = false then none
      else some { stamp := d.stamp, admitted := modPe e (fun x => { x with admitted := true }) s }

/-- The DMA engine's waiting descriptor. -/
def dmaCandidate (s : State) : Option Candidate :=
  match s.eng.dmaAdmitted, s.eng.dmaQueue with
  | none, d :: _ => some { stamp := d.stamp, admitted := modEng (fun x => { x with dmaAdmitted := some d }) (takeQueued .dma d s) }
  | _, _ => none

/-- The waiting descriptors, in the order in which ties are decided. -/
def candidates (s : State) : List Candidate :=
  (allFin 48).filterMap (ibexCandidate s) ++ (allFin 4).filterMap (peCandidate s) ++ (dmaCandidate s).toList

/-- The oldest of the candidates that fit under the cap. -/
def oldestFit (l : List Candidate) : Option Candidate :=
  (l.filter fun c => fits c.admitted).foldl (fun best c => match best with
    | none => some c
    | some b => if c.stamp < b.stamp then some c else some b) none

/-- Is admission closed: a ramp step waits, or the measured power holds it (R378, R379)? -/
def admissionClosed (s : State) : Bool := s.pwr.admitHold || s.pwr.rgn.toList.any PwrRgn.waits

/-- DESCRIPTOR_ADMISSION. -/
def execDescriptorAdmission (s : State) : Out :=
  if admissionClosed s then .next s
  else match oldestFit (candidates s) with
    | some c => .next c.admitted
    | none => .next s

/-! ### DMA (R229) -/

/-- DMA_DESCRIPTOR: the admitted descriptor starts. -/
def execDmaDescriptor (s : State) : Out :=
  match s.eng.dmaAdmitted with
  | none => .next s
  | some d =>
    let r := readNext .dma d (modEng (fun x => { x with dmaAdmitted := none }) s)
    .next (modEng (fun x => { x with dmaRunning := x.dmaRunning ++ [r.1] }) r.2)

/-- The rows of a DMA descriptor: source, destination. -/
def dmaRows (s : State) (d : Desc) : List (Dst × Dst) :=
  let b := d.bytes
  (List.range (fieldAt b 36 2 + 1)).map fun i =>
    (rowDst s d.job.r (fieldAt b 16 6) (i * fieldAt b 40 4), rowDst s d.job.r (fieldAt b 24 6) (i * fieldAt b 44 4))

/-- What a copy meets that ends it. -/
inductive CopyStop where
  | unbacked (detail : Nat)
  | fault (f : Nat × Nat)
deriving DecidableEq, Repr

/-- Does a row's end lie in a host page (R229)? -/
def dstHost (s : State) (n : Fin 8) (write : Bool) : Dst → Bool
  | .tile _ _ => false
  | .dev a => match translate s hostTile (ctxOf n) a write with
    | .ok (.host _) => true
    | _ => false

/-- The requests of a row to host pages leave with the requester ID of the region's VF (R229). -/
def rowTlps (n : Fin 8) (r : Dst × Dst) (s : State) : State :=
  let s := if dstHost s n false r.1 then sendTlp (ctxOf n) false s else s
  if dstHost s n true r.2 then sendTlp (ctxOf n) true s else s

/-- Copy rows of `len` bytes; the first one that fails ends the copy. Also the rows copied before it. -/
def copyRows (n : Fin 8) (len : Nat) : List (Dst × Dst) → State → State × Option CopyStop × Nat
  | [], s => (s, none, 0)
  | r :: rest, s =>
    if !dstBacked r.1 len then (s, some (.unbacked (dstDetail r.1)), 0)
    else if !dstBacked r.2 len then (s, some (.unbacked (dstDetail r.2)), 0)
    else
      let s := rowTlps n r s
      let x := readDst s .dma n r.1 len
      match x.2 with
      | some f => (s, some (.fault f), 0)
      | none =>
        let w := writeDst .dma n r.2 x.1 s
        match w.2 with
        | some f => (w.1, some (.fault f), 0)
        | none =>
          let c := copyRows n len rest w.1
          (c.1, c.2.1, c.2.2 + 1)

/-- Does a tile of a row keep the copy waiting (R148)? -/
def rowServed (s : State) (len : Nat) (r : Dst × Dst) : Bool := dstServes s r.1 len && dstServes s r.2 len

/-- Bytes that a job's DMA has moved: one unit of progress for each 65,536 (R328). -/
def countMoved (len : Nat) (j : Job) : Job :=
  { j with moved := (j.moved + len) % 65536, progress := j.progress + BitVec.ofNat 64 ((j.moved + len) / 65536) }

/-- DMA_COMPLETE: the `k`-th descriptor in execution makes its last write. -/
def execDmaComplete (k : Nat) (s : State) : Out :=
  match s.eng.dmaRunning[k]? with
  | none => .next s
  | some d =>
    let len := fieldAt d.bytes 32 4
    let rows := dmaRows s d
    if !rows.all (rowServed s len) then .next s else
    let r := copyRows d.job.r len rows (modEng (fun x => { x with dmaRunning := x.dmaRunning.eraseIdx k }) s)
    let s := modJob d.job (countMoved (len * r.2.2)) r.1
    match r.2.1 with
    | some (.unbacked c) => .next (descError .dma d .descriptor c s)
    | some (.fault f) => .next (descFault .dma d f s)
    | none => .next (completeDesc .dma d s)

end Sys2Proof.Machine
end

