-- ==== Sys2Proof/Machine/Faults.lean ====
section
/-!
DEFINITION. Faults and restart (14_faults_restart.md): hangs (R329), the end of a drain, kills, captures and restarts
(R331-R337, R344), the end of region recovery (Table 14-3), clearing a log (R326).
-/
namespace Sys2Proof.Machine

/-! ### Hangs (R329) -/

/-- The job whose idle count has reached its budget. -/
def Job.hung (j : Job) : Bool := j.firing && decide (j.budget ≤ j.idle)

/-- HANG (R329). -/
def execHangDetected (r : Fin 8) (q : Fin 4) (s : State) : Out :=
  match s.jobs.find? (fun j => j.ref.r == r && j.ref.q == q && j.hung) with
  | some j => .next (settle r (jobError j.ref .hang noSite s))
  | none => .next s

/-! ### The end of an attempt (R333, R336) -/

/-- Has a packet before a position of queue i faulted and not yet written its record? -/
def faultedPkt (s : State) (i : Fin 33) (p : Pkt) : Bool :=
  pktOp p.bytes == 1 && match p.done with
    | some d => decide (3 ≤ statusClass d.status)
    | none => jobFaulted s i p

/-- Have three earlier jobs of a job's queue, one that continues after faults, faulted without a record (R336)? -/
def threeFaulted (s : State) (k : JobRef) : Bool :=
  let i := qIndex k.r k.q
  s.que[i].cont &&
    decide (3 ≤ ((s.que[i].pkts.takeWhile fun p => p.pos != k.pos).filter (faultedPkt s i)).length)

/-- A job between its attempts (R337 step 1). -/
def toRestore (j : Job) : Job :=
  { j with phase := .restoring, epoch := j.epoch + 1, wait := .none, chains := [], armDone := [], arms := [], deferred := [], go := false }

/-- What follows the drain or kill of a stopped job (R333, R336): it completes, or goes on to its next attempt, its
generations in ERROR and its locks broken (R313, R316). A merge of it is given up (R136). -/
def attemptEnds (k : JobRef) (s : State) : State :=
  match findJob s k with
  | none => s
  | some j =>
    let s := if j.tick then dropMerge k.r s else s
    if j.cancel.isSome then completeJob k Status.cancelled s
    else
      let c := j.cause.getD (0, Status.jobFault)
      if !codeRestartable c.1 || !modeRestartable j.pkt then completeJob k c.2 s
      else if threeFaulted s k || decide (modeRestartBudget j.pkt ≤ j.epoch) then completeJob k Status.jobRestartExhausted s
      else modJob k toRestore (purgeJob k (breakLocks k (endDeferred k .error s)))

/-- The job of region n's queue q that drains. -/
def drainingJob (s : State) (n : Fin 8) (q : Fin 4) : Option Job :=
  s.jobs.find? fun j => j.ref.r == n && j.ref.q == q && j.phase == .stopped && j.drainOn

/-- Does a stopped job still occupy an engine, tick, or write what it has sampled (R230)? -/
def draining (s : State) (j : Job) : Bool := executing s j.ref || stillTicks s j || stillWrites s j

/-- No engine still executes a descriptor of the stopped job (R331). -/
def execDrainEnd (r : Fin 8) (q : Fin 4) (s : State) : Out :=
  match drainingJob s r q with
  | some j => if draining s j then .next s else .next (settle r (attemptEnds j.ref s))
  | none => .next s

/-- drain_ticks have passed with an engine still busy: the job is killed (R332). -/
def execKill (r : Fin 8) (q : Fin 4) (s : State) : Out :=
  match drainingJob s r q with
  | some j =>
    if draining s j ∧ j.stopTn + s.err.drainTicks[r] ≤ (s.tick.tn.toNat : Int) then
      .next (settle r (attemptEnds j.ref (killJob j.ref (ctxSealed s (ctxOf r)) s)))
    else .next s
  | none => .next s

/-! ### Captures (R334, R335) -/

/-- The physical address of a save slot. -/
def saveAddr (k : JobRef) (slot : Nat) : Nat :=
  ((k.r.val % 4) * 2 ^ 14 + 12272 + 8 * (k.r.val / 4)) * 2 ^ 21 + (4 * k.q.val + slot) * 2 ^ 20

/-- The lowest free save slot of a queue: no job has it, nor an outcome whose record is not written (R334). -/
def freeSaveSlot (s : State) (n : Fin 8) (q : Fin 4) : Option Nat :=
  (List.range 4).find? fun i =>
    !(s.jobs.any fun j => j.ref.r == n && j.ref.q == q && j.saveSlot == some i) &&
      !(s.que[qIndex n q].pkts.any fun p => p.done.any fun d => d.slot == some i)

/-- Copy capture blocks into the save area from `pa` on; the first translation fault stops the copy. -/
def copyOut (n : Fin 8) : List (Nat × Nat) → Nat → State → State × MemFault
  | [], _, s => (s, none)
  | b :: rest, pa, s =>
    let d := readDev s (regionCpTile s n) (ctxOf n) b.1 b.2
    match d.2 with
    | some f => (s, some f)
    | none => copyOut n rest (pa + b.2) (modMem (fun m => physWrite m pa d.1) s)

/-- Copy them back. -/
def copyBack (n : Fin 8) : List (Nat × Nat) → Nat → State → State × MemFault
  | [], _, s => (s, none)
  | b :: rest, pa, s =>
    let w := writeDev (regionCpTile s n) (ctxOf n) b.1 (memRead s.mem.phys pa b.2) s
    match w.2 with
    | some f => (w.1, some f)
    | none => copyBack n rest (pa + b.2) w.1

/-- A capture copy fails: the job ends with code CAPTURE at epoch 0 (R334). -/
def captureFails (k : JobRef) (f : Nat × Nat) (s : State) : State :=
  let id := s.rgn.rgn[k.r].jobCounter + 1
  let s := modRgn k.r (fun r => { r with jobCounter := id }) (noteFault k.r f (cpSite s k.r 10 0) s)
  let s := modJob k (fun j => { j with jobId := id }) s
  match findJob s k with
  | none => s
  | some j =>
    let s := logRegion k.r (jobRecord .capture (cpSite s k.r 10 f.2) j s.tick.tn) s
    let s := if j.tick then modTickJob k.r (fun t => { t with shadow := none }) s else s
    completeJob k (errStatus .capture) s

/-- The capture blocks of a ready RUN are copied into the lowest free save slot of its queue (R334). -/
def execCaptureCopyDone (r : Fin 8) (q : Fin 4) (s : State) : Out :=
  match currentOp s (qIndex r q) 0x01, freeSaveSlot s r q with
  | some p, some slot =>
    let k : JobRef := { r := r, q := q, pos := p.pos }
    match findJob s k with
    | none => .next s
    | some j =>
      if j.phase ≠ .staged ∨ j.caps = [] ∨ j.saveSlot.isSome then .next s else
      let c := copyOut r j.caps (saveAddr k slot) s
      match c.2 with
      | none => .next (modJob k (fun j => { j with saveSlot := some slot }) c.1)
      | some f => .next (settle r (captureFails k f c.1))
  | _, _ => .next s

/-! ### Restarts (R337, R344) -/

/-- Discard the staged image of the Q0 RUN after a ticking job that restarts (R317). -/
def discardStaged (n : Fin 8) (s : State) : State :=
  forEach (s.jobs.filter fun j => j.ref.r == n && j.tick && j.phase == .staged) (fun j => dropStaged j.ref) s

/-- The next attempt of a job whose capture blocks are restored: it is staged again and starts (R337 steps 3 and 4). -/
def startAgain (j : Job) (p : Pkt) (s : State) : State :=
  let k := j.ref
  match stageRun s (qIndex k.r k.q) k.r p with
  | .error e => completeJob k e.status (noteIf (ctxOf k.r) e.fault (cpSite s k.r 10 0) s)
  | .ok (_, img) =>
    let s := if j.tick then modTickJob k.r (fun t => { t with shadow := none }) (discardStaged k.r s) else s
    let s := match img with
      | some x => writeImage k.r x s
      | none => s
    startAttempt k s

/-- The restart of a job between attempts: errors since its attempt ended have used up restarts of their own (R344). -/
def restartJob (j : Job) (s : State) : State :=
  let k := j.ref
  let e := min (j.epoch + j.extra) (modeRestartBudget j.pkt)
  let s := modJob k (fun j => { j with epoch := e, extra := 0, go := false }) s
  if modeRestartBudget j.pkt < j.epoch + j.extra then completeJob k Status.jobRestartExhausted s
  else
    let c := match j.saveSlot with
      | some slot => copyBack k.r j.caps (saveAddr k slot) s
      | none => (s, none)
    match c.2 with
    | some f => cpFault k f c.1
    | none =>
      match s.que[qIndex k.r k.q].pkts.find? (fun p => p.pos == k.pos) with
      | some p => beginDrain k.r (startAgain { j with epoch := e } p c.1)
      | none => c.1

/-- RESTART (R337): the next attempt of a restartable job starts. -/
def execRestart (r : Fin 8) (q : Fin 4) (s : State) : Out :=
  match s.jobs.find? (fun j => j.ref.r == r && j.ref.q == q && j.phase == .restoring && j.go) with
  | some j => .next (settle r (restartJob j s))
  | none => .next s

/-! ### Region recovery (Table 14-3) -/

/-- Steps 4 and 5: scrubbed tiles are reloaded, and the region takes the state it held before FAULTED. -/
def execRegionRecoveryComplete (r : Fin 8) (s : State) : Out :=
  let g := s.rgn.rgn[r]
  if g.state = .faulted ∧ g.recovery = 4 ∧ g.tearingDown = false then
    let s := forEach (regionUnits g) reloadUnit s
    let s := if g.before = .sealed then ownSave r r.val s else s
    .next (settle r (modRgn r (fun g => { g with state := g.before, recovery := 0 }) s))
  else .next s

/-! ### Logs (R326) -/

/-- 1 written to FIRST's valid bit clears both records and the count; a VF has its own region's log only. -/
def execLogClear (w : View) (log : Fin 9) (s : State) : Out :=
  if !viewOk s w then .next s
  else if log = 8 then
    match viewRegion w with
    | none => .next (modErr (fun e => { e with dev := ErrLog.reset }) s)
    | some _ => .next s
  else
    let n : Fin 8 := Fin.ofNat 8 log.val
    if viewRegion w = none ∨ viewRegion w = some n then
      .next (modErr (fun e => { e with rgn := upd e.rgn n fun _ => ErrLog.reset }) s)
    else .next s

end Sys2Proof.Machine
end

