-- ==== Sys2Proof/Machine/Kudu.lean ====
section
/-!
DEFINITION. The Kudu clusters and the Markhor cores (08_kudu_markhor_criward.md R165-R172): descriptors on harts, traps, a
lockstep mismatch, a watchdog.
-/
namespace Sys2Proof.Machine

/-! ### Descriptors on harts (R166) -/

/-- The lowest-numbered idle hart of harts 1-15. -/
def idleHart (k : Kudu) : Option (Fin 16) := (allFin 16).find? fun h => h != 0 && k.hart[h].isNone

/-- May a cluster's executive start a descriptor: loaded, in a region, powered, in a tick its duty includes (R385), no merge
waiting ahead or running (R166)? -/
def kuduReady (s : State) (m : Fin 8) : Bool :=
  let k := s.kudu[m]
  k.execLoaded && s.rgn.mbOwner[m].isSome && !k.mergeWaits && !k.merging && !(engTile s (.kudu m)).cut
    && dutyAllows s (.kudu m)

/-- Registers x10-x13 of a descriptor. -/
def kuduArgs (b : List Byte) : Nat × List W64 :=
  (fieldAt b 20 4, (List.range 4).map fun i => BitVec.ofNat 64 (fieldAt b (32 + 8 * i) 8))

/-- Put a descriptor on a hart, which runs it in user mode (R166). -/
def putHart (h : Fin 16) (d : Desc) (k : Kudu) : Kudu :=
  let a := kuduArgs d.bytes
  { k with hart := upd k.hart h fun _ => some d, args := upd k.args h fun _ => a, core := upd k.core h (beginCode a.1 a.2) }

/-- KUDU_DESCRIPTOR (R166): the oldest queued descriptor starts on the lowest-numbered idle hart. -/
def execKuduDescriptor (m : Fin 8) (s : State) : Out :=
  match s.kudu[m].queue, idleHart s.kudu[m] with
  | d :: _, some h =>
    if kuduReady s m then
      let r := readNext (.kudu m) d (popQueue (.kudu m) s)
      .next (modKudu m (putHart h r.1) r.2)
    else .next s
  | _, _ => .next s

/-- A descriptor ends in a descriptor fault by a trap of its hart: the hart, the cause and mtval are kept (R167). -/
def hartTraps (m : Fin 8) (hart : Fin 16) (d : Desc) (t : RvTrap) (s : State) : State :=
  descError (.kudu m) d .descriptor (t.cause % 256) (modKudu m (fun k => { k with
    hart := upd k.hart hart fun _ => none, cause := BitVec.ofNat 8 t.cause, trapHart := hart.val, tval := t.tval.setWidth 32 }) s)

/-- The descriptor's code runs; where it traps, the descriptor ends so, whatever was to follow (R167). -/
def afterHart (m : Fin 8) (hart : Fin 16) (d : Desc) (code : List RvStep) (k : State → State) (s : State) : State :=
  let r := runKudu m hart code s
  match r.2 with
  | some t => hartTraps m hart d t r.1
  | none => k r.1

/-- KUDU_DESCRIPTOR_COMPLETE (R310): the rest of the descriptor's code runs, and it completes. -/
def execKuduDescriptorComplete (m : Fin 8) (hart : Fin 16) (code : List RvStep) (s : State) : Out :=
  match s.kudu[m].hart[hart] with
  | none => .next s
  | some d =>
    .next (afterHart m hart d code (fun s => completeDesc (.kudu m) d (modKudu m (fun k => { k with
      hart := upd k.hart hart fun _ => none, done := k.done + 1 }) s)) s)

/-- KUDU_TRAP (R167): the descriptor's code runs and traps, by an instruction of it or by another cause. -/
def execKuduTrap (m : Fin 8) (hart : Fin 16) (cause : BitVec 8) (tval : W64) (code : List RvStep) (s : State) : Out :=
  match s.kudu[m].hart[hart] with
  | none => .next s
  | some d =>
    let t : RvTrap := { cause := cause.toNat, tval := tval }
    .next (afterHart m hart d code (fun s => hartTraps m hart d t (modKudu m (fun k => { k with
      core := upd k.core hart fun h => { h with machine := true, mepc := h.pc, mcause := BitVec.ofNat 64 t.cause, mtval := tval } }) s)) s)

/-! ### The Markhor cores -/

/-- The tile of the Secure Markhor, Markhor A, (0, 0). -/
def secureSite : Site := { x := 0, y := 0, engine := 10, detail := 0 }

/-- A lockstep mismatch halts the Secure Markhor and is a device-level error (R169). -/
def execLockstepMismatch (s : State) : Out :=
  if s.mkh.lockstepOk then
    .next (deviceError .lockstep secureSite 15 0
      { s with mkh := { s.mkh with lockstepOk := false, mismatch := satInc 16 s.mkh.mismatch },
               sec := { s.sec with up := false } })
  else .next s

/-- A command-processor core is offline and serves no region (R172). -/
def CpCore.lost (c : CpCore) : CpCore := { c with online := false, offlineCause := 2, regions := 0 }

/-- The site of a command-processor core. -/
def coreSite (cp : Fin 6) : Site :=
  { x := (edgeXY (cpTile cp.val)).1, y := (edgeXY (cpTile cp.val)).2, engine := 10, detail := 0 }

/-- WATCHDOG_EXPIRY (R172): the core is offline; its regions take CP_OFFLINE; the loss of cp 1 is a device-level error. -/
def execWatchdogExpiry (cp : Fin 6) (s : State) : Out :=
  let c := s.mkh.cp[cp]
  if c.online then
    let s := modCp cp CpCore.lost s
    let s := forEach ((allFin 8).filter fun n => c.regions.getLsbD n.val)
      (fun n => regionError n .cpOffline (coreSite cp) none) s
    .next (if cp = 1 then deviceError .maintCp (coreSite cp) 15 0 s else s)
  else .next s

end Sys2Proof.Machine
end

