-- ==== Sys2Proof/Machine/MemHost.lean ====
section
/-!
DEFINITION. Memory requests and the host link (10_memory_host_link.md R211-R215, R221, R224-R226, R342; 11 R253): requests by
device address, the translation caches, frame owners, PF BAR4, power states and configuration writes.
-/
namespace Sys2Proof.Machine

/-! ### Requests (R211, R212, R221, R342) -/

/-- The engine of a requesting tile, as an error record names it (Table 14-2). -/
def tileEngine (x y : Nat) : Nat :=
  if interior x y then engCode (unitAt x y)
  else if (allFin 4).any fun e => edgeXY (peTile e) == (x, y) then 4
  else if (x, y) == edgeXY hostTile then 5 else 10

/-- The job that a request belongs to. -/
def requestJob (s : State) (m : MemReq) : Option Job :=
  if m.ctx.val < 8 then
    match m.job with
    | some k => findJob s { r := Fin.ofNat 8 m.ctx.val, q := k.1, pos := k.2 }
    | none => none
  else none

/-- The place of a request's first byte. -/
def requestPlace (s : State) (tile : Fin 24) (m : MemReq) : Option Place :=
  (translate s tile m.ctx m.addr m.write.isSome).toOption

/-- The HBM stack that a place lies in. -/
def placeStack : Place → Option (Fin 4)
  | .dev pa _ => (hbmFrame (pa >>> 21)).map fun f => Fin.ofNat 4 f.1
  | .host _ => none
  | .shut => none

/-- The HBM stack that a request reaches, if its first byte lies in one. -/
def requestStack (s : State) (tile : Fin 24) (m : MemReq) : Option (Fin 4) := (requestPlace s tile m).bind placeStack

/-- The bytes of a read on the model's output port. -/
def putData (b : List Byte) (s : State) : State := { s with out := { s.out with data := b, ur := false } }

/-- Perform a request; the translation fault or failed tag check that it meets ends its job (R212, R221). -/
def performRequest (tile : Fin 24) (m : MemReq) (s : State) : State :=
  let s := match requestPlace s tile m with
    | some (.host _) => sendTlp m.ctx m.write.isSome s
    | _ => s
  let r : State × MemFault := match m.write with
    | some data => writeDev tile m.ctx m.addr data s
    | none =>
      let d := readDev s tile m.ctx m.addr m.len
      (putData d.1 s, d.2)
  let site : Site := { x := m.x, y := m.y, engine := tileEngine m.x m.y, detail := 0 }
  match r.2 with
  | none => r.1
  | some f =>
    match requestJob s m with
    | some j => settle j.ref.r (memError j.ref f site r.1)
    | none => noteIf m.ctx (some f) site r.1

/-- One more corrected error of a stack. -/
def countCorrected (k : Fin 4) (s : State) : State :=
  modMem (fun x => { x with stack := upd x.stack k fun t => { t with ceCount := satInc 16 t.ceCount } }) s

/-- The site of an error that a memory port finds. -/
def portSite (m : MemReq) (detail : Nat) : Site := { x := m.x, y := m.y, engine := 9, detail := detail }

/-- The stored tag of the first line of a request no longer matches the line (R221). -/
def spoilTag (p : Option Place) (s : State) : State :=
  match p with
  | some (.dev pa (some t)) =>
    modMem (fun m => physWrite m (tagAddr t.2 (pa / 128)) ((lineTag m t.1 (pa / 128)).map fun b => ~~~b)) s
  | _ => s

/-- An uncorrectable error: the line is discarded, and the device takes a device-level error (R341, R342). -/
def lineLost (k : Fin 4) (m : MemReq) (s : State) : State :=
  let s := if m.write.isNone then putData (List.replicate m.len 0) s else s
  let s := modMem (fun x => { x with stack := upd x.stack k fun t => { t with ue := true } }) s
  deviceError .hbmUe (portSite m k.val) 15 k.val s

/-- MEMORY_REQUEST (R211, R212, R221, R342): performed, after what its memory port finds has happened: a line whose tag no longer
matches, a corrected error, or an uncorrectable one, which discards it. -/
def execMemoryRequest (m : MemReq) (s : State) : Out :=
  let tile := entryTile m.x m.y
  match m.port, requestStack s tile m with
  | .tagMismatch, some _ => .next (performRequest tile m (spoilTag (requestPlace s tile m) s))
  | .corrected, some k => .next (performRequest tile m (countCorrected k s))
  | .uncorrectable, some k => .next (lineLost k m s)
  | _, _ => .next (performRequest tile m s)

/-! ### Translation caches (R213, R214) -/

/-- The entries that an entry tile caches of a context. -/
def Tlb.at (tile : Fin 24) (c : Fin 9) (t : Tlb) : Bool := t.tile == tile && t.ctx == c

/-- Put the table's entry v into a cache of 64; entry number `drop` of a full one gives way. -/
def cacheEntry (tile : Fin 24) (c : Fin 9) (drop v : Nat) (s : State) : State :=
  let here := s.mem.tlb.filter (Tlb.at tile c)
  if 65536 ≤ v || here.any (fun t => t.v == v) then s
  else
    let kept := if here.length < 64 then here else here.eraseIdx (drop % 64)
    let others := s.mem.tlb.filter fun t => !Tlb.at tile c t
    modMem (fun m => { m with tlb := others ++ kept ++ [{ tile := tile, ctx := c, v := v, pte := tableEntry s c v }] }) s

/-- TRANSLATION_MISS_FILL: the entry and the one behind it, for which the first does not give way (R213). -/
def execTranslationMissFill (tile : Fin 24) (ctx : Fin 9) (v drop : Nat) (s : State) : Out :=
  .next (cacheEntry tile ctx (drop % 63) (v + 1) (cacheEntry tile ctx drop v s))

/-- MEM_INV: the context's entries are dropped at the next tick boundary (R214); contexts 9-15 are reserved. -/
def execMemInv (v : W32) (s : State) : Out :=
  if s.dev.ready ∧ v.toNat % 16 < 9 then
    .next (modCtx (Fin.ofNat 9 (v.toNat % 16)) (fun c => { c with invBusy := true }) s)
  else .next s

/-! ### Frame owners (R215) -/

/-- May the normal world write a frame's owner: a free frame, or a frame of an OPEN region, which is not being sealed (Table
11-6 step 3)? -/
def frameOpen (s : State) (f : Nat) : Bool :=
  let o := frameOwner s.mem f
  o == 15 || (decide (o < 8) && (s.rgn.rgn[Fin.ofNat 8 o]).state == .opened && !s.sec.rgn[Fin.ofNat 8 o].sealing)

/-- MEM_FRAME_OWN (R215, R217): codes 9-14 are reserved; a new owner finds nothing of the old content. -/
def execMemFrameOwnWrite (secure : Bool) (v : W32) (s : State) : Out :=
  let f := s.mem.frameSel
  let o := v.toNat % 16
  if s.dev.ready && isFrame f && (decide (o < 9) || o == 15) && (secure || frameOpen s f) && o != frameOwner s.mem f then
    .next (modMem (giveFrame f o) s)
  else .next s

/-! ### PF BAR4 (R226) -/

def isWrite : HostAccess → Bool
  | .read _ => false
  | .write _ => true
/-- Bytes of an access. -/
def accessLen : HostAccess → Nat
  | .read n => n
  | .write data => data.length

/-- Where the part of an access that lies at BAR4 offset o of one window entry leads, or the address and cause of its refusal
(R226). -/
def bar4Place (s : State) (o : Nat) (write : Bool) : Except (Nat × Nat) Place :=
  match s.mem.win.find? fun w => w.valid && w.entry == o >>> 21 with
  | none => .error (o, 2)
  | some w =>
    let c : Fin 9 := Fin.ofNat 9 w.ctx
    let addr := w.page * 2 ^ 21 + o % 2 ^ 21
    if ctxSealed s c then .error (addr, 5)
    else match translate s hostTile c addr write with
      | .error e => .error (addr, e)
      | .ok p => .ok p

/-- The parts of a read, entry by entry: the bytes, and whether all parts were served; context 8 latches a refusal. -/
def bar4Reads : List (Nat × Nat) → State → List Byte × Bool × State
  | [], s => ([], true, s)
  | p :: rest, s =>
    match bar4Place s p.1 false with
    | .error e =>
      let r := bar4Reads rest (latchFault 8 e.1 e.2 s)
      (r.1, false, r.2.2)
    | .ok place =>
      let r := bar4Reads rest s
      ((readPlace s place p.2).1 ++ r.1, r.2.1, r.2.2)

/-- The parts of a write, entry by entry: a refused one is dropped. -/
def bar4Writes : List (Nat × Nat) → List Byte → State → State
  | [], _, s => s
  | p :: rest, data, s =>
    bar4Writes rest (data.drop p.2) (match bar4Place s p.1 true with
      | .error e => latchFault 8 e.1 e.2 s
      | .ok place => writePlace place (data.take p.2) s)

/-- BAR4_ACCESS (R226): an access that crosses entries is made by each of them; a read of which a part is refused completes with
Unsupported Request. -/
def execBar4Access (o : Nat) (a : HostAccess) (s : State) : Out :=
  if !s.dev.ready || decide (2 ^ (30 + s.pcie.bar4) ≤ o) then .next s else
  let parts := pageParts (accessLen a / 2 ^ 21 + 2) o (accessLen a)
  match a with
  | .write data => .next (bar4Writes parts data s)
  | .read _ =>
    let r := bar4Reads parts s
    .next { r.2.2 with out := { r.2.2.out with data := if r.2.1 then r.1 else [], ur := !r.2.1 } }

/-! ### Functions (R224, R225, R233, R253) -/

/-- POWER_STATE_CHANGE (R224): D3hot keeps every region; doorbells are refused while it lasts. -/
def execPowerStateChange (fn : Fin 9) (d3 : Bool) (s : State) : Out :=
  .next { s with pcie := { s.pcie with d3 := upd s.pcie.d3 fn fun _ => d3 } }

/-- A write to a VF's BAR registers or Command register leaves a locked TDI in ERROR (R253). -/
def touchVf (fn : Fin 9) (s : State) : State :=
  if fn = 0 then s else tdiError (Fin.ofNat 8 (fn.val - 1)) s

/-- A write of Max_Payload_Size and Max_Read_Request_Size, as powers of two of 128 bytes: at most 512 and 4,096 bytes (R224); the
PF's payload size is the link's (Table 10-5). -/
def setSizes (fn : Fin 9) (mps mrrs : Nat) (s : State) : State :=
  if 2 < mps ∨ 5 < mrrs then s else
  let s := { s with pcie := { s.pcie with sizes := upd s.pcie.sizes fn fun _ => (mps, mrrs) } }
  if fn = 0 then modMem (fun m => { m with link := (m.link.1, m.link.2.1, mps) }) s else s

/-- CONFIGURATION_WRITE (R224, R225, R253). A BAR4 size outside 1 to 128 GiB, a payload size above 512 bytes or a read request size
above 4,096 bytes is not supported and changes nothing. -/
def execConfigurationWrite (c : CfgWrite) (s : State) : Out :=
  match c with
  | .command fn v => .next (touchVf fn { s with pcie := { s.pcie with command := upd s.pcie.command fn fun _ => v } })
  | .bar fn n v => .next (touchVf fn { s with pcie := { s.pcie with bars := upd s.pcie.bars fn fun b => upd b n fun _ => v } })
  | .sizes fn mps mrrs => .next (setSizes fn mps mrrs s)
  | .vfEnable on => .next { s with pcie := { s.pcie with vfEnable := on } }
  | .bar4Size g => if g ≤ 7 then .next { s with pcie := { s.pcie with bar4 := g } } else .next s

/-- VF_FLR (R233, R326): the region's log is cleared; the region is destroyed and created again; one that is FORMING or
being sealed is created or sealed first. A region that is FREE, or already being destroyed, is left to that. -/
def execVfFlr (r : Fin 8) (s : State) : Out :=
  let g := s.rgn.rgn[r]
  let s := modErr (fun e => { e with rgn := upd e.rgn r fun _ => ErrLog.reset }) (tdiError r s)
  if g.state = .free ∨ g.tearingDown then .next s
  else if g.state = .forming ∨ s.sec.rgn[r].sealing then .next (modRgn r (fun g => { g with flrWaits := true }) s)
  else .next (startFlr r s)

end Sys2Proof.Machine
end

