-- ==== Sys2Proof/Machine/Firmware.lean ====
section
/-!
DEFINITION. The firmware of a running block (08_kudu_markhor_criward.md R175, R178; 11_owners_secrecy.md R237): staging an
image, the measurements that a boot takes, the device identity keys.
-/
namespace Sys2Proof.Machine

/-! ### Staging (R175, R251) -/

/-- Mark the inactive bank as pending, with an image. -/
def putPending (img : List Byte) (s : State) : State :=
  { s with stag := { s.stag with bank := s.stag.bank.set (inactiveBank s) { img := img, invalid := false }, pending := true },
           mkh := { s.mkh with pending := true } }

/-- Is NO_FW_UPDATE in force (R251)? -/
def fwLocked (s : State) : Bool :=
  s.sec.rgn.toList.any fun x => x.noFw && (x.tdi == .locked || x.tdi == .run)

/-- FW_STAGE (R175): the image is checked under R174; then Stag writes it to the inactive bank, which takes until the next
tick boundary (log entry 47). -/
def execFwStage (s : State) : Out :=
  maintCommand 0x46 (fun p s =>
    let size := fieldAt p.bytes 32 4
    if fwLocked s then maintDone p Status.fwLocked s
    else
      let r := readDev s (queueTile s maintQ) 8 (fieldAt p.bytes 24 6) size
      let s := latchIf 8 r.2 s
      if imageOk s.stag.floor r.1 size then maintStart p { s with stag := { s.stag with writing := some r.1 } }
      else maintDone p Status.fwImageInvalid s) s

/-- Stag has written an image: the bank is pending, and FW_STAGE completes. -/
def stagingEnds (s : State) : State :=
  match s.stag.writing with
  | none => s
  | some img =>
    let s := putPending img { s with stag := { s.stag with writing := none } }
    match current s maintQ with
    | some p => if p.started && pktOp p.bytes == 0x46 then settleMaint (maintDone p Status.ok s) else s
    | none => s

/-- Power is lost, or the module is reset, while Stag writes: the inactive bank is invalid (R175). -/
def stagingBreaks (s : State) : StagState :=
  if s.stag.writing.isSome then
    { s.stag with bank := s.stag.bank.set (inactiveBank s) { img := [], invalid := true }, pending := false, writing := none }
  else s.stag

/-! ### What a boot measures (R178) -/

/-- Slots 0, 5 and 6, which the boot ROM fills. -/
def measureRom (img : List Byte) (s : State) : State :=
  { s with mkh := { s.mkh with
      meas := ((s.mkh.meas.set 0 (measureComp img 0)).set 5 (measureManifest img)).set 6 (sha256 (policyRecord s.stag.floor)),
      svn := svnOf img, release := BitVec.ofNat 32 (releaseOf img) } }

/-- Slots 1-4, which secure Criward fills. -/
def measureRest (img : List Byte) (s : State) : State :=
  { s with mkh := { s.mkh with
      meas := (((s.mkh.meas.set 1 (measureComp img 1)).set 2 (measureComp img 2)).set 3 (measureComp img 3)).set 4
        (measureComp img 4) } }

/-! ### The device identity keys (R237) -/

/-- The order of the P-256 group. -/
def p256Order : Nat := 0xFFFFFFFF00000000FFFFFFFFFFFFFFFFBCE6FAADA7179E84F3B9CAC2FC632551

/-- A P-256 private scalar from a KDF output. -/
def scalarOf (k : List Byte) : List Byte := beBytes 32 (ofBe k % (p256Order - 1) + 1)

/-- The DeviceID scalar, the CDI and the Alias scalar (Table 11-1). -/
def deviceKeys (s : State) : List Byte × List Byte × List Byte :=
  let uds := kdf (leBytes 32 Config.hardwareKey.toNat) "XS64-DICE-UDS" serialBytes
  let cdi := kdf uds "XS64-CDI" (s.mkh.meas[0] ++ s.mkh.meas[5] ++ s.mkh.meas[6])
  (scalarOf (kdf uds "XS64-DEVICE-ID" serialBytes), cdi, scalarOf (kdf cdi "XS64-ALIAS" serialBytes))

end Sys2Proof.Machine
end

