-- ==== Sys2Proof/Machine/Startup.lean ====
section
/-!
DEFINITION. Start-up and resets (16_power_energy_startup.md R388-R393): cold and warm reset, the start-up stages, a trial
boot that times out (08 R176), PERST#, loss of power, and FLR of the PF (10 R233).
-/
namespace Sys2Proof.Machine

/-! ### The effects of a reset (Table 16-5) -/

/-- Noise after a reset (R110): FAILED survives a warm one. -/
def resetNoise (warm : Bool) (x : NoiseState) : NoiseState :=
  if warm && x.state == .failed then
    { NoiseState.reset with state := .failed, failSrc := x.failSrc, failCause := x.failCause,
                            startupDone := x.startupDone, srcOk := x.srcOk,
                            src := x.src.map fun y => { Source.reset with passed := y.passed, failed := y.failed } }
  else NoiseState.reset

/-- cap_forced after a reset (R378, R388, R397). -/
def resetCapForced (warm aux : Bool) (p : PwrState) : Bool :=
  if warm then !aux && p.capForced else !aux || p.auxLost

/-- The block after a cold or warm reset, at step 2 of Table 16-3. Fuses, flash and host memory are kept, by a warm reset the
RWS registers, the counts since cold reset and the error ENTROPY too (R392, R412, 08 Table 8-9, 09 R203, 14 Table 14-4). -/
def resetState (warm : Bool) (cause : ResetCause) (aux : Bool) (s : State) : State :=
  let z := State.reset
  { z with
    pending := s.pending,
    haly := { z.haly with inp := Vector.ofFn fun n => { z.haly.inp[n] with pin := s.haly.inp[n].pin, level := s.haly.inp[n].pin } },
    dev := { z.dev with stage := .rom, resetCause := cause, scratch := if warm then s.dev.scratch else 0,
                        perst := s.dev.perst, warm := warm, test := if warm then s.dev.test else .none },
    noise := resetNoise warm s.noise,
    pe := s.pe.map fun p => { Pe.reset with serial := if warm then p.serial else 0 },
    mkh := { z.mkh with activeBank := s.mkh.activeBank, pending := (stagingBreaks s).pending,
                        mismatch := if warm then s.mkh.mismatch else 0 },
    pcie := { z.pcie with host := s.pcie.host },
    pwr := { z.pwr with aux := aux, capForced := resetCapForced warm aux s.pwr,
                        capW := if warm then s.pwr.capW else 150, auxLost := warm && s.pwr.auxLost },
    stag := stagingBreaks s,
    err := { z.err with entropy := warm && s.err.entropy },
    out := s.out, free := s.free }

/-- A warned cut of everything: every tile of every SEALED region is scrubbed, and its power withdrawn (R260, R261). -/
def warnAll (s : State) : State :=
  let s := forEach (sealedRegions s) (fun n s => scrubAll (regionUnits s.rgn.rgn[n] ++ (lentPes s n).map Eng.pe) s) s
  withdraw 3 true noSite (sealedRegions s) s

/-- A cold reset that Stag applies takes effect: the block stands before power-good, until the COLD_RESET of it (R386, R388, R406). -/
def stagApplies (cause : ResetCause) (aux : Bool) (s : State) : State :=
  let s := resetState false cause aux s
  { s with dev := { s.dev with stage := .power, stagReset := some cause } }

/-- COLD_RESET (R392): power-good after a power cycle, or a reset that Stag applies, whose cause it is. -/
def execColdReset (aux : Bool) (s : State) : Out :=
  .next (resetState false (s.dev.stagReset.getD .powerCycle) aux s)

/-- WARM_RESET (R392): PERST# is asserted, with the warning of R260. -/
def execWarmReset (aux : Bool) (s : State) : Out :=
  if s.dev.powered ∧ s.dev.perst = false then
    let s := resetState true .perst aux (warnAll s)
    .next { s with dev := { s.dev with perst := true } }
  else .next s

/-- Does the link train to a speed and width: every one that the PCIe 5.0 specification defines, up to 32 GT/s and 16 lanes (R224)? -/
def linkOk (speed width : Nat) : Bool := decide (1 ≤ speed) && decide (speed ≤ 5) && [1, 2, 4, 8, 12, 16].contains width

/-- PERST_DEASSERTION (R389, R224): ticks may begin, and the link trains. -/
def execPerstDeassertion (speed width : Nat) (s : State) : Out :=
  let s := if linkOk speed width then modMem (fun m => { m with link := (speed, width, m.link.2.2) }) s else s
  .next { s with dev := { s.dev with perst := false } }

/-! ### The stages (Table 16-3) -/

def atStage (t : Stage) (s : State) : State := { s with dev := { s.dev with stage := t } }

/-- The bank that boots: the inactive one on trial, else the active one (R176). -/
def bootBank (s : State) : Fin 2 := if s.mkh.trial then inactiveBank s else activeBank s
def bootImage (s : State) : List Byte := s.stag.bank[bootBank s].img

/-- Step 2: a pending bank is booted once, as a trial (R176). The conditioner's power-on known-answer test is run by then (R108;
DEDUCED, log entry 40). -/
def stageRom (kat : Bool) (s : State) : State :=
  let s := if kat then s else noiseFail 5 0 s
  atStage .verify { s with mkh := { s.mkh with trial := s.stag.pending, pending := false },
                           stag := { s.stag with pending := false } }

/-- Step 3 with the image to run decided: measurement slots 0, 5 and 6, the device keys; secure Criward runs in lockstep. -/
def startSecure (s : State) : State :=
  let s := measureRom (bootImage s) s
  atStage .hbm { s with sec := { s.sec with up := true, keys := some (deviceKeys s) },
                        mkh := { s.mkh with lockstepOk := true } }

/-- Step 3: a trial image that fails R174 gives way to the previous bank at once, with fallback set (R176); FAILED where no
bank boots (R390). -/
def stageVerify (ok : Bool) (s : State) : State :=
  if bankBoots s (bootBank s) ok then startSecure s
  else if s.mkh.trial then
    let s := { s with mkh := { s.mkh with trial := false, fallback := true } }
    if bankBoots s (bootBank s) ok then startSecure s else atStage .failed s
  else atStage .failed s

/-- Step 4: the stacks are trained, and context 8 gets a key; the DRBG does not run yet, so its bytes are free until it does (R218;
log entry 39). -/
def stageHbm (ok : Bool) (ms : Nat) (s : State) : State :=
  let s := { s with dev := { s.dev with hbmMs := min ms 65535 } }
  if ok then
    let s := { s with mem := { s.mem with stack := s.mem.stack.map fun x => { x with trained := true } },
                      stag := { s.stag with trained := true } }
    atStage .selftest (useFree 64 (modCtx 8 (fun x => { x with
      key := some (undefBytes s 64), keyValid := true, stackMask := 0xF }) s))
  else atStage .failed s

/-- Step 5: the mesh and the Rim are tested; every tile SRAM is left zero. -/
def stageSelftest (ok : Bool) (s : State) : State :=
  let s := { s with mesh := { s.mesh with testDone := true, testPass := ok },
                    rim := { s.rim with testDone := true, testPass := ok } }
  atStage (if ok then .entropy else .failed) s

/-- The command-processor cores start; one is online once its self-test passes (R172). -/
def startCores (cores : BitVec 6) (s : State) : State :=
  { s with mkh := { s.mkh with cp := Vector.ofFn fun c => { CpCore.reset with
      online := cores.getLsbD c.val, offlineCause := if cores.getLsbD c.val then 0 else 1 } } }

/-- A trial image is committed when ready is set: its bank becomes the active one, and raise_floor raises the fused floor to
its svn (R176). -/
def commitTrial (s : State) : State :=
  if s.mkh.trial then
    let img := bootImage s
    { s with mkh := { s.mkh with activeBank := !s.mkh.activeBank, trial := false },
             stag := { s.stag with floor := if imgRaiseFloor img then imgSvn img else s.stag.floor } }
  else s

/-- Steps 7 and 8: the other components are measured and start, the Alias certificate is issued, ready is set. -/
def stageNormal (cores : BitVec 6) (s : State) : State :=
  let s := startCores cores (measureRest (bootImage s) s)
  let s := { s with sec := { s.sec with aliasOk := true } }
  commitTrial { s with dev := { s.dev with stage := .ready, ready := true } }

/-- Count the time that a stage took, from step 2 on. -/
def addMs (ms : Nat) (s : State) : State :=
  { s with dev := { s.dev with bootMs := satAdd 16 s.dev.bootMs ms } }

/-- STARTUP_STAGE_COMPLETE (R389, R390). ENTROPY ends once noise is READY or has failed, which does not stop start-up
(R109; DEDUCED, log entry 40). -/
def execStartupStageComplete (ok : Bool) (ms : Nat) (cores : BitVec 6) (kat : Bool) (s : State) : Out :=
  if !s.dev.powered then .next s else
  match s.dev.stage with
  | .power => .next (atStage .rom s)
  | .rom => .next (stageRom kat (addMs ms s))
  | .verify => .next (stageVerify ok (addMs ms s))
  | .hbm => .next (stageHbm ok ms (addMs ms s))
  | .selftest => .next (stageSelftest ok (addMs ms s))
  | .entropy => if s.noise.state = .gathering then .next s else .next (atStage .normal (addMs ms s))
  | .normal => .next (stageNormal cores (addMs ms s))
  | .ready => .next s
  | .failed => .next s

/-- TRIAL_BOOT_TIMEOUT (R176): Stag applies a cold reset onto the previous bank; fallback is set, the pending mark cleared. -/
def execTrialBootTimeout (aux : Bool) (s : State) : Out :=
  if s.dev.powered ∧ s.mkh.trial = true ∧ s.dev.ready = false then
    let s := resetState false .stag aux { s with stag := { s.stag with pending := false } }
    .next { s with mkh := { s.mkh with fallback := true } }
  else .next s

/-! ### Power (R388, R397) -/

/-- A loss of input power gives no warning: sealed jobs end as R261 states; the bypass goes THROUGH (R262, R349). -/
def loseInput (s : State) : State :=
  let s := withdraw 2 false noSite (sealedRegions s) s
  modRing (fun r => { r with insert := false }) s

/-- The auxiliary supply is lost while the module runs: a loss of input power, then a cold reset by Stag (R388). -/
def loseAux (s : State) : State :=
  let s := stagApplies .stag false (loseInput s)
  { s with pwr := { s.pwr with auxLost := true } }

/-- INPUT_POWER_LOSS (R388): without any power nothing runs, and what is not in flash is gone. -/
def execInputPowerLoss (all : Bool) (s : State) : Out :=
  if !s.dev.powered then .next s
  else if all then
    let s := resetState false .powerCycle false (loseInput s)
    .next { s with dev := { s.dev with powered := false, stage := .power } }
  else .next (loseAux s)

/-- What Stag takes the auxiliary pins for (R397). -/
def auxSeen (millivolts : Nat) (sense0 sense1 : Bool) : Bool := decide (10800 ≤ millivolts) && sense0 && sense1

/-- AUX_PRESENT_CHANGE (R397); `sense0`, `sense1`: the sense pins are grounded. A loss while the module runs is R388's. -/
def execAuxPresentChange (millivolts : Nat) (sense0 sense1 : Bool) (s : State) : Out :=
  let now := auxSeen millivolts sense0 sense1
  if !s.dev.powered then .next s
  else if s.pwr.aux && !now then .next (loseAux s)
  else .next { s with pwr := { s.pwr with aux := now } }

/-! ### FLR of the PF (Table 10-4) -/

/-- A region is destroyed under Table 3-6. -/
def retire (n : Fin 8) (s : State) : State :=
  if s.rgn.rgn[n].state = .free then s
  else
    let s := if s.rgn.rgn[n].tearingDown || s.rgn.rgn[n].state == .forming then s else beginTeardown n s
    modRgn n (fun r => { r with byFlr := false, flrWaits := false, destroyWaits := false }) (freeRegion n s)

/-- Every queue, fence, event and lock is discarded. -/
def discardAll (s : State) : State :=
  { s with que := s.que.map Queue.discard, jobs := [],
           evt := { rgn := Vector.replicate 8 EvtRgn.reset, dlock := Vector.replicate 16 LockReg.reset } }

/-- The device-level errors that a PF FLR clears, and the device log (R326, Table 14-4, 10 Table 10-5). -/
def clearDevErrors (s : State) : State :=
  { s with err := { s.err with rimUe := false, lockstep := false, maintCp := false,
                               hbmUe := Vector.replicate 4 false, dev := ErrLog.reset },
           mem := { s.mem with stack := s.mem.stack.map fun x => { x with ue := false } } }

/-- PF_FLR (R233). Criward is reloaded from the active image and checked against its measurement slots, its cores restarted: those
whose component matches run (R169, R172). -/
def execPfFlr (s : State) : Out :=
  if !s.dev.ready then .next s else
  let s := discardAll (forEach (allFin 8) retire s)
  let s := clearDevErrors s
  let s := { s with haly := { s.haly with outEnable := false, out := s.haly.out.map (quietOut false) },
                    mem := { s.mem with owner := s.mem.owner.filter fun x => x.2 == 8 || (isCarve x.1 && x.2 == 15), win := [] },
                    pcie := { s.pcie with vfEnable := false },
                    dev := { s.dev with resetCause := .pfFlr } }
  let s := startCores (if partMatches s 1 then 0x3F else 0) s
  .next { s with mkh := { s.mkh with lockstepOk := partMatches s 0 }, sec := { s.sec with up := partMatches s 0 } }

end Sys2Proof.Machine
end

