-- ==== Sys2Proof/Machine/Governor.lean ====
section
/-!
DEFINITION. The governor and the gating, heat and cuts of tiles (16_power_energy_startup.md R379-R386; 11 R259-R262).
-/
namespace Sys2Proof.Machine

/-! ### Measured power (R379) -/

/-- Do the averages hold admission? -/
def avgHolds (m : PowerAvg) : Bool := decide (165000 < m.ms10) || decide (148000 < m.s1)

/-- What PWR_IN_1MS and PWR_IN_1S show. -/
def showPower (m : PowerAvg) (p : PwrState) : PwrState := { p with in1ms := m.ms1 % 2 ^ 18, in1s := m.s1 % 2 ^ 18 }

/-- POWER_LIMIT_EXCEEDED: admission is held; above 172 W for 100 µs, the ticking regions' duty is at most 8 for 64 ticks. -/
def execPowerLimitExceeded (m : PowerAvg) (s : State) : Out :=
  let s := { s with pwr := { showPower m s.pwr with admitHold := s.pwr.admitHold || avgHolds m } }
  if 172000 < m.us100 then
    .next (forEach ((allFin 8).filter fun n => s.tick.rgn[n].ticking)
      (fun n => modPwrRgn n fun p => { p with capUntil := some (s.tick.tn.toNat + 64) }) s)
  else .next s

/-- ADMIT_HOLD_CLEAR: the averages are back within their limits. -/
def execAdmitHoldClear (m : PowerAvg) (s : State) : Out :=
  .next { s with pwr := { showPower m s.pwr with admitHold := s.pwr.admitHold && avgHolds m } }

/-! ### Gate controls (R382, R259) -/

/-- The number of the Store tile at (x, y), in Rim order (18 Table 18-1). -/
def storeAt (x y : Nat) : Option Nat :=
  ([(0, 1), (0, 3), (0, 8), (0, 10), (15, 1), (15, 3), (15, 8), (15, 10)].findIdx? (· == (x, y)))

/-- Has a tile a gate control: every interior tile, every PE, every Store tile? -/
def gatable (x y : Nat) : Bool := (cutUnit x y).isSome || (storeAt x y).isSome

/-- Does region n own a frame of Store tile k? -/
def ownsStore (s : State) (n : Fin 8) (k : Nat) : Bool :=
  (List.range 4).any fun i => frameOwner s.mem (0x40000 + 4 * k + i) == n.val

/-- Does a tile belong to region n for R259: in its rectangle, a PE lent to it, a Store tile with a frame of its own? -/
def tileOf (s : State) (n : Fin 8) (x y : Nat) : Bool :=
  cutAffects s n x y || match storeAt x y with
    | some k => ownsStore s n k
    | none => false

/-- Is a tile's gate control the secure world's (R259)? -/
def gateSealed (s : State) (x y : Nat) : Bool :=
  (allFin 8).any fun n => (ctxSealed s (ctxOf n) || s.sec.rgn[n].gated) && tileOf s n x y

/-- Has a unit a descriptor queued or executing, is it reserved, or does a running job's engine set hold it (R382)? -/
def unitBusy (s : State) (e : Eng) : Bool :=
  !(queueOf s e).isEmpty || !(runningOn s e).isEmpty
    || (match e with | .ibex i => s.ibex[i].fieldRsv.isSome | _ => false)
    || s.jobs.any fun j => j.started && j.engines.contains e

def tileBusy (s : State) (x y : Nat) : Bool :=
  match cutUnit x y with
  | some e => unitBusy s e
  | none => false

/-- The tile that PWR_TILE_SEL selects. -/
def selX (s : State) : Nat := s.pwr.tileSel % 16
def selY (s : State) : Nat := s.pwr.tileSel / 16

def gateCode (c : Nat) (s : State) : State := { s with pwr := { s.pwr with lastCode := c } }

/-- A write of gate to a tile whose control takes it. -/
def setGate (x y : Nat) (off : Bool) (s : State) : State :=
  if off && tileBusy s x y then gateCode 2 s
  else gateCode 0 (modTile (tileIdx x y) (fun t => { t with off := off }) s)

/-- A normal-world write that R259 denies. -/
def denyGate (x y : Nat) (s : State) : State :=
  gateCode 1 { s with sec := { s.sec with gateX := x, gateY := y, denied := satInc 16 s.sec.denied } }

/-- GATE_WRITE (R382, R259): by the PF, or by the secure world where the control is its own. -/
def execGateWrite (secure : Bool) (v : W32) (s : State) : Out :=
  let x := selX s
  let y := selY s
  let off := bit v.toNat 0
  if secure then
    if s.mkh.lockstepOk && gateSealed s x y then .next (setGate x y off s) else .next s
  else if !viewOk s .pf then .next s
  else if !gatable x y then .next (gateCode 3 s)
  else if gateSealed s x y then .next (denyGate x y s)
  else .next (setGate x y off s)

/-! ### Heat (R383) -/

/-- u_t after a tick with TN mod 64 = 0; a cut tile's is left. -/
def nextDuty (tj : Int) (t : TilePwr) : TilePwr :=
  if t.cut then { t with tj := tj }
  else { t with tj := tj, duty := if 1600 ≤ tj then t.duty - 1 else if tj < 1552 then min 16 (t.duty + 1) else t.duty }

/-- DUTY_UPDATE: the Hoist reads every tile's junction temperature; one that is not given is as it was. -/
def execDutyUpdate (tj : List (Nat × Int)) (s : State) : Out :=
  if s.tick.running && s.tick.tn.toNat % 64 == 0 then
    let step (i : Fin 192) : TilePwr :=
      let t := s.pwr.tile[i]
      nextDuty (match tj.find? (fun p => p.1 == i.val) with | some p => p.2 | none => t.tj) t
    .next { s with pwr := { s.pwr with tile := Vector.ofFn step } }
  else .next s

/-! ### Trips and cuts (R386, R261, R262) -/

/-- A job of an OPEN region whose engine set includes a tripped tile is stopped and killed without drain (R386). -/
def tripJob (e : Eng) (k : JobRef) (s : State) : State :=
  let s := jobError k .descriptor (engSite e 0xF0) s
  match findJob s k with
  | none => s
  | some j => if j.phase = .stopped then attemptEnds k (killJob k false s) else s

/-- The started jobs of OPEN regions that a unit's loss ends. -/
def jobsOn (s : State) (e : Eng) : List Job :=
  s.jobs.filter fun j => j.started && j.engines.contains e && !ctxSealed s (ctxOf j.ref.r)

/-- The SEALED regions that a cut at (x, y) affects. -/
def affectedBy (s : State) (x y : Nat) : List (Fin 8) := (sealedRegions s).filter fun n => tileOf s n x y

/-- THERMAL_TRIP (R386): a warned cut of an interior tile or PE; another edge tile's trip is a warned cold reset by Stag. -/
def execThermalTrip (x y : Nat) (tj : Int) (s : State) : Out :=
  if !onDie x y || !s.dev.powered || s.pwr.tile[tileIdx x y].cut || decide (tj < 1760) then .next s else
  let s := { s with pwr := { s.pwr with trips := satInc 16 s.pwr.trips } }
  match cutUnit x y with
  | none => .next (stagApplies .stagThermal s.pwr.aux (warnAll s))
  | some e =>
    let hit := jobsOn s e
    let s := withdraw 1 true (engSite e 0xF0) (affectedBy s x y)
      (if (affectedBy s x y).isEmpty then s else scrubUnit e s)
    let s := forEach hit (fun j => tripJob e j.ref) s
    .next (settleAll (modTile (tileIdx x y) (fun t => { t with cut := true, tj := tj }) s))

/-- A cut tile is powered again: it is scrubbed, and reloaded under R168 where it belongs to a region. -/
def powerUnit (e : Eng) (s : State) : State :=
  let s := clearUnit e (scrubUnit e s)
  if (engRegion s e).isSome then reloadUnit e s else s

/-- TILE_COOLED (R386): below 95.0 °C a tripped tile returns with u_t = 8. -/
def execTileCooled (x y : Nat) (tj : Int) (s : State) : Out :=
  let t := s.pwr.tile[tileIdx x y]
  if onDie x y && t.cut && !t.scrubDue && decide (tj < 1520) then
    let s := match cutUnit x y with
      | some e => powerUnit e s
      | none => s
    .next (modTile (tileIdx x y) (fun t => { t with cut := false, duty := 8, tj := tj }) s)
  else .next s

/-- RAIL_FAULT (R260, R262): the tile is cut at once, and the jobs of the SEALED regions that have it end as R261 states. -/
def execRailFault (x y : Nat) (s : State) : Out :=
  if onDie x y && s.dev.powered then
    let s := modTile (tileIdx x y) (fun t => { t with cut := true, scrubDue := true }) s
    .next (settleAll (withdraw 2 false { x := x, y := y, engine := 15, detail := 0 } (affectedBy s x y) s))
  else .next s

/-- The frames of Store tile k read as scrubbed. -/
def scrubStore (k : Nat) (s : State) : State :=
  forEach (List.range 4) (fun i => modMem fun m => dropFrame (0x40000 + 4 * k + i) m) s

/-- TILE_POWER_RETURN (R262): the tile is scrubbed before it serves any access. -/
def execTilePowerReturn (x y : Nat) (s : State) : Out :=
  let t := s.pwr.tile[tileIdx x y]
  if onDie x y && t.cut && t.scrubDue then
    let s := match cutUnit x y, storeAt x y with
      | some e, _ => powerUnit e s
      | none, some k => scrubStore k s
      | none, none => s
    .next (modTile (tileIdx x y) (fun t => { t with cut := false, scrubDue := false }) s)
  else .next s

end Sys2Proof.Machine
end

