-- ==== Sys2Proof/Machine/Line.lean ====
section
/-!
DEFINITION. The line code of the Guidon ring (15_guidon_ring.md R351, R352): lane symbols, the Reed-Solomon codewords over
GF(2^8), the scrambler, the tick frame of a marker and 195 flit slots.
-/
namespace Sys2Proof.Machine

/-! ### Lane symbols (R351) -/

/-- The symbol that a byte puts on each of the four lanes: lane L carries bits [7 − 2L : 6 − 2L]. -/
def laneSymbols (b : Byte) : List (BitVec 2) := (List.range 4).map fun l => BitVec.ofNat 2 (b.toNat >>> (6 - 2 * l))
/-- The byte that four lane symbols carry. -/
def laneByte (l : List (BitVec 2)) : Byte := BitVec.ofNat 8 (l.foldl (fun n x => 4 * n + x.toNat) 0)
/-- Symbols of one lane in a tick. -/
def tickSymbols : Nat := 53125

/-! ### GF(2^8) and the code (R351) -/

/-- α times an element, modulo x^8 + x^4 + x^3 + x^2 + 1. -/
def rsDouble (a : Nat) : Nat := if a < 128 then 2 * a else (2 * a) ^^^ 0x11D
/-- Reduce a polynomial of degree below 8 + k. -/
def rsReduce : Nat → Nat → Nat
  | 0, n => n
  | k + 1, n => rsReduce k (if bit n (8 + k) then n ^^^ (0x11D * 2 ^ k) else n)
/-- A product: the bits of b choose multiples of a. -/
def rsMul (a b : Nat) : Nat := rsReduce 7 ((List.range 8).foldl (fun n i => if bit b i then n ^^^ (a * 2 ^ i) else n) 0)
/-- α to a power. -/
def rsAlpha : Nat → Nat
  | 0 => 1
  | k + 1 => rsDouble (rsAlpha k)
/-- The inverse of a nonzero element: its 254th power. -/
def rsInv (a : Nat) : Nat := (List.range 254).foldl (fun n _ => rsMul n a) 1

/-- The value of a word, its first byte of the highest degree, at α^j. -/
def syndrome (w : List Nat) (j : Nat) : Nat := w.foldl (fun n b => (List.range j).foldl (fun n _ => rsDouble n) n ^^^ b) 0
def syndromes (w : List Nat) : List Nat := (List.range 5).map (syndrome w)

/-- The coefficients of the generator Π (x − α^j), j = 0 to 4, below x^5, the highest first. -/
def rsGen : List Nat :=
  ((List.range 5).foldl (fun g j =>
    (g ++ [0]).zipWith (· ^^^ ·) (0 :: g.map fun c => rsMul c (rsAlpha j))) [1]).drop 1

/-- The five parity bytes of 80 data bytes: the remainder of the data times x^5. -/
def rsParity (data : List Byte) : List Byte :=
  (data.foldl (fun r b =>
    let c := r.headD 0 ^^^ b.toNat
    (r.drop 1 ++ [0]).zipWith (· ^^^ ·) (rsGen.map (rsMul c))) [0, 0, 0, 0, 0]).map (BitVec.ofNat 8)

/-- A codeword: 80 data bytes and their parity. -/
def codeword (data : List Byte) : List Byte := data ++ rsParity data

/-- The syndromes of an error of value v at place i of a codeword. -/
def errorAt (i v : Nat) : List Nat := (List.range 5).map fun j => rsMul v (rsAlpha ((84 - i) * j % 255))

/-- The one error, as (place, value), that has these syndromes. -/
def oneError (s : List Nat) : Option (Nat × Nat) :=
  ((List.range 85).map fun i => (i, s.headD 0)).find? fun e => e.2 != 0 && errorAt e.1 e.2 == s

/-- The two errors that have these syndromes: of the places i < k, the values that meet the first two. -/
def twoErrors (s : List Nat) : Option ((Nat × Nat) × (Nat × Nat)) :=
  let s0 := s.headD 0
  let s1 := (s.drop 1).headD 0
  (List.range 85).findSome? fun i => (List.range i).findSome? fun k =>
    let xi := rsAlpha (84 - i)
    let xk := rsAlpha (84 - k)
    let v := rsMul (s1 ^^^ rsMul s0 xk) (rsInv (xi ^^^ xk))
    let u := s0 ^^^ v
    if v != 0 && u != 0 && (errorAt i v).zipWith (· ^^^ ·) (errorAt k u) == s then some ((i, v), (k, u)) else none

def flipAt (e : Nat × Nat) (w : List Byte) : List Byte := w.modify e.1 (· ^^^ BitVec.ofNat 8 e.2)

/-- A received codeword with up to two byte errors corrected, and whether it had any; none where it cannot be corrected. -/
def rsCorrect (w : List Byte) : Option (List Byte × Bool) :=
  if w.length ≠ 85 then none else
  let s := syndromes (w.map BitVec.toNat)
  if s.all (· == 0) then some (w, false)
  else match oneError s with
    | some e => some (flipAt e w, true)
    | none => match twoErrors s with
      | some (e, f) => some (flipAt e (flipAt f w), true)
      | none => none

/-! ### The scrambler (R351) -/

/-- One bit of the scrambler x^58 + x^39 + 1: the new bit, and the register behind it. -/
def scrambleBit (r : Nat) : Nat × Nat :=
  let b := (r / 2 ^ 57 ^^^ r / 2 ^ 38) % 2
  (b, (2 * r + b) % 2 ^ 58)
/-- One byte, the first bit the most significant one. -/
def scrambleByte (r : Nat) : Nat × Nat :=
  (List.range 8).foldl (fun x _ => let y := scrambleBit x.2; (2 * x.1 + y.1, y.2)) (0, r)
/-- The next n bytes. -/
def scrambleBytes : Nat → Nat → List Byte
  | 0, _ => []
  | n + 1, r => let x := scrambleByte r; BitVec.ofNat 8 x.1 :: scrambleBytes n x.2

/-- Scramble, or descramble, data that begins `start` bytes into a tick's data: the register is all ones at the first data byte of the
tick and runs on over every data byte, those of the marker's sync too (DESIGN CHOICE, log entry 108). -/
def scramble (start : Nat) (data : List Byte) : List Byte :=
  data.zipWith (· ^^^ ·) ((scrambleBytes (start + data.length) (2 ^ 58 - 1)).drop start)

/-! ### The tick frame (R352) -/

/-- The sync of a marker: ASCII GUIDONTK. -/
def lineSync : List Byte := [0x47, 0x55, 0x49, 0x44, 0x4F, 0x4E, 0x54, 0x4B]

/-- The 625 codewords of a tick of one port direction: the marker, which is not scrambled in its sync, and 195 flits. -/
def tickCodewords (marker : List Byte) (flits : List (List Byte)) : List (List Byte) :=
  let data := marker ++ flits.flatten
  (pieces 80 625 (data.take 8 ++ scramble 8 (data.drop 8))).map codeword

/-- The codewords, from codeword 1 on, that carry a flit slot: the first, and how many. -/
def flitFirst (slot : Nat) : Nat := 256 * slot / 80
def flitWords (slot : Nat) : Nat := (256 * slot + 255) / 80 - flitFirst slot + 1

/-- The flit of a slot from the codewords that carry it; none where one of them is not correctable. -/
def readFlit (slot : Nat) (words : List (List Byte)) : Option (List Byte) := do
  if words.length ≠ flitWords slot then none
  else
    let good ← words.mapM rsCorrect
    some (scramble (80 + 256 * slot) (slice (good.flatMap fun w => w.1.take 80) (256 * slot % 80) 256))

/-- How many of a flit's codewords have been corrected; one that spans two flits counts with the flit that it ends in. -/
def fixedWords (slot : Nat) (words : List (List Byte)) : Nat :=
  (words.zipIdx.filter fun w => decide (80 * (flitFirst slot + w.2 + 1) ≤ 256 * (slot + 1)) &&
    match rsCorrect w.1 with
    | some c => c.2
    | none => false).length

/-! ### The marker (Table 15-1) -/

/-- The fields of a tick marker. -/
structure Marker where
  tn : Nat
  ringId : W32
  pos : Nat
  state : Nat
  lead : Bool
  line : Bool
  hops : Nat
  ack : Nat
  nak : Bool
  echoTn : Nat
  echoHold : Nat
  serial : List Byte
  present : BitVec 16
deriving DecidableEq, Repr

/-- The 80 data bytes of a marker. -/
def Marker.bytes (m : Marker) : List Byte :=
  lineSync ++ leBytes 8 m.tn ++ leBytes 4 m.ringId.toNat ++ leBytes 1 (m.pos + 16 * m.state + 64 * b2n m.lead + 128 * b2n m.line)
    ++ leBytes 1 m.hops ++ leBytes 2 (m.ack + 4096 * b2n m.nak) ++ leBytes 2 m.echoTn ++ leBytes 2 m.echoHold ++ m.serial
    ++ leBytes 2 m.present.toNat ++ List.replicate 34 0

/-- The fields of a marker's 80 data bytes. -/
def Marker.ofBytes (b : List Byte) : Marker :=
  { tn := fieldAt b 8 8, ringId := BitVec.ofNat 32 (fieldAt b 16 4), pos := bits (fieldAt b 20 1) 3 0, state := bits (fieldAt b 20 1) 5 4,
    lead := bit (fieldAt b 20 1) 6, line := bit (fieldAt b 20 1) 7, hops := fieldAt b 21 1, ack := bits (fieldAt b 22 2) 11 0,
    nak := bit (fieldAt b 22 2) 12, echoTn := fieldAt b 24 2, echoHold := fieldAt b 26 2, serial := slice b 28 16,
    present := BitVec.ofNat 16 (fieldAt b 44 2) }

/-- The marker that codeword 0 of a tick carries, if it is correctable and begins with the sync, and whether it was corrected. -/
def readMarker (word : List Byte) : Option (Marker × Bool) :=
  match rsCorrect word with
  | some w =>
    let b := w.1.take 8 ++ scramble 8 (slice w.1 8 72)
    if b.take 8 = lineSync then some (.ofBytes b, w.2) else none
  | none => none

end Sys2Proof.Machine
end

