-- ==== Sys2Proof/Machine/Pennant.lean ====
section
/-!
DEFINITION. Pennant's registers and its reference (02_pennant_tick.md R30-R33, 18_register_index.md R414): tick sources,
the lock state, the trim, and the reads with side effects.
-/
namespace Sys2Proof.Machine

/-- The phase bound of Table 2-2 in 1/16 CCLK: 20 ns or 50 ns of 0.625 ns CCLK. -/
def phaseBound : TickSource → Nat
  | .internal => 0
  | .halyard => 512
  | .ring => 1280

/-- Enter ACQUIRING by a write, or by the ring's choice of a reference: the three runs of Table 2-3 begin afresh, the run of
misses too (DESIGN CHOICE, log entry 88: R31 does not say what becomes of them). -/
def acquire (t : TickState) : TickState :=
  { t with lock := .acquiring, runWithin := 0, runBeyond := 0, runMissed := 0, refDone := none }

/-- A reference arrives with a phase error: the runs of R31 and the moves of Table 2-3. -/
def refArrives (phase : Int) (t : TickState) : TickState :=
  let within := decide (phase.natAbs ≤ phaseBound t.source)
  let w := if within then t.runWithin + 1 else 0
  let b := if within then 0 else t.runBeyond + 1
  let lock := match t.lock with
    | .acquiring => if 64 ≤ w then .locked else .acquiring
    | .locked => if 4 ≤ b then .acquiring else .locked
    | .holdover => .acquiring
    | .freeRun => .freeRun
  { t with phaseErr := satInt 16 phase, runWithin := w, runBeyond := b, runMissed := 0, lock := lock }

/-- A window closes without a reference (R31). -/
def refMissed (t : TickState) : TickState :=
  let m := t.runMissed + 1
  let lock := if 4 ≤ m ∧ (t.lock = .acquiring ∨ t.lock = .locked) then .holdover else t.lock
  { t with runWithin := 0, runBeyond := 0, runMissed := m, lock := lock }

/-- The trim after one tick boundary (R24, R32): toward 0 in FREE_RUN, held in HOLDOVER, else a step the spec bounds and
leaves free (log entry 6); unit 0.01 ppm. -/
def trimNext (step : Int) (t : TickState) : Int :=
  match t.lock with
  | .freeRun => if t.trim ≤ -5 then t.trim + 5 else if 5 ≤ t.trim then t.trim - 5 else 0
  | .holdover => t.trim
  | .acquiring => max (-10000) (min 10000 (t.trim + max (-5) (min 5 step)))
  | .locked => max (-10000) (min 10000 (t.trim + max (-5) (min 5 step)))

/-- The source a field names; the reserved encoding 3 keeps the old one (R11). -/
def sourceOf (code : Nat) (old : TickSource) : TickSource :=
  match code with
  | 0 => .internal
  | 1 => .halyard
  | 2 => .ring
  | _ => old

/-- TICK_CTRL after a write: only a change of source, or of the input while source is HALYARD, moves the lock state
(R31). -/
def setTickCtrl (v : Nat) (t : TickState) : TickState :=
  let src := sourceOf (bits v 1 0) t.source
  let sel := bits v 3 2
  let edge := bit v 4
  let t' := { t with source := src, inSel := sel, inEdge := edge }
  if src ≠ t.source then
    match src with
    | .internal => { acquire t' with lock := .freeRun }
    | .halyard => acquire t'
    | .ring => acquire t'
  else if src = .halyard ∧ (sel ≠ t.inSel ∨ edge ≠ t.inEdge) then acquire t'
  else t'

/-- TICK_IN_CFG after a write: a phase of P or more is a reserved encoding (Table 2-7). -/
def setTickInCfg (v : Nat) (t : TickState) : TickState :=
  let d := bits v 15 0
  let p := if bits v 31 16 < d + 1 then bits v 31 16 else t.inPhase
  let t' := { t with inDiv := d, inPhase := p }
  if t.source = .halyard ∧ (d ≠ t.inDiv ∨ p ≠ t.inPhase) then acquire t' else t'

/-- TICK_IN_OFS after a write: values outside -3,200 to 3,199 are reserved (Table 2-8). -/
def setTickInOfs (v : Nat) (t : TickState) : TickState :=
  let x := toSigned 16 v
  let o := if -3200 ≤ x ∧ x ≤ 3199 then x else t.inOfs
  let t' := { t with inOfs := o }
  if t.source = .halyard ∧ o ≠ t.inOfs then acquire t' else t'

def modTick (f : TickState → TickState) (s : State) : State := { s with tick := f s.tick }

/-! ### Reference events (R31) -/

/-- The tick that an event's operand names. -/
def refTick (t : TickState) (d : Int) : Int := (t.tn.toNat : Int) + d

/-- Is tick T a reference tick of HALYARD whose window has closed by the end of the present tick, and later than the one
evaluated last? -/
def refDue (t : TickState) (d : Int) : Bool :=
  let k := refTick t d
  decide (0 ≤ k) && decide (k % ((t.inDiv : Int) + 1) = t.inPhase) &&
    decide (d * Config.tickCclk + t.inOfs + 1599 < Config.tickCclk) &&
    match t.refDone with
    | none => true
    | some l => decide (l < k)

/-- The selected edges inside the window: from 1,600 CCLK before the expected instant to 1,599 CCLK after it. -/
def refEdges (t : TickState) (l : List RefEdge) : List RefEdge :=
  l.filter fun e => e.input.val == t.inSel && e.rising != t.inEdge &&
    decide (t.inOfs - 1600 ≤ e.at16 / 16) && decide (e.at16 / 16 ≤ t.inOfs + 1599)

/-- The one of two edges that lies nearer the expected instant; of two equally near, the earlier. -/
def nearerEdge (t : TickState) (a b : RefEdge) : RefEdge :=
  let da := (a.at16 - 16 * t.inOfs).natAbs
  let db := (b.at16 - 16 * t.inOfs).natAbs
  if db < da ∨ (db = da ∧ b.at16 < a.at16) then b else a

/-- The event's reference edge. -/
def refEdge (t : TickState) (l : List RefEdge) : Option RefEdge :=
  match refEdges t l with
  | [] => none
  | e :: es => some (es.foldl (nearerEdge t) e)

/-- The phase error of an edge: the time from the edge to the expected instant, in 1/16 CCLK. -/
def refPhase (t : TickState) (e : RefEdge) : Int := 16 * t.inOfs - e.at16

/-- Is a marker's event of the present tick still to be evaluated? -/
def markerDue (t : TickState) : Bool := t.refDone != some (t.tn.toNat : Int)

/-- A reference event of the tick source in force (R31). -/
def execReferenceEvent (e : RefEvent) (s : State) : Out :=
  let t := s.tick
  if t.running = false then .next s else
  match t.source, e with
  | .halyard, .edges d l =>
    (match refEdge t l with
      | some x =>
        if refDue t d then .next (modTick (fun t => { refArrives (refPhase t x) t with refDone := some (refTick t d) }) s)
        else .next s
      | none => .next s)
  | .ring, .marker phase =>
    if markerDue t then .next (modTick (fun t => { refArrives phase t with refDone := some (t.tn.toNat : Int) }) s) else .next s
  | _, _ => .next s

/-- A missed reference event (R31): the window of a reference tick, or a tick of the ring source, without its reference. -/
def execMissedReferenceEvent (d : Int) (s : State) : Out :=
  let t := s.tick
  if t.running = false then .next s else
  match t.source with
  | .halyard => if refDue t d then .next (modTick (fun t => { refMissed t with refDone := some (refTick t d) }) s) else .next s
  | .ring => if markerDue t then .next (modTick (fun t => { refMissed t with refDone := some (t.tn.toNat : Int) }) s) else .next s
  | .internal => .next s

/-- A PF write of TICK_CTRL (R31, R33). -/
def execTickCtrlWrite (v : W32) (s : State) : Out :=
  if viewOk s .pf then .next (modTick (setTickCtrl v.toNat) s) else .next s

/-- A PF write of TICK_IN_CFG or TICK_IN_OFS (R31). -/
def execTickInWrite (ofs : Bool) (v : W32) (s : State) : Out :=
  if viewOk s .pf then
    .next (modTick (if ofs then setTickInOfs v.toNat else setTickInCfg v.toNat) s)
  else .next s

/-- A read of TICK_TN_LO latches TN[63:32] in its view (R414); a 64-bit read returns one TN. -/
def execTnLatchRead (w : View) (wide : Bool) (s : State) : Out :=
  if viewOk s w then
    let tn := s.tick.tn.toNat
    let s := modTick (fun t => { t with latch := t.latch.set (viewIdx w) (BitVec.ofNat 32 (bits tn 63 32)) }) s
    .next (putBar (if wide then tn else tn % 2 ^ 32) s)
  else .next (missRead w s)

/-- Does a view show region r's own registers: the PF any region's, a VF its own? -/
def showsRegion (w : View) (r : Fin 8) : Bool :=
  match viewRegion w with
  | none => true
  | some n => n == r

/-- A read of TICK_RGN_SLACK clears max_done_slot (R30, R414). -/
def execSlackRead (w : View) (r : Fin 8) (s : State) : Out :=
  if viewOk s w && showsRegion w r then
    let x := s.tick.rgn[r]
    .next (putBar (x.lastDoneSlot + x.maxDoneSlot * 2 ^ 8) (modTickRgn r (fun x => { x with maxDoneSlot := 0 }) s))
  else .next (missRead w s)

end Sys2Proof.Machine
end

