-- ==== Sys2Proof/Machine/Ring.lean ====
section
/-!
DEFINITION. The Guidon ring (15_guidon_ring.md): joining and leaving, markers, flits with their retry, line mode and the
loss of a lead, streams and their blocks, the delivery of blocks at their cutoff.
-/
namespace Sys2Proof.Machine

/-! ### Flits (R353, Table 15-2) -/

/-- A flit's fields that its producer sets; seq, ack and crc are put in when it is sent. -/
def flitHeader (shut : Bool) (keyIndex : Nat) (last : Bool) (stream src dst bid index len : Nat) : List Byte :=
  leBytes 1 1 ++ leBytes 1 (b2n shut + 2 * (keyIndex % 4) + 8 * b2n last) ++ leBytes 1 stream ++ leBytes 1 (src + 16 * dst)
    ++ [0, 0, 0, 0] ++ leBytes 1 bid ++ leBytes 1 index ++ leBytes 2 len ++ [0, 0, 0, 0]

def flitType (f : List Byte) : Nat := fieldAt f 0 1
def flitSealed (f : List Byte) : Bool := bit (fieldAt f 1 1) 0
def flitKeyIndex (f : List Byte) : Nat := bits (fieldAt f 1 1) 2 1
def flitLast (f : List Byte) : Bool := bit (fieldAt f 1 1) 3
def flitStream (f : List Byte) : Nat := fieldAt f 2 1
def flitSrc (f : List Byte) : Nat := bits (fieldAt f 3 1) 3 0
def flitDst (f : List Byte) : Nat := bits (fieldAt f 3 1) 7 4
def flitSeq (f : List Byte) : BitVec 12 := BitVec.ofNat 12 (fieldAt f 4 2)
def flitAck (f : List Byte) : BitVec 12 := BitVec.ofNat 12 (fieldAt f 6 2)
def flitNak (f : List Byte) : Bool := bit (fieldAt f 6 2) 12
def flitBid (f : List Byte) : Nat := fieldAt f 8 1
def flitIndex (f : List Byte) : Nat := fieldAt f 9 1
def flitLen (f : List Byte) : Nat := fieldAt f 10 2
def flitCrc (f : List Byte) : W32 := crc32c (slice f 0 12 ++ slice f 16 240)

/-- A flit as it leaves: with its sequence number, the port's ack and nak, and its CRC. -/
def finishFlit (seq ack : BitVec 12) (nak : Bool) (f : List Byte) : List Byte :=
  let f := splice (splice f 4 (leBytes 2 seq.toNat)) 6 (leBytes 2 (ack.toNat + 4096 * b2n nak))
  splice f 12 (leBytes 4 (flitCrc f).toNat)

/-- The AAD of a sealed flit (R364). -/
def flitAad (f : List Byte) : List Byte := slice f 0 4 ++ slice f 8 4
/-- The 96-bit nonce of a sealed flit, most significant byte first (R364). -/
def flitNonce (f : List Byte) (count : Nat) : List Byte :=
  beBytes 12 (flitStream f * 2 ^ 88 + flitSrc f * 2 ^ 84 + flitKeyIndex f * 2 ^ 82 + count % 2 ^ 64)

/-! ### Paths (R368, R372) -/

/-- The other port. -/
def otherPort (p : Fin 2) : Fin 2 := if p = 0 then 1 else 0
def portUp (s : State) (p : Fin 2) : Bool := s.ring.port[p].link == .up

/-- The ring position of a port's tile on the Rim: Ring Up (15, 5), Ring Down (15, 6). -/
def portTile (p : Fin 2) : Fin 24 := if p = 0 then 18 else 17

/-- Does region n own a unit on a segment direction that leads to a port's tile (R372)? -/
def ownsWay (s : State) (n : Fin 8) (p : Fin 2) : Bool :=
  let t := (portTile p).val
  [2 * (t - 1), 2 * t + 1].any fun d => s.rim.owner[Fin.ofNat 48 d].toList.contains (some (ctxOf n))

/-- The port by which a flit for position `dst` leaves, if a path reaches it: the port asked for, or in line mode the other
one where that port is not UP (DEDUCED, log entry 41). -/
def routeFrom (s : State) (want : Fin 2) (dst : Nat) : Option (Fin 2) :=
  if s.ring.state != .joined || !s.ring.present.getLsbD dst then none
  else if portUp s want then some want
  else if s.ring.line && portUp s (otherPort want) then some (otherPort want)
  else none

def countUnreachable (s : State) : State := modRing (fun r => { r with unreachable := satInc 16 r.unreachable }) s

/-! ### Sending (R354, R367) -/

/-- The region whose registered stream a flit carries. -/
def streamRegion (s : State) (f : List Byte) : Option (Fin 8) :=
  (allFin 8).find? fun n => s.ring.rgn[n].stream != 0 && s.ring.rgn[n].stream == flitStream f

/-- The waiting flits that a port may send for the first time in `room` slots of one tick, in their order (R367): forwarded ones, each
region's own within its reservation, CONTROL flits, which come first in slots 192 to 194. -/
def sendable (s : State) (p : Fin 2) (room : Nat) : List OutFlit :=
  let x := s.ring.port[p]
  let own := (allFin 8).flatMap fun n =>
    let rsv := if p = 0 then s.ring.rgn[n].rsvUp else s.ring.rgn[n].rsvDown
    (x.tx.filter fun o => !o.fwd && flitType o.bytes == 1 && streamRegion s o.bytes == some n).take rsv
  let data := (x.tx.filter OutFlit.fwd) ++ own
  let control := x.tx.filter fun o => !o.fwd && flitType o.bytes == 2
  ((data.take (room - 3) ++ control ++ data.drop (room - 3)).take room).take (512 - x.retry.length)

/-- Give flits their sequence numbers, send them, and put them into the retry buffer. -/
def sendFlits (os : List OutFlit) (x : RingPort) : RingPort :=
  os.foldl (fun x o =>
    let f := finishFlit x.txSeq x.rxSeq false o.bytes
    { x with tx := x.tx.erase o, txSeq := x.txSeq + 1, retry := x.retry ++ [{ o with bytes := f }], sent := x.sent ++ [f] }) x

/-- The unacknowledged flits that are due leave again, in order and ahead of any new one, 195 in a tick (R352, R354). -/
def resendFlits (x : RingPort) : RingPort :=
  match x.again with
  | none => { x with sent := [] }
  | some i =>
    { x with again := if i + 195 < x.retry.length then some (i + 195) else none,
             sent := ((x.retry.drop i).take 195).map fun o => finishFlit (flitSeq o.bytes) x.rxSeq false o.bytes }

/-- The marker that opens a tick on a port (Table 15-1); a nak goes out in it (R354). -/
def markerOf (s : State) (x : RingPort) : Marker :=
  let r := s.ring
  { tn := s.tick.tn.toNat, ringId := if r.state = .joining ∨ r.state = .joined then r.id else 0, pos := r.position,
    state := ringStCode r.state, lead := r.lead, line := r.line, hops := r.hops, ack := x.rxSeq.toNat, nak := x.nak,
    echoTn := x.lastMarker, echoHold := x.hold, serial := serialBytes, present := r.present }

/-- The last marker's arrival, at the start of the tick that follows. -/
def holdMarker (x : RingPort) : RingPort :=
  { x with lastCclk := none, hold := min 65535 (match x.lastCclk with
      | some c => Config.tickCclk - c
      | none => x.hold + Config.tickCclk) }

/-- What a port sends in the tick that begins (R352, R367), and the ticks it has waited for a marker and for an ack. -/
def portTick (s : State) (p : Fin 2) (x : RingPort) : RingPort :=
  let missed := x.link != .dark && !x.seen
  let x := holdMarker { x with
    missed := if missed then x.missed + 1 else 0, good := if missed then 0 else x.good, seen := false,
    ackTicks := if x.retry.isEmpty then 0 else x.ackTicks + 1, marker := [], sent := [] }
  if x.link = .dark then x else
  let x := { x with marker := (markerOf s x).bytes, nak := false }
  if x.link = .up then
    let x := resendFlits x
    sendFlits (sendable s p (195 - x.sent.length)) x
  else x

/-- An IDLE flit. -/
def idleFlit (x : RingPort) : List Byte := finishFlit 0 x.rxSeq false (List.replicate 256 0)

/-- The codewords of a port's present tick as they leave (R351, R352): its marker, its flits, IDLE flits in the slots left. -/
def portCodewords (x : RingPort) : List (List Byte) :=
  tickCodewords x.marker (x.sent ++ List.replicate (195 - x.sent.length) (idleFlit x))

/-- A tick of a stream key in use. -/
def keyTick (x : RingRgn) : RingRgn := { x with staleTick := false, keyTicks := if x.key.isSome then x.keyTicks + 1 else 0 }

/-- The ring at a tick boundary: markers that did not come, line mode (R372), the tick's marker and flits. -/
def ringTick (s : State) : State :=
  let line := s.ring.state == .joined &&
    s.ring.port.toList.any fun x => x.link == .down || (x.link == .up && x.peerLine)
  let s := modRing (fun r => { r with line := line, rgn := r.rgn.map keyTick }) s
  modRing (fun r => { r with port := Vector.ofFn fun p => portTick s p r.port[p] }) s

/-- A round of resending falls due (R354). -/
def resendDue (x : RingPort) : RingPort :=
  { x with retries := satInc 16 x.retries, resent := x.resent + 1, again := some 0, ackTicks := 0 }

/-- Acknowledge the flits before `ack`; nak resends what is left (R354). -/
def takeAck (ack : BitVec 12) (nak : Bool) (x : RingPort) : RingPort :=
  let k := (ack - x.txAck).toNat
  let x := if 1 ≤ k ∧ k ≤ x.retry.length then
      { x with retry := x.retry.drop k, txAck := ack, resent := 0, ackTicks := 0,
               again := (x.again.map (· - k)).filter fun i => decide (i + k < x.retry.length) } else x
  if nak && !x.retry.isEmpty then resendDue x else x

/-- RETRY_TIMEOUT (R354). -/
def execRetryTimeout (p : Fin 2) (s : State) : Out :=
  let x := s.ring.port[p]
  if x.link = .up ∧ x.retry ≠ [] ∧ 2 ≤ x.ackTicks then .next (modPort p resendDue s) else .next s

/-! ### The reference, the lead and the ring's members (R357, R358) -/

/-- This module's bit among the present positions. -/
def ownBit (r : RingState) : BitVec 16 := (1 : BitVec 16) <<< r.position

/-- The reference port of a member that is not lead, and its hops: the UP port whose peer has fewer hops, on a tie Up. -/
def reference (r : RingState) : RingState :=
  let hops (p : Fin 2) : Nat := if r.port[p].link = .up then r.port[p].peerHops else 255
  if r.lead then { r with refPort := 0, hops := 0 }
  else if hops 0 = 255 ∧ hops 1 = 255 then { r with refPort := 0, hops := 255 }
  else if hops 0 ≤ hops 1 then { r with refPort := 1, hops := min 255 (hops 0 + 1) }
  else { r with refPort := 2, hops := min 255 (hops 1 + 1) }

/-- Is no present position below this module's? -/
def lowest (r : RingState) : Bool := (List.range r.position).all fun i => !r.present.getLsbD i

/-- The lead is gone: the lowest present position becomes lead, in HOLDOVER if its source is the ring (R358). -/
def electLead (s : State) : State :=
  let r := s.ring
  if r.state == .joined && !r.lead && r.hops == 255 && lowest r then
    let s := modRing (fun r => { r with lead := true, hops := 0, refPort := 0 }) s
    if s.tick.source = .ring ∧ (s.tick.lock = .acquiring ∨ s.tick.lock = .locked) then
      { s with tick := { s.tick with lock := .holdover } } else s
  else s

/-- A lead that meets one with a lower position gives up the role and acquires (R358). -/
def yieldLead (m : Marker) (s : State) : State :=
  if s.ring.state == .joined && s.ring.lead && m.lead && decide (m.pos < s.ring.position) then
    let s := modRing (fun r => { r with lead := false }) s
    if s.tick.source = .ring then { s with tick := acquire s.tick } else s
  else s

/-- The one-way delay d in 1/16 CCLK that a marker measures at its arrival (R356): from the departure of the marker that it names, the
last one with that TN[15:0], less the peer's hold. -/
def markerDelay (tn cclk : Nat) (m : Marker) : Nat :=
  8 * ((tn + 65536 - m.echoTn) % 65536 * Config.tickCclk + cclk - m.echoHold)

/-- What a port takes from a marker (R352, R355, R356). -/
def portMarker (tn cclk : Nat) (m : Marker) (x : RingPort) : RingPort :=
  let ds := x.delays ++ [markerDelay tn cclk m]
  let x := { x with
    seen := true, missed := 0, good := x.good + 1, lastMarker := m.tn % 65536, lastCclk := some cclk, peerPos := m.pos,
    peerHops := m.hops, peerLine := m.line, serial := m.serial, delays := if 64 ≤ ds.length then [] else ds,
    delay := if 64 ≤ ds.length then ds.sum / 64 % 2 ^ 20 else x.delay }
  let x := takeAck (BitVec.ofNat 12 m.ack) m.nak x
  if x.link = .training ∧ 64 ≤ x.good then { x with link := .up } else x

/-- Count corrected codewords. -/
def countFixed (p : Fin 2) (n : Nat) (s : State) : State :=
  modPort p (fun x => { x with fecCorr := x.fecCorr + BitVec.ofNat 32 n }) s

/-- A marker of the ring that a member belongs to: its reference, the members in view (log entry 41), the skew of TN. -/
def memberMarker (p : Fin 2) (m : Marker) (s : State) : State :=
  let s := yieldLead m s
  let s := modRing reference s
  let fromRef := s.ring.lead || s.ring.refPort == p.val + 1
  let s := if fromRef then modRing (fun r => { r with present := m.present ||| ownBit r }) s else s
  let s := if s.ring.refPort = p.val + 1 then
      modRing (fun r => { r with tnSkew := satInt 8 ((s.tick.tn.toNat : Int) - (m.tn : Int)) }) s else s
  electLead s

/-- MARKER_ARRIVAL (R351, R352, R355-R358): codeword 0 of a tick at CCLK offset `cclk`; one that is not correctable, or does not begin
with the sync, is no marker. Its phase is a REFERENCE_EVENT of its own. -/
def execMarkerArrival (p : Fin 2) (word : List Byte) (cclk : Nat) (s : State) : Out :=
  if s.ring.insert = false ∨ s.ring.port[p].link = .dark then .next s else
  match readMarker word with
  | none => .next s
  | some (m, fixed) =>
    let s := modPort p (portMarker s.tick.tn.toNat cclk m) (countFixed p (b2n fixed) s)
    if s.ring.state = .joining then .next (modRing (fun r => { r with leadSeen := r.leadSeen || m.lead }) s)
    else if s.ring.state = .joined ∧ m.ringId = s.ring.id then .next (memberMarker p m s)
    else .next s

/-! ### Down and up (R355) -/

/-- Ticks in a row without a marker, the present one among them (15, Worked case: the port is DOWN in the fourth). -/
def silentTicks (x : RingPort) : Nat := if x.seen then 0 else x.missed + 1

/-- PORT_DOWN: 4 ticks without a marker, or a flit resent 8 times. Sequence numbers start afresh (DESIGN CHOICE, log entry
41). -/
def execPortDown (p : Fin 2) (s : State) : Out :=
  let x := s.ring.port[p]
  if (x.link = .up ∨ x.link = .training) ∧ (4 ≤ silentTicks x ∨ 8 ≤ x.resent) then
    let s := modPort p (fun x => { x with
      link := .down, downs := satInc 16 x.downs, retry := [], tx := [], resent := 0, missed := 0, good := 0,
      txSeq := 0, txAck := 0, rxSeq := 0, nak := false, again := none, ackTicks := 0 }) s
    let s := modRing reference s
    let s := if !portUp s 0 && !portUp s 1 && s.ring.state == .joined then
        modRing (fun r => { r with present := ownBit r }) s else s
    .next (electLead s)
  else .next s

/-- PORT_RETRAIN: every 100 ms. -/
def execPortRetrain (p : Fin 2) (s : State) : Out :=
  if s.ring.port[p].link = .down then .next (modPort p (fun x => { x with link := .training, good := 0, missed := 0 }) s)
  else .next s

/-! ### Arriving flits (R353, R354, R364, R368, R370) -/

/-- Keep a complete block if it is newer than the one kept. -/
def keepBlock (len : Nat) (data : List Byte) (b : InBuf) : InBuf :=
  let b := { b with coming := [] }
  if data.length ≠ len + 8 then b
  else
    let stamp := ofLe (data.drop len)
    let newer := match b.newest with
      | some n => decide (n.1 < stamp)
      | none => true
    if newer then { b with newest := some (stamp, data.take len) } else b

/-- Take one flit's payload into an in entry's buffer. -/
def takePart (len index : Nat) (last : Bool) (payload : List Byte) (b : InBuf) : InBuf :=
  let got := (if index = 0 then [] else b.coming) ++ [(index, payload)]
  if last then
    if got.map Prod.fst = List.range got.length then keepBlock len (got.flatMap Prod.snd) b else { b with coming := [] }
  else { b with coming := got }

/-- Put a BLOCK flit's payload into the staging buffer of the in entry that it is for. -/
def stageFlit (n : Fin 8) (f payload : List Byte) (s : State) : State :=
  match s.herd.job[n].plan with
  | none => s
  | some pl =>
    let hit (i : Nat) : Bool := match pl.ins[i]? with
      | some e => e.src == flitSrc f && e.bid == flitBid f
      | none => false
    let len (i : Nat) : Nat := match pl.ins[i]? with
      | some e => e.len
      | none => 0
    modRingRgn n (fun x => { x with
      bufs := x.bufs.zipIdx.map fun b => if hit b.2 then takePart (len b.2) (flitIndex f) (flitLast f) payload b.1 else b.1 }) s

/-- The key of a key_index that a region holds: the present one, or the next. -/
def keyFor (x : RingRgn) (i : Nat) : Option (List Byte) :=
  if i = x.keyIndex then x.key else if i = (x.keyIndex + 1) % 4 then x.nextKey else none

/-- The payload of a flit for a stream: sealed flits are opened, none where the tag fails (R364). -/
def openFlit (x : RingRgn) (f : List Byte) : Option (List Byte) :=
  if x.sealed then
    match keyFor x (flitKeyIndex f) with
    | some k =>
      let nonce := flitNonce f (x.recv[Fin.ofNat 16 (flitSrc f)])
      let c := slice f 16 224
      if flitSealed f && gcmTag k nonce (flitAad f) c == slice f 240 16 then
        some ((gcmStream k nonce c).take (min 224 (flitLen f))) else none
    | none => none
  else some (slice f 16 (min 240 (flitLen f)))

def countCrc (p : Fin 2) (s : State) : State := modPort p (fun x => { x with crcFail := satInc 16 x.crcFail }) s

/-- An accepted flit for this member: a BLOCK of a registered stream is staged; the content of CONTROL flits is SPDM's
(R362). -/
def receiveFlit (p : Fin 2) (f : List Byte) (s : State) : State :=
  if flitType f ≠ 1 then s
  else match streamRegion s f with
    | none => modRing (fun r => { r with noStream := satInc 16 r.noStream }) s
    | some n =>
      match openFlit s.ring.rgn[n] f with
      | some d =>
        stageFlit n f d (modRingRgn n (fun x => { x with recv := upd x.recv (Fin.ofNat 16 (flitSrc f)) (· + 1) }) s)
      | none => countCrc p s

/-- A flit for another member leaves by the other port (R368). -/
def forwardFlit (p : Fin 2) (f : List Byte) (s : State) : State :=
  if s.ring.present.getLsbD (flitDst f) && portUp s (otherPort p) then
    modPort (otherPort p) (fun x => { x with tx := x.tx ++ [{ bytes := f, fwd := true }] }) s
  else countUnreachable s

/-- A flit that can be read and whose CRC holds (R353). -/
def soundFlit (slot : Nat) (words : List (List Byte)) : Option (List Byte) :=
  (readFlit slot words).filter fun f => f.length == 256 && fieldAt f 12 4 == (flitCrc f).toNat

/-- RING_FLIT_ARRIVAL (R351-R354): the flit of a slot, in the codewords that carry it. A reserved type carries nothing. -/
def execRingFlitArrival (p : Fin 2) (slot : Nat) (words : List (List Byte)) (s : State) : Out :=
  if s.ring.insert = false ∨ portUp s p = false then .next s else
  let s := countFixed p (fixedWords slot words) s
  match soundFlit slot words with
  | none => .next (countCrc p s)
  | some flit =>
    let s := modPort p (takeAck (flitAck flit) (flitNak flit)) s
    if flitType flit = 0 ∨ 2 < flitType flit then .next s
    else if flitSeq flit ≠ s.ring.port[p].rxSeq then .next (modPort p (fun x => { x with nak := true }) s)
    else
      let s := modPort p (fun x => { x with rxSeq := x.rxSeq + 1 }) s
      if s.ring.state = .joined ∧ flitDst flit ≠ s.ring.position then .next (forwardFlit p flit s)
      else .next (receiveFlit p flit s)

/-! ### Joining and leaving (R359-R361) -/

/-- A port that has left the ring; its counters stay. -/
def darkPort (x : RingPort) : RingPort :=
  { RingPort.reset with fecCorr := x.fecCorr, crcFail := x.crcFail, retries := x.retries, downs := x.downs }

/-- The ring without this module: ALONE, the bypass THROUGH. -/
def leaveRing (r : RingState) : RingState :=
  { r with state := .alone, insert := false, line := false, lead := false, position := 0, refPort := 0, tnSkew := 0,
           id := 0, present := 0, hops := 255, leadSeen := false, port := r.port.map darkPort }

/-- The RING_JOIN that waits completes. -/
def finishJoin (status : Nat) (s : State) : State :=
  match current s maintQ with
  | some p => if p.started && pktOp p.bytes == 0x43 then decide' maintQ p.pos (plainDone status) s else s
  | none => s

/-- A failed join. -/
def failJoin (err : Nat) (s : State) : State :=
  finishJoin Status.ringJoinFailed (modRing (fun r => { leaveRing r with joinErr := err }) s)

/-- Steps 1-5 of Table 15-3. -/
def startJoin (b : List Byte) (meas : BitVec 2) (s : State) : State :=
  let t := if fieldAt b 24 4 = 0 then 500000 else fieldAt b 24 4
  modRing (fun r => { r with
    state := .joining, insert := true, joinErr := 0, id := BitVec.ofNat 32 (fieldAt b 16 4), wanted := fieldAt b 20 1,
    fromRing := bit (fieldAt b 21 1) 0, joinTicks := t, joinLimit := s.tick.tn.toNat + t, leadSeen := false,
    port := Vector.ofFn fun p => { darkPort r.port[p] with
      link := .training, attested := true, measMatch := meas.getLsbD p.val } }) s

/-- RING_JOIN (R359): up to step 5 of Table 15-3. -/
def execRingJoin (ringTn : Nat) (trained attested : Bool) (meas : BitVec 2) (s : State) : Out :=
  maintCommand 0x43 (fun p s =>
    if s.ring.state ≠ .alone then maintDone p Status.ringState s
    else
      let s := maintStart p s
      if bit (fieldAt p.bytes 21 1) 0 && !tnFree s && s.tick.tn.toNat != ringTn then failJoin 2 s
      else if !trained || !attested then failJoin 4 s
      else startJoin p.bytes meas s) s

/-- The CONTROL flit that announces a leave to a peer; what its message says is left open (log entry 109). -/
def leaveFlit (r : RingState) (x : RingPort) : List Byte :=
  let h := leBytes 1 2 ++ leBytes 1 8 ++ [0] ++ leBytes 1 (r.position + 16 * x.peerPos) ++ [0, 0, 0, 0, 0, 0, 1, 0, 0, 0, 0, 0]
  finishFlit x.txSeq x.rxSeq false (h ++ [Config.leaveNotice] ++ List.replicate 239 0)

/-- A port that announces the leave, if its peer is reached, and goes dark. -/
def leavePort (r : RingState) (x : RingPort) : RingPort :=
  { darkPort x with marker := x.marker, sent := x.sent ++ (if x.link = .up then [leaveFlit r x] else []) }

/-- RING_LEAVE (R361): announced to each peer, then ALONE with the bypass THROUGH. LEAVING lasts only while the command runs. -/
def execRingLeave (s : State) : Out :=
  maintCommand 0x44 (fun p s =>
    if s.ring.state ≠ .joined then maintDone p Status.ringState s
    else maintDone p Status.ok (modRing (fun r => { leaveRing r with port := r.port.map (leavePort r) }) s)) s

/-- RING_JOIN_TIMEOUT (R359, R360). -/
def execRingJoinTimeout (s : State) : Out :=
  if s.ring.state = .joining ∧ s.ring.joinLimit ≤ s.tick.tn.toNat then
    .next (settleMaint (failJoin (if s.ring.leadSeen || !s.ring.fromRing then 1 else 6) s))
  else .next s

/-- The module is a member at a position. -/
def joinAs (pos : Nat) (lead : Bool) (present : BitVec 16) (s : State) : State :=
  finishJoin Status.ok (modRing (fun r => reference { r with
    state := .joined, position := pos, lead := lead, present := present ||| ((1 : BitVec 16) <<< pos), tnSkew := 0 }) s)

/-- The lowest position that no present member holds. -/
def freePosition (present : BitVec 16) : Option Nat := (List.range 16).find? fun i => !present.getLsbD i

/-- The position the lead gives this module (R348), if it may have one (R360). -/
def givenPosition (f : Formation) : Option Nat :=
  let pos := if f.formed then freePosition f.present
    else match f.hopsDown, f.hopsUp with
      | some h, _ => some h.val
      | none, some h => some ((16 - h.val) % 16)
      | none, none => none
  let members := ((List.range 16).filter fun i => f.present.getLsbD i).length
  pos.filter fun _ => decide (members + 1 ≤ f.members)

/-- A module that joined with tick_from_ring = 1 adopts the ring's TN, as R23 lets it, and the RING source. -/
def adoptTn (tn : Nat) (s : State) : State :=
  let t := setTickCtrl (2 + 4 * s.tick.inSel + 16 * b2n s.tick.inEdge) s.tick
  let v : W64 := BitVec.ofNat 64 tn
  { s with tick := if s.tick.tn + 1 = v then t else { t with newTn := some v } }

/-- RING_FORMATION (R360): step 6 of Table 15-3. -/
def execRingFormation (f : Formation) (s : State) : Out :=
  let r := s.ring
  if r.state ≠ .joining then .next s
  else if !r.fromRing then
    if f.lowerSerialSeen then .next (settleMaint (failJoin 3 s))
    else if f.closedLoop ∨ r.joinLimit ≤ s.tick.tn.toNat + r.joinTicks / 2 then
      .next (settleMaint (joinAs 0 true f.present s))
    else .next s
  else if !f.leadSeen then .next s
  else match givenPosition f with
    | none => .next (settleMaint (failJoin 5 s))
    | some pos =>
      if !tnFree s ∧ s.tick.tn + 1 ≠ BitVec.ofNat 64 f.tn then .next (settleMaint (failJoin 2 s))
      else .next (settleMaint (joinAs pos false f.present (adoptTn f.tn s)))

/-! ### Streams (R363) -/

/-- Is this module the lead of region n's stream: does it hold the lowest position among the members its plan names?
(DEDUCED, log entry 42) -/
def streamLead (s : State) (n : Fin 8) : Bool :=
  match s.herd.job[n].plan with
  | some p => (p.outs.map RingOut.dst ++ p.ins.map RingIn.src).all fun x => decide (s.ring.position ≤ x)
  | none => false

/-- One stream key: drawn from the DRBG by the stream lead, else as the lead has sent it, a free value (R363; log entry
42). -/
def newStreamKey (n : Fin 8) (s : State) : List Byte × State :=
  if streamLead s n then drbgDraw s else (undefBytes s 32, useFree 32 s)

/-- STREAM_KEY_ADVANCE (R363): the first key, then every 2^21 ticks the next one comes into use; the key after it is sent ahead of
use. -/
def execStreamKeyAdvance (r : Fin 8) (s : State) : Out :=
  let x := s.ring.rgn[r]
  if x.sealed = false ∨ s.ring.state ≠ .joined ∨ (streamLead s r = true ∧ drbgServes s 2 = false) ∨
      (x.key.isSome ∧ x.keyTicks < 2 ^ 21) then .next s else
  let now := match x.nextKey with
    | some k => (k, s)
    | none => newStreamKey r s
  let next := newStreamKey r now.2
  .next (modRingRgn r (fun x => { x with
    key := some now.1, nextKey := some next.1, keyOk := true,
    keyIndex := if x.key.isSome then (x.keyIndex + 1) % 4 else x.keyIndex,
    keyTicks := if x.key.isSome then x.keyTicks - 2 ^ 21 else 0, sent := 0, recv := Vector.replicate 16 0 }) next.2)

/-! ### Blocks (R366, R370) -/

/-- The payload of a flit, and the 256 bytes it makes; a sealed one is encrypted with the count of those sent before. -/
def blockFlit (x : RingRgn) (key : List Byte) (src dst bid index count : Nat) (last : Bool) (data : List Byte) : List Byte :=
  let h := flitHeader x.sealed x.keyIndex last x.stream src dst bid index data.length
  if x.sealed then
    let d := data ++ List.replicate (224 - data.length) 0
    let nonce := flitNonce h count
    let c := gcmStream key nonce d
    h ++ c ++ gcmTag key nonce (flitAad h) c
  else h ++ data ++ List.replicate (240 - data.length) 0

/-- The BLOCK flits of a stamped block. -/
def blockFlits (x : RingRgn) (key : List Byte) (src dst bid : Nat) (data : List Byte) : List OutFlit :=
  let per := if x.sealed then 224 else 240
  let n := ceilDiv data.length per
  ((pieces per n data).zipIdx).map fun p =>
    { bytes := blockFlit x key src dst bid p.2 (x.sent + p.2) (decide (p.2 + 1 = n)) p.1, fwd := false }

/-- The bytes of block `bid` of region n in staging, once all `len` are there, and the buffers without them (R366). -/
def takeStaged (s : State) (n : Fin 8) (bid len : Nat) : Option (List Byte × State) :=
  let full (b : Fin 24 × Nat × List Byte) : Bool := b.2.1 == bid && decide (len ≤ b.2.2.length)
  match (s.rim.blocks[n]).find? full with
  | none => none
  | some b =>
    let rest := b.2.2.drop len
    let others := (s.rim.blocks[n]).erase b ++ (if rest.isEmpty then [] else [(b.1, bid, rest)])
    some (b.2.2.take len, { s with rim := { s.rim with blocks := upd s.rim.blocks n fun _ => others } })

/-- A stamped block of region n becomes BLOCK flits of its port; where no path reaches its destination, or only one over Rim segments on
which the region owns no unit, it is counted, and a sealed stream without a key sends nothing (R361, R363, R372). -/
def sendBlock (n : Fin 8) (o : RingOut) (data : List Byte) (s : State) : State :=
  let x := s.ring.rgn[n]
  let want : Fin 2 := if o.down then 1 else 0
  match routeFrom s want o.dst with
  | none => countUnreachable s
  | some p =>
    if p ≠ want ∧ ownsWay s n p = false then countUnreachable s
    else if x.sealed ∧ x.key = none then s
    else
      let fs := blockFlits x (x.key.getD []) s.ring.position o.dst o.bid (data ++ leBytes 8 s.tick.tn.toNat)
      modPort p (fun y => { y with tx := y.tx ++ fs })
        (modRingRgn n (fun x => { x with sent := if x.sealed then x.sent + fs.length else x.sent }) s)

/-- BLOCK_STAGED (R366): all len bytes of a block are in staging; it is stamped and sent. -/
def execBlockStaged (r : Fin 8) (bid : Fin 16) (s : State) : Out :=
  match (s.herd.job[r].plan).bind fun p => p.outs.find? fun o => o.bid == bid.val with
  | none => .next s
  | some o =>
    if s.ring.rgn[r].stream = 0 then .next s
    else match takeStaged s r o.bid o.len with
      | none => .next s
      | some (data, s) => .next (sendBlock r o data s)

/-- Does region n's ticking job start a fresh sweep in the present tick (R27, R92, R93, R381, R384)? -/
def startsFresh (s : State) (n : Fin 8) : Bool :=
  let t := s.herd.job[n]
  let x := s.noise.rgn[n]
  s.tick.rgn[n].ticking && t.part == .ingest && !t.init && !t.late && !t.active && !t.excluded && s.noise.state == .ready
    && decide (16 ≤ s.pwr.rgn[n].level)
    && (x.mode == 2 || !((planTiles s n).any fun h => needsKey x (t.jt + 1) s.herd.tile[h] && s.herd.tile[h].shadowKey.isNone))

/-- Deliver a block to the target of its in entry: its bytes, for a Chamois tile with the stamp behind them, leave the staging buffer
along the tick plan's entries (R370, R52). -/
def deliverBlock (n : Fin 8) (e : RingIn) (b : Nat × List Byte) (s : State) : State :=
  let u := unitOf s.rgn.rgn[n] e.lx e.ly
  let data := match u with
    | .cham _ => b.2 ++ leBytes 8 b.1
    | _ => b.2
  let d := engXY u
  pushVc0 (edgeXY (engEntry u))
    ((chunks data).map fun c => { tag := n.val, dx := d.1, dy := d.2, load := .deliver (e.addr + c.1) c.2 }) s

/-- A stale delivery: the tick counts once (DEDUCED, log entry 43), and the target's chains get STALE. -/
def markStale (n : Fin 8) (e : RingIn) (s : State) : State :=
  let s := modRingRgn n (fun x => { x with staleTick := true, stale := if x.staleTick then x.stale else satInc 32 x.stale }) s
  match unitOf s.rgn.rgn[n] e.lx e.ly with
  | .herd h => modHerd h (fun t => { t with stale := true }) s
  | _ => s

/-- The last copy of in entry i becomes b. -/
def setLast (i : Nat) (b : Nat × List Byte) (x : RingRgn) : RingRgn :=
  { x with bufs := x.bufs.zipIdx.map fun y => if y.2 = i then { y.1 with last := b } else y.1 }

/-- RING_CUTOFF (R370). -/
def execRingCutoff (r : Fin 8) (entry : Nat) (s : State) : Out :=
  match (s.herd.job[r].plan).bind fun p => p.ins[entry]?, (s.ring.rgn[r].bufs)[entry]? with
  | some e, some b =>
    if !startsFresh s r then .next s
    else match b.newest.filter fun x => decide (b.last.1 < x.1) with
      | some x => .next (deliverBlock r e x (modRingRgn r (setLast entry x) s))
      | none => .next (markStale r e (deliverBlock r e b.last s))
  | _, _ => .next s

/-! ### Reservations (R374) -/

/-- RING_RGN_RSV_WRITE: a write of 1 to rsv_err clears it first (R413). -/
def execRingRgnRsvWrite (r : Fin 8) (v : W32) (s : State) : Out :=
  if !viewOk s .pf then .next s else
  let up := bits v.toNat 7 0
  let down := bits v.toNat 15 8
  let others := (allFin 8).filter fun m => m != r
  let sum (f : RingRgn → Nat) : Nat := (others.map fun m => f s.ring.rgn[m]).sum
  let s := if bit v.toNat 26 then modRingRgn r (fun x => { x with rsvErr := false }) s else s
  if s.ring.rgn[r].stream = 0 ∧ up + sum RingRgn.rsvUp ≤ 192 ∧ down + sum RingRgn.rsvDown ≤ 192 then
    .next (modRingRgn r (fun x => { x with rsvUp := up, rsvDown := down }) s)
  else .next (modRingRgn r (fun x => { x with rsvErr := true }) s)

end Sys2Proof.Machine
end

