-- ==== Sys2Proof/Machine/Boundary.lean ====
section
/-!
DEFINITION. The tick boundary (02_pennant_tick.md R22-R24, R32, R43): TN and the trim, the ends of ticking and of waits that
last until a boundary, the ramp (16_power_energy_startup.md R380), idle counts (14_faults_restart.md R329), translation
caches (10_memory_host_link.md R214).
-/
namespace Sys2Proof.Machine

/-! ### The tick that ends: idle counts (R329) -/

/-- The descriptors that wait at a unit. -/
def waitingOn (s : State) : List Desc :=
  s.eng.flight ++ s.cham.toList.flatMap Cham.queue ++ s.pe.toList.flatMap Pe.queue

/-- Does a job hold for noise under R107: a descriptor of it that requests randomness waits for the DRBG? -/
def holdsForNoise (s : State) (j : Job) : Bool :=
  (waitingOn s).any fun d => d.job == j.ref && wantsRandom d.bytes && !drbgServes s (noiseNeed d.bytes)

/-- Does the tick that ends not count for a job: holding under R92, R107 or R115, waiting in AT_TICK, excluded by duty, between
attempts (R329)? -/
def uncounted (s : State) (j : Job) : Bool :=
  j.phase == .staged || j.phase == .restoring || !included s j.ref.r || holdsForNoise s j ||
    (j.tick && s.tick.rgn[j.ref.r].ticking && s.herd.job[j.ref.r].holds) ||
    match j.wait with
    | .tick _ => true
    | _ => false

/-- A job's idle count at the end of a tick. -/
def countIdle (s : State) (j : Job) : Job :=
  { j with seen := j.progress,
           idle := if j.progress ≠ j.seen then 0 else if uncounted s j then j.idle else min (2 ^ 32 - 1) (j.idle + 1) }

/-- Every job's idle count at the end of a tick. -/
def idleCounts (s : State) : State := { s with jobs := s.jobs.map (countIdle s) }

/-! ### TN and the trim (R23, R24, R32) -/

/-- The trim of the tick that begins; the step that corrects a phase error is free within the bound of R24. -/
def trimStep (s : State) : State :=
  useFree 1 { s with tick := { s.tick with trim := trimNext (Config.trimStep s.free) s.tick } }

/-- A pulse in progress when TN becomes `tn`, at the instant `now` of the old count: it keeps what is left of its width. -/
def movePulse (now tn : Nat) (p : Pulse) : Pulse := { p with tn := tn, offset := 0, width := p.fall - now }

/-- The end of R379's limit when the tick `old` becomes `tn`: what is left of the 64 ticks, or of the recovery after them. -/
def moveCap (old tn cap : Int) : Int :=
  if old < cap then tn + (cap - old) else (tn / 64 - (old / 64 - (cap - 1) / 64)) * 64 + 1

/-- Everything that counts ticks by TN, when the tick `old` becomes `tn`. -/
def moveTn (old tn : Nat) (s : State) : State :=
  { s with
    jobs := s.jobs.map fun j => { j with stopTn := j.stopTn + tn - old },
    haly := { s.haly with
      out := s.haly.out.map fun o => { o with pulses := o.pulses.map (movePulse (old * Config.tickCclk) tn) },
      inp := s.haly.inp.map fun i => { i with ownerSince := i.ownerSince.map (· + (tn - old) * Config.tickCclk) } },
    tick := { s.tick with refDone := none },
    ring := { s.ring with joinLimit := tn + (s.ring.joinLimit - old) },
    pwr := { s.pwr with rgn := s.pwr.rgn.map fun p => { p with capUntil := p.capUntil.map (moveCap old tn) } } }

/-- TICK_CONFIG completes in the tick that carries the new TN (R23). -/
def tickConfigDone (s : State) : State :=
  match current s maintQ with
  | some p => if p.started && pktOp p.bytes == 0x45 then settleMaint (maintDone p Status.ok s) else s
  | none => s

/-- TN of the tick that begins: 0 in the first tick after a reset, one more than before, or the new TN of TICK_CONFIG or of the
ring (R23). -/
def nextTn (s : State) : State :=
  if s.tick.running = false then { s with tick := { s.tick with running := true, tn := 0, newTn := none } }
  else
    let s := { s with tick := { s.tick with lastTn := s.tick.tn, mtime := s.tick.mtime + BitVec.ofNat 64 Config.tickCclk } }
    match s.tick.newTn with
    | none => { s with tick := { s.tick with tn := s.tick.tn + 1 } }
    | some v =>
      let s := moveTn (s.tick.tn.toNat + 1) v.toNat s
      tickConfigDone { s with tick := { s.tick with tn := v, tnEpoch := s.tick.tnEpoch + 1, newTn := none } }

/-! ### Ends of ticking (R134, R331) and the walls (R53, R62, Table 14-3) -/

/-- The end of region n's ticking: of a stopped job at once, of another when it is due. -/
def ticksEnd (n : Fin 8) (s : State) : State :=
  if !s.tick.rgn[n].ticking then s else
  match tickJobOf s n with
  | none => s
  | some j =>
    if j.phase == .stopped then endTicking n s
    else if ticksLast s n j then endNormally n j s
    else s

/-- The active entries of a link go idle. -/
def idleBank (active : Bool) (l : Link) : Link := if active then { l with bank1 := [] } else { l with bank0 := [] }

/-- Does a job keep the entries of its tick plan active: a ticking job that is not over, between its attempts only while it still
ticks (R53, R332; DEDUCED, log entry 99: the writes of R132 leave after the last tick)? -/
def keepsSlots (s : State) (n : Fin 8) : Bool :=
  s.tick.rgn[n].ticking || (tickJobOf s n).any fun j => j.phase != .restoring

/-- A region whose ticking job ended before this boundary has only idle entries (R53). -/
def idleSlots (n : Fin 8) (s : State) : State :=
  let r := s.rgn.rgn[n]
  if r.state == .free || keepsSlots s n then s else mapLinks r (idleBank r.activeBank) s

/-- Step 3 of region recovery (Table 14-3): VC0, Rim and edge-tile buffers are cleared. -/
def recoverLinks (n : Fin 8) (s : State) : State :=
  let r := s.rgn.rgn[n]
  if r.recovery ≠ 3 then s else
  modRgn n (fun r => { r with recovery := 4 }) (clearBuffers n s)

/-- Rim units allocated or freed take their new owners, tiles their new tags (R62, R70). -/
def takeRim (s : State) : State :=
  { s with rim := { s.rim with owner := s.rim.alloc }, mesh := { s.mesh with tag := s.mesh.tagNext } }

/-! ### The ramp (R380) -/

/-- A region that did not tick falls by one. -/
def rampFall (p : PwrRgn) : PwrRgn := if p.ticked then p else { p with level := p.level - 1, waits := false }

/-- A region that ticked rises by one, if the increase fits and R379 holds nothing; else its step waits. -/
def rampRise (n : Fin 8) (s : State) : State :=
  let p := s.pwr.rgn[n]
  if p.ticked = false then s
  else if 16 ≤ p.level then modPwrRgn n (fun p => { p with waits := false }) s
  else
    let up := modPwrRgn n (fun p => { p with level := p.level + 1, waits := false }) s
    if fits up && !s.pwr.admitHold then up else modPwrRgn n (fun p => { p with waits := true }) s

/-- The ramp steps of a boundary: every fall first, then the rises in the order of region ID; the tick that begins counts as
ticking for the regions that tick now. -/
def rampStep (s : State) : State :=
  let s := { s with pwr := { s.pwr with rgn := s.pwr.rgn.map rampFall } }
  let s := forEach (allFin 8) rampRise s
  forEach (allFin 8) (fun n s => modPwrRgn n (fun p => { p with ticked := s.tick.rgn[n].ticking }) s) s

/-! ### The tick that begins -/

/-- The evidence swaps of tiles that no ticking job names (R43). -/
def swapOthers (s : State) : State :=
  let held : List (Fin 64) := ((allFin 8).filter fun n => s.tick.rgn[n].ticking).flatMap (planTiles s)
  { s with herd := { s.herd with
      tile := Vector.ofFn fun h => if held.contains h then s.herd.tile[h] else applySwap s.herd.tile[h] } }

/-- The ticking jobs enter the tick. -/
def enterTicks (s : State) : State := forEach ((allFin 8).filter fun n => s.tick.rgn[n].ticking) enterTick (swapOthers s)

/-- MEM_INV runs for a context: its cached entries are dropped, frames that MAP gave up are free, and MAP completes (R214,
R306). -/
def invalidate (c : Fin 9) (s : State) : State :=
  let x := s.mem.ctx[c]
  if !x.invBusy then s else
  let s := modMem (fun m => { m with tlb := m.tlb.filter fun t => t.ctx != c }) s
  let s := forEach x.release (fun f => modMem fun m => giveFrame f 15 m) s
  let s := modCtx c (fun x => { x with invBusy := false, release := [] }) s
  let due := s.jobs.filter fun j => ctxOf j.ref.r == c && j.phase == .running && j.wait == .map
  forEach due (fun j => stepOn j.ref) s

/-- May a job start in the tick that begins: a staged one whose turn it is, with its captures copied (R317, R334); one between
attempts whose recovery is the first of its region (R337, R343); never beside another ticking job (R15)? -/
def mayStart (s : State) (j : Job) : Bool :=
  ticksAlone s j && match j.phase with
  | .staged =>
    (j.caps.isEmpty || j.saveSlot.isSome) && (match currentOp s (qIndex j.ref.r j.ref.q) 0x01 with
      | some p => p.pos == j.ref.pos
      | none => false)
  | .restoring => (firstRecovery s j.ref.r).any fun k => k.ref == j.ref
  | _ => false

/-- The jobs that may start in the tick that begins: those that were ready before its boundary (R317). -/
def markStarts (s : State) : State := { s with jobs := s.jobs.map fun j => { j with go := mayStart s j } }

/-- The DRBG counts ticks (R105). -/
def drbgTick (s : State) : State :=
  { s with noise := { s.noise with drbg := s.noise.drbg.map fun d => { d with ticks := d.ticks + 1 } } }

/-- A VF FLR that waited for a seal that did not come about (R233). -/
def lateFlr (n : Fin 8) (s : State) : State :=
  let r := s.rgn.rgn[n]
  if r.flrWaits && !s.sec.rgn[n].sealing && !(r.state == .free) && !(r.state == .forming) && !r.tearingDown then startFlr n s
  else s

/-- What happens at CCLK 0 of a tick, in order. -/
def newTick (s : State) : State :=
  let s := nextTn (trimStep (if s.tick.running then countVc0Empty (idleCounts (markStarts s)) else markStarts s))
  let s := takeRim (forEach (allFin 8) recoverLinks (forEach (allFin 8) ticksEnd (forEach (allFin 8) idleSlots s)))
  let s := enterTicks (rampStep s)
  let s := forEach (allFin 9) invalidate s
  let s := forEach (allFin 8) lateFlr (stagingEnds (ringTick (drbgTick s)))
  settleAll s

/-- TICK_BOUNDARY (R22, R23): no tick runs without power or while PERST# is asserted. -/
def execTickBoundary (s : State) : Out :=
  if s.dev.powered && !s.dev.perst then .next (newTick s) else .next s

end Sys2Proof.Machine
end

