-- ==== Sys2Proof/Machine/Secure.lean ====
section
/-!
DEFINITION. Owners and sealing (11_owners_secrecy.md): SPDM sessions and what they carry (R239-R244, R263),
IDE streams and TDISP (R250-R254), REGION_SEAL and its completion (R245-R248; 10 R218-R220).
-/
namespace Sys2Proof.Machine

/-! ### Sessions and answers -/

/-- Does secure Criward answer: the module is ready and its Secure Markhor runs (R169, R389)? -/
def secureServes (s : State) : Bool := s.dev.ready && s.sec.up && s.mkh.lockstepOk

/-- A secured session by its number. -/
def findSession (s : State) (sid : Nat) : Option Session := s.sec.sessions.find? fun x => x.sid == sid

/-- Does a session belong to the owner of region n (R236)? -/
def ownsRegion (s : State) (n : Fin 8) (x : Session) : Bool :=
  s.rgn.rgn[n].state == .sealed && x.owner == ownerMeas s n

/-- The answer to a message, on the model's output port. -/
def answer (b : List Byte) (s : State) : State := { s with out := { s.out with msg := b } }

/-- An SPDM 1.2 ERROR with an error code (log entry 44). -/
def spdmError (code : Byte) : List Byte := [Config.spdmVersion, 0x7F, code, 0x00]

/-- The private scalar of the Alias key. -/
def aliasKey (s : State) : List Byte := match s.sec.keys with
  | some k => k.2.2
  | none => []

/-- KEY_EXCHANGE (R240): a session opens, its owner the digest of the requester's key (R235); with eight open, Busy. -/
def execKeyExchange (mutualAuth : Bool) (reqKey : List Byte) (s : State) : Out :=
  if !secureServes s then .next s
  else if 8 ≤ s.sec.sessions.length then .next (answer (spdmError 0x03) s)
  else
    let sid := s.sec.opened + 1
    let x : Session := { sid := sid, owner := sha256 (slice reqKey 0 64), mutualAuth := mutualAuth, since := sid }
    .next (answer ([Config.spdmVersion, 0x64] ++ leBytes 4 sid)
      { s with sec := { s.sec with sessions := s.sec.sessions ++ [x], opened := sid } })

/-- SESSION_END: its pending offers lapse (R243). -/
def execSessionEnd (sid : Nat) (s : State) : Out :=
  .next { s with sec := { s.sec with
    sessions := s.sec.sessions.filter fun x => x.sid != sid,
    rgn := s.sec.rgn.map fun x => { x with offer := x.offer.filter fun o => o.sid != sid } } }

/-- The chain of certificate slot 0 (R239): the Alias certificate's fwid is measurement slot 0, its vendor the image release. -/
def certChain (s : State) : List Byte :=
  let deviceId := match s.sec.keys with
    | some k => k.1
    | none => []
  Config.rootCert ++ Config.deviceIdCert ++
    Config.aliasCert deviceId (aliasKey s) s.mkh.meas[(0 : Fin 8)] (leBytes 4 s.mkh.release.toNat)

/-- GET_CERTIFICATE (R239): slot 0 holds the chain, the others are empty. -/
def execGetCertificate (slot : Nat) (s : State) : Out :=
  if !secureServes s || !s.sec.aliasOk then .next s
  else if slot = 0 then .next (answer (certChain s) s)
  else .next (answer (spdmError 0x01) s)

/-- One measurement block in DMTF format (R241, Table 11-3): index, specification, size, type, value size, value. -/
def measBlock (index type : Nat) (value : List Byte) : List Byte :=
  leBytes 1 index ++ leBytes 1 1 ++ leBytes 2 (value.length + 3) ++ leBytes 1 type ++ leBytes 2 value.length ++ value

/-- The measurement block of an index, if there is one. -/
def measOf (s : State) (index : Nat) : Option (List Byte) :=
  if 1 ≤ index ∧ index ≤ 8 then
    some (measBlock index (if index = 6 ∨ index = 7 then 3 else 1) s.mkh.meas[Fin.ofNat 8 (index - 1)])
  else if 0x10 ≤ index ∧ index ≤ 0x17 then some (measBlock index 0x82 (regionRecord s (Fin.ofNat 8 (index - 0x10))))
  else none

/-- The indices that the device reports. -/
def measIndices : List Nat := [1, 2, 3, 4, 5, 6, 7, 8, 0x10, 0x11, 0x12, 0x13, 0x14, 0x15, 0x16, 0x17]

/-- GET_MEASUREMENTS (R241): the blocks, their number before them, signed with the Alias key. -/
def execGetMeasurements (index : Nat) (s : State) : Out :=
  if !secureServes s then .next s
  else
    let blocks := if index = 0xFF then measIndices.filterMap (measOf s) else (measOf s index).toList
    if blocks = [] then .next (answer (spdmError 0x01) s)
    else
      let body := leBytes 1 blocks.length ++ blocks.flatten
      .next (answer (body ++ Config.aliasSign (aliasKey s) body) s)

/-! ### The device's own messages (R242, Table 11-5) -/

/-- The statuses of R242. -/
def msgOk : Byte := 0
def msgBadState : Byte := 1
def msgBadGen : Byte := 2
def msgBusy : Byte := 3
def msgNotOwner : Byte := 4
def msgMalformed : Byte := 5

/-- A vendor-defined SPDM message: StandardID 3, the PF's Vendor ID, a payload with its length (R242; the places of the fields are
those of DSP0274, PRESUMED, log entry 44). Codes: 0xFE a request, 0x7E a response. -/
def vendorMsg (code : Byte) (payload : List Byte) : List Byte :=
  [Config.spdmVersion, code, 0, 0] ++ leBytes 2 3 ++ [2] ++ leBytes 2 Config.vendorId.toNat ++ leBytes 2 payload.length ++ payload

/-- The payload of a VENDOR_DEFINED_REQUEST for this device, if a message is one. -/
def vendorPayload (msg : List Byte) : Option (List Byte) :=
  let payload := msg.drop 11
  if msg == vendorMsg 0xFE payload && decide (msg.length ≤ Config.doeMax) then some payload else none

/-- The response to opcode op. -/
def reply (op status : Byte) (data : List Byte) (s : State) : State :=
  answer (vendorMsg 0x7E ([0x80, op ||| 0x80, status] ++ data)) s

/-- Is a payload that of opcode op, with its length, and its region listed? -/
def msgOkFor (op : Byte) (len : Nat) (msg : List Byte) : Bool :=
  msg.length == len && slice msg 0 2 == [0x80, op] && decide (fieldAt msg 2 1 ≤ 7)

/-- Serve a message in a session: no vendor-defined request for this device is an invalid request (log entry 44), a payload that
is not well formed, or not `ok`, is MALFORMED; `act` gets the session, the region and the payload. -/
def serveMsg (op : Byte) (len : Nat) (ok : List Byte → Bool) (sid : Nat) (msg : List Byte)
    (act : Session → Fin 8 → List Byte → State → State) (s : State) : Out :=
  match findSession s sid with
  | none => .next s
  | some x =>
    if !secureServes s then .next s
    else match vendorPayload msg with
      | none => .next (answer (spdmError 0x01) s)
      | some b =>
        if !msgOkFor op len b || !ok b then .next (reply op msgMalformed [] s)
        else .next (act x (Fin.ofNat 8 (fieldAt b 2 1)) b s)

/-- The status of SEAL_OFFER (R243). -/
def offerStatus (s : State) (x : Session) (n : Fin 8) (gen : Nat) : Byte :=
  if !x.mutualAuth then msgNotOwner
  else if s.rgn.rgn[n].state ≠ .opened then msgBadState
  else if s.rgn.rgn[n].gen.toNat ≠ gen then msgBadGen
  else if s.sec.rgn[n].offer.isSome then msgBusy
  else msgOk

/-- SEAL_OFFER (R243). -/
def execSealOffer (sid : Nat) (msg : List Byte) (s : State) : Out :=
  serveMsg 0x01 8 (fun b => decide (fieldAt b 3 1 < 4)) sid msg (fun x n msg s =>
    let st := offerStatus s x n (fieldAt msg 4 4)
    let o : Offer := { sid := sid, owner := x.owner, policy := BitVec.ofNat 8 (fieldAt msg 3 1),
                       gen := BitVec.ofNat 32 (fieldAt msg 4 4) }
    reply 0x01 st [] (if st = msgOk then modSecRgn n (fun y => { y with offer := some o }) s else s)) s

/-- The status of SEAL_RESUME (R263). -/
def resumeStatus (s : State) (x : Session) (n : Fin 8) (epoch : Nat) : Byte :=
  let y := s.sec.rgn[n]
  if !ownsRegion s n x then msgNotOwner
  else if !y.attest || decide (x.since ≤ y.withdrawnAt) then msgBadState
  else if y.epoch.toNat ≠ epoch then msgBadGen
  else msgOk

/-- SEAL_RESUME (R263): attest_required clears, seal_epoch counts on and is returned. -/
def execSealResume (sid : Nat) (msg : List Byte) (s : State) : Out :=
  serveMsg 0x02 8 (fun b => fieldAt b 3 1 == 0) sid msg (fun x n msg s =>
    let st := resumeStatus s x n (fieldAt msg 4 4)
    if st = msgOk then
      let e := s.sec.rgn[n].epoch + 1
      reply 0x02 st (leBytes 4 e.toNat) (modSecRgn n (fun y => { y with attest := false, epoch := e }) s)
    else reply 0x02 st [] s) s

/-- The status of TAG_KEY_SET (R244). -/
def tagKeyStatus (s : State) (x : Session) (n : Fin 8) : Byte :=
  match s.rgn.rgn[n].state with
  | .sealed => if ownsRegion s n x then msgOk else msgNotOwner
  | .opened => msgOk
  | .free | .forming | .faulted | .disabled => msgBadState

/-- Put a blob-tag key, or none, into a region and the PEs lent to it. -/
def putTagKey (n : Fin 8) (k : Option (List Byte)) (s : State) : State :=
  forEach (lentPes s n) (fun e => modPe e fun p => { p with tagKey := k }) (modSecRgn n (fun y => { y with tagKey := k }) s)

/-- TAG_KEY_SET (R244). -/
def execTagKeySet (sid : Nat) (msg : List Byte) (s : State) : Out :=
  serveMsg 0x03 36 (fun b => fieldAt b 3 1 == 0) sid msg (fun x n msg s =>
    let st := tagKeyStatus s x n
    reply 0x03 st [] (if st = msgOk then putTagKey n (some (slice msg 4 32)) s else s)) s

/-- SEAL_QUERY: the region record (Table 11-4). -/
def execSealQuery (sid : Nat) (msg : List Byte) (s : State) : Out :=
  serveMsg 0x04 4 (fun b => fieldAt b 3 1 == 0) sid msg (fun _ n _ s => reply 0x04 msgOk (regionRecord s n) s) s

/-! ### IDE streams (R250) -/

/-- May KEY_PROG program a key set of a stream slot: a stream in Secure state keeps its ID, its function and its active key
set (log entry 45)? -/
def keyProgOk (x : Stream) (streamId : Byte) (fn : Fin 9) (keySet : Fin 2) : Bool :=
  !x.secure || (x.id == streamId && x.fn == fn && x.keySet != keySet)

/-- The key slot of a sub-stream (posted, non-posted, completion) and a direction (R250). -/
def keySlot (sub : Fin 3) (transmit : Bool) : Fin 6 := Fin.ofNat 6 (2 * sub.val + b2n transmit)

/-- KEY_PROG (R250): one key slot of a key set of a stream. -/
def execKeyProg (sid : Nat) (k : Fin 8) (streamId : Byte) (fn : Fin 9) (keySet : Fin 2) (sub : Fin 3) (transmit : Bool)
    (key : List Byte) (s : State) : Out :=
  if !secureServes s || (findSession s sid).isNone then .next s
  else if !keyProgOk s.sec.stream[k] streamId fn keySet then .next (answer [0x03, 0x03] s)
  else .next (answer [0x03, 0x00] (modStream k (fun x =>
    { x with id := streamId, fn := fn, keys := upd x.keys keySet fun slots => upd slots (keySlot sub transmit) fun _ => some key }) s))

/-- Does a key set hold the keys of all three sub-streams in both directions? -/
def keySetFull (x : Stream) (keySet : Fin 2) : Bool := (allFin 6).all fun i => (x.keys[keySet][i]).isSome

/-- K_SET_GO: the stream runs with a key set that holds all its keys (log entry 45). -/
def execKSetGo (sid : Nat) (k : Fin 8) (keySet : Fin 2) (s : State) : Out :=
  if !secureServes s || (findSession s sid).isNone || !keySetFull s.sec.stream[k] keySet then .next s
  else .next (answer [0x06] (modStream k (fun x => { x with secure := true, keySet := keySet }) s))

/-- The TDIs bound to a stream slot. -/
def boundTo (s : State) (k : Fin 8) : List (Fin 8) := (allFin 8).filter fun n => s.sec.rgn[n].stream == some k

/-- IDE_INTEGRITY_FAILURE: the TLP is discarded, the stream is Insecure, and the TDI bound to it goes to ERROR (R250,
R253). -/
def execIdeIntegrityFailure (k : Fin 8) (s : State) : Out :=
  if s.sec.stream[k].secure then
    .next (forEach (boundTo s k) tdiError
      (modStream k (fun x => { x with secure := false, fails := satInc 16 x.fails }) s))
  else .next s

/-! ### TDISP (R251-R253) -/

/-- May the VF of region n be locked to stream k by a session (R251)? -/
def lockOk (s : State) (x : Session) (n k : Fin 8) : Bool :=
  let y := s.sec.rgn[n]
  y.tdi == .unlocked && !y.attest && ownsRegion s n x && s.sec.stream[k].secure && s.sec.stream[k].fn == vfOf n

/-- Serve a TDISP request in a session: the response code, or TDISP_ERROR (log entry 46). -/
def serveTdi (sid : Nat) (ok : Session → Bool) (code : Byte) (act : State → State) (s : State) : Out :=
  match findSession s sid with
  | none => .next s
  | some x =>
    if !secureServes s then .next s
    else if ok x then .next (answer [code] (act s))
    else .next (answer [0x7F] s)

/-- The interface report of a TDI (R251): its BARs, the MSI-X table and PBA marked in BAR0 at the offsets of Table 10-3, and the
region record. No row of the table asks for it; the encoding of TDISP 1.0 is not the spec's (log entry 46). -/
structure InterfaceReport where
  bars : List Config.Bar
  msixTable : Nat
  msixPba : Nat
  record : List Byte
deriving DecidableEq, Repr
def interfaceReport (s : State) (n : Fin 8) : InterfaceReport :=
  { bars := Config.vfBars, msixTable := 0xE000, msixPba := 0xF000, record := regionRecord s n }

/-- LOCK_INTERFACE_REQUEST (R251). -/
def execLockInterfaceRequest (sid : Nat) (r k : Fin 8) (noFwUpdate : Bool) (s : State) : Out :=
  serveTdi sid (fun x => lockOk s x r k) 0x03
    (modSecRgn r fun y => { y with tdi := .locked, stream := some k, noFw := noFwUpdate }) s

/-- START_INTERFACE_REQUEST (R252). -/
def execStartInterfaceRequest (sid : Nat) (r : Fin 8) (s : State) : Out :=
  serveTdi sid (fun _ => s.sec.rgn[r].tdi == .locked) 0x06 (setTdi r .run) s

/-- STOP_INTERFACE_REQUEST (R253): to CONFIG_UNLOCKED, bound to no stream. -/
def execStopInterfaceRequest (sid : Nat) (r : Fin 8) (s : State) : Out :=
  serveTdi sid (fun _ => true) 0x07 (fun s =>
    modSecRgn r (fun y => { y with stream := none, noFw := false }) (setTdi r .unlocked s)) s

/-! ### Sealing (R245-R248) -/

/-- Does a queue hold a packet that is not dispatched: submitted and not fetched, or fetched and not started? -/
def undispatched (q : Queue) : Bool := q.latched != q.cons || q.pkts.any fun p => p.done.isNone && !p.started

/-- The pending offer of an owner (R243, R245). -/
def offerOf (s : State) (n : Fin 8) (owner : List Byte) : Option Offer :=
  s.sec.rgn[n].offer.filter fun o => o.owner == owner && o.gen == s.rgn.rgn[n].gen

/-- The first failing check of R245, then R109's; none where sealing may begin. -/
def sealCheck (n : Fin 8) (owner : List Byte) (s : State) : Option Nat :=
  if s.rgn.rgn[n].state ≠ .opened ∨ s.rgn.rgn[n].tearingDown = true then some Status.sealNotOpen
  else if ((allFin 4).any fun q => undispatched s.que[qIndex n q]) || (s.jobs.any fun j => j.ref.r == n && j.started) then
    some Status.sealBusy
  else if (offerOf s n owner).isNone then some Status.sealNoOffer
  else if s.noise.state = .failed then some Status.entropyFailure
  else none

/-- Steps 1-3 of Table 11-6: the offer is consumed, its owner and policy are recorded. -/
def startSeal (n : Fin 8) (owner : List Byte) (s : State) : State :=
  match offerOf s n owner with
  | none => s
  | some o => modSecRgn n (fun y => { y with
      sealing := true, gated := true, offer := none, owner := o.owner, hostIde := o.policy.getLsbD 0, ringOk := o.policy.getLsbD 1,
      attest := false }) s

/-- REGION_SEAL (R245). -/
def execRegionSeal (s : State) : Out :=
  maintCommand 0x42 (fun p s =>
    let n : Fin 8 := Fin.ofNat 8 (fieldAt p.bytes 16 1)
    let owner := slice p.bytes 32 32
    match sealCheck n owner s with
    | some st => maintDone p st s
    | none => maintStart p (startSeal n owner s)) s

/-- Frame of a page-table entry that is valid and maps a frame. -/
def entryFrame (pte : Nat) : Option Nat := if bit pte 0 && !bit pte 2 then some (bits pte 22 4) else none

/-- The frames of a region's device pages at sealing, by page: as the table maps them, else as claimed at creation. -/
def pageFrames (s : State) (n : Fin 8) (pages : Nat) : List Nat :=
  (List.range pages).map fun v => (entryFrame (tableEntry s (ctxOf n) v)).getD ((s.rgn.rgn[n].claimed).getD v 0)

/-- Entry v of a page table that gets tags (R220): a data page's tag frame and slot, nothing for a tag page. -/
def taggedEntry (frames : List Nat) (pages v pte : Nat) : Nat :=
  let data := pages - ceilDiv pages 16
  if data ≤ v then 0
  else match entryFrame pte with
    | some f =>
      if isStore f then pte
      else pte % 2 ^ 28 + frames.getD (data + v / 16) 0 * 2 ^ 28 + v % 16 * 2 ^ 47
    | none => pte

/-- R220: the table names the tag pages, the region's frames are emptied, and every data page is written with zeros and its tags
under the keys the context holds; cached entries are gone. -/
def layTags (n : Fin 8) (s : State) : State :=
  let c := ctxOf n
  let pages := s.mem.ctx[c].pages
  let frames := pageFrames s n pages
  let entries := (List.range pages).map fun v => taggedEntry frames pages v (tableEntry s c v)
  let base := s.mem.ctx[c].ptb
  let mine := (s.mem.owner.filter fun e => e.2 == n.val).map fun e => e.1
  let s := modMem (fun m => { physWrite m base (entries.flatMap (leBytes 8)) with
    tlb := m.tlb.filter fun t => t.ctx != c }) s
  let s := forEach mine (fun f => modMem (dropFrame f)) s
  let s := forEach entries (fun e s => match entryFrame e with
    | some f => modMem (zeroFrame f (pageTags s c e)) s
    | none => s) s
  modRgn n (fun r => { r with claimed := frames }) s

/-- Step 5: new keys (R218), tags and zeros (R220), NR_rgn (R117), no blob-tag key (R244). -/
def sealMemory (n : Fin 8) (s : State) : State :=
  let k := drawXts s
  let i := drbgDraw k.2
  let s := modCtx (ctxOf n) (fun x => { x with key := some k.1, integKey := some i.1, keyValid := true, tags := true }) i.2
  let s := modNoiseRgn n (fun x => { x with root := some (noiseRoot s.sec.rgn[n].owner) }) (layTags n s)
  putTagKey n none s

/-- Step 6: ct_mode on the region's Chamois tiles (R161). -/
def setCtMode (n : Fin 8) (s : State) : State :=
  forEach (regionUnits s.rgn.rgn[n]) (fun e s => match e with
    | .cham i => modCham i (fun t => { t with ctMode := true }) s
    | _ => s) s

/-- Steps 5-7: SEALED, a new seal_epoch, no offer left from before (R243), the save frames the region's own (R335), the completion; a VF FLR that waited
begins (R233). -/
def sealDone (n : Fin 8) (s : State) : State :=
  let s := ownSave n n.val (setCtMode n (sealMemory n s))
  let s := modSecRgn n (fun y => { y with sealing := false, epoch := y.epoch + 1 }) (lapseOffer n s)
  let s := failMaint 0x42 n Status.ok (modRgn n (fun r => { r with state := .sealed }) s)
  if s.rgn.rgn[n].flrWaits then startFlr n s else s

/-- SEAL_COMPLETE (R247): a measurement that does not match fails the seal as a region-level error; noise must be READY and
the Secure Markhor run. -/
def execSealComplete (r : Fin 8) (measured : Bool) (s : State) : Out :=
  if s.sec.rgn[r].sealing = false ∨ creators s false = false then .next s
  else if !measured then .next (settleAll (regionError r .sealMeasure noSite none s))
  else if drbgServes s 4 then .next (settleMaint (sealDone r s))
  else .next s

end Sys2Proof.Machine
end

