-- ==== Sys2Proof/Machine/Stag.lean ====
section
/-!
DEFINITION. The board controller and the test access port (17_connectors_electrical.md R405-R408; 05 R120): the MCTP
commands, the sensors, the TAP instructions.
-/
namespace Sys2Proof.Machine

/-! ### Stag's commands (R406) -/

/-- GET_STATE: a status byte, DEV_STATUS, MKH_FW_STAT, and 1 where the bypass is INSERT (layout: log entry 48). -/
def execGetState (s : State) : Out :=
  .next (answer ([0] ++ leBytes 4 (devStatus s) ++ leBytes 4 (fwStat s) ++ leBytes 1 (b2n s.ring.insert)) s)

/-- A cold reset that Stag applies, warned under R260; power-good after it is the COLD_RESET that follows. -/
def stagResets (s : State) : State := stagApplies .stag s.pwr.aux (warnAll s)

/-- STAG_COLD_RESET. -/
def execStagColdReset (s : State) : Out := .next (answer [0] (stagResets s))

/-- Bytes of a flash image replaced from an offset on; bytes between that nothing has written are 0 (log entry 38). -/
def flashWrite (img : List Byte) (ofs : Nat) (data : List Byte) : List Byte :=
  splice (img ++ List.replicate (ofs - img.length) 0) ofs data

/-- WRITE_BANK: 1-240 bytes inside the inactive bank, while start-up has FAILED; else REFUSED. -/
def execWriteBank (ofs : Nat) (data : List Byte) (s : State) : Out :=
  if s.dev.stage = .failed ∧ 1 ≤ data.length ∧ data.length ≤ 240 ∧ ofs + data.length ≤ 2 ^ 24 then
    .next (answer [0] { s with stag := { s.stag with
      bank := upd s.stag.bank (inactiveBank s) fun b => { b with img := flashWrite b.img ofs data } } })
  else .next (answer [2] s)

/-- COMMIT_BANK: the inactive bank is pending, and a cold reset follows. -/
def execCommitBank (s : State) : Out :=
  if s.dev.stage = .failed then
    .next (answer [0] (stagResets { s with
      stag := { s.stag with bank := upd s.stag.bank (inactiveBank s) fun b => { b with invalid := false }, pending := true },
      mkh := { s.mkh with pending := true } }))
  else .next (answer [2] s)

/-- PLDM_SENSOR_READ (R405, Table 17-5): the quantity that Stag measures, as 4 bytes; of another sensor an error (log entry
48). -/
def execPldmSensorRead (id : Nat) (measured : Int) (s : State) : Out :=
  if 1 ≤ id ∧ id ≤ 11 then .next (answer ([0] ++ leBytes 4 (BitVec.ofInt 32 measured).toNat) s)
  else .next (answer [0x80] s)

/-! ### The TAP (R407, R408) -/

/-- EXTEST, CLAMP and HIGHZ: a warned cold reset, after which the instruction holds the pins until the next cold reset. -/
def holdPins (t : TestMode) (s : State) : State :=
  let s := resetState false .stag s.pwr.aux (warnAll s)
  { s with dev := { s.dev with test := t } }

def execExtest (s : State) : Out := if s.dev.powered then .next (holdPins .extest s) else .next s
def execClamp (s : State) : Out := if s.dev.powered then .next (holdPins .clamp s) else .next s
def execHighz (s : State) : Out := if s.dev.powered then .next (holdPins .highz s) else .next s

/-- The bits that the TAP shifts out, first one first. -/
def shiftOut (b : List Bool) (s : State) : State := { s with out := { s.out with tap := b } }

/-- SAMPLE/PRELOAD. -/
def execSamplePreload (pins : List Bool) (s : State) : Out := .next (shiftOut pins s)
/-- IDCODE, least significant bit first. -/
def execIdcode (s : State) : Out := .next (shiftOut ((List.range 32).map fun i => bit Config.idcode i) s)
/-- BYPASS, and every instruction code not admitted: one bit, 0. -/
def execBypass (_code : Nat) (s : State) : Out := .next (shiftOut [false] s)

end Sys2Proof.Machine
end

