-- ==== Sys2Proof/Machine/RegRead.lean ====
section
/-!
DEFINITION. What every BAR0 register reads (18_register_index.md R410-R421; the field maps of the chapters): an observation
of the state. The reads with side effects (R414) are commands of their own.
-/
namespace Sys2Proof.Machine

/-- A word from its fields: (value, lowest bit). -/
def pack (l : List (Nat × Nat)) : Nat := (l.map fun p => p.1 * 2 ^ p.2).sum % 2 ^ 32
/-- The low or high word of a 64-bit value. -/
def half (v : Nat) (hi : Bool) : Nat := bits v (if hi then 63 else 31) (if hi then 32 else 0)
/-- A bit as a value. -/
def flag (b : Bool) (i : Nat) : Nat × Nat := (b2n b, i)
/-- The code of an optional region or context, 0xF for none. -/
def codeOf {k : Nat} (o : Option (Fin k)) : Nat := match o with
  | some n => n.val
  | none => 15

/-- Do the data-bearing fields of region n read 0 through a view (R249)? -/
def hidden (s : State) (w : View) (n : Fin 8) : Bool :=
  ctxSealed s (ctxOf n) && !(viewRegion w == some n && s.sec.rgn[n].tdi == .run)
/-- The same of a tile's unit. -/
def hiddenUnit (s : State) (w : View) (e : Eng) : Bool := match engRegion s e with
  | some n => hidden s w n
  | none => false
/-- A field that reads 0 where it is hidden. -/
def veil (h : Bool) (v : Nat) : Nat := if h then 0 else v

/-! ### The blocks; `o` is the offset in the block -/

def readDevBlock (s : State) (o : Nat) : Nat :=
  if o = 0x00 then 0x00B00640
  else if o = 0x04 then devStatus s
  else if o = 0x08 then pack [(if s.dev.ready then s.dev.bootMs else 0, 0), (s.dev.hbmMs, 16)]
  else if 0x10 ≤ o ∧ o < 0x20 then fieldAt serialBytes (o - 0x10) 4
  else if o = 0x20 then s.dev.scratch.toNat
  else 0

def readTick (s : State) (w : View) (o : Nat) : Nat :=
  let t := s.tick
  if o = 0x00 then pack [(sourceCode t.source, 0), (t.inSel, 2), flag t.inEdge 4]
  else if o = 0x04 then pack [(lockCode t.lock, 0), (t.tnEpoch.toNat, 16)]
  else if o = 0x08 then half t.tn.toNat false
  else if o = 0x0C then t.latch[viewIdx w].toNat
  else if o = 0x10 then pack [(t.inDiv, 0), (t.inPhase, 16)]
  else if o = 0x14 then ofSigned 16 t.inOfs
  else if o = 0x18 then pack [(ofSigned 16 t.phaseErr, 0), (ofSigned 16 t.trim, 16)]
  else if 0x100 ≤ o ∧ o < 0x200 then
    let r := t.rgn[Fin.ofNat 8 ((o - 0x100) / 0x20)]
    match o % 0x20 with
    | 0x00 => pack [flag r.ticking 0, flag r.continuing 1, flag r.evidActiveWrite 2, (r.consec, 8), (r.limit, 12)]
    | 0x04 => r.overruns
    | 0x08 => half r.lastOverrunTn false
    | 0x0C => half r.lastOverrunTn true
    | 0x10 => pack [(r.lastDoneSlot, 0), (r.maxDoneSlot, 8)]
    | _ => 0
  else 0

/-- The registers of output n. -/
def readHalyOut (x : HalyOut) (o : Nat) : Nat :=
  match o with
  | 0x00 => half x.start.toNat false
  | 0x04 => half x.start.toNat true
  | 0x08 => pack [(x.offset, 0), (outModeCode x.mode, 12), (x.endSel, 14), flag x.endEn 16, flag x.endEdge 17]
  | 0x0C => pack [(x.widthTicks, 0), (x.widthCclk, 16)]
  | 0x10 => x.period
  | 0x14 => x.count
  | 0x1C => pack [(x.stat, 0), (x.armErr, 2), (x.pulsesDone, 8)]
  | _ => 0

/-- The registers of input n. -/
def readHalyIn (x : HalyIn) (o : Nat) : Nat :=
  match o with
  | 0x00 => pack [(x.edges, 0), (x.filter, 8)]
  | 0x08 => match x.fifo.head? with | some t => stampLo t | none => 0
  | 0x0C => match x.fifo.head? with | some t => stampHi t | none => 0
  | 0x10 => pack [(x.fifo.length, 0), (x.lostCount, 16)]
  | _ => 0

def readHaly (s : State) (w : View) (o : Nat) : Nat :=
  let h := s.haly
  if o = 0x00 then b2n h.outEnable
  else if o = 0x08 then pack ((allFin 8).map fun n => (ownerCode h.out[n].owner, 4 * n.val))
  else if o = 0x0C then pack ((allFin 4).map fun n => (ownerCode h.inp[n].owner, 4 * n.val))
  else if 0x100 ≤ o ∧ o < 0x200 then
    let x := h.out[Fin.ofNat 8 ((o - 0x100) / 0x20)]
    if ownsLine w x.owner then readHalyOut x (o % 0x20) else 0
  else if 0x200 ≤ o ∧ o < 0x280 then
    let x := h.inp[Fin.ofNat 4 ((o - 0x200) / 0x20)]
    if ownsLine w x.owner then readHalyIn x (o % 0x20) else 0
  else 0

/-- The link direction that [9:0] of a select register names. -/
def selLink (v : Nat) : Fin 768 := Fin.ofNat 768 (4 * (16 * bits v 7 4 + bits v 3 0) + bits v 9 8)

def readMesh (s : State) (o : Nat) : Nat :=
  let m := s.mesh
  let l := m.links[selLink m.linkSel]
  match o with
  | 0x00 => pack [flag m.testDone 0, flag m.testPass 1]
  | 0x10 => m.stAddr
  | 0x14 =>
    let i := selLink m.stAddr
    let active := match linkTag s i.val with
      | some n => s.rgn.rgn[n].activeBank
      | none => false
    let bank := if active != bit m.stAddr 18 then m.links[i].bank1 else m.links[i].bank0
    match bank.find? fun e => e.slot == bits m.stAddr 17 10 with
    | some e => pack [(e.src, 0), (e.flits, 3)]
    | none => 0
  | 0x20 => m.linkSel
  | 0x24 =>
    let t := if linkExists (selLink m.linkSel).val then linkTag s (selLink m.linkSel).val else none
    pack [(codeOf t, 0), flag t.isSome 4]
  | 0x28 => pack [(l.vc0Empty, 0), (l.vc0Overflow, 16)]
  | 0x2C => pack [(l.ceCount, 0), (l.wallDrop, 16)]
  | _ => 0

/-- The segment direction that RIM_RSV_SEL names. -/
def selSeg (v : Nat) : Fin 48 := Fin.ofNat 48 (2 * bits v 4 0 + bits v 5 5)

def readRim (s : State) (o : Nat) : Nat :=
  let r := s.rim
  if o = 0x00 then pack [flag r.testDone 0, flag r.testPass 1]
  else if o = 0x10 then r.rsvSel
  else if 0x20 ≤ o ∧ o < 0x30 then
    pack ((List.range 8).map fun j => (codeOf (r.owner[selSeg r.rsvSel][Fin.ofNat 32 (2 * (o - 0x20) + j)]), 4 * j))
  else if o = 0x30 then r.ceCount[selSeg r.rsvSel]
  else 0

def readRgn (s : State) (o : Nat) : Nat :=
  if o < 0x200 then
    let r := s.rgn.rgn[Fin.ofNat 8 (o / 0x40)]
    match o % 0x40 with
    | 0x00 => pack [(r.bx0, 0), (r.by0, 2), (r.bwM1, 4), (r.bhM1, 6), (r.cp, 8), (r.rimUnits, 16)]
    | 0x04 => r.segMask
    | 0x08 => pack [(rstateCode r.state, 0), flag r.tearingDown 3, flag r.activeBank 4]
    | 0x0C => r.gen.toNat
    | _ => 0
  else if o = 0x400 then pack ((allFin 8).map fun m => (codeOf s.rgn.mbOwner[m], 4 * m.val))
  else 0

def readQue (s : State) (o : Nat) : Nat :=
  if 33 * 0x40 ≤ o then 0 else
  let q := s.que[Fin.ofNat 33 (o / 0x40)]
  match o % 0x40 with
  | 0x00 => queCtrl q
  | 0x04 => queStat q
  | 0x08 => half q.base.toNat false
  | 0x0C => half q.base.toNat true
  | 0x10 => half q.cbase.toNat false
  | 0x14 => half q.cbase.toNat true
  | 0x18 => q.progress.toNat
  | 0x1C => q.latched.toNat
  | 0x20 => q.cons.toNat
  | 0x24 => q.cdone.toNat
  | 0x28 => q.ccons.toNat
  | 0x2C => pack [(q.dbIgnored, 0), (q.staleGen, 16)]
  | _ => 0

/-- EVT_LOCK (Table 13-10). -/
def lockWord (l : LockReg) : Nat :=
  let h := match l.holder with
    | some k => [(k.q.val, 3), (k.r.val, 5)]
    | none => [(15, 5)]
  pack ([(lstateCode l.state, 0), flag (!l.waiters.isEmpty) 2, (l.epoch.toNat, 16)] ++ h)

/-- The job whose program EVT_PC and EVT_CW of a queue show: the oldest one not staged, else the staged one. -/
def queueJob (s : State) (n : Fin 8) (q : Fin 4) : Option Job :=
  let l := s.jobs.filter fun j => j.ref.r == n && j.ref.q == q
  (l.find? Job.started).orElse fun _ => l.head?

/-- The wait code of EVT_PC. -/
def waitCode : Wait → Nat
  | .none => 0 | .chain _ => 1 | .event _ _ _ => 2 | .fence _ _ => 3 | .lock _ => 4 | .tick _ => 5 | .map => 6

/-- EVT_PC (Table 13-10); a job that drains is IDLE, one between attempts is STAGING. -/
def pcWord (j : Job) : Nat :=
  let st := match j.phase with
    | .staged => 1
    | .restoring => 1
    | .running => if j.wait = .none then 2 else 3
    | .ending => 4
    | .stopped => 0
  pack [(j.pc, 0), (st, 16), (waitCode j.wait, 19)]

def readEvt (s : State) (o : Nat) : Nat :=
  if o < 0x8000 then
    let n : Fin 8 := Fin.ofNat 8 (o / 0x1000)
    let r := o % 0x1000
    let x := s.evt.rgn[n]
    if r < 0x400 then eventWord x.event[Fin.ofNat 256 (r / 4)]
    else if r < 0x600 then half (x.fence[Fin.ofNat 64 ((r - 0x400) / 8)]).toNat (r % 8 == 4)
    else if r < 0x680 then lockWord x.lock[Fin.ofNat 32 ((r - 0x600) / 4)]
    else if 0x700 ≤ r ∧ r < 0x710 then match queueJob s n (Fin.ofNat 4 ((r - 0x700) / 4)) with
      | some j => pcWord j
      | none => 0
    else if 0x710 ≤ r ∧ r < 0x720 then match queueJob s n (Fin.ofNat 4 ((r - 0x710) / 4)) with
      | some j => j.cw.toNat
      | none => 0
    else 0
  else if o < 0x8040 then lockWord s.evt.dlock[Fin.ofNat 16 ((o - 0x8000) / 4)]
  else 0

/-- Word j of a log record. -/
def recWord (r : Option ErrRec) (j : Nat) : Nat := match r with
  | some r => ([r.w0, r.w1, r.w2, r.w3].getD j 0).toNat
  | none => 0

/-- ERR_RGN_STAT (Table 14-6). -/
def errRgnStat (s : State) (n : Fin 8) : Nat :=
  let st := s.rgn.rgn[n].state
  let recov := if st = .disabled then 3 else if st = .faulted then 2 else if (firstRecovery s n).isSome then 1 else 0
  let later := (s.jobs.filter fun j => j.ref.r == n && j.phase == .stopped && !j.drainOn).length
  pack [(recov, 0), (min 31 later, 2), (s.err.rgn[n].count, 16)]

/-- ERR_JOB of region queue i: progress, idle count, budget of its most recently started job. -/
def jobRegs (s : State) (i : Fin 32) : Nat × Nat × Nat :=
  match s.jobs.reverse.find? fun j => j.started && 4 * j.ref.r.val + j.ref.q.val == i.val with
  | some j => (j.progress.toNat, j.idle, j.budget)
  | none => s.err.job[i]

def readErr (s : State) (o : Nat) : Nat :=
  let e := s.err
  if o = 0x00 then
    pack ([flag e.rimUe 0, flag e.lockstep 1, flag e.entropy 2, flag e.maintCp 3, (e.dev.count, 16)]
      ++ (allFin 4).map fun k => flag e.hbmUe[k] (4 + k.val))
  else if 0x10 ≤ o ∧ o < 0x20 then recWord e.dev.first ((o - 0x10) / 4)
  else if 0x20 ≤ o ∧ o < 0x30 then recWord e.dev.next ((o - 0x20) / 4)
  else if 0x100 ≤ o ∧ o < 0x500 then
    let n : Fin 8 := Fin.ofNat 8 ((o - 0x100) / 0x80)
    let r := (o - 0x100) % 0x80
    if r = 0x00 then errRgnStat s n
    else if r = 0x04 then e.drainTicks[n]
    else if 0x10 ≤ r ∧ r < 0x20 then recWord e.rgn[n].first ((r - 0x10) / 4)
    else if 0x20 ≤ r ∧ r < 0x30 then recWord e.rgn[n].next ((r - 0x20) / 4)
    else 0
  else if 0x1000 ≤ o ∧ o < 0x1200 then
    let j := jobRegs s (Fin.ofNat 32 ((o - 0x1000) / 0x10))
    match o % 0x10 with
    | 0x0 => half j.1 false
    | 0x4 => half j.1 true
    | 0x8 => j.2.1
    | _ => j.2.2
  else 0

def pwrStatus (s : State) : Nat :=
  let p := s.pwr
  pack [flag p.aux 0, flag p.capForced 1, flag p.admitHold 2, flag (p.rgn.toList.any PwrRgn.waits) 3, (p.lastCode, 4),
        (p.trips, 16)]

/-- Is a tile's clock stopped now (R382)? A Herd tile's runs while a ticking job names it; another's while it is busy. -/
def clockStopped (s : State) (x y : Nat) : Bool :=
  match cutUnit x y with
  | none => s.pwr.tile[tileIdx x y].off
  | some e =>
    (engTile s e).off || (engTile s e).cut || (engRegion s e).isNone ||
      match e with
      | .herd h => !((allFin 8).any fun n => s.tick.rgn[n].ticking && (planTiles s n).contains h)
      | e => !unitBusy s e

def readPwr (s : State) (o : Nat) : Nat :=
  let p := s.pwr
  if o = 0x00 then pwrStatus s
  else if o = 0x04 then p.capW
  else if o = 0x08 then chargedPower s % 2 ^ 18
  else if o = 0x0C then p.in1ms
  else if o = 0x10 then p.in1s
  else if o = 0x20 then p.tileSel
  else if o = 0x24 then
    let t := p.tile[tileIdx (selX s) (selY s)]
    pack [flag t.off 0, flag (clockStopped s (selX s) (selY s)) 1, flag t.cut 2, (t.duty, 3), (ofSigned 16 t.tj, 16)]
  else if 0x100 ≤ o ∧ o < 0x180 then
    let n : Fin 8 := Fin.ofNat 8 ((o - 0x100) / 0x10)
    let r := p.rgn[n]
    match o % 0x10 with
    | 0x0 => pack [(r.level, 0), (regionDuty s n, 5), flag ((decide (0 < r.level) && decide (r.level < 16)) || r.waits) 10]
    | 0x4 => r.skip
    | _ => 0
  else 0

def readNoise (s : State) (o : Nat) : Nat :=
  let n := s.noise
  let x := n.src[Fin.ofNat 16 n.srcSel]
  if o = 0x00 then
    pack [(nstateCode n.state, 0), flag n.startupDone 2, flag n.drbg.isSome 3, (n.failSrc, 4), (n.failCause, 8),
          (n.srcOk.toNat, 16)]
  else if o = 0x04 then half n.readyTn false
  else if o = 0x08 then half n.readyTn true
  else if o = 0x0C then n.freshLog2
  else if o = 0x10 then n.srcSel
  else if o = 0x14 then pack [(x.lastOnes, 0), (x.maxRun, 16)]
  else if o = 0x18 then x.samples.toNat
  else if o = 0x1C then n.reseeds
  else if 0x100 ≤ o ∧ o < 0x180 ∧ o % 0x10 = 0 then
    let r := n.rgn[Fin.ofNat 8 ((o - 0x100) / 0x10)]
    pack [(r.mode, 0), flag r.keyWait 2, (r.keyIndex % 2 ^ 24, 8)]
  else 0

/-- The ANL registers of region n, through a view with its own select registers (R416). -/
def readAnl (s : State) (w : View) (n : Fin 8) (o : Nat) : Nat :=
  let a := s.anl.rgn[n]
  let h := hidden s w n
  let pf := (viewRegion w).isNone
  let chainSel := if pf then a.chainSelPf else a.chainSelVf
  let schedSel := if pf then a.schedSelPf else a.schedSelVf
  let c := a.chains.find? fun c => c.idx == chainSel
  let of (f : Chain → Nat) : Nat := match c with
    | some c => veil h (f c)
    | none => 0
  let sched := if bit schedSel 8 then (match s.herd.job[n].shadow with | some p => p.sched | none => []) else a.sched
  let ent := sched.getD (schedSel % 256) (0, 0)
  match o with
  | 0x00 => pack [flag a.active 0, flag a.merging 1, flag a.schedBank 2, (a.sched.length, 3), ((readAcb a.acb).resK, 12)]
  | 0x04 => pack [(a.betaSched, 0), (of Chain.beta, 16)]
  | 0x08 => chainSel
  | 0x0C => pack [(of fun c => c.shown.offset, 0), (of fun c => (c.res.filter ResEntry.valid).length, 16),
                  (of fun c => b2n c.shown.decaying, 23), flag c.isSome 24]
  | 0x10 => pack [(of fun c => c.shown.quiet, 0), (of fun c => c.shown.grow, 16)]
  | 0x14 => half (of fun c => ofSigned 64 c.shown.best) false
  | 0x18 => half (of fun c => ofSigned 64 c.shown.best) true
  | 0x1C => schedSel
  | 0x20 => half ent.1 false
  | 0x24 => pack [(bits ent.1 47 32, 0), (ent.2, 16)]
  | 0x28 => veil h a.dup
  | 0x2C => veil h a.merged
  | _ => 0

def readHerd (s : State) (w : View) (i : Fin 64) (o : Nat) : Nat :=
  let t := s.herd.tile[i]
  let h := hiddenUnit s w (.herd i)
  let x := t.slices.getD t.sliceSel[viewIdx w] { flips := 0, flipsNow := 0, q := 0, fieldSat := false, energySat := false }
  if o < 0x40 then fieldAt t.hcb o 4
  else if o < 0x80 then fieldAt t.shadow (o - 0x40) 4
  else match o with
    | 0x80 => pack [(hstateCode t.state, 0), flag t.sweepDone 2, flag t.activeUnary 3, flag (t.swap.isSome || t.held.isSome) 4, (t.cls, 5),
                    flag t.cfgBank 8]
    | 0x84 => t.draws
    | 0x90 => t.sliceSel[viewIdx w]
    | 0x94 => veil h x.flips
    | 0x98 => veil h (half (ofSigned 64 x.q) false)
    | 0x9C => veil h (bits (ofSigned 64 x.q) 39 32)
    | 0xA0 => t.sweeps.toNat
    | 0xA4 => pack [(veil h t.fieldSat, 0), (veil h t.loadClamp, 16)]
    | 0xA8 => t.records.toNat
    | _ => 0

def readIbexBlock (s : State) (w : View) (i : Fin 48) (o : Nat) : Nat :=
  let x := s.ibex[i]
  let h := hiddenUnit s w (.ibex i)
  match o with
  | 0x00 => pack [(istateCode x.state, 0), flag x.fieldRsv.isSome 2, (x.queue.length, 8)]
  | 0x04 => x.ops.toNat
  | 0x08 => pack [(veil h x.satCount, 0), (veil h x.nanCount, 16)]
  | 0x0C => x.busyCclk / 1024 % 2 ^ 32
  | 0x10 => x.faultCause
  | _ => 0

/-- Table 7-5; spill_recv counts the partials of the spill that waits at the head of the queue, 0 with none. -/
def readCham (s : State) (w : View) (i : Fin 48) (o : Nat) : Nat :=
  let x := s.cham[i]
  let received := match spillWaiting s i with
    | some d => (x.slots.filter fun y => y.job == d.job).length
    | none => 0
  match o with
  | 0x00 => pack [(cstateCode x.state, 0), flag x.ctMode 2, (x.queue.length, 8), (received, 13)]
  | 0x04 => x.instret.toNat
  | 0x08 => x.cause.toNat
  | 0x0C => veil (hiddenUnit s w (.cham i)) x.tval.toNat
  | _ => 0

def readKudu (s : State) (w : View) (m : Fin 8) (o : Nat) : Nat :=
  let x := s.kudu[m]
  match o with
  | 0x00 =>
    pack ([flag x.execLoaded 0, (x.queue.length, 16), flag x.merging 23, flag x.execLoaded 24]
      ++ ((allFin 16).filter fun h => h != 0).map fun h => flag x.hart[h].isSome h.val)
  | 0x04 => x.done.toNat
  | 0x08 => pack [(x.cause.toNat, 0), (x.trapHart, 8)]
  | 0x0C => veil (hiddenUnit s w (.kudu m)) x.tval.toNat
  | _ => 0

def readPeBlock (s : State) (w : View) (e : Fin 4) (o : Nat) : Nat :=
  let x := s.pe[e]
  let d := x.pset[Fin.ofNat 4 x.psetSel[viewIdx w]]
  let of (f : List Byte → Nat) : Nat := match d with
    | some d => f d
    | none => 0
  match o with
  | 0x00 => pack [(codeOf x.owner, 0), flag x.lendErr 4]
  | 0x04 => pack ([(pstateCode x.state, 0), (x.queue.length, 2), flag x.tagKey.isSome 11]
      ++ (allFin 4).map fun k => flag x.pset[k].isSome (7 + k.val))
  | 0x08 => x.ops.toNat
  | 0x0C => x.faultCause
  | 0x10 => x.lastT % 2 ^ 32
  | 0x14 => half x.lastSerial false
  | 0x18 => half x.lastSerial true
  | 0x20 => x.psetSel[viewIdx w]
  | 0x24 => of fun d => fieldAt d 0 4
  | 0x28 => of fun d => pack [(fieldAt d 5 1, 0), (fieldAt d 6 1, 8), (fieldAt d 7 1, 16), (fieldAt d 8 1, 24)]
  | 0x2C => of fun d => pack [(fieldAt d 9 1, 0), (fieldAt d 4 1 % 4, 8)]
  | 0x30 => of fun d => fieldAt (chainHash d) 0 4
  | 0x34 => of fun d => fieldAt (chainHash d) 4 4
  | _ => 0

/-- The MEM_CTX registers of context c. -/
def readCtx (s : State) (c : Fin 9) (o : Nat) : Nat :=
  let x := s.mem.ctx[c]
  match o with
  | 0x00 => pack [(x.stackMask.toNat, 0), flag x.tags 4, flag x.keyValid 5]
  | 0x04 => x.pages
  | 0x08 => half x.ptb false
  | 0x0C => half x.ptb true
  | 0x10 => half x.faultAddr false
  | 0x14 => pack [(bits x.faultAddr 47 32, 0), (x.faultCause, 16), flag x.faultValid 31]
  | 0x18 => x.integ
  | 0x1C => x.emitDrop
  | _ => 0

def readMem (s : State) (o : Nat) : Nat :=
  let m := s.mem
  if o < 0x40 ∧ o % 0x10 = 0 then
    let k := m.stack[Fin.ofNat 4 (o / 0x10)]
    pack [flag k.trained 0, flag k.ue 1, (k.ceCount, 16)]
  else if o = 0x100 then pack [flag (m.ctx.toList.any MemCtx.invBusy) 31]
  else if o = 0x200 then m.frameSel
  else if o = 0x204 then frameOwner m m.frameSel
  else if o = 0x300 then m.winSel
  else if o = 0x304 then match m.win.find? fun e => e.entry == m.winSel with
    | some e => pack [flag e.valid 0, (e.ctx, 1), (e.page, 5)]
    | none => 0
  else if o = 0x400 then pack [(m.link.1, 0), (m.link.2.1, 4), (m.link.2.2, 10)]
  else if 0x1000 ≤ o ∧ o < 0x1240 then readCtx s (Fin.ofNat 9 ((o - 0x1000) / 0x40)) (o % 0x40)
  else 0

def readSec (s : State) (o : Nat) : Nat :=
  let x := s.sec
  if o = 0x00 then
    pack [flag x.up 0, flag x.aliasOk 1, (x.sessions.length, 2), ((x.stream.toList.filter Stream.secure).length, 6),
          flag (fwLocked s) 10]
  else if o = 0x04 then pack [(x.gateX, 0), (x.gateY, 4), (x.denied, 16)]
  else if o = 0x08 then pack [(x.withdrawals, 0), (x.lastCause, 16), flag x.lastWarned 18]
  else if 0x100 ≤ o ∧ o < 0x300 then
    let n : Fin 8 := Fin.ofNat 8 ((o - 0x100) / 0x40)
    let r := x.rgn[n]
    let k := o % 0x40
    if k = 0x00 then
      pack [flag (s.rgn.rgn[n].state == .sealed) 0, flag r.sealing 1, flag r.offer.isSome 2, flag r.attest 3,
            flag r.hostIde 4, flag r.ringOk 5, flag r.tagKey.isSome 6, (tdiCode r.tdi, 8), (codeOf r.stream, 16)]
    else if k = 0x04 then r.epoch.toNat
    else if k = 0x08 then r.withdrawals
    else if 0x20 ≤ k then fieldAt (ownerMeas s n) (k - 0x20) 4
    else 0
  else if 0x400 ≤ o ∧ o < 0x480 ∧ o % 0x10 = 0 then
    let r := x.stream[Fin.ofNat 8 ((o - 0x400) / 0x10)]
    pack [(r.id.toNat, 0), flag r.secure 8, (r.keySet.val, 9), (r.fn.val, 12), (r.fails, 16)]
  else 0

def readRing (s : State) (o : Nat) : Nat :=
  let r := s.ring
  if o = 0x00 then
    pack [(ringStCode r.state, 0), flag r.insert 2, flag r.line 3, flag r.lead 4, (r.position, 5),
          (((List.range 16).filter fun i => r.present.getLsbD i).length, 9), (r.refPort, 14), (ofSigned 8 r.tnSkew, 16),
          (r.joinErr, 24)]
  else if o = 0x04 then r.id.toNat
  else if o = 0x08 then r.present.toNat
  else if o = 0x0C then pack [(r.noStream, 0), (r.unreachable, 16)]
  else if 0x100 ≤ o ∧ o < 0x180 then
    let p := r.port[Fin.ofNat 2 ((o - 0x100) / 0x40)]
    let k := o % 0x40
    if k = 0x00 then pack [(linkStCode p.link, 0), (p.peerPos, 2), flag p.attested 6, flag p.measMatch 7]
    else if k = 0x04 then p.delay
    else if k = 0x08 then p.fecCorr.toNat
    else if k = 0x0C then pack [(p.crcFail, 0), (p.retries, 16)]
    else if k = 0x10 then p.downs
    else if 0x20 ≤ k ∧ k < 0x30 then fieldAt p.serial (k - 0x20) 4
    else 0
  else if 0x400 ≤ o ∧ o < 0x500 then
    let x := r.rgn[Fin.ofNat 8 ((o - 0x400) / 0x20)]
    match o % 0x20 with
    | 0x00 => pack [(x.rsvUp, 0), (x.rsvDown, 8), (x.stream, 16), flag x.sealed 24, flag x.keyOk 25, flag x.rsvErr 26]
    | 0x04 => x.stale
    | _ => 0
  else 0

def readMkh (s : State) (o : Nat) : Nat :=
  let m := s.mkh
  if o = 0x00 then fwStat s
  else if o = 0x04 then m.release.toNat
  else if o = 0x10 then m.measSel
  else if 0x20 ≤ o ∧ o < 0x40 then fieldAt m.meas[Fin.ofNat 8 m.measSel] (o - 0x20) 4
  else if 0x100 ≤ o ∧ o < 0x118 then
    let i := (o - 0x100) / 4
    let c := m.cp[Fin.ofNat 6 i]
    pack [flag c.online 0, (c.load, 1), flag (i == 1) 3, (c.regions.toNat, 4), (c.offlineCause, 12)]
  else if o = 0x200 then pack [flag m.lockstepOk 0, (m.mismatch, 16)]
  else 0

/-- A word of a function's MSI-X table, or of its PBA, in which no message waits (log entry 49). -/
def readMsix (s : State) (fn : Fin 9) (o : Nat) : Nat :=
  match s.pcie.msixTab.find? fun e => e.1 == fn.val && e.2.1 == o with
  | some e => e.2.2.toNat
  | none => 0

/-! ### The views -/

/-- A block other than DEV of PF BAR0 (Table 18-1). -/
def readPfBlocks (s : State) (o : Nat) : Nat :=
  let w : View := .pf
  if o < 0x20000 then readTick s w (o - 0x10000)
  else if o < 0x30000 then readHaly s w (o - 0x20000)
  else if o < 0x40000 then readMesh s (o - 0x30000)
  else if o < 0x50000 then readRgn s (o - 0x40000)
  else if o < 0x60000 then readRim s (o - 0x50000)
  else if o < 0x80000 then 0
  else if o < 0x90000 then readQue s (o - 0x80000)
  else if o < 0xA0000 then readEvt s (o - 0x90000)
  else if o < 0xB0000 then readErr s (o - 0xA0000)
  else if o < 0xC0000 then readPwr s (o - 0xB0000)
  else if o < 0xD0000 then readNoise s (o - 0xC0000)
  else if o < 0xD0200 then readAnl s w (Fin.ofNat 8 ((o - 0xD0000) / 0x40)) (o % 0x40)
  else if o < 0x100000 then 0
  else if o < 0x140000 then readHerd s w (Fin.ofNat 64 ((o - 0x100000) / 0x1000)) (o % 0x1000)
  else if o < 0x170000 then readIbexBlock s w (Fin.ofNat 48 ((o - 0x140000) / 0x1000)) (o % 0x1000)
  else if o < 0x180000 then 0
  else if o < 0x1B0000 then readCham s w (Fin.ofNat 48 ((o - 0x180000) / 0x1000)) (o % 0x1000)
  else if o < 0x1C0000 then 0
  else if o < 0x1E0000 then readKudu s w (Fin.ofNat 8 ((o - 0x1C0000) / 0x4000)) (o % 0x4000)
  else if o < 0x200000 then 0
  else if o < 0x240000 then readPeBlock s w (Fin.ofNat 4 ((o - 0x200000) / 0x10000)) (o % 0x10000)
  else if o < 0x300000 then 0
  else if o < 0x310000 then readMem s (o - 0x300000)
  else if o < 0x400000 then 0
  else if o < 0x410000 then readSec s (o - 0x400000)
  else if o < 0x500000 then 0
  else if o < 0x510000 then readRing s (o - 0x500000)
  else if o < 0x600000 then 0
  else if o < 0x610000 then readMkh s (o - 0x600000)
  else if 0xF00000 ≤ o ∧ o < 0xF00400 then readMsix s 0 (o - 0xF00000)
  else 0

/-- PF BAR0: before ready, only DEV reads (R391). -/
def readPf (s : State) (o : Nat) : Nat :=
  if o < 0x10000 then readDevBlock s o else if s.dev.ready then readPfBlocks s o else 0

/-- The tile window of region n's VF view (R420, Table 18-5). -/
def readWindow (s : State) (w : View) (n : Fin 8) (o : Nat) : Nat :=
  let v := s.pcie.tileSel[n]
  let r := s.rgn.rgn[n]
  let lx := bits v 7 4
  let ly := bits v 11 8
  match bits v 2 0 with
  | 0 => if !r.holds lx ly then 0 else match unitOf r lx ly with
    | .herd i => readHerd s w i o
    | _ => 0
  | 1 => if !r.holds lx ly then 0 else match unitOf r lx ly with
    | .ibex i => readIbexBlock s w i o
    | _ => 0
  | 2 => if !r.holds lx ly then 0 else match unitOf r lx ly with
    | .cham i => readCham s w i o
    | _ => 0
  | 3 => match r.mbs[bits v 14 12]? with
    | some m => readKudu s w m o
    | none => 0
  | 4 =>
    let e : Fin 4 := Fin.ofNat 4 (bits v 17 16)
    if s.pe[e].owner = some n then readPeBlock s w e o else 0
  | _ => 0

/-- The VF view of region n (Table 18-3). -/
def readVfOpen (s : State) (w : View) (n : Fin 8) (o : Nat) : Nat :=
  let k := n.val
  if o = 0x00 then devStatus s
  else if o = 0x08 then pwrStatus s
  else if o = 0x10 ∨ o = 0x14 then readPwr s (0x100 + 0x10 * k + (o - 0x10))
  else if o = 0x20 then readNoise s 0
  else if o = 0x24 then readNoise s (0x100 + 0x10 * k)
  else if o = 0x30 then readSec s 0
  else if o = 0x40 then readRing s 0
  else if o = 0x44 then readRing s 8
  else if o = 0x50 ∨ o = 0x54 then readTick s w (0x08 + (o - 0x50))
  else if 0x100 ≤ o ∧ o < 0x114 then readTick s w (0x100 + 0x20 * k + (o - 0x100))
  else if 0x200 ≤ o ∧ o < 0x210 then readRgn s (0x40 * k + (o - 0x200))
  else if 0x300 ≤ o ∧ o < 0x320 then
    if o = 0x308 ∨ o = 0x30C ∨ o = 0x318 then 0 else readCtx s (ctxOf n) (o - 0x300)
  else if 0x400 ≤ o ∧ o < 0x440 then readSec s (0x100 + 0x40 * k + (o - 0x400))
  else if 0x500 ≤ o ∧ o < 0x508 then readRing s (0x400 + 0x20 * k + (o - 0x500))
  else if 0x600 ≤ o ∧ o < 0x630 then readAnl s w n (o - 0x600)
  else if 0x700 ≤ o ∧ o < 0x730 then readErr s (0x100 + 0x80 * k + (o - 0x700))
  else if 0x780 ≤ o ∧ o < 0x7C0 then readErr s (0x1000 + 0x40 * k + (o - 0x780))
  else if 0x800 ≤ o ∧ o < 0x900 then readQue s (0x100 * k + (o - 0x800))
  else if 0x1000 ≤ o ∧ o < 0x1720 then readEvt s (0x1000 * k + (o - 0x1000))
  else if 0x1800 ≤ o ∧ o < 0x1840 then readEvt s (0x8000 + (o - 0x1800))
  else if 0x2000 ≤ o ∧ o < 0x2180 then readHaly s w (0x100 + (o - 0x2000))
  else if o = 0x3000 then s.pcie.tileSel[n]
  else if 0x4000 ≤ o ∧ o < 0x5000 then readWindow s w n (o - 0x4000)
  else if 0xE000 ≤ o ∧ o < 0xE400 then readMsix s (vfOf n) (o - 0xE000)
  else 0

/-- A VF's BAR0: of a FREE or FORMING region only RGN_STAT reads (R225); a TDI refuses requests outside its stream (R252). -/
def readVf (s : State) (w : View) (n : Fin 8) (o : Nat) : Nat :=
  let st := s.rgn.rgn[n].state
  if !tdiAdmits s w then 0
  else if o = 0x00 then (if st = .free ∨ st = .forming then 0 else devStatus s)
  else if !s.dev.ready then 0
  else if (st = .free ∨ st = .forming) ∧ o ≠ 0x208 then 0
  else readVfOpen s w n o

/-- What a 32-bit read of the register at a BAR0 offset of a view returns; at an offset that is no multiple of 4 there is no
register, and the function's value 0 stands for no answer (`barRead` admits no such read; log entry 52). -/
def regRead (w : View) (o : Nat) (s : State) : Nat :=
  if o % 4 ≠ 0 then 0
  else match viewRegion w with
    | none => readPf s o
    | some n => readVf s w n o

/-- How a BAR0 read completes: with data, with Unsupported Request, or in a way that the spec leaves open. -/
inductive BarAnswer where
  | data (v : Nat)
  | unsupported
  | unstated
deriving DecidableEq, Repr

/-- What a BAR0 read of `width` bits returns (R12): a 64-bit read both registers, one narrower than 32 bits the addressed bytes
of its register; Unsupported Request where the TDI refuses it (R252). A read that is misaligned or of another width, which
software must not make, has no stated answer (DESIGN CHOICE, log entry 52). A read of a register with a side effect is a command
of its own (R414). -/
def barRead (w : View) (o width : Nat) (s : State) : BarAnswer :=
  if !tdiAdmits s w then .unsupported
  else if width = 64 ∧ o % 8 = 0 then .data (regRead w o s + regRead w (o + 4) s * 2 ^ 32)
  else if width = 32 ∧ o % 4 = 0 then .data (regRead w o s)
  else if width = 16 ∧ o % 2 = 0 then .data (regRead w (o - o % 4) s / 2 ^ (8 * (o % 4)) % 2 ^ 16)
  else if width = 8 then .data (regRead w (o - o % 4) s / 2 ^ (8 * (o % 4)) % 2 ^ 8)
  else .unstated

end Sys2Proof.Machine
end

