-- ==== Sys2Proof/Machine/Regs.lean ====
section
/-!
DEFINITION. Register writes (18_register_index.md R411-R421; 00 R9-R12): what a BAR0 write does to each register that takes one.
-/
namespace Sys2Proof.Machine

/-- The state after a command that cannot stop. -/
def stateAfter (o : Out) (s : State) : State := match o with
  | .next t => t
  | .fault _ => s
  | .refused _ => s

/-- Put a field of `w` bits at bit `i` of a word. -/
def putBits (w i v : Nat) (old : Nat) : Nat := old - bits old (i + w - 1) i * 2 ^ i + v % 2 ^ w * 2 ^ i
/-- The lower or the upper half of a 64-bit value replaced. -/
def putHalf (hi : Bool) (v : Nat) (old : W64) : W64 := BitVec.ofNat 64 (putBits 32 (if hi then 32 else 0) v old.toNat)
/-- A field whose new value is listed, else its old one (R11). -/
def listed (ok : Bool) (new old : Nat) : Nat := if ok then new else old

/-! ### Registers of the TICK, HALY and QUE blocks -/

/-- TICK_RGN_STAT: evid_active_write W1C, overrun_limit 1-15, read-only in the VF view (Table 2-10). -/
def writeTickStat (pf : Bool) (n : Fin 8) (v : Nat) (s : State) : State :=
  modTickRgn n (fun t => { t with
    evidActiveWrite := t.evidActiveWrite && !bit v 2,
    limit := listed (pf && bits v 15 12 != 0) (bits v 15 12) t.limit }) s

/-- The schedule registers of an output (Table 2-15). -/
def writeHalyOut (o v : Nat) (x : HalyOut) : HalyOut :=
  match o with
  | 0x00 => { x with start := putHalf false v x.start }
  | 0x04 => { x with start := putHalf true v x.start }
  | 0x08 => { x with offset := listed (decide (bits v 11 0 < 3200)) (bits v 11 0) x.offset,
                     mode := if bits v 13 12 = 3 then x.mode else modeOf (bits v 13 12),
                     endSel := bits v 15 14, endEn := bit v 16, endEdge := bit v 17 }
  | 0x0C => { x with widthTicks := bits v 15 0, widthCclk := bits v 27 16 }
  | 0x10 => { x with period := bits v 23 0 }
  | 0x14 => { x with count := v % 2 ^ 32 }
  | _ => x

/-- A Halyard line's registers, through a view that may reach them (R419). -/
def writeHalyLine (w : View) (o : Nat) (v : W32) (s : State) : State :=
  if o < 0x200 then
    let n : Fin 8 := Fin.ofNat 8 ((o - 0x100) / 0x20)
    if o % 0x20 = 0x18 then
      (if bit v.toNat 0 then stateAfter (execArm w n (bit v.toNat 1) s) s
       else if bit v.toNat 1 then stateAfter (execDisarm w n s) s else s)
    else if ownsLine w s.haly.out[n].owner then modOut n (writeHalyOut (o % 0x20) v.toNat) s else s
  else
    let n : Fin 4 := Fin.ofNat 4 ((o - 0x200) / 0x20)
    if o % 0x20 = 0x00 then stateAfter (execHalyInCfgWrite w n v s) s
    else if o % 0x20 = 0x10 ∧ ownsLine w s.haly.inp[n].owner then
      modIn n (fun i => { i with lostCount := (BitVec.ofNat 16 i.lostCount &&& ~~~BitVec.ofNat 16 (bits v.toNat 31 16)).toNat }) s
    else s

/-- QUE_BASE, QUE_CBASE and QUE_PROGRESS; bits [11:0] of the bases are reserved (Table 12-8). -/
def writeQueAddr (o v : Nat) (q : Queue) : Queue :=
  match o with
  | 0x08 => { q with base := putHalf false (v - v % 4096) q.base }
  | 0x0C => { q with base := putHalf true v q.base }
  | 0x10 => { q with cbase := putHalf false (v - v % 4096) q.cbase }
  | 0x14 => { q with cbase := putHalf true v q.cbase }
  | 0x18 => { q with progress := BitVec.ofNat 32 v }
  | _ => q

/-- A write to queue i's registers: while the queue is enabled, one of them but the W1C bits of QUE_STAT is refused (R274); QUE_CTRL with
enable set enables the queue. -/
def writeQueue (i : Fin 33) (o : Nat) (v : W32) (q : Queue) : Queue :=
  if o = 0x04 then { q with dbErr := q.dbErr && !bit v.toNat 4, cfgErr := q.cfgErr && !bit v.toNat 5 }
  else if o = 0x00 then
    (if bit v.toNat 0 then enableQueue i v.toNat q
     else if q.enable then disableQueue i v.toNat q else setQueCtrl i v.toNat q)
  else if 0x08 ≤ o ∧ o ≤ 0x18 then (if q.enable then refuseCtrl q else writeQueAddr o v.toNat q)
  else q

def writeQue (w : View) (o : Nat) (v : W32) (s : State) : State :=
  let i : Fin 33 := Fin.ofNat 33 (o / 0x40)
  if 33 * 0x40 ≤ o ∨ queWritable s w i = false then s else modQue i (writeQueue i (o % 0x40) v) s

/-! ### Registers of the other blocks -/

/-- MEM_CTX_FAULT_HI: 1 to fault_valid clears the latch (Table 10-8). -/
def clearFault (c : Fin 9) (v : Nat) (s : State) : State :=
  if bit v 31 then modCtx c (fun x => { x with faultValid := false, faultAddr := 0, faultCause := 0 }) s else s

/-- MEM_CTX_PTB: the normal world's while the context is no SEALED region, nor one being sealed (R234, Table 11-6). -/
def writePtb (c : Fin 9) (hi : Bool) (v : Nat) (s : State) : State :=
  let shut := ctxSealed s c || (decide (c.val < 8) && s.sec.rgn[Fin.ofNat 8 c.val].sealing)
  if shut then s
  else modCtx c (fun x => { x with
    ptb := if hi then putBits 8 32 v x.ptb else putBits 11 21 (v / 2 ^ 21) x.ptb }) s

/-- MEM_WIN_DATA: the selected entry; contexts above 8 are reserved. -/
def writeWin (v : Nat) (m : MemState) : MemState :=
  let old := (m.win.find? fun e => e.entry == m.winSel).getD { entry := m.winSel, valid := false, ctx := 0, page := 0 }
  let new : WinEnt := { entry := m.winSel, valid := bit v 0, ctx := listed (decide (bits v 4 1 ≤ 8)) (bits v 4 1) old.ctx,
                        page := bits v 20 5 }
  { m with win := new :: m.win.filter fun e => e.entry != m.winSel }

def writeMem (o : Nat) (v : W32) (s : State) : State :=
  let x := v.toNat
  if o = 0x100 then stateAfter (execMemInv v s) s
  else if o = 0x200 then modMem (fun m => { m with frameSel := listed (isFrame (bits x 18 0)) (bits x 18 0) m.frameSel }) s
  else if o = 0x204 then stateAfter (execMemFrameOwnWrite false v s) s
  else if o = 0x300 then
    modMem (fun m => { m with winSel := listed (decide (bits x 15 0 < 2 ^ (9 + s.pcie.bar4))) (bits x 15 0) m.winSel }) s
  else if o = 0x304 then modMem (writeWin x) s
  else if 0x1000 ≤ o ∧ o < 0x1240 then
    let c : Fin 9 := Fin.ofNat 9 ((o - 0x1000) / 0x40)
    match o % 0x40 with
    | 0x08 => writePtb c false x s
    | 0x0C => writePtb c true x s
    | 0x14 => clearFault c x s
    | _ => s
  else s

/-- The ANL select registers, the PF's or the VF's copy (R416). -/
def writeAnlSel (pf : Bool) (n : Fin 8) (o v : Nat) (s : State) : State :=
  match o with
  | 0x08 => modAnl n (fun a => if pf then { a with chainSelPf := v } else { a with chainSelVf := v }) s
  | 0x1C => modAnl n (fun a => if pf then { a with schedSelPf := bits v 8 0 } else { a with schedSelVf := bits v 8 0 }) s
  | _ => s

/-- [9:0] of MESH_ST_ADDR and MESH_LINK_SEL; rows 12-15 are reserved. -/
def putLinkSel (v old : Nat) : Nat :=
  bits v 3 0 + listed (decide (bits v 7 4 < 12)) (bits v 7 4) (bits old 7 4) * 2 ^ 4 + bits v 9 8 * 2 ^ 8

def writeMesh (o v : Nat) (s : State) : State :=
  let m := s.mesh
  match o with
  | 0x10 =>
    let a := putLinkSel v m.stAddr + listed (decide (bits v 17 10 < 200)) (bits v 17 10) (bits m.stAddr 17 10) * 2 ^ 10
      + bits v 18 18 * 2 ^ 18
    { s with mesh := { m with stAddr := a } }
  | 0x20 => { s with mesh := { m with linkSel := putLinkSel v m.linkSel } }
  | _ => s

def writeRim (o v : Nat) (s : State) : State :=
  if o = 0x10 then
    { s with rim := { s.rim with rsvSel := listed (decide (bits v 4 0 < 24)) (bits v 4 0) (bits s.rim.rsvSel 4 0) + bits v 5 5 * 2 ^ 5 } }
  else s

def writeErr (pf : Bool) (w : View) (o : Nat) (v : W32) (s : State) : State :=
  if o = 0x10 then (if bit v.toNat 31 then stateAfter (execLogClear w 8 s) s else s)
  else if 0x100 ≤ o ∧ o < 0x500 then
    let n : Fin 8 := Fin.ofNat 8 ((o - 0x100) / 0x80)
    match (o - 0x100) % 0x80 with
    | 0x04 => if pf && bits v.toNat 7 0 != 0 then
        modErr (fun e => { e with drainTicks := upd e.drainTicks n fun _ => bits v.toNat 7 0 }) s else s
    | 0x10 => if bit v.toNat 31 then stateAfter (execLogClear w (Fin.ofNat 9 n.val) s) s else s
    | _ => s
  else s

def writePwr (o : Nat) (v : W32) (s : State) : State :=
  let x := v.toNat
  match o with
  | 0x04 => { s with pwr := { s.pwr with
      capW := listed (decide (40 ≤ bits x 7 0) && decide (bits x 7 0 ≤ 150)) (bits x 7 0) s.pwr.capW } }
  | 0x20 => { s with pwr := { s.pwr with
      tileSel := bits x 3 0 + listed (decide (bits x 7 4 < 12)) (bits x 7 4) (bits s.pwr.tileSel 7 4) * 2 ^ 4 } }
  | 0x24 => stateAfter (execGateWrite false v s) s
  | _ => s

def writeNoise (o v : Nat) (s : State) : State :=
  match o with
  | 0x0C => { s with noise := { s.noise with
      freshLog2 := listed (decide (10 ≤ bits v 4 0) && decide (bits v 4 0 ≤ 24)) (bits v 4 0) s.noise.freshLog2 } }
  | 0x10 => { s with noise := { s.noise with srcSel := bits v 3 0 } }
  | _ => s

def writeTick (o : Nat) (v : W32) (s : State) : State :=
  if o = 0x00 then stateAfter (execTickCtrlWrite v s) s
  else if o = 0x10 then stateAfter (execTickInWrite false v s) s
  else if o = 0x14 then stateAfter (execTickInWrite true v s) s
  else if 0x100 ≤ o ∧ o < 0x200 ∧ o % 0x20 = 0 then writeTickStat true (Fin.ofNat 8 ((o - 0x100) / 0x20)) v.toNat s
  else s

/-- The HALY block; `cclk` is the instant of the write, at which the owner of an input changes (R39). -/
def writeHaly (o : Nat) (v : W32) (cclk : Nat) (s : State) : State :=
  if o = 0x00 then stateAfter (execOutEnableWrite v s) s
  else if o = 0x08 then stateAfter (execOutOwnerWrite v s) s
  else if o = 0x0C then stateAfter (execInOwnerWrite v cclk s) s
  else if 0x100 ≤ o ∧ o < 0x280 then writeHalyLine .pf o v s
  else s

/-- A word of a function's MSI-X table. -/
def writeMsix (fn : Fin 9) (o : Nat) (v : W32) (s : State) : State :=
  { s with pcie := { s.pcie with
      msixTab := (fn.val, o, v) :: s.pcie.msixTab.filter fun e => !(e.1 == fn.val && e.2.1 == o) } }

/-! ### The views -/

/-- A 32-bit write to a block other than DEV of PF BAR0 (Table 18-1). -/
def writePfBlocks (o : Nat) (v : W32) (cclk : Nat) (s : State) : State :=
  if o < 0x20000 then writeTick (o - 0x10000) v s
  else if o < 0x30000 then writeHaly (o - 0x20000) v cclk s
  else if o < 0x40000 then writeMesh (o - 0x30000) v.toNat s
  else if o < 0x50000 then s
  else if o < 0x60000 then writeRim (o - 0x50000) v.toNat s
  else if o < 0x80000 then s
  else if o < 0x90000 then writeQue .pf (o - 0x80000) v s
  else if o < 0xA0000 then s
  else if o < 0xB0000 then writeErr true .pf (o - 0xA0000) v s
  else if o < 0xC0000 then writePwr (o - 0xB0000) v s
  else if o < 0xD0000 then writeNoise (o - 0xC0000) v.toNat s
  else if o < 0xD0200 then writeAnlSel true (Fin.ofNat 8 ((o - 0xD0000) / 0x40)) (o % 0x40) v.toNat s
  else if 0x100000 ≤ o ∧ o < 0x140000 then
    if o % 0x1000 = 0x90 then modHerd (Fin.ofNat 64 ((o - 0x100000) / 0x1000)) (fun t => { t with
      sliceSel := upd t.sliceSel 0 fun _ => bits v.toNat 5 0 }) s
    else s
  else if 0x200000 ≤ o ∧ o < 0x240000 then
    let e : Fin 4 := Fin.ofNat 4 ((o - 0x200000) / 0x10000)
    match o % 0x10000 with
    | 0x00 => stateAfter (execPeOwnerWrite false e v s) s
    | 0x20 => modPe e (fun x => { x with psetSel := upd x.psetSel 0 fun _ => bits v.toNat 1 0 }) s
    | _ => s
  else if 0x300000 ≤ o ∧ o < 0x310000 then writeMem (o - 0x300000) v s
  else if 0x500400 ≤ o ∧ o < 0x500500 ∧ o % 0x20 = 0 then
    stateAfter (execRingRgnRsvWrite (Fin.ofNat 8 ((o - 0x500400) / 0x20)) v s) s
  else if o = 0x600010 then { s with mkh := { s.mkh with measSel := bits v.toNat 2 0 } }
  else if 0xF00000 ≤ o ∧ o < 0xF00400 then writeMsix 0 (o - 0xF00000) v s
  else s

/-- PF BAR0: before ready only DEV takes writes (R391), in FAILED nothing does (R390). -/
def writePf (o : Nat) (v : W32) (cclk : Nat) (s : State) : State :=
  if o < 0x10000 then
    (if o = 0x20 ∧ s.dev.stage ≠ .failed then { s with dev := { s.dev with scratch := v } } else s)
  else if s.dev.ready then writePfBlocks o v cclk s else s

/-- VF_TILE_SEL (Table 18-5): kinds 5-7 and rows 12-15 are reserved. -/
def putTileSel (v old : Nat) : Nat :=
  listed (decide (bits v 2 0 ≤ 4)) (bits v 2 0) (bits old 2 0) + bits v 7 4 * 2 ^ 4
    + listed (decide (bits v 11 8 < 12)) (bits v 11 8) (bits old 11 8) * 2 ^ 8 + bits v 14 12 * 2 ^ 12 + bits v 17 16 * 2 ^ 16

/-- A 32-bit write to the VF view of region n (R418). -/
def writeVf (w : View) (n : Fin 8) (o : Nat) (v : W32) (s : State) : State :=
  if !viewOk s w then s
  else if o = 0x100 then writeTickStat false n v.toNat s
  else if o = 0x314 then clearFault (ctxOf n) v.toNat s
  else if o = 0x608 ∨ o = 0x61C then writeAnlSel false n (o - 0x600) v.toNat s
  else if o = 0x710 then writeErr false w (0x110 + 0x80 * n.val) v s
  else if 0x800 ≤ o ∧ o < 0x900 then writeQue w (0x100 * n.val + (o - 0x800)) v s
  else if 0x2000 ≤ o ∧ o < 0x2180 then writeHalyLine w (0x100 + (o - 0x2000)) v s
  else if o = 0x3000 then { s with pcie := { s.pcie with tileSel := upd s.pcie.tileSel n (putTileSel v.toNat) } }
  else if 0xE000 ≤ o ∧ o < 0xE400 then writeMsix (vfOf n) (o - 0xE000) v s
  else s

/-- What a 32-bit write to the register at a BAR0 offset of a view does, at CCLK offset `cclk` of the tick. -/
def regWrite (w : View) (o : Nat) (v : W32) (cclk : Nat) (s : State) : State :=
  match viewRegion w with
  | none => writePf o v cclk s
  | some n => writeVf w n o v s

/-- REGISTER_WRITE: a 64-bit write is two 32-bit ones, the lower offset first; a narrower one than 32 bits is dropped (R12).
Any other one is an access that R12 does not admit. -/
def execRegisterWrite (w : View) (off width : Nat) (v : W64) (cclk : Nat) (s : State) : Out :=
  if width = 32 ∧ off % 4 = 0 then .next (regWrite w off (v.setWidth 32) cclk s)
  else if width = 64 ∧ off % 8 = 0 then
    .next (regWrite w (off + 4) ((v >>> 32).setWidth 32) cclk (regWrite w off (v.setWidth 32) cclk s))
  else if width < 32 then .next s
  else .fault .misalignedAccess

end Sys2Proof.Machine
end

