-- ==== Sys2Proof/Machine/Dispatch.lean ====
section
/-!
DEFINITION. The effect of each command: one arm for each row of spec/opcode_table.json.
-/
namespace Sys2Proof.Machine

/-- The effect of a command on everything but the queue of waiting commands. -/
def exec (i : Instr) (s : State) : Host.Outcome State Fault Refusal :=
  match i with
  | .tickBoundary => Sys2Proof.Machine.execTickBoundary s
  | .sweepStart h => Sys2Proof.Machine.execSweepStart h s
  | .classBegin h => Sys2Proof.Machine.execClassBegin h s
  | .sweepDone h cclk => Sys2Proof.Machine.execSweepDone h cclk s
  | .overrunTest r => Sys2Proof.Machine.execOverrunTest r s
  | .headerWrite r chain => Sys2Proof.Machine.execHeaderWrite r chain s
  | .reservoirWriteDone r chain slot => Sys2Proof.Machine.execReservoirWriteDone r chain slot s
  | .tickingEnd r => Sys2Proof.Machine.execTickingEnd r s
  | .mergeStart r => Sys2Proof.Machine.execMergeStart r s
  | .mergeComplete r => Sys2Proof.Machine.execMergeComplete r s
  | .referenceEvent e => Sys2Proof.Machine.execReferenceEvent e s
  | .missedReferenceEvent tick => Sys2Proof.Machine.execMissedReferenceEvent tick s
  | .tickCtrlWrite v => Sys2Proof.Machine.execTickCtrlWrite v s
  | .tickInWrite ofs v => Sys2Proof.Machine.execTickInWrite ofs v s
  | .tnLatchRead w wide => Sys2Proof.Machine.execTnLatchRead w wide s
  | .slackRead w r => Sys2Proof.Machine.execSlackRead w r s
  | .outEnableWrite v => Sys2Proof.Machine.execOutEnableWrite v s
  | .arm w n alsoDisarm => Sys2Proof.Machine.execArm w n alsoDisarm s
  | .disarm w n => Sys2Proof.Machine.execDisarm w n s
  | .pulseRise n => Sys2Proof.Machine.execPulseRise n s
  | .pulseFall n => Sys2Proof.Machine.execPulseFall n s
  | .strobeEndEdge n input rising ago cclk held delay => Sys2Proof.Machine.execStrobeEndEdge n input rising ago cclk held delay s
  | .outOwnerWrite v => Sys2Proof.Machine.execOutOwnerWrite v s
  | .inOwnerWrite v cclk => Sys2Proof.Machine.execInOwnerWrite v cclk s
  | .halyInCfgWrite w n v => Sys2Proof.Machine.execHalyInCfgWrite w n v s
  | .inputEdge n rising ago cclk held => Sys2Proof.Machine.execInputEdge n rising ago cclk held s
  | .timestampPop w n wide => Sys2Proof.Machine.execTimestampPop w n wide s
  | .vc0FlitArrival d f ecc => Sys2Proof.Machine.execVc0FlitArrival d f ecc s
  | .meshPacketArrival d own ecc => Sys2Proof.Machine.execMeshPacketArrival d own ecc s
  | .rimFlitArrival m ecc => Sys2Proof.Machine.execRimFlitArrival m ecc s
  | .regionCreate => Sys2Proof.Machine.execRegionCreate s
  | .creationComplete r => Sys2Proof.Machine.execCreationComplete r s
  | .regionDestroy => Sys2Proof.Machine.execRegionDestroy s
  | .destroyComplete r => Sys2Proof.Machine.execDestroyComplete r s
  | .conditionedBlock => Sys2Proof.Machine.execConditionedBlock s
  | .repetitionCountFail src => Sys2Proof.Machine.execRepetitionCountFail src s
  | .adaptiveWindowEnd src => Sys2Proof.Machine.execAdaptiveWindowEnd src s
  | .drbgInstantiate drbgKat => Sys2Proof.Machine.execDrbgInstantiate drbgKat s
  | .drbgReseed drbgKat => Sys2Proof.Machine.execDrbgReseed drbgKat s
  | .drbgGenerate r => Sys2Proof.Machine.execDrbgGenerate r s
  | .freshKeyStaged r => Sys2Proof.Machine.execFreshKeyStaged r s
  | .engineDescriptorArrival k => Sys2Proof.Machine.execEngineDescriptorArrival k s
  | .descriptorAdmission => Sys2Proof.Machine.execDescriptorAdmission s
  | .ibexOpStart idx => Sys2Proof.Machine.execIbexOpStart idx s
  | .ibexOpComplete idx => Sys2Proof.Machine.execIbexOpComplete idx s
  | .spillPartial c k => Sys2Proof.Machine.execSpillPartial c k s
  | .spill c => Sys2Proof.Machine.execSpill c s
  | .kernel c => Sys2Proof.Machine.execKernel c s
  | .kernelDone c code => Sys2Proof.Machine.execKernelDone c code s
  | .chamoisTrap c cause tval code => Sys2Proof.Machine.execChamoisTrap c cause tval code s
  | .recombine c => Sys2Proof.Machine.execRecombine c s
  | .moverTransfer c m code => Sys2Proof.Machine.execMoverTransfer c m code s
  | .moverSwap c lx ly buf code => Sys2Proof.Machine.execMoverSwap c lx ly buf code s
  | .kuduDescriptor m => Sys2Proof.Machine.execKuduDescriptor m s
  | .kuduDescriptorComplete m hart code => Sys2Proof.Machine.execKuduDescriptorComplete m hart code s
  | .kuduTrap m hart cause tval code => Sys2Proof.Machine.execKuduTrap m hart cause tval code s
  | .lockstepMismatch => Sys2Proof.Machine.execLockstepMismatch s
  | .watchdogExpiry cp => Sys2Proof.Machine.execWatchdogExpiry cp s
  | .fwStage => Sys2Proof.Machine.execFwStage s
  | .trialBootTimeout aux => Sys2Proof.Machine.execTrialBootTimeout aux s
  | .peOwnerWrite secure e v => Sys2Proof.Machine.execPeOwnerWrite secure e v s
  | .psetLoad e => Sys2Proof.Machine.execPsetLoad e s
  | .ntt e => Sys2Proof.Machine.execNtt e s
  | .intt e => Sys2Proof.Machine.execIntt e s
  | .add e => Sys2Proof.Machine.execAdd e s
  | .sub e => Sys2Proof.Machine.execSub e s
  | .mul e => Sys2Proof.Machine.execMul e s
  | .auto e => Sys2Proof.Machine.execAuto e s
  | .baseExt e => Sys2Proof.Machine.execBaseExt e s
  | .keyswitch e => Sys2Proof.Machine.execKeyswitch e s
  | .mask e => Sys2Proof.Machine.execMask e s
  | .peOpComplete e => Sys2Proof.Machine.execPeOpComplete e s
  | .pePaceFault e => Sys2Proof.Machine.execPePaceFault e s
  | .memoryRequest m => Sys2Proof.Machine.execMemoryRequest m s
  | .translationMissFill tile ctx v drop => Sys2Proof.Machine.execTranslationMissFill tile ctx v drop s
  | .memInv v => Sys2Proof.Machine.execMemInv v s
  | .memFrameOwnWrite secure v => Sys2Proof.Machine.execMemFrameOwnWrite secure v s
  | .bar4Access o a => Sys2Proof.Machine.execBar4Access o a s
  | .dmaDescriptor => Sys2Proof.Machine.execDmaDescriptor s
  | .dmaComplete k => Sys2Proof.Machine.execDmaComplete k s
  | .pfFlr => Sys2Proof.Machine.execPfFlr s
  | .vfFlr r => Sys2Proof.Machine.execVfFlr r s
  | .powerStateChange fn d3 => Sys2Proof.Machine.execPowerStateChange fn d3 s
  | .sealOffer sid msg => Sys2Proof.Machine.execSealOffer sid msg s
  | .sealResume sid msg => Sys2Proof.Machine.execSealResume sid msg s
  | .tagKeySet sid msg => Sys2Proof.Machine.execTagKeySet sid msg s
  | .sealQuery sid msg => Sys2Proof.Machine.execSealQuery sid msg s
  | .keyExchange mutualAuth reqKey => Sys2Proof.Machine.execKeyExchange mutualAuth reqKey s
  | .getMeasurements index => Sys2Proof.Machine.execGetMeasurements index s
  | .getCertificate slot => Sys2Proof.Machine.execGetCertificate slot s
  | .sessionEnd sid => Sys2Proof.Machine.execSessionEnd sid s
  | .keyProg sid k streamId fn keySet sub transmit key => Sys2Proof.Machine.execKeyProg sid k streamId fn keySet sub transmit key s
  | .kSetGo sid k keySet => Sys2Proof.Machine.execKSetGo sid k keySet s
  | .ideIntegrityFailure k => Sys2Proof.Machine.execIdeIntegrityFailure k s
  | .lockInterfaceRequest sid r k noFwUpdate => Sys2Proof.Machine.execLockInterfaceRequest sid r k noFwUpdate s
  | .startInterfaceRequest sid r => Sys2Proof.Machine.execStartInterfaceRequest sid r s
  | .stopInterfaceRequest sid r => Sys2Proof.Machine.execStopInterfaceRequest sid r s
  | .regionSeal => Sys2Proof.Machine.execRegionSeal s
  | .sealComplete r measured => Sys2Proof.Machine.execSealComplete r measured s
  | .railFault x y => Sys2Proof.Machine.execRailFault x y s
  | .doorbell w idx data stores => Sys2Proof.Machine.execDoorbell w idx data stores s
  | .cconsWrite w idx v => Sys2Proof.Machine.execCconsWrite w idx v s
  | .queueEnable w idx v => Sys2Proof.Machine.execQueueEnable w idx v s
  | .queueDisable w idx v => Sys2Proof.Machine.execQueueDisable w idx v s
  | .packetFetch idx => Sys2Proof.Machine.execPacketFetch idx s
  | .nop idx => Sys2Proof.Machine.execNop idx s
  | .run idx => Sys2Proof.Machine.execRun idx s
  | .cancel idx => Sys2Proof.Machine.execCancel idx s
  | .fenceSignal idx => Sys2Proof.Machine.execFenceSignal idx s
  | .fenceWait idx => Sys2Proof.Machine.execFenceWait idx s
  | .eventRecord idx => Sys2Proof.Machine.execEventRecord idx s
  | .eventWait idx => Sys2Proof.Machine.execEventWait idx s
  | .query idx => Sys2Proof.Machine.execQuery idx s
  | .ringJoin ringTn trained attested meas => Sys2Proof.Machine.execRingJoin ringTn trained attested meas s
  | .ringLeave => Sys2Proof.Machine.execRingLeave s
  | .tickConfig => Sys2Proof.Machine.execTickConfig s
  | .jobStart r q => Sys2Proof.Machine.execJobStart r q s
  | .launch r q => Sys2Proof.Machine.execLaunch r q s
  | .chainArm r q => Sys2Proof.Machine.execChainArm r q s
  | .chainFire r q k => Sys2Proof.Machine.execChainFire r q k s
  | .waitEvent r q => Sys2Proof.Machine.execWaitEvent r q s
  | .waitFence r q => Sys2Proof.Machine.execWaitFence r q s
  | .signalFence r q => Sys2Proof.Machine.execSignalFence r q s
  | .signalEvent r q => Sys2Proof.Machine.execSignalEvent r q s
  | .recordPoint r q => Sys2Proof.Machine.execRecordPoint r q s
  | .ifCmp r q => Sys2Proof.Machine.execIfCmp r q s
  | .loop r q => Sys2Proof.Machine.execLoop r q s
  | .jump r q => Sys2Proof.Machine.execJump r q s
  | .lock r q => Sys2Proof.Machine.execLock r q s
  | .unlock r q => Sys2Proof.Machine.execUnlock r q s
  | .preload r q => Sys2Proof.Machine.execPreload r q s
  | .atTickWait r q => Sys2Proof.Machine.execAtTickWait r q s
  | .atTickReached r q => Sys2Proof.Machine.execAtTickReached r q s
  | .atTickArm r q => Sys2Proof.Machine.execAtTickArm r q s
  | .emitStore r q => Sys2Proof.Machine.execEmitStore r q s
  | .tickStop r q => Sys2Proof.Machine.execTickStop r q s
  | .mapUnmap r q => Sys2Proof.Machine.execMapUnmap r q s
  | .mapHbm r q => Sys2Proof.Machine.execMapHbm r q s
  | .mapStore r q => Sys2Proof.Machine.execMapStore r q s
  | .mapHost r q => Sys2Proof.Machine.execMapHost r q s
  | .endJob r q => Sys2Proof.Machine.execEndJob r q s
  | .hangDetected r q => Sys2Proof.Machine.execHangDetected r q s
  | .drainEnd r q => Sys2Proof.Machine.execDrainEnd r q s
  | .kill r q => Sys2Proof.Machine.execKill r q s
  | .captureCopyDone r q => Sys2Proof.Machine.execCaptureCopyDone r q s
  | .restart r q => Sys2Proof.Machine.execRestart r q s
  | .regionRecoveryComplete r => Sys2Proof.Machine.execRegionRecoveryComplete r s
  | .logClear w log => Sys2Proof.Machine.execLogClear w log s
  | .markerArrival p word cclk => Sys2Proof.Machine.execMarkerArrival p word cclk s
  | .ringFlitArrival p slot words => Sys2Proof.Machine.execRingFlitArrival p slot words s
  | .retryTimeout p => Sys2Proof.Machine.execRetryTimeout p s
  | .portDown p => Sys2Proof.Machine.execPortDown p s
  | .portRetrain p => Sys2Proof.Machine.execPortRetrain p s
  | .ringFormation f => Sys2Proof.Machine.execRingFormation f s
  | .ringJoinTimeout => Sys2Proof.Machine.execRingJoinTimeout s
  | .streamKeyAdvance r => Sys2Proof.Machine.execStreamKeyAdvance r s
  | .blockStaged r bid => Sys2Proof.Machine.execBlockStaged r bid s
  | .ringCutoff r entry => Sys2Proof.Machine.execRingCutoff r entry s
  | .ringRgnRsvWrite r v => Sys2Proof.Machine.execRingRgnRsvWrite r v s
  | .powerLimitExceeded m => Sys2Proof.Machine.execPowerLimitExceeded m s
  | .gateWrite secure v => Sys2Proof.Machine.execGateWrite secure v s
  | .dutyUpdate tj => Sys2Proof.Machine.execDutyUpdate tj s
  | .thermalTrip x y tj => Sys2Proof.Machine.execThermalTrip x y tj s
  | .tileCooled x y tj => Sys2Proof.Machine.execTileCooled x y tj s
  | .inputPowerLoss all => Sys2Proof.Machine.execInputPowerLoss all s
  | .auxPresentChange millivolts sense0 sense1 => Sys2Proof.Machine.execAuxPresentChange millivolts sense0 sense1 s
  | .coldReset aux => Sys2Proof.Machine.execColdReset aux s
  | .warmReset aux => Sys2Proof.Machine.execWarmReset aux s
  | .startupStageComplete ok ms cores kat => Sys2Proof.Machine.execStartupStageComplete ok ms cores kat s
  | .getState => Sys2Proof.Machine.execGetState s
  | .stagColdReset => Sys2Proof.Machine.execStagColdReset s
  | .writeBank ofs data => Sys2Proof.Machine.execWriteBank ofs data s
  | .commitBank => Sys2Proof.Machine.execCommitBank s
  | .pldmSensorRead id measured => Sys2Proof.Machine.execPldmSensorRead id measured s
  | .extest => Sys2Proof.Machine.execExtest s
  | .clamp => Sys2Proof.Machine.execClamp s
  | .highz => Sys2Proof.Machine.execHighz s
  | .samplePreload pins => Sys2Proof.Machine.execSamplePreload pins s
  | .idcode => Sys2Proof.Machine.execIdcode s
  | .bypass code => Sys2Proof.Machine.execBypass code s
  | .registerWrite w off width v cclk => Sys2Proof.Machine.execRegisterWrite w off width v cclk s
  | .perstDeassertion speed width => Sys2Proof.Machine.execPerstDeassertion speed width s
  | .configurationWrite c => Sys2Proof.Machine.execConfigurationWrite c s
  | .tilePowerReturn x y => Sys2Proof.Machine.execTilePowerReturn x y s
  | .admitHoldClear m => Sys2Proof.Machine.execAdmitHoldClear m s
  | .rawSample src b => Sys2Proof.Machine.execRawSample src b s

end Sys2Proof.Machine
end

