-- ==== Sys2Proof/Safety.lean ====
section
/-!
DEFINITION. What a safe run of the block is, in the terms that statements use: the commands that complete, and the invariants
that every step keeps.
-/
namespace Sys2Proof

/-- A command that the block completes: it answers a next state, neither a fault nor a refusal. -/
def Completes (c : Instr) (s : Machine.State) : Prop := ∃ t, Machine.exec c s = .next t

/-- Every memory of the block, and host memory as the block sees it, is in its canonical form. -/
def MemoriesCanonical (s : Machine.State) : Prop :=
  Machine.Memory.wf s.mem.phys = true ∧ Machine.Memory.wf s.pcie.host = true ∧
    (∀ h : Fin 64, Machine.Memory.wf s.herd.tile[h].mem = true) ∧
    (∀ i : Fin 48, Machine.Memory.wf s.ibex[i].mem = true ∧ Machine.Memory.wf s.cham[i].mem = true) ∧
    ∀ m : Fin 8, Machine.Memory.wf s.kudu[m].mem = true

/-- The commands that reset the block, or take its power: only they may bring noise out of FAILED (R110). -/
def Resets : Instr → Prop
  | .coldReset _ => True
  | .trialBootTimeout _ => True
  | .inputPowerLoss _ => True
  | .auxPresentChange _ _ _ => True
  | .stagColdReset => True
  | .commitBank => True
  | .thermalTrip x y _ => Machine.cutUnit x y = none
  | .extest => True
  | .clamp => True
  | .highz => True
  | _ => False

end Sys2Proof
end

