-- ==== Sys2Proof/WellFormed.lean ====
section
/-!
DEFINITION. Which commands are well formed: an operand that the spec bounds more narrowly than its type lies within the
bound. The machine answers every command, well formed or not; a statement that needs a bound takes it from here.
-/
namespace Sys2Proof

/-- A CCLK offset within a tick (R22). -/
def cclkOk (c : Nat) : Bool := decide (c < 3200)
/-- A tile of the die, edge tiles and corners' rows included (R47, R59). -/
def onGrid (x y : Nat) : Bool := decide (x < 16) && decide (y < 12)
/-- A width of a BAR0 access in bits (R12). -/
def widthOk (w : Nat) : Bool := w == 8 || w == 16 || w == 32 || w == 64
/-- Bytes stored below an address, each address once. -/
def storesWf (top : Nat) (l : List (Nat × Byte)) : Bool := (l.all fun p => decide (p.1 < top)) && (l.map Prod.fst).Nodup

/-- A link direction leaves a tile of the die (R47). -/
def LinkDir.wf (d : LinkDir) : Bool := onGrid d.x d.y

/-- A VC0 payload lies in the 120 bytes beside the header of one flit (R48, R51). -/
def Vc0Load.wf : Vc0Load → Bool
  | .halo _ data => decide (data.length ≤ 120)
  | .field vals => decide (vals.length ≤ 30)
  | .emit _ addr _ data => decide (addr < 2 ^ 48) && decide (data.length ≤ 120)
  | .ring bid data => decide (bid < 16) && decide (data.length ≤ 120)
  | .deliver _ data => decide (data.length ≤ 120)

def Vc0Flit.wf (f : Vc0Flit) : Bool := decide (f.tag < 16) && onGrid f.dx f.dy && f.load.wf

/-- A planned flit is of one of the 200 slots (R22). -/
def Vc0Arrival.wf : Vc0Arrival → Bool
  | .planned slot => decide (slot < 200)
  | .stray f => f.wf

/-- The flits of one packet (Table 3-1). -/
def packetMax : Vc → Nat
  | .vc1 => 16 | .vc2 => 16 | .vc3 => 4

/-- A packet of 1 flit to its channel's most, of 128 bytes each (R48, Table 3-1). -/
def MeshPacket.wf (p : MeshPacket) : Bool :=
  decide (p.tag < 16) && onGrid p.dx p.dy && decide (1 ≤ p.flits) && decide (p.flits ≤ packetMax p.vc)
    && decide (p.data.length ≤ 128 * p.flits)

/-- A flit on the Rim carries at most 128 bytes (R61). -/
def RimMove.wf : RimMove → Bool
  | .enter _ _ _ bytes => decide (bytes ≤ 128)
  | .emit _ _ => true
  | .cross _ _ _ _ => true

/-- A mover command names logical coordinates of 4 bits and 48-bit device addresses (R67, R211). -/
def MoverCmd.wf : MoverCmd → Bool
  | .toTile _ lx ly _ _ => decide (lx < 16) && decide (ly < 16)
  | .fromTile lx ly _ _ _ => decide (lx < 16) && decide (ly < 16)
  | .toDevice _ addr _ => decide (addr < 2 ^ 48)
  | .fromDevice addr _ _ => decide (addr < 2 ^ 48)
  | .toStaging _ bid _ => decide (bid < 16)

/-- A memory request: from a tile of the die, at a 48-bit address; a write's length is that of its bytes (R211). -/
def MemReq.wf (m : MemReq) : Bool :=
  onGrid m.x m.y && decide (m.addr < 2 ^ 48) &&
    match m.write with
    | some d => d.length == m.len
    | none => true

/-- A host access moves at least one byte. -/
def HostAccess.wf : HostAccess → Bool
  | .read n => decide (1 ≤ n)
  | .write data => decide (1 ≤ data.length)

/-- A codeword of the ring's line has 85 bytes (R351). -/
def codewordOk (w : List Byte) : Bool := w.length == 85

/-- The well-formed commands. -/
def Instr.wf : Instr → Bool
  | .tickBoundary => true
  | .sweepStart _ => true
  | .classBegin _ => true
  | .sweepDone _ cclk => cclkOk cclk
  | .overrunTest _ => true
  | .headerWrite _ _ => true
  | .reservoirWriteDone _ _ _ => true
  | .tickingEnd _ => true
  | .mergeStart _ => true
  | .mergeComplete _ => true
  | .referenceEvent _ => true
  | .missedReferenceEvent _ => true
  | .tickCtrlWrite _ => true
  | .tickInWrite _ _ => true
  | .tnLatchRead _ _ => true
  | .slackRead _ _ => true
  | .outEnableWrite _ => true
  | .arm _ _ _ => true
  | .disarm _ _ => true
  | .pulseRise _ => true
  | .pulseFall _ => true
  | .strobeEndEdge _ _ _ _ cclk _ _ => cclkOk cclk
  | .outOwnerWrite _ => true
  | .inOwnerWrite _ cclk => cclkOk cclk
  | .halyInCfgWrite _ _ _ => true
  | .inputEdge _ _ _ cclk _ => cclkOk cclk
  | .timestampPop _ _ _ => true
  | .vc0FlitArrival d f _ => d.wf && f.wf
  | .meshPacketArrival d p _ => d.wf && p.all MeshPacket.wf
  | .rimFlitArrival m _ => m.wf
  | .regionCreate => true
  | .creationComplete _ => true
  | .regionDestroy => true
  | .destroyComplete _ => true
  | .conditionedBlock => true
  | .repetitionCountFail _ => true
  | .adaptiveWindowEnd _ => true
  | .drbgInstantiate _ => true
  | .drbgReseed _ => true
  | .drbgGenerate _ => true
  | .freshKeyStaged _ => true
  | .engineDescriptorArrival _ => true
  | .descriptorAdmission => true
  | .ibexOpStart _ => true
  | .ibexOpComplete _ => true
  | .spillPartial _ _ => true
  | .spill _ => true
  | .kernel _ => true
  | .kernelDone _ code => codeWf code
  | .chamoisTrap _ _ _ code => codeWf code
  | .recombine _ => true
  | .moverTransfer _ m code => m.wf && codeWf code
  | .moverSwap _ lx ly _ code => decide (lx < 16) && decide (ly < 16) && codeWf code
  | .kuduDescriptor _ => true
  | .kuduDescriptorComplete _ _ code => codeWf code
  | .kuduTrap _ _ _ _ code => codeWf code
  | .lockstepMismatch => true
  | .watchdogExpiry _ => true
  | .fwStage => true
  | .trialBootTimeout _ => true
  | .peOwnerWrite _ _ _ => true
  | .psetLoad _ => true
  | .ntt _ => true
  | .intt _ => true
  | .add _ => true
  | .sub _ => true
  | .mul _ => true
  | .auto _ => true
  | .baseExt _ => true
  | .keyswitch _ => true
  | .mask _ => true
  | .peOpComplete _ => true
  | .pePaceFault _ => true
  | .memoryRequest m => m.wf
  | .translationMissFill _ _ v _ => decide (v < 2 ^ 27)
  | .memInv _ => true
  | .memFrameOwnWrite _ _ => true
  | .bar4Access o a => decide (o < 2 ^ 37) && a.wf
  | .dmaDescriptor => true
  | .dmaComplete _ => true
  | .pfFlr => true
  | .vfFlr _ => true
  | .powerStateChange _ _ => true
  | .sealOffer _ _ => true
  | .sealResume _ _ => true
  | .tagKeySet _ _ => true
  | .sealQuery _ _ => true
  | .keyExchange _ reqKey => reqKey.length == 64
  | .getMeasurements idx => decide (idx < 256)
  | .getCertificate slot => decide (slot < 8)
  | .sessionEnd _ => true
  | .keyProg _ _ _ _ _ _ _ _ => true
  | .kSetGo _ _ _ => true
  | .ideIntegrityFailure _ => true
  | .lockInterfaceRequest _ _ _ _ => true
  | .startInterfaceRequest _ _ => true
  | .stopInterfaceRequest _ _ => true
  | .regionSeal => true
  | .sealComplete _ _ => true
  | .railFault x y => onGrid x y
  | .doorbell _ _ _ stores => storesWf (2 ^ 64) stores
  | .cconsWrite _ _ _ => true
  | .queueEnable _ _ _ => true
  | .queueDisable _ _ _ => true
  | .packetFetch _ => true
  | .nop _ => true
  | .run _ => true
  | .cancel _ => true
  | .fenceSignal _ => true
  | .fenceWait _ => true
  | .eventRecord _ => true
  | .eventWait _ => true
  | .query _ => true
  | .ringJoin ringTn _ _ _ => decide (ringTn < 2 ^ 64)
  | .ringLeave => true
  | .tickConfig => true
  | .jobStart _ _ => true
  | .launch _ _ => true
  | .chainArm _ _ => true
  | .chainFire _ _ k => decide (k < 16)
  | .waitEvent _ _ => true
  | .waitFence _ _ => true
  | .signalFence _ _ => true
  | .signalEvent _ _ => true
  | .recordPoint _ _ => true
  | .ifCmp _ _ => true
  | .loop _ _ => true
  | .jump _ _ => true
  | .lock _ _ => true
  | .unlock _ _ => true
  | .preload _ _ => true
  | .atTickWait _ _ => true
  | .atTickReached _ _ => true
  | .atTickArm _ _ => true
  | .emitStore _ _ => true
  | .tickStop _ _ => true
  | .mapUnmap _ _ => true
  | .mapHbm _ _ => true
  | .mapStore _ _ => true
  | .mapHost _ _ => true
  | .endJob _ _ => true
  | .hangDetected _ _ => true
  | .drainEnd _ _ => true
  | .kill _ _ => true
  | .captureCopyDone _ _ => true
  | .restart _ _ => true
  | .regionRecoveryComplete _ => true
  | .logClear _ _ => true
  | .markerArrival _ word cclk => codewordOk word && cclkOk cclk
  | .ringFlitArrival _ slot words => decide (slot < 195) && words.all codewordOk
  | .retryTimeout _ => true
  | .portDown _ => true
  | .portRetrain _ => true
  | .ringFormation f => decide (f.tn < 2 ^ 64) && decide (f.members ≤ 16)
  | .ringJoinTimeout => true
  | .streamKeyAdvance _ => true
  | .blockStaged _ _ => true
  | .ringCutoff _ _ => true
  | .ringRgnRsvWrite _ _ => true
  | .powerLimitExceeded _ => true
  | .gateWrite _ _ => true
  | .dutyUpdate tj => tj.all fun t => decide (t.1 < 192)
  | .thermalTrip x y _ => onGrid x y
  | .tileCooled x y _ => onGrid x y
  | .inputPowerLoss _ => true
  | .auxPresentChange _ _ _ => true
  | .coldReset _ => true
  | .warmReset _ => true
  | .startupStageComplete _ _ _ _ => true
  | .getState => true
  | .stagColdReset => true
  | .writeBank _ data => decide (1 ≤ data.length) && decide (data.length ≤ 240)
  | .commitBank => true
  | .pldmSensorRead id _ => decide (id < 2 ^ 16)
  | .extest => true
  | .clamp => true
  | .highz => true
  | .samplePreload _ => true
  | .idcode => true
  | .bypass _ => true
  | .registerWrite _ off width _ _ => widthOk width && decide (off < 2 ^ 24)
  | .perstDeassertion _ _ => true
  | .configurationWrite _ => true
  | .tilePowerReturn x y => onGrid x y
  | .admitHoldClear _ => true
  | .rawSample _ _ => true

end Sys2Proof
end

