-- ==== Sys2Proof/Certificates/Slice0/Obligations.lean ====
section
/-!
DEFINITION. The statements: what the block does, rule by rule. `t` is the state a command leaves. A record update of `s`
says what changed and that nothing else did; `settle r t` is `t` after what follows of itself in region r (WhatFollowsStaysInTheRegion says
what that can touch).
-/
section
open Sys2Proof Sys2Proof.Machine

/-- For every command c and state s whose queue of waiting commands is c followed by the rest, step of s is exec of c on
s with the queue's rest. On an empty queue of commands step answers the same state. This is the model's choice (log
entry 1), not a rule of the spec.
(95_what_each_step_holds.md, opening: each step is whole and indivisible, 95_what_each_step_holds.md, opening, log entry 1) -/
def Obligations.StepPerformsFrontCommand : Prop :=
  (∀ (c : Instr) (rest : List Instr) (s : State), s.pending = c :: rest → step s = exec c { s with pending := rest }) ∧
  (∀ s : State, s.pending = [] → step s = .next s)

/-- A tick T = TN + d is evaluated for HALYARD when T mod (divider + 1) is the phase, its window, from tick_in_ofs -
1,600 to tick_in_ofs + 1,599 CCLK of T, closes by the end of the present tick, and it is later than the tick
evaluated last. Of the edges of the selected input and kind in the window, the reference edge is the nearest to
tick_in_ofs, and of two equally near the earlier; its phase error is tick_in_ofs less its place. For RING, each tick
is evaluated once, by its marker. A reference within the bound (20 ns is 512 and 50 ns is 1,280 sixteenths of a
CCLK) extends the run within, one beyond it the run beyond, and ends the other run and the run of misses; 64 within
in ACQUIRING give LOCKED, 4 beyond in LOCKED give ACQUIRING, any reference in HOLDOVER gives ACQUIRING. A missed
reference ends both runs and extends the run of misses; the fourth takes ACQUIRING and LOCKED to HOLDOVER. An event
without a reference edge, of a tick not to be evaluated, of another source, or before the first tick changes
nothing. (02_pennant_tick.md R31 and Tables 2-2, 2-3, 02_pennant_tick.md Table 2-9) -/
def Obligations.ReferenceEventsMoveTheLock : Prop :=
  ∀ (s : State),
    let t := s.tick
    let after (phase : Int) (l : Lock) (done : Int) : State := { s with tick := { t with
      phaseErr := satInt 16 phase, runMissed := 0, lock := l, refDone := some done,
      runWithin := if phase.natAbs ≤ (if t.source = .halyard then 512 else 1280) then t.runWithin + 1 else 0,
      runBeyond := if phase.natAbs ≤ (if t.source = .halyard then 512 else 1280) then 0 else t.runBeyond + 1 } }
    let moved (phase : Int) (l : Lock) : Prop :=
      let within := phase.natAbs ≤ (if t.source = .halyard then 512 else 1280)
      (t.lock = .acquiring → l = if within ∧ 63 ≤ t.runWithin then .locked else .acquiring) ∧
      (t.lock = .locked → l = if ¬ within ∧ 3 ≤ t.runBeyond then .acquiring else .locked) ∧
      (t.lock = .holdover → l = .acquiring) ∧ (t.lock = .freeRun → l = .freeRun)
    let missed (done : Int) : State := { s with tick := { t with
      runWithin := 0, runBeyond := 0, runMissed := t.runMissed + 1, refDone := some done,
      lock := if 3 ≤ t.runMissed ∧ (t.lock = .acquiring ∨ t.lock = .locked) then .holdover else t.lock } }
    let due (d : Int) : Prop := 0 ≤ t.tn.toNat + d ∧ (t.tn.toNat + d) % ((t.inDiv : Int) + 1) = t.inPhase ∧
      d * 3200 + t.inOfs + 1599 < 3200 ∧ ∀ k, t.refDone = some k → k < t.tn.toNat + d
    let inWindow (e : RefEdge) : Prop := e.input.val = t.inSel ∧ e.rising = (!t.inEdge) ∧
      t.inOfs - 1600 ≤ e.at16 / 16 ∧ e.at16 / 16 ≤ t.inOfs + 1599
    (t.running = true → t.source = .halyard → ∀ (d : Int) (es : List RefEdge),
      (due d → ∀ e ∈ es, inWindow e →
        ∃ x l, x ∈ es ∧ inWindow x ∧ (∀ y ∈ es, inWindow y →
            (x.at16 - 16 * t.inOfs).natAbs < (y.at16 - 16 * t.inOfs).natAbs ∨
            ((x.at16 - 16 * t.inOfs).natAbs = (y.at16 - 16 * t.inOfs).natAbs ∧ x.at16 ≤ y.at16)) ∧
          exec (.referenceEvent (.edges d es)) s = .next (after (16 * t.inOfs - x.at16) l (t.tn.toNat + d)) ∧
          moved (16 * t.inOfs - x.at16) l) ∧
      (due d → exec (.missedReferenceEvent d) s = .next (missed (t.tn.toNat + d))) ∧
      (¬ due d → exec (.referenceEvent (.edges d es)) s = .next s ∧ exec (.missedReferenceEvent d) s = .next s) ∧
      ((∀ e ∈ es, ¬ inWindow e) → exec (.referenceEvent (.edges d es)) s = .next s)) ∧
    (t.running = true → t.source = .ring → ∀ (phase d : Int),
      (t.refDone ≠ some (t.tn.toNat : Int) →
        (∃ l, exec (.referenceEvent (.marker phase)) s = .next (after phase l t.tn.toNat) ∧ moved phase l) ∧
        exec (.missedReferenceEvent d) s = .next (missed t.tn.toNat)) ∧
      (t.refDone = some (t.tn.toNat : Int) →
        exec (.referenceEvent (.marker phase)) s = .next s ∧ exec (.missedReferenceEvent d) s = .next s)) ∧
    (t.source ≠ .halyard → ∀ d es, exec (.referenceEvent (.edges d es)) s = .next s) ∧
    (t.source ≠ .ring → ∀ phase, exec (.referenceEvent (.marker phase)) s = .next s) ∧
    (t.running = false ∨ t.source = .internal → ∀ e d,
      exec (.referenceEvent e) s = .next s ∧ exec (.missedReferenceEvent d) s = .next s)

/-- A PF write of TICK_CTRL on a ready module takes source (the reserved encoding 3 keeps it), tick_in_sel and
tick_in_edge, whatever ticks or is armed. A change to INTERNAL gives FREE_RUN; a change to HALYARD or RING, or of
the input while the source is HALYARD, gives ACQUIRING; any other write leaves the lock state. A write of
TICK_IN_CFG or TICK_IN_OFS gives ACQUIRING only if the source is HALYARD and a field changes; a phase of P or more
and an offset outside -3,200 to 3,199 are reserved encodings, which keep their field. Nothing but these registers,
the lock state and its runs changes, and nothing at all before the module is ready.
(02_pennant_tick.md R31 and Table 2-3, 02_pennant_tick.md R33, 02_pennant_tick.md Tables 2-4, 2-7, 2-8, 00_scope.md R11) -/
def Obligations.SourceWritesMoveTheLock : Prop :=
  ∀ (s : State) (v : W32),
    let src : TickSource := match bits v.toNat 1 0 with
      | 0 => .internal | 1 => .halyard | 2 => .ring | _ => s.tick.source
    let sel := bits v.toNat 3 2
    let edge := bit v.toNat 4
    let p := if bits v.toNat 31 16 ≤ bits v.toNat 15 0 then bits v.toNat 31 16 else s.tick.inPhase
    let o := if -3200 ≤ toSigned 16 v.toNat ∧ toSigned 16 v.toNat ≤ 3199 then toSigned 16 v.toNat else s.tick.inOfs
    (s.dev.ready = true →
      (∃ l w b m k, exec (.tickCtrlWrite v) s = .next { s with tick := { s.tick with
          source := src, inSel := sel, inEdge := edge, lock := l, runWithin := w, runBeyond := b, runMissed := m, refDone := k } } ∧
        (src ≠ s.tick.source → l = if src = .internal then .freeRun else .acquiring) ∧
        (src = s.tick.source → src = .halyard → (sel ≠ s.tick.inSel ∨ edge ≠ s.tick.inEdge) → l = .acquiring) ∧
        (src = s.tick.source → (src = .halyard → sel = s.tick.inSel ∧ edge = s.tick.inEdge) →
          l = s.tick.lock ∧ w = s.tick.runWithin ∧ b = s.tick.runBeyond ∧ m = s.tick.runMissed ∧ k = s.tick.refDone)) ∧
      (∃ l w b m k, exec (.tickInWrite false v) s = .next { s with tick := { s.tick with
          inDiv := bits v.toNat 15 0, inPhase := p, lock := l, runWithin := w, runBeyond := b, runMissed := m, refDone := k } } ∧
        (s.tick.source = .halyard → (bits v.toNat 15 0 ≠ s.tick.inDiv ∨ p ≠ s.tick.inPhase) → l = .acquiring) ∧
        ((s.tick.source = .halyard → bits v.toNat 15 0 = s.tick.inDiv ∧ p = s.tick.inPhase) →
          l = s.tick.lock ∧ w = s.tick.runWithin ∧ b = s.tick.runBeyond ∧ m = s.tick.runMissed ∧ k = s.tick.refDone)) ∧
      ∃ l w b m k, exec (.tickInWrite true v) s = .next { s with tick := { s.tick with
          inOfs := o, lock := l, runWithin := w, runBeyond := b, runMissed := m, refDone := k } } ∧
        (s.tick.source = .halyard → o ≠ s.tick.inOfs → l = .acquiring) ∧
        ((s.tick.source = .halyard → o = s.tick.inOfs) →
          l = s.tick.lock ∧ w = s.tick.runWithin ∧ b = s.tick.runBeyond ∧ m = s.tick.runMissed ∧ k = s.tick.refDone)) ∧
    (s.dev.ready = false → exec (.tickCtrlWrite v) s = .next s ∧ ∀ ofs, exec (.tickInWrite ofs v) s = .next s)

/-- Through a view that reaches the registers, a read of TICK_TN_LO latches TN[63:32] in that view's own latch and shows
TN[31:0], or the whole of TN when it is 64 bits wide; a read of TICK_RGN_SLACK shows last_done_slot and
max_done_slot and clears the second; a read of HALY_IN_TS_HI by a view that may reach the line shows and removes the
oldest timestamp, both halves of it when it is 64 bits wide, and of an empty FIFO shows 0. Nothing else changes.
(18_register_index.md R414, 02_pennant_tick.md R30, 02_pennant_tick.md R42 and Table 2-16, 18_register_index.md R419) -/
def Obligations.ReadsWithSideEffects : Prop :=
  ∀ (s : State) (w : View) (wide : Bool), viewOk s w = true →
    exec (.tnLatchRead w wide) s = .next { s with
      tick := { s.tick with latch := s.tick.latch.set (viewIdx w) ((s.tick.tn >>> 32).setWidth 32) },
      out := { s.out with bar := if wide = true then s.tick.tn.toNat else s.tick.tn.toNat % 2 ^ 32, ur := false } } ∧
    (∀ r : Fin 8, showsRegion w r = true →
      exec (.slackRead w r) s = .next { s with
        tick := { s.tick with rgn := s.tick.rgn.set r { s.tick.rgn[r] with maxDoneSlot := 0 } },
        out := { s.out with bar := s.tick.rgn[r].lastDoneSlot + 256 * s.tick.rgn[r].maxDoneSlot, ur := false } }) ∧
    (∀ (n : Fin 4) (x : Stamp) (rest : List Stamp), ownsLine w s.haly.inp[n].owner = true →
      s.haly.inp[n].fifo = x :: rest →
      exec (.timestampPop w n wide) s = .next { s with
        haly := { s.haly with inp := s.haly.inp.set n { s.haly.inp[n] with fifo := rest } },
        out := { s.out with bar := if wide = true then stampLo x + 2 ^ 32 * stampHi x else stampHi x, ur := false } }) ∧
    ∀ n : Fin 4, ownsLine w s.haly.inp[n].owner = true → s.haly.inp[n].fifo = [] →
      exec (.timestampPop w n wide) s = .next { s with out := { s.out with bar := 0, ur := false } }

/-- For an output n and an asked schedule, arming for a writer checks in this order: start TN at least TN + 2 (code 1),
mode TRIGGER or STROBE and offset below 3,200 (6), width of R35 (2), period of R35 (3), writer owns the output (4),
out_enable (5). If all hold, the new schedule is armed and arm_err and pulses_done are 0; otherwise only arm_err
changes, to the first code. An arm written through the PF view is the device's (8), through a VF view its region's;
a VF view that does not own the line gets 4 whatever the other conditions. (R36) -/
def Obligations.ArmSucceedsOrNamesFirstFailure : Prop :=
  (∀ (writer : Owner) (n : Fin 8) (a : ArmReq) (s : State),
    let late := a.start < s.tick.tn.toNat + 2
    let badMode := ¬ (a.mode = 1 ∨ a.mode = 2) ∨ 3200 ≤ a.offset
    let w := a.widthTicks * 3200 + a.widthCclk
    let badWidth := ¬ (a.widthCclk < 3200 ∧ 16 ≤ w ∧ w ≤ (if a.mode = 1 then 3200 else 65535 * 3200))
    let badPeriod := ¬ (a.period = 0 ∨ w < a.period * 3200 ∧ a.period < 2 ^ 24)
    let refused (e : Nat) : State := { s with haly := { s.haly with out := s.haly.out.set n { s.haly.out[n] with armErr := e } } }
    (late → armOutput writer n a s = refused 1) ∧
    (¬ late → badMode → armOutput writer n a s = refused 6) ∧
    (¬ late → ¬ badMode → badWidth → armOutput writer n a s = refused 2) ∧
    (¬ late → ¬ badMode → ¬ badWidth → badPeriod → armOutput writer n a s = refused 3) ∧
    (¬ late → ¬ badMode → ¬ badWidth → ¬ badPeriod → s.haly.out[n].owner ≠ writer → armOutput writer n a s = refused 4) ∧
    (¬ late → ¬ badMode → ¬ badWidth → ¬ badPeriod → s.haly.out[n].owner = writer → s.haly.outEnable = false →
      armOutput writer n a s = refused 5) ∧
    (¬ late → ¬ badMode → ¬ badWidth → ¬ badPeriod → s.haly.out[n].owner = writer → s.haly.outEnable = true →
      ∃ o, armOutput writer n a s = { s with haly := { s.haly with out := s.haly.out.set n o } } ∧
        o = { s.haly.out[n] with sched := o.sched, old := o.old, armErr := 0, pulsesDone := 0 } ∧
        o.sched = some { start := a.start, offset := a.offset, mode := if a.mode = 1 then .trigger else .strobe,
                         width := w, period := a.period, count := a.count, endSel := a.endSel, endEn := a.endEn,
                         endEdge := a.endEdge, next := 0, cutoff := none })) ∧
  (∀ (n : Fin 8) (s : State), s.dev.ready = true →
    exec (.arm .pf n false) s = .next (armOutput .device n s.haly.out[n].request s)) ∧
  (∀ (r n : Fin 8) (s : State), viewOk s (.vf r) = true →
    (s.haly.out[n].owner = .rgn r → exec (.arm (.vf r) n false) s = .next (armOutput (.rgn r) n s.haly.out[n].request s)) ∧
    (s.haly.out[n].owner ≠ .rgn r → exec (.arm (.vf r) n false) s =
      .next { s with haly := { s.haly with out := s.haly.out.set n { s.haly.out[n] with armErr := 4 } } }))

/-- In the output that a successful arm leaves, every earlier schedule that still has a pulse to rise has its next one
before the new start TN, and so has each later one; the pulses in progress, the connector's level, the owner and the
schedule registers are as before. A disarm, alone or just before the arm, leaves no schedule with a pulse to rise
but the newly armed one, sets pulses_done to 0 and keeps pulses in progress. When the armed schedule's next pulse is
due in the present TN and no replaced schedule's is, PULSE_RISE starts it, counts it in pulses_done (saturating at
24 bits) and moves to the next pulse, disarming after the last; a replaced schedule's pulse rises without counting.
PULSE_FALL ends the first pulse whose width, programmed or cut, has expired by the end of the present TN. The first
edge of the right kind on the right input that its glitch filter passes, at or after the rise and before the
programmed fall of a STROBE pulse with end_in_en, cuts its width: it falls the given delay, at most filter + 8 CCLK,
after the edge, not less than 16 CCLK after its rise and not after its programmed fall. The connector is driven high
while a pulse is in progress, else low, and is high-impedance while out_enable is 0. Nothing but that output
changes. (02_pennant_tick.md R37, 02_pennant_tick.md R34, 02_pennant_tick.md R35) -/
def Obligations.PulsesRiseAndFallAndReplacedSchedulesEnd : Prop :=
  ((∀ (a : ArmReq) (o : HalyOut),
    let o' := startSched a o
    (∀ d ∈ o'.old, d.live = true → d.dueTn < a.start) ∧
    (∀ d ∈ o'.old, ∀ k, ({ d with next := k } : Sched).live = true → ({ d with next := k } : Sched).dueTn < a.start) ∧
    o'.pulses = o.pulses ∧ o'.pin = o.pin ∧ o'.owner = o.owner ∧ o'.request = o.request) ∧
  (∀ (s : State) (w : View) (n : Fin 8), viewOk s w = true → ownsLine w s.haly.out[n].owner = true →
    let o : HalyOut := { s.haly.out[n] with sched := none, old := [], pulsesDone := 0 }
    let quiet : State := { s with haly := { s.haly with out := s.haly.out.set n o } }
    exec (.disarm w n) s = .next quiet ∧
    exec (.arm w n true) s = .next (armOutput (viewOwner w) n s.haly.out[n].request quiet)) ∧
  ∀ (s : State) (w : View) (n : Fin 8), viewOk s w = true → ownsLine w s.haly.out[n].owner = false →
    exec (.disarm w n) s = .next s) ∧
  (∀ (s : State) (n : Fin 8), s.tick.running = true →
    let o := s.haly.out[n]
    let tn := s.tick.tn.toNat
    let level (l : List Pulse) : Pin := if s.haly.outEnable = false then .hiZ else if l = [] then .low else .high
    let pulse (d : Sched) : Pulse :=
      { tn := d.start + d.next * d.period, offset := d.offset, width := d.width, endSel := d.endSel, endEn := d.endEn,
        endEdge := d.endEdge, strobe := d.mode == .strobe }
    let put (o : HalyOut) : State := { s with haly := { s.haly with out := s.haly.out.set n o } }
    (∀ d, o.old.find? (Sched.dueNow tn) = none → o.sched = some d → d.live = true → d.start + d.next * d.period = tn →
      exec (.pulseRise n) s = .next (put { o with
        sched := if ({ d with next := d.next + 1 } : Sched).live then some { d with next := d.next + 1 } else none,
        pulsesDone := min (o.pulsesDone + 1) (2 ^ 24 - 1), pulses := o.pulses ++ [pulse d],
        pin := level (o.pulses ++ [pulse d]) })) ∧
    (∀ d, o.old.find? (Sched.dueNow tn) = some d → ∃ l, exec (.pulseRise n) s = .next (put { o with
        old := l, pulses := o.pulses ++ [pulse d], pin := level (o.pulses ++ [pulse d]) })) ∧
    (∀ p, o.pulses.find? (fun p => decide ((p.tn * 3200 + p.offset + p.width) / 3200 ≤ tn)) = some p →
      exec (.pulseFall n) s = .next (put { o with pulses := o.pulses.erase p, pin := level (o.pulses.erase p) })) ∧
    ∀ (input : Fin 4) (rising : Bool) (ago cclk held delay : Nat) (p : Pulse), o.pulses = [p] →
      let connector : Int := ((tn : Int) - ago) * 3200 + cclk
      let rise : Int := (p.tn * 3200 + p.offset : Nat)
      let filter := s.haly.inp[input].filter
      let here := p.strobe = true ∧ p.endEn = true ∧ p.endSel = input.val ∧ p.endEdge = (!rising) ∧
        rise ≤ connector ∧ connector < rise + p.width ∧ filter ≤ held ∧ delay ≤ filter + 8
      let cut : Pulse := { p with width := min p.width (max 16 (connector + delay - rise).toNat), endEn := false }
      (here → exec (.strobeEndEdge n input rising ago cclk held delay) s = .next (put { o with pulses := [cut] })) ∧
      (¬ here → exec (.strobeEndEdge n input rising ago cclk held delay) s = .next s))

/-- A PF write of HALY_OUT_OWNER leaves an output whose owner stays (also by a reserved code 9-14) as it is; one whose
owner changes takes it, loses every schedule and pulse, has pulses_done 0, is low (high-impedance while out_enable
is 0), and keeps its schedule registers. A PF write of HALY_IN_OWNER leaves an input whose owner stays; one whose
owner changes has an empty FIFO, lost_count 0 and the instant of the change, and keeps HALY_IN_CFG. A write of
out_enable drives every output high where a pulse is in progress, else low, or makes it high-impedance, and changes
nothing else of it (that a pulse keeps its place meanwhile is the model's choice, log entry 89). A write of
HALY_IN_CFG takes edges and filter, and the filter starts from the connector's level when edges becomes nonzero.
Nothing but the HALY lines changes.
(02_pennant_tick.md R34, 02_pennant_tick.md R37, 02_pennant_tick.md R38, 02_pennant_tick.md R39, 02_pennant_tick.md R41, 00_scope.md R11, log entry 89) -/
def Obligations.OwnerWritesQuietOnlyChangedLines : Prop :=
  ∀ (s : State) (v : W32), s.dev.ready = true →
    (∃ t, exec (.outOwnerWrite v) s = .next t ∧ t = { s with haly := { s.haly with out := t.haly.out } } ∧
      ∀ n : Fin 8, let new := ownerOf (bits v.toNat (4 * n.val + 3) (4 * n.val)) s.haly.out[n].owner
        (new = s.haly.out[n].owner → t.haly.out[n] = s.haly.out[n]) ∧
        (new ≠ s.haly.out[n].owner → t.haly.out[n] = { s.haly.out[n] with
          owner := new, sched := none, old := [], pulsesDone := 0, pulses := [],
          pin := if s.haly.outEnable = true then .low else .hiZ })) ∧
    (∀ cclk, ∃ t, exec (.inOwnerWrite v cclk) s = .next t ∧ t = { s with haly := { s.haly with inp := t.haly.inp } } ∧
      ∀ n : Fin 4, let new := ownerOf (bits v.toNat (4 * n.val + 3) (4 * n.val)) s.haly.inp[n].owner
        (new = s.haly.inp[n].owner → t.haly.inp[n] = s.haly.inp[n]) ∧
        (new ≠ s.haly.inp[n].owner → t.haly.inp[n] = { s.haly.inp[n] with
          owner := new, ownerSince := some ((s.tick.tn.toNat : Int) * 3200 + cclk), fifo := [], lost := false, lostCount := 0 })) ∧
    (∀ code old, ownerOf code old = if h : code < 8 then .rgn ⟨code, h⟩ else if code = 8 then .device
      else if code = 15 then .nobody else old) ∧
    (∃ t, exec (.outEnableWrite v) s = .next t ∧
      t = { s with haly := { s.haly with outEnable := bit v.toNat 0, out := t.haly.out } } ∧
      ∀ n : Fin 8, t.haly.out[n] = { s.haly.out[n] with
        pin := if bit v.toNat 0 = false then .hiZ else if s.haly.out[n].pulses = [] then .low else .high }) ∧
    ∀ (n : Fin 4),
      let i := s.haly.inp[n]
      let first := i.edges = 0 ∧ bits v.toNat 1 0 ≠ 0
      let i' : HalyIn := { i with
        edges := bits v.toNat 1 0, filter := bits v.toNat 15 8, level := if first then i.pin else i.level }
      exec (.halyInCfgWrite .pf n v) s = .next { s with haly := { s.haly with inp := s.haly.inp.set n i' } }

/-- An edge whose level lasts at least the filter's CCLK, in this tick or the one before, moves the connector's level; a
shorter one changes nothing. While ticks run, such an edge to the other level always moves the filtered level. If
edges selects its kind and its connector time is after the present owner's instant, it enters the FIFO with the 48
low bits of TN of its tick, its offset, its kind and lost, which it clears; a FIFO of 64 drops it, counts it in
lost_count (saturating at 16 bits) and marks the next as lost. Otherwise, nothing but the levels changes. An edge to
the level that the filter already has leaves all but the connector's level.
(02_pennant_tick.md R39, 02_pennant_tick.md R41, 02_pennant_tick.md R42) -/
def Obligations.InputEdgesAreStampedForTheirOwner : Prop :=
  ∀ (s : State) (n : Fin 4) (rising : Bool) (ago cclk held : Nat),
    let i := s.haly.inp[n]
    let tn := if ago = 0 then s.tick.tn.toNat else s.tick.lastTn.toNat
    let put (x : HalyIn) : State := { s with haly := { s.haly with inp := s.haly.inp.set n x } }
    let connector : Int := ((s.tick.tn.toNat : Int) - ago) * 3200 + cclk
    let ours := ∀ c, i.ownerSince = some c → c < connector
    let selected := bit i.edges (if rising = true then 0 else 1) = true
    let edge := Instr.inputEdge n rising ago cclk held
    (held < i.filter ∨ 3200 ≤ cclk ∨ 1 < ago → exec edge s = .next s) ∧
    (i.filter ≤ held → cclk < 3200 → ago ≤ 1 →
      (s.tick.running = false ∨ i.level = rising → exec edge s = .next (put { i with pin := rising })) ∧
      (s.tick.running = true → i.level = (!rising) →
        (selected → ours → i.fifo.length < 64 → exec edge s = .next (put { i with
          pin := rising, level := rising, lost := false,
          fifo := i.fifo ++ [{ tn := tn % 2 ^ 48, ofs := cclk, rising := rising, lost := i.lost }] })) ∧
        (selected → ours → 64 ≤ i.fifo.length → exec edge s = .next (put { i with
          pin := rising, level := rising, lost := true, lostCount := min (i.lostCount + 1) 65535 })) ∧
        (¬ (selected ∧ ours) → exec edge s = .next (put { i with pin := rising, level := rising }))))

/-- On a powered module whose PERST# is not asserted, a tick boundary answers a next state in which ticks run. TN is 0
in the first tick after a reset; else it is one more than before, or the new TN that TICK_CONFIG or the ring left,
which also counts tn_epoch. A trim within the band of 100 ppm stays within it and moves by at most 0.05 ppm (5 in
units of 0.01 ppm); in HOLDOVER it does not move. Without power or with PERST# asserted no tick begins. The step of
the trim is a free value of the model; the statement holds for each.
(02_pennant_tick.md R23, 02_pennant_tick.md R24, 02_pennant_tick.md R32, 02_pennant_tick.md R31 with 16_power_energy_startup.md R392) -/
def Obligations.TickBoundaryCountsTn : Prop :=
  (∀ s : State, s.dev.powered = true → s.dev.perst = false →
    ∃ t, exec .tickBoundary s = .next t ∧ t.tick.running = true ∧
      (s.tick.running = false → t.tick.tn = 0 ∧ t.tick.tnEpoch = s.tick.tnEpoch) ∧
      (s.tick.running = true → s.tick.newTn = none → t.tick.tn = s.tick.tn + 1 ∧ t.tick.tnEpoch = s.tick.tnEpoch) ∧
      (∀ v, s.tick.running = true → s.tick.newTn = some v → t.tick.tn = v ∧ t.tick.tnEpoch = s.tick.tnEpoch + 1) ∧
      (-10000 ≤ s.tick.trim → s.tick.trim ≤ 10000 →
        -10000 ≤ t.tick.trim ∧ t.tick.trim ≤ 10000 ∧ (t.tick.trim - s.tick.trim).natAbs ≤ 5) ∧
      (s.tick.lock = .holdover → t.tick.trim = s.tick.trim)) ∧
  ∀ s : State, s.dev.powered = false ∨ s.dev.perst = true → exec .tickBoundary s = .next s

/-- Take a Herd tile of region n's ticking job, on a tile that is not cut, in a tick that is neither the initialisation
tick nor excluded, at the job's first tile in this tick, with no sweep unfinished. While NOISE_STATUS is not READY,
SWEEP_START makes the job hold and the tile wait, and changes nothing else. With noise READY, every tile's key at
hand and the ramp at its top, it begins the next sweep: the job's jt counts by one, β_sched is the schedule's value
there, and the tile sweeps class 0 from draw 0 with that jt; what follows changes none of this.
(05_noise.md R113, 04_herd_arrays.md R92, 06_annealing_low_states.md R124, 16_power_energy_startup.md R381, 02_pennant_tick.md R26) -/
def Obligations.SweepsHoldForNoiseAndBeginOnce : Prop :=
  ∀ (s : State) (h : Fin 64) (n : Fin 8) (j : Job), sweepRegion s h = some n → sweepingJob s n = some j →
    let b := s.herd.job[n]
    b.init = false → b.excluded = false → b.part = .ingest → b.late = false → b.active = false →
    s.pwr.tile[Fin.ofNat 192 ((engXY (.herd h)).2 * 16 + (engXY (.herd h)).1)].cut = false →
    (s.noise.state ≠ .ready → exec (.sweepStart h) s = .next { s with herd := { s.herd with
      job := s.herd.job.set n { b with holds := true }, tile := s.herd.tile.set h { s.herd.tile[h] with state := .waiting } } }) ∧
    (s.noise.state = .ready → 16 ≤ s.pwr.rgn[n].level → s.herd.tile[h].state ≠ .sweeping →
      (∀ k ∈ planTiles s n, needsKey s.noise.rgn[n] (b.jt + 1) s.herd.tile[k] = true → s.herd.tile[k].shadowKey ≠ none) →
      ∃ t, exec (.sweepStart h) s = .next t ∧ t.herd.job[n].jt = b.jt + 1 ∧ t.herd.job[n].active = true ∧
        t.herd.job[n].part = .sweep ∧ t.anl.rgn[n].betaSched = betaSched s.anl.rgn[n].sched (b.jt + 1) ∧
        t.herd.tile[h].state = .sweeping ∧ t.herd.tile[h].sweepJt = b.jt + 1 ∧ t.herd.tile[h].cls = 0)

/-- For a sweeping tile of a ticking job in its Sweep phase that has updated class c: CLASS_BEGIN runs class c + 1 if
there is one and halo_flits[c] exchange flits have arrived since class c began, and the tile then stands at class c
+ 1; with fewer flits, nothing changes. A sweep whose class 0 waits begins it once halo_flits[C - 1] flits have
arrived, and not before. An update that may run, with the format data within the format area, counts the class's
flits from 0. (R80) -/
def Obligations.ClassesWaitForHaloFlits : Prop :=
  (∀ (s : State) (h : Fin 64) (n : Fin 8), sweepRegion s h = some n → s.herd.job[n].part = .sweep →
    s.herd.tile[h].state = .sweeping →
    let x := s.herd.tile[h]
    let c := readHcb x.hcb
    (x.waits = false → x.cls + 1 < c.c → c.halo.getD x.cls 0 ≤ x.haloFlits → formatEnd c x.mem ≤ 0x1FE000 →
      ∃ t, exec (.classBegin h) s = .next t ∧ t.herd.tile[h].cls = x.cls + 1 ∧ t.herd.tile[h].state = .sweeping) ∧
    (x.waits = false → x.haloFlits < c.halo.getD x.cls 0 → exec (.classBegin h) s = .next s) ∧
    (x.waits = true → c.halo.getD (c.c - 1) 0 ≤ x.haloFlits → formatEnd c x.mem ≤ 0x1FE000 →
      ∃ t, exec (.classBegin h) s = .next t ∧ t.herd.tile[h].cls = 0 ∧ t.herd.tile[h].waits = false) ∧
    (x.waits = true → x.haloFlits < c.halo.getD (c.c - 1) 0 → exec (.classBegin h) s = .next s)) ∧
  ∀ (c : Nat) (x : HerdTile), (updateClass c x).haloFlits = 0 ∧ (updateClass c x).cls = c

/-- For a tile whose memory is in its canonical form and whose colour map covers at most 16,384 slots, the update of
class c leaves the state of every slot that is not of class c, gives each updated unit the state its rule chose, and
leaves every byte from 0x2000 on (beyond the states) as it was. The active HCB, the keys, the latched colours, the
active unary buffer and the sweep's jt stay. When a sweeping tile of a ticking job stands at its last class and
waits for nothing, SWEEP_DONE raises sweep_done with its TN and CCLK offset and the tile is idle; nothing else
changes. A tile that is not sweeping, waits, or stands before its last class raises nothing.
(04_herd_arrays.md R75, 04_herd_arrays.md Table 4-1, 04_herd_arrays.md R88, 02_pennant_tick.md, The per-tick budget check, 04_herd_arrays.md R91, 04_herd_arrays.md R95) -/
def Obligations.ClassUpdatesAndSweepDoneKeepTheRest : Prop :=
  (∀ (c : Nat) (x : HerdTile), Memory.wf x.mem = true → x.colours.length ≤ 16384 →
    let y := updateClass c x
    (∀ j, j ∉ classSlots x.colours (readHcb x.hcb) c → nib y.mem 0 j = nib x.mem 0 j) ∧
    (∀ u ∈ classUpdates x c, nib y.mem 0 u.slot = u.new % 16) ∧
    (∀ a, 0x2000 ≤ a → memGet y.mem a = memGet x.mem a) ∧
    y.hcb = x.hcb ∧ y.key = x.key ∧ y.colours = x.colours ∧ y.activeUnary = x.activeUnary ∧ y.sweepJt = x.sweepJt) ∧
  (∀ (s : State) (h : Fin 64) (n : Fin 8) (cclk : Nat), sweepRegion s h = some n → s.herd.tile[h].state = .sweeping →
    s.herd.tile[h].waits = false → s.herd.tile[h].cls + 1 = (readHcb s.herd.tile[h].hcb).c → cclk < 3200 →
    exec (.sweepDone h cclk) s = .next { s with herd := { s.herd with tile := s.herd.tile.set h { s.herd.tile[h] with
      state := .idle, sweepDone := true, doneTn := s.tick.tn.toNat, doneCclk := cclk } } }) ∧
  ∀ (s : State) (h : Fin 64) (cclk : Nat), s.herd.tile[h].state ≠ .sweeping ∨ s.herd.tile[h].waits = true ∨
    s.herd.tile[h].cls + 1 < (readHcb s.herd.tile[h].hcb).c → exec (.sweepDone h cclk) s = .next s

/-- In a tick in which region r's ticking job sweeps, OVERRUN_TEST answers a next state. Before the last tick of a group
it only counts the tick. Else, if every tile of the plan raised sweep_done, in an earlier tick or before CCLK 2,800
of this one, the consecutive count is 0, the last slot is the largest among the tiles that were last, the sweep
index counts, and each tile named once by the plan counts its sweep, captures the states of its slots and publishes
the flips of its slices. If any did not, the consecutive count (4 bits) and the overrun count (saturating) rise by
one, the last overrun TN is TN and the slot is 0xFF; with the count below overrun_limit the sweep goes on as a
continuation, and with the limit reached the sweep is discarded and the job is stopped. In a tick in which nothing
sweeps it changes nothing.
(02_pennant_tick.md R25, 02_pennant_tick.md R26, 02_pennant_tick.md R28, 02_pennant_tick.md R29, 02_pennant_tick.md R30, 04_herd_arrays.md R93, 04_herd_arrays.md R95) -/
def Obligations.BudgetTestCountsOverruns : Prop :=
  (∀ (s : State) (r : Fin 8) (j : Job), sweepingJob s r = some j → s.tick.rgn[r].ticking = true → s.herd.job[r].part = .sweep →
    let b := s.herd.job[r]
    let x := s.tick.rgn[r]
    let now := s.tick.tn.toNat
    let done := ∀ h ∈ planTiles s r, s.herd.tile[h].sweepDone = true ∧ (s.herd.tile[h].doneTn = now → s.herd.tile[h].doneCclk < 2800)
    let goesOn := b.late = false ∧ b.groupTick + 1 < sweepTicks s r
    ∃ t, exec (.overrunTest r) s = .next t ∧
      (goesOn → t = { s with herd := { s.herd with
        job := s.herd.job.set r { b with part := .emit, groupTick := b.groupTick + 1 } } }) ∧
      (¬ goesOn → done →
        ∃ slot, slot = lastSlot ((planTiles s r).map fun h => s.herd.tile[h]) ∧
          t.tick.rgn[r] = { x with consec := 0, lastDoneSlot := slot, maxDoneSlot := max x.maxDoneSlot slot } ∧
          t.herd.job[r].w = b.w + 1 ∧ t.herd.job[r].active = false ∧ t.herd.job[r].late = false ∧
          ((planTiles s r).Nodup → ∀ h ∈ planTiles s r,
            let y := s.herd.tile[h]
            let c := readHcb y.hcb
            t.herd.tile[h].sweeps = y.sweeps + 1 ∧ t.herd.tile[h].captured = (List.range c.slots).map (c.stateAt y.mem 0) ∧
            t.herd.tile[h].slices.map Slice.flips = y.slices.map Slice.flipsNow)) ∧
      (¬ goesOn → ¬ done →
        t.tick.rgn[r] = { x with consec := min 15 (x.consec + 1), overruns := min (x.overruns + 1) (2 ^ 32 - 1),
                                 lastOverrunTn := now, lastDoneSlot := 0xFF, maxDoneSlot := max x.maxDoneSlot 0xFF } ∧
        t.herd.job[r].w = b.w ∧
        (x.consec + 1 < x.limit → t.herd.job[r].late = true) ∧
        (x.limit ≤ x.consec + 1 → t.herd.job[r].late = false ∧ t.herd.job[r].active = false ∧
          (findJob s j.ref = some j → ∃ j', findJob t j.ref = some j' ∧ j'.phase = .stopped)))) ∧
  (∀ (s : State) (r : Fin 8), sweepingJob s r = none ∨ s.tick.rgn[r].ticking = false ∨ s.herd.job[r].part ≠ .sweep →
    exec (.overrunTest r) s = .next s) ∧
  ∀ (ts : List HerdTile) (k : HerdTile), k ∈ ts → (∀ x ∈ ts, x.doneTn ≤ k.doneTn) →
    (∀ x ∈ ts, x.doneTn = k.doneTn → x.doneCclk / 16 ≤ k.doneCclk / 16) → lastSlot ts = k.doneCclk / 16

/-- For the first emission of a chain that region r's ticking job has on its way, once every part of the record is
visible or discarded, HEADER_WRITE takes it and its write off, writes its 32-byte header unless a part was
discarded, then the chain's count word with the emission number plus one, and counts a record at the head tile, one
without a header too (the model's choice, log entry 96); then follows what follows of itself. With no such emission,
or with parts still on their way, nothing changes. For a reservoir held in reservoir order with res_k entries at
most, an offered energy and hash: nothing if res_k is 0, ENERGY_SAT is set or the energy lies outside int40; a
duplicate if an entry has the same hash; else with room an entry in the lowest-numbered free slot; else, if it comes
before the worst entry, it takes that entry's slot and the worst entry leaves; else nothing. A sweep of the burn-in
offers nothing: it changes nothing at all, but that a SEALED region's masked write may leave.
(04_herd_arrays.md R97, 10_memory_host_link.md R231, 10_memory_host_link.md R232, 06_annealing_low_states.md R131, 11_owners_secrecy.md R265, log entry 96) -/
def Obligations.HeadersAndReservoirOffersFollowTheirSteps : Prop :=
  (∀ (s : State) (r : Fin 8) (chain : Nat),
    (∀ e j, s.herd.job[r].emissions.find? (fun e => e.chain == chain) = some e → tickJobOf s r = some j →
      let write := s.herd.job[r].writes.find? fun w => w.id == e.write && w.left == 0
      (∀ w, write = some w →
        let b := s.herd.job[r]
        let s1 : State := { s with herd := { s.herd with job := s.herd.job.set r { b with
          emissions := b.emissions.erase e, writes := b.writes.filter fun x => x.id != w.id } } }
        let s2 := if w.dropped = true then s1 else jobWrite j.ref (.herd e.head) e.addr (headerBytes r e) s1
        let s3 := jobWrite j.ref (.herd e.head) e.countAddr (leBytes 8 (e.t + 1)) s2
        (headerBytes r e).length = 32 ∧
        exec (.headerWrite r chain) s = .next (settle r { s3 with herd := { s3.herd with
          tile := s3.herd.tile.set e.head { s3.herd.tile[e.head] with records := s3.herd.tile[e.head].records + 1 } } })) ∧
      (write = none → exec (.headerWrite r chain) s = .next s)) ∧
    (s.herd.job[r].emissions.find? (fun e => e.chain == chain) = none → exec (.headerWrite r chain) s = .next s)) ∧
  ((∀ (k w : Nat) (e : Int) (h : W64) (sat : Bool) (l : List ResEntry),
    let refused := k = 0 ∨ sat = true ∨ ¬ (-(2 ^ 39) ≤ e ∧ e ≤ 2 ^ 39 - 1)
    let same := ∃ x ∈ l, x.hash = h
    (refused → resOffer k w e h sat l = .nothing) ∧
    (¬ refused → same → resOffer k w e h sat l = .duplicate) ∧
    (¬ refused → ¬ same → l.length < k → (l.map ResEntry.slot).Nodup →
      ∃ j res, resOffer k w e h sat l = .inserted j res ∧ j < k ∧ (∀ x ∈ l, x.slot ≠ j) ∧
        (∀ i < j, ∃ x ∈ l, x.slot = i) ∧
        res.Perm ({ energy := e, hash := h, sweep := w % 2 ^ 32, slot := j, valid := false } :: l)) ∧
    (∀ worst best, ¬ refused → ¬ same → k ≤ l.length → l = best ++ [worst] →
      (e < worst.energy ∨ e = worst.energy ∧ h < worst.hash →
        ∃ res, resOffer k w e h sat l = .inserted worst.slot res ∧
          res.Perm ({ energy := e, hash := h, sweep := w % 2 ^ 32, slot := worst.slot, valid := false } :: best)) ∧
      (¬ (e < worst.energy ∨ e = worst.energy ∧ h < worst.hash) → resOffer k w e h sat l = .nothing))) ∧
  ∀ (j : Job) (g w : Nat) (hd : Part) (ps : List Part) (c : Chain) (s : State), w < hd.cfg.burnIn →
    (∃ src job, offerState j g w hd ps c s = { s with
      mesh := { s.mesh with src := src }, herd := { s.herd with job := s.herd.job.set j.ref.r job } }) ∧
    (ctxSealed s (ctxOf j.ref.r) = false → offerState j g w hd ps c s = s))

/-- A reservoir in reservoir order, with distinct hashes and distinct slots below res_k (R130, R131). -/
def ReservoirSound (k : Nat) (l : List ResEntry) : Prop :=
  l.Pairwise (fun x y => x.energy < y.energy ∨ x.energy = y.energy ∧ x.hash < y.hash) ∧
  (l.map ResEntry.hash).Nodup ∧ (l.map ResEntry.slot).Nodup ∧ (∀ x ∈ l, x.slot < k) ∧ l.length ≤ k

/-- Let a reservoir be sound for res_k when its entries are strictly ascending in energy and then hash, no two have the
same hash, no two the same state slot, every slot is below res_k, and there are at most res_k. The empty reservoir
is sound, and whatever is offered to a sound reservoir, what an insertion leaves is sound.
(06_annealing_low_states.md R130, 06_annealing_low_states.md R131) -/
def Obligations.ReservoirStaysOrderedAndDistinct : Prop :=
  ∀ k, ReservoirSound k [] ∧ ∀ (w : Nat) (e : Int) (h : W64) (sat : Bool) (l : List ResEntry), ReservoirSound k l →
    ∀ j res, resOffer k w e h sat l = .inserted j res → ReservoirSound k res

/-- For a completed sweep's energy e, flips f and ENERGY_SAT: best falls to e exactly when the sweep has no ENERGY_SAT
and e < best. With stall_on 0 nothing else changes. With stall_on 1 and an improvement, quiet is 0 and the offset is
0, or, in decay mode, decays from this update on. Without one, f below stall_flips counts a quiet sweep, and at
stall_window the offset grows by stall_step to at most offset_max, quiet restarts, decaying ends and grow_count
counts; f at or above stall_flips sets quiet to 0 and leaves the offset, but for a decay in progress. An offset at
most offset_max stays at most offset_max. (06_annealing_low_states.md R126, 06_annealing_low_states.md R128) -/
def Obligations.AnnealingUpdateMatchesItsProgram : Prop :=
  ∀ (a : Acb) (e : Int) (sat : Bool) (f : Nat) (c : Chain),
    let better := sat = false ∧ e < c.best
    let r := annealUpdate a e sat f c
    let decayed (on : Bool) (o : Nat) : Nat × Bool := if on = true then (o - a.decay, decide (o - a.decay ≠ 0)) else (o, on)
    (better → r.best = e) ∧ (¬ better → r.best = c.best) ∧
    (r.idx = c.idx ∧ r.beta = c.beta ∧ r.sweeps = c.sweeps ∧ r.res = c.res) ∧
    (a.stallOn = false → r.quiet = c.quiet ∧ r.offset = c.offset ∧ r.decaying = c.decaying ∧ r.grow = c.grow) ∧
    (a.stallOn = true → better → r.quiet = 0 ∧ r.grow = c.grow ∧
      (a.decayMode = false → (r.offset, r.decaying) = decayed c.decaying 0) ∧
      (a.decayMode = true → (r.offset, r.decaying) = decayed true c.offset)) ∧
    (a.stallOn = true → ¬ better → a.stallFlips ≤ f → r.quiet = 0 ∧ r.grow = c.grow ∧
      (r.offset, r.decaying) = decayed c.decaying c.offset) ∧
    (a.stallOn = true → ¬ better → f < a.stallFlips → c.quiet + 1 < a.window → r.quiet = c.quiet + 1 ∧ r.grow = c.grow ∧
      (r.offset, r.decaying) = decayed c.decaying c.offset) ∧
    (a.stallOn = true → ¬ better → f < a.stallFlips → a.window ≤ c.quiet + 1 → r.quiet = 0 ∧ r.decaying = false ∧
      r.offset = min a.offsetMax (c.offset + a.step) ∧ r.grow = min (c.grow + 1) 65535) ∧
    (c.offset ≤ a.offsetMax → r.offset ≤ a.offsetMax)

/-- The entries that a merge keeps are valid reservoir entries of the chains, at most merge_k of them, in strictly
ascending order of energy, hash, chain and sweep, no two with one hash; and any valid entry that is not kept either
has the hash of an earlier kept or dropped entry that comes before it or equals it in that order, or comes after
merge_k kept ones. (06_annealing_low_states.md R135) -/
def Obligations.MergeKeepsTheLowestDistinctStates : Prop :=
  ∀ (k : Nat) (cs : List Chain), (cs.map Chain.idx).Nodup → (∀ c ∈ cs, (c.res.map ResEntry.hash).Nodup) →
    let kept := mergeKept k cs
    kept.length ≤ k ∧ (kept.map Gathered.hash).Nodup ∧ kept.Pairwise (fun x y => x.before y = true) ∧
    (∀ x ∈ kept, ∃ c ∈ cs, ∃ q ∈ c.res, q.valid = true ∧
      x = { energy := q.energy, hash := q.hash, chain := c.idx, sweep := q.sweep, slot := q.slot }) ∧
    (∀ x ∈ gather cs, x ∉ kept →
      (∃ y ∈ gather cs, y.hash = x.hash ∧ y.before x = true) ∨ (kept.length = k ∧ ∀ y ∈ kept, y.before x = true))

/-- RESERVOIR_WRITE_DONE of a pending state whose parts are all visible or discarded takes it off the pending ones, and
the entries of that chain in that slot are valid unless a part was discarded; then follows what follows of itself.
Of a state that is not pending, or with parts on their way, it changes nothing. When TICK_STOP, the sweep limit or
END has made the present tick the last, TICKING_END ends the region's ticking: it ticks and anneals no more.
MERGE_START, with the merge waiting and no write pending, starts it and changes nothing else; with a write pending
it does not. MERGE_COMPLETE of a running merge ends it.
(06_annealing_low_states.md R132, 06_annealing_low_states.md R134, 06_annealing_low_states.md R135) -/
def Obligations.TickingEndsAndMergesRun : Prop :=
  ∀ (s : State) (r : Fin 8),
    (∀ chain slot,
      let found := s.herd.job[r].pending.find? fun x => (x.1, x.2.1) == (chain, slot)
      (∀ x, found = some x →
        let write := s.herd.job[r].writes.find? fun w => w.id == x.2.2 && w.left == 0
        (∀ w, write = some w → ∃ t, exec (.reservoirWriteDone r chain slot) s = .next (settle r t) ∧
          t.herd.job[r].pending = s.herd.job[r].pending.erase x ∧
          (w.dropped = false → ∀ c ∈ t.anl.rgn[r].chains, c.idx = chain → ∀ x ∈ c.res, x.slot = slot → x.valid = true) ∧
          (w.dropped = true → t.anl = s.anl) ∧ t.que = s.que ∧ t.jobs = s.jobs ∧ t.mem = s.mem) ∧
        (write = none → exec (.reservoirWriteDone r chain slot) s = .next s)) ∧
      (found = none → exec (.reservoirWriteDone r chain slot) s = .next s)) ∧
    (∀ j, sweepingJob s r = some j → s.tick.rgn[r].ticking = true → ticksLast s r j = true →
      ∃ t, exec (.tickingEnd r) s = .next t ∧ t.tick.rgn[r].ticking = false ∧ t.anl.rgn[r].active = false) ∧
    (∀ m j, (s.rgn.rgn[r]).mbs.head? = some m → sweepingJob s r = some j → s.kudu[m].mergeWaits = true →
      (s.herd.job[r].pending = [] →
        exec (.mergeStart r) s = .next { s with
          kudu := s.kudu.set m { s.kudu[m] with mergeWaits := false, merging := true },
          anl := { s.anl with rgn := s.anl.rgn.set r { s.anl.rgn[r] with merging := true } } }) ∧
      (s.herd.job[r].pending ≠ [] → exec (.mergeStart r) s = .next s)) ∧
    ∀ m j, (s.rgn.rgn[r]).mbs.head? = some m → sweepingJob s r = some j → s.kudu[m].merging = true →
      ∃ t, exec (.mergeComplete r) s = .next t ∧ t.kudu[m].merging = false

/-- On an existing link of region n, in a slot whose active entry is not idle and has a CCLK left, the flit at the head
of the buffer that the entry names leaves it and is counted as sent; with no such entry or flit nothing crosses. A
flit without an uncorrectable error that carries the link's tag is delivered at its destination; elsewhere it joins
a buffer of fewer than 32 flits, to leave in the next slot at the earliest; a full buffer loses it, counts
vc0_overflow, and the region's ticking job has the error VC0_OVERFLOW. With any other tag it is lost and wall_drop
counts, a region-level error of the link's region; with a double-bit error it is lost, a region-level error too. A
corrected error counts ce_count. A flit that no entry sends crosses only against the wall: with the link's tag
nothing happens, with another it is lost and counted, on a link of no region without an error of a region (the
model's choice, log entry 98).
(03_mesh_regions_rim.md R48, 03_mesh_regions_rim.md R50, 03_mesh_regions_rim.md R51, 03_mesh_regions_rim.md R56, 03_mesh_regions_rim.md R66, 01_machine_in_one_tick.md R14, log entry 98) -/
def Obligations.Vc0FlitsStayInsideTheirRegion : Prop :=
  ∀ (s : State) (d : LinkDir) (ecc : Ecc) (h : linkIdx d < 768),
    onDie d.x d.y = true → linkExists (linkIdx d) = true →
    let l : Fin 768 := ⟨linkIdx d, h⟩
    let e := linkEnd (linkIdx d)
    let site : Site := { x := e.1, y := e.2, engine := 7, detail := 0 }
    let corrected (s : State) : State :=
      if ecc = .single then modLink l (fun k => { k with ceCount := min (k.ceCount + 1) 65535 }) s else s
    let dropped (s : State) : State := modLink l (fun k => { k with wallDrop := min (k.wallDrop + 1) 65535 }) (corrected s)
    (∀ slot a, entryAt s l slot = some a → a ∈ activeEntries s l ∧ a.slot = slot ∧ a.src ≠ 0 ∧
      s.mesh.links[l].vc0Slot ≤ slot ∧ (s.mesh.links[l].vc0Slot = slot → s.mesh.links[l].vc0InSlot < a.flits)) ∧
    (∀ slot, linkTag s (linkIdx d) = none ∨ entryAt s l slot = none → exec (.vc0FlitArrival d (.planned slot) ecc) s = .next s) ∧
    (∀ slot n a, linkTag s (linkIdx d) = some n → entryAt s l slot = some a →
      (vc0Head s d.x d.y a.src n slot = none → exec (.vc0FlitArrival d (.planned slot) ecc) s = .next s) ∧
      ∀ f, vc0Head s d.x d.y a.src n slot = some f →
        let s1 := modLink l (fun k => { k with
          vc0Sent := k.vc0Sent + 1, vc0Slot := slot, vc0InSlot := if k.vc0Slot = slot then k.vc0InSlot + 1 else 1 })
          (takeVc0 d.x d.y a.src f s)
        let s2 := corrected s1
        (ecc = .double → exec (.vc0FlitArrival d (.planned slot) ecc) s = .next (regionError n .meshUe site none s1)) ∧
        (ecc ≠ .double → n.val ≠ f.tag →
          exec (.vc0FlitArrival d (.planned slot) ecc) s = .next (regionError n .wallDrop site none (dropped s1))) ∧
        (ecc ≠ .double → n.val = f.tag →
          (e = (f.dx, f.dy) →
            exec (.vc0FlitArrival d (.planned slot) ecc) s = .next (settle n (deliverVc0 n e.1 e.2 f.load s2))) ∧
          (e ≠ (f.dx, f.dy) → s2.mesh.links[l].vc0.length < 32 → exec (.vc0FlitArrival d (.planned slot) ecc) s =
            .next (settle n (modLink l (fun k => { k with vc0 := k.vc0 ++ [{ flit := f, ready := slot + 1 }] }) s2))) ∧
          (e ≠ (f.dx, f.dy) → 32 ≤ s2.mesh.links[l].vc0.length →
            ∃ t, exec (.vc0FlitArrival d (.planned slot) ecc) s = .next t ∧
              t.mesh.links[l].vc0Overflow = min (s2.mesh.links[l].vc0Overflow + 1) 65535 ∧
              t.mesh.links[l].vc0 = s2.mesh.links[l].vc0 ∧
              (∀ j, tickJobOf s2 n = some j → findJob s2 j.ref = some j → j.phase = .running →
                ∃ j', findJob t j.ref = some j' ∧ j'.phase = .stopped)))) ∧
    ∀ f : Vc0Flit,
      (∀ n, linkTag s (linkIdx d) = some n →
        (n.val = f.tag → exec (.vc0FlitArrival d (.stray f) ecc) s = .next s) ∧
        (n.val ≠ f.tag → ecc = .double →
          exec (.vc0FlitArrival d (.stray f) ecc) s = .next (regionError n .meshUe site none s)) ∧
        (n.val ≠ f.tag → ecc ≠ .double →
          exec (.vc0FlitArrival d (.stray f) ecc) s = .next (regionError n .wallDrop site none (dropped s)))) ∧
      (linkTag s (linkIdx d) = none →
        (ecc = .double → exec (.vc0FlitArrival d (.stray f) ecc) s = .next s) ∧
        (ecc ≠ .double → exec (.vc0FlitArrival d (.stray f) ecc) s = .next (dropped s)))

/-- The packet that an output sends goes along its row and then its column, its channel's buffer ahead has room for it,
and no packet of VC3 that has room waits while another channel's goes. Without an uncorrectable error and under its
link's tag it joins the buffer; where nothing else waits, at an interior destination a write on VC1 or VC2 is
performed if the unit serves it now, else it waits there. Under another tag it is lost, counted, and a region-level
error of the link's region. A Rim flit goes the shorter way round, clockwise when both are equal; it crosses a
segment in a lane-slot only of the context that owns that unit, 16 in one lane-slot at most, if the buffer ahead has
room or it is at its destination; a double-bit error is the device error RIM_UE. The oldest staged part of a
region's record enters the Rim ahead of its other traffic.
(03_mesh_regions_rim.md R49, 03_mesh_regions_rim.md R50, 03_mesh_regions_rim.md R52, 03_mesh_regions_rim.md R59, 03_mesh_regions_rim.md R60, 03_mesh_regions_rim.md R61, 03_mesh_regions_rim.md R64, 03_mesh_regions_rim.md R66, 07_ibex_chamois.md R148, 10_memory_host_link.md R231) -/
def Obligations.PacketsAndRimFlitsKeepTheirWalls : Prop :=
  (∀ (s : State) (d : LinkDir) (own : Option MeshPacket) (ecc : Ecc) (h : linkIdx d < 768),
    onDie d.x d.y = true → linkExists (linkIdx d) = true →
    let l : Fin 768 := ⟨linkIdx d, h⟩
    let e := linkEnd (linkIdx d)
    let site : Site := { x := e.1, y := e.2, engine := 7, detail := 0 }
    (nextPacket s d l own = none → exec (.meshPacketArrival d own ecc) s = .next s) ∧
    ∀ i p, nextPacket s d l own = some (i, p) →
      let s1 := modLink l (fun k => { k with served := k.served.set (vcIdx p.vc) i }) (takePacket d.x d.y i p s)
      let s2 := modLink l (fun k => { k with vc := k.vc ++ [p] }) s1
      s.mesh.links[l].hasRoom p = true ∧ nextPort d.x d.y p.dx p.dy = some d.port ∧
      (p.vc ≠ .vc3 → ∀ i : Fin 5, ∀ q, offer s d.x d.y d.port own .vc3 i = some q → s.mesh.links[l].hasRoom q = false) ∧
      (∀ n, linkTag s (linkIdx d) = some n → ecc = .double →
        exec (.meshPacketArrival d own ecc) s = .next (regionError n .meshUe site none s1)) ∧
      (∀ n, linkTag s (linkIdx d) = some n → ecc = .clean →
        (n.val ≠ p.tag → exec (.meshPacketArrival d own ecc) s = .next (regionError n .wallDrop site none
          (modLink l (fun k => { k with wallDrop := min (k.wallDrop + 1) 65535 }) s1))) ∧
        (n.val = p.tag → exec (.meshPacketArrival d own ecc) s = .next (serveHeld e.1 e.2 s2)) ∧
        (n.val = p.tag → e = (p.dx, p.dy) → Sys2Proof.Machine.interior e.1 e.2 = true → p.vc ≠ .vc3 →
          (∀ k ∈ linksInto e.1 e.2, s1.mesh.links[k].vc = []) →
          (servesWrite s1 (unitAt e.1 e.2) p.addr p.data.length = true →
            exec (.meshPacketArrival d own ecc) s = .next (landPacket (unitAt e.1 e.2) p s1)) ∧
          (servesWrite s1 (unitAt e.1 e.2) p.addr p.data.length = false →
            exec (.meshPacketArrival d own ecc) s = .next s2)))) ∧
  (∀ (s : State) (seg : Fin 24) (ccw : Bool) (lane : Fin 4) (slot : Nat) (ecc : Ecc),
    let d : Fin 48 := ⟨2 * seg.val + (if ccw = true then 1 else 0), by split <;> omega⟩
    let here : Fin 24 := if ccw = true then seg + 1 else seg
    let next : Fin 24 := if ccw = true then seg else seg + 1
    let key := 800 * d.val + 4 * slot + lane.val
    let sent := ((s.rim.used.find? fun u => u.1 == key).map Prod.snd).getD 0
    (s.rim.owner[d][rimUnit lane slot] = none → exec (.rimFlitArrival (.cross seg ccw lane slot) ecc) s = .next s) ∧
    ∀ c, s.rim.owner[d][rimUnit lane slot] = some c →
      let waits := s.rim.held.find? fun h => h.pos == here && h.ccw == ccw && h.flit.ctx == c && decide (h.ready ≤ slot)
      (waits = none → exec (.rimFlitArrival (.cross seg ccw lane slot) ecc) s = .next s) ∧
      ∀ x, waits = some x →
        let room := x.flit.dest = next ∨
          (s.rim.held.filter fun h => h.pos == next && h.ccw == ccw && h.flit.ctx == c).length < 32
        let s1 : State := { s with rim := { s.rim with
          held := s.rim.held.erase x, used := (key, sent + 1) :: s.rim.used.filter fun u => u.1 != key } }
        (200 ≤ slot ∨ 16 ≤ sent ∨ ¬ room → exec (.rimFlitArrival (.cross seg ccw lane slot) ecc) s = .next s) ∧
        (slot < 200 → sent < 16 → room →
          (ecc = .clean → x.flit.dest = next →
            exec (.rimFlitArrival (.cross seg ccw lane slot) ecc) s = .next (landRim x.flit s1)) ∧
          (ecc = .clean → x.flit.dest ≠ next → exec (.rimFlitArrival (.cross seg ccw lane slot) ecc) s =
            .next { s1 with rim := { s1.rim with held := s1.rim.held ++ [{ x with pos := next, ready := slot + 1 }] } }) ∧
          (ecc = .single → x.flit.dest ≠ next → exec (.rimFlitArrival (.cross seg ccw lane slot) ecc) s =
            .next { s1 with rim := { s1.rim with
              ceCount := s.rim.ceCount.set d (min (s.rim.ceCount[d] + 1) 65535),
              held := s1.rim.held ++ [{ x with pos := next, ready := slot + 1 }] } }) ∧
          (ecc = .double → exec (.rimFlitArrival (.cross seg ccw lane slot) ecc) s = .next (deviceError .rimUe
            { x := (edgeXY next).1, y := (edgeXY next).2, engine := 8, detail := 0 } 15 0 s1)))) ∧
  ∀ (s : State) (r : Fin 8) (p dest : Fin 24) (bytes : Nat) (ecc : Ecc),
    let ccw (q : Fin 24) : Bool := decide (12 < (q - p).val)
    let room (q : Fin 24) : Prop :=
      (s.rim.held.filter fun h => h.pos == p && h.ccw == ccw q && h.flit.ctx == ctxOf r).length < 32
    let enter := Instr.rimFlitArrival (.enter p (ctxOf r) dest bytes) ecc
    (s.rim.staging[r][p] ≠ [] ∨ dest = p ∨ ¬ room dest → exec enter s = .next s) ∧
    (s.rim.staging[r][p] = [] → dest ≠ p → room dest → exec enter s = .next { s with rim := { s.rim with
      held := s.rim.held ++ [{ pos := p, ccw := ccw dest, ready := 0,
                               flit := { ctx := ctxOf r, dest := dest, load := .other bytes } }] } }) ∧
    (s.rim.staging[r][p] = [] → exec (.rimFlitArrival (.emit r p) ecc) s = .next s) ∧
    ∀ x rest place, s.rim.staging[r][p] = x :: rest → x.data.length ≤ 2 ^ 21 - x.addr % 2 ^ 21 →
      translate s p (ctxOf r) x.addr true = .ok place → placeTile place ≠ p → room (placeTile place) →
      exec (.rimFlitArrival (.emit r p) ecc) s = .next { s with rim := { s.rim with
        staging := s.rim.staging.set r (s.rim.staging[r].set p rest),
        held := s.rim.held ++ [{ pos := p, ccw := ccw (placeTile place), ready := 0,
                                 flit := { ctx := ctxOf r, dest := placeTile place,
                                           load := .write x.id place x.masked x.data } }] } }

/-- For a REGION_CREATE whose turn it is, that its core takes (it takes Q0 before) and that R289 does not reject: with
RIM_UE or lockstep in force, or HBM_UE, it is refused with DEVICE_FAULT. Else the first of these that fails gives
its status: region ID 0-7 and FREE; one of the 30 rectangles; no overlap with a region that is not FREE; a segment
mask and 1-31 units; units and frames enough; a core; noise not FAILED; the region stays as it was. With none, the
region is FORMING with one more generation, its rectangle and its frames claimed, one for each page, and its
macro-blocks' tags are its own from the next tick on. While the core takes another queue first, nothing changes.
(03_mesh_regions_rim.md R69, 03_mesh_regions_rim.md Table 3-5 steps 1-3, 03_mesh_regions_rim.md R62, 10_memory_host_link.md R216, 14_faults_restart.md Table 14-4) -/
def Obligations.RegionCreateFailsByFirstCheck : Prop :=
  ∀ (s : State) (p : Pkt), currentOp s maintQ 0x40 = some p →
    let c := readCreate p.bytes
    let idBad := 7 < c.id ∨ s.rgn.rgn[Fin.ofNat 8 c.id].state ≠ .free
    let rectBad := ¬ (c.bx0 + c.bwM1 + 1 ≤ 2 ∧ c.by0 + c.bhM1 + 1 ≤ 4)
    let overlap := ∃ i : Fin 8, s.rgn.rgn[i].state ≠ .free ∧ ∃ m ∈ s.rgn.rgn[i].mbs, c.rect.hasMb m.val = true
    let request := c.segMask = 0 ∨ ¬ (1 ≤ c.units ∧ c.units ≤ 31)
    let scarce := (∃ d ∈ segDirs c.segMask, freeUnits s d < c.units) ∨ framesEnough s.mem c.bx0 c.bwM1 c.pages = false
    let ends (st : Nat) : Prop := exec .regionCreate s = .next (settleMaint (decide' maintQ p.pos (plainDone st) s))
    (coreTakes s maintQ = false → exec .regionCreate s = .next s) ∧
    (∀ st, coreTakes s maintQ = true → pktReject 32 p.bytes = some st → ends st) ∧
    (coreTakes s maintQ = true → pktReject 32 p.bytes = none →
      (s.err.rimUe = true ∨ s.err.lockstep = true ∨ (∃ k : Fin 4, s.err.hbmUe[k] = true) → ends Status.deviceFault) ∧
      (maintRefused 0x40 s = false →
        (idBad → ends Status.createIdState) ∧
        (¬ idBad → rectBad → ends Status.createRect) ∧
        (¬ idBad → ¬ rectBad → overlap → ends Status.createOverlap) ∧
        (¬ idBad → ¬ rectBad → ¬ overlap → request → ends Status.createRimRequest) ∧
        (¬ idBad → ¬ rectBad → ¬ overlap → ¬ request → scarce → ends Status.createResources) ∧
        (¬ idBad → ¬ rectBad → ¬ overlap → ¬ request → ¬ scarce → pickCore s = none → ends Status.createNoCp) ∧
        (¬ idBad → ¬ rectBad → ¬ overlap → ¬ request → ¬ scarce → pickCore s ≠ none → s.noise.state = .failed →
          ends Status.entropyFailure) ∧
        (¬ idBad → ¬ rectBad → ¬ overlap → ¬ request → ¬ scarce → pickCore s ≠ none → s.noise.state ≠ .failed →
          ∃ t, exec .regionCreate s = .next t ∧
            let r := t.rgn.rgn[Fin.ofNat 8 c.id]
            r.state = .forming ∧ r.gen = s.rgn.rgn[Fin.ofNat 8 c.id].gen + 1 ∧
            r.bx0 = c.bx0 ∧ r.by0 = c.by0 ∧ r.bwM1 = c.bwM1 ∧ r.bhM1 = c.bhM1 ∧ r.rimUnits = c.units ∧ r.segMask = c.segMask ∧
            r.claimed.length = c.pages ∧ ∀ m ∈ r.mbs, t.mesh.tagNext[m] = some (Fin.ofNat 8 c.id))))

/-- For a FORMING region that REGION_CREATE asked for, with noise READY and the DRBG serving, its Rim units its own, the
cores that create regions running, and no destruction or FLR waiting: if a core qualifies, CREATION_COMPLETE opens
the region, with that core serving it, an XTS key, and key_valid; if none does, the region is FREE and keeps its
generation. A region that is not FORMING, or while noise is not READY, does not change.
(03_mesh_regions_rim.md R70 and Table 3-5 steps 4-6, 03_mesh_regions_rim.md R69, 08_kudu_markhor_criward.md R171, 10_memory_host_link.md R218) -/
def Obligations.CreationOpensOrFreesTheRegion : Prop :=
  ∀ (s : State) (r : Fin 8),
    (s.rgn.rgn[r].state = .forming → drbgServes s 3 = true → unitsTaken s r = true → creators s false = true →
      s.rgn.rgn[r].byFlr = false → s.rgn.rgn[r].destroyWaits = false → s.rgn.rgn[r].flrWaits = false →
      (∀ c, pickCore s = some c → ∃ t, exec (.creationComplete r) s = .next t ∧ t.rgn.rgn[r].state = .opened ∧
        t.rgn.rgn[r].cp = c.val ∧ t.rgn.rgn[r].gen = s.rgn.rgn[r].gen ∧ t.mkh.cp[c].regions.getLsbD r.val = true ∧
        t.mem.ctx[ctxOf r].keyValid = true ∧ t.mem.ctx[ctxOf r].key ≠ none) ∧
      (pickCore s = none → ∃ t, exec (.creationComplete r) s = .next t ∧ t.rgn.rgn[r].state = .free ∧
        t.rgn.rgn[r].gen = s.rgn.rgn[r].gen)) ∧
    (s.rgn.rgn[r].state ≠ .forming ∨ s.noise.state ≠ .ready → exec (.creationComplete r) s = .next s)

/-- REGION_DESTROY, when its core takes it, of a FREE region completes with REGION_STATE. Of one that neither forms nor
is re-created for an FLR it sets tearing_down, leaves the region without a job, and every Halyard output it owns
without a schedule, a pulse or a high level. DESTROY_COMPLETE of a region that is torn down, and not for an FLR,
leaves it FREE: no macro-block carries its tag, no Rim unit is its context's, no frame is its own, its context holds
no key and no pages, and no job of it is left. Of a region that is not torn down it changes nothing.
(03_mesh_regions_rim.md R71 and Table 3-6, 02_pennant_tick.md R38, 10_memory_host_link.md R215, 10_memory_host_link.md R233) -/
def Obligations.DestructionClosesTheRegion : Prop :=
  (∀ (s : State) (p : Pkt), currentOp s maintQ 0x41 = some p → coreTakes s maintQ = true →
    pktReject 32 p.bytes = none → s.err.rimUe = false →
    let n : Fin 8 := Fin.ofNat 8 (fieldAt p.bytes 16 1)
    (s.rgn.rgn[n].state = .free → exec .regionDestroy s =
      .next (settleMaint (decide' maintQ p.pos (plainDone Status.regionState) s))) ∧
    (s.rgn.rgn[n].state ≠ .free → s.rgn.rgn[n].state ≠ .forming → s.rgn.rgn[n].byFlr = false →
      ∃ t, exec .regionDestroy s = .next t ∧ t.rgn.rgn[n].tearingDown = true ∧ (∀ j ∈ t.jobs, j.ref.r ≠ n) ∧
        ∀ o : Fin 8, t.haly.out[o].owner = .rgn n →
          t.haly.out[o].sched = none ∧ t.haly.out[o].old = [] ∧ t.haly.out[o].pulses = [] ∧ t.haly.out[o].pin ≠ .high)) ∧
  ∀ (s : State) (r : Fin 8),
    (s.rgn.rgn[r].tearingDown = true → s.rgn.rgn[r].byFlr = false →
      ∃ t, exec (.destroyComplete r) s = .next t ∧ t.rgn.rgn[r].state = .free ∧ t.rgn.rgn[r].tearingDown = false ∧
        (∀ m : Fin 8, t.mesh.tag[m] ≠ some r ∧ t.mesh.tagNext[m] ≠ some r) ∧
        (∀ (d : Fin 48) (u : Fin 32), t.rim.owner[d][u] ≠ some (ctxOf r) ∧ t.rim.alloc[d][u] ≠ some (ctxOf r)) ∧
        (∀ f, frameOwner t.mem f ≠ r.val) ∧ t.mem.ctx[ctxOf r].key = none ∧ t.mem.ctx[ctxOf r].pages = 0 ∧
        ∀ j ∈ t.jobs, j.ref.r ≠ r) ∧
    (s.rgn.rgn[r].tearingDown = false → exec (.destroyComplete r) s = .next s)

/-- On a powered module, a sample of a source whose window is not full and whose run is not one of 61 still to be dealt
with counts it, extends or restarts the run of identical samples, opens the window with the first sample or counts
it if it equals the window's first, and is gathered (to at most 40) once start-up testing is done unless its run or
window fails with it. A run of 61 makes noise fail once, cause 1 in the source's start-up window and 3 after it,
clears the source's bit of src_ok and gives up what it gathered; the run goes on. A window of 1,024 samples with 810
or more equal to its first does so with cause 2 or 4; one with fewer passes, which in the start-up window of a
source that has not failed sets the source's bit and, with all sixteen passed, startup_done. Shorter runs and
windows change nothing.
(05_noise.md R99, 05_noise.md R100, 05_noise.md R101, 05_noise.md R103, 05_noise.md R108, 05_noise.md Table 5-5) -/
def Obligations.SamplesFeedTheHealthTests : Prop :=
  ∀ (s : State) (k : Fin 16),
    let x := s.noise.src[k]
    (∀ b, s.dev.powered = true → x.count < 1024 → x.run < 61 ∨ x.stuck = true → ∃ t, exec (.rawSample k b) s = .next t ∧
      t = { s with noise := { s.noise with src := s.noise.src.set k t.noise.src[k] } } ∧
      let y := t.noise.src[k]
      y.samples = x.samples + 1 ∧ y.last = some b ∧ y.run = (if x.last = some b then x.run + 1 else 1) ∧ y.count = x.count + 1 ∧
      (y.stuck = true ↔ x.stuck = true ∧ x.last = some b) ∧
      (x.count = 0 → y.first = b ∧ y.same = 1) ∧
      (x.count ≠ 0 → y.first = x.first ∧ y.same = if b = x.first then x.same + 1 else x.same) ∧
      y.ones = (if b = true then x.ones + 1 else x.ones) ∧
      y.gathered = if s.noise.startupDone = true ∧ y.run < 61 ∧ y.same < 810 ∧ x.gathered.length < 40 then x.gathered ++ [b]
        else x.gathered) ∧
    (x.run < 61 ∨ x.stuck = true → exec (.repetitionCountFail k) s = .next s) ∧
    (61 ≤ x.run → x.stuck = false → ∃ t, exec (.repetitionCountFail k) s = .next t ∧ t.noise.state = .failed ∧
      t.noise.srcOk.getLsbD k.val = false ∧ t.noise.src[k].run = x.run ∧ t.noise.src[k].stuck = true ∧ t.noise.src[k].gathered = [] ∧
      (s.noise.state ≠ .failed → t.noise.failSrc = k.val ∧ t.noise.failCause = if x.passed = true then 3 else 1)) ∧
    (x.count ≠ 1024 → exec (.adaptiveWindowEnd k) s = .next s) ∧
    (x.count = 1024 → 810 ≤ x.same → ∃ t, exec (.adaptiveWindowEnd k) s = .next t ∧
      t.noise.state = .failed ∧ t.noise.srcOk.getLsbD k.val = false ∧ t.noise.src[k].count = 0 ∧
      (s.noise.state ≠ .failed → t.noise.failSrc = k.val ∧ t.noise.failCause = if x.passed = true then 4 else 2)) ∧
    (x.count = 1024 → x.same < 810 → ∃ t, exec (.adaptiveWindowEnd k) s = .next t ∧ t.noise.state = s.noise.state ∧
      t.noise.src[k].count = 0 ∧ t.noise.src[k].lastOnes = x.ones ∧ t.noise.src[k].maxRun = min 255 x.winRun ∧
      (x.failed = false → t.noise.src[k].passed = true) ∧
      (x.failed = false → x.passed = false → t.noise.srcOk.getLsbD k.val = true ∧
        (t.noise.startupDone = true ↔ ∀ i : Fin 16, t.noise.src[i].passed = true)))

/-- On a powered module with start-up testing done, 40 samples of every source and no failed run or window still to be
dealt with, CONDITIONED_BLOCK holds the SHA-256 of the 640 samples, source by source, as the newest of at most two
blocks, and empties what was gathered, whether or not noise has failed. In GATHERING, in start-up stage ENTROPY,
with start-up testing done and two blocks held, DRBG_INSTANTIATE whose known-answer test passes makes noise READY at
TN, with no tick counted since, holds no block, and gives context 8 a key of two or three draws (when it does is log
entry 39's choice); a failed DRBG test fails noise with cause 6. A failed conditioner test, in stage ROM (log entry
40), fails noise with cause 5. A reseed that is due (65,536 requests or 500,000 ticks) with two blocks held restarts
both counts and counts; with its test failed noise fails with cause 6; without two blocks, or not due, nothing
changes.
(05_noise.md R103, 05_noise.md R104, 05_noise.md R105, 05_noise.md R106, 05_noise.md R108, 16_power_energy_startup.md Table 16-3, log entries 39, 40) -/
def Obligations.ConditionedBlocksSeedTheDrbg : Prop :=
  ∀ s : State,
    (s.dev.powered = true → s.noise.startupDone = true →
      (∀ k : Fin 16, 40 ≤ s.noise.src[k].gathered.length ∧
        (s.noise.src[k].stuck = true ∨ s.noise.src[k].run < 61 ∧ s.noise.src[k].same < 810)) →
      ∃ b, exec .conditionedBlock s = .next { s with noise := { s.noise with
          held := (if s.noise.held.length < 2 then s.noise.held else s.noise.held.drop 1) ++ [b],
          src := s.noise.src.map fun x => { x with gathered := [] } } } ∧
        b = sha256 (s.noise.src.toList.flatMap fun x => packSamples (x.gathered.take 40))) ∧
    (s.noise.state = .gathering → s.dev.stage = .entropy → s.noise.startupDone = true → s.noise.held.length = 2 →
      (∃ (d : Drbg) (key : List Byte), exec (.drbgInstantiate true) s = .next { s with
          noise := { s.noise with state := .ready, readyTn := s.tick.tn.toNat, held := [], reseeds := 0, drbg := some d },
          mem := { s.mem with ctx := s.mem.ctx.set 8 { s.mem.ctx[8] with key := some key, keyValid := true } } } ∧
        (d.requests = 2 ∨ d.requests = 3) ∧ d.ticks = 0) ∧
      ∃ t, exec (.drbgInstantiate false) s = .next t ∧ t.noise.state = .failed ∧ t.noise.failCause = 6) ∧
    (s.dev.powered = true → s.dev.stage = .rom → s.noise.state ≠ .failed → ∀ ok ms cores, ∃ t,
      exec (.startupStageComplete ok ms cores false) s = .next t ∧ t.noise.state = .failed ∧ t.noise.failCause = 5) ∧
    ∀ d, s.noise.drbg = some d →
      let due := 65536 ≤ d.requests ∨ 500000 ≤ d.ticks
      (due → s.noise.held.length = 2 →
        (∃ d' : Drbg, exec (.drbgReseed true) s = .next { s with noise := { s.noise with
            held := [], reseeds := min (s.noise.reseeds + 1) 65535, drbg := some d' } } ∧ d'.requests = 0 ∧ d'.ticks = 0) ∧
        (s.noise.state ≠ .failed → ∃ t, exec (.drbgReseed false) s = .next t ∧ t.noise.state = .failed ∧ t.noise.failCause = 6)) ∧
      (¬ (due ∧ s.noise.held.length = 2) → ∀ k, exec (.drbgReseed k) s = .next s)

/-- DRBG_GENERATE for a region that requested a key, with noise READY and the DRBG serving one more request, hands it
256 bits and counts one request; without READY noise or without a request nothing changes. FRESH_KEY_STAGED puts the
key that was returned into the shadow key register of every tile of the region's tick plan, and of no other tile,
and ends key_wait. (05_noise.md R105, 05_noise.md R107, 05_noise.md R115) -/
def Obligations.FreshKeysReachTheShadowRegisters : Prop :=
  ∀ (s : State) (r : Fin 8),
    (s.noise.rgn[r].requested = true → drbgServes s 1 = true →
      let x : NoiseRgn := { s.noise.rgn[r] with requested := false, nextKey := some (drbgDraw s).1 }
      ∃ d d', s.noise.drbg = some d ∧ d'.requests = d.requests + 1 ∧ d'.ticks = d.ticks ∧ exec (.drbgGenerate r) s =
        .next { s with noise := { s.noise with drbg := some d', rgn := s.noise.rgn.set r x } }) ∧
    (s.noise.rgn[r].requested = false ∨ s.noise.state ≠ .ready → exec (.drbgGenerate r) s = .next s) ∧
    (∀ k p, s.noise.rgn[r].nextKey = some k → s.herd.job[r].plan = some p → ∃ t, exec (.freshKeyStaged r) s = .next t ∧
      t.noise = { s.noise with rgn := s.noise.rgn.set r { s.noise.rgn[r] with nextKey := none, keyWait := false } } ∧
      t = { s with noise := t.noise, herd := { s.herd with tile := t.herd.tile } } ∧
      ∀ h : Fin 64, t.herd.tile[h] = if h ∈ p.tiles then { s.herd.tile[h] with shadowKey := some k } else s.herd.tile[h])

/-- From any state in which noise has not failed, a failure leaves noise FAILED with its cause and source, no DRBG, no
key in any Herd tile's key or shadow register, no FORMING region, no seal in progress, ERR_DEV_STAT.entropy set and
one more error in the device log. A failure while noise is FAILED changes nothing.
(05_noise.md R106, 05_noise.md R108, 05_noise.md R109, 14_faults_restart.md Table 14-4) -/
def Obligations.NoiseFailureEndsWhatNeedsNoise : Prop :=
  ∀ (s : State) (cause src : Nat),
    (s.noise.state ≠ .failed →
      let t := noiseFail cause src s
      t.noise.state = .failed ∧ t.noise.failCause = cause ∧ t.noise.failSrc = src ∧ t.noise.drbg = none ∧
      (∀ h : Fin 64, t.herd.tile[h].key = none ∧ t.herd.tile[h].shadowKey = none) ∧
      (∀ n : Fin 8, t.rgn.rgn[n].state ≠ .forming) ∧ (∀ n : Fin 8, t.sec.rgn[n].sealing = false) ∧
      t.err.entropy = true ∧ t.err.dev.count = min (s.err.dev.count + 1) 65535) ∧
    (s.noise.state = .failed → noiseFail cause src s = s)

/-- A descriptor in flight whose unit is in its region, open and with room joins the end of that unit's queue and is in
flight no more; a full queue keeps it in flight; one for a PE that is not lent to its region ends as a descriptor
error. While a ramp step waits or the power averages hold admission, nothing is admitted. Else, of the waiting
descriptors whose charge keeps the block within its cap, one with the lowest stamp is admitted, within the cap; with
none, nothing changes.
(13_run_programs.md R310, 16_power_energy_startup.md R378, 16_power_energy_startup.md R379, 16_power_energy_startup.md R382) -/
def Obligations.DescriptorsArriveAndAreAdmittedInOrder : Prop :=
  (∀ (s : State) (k : Nat) (d : Desc) (e : Eng), s.eng.flight[k]? = some d → descEngine s d.job.r d.bytes = some e →
    let lent := ∀ p, e = .pe p → s.pe[p].owner = some d.job.r
    let gone : State := { s with eng := { s.eng with flight := s.eng.flight.eraseIdx k } }
    (¬ lent → exec (.engineDescriptorArrival k) s = .next (descError e d .descriptor 0 gone)) ∧
    (lent → tileOpen s e = true → queueRoom s e = true → ∃ t, exec (.engineDescriptorArrival k) s = .next t ∧
      ((∀ h, e ≠ .herd h) → queueOf t e = queueOf s e ++ [{ d with stamp := s.eng.arrivals + 1 }]) ∧
      t.eng.flight = s.eng.flight.eraseIdx k ∧ t.jobs = s.jobs ∧ t.mem = s.mem) ∧
    (lent → queueRoom s e = false → exec (.engineDescriptorArrival k) s = .next s)) ∧
  ∀ s : State,
    ((s.pwr.admitHold = true ∨ ∃ n : Fin 8, s.pwr.rgn[n].waits = true) → exec .descriptorAdmission s = .next s) ∧
    (s.pwr.admitHold = false → (∀ n : Fin 8, s.pwr.rgn[n].waits = false) →
      ((∀ c ∈ candidates s, fits c.admitted = false) → exec .descriptorAdmission s = .next s) ∧
      ((∃ c ∈ candidates s, fits c.admitted = true) → ∃ c ∈ candidates s, exec .descriptorAdmission s = .next c.admitted ∧
        chargedPower c.admitted ≤ powerCap c.admitted ∧
        ∀ c' ∈ candidates s, fits c'.admitted = true → c.stamp ≤ c'.stamp))

/-- On an idle, powered Ibex tile: a head descriptor that waits for its chain sum or its field flits shows WAITING and
nothing else; an admitted head that does not wait, in a tick the tile's duty includes, and whose descriptor passes
every check, runs, and the tile is BUSY; one that fails a check has the error of that check with its cause, and does
not run. An operation completes whose destination is its own tile or serves the write: the tile runs nothing,
IBEX_OPS counts, and busy time grows by 32 + K·ts CCLK, and 64 more for an output. Without output and with no packet
waiting, the accumulator panel then holds the sum of the K-steps. For an integer V and a scale exponent, let q be
V·2^scale rounded toward minus infinity, toward plus infinity or toward zero in those modes. The output of width w
(8, 16 or 32) is the two's complement code of q where q lies in the range of the type, and else the code of the
nearer limit, counted in sat_count; NaN is never counted. A sum of the integer path wraps modulo 2^32.
(07_ibex_chamois.md R144, 07_ibex_chamois.md R147, 07_ibex_chamois.md R148, 07_ibex_chamois.md R150, 07_ibex_chamois.md Table 7-4, 07_ibex_chamois.md R152, 07_ibex_chamois.md R153) -/
def Obligations.IbexOperationsCompleteAndSaturate : Prop :=
  (∀ (s : State) (i : Fin 48),
    (∀ d, s.ibex[i].running = none → (engTile s (.ibex i)).cut = false → ibexHead s i = some d →
      (ibexWaits s.ibex[i] d = true →
        exec (.ibexOpStart i) s = .next { s with ibex := s.ibex.set i { s.ibex[i] with state := .waiting } }) ∧
      (ibexWaits s.ibex[i] d = false → s.ibex[i].admitted = true → s.ibex[i].queue.head? = some d → dutyAllows s (.ibex i) = true →
        (ibexCheck s i d = none → ∃ t d', exec (.ibexOpStart i) s = .next t ∧ t.ibex[i].running = some d' ∧
          d'.bytes = d.bytes ∧ d'.job = d.job ∧ t.ibex[i].state = .busy ∧ t.ibex[i].admitted = false) ∧
        (∀ er c, ibexCheck s i d = some (er, c) → ∃ t, exec (.ibexOpStart i) s = .next t ∧ t.ibex[i].running = none ∧
          t.ibex[i].state = .fault ∧ t.ibex[i].faultCause = c))) ∧
    ∀ d, s.ibex[i].running = some d →
      let o := readIbex d.bytes
      (o.field = true ∨ o.fmt = 0 ∨ dstServes s (dstOf s d.job.r o.out) (outBytes o.fmt) = true ∨
          (∃ a, dstOf s d.job.r o.out = .tile (.ibex i) a) →
        ∃ t, exec (.ibexOpComplete i) s = .next t ∧ t.ibex[i].running = none ∧ t.ibex[i].state = .idle ∧
          t.ibex[i].ops = s.ibex[i].ops + 1 ∧
          t.ibex[i].busyCclk = (s.ibex[i].busyCclk + (32 + o.k * o.ts + if o.fmt = 0 then 0 else 64)) % 2 ^ 42 ∧
          (o.field = false → o.fmt = 0 → (∀ l : Fin 768, s.mesh.links[l].vc = []) →
            t.ibex[i].mem = memWrite s.ibex[i].mem (0x100000 + 0x4000 * o.acc) (panelBytes (ibexSum s i d))))) ∧
  ((∀ (v k : Int) (w : Nat) (fmt : Nat) (r : Rnd), (fmt, w) ∈ [(1, 8), (2, 16), (3, 32)] →
    let up := 0 ≤ k
    let q : Int := match r with
      | .rdn => if up then v * 2 ^ k.toNat else v / 2 ^ (-k).toNat
      | .rup => if up then v * 2 ^ k.toNat else -((-v) / 2 ^ (-k).toNat)
      | .rtz => if up then v * 2 ^ k.toNat else v.tdiv (2 ^ (-k).toNat)
      | _ => if up then v * 2 ^ k.toNat else 0
    (r = .rdn ∨ r = .rup ∨ r = .rtz ∨ up) →
    let c := convert fmt r k (fpInt v)
    c.nan = false ∧
    (-(2 ^ (w - 1)) ≤ q → q ≤ 2 ^ (w - 1) - 1 → c.sat = false ∧ c.code = ofSigned w q) ∧
    (q < -(2 ^ (w - 1)) → c.sat = true ∧ c.code = 2 ^ (w - 1)) ∧
    (2 ^ (w - 1) - 1 < q → c.sat = true ∧ c.code = 2 ^ (w - 1) - 1)) ∧
  ∀ (x : W32) (row col : List Int), intElement x row col = x + BitVec.ofInt 32 (List.zipWith (· * ·) row col).sum)

/-- On a Chamois tile with its monitor, KERNEL starts the kernel at the head of the queue when it may start: the tile
shows KERNEL, in user mode at the entry address from bytes 20-23, with x10-x13 from bytes 32-63. KERNEL_DONE runs
the rest of the code; without a trap the tile is idle and the descriptor completes. A trap of an instruction, or by
CHAMOIS_TRAP one of another cause after the code, leaves the tile in FAULT with CHAM_CAUSE and CHAM_TVAL, with what
the code had done, and stops the running job. Without a running kernel neither changes anything. Code changes
nothing but its tile's core, memory below 512 KiB and counters, and the counter of free values. A misaligned load
traps with cause 4 and its address. In ct_mode an instruction that Table 7-3 does not admit, division and square
root among them, traps as illegal with nothing done, and an admitted one takes a time that depends on the
instruction, vl and vtype alone. What else an instruction does is the RISC-V specifications' (log entry 110).
(07_ibex_chamois.md R157, 07_ibex_chamois.md R158, 07_ibex_chamois.md R160, 07_ibex_chamois.md R161 and Table 7-3, 13_run_programs.md Table 13-5, log entries 110, 112) -/
def Obligations.KernelsStartEndAndTrap : Prop :=
  (∀ (s : State) (c : Fin 48),
    (∀ d, chamKind s c 0 = some d → s.cham[c].monitor = true → ∃ t d', exec (.kernel c) s = .next t ∧
      t.cham[c].running = some d' ∧ d'.bytes = d.bytes ∧ d'.job = d.job ∧ t.cham[c].state = .kernel ∧
      ((∀ l : Fin 768, s.mesh.links[l].vc = []) → t.cham[c].queue = s.cham[c].queue.tail) ∧
      t.cham[c].entry = fieldAt d.bytes 20 4 ∧ t.cham[c].core.pc = BitVec.ofNat 64 (fieldAt d.bytes 20 4) ∧
      t.cham[c].core.machine = false ∧
      ∀ k : Fin 4, t.cham[c].args[k] = BitVec.ofNat 64 (fieldAt d.bytes (32 + 8 * k.val) 8) ∧
        t.cham[c].core.x[10 + k.val] = BitVec.ofNat 64 (fieldAt d.bytes (32 + 8 * k.val) 8)) ∧
    (∀ d code, s.cham[c].running = some d →
      let r := runCham c code s
      let trapped (t : State) (cause : BitVec 8) (tval : W64) : Prop := t.cham[c].running = none ∧ t.cham[c].state = .fault ∧
        t.cham[c].cause = cause ∧ t.cham[c].tval = tval.setWidth 32 ∧ t.cham[c].mem = r.1.cham[c].mem ∧
        t.cham[c].instret = r.1.cham[c].instret ∧
        ∀ j, findJob s d.job = some j → j.phase = .running → ∃ j', findJob t d.job = some j' ∧ j'.phase = .stopped
      (r.2 = none →
        exec (.kernelDone c code) s = .next (completeDesc (.cham c) d { r.1 with
          cham := r.1.cham.set c { r.1.cham[c] with running := none, state := .idle } }) ∧
        ∀ cause tval, ∃ t, exec (.chamoisTrap c cause tval code) s = .next t ∧ trapped t cause tval) ∧
      ∀ x, r.2 = some x → ∃ t, exec (.kernelDone c code) s = .next t ∧ trapped t (BitVec.ofNat 8 x.cause) x.tval ∧
        ∀ cause tval, exec (.chamoisTrap c cause tval code) s = .next t) ∧
    (s.cham[c].running = none → ∀ code cause tval,
      exec (.kernelDone c code) s = .next s ∧ exec (.chamoisTrap c cause tval code) s = .next s)) ∧
  (∀ (s : State) (c : Fin 48) (code : List RvStep),
    let x := s.cham[c]
    let r := runCham c code s
    let y := r.1.cham[c]
    r.1 = { s with free := r.1.free, cham := s.cham.set c y } ∧
    y = { x with core := y.core, vec := y.vec, mem := y.mem, ctTime := y.ctTime, instret := y.instret } ∧
    (∀ a, 0x80000 ≤ a → memGet y.mem a = memGet x.mem a) ∧
    (∀ i rest, code = i :: rest → x.core.pc.toNat + 4 ≤ 0x80000 →
      (x.ctMode = true → ctCclk x.vec i.insn = none →
        (∃ v, r.2 = some { cause := 2, tval := v }) ∧ y.mem = x.mem ∧ y.core.x = x.core.x ∧ y.instret = x.instret) ∧
      (∀ size uns rd rs1 ofs, x.ctMode = false → i.insn = .load size uns rd rs1 ofs →
        let a := (chamCore s c).ea rs1 ofs
        a % 2 ^ size.val ≠ 0 → r.2 = some { cause := 4, tval := BitVec.ofNat 64 a } ∧ y.mem = x.mem ∧ y.core.x = x.core.x)) ∧
    ∀ i, code = [i] → x.ctMode = true → r.2 = none →
      ∃ k, ctCclk x.vec i.insn = some k ∧ y.ctTime = x.ctTime + BitVec.ofNat 64 k) ∧
  (∀ (v w : VecUnit) (i : Rv), v.vl = w.vl → v.vtype = w.vtype → ctCclk v i = ctCclk w i) ∧
  ∀ (v : VecUnit) (word : Bool) (rd a b : Reg) (dbl : Bool) (rm : Nat), ctCclk v (.mul .div word rd a b) = none ∧
    ctCclk v (.mul .remu word rd a b) = none ∧ ctCclk v (.f2 .div dbl rm rd a b) = none ∧ ctCclk v (.fsqrt dbl rm rd a) = none

/-- Of a running kernel, after the code that leads up to the command has run without a trap: a transfer from local
memory to a backed address of a tile of its region that serves the write puts exactly those bytes there; one to the
staging buffer of a ring block leaves in flits for the edge tile of its row; a transfer to coordinates that its
region does not hold is a descriptor error and moves nothing. A swap request to a Herd tile of the region latches
the buffer it names, in place of one latched before, and changes nothing else; one to coordinates outside the region
is a descriptor error. Where the code traps, the descriptor ends with that trap and neither command takes effect.
(07_ibex_chamois.md R159, 03_mesh_regions_rim.md R67, 02_pennant_tick.md R43, 15_guidon_ring.md R366) -/
def Obligations.MoverReachesItsRegionOnly : Prop :=
  ∀ (s : State) (c : Fin 48) (d : Desc) (code : List RvStep), s.cham[c].running = some d →
    let r := s.rgn.rgn[d.job.r]
    let s1 := (runCham c code s).1
    (∀ x m lx ly buf, (runCham c code s).2 = some x →
      exec (.moverTransfer c m code) s = .next (kernelTraps c d x s1) ∧
      exec (.moverSwap c lx ly buf code) s = .next (kernelTraps c d x s1)) ∧
    ((runCham c code s).2 = none →
      (∀ src lx ly addr len,
        (r.holds lx ly = true → src + len ≤ 0x80000 → backed (unitOf r lx ly) addr len = true →
          servesWrite s (unitOf r lx ly) addr len = true →
          exec (.moverTransfer c (.toTile src lx ly addr len) code) s =
            .next (localWrite (unitOf r lx ly) addr (memRead s1.cham[c].mem src len) s1)) ∧
        (r.holds lx ly = false → exec (.moverTransfer c (.toTile src lx ly addr len) code) s =
          .next (descError (.cham c) d .descriptor 0 s1))) ∧
      (∀ src bid len, src + len ≤ 0x80000 → ∃ fs, exec (.moverTransfer c (.toStaging src bid len) code) s =
          .next (pushVc0 (engXY (.cham c)) fs s1) ∧
        ∀ f ∈ fs, f.tag = d.job.r.val ∧ (f.dx, f.dy) = edgeXY (engEntry (.cham c)) ∧ ∃ b, f.load = .ring bid b ∧ b.length ≤ 120) ∧
      ∀ lx ly (buf : Fin 2),
        (∀ h, r.holds lx ly = true → unitOf r lx ly = .herd h → exec (.moverSwap c lx ly buf code) s = .next { s1 with
          herd := { s1.herd with tile := s1.herd.tile.set h { s1.herd.tile[h] with swap := some (buf == 1) } } }) ∧
        (r.holds lx ly = false → exec (.moverSwap c lx ly buf code) s = .next (descError (.cham c) d .descriptor 0 s1)))

/-- A coming partial whose slot is free goes into its slot and comes no more; with a sound SPILL of its job waiting at
the head, and the partials before it landed, its words go to its slot of the spill area at once; one whose slot
still holds a partial of its job waits. A spill that may start, with listed fields and aligned addresses and no
partial beyond p, lands what is there and shows SPILL while fewer than p partials are there; with all p and no
output it completes: the tile is idle and holds no slot of the job. The sum is the partials added from the lowest
slot. For r between 2 and 2^64, the output word of form 0 is (y + x) mod r, and of form 1 the two's complement code
of the number congruent to it modulo r that lies above -r/2 and at most r/2. A RECOMBINE that may start on a tile
with its monitor and with no packet waiting, whose two headers are readable and have a reserved bit set (R10) or
fail a check of R255, is an error that leaves the tile in FAULT; one that passes them ends with the tile holding the
state IDLE and running nothing.
(07_ibex_chamois.md R149, 07_ibex_chamois.md Table 7-5, 11_owners_secrecy.md R255, 11_owners_secrecy.md R256, 00_scope.md R10) -/
def Obligations.SpillsAddInOrderAndSharesRecombine : Prop :=
  ((∀ (s : State) (c : Fin 48) (k : Nat) (x : Partial), s.cham[c].coming[k]? = some x →
    let used := ∃ y ∈ s.cham[c].slots, y.job = x.job ∧ y.idx = x.idx
    (used → exec (.spillPartial c k) s = .next s) ∧
    (¬ used → spillWaiting s c = none → exec (.spillPartial c k) s = .next { s with cham := s.cham.set c { s.cham[c] with
      coming := s.cham[c].coming.eraseIdx k, slots := s.cham[c].slots ++ [x] } }) ∧
    (∀ d, ¬ used → spillWaiting s c = some d → d.job = x.job → x.idx < (readSpill d.bytes).p → (readSpill d.bytes).listed = true →
      spillAddrsOk s c d (readSpill d.bytes) = true → x.words ≠ [] → (∀ y ∈ s.cham[c].slots, y.job = x.job → y.words = []) →
      ∃ t, exec (.spillPartial c k) s = .next t ∧
        t.cham[c].mem = memWrite s.cham[c].mem ((readSpill d.bytes).area + 0x4000 * x.idx) (panelBytes x.words))) ∧
  (∀ (s : State) (c : Fin 48) (d : Desc), chamKind s c 1 = some d → (readSpill d.bytes).listed = true →
    spillAddrsOk s c d (readSpill d.bytes) = true → (∀ x ∈ s.cham[c].slots, x.job = d.job → x.idx < (readSpill d.bytes).p) →
    let n := received s c d.job (readSpill d.bytes).p
    let l := landPartials c d s
    (n < (readSpill d.bytes).p →
      exec (.spill c) s = .next { l with cham := l.cham.set c { l.cham[c] with state := .spill } }) ∧
    (n = (readSpill d.bytes).p → (readSpill d.bytes).fmt = 0 → ∃ t, exec (.spill c) s = .next t ∧
      t.cham[c].state = .idle ∧ ∀ x ∈ t.cham[c].slots, x.job ≠ d.job)) ∧
  ∀ (fp : Bool) (p : List W32) (ps : List (List W32)),
    spillSum fp (p :: ps) = ps.foldl (fun acc q => List.zipWith (spillAdd fp) acc q) p) ∧
  ((∀ r y x, 2 ≤ r → r ≤ 2 ^ 64 → recombineWord 0 r y x = (y + x) % r ∧
    ∃ v : Int, recombineWord 1 r y x = ofSigned 64 v ∧ (v - (y + x : Nat)) % (r : Int) = 0 ∧ -(r : Int) < 2 * v ∧ 2 * v ≤ r) ∧
  ∀ (s : State) (c : Fin 48) (d : Desc), chamKind s c 2 = some d → s.cham[c].monitor = true → fieldAt d.bytes 18 1 ≤ 1 →
    bit (fieldAt d.bytes 17 1) 0 = false → dChain d.bytes = false →
    let head (a : Nat) := readDev s (engEntry (.cham c)) (ctxOf d.job.r) (fieldAt d.bytes a 6) 64
    (head 24).2 = none → (head 32).2 = none → (∀ l : Fin 768, s.mesh.links[l].vc = []) →
    let ok := objReservedOk (head 24).1 && objReservedOk (head 32).1 &&
      recombineOk s d.job.r (readObj (head 24).1) (readObj (head 32).1) (fieldAt d.bytes 48 8)
    (ok = true → ∃ t, exec (.recombine c) s = .next t ∧ t.cham[c].state = .idle ∧ t.cham[c].running = none) ∧
    (ok = false → ∃ t, exec (.recombine c) s = .next t ∧ t.cham[c].state = .fault ∧ t.cham[c].running = none))

/-- In a cluster that is ready, KUDU_DESCRIPTOR takes the oldest queued descriptor to the lowest-numbered idle hart of
1-15, in user mode at its entry; a cluster that is not ready, has no idle hart or no descriptor does not change.
KUDU_DESCRIPTOR_COMPLETE runs the rest of the hart's code; without a trap the hart is idle, KUDU_DONE counts and the
descriptor completes. A trap of an instruction, or by KUDU_TRAP one of another cause after the code, leaves it idle
with cause, hart and mtval, with what the code had done, and stops the running job. On an idle hart neither changes
anything. Code changes nothing but its cluster's harts and memory and the counter of free values; of the memory no
byte outside the job memory 0x40000-0x3F7FFF; of the other harts at most a reservation; what each instruction does
is the RISC-V specifications' (log entry 110).
(08_kudu_markhor_criward.md R165, 08_kudu_markhor_criward.md R166, 08_kudu_markhor_criward.md R167, 08_kudu_markhor_criward.md Table 8-1, log entry 110) -/
def Obligations.KuduHartsRunDescriptors : Prop :=
  (∀ (s : State) (m : Fin 8),
    (∀ d rest h, s.kudu[m].queue = d :: rest → (1 ≤ h.val ∧ s.kudu[m].hart[h] = none) → (∀ k : Fin 16, 1 ≤ k.val → k < h → s.kudu[m].hart[k] ≠ none) →
      (kuduReady s m = true → ∃ t d', exec (.kuduDescriptor m) s = .next t ∧ t.kudu[m].hart[h] = some d' ∧ d'.bytes = d.bytes ∧
        d'.job = d.job ∧ ((∀ l : Fin 768, s.mesh.links[l].vc = []) → t.kudu[m].queue = rest) ∧
        t.kudu[m].core[h].pc = BitVec.ofNat 64 (fieldAt d.bytes 20 4) ∧ t.kudu[m].core[h].machine = false ∧
        (∀ k : Fin 16, k ≠ h → t.kudu[m].hart[k] = s.kudu[m].hart[k])) ∧
      (kuduReady s m = false → exec (.kuduDescriptor m) s = .next s)) ∧
    (s.kudu[m].queue = [] ∨ (∀ k : Fin 16, 1 ≤ k.val → s.kudu[m].hart[k] ≠ none) → exec (.kuduDescriptor m) s = .next s) ∧
    ∀ (hart : Fin 16) (code : List RvStep),
      let r := runKudu m hart code s
      (∀ d, s.kudu[m].hart[hart] = some d →
        let trapped (t : State) (cause : BitVec 8) (tval : W64) : Prop := t.kudu[m].hart[hart] = none ∧
          t.kudu[m].cause = cause ∧ t.kudu[m].trapHart = hart.val ∧ t.kudu[m].tval = tval.setWidth 32 ∧
          t.kudu[m].mem = r.1.kudu[m].mem ∧
          ∀ j, findJob s d.job = some j → j.phase = .running → ∃ j', findJob t d.job = some j' ∧ j'.phase = .stopped
        (r.2 = none →
          exec (.kuduDescriptorComplete m hart code) s = .next (completeDesc (.kudu m) d { r.1 with
            kudu := r.1.kudu.set m { r.1.kudu[m] with hart := r.1.kudu[m].hart.set hart none, done := r.1.kudu[m].done + 1 } }) ∧
          ∀ cause tval, ∃ t, exec (.kuduTrap m hart cause tval code) s = .next t ∧ trapped t cause tval) ∧
        ∀ x, r.2 = some x → ∃ t, exec (.kuduDescriptorComplete m hart code) s = .next t ∧
          trapped t (BitVec.ofNat 8 x.cause) x.tval ∧ ∀ cause tval, exec (.kuduTrap m hart cause tval code) s = .next t) ∧
      (s.kudu[m].hart[hart] = none → exec (.kuduDescriptorComplete m hart code) s = .next s ∧
        ∀ cause tval, exec (.kuduTrap m hart cause tval code) s = .next s)) ∧
  ∀ (s : State) (m : Fin 8) (hart : Fin 16) (code : List RvStep),
    let x := s.kudu[m]
    let t := (runKudu m hart code s).1
    let y := t.kudu[m]
    t = { s with free := t.free, kudu := s.kudu.set m y } ∧ y = { x with core := y.core, mem := y.mem } ∧
    (∀ a, a < 0x40000 ∨ 0x3F8000 ≤ a → memGet y.mem a = memGet x.mem a) ∧
    ∀ k : Fin 16, k ≠ hart → y.core[k] = x.core[k] ∨ y.core[k] = { x.core[k] with resv := none }

/-- A mismatch of a Secure Markhor in lockstep clears lockstep_ok, counts, and sets ERR_DEV_STAT.lockstep; one already
halted does not change. The watchdog of an online core takes it offline with cause 2 and no region, and each OPEN or
SEALED region it served is DISABLED; the loss of cp 1 sets maint_cp. An offline core does not change. FW_STAGE, when
its core takes it and not rejected, while NO_FW_UPDATE is in force completes with FW_LOCKED; with an image that
fails R174 with FW_IMAGE_INVALID; with a good one it is in progress and Stag writes that image. A trial that times
out before ready leaves fallback set, no pending mark, and the active bank.
(08_kudu_markhor_criward.md R169, 08_kudu_markhor_criward.md R172, 08_kudu_markhor_criward.md R174, 08_kudu_markhor_criward.md R175, 08_kudu_markhor_criward.md R176, 11_owners_secrecy.md R251, 14_faults_restart.md Table 14-4) -/
def Obligations.MarkhorCoresFailAndBootsFallBack : Prop :=
  (∀ s : State,
    (s.mkh.lockstepOk = true → ∃ t, exec .lockstepMismatch s = .next t ∧ t.mkh.lockstepOk = false ∧
      t.mkh.mismatch = min (s.mkh.mismatch + 1) 65535 ∧ t.err.lockstep = true) ∧
    (s.mkh.lockstepOk = false → exec .lockstepMismatch s = .next s)) ∧
  (∀ (s : State) (cp : Fin 6),
    (s.mkh.cp[cp].online = true → ∃ t, exec (.watchdogExpiry cp) s = .next t ∧ t.mkh.cp[cp].online = false ∧
      t.mkh.cp[cp].offlineCause = 2 ∧ t.mkh.cp[cp].regions = 0 ∧ (cp = 1 → t.err.maintCp = true) ∧
      ∀ n : Fin 8, s.mkh.cp[cp].regions.getLsbD n.val = true → s.rgn.rgn[n].tearingDown = false →
        (s.rgn.rgn[n].state = .opened ∨ s.rgn.rgn[n].state = .sealed) → t.rgn.rgn[n].state = .disabled) ∧
    (s.mkh.cp[cp].online = false → exec (.watchdogExpiry cp) s = .next s)) ∧
  (∀ (s : State) (p : Pkt), currentOp s maintQ 0x46 = some p → coreTakes s maintQ = true →
    pktReject 32 p.bytes = none → maintRefused 0x46 s = false →
    let img := readDev s (queueTile s maintQ) 8 (fieldAt p.bytes 24 6) (fieldAt p.bytes 32 4)
    let locked := ∃ n : Fin 8, s.sec.rgn[n].noFw = true ∧ (s.sec.rgn[n].tdi = .locked ∨ s.sec.rgn[n].tdi = .run)
    (locked → exec .fwStage s = .next (settleMaint (decide' maintQ p.pos (plainDone Status.fwLocked) s))) ∧
    (¬ locked → img.2 = none →
      (imageOk s.stag.floor img.1 (fieldAt p.bytes 32 4) = false →
        exec .fwStage s = .next (settleMaint (decide' maintQ p.pos (plainDone Status.fwImageInvalid) s))) ∧
      (imageOk s.stag.floor img.1 (fieldAt p.bytes 32 4) = true →
        ∃ t, exec .fwStage s = .next t ∧ t.stag = { s.stag with writing := some img.1 }))) ∧
  ∀ (s : State) (aux : Bool), s.dev.powered = true → s.mkh.trial = true → s.dev.ready = false →
    ∃ t, exec (.trialBootTimeout aux) s = .next t ∧ t.mkh.fallback = true ∧ t.mkh.trial = false ∧ t.mkh.pending = false ∧
      t.mkh.activeBank = s.mkh.activeBank ∧ t.stag.pending = false ∧ t.dev.stage = .rom ∧ t.dev.resetCause = .stag

/-- DMA_DESCRIPTOR starts the admitted descriptor: it is admitted no more and is the last of those in execution; with
none admitted nothing changes. DMA_COMPLETE of one in execution whose tiles serve the rows takes it out of
execution; if every row is backed and translated, it completes, with the bytes of each row written in turn where its
destination is, and an access to a host page shown as a request of the region's VF; otherwise the first failing row
is an error of its job. Either way the bytes of the rows copied are counted, one unit of progress for each 65,536.
(10_memory_host_link.md R229, 13_run_programs.md Table 13-5, 14_faults_restart.md R328, 16_power_energy_startup.md R378) -/
def Obligations.DmaCopiesRowByRow : Prop :=
  (∀ (s : State) (d : Desc), s.eng.dmaAdmitted = some d → ∃ t d', exec .dmaDescriptor s = .next t ∧
    t.eng.dmaAdmitted = none ∧ t.eng.dmaRunning = s.eng.dmaRunning ++ [d'] ∧ d'.bytes = d.bytes ∧ d'.job = d.job ∧
    t.jobs = s.jobs) ∧
  (∀ s : State, s.eng.dmaAdmitted = none → exec .dmaDescriptor s = .next s) ∧
  ∀ (s : State) (k : Nat) (d : Desc), s.eng.dmaRunning[k]? = some d →
    let len := fieldAt d.bytes 32 4
    let rows := dmaRows s d
    rows.all (rowServed s len) = true →
    let s1 : State := { s with eng := { s.eng with dmaRunning := s.eng.dmaRunning.eraseIdx k } }
    let r := copyRows d.job.r len rows s1
    rows.length = fieldAt d.bytes 36 2 + 1 ∧
    let s2 := modJob d.job (fun j => { j with
      moved := (j.moved + len * r.2.2) % 65536,
      progress := j.progress + BitVec.ofNat 64 ((j.moved + len * r.2.2) / 65536) }) r.1
    (r.2.1 = none → r.2.2 = rows.length ∧ exec (.dmaComplete k) s = .next (completeDesc .dma d s2)) ∧
    (∀ c, r.2.1 = some (.unbacked c) → exec (.dmaComplete k) s = .next (descError .dma d .descriptor c s2)) ∧
    (∀ f, r.2.1 = some (.fault f) → exec (.dmaComplete k) s = .next (descFault .dma d f s2)) ∧
    ∀ (src dst : Dst) (rest : List (Dst × Dst)), dstBacked src len = true → dstBacked dst len = true →
      let a := rowTlps d.job.r (src, dst) s1
      a = { s1 with out := { s1.out with tlp := a.out.tlp } } ∧
      ((readDst a .dma d.job.r src len).2 = none →
        (writeDst .dma d.job.r dst (readDst a .dma d.job.r src len).1 a).2 = none →
        let b := copyRows d.job.r len rest (writeDst .dma d.job.r dst (readDst a .dma d.job.r src len).1 a).1
        copyRows d.job.r len ((src, dst) :: rest) s1 = (b.1, b.2.1, b.2.2 + 1))

/-- For PSET_LOAD, NTT, INTT, ADD, SUB, MUL, AUTO, BASE_EXT and KEYSWITCH at the admitted head of a PE's queue, on a
powered PE in a tick its duty includes: if the operation's checks pass and its opening writes are translated, it
runs with the result computed from the operands, the PE is BUSY and PE_LAST_T is its time; if a check fails, the PE
is in FAULT and runs nothing, PE_FAULT has the check's cause, and the running job is stopped; if an access is not
translated, it is in FAULT and runs nothing, and PE_FAULT stays; if a line it reads or writes in part fails its tag
check, which is an error of the whole region, it runs nothing and PE_FAULT stays. An operation that is not at the
admitted head does not start.
(09_polynomial_engine.md R183, 09_polynomial_engine.md R185, 09_polynomial_engine.md R196, 09_polynomial_engine.md R199, 09_polynomial_engine.md R201, 09_polynomial_engine.md Table 9-6) -/
def Obligations.PeOperationsStartOrFault : Prop :=
  ∀ (s : State) (e : Fin 4), ∀ x ∈ ([(.psetLoad e, 1, runPsetLoad), (.ntt e, 2, runNtt), (.intt e, 3, runIntt), (.add e, 4, runAdd),
      (.sub e, 5, runSub), (.mul e, 6, runMul), (.auto e, 7, runAuto), (.baseExt e, 8, runBaseExt),
      (.keyswitch e, 9, runKeyswitch)] : List (Instr × Nat × (State → Fin 4 → Fin 8 → PeOp → Pres PeRun))),
    (∀ d, peNext s e x.2.1 = some d →
      (∀ r, x.2.2 s e d.job.r (readPe d.bytes) = .ok r → (peWrites e d.job.r r.first s).2 = none →
        ∃ t d', exec x.1 s = .next t ∧ t.pe[e].running = some d' ∧ d'.bytes = d.bytes ∧ d'.job = d.job ∧
          t.pe[e].result = some r.result ∧ t.pe[e].state = .busy ∧ t.pe[e].lastT = r.time ∧ t.pe[e].admitted = false) ∧
      (∀ er c, x.2.2 s e d.job.r (readPe d.bytes) = .error (.err er c) → 1 ≤ c →
        ∃ t, exec x.1 s = .next t ∧ t.pe[e].running = none ∧ t.pe[e].state = .fault ∧ t.pe[e].faultCause = c ∧
          ∀ j, findJob s d.job = some j → j.phase = .running → ∃ j', findJob t d.job = some j' ∧ j'.phase = .stopped) ∧
      (∀ f, x.2.2 s e d.job.r (readPe d.bytes) = .error (.fault f) →
        ∃ t, exec x.1 s = .next t ∧ t.pe[e].running = none ∧ (f.2 ≠ tagCause → t.pe[e].state = .fault) ∧
          t.pe[e].faultCause = s.pe[e].faultCause) ∧
      (∀ r f, x.2.2 s e d.job.r (readPe d.bytes) = .ok r → (peWrites e d.job.r r.first s).2 = some f →
        ∃ t, exec x.1 s = .next t ∧ t.pe[e].running = none ∧ (f.2 ≠ tagCause → t.pe[e].state = .fault) ∧
          t.pe[e].faultCause = s.pe[e].faultCause)) ∧
    (peNext s e x.2.1 = none → exec x.1 s = .next s)

/-- A MASK at the head of a PE's queue that may start shows WAITING, and nothing else changes, while the DRBG does not
serve. Admitted, with the DRBG serving, and passing its checks with the drawn key and the next serial, it runs: the
DRBG has counted one request, the PE's mask count and PE_SERIAL are the next ones with the PE's number in bits
63:62. One that fails its checks draws nothing and counts nothing. PE_OP_COMPLETE of an operation with a result
whose writes are translated leaves the PE idle without result and counts PE_OPS; of PSET_LOAD it puts the descriptor
into its slot and no other. A KEYSWITCH with a wrong tag, or a write that is not translated, leaves it in FAULT,
cause 3 for the tag, with PE_OPS as before; a line written in part that fails its tag check, an error of the region,
leaves PE_OPS and no result. PE_PACE_FAULT of a running operation other than PSET_LOAD leaves FAULT with cause 4 and
no result. Without a running operation neither changes anything.
(09_polynomial_engine.md R202, 09_polynomial_engine.md R203, 05_noise.md R107, 09_polynomial_engine.md R185, 09_polynomial_engine.md R197, 09_polynomial_engine.md R200, 09_polynomial_engine.md R201, 09_polynomial_engine.md Table 9-6) -/
def Obligations.MaskDrawsOnceAndPeResultsCommit : Prop :=
  (∀ (s : State) (e : Fin 4) (d : Desc), (peHead s e).filter (fun d => fieldAt d.bytes 16 1 == 10) = some d →
    (drbgServes s 1 = false → exec (.mask e) s = .next { s with pe := s.pe.set e { s.pe[e] with state := .waiting } }) ∧
    (drbgServes s 1 = true → s.pe[e].admitted = true →
      let serial := (s.pe[e].serial + 1) % 2 ^ 62
      (∀ r, runMask s e d.job.r (readPe d.bytes) (drbgDraw s).1 (e.val * 2 ^ 62 + serial) = .ok r →
        (peWrites e d.job.r r.first s).2 = none →
        ∃ t g g', exec (.mask e) s = .next t ∧ s.noise.drbg = some g ∧ t.noise.drbg = some g' ∧ g'.requests = g.requests + 1 ∧
          t.pe[e].serial = serial ∧ t.pe[e].lastSerial = e.val * 2 ^ 62 + serial ∧ t.pe[e].state = .busy ∧
          t.pe[e].result = some r.result) ∧
      (∀ f, runMask s e d.job.r (readPe d.bytes) (drbgDraw s).1 (e.val * 2 ^ 62 + serial) = .error f →
        ∃ t, exec (.mask e) s = .next t ∧ t.noise.drbg = s.noise.drbg ∧ t.pe[e].serial = s.pe[e].serial ∧ t.pe[e].running = none ∧
          ((∀ g, f = .fault g → g.2 ≠ tagCause) → t.pe[e].state = .fault)))) ∧
  (∀ (s : State) (e : Fin 4),
    (∀ d r, s.pe[e].running = some d → s.pe[e].result = some r →
      ((peCommit e d.job.r r s).2 = none → ∃ t, exec (.peOpComplete e) s = .next t ∧ t.pe[e].running = none ∧
        t.pe[e].result = none ∧ t.pe[e].state = .idle ∧ t.pe[e].ops = s.pe[e].ops + 1 ∧
        (∀ n b, r = .slot n b → t.pe[e].pset[n] = some b ∧ ∀ k : Fin 4, k ≠ n → t.pe[e].pset[k] = s.pe[e].pset[k])) ∧
      (∀ f, (peCommit e d.job.r r s).2 = some f → ∃ t, exec (.peOpComplete e) s = .next t ∧ t.pe[e].running = none ∧
        t.pe[e].result = none ∧ t.pe[e].ops = s.pe[e].ops ∧
        ((∀ g, f = .fault g → g.2 ≠ tagCause) → t.pe[e].state = .fault)) ∧
      (∀ a k, r = .badTag a k → ∃ t, exec (.peOpComplete e) s = .next t ∧ t.pe[e].faultCause = 3) ∧
      (∀ n b, r = .slot n b → (peCommit e d.job.r r s).2 = none)) ∧
    (∀ d, s.pe[e].running = some d → fieldAt d.bytes 16 1 ≠ 1 → ∃ t, exec (.pePaceFault e) s = .next t ∧
      t.pe[e].running = none ∧ t.pe[e].result = none ∧ t.pe[e].state = .fault ∧ t.pe[e].faultCause = 4) ∧
    (s.pe[e].running = none → exec (.peOpComplete e) s = .next s ∧ exec (.pePaceFault e) s = .next s))

/-- On a ready module, a write of PE_OWNER by the PF while the owner is neither SEALED nor being sealed, or by the
secure world, to an idle PE with an empty queue: a reserved code 8-14 or the present owner changes nothing but
lend_err where its bit is written; another code makes that region, or none, the owner, with every parameter-set slot
empty, nothing running, and the region's blob-tag key. Every other write only sets lend_err. Before the module is
ready nothing changes.
(09_polynomial_engine.md R180, 09_polynomial_engine.md R181, 09_polynomial_engine.md R194, 00_scope.md R11) -/
def Obligations.LendingScrubsThePe : Prop :=
  ∀ (s : State) (e : Fin 4) (secure : Bool) (v : W32),
    let x := s.pe[e]
    let code := v.toNat % 16
    let shut := ∃ n, x.owner = some n ∧ (ctxSealed s (ctxOf n) = true ∨ s.sec.rgn[n].sealing = true)
    let new : Option (Fin 8) := if h : code < 8 then some ⟨code, h⟩ else none
    let bit4 := if bit v.toNat 4 = true then false else x.lendErr
    (s.dev.ready = false → exec (.peOwnerWrite secure e v) s = .next s) ∧
    (s.dev.ready = true → x.state = .idle → x.queue = [] → (secure = true ∨ ¬ shut) →
      (8 ≤ code ∧ code < 15 ∨ x.owner = new → exec (.peOwnerWrite secure e v) s = .next { s with pe := s.pe.set e { x with lendErr := bit4 } }) ∧
      (¬ (8 ≤ code ∧ code < 15) → x.owner ≠ new → ∃ t, exec (.peOwnerWrite secure e v) s = .next t ∧ t.pe[e].owner = new ∧
        t.pe[e].running = none ∧ t.pe[e].lendErr = bit4 ∧ (∀ k : Fin 4, t.pe[e].pset[k] = none) ∧
        (new = none → t.pe[e].tagKey = none) ∧ (∀ n, new = some n → t.pe[e].tagKey = s.sec.rgn[n].tagKey))) ∧
    (s.dev.ready = true → (x.state ≠ .idle ∨ x.queue ≠ [] ∨ (secure = false ∧ shut)) → exec (.peOwnerWrite secure e v) s =
      .next { s with pe := s.pe.set e { x with lendErr := true } })

/-- For N = 2^lg and a limb of N words below q: word k of its NTT is the sum over i of a_i ψ^(i(2·brv(k)+1)) modulo q,
where brv reverses lg bits and ψ^(2N) = 1 modulo q. Word k of a sum, a difference and a product of limbs is the sum,
the difference and the product of their words modulo q. (09_polynomial_engine.md R189, 09_polynomial_engine.md R190) -/
def Obligations.PolynomialArithmeticIsModular : Prop :=
  (∀ (lg q psi : Nat) (a : Limb) (k : Nat), 2 ≤ q → a.length = 2 ^ lg → psi ^ (2 * 2 ^ lg) % q = 1 → k < 2 ^ lg →
    (ntt lg q psi a).getD k 0 =
      ((List.range (2 ^ lg)).map fun i => a.getD i 0 * psi ^ (i * (2 * bitRev lg k + 1))).sum % q) ∧
  ∀ (q : Nat) (a b : Limb) (k : Nat), 1 ≤ q → k < a.length → k < b.length →
    (addLimb q a b).getD k 0 = (a.getD k 0 + b.getD k 0) % q ∧
    ((subLimb q a b).getD k 0 + b.getD k 0) % q = a.getD k 0 % q ∧ (subLimb q a b).getD k 0 < q ∧
    (mulLimb q a b).getD k 0 = a.getD k 0 * b.getD k 0 % q

/-- For N = 2^lg with lg at most 17 and a modulus with its root that the check of R185 accepts for N, the INTT of the
NTT of every limb of N words below the modulus is that limb: the two transforms carry the same polynomial.
(09_polynomial_engine.md R185, 09_polynomial_engine.md R189) -/
def Obligations.InttUndoesNtt : Prop :=
  ∀ (lg q psi : Nat) (a : Limb), lg ≤ 17 → modulusOk (2 ^ lg) (q, psi) = true → a.length = 2 ^ lg → (∀ w ∈ a, w < q) →
    intt lg q psi (ntt lg q psi a) = a

/-- A request within one page whose port finds nothing writes exactly its bytes, or answers its bytes, at the device or
host place that its translation gives, and changes nothing else but what a host request carries; in a page with tags
it answers the bytes of lines that match theirs, and a write leaves lines that match. One that faults writes
nothing, or answers zeros; the context latches its address and cause unless it holds an earlier one; a running job
that made it is stopped. A read of a SEALED region in a line that does not match its tag answers zeros, is counted
and leaves the region FAULTED; a port that finds such a line is a spoilt tag; an uncorrectable error sets its
stack's bits; a corrected one is counted. A fill caches the table's entry v and perhaps v + 1, at most 64 entries
for a tile and context; MEM_INV marks a context, and the next tick boundary leaves no cached entry of it.
(10_memory_host_link.md R211, 10_memory_host_link.md R212, 10_memory_host_link.md R213, 10_memory_host_link.md R214, 10_memory_host_link.md R221, 14_faults_restart.md R341, 14_faults_restart.md R342) -/
def Obligations.MemoryRequestsTranslateOrFault : Prop :=
  (∀ (s : State) (m : MemReq),
    let tile := entryTile m.x m.y
    let x := s.mem.ctx[m.ctx]
    let zeros : List Byte := List.replicate m.len 0
    let answer (b : List Byte) : State := { s with out := { s.out with data := b, ur := false } }
    let latched (e : Nat) : MemCtx := if x.faultValid = true then x else
      { x with faultValid := true, faultAddr := m.addr % 2 ^ 48, faultCause := e }
    let faulted (e : Nat) (u : State) : State := { u with mem := { u.mem with ctx := u.mem.ctx.set m.ctx (latched e) } }
    let stops (e : Nat) : Prop := ∀ j, requestJob s m = some j → findJob s j.ref = some j →
      (j.phase = .running ∨ j.phase = .ending) → ∃ t j', exec (.memoryRequest m) s = .next t ∧
        findJob t j.ref = some j' ∧ j'.phase = .stopped ∧ t.mem.ctx[m.ctx].faultValid = true ∧
        (x.faultValid = false → t.mem.ctx[m.ctx].faultCause = e)
    let sent (u : State) : State := { u with out := { u.out with tlp := some (hostTlp s m.ctx m.write.isSome) } }
    (∀ d, m.port = .clean → m.write = some d → d ≠ [] → m.addr % 2 ^ 21 + d.length ≤ 2 ^ 21 →
      (∀ pa, translate s tile m.ctx m.addr true = .ok (.dev pa none) →
        ∃ t, exec (.memoryRequest m) s = .next t ∧ t.mem.phys = memWrite s.mem.phys pa d ∧
          t = { s with mem := { s.mem with phys := t.mem.phys, aside := t.mem.aside } }) ∧
      (∀ pa tag, translate s tile m.ctx m.addr true = .ok (.dev pa (some tag)) →
        (partLines pa d.length).all (fun l => !tagBad s.mem tag l) = true →
        ∃ t, exec (.memoryRequest m) s = .next t ∧ t = { s with mem := { s.mem with phys := t.mem.phys, aside := t.mem.aside } } ∧
          ∀ l, l ∈ linesOf pa d.length → (∀ k ∈ linesOf pa d.length, 128 * k + 128 ≤ tagAddr tag.2 l ∨ tagAddr tag.2 l + 8 ≤ 128 * k) →
            d.length ≤ 2 ^ 21 → (∀ k ∈ linesOf pa d.length, k ≠ l → tagAddr tag.2 l + 8 ≤ tagAddr tag.2 k ∨ tagAddr tag.2 k + 8 ≤ tagAddr tag.2 l) →
            (∀ k ∈ linesOf pa d.length, 128 * l + 128 ≤ tagAddr tag.2 k ∨ tagAddr tag.2 k + 8 ≤ 128 * l) → tagBad t.mem tag l = false) ∧
      (translate s tile m.ctx m.addr true = .ok .shut → exec (.memoryRequest m) s = .next s) ∧
      (∀ ha, translate s tile m.ctx m.addr true = .ok (.host ha) →
        exec (.memoryRequest m) s = .next (sent { s with pcie := { s.pcie with host := memWrite s.pcie.host ha d } })) ∧
      (∀ e, translate s tile m.ctx m.addr true = .error e →
        (requestJob s m = none → exec (.memoryRequest m) s = .next (faulted e s)) ∧ stops e)) ∧
    (m.port = .clean → m.write = none → 0 < m.len → m.addr % 2 ^ 21 + m.len ≤ 2 ^ 21 →
      (∀ pa, translate s tile m.ctx m.addr false = .ok (.dev pa none) →
        exec (.memoryRequest m) s = .next (answer (memRead s.mem.phys pa m.len))) ∧
      (∀ pa tag, translate s tile m.ctx m.addr false = .ok (.dev pa (some tag)) →
        ((∀ l ∈ linesOf pa m.len, tagBad s.mem tag l = false) →
          exec (.memoryRequest m) s = .next (answer (memRead s.mem.phys pa m.len))) ∧
        (∀ n : Fin 8, m.ctx = ctxOf n → tagBad s.mem tag (pa / 128) = true → pa % 128 + m.len ≤ 128 →
          s.rgn.rgn[n].state = .sealed → s.rgn.rgn[n].tearingDown = false →
          ∃ t, exec (.memoryRequest m) s = .next t ∧ t.out.data = zeros ∧ t.rgn.rgn[n].state = .faulted ∧
            min (x.integ + 1) (2 ^ 32 - 1) ≤ t.mem.ctx[m.ctx].integ)) ∧
      (∀ ha, translate s tile m.ctx m.addr false = .ok (.host ha) →
        exec (.memoryRequest m) s = .next (sent (answer (memRead s.pcie.host ha m.len)))) ∧
      (∀ e, translate s tile m.ctx m.addr false = .error e →
        (requestJob s m = none → exec (.memoryRequest m) s = .next (faulted e (answer zeros))) ∧ stops e)) ∧
    ∀ k, requestStack s tile m = some k →
      (m.port = .tagMismatch → exec (.memoryRequest m) s =
        exec (.memoryRequest { m with port := .clean }) (spoilTag (requestPlace s tile m) s)) ∧
      (m.port = .tagMismatch → ∀ pa tag, requestPlace s tile m = some (.dev pa (some tag)) →
        (128 * (pa / 128) + 128 ≤ tagAddr tag.2 (pa / 128) ∨ tagAddr tag.2 (pa / 128) + 8 ≤ 128 * (pa / 128)) →
        tagBad (spoilTag (requestPlace s tile m) s).mem tag (pa / 128) = true) ∧
      (m.port = .uncorrectable → ∃ t, exec (.memoryRequest m) s = .next t ∧ t.err.hbmUe[k] = true ∧
        t.mem.stack[k].ue = true ∧ (m.write = none → t.out.data = zeros)) ∧
      (m.port = .corrected → ∃ t, exec (.memoryRequest m) s = .next t ∧
        t.mem.stack[k].ceCount = min (s.mem.stack[k].ceCount + 1) 65535)) ∧
  (∀ (s : State) (tile : Fin 24) (c : Fin 9) (v drop : Nat), ∃ l,
    exec (.translationMissFill tile c v drop) s = .next { s with mem := { s.mem with tlb := l } } ∧
    (∀ e ∈ l, e ∈ s.mem.tlb ∨ e.tile = tile ∧ e.ctx = c ∧ (e.v = v ∨ e.v = v + 1) ∧ e.pte = tableEntry s c e.v) ∧
    (v < 65536 → (∀ e ∈ s.mem.tlb, ¬ (e.tile = tile ∧ e.ctx = c ∧ e.v = v)) →
      ∃ e ∈ l, e.tile = tile ∧ e.ctx = c ∧ e.v = v) ∧
    ((s.mem.tlb.filter (Tlb.at tile c)).length ≤ 64 → (l.filter (Tlb.at tile c)).length ≤ 64)) ∧
  ∀ (s : State) (v : W32) (c : Fin 9),
    (s.dev.ready = true → v.toNat % 16 = c.val → exec (.memInv v) s = .next { s with mem := { s.mem with
      ctx := s.mem.ctx.set c { s.mem.ctx[c] with invBusy := true } } }) ∧
    (s.dev.ready = false ∨ 9 ≤ v.toNat % 16 → exec (.memInv v) s = .next s) ∧
    (s.dev.powered = true → s.dev.perst = false → s.mem.ctx[c].invBusy = true →
      ∃ t, exec .tickBoundary s = .next t ∧ ∀ e ∈ t.mem.tlb, e.ctx ≠ c)

/-- On a ready module, an access inside BAR4 whose window entry is invalid is refused with the BAR4 offset and cause 2;
of a SEALED context with the device address and cause 5; one whose translation faults with that cause (the cases
here lie in one window entry; an access that crosses one is made by each); a refused write is dropped, a refused
read is answered with Unsupported Request, and context 8 latches the case unless it holds an earlier one. Any other
reads or writes its bytes where translation leads. A write of MEM_FRAME_OWN to a frame that is free or of an OPEN
region that is not being sealed, or by the secure world, gives the frame its new owner and, unless the new owner had
left its content there, leaves nothing to read in it, and no other frame changes; given back to the owner whose key
it was written with, it reads as before; any other write changes nothing.
(10_memory_host_link.md R226, 10_memory_host_link.md R215, 10_memory_host_link.md R218) -/
def Obligations.HostAccessesReachOrAreRefused : Prop :=
  (∀ (s : State) (o : Nat) (a : HostAccess), s.dev.ready = true → o < 2 ^ (30 + s.pcie.bar4) →
    0 < accessLen a → o % 2 ^ 21 + accessLen a ≤ 2 ^ 21 →
    let x := s.mem.ctx[(8 : Fin 9)]
    let latched (addr cause : Nat) : MemCtx := if x.faultValid = true then x else
      { x with faultValid := true, faultAddr := addr % 2 ^ 48, faultCause := cause }
    let out : OutState := match a with
      | .read _ => { s.out with data := [], ur := true }
      | .write _ => s.out
    let refused (addr cause : Nat) : State :=
      { s with mem := { s.mem with ctx := s.mem.ctx.set (8 : Fin 9) (latched addr cause) }, out := out }
    let write := match a with
      | .read _ => false
      | .write _ => true
    let entry := s.mem.win.find? fun w => w.valid && w.entry == o / 2 ^ 21
    (entry = none → exec (.bar4Access o a) s = .next (refused o 2)) ∧
    ∀ w, entry = some w →
      let c : Fin 9 := Fin.ofNat 9 w.ctx
      let addr := w.page * 2 ^ 21 + o % 2 ^ 21
      (ctxSealed s c = true → exec (.bar4Access o a) s = .next (refused addr 5)) ∧
      (ctxSealed s c = false →
        (∀ e, translate s hostTile c addr write = .error e → exec (.bar4Access o a) s = .next (refused addr e)) ∧
        (∀ pa n, translate s hostTile c addr write = .ok (.dev pa none) → a = .read n →
          exec (.bar4Access o a) s = .next { s with out := { s.out with data := memRead s.mem.phys pa n, ur := false } }) ∧
        (∀ ha n, translate s hostTile c addr write = .ok (.host ha) → a = .read n →
          exec (.bar4Access o a) s = .next { s with out := { s.out with data := memRead s.pcie.host ha n, ur := false } }) ∧
        (∀ p n, translate s hostTile c addr write = .ok p → a = .read n →
          exec (.bar4Access o a) s = .next { s with out := { s.out with data := (readPlace s p n).1, ur := false } }) ∧
        (∀ p d, translate s hostTile c addr write = .ok p → a = .write d → exec (.bar4Access o a) s = .next (writePlace p d s)) ∧
        (translate s hostTile c addr write = .ok .shut → ∀ d, a = .write d → exec (.bar4Access o a) s = .next s) ∧
        (∀ pa d, translate s hostTile c addr write = .ok (.dev pa none) → a = .write d →
          ∃ t, exec (.bar4Access o a) s = .next t ∧ t.mem.phys = memWrite s.mem.phys pa d ∧
            t = { s with mem := { s.mem with phys := t.mem.phys, aside := t.mem.aside } }) ∧
        ∀ ha d, translate s hostTile c addr write = .ok (.host ha) → a = .write d →
          exec (.bar4Access o a) s = .next { s with pcie := { s.pcie with host := memWrite s.pcie.host ha d } })) ∧
  (∀ (s : State) (o : Nat) (d d' : List Byte), s.dev.ready = true → o + d.length < 2 ^ (30 + s.pcie.bar4) → d ≠ [] →
    o % 2 ^ 21 + d.length = 2 ^ 21 → ∃ t, exec (.bar4Access o (.write d)) s = .next t ∧
      exec (.bar4Access o (.write (d ++ d'))) s = exec (.bar4Access (o + d.length) (.write d')) t) ∧
  ∀ (s : State) (secure : Bool) (v : W32),
    let f := s.mem.frameSel
    let o := v.toNat % 16
    let allowed := s.dev.ready = true ∧ isFrame f = true ∧ (o < 9 ∨ o = 15) ∧ (secure = true ∨ frameOwner s.mem f = 15 ∨
      ∃ n : Fin 8, frameOwner s.mem f = n.val ∧ s.rgn.rgn[n].state = .opened ∧ s.sec.rgn[n].sealing = false)
    let within := ∀ x ∈ s.mem.aside, x.frame = f → ∀ c ∈ x.cells, c.1 / 2 ^ 21 = f
    (allowed → o ≠ frameOwner s.mem f → ∃ m, exec (.memFrameOwnWrite secure v) s = .next { s with mem := m } ∧
      frameOwner m f = o ∧ (∀ g, g ≠ f → frameOwner m g = frameOwner s.mem g) ∧
      ((∀ x ∈ s.mem.aside, x.frame = f → some x.key ≠ ownerKey s.mem o) → ∀ a, a / 2 ^ 21 = f → memGet m.phys a = 0) ∧
      (within → ∀ a, a / 2 ^ 21 ≠ f → memGet m.phys a = memGet s.mem.phys a) ∧
      ∀ (k : List Byte) (back : W32), Memory.wf s.mem.phys = true → (∀ x ∈ s.mem.aside, x.frame ≠ f) →
        ownerKey s.mem (frameOwner s.mem f) = some k → ownerKey s.mem o ≠ some k → back.toNat % 16 = frameOwner s.mem f →
        (frameOwner s.mem f < 9 ∨ frameOwner s.mem f = 15) →
        ∃ t, exec (.memFrameOwnWrite true back) { s with mem := m } = .next t ∧
          (∀ a, memGet t.mem.phys a = memGet s.mem.phys a) ∧ frameOwner t.mem f = frameOwner s.mem f) ∧
    (¬ allowed ∨ o = frameOwner s.mem f → exec (.memFrameOwnWrite secure v) s = .next s)

/-- A power state change, a Command or BAR write of the PF, VF Enable, a supported BAR4 size and supported payload and
read request sizes change that register alone; a Command or BAR write of a VF whose TDI is in CONFIG_LOCKED or RUN
leaves the TDI in ERROR. A 64-bit register write is its two halves, the lower first; a narrower one than 32 bits
changes nothing, and a misaligned one faults (the model's choice, log entry 52). DEV_SCRATCH takes a write unless
start-up failed; before ready no other PF register changes. A PF FLR on a ready module leaves every region FREE, no
job, no queue enabled, the outputs disabled and reset_cause PF FLR, noise as it was, and the cores online if their
component matches its measurement. A VF FLR tears down an OPEN, SEALED, FAULTED or DISABLED region to create it
again, waits for one that forms or is being sealed, and leaves a FREE one; each clears the region's log.
(10_memory_host_link.md R224, 10_memory_host_link.md R225, 10_memory_host_link.md R233, 10_memory_host_link.md Table 10-4, 11_owners_secrecy.md R253, 00_scope.md R12, 16_power_energy_startup.md R391, 18_register_index.md R412) -/
def Obligations.FunctionsTakeTheirConfiguration : Prop :=
  (∀ (s : State) (fn : Fin 9) (d3 : Bool) (v : BitVec 16) (w : W32) (n : Fin 6) (on : Bool) (g mps mrrs : Nat),
    exec (.powerStateChange fn d3) s = .next { s with pcie := { s.pcie with d3 := s.pcie.d3.set fn d3 } } ∧
    exec (.configurationWrite (.command 0 v)) s =
      .next { s with pcie := { s.pcie with command := s.pcie.command.set 0 v } } ∧
    exec (.configurationWrite (.bar 0 n w)) s =
      .next { s with pcie := { s.pcie with bars := s.pcie.bars.set 0 (s.pcie.bars[0].set n w) } } ∧
    exec (.configurationWrite (.vfEnable on)) s = .next { s with pcie := { s.pcie with vfEnable := on } } ∧
    (g ≤ 7 → exec (.configurationWrite (.bar4Size g)) s = .next { s with pcie := { s.pcie with bar4 := g } }) ∧
    (mps ≤ 2 → mrrs ≤ 5 → fn ≠ 0 → exec (.configurationWrite (.sizes fn mps mrrs)) s =
      .next { s with pcie := { s.pcie with sizes := s.pcie.sizes.set fn (mps, mrrs) } }) ∧
    (mps ≤ 2 → mrrs ≤ 5 → ∃ t, exec (.configurationWrite (.sizes 0 mps mrrs)) s = .next t ∧ t.pcie.sizes[(0 : Fin 9)] = (mps, mrrs) ∧
      t.mem.link = (s.mem.link.1, s.mem.link.2.1, mps)) ∧
    (2 < mps ∨ 5 < mrrs → exec (.configurationWrite (.sizes fn mps mrrs)) s = .next s) ∧
    ∀ r : Fin 8, (s.sec.rgn[r].tdi = .locked ∨ s.sec.rgn[r].tdi = .run) →
      (∃ t, exec (.configurationWrite (.command (vfOf r) v)) s = .next t ∧ t.sec.rgn[r].tdi = .error ∧
        t.pcie.command[vfOf r] = v) ∧
      ∃ t, exec (.configurationWrite (.bar (vfOf r) n w)) s = .next t ∧ t.sec.rgn[r].tdi = .error ∧
        t.pcie.bars[vfOf r][n] = w) ∧
  (∀ (s : State) (w : View) (off : Nat) (v : W64) (cclk : Nat),
    (off % 8 = 0 → ∃ t, exec (.registerWrite w off 32 v cclk) s = .next t ∧
      exec (.registerWrite w off 64 v cclk) s = exec (.registerWrite w (off + 4) 32 (v >>> 32) cclk) t) ∧
    (∀ width, width < 32 → exec (.registerWrite w off width v cclk) s = .next s) ∧
    (off % 4 ≠ 0 → exec (.registerWrite w off 32 v cclk) s = .fault .misalignedAccess) ∧
    (off % 8 ≠ 0 → exec (.registerWrite w off 64 v cclk) s = .fault .misalignedAccess) ∧
    (s.dev.stage ≠ .failed → exec (.registerWrite .pf 0x20 32 v cclk) s =
      .next { s with dev := { s.dev with scratch := v.setWidth 32 } }) ∧
    (s.dev.ready = false → off % 4 = 0 → 0x10000 ≤ off → exec (.registerWrite .pf off 32 v cclk) s = .next s)) ∧
  (∀ s : State, s.dev.ready = true → ∃ t, exec .pfFlr s = .next t ∧ t.jobs = [] ∧ t.haly.outEnable = false ∧
    t.dev.resetCause = .pfFlr ∧ t.noise.state = s.noise.state ∧ (∀ r : Fin 8, t.rgn.rgn[r].state = .free) ∧
    (∀ i : Fin 33, t.que[i].enable = false ∧ t.que[i].pkts = []) ∧
    t.mkh.lockstepOk = partMatches s 0 ∧ ∀ c : Fin 6, t.mkh.cp[c].online = partMatches s 1) ∧
  (∀ s : State, s.dev.ready = false → exec .pfFlr s = .next s) ∧
  ∀ (s : State) (r : Fin 8), s.rgn.rgn[r].tearingDown = false → s.sec.rgn[r].tdi = .unlocked →
    let u : State := { s with err := { s.err with rgn := s.err.rgn.set r ErrLog.reset } }
    (s.rgn.rgn[r].state = .free → exec (.vfFlr r) s = .next u) ∧
    (s.rgn.rgn[r].state = .forming ∨ s.rgn.rgn[r].state ≠ .free ∧ s.sec.rgn[r].sealing = true → exec (.vfFlr r) s = .next { u with rgn := { s.rgn with
      rgn := s.rgn.rgn.set r { s.rgn.rgn[r] with flrWaits := true } } }) ∧
    (s.rgn.rgn[r].state ≠ .free → s.rgn.rgn[r].state ≠ .forming → s.sec.rgn[r].sealing = false →
      ∃ t, exec (.vfFlr r) s = .next t ∧ t.rgn.rgn[r].tearingDown = true ∧ t.rgn.rgn[r].byFlr = true ∧
        ∀ j ∈ t.jobs, j.ref.r ≠ r)

/-- While secure Criward serves: KEY_EXCHANGE opens a session whose owner is the digest of the requester's key, or
answers Busy with eight open; SESSION_END drops the session and the offers it made; a certificate and a measurement
are answered as the device holds them; a SEAL_OFFER, SEAL_RESUME, TAG_KEY_SET or SEAL_QUERY in a session gets,
inside the vendor-defined wrapper, MALFORMED, the first failing condition's status, or OK with its effect: the
pending offer; attest_required cleared and the next seal_epoch; the key in the region and its lent PEs; the region
record; a message without that wrapper gets an SPDM error. While it does not serve nothing changes. The numbers of
sessions and the SPDM framing are the model's (log entry 44).
(11_owners_secrecy.md R239, 11_owners_secrecy.md R240, 11_owners_secrecy.md R241, 11_owners_secrecy.md R242, 11_owners_secrecy.md R243, 11_owners_secrecy.md R244, 11_owners_secrecy.md R263, log entry 44) -/
def Obligations.SessionsServeTheirOwner : Prop :=
  (∀ s : State, secureServes s = true →
    let saying (b : List Byte) (u : State) : State := { u with out := { u.out with msg := b } }
    (∀ auth key, 8 ≤ s.sec.sessions.length → exec (.keyExchange auth key) s = .next (saying [0x12, 0x7F, 0x03, 0x00] s)) ∧
    (∀ auth key, s.sec.sessions.length < 8 → ∃ x : Session, x.sid = s.sec.opened + 1 ∧ x.mutualAuth = auth ∧
      x.owner = sha256 (slice key 0 64) ∧ exec (.keyExchange auth key) s = .next (saying ([0x12, 0x64] ++ leBytes 4 x.sid)
        { s with sec := { s.sec with sessions := s.sec.sessions ++ [x], opened := x.sid } })) ∧
    (s.sec.aliasOk = true → (∃ did, exec (.getCertificate 0) s = .next (saying (Config.rootCert ++ Config.deviceIdCert ++
        Config.aliasCert did (aliasKey s) s.mkh.meas[(0 : Fin 8)] (leBytes 4 s.mkh.release.toNat)) s)) ∧
      ∀ slot, slot ≠ 0 → exec (.getCertificate slot) s = .next (saying [0x12, 0x7F, 0x01, 0x00] s)) ∧
    (∀ k : Fin 8, ∃ b, exec (.getMeasurements (k.val + 1)) s = .next (saying (b ++ Config.aliasSign (aliasKey s) b) s) ∧
      slice b 8 32 = slice s.mkh.meas[k] 0 32) ∧
    (∀ n : Fin 8, ∃ b, exec (.getMeasurements (0x10 + n.val)) s = .next (saying (b ++ Config.aliasSign (aliasKey s) b) s) ∧
      slice b 8 64 = regionRecord s n)) ∧
  (∀ (s : State) (sid : Nat), ∃ x, exec (.sessionEnd sid) s = .next { s with sec := x } ∧
    x = { s.sec with sessions := x.sessions, rgn := x.rgn } ∧ (∀ y, y ∈ x.sessions ↔ y ∈ s.sec.sessions ∧ y.sid ≠ sid) ∧
    ∀ n : Fin 8, { x.rgn[n] with offer := none } = { s.sec.rgn[n] with offer := none } ∧
      ∀ o : Offer, x.rgn[n].offer = some o ↔ s.sec.rgn[n].offer = some o ∧ o.sid ≠ sid) ∧
  (∀ (s : State) (sid : Nat) (msg : List Byte) (x : Session), secureServes s = true → findSession s sid = some x →
    11 + msg.length ≤ 4096 →
    let req := vendorMsg 0xFE msg
    let n : Fin 8 := Fin.ofNat 8 (fieldAt msg 2 1)
    let g := s.rgn.rgn[n]
    let y := s.sec.rgn[n]
    let form (op : Byte) (len : Nat) := msg.length = len ∧ slice msg 0 2 = [0x80, op] ∧ fieldAt msg 2 1 ≤ 7
    let saying (op st : Byte) (b : List Byte) (u : State) : State := { u with out := { u.out with msg := vendorMsg 0x7E ([0x80, op, st] ++ b) } }
    let own := g.state = .sealed ∧ x.owner = ownerMeas s n
    let put (y : SecRgn) : State := { s with sec := { s.sec with rgn := s.sec.rgn.set n y } }
    let offer : Offer :=
      { sid := sid, owner := x.owner, policy := BitVec.ofNat 8 (fieldAt msg 3 1), gen := g.gen }
    (¬ (form 1 8 ∧ fieldAt msg 3 1 < 4) → exec (.sealOffer sid req) s = .next (saying 0x81 5 [] s)) ∧
    (form 1 8 ∧ fieldAt msg 3 1 < 4 →
      (x.mutualAuth = false → exec (.sealOffer sid req) s = .next (saying 0x81 4 [] s)) ∧
      (x.mutualAuth = true → g.state ≠ .opened → exec (.sealOffer sid req) s = .next (saying 0x81 1 [] s)) ∧
      (x.mutualAuth = true → g.state = .opened → g.gen.toNat ≠ fieldAt msg 4 4 →
        exec (.sealOffer sid req) s = .next (saying 0x81 2 [] s)) ∧
      (x.mutualAuth = true → g.state = .opened → g.gen.toNat = fieldAt msg 4 4 → y.offer ≠ none →
        exec (.sealOffer sid req) s = .next (saying 0x81 3 [] s)) ∧
      (x.mutualAuth = true → g.state = .opened → g.gen.toNat = fieldAt msg 4 4 → y.offer = none →
        exec (.sealOffer sid req) s = .next (saying 0x81 0 [] (put { y with offer := some offer })))) ∧
    (form 2 8 ∧ fieldAt msg 3 1 = 0 →
      (¬ own → exec (.sealResume sid req) s = .next (saying 0x82 4 [] s)) ∧
      (own → (y.attest = false ∨ x.since ≤ y.withdrawnAt) → exec (.sealResume sid req) s = .next (saying 0x82 1 [] s)) ∧
      (own → y.attest = true → y.withdrawnAt < x.since → y.epoch.toNat ≠ fieldAt msg 4 4 →
        exec (.sealResume sid req) s = .next (saying 0x82 2 [] s)) ∧
      (own → y.attest = true → y.withdrawnAt < x.since → y.epoch.toNat = fieldAt msg 4 4 →
        exec (.sealResume sid req) s = .next (saying 0x82 0 (leBytes 4 (y.epoch + 1).toNat)
          (put { y with attest := false, epoch := y.epoch + 1 })))) ∧
    (form 3 36 ∧ fieldAt msg 3 1 = 0 →
      (g.state = .sealed → x.owner ≠ ownerMeas s n → exec (.tagKeySet sid req) s = .next (saying 0x83 4 [] s)) ∧
      (g.state ≠ .sealed → g.state ≠ .opened → exec (.tagKeySet sid req) s = .next (saying 0x83 1 [] s)) ∧
      (own ∨ g.state = .opened → ∃ t, exec (.tagKeySet sid req) s = .next t ∧ t.out.msg = vendorMsg 0x7E [0x80, 0x83, 0] ∧
        t.sec.rgn[n].tagKey = some (slice msg 4 32) ∧ (∀ m : Fin 8, m ≠ n → t.sec.rgn[m] = s.sec.rgn[m]) ∧
        ∀ e : Fin 4, t.pe[e].tagKey = if s.pe[e].owner = some n then some (slice msg 4 32) else s.pe[e].tagKey)) ∧
    (form 4 4 ∧ fieldAt msg 3 1 = 0 → exec (.sealQuery sid req) s = .next (saying 0x84 0 (regionRecord s n) s)) ∧
    ∀ raw, (∀ b, raw ≠ vendorMsg 0xFE b) → ∀ c ∈ ([.sealOffer sid raw, .sealResume sid raw, .tagKeySet sid raw, .sealQuery sid raw] : List Instr),
      exec c s = .next { s with out := { s.out with msg := [0x12, 0x7F, 0x01, 0x00] } }) ∧
  ∀ s : State, secureServes s = false → ∀ auth key sid msg slot index,
    exec (.keyExchange auth key) s = .next s ∧ exec (.getCertificate slot) s = .next s ∧
    exec (.getMeasurements index) s = .next s ∧ exec (.sealOffer sid msg) s = .next s ∧
    exec (.sealResume sid msg) s = .next s ∧ exec (.tagKeySet sid msg) s = .next s ∧ exec (.sealQuery sid msg) s = .next s

/-- In an open session while secure Criward serves: KEY_PROG of a slot that is not Secure, or of the other key set of a
Secure one with its ID and function, takes the stream's ID, function and the key of that sub-stream and direction;
else it changes none of them; K_SET_GO of a set with all six keys makes the slot Secure with that set. An integrity
failure of a Secure slot leaves it Insecure, counts, and leaves every TDI bound to it that was in CONFIG_LOCKED or
RUN in ERROR, and no other. LOCK_INTERFACE takes an unlocked TDI of a region that the session owns, with no
attestation due, on a Secure stream of its VF, to CONFIG_LOCKED, bound and with its NO_FW_UPDATE; START a locked one
to RUN; STOP any to CONFIG_UNLOCKED, unbound; else none changes. The response codes are the model's (log entries 45,
46).
(11_owners_secrecy.md R250, 11_owners_secrecy.md R251, 11_owners_secrecy.md R252, 11_owners_secrecy.md R253, log entries 45 and 46) -/
def Obligations.StreamsAndInterfacesMoveAsStated : Prop :=
  (∀ (s : State) (sid : Nat) (x : Session), secureServes s = true → findSession s sid = some x →
    let saying (b : List Byte) (u : State) : State := { u with out := { u.out with msg := b } }
    let putS (k : Fin 8) (y : Stream) : State := { s with sec := { s.sec with stream := s.sec.stream.set k y } }
    let put (r : Fin 8) (y : SecRgn) : State := { s with sec := { s.sec with rgn := s.sec.rgn.set r y } }
    (∀ (k : Fin 8) (id : Byte) (fn : Fin 9) (set : Fin 2) (sub : Fin 3) (tx : Bool) (key : List Byte), let y := s.sec.stream[k]
      let slot : Fin 6 := Fin.ofNat 6 (2 * sub.val + if tx = true then 1 else 0)
      (y.secure = false ∨ y.id = id ∧ y.fn = fn ∧ y.keySet ≠ set → exec (.keyProg sid k id fn set sub tx key) s =
        .next (saying [3, 0] (putS k { y with id := id, fn := fn, keys := y.keys.set set (y.keys[set].set slot (some key)) }))) ∧
      (y.secure = true → (y.id ≠ id ∨ y.fn ≠ fn ∨ y.keySet = set) →
        exec (.keyProg sid k id fn set sub tx key) s = .next (saying [3, 3] s)) ∧
      ((∀ i : Fin 6, y.keys[set][i] ≠ none) → exec (.kSetGo sid k set) s = .next (saying [6] (putS k { y with secure := true, keySet := set }))) ∧
      ((∃ i : Fin 6, y.keys[set][i] = none) → exec (.kSetGo sid k set) s = .next s)) ∧
    ∀ (r k : Fin 8) (noFw : Bool), let y := s.sec.rgn[r]
      let may := y.tdi = .unlocked ∧ y.attest = false ∧ s.rgn.rgn[r].state = .sealed ∧ x.owner = ownerMeas s r ∧
        s.sec.stream[k].secure = true ∧ s.sec.stream[k].fn = vfOf r
      (may → exec (.lockInterfaceRequest sid r k noFw) s =
        .next (saying [3] (put r { y with tdi := .locked, stream := some k, noFw := noFw }))) ∧
      (¬ may → exec (.lockInterfaceRequest sid r k noFw) s = .next (saying [0x7F] s)) ∧
      (y.tdi = .locked → exec (.startInterfaceRequest sid r) s = .next (saying [6] (put r { y with tdi := .run }))) ∧
      (y.tdi ≠ .locked → exec (.startInterfaceRequest sid r) s = .next (saying [0x7F] s)) ∧
      ∃ t, exec (.stopInterfaceRequest sid r) s = .next t ∧
        t.sec = { s.sec with rgn := s.sec.rgn.set r { y with tdi := .unlocked, stream := none, noFw := false } }) ∧
  ∀ (s : State) (k : Fin 8),
    (s.sec.stream[k].secure = true → ∃ t, exec (.ideIntegrityFailure k) s = .next t ∧
      t.sec.stream = s.sec.stream.set k
        { s.sec.stream[k] with secure := false, fails := min (s.sec.stream[k].fails + 1) 65535 } ∧
      ∀ n : Fin 8, t.sec.rgn[n].tdi = if s.sec.rgn[n].stream = some k ∧ (s.sec.rgn[n].tdi = .locked ∨ s.sec.rgn[n].tdi = .run)
        then .error else s.sec.rgn[n].tdi) ∧
    (s.sec.stream[k].secure = false → exec (.ideIntegrityFailure k) s = .next s)

/-- REGION_SEAL, taken by its core and not rejected or refused, completes with the first that holds: SEAL_NOT_OPEN, the
region is not OPEN or is torn down; SEAL_BUSY, a queue of it holds an undispatched packet or a job runs;
SEAL_NO_OFFER, no offer of that owner for this generation is pending; ENTROPY_FAILURE, noise has failed. Else
sealing begins: the offer is consumed, owner, host_ide and ring_ok are its own, its gating the secure world's.
SEAL_COMPLETE with a measurement that does not match leaves an OPEN region FAULTED and not sealing; with one that
does, and noise serving, SEALED with the next seal_epoch, a memory key, an integrity key, tags, its owner's noise
root and no blob-tag key. A region that is not sealing does not change.
(11_owners_secrecy.md R245, 11_owners_secrecy.md R246, 11_owners_secrecy.md R247, 11_owners_secrecy.md R248, 11_owners_secrecy.md Table 11-6, 10_memory_host_link.md R218, 10_memory_host_link.md R220, 05_noise.md R109, 05_noise.md R117, 14_faults_restart.md R339) -/
def Obligations.SealingChecksTakesAndCompletes : Prop :=
  (∀ (s : State) (p : Pkt), currentOp s maintQ 0x42 = some p → coreTakes s maintQ = true → pktReject 32 p.bytes = none → maintRefused 0x42 s = false →
    let n : Fin 8 := Fin.ofNat 8 (fieldAt p.bytes 16 1)
    let g := s.rgn.rgn[n]
    let ends (st : Nat) : Prop := exec .regionSeal s = .next (settleMaint (decide' maintQ p.pos (plainDone st) s))
    let shut := g.state ≠ .opened ∨ g.tearingDown = true
    let busy := (∃ q : Fin 4, undispatched s.que[qIndex n q] = true) ∨ ∃ j ∈ s.jobs, j.ref.r = n ∧ j.phase ≠ .staged
    let fits (o : Offer) := s.sec.rgn[n].offer = some o ∧ o.owner = slice p.bytes 32 32 ∧ o.gen = g.gen
    (shut → ends Status.sealNotOpen) ∧
    (¬ shut → busy → ends Status.sealBusy) ∧
    (¬ shut → ¬ busy → (∀ o, ¬ fits o) → ends Status.sealNoOffer) ∧
    (¬ shut → ¬ busy → (∃ o, fits o) → s.noise.state = .failed → ends Status.entropyFailure) ∧
    (∀ o, ¬ shut → ¬ busy → fits o → s.noise.state ≠ .failed → ∃ t, exec .regionSeal s = .next t ∧
      t.rgn.rgn[n].state = .opened ∧ t.sec = { s.sec with rgn := s.sec.rgn.set n { s.sec.rgn[n] with
        sealing := true, gated := true, offer := none, owner := o.owner, hostIde := o.policy.getLsbD 0, ringOk := o.policy.getLsbD 1,
        attest := false } })) ∧
  ∀ (s : State) (r : Fin 8),
    (s.sec.rgn[r].sealing = false → ∀ ok, exec (.sealComplete r ok) s = .next s) ∧
    (s.sec.rgn[r].sealing = true → creators s false = true → s.rgn.rgn[r].state = .opened →
      s.rgn.rgn[r].tearingDown = false → s.rgn.rgn[r].flrWaits = false →
      (∃ t, exec (.sealComplete r false) s = .next t ∧ t.rgn.rgn[r].state = .faulted ∧ t.sec.rgn[r].sealing = false) ∧
      (drbgServes s 4 = true → ∃ t, exec (.sealComplete r true) s = .next t ∧ t.rgn.rgn[r].state = .sealed ∧
        t.sec.rgn[r].sealing = false ∧ t.sec.rgn[r].epoch = s.sec.rgn[r].epoch + 1 ∧ t.sec.rgn[r].tagKey = none ∧
        t.sec.rgn[r].owner = s.sec.rgn[r].owner ∧ t.mem.ctx[ctxOf r].key ≠ none ∧ t.mem.ctx[ctxOf r].integKey ≠ none ∧
        t.mem.ctx[ctxOf r].tags = true ∧ t.noise.rgn[r].root = some (noiseRoot s.sec.rgn[r].owner)))

/-- Averages above 165 W or 148 W hold admission until they are back; above 172 W each ticking region's duty is capped
for 64 ticks. A gate write to the selected tile gives code 3 without a gate control, 1 and a counted denial where
the secure world's, 2 where busy, else 0 with the gate set; the secure world writes only its own. At TN mod 64 = 0 a
tile at 100.0 °C or more loses one of duty, one below 97.0 °C gains one up to 16, a cut one keeps it. A trip at
110.0 °C or more cuts the tile: no job of an OPEN region that uses it runs on, each affected SEALED region must
attest, cause 1; an edge tile without a unit gives a cold reset. It returns below 95.0 °C with duty 8. A rail fault
cuts with cause 2, unwarned; its return finds the tile scrubbed (a Kudu cluster's memory but for its reloaded
executive).
(16_power_energy_startup.md R379, 16_power_energy_startup.md R382, 16_power_energy_startup.md R383, 16_power_energy_startup.md R386, 11_owners_secrecy.md R259, 11_owners_secrecy.md R260, 11_owners_secrecy.md R261, 11_owners_secrecy.md R262, log entry 37) -/
def Obligations.GatesDutyHeatAndCuts : Prop :=
  (∀ (s : State) (m : PowerAvg),
    let above := 165000 < m.ms10 ∨ 148000 < m.s1
    (∃ p, exec (.powerLimitExceeded m) s = .next { s with pwr := { s.pwr with
        in1ms := m.ms1 % 2 ^ 18, in1s := m.s1 % 2 ^ 18, admitHold := s.pwr.admitHold || decide above, rgn := p } } ∧
      ∀ n : Fin 8, p[n] = if 172000 < m.us100 ∧ s.tick.rgn[n].ticking = true
        then { s.pwr.rgn[n] with capUntil := some (s.tick.tn.toNat + 64) } else s.pwr.rgn[n]) ∧
    exec (.admitHoldClear m) s = .next { s with pwr := { s.pwr with
      in1ms := m.ms1 % 2 ^ 18, in1s := m.s1 % 2 ^ 18, admitHold := s.pwr.admitHold && decide above } }) ∧
  (∀ (s : State) (v : W32),
    let x := s.pwr.tileSel % 16
    let y := s.pwr.tileSel / 16
    let i := tileIdx x y
    let off := v.toNat % 2 = 1
    let code (c : Nat) : State := { s with pwr := { s.pwr with lastCode := c } }
    let gated : State := { s with pwr := { s.pwr with lastCode := 0, tile := s.pwr.tile.set i { s.pwr.tile[i] with off := decide off } } }
    (s.dev.ready = true →
      (gatable x y = false → exec (.gateWrite false v) s = .next (code 3)) ∧
      (gatable x y = true → gateSealed s x y = true → exec (.gateWrite false v) s = .next { s with
        sec := { s.sec with gateX := x, gateY := y, denied := min (s.sec.denied + 1) 65535 },
        pwr := { s.pwr with lastCode := 1 } }) ∧
      (gatable x y = true → gateSealed s x y = false → off → tileBusy s x y = true →
        exec (.gateWrite false v) s = .next (code 2)) ∧
      (gatable x y = true → gateSealed s x y = false → ¬ (off ∧ tileBusy s x y = true) →
        exec (.gateWrite false v) s = .next gated)) ∧
    (s.dev.ready = false → exec (.gateWrite false v) s = .next s) ∧
    (s.mkh.lockstepOk = true → gateSealed s x y = true → off → tileBusy s x y = true →
      exec (.gateWrite true v) s = .next (code 2)) ∧
    (s.mkh.lockstepOk = true → gateSealed s x y = true → ¬ (off ∧ tileBusy s x y = true) →
      exec (.gateWrite true v) s = .next gated) ∧
    (s.mkh.lockstepOk = false ∨ gateSealed s x y = false → exec (.gateWrite true v) s = .next s)) ∧
  (∀ (s : State) (tj : List (Nat × Int)),
    (s.tick.running = true → s.tick.tn.toNat % 64 = 0 → ∃ q, exec (.dutyUpdate tj) s = .next { s with pwr := { s.pwr with tile := q } } ∧
      ∀ i : Fin 192, let t := s.pwr.tile[i]
        let now := ((tj.find? fun p => p.1 == i.val).map Prod.snd).getD t.tj
        q[i] = { t with tj := now, duty := if t.cut = true then t.duty else if 1600 ≤ now then t.duty - 1
          else if now < 1552 then min 16 (t.duty + 1) else t.duty }) ∧
    (s.tick.running = false ∨ s.tick.tn.toNat % 64 ≠ 0 → exec (.dutyUpdate tj) s = .next s)) ∧
  ∀ (s : State) (x y : Nat),
    let i := tileIdx x y
    let tile := s.pwr.tile[i]
    let sealedHit (t : State) (cause : Nat) (warned : Bool) : Prop := ∀ n : Fin 8, s.rgn.rgn[n].state = .sealed →
      tileOf s n x y = true → t.sec.rgn[n].attest = true ∧ t.sec.lastCause = cause ∧ t.sec.lastWarned = warned
    (∀ tj, x < 16 → y < 12 → s.dev.powered = true → tile.cut = false → 1760 ≤ tj →
      (∀ e, cutUnit x y = some e → ∃ t, exec (.thermalTrip x y tj) s = .next t ∧ t.pwr.tile[i].cut = true ∧
        t.pwr.trips = min (s.pwr.trips + 1) 65535 ∧ sealedHit t 1 true ∧
        ∀ j j', findJob s j.ref = some j → j.phase ≠ .staged → e ∈ j.engines → ctxSealed s (ctxOf j.ref.r) = false →
          findJob t j.ref = some j' → j'.phase = .restoring) ∧
      (cutUnit x y = none → ∃ t, exec (.thermalTrip x y tj) s = .next t ∧ t.dev.stagReset = some .stagThermal)) ∧
    (∀ tj, tile.cut = true ∨ tj < 1760 → exec (.thermalTrip x y tj) s = .next s) ∧
    (∀ tj, x < 16 → y < 12 → tile.cut = true → tile.scrubDue = false → tj < 1520 → ∃ t, exec (.tileCooled x y tj) s = .next t ∧
      t.pwr.tile = s.pwr.tile.set i { tile with cut := false, duty := 8, tj := tj }) ∧
    (∀ tj, tile.cut = false ∨ 1520 ≤ tj → exec (.tileCooled x y tj) s = .next s) ∧
    (x < 16 → y < 12 → s.dev.powered = true → ∃ t, exec (.railFault x y) s = .next t ∧ t.pwr.tile[i].cut = true ∧
      t.pwr.tile[i].scrubDue = true ∧ sealedHit t 2 false) ∧
    (s.dev.powered = false → exec (.railFault x y) s = .next s) ∧
    (x < 16 → y < 12 → tile.cut = true → tile.scrubDue = true → ∃ t, exec (.tilePowerReturn x y) s = .next t ∧
      t.pwr.tile = s.pwr.tile.set i { tile with cut := false, scrubDue := false } ∧
      ∀ e, cutUnit x y = some e → ∀ a, (0x40000 ≤ a ∨ ∀ m, e ≠ .kudu m) → memGet (localMem t e) a = 0) ∧
    (tile.cut = false ∨ tile.scrubDue = false → exec (.tilePowerReturn x y) s = .next s)

/-- A doorbell's earlier stores land first. Through a page the view has, it is taken if the queue is enabled and its
page not shut, the generation matches, and the position lies in the window; else it is counted as ignored with
db_err, and as stale if the generation alone failed. A completion position is taken, and cq_full of an enabled queue
shows whether a slot is free. A write with enable = 1 to a disabled queue with both sizes enables it with a new
generation, positions 0 and no packet; one with enable = 0 to an idle, empty queue disables it; any other leaves all
but cfg_err as it was. A fetch, unless a line of it fails its tag check, takes the packet at the consumer position
as the newest, unstarted; it goes idle with nothing submitted, and waits with five fetched from the running one on.
(12_queues_commands.md R274, 12_queues_commands.md R276, 12_queues_commands.md R277, 12_queues_commands.md R278, 12_queues_commands.md R281, 12_queues_commands.md R291, log entries 22 and 24) -/
def Obligations.QueuesTakeDoorbellsAndFetchPackets : Prop :=
  ∀ (s : State) (w : View) (i : Fin 33),
    let q := s.que[i]
    let put (q : Queue) : State := { s with que := s.que.set i q }
    (∀ data stores, exec (.doorbell w i data stores) s = exec (.doorbell w i data []) { s with pcie := { s.pcie with
      host := stores.foldl (fun h x => memWrite h (x.1 % 2 ^ 64) [x.2]) s.pcie.host } }) ∧
    (∀ data : W64, pageOf w i = true → tdiAdmits s w = true →
      let prod : W32 := data.setWidth 32
      let gen := data.toNat / 2 ^ 32 = q.gen.toNat
      let rest := q.enable = true ∧ pageShut s w i = false ∧ (prod - q.cons).toNat ≤ 2 ^ q.size ∧
        (q.latched - q.cons).toNat ≤ (prod - q.cons).toNat
      (gen → rest → exec (.doorbell w i data []) s = .next (put { q with
        latched := prod, state := if q.state = .idle ∧ prod ≠ q.cons then .active else q.state })) ∧
      (¬ rest → exec (.doorbell w i data []) s = .next (put { q with
        dbErr := true, dbIgnored := min (q.dbIgnored + 1) 65535 })) ∧
      (¬ gen → rest → exec (.doorbell w i data []) s = .next (put { q with
        dbErr := true, dbIgnored := min (q.dbIgnored + 1) 65535, staleGen := min (q.staleGen + 1) 65535 }))) ∧
    (∀ v, pageOf w i = true → tdiAdmits s w = true → pageShut s w i = false → ∃ t, exec (.cconsWrite w i v) s = .next t ∧
      t.que[i].ccons = v ∧
      (q.enable = true → t.que[i].cqFull = decide (2 ^ t.que[i].csize ≤ (t.que[i].cdone - v).toNat))) ∧
    (∀ v, pageOf w i = false ∨ pageShut s w i = true → exec (.cconsWrite w i v) s = .next s) ∧
    (∀ v : W32, queWritable s w i = true → v.toNat % 2 = 1 →
      let size (code old : Nat) := if 4 ≤ code ∧ code ≤ 16 then code else old
      let a := size (bits v.toNat 8 4) q.size
      let b := size (bits v.toNat 13 9) q.csize
      (q.enable = false → 4 ≤ a → 4 ≤ b → ∃ q', exec (.queueEnable w i v) s = .next (put q') ∧ q'.enable = true ∧
        q'.gen = q.gen + 1 ∧ q'.latched = 0 ∧ q'.cons = 0 ∧ q'.cdone = 0 ∧ q'.ccons = 0 ∧ q'.pkts = [] ∧ q'.state = .idle ∧
        q'.size = a ∧ q'.csize = b ∧ q'.base = q.base ∧ q'.cbase = q.cbase ∧ q'.progress = q.progress) ∧
      (q.enable = true ∨ a < 4 ∨ b < 4 → exec (.queueEnable w i v) s = .next (put { q with cfgErr := true }))) ∧
    (∀ v : W32, queWritable s w i = true → v.toNat % 2 = 0 → q.enable = true →
      (q.state = .idle → q.pkts = [] → ∃ q', exec (.queueDisable w i v) s = .next (put q') ∧ q'.enable = false ∧
        q'.state = .disabled ∧ q'.gen = q.gen ∧ q'.cdone = q.cdone) ∧
      (q.state ≠ .idle ∨ q.pkts ≠ [] → exec (.queueDisable w i v) s = .next (put { q with cfgErr := true }))) ∧
    (∀ v, queWritable s w i = false → exec (.queueEnable w i v) s = .next s ∧ exec (.queueDisable w i v) s = .next s) ∧
    (fetches s i = false → exec (.packetFetch i) s = .next s) ∧
    (fetches s i = true → q.latched = q.cons → exec (.packetFetch i) s = .next (put { q with
      idlePending := false, state := if q.full = true then .held else .idle })) ∧
    (fetches s i = true → q.latched ≠ q.cons → 5 ≤ ahead s i → exec (.packetFetch i) s = .next s) ∧
    (fetches s i = true → q.latched ≠ q.cons → ahead s i < 5 → (∀ f, (packetAt s i).2 = some f → f.2 ≠ tagCause) → ∃ u p, exec (.packetFetch i) s = .next (settleQueue i u) ∧
      u.que[i].pkts = q.pkts ++ [p] ∧ u.que[i].cons = q.cons + 1 ∧ p.pos = q.cons ∧ p.started = false ∧
      p.marked = q.marks.contains q.cons ∧
      (∀ n, qRegion i = some n → s.rgn.rgn[n].tearingDown = true → p.done = some (plainDone Status.regionState)) ∧
      ((∀ n, qRegion i = some n → s.rgn.rgn[n].tearingDown = false) → p.done = none) ∧
      (q.loc = true → p.bytes = memRead s.pcie.host ((q.base.toNat + 64 * (q.cons.toNat % 2 ^ q.size)) % 2 ^ 64) 64))

/-- For queue i, when its core takes it, and the packet whose turn it is: one that R289 rejects completes with that
status; NOP completes; FENCE_SIGNAL raises its fence to the value, never lowers it, and completes; FENCE_WAIT and
EVENT_WAIT start to wait, the latter for the latest generation if it names none, and for an event never recorded
complete; EVENT_RECORD gives its event a new PENDING generation and completes; QUERY writes its snapshot where its
translation leads and completes; CANCEL completes with CANCEL_NO_TARGET, marks an unstarted packet, stops a running
job, or ends a wait. TICK_CONFIG leaves the new TN for the next boundary, or completes with TICK_BUSY while a region
ticks or an output is armed. Then what follows of itself happens. With no such packet, or a core that takes another
queue first, nothing changes.
(12_queues_commands.md R271, 12_queues_commands.md R282, 12_queues_commands.md R285, 12_queues_commands.md R286, 12_queues_commands.md R287, 12_queues_commands.md R289, 13_run_programs.md R313, 13_run_programs.md R314, 02_pennant_tick.md R23) -/
def Obligations.PacketsHaveTheirEffect : Prop :=
  (∀ (s : State) (i : Fin 33),
    let ended (p : Pkt) (st : Nat) (u : State) : State := settleQueue i (decide' i p.pos (plainDone st) u)
    let waits (p : Pkt) (g : Pkt → Pkt) (u : State) : State := settleQueue i (modPkt i p.pos (fun p => { g p with started := true }) u)
    let n : Fin 8 := Fin.ofNat 8 (i.val / 4)
    let s' := served i s
    (∀ x ∈ [(0, Instr.nop i), (2, .cancel i), (3, .fenceSignal i), (4, .fenceWait i), (5, .eventRecord i), (6, .eventWait i),
        (7, .query i)], (currentOp s i x.1 = none ∨ coreTakes s i = false → exec x.2 s = .next s) ∧
      ∀ p st, currentOp s i x.1 = some p → coreTakes s i = true → pktReject i.val p.bytes = some st →
        exec x.2 s = .next (ended p st s')) ∧
    ∀ p, coreTakes s i = true → pktReject i.val p.bytes = none →
      (currentOp s i 0 = some p → exec (.nop i) s = .next (ended p Status.ok s')) ∧
      (currentOp s i 3 = some p → ∃ u, exec (.fenceSignal i) s = .next (ended p Status.ok u) ∧
        u = { s' with evt := { s.evt with rgn := s.evt.rgn.set n { s.evt.rgn[n] with fence := u.evt.rgn[n].fence } } } ∧
        let v : W64 := BitVec.ofNat 64 (fieldAt p.bytes 24 8)
        ∀ k : Fin 64, u.evt.rgn[n].fence[k] =
          if k.val = fieldAt p.bytes 16 1 ∧ (s.evt.rgn[n].fence[k]).ult v = true then v else s.evt.rgn[n].fence[k]) ∧
      (currentOp s i 4 = some p → exec (.fenceWait i) s = .next (waits p id s')) ∧
      (∀ e : Fin 256, currentOp s i 5 = some p → fieldAt p.bytes 16 2 = e.val →
        ∃ u, exec (.eventRecord i) s = .next (settleQueue i u) ∧
          u.evt.rgn[n].event[e] = { state := .pending, gen := bumpGen s.evt.rgn[n].event[e].gen } ∧
          (∀ k : Fin 256, k ≠ e → u.evt.rgn[n].event[k] = s.evt.rgn[n].event[k]) ∧
          u.evt.rgn[n].fence = s.evt.rgn[n].fence ∧ u.jobs = s.jobs) ∧
      (∀ e : Fin 256, currentOp s i 6 = some p → fieldAt p.bytes 16 2 = e.val →
        let g := fieldAt p.bytes 20 4 % 2 ^ 28
        let latest := s.evt.rgn[n].event[e].gen.toNat
        (g = 0 → latest = 0 → exec (.eventWait i) s = .next (ended p Status.ok s')) ∧
        (g = 0 → latest ≠ 0 → exec (.eventWait i) s = .next (waits p (fun p => { p with gen := latest }) s')) ∧
        (g ≠ 0 → exec (.eventWait i) s = .next (waits p (fun p => { p with gen := g }) s'))) ∧
      (currentOp s i 7 = some p → i ≠ maintQ → ∀ place,
        let bytes := querySnapshot s' (fieldAt p.bytes 16 1) n (qIndex n (Fin.ofNat 4 (fieldAt p.bytes 17 1)))
        bytes ≠ [] → fieldAt p.bytes 24 6 % 2 ^ 21 + bytes.length ≤ 2 ^ 21 →
        translate s (queueTile s i) (qCtx i) (fieldAt p.bytes 24 6) true = .ok place → writeFails s place bytes.length = false →
        exec (.query i) s = .next (ended p Status.ok (writePlace place bytes s'))) ∧
      (currentOp s i 2 = some p →
        let q : Fin 4 := Fin.ofNat 4 (fieldAt p.bytes 16 1)
        let pos : W32 := BitVec.ofNat 32 (fieldAt p.bytes 20 4)
        let target := if q = qClass i ∧ pos = p.pos then Target.none else cancelTarget s n q pos
        (target = .none → exec (.cancel i) s = .next (ended p Status.cancelNoTarget s')) ∧
        (target = .unstarted → q = qClass i → exec (.cancel i) s = .next (ended p Status.ok (markPacket n q pos s'))) ∧
        (target = .unstarted → q ≠ qClass i → exec (.cancel i) s = .next (waits p id (markPacket n q pos s'))) ∧
        (target = .waiting → exec (.cancel i) s = .next (waits p id
          (decide' (qIndex n q) pos (plainDone Status.cancelled) s'))) ∧
        ∀ k j, target = .job k → findJob s k = some j → j.phase = .running → ∃ u j', exec (.cancel i) s = .next (settleQueue i u) ∧
          findJob u k = some j' ∧ j'.phase = .stopped ∧ j'.cancel = some { i := i, pos := p.pos } ∧ j'.cause = none)) ∧
  ∀ (s : State) (p : Pkt), currentOp s maintQ 0x45 = some p → coreTakes s maintQ = true → pktReject 32 p.bytes = none → maintRefused 0x45 s = false →
    let free := (∀ n : Fin 8, s.tick.rgn[n].ticking = false) ∧ ∀ o : Fin 8, s.haly.out[o].armed = false
    (¬ free → exec .tickConfig s = .next (settleMaint (decide' maintQ p.pos (plainDone Status.tickBusy) s))) ∧
    (free → ∃ t, exec .tickConfig s = .next t ∧
      t.tick = { s.tick with newTn := some (BitVec.ofNat 64 (fieldAt p.bytes 24 8)) })

/-- A job's program stands at word w: it is the first of its queue that may step, its core takes the queue (R271), and w can be
read and keeps R10. -/
def Sys2Proof.standsAt (s : State) (r : Fin 8) (q : Fin 4) (j : Job) (w : Word) : Prop :=
  (stepJobs s r q).head? = some j ∧ coreTakes s (qIndex r q) = true ∧ findJob s j.ref = some j ∧ (currentWord s j).2 = none ∧
    w = readCw (currentWord s j).1 ∧ cwOk w = true

/-- Command c turns job j into j' and changes nothing else but which region its core served last (R271), before what follows of
itself in region r. -/
def Sys2Proof.leavesJob (c : Instr) (r : Fin 8) (s : State) (j j' : Job) : Prop :=
  ∃ u, exec c s = .next (settle r u) ∧ u = { served (qIndex r j.ref.q) s with jobs := u.jobs } ∧ findJob u j.ref = some j' ∧
    ∀ i, i.ref ≠ j.ref → (i ∈ u.jobs ↔ i ∈ s.jobs)

/-- Command c stops job j. -/
def Sys2Proof.stopsJob (c : Instr) (r : Fin 8) (s : State) (j : Job) : Prop :=
  ∃ u j', exec c s = .next (settle r u) ∧ findJob u j.ref = some j' ∧ j'.phase = .stopped

/-- A job behind its current word: the next word is t. -/
def Sys2Proof.thenWord (t : Nat) (j : Job) : Job := { j with pc := t, wait := .none, progress := j.progress + 1 }

/-- A job whose current word is done: the next one follows. -/
def Sys2Proof.nextWord (j : Job) : Job := thenWord ((j.pc + 1) % 65536) j

/-- The oldest unstaged RUN whose checks pass becomes a staged job, with its plan in the shadow image if it ticks and
that is free; a failing one completes with its status in its turn. A staged job whose turn it is, that its core
takes and that ticks beside no other, starts at word 0 with the next job_id of its region, its plan active if it
ticks (a tile that breaks R90 stops it), or completes with the status that now refuses it. LAUNCH sends the head
descriptor, unless it asks for noise that has failed, to its engine as a new chain and goes on, or waits for it;
CHAIN_ARM arms a chain on the next generation, the seventeenth stops the job; an armed chain whose generation was
signalled is launched, another is dropped with its done event CANCELLED. The oldest deferred effect whose chains are
over takes place: the fence rises, the event is signalled, the word is stored. Then what follows of itself happens.
(12_queues_commands.md R271, 12_queues_commands.md R284, 12_queues_commands.md R292, 13_run_programs.md R310, 13_run_programs.md R311, 13_run_programs.md R312, 13_run_programs.md R313, 13_run_programs.md R317) -/
def Obligations.JobsStageStartAndLaunch : Prop :=
  (∀ (s : State) (i : Fin 33) (n : Fin 8), qRegion i = some n →
    (nextRun s i n = none → exec (.run i) s = .next s) ∧
    ∀ p, nextRun s i n = some p → startsPackets s i = true → s.rgn.rgn[n].state ≠ .disabled →
      let staged (j : Job) (caps : List (Nat × Nat)) := j.ref = { r := n, q := qClass i, pos := p.pos } ∧ j.pkt = p.bytes ∧
        j.phase = .staged ∧ j.caps = caps ∧ j.epoch = 0 ∧ j.tick = modeTick p.bytes
      (∀ caps, stageRun s i n p = .ok (caps, none) → ∃ j, staged j caps ∧
        exec (.run i) s = .next { s with jobs := s.jobs ++ [j] }) ∧
      (∀ caps img, stageRun s i n p = .ok (caps, some img) → shadowFree s n = true → ∃ j t, staged j caps ∧
        exec (.run i) s = .next t ∧ t.jobs = s.jobs ++ [j] ∧ t.herd.job[n].shadow = some img.plan) ∧
      (∀ caps img, stageRun s i n p = .ok (caps, some img) → shadowFree s n = false → exec (.run i) s = .next s) ∧
      ∀ e p', stageRun s i n p = .error e → currentOp s i 1 = some p' → p'.pos = p.pos →
        exec (.run i) s = .next (finish i p.pos e.status (noteIf (ctxOf n) e.fault (queueSite s i) s))) ∧
  (∀ (s : State) (r : Fin 8) (q : Fin 4) (p : Pkt) (j : Job), currentOp s (qIndex r q) 1 = some p →
    let k : JobRef := { r := r, q := q, pos := p.pos }
    findJob s k = some j →
    (j.phase ≠ .staged ∨ j.go = false ∨ ticksAlone s j = false ∨ coreTakes s (qIndex r q) = false → exec (.jobStart r q) s = .next s) ∧
    (j.phase = .staged → j.go = true → ticksAlone s j = true → coreTakes s (qIndex r q) = true →
      (∀ st, startRefused s r j.pkt = some st →
        exec (.jobStart r q) s = .next (finish (qIndex r q) p.pos st (dropStaged k (served (qIndex r q) s)))) ∧
      (startRefused s r j.pkt = none → ∃ u j', exec (.jobStart r q) s = .next (settle r u) ∧
        u.rgn.rgn[r].jobCounter = s.rgn.rgn[r].jobCounter + 1 ∧ findJob u k = some j' ∧ j'.pc = 0 ∧
        (j'.phase = .running ∨ j.tick = true ∧ j'.phase = .stopped) ∧
        j'.jobId = s.rgn.rgn[r].jobCounter + 1 ∧ j'.startTn = s.tick.tn.toNat ∧ j'.wait = .none ∧
        (∀ plan, j.tick = true → s.herd.job[r].shadow = some plan →
          u.tick.rgn[r].ticking = true ∧ u.herd.job[r].plan = some plan)))) ∧
  (∀ (s : State) (r : Fin 8) (q : Fin 4) (j : Job) (w : Word), standsAt s r q j w →
    ∀ a, addrOperand s r (runParam j.pkt) j.lc[0].toNat w = .ok a →
      let head := readDev s (regionCpTile s r) (ctxOf r) a 64
      (w.op = 1 → a % 64 ≠ 0 → stopsJob (.launch r q) r s j) ∧
      (w.op = 1 → a % 64 = 0 → head.2 = none → dispatchError s r head.1 ≠ none → stopsJob (.launch r q) r s j) ∧
      (w.op = 1 → a % 64 = 0 → head.2 = none → dispatchError s r head.1 = none →
        ¬ (wantsRandom head.1 = true ∧ s.noise.state = .failed) → ∃ u d j',
        exec (.launch r q) s = .next (settle r u) ∧ u.eng.flight = s.eng.flight ++ [d] ∧ d.job = j.ref ∧ d.bytes = head.1 ∧
        d.chain = j.nextChain ∧ findJob u j.ref = some j' ∧ j'.chains = j.chains ++ [j.nextChain] ∧
        (bit w.flags 2 = true → j'.wait = .chain j.nextChain ∧ j'.pc = j.pc) ∧
        (bit w.flags 2 = false → j'.wait = .none ∧ j'.pc = (j.pc + 1) % 65536)) ∧
      (w.op = 2 → 16 ≤ j.arms.length → stopsJob (.chainArm r q) r s j) ∧
      (w.op = 2 → j.arms.length < 16 → leavesJob (.chainArm r q) r s j (nextWord { j with arms := j.arms ++
        [{ event := w.t, gen := (bumpGen (getEvent s r w.t).gen).toNat, head := a,
           doneEvent := if bit w.flags 2 = true then some (w.x % 256) else none, due := .unset }] }))) ∧
  (∀ (s : State) (r : Fin 8) (q : Fin 4) (k : Nat) (j : Job) (a : Arm),
    s.jobs.find? (fun j => j.ref.r == r && j.ref.q == q && j.firing && match j.arms[k]? with
      | some a => a.due != .unset
      | none => false) = some j → findJob s j.ref = some j → j.arms[k]? = some a →
    let head := readDev s (regionCpTile s r) (ctxOf r) a.head 64
    (a.due = .signalled → a.head % 64 = 0 → head.2 = none → dispatchError s r head.1 = none →
      ¬ (wantsRandom head.1 = true ∧ s.noise.state = .failed) → ∃ u d j',
      exec (.chainFire r q k) s = .next (settle r u) ∧ u.eng.flight = s.eng.flight ++ [d] ∧ d.job = j.ref ∧ d.bytes = head.1 ∧
      findJob u j.ref = some j' ∧ j'.arms = j.arms.eraseIdx k ∧ j'.chains = j.chains ++ [j.nextChain] ∧ j'.pc = j.pc) ∧
    (a.due ≠ .signalled → ∃ u j', exec (.chainFire r q k) s = .next (settle r u) ∧ findJob u j.ref = some j' ∧
      j'.arms = j.arms.eraseIdx k ∧ j'.cw = cwPut 7 true j.cw ∧ u.eng = s.eng ∧
      ∀ e, a.doneEvent = some e → (getEvent u r e).gen = bumpGen (getEvent s r e).gen ∧ (getEvent u r e).state = .cancelled)) ∧
  ∀ (s : State) (r : Fin 8) (q : Fin 4) (j : Job) (d : Deferred) (rest : List Deferred),
    s.jobs.find? (fun j => j.ref.r == r && j.ref.q == q && j.pointDue) = some j → findJob s j.ref = some j →
    j.deferred = d :: rest →
    (∀ f v, d.eff = .fence f v → ∃ u, exec (.recordPoint r q) s = .next (settle r u) ∧
      findJob u j.ref = some { j with deferred := rest } ∧ ∀ k : Fin 64, u.evt.rgn[r].fence[k] =
        if k = Fin.ofNat 64 f ∧ (s.evt.rgn[r].fence[k]).ult v = true then v else s.evt.rgn[r].fence[k]) ∧
    (∀ e g, d.eff = .event e g → ∃ u, exec (.recordPoint r q) s = .next (settle r u) ∧
      findJob u j.ref = some { j with deferred := rest } ∧ (getEvent u r e).gen = (getEvent s r e).gen ∧
      (getEvent u r e).state = if (getEvent s r e).gen.toNat = g ∧ (getEvent s r e).state = .pending then .signalled
        else (getEvent s r e).state) ∧
    ∀ a v pa, d.eff = .store a v → a % 2 ^ 21 + 8 ≤ 2 ^ 21 →
      translate s (regionCpTile s r) (ctxOf r) a true = .ok (.dev pa none) →
      ∃ u, exec (.recordPoint r q) s = .next (settle r u) ∧ findJob u j.ref = some { j with deferred := rest } ∧
        u.mem.phys = memWrite s.mem.phys pa (leBytes 8 v.toNat)

/-- For a job that stands at a word and whose queue its core takes: WAIT_EVENT and WAIT_FENCE wait, the first not for an
event never recorded; SIGNAL and EMIT STORE leave an effect for when the chains so far are over, an event with a new
PENDING generation; IF_CMP, LOOP and JUMP go where their test, count or target says; LOCK takes a lock that is not
held, goes on with its own, else waits behind the others; UNLOCK frees its lock or passes it on, another's stops the
job; PRELOAD passes at word 0 of a ticking job, else stops it with BAD_FIELD; AT_TICK waits for its tick or arms as
the region, the outcome in CW; TICK_STOP asks for the end of ticking; MAP writes the page's entry and waits for
MEM_INV, or stops the job where its request cannot be met; END begins to end. An unreadable or ill-formed word or
operand stops the job (one that fails its tag check is the region's error); without a job nothing changes.
(13_run_programs.md R301, 13_run_programs.md R302, 13_run_programs.md R303, 13_run_programs.md R304, 13_run_programs.md R305, 13_run_programs.md R306, 13_run_programs.md R312, 13_run_programs.md R313, 13_run_programs.md R314, 13_run_programs.md R315, 13_run_programs.md R318, 13_run_programs.md R320) -/
def Obligations.ControlWordsHaveTheirEffect : Prop :=
  (∀ (s : State) (r : Fin 8) (q : Fin 4) (j : Job) (w : Word), standsAt s r q j w →
    let addr := addrOperand s r (runParam j.pkt) j.lc[0].toNat w
    let val := valueOperand s r (runParam j.pkt) j.lc[0].toNat w
    let put (e : Effect) : Job := nextWord { j with deferred := j.deferred ++ [{ eff := e, after := j.chains }] }
    (w.op = 3 → let latest := (getEvent s r w.t).gen.toNat
      (w.x % 2 ^ 28 = 0 → latest = 0 → leavesJob (.waitEvent r q) r s j
        (nextWord { j with cw := cwPut 6 false (cwPut 5 false j.cw) })) ∧
      (w.x % 2 ^ 28 ≠ 0 ∨ latest ≠ 0 → leavesJob (.waitEvent r q) r s j { j with
        wait := .event w.t (if w.x % 2 ^ 28 = 0 then latest else w.x % 2 ^ 28) (bit w.flags 2) })) ∧
    (∀ v, w.op = 4 → val = .ok v → leavesJob (.waitFence r q) r s j { j with wait := .fence w.t (BitVec.ofNat 64 v) }) ∧
    (∀ v, w.op = 5 → bits w.flags 3 2 = 0 → val = .ok v →
      leavesJob (.signalFence r q) r s j (put (.fence w.t (BitVec.ofNat 64 v)))) ∧
    (w.op = 5 → bits w.flags 3 2 = 1 → ∃ u, exec (.signalEvent r q) s = .next (settle r u) ∧
      getEvent u r w.t = { state := .pending, gen := bumpGen (getEvent s r w.t).gen } ∧
      findJob u j.ref = some (put (.event w.t (bumpGen (getEvent s r w.t).gen).toNat))) ∧
    (w.op = 6 → ∀ v : W64,
      (bit w.flags 2 = true ∧ v = j.cw.setWidth 64 ∨ bit w.flags 2 = false ∧
        ∃ a, addr = .ok a ∧ (w.amode = 0 ∨ a % 8 = 0) ∧ readWord s (regionCpTile s r) (ctxOf r) a = (v, none)) →
      let x : W32 := BitVec.ofNat 32 w.x
      let z : W64 := x.setWidth 64
      let holds : Prop := match bits w.flags 6 3 with
        | 0 => v = z
        | 1 => v ≠ z
        | 2 => v.toNat < x.toNat
        | 3 => x.toNat ≤ v.toNat
        | 4 => v.toInt < x.toInt
        | 5 => x.toInt ≤ v.toInt
        | 6 => v &&& z ≠ 0
        | _ => v &&& z = 0
      (holds → leavesJob (.ifCmp r q) r s j (thenWord w.t j)) ∧ (¬ holds → leavesJob (.ifCmp r q) r s j (nextWord j))) ∧
    (∀ a, w.op = 6 → bit w.flags 2 = false → addr = .ok a → w.amode ≠ 0 → a % 8 ≠ 0 → stopsJob (.ifCmp r q) r s j) ∧
    (∀ v (c : Fin 4), w.op = 7 → val = .ok v → bits w.flags 3 2 = c.val →
      let n : W32 := if j.lc[c] ≠ 0 then j.lc[c] - 1 else if BitVec.ofNat 32 v = 0 then 0 else BitVec.ofNat 32 v - 1
      let j' : Job := { j with lc := j.lc.set c n }
      leavesJob (.loop r q) r s j (if n ≠ 0 then thenWord w.t j' else nextWord j')) ∧
    (w.op = 8 → leavesJob (.jump r q) r s j (thenWord w.t j)) ∧
    (w.op = 9 → let l := getLock s r w.t
      (l.state ≠ .held → ∃ u, exec (.lock r q) s = .next (settle r u) ∧
        getLock u r w.t = { l with state := .held, holder := some j.ref } ∧
        findJob u j.ref = some (nextWord { j with cw := cwPut 0 (l.state == .broken) j.cw })) ∧
      (l.state = .held → l.holder = some j.ref → leavesJob (.lock r q) r s j (nextWord { j with cw := cwPut 0 false j.cw })) ∧
      (l.state = .held → l.holder ≠ some j.ref → ∃ u, exec (.lock r q) s = .next (settle r u) ∧
        getLock u r w.t = { l with waiters := l.waiters ++ [j.ref] } ∧ findJob u j.ref = some { j with wait := .lock w.t })) ∧
    (w.op = 10 → let l := getLock s r w.t
      (l.holder ≠ some j.ref → stopsJob (.unlock r q) r s j) ∧
      (l.holder = some j.ref → ∃ u j', exec (.unlock r q) s = .next (settle r u) ∧ findJob u j.ref = some j' ∧
        j'.pc = (j.pc + 1) % 65536 ∧ (l.waiters = [] → getLock u r w.t = { l with state := .free, holder := none }) ∧
        ∀ k ks, l.waiters = k :: ks → getLock u r w.t = { l with state := .held, holder := some k, waiters := ks })) ∧
    (w.op = 11 → (j.pc = 0 → j.tick = true → leavesJob (.preload r q) r s j (nextWord j)) ∧
      (j.pc ≠ 0 ∨ j.tick = false → stopsJob (.preload r q) r s j)) ∧
    (∀ v, w.op = 12 → val = .ok v →
      let t := if bit w.flags 2 = true then (v + j.startTn) % 2 ^ 64 else v
      (bit w.flags 3 = false → leavesJob (.atTickWait r q) r s j
        (if t ≤ s.tick.tn.toNat then nextWord j else { j with wait := .tick t })) ∧
      ∀ n : Fin 8, bit w.flags 3 = true → bits w.flags 6 4 = n.val →
        let d := readDev s (regionCpTile s r) (ctxOf r) (runParam j.pkt + w.x) 32
        let a := recordRequest d.1 t
        let e := armCheck s (.rgn r) n a
        d.2 = none → (schedRecOk d.1 = false → stopsJob (.atTickArm r q) r s j) ∧
        (schedRecOk d.1 = true → ∃ u j', exec (.atTickArm r q) s = .next (settle r u) ∧ findJob u j.ref = some j' ∧
          j'.pc = (j.pc + 1) % 65536 ∧ j'.cw.getLsbD 1 = decide (e ≠ 0) ∧ bits j'.cw.toNat 4 2 = e ∧
          u.haly.out[n].sched = (armOutput (.rgn r) n a s).haly.out[n].sched ∧ u.haly.out[n].armErr = e ∧
          (e = 0 → u.haly.out[n].request = a) ∧ ∀ m : Fin 8, m ≠ n → u.haly.out[m] = s.haly.out[m])) ∧
    (∀ a, w.op = 13 → w.emitKind = 0 → addr = .ok a → leavesJob (.emitStore r q) r s j (put (.store a (BitVec.ofNat 64 w.x)))) ∧
    (w.op = 13 → w.emitKind = 1 → ∃ u, exec (.tickStop r q) s = .next (settle r u) ∧ findJob u j.ref = some (nextWord j) ∧
      u.herd.job[r].stop = (s.herd.job[r].stop || (j.tick && s.tick.rgn[r].ticking))) ∧
    (w.op = 13 → w.emitKind = 2 →
      let page := bits w.x 15 0
      let rw := 2 * bits w.x 18 18
      let maps (c : Instr) (pte : Nat) (owns : State → Prop) : Prop := ∃ u, exec c s = .next (settle r u) ∧ owns u ∧
        memRead u.mem.phys (s.mem.ctx[ctxOf r].ptb + 8 * page) 8 = leBytes 8 pte ∧ u.mem.ctx[ctxOf r].invBusy = true ∧
        findJob u j.ref = some { j with wait := .map }
      (w.mapKind = 0 → maps (.mapUnmap r q) 0 fun _ => True) ∧
      (w.mapKind = 1 →
        let free (f : Nat) := (∃ p, p < 12160 ∧ f = pageStack s.rgn.rgn[r].bx0 s.rgn.rgn[r].bwM1 page * 2 ^ 14 + p) ∧
          frameOwner s.mem f = 15
        (tagBits s r page = none ∨ (∀ f, ¬ free f) → stopsJob (.mapHbm r q) r s j) ∧
        ∀ t, tagBits s r page = some t → (∃ f, free f) →
          ∃ f, free f ∧ maps (.mapHbm r q) (1 + rw + 16 * f + t) fun u => frameOwner u.mem f = r.val) ∧
      (∀ v, w.mapKind = 2 → val = .ok v → if isStore v = true ∧ frameOwner s.mem v = r.val
        then maps (.mapStore r q) (1 + rw + 16 * v) fun _ => True else stopsJob (.mapStore r q) r s j) ∧
      ∀ v, w.mapKind = 3 → val = .ok v → if v % 2 ^ 21 = 0 ∧ hostMaps s r = true
        then maps (.mapHost r q) (5 + rw + 16 * (v / 2 ^ 21)) fun _ => True else stopsJob (.mapHost r q) r s j) ∧
    (w.op = 14 → leavesJob (.endJob r q) r s j { j with phase := .ending, ended := true }) ∧
    (∀ e, val = .error e → (∀ f, e = some f → f.2 ≠ tagCause) → (w.op = 4 → stopsJob (.waitFence r q) r s j) ∧ (w.op = 7 → stopsJob (.loop r q) r s j) ∧
      (w.op = 5 → bits w.flags 3 2 = 0 → stopsJob (.signalFence r q) r s j) ∧
      (w.op = 12 → bit w.flags 3 = false → stopsJob (.atTickWait r q) r s j) ∧
      (w.op = 12 → bit w.flags 3 = true → stopsJob (.atTickArm r q) r s j) ∧
      (w.op = 13 → w.emitKind = 2 → w.mapKind = 2 → stopsJob (.mapStore r q) r s j) ∧
      (w.op = 13 → w.emitKind = 2 → w.mapKind = 3 → stopsJob (.mapHost r q) r s j)) ∧
    ∀ e, addr = .error e → (∀ f, e = some f → f.2 ≠ tagCause) → (w.op = 1 → stopsJob (.launch r q) r s j) ∧ (w.op = 2 → stopsJob (.chainArm r q) r s j) ∧
      (w.op = 6 → bit w.flags 2 = false → stopsJob (.ifCmp r q) r s j) ∧
      (w.op = 13 → w.emitKind = 0 → stopsJob (.emitStore r q) r s j)) ∧
  (∀ (s : State) (r : Fin 8) (q : Fin 4),
    ∀ c ∈ [Instr.launch r q, .chainArm r q, .waitEvent r q, .waitFence r q, .signalFence r q, .signalEvent r q, .ifCmp r q,
      .loop r q, .jump r q, .lock r q, .unlock r q, .preload r q, .atTickWait r q, .atTickArm r q, .emitStore r q,
      .tickStop r q, .mapUnmap r q, .mapHbm r q, .mapStore r q, .mapHost r q, .endJob r q],
      (stepJobs s r q = [] ∨ coreTakes s (qIndex r q) = false → exec c s = .next s) ∧
      ∀ j, (stepJobs s r q).head? = some j → coreTakes s (qIndex r q) = true → findJob s j.ref = some j →
        ((∃ f, (currentWord s j).2 = some f ∧ f.2 ≠ tagCause) ∨
          (currentWord s j).2 = none ∧ cwOk (readCw (currentWord s j).1) = false) → stopsJob c r s j) ∧
  ∀ (s : State) (r : Fin 8) (q : Fin 4),
    let due (j : Job) : Bool := j.ref.r == r && j.ref.q == q && j.phase == .running && match j.wait with
      | .tick t => decide (t ≤ s.tick.tn.toNat)
      | _ => false
    (s.jobs.find? due = none → exec (.atTickReached r q) s = .next s) ∧
    ∀ j, s.jobs.find? due = some j → findJob s j.ref = some j → ∃ u, exec (.atTickReached r q) s = .next (settle r u) ∧
      u = { s with jobs := u.jobs } ∧ findJob u j.ref = some (nextWord j)

/-- A job whose idle count reached its budget is stopped and logged. One that drained, or is killed after drain_ticks,
with a merge of it given up, completes with CANCELLED, its error's status, or JOB_RESTART_EXHAUSTED by the table of
R336, or is ready for its next attempt, one epoch later, with nothing of it queued. Completing a job leaves no such
job, its packet decided, and each lock it held BROKEN one epoch later, or its first waiter's. Captures go to the
lowest free save slot, or a fault ends the job. A restart that is due starts the job at word 0 with its job_id, or
completes it. A FAULTED region whose recovery is at its last steps returns to its state before, its monitors loaded
where they match their measurement. Clearing a log a view may reach empties it. Else nothing changes.
(14_faults_restart.md R329, 14_faults_restart.md R331, 14_faults_restart.md R332, 14_faults_restart.md R333, 14_faults_restart.md R334, 14_faults_restart.md R336, 14_faults_restart.md R337, 14_faults_restart.md R344, 14_faults_restart.md R326, 14_faults_restart.md Table 14-3, 13_run_programs.md R316) -/
def Obligations.FaultsDrainKillAndRestart : Prop :=
  (∀ (s : State) (k : JobRef) (st : Nat) (j : Job), findJob s k = some j →
    let u := completeJob k st s
    findJob u k = none ∧ (∀ p ∈ u.que[qIndex k.r k.q].pkts, p.pos = k.pos → p.done ≠ none) ∧
    ∀ l, l < 48 → (getLock s k.r l).holder = some k →
      let rest := (getLock s k.r l).waiters.filter (· != k)
      (getLock u k.r l).epoch = (getLock s k.r l).epoch + 1 ∧ (getLock u k.r l).holder = rest.head? ∧
      (getLock u k.r l).waiters = rest.tail ∧ (getLock u k.r l).state = if rest = [] then .broken else .held) ∧
  (∀ (s : State) (r : Fin 8) (q : Fin 4),
    let hung (j : Job) : Bool := j.ref.r == r && j.ref.q == q && j.firing && decide (j.budget ≤ j.idle)
    (s.jobs.find? hung = none → exec (.hangDetected r q) s = .next s) ∧
    (∀ j, s.jobs.find? hung = some j → findJob s j.ref = some j → ∃ u j', exec (.hangDetected r q) s = .next (settle r u) ∧
      findJob u j.ref = some j' ∧ j'.phase = .stopped ∧ j'.cause = some (errCode .hang, errStatus .hang) ∧
      u.err.rgn[r].count = min (s.err.rgn[r].count + 1) 65535) ∧
    (drainingJob s r q = none → exec (.drainEnd r q) s = .next s ∧ exec (.kill r q) s = .next s) ∧
    ∀ j, drainingJob s r q = some j → findJob s j.ref = some j →
      let due := j.stopTn + s.err.drainTicks[r] ≤ (s.tick.tn.toNat : Int)
      let cause := j.cause.getD (0, Status.jobFault)
      let mayRestart := codeRestartable cause.1 = true ∧ modeRestartable j.pkt = true
      (draining s j = true → exec (.drainEnd r q) s = .next s) ∧
      (draining s j = false ∨ ¬ due → exec (.kill r q) s = .next s) ∧
      (draining s j = true → due → ∃ u, exec (.kill r q) s = .next (settle r u) ∧
        (∀ j', findJob u j.ref = some j' → j'.phase = .restoring ∧ j'.epoch = j.epoch + 1) ∧
        (j.tick = true → u.tick.rgn[r].ticking = false)) ∧
      (draining s j = false →
        let s' := if j.tick = true then dropMerge r s else s
        (j.cancel ≠ none → exec (.drainEnd r q) s = .next (settle r (completeJob j.ref Status.cancelled s'))) ∧
        (j.cancel = none → ¬ mayRestart → exec (.drainEnd r q) s = .next (settle r (completeJob j.ref cause.2 s'))) ∧
        (j.cancel = none → mayRestart → (threeFaulted s j.ref = true ∨ modeRestartBudget j.pkt ≤ j.epoch) →
          exec (.drainEnd r q) s = .next (settle r (completeJob j.ref Status.jobRestartExhausted s'))) ∧
        (j.cancel = none → mayRestart → threeFaulted s j.ref = false → j.epoch < modeRestartBudget j.pkt → ∃ u j',
          exec (.drainEnd r q) s = .next (settle r u) ∧ findJob u j.ref = some j' ∧ j'.phase = .restoring ∧
          j'.epoch = j.epoch + 1 ∧ j'.chains = [] ∧ j'.arms = [] ∧ j'.deferred = [] ∧ (∀ d ∈ u.eng.flight, d.job ≠ j.ref) ∧
          (∀ i : Fin 48, (∀ d ∈ u.ibex[i].queue, d.job ≠ j.ref) ∧ ∀ d ∈ u.cham[i].queue, d.job ≠ j.ref) ∧
          (∀ m : Fin 8, ∀ d ∈ u.kudu[m].queue, d.job ≠ j.ref) ∧ ∀ e : Fin 4, ∀ d ∈ u.pe[e].queue, d.job ≠ j.ref))) ∧
  (∀ (s : State) (r : Fin 8) (q : Fin 4) (p : Pkt) (slot : Nat) (j : Job), currentOp s (qIndex r q) 1 = some p →
    freeSaveSlot s r q = some slot →
    let k : JobRef := { r := r, q := q, pos := p.pos }
    findJob s k = some j →
    (j.phase ≠ .staged ∨ j.caps = [] ∨ j.saveSlot ≠ none → exec (.captureCopyDone r q) s = .next s) ∧
    (j.phase = .staged → j.caps ≠ [] → j.saveSlot = none →
      ((copyOut r j.caps (saveAddr k slot) s).2 = none → ∃ t, exec (.captureCopyDone r q) s = .next t ∧
        findJob t k = some { j with saveSlot := some slot } ∧ ∀ a len, j.caps = [(a, len)] →
          memRead t.mem.phys (saveAddr k slot) len = (readDev s (regionCpTile s r) (ctxOf r) a len).1) ∧
      (∀ f, (copyOut r j.caps (saveAddr k slot) s).2 = some f → ∃ u, exec (.captureCopyDone r q) s = .next (settle r u) ∧
        findJob u k = none ∧ u.rgn.rgn[r].jobCounter = s.rgn.rgn[r].jobCounter + 1))) ∧
  (∀ (s : State) (r : Fin 8) (q : Fin 4),
    let ready (j : Job) : Bool := j.ref.r == r && j.ref.q == q && j.phase == .restoring && j.go
    (s.jobs.find? ready = none → exec (.restart r q) s = .next s) ∧
    ∀ j, s.jobs.find? ready = some j → (∀ i ∈ s.jobs, i.ref = j.ref → i = j) →
      let e := j.epoch + j.extra
      let marked : State := { s with jobs := s.jobs.map fun i =>
        if i.ref == j.ref then { i with epoch := min e (modeRestartBudget j.pkt), extra := 0, go := false } else i }
      (modeRestartBudget j.pkt < e → exec (.restart r q) s =
        .next (settle r (completeJob j.ref Status.jobRestartExhausted marked))) ∧
      ∀ p, e ≤ modeRestartBudget j.pkt → j.saveSlot = none →
        s.que[qIndex j.ref.r j.ref.q].pkts.find? (fun p => p.pos == j.ref.pos) = some p →
        (∀ caps img, stageRun marked (qIndex j.ref.r j.ref.q) j.ref.r p = .ok (caps, img) → ∃ u j',
          exec (.restart r q) s = .next (settle r u) ∧ findJob u j.ref = some j' ∧ j'.pc = 0 ∧ j'.epoch = e ∧
          j'.jobId = j.jobId ∧ j'.startTn = s.tick.tn.toNat ∧ j'.lc = Vector.replicate 4 0 ∧
          (j'.phase = .running ∨ j.tick = true ∧ j'.phase = .stopped)) ∧
        ∀ x, stageRun marked (qIndex j.ref.r j.ref.q) j.ref.r p = .error x → ∃ u,
          exec (.restart r q) s = .next (settle r u) ∧ findJob u j.ref = none) ∧
  (∀ (s : State) (r : Fin 8),
    let g := s.rgn.rgn[r]
    (g.state = .faulted → g.recovery = 4 → g.tearingDown = false → ∃ u, exec (.regionRecoveryComplete r) s = .next (settle r u) ∧
      u.rgn.rgn[r].state = g.before ∧ u.rgn.rgn[r].recovery = 0 ∧
      ∀ c, Eng.cham c ∈ regionUnits g → u.cham[c].monitor = partMatches s 3) ∧
    (g.state ≠ .faulted ∨ g.recovery ≠ 4 ∨ g.tearingDown = true → exec (.regionRecoveryComplete r) s = .next s)) ∧
  ∀ (s : State) (w : View) (n : Fin 8),
    let empty : ErrLog := { first := none, next := none, count := 0 }
    (viewOk s w = true → viewRegion w = none →
      exec (.logClear w 8) s = .next { s with err := { s.err with dev := empty } }) ∧
    (viewOk s w = false ∨ viewRegion w ≠ none → exec (.logClear w 8) s = .next s) ∧
    (viewOk s w = true → (viewRegion w = none ∨ viewRegion w = some n) →
      exec (.logClear w (Fin.ofNat 9 n.val)) s = .next { s with err := { s.err with rgn := s.err.rgn.set n empty } }) ∧
    (viewOk s w = false ∨ (∃ m, viewRegion w = some m ∧ m ≠ n) → exec (.logClear w (Fin.ofNat 9 n.val)) s = .next s)

/-- A codeword with a marker at an INSERT port that is not DARK is seen, counted if corrected, measures the delay
averaged over 64, extends the run of good markers, and with the 64th a training port is UP; a joining module notes
the lead; a lead that meets one at a lower position gives up the role and, with source RING, acquires. A flit at an
UP port that its codewords or its CRC do not give is counted; one out of sequence asks for a resend; the next in
sequence is accepted and, for another member, leaves by the other port or is counted unreachable, and for this one
counts no_stream or the stream's next. Three timeouts: an unacknowledged port resends after 2 ticks; 4 ticks without
a marker, the present one among them, or 8 resends take a port DOWN, and a member that loses its last port leads, in
HOLDOVER if its source is the ring; a DOWN port trains again. Else nothing changes.
(15_guidon_ring.md R351, 15_guidon_ring.md R352, 15_guidon_ring.md R353, 15_guidon_ring.md R354, 15_guidon_ring.md R355, 15_guidon_ring.md R356, 15_guidon_ring.md R357, 15_guidon_ring.md R358, 15_guidon_ring.md R368, log entry 41) -/
def Obligations.RingPortsCarryMarkersAndFlits : Prop :=
  ∀ (s : State) (p : Fin 2),
    let x := s.ring.port[p]
    let o : Fin 2 := if p = 0 then 1 else 0
    let put (x : RingPort) : State := { s with ring := { s.ring with port := s.ring.port.set p x } }
    let dead := (x.link = .up ∨ x.link = .training) ∧ (4 ≤ silentTicks x ∨ 8 ≤ x.resent)
    (x.link = .up → x.retry ≠ [] → 2 ≤ x.ackTicks → exec (.retryTimeout p) s = .next (put { x with
      retries := min (x.retries + 1) 65535, resent := x.resent + 1, again := some 0, ackTicks := 0 })) ∧
    (x.link ≠ .up ∨ x.retry = [] ∨ x.ackTicks < 2 → exec (.retryTimeout p) s = .next s) ∧
    (x.link = .down → exec (.portRetrain p) s = .next (put { x with link := .training, good := 0, missed := 0 })) ∧
    (x.link ≠ .down → exec (.portRetrain p) s = .next s) ∧
    (¬ dead → exec (.portDown p) s = .next s) ∧
    (dead → ∃ t, exec (.portDown p) s = .next t ∧ t.ring.port = s.ring.port.set p t.ring.port[p] ∧
        t.ring.port[p].link = .down ∧ t.ring.port[p].downs = min (x.downs + 1) 65535 ∧ t.ring.port[p].tx = [] ∧
        t.ring.port[p].retry = [] ∧
        (s.ring.state = .joined → s.ring.lead = false → s.ring.port[o].link ≠ .up → t.ring.lead = true ∧
          (s.tick.source = .ring → (s.tick.lock = .acquiring ∨ s.tick.lock = .locked) → t.tick.lock = .holdover))) ∧
    (∀ w c, s.ring.insert = false ∨ x.link = .dark ∨ readMarker w = none → exec (.markerArrival p w c) s = .next s) ∧
    (∀ w c m fixed, s.ring.insert = true → x.link ≠ .dark → readMarker w = some (m, fixed) → ∃ t,
      exec (.markerArrival p w c) s = .next t ∧
      t.ring.port = s.ring.port.set p t.ring.port[p] ∧ t.ring.port[p].seen = true ∧ t.ring.port[p].missed = 0 ∧
      t.ring.port[p].good = x.good + 1 ∧ t.ring.port[p].peerPos = m.pos ∧ t.ring.port[p].peerHops = m.hops ∧
      t.ring.port[p].lastMarker = m.tn % 65536 ∧ t.ring.port[p].fecCorr = x.fecCorr + (if fixed = true then 1 else 0) ∧
      (let ds := x.delays ++ [8 * ((s.tick.tn.toNat + 65536 - m.echoTn) % 65536 * Config.tickCclk + c - m.echoHold)]
       t.ring.port[p].delays = (if 64 ≤ ds.length then [] else ds) ∧
       t.ring.port[p].delay = if 64 ≤ ds.length then ds.sum / 64 % 2 ^ 20 else x.delay) ∧
      t.ring.port[p].link = (if x.link = .training ∧ 64 ≤ x.good + 1 then .up else x.link) ∧
      (s.ring.state = .joining → t.ring.leadSeen = (s.ring.leadSeen || m.lead)) ∧
      (s.ring.state = .joined → m.ringId = s.ring.id → s.ring.lead = true → m.lead = true → m.pos < s.ring.position →
        x.link = .up → m.hops = 0 → t.ring.lead = false ∧ (s.tick.source = .ring → t.tick.lock = .acquiring))) ∧
    ∀ (k : Nat) (ws : List (List Byte)),
      let fixed := BitVec.ofNat 32 (fixedWords k ws)
      (s.ring.insert = false ∨ x.link ≠ .up → exec (.ringFlitArrival p k ws) s = .next s) ∧
      (s.ring.insert = true → x.link = .up →
        (soundFlit k ws = none → exec (.ringFlitArrival p k ws) s = .next (put { x with
          fecCorr := x.fecCorr + fixed, crcFail := min (x.crcFail + 1) 65535 })) ∧
        ∀ f, soundFlit k ws = some f → (f.length = 256 ∧ fieldAt f 12 4 = (flitCrc f).toNat) ∧
          ((flitType f = 1 ∨ flitType f = 2) → flitSeq f ≠ x.rxSeq → ∃ t, exec (.ringFlitArrival p k ws) s = .next t ∧
            t.ring.port[p].nak = true ∧ t.ring.port[p].rxSeq = x.rxSeq ∧ t.ring.port[p].fecCorr = x.fecCorr + fixed ∧
            t.ring.rgn = s.ring.rgn ∧ t.herd = s.herd ∧ t.ring.port[o] = s.ring.port[o]) ∧
          ((flitType f = 1 ∨ flitType f = 2) → flitSeq f = x.rxSeq → ∃ t, exec (.ringFlitArrival p k ws) s = .next t ∧
            t.ring.port[p].rxSeq = x.rxSeq + 1 ∧ t.ring.port[p].nak = x.nak ∧
            (s.ring.state = .joined → flitDst f ≠ s.ring.position →
              (s.ring.present.getLsbD (flitDst f) = true → s.ring.port[o].link = .up →
                t.ring.port[o].tx = s.ring.port[o].tx ++ [{ bytes := f, fwd := true }] ∧ t.ring.rgn = s.ring.rgn) ∧
              (s.ring.present.getLsbD (flitDst f) = false ∨ s.ring.port[o].link ≠ .up →
                t.ring.unreachable = min (s.ring.unreachable + 1) 65535 ∧ t.ring.port[o] = s.ring.port[o])) ∧
            (flitDst f = s.ring.position → flitType f = 1 →
              (streamRegion s f = none → t.ring.noStream = min (s.ring.noStream + 1) 65535) ∧
              ∀ r, streamRegion s f = some r → s.ring.rgn[r].sealed = false →
                t.ring.rgn[r].recv[flitSrc f]? = some (s.ring.rgn[r].recv[Fin.ofNat 16 (flitSrc f)] + 1))))

/-- RING_JOIN and RING_LEAVE in another state than ALONE and JOINED complete with RING_STATE. A join whose TN cannot
change fails with join_err 2, without trained or attested ports with 4, with a lower serial seen 3, without a free
position 5, at its timeout 1 or 6, ALONE again with the bypass THROUGH; else it is JOINING, then JOINED, as lead at
position 0 or at the position given with source RING. A leave is ALONE. A sealed stream's key advances to the next,
a key in use after 2^21 ticks. A block all of which is staged leaves stamped as BLOCK flits by the port it asks for,
or is counted unreachable. A cutoff sends the newest block along the tick plan to its target, else the last one
again, counted stale once in the tick. A reservation is taken while no stream is registered and at most 192 flits
are reserved a port, else rsv_err.
(15_guidon_ring.md R348, 15_guidon_ring.md R359, 15_guidon_ring.md R360, 15_guidon_ring.md R361, 15_guidon_ring.md R363, 15_guidon_ring.md R366, 15_guidon_ring.md R367, 15_guidon_ring.md R370, 15_guidon_ring.md R374, log entries 42 and 43) -/
def Obligations.RingMembersJoinLeaveAndExchangeBlocks : Prop :=
  (∀ (s : State) (p : Pkt) (ringTn : Nat) (trained attested : Bool) (meas : BitVec 2), currentOp s maintQ 0x43 = some p → coreTakes s maintQ = true →
    pktReject 32 p.bytes = none → maintRefused 0x43 s = false →
    let fails (e : Nat) : Prop := ∃ t, exec (.ringJoin ringTn trained attested meas) s = .next t ∧ t.ring.joinErr = e ∧
      t.ring.state = .alone ∧ t.ring.insert = false
    let late := fieldAt p.bytes 21 1 % 2 = 1 ∧ tnFree s = false ∧ s.tick.tn.toNat ≠ ringTn
    (s.ring.state ≠ .alone → exec (.ringJoin ringTn trained attested meas) s =
      .next (settleMaint (decide' maintQ p.pos (plainDone Status.ringState) s))) ∧
    (s.ring.state = .alone → late → fails 2) ∧
    (s.ring.state = .alone → ¬ late → (trained = false ∨ attested = false) → fails 4) ∧
    (s.ring.state = .alone → ¬ late → trained = true → attested = true → ∃ t,
      exec (.ringJoin ringTn trained attested meas) s = .next t ∧ t.ring.state = .joining ∧ t.ring.insert = true ∧
      t.ring.id = BitVec.ofNat 32 (fieldAt p.bytes 16 4) ∧ t.ring.port[0].link = .training ∧ t.ring.port[1].link = .training)) ∧
  (∀ (s : State) (p : Pkt), currentOp s maintQ 0x44 = some p → coreTakes s maintQ = true → pktReject 32 p.bytes = none → maintRefused 0x44 s = false →
    (s.ring.state ≠ .joined → exec .ringLeave s = .next (settleMaint (decide' maintQ p.pos (plainDone Status.ringState) s))) ∧
    (s.ring.state = .joined → ∃ t, exec .ringLeave s = .next t ∧ t.ring.state = .alone ∧ t.ring.insert = false ∧
      t.ring.lead = false ∧ t.ring.present = 0 ∧ t.ring.port[0].link = .dark ∧ t.ring.port[1].link = .dark)) ∧
  (∀ s : State,
    let fails (c : Instr) (e : Nat) : Prop := ∃ t, exec c s = .next t ∧ t.ring.joinErr = e ∧ t.ring.state = .alone ∧
      t.ring.insert = false ∧ t.tick = s.tick
    let joins (f : Formation) (pos : Nat) (lead : Bool) (t : State) : Prop := exec (.ringFormation f) s = .next t ∧
      t.ring.state = .joined ∧ t.ring.position = pos ∧ t.ring.lead = lead ∧ t.ring.present.getLsbD pos = decide (pos < 16)
    (s.ring.state ≠ .joining → (∀ f, exec (.ringFormation f) s = .next s) ∧ exec .ringJoinTimeout s = .next s) ∧
    (s.ring.state = .joining →
      (s.tick.tn.toNat < s.ring.joinLimit → exec .ringJoinTimeout s = .next s) ∧
      (s.ring.joinLimit ≤ s.tick.tn.toNat → fails .ringJoinTimeout
        (if s.ring.leadSeen = true ∨ s.ring.fromRing = false then 1 else 6)) ∧
      ∀ f : Formation,
        (s.ring.fromRing = false → f.lowerSerialSeen = true → fails (.ringFormation f) 3) ∧
        (s.ring.fromRing = false → f.lowerSerialSeen = false →
          (f.closedLoop = true ∨ s.ring.joinLimit ≤ s.tick.tn.toNat + s.ring.joinTicks / 2) → ∃ t, joins f 0 true t) ∧
        (s.ring.fromRing = true → f.leadSeen = false → exec (.ringFormation f) s = .next s) ∧
        (s.ring.fromRing = true → f.leadSeen = true → givenPosition f = none → fails (.ringFormation f) 5) ∧
        ∀ pos, s.ring.fromRing = true → f.leadSeen = true → givenPosition f = some pos →
          let shut := tnFree s = false ∧ s.tick.tn + 1 ≠ BitVec.ofNat 64 f.tn
          (shut → fails (.ringFormation f) 2) ∧
          (¬ shut → ∃ t, joins f pos false t ∧ t.tick.source = .ring ∧ t.tick.newTn =
            if s.tick.tn + 1 = BitVec.ofNat 64 f.tn then s.tick.newTn else some (BitVec.ofNat 64 f.tn)))) ∧
  ∀ (s : State) (r : Fin 8),
    let x := s.ring.rgn[r]
    (x.sealed = false ∨ s.ring.state ≠ .joined ∨ (streamLead s r = true ∧ drbgServes s 2 = false) ∨
        (x.key ≠ none ∧ x.keyTicks < 2 ^ 21) →
      exec (.streamKeyAdvance r) s = .next s) ∧
    (x.sealed = true → s.ring.state = .joined → (streamLead s r = false ∨ drbgServes s 2 = true) →
        (x.key = none ∨ 2 ^ 21 ≤ x.keyTicks) → ∃ t,
      exec (.streamKeyAdvance r) s = .next t ∧ t.ring.rgn[r].keyOk = true ∧ t.ring.rgn[r].key ≠ none ∧
      t.ring.rgn[r].nextKey ≠ none ∧ t.ring.rgn[r].sent = 0 ∧ (x.nextKey ≠ none → t.ring.rgn[r].key = x.nextKey) ∧
      t.ring.rgn[r].keyIndex = if x.key = none then x.keyIndex else (x.keyIndex + 1) % 4) ∧
    (∀ bid : Fin 16,
      let out := (s.herd.job[r].plan).bind fun p => p.outs.find? fun o => o.bid == bid.val
      (out = none → exec (.blockStaged r bid) s = .next s) ∧
      ∀ o, out = some o →
        (x.stream = 0 ∨ (∀ b ∈ s.rim.blocks[r], b.2.1 = o.bid → b.2.2.length < o.len) → exec (.blockStaged r bid) s = .next s) ∧
        ∀ data u, x.stream ≠ 0 → takeStaged s r o.bid o.len = some (data, u) →
          data.length = o.len ∧ u = { s with rim := { s.rim with blocks := u.rim.blocks } } ∧
          let want : Fin 2 := if o.down = true then 1 else 0
          let lost : State := { u with ring := { s.ring with unreachable := min (s.ring.unreachable + 1) 65535 } }
          (routeFrom s want o.dst = none → exec (.blockStaged r bid) s = .next lost) ∧
          (∀ p, routeFrom s want o.dst = some p → p ≠ want → ownsWay s r p = false → exec (.blockStaged r bid) s = .next lost) ∧
          (routeFrom s want o.dst = some want → x.sealed = true → x.key = none → exec (.blockStaged r bid) s = .next u) ∧
          (routeFrom s want o.dst = some want → x.sealed = false → s.ring.position < 16 → ∃ t fs,
            exec (.blockStaged r bid) s = .next t ∧ t.ring.port[want].tx = s.ring.port[want].tx ++ fs ∧
            t.rim.blocks = u.rim.blocks ∧
            fs.length = (o.len + 8 + 239) / 240 ∧ ∀ i f, fs[i]? = some f → f.fwd = false ∧ f.bytes.length = 256 ∧
              flitType f.bytes = 1 ∧ flitDst f.bytes = o.dst % 16 ∧ flitIndex f.bytes = i % 256 ∧
              (flitLast f.bytes = true ↔ i + 1 = fs.length) ∧ flitLen f.bytes ≤ 240 ∧
              slice f.bytes 16 (flitLen f.bytes) = slice (data ++ leBytes 8 s.tick.tn.toNat) (240 * i) (flitLen f.bytes))) ∧
    (∀ (entry : Nat) (e : RingIn) (b : InBuf), ((s.herd.job[r].plan).bind fun p => p.ins[entry]?) = some e →
      x.bufs[entry]? = some b →
      let u := unitOf s.rgn.rgn[r] e.lx e.ly
      let from_ := edgeXY (engEntry u)
      let at_ := tileIdx from_.1 from_.2
      let flits (n : Nat × List Byte) : List Vc0Flit :=
        let data := n.2 ++ match u with
          | .cham _ => leBytes 8 n.1
          | _ => []
        (List.range ((data.length + 119) / 120)).map fun i =>
          { tag := r.val, dx := (engXY u).1, dy := (engXY u).2, load := .deliver (e.addr + 120 * i) ((data.drop (120 * i)).take 120) }
      let delivers (t : State) (n : Nat × List Byte) : Prop :=
        t.mesh = { s.mesh with src := s.mesh.src.set at_ (s.mesh.src[at_] ++ flits n) }
      (startsFresh s r = false → exec (.ringCutoff r entry) s = .next s) ∧
      (startsFresh s r = true →
        (∀ n, b.newest = some n → b.last.1 < n.1 → ∃ t, exec (.ringCutoff r entry) s = .next t ∧
          t.ring.rgn[r].bufs[entry]? = some { b with last := n } ∧ t.ring.rgn[r].stale = x.stale ∧ delivers t n) ∧
        ((∀ n, b.newest = some n → n.1 ≤ b.last.1) → ∃ t, exec (.ringCutoff r entry) s = .next t ∧
          t.ring.rgn[r].bufs = x.bufs ∧ t.ring.rgn[r].staleTick = true ∧
          t.ring.rgn[r].stale = (if x.staleTick = true then x.stale else min (x.stale + 1) (2 ^ 32 - 1)) ∧ delivers t b.last ∧
          ∀ h, u = .herd h → t.herd.tile[h].stale = true))) ∧
    ∀ v : W32,
      let up := bits v.toNat 7 0
      let down := bits v.toNat 15 8
      let sum (f : RingRgn → Nat) : Nat := (((allFin 8).filter (· != r)).map fun m => f s.ring.rgn[m]).sum
      let fits := x.stream = 0 ∧ up + sum RingRgn.rsvUp ≤ 192 ∧ down + sum RingRgn.rsvDown ≤ 192
      let put (y : RingRgn) : State := { s with ring := { s.ring with rgn := s.ring.rgn.set r y } }
      (s.dev.ready = false → exec (.ringRgnRsvWrite r v) s = .next s) ∧
      (s.dev.ready = true → fits → exec (.ringRgnRsvWrite r v) s = .next (put { x with
        rsvUp := up, rsvDown := down, rsvErr := x.rsvErr && !bit v.toNat 26 })) ∧
      (s.dev.ready = true → ¬ fits → exec (.ringRgnRsvWrite r v) s = .next (put { x with rsvErr := true }))

/-- A cold reset, and a warm one of a powered module whose PERST# is high, leave the ROM stage, no tick, TN 0, every
region FREE, no job, no queue enabled; both keep the active bank; the cold one keeps host memory and forces the cap
without auxiliary power or after its loss, the warm one keeps DEV_SCRATCH and FAILED noise. Start-up moves from
POWER to ROM, VERIFY (a pending bank on trial; noise FAILED where the conditioner's test fails), HBM with secure
Criward up, SELFTEST with a key of context 8, ENTROPY, NORMAL once noise gathers no more, and READY with the cores
that passed online and a trial committed; a failed step stops in FAILED, a failed trial image first falls back. Loss
of all power leaves nothing powered; loss of the auxiliary supply alone is remembered and leads to a cold reset by
Stag, before power-good. PERST# deasserted trains the link to a speed and width of PCIe 5.0. Without power nothing
else changes.
(16_power_energy_startup.md R388, 16_power_energy_startup.md R389, 16_power_energy_startup.md R390, 16_power_energy_startup.md R391, 16_power_energy_startup.md R392, 16_power_energy_startup.md R397, 05_noise.md R110, 08_kudu_markhor_criward.md R176, log entries 39 and 40) -/
def Obligations.ResetsPowerAndStartup : Prop :=
  (∀ (s : State) (aux : Bool),
    let fresh (t : State) := t.dev.stage = .rom ∧ t.dev.ready = false ∧ t.tick.running = false ∧ t.tick.tn = 0 ∧ t.jobs = [] ∧
      (∀ n : Fin 8, t.rgn.rgn[n].state = .free) ∧ (∀ i : Fin 33, t.que[i].enable = false) ∧
      t.pending = s.pending ∧ t.pwr.aux = aux ∧ t.mkh.activeBank = s.mkh.activeBank
    (∃ t, exec (.coldReset aux) s = .next t ∧ fresh t ∧ t.dev.resetCause = s.dev.stagReset.getD .powerCycle ∧
      t.noise.state = .gathering ∧ t.dev.scratch = 0 ∧ t.pcie.host = s.pcie.host ∧ t.pwr.capForced = (!aux || s.pwr.auxLost)) ∧
    (s.dev.powered = true → s.dev.perst = false → ∃ t, exec (.warmReset aux) s = .next t ∧ t.dev.perst = true ∧
      fresh t ∧ t.dev.resetCause = .perst ∧ t.dev.scratch = s.dev.scratch ∧ t.pwr.capForced = (!aux && s.pwr.capForced) ∧
      t.noise.state = if s.noise.state = .failed then .failed else .gathering) ∧
    (s.dev.powered = false ∨ s.dev.perst = true → exec (.warmReset aux) s = .next s)) ∧
  (∀ (s : State) (speed width : Nat),
    let trains := 1 ≤ speed ∧ speed ≤ 5 ∧ width ∈ [1, 2, 4, 8, 12, 16]
    (trains → exec (.perstDeassertion speed width) s = .next { s with
      dev := { s.dev with perst := false }, mem := { s.mem with link := (speed, width, s.mem.link.2.2) } }) ∧
    (¬ trains → exec (.perstDeassertion speed width) s = .next { s with dev := { s.dev with perst := false } })) ∧
  (∀ (s : State) (all s0 s1 : Bool) (mv : Nat),
    let now := decide (10800 ≤ mv) && s0 && s1
    let loses (c : Instr) : Prop := ∃ t, exec c s = .next t ∧ t.pwr.aux = false ∧ t.pwr.auxLost = true ∧
      t.dev.stagReset = some .stag ∧ t.dev.stage = .power ∧ t.ring.insert = false ∧ t.jobs = []
    (s.dev.powered = false → exec (.inputPowerLoss all) s = .next s ∧ exec (.auxPresentChange mv s0 s1) s = .next s) ∧
    (s.dev.powered = true →
      (∃ t, exec (.inputPowerLoss true) s = .next t ∧ t.dev.powered = false ∧ t.dev.ready = false ∧ t.tick.running = false ∧
        t.ring.insert = false ∧ t.jobs = []) ∧
      loses (.inputPowerLoss false) ∧
      (s.pwr.aux = true → now = false → loses (.auxPresentChange mv s0 s1)) ∧
      (s.pwr.aux = false ∨ now = true → exec (.auxPresentChange mv s0 s1) s = .next { s with pwr := { s.pwr with aux := now } }))) ∧
  ∀ (s : State) (ok kat : Bool) (ms : Nat) (cores : BitVec 6),
    let c : Instr := .startupStageComplete ok ms cores kat
    let goesTo (g : Stage) : Prop := ∃ t, exec c s = .next t ∧ t.dev.stage = g
    (s.dev.powered = false ∨ s.dev.stage = .ready ∨ s.dev.stage = .failed → exec c s = .next s) ∧
    (s.dev.powered = true →
      (s.dev.stage = .power → exec c s = .next { s with dev := { s.dev with stage := .rom } }) ∧
      (s.dev.stage = .rom → ∃ t, exec c s = .next t ∧ t.dev.stage = .verify ∧ t.mkh.trial = s.stag.pending ∧
        t.stag.pending = false ∧ (kat = false → t.noise.state = .failed) ∧ (kat = true → t.noise = s.noise)) ∧
      (s.dev.stage = .verify →
        (bankBoots s (bootBank s) ok = true → ∃ t, exec c s = .next t ∧ t.dev.stage = .hbm ∧ t.sec.up = true ∧
          t.mkh.lockstepOk = true ∧ t.mkh.trial = s.mkh.trial) ∧
        (bankBoots s (bootBank s) ok = false → s.mkh.trial = false → goesTo .failed) ∧
        (bankBoots s (bootBank s) ok = false → s.mkh.trial = true → ∃ t, exec c s = .next t ∧ t.mkh.fallback = true ∧
          t.mkh.trial = false ∧ t.dev.stage = if bankBoots s (activeBank s) ok = true then .hbm else .failed)) ∧
      (s.dev.stage = .hbm → (ok = false → goesTo .failed) ∧
        (ok = true → ∃ t, exec c s = .next t ∧ t.dev.stage = .selftest ∧ t.mem.ctx[(8 : Fin 9)].keyValid = true ∧
          ∀ k : Fin 4, t.mem.stack[k].trained = true)) ∧
      (s.dev.stage = .selftest → goesTo (if ok = true then .entropy else .failed)) ∧
      (s.dev.stage = .entropy → s.noise.state = .gathering → exec c s = .next s) ∧
      (s.dev.stage = .entropy → s.noise.state ≠ .gathering → goesTo .normal) ∧
      (s.dev.stage = .normal → ∃ t, exec c s = .next t ∧ t.dev.stage = .ready ∧ t.dev.ready = true ∧ t.sec.aliasOk = true ∧
        (∀ k : Fin 6, t.mkh.cp[k].online = cores.getLsbD k.val) ∧ t.mkh.trial = false ∧
        t.mkh.activeBank = (s.mkh.activeBank != s.mkh.trial)))

/-- GET_STATE answers DEV_STATUS, the firmware status and the bypass and changes nothing else; STAG_COLD_RESET leads to
a cold reset by Stag; WRITE_BANK in FAILED replaces exactly its 1-240 bytes in the inactive bank, else is refused;
COMMIT_BANK in FAILED marks that bank pending and leads to a cold reset, else is refused. A sensor of Table 17-5
answers its 4 bytes, another an error. EXTEST, CLAMP and HIGHZ of a powered module reset it by Stag and hold the
pins; SAMPLE/PRELOAD, IDCODE and BYPASS shift out the pins, 0xB0640A6F least significant bit first, and one 0. The
layouts of the answers are the model's (log entry 48).
(17_connectors_electrical.md R405, 17_connectors_electrical.md R406, 17_connectors_electrical.md R407, 17_connectors_electrical.md R408, 16_power_energy_startup.md R390, log entries 38 and 48) -/
def Obligations.StagAndTheTapAnswer : Prop :=
  (∀ s : State,
    let saying (b : List Byte) (u : State) : State := { u with out := { u.out with msg := b } }
    let refused : State := saying [2] s
    (exec .getState s = .next (saying ([0] ++ leBytes 4 (devStatus s) ++ leBytes 4 (fwStat s) ++
      leBytes 1 (if s.ring.insert = true then 1 else 0)) s)) ∧
    (∃ t, exec .stagColdReset s = .next t ∧ t.out.msg = [0] ∧ t.dev.stagReset = some .stag ∧ t.dev.stage = .power ∧
      t.dev.ready = false ∧ t.jobs = [] ∧ t.pcie.host = s.pcie.host) ∧
    (∀ ofs data, s.dev.stage ≠ .failed ∨ data.length = 0 ∨ 240 < data.length ∨ 2 ^ 24 < ofs + data.length →
      exec (.writeBank ofs data) s = .next refused) ∧
    (∀ ofs data, s.dev.stage = .failed → 1 ≤ data.length → data.length ≤ 240 → ofs + data.length ≤ 2 ^ 24 →
      ∃ t, exec (.writeBank ofs data) s = .next t ∧ t.out.msg = [0] ∧
        t.stag.bank[activeBank s] = s.stag.bank[activeBank s] ∧ t.stag.pending = s.stag.pending ∧
        ∀ a, t.stag.bank[inactiveBank s].img.getD a 0 = if ofs ≤ a ∧ a < ofs + data.length then data.getD (a - ofs) 0
          else s.stag.bank[inactiveBank s].img.getD a 0) ∧
    (s.dev.stage ≠ .failed → exec .commitBank s = .next refused) ∧
    (s.dev.stage = .failed → ∃ t, exec .commitBank s = .next t ∧ t.out.msg = [0] ∧ t.stag.pending = true ∧
      t.dev.stagReset = some .stag ∧ t.dev.stage = .power ∧ t.stag.bank[inactiveBank s] = { s.stag.bank[inactiveBank s] with invalid := false })) ∧
  (∀ (s : State) (id : Nat) (v : Int),
    (1 ≤ id → id ≤ 11 → exec (.pldmSensorRead id v) s =
      .next { s with out := { s.out with msg := [0] ++ leBytes 4 (BitVec.ofInt 32 v).toNat } }) ∧
    (id = 0 ∨ 11 < id → exec (.pldmSensorRead id v) s = .next { s with out := { s.out with msg := [0x80] } })) ∧
  ∀ s : State,
    (∀ x ∈ [(Instr.extest, TestMode.extest), (.clamp, .clamp), (.highz, .highz)],
      (s.dev.powered = false → exec x.1 s = .next s) ∧
      (s.dev.powered = true → ∃ t, exec x.1 s = .next t ∧ t.dev.test = x.2 ∧ t.dev.stage = .rom ∧ t.dev.ready = false ∧
        t.dev.resetCause = .stag ∧ t.jobs = [])) ∧
    (∀ pins, exec (.samplePreload pins) s = .next { s with out := { s.out with tap := pins } }) ∧
    (∃ l, exec .idcode s = .next { s with out := { s.out with tap := l } } ∧ l.length = 32 ∧
      ∀ i, i < 32 → l[i]? = some (Nat.testBit 0xB0640A6F i)) ∧
    ∀ code, exec (.bypass code) s = .next { s with out := { s.out with tap := [false] } }

/-- Settling region r leaves the ticks, Halyard lines, mesh, Rim, regions, annealing, noise, secure, ring, power,
Markhor and Stag state, every tile's memory and every descriptor in execution as they were (a unit of which a
waiting descriptor is dropped may show another state). The queues, fences, events, locks, logs and contexts of the
other regions stay, and of a job of another region at most its wait for a device lock ends or its CW notes a broken
one. Settling the maintenance queue touches only that queue, context 8, memory and messages.
(13_run_programs.md R310, 13_run_programs.md R314, 13_run_programs.md R315, 13_run_programs.md R316, 13_run_programs.md R320, 12_queues_commands.md R291, 12_queues_commands.md R293, 14_faults_restart.md R330) -/
def Obligations.WhatFollowsStaysInTheRegion : Prop :=
  (∀ (s : State) (r : Fin 8),
    let t := settle r s
    t = { s with que := t.que, jobs := t.jobs, evt := t.evt, err := t.err, mem := t.mem, pcie := t.pcie, out := t.out,
                 herd := t.herd, ibex := t.ibex, cham := t.cham, kudu := t.kudu, pe := t.pe, eng := t.eng } ∧
    t.mem = { s.mem with phys := t.mem.phys, aside := t.mem.aside, ctx := t.mem.ctx } ∧ t.pcie = { s.pcie with host := t.pcie.host } ∧
    t.out = { s.out with msix := t.out.msix } ∧ t.herd = { s.herd with job := t.herd.job } ∧
    t.err = { s.err with rgn := t.err.rgn, job := t.err.job, detected := t.err.detected } ∧
    t.eng = { s.eng with flight := t.eng.flight, dmaQueue := t.eng.dmaQueue, dmaAdmitted := t.eng.dmaAdmitted } ∧
    (∀ i : Fin 48, t.ibex[i] = { s.ibex[i] with
        state := t.ibex[i].state, queue := t.ibex[i].queue, admitted := t.ibex[i].admitted, chainIn := t.ibex[i].chainIn } ∧
      t.cham[i] = { s.cham[i] with state := t.cham[i].state, queue := t.cham[i].queue, coming := t.cham[i].coming, slots := t.cham[i].slots }) ∧
    (∀ m : Fin 8, t.kudu[m] = { s.kudu[m] with queue := t.kudu[m].queue }) ∧
    (∀ e : Fin 4, t.pe[e] = { s.pe[e] with state := t.pe[e].state, queue := t.pe[e].queue, admitted := t.pe[e].admitted }) ∧
    (∀ i : Fin 33, qRegion i ≠ some r → t.que[i] = s.que[i]) ∧
    (∀ m : Fin 8, m ≠ r → t.evt.rgn[m] = s.evt.rgn[m] ∧ t.err.rgn[m] = s.err.rgn[m] ∧ t.herd.job[m] = s.herd.job[m]) ∧
    (∀ c : Fin 9, c ≠ ctxOf r → t.mem.ctx[c] = s.mem.ctx[c]) ∧ (t.evt.rgn[r]).fence = (s.evt.rgn[r]).fence ∧
    ∀ i ∈ s.jobs, i.ref.r ≠ r → ∃ j ∈ t.jobs, j = { i with pc := j.pc, wait := j.wait, cw := j.cw, progress := j.progress }) ∧
  ∀ s : State,
    let t := settleMaint s
    t = { s with que := t.que, mem := t.mem, pcie := t.pcie, out := t.out } ∧
    t.mem = { s.mem with phys := t.mem.phys, aside := t.mem.aside, ctx := t.mem.ctx } ∧ t.pcie = { s.pcie with host := t.pcie.host } ∧
    t.out = { s.out with msix := t.out.msix } ∧ (∀ i : Fin 33, i ≠ maintQ → t.que[i] = s.que[i]) ∧
    ∀ c : Fin 9, c ≠ 8 → t.mem.ctx[c] = s.mem.ctx[c]

/-- At reset no command waits; the stage is POWER, not ready; no tick runs, TN and its epoch are 0, the source INTERNAL
in FREE_RUN; outputs are disabled; every region is FREE with generation 0; noise gathers with a key interval of 2^16
ticks; queues are disabled; the drain time of each region is 64 ticks; the power cap is 150 W and every duty 16;
BAR4 has 64 GiB; the ring is ALONE with the bypass THROUGH; every memory is in its canonical form. Values that the
spec does not state are not named here (log entry 5).
(18_register_index.md R412 and Table 18-4, 16_power_energy_startup.md R389, 02_pennant_tick.md Tables 2-4, 2-5, 2-14, 05_noise.md Table 5-4, 10_memory_host_link.md Table 10-3, 14_faults_restart.md Table 14-6, log entry 5) -/
def Obligations.ResetHoldsTheStatedValues : Prop :=
  State.reset.pending = [] ∧ State.reset.dev.stage = .power ∧ State.reset.dev.ready = false ∧
  State.reset.tick.running = false ∧ State.reset.tick.tn = 0 ∧ State.reset.tick.tnEpoch = 0 ∧
  State.reset.tick.source = .internal ∧ State.reset.tick.lock = .freeRun ∧ State.reset.haly.outEnable = false ∧
  (∀ n : Fin 8, State.reset.rgn.rgn[n].state = .free ∧ State.reset.rgn.rgn[n].gen = 0 ∧ State.reset.err.drainTicks[n] = 64 ∧
    State.reset.haly.out[n].owner = .nobody ∧ State.reset.sec.rgn[n].tdi = .unlocked) ∧
  State.reset.noise.state = .gathering ∧ State.reset.noise.freshLog2 = 16 ∧
  (∀ i : Fin 33, State.reset.que[i].enable = false ∧ State.reset.que[i].state = .disabled) ∧ State.reset.pwr.capW = 150 ∧
  (∀ i : Fin 192, State.reset.pwr.tile[i].duty = 16) ∧ State.reset.pcie.bar4 = 6 ∧
  State.reset.ring.state = .alone ∧ State.reset.ring.insert = false ∧ MemoriesCanonical State.reset

/-- For every state whose memories (physical memory, host memory, and the local memories of the Herd, Ibex and Chamois
tiles and the Kudu clusters) list strictly rising addresses and no byte equal to what an unlisted one reads as, a
step that answers a next state leaves them so: equal memories stay equal data. The form is the model's (log entry
4). (10_memory_host_link.md R208, 10_memory_host_link.md R230, 04_herd_arrays.md Table 4-1, log entry 4) -/
def Obligations.EveryStepKeepsMemoriesCanonical : Prop :=
  ∀ s t : State, MemoriesCanonical s → step s = .next t → MemoriesCanonical t

/-- In every state in which noise is FAILED, a step whose command is none of COLD_RESET, TRIAL_BOOT_TIMEOUT,
INPUT_POWER_LOSS, AUX_PRESENT_CHANGE, STAG_COLD_RESET, COMMIT_BANK, a THERMAL_TRIP of an edge tile without a unit,
EXTEST, CLAMP and HIGHZ and that answers a next state leaves noise FAILED with the same first cause; a warm reset
does not clear it. (05_noise.md R108, 05_noise.md R109, 05_noise.md R110, 16_power_energy_startup.md R392) -/
def Obligations.NoiseStaysFailedUntilAReset : Prop :=
  ∀ s t : State, s.noise.state = .failed → (∀ c ∈ s.pending.head?, ¬ Resets c) → step s = .next t →
    t.noise.state = .failed ∧ t.noise.failCause = s.noise.failCause ∧ t.noise.failSrc = s.noise.failSrc

end
end

