-- ==== Sys2Proof/Laws/State.lean ====
section
/-!
SUPPORT. What each change of one part of the state leaves: one lemma for each field of State and each such change, true by
rfl, so that no proof unfolds a record update.
-/
namespace Sys2Proof.Machine

/-! ### Vectors -/

@[simp] theorem upd_get {α : Type} {n : Nat} (v : Vector α n) (i : Fin n) (f : α → α) :
    (upd v i f)[i.val] = f v[i.val] := by simp [upd]

@[simp] theorem upd_get_ne {α : Type} {n : Nat} (v : Vector α n) (i : Fin n) (j : Nat) (f : α → α) (hj : j < n)
    (h : j ≠ i.val) : (upd v i f)[j] = v[j] := by simp [upd, h.symm]

theorem upd_eq_set {α : Type} {n : Nat} (v : Vector α n) (i : Fin n) (f : α → α) : upd v i f = v.set i (f v[i]) := rfl

@[simp] theorem upd_upd {α : Type} {n : Nat} (v : Vector α n) (i : Fin n) (f g : α → α) :
    upd (upd v i f) i g = upd v i (g ∘ f) := by simp [upd]

@[simp] theorem upd_id {α : Type} {n : Nat} (v : Vector α n) (i : Fin n) (f : α → α) (h : f v[i] = v[i]) :
    upd v i f = v := by simp only [upd, h]; simp

/-! ### Changes of one part -/

@[simp] theorem modRgn_pending (n : Fin 8) (f : Region → Region) (s : State) : (modRgn n f s).pending = s.pending := rfl
@[simp] theorem modRgn_dev (n : Fin 8) (f : Region → Region) (s : State) : (modRgn n f s).dev = s.dev := rfl
@[simp] theorem modRgn_tick (n : Fin 8) (f : Region → Region) (s : State) : (modRgn n f s).tick = s.tick := rfl
@[simp] theorem modRgn_haly (n : Fin 8) (f : Region → Region) (s : State) : (modRgn n f s).haly = s.haly := rfl
@[simp] theorem modRgn_mesh (n : Fin 8) (f : Region → Region) (s : State) : (modRgn n f s).mesh = s.mesh := rfl
@[simp] theorem modRgn_rim (n : Fin 8) (f : Region → Region) (s : State) : (modRgn n f s).rim = s.rim := rfl
@[simp] theorem modRgn_rgn (n : Fin 8) (f : Region → Region) (s : State) : (modRgn n f s).rgn = { s.rgn with rgn := upd s.rgn.rgn n f } := rfl
@[simp] theorem modRgn_herd (n : Fin 8) (f : Region → Region) (s : State) : (modRgn n f s).herd = s.herd := rfl
@[simp] theorem modRgn_anl (n : Fin 8) (f : Region → Region) (s : State) : (modRgn n f s).anl = s.anl := rfl
@[simp] theorem modRgn_noise (n : Fin 8) (f : Region → Region) (s : State) : (modRgn n f s).noise = s.noise := rfl
@[simp] theorem modRgn_ibex (n : Fin 8) (f : Region → Region) (s : State) : (modRgn n f s).ibex = s.ibex := rfl
@[simp] theorem modRgn_cham (n : Fin 8) (f : Region → Region) (s : State) : (modRgn n f s).cham = s.cham := rfl
@[simp] theorem modRgn_kudu (n : Fin 8) (f : Region → Region) (s : State) : (modRgn n f s).kudu = s.kudu := rfl
@[simp] theorem modRgn_pe (n : Fin 8) (f : Region → Region) (s : State) : (modRgn n f s).pe = s.pe := rfl
@[simp] theorem modRgn_eng (n : Fin 8) (f : Region → Region) (s : State) : (modRgn n f s).eng = s.eng := rfl
@[simp] theorem modRgn_mkh (n : Fin 8) (f : Region → Region) (s : State) : (modRgn n f s).mkh = s.mkh := rfl
@[simp] theorem modRgn_mem (n : Fin 8) (f : Region → Region) (s : State) : (modRgn n f s).mem = s.mem := rfl
@[simp] theorem modRgn_pcie (n : Fin 8) (f : Region → Region) (s : State) : (modRgn n f s).pcie = s.pcie := rfl
@[simp] theorem modRgn_sec (n : Fin 8) (f : Region → Region) (s : State) : (modRgn n f s).sec = s.sec := rfl
@[simp] theorem modRgn_que (n : Fin 8) (f : Region → Region) (s : State) : (modRgn n f s).que = s.que := rfl
@[simp] theorem modRgn_jobs (n : Fin 8) (f : Region → Region) (s : State) : (modRgn n f s).jobs = s.jobs := rfl
@[simp] theorem modRgn_evt (n : Fin 8) (f : Region → Region) (s : State) : (modRgn n f s).evt = s.evt := rfl
@[simp] theorem modRgn_err (n : Fin 8) (f : Region → Region) (s : State) : (modRgn n f s).err = s.err := rfl
@[simp] theorem modRgn_ring (n : Fin 8) (f : Region → Region) (s : State) : (modRgn n f s).ring = s.ring := rfl
@[simp] theorem modRgn_pwr (n : Fin 8) (f : Region → Region) (s : State) : (modRgn n f s).pwr = s.pwr := rfl
@[simp] theorem modRgn_stag (n : Fin 8) (f : Region → Region) (s : State) : (modRgn n f s).stag = s.stag := rfl
@[simp] theorem modRgn_out (n : Fin 8) (f : Region → Region) (s : State) : (modRgn n f s).out = s.out := rfl
@[simp] theorem modRgn_free (n : Fin 8) (f : Region → Region) (s : State) : (modRgn n f s).free = s.free := rfl

@[simp] theorem modTickRgn_pending (n : Fin 8) (f : TickRgn → TickRgn) (s : State) : (modTickRgn n f s).pending = s.pending := rfl
@[simp] theorem modTickRgn_dev (n : Fin 8) (f : TickRgn → TickRgn) (s : State) : (modTickRgn n f s).dev = s.dev := rfl
@[simp] theorem modTickRgn_tick (n : Fin 8) (f : TickRgn → TickRgn) (s : State) : (modTickRgn n f s).tick = { s.tick with rgn := upd s.tick.rgn n f } := rfl
@[simp] theorem modTickRgn_haly (n : Fin 8) (f : TickRgn → TickRgn) (s : State) : (modTickRgn n f s).haly = s.haly := rfl
@[simp] theorem modTickRgn_mesh (n : Fin 8) (f : TickRgn → TickRgn) (s : State) : (modTickRgn n f s).mesh = s.mesh := rfl
@[simp] theorem modTickRgn_rim (n : Fin 8) (f : TickRgn → TickRgn) (s : State) : (modTickRgn n f s).rim = s.rim := rfl
@[simp] theorem modTickRgn_rgn (n : Fin 8) (f : TickRgn → TickRgn) (s : State) : (modTickRgn n f s).rgn = s.rgn := rfl
@[simp] theorem modTickRgn_herd (n : Fin 8) (f : TickRgn → TickRgn) (s : State) : (modTickRgn n f s).herd = s.herd := rfl
@[simp] theorem modTickRgn_anl (n : Fin 8) (f : TickRgn → TickRgn) (s : State) : (modTickRgn n f s).anl = s.anl := rfl
@[simp] theorem modTickRgn_noise (n : Fin 8) (f : TickRgn → TickRgn) (s : State) : (modTickRgn n f s).noise = s.noise := rfl
@[simp] theorem modTickRgn_ibex (n : Fin 8) (f : TickRgn → TickRgn) (s : State) : (modTickRgn n f s).ibex = s.ibex := rfl
@[simp] theorem modTickRgn_cham (n : Fin 8) (f : TickRgn → TickRgn) (s : State) : (modTickRgn n f s).cham = s.cham := rfl
@[simp] theorem modTickRgn_kudu (n : Fin 8) (f : TickRgn → TickRgn) (s : State) : (modTickRgn n f s).kudu = s.kudu := rfl
@[simp] theorem modTickRgn_pe (n : Fin 8) (f : TickRgn → TickRgn) (s : State) : (modTickRgn n f s).pe = s.pe := rfl
@[simp] theorem modTickRgn_eng (n : Fin 8) (f : TickRgn → TickRgn) (s : State) : (modTickRgn n f s).eng = s.eng := rfl
@[simp] theorem modTickRgn_mkh (n : Fin 8) (f : TickRgn → TickRgn) (s : State) : (modTickRgn n f s).mkh = s.mkh := rfl
@[simp] theorem modTickRgn_mem (n : Fin 8) (f : TickRgn → TickRgn) (s : State) : (modTickRgn n f s).mem = s.mem := rfl
@[simp] theorem modTickRgn_pcie (n : Fin 8) (f : TickRgn → TickRgn) (s : State) : (modTickRgn n f s).pcie = s.pcie := rfl
@[simp] theorem modTickRgn_sec (n : Fin 8) (f : TickRgn → TickRgn) (s : State) : (modTickRgn n f s).sec = s.sec := rfl
@[simp] theorem modTickRgn_que (n : Fin 8) (f : TickRgn → TickRgn) (s : State) : (modTickRgn n f s).que = s.que := rfl
@[simp] theorem modTickRgn_jobs (n : Fin 8) (f : TickRgn → TickRgn) (s : State) : (modTickRgn n f s).jobs = s.jobs := rfl
@[simp] theorem modTickRgn_evt (n : Fin 8) (f : TickRgn → TickRgn) (s : State) : (modTickRgn n f s).evt = s.evt := rfl
@[simp] theorem modTickRgn_err (n : Fin 8) (f : TickRgn → TickRgn) (s : State) : (modTickRgn n f s).err = s.err := rfl
@[simp] theorem modTickRgn_ring (n : Fin 8) (f : TickRgn → TickRgn) (s : State) : (modTickRgn n f s).ring = s.ring := rfl
@[simp] theorem modTickRgn_pwr (n : Fin 8) (f : TickRgn → TickRgn) (s : State) : (modTickRgn n f s).pwr = s.pwr := rfl
@[simp] theorem modTickRgn_stag (n : Fin 8) (f : TickRgn → TickRgn) (s : State) : (modTickRgn n f s).stag = s.stag := rfl
@[simp] theorem modTickRgn_out (n : Fin 8) (f : TickRgn → TickRgn) (s : State) : (modTickRgn n f s).out = s.out := rfl
@[simp] theorem modTickRgn_free (n : Fin 8) (f : TickRgn → TickRgn) (s : State) : (modTickRgn n f s).free = s.free := rfl

@[simp] theorem modOut_pending (n : Fin 8) (f : HalyOut → HalyOut) (s : State) : (modOut n f s).pending = s.pending := rfl
@[simp] theorem modOut_dev (n : Fin 8) (f : HalyOut → HalyOut) (s : State) : (modOut n f s).dev = s.dev := rfl
@[simp] theorem modOut_tick (n : Fin 8) (f : HalyOut → HalyOut) (s : State) : (modOut n f s).tick = s.tick := rfl
@[simp] theorem modOut_haly (n : Fin 8) (f : HalyOut → HalyOut) (s : State) : (modOut n f s).haly = { s.haly with out := upd s.haly.out n f } := rfl
@[simp] theorem modOut_mesh (n : Fin 8) (f : HalyOut → HalyOut) (s : State) : (modOut n f s).mesh = s.mesh := rfl
@[simp] theorem modOut_rim (n : Fin 8) (f : HalyOut → HalyOut) (s : State) : (modOut n f s).rim = s.rim := rfl
@[simp] theorem modOut_rgn (n : Fin 8) (f : HalyOut → HalyOut) (s : State) : (modOut n f s).rgn = s.rgn := rfl
@[simp] theorem modOut_herd (n : Fin 8) (f : HalyOut → HalyOut) (s : State) : (modOut n f s).herd = s.herd := rfl
@[simp] theorem modOut_anl (n : Fin 8) (f : HalyOut → HalyOut) (s : State) : (modOut n f s).anl = s.anl := rfl
@[simp] theorem modOut_noise (n : Fin 8) (f : HalyOut → HalyOut) (s : State) : (modOut n f s).noise = s.noise := rfl
@[simp] theorem modOut_ibex (n : Fin 8) (f : HalyOut → HalyOut) (s : State) : (modOut n f s).ibex = s.ibex := rfl
@[simp] theorem modOut_cham (n : Fin 8) (f : HalyOut → HalyOut) (s : State) : (modOut n f s).cham = s.cham := rfl
@[simp] theorem modOut_kudu (n : Fin 8) (f : HalyOut → HalyOut) (s : State) : (modOut n f s).kudu = s.kudu := rfl
@[simp] theorem modOut_pe (n : Fin 8) (f : HalyOut → HalyOut) (s : State) : (modOut n f s).pe = s.pe := rfl
@[simp] theorem modOut_eng (n : Fin 8) (f : HalyOut → HalyOut) (s : State) : (modOut n f s).eng = s.eng := rfl
@[simp] theorem modOut_mkh (n : Fin 8) (f : HalyOut → HalyOut) (s : State) : (modOut n f s).mkh = s.mkh := rfl
@[simp] theorem modOut_mem (n : Fin 8) (f : HalyOut → HalyOut) (s : State) : (modOut n f s).mem = s.mem := rfl
@[simp] theorem modOut_pcie (n : Fin 8) (f : HalyOut → HalyOut) (s : State) : (modOut n f s).pcie = s.pcie := rfl
@[simp] theorem modOut_sec (n : Fin 8) (f : HalyOut → HalyOut) (s : State) : (modOut n f s).sec = s.sec := rfl
@[simp] theorem modOut_que (n : Fin 8) (f : HalyOut → HalyOut) (s : State) : (modOut n f s).que = s.que := rfl
@[simp] theorem modOut_jobs (n : Fin 8) (f : HalyOut → HalyOut) (s : State) : (modOut n f s).jobs = s.jobs := rfl
@[simp] theorem modOut_evt (n : Fin 8) (f : HalyOut → HalyOut) (s : State) : (modOut n f s).evt = s.evt := rfl
@[simp] theorem modOut_err (n : Fin 8) (f : HalyOut → HalyOut) (s : State) : (modOut n f s).err = s.err := rfl
@[simp] theorem modOut_ring (n : Fin 8) (f : HalyOut → HalyOut) (s : State) : (modOut n f s).ring = s.ring := rfl
@[simp] theorem modOut_pwr (n : Fin 8) (f : HalyOut → HalyOut) (s : State) : (modOut n f s).pwr = s.pwr := rfl
@[simp] theorem modOut_stag (n : Fin 8) (f : HalyOut → HalyOut) (s : State) : (modOut n f s).stag = s.stag := rfl
@[simp] theorem modOut_out (n : Fin 8) (f : HalyOut → HalyOut) (s : State) : (modOut n f s).out = s.out := rfl
@[simp] theorem modOut_free (n : Fin 8) (f : HalyOut → HalyOut) (s : State) : (modOut n f s).free = s.free := rfl

@[simp] theorem modIn_pending (n : Fin 4) (f : HalyIn → HalyIn) (s : State) : (modIn n f s).pending = s.pending := rfl
@[simp] theorem modIn_dev (n : Fin 4) (f : HalyIn → HalyIn) (s : State) : (modIn n f s).dev = s.dev := rfl
@[simp] theorem modIn_tick (n : Fin 4) (f : HalyIn → HalyIn) (s : State) : (modIn n f s).tick = s.tick := rfl
@[simp] theorem modIn_haly (n : Fin 4) (f : HalyIn → HalyIn) (s : State) : (modIn n f s).haly = { s.haly with inp := upd s.haly.inp n f } := rfl
@[simp] theorem modIn_mesh (n : Fin 4) (f : HalyIn → HalyIn) (s : State) : (modIn n f s).mesh = s.mesh := rfl
@[simp] theorem modIn_rim (n : Fin 4) (f : HalyIn → HalyIn) (s : State) : (modIn n f s).rim = s.rim := rfl
@[simp] theorem modIn_rgn (n : Fin 4) (f : HalyIn → HalyIn) (s : State) : (modIn n f s).rgn = s.rgn := rfl
@[simp] theorem modIn_herd (n : Fin 4) (f : HalyIn → HalyIn) (s : State) : (modIn n f s).herd = s.herd := rfl
@[simp] theorem modIn_anl (n : Fin 4) (f : HalyIn → HalyIn) (s : State) : (modIn n f s).anl = s.anl := rfl
@[simp] theorem modIn_noise (n : Fin 4) (f : HalyIn → HalyIn) (s : State) : (modIn n f s).noise = s.noise := rfl
@[simp] theorem modIn_ibex (n : Fin 4) (f : HalyIn → HalyIn) (s : State) : (modIn n f s).ibex = s.ibex := rfl
@[simp] theorem modIn_cham (n : Fin 4) (f : HalyIn → HalyIn) (s : State) : (modIn n f s).cham = s.cham := rfl
@[simp] theorem modIn_kudu (n : Fin 4) (f : HalyIn → HalyIn) (s : State) : (modIn n f s).kudu = s.kudu := rfl
@[simp] theorem modIn_pe (n : Fin 4) (f : HalyIn → HalyIn) (s : State) : (modIn n f s).pe = s.pe := rfl
@[simp] theorem modIn_eng (n : Fin 4) (f : HalyIn → HalyIn) (s : State) : (modIn n f s).eng = s.eng := rfl
@[simp] theorem modIn_mkh (n : Fin 4) (f : HalyIn → HalyIn) (s : State) : (modIn n f s).mkh = s.mkh := rfl
@[simp] theorem modIn_mem (n : Fin 4) (f : HalyIn → HalyIn) (s : State) : (modIn n f s).mem = s.mem := rfl
@[simp] theorem modIn_pcie (n : Fin 4) (f : HalyIn → HalyIn) (s : State) : (modIn n f s).pcie = s.pcie := rfl
@[simp] theorem modIn_sec (n : Fin 4) (f : HalyIn → HalyIn) (s : State) : (modIn n f s).sec = s.sec := rfl
@[simp] theorem modIn_que (n : Fin 4) (f : HalyIn → HalyIn) (s : State) : (modIn n f s).que = s.que := rfl
@[simp] theorem modIn_jobs (n : Fin 4) (f : HalyIn → HalyIn) (s : State) : (modIn n f s).jobs = s.jobs := rfl
@[simp] theorem modIn_evt (n : Fin 4) (f : HalyIn → HalyIn) (s : State) : (modIn n f s).evt = s.evt := rfl
@[simp] theorem modIn_err (n : Fin 4) (f : HalyIn → HalyIn) (s : State) : (modIn n f s).err = s.err := rfl
@[simp] theorem modIn_ring (n : Fin 4) (f : HalyIn → HalyIn) (s : State) : (modIn n f s).ring = s.ring := rfl
@[simp] theorem modIn_pwr (n : Fin 4) (f : HalyIn → HalyIn) (s : State) : (modIn n f s).pwr = s.pwr := rfl
@[simp] theorem modIn_stag (n : Fin 4) (f : HalyIn → HalyIn) (s : State) : (modIn n f s).stag = s.stag := rfl
@[simp] theorem modIn_out (n : Fin 4) (f : HalyIn → HalyIn) (s : State) : (modIn n f s).out = s.out := rfl
@[simp] theorem modIn_free (n : Fin 4) (f : HalyIn → HalyIn) (s : State) : (modIn n f s).free = s.free := rfl

@[simp] theorem modHerd_pending (h : Fin 64) (f : HerdTile → HerdTile) (s : State) : (modHerd h f s).pending = s.pending := rfl
@[simp] theorem modHerd_dev (h : Fin 64) (f : HerdTile → HerdTile) (s : State) : (modHerd h f s).dev = s.dev := rfl
@[simp] theorem modHerd_tick (h : Fin 64) (f : HerdTile → HerdTile) (s : State) : (modHerd h f s).tick = s.tick := rfl
@[simp] theorem modHerd_haly (h : Fin 64) (f : HerdTile → HerdTile) (s : State) : (modHerd h f s).haly = s.haly := rfl
@[simp] theorem modHerd_mesh (h : Fin 64) (f : HerdTile → HerdTile) (s : State) : (modHerd h f s).mesh = s.mesh := rfl
@[simp] theorem modHerd_rim (h : Fin 64) (f : HerdTile → HerdTile) (s : State) : (modHerd h f s).rim = s.rim := rfl
@[simp] theorem modHerd_rgn (h : Fin 64) (f : HerdTile → HerdTile) (s : State) : (modHerd h f s).rgn = s.rgn := rfl
@[simp] theorem modHerd_herd (h : Fin 64) (f : HerdTile → HerdTile) (s : State) : (modHerd h f s).herd = { s.herd with tile := upd s.herd.tile h f } := rfl
@[simp] theorem modHerd_anl (h : Fin 64) (f : HerdTile → HerdTile) (s : State) : (modHerd h f s).anl = s.anl := rfl
@[simp] theorem modHerd_noise (h : Fin 64) (f : HerdTile → HerdTile) (s : State) : (modHerd h f s).noise = s.noise := rfl
@[simp] theorem modHerd_ibex (h : Fin 64) (f : HerdTile → HerdTile) (s : State) : (modHerd h f s).ibex = s.ibex := rfl
@[simp] theorem modHerd_cham (h : Fin 64) (f : HerdTile → HerdTile) (s : State) : (modHerd h f s).cham = s.cham := rfl
@[simp] theorem modHerd_kudu (h : Fin 64) (f : HerdTile → HerdTile) (s : State) : (modHerd h f s).kudu = s.kudu := rfl
@[simp] theorem modHerd_pe (h : Fin 64) (f : HerdTile → HerdTile) (s : State) : (modHerd h f s).pe = s.pe := rfl
@[simp] theorem modHerd_eng (h : Fin 64) (f : HerdTile → HerdTile) (s : State) : (modHerd h f s).eng = s.eng := rfl
@[simp] theorem modHerd_mkh (h : Fin 64) (f : HerdTile → HerdTile) (s : State) : (modHerd h f s).mkh = s.mkh := rfl
@[simp] theorem modHerd_mem (h : Fin 64) (f : HerdTile → HerdTile) (s : State) : (modHerd h f s).mem = s.mem := rfl
@[simp] theorem modHerd_pcie (h : Fin 64) (f : HerdTile → HerdTile) (s : State) : (modHerd h f s).pcie = s.pcie := rfl
@[simp] theorem modHerd_sec (h : Fin 64) (f : HerdTile → HerdTile) (s : State) : (modHerd h f s).sec = s.sec := rfl
@[simp] theorem modHerd_que (h : Fin 64) (f : HerdTile → HerdTile) (s : State) : (modHerd h f s).que = s.que := rfl
@[simp] theorem modHerd_jobs (h : Fin 64) (f : HerdTile → HerdTile) (s : State) : (modHerd h f s).jobs = s.jobs := rfl
@[simp] theorem modHerd_evt (h : Fin 64) (f : HerdTile → HerdTile) (s : State) : (modHerd h f s).evt = s.evt := rfl
@[simp] theorem modHerd_err (h : Fin 64) (f : HerdTile → HerdTile) (s : State) : (modHerd h f s).err = s.err := rfl
@[simp] theorem modHerd_ring (h : Fin 64) (f : HerdTile → HerdTile) (s : State) : (modHerd h f s).ring = s.ring := rfl
@[simp] theorem modHerd_pwr (h : Fin 64) (f : HerdTile → HerdTile) (s : State) : (modHerd h f s).pwr = s.pwr := rfl
@[simp] theorem modHerd_stag (h : Fin 64) (f : HerdTile → HerdTile) (s : State) : (modHerd h f s).stag = s.stag := rfl
@[simp] theorem modHerd_out (h : Fin 64) (f : HerdTile → HerdTile) (s : State) : (modHerd h f s).out = s.out := rfl
@[simp] theorem modHerd_free (h : Fin 64) (f : HerdTile → HerdTile) (s : State) : (modHerd h f s).free = s.free := rfl

@[simp] theorem modTickJob_pending (n : Fin 8) (f : TickJob → TickJob) (s : State) : (modTickJob n f s).pending = s.pending := rfl
@[simp] theorem modTickJob_dev (n : Fin 8) (f : TickJob → TickJob) (s : State) : (modTickJob n f s).dev = s.dev := rfl
@[simp] theorem modTickJob_tick (n : Fin 8) (f : TickJob → TickJob) (s : State) : (modTickJob n f s).tick = s.tick := rfl
@[simp] theorem modTickJob_haly (n : Fin 8) (f : TickJob → TickJob) (s : State) : (modTickJob n f s).haly = s.haly := rfl
@[simp] theorem modTickJob_mesh (n : Fin 8) (f : TickJob → TickJob) (s : State) : (modTickJob n f s).mesh = s.mesh := rfl
@[simp] theorem modTickJob_rim (n : Fin 8) (f : TickJob → TickJob) (s : State) : (modTickJob n f s).rim = s.rim := rfl
@[simp] theorem modTickJob_rgn (n : Fin 8) (f : TickJob → TickJob) (s : State) : (modTickJob n f s).rgn = s.rgn := rfl
@[simp] theorem modTickJob_herd (n : Fin 8) (f : TickJob → TickJob) (s : State) : (modTickJob n f s).herd = { s.herd with job := upd s.herd.job n f } := rfl
@[simp] theorem modTickJob_anl (n : Fin 8) (f : TickJob → TickJob) (s : State) : (modTickJob n f s).anl = s.anl := rfl
@[simp] theorem modTickJob_noise (n : Fin 8) (f : TickJob → TickJob) (s : State) : (modTickJob n f s).noise = s.noise := rfl
@[simp] theorem modTickJob_ibex (n : Fin 8) (f : TickJob → TickJob) (s : State) : (modTickJob n f s).ibex = s.ibex := rfl
@[simp] theorem modTickJob_cham (n : Fin 8) (f : TickJob → TickJob) (s : State) : (modTickJob n f s).cham = s.cham := rfl
@[simp] theorem modTickJob_kudu (n : Fin 8) (f : TickJob → TickJob) (s : State) : (modTickJob n f s).kudu = s.kudu := rfl
@[simp] theorem modTickJob_pe (n : Fin 8) (f : TickJob → TickJob) (s : State) : (modTickJob n f s).pe = s.pe := rfl
@[simp] theorem modTickJob_eng (n : Fin 8) (f : TickJob → TickJob) (s : State) : (modTickJob n f s).eng = s.eng := rfl
@[simp] theorem modTickJob_mkh (n : Fin 8) (f : TickJob → TickJob) (s : State) : (modTickJob n f s).mkh = s.mkh := rfl
@[simp] theorem modTickJob_mem (n : Fin 8) (f : TickJob → TickJob) (s : State) : (modTickJob n f s).mem = s.mem := rfl
@[simp] theorem modTickJob_pcie (n : Fin 8) (f : TickJob → TickJob) (s : State) : (modTickJob n f s).pcie = s.pcie := rfl
@[simp] theorem modTickJob_sec (n : Fin 8) (f : TickJob → TickJob) (s : State) : (modTickJob n f s).sec = s.sec := rfl
@[simp] theorem modTickJob_que (n : Fin 8) (f : TickJob → TickJob) (s : State) : (modTickJob n f s).que = s.que := rfl
@[simp] theorem modTickJob_jobs (n : Fin 8) (f : TickJob → TickJob) (s : State) : (modTickJob n f s).jobs = s.jobs := rfl
@[simp] theorem modTickJob_evt (n : Fin 8) (f : TickJob → TickJob) (s : State) : (modTickJob n f s).evt = s.evt := rfl
@[simp] theorem modTickJob_err (n : Fin 8) (f : TickJob → TickJob) (s : State) : (modTickJob n f s).err = s.err := rfl
@[simp] theorem modTickJob_ring (n : Fin 8) (f : TickJob → TickJob) (s : State) : (modTickJob n f s).ring = s.ring := rfl
@[simp] theorem modTickJob_pwr (n : Fin 8) (f : TickJob → TickJob) (s : State) : (modTickJob n f s).pwr = s.pwr := rfl
@[simp] theorem modTickJob_stag (n : Fin 8) (f : TickJob → TickJob) (s : State) : (modTickJob n f s).stag = s.stag := rfl
@[simp] theorem modTickJob_out (n : Fin 8) (f : TickJob → TickJob) (s : State) : (modTickJob n f s).out = s.out := rfl
@[simp] theorem modTickJob_free (n : Fin 8) (f : TickJob → TickJob) (s : State) : (modTickJob n f s).free = s.free := rfl

@[simp] theorem modAnl_pending (n : Fin 8) (f : AnlRgn → AnlRgn) (s : State) : (modAnl n f s).pending = s.pending := rfl
@[simp] theorem modAnl_dev (n : Fin 8) (f : AnlRgn → AnlRgn) (s : State) : (modAnl n f s).dev = s.dev := rfl
@[simp] theorem modAnl_tick (n : Fin 8) (f : AnlRgn → AnlRgn) (s : State) : (modAnl n f s).tick = s.tick := rfl
@[simp] theorem modAnl_haly (n : Fin 8) (f : AnlRgn → AnlRgn) (s : State) : (modAnl n f s).haly = s.haly := rfl
@[simp] theorem modAnl_mesh (n : Fin 8) (f : AnlRgn → AnlRgn) (s : State) : (modAnl n f s).mesh = s.mesh := rfl
@[simp] theorem modAnl_rim (n : Fin 8) (f : AnlRgn → AnlRgn) (s : State) : (modAnl n f s).rim = s.rim := rfl
@[simp] theorem modAnl_rgn (n : Fin 8) (f : AnlRgn → AnlRgn) (s : State) : (modAnl n f s).rgn = s.rgn := rfl
@[simp] theorem modAnl_herd (n : Fin 8) (f : AnlRgn → AnlRgn) (s : State) : (modAnl n f s).herd = s.herd := rfl
@[simp] theorem modAnl_anl (n : Fin 8) (f : AnlRgn → AnlRgn) (s : State) : (modAnl n f s).anl = { s.anl with rgn := upd s.anl.rgn n f } := rfl
@[simp] theorem modAnl_noise (n : Fin 8) (f : AnlRgn → AnlRgn) (s : State) : (modAnl n f s).noise = s.noise := rfl
@[simp] theorem modAnl_ibex (n : Fin 8) (f : AnlRgn → AnlRgn) (s : State) : (modAnl n f s).ibex = s.ibex := rfl
@[simp] theorem modAnl_cham (n : Fin 8) (f : AnlRgn → AnlRgn) (s : State) : (modAnl n f s).cham = s.cham := rfl
@[simp] theorem modAnl_kudu (n : Fin 8) (f : AnlRgn → AnlRgn) (s : State) : (modAnl n f s).kudu = s.kudu := rfl
@[simp] theorem modAnl_pe (n : Fin 8) (f : AnlRgn → AnlRgn) (s : State) : (modAnl n f s).pe = s.pe := rfl
@[simp] theorem modAnl_eng (n : Fin 8) (f : AnlRgn → AnlRgn) (s : State) : (modAnl n f s).eng = s.eng := rfl
@[simp] theorem modAnl_mkh (n : Fin 8) (f : AnlRgn → AnlRgn) (s : State) : (modAnl n f s).mkh = s.mkh := rfl
@[simp] theorem modAnl_mem (n : Fin 8) (f : AnlRgn → AnlRgn) (s : State) : (modAnl n f s).mem = s.mem := rfl
@[simp] theorem modAnl_pcie (n : Fin 8) (f : AnlRgn → AnlRgn) (s : State) : (modAnl n f s).pcie = s.pcie := rfl
@[simp] theorem modAnl_sec (n : Fin 8) (f : AnlRgn → AnlRgn) (s : State) : (modAnl n f s).sec = s.sec := rfl
@[simp] theorem modAnl_que (n : Fin 8) (f : AnlRgn → AnlRgn) (s : State) : (modAnl n f s).que = s.que := rfl
@[simp] theorem modAnl_jobs (n : Fin 8) (f : AnlRgn → AnlRgn) (s : State) : (modAnl n f s).jobs = s.jobs := rfl
@[simp] theorem modAnl_evt (n : Fin 8) (f : AnlRgn → AnlRgn) (s : State) : (modAnl n f s).evt = s.evt := rfl
@[simp] theorem modAnl_err (n : Fin 8) (f : AnlRgn → AnlRgn) (s : State) : (modAnl n f s).err = s.err := rfl
@[simp] theorem modAnl_ring (n : Fin 8) (f : AnlRgn → AnlRgn) (s : State) : (modAnl n f s).ring = s.ring := rfl
@[simp] theorem modAnl_pwr (n : Fin 8) (f : AnlRgn → AnlRgn) (s : State) : (modAnl n f s).pwr = s.pwr := rfl
@[simp] theorem modAnl_stag (n : Fin 8) (f : AnlRgn → AnlRgn) (s : State) : (modAnl n f s).stag = s.stag := rfl
@[simp] theorem modAnl_out (n : Fin 8) (f : AnlRgn → AnlRgn) (s : State) : (modAnl n f s).out = s.out := rfl
@[simp] theorem modAnl_free (n : Fin 8) (f : AnlRgn → AnlRgn) (s : State) : (modAnl n f s).free = s.free := rfl

@[simp] theorem modNoiseRgn_pending (n : Fin 8) (f : NoiseRgn → NoiseRgn) (s : State) : (modNoiseRgn n f s).pending = s.pending := rfl
@[simp] theorem modNoiseRgn_dev (n : Fin 8) (f : NoiseRgn → NoiseRgn) (s : State) : (modNoiseRgn n f s).dev = s.dev := rfl
@[simp] theorem modNoiseRgn_tick (n : Fin 8) (f : NoiseRgn → NoiseRgn) (s : State) : (modNoiseRgn n f s).tick = s.tick := rfl
@[simp] theorem modNoiseRgn_haly (n : Fin 8) (f : NoiseRgn → NoiseRgn) (s : State) : (modNoiseRgn n f s).haly = s.haly := rfl
@[simp] theorem modNoiseRgn_mesh (n : Fin 8) (f : NoiseRgn → NoiseRgn) (s : State) : (modNoiseRgn n f s).mesh = s.mesh := rfl
@[simp] theorem modNoiseRgn_rim (n : Fin 8) (f : NoiseRgn → NoiseRgn) (s : State) : (modNoiseRgn n f s).rim = s.rim := rfl
@[simp] theorem modNoiseRgn_rgn (n : Fin 8) (f : NoiseRgn → NoiseRgn) (s : State) : (modNoiseRgn n f s).rgn = s.rgn := rfl
@[simp] theorem modNoiseRgn_herd (n : Fin 8) (f : NoiseRgn → NoiseRgn) (s : State) : (modNoiseRgn n f s).herd = s.herd := rfl
@[simp] theorem modNoiseRgn_anl (n : Fin 8) (f : NoiseRgn → NoiseRgn) (s : State) : (modNoiseRgn n f s).anl = s.anl := rfl
@[simp] theorem modNoiseRgn_noise (n : Fin 8) (f : NoiseRgn → NoiseRgn) (s : State) : (modNoiseRgn n f s).noise = { s.noise with rgn := upd s.noise.rgn n f } := rfl
@[simp] theorem modNoiseRgn_ibex (n : Fin 8) (f : NoiseRgn → NoiseRgn) (s : State) : (modNoiseRgn n f s).ibex = s.ibex := rfl
@[simp] theorem modNoiseRgn_cham (n : Fin 8) (f : NoiseRgn → NoiseRgn) (s : State) : (modNoiseRgn n f s).cham = s.cham := rfl
@[simp] theorem modNoiseRgn_kudu (n : Fin 8) (f : NoiseRgn → NoiseRgn) (s : State) : (modNoiseRgn n f s).kudu = s.kudu := rfl
@[simp] theorem modNoiseRgn_pe (n : Fin 8) (f : NoiseRgn → NoiseRgn) (s : State) : (modNoiseRgn n f s).pe = s.pe := rfl
@[simp] theorem modNoiseRgn_eng (n : Fin 8) (f : NoiseRgn → NoiseRgn) (s : State) : (modNoiseRgn n f s).eng = s.eng := rfl
@[simp] theorem modNoiseRgn_mkh (n : Fin 8) (f : NoiseRgn → NoiseRgn) (s : State) : (modNoiseRgn n f s).mkh = s.mkh := rfl
@[simp] theorem modNoiseRgn_mem (n : Fin 8) (f : NoiseRgn → NoiseRgn) (s : State) : (modNoiseRgn n f s).mem = s.mem := rfl
@[simp] theorem modNoiseRgn_pcie (n : Fin 8) (f : NoiseRgn → NoiseRgn) (s : State) : (modNoiseRgn n f s).pcie = s.pcie := rfl
@[simp] theorem modNoiseRgn_sec (n : Fin 8) (f : NoiseRgn → NoiseRgn) (s : State) : (modNoiseRgn n f s).sec = s.sec := rfl
@[simp] theorem modNoiseRgn_que (n : Fin 8) (f : NoiseRgn → NoiseRgn) (s : State) : (modNoiseRgn n f s).que = s.que := rfl
@[simp] theorem modNoiseRgn_jobs (n : Fin 8) (f : NoiseRgn → NoiseRgn) (s : State) : (modNoiseRgn n f s).jobs = s.jobs := rfl
@[simp] theorem modNoiseRgn_evt (n : Fin 8) (f : NoiseRgn → NoiseRgn) (s : State) : (modNoiseRgn n f s).evt = s.evt := rfl
@[simp] theorem modNoiseRgn_err (n : Fin 8) (f : NoiseRgn → NoiseRgn) (s : State) : (modNoiseRgn n f s).err = s.err := rfl
@[simp] theorem modNoiseRgn_ring (n : Fin 8) (f : NoiseRgn → NoiseRgn) (s : State) : (modNoiseRgn n f s).ring = s.ring := rfl
@[simp] theorem modNoiseRgn_pwr (n : Fin 8) (f : NoiseRgn → NoiseRgn) (s : State) : (modNoiseRgn n f s).pwr = s.pwr := rfl
@[simp] theorem modNoiseRgn_stag (n : Fin 8) (f : NoiseRgn → NoiseRgn) (s : State) : (modNoiseRgn n f s).stag = s.stag := rfl
@[simp] theorem modNoiseRgn_out (n : Fin 8) (f : NoiseRgn → NoiseRgn) (s : State) : (modNoiseRgn n f s).out = s.out := rfl
@[simp] theorem modNoiseRgn_free (n : Fin 8) (f : NoiseRgn → NoiseRgn) (s : State) : (modNoiseRgn n f s).free = s.free := rfl

@[simp] theorem modIbex_pending (i : Fin 48) (f : Ibex → Ibex) (s : State) : (modIbex i f s).pending = s.pending := rfl
@[simp] theorem modIbex_dev (i : Fin 48) (f : Ibex → Ibex) (s : State) : (modIbex i f s).dev = s.dev := rfl
@[simp] theorem modIbex_tick (i : Fin 48) (f : Ibex → Ibex) (s : State) : (modIbex i f s).tick = s.tick := rfl
@[simp] theorem modIbex_haly (i : Fin 48) (f : Ibex → Ibex) (s : State) : (modIbex i f s).haly = s.haly := rfl
@[simp] theorem modIbex_mesh (i : Fin 48) (f : Ibex → Ibex) (s : State) : (modIbex i f s).mesh = s.mesh := rfl
@[simp] theorem modIbex_rim (i : Fin 48) (f : Ibex → Ibex) (s : State) : (modIbex i f s).rim = s.rim := rfl
@[simp] theorem modIbex_rgn (i : Fin 48) (f : Ibex → Ibex) (s : State) : (modIbex i f s).rgn = s.rgn := rfl
@[simp] theorem modIbex_herd (i : Fin 48) (f : Ibex → Ibex) (s : State) : (modIbex i f s).herd = s.herd := rfl
@[simp] theorem modIbex_anl (i : Fin 48) (f : Ibex → Ibex) (s : State) : (modIbex i f s).anl = s.anl := rfl
@[simp] theorem modIbex_noise (i : Fin 48) (f : Ibex → Ibex) (s : State) : (modIbex i f s).noise = s.noise := rfl
@[simp] theorem modIbex_ibex (i : Fin 48) (f : Ibex → Ibex) (s : State) : (modIbex i f s).ibex = upd s.ibex i f := rfl
@[simp] theorem modIbex_cham (i : Fin 48) (f : Ibex → Ibex) (s : State) : (modIbex i f s).cham = s.cham := rfl
@[simp] theorem modIbex_kudu (i : Fin 48) (f : Ibex → Ibex) (s : State) : (modIbex i f s).kudu = s.kudu := rfl
@[simp] theorem modIbex_pe (i : Fin 48) (f : Ibex → Ibex) (s : State) : (modIbex i f s).pe = s.pe := rfl
@[simp] theorem modIbex_eng (i : Fin 48) (f : Ibex → Ibex) (s : State) : (modIbex i f s).eng = s.eng := rfl
@[simp] theorem modIbex_mkh (i : Fin 48) (f : Ibex → Ibex) (s : State) : (modIbex i f s).mkh = s.mkh := rfl
@[simp] theorem modIbex_mem (i : Fin 48) (f : Ibex → Ibex) (s : State) : (modIbex i f s).mem = s.mem := rfl
@[simp] theorem modIbex_pcie (i : Fin 48) (f : Ibex → Ibex) (s : State) : (modIbex i f s).pcie = s.pcie := rfl
@[simp] theorem modIbex_sec (i : Fin 48) (f : Ibex → Ibex) (s : State) : (modIbex i f s).sec = s.sec := rfl
@[simp] theorem modIbex_que (i : Fin 48) (f : Ibex → Ibex) (s : State) : (modIbex i f s).que = s.que := rfl
@[simp] theorem modIbex_jobs (i : Fin 48) (f : Ibex → Ibex) (s : State) : (modIbex i f s).jobs = s.jobs := rfl
@[simp] theorem modIbex_evt (i : Fin 48) (f : Ibex → Ibex) (s : State) : (modIbex i f s).evt = s.evt := rfl
@[simp] theorem modIbex_err (i : Fin 48) (f : Ibex → Ibex) (s : State) : (modIbex i f s).err = s.err := rfl
@[simp] theorem modIbex_ring (i : Fin 48) (f : Ibex → Ibex) (s : State) : (modIbex i f s).ring = s.ring := rfl
@[simp] theorem modIbex_pwr (i : Fin 48) (f : Ibex → Ibex) (s : State) : (modIbex i f s).pwr = s.pwr := rfl
@[simp] theorem modIbex_stag (i : Fin 48) (f : Ibex → Ibex) (s : State) : (modIbex i f s).stag = s.stag := rfl
@[simp] theorem modIbex_out (i : Fin 48) (f : Ibex → Ibex) (s : State) : (modIbex i f s).out = s.out := rfl
@[simp] theorem modIbex_free (i : Fin 48) (f : Ibex → Ibex) (s : State) : (modIbex i f s).free = s.free := rfl

@[simp] theorem modCham_pending (i : Fin 48) (f : Cham → Cham) (s : State) : (modCham i f s).pending = s.pending := rfl
@[simp] theorem modCham_dev (i : Fin 48) (f : Cham → Cham) (s : State) : (modCham i f s).dev = s.dev := rfl
@[simp] theorem modCham_tick (i : Fin 48) (f : Cham → Cham) (s : State) : (modCham i f s).tick = s.tick := rfl
@[simp] theorem modCham_haly (i : Fin 48) (f : Cham → Cham) (s : State) : (modCham i f s).haly = s.haly := rfl
@[simp] theorem modCham_mesh (i : Fin 48) (f : Cham → Cham) (s : State) : (modCham i f s).mesh = s.mesh := rfl
@[simp] theorem modCham_rim (i : Fin 48) (f : Cham → Cham) (s : State) : (modCham i f s).rim = s.rim := rfl
@[simp] theorem modCham_rgn (i : Fin 48) (f : Cham → Cham) (s : State) : (modCham i f s).rgn = s.rgn := rfl
@[simp] theorem modCham_herd (i : Fin 48) (f : Cham → Cham) (s : State) : (modCham i f s).herd = s.herd := rfl
@[simp] theorem modCham_anl (i : Fin 48) (f : Cham → Cham) (s : State) : (modCham i f s).anl = s.anl := rfl
@[simp] theorem modCham_noise (i : Fin 48) (f : Cham → Cham) (s : State) : (modCham i f s).noise = s.noise := rfl
@[simp] theorem modCham_ibex (i : Fin 48) (f : Cham → Cham) (s : State) : (modCham i f s).ibex = s.ibex := rfl
@[simp] theorem modCham_cham (i : Fin 48) (f : Cham → Cham) (s : State) : (modCham i f s).cham = upd s.cham i f := rfl
@[simp] theorem modCham_kudu (i : Fin 48) (f : Cham → Cham) (s : State) : (modCham i f s).kudu = s.kudu := rfl
@[simp] theorem modCham_pe (i : Fin 48) (f : Cham → Cham) (s : State) : (modCham i f s).pe = s.pe := rfl
@[simp] theorem modCham_eng (i : Fin 48) (f : Cham → Cham) (s : State) : (modCham i f s).eng = s.eng := rfl
@[simp] theorem modCham_mkh (i : Fin 48) (f : Cham → Cham) (s : State) : (modCham i f s).mkh = s.mkh := rfl
@[simp] theorem modCham_mem (i : Fin 48) (f : Cham → Cham) (s : State) : (modCham i f s).mem = s.mem := rfl
@[simp] theorem modCham_pcie (i : Fin 48) (f : Cham → Cham) (s : State) : (modCham i f s).pcie = s.pcie := rfl
@[simp] theorem modCham_sec (i : Fin 48) (f : Cham → Cham) (s : State) : (modCham i f s).sec = s.sec := rfl
@[simp] theorem modCham_que (i : Fin 48) (f : Cham → Cham) (s : State) : (modCham i f s).que = s.que := rfl
@[simp] theorem modCham_jobs (i : Fin 48) (f : Cham → Cham) (s : State) : (modCham i f s).jobs = s.jobs := rfl
@[simp] theorem modCham_evt (i : Fin 48) (f : Cham → Cham) (s : State) : (modCham i f s).evt = s.evt := rfl
@[simp] theorem modCham_err (i : Fin 48) (f : Cham → Cham) (s : State) : (modCham i f s).err = s.err := rfl
@[simp] theorem modCham_ring (i : Fin 48) (f : Cham → Cham) (s : State) : (modCham i f s).ring = s.ring := rfl
@[simp] theorem modCham_pwr (i : Fin 48) (f : Cham → Cham) (s : State) : (modCham i f s).pwr = s.pwr := rfl
@[simp] theorem modCham_stag (i : Fin 48) (f : Cham → Cham) (s : State) : (modCham i f s).stag = s.stag := rfl
@[simp] theorem modCham_out (i : Fin 48) (f : Cham → Cham) (s : State) : (modCham i f s).out = s.out := rfl
@[simp] theorem modCham_free (i : Fin 48) (f : Cham → Cham) (s : State) : (modCham i f s).free = s.free := rfl

@[simp] theorem modKudu_pending (m : Fin 8) (f : Kudu → Kudu) (s : State) : (modKudu m f s).pending = s.pending := rfl
@[simp] theorem modKudu_dev (m : Fin 8) (f : Kudu → Kudu) (s : State) : (modKudu m f s).dev = s.dev := rfl
@[simp] theorem modKudu_tick (m : Fin 8) (f : Kudu → Kudu) (s : State) : (modKudu m f s).tick = s.tick := rfl
@[simp] theorem modKudu_haly (m : Fin 8) (f : Kudu → Kudu) (s : State) : (modKudu m f s).haly = s.haly := rfl
@[simp] theorem modKudu_mesh (m : Fin 8) (f : Kudu → Kudu) (s : State) : (modKudu m f s).mesh = s.mesh := rfl
@[simp] theorem modKudu_rim (m : Fin 8) (f : Kudu → Kudu) (s : State) : (modKudu m f s).rim = s.rim := rfl
@[simp] theorem modKudu_rgn (m : Fin 8) (f : Kudu → Kudu) (s : State) : (modKudu m f s).rgn = s.rgn := rfl
@[simp] theorem modKudu_herd (m : Fin 8) (f : Kudu → Kudu) (s : State) : (modKudu m f s).herd = s.herd := rfl
@[simp] theorem modKudu_anl (m : Fin 8) (f : Kudu → Kudu) (s : State) : (modKudu m f s).anl = s.anl := rfl
@[simp] theorem modKudu_noise (m : Fin 8) (f : Kudu → Kudu) (s : State) : (modKudu m f s).noise = s.noise := rfl
@[simp] theorem modKudu_ibex (m : Fin 8) (f : Kudu → Kudu) (s : State) : (modKudu m f s).ibex = s.ibex := rfl
@[simp] theorem modKudu_cham (m : Fin 8) (f : Kudu → Kudu) (s : State) : (modKudu m f s).cham = s.cham := rfl
@[simp] theorem modKudu_kudu (m : Fin 8) (f : Kudu → Kudu) (s : State) : (modKudu m f s).kudu = upd s.kudu m f := rfl
@[simp] theorem modKudu_pe (m : Fin 8) (f : Kudu → Kudu) (s : State) : (modKudu m f s).pe = s.pe := rfl
@[simp] theorem modKudu_eng (m : Fin 8) (f : Kudu → Kudu) (s : State) : (modKudu m f s).eng = s.eng := rfl
@[simp] theorem modKudu_mkh (m : Fin 8) (f : Kudu → Kudu) (s : State) : (modKudu m f s).mkh = s.mkh := rfl
@[simp] theorem modKudu_mem (m : Fin 8) (f : Kudu → Kudu) (s : State) : (modKudu m f s).mem = s.mem := rfl
@[simp] theorem modKudu_pcie (m : Fin 8) (f : Kudu → Kudu) (s : State) : (modKudu m f s).pcie = s.pcie := rfl
@[simp] theorem modKudu_sec (m : Fin 8) (f : Kudu → Kudu) (s : State) : (modKudu m f s).sec = s.sec := rfl
@[simp] theorem modKudu_que (m : Fin 8) (f : Kudu → Kudu) (s : State) : (modKudu m f s).que = s.que := rfl
@[simp] theorem modKudu_jobs (m : Fin 8) (f : Kudu → Kudu) (s : State) : (modKudu m f s).jobs = s.jobs := rfl
@[simp] theorem modKudu_evt (m : Fin 8) (f : Kudu → Kudu) (s : State) : (modKudu m f s).evt = s.evt := rfl
@[simp] theorem modKudu_err (m : Fin 8) (f : Kudu → Kudu) (s : State) : (modKudu m f s).err = s.err := rfl
@[simp] theorem modKudu_ring (m : Fin 8) (f : Kudu → Kudu) (s : State) : (modKudu m f s).ring = s.ring := rfl
@[simp] theorem modKudu_pwr (m : Fin 8) (f : Kudu → Kudu) (s : State) : (modKudu m f s).pwr = s.pwr := rfl
@[simp] theorem modKudu_stag (m : Fin 8) (f : Kudu → Kudu) (s : State) : (modKudu m f s).stag = s.stag := rfl
@[simp] theorem modKudu_out (m : Fin 8) (f : Kudu → Kudu) (s : State) : (modKudu m f s).out = s.out := rfl
@[simp] theorem modKudu_free (m : Fin 8) (f : Kudu → Kudu) (s : State) : (modKudu m f s).free = s.free := rfl

@[simp] theorem modPe_pending (e : Fin 4) (f : Pe → Pe) (s : State) : (modPe e f s).pending = s.pending := rfl
@[simp] theorem modPe_dev (e : Fin 4) (f : Pe → Pe) (s : State) : (modPe e f s).dev = s.dev := rfl
@[simp] theorem modPe_tick (e : Fin 4) (f : Pe → Pe) (s : State) : (modPe e f s).tick = s.tick := rfl
@[simp] theorem modPe_haly (e : Fin 4) (f : Pe → Pe) (s : State) : (modPe e f s).haly = s.haly := rfl
@[simp] theorem modPe_mesh (e : Fin 4) (f : Pe → Pe) (s : State) : (modPe e f s).mesh = s.mesh := rfl
@[simp] theorem modPe_rim (e : Fin 4) (f : Pe → Pe) (s : State) : (modPe e f s).rim = s.rim := rfl
@[simp] theorem modPe_rgn (e : Fin 4) (f : Pe → Pe) (s : State) : (modPe e f s).rgn = s.rgn := rfl
@[simp] theorem modPe_herd (e : Fin 4) (f : Pe → Pe) (s : State) : (modPe e f s).herd = s.herd := rfl
@[simp] theorem modPe_anl (e : Fin 4) (f : Pe → Pe) (s : State) : (modPe e f s).anl = s.anl := rfl
@[simp] theorem modPe_noise (e : Fin 4) (f : Pe → Pe) (s : State) : (modPe e f s).noise = s.noise := rfl
@[simp] theorem modPe_ibex (e : Fin 4) (f : Pe → Pe) (s : State) : (modPe e f s).ibex = s.ibex := rfl
@[simp] theorem modPe_cham (e : Fin 4) (f : Pe → Pe) (s : State) : (modPe e f s).cham = s.cham := rfl
@[simp] theorem modPe_kudu (e : Fin 4) (f : Pe → Pe) (s : State) : (modPe e f s).kudu = s.kudu := rfl
@[simp] theorem modPe_pe (e : Fin 4) (f : Pe → Pe) (s : State) : (modPe e f s).pe = upd s.pe e f := rfl
@[simp] theorem modPe_eng (e : Fin 4) (f : Pe → Pe) (s : State) : (modPe e f s).eng = s.eng := rfl
@[simp] theorem modPe_mkh (e : Fin 4) (f : Pe → Pe) (s : State) : (modPe e f s).mkh = s.mkh := rfl
@[simp] theorem modPe_mem (e : Fin 4) (f : Pe → Pe) (s : State) : (modPe e f s).mem = s.mem := rfl
@[simp] theorem modPe_pcie (e : Fin 4) (f : Pe → Pe) (s : State) : (modPe e f s).pcie = s.pcie := rfl
@[simp] theorem modPe_sec (e : Fin 4) (f : Pe → Pe) (s : State) : (modPe e f s).sec = s.sec := rfl
@[simp] theorem modPe_que (e : Fin 4) (f : Pe → Pe) (s : State) : (modPe e f s).que = s.que := rfl
@[simp] theorem modPe_jobs (e : Fin 4) (f : Pe → Pe) (s : State) : (modPe e f s).jobs = s.jobs := rfl
@[simp] theorem modPe_evt (e : Fin 4) (f : Pe → Pe) (s : State) : (modPe e f s).evt = s.evt := rfl
@[simp] theorem modPe_err (e : Fin 4) (f : Pe → Pe) (s : State) : (modPe e f s).err = s.err := rfl
@[simp] theorem modPe_ring (e : Fin 4) (f : Pe → Pe) (s : State) : (modPe e f s).ring = s.ring := rfl
@[simp] theorem modPe_pwr (e : Fin 4) (f : Pe → Pe) (s : State) : (modPe e f s).pwr = s.pwr := rfl
@[simp] theorem modPe_stag (e : Fin 4) (f : Pe → Pe) (s : State) : (modPe e f s).stag = s.stag := rfl
@[simp] theorem modPe_out (e : Fin 4) (f : Pe → Pe) (s : State) : (modPe e f s).out = s.out := rfl
@[simp] theorem modPe_free (e : Fin 4) (f : Pe → Pe) (s : State) : (modPe e f s).free = s.free := rfl

@[simp] theorem modCp_pending (c : Fin 6) (f : CpCore → CpCore) (s : State) : (modCp c f s).pending = s.pending := rfl
@[simp] theorem modCp_dev (c : Fin 6) (f : CpCore → CpCore) (s : State) : (modCp c f s).dev = s.dev := rfl
@[simp] theorem modCp_tick (c : Fin 6) (f : CpCore → CpCore) (s : State) : (modCp c f s).tick = s.tick := rfl
@[simp] theorem modCp_haly (c : Fin 6) (f : CpCore → CpCore) (s : State) : (modCp c f s).haly = s.haly := rfl
@[simp] theorem modCp_mesh (c : Fin 6) (f : CpCore → CpCore) (s : State) : (modCp c f s).mesh = s.mesh := rfl
@[simp] theorem modCp_rim (c : Fin 6) (f : CpCore → CpCore) (s : State) : (modCp c f s).rim = s.rim := rfl
@[simp] theorem modCp_rgn (c : Fin 6) (f : CpCore → CpCore) (s : State) : (modCp c f s).rgn = s.rgn := rfl
@[simp] theorem modCp_herd (c : Fin 6) (f : CpCore → CpCore) (s : State) : (modCp c f s).herd = s.herd := rfl
@[simp] theorem modCp_anl (c : Fin 6) (f : CpCore → CpCore) (s : State) : (modCp c f s).anl = s.anl := rfl
@[simp] theorem modCp_noise (c : Fin 6) (f : CpCore → CpCore) (s : State) : (modCp c f s).noise = s.noise := rfl
@[simp] theorem modCp_ibex (c : Fin 6) (f : CpCore → CpCore) (s : State) : (modCp c f s).ibex = s.ibex := rfl
@[simp] theorem modCp_cham (c : Fin 6) (f : CpCore → CpCore) (s : State) : (modCp c f s).cham = s.cham := rfl
@[simp] theorem modCp_kudu (c : Fin 6) (f : CpCore → CpCore) (s : State) : (modCp c f s).kudu = s.kudu := rfl
@[simp] theorem modCp_pe (c : Fin 6) (f : CpCore → CpCore) (s : State) : (modCp c f s).pe = s.pe := rfl
@[simp] theorem modCp_eng (c : Fin 6) (f : CpCore → CpCore) (s : State) : (modCp c f s).eng = s.eng := rfl
@[simp] theorem modCp_mkh (c : Fin 6) (f : CpCore → CpCore) (s : State) : (modCp c f s).mkh = { s.mkh with cp := upd s.mkh.cp c f } := rfl
@[simp] theorem modCp_mem (c : Fin 6) (f : CpCore → CpCore) (s : State) : (modCp c f s).mem = s.mem := rfl
@[simp] theorem modCp_pcie (c : Fin 6) (f : CpCore → CpCore) (s : State) : (modCp c f s).pcie = s.pcie := rfl
@[simp] theorem modCp_sec (c : Fin 6) (f : CpCore → CpCore) (s : State) : (modCp c f s).sec = s.sec := rfl
@[simp] theorem modCp_que (c : Fin 6) (f : CpCore → CpCore) (s : State) : (modCp c f s).que = s.que := rfl
@[simp] theorem modCp_jobs (c : Fin 6) (f : CpCore → CpCore) (s : State) : (modCp c f s).jobs = s.jobs := rfl
@[simp] theorem modCp_evt (c : Fin 6) (f : CpCore → CpCore) (s : State) : (modCp c f s).evt = s.evt := rfl
@[simp] theorem modCp_err (c : Fin 6) (f : CpCore → CpCore) (s : State) : (modCp c f s).err = s.err := rfl
@[simp] theorem modCp_ring (c : Fin 6) (f : CpCore → CpCore) (s : State) : (modCp c f s).ring = s.ring := rfl
@[simp] theorem modCp_pwr (c : Fin 6) (f : CpCore → CpCore) (s : State) : (modCp c f s).pwr = s.pwr := rfl
@[simp] theorem modCp_stag (c : Fin 6) (f : CpCore → CpCore) (s : State) : (modCp c f s).stag = s.stag := rfl
@[simp] theorem modCp_out (c : Fin 6) (f : CpCore → CpCore) (s : State) : (modCp c f s).out = s.out := rfl
@[simp] theorem modCp_free (c : Fin 6) (f : CpCore → CpCore) (s : State) : (modCp c f s).free = s.free := rfl

@[simp] theorem modMem_pending (f : MemState → MemState) (s : State) : (modMem f s).pending = s.pending := rfl
@[simp] theorem modMem_dev (f : MemState → MemState) (s : State) : (modMem f s).dev = s.dev := rfl
@[simp] theorem modMem_tick (f : MemState → MemState) (s : State) : (modMem f s).tick = s.tick := rfl
@[simp] theorem modMem_haly (f : MemState → MemState) (s : State) : (modMem f s).haly = s.haly := rfl
@[simp] theorem modMem_mesh (f : MemState → MemState) (s : State) : (modMem f s).mesh = s.mesh := rfl
@[simp] theorem modMem_rim (f : MemState → MemState) (s : State) : (modMem f s).rim = s.rim := rfl
@[simp] theorem modMem_rgn (f : MemState → MemState) (s : State) : (modMem f s).rgn = s.rgn := rfl
@[simp] theorem modMem_herd (f : MemState → MemState) (s : State) : (modMem f s).herd = s.herd := rfl
@[simp] theorem modMem_anl (f : MemState → MemState) (s : State) : (modMem f s).anl = s.anl := rfl
@[simp] theorem modMem_noise (f : MemState → MemState) (s : State) : (modMem f s).noise = s.noise := rfl
@[simp] theorem modMem_ibex (f : MemState → MemState) (s : State) : (modMem f s).ibex = s.ibex := rfl
@[simp] theorem modMem_cham (f : MemState → MemState) (s : State) : (modMem f s).cham = s.cham := rfl
@[simp] theorem modMem_kudu (f : MemState → MemState) (s : State) : (modMem f s).kudu = s.kudu := rfl
@[simp] theorem modMem_pe (f : MemState → MemState) (s : State) : (modMem f s).pe = s.pe := rfl
@[simp] theorem modMem_eng (f : MemState → MemState) (s : State) : (modMem f s).eng = s.eng := rfl
@[simp] theorem modMem_mkh (f : MemState → MemState) (s : State) : (modMem f s).mkh = s.mkh := rfl
@[simp] theorem modMem_mem (f : MemState → MemState) (s : State) : (modMem f s).mem = f s.mem := rfl
@[simp] theorem modMem_pcie (f : MemState → MemState) (s : State) : (modMem f s).pcie = s.pcie := rfl
@[simp] theorem modMem_sec (f : MemState → MemState) (s : State) : (modMem f s).sec = s.sec := rfl
@[simp] theorem modMem_que (f : MemState → MemState) (s : State) : (modMem f s).que = s.que := rfl
@[simp] theorem modMem_jobs (f : MemState → MemState) (s : State) : (modMem f s).jobs = s.jobs := rfl
@[simp] theorem modMem_evt (f : MemState → MemState) (s : State) : (modMem f s).evt = s.evt := rfl
@[simp] theorem modMem_err (f : MemState → MemState) (s : State) : (modMem f s).err = s.err := rfl
@[simp] theorem modMem_ring (f : MemState → MemState) (s : State) : (modMem f s).ring = s.ring := rfl
@[simp] theorem modMem_pwr (f : MemState → MemState) (s : State) : (modMem f s).pwr = s.pwr := rfl
@[simp] theorem modMem_stag (f : MemState → MemState) (s : State) : (modMem f s).stag = s.stag := rfl
@[simp] theorem modMem_out (f : MemState → MemState) (s : State) : (modMem f s).out = s.out := rfl
@[simp] theorem modMem_free (f : MemState → MemState) (s : State) : (modMem f s).free = s.free := rfl

@[simp] theorem modCtx_pending (c : Fin 9) (f : MemCtx → MemCtx) (s : State) : (modCtx c f s).pending = s.pending := rfl
@[simp] theorem modCtx_dev (c : Fin 9) (f : MemCtx → MemCtx) (s : State) : (modCtx c f s).dev = s.dev := rfl
@[simp] theorem modCtx_tick (c : Fin 9) (f : MemCtx → MemCtx) (s : State) : (modCtx c f s).tick = s.tick := rfl
@[simp] theorem modCtx_haly (c : Fin 9) (f : MemCtx → MemCtx) (s : State) : (modCtx c f s).haly = s.haly := rfl
@[simp] theorem modCtx_mesh (c : Fin 9) (f : MemCtx → MemCtx) (s : State) : (modCtx c f s).mesh = s.mesh := rfl
@[simp] theorem modCtx_rim (c : Fin 9) (f : MemCtx → MemCtx) (s : State) : (modCtx c f s).rim = s.rim := rfl
@[simp] theorem modCtx_rgn (c : Fin 9) (f : MemCtx → MemCtx) (s : State) : (modCtx c f s).rgn = s.rgn := rfl
@[simp] theorem modCtx_herd (c : Fin 9) (f : MemCtx → MemCtx) (s : State) : (modCtx c f s).herd = s.herd := rfl
@[simp] theorem modCtx_anl (c : Fin 9) (f : MemCtx → MemCtx) (s : State) : (modCtx c f s).anl = s.anl := rfl
@[simp] theorem modCtx_noise (c : Fin 9) (f : MemCtx → MemCtx) (s : State) : (modCtx c f s).noise = s.noise := rfl
@[simp] theorem modCtx_ibex (c : Fin 9) (f : MemCtx → MemCtx) (s : State) : (modCtx c f s).ibex = s.ibex := rfl
@[simp] theorem modCtx_cham (c : Fin 9) (f : MemCtx → MemCtx) (s : State) : (modCtx c f s).cham = s.cham := rfl
@[simp] theorem modCtx_kudu (c : Fin 9) (f : MemCtx → MemCtx) (s : State) : (modCtx c f s).kudu = s.kudu := rfl
@[simp] theorem modCtx_pe (c : Fin 9) (f : MemCtx → MemCtx) (s : State) : (modCtx c f s).pe = s.pe := rfl
@[simp] theorem modCtx_eng (c : Fin 9) (f : MemCtx → MemCtx) (s : State) : (modCtx c f s).eng = s.eng := rfl
@[simp] theorem modCtx_mkh (c : Fin 9) (f : MemCtx → MemCtx) (s : State) : (modCtx c f s).mkh = s.mkh := rfl
@[simp] theorem modCtx_mem (c : Fin 9) (f : MemCtx → MemCtx) (s : State) : (modCtx c f s).mem = { s.mem with ctx := upd s.mem.ctx c f } := rfl
@[simp] theorem modCtx_pcie (c : Fin 9) (f : MemCtx → MemCtx) (s : State) : (modCtx c f s).pcie = s.pcie := rfl
@[simp] theorem modCtx_sec (c : Fin 9) (f : MemCtx → MemCtx) (s : State) : (modCtx c f s).sec = s.sec := rfl
@[simp] theorem modCtx_que (c : Fin 9) (f : MemCtx → MemCtx) (s : State) : (modCtx c f s).que = s.que := rfl
@[simp] theorem modCtx_jobs (c : Fin 9) (f : MemCtx → MemCtx) (s : State) : (modCtx c f s).jobs = s.jobs := rfl
@[simp] theorem modCtx_evt (c : Fin 9) (f : MemCtx → MemCtx) (s : State) : (modCtx c f s).evt = s.evt := rfl
@[simp] theorem modCtx_err (c : Fin 9) (f : MemCtx → MemCtx) (s : State) : (modCtx c f s).err = s.err := rfl
@[simp] theorem modCtx_ring (c : Fin 9) (f : MemCtx → MemCtx) (s : State) : (modCtx c f s).ring = s.ring := rfl
@[simp] theorem modCtx_pwr (c : Fin 9) (f : MemCtx → MemCtx) (s : State) : (modCtx c f s).pwr = s.pwr := rfl
@[simp] theorem modCtx_stag (c : Fin 9) (f : MemCtx → MemCtx) (s : State) : (modCtx c f s).stag = s.stag := rfl
@[simp] theorem modCtx_out (c : Fin 9) (f : MemCtx → MemCtx) (s : State) : (modCtx c f s).out = s.out := rfl
@[simp] theorem modCtx_free (c : Fin 9) (f : MemCtx → MemCtx) (s : State) : (modCtx c f s).free = s.free := rfl

@[simp] theorem modSecRgn_pending (n : Fin 8) (f : SecRgn → SecRgn) (s : State) : (modSecRgn n f s).pending = s.pending := rfl
@[simp] theorem modSecRgn_dev (n : Fin 8) (f : SecRgn → SecRgn) (s : State) : (modSecRgn n f s).dev = s.dev := rfl
@[simp] theorem modSecRgn_tick (n : Fin 8) (f : SecRgn → SecRgn) (s : State) : (modSecRgn n f s).tick = s.tick := rfl
@[simp] theorem modSecRgn_haly (n : Fin 8) (f : SecRgn → SecRgn) (s : State) : (modSecRgn n f s).haly = s.haly := rfl
@[simp] theorem modSecRgn_mesh (n : Fin 8) (f : SecRgn → SecRgn) (s : State) : (modSecRgn n f s).mesh = s.mesh := rfl
@[simp] theorem modSecRgn_rim (n : Fin 8) (f : SecRgn → SecRgn) (s : State) : (modSecRgn n f s).rim = s.rim := rfl
@[simp] theorem modSecRgn_rgn (n : Fin 8) (f : SecRgn → SecRgn) (s : State) : (modSecRgn n f s).rgn = s.rgn := rfl
@[simp] theorem modSecRgn_herd (n : Fin 8) (f : SecRgn → SecRgn) (s : State) : (modSecRgn n f s).herd = s.herd := rfl
@[simp] theorem modSecRgn_anl (n : Fin 8) (f : SecRgn → SecRgn) (s : State) : (modSecRgn n f s).anl = s.anl := rfl
@[simp] theorem modSecRgn_noise (n : Fin 8) (f : SecRgn → SecRgn) (s : State) : (modSecRgn n f s).noise = s.noise := rfl
@[simp] theorem modSecRgn_ibex (n : Fin 8) (f : SecRgn → SecRgn) (s : State) : (modSecRgn n f s).ibex = s.ibex := rfl
@[simp] theorem modSecRgn_cham (n : Fin 8) (f : SecRgn → SecRgn) (s : State) : (modSecRgn n f s).cham = s.cham := rfl
@[simp] theorem modSecRgn_kudu (n : Fin 8) (f : SecRgn → SecRgn) (s : State) : (modSecRgn n f s).kudu = s.kudu := rfl
@[simp] theorem modSecRgn_pe (n : Fin 8) (f : SecRgn → SecRgn) (s : State) : (modSecRgn n f s).pe = s.pe := rfl
@[simp] theorem modSecRgn_eng (n : Fin 8) (f : SecRgn → SecRgn) (s : State) : (modSecRgn n f s).eng = s.eng := rfl
@[simp] theorem modSecRgn_mkh (n : Fin 8) (f : SecRgn → SecRgn) (s : State) : (modSecRgn n f s).mkh = s.mkh := rfl
@[simp] theorem modSecRgn_mem (n : Fin 8) (f : SecRgn → SecRgn) (s : State) : (modSecRgn n f s).mem = s.mem := rfl
@[simp] theorem modSecRgn_pcie (n : Fin 8) (f : SecRgn → SecRgn) (s : State) : (modSecRgn n f s).pcie = s.pcie := rfl
@[simp] theorem modSecRgn_sec (n : Fin 8) (f : SecRgn → SecRgn) (s : State) : (modSecRgn n f s).sec = { s.sec with rgn := upd s.sec.rgn n f } := rfl
@[simp] theorem modSecRgn_que (n : Fin 8) (f : SecRgn → SecRgn) (s : State) : (modSecRgn n f s).que = s.que := rfl
@[simp] theorem modSecRgn_jobs (n : Fin 8) (f : SecRgn → SecRgn) (s : State) : (modSecRgn n f s).jobs = s.jobs := rfl
@[simp] theorem modSecRgn_evt (n : Fin 8) (f : SecRgn → SecRgn) (s : State) : (modSecRgn n f s).evt = s.evt := rfl
@[simp] theorem modSecRgn_err (n : Fin 8) (f : SecRgn → SecRgn) (s : State) : (modSecRgn n f s).err = s.err := rfl
@[simp] theorem modSecRgn_ring (n : Fin 8) (f : SecRgn → SecRgn) (s : State) : (modSecRgn n f s).ring = s.ring := rfl
@[simp] theorem modSecRgn_pwr (n : Fin 8) (f : SecRgn → SecRgn) (s : State) : (modSecRgn n f s).pwr = s.pwr := rfl
@[simp] theorem modSecRgn_stag (n : Fin 8) (f : SecRgn → SecRgn) (s : State) : (modSecRgn n f s).stag = s.stag := rfl
@[simp] theorem modSecRgn_out (n : Fin 8) (f : SecRgn → SecRgn) (s : State) : (modSecRgn n f s).out = s.out := rfl
@[simp] theorem modSecRgn_free (n : Fin 8) (f : SecRgn → SecRgn) (s : State) : (modSecRgn n f s).free = s.free := rfl

@[simp] theorem modStream_pending (k : Fin 8) (f : Stream → Stream) (s : State) : (modStream k f s).pending = s.pending := rfl
@[simp] theorem modStream_dev (k : Fin 8) (f : Stream → Stream) (s : State) : (modStream k f s).dev = s.dev := rfl
@[simp] theorem modStream_tick (k : Fin 8) (f : Stream → Stream) (s : State) : (modStream k f s).tick = s.tick := rfl
@[simp] theorem modStream_haly (k : Fin 8) (f : Stream → Stream) (s : State) : (modStream k f s).haly = s.haly := rfl
@[simp] theorem modStream_mesh (k : Fin 8) (f : Stream → Stream) (s : State) : (modStream k f s).mesh = s.mesh := rfl
@[simp] theorem modStream_rim (k : Fin 8) (f : Stream → Stream) (s : State) : (modStream k f s).rim = s.rim := rfl
@[simp] theorem modStream_rgn (k : Fin 8) (f : Stream → Stream) (s : State) : (modStream k f s).rgn = s.rgn := rfl
@[simp] theorem modStream_herd (k : Fin 8) (f : Stream → Stream) (s : State) : (modStream k f s).herd = s.herd := rfl
@[simp] theorem modStream_anl (k : Fin 8) (f : Stream → Stream) (s : State) : (modStream k f s).anl = s.anl := rfl
@[simp] theorem modStream_noise (k : Fin 8) (f : Stream → Stream) (s : State) : (modStream k f s).noise = s.noise := rfl
@[simp] theorem modStream_ibex (k : Fin 8) (f : Stream → Stream) (s : State) : (modStream k f s).ibex = s.ibex := rfl
@[simp] theorem modStream_cham (k : Fin 8) (f : Stream → Stream) (s : State) : (modStream k f s).cham = s.cham := rfl
@[simp] theorem modStream_kudu (k : Fin 8) (f : Stream → Stream) (s : State) : (modStream k f s).kudu = s.kudu := rfl
@[simp] theorem modStream_pe (k : Fin 8) (f : Stream → Stream) (s : State) : (modStream k f s).pe = s.pe := rfl
@[simp] theorem modStream_eng (k : Fin 8) (f : Stream → Stream) (s : State) : (modStream k f s).eng = s.eng := rfl
@[simp] theorem modStream_mkh (k : Fin 8) (f : Stream → Stream) (s : State) : (modStream k f s).mkh = s.mkh := rfl
@[simp] theorem modStream_mem (k : Fin 8) (f : Stream → Stream) (s : State) : (modStream k f s).mem = s.mem := rfl
@[simp] theorem modStream_pcie (k : Fin 8) (f : Stream → Stream) (s : State) : (modStream k f s).pcie = s.pcie := rfl
@[simp] theorem modStream_sec (k : Fin 8) (f : Stream → Stream) (s : State) : (modStream k f s).sec = { s.sec with stream := upd s.sec.stream k f } := rfl
@[simp] theorem modStream_que (k : Fin 8) (f : Stream → Stream) (s : State) : (modStream k f s).que = s.que := rfl
@[simp] theorem modStream_jobs (k : Fin 8) (f : Stream → Stream) (s : State) : (modStream k f s).jobs = s.jobs := rfl
@[simp] theorem modStream_evt (k : Fin 8) (f : Stream → Stream) (s : State) : (modStream k f s).evt = s.evt := rfl
@[simp] theorem modStream_err (k : Fin 8) (f : Stream → Stream) (s : State) : (modStream k f s).err = s.err := rfl
@[simp] theorem modStream_ring (k : Fin 8) (f : Stream → Stream) (s : State) : (modStream k f s).ring = s.ring := rfl
@[simp] theorem modStream_pwr (k : Fin 8) (f : Stream → Stream) (s : State) : (modStream k f s).pwr = s.pwr := rfl
@[simp] theorem modStream_stag (k : Fin 8) (f : Stream → Stream) (s : State) : (modStream k f s).stag = s.stag := rfl
@[simp] theorem modStream_out (k : Fin 8) (f : Stream → Stream) (s : State) : (modStream k f s).out = s.out := rfl
@[simp] theorem modStream_free (k : Fin 8) (f : Stream → Stream) (s : State) : (modStream k f s).free = s.free := rfl

@[simp] theorem modQue_pending (i : Fin 33) (f : Queue → Queue) (s : State) : (modQue i f s).pending = s.pending := rfl
@[simp] theorem modQue_dev (i : Fin 33) (f : Queue → Queue) (s : State) : (modQue i f s).dev = s.dev := rfl
@[simp] theorem modQue_tick (i : Fin 33) (f : Queue → Queue) (s : State) : (modQue i f s).tick = s.tick := rfl
@[simp] theorem modQue_haly (i : Fin 33) (f : Queue → Queue) (s : State) : (modQue i f s).haly = s.haly := rfl
@[simp] theorem modQue_mesh (i : Fin 33) (f : Queue → Queue) (s : State) : (modQue i f s).mesh = s.mesh := rfl
@[simp] theorem modQue_rim (i : Fin 33) (f : Queue → Queue) (s : State) : (modQue i f s).rim = s.rim := rfl
@[simp] theorem modQue_rgn (i : Fin 33) (f : Queue → Queue) (s : State) : (modQue i f s).rgn = s.rgn := rfl
@[simp] theorem modQue_herd (i : Fin 33) (f : Queue → Queue) (s : State) : (modQue i f s).herd = s.herd := rfl
@[simp] theorem modQue_anl (i : Fin 33) (f : Queue → Queue) (s : State) : (modQue i f s).anl = s.anl := rfl
@[simp] theorem modQue_noise (i : Fin 33) (f : Queue → Queue) (s : State) : (modQue i f s).noise = s.noise := rfl
@[simp] theorem modQue_ibex (i : Fin 33) (f : Queue → Queue) (s : State) : (modQue i f s).ibex = s.ibex := rfl
@[simp] theorem modQue_cham (i : Fin 33) (f : Queue → Queue) (s : State) : (modQue i f s).cham = s.cham := rfl
@[simp] theorem modQue_kudu (i : Fin 33) (f : Queue → Queue) (s : State) : (modQue i f s).kudu = s.kudu := rfl
@[simp] theorem modQue_pe (i : Fin 33) (f : Queue → Queue) (s : State) : (modQue i f s).pe = s.pe := rfl
@[simp] theorem modQue_eng (i : Fin 33) (f : Queue → Queue) (s : State) : (modQue i f s).eng = s.eng := rfl
@[simp] theorem modQue_mkh (i : Fin 33) (f : Queue → Queue) (s : State) : (modQue i f s).mkh = s.mkh := rfl
@[simp] theorem modQue_mem (i : Fin 33) (f : Queue → Queue) (s : State) : (modQue i f s).mem = s.mem := rfl
@[simp] theorem modQue_pcie (i : Fin 33) (f : Queue → Queue) (s : State) : (modQue i f s).pcie = s.pcie := rfl
@[simp] theorem modQue_sec (i : Fin 33) (f : Queue → Queue) (s : State) : (modQue i f s).sec = s.sec := rfl
@[simp] theorem modQue_que (i : Fin 33) (f : Queue → Queue) (s : State) : (modQue i f s).que = upd s.que i f := rfl
@[simp] theorem modQue_jobs (i : Fin 33) (f : Queue → Queue) (s : State) : (modQue i f s).jobs = s.jobs := rfl
@[simp] theorem modQue_evt (i : Fin 33) (f : Queue → Queue) (s : State) : (modQue i f s).evt = s.evt := rfl
@[simp] theorem modQue_err (i : Fin 33) (f : Queue → Queue) (s : State) : (modQue i f s).err = s.err := rfl
@[simp] theorem modQue_ring (i : Fin 33) (f : Queue → Queue) (s : State) : (modQue i f s).ring = s.ring := rfl
@[simp] theorem modQue_pwr (i : Fin 33) (f : Queue → Queue) (s : State) : (modQue i f s).pwr = s.pwr := rfl
@[simp] theorem modQue_stag (i : Fin 33) (f : Queue → Queue) (s : State) : (modQue i f s).stag = s.stag := rfl
@[simp] theorem modQue_out (i : Fin 33) (f : Queue → Queue) (s : State) : (modQue i f s).out = s.out := rfl
@[simp] theorem modQue_free (i : Fin 33) (f : Queue → Queue) (s : State) : (modQue i f s).free = s.free := rfl

@[simp] theorem modEvt_pending (n : Fin 8) (f : EvtRgn → EvtRgn) (s : State) : (modEvt n f s).pending = s.pending := rfl
@[simp] theorem modEvt_dev (n : Fin 8) (f : EvtRgn → EvtRgn) (s : State) : (modEvt n f s).dev = s.dev := rfl
@[simp] theorem modEvt_tick (n : Fin 8) (f : EvtRgn → EvtRgn) (s : State) : (modEvt n f s).tick = s.tick := rfl
@[simp] theorem modEvt_haly (n : Fin 8) (f : EvtRgn → EvtRgn) (s : State) : (modEvt n f s).haly = s.haly := rfl
@[simp] theorem modEvt_mesh (n : Fin 8) (f : EvtRgn → EvtRgn) (s : State) : (modEvt n f s).mesh = s.mesh := rfl
@[simp] theorem modEvt_rim (n : Fin 8) (f : EvtRgn → EvtRgn) (s : State) : (modEvt n f s).rim = s.rim := rfl
@[simp] theorem modEvt_rgn (n : Fin 8) (f : EvtRgn → EvtRgn) (s : State) : (modEvt n f s).rgn = s.rgn := rfl
@[simp] theorem modEvt_herd (n : Fin 8) (f : EvtRgn → EvtRgn) (s : State) : (modEvt n f s).herd = s.herd := rfl
@[simp] theorem modEvt_anl (n : Fin 8) (f : EvtRgn → EvtRgn) (s : State) : (modEvt n f s).anl = s.anl := rfl
@[simp] theorem modEvt_noise (n : Fin 8) (f : EvtRgn → EvtRgn) (s : State) : (modEvt n f s).noise = s.noise := rfl
@[simp] theorem modEvt_ibex (n : Fin 8) (f : EvtRgn → EvtRgn) (s : State) : (modEvt n f s).ibex = s.ibex := rfl
@[simp] theorem modEvt_cham (n : Fin 8) (f : EvtRgn → EvtRgn) (s : State) : (modEvt n f s).cham = s.cham := rfl
@[simp] theorem modEvt_kudu (n : Fin 8) (f : EvtRgn → EvtRgn) (s : State) : (modEvt n f s).kudu = s.kudu := rfl
@[simp] theorem modEvt_pe (n : Fin 8) (f : EvtRgn → EvtRgn) (s : State) : (modEvt n f s).pe = s.pe := rfl
@[simp] theorem modEvt_eng (n : Fin 8) (f : EvtRgn → EvtRgn) (s : State) : (modEvt n f s).eng = s.eng := rfl
@[simp] theorem modEvt_mkh (n : Fin 8) (f : EvtRgn → EvtRgn) (s : State) : (modEvt n f s).mkh = s.mkh := rfl
@[simp] theorem modEvt_mem (n : Fin 8) (f : EvtRgn → EvtRgn) (s : State) : (modEvt n f s).mem = s.mem := rfl
@[simp] theorem modEvt_pcie (n : Fin 8) (f : EvtRgn → EvtRgn) (s : State) : (modEvt n f s).pcie = s.pcie := rfl
@[simp] theorem modEvt_sec (n : Fin 8) (f : EvtRgn → EvtRgn) (s : State) : (modEvt n f s).sec = s.sec := rfl
@[simp] theorem modEvt_que (n : Fin 8) (f : EvtRgn → EvtRgn) (s : State) : (modEvt n f s).que = s.que := rfl
@[simp] theorem modEvt_jobs (n : Fin 8) (f : EvtRgn → EvtRgn) (s : State) : (modEvt n f s).jobs = s.jobs := rfl
@[simp] theorem modEvt_evt (n : Fin 8) (f : EvtRgn → EvtRgn) (s : State) : (modEvt n f s).evt = { s.evt with rgn := upd s.evt.rgn n f } := rfl
@[simp] theorem modEvt_err (n : Fin 8) (f : EvtRgn → EvtRgn) (s : State) : (modEvt n f s).err = s.err := rfl
@[simp] theorem modEvt_ring (n : Fin 8) (f : EvtRgn → EvtRgn) (s : State) : (modEvt n f s).ring = s.ring := rfl
@[simp] theorem modEvt_pwr (n : Fin 8) (f : EvtRgn → EvtRgn) (s : State) : (modEvt n f s).pwr = s.pwr := rfl
@[simp] theorem modEvt_stag (n : Fin 8) (f : EvtRgn → EvtRgn) (s : State) : (modEvt n f s).stag = s.stag := rfl
@[simp] theorem modEvt_out (n : Fin 8) (f : EvtRgn → EvtRgn) (s : State) : (modEvt n f s).out = s.out := rfl
@[simp] theorem modEvt_free (n : Fin 8) (f : EvtRgn → EvtRgn) (s : State) : (modEvt n f s).free = s.free := rfl

@[simp] theorem modErr_pending (f : ErrState → ErrState) (s : State) : (modErr f s).pending = s.pending := rfl
@[simp] theorem modErr_dev (f : ErrState → ErrState) (s : State) : (modErr f s).dev = s.dev := rfl
@[simp] theorem modErr_tick (f : ErrState → ErrState) (s : State) : (modErr f s).tick = s.tick := rfl
@[simp] theorem modErr_haly (f : ErrState → ErrState) (s : State) : (modErr f s).haly = s.haly := rfl
@[simp] theorem modErr_mesh (f : ErrState → ErrState) (s : State) : (modErr f s).mesh = s.mesh := rfl
@[simp] theorem modErr_rim (f : ErrState → ErrState) (s : State) : (modErr f s).rim = s.rim := rfl
@[simp] theorem modErr_rgn (f : ErrState → ErrState) (s : State) : (modErr f s).rgn = s.rgn := rfl
@[simp] theorem modErr_herd (f : ErrState → ErrState) (s : State) : (modErr f s).herd = s.herd := rfl
@[simp] theorem modErr_anl (f : ErrState → ErrState) (s : State) : (modErr f s).anl = s.anl := rfl
@[simp] theorem modErr_noise (f : ErrState → ErrState) (s : State) : (modErr f s).noise = s.noise := rfl
@[simp] theorem modErr_ibex (f : ErrState → ErrState) (s : State) : (modErr f s).ibex = s.ibex := rfl
@[simp] theorem modErr_cham (f : ErrState → ErrState) (s : State) : (modErr f s).cham = s.cham := rfl
@[simp] theorem modErr_kudu (f : ErrState → ErrState) (s : State) : (modErr f s).kudu = s.kudu := rfl
@[simp] theorem modErr_pe (f : ErrState → ErrState) (s : State) : (modErr f s).pe = s.pe := rfl
@[simp] theorem modErr_eng (f : ErrState → ErrState) (s : State) : (modErr f s).eng = s.eng := rfl
@[simp] theorem modErr_mkh (f : ErrState → ErrState) (s : State) : (modErr f s).mkh = s.mkh := rfl
@[simp] theorem modErr_mem (f : ErrState → ErrState) (s : State) : (modErr f s).mem = s.mem := rfl
@[simp] theorem modErr_pcie (f : ErrState → ErrState) (s : State) : (modErr f s).pcie = s.pcie := rfl
@[simp] theorem modErr_sec (f : ErrState → ErrState) (s : State) : (modErr f s).sec = s.sec := rfl
@[simp] theorem modErr_que (f : ErrState → ErrState) (s : State) : (modErr f s).que = s.que := rfl
@[simp] theorem modErr_jobs (f : ErrState → ErrState) (s : State) : (modErr f s).jobs = s.jobs := rfl
@[simp] theorem modErr_evt (f : ErrState → ErrState) (s : State) : (modErr f s).evt = s.evt := rfl
@[simp] theorem modErr_err (f : ErrState → ErrState) (s : State) : (modErr f s).err = f s.err := rfl
@[simp] theorem modErr_ring (f : ErrState → ErrState) (s : State) : (modErr f s).ring = s.ring := rfl
@[simp] theorem modErr_pwr (f : ErrState → ErrState) (s : State) : (modErr f s).pwr = s.pwr := rfl
@[simp] theorem modErr_stag (f : ErrState → ErrState) (s : State) : (modErr f s).stag = s.stag := rfl
@[simp] theorem modErr_out (f : ErrState → ErrState) (s : State) : (modErr f s).out = s.out := rfl
@[simp] theorem modErr_free (f : ErrState → ErrState) (s : State) : (modErr f s).free = s.free := rfl

@[simp] theorem modRing_pending (f : RingState → RingState) (s : State) : (modRing f s).pending = s.pending := rfl
@[simp] theorem modRing_dev (f : RingState → RingState) (s : State) : (modRing f s).dev = s.dev := rfl
@[simp] theorem modRing_tick (f : RingState → RingState) (s : State) : (modRing f s).tick = s.tick := rfl
@[simp] theorem modRing_haly (f : RingState → RingState) (s : State) : (modRing f s).haly = s.haly := rfl
@[simp] theorem modRing_mesh (f : RingState → RingState) (s : State) : (modRing f s).mesh = s.mesh := rfl
@[simp] theorem modRing_rim (f : RingState → RingState) (s : State) : (modRing f s).rim = s.rim := rfl
@[simp] theorem modRing_rgn (f : RingState → RingState) (s : State) : (modRing f s).rgn = s.rgn := rfl
@[simp] theorem modRing_herd (f : RingState → RingState) (s : State) : (modRing f s).herd = s.herd := rfl
@[simp] theorem modRing_anl (f : RingState → RingState) (s : State) : (modRing f s).anl = s.anl := rfl
@[simp] theorem modRing_noise (f : RingState → RingState) (s : State) : (modRing f s).noise = s.noise := rfl
@[simp] theorem modRing_ibex (f : RingState → RingState) (s : State) : (modRing f s).ibex = s.ibex := rfl
@[simp] theorem modRing_cham (f : RingState → RingState) (s : State) : (modRing f s).cham = s.cham := rfl
@[simp] theorem modRing_kudu (f : RingState → RingState) (s : State) : (modRing f s).kudu = s.kudu := rfl
@[simp] theorem modRing_pe (f : RingState → RingState) (s : State) : (modRing f s).pe = s.pe := rfl
@[simp] theorem modRing_eng (f : RingState → RingState) (s : State) : (modRing f s).eng = s.eng := rfl
@[simp] theorem modRing_mkh (f : RingState → RingState) (s : State) : (modRing f s).mkh = s.mkh := rfl
@[simp] theorem modRing_mem (f : RingState → RingState) (s : State) : (modRing f s).mem = s.mem := rfl
@[simp] theorem modRing_pcie (f : RingState → RingState) (s : State) : (modRing f s).pcie = s.pcie := rfl
@[simp] theorem modRing_sec (f : RingState → RingState) (s : State) : (modRing f s).sec = s.sec := rfl
@[simp] theorem modRing_que (f : RingState → RingState) (s : State) : (modRing f s).que = s.que := rfl
@[simp] theorem modRing_jobs (f : RingState → RingState) (s : State) : (modRing f s).jobs = s.jobs := rfl
@[simp] theorem modRing_evt (f : RingState → RingState) (s : State) : (modRing f s).evt = s.evt := rfl
@[simp] theorem modRing_err (f : RingState → RingState) (s : State) : (modRing f s).err = s.err := rfl
@[simp] theorem modRing_ring (f : RingState → RingState) (s : State) : (modRing f s).ring = f s.ring := rfl
@[simp] theorem modRing_pwr (f : RingState → RingState) (s : State) : (modRing f s).pwr = s.pwr := rfl
@[simp] theorem modRing_stag (f : RingState → RingState) (s : State) : (modRing f s).stag = s.stag := rfl
@[simp] theorem modRing_out (f : RingState → RingState) (s : State) : (modRing f s).out = s.out := rfl
@[simp] theorem modRing_free (f : RingState → RingState) (s : State) : (modRing f s).free = s.free := rfl

@[simp] theorem modPort_pending (p : Fin 2) (f : RingPort → RingPort) (s : State) : (modPort p f s).pending = s.pending := rfl
@[simp] theorem modPort_dev (p : Fin 2) (f : RingPort → RingPort) (s : State) : (modPort p f s).dev = s.dev := rfl
@[simp] theorem modPort_tick (p : Fin 2) (f : RingPort → RingPort) (s : State) : (modPort p f s).tick = s.tick := rfl
@[simp] theorem modPort_haly (p : Fin 2) (f : RingPort → RingPort) (s : State) : (modPort p f s).haly = s.haly := rfl
@[simp] theorem modPort_mesh (p : Fin 2) (f : RingPort → RingPort) (s : State) : (modPort p f s).mesh = s.mesh := rfl
@[simp] theorem modPort_rim (p : Fin 2) (f : RingPort → RingPort) (s : State) : (modPort p f s).rim = s.rim := rfl
@[simp] theorem modPort_rgn (p : Fin 2) (f : RingPort → RingPort) (s : State) : (modPort p f s).rgn = s.rgn := rfl
@[simp] theorem modPort_herd (p : Fin 2) (f : RingPort → RingPort) (s : State) : (modPort p f s).herd = s.herd := rfl
@[simp] theorem modPort_anl (p : Fin 2) (f : RingPort → RingPort) (s : State) : (modPort p f s).anl = s.anl := rfl
@[simp] theorem modPort_noise (p : Fin 2) (f : RingPort → RingPort) (s : State) : (modPort p f s).noise = s.noise := rfl
@[simp] theorem modPort_ibex (p : Fin 2) (f : RingPort → RingPort) (s : State) : (modPort p f s).ibex = s.ibex := rfl
@[simp] theorem modPort_cham (p : Fin 2) (f : RingPort → RingPort) (s : State) : (modPort p f s).cham = s.cham := rfl
@[simp] theorem modPort_kudu (p : Fin 2) (f : RingPort → RingPort) (s : State) : (modPort p f s).kudu = s.kudu := rfl
@[simp] theorem modPort_pe (p : Fin 2) (f : RingPort → RingPort) (s : State) : (modPort p f s).pe = s.pe := rfl
@[simp] theorem modPort_eng (p : Fin 2) (f : RingPort → RingPort) (s : State) : (modPort p f s).eng = s.eng := rfl
@[simp] theorem modPort_mkh (p : Fin 2) (f : RingPort → RingPort) (s : State) : (modPort p f s).mkh = s.mkh := rfl
@[simp] theorem modPort_mem (p : Fin 2) (f : RingPort → RingPort) (s : State) : (modPort p f s).mem = s.mem := rfl
@[simp] theorem modPort_pcie (p : Fin 2) (f : RingPort → RingPort) (s : State) : (modPort p f s).pcie = s.pcie := rfl
@[simp] theorem modPort_sec (p : Fin 2) (f : RingPort → RingPort) (s : State) : (modPort p f s).sec = s.sec := rfl
@[simp] theorem modPort_que (p : Fin 2) (f : RingPort → RingPort) (s : State) : (modPort p f s).que = s.que := rfl
@[simp] theorem modPort_jobs (p : Fin 2) (f : RingPort → RingPort) (s : State) : (modPort p f s).jobs = s.jobs := rfl
@[simp] theorem modPort_evt (p : Fin 2) (f : RingPort → RingPort) (s : State) : (modPort p f s).evt = s.evt := rfl
@[simp] theorem modPort_err (p : Fin 2) (f : RingPort → RingPort) (s : State) : (modPort p f s).err = s.err := rfl
@[simp] theorem modPort_ring (p : Fin 2) (f : RingPort → RingPort) (s : State) : (modPort p f s).ring = { s.ring with port := upd s.ring.port p f } := rfl
@[simp] theorem modPort_pwr (p : Fin 2) (f : RingPort → RingPort) (s : State) : (modPort p f s).pwr = s.pwr := rfl
@[simp] theorem modPort_stag (p : Fin 2) (f : RingPort → RingPort) (s : State) : (modPort p f s).stag = s.stag := rfl
@[simp] theorem modPort_out (p : Fin 2) (f : RingPort → RingPort) (s : State) : (modPort p f s).out = s.out := rfl
@[simp] theorem modPort_free (p : Fin 2) (f : RingPort → RingPort) (s : State) : (modPort p f s).free = s.free := rfl

@[simp] theorem modRingRgn_pending (n : Fin 8) (f : RingRgn → RingRgn) (s : State) : (modRingRgn n f s).pending = s.pending := rfl
@[simp] theorem modRingRgn_dev (n : Fin 8) (f : RingRgn → RingRgn) (s : State) : (modRingRgn n f s).dev = s.dev := rfl
@[simp] theorem modRingRgn_tick (n : Fin 8) (f : RingRgn → RingRgn) (s : State) : (modRingRgn n f s).tick = s.tick := rfl
@[simp] theorem modRingRgn_haly (n : Fin 8) (f : RingRgn → RingRgn) (s : State) : (modRingRgn n f s).haly = s.haly := rfl
@[simp] theorem modRingRgn_mesh (n : Fin 8) (f : RingRgn → RingRgn) (s : State) : (modRingRgn n f s).mesh = s.mesh := rfl
@[simp] theorem modRingRgn_rim (n : Fin 8) (f : RingRgn → RingRgn) (s : State) : (modRingRgn n f s).rim = s.rim := rfl
@[simp] theorem modRingRgn_rgn (n : Fin 8) (f : RingRgn → RingRgn) (s : State) : (modRingRgn n f s).rgn = s.rgn := rfl
@[simp] theorem modRingRgn_herd (n : Fin 8) (f : RingRgn → RingRgn) (s : State) : (modRingRgn n f s).herd = s.herd := rfl
@[simp] theorem modRingRgn_anl (n : Fin 8) (f : RingRgn → RingRgn) (s : State) : (modRingRgn n f s).anl = s.anl := rfl
@[simp] theorem modRingRgn_noise (n : Fin 8) (f : RingRgn → RingRgn) (s : State) : (modRingRgn n f s).noise = s.noise := rfl
@[simp] theorem modRingRgn_ibex (n : Fin 8) (f : RingRgn → RingRgn) (s : State) : (modRingRgn n f s).ibex = s.ibex := rfl
@[simp] theorem modRingRgn_cham (n : Fin 8) (f : RingRgn → RingRgn) (s : State) : (modRingRgn n f s).cham = s.cham := rfl
@[simp] theorem modRingRgn_kudu (n : Fin 8) (f : RingRgn → RingRgn) (s : State) : (modRingRgn n f s).kudu = s.kudu := rfl
@[simp] theorem modRingRgn_pe (n : Fin 8) (f : RingRgn → RingRgn) (s : State) : (modRingRgn n f s).pe = s.pe := rfl
@[simp] theorem modRingRgn_eng (n : Fin 8) (f : RingRgn → RingRgn) (s : State) : (modRingRgn n f s).eng = s.eng := rfl
@[simp] theorem modRingRgn_mkh (n : Fin 8) (f : RingRgn → RingRgn) (s : State) : (modRingRgn n f s).mkh = s.mkh := rfl
@[simp] theorem modRingRgn_mem (n : Fin 8) (f : RingRgn → RingRgn) (s : State) : (modRingRgn n f s).mem = s.mem := rfl
@[simp] theorem modRingRgn_pcie (n : Fin 8) (f : RingRgn → RingRgn) (s : State) : (modRingRgn n f s).pcie = s.pcie := rfl
@[simp] theorem modRingRgn_sec (n : Fin 8) (f : RingRgn → RingRgn) (s : State) : (modRingRgn n f s).sec = s.sec := rfl
@[simp] theorem modRingRgn_que (n : Fin 8) (f : RingRgn → RingRgn) (s : State) : (modRingRgn n f s).que = s.que := rfl
@[simp] theorem modRingRgn_jobs (n : Fin 8) (f : RingRgn → RingRgn) (s : State) : (modRingRgn n f s).jobs = s.jobs := rfl
@[simp] theorem modRingRgn_evt (n : Fin 8) (f : RingRgn → RingRgn) (s : State) : (modRingRgn n f s).evt = s.evt := rfl
@[simp] theorem modRingRgn_err (n : Fin 8) (f : RingRgn → RingRgn) (s : State) : (modRingRgn n f s).err = s.err := rfl
@[simp] theorem modRingRgn_ring (n : Fin 8) (f : RingRgn → RingRgn) (s : State) : (modRingRgn n f s).ring = { s.ring with rgn := upd s.ring.rgn n f } := rfl
@[simp] theorem modRingRgn_pwr (n : Fin 8) (f : RingRgn → RingRgn) (s : State) : (modRingRgn n f s).pwr = s.pwr := rfl
@[simp] theorem modRingRgn_stag (n : Fin 8) (f : RingRgn → RingRgn) (s : State) : (modRingRgn n f s).stag = s.stag := rfl
@[simp] theorem modRingRgn_out (n : Fin 8) (f : RingRgn → RingRgn) (s : State) : (modRingRgn n f s).out = s.out := rfl
@[simp] theorem modRingRgn_free (n : Fin 8) (f : RingRgn → RingRgn) (s : State) : (modRingRgn n f s).free = s.free := rfl

@[simp] theorem modPwrRgn_pending (n : Fin 8) (f : PwrRgn → PwrRgn) (s : State) : (modPwrRgn n f s).pending = s.pending := rfl
@[simp] theorem modPwrRgn_dev (n : Fin 8) (f : PwrRgn → PwrRgn) (s : State) : (modPwrRgn n f s).dev = s.dev := rfl
@[simp] theorem modPwrRgn_tick (n : Fin 8) (f : PwrRgn → PwrRgn) (s : State) : (modPwrRgn n f s).tick = s.tick := rfl
@[simp] theorem modPwrRgn_haly (n : Fin 8) (f : PwrRgn → PwrRgn) (s : State) : (modPwrRgn n f s).haly = s.haly := rfl
@[simp] theorem modPwrRgn_mesh (n : Fin 8) (f : PwrRgn → PwrRgn) (s : State) : (modPwrRgn n f s).mesh = s.mesh := rfl
@[simp] theorem modPwrRgn_rim (n : Fin 8) (f : PwrRgn → PwrRgn) (s : State) : (modPwrRgn n f s).rim = s.rim := rfl
@[simp] theorem modPwrRgn_rgn (n : Fin 8) (f : PwrRgn → PwrRgn) (s : State) : (modPwrRgn n f s).rgn = s.rgn := rfl
@[simp] theorem modPwrRgn_herd (n : Fin 8) (f : PwrRgn → PwrRgn) (s : State) : (modPwrRgn n f s).herd = s.herd := rfl
@[simp] theorem modPwrRgn_anl (n : Fin 8) (f : PwrRgn → PwrRgn) (s : State) : (modPwrRgn n f s).anl = s.anl := rfl
@[simp] theorem modPwrRgn_noise (n : Fin 8) (f : PwrRgn → PwrRgn) (s : State) : (modPwrRgn n f s).noise = s.noise := rfl
@[simp] theorem modPwrRgn_ibex (n : Fin 8) (f : PwrRgn → PwrRgn) (s : State) : (modPwrRgn n f s).ibex = s.ibex := rfl
@[simp] theorem modPwrRgn_cham (n : Fin 8) (f : PwrRgn → PwrRgn) (s : State) : (modPwrRgn n f s).cham = s.cham := rfl
@[simp] theorem modPwrRgn_kudu (n : Fin 8) (f : PwrRgn → PwrRgn) (s : State) : (modPwrRgn n f s).kudu = s.kudu := rfl
@[simp] theorem modPwrRgn_pe (n : Fin 8) (f : PwrRgn → PwrRgn) (s : State) : (modPwrRgn n f s).pe = s.pe := rfl
@[simp] theorem modPwrRgn_eng (n : Fin 8) (f : PwrRgn → PwrRgn) (s : State) : (modPwrRgn n f s).eng = s.eng := rfl
@[simp] theorem modPwrRgn_mkh (n : Fin 8) (f : PwrRgn → PwrRgn) (s : State) : (modPwrRgn n f s).mkh = s.mkh := rfl
@[simp] theorem modPwrRgn_mem (n : Fin 8) (f : PwrRgn → PwrRgn) (s : State) : (modPwrRgn n f s).mem = s.mem := rfl
@[simp] theorem modPwrRgn_pcie (n : Fin 8) (f : PwrRgn → PwrRgn) (s : State) : (modPwrRgn n f s).pcie = s.pcie := rfl
@[simp] theorem modPwrRgn_sec (n : Fin 8) (f : PwrRgn → PwrRgn) (s : State) : (modPwrRgn n f s).sec = s.sec := rfl
@[simp] theorem modPwrRgn_que (n : Fin 8) (f : PwrRgn → PwrRgn) (s : State) : (modPwrRgn n f s).que = s.que := rfl
@[simp] theorem modPwrRgn_jobs (n : Fin 8) (f : PwrRgn → PwrRgn) (s : State) : (modPwrRgn n f s).jobs = s.jobs := rfl
@[simp] theorem modPwrRgn_evt (n : Fin 8) (f : PwrRgn → PwrRgn) (s : State) : (modPwrRgn n f s).evt = s.evt := rfl
@[simp] theorem modPwrRgn_err (n : Fin 8) (f : PwrRgn → PwrRgn) (s : State) : (modPwrRgn n f s).err = s.err := rfl
@[simp] theorem modPwrRgn_ring (n : Fin 8) (f : PwrRgn → PwrRgn) (s : State) : (modPwrRgn n f s).ring = s.ring := rfl
@[simp] theorem modPwrRgn_pwr (n : Fin 8) (f : PwrRgn → PwrRgn) (s : State) : (modPwrRgn n f s).pwr = { s.pwr with rgn := upd s.pwr.rgn n f } := rfl
@[simp] theorem modPwrRgn_stag (n : Fin 8) (f : PwrRgn → PwrRgn) (s : State) : (modPwrRgn n f s).stag = s.stag := rfl
@[simp] theorem modPwrRgn_out (n : Fin 8) (f : PwrRgn → PwrRgn) (s : State) : (modPwrRgn n f s).out = s.out := rfl
@[simp] theorem modPwrRgn_free (n : Fin 8) (f : PwrRgn → PwrRgn) (s : State) : (modPwrRgn n f s).free = s.free := rfl

@[simp] theorem modTile_pending (i : Fin 192) (f : TilePwr → TilePwr) (s : State) : (modTile i f s).pending = s.pending := rfl
@[simp] theorem modTile_dev (i : Fin 192) (f : TilePwr → TilePwr) (s : State) : (modTile i f s).dev = s.dev := rfl
@[simp] theorem modTile_tick (i : Fin 192) (f : TilePwr → TilePwr) (s : State) : (modTile i f s).tick = s.tick := rfl
@[simp] theorem modTile_haly (i : Fin 192) (f : TilePwr → TilePwr) (s : State) : (modTile i f s).haly = s.haly := rfl
@[simp] theorem modTile_mesh (i : Fin 192) (f : TilePwr → TilePwr) (s : State) : (modTile i f s).mesh = s.mesh := rfl
@[simp] theorem modTile_rim (i : Fin 192) (f : TilePwr → TilePwr) (s : State) : (modTile i f s).rim = s.rim := rfl
@[simp] theorem modTile_rgn (i : Fin 192) (f : TilePwr → TilePwr) (s : State) : (modTile i f s).rgn = s.rgn := rfl
@[simp] theorem modTile_herd (i : Fin 192) (f : TilePwr → TilePwr) (s : State) : (modTile i f s).herd = s.herd := rfl
@[simp] theorem modTile_anl (i : Fin 192) (f : TilePwr → TilePwr) (s : State) : (modTile i f s).anl = s.anl := rfl
@[simp] theorem modTile_noise (i : Fin 192) (f : TilePwr → TilePwr) (s : State) : (modTile i f s).noise = s.noise := rfl
@[simp] theorem modTile_ibex (i : Fin 192) (f : TilePwr → TilePwr) (s : State) : (modTile i f s).ibex = s.ibex := rfl
@[simp] theorem modTile_cham (i : Fin 192) (f : TilePwr → TilePwr) (s : State) : (modTile i f s).cham = s.cham := rfl
@[simp] theorem modTile_kudu (i : Fin 192) (f : TilePwr → TilePwr) (s : State) : (modTile i f s).kudu = s.kudu := rfl
@[simp] theorem modTile_pe (i : Fin 192) (f : TilePwr → TilePwr) (s : State) : (modTile i f s).pe = s.pe := rfl
@[simp] theorem modTile_eng (i : Fin 192) (f : TilePwr → TilePwr) (s : State) : (modTile i f s).eng = s.eng := rfl
@[simp] theorem modTile_mkh (i : Fin 192) (f : TilePwr → TilePwr) (s : State) : (modTile i f s).mkh = s.mkh := rfl
@[simp] theorem modTile_mem (i : Fin 192) (f : TilePwr → TilePwr) (s : State) : (modTile i f s).mem = s.mem := rfl
@[simp] theorem modTile_pcie (i : Fin 192) (f : TilePwr → TilePwr) (s : State) : (modTile i f s).pcie = s.pcie := rfl
@[simp] theorem modTile_sec (i : Fin 192) (f : TilePwr → TilePwr) (s : State) : (modTile i f s).sec = s.sec := rfl
@[simp] theorem modTile_que (i : Fin 192) (f : TilePwr → TilePwr) (s : State) : (modTile i f s).que = s.que := rfl
@[simp] theorem modTile_jobs (i : Fin 192) (f : TilePwr → TilePwr) (s : State) : (modTile i f s).jobs = s.jobs := rfl
@[simp] theorem modTile_evt (i : Fin 192) (f : TilePwr → TilePwr) (s : State) : (modTile i f s).evt = s.evt := rfl
@[simp] theorem modTile_err (i : Fin 192) (f : TilePwr → TilePwr) (s : State) : (modTile i f s).err = s.err := rfl
@[simp] theorem modTile_ring (i : Fin 192) (f : TilePwr → TilePwr) (s : State) : (modTile i f s).ring = s.ring := rfl
@[simp] theorem modTile_pwr (i : Fin 192) (f : TilePwr → TilePwr) (s : State) : (modTile i f s).pwr = { s.pwr with tile := upd s.pwr.tile i f } := rfl
@[simp] theorem modTile_stag (i : Fin 192) (f : TilePwr → TilePwr) (s : State) : (modTile i f s).stag = s.stag := rfl
@[simp] theorem modTile_out (i : Fin 192) (f : TilePwr → TilePwr) (s : State) : (modTile i f s).out = s.out := rfl
@[simp] theorem modTile_free (i : Fin 192) (f : TilePwr → TilePwr) (s : State) : (modTile i f s).free = s.free := rfl

@[simp] theorem modEng_pending (f : EngState → EngState) (s : State) : (modEng f s).pending = s.pending := rfl
@[simp] theorem modEng_dev (f : EngState → EngState) (s : State) : (modEng f s).dev = s.dev := rfl
@[simp] theorem modEng_tick (f : EngState → EngState) (s : State) : (modEng f s).tick = s.tick := rfl
@[simp] theorem modEng_haly (f : EngState → EngState) (s : State) : (modEng f s).haly = s.haly := rfl
@[simp] theorem modEng_mesh (f : EngState → EngState) (s : State) : (modEng f s).mesh = s.mesh := rfl
@[simp] theorem modEng_rim (f : EngState → EngState) (s : State) : (modEng f s).rim = s.rim := rfl
@[simp] theorem modEng_rgn (f : EngState → EngState) (s : State) : (modEng f s).rgn = s.rgn := rfl
@[simp] theorem modEng_herd (f : EngState → EngState) (s : State) : (modEng f s).herd = s.herd := rfl
@[simp] theorem modEng_anl (f : EngState → EngState) (s : State) : (modEng f s).anl = s.anl := rfl
@[simp] theorem modEng_noise (f : EngState → EngState) (s : State) : (modEng f s).noise = s.noise := rfl
@[simp] theorem modEng_ibex (f : EngState → EngState) (s : State) : (modEng f s).ibex = s.ibex := rfl
@[simp] theorem modEng_cham (f : EngState → EngState) (s : State) : (modEng f s).cham = s.cham := rfl
@[simp] theorem modEng_kudu (f : EngState → EngState) (s : State) : (modEng f s).kudu = s.kudu := rfl
@[simp] theorem modEng_pe (f : EngState → EngState) (s : State) : (modEng f s).pe = s.pe := rfl
@[simp] theorem modEng_eng (f : EngState → EngState) (s : State) : (modEng f s).eng = f s.eng := rfl
@[simp] theorem modEng_mkh (f : EngState → EngState) (s : State) : (modEng f s).mkh = s.mkh := rfl
@[simp] theorem modEng_mem (f : EngState → EngState) (s : State) : (modEng f s).mem = s.mem := rfl
@[simp] theorem modEng_pcie (f : EngState → EngState) (s : State) : (modEng f s).pcie = s.pcie := rfl
@[simp] theorem modEng_sec (f : EngState → EngState) (s : State) : (modEng f s).sec = s.sec := rfl
@[simp] theorem modEng_que (f : EngState → EngState) (s : State) : (modEng f s).que = s.que := rfl
@[simp] theorem modEng_jobs (f : EngState → EngState) (s : State) : (modEng f s).jobs = s.jobs := rfl
@[simp] theorem modEng_evt (f : EngState → EngState) (s : State) : (modEng f s).evt = s.evt := rfl
@[simp] theorem modEng_err (f : EngState → EngState) (s : State) : (modEng f s).err = s.err := rfl
@[simp] theorem modEng_ring (f : EngState → EngState) (s : State) : (modEng f s).ring = s.ring := rfl
@[simp] theorem modEng_pwr (f : EngState → EngState) (s : State) : (modEng f s).pwr = s.pwr := rfl
@[simp] theorem modEng_stag (f : EngState → EngState) (s : State) : (modEng f s).stag = s.stag := rfl
@[simp] theorem modEng_out (f : EngState → EngState) (s : State) : (modEng f s).out = s.out := rfl
@[simp] theorem modEng_free (f : EngState → EngState) (s : State) : (modEng f s).free = s.free := rfl

@[simp] theorem modJob_pending (k : JobRef) (f : Job → Job) (s : State) : (modJob k f s).pending = s.pending := rfl
@[simp] theorem modJob_dev (k : JobRef) (f : Job → Job) (s : State) : (modJob k f s).dev = s.dev := rfl
@[simp] theorem modJob_tick (k : JobRef) (f : Job → Job) (s : State) : (modJob k f s).tick = s.tick := rfl
@[simp] theorem modJob_haly (k : JobRef) (f : Job → Job) (s : State) : (modJob k f s).haly = s.haly := rfl
@[simp] theorem modJob_mesh (k : JobRef) (f : Job → Job) (s : State) : (modJob k f s).mesh = s.mesh := rfl
@[simp] theorem modJob_rim (k : JobRef) (f : Job → Job) (s : State) : (modJob k f s).rim = s.rim := rfl
@[simp] theorem modJob_rgn (k : JobRef) (f : Job → Job) (s : State) : (modJob k f s).rgn = s.rgn := rfl
@[simp] theorem modJob_herd (k : JobRef) (f : Job → Job) (s : State) : (modJob k f s).herd = s.herd := rfl
@[simp] theorem modJob_anl (k : JobRef) (f : Job → Job) (s : State) : (modJob k f s).anl = s.anl := rfl
@[simp] theorem modJob_noise (k : JobRef) (f : Job → Job) (s : State) : (modJob k f s).noise = s.noise := rfl
@[simp] theorem modJob_ibex (k : JobRef) (f : Job → Job) (s : State) : (modJob k f s).ibex = s.ibex := rfl
@[simp] theorem modJob_cham (k : JobRef) (f : Job → Job) (s : State) : (modJob k f s).cham = s.cham := rfl
@[simp] theorem modJob_kudu (k : JobRef) (f : Job → Job) (s : State) : (modJob k f s).kudu = s.kudu := rfl
@[simp] theorem modJob_pe (k : JobRef) (f : Job → Job) (s : State) : (modJob k f s).pe = s.pe := rfl
@[simp] theorem modJob_eng (k : JobRef) (f : Job → Job) (s : State) : (modJob k f s).eng = s.eng := rfl
@[simp] theorem modJob_mkh (k : JobRef) (f : Job → Job) (s : State) : (modJob k f s).mkh = s.mkh := rfl
@[simp] theorem modJob_mem (k : JobRef) (f : Job → Job) (s : State) : (modJob k f s).mem = s.mem := rfl
@[simp] theorem modJob_pcie (k : JobRef) (f : Job → Job) (s : State) : (modJob k f s).pcie = s.pcie := rfl
@[simp] theorem modJob_sec (k : JobRef) (f : Job → Job) (s : State) : (modJob k f s).sec = s.sec := rfl
@[simp] theorem modJob_que (k : JobRef) (f : Job → Job) (s : State) : (modJob k f s).que = s.que := rfl
@[simp] theorem modJob_jobs (k : JobRef) (f : Job → Job) (s : State) : (modJob k f s).jobs = s.jobs.map fun j => if j.ref == k then f j else j := rfl
@[simp] theorem modJob_evt (k : JobRef) (f : Job → Job) (s : State) : (modJob k f s).evt = s.evt := rfl
@[simp] theorem modJob_err (k : JobRef) (f : Job → Job) (s : State) : (modJob k f s).err = s.err := rfl
@[simp] theorem modJob_ring (k : JobRef) (f : Job → Job) (s : State) : (modJob k f s).ring = s.ring := rfl
@[simp] theorem modJob_pwr (k : JobRef) (f : Job → Job) (s : State) : (modJob k f s).pwr = s.pwr := rfl
@[simp] theorem modJob_stag (k : JobRef) (f : Job → Job) (s : State) : (modJob k f s).stag = s.stag := rfl
@[simp] theorem modJob_out (k : JobRef) (f : Job → Job) (s : State) : (modJob k f s).out = s.out := rfl
@[simp] theorem modJob_free (k : JobRef) (f : Job → Job) (s : State) : (modJob k f s).free = s.free := rfl

@[simp] theorem dropJob_pending (k : JobRef) (s : State) : (dropJob k s).pending = s.pending := rfl
@[simp] theorem dropJob_dev (k : JobRef) (s : State) : (dropJob k s).dev = s.dev := rfl
@[simp] theorem dropJob_tick (k : JobRef) (s : State) : (dropJob k s).tick = s.tick := rfl
@[simp] theorem dropJob_haly (k : JobRef) (s : State) : (dropJob k s).haly = s.haly := rfl
@[simp] theorem dropJob_mesh (k : JobRef) (s : State) : (dropJob k s).mesh = s.mesh := rfl
@[simp] theorem dropJob_rim (k : JobRef) (s : State) : (dropJob k s).rim = s.rim := rfl
@[simp] theorem dropJob_rgn (k : JobRef) (s : State) : (dropJob k s).rgn = s.rgn := rfl
@[simp] theorem dropJob_herd (k : JobRef) (s : State) : (dropJob k s).herd = s.herd := rfl
@[simp] theorem dropJob_anl (k : JobRef) (s : State) : (dropJob k s).anl = s.anl := rfl
@[simp] theorem dropJob_noise (k : JobRef) (s : State) : (dropJob k s).noise = s.noise := rfl
@[simp] theorem dropJob_ibex (k : JobRef) (s : State) : (dropJob k s).ibex = s.ibex := rfl
@[simp] theorem dropJob_cham (k : JobRef) (s : State) : (dropJob k s).cham = s.cham := rfl
@[simp] theorem dropJob_kudu (k : JobRef) (s : State) : (dropJob k s).kudu = s.kudu := rfl
@[simp] theorem dropJob_pe (k : JobRef) (s : State) : (dropJob k s).pe = s.pe := rfl
@[simp] theorem dropJob_eng (k : JobRef) (s : State) : (dropJob k s).eng = s.eng := rfl
@[simp] theorem dropJob_mkh (k : JobRef) (s : State) : (dropJob k s).mkh = s.mkh := rfl
@[simp] theorem dropJob_mem (k : JobRef) (s : State) : (dropJob k s).mem = s.mem := rfl
@[simp] theorem dropJob_pcie (k : JobRef) (s : State) : (dropJob k s).pcie = s.pcie := rfl
@[simp] theorem dropJob_sec (k : JobRef) (s : State) : (dropJob k s).sec = s.sec := rfl
@[simp] theorem dropJob_que (k : JobRef) (s : State) : (dropJob k s).que = s.que := rfl
@[simp] theorem dropJob_jobs (k : JobRef) (s : State) : (dropJob k s).jobs = s.jobs.filter fun j => j.ref != k := rfl
@[simp] theorem dropJob_evt (k : JobRef) (s : State) : (dropJob k s).evt = s.evt := rfl
@[simp] theorem dropJob_err (k : JobRef) (s : State) : (dropJob k s).err = s.err := rfl
@[simp] theorem dropJob_ring (k : JobRef) (s : State) : (dropJob k s).ring = s.ring := rfl
@[simp] theorem dropJob_pwr (k : JobRef) (s : State) : (dropJob k s).pwr = s.pwr := rfl
@[simp] theorem dropJob_stag (k : JobRef) (s : State) : (dropJob k s).stag = s.stag := rfl
@[simp] theorem dropJob_out (k : JobRef) (s : State) : (dropJob k s).out = s.out := rfl
@[simp] theorem dropJob_free (k : JobRef) (s : State) : (dropJob k s).free = s.free := rfl

@[simp] theorem sendMsix_pending (fn : Fin 9) (v : Nat) (s : State) : (sendMsix fn v s).pending = s.pending := rfl
@[simp] theorem sendMsix_dev (fn : Fin 9) (v : Nat) (s : State) : (sendMsix fn v s).dev = s.dev := rfl
@[simp] theorem sendMsix_tick (fn : Fin 9) (v : Nat) (s : State) : (sendMsix fn v s).tick = s.tick := rfl
@[simp] theorem sendMsix_haly (fn : Fin 9) (v : Nat) (s : State) : (sendMsix fn v s).haly = s.haly := rfl
@[simp] theorem sendMsix_mesh (fn : Fin 9) (v : Nat) (s : State) : (sendMsix fn v s).mesh = s.mesh := rfl
@[simp] theorem sendMsix_rim (fn : Fin 9) (v : Nat) (s : State) : (sendMsix fn v s).rim = s.rim := rfl
@[simp] theorem sendMsix_rgn (fn : Fin 9) (v : Nat) (s : State) : (sendMsix fn v s).rgn = s.rgn := rfl
@[simp] theorem sendMsix_herd (fn : Fin 9) (v : Nat) (s : State) : (sendMsix fn v s).herd = s.herd := rfl
@[simp] theorem sendMsix_anl (fn : Fin 9) (v : Nat) (s : State) : (sendMsix fn v s).anl = s.anl := rfl
@[simp] theorem sendMsix_noise (fn : Fin 9) (v : Nat) (s : State) : (sendMsix fn v s).noise = s.noise := rfl
@[simp] theorem sendMsix_ibex (fn : Fin 9) (v : Nat) (s : State) : (sendMsix fn v s).ibex = s.ibex := rfl
@[simp] theorem sendMsix_cham (fn : Fin 9) (v : Nat) (s : State) : (sendMsix fn v s).cham = s.cham := rfl
@[simp] theorem sendMsix_kudu (fn : Fin 9) (v : Nat) (s : State) : (sendMsix fn v s).kudu = s.kudu := rfl
@[simp] theorem sendMsix_pe (fn : Fin 9) (v : Nat) (s : State) : (sendMsix fn v s).pe = s.pe := rfl
@[simp] theorem sendMsix_eng (fn : Fin 9) (v : Nat) (s : State) : (sendMsix fn v s).eng = s.eng := rfl
@[simp] theorem sendMsix_mkh (fn : Fin 9) (v : Nat) (s : State) : (sendMsix fn v s).mkh = s.mkh := rfl
@[simp] theorem sendMsix_mem (fn : Fin 9) (v : Nat) (s : State) : (sendMsix fn v s).mem = s.mem := rfl
@[simp] theorem sendMsix_pcie (fn : Fin 9) (v : Nat) (s : State) : (sendMsix fn v s).pcie = s.pcie := rfl
@[simp] theorem sendMsix_sec (fn : Fin 9) (v : Nat) (s : State) : (sendMsix fn v s).sec = s.sec := rfl
@[simp] theorem sendMsix_que (fn : Fin 9) (v : Nat) (s : State) : (sendMsix fn v s).que = s.que := rfl
@[simp] theorem sendMsix_jobs (fn : Fin 9) (v : Nat) (s : State) : (sendMsix fn v s).jobs = s.jobs := rfl
@[simp] theorem sendMsix_evt (fn : Fin 9) (v : Nat) (s : State) : (sendMsix fn v s).evt = s.evt := rfl
@[simp] theorem sendMsix_err (fn : Fin 9) (v : Nat) (s : State) : (sendMsix fn v s).err = s.err := rfl
@[simp] theorem sendMsix_ring (fn : Fin 9) (v : Nat) (s : State) : (sendMsix fn v s).ring = s.ring := rfl
@[simp] theorem sendMsix_pwr (fn : Fin 9) (v : Nat) (s : State) : (sendMsix fn v s).pwr = s.pwr := rfl
@[simp] theorem sendMsix_stag (fn : Fin 9) (v : Nat) (s : State) : (sendMsix fn v s).stag = s.stag := rfl
@[simp] theorem sendMsix_out (fn : Fin 9) (v : Nat) (s : State) : (sendMsix fn v s).out = { s.out with msix := s.out.msix ++ [{ fn := fn, vector := v }] } := rfl
@[simp] theorem sendMsix_free (fn : Fin 9) (v : Nat) (s : State) : (sendMsix fn v s).free = s.free := rfl

@[simp] theorem putBar_pending (v : Nat) (s : State) : (putBar v s).pending = s.pending := rfl
@[simp] theorem putBar_dev (v : Nat) (s : State) : (putBar v s).dev = s.dev := rfl
@[simp] theorem putBar_tick (v : Nat) (s : State) : (putBar v s).tick = s.tick := rfl
@[simp] theorem putBar_haly (v : Nat) (s : State) : (putBar v s).haly = s.haly := rfl
@[simp] theorem putBar_mesh (v : Nat) (s : State) : (putBar v s).mesh = s.mesh := rfl
@[simp] theorem putBar_rim (v : Nat) (s : State) : (putBar v s).rim = s.rim := rfl
@[simp] theorem putBar_rgn (v : Nat) (s : State) : (putBar v s).rgn = s.rgn := rfl
@[simp] theorem putBar_herd (v : Nat) (s : State) : (putBar v s).herd = s.herd := rfl
@[simp] theorem putBar_anl (v : Nat) (s : State) : (putBar v s).anl = s.anl := rfl
@[simp] theorem putBar_noise (v : Nat) (s : State) : (putBar v s).noise = s.noise := rfl
@[simp] theorem putBar_ibex (v : Nat) (s : State) : (putBar v s).ibex = s.ibex := rfl
@[simp] theorem putBar_cham (v : Nat) (s : State) : (putBar v s).cham = s.cham := rfl
@[simp] theorem putBar_kudu (v : Nat) (s : State) : (putBar v s).kudu = s.kudu := rfl
@[simp] theorem putBar_pe (v : Nat) (s : State) : (putBar v s).pe = s.pe := rfl
@[simp] theorem putBar_eng (v : Nat) (s : State) : (putBar v s).eng = s.eng := rfl
@[simp] theorem putBar_mkh (v : Nat) (s : State) : (putBar v s).mkh = s.mkh := rfl
@[simp] theorem putBar_mem (v : Nat) (s : State) : (putBar v s).mem = s.mem := rfl
@[simp] theorem putBar_pcie (v : Nat) (s : State) : (putBar v s).pcie = s.pcie := rfl
@[simp] theorem putBar_sec (v : Nat) (s : State) : (putBar v s).sec = s.sec := rfl
@[simp] theorem putBar_que (v : Nat) (s : State) : (putBar v s).que = s.que := rfl
@[simp] theorem putBar_jobs (v : Nat) (s : State) : (putBar v s).jobs = s.jobs := rfl
@[simp] theorem putBar_evt (v : Nat) (s : State) : (putBar v s).evt = s.evt := rfl
@[simp] theorem putBar_err (v : Nat) (s : State) : (putBar v s).err = s.err := rfl
@[simp] theorem putBar_ring (v : Nat) (s : State) : (putBar v s).ring = s.ring := rfl
@[simp] theorem putBar_pwr (v : Nat) (s : State) : (putBar v s).pwr = s.pwr := rfl
@[simp] theorem putBar_stag (v : Nat) (s : State) : (putBar v s).stag = s.stag := rfl
@[simp] theorem putBar_out (v : Nat) (s : State) : (putBar v s).out = { s.out with bar := v, ur := false } := rfl
@[simp] theorem putBar_free (v : Nat) (s : State) : (putBar v s).free = s.free := rfl

@[simp] theorem useFree_pending (n : Nat) (s : State) : (useFree n s).pending = s.pending := rfl
@[simp] theorem useFree_dev (n : Nat) (s : State) : (useFree n s).dev = s.dev := rfl
@[simp] theorem useFree_tick (n : Nat) (s : State) : (useFree n s).tick = s.tick := rfl
@[simp] theorem useFree_haly (n : Nat) (s : State) : (useFree n s).haly = s.haly := rfl
@[simp] theorem useFree_mesh (n : Nat) (s : State) : (useFree n s).mesh = s.mesh := rfl
@[simp] theorem useFree_rim (n : Nat) (s : State) : (useFree n s).rim = s.rim := rfl
@[simp] theorem useFree_rgn (n : Nat) (s : State) : (useFree n s).rgn = s.rgn := rfl
@[simp] theorem useFree_herd (n : Nat) (s : State) : (useFree n s).herd = s.herd := rfl
@[simp] theorem useFree_anl (n : Nat) (s : State) : (useFree n s).anl = s.anl := rfl
@[simp] theorem useFree_noise (n : Nat) (s : State) : (useFree n s).noise = s.noise := rfl
@[simp] theorem useFree_ibex (n : Nat) (s : State) : (useFree n s).ibex = s.ibex := rfl
@[simp] theorem useFree_cham (n : Nat) (s : State) : (useFree n s).cham = s.cham := rfl
@[simp] theorem useFree_kudu (n : Nat) (s : State) : (useFree n s).kudu = s.kudu := rfl
@[simp] theorem useFree_pe (n : Nat) (s : State) : (useFree n s).pe = s.pe := rfl
@[simp] theorem useFree_eng (n : Nat) (s : State) : (useFree n s).eng = s.eng := rfl
@[simp] theorem useFree_mkh (n : Nat) (s : State) : (useFree n s).mkh = s.mkh := rfl
@[simp] theorem useFree_mem (n : Nat) (s : State) : (useFree n s).mem = s.mem := rfl
@[simp] theorem useFree_pcie (n : Nat) (s : State) : (useFree n s).pcie = s.pcie := rfl
@[simp] theorem useFree_sec (n : Nat) (s : State) : (useFree n s).sec = s.sec := rfl
@[simp] theorem useFree_que (n : Nat) (s : State) : (useFree n s).que = s.que := rfl
@[simp] theorem useFree_jobs (n : Nat) (s : State) : (useFree n s).jobs = s.jobs := rfl
@[simp] theorem useFree_evt (n : Nat) (s : State) : (useFree n s).evt = s.evt := rfl
@[simp] theorem useFree_err (n : Nat) (s : State) : (useFree n s).err = s.err := rfl
@[simp] theorem useFree_ring (n : Nat) (s : State) : (useFree n s).ring = s.ring := rfl
@[simp] theorem useFree_pwr (n : Nat) (s : State) : (useFree n s).pwr = s.pwr := rfl
@[simp] theorem useFree_stag (n : Nat) (s : State) : (useFree n s).stag = s.stag := rfl
@[simp] theorem useFree_out (n : Nat) (s : State) : (useFree n s).out = s.out := rfl
@[simp] theorem useFree_free (n : Nat) (s : State) : (useFree n s).free = s.free + n := rfl

end Sys2Proof.Machine
end

