-- ==== Sys2Proof/Laws/Memory.lean ====
section
/-!
SUPPORT. Memories: every operation keeps the canonical form, a read answers what was written, a write leaves every other
address alone; and what a write by device address can touch.
-/
namespace Sys2Proof.Machine

@[simp] theorem memory_wf_nil : Memory.wf [] = true := rfl

theorem memory_wf_cons (c : Host.Cell) (r : Mem) :
    Memory.wf (c :: r) = true ↔ c.2 ≠ 0 ∧ (∀ d ∈ r, c.1 < d.1) ∧ Memory.wf r = true := by
  simp [Memory.wf, and_assoc]

/-- The canonical form: addresses strictly rising, no listed byte 0. -/
theorem memory_wf_iff (m : Mem) :
    Memory.wf m = true ↔ m.Pairwise (fun c d => c.1 < d.1) ∧ ∀ c ∈ m, c.2 ≠ 0 := by
  induction m with
  | nil => simp
  | cons c r ih =>
    rw [memory_wf_cons, ih, List.pairwise_cons, List.forall_mem_cons]
    tauto

theorem memGet_of_not_mem (m : Mem) (a : Nat) (h : ∀ c ∈ m, c.1 ≠ a) : memGet m a = 0 := by
  induction m with
  | nil => rfl
  | cons c r ih =>
    rw [memGet, if_neg (h c (by simp))]
    exact ih fun d hd => h d (by simp [hd])

theorem memGet_of_mem (m : Mem) (hm : Memory.wf m = true) (c : Host.Cell) (hc : c ∈ m) : memGet m c.1 = c.2 := by
  induction m with
  | nil => cases hc
  | cons d r ih =>
    obtain ⟨-, hlt, hr⟩ := (memory_wf_cons d r).1 hm
    rcases List.mem_cons.1 hc with rfl | hcr
    · simp [memGet]
    · have := hlt c hcr
      rw [memGet, if_neg (by omega)]
      exact ih hr hcr

theorem memGet_append_of_not_mem (m k : Mem) (a : Nat) (h : ∀ c ∈ m, c.1 ≠ a) : memGet (m ++ k) a = memGet k a := by
  induction m with
  | nil => rfl
  | cons c r ih =>
    rw [List.cons_append, memGet, if_neg (h c (by simp))]
    exact ih fun d hd => h d (by simp [hd])

theorem memGet_append_of_not_mem_right (m k : Mem) (a : Nat) (h : ∀ c ∈ k, c.1 ≠ a) : memGet (m ++ k) a = memGet m a := by
  induction m with
  | nil => simpa [memGet] using memGet_of_not_mem k a h
  | cons c r ih => simp only [List.cons_append, memGet, ih]

theorem memGet_filter (m : Mem) (p : Nat → Bool) (a : Nat) :
    memGet (m.filter fun c => p c.1) a = if p a = true then memGet m a else 0 := by
  induction m with
  | nil => simp [memGet]
  | cons c r ih =>
    by_cases hc : c.1 = a <;> by_cases hp : p c.1 = true <;> simp_all [memGet]

/-! ### One byte -/

theorem mem_memPut (m : Mem) (a : Nat) (b : Byte) : ∀ c ∈ memPut m a b, c = (a, b) ∧ b ≠ 0 ∨ c ∈ m := by
  induction m with
  | nil => intro c hc; simp only [memPut] at hc; split at hc <;> simp_all
  | cons d r ih =>
    intro c hc
    simp only [memPut] at hc
    split at hc
    · split at hc
      · exact .inr hc
      · rcases List.mem_cons.1 hc with h | h
        · exact .inl ⟨h, ‹_›⟩
        · exact .inr h
    · split at hc
      · split at hc
        · exact .inr (List.mem_cons_of_mem _ hc)
        · rcases List.mem_cons.1 hc with h | h
          · exact .inl ⟨h, ‹_›⟩
          · exact .inr (List.mem_cons_of_mem _ h)
      · rcases List.mem_cons.1 hc with h | h
        · exact .inr (by simp [h])
        · exact (ih c h).imp_right (List.mem_cons_of_mem _)

/-- Writing a byte keeps the canonical form. -/
theorem memPut_wf (m : Mem) (a : Nat) (b : Byte) (hm : Memory.wf m = true) : Memory.wf (memPut m a b) = true := by
  induction m with
  | nil => simp only [memPut]; split <;> simp_all [Memory.wf]
  | cons d r ih =>
    obtain ⟨h0, hlt, hr⟩ := (memory_wf_cons d r).1 hm
    simp only [memPut]
    split
    · split
      · exact hm
      · refine (memory_wf_cons _ _).2 ⟨by simpa using ‹_›, ?_, hm⟩
        intro e he
        rcases List.mem_cons.1 he with rfl | he
        · assumption
        · have := hlt e he; omega
    · split
      · split
        · exact hr
        · exact (memory_wf_cons _ _).2 ⟨by simpa using ‹_›, fun e he => by have := hlt e he; simp only; omega, hr⟩
      · refine (memory_wf_cons _ _).2 ⟨h0, ?_, ih hr⟩
        intro e he
        rcases mem_memPut r a b e he with ⟨rfl, -⟩ | he
        · simp only; omega
        · exact hlt e he

/-- A byte written is read back, and every other address reads as before. -/
theorem memGet_memPut (m : Mem) (a a' : Nat) (b : Byte) (hm : Memory.wf m = true) :
    memGet (memPut m a b) a' = if a' = a then b else memGet m a' := by
  induction m with
  | nil => simp only [memPut]; split <;> simp [memGet] <;> grind
  | cons d r ih =>
    obtain ⟨-, hlt, hr⟩ := (memory_wf_cons d r).1 hm
    have hna : ∀ x, x ≤ d.1 → memGet r x = 0 := fun x hx => memGet_of_not_mem r x fun c hc => by
      have := hlt c hc; omega
    have hda := hna d.1 (Nat.le_refl _)
    simp only [memPut]
    split
    · have := hna a (by omega)
      split <;> simp only [memGet] <;> grind
    · split
      · split <;> simp only [memGet] <;> grind
      · simp only [memGet, ih hr]; grind

/-! ### Many bytes -/

theorem mem_cells (bs : List Byte) (a : Nat) : ∀ c ∈ cells a bs, a ≤ c.1 ∧ c.1 < a + bs.length ∧ c.2 ≠ 0 := by
  induction bs generalizing a with
  | nil => simp [cells]
  | cons b bs ih =>
    intro c hc
    simp only [cells] at hc
    split at hc
    · obtain ⟨h1, h2, h3⟩ := ih (a + 1) c hc
      simp only [List.length_cons]; exact ⟨by omega, by omega, h3⟩
    · rcases List.mem_cons.1 hc with rfl | hc
      · simp_all
      · obtain ⟨h1, h2, h3⟩ := ih (a + 1) c hc
        simp only [List.length_cons]; exact ⟨by omega, by omega, h3⟩

theorem cells_pairwise (bs : List Byte) (a : Nat) : (cells a bs).Pairwise fun c d => c.1 < d.1 := by
  induction bs generalizing a with
  | nil => simp [cells]
  | cons b bs ih =>
    simp only [cells]
    split
    · exact ih _
    · exact List.pairwise_cons.2 ⟨fun c hc => (mem_cells bs (a + 1) c hc).1, ih _⟩

theorem memGet_cells (bs : List Byte) (a x : Nat) :
    memGet (cells a bs) x = if a ≤ x ∧ x < a + bs.length then bs.getD (x - a) 0 else 0 := by
  induction bs generalizing a with
  | nil => simp [cells, memGet]
  | cons b bs ih =>
    have hx : ∀ k, x - a = k + 1 → x - (a + 1) = k := by omega
    simp only [cells, List.length_cons]
    by_cases hxa : x = a
    · subst hxa
      split
      · rw [ih]; simp_all
      · simp [memGet]
    · have hne : ¬ a = x := fun h => hxa h.symm
      have hd : (b :: bs).getD (x - a) 0 = if a + 1 ≤ x then bs.getD (x - (a + 1)) 0 else b := by
        split
        · have : x - a = (x - (a + 1)) + 1 := by omega
          rw [this]; simp
        · have : x - a = 0 := by omega
          simp [this]
      split
      · rw [ih, hd]; grind
      · rw [memGet, if_neg hne, ih, hd]; grind

/-- Writing bytes keeps the canonical form. -/
theorem memWrite_wf (m : Mem) (a : Nat) (bs : List Byte) (hm : Memory.wf m = true) : Memory.wf (memWrite m a bs) = true := by
  obtain ⟨hp, h0⟩ := (memory_wf_iff m).1 hm
  refine (memory_wf_iff _).2 ⟨?_, ?_⟩
  · simp only [memWrite, List.pairwise_append]
    refine ⟨hp.sublist List.filter_sublist, ⟨cells_pairwise bs a, hp.sublist List.filter_sublist, ?_⟩, ?_⟩
    · intro c hc d hd
      have := mem_cells bs a c hc
      have := (List.mem_filter.1 hd).2
      simp only [decide_eq_true_eq] at this; omega
    · intro c hc d hd
      have h1 := (List.mem_filter.1 hc).2
      simp only [decide_eq_true_eq] at h1
      rcases List.mem_append.1 hd with hd | hd
      · have := mem_cells bs a d hd; omega
      · have := (List.mem_filter.1 hd).2
        simp only [decide_eq_true_eq] at this; omega
  · intro c hc
    simp only [memWrite, List.mem_append, List.mem_filter] at hc
    rcases hc with h | h | h
    · exact h0 c h.1
    · exact (mem_cells bs a c h).2.2
    · exact h0 c h.1

/-- Zeroing bytes keeps the canonical form. -/
theorem memZero_wf (m : Mem) (a n : Nat) (hm : Memory.wf m = true) : Memory.wf (memZero m a n) = true := by
  obtain ⟨hp, h0⟩ := (memory_wf_iff m).1 hm
  exact (memory_wf_iff _).2 ⟨hp.sublist List.filter_sublist, fun c hc => h0 c (List.mem_filter.1 hc).1⟩

/-- What a read gives after a write: the bytes written where it wrote, else what it gave before. -/
theorem memGet_memWrite (m : Mem) (a x : Nat) (bs : List Byte) :
    memGet (memWrite m a bs) x = if a ≤ x ∧ x < a + bs.length then bs.getD (x - a) 0 else memGet m x := by
  have hlo := memGet_filter m (fun k => decide (k < a)) x
  have hhi := memGet_filter m (fun k => decide (a + bs.length ≤ k)) x
  have hc := memGet_cells bs a x
  simp only [decide_eq_true_eq] at hlo hhi
  simp only [memWrite]
  by_cases h1 : x < a
  · rw [memGet_append_of_not_mem_right, hlo, if_pos h1, if_neg (by omega)]
    intro c hc
    rcases List.mem_append.1 hc with hc | hc
    · have := mem_cells bs a c hc; omega
    · have := (List.mem_filter.1 hc).2; simp only [decide_eq_true_eq] at this; omega
  · rw [memGet_append_of_not_mem]
    · by_cases h2 : x < a + bs.length
      · rw [memGet_append_of_not_mem_right, hc]
        · simp [Nat.le_of_not_lt h1, h2]
        · intro c hc
          have := (List.mem_filter.1 hc).2; simp only [decide_eq_true_eq] at this; omega
      · rw [memGet_append_of_not_mem, hhi, if_pos (by omega), if_neg (by omega)]
        intro c hc; have := mem_cells bs a c hc; omega
    · intro c hc
      have := (List.mem_filter.1 hc).2; simp only [decide_eq_true_eq] at this; omega

theorem memGet_memZero (m : Mem) (a n x : Nat) :
    memGet (memZero m a n) x = if a ≤ x ∧ x < a + n then 0 else memGet m x := by
  have := memGet_filter m (fun k => decide (k < a) || decide (a + n ≤ k)) x
  simp only [Bool.or_eq_true, decide_eq_true_eq] at this
  simp only [memZero, this]
  grind

@[simp] theorem memRead_length (m : Mem) (a n : Nat) : (memRead m a n).length = n := by simp [memRead]

/-- Bytes written are read back. -/
theorem memRead_memWrite_same (m : Mem) (a : Nat) (bs : List Byte) : memRead (memWrite m a bs) a bs.length = bs := by
  apply List.ext_getElem
  · simp
  · intro i h1 h2
    simp only [memRead, List.getElem_map, List.getElem_range, memGet_memWrite]
    rw [if_pos (by omega)]
    simp [List.getElem?_eq_getElem h2]

/-- A write elsewhere does not change what is read. -/
theorem memRead_memWrite_other (m : Mem) (a x n : Nat) (bs : List Byte) (h : x + n ≤ a ∨ a + bs.length ≤ x) :
    memRead (memWrite m a bs) x n = memRead m x n := by
  apply List.map_congr_left
  intro i hi
  have := List.mem_range.1 hi
  rw [memGet_memWrite, if_neg (by omega)]

@[simp] theorem memWrite_nil (m : Mem) (a : Nat) : memWrite m a [] = m.filter (fun c => decide (c.1 < a)) ++ m.filter (fun c => decide (a ≤ c.1)) := by
  simp [memWrite, cells]

/-! ### Writes by device address, and fault latches -/

theorem foldl_keeps {α β : Type} (P : β → Prop) (f : β → α → β) (hf : ∀ b a, P b → P (f b a)) (l : List α) (b : β) (hb : P b) :
    P (l.foldl f b) := by
  induction l generalizing b with
  | nil => exact hb
  | cons a l ih => exact ih _ (hf b a hb)

/-- What a write at a physical address keeps, the port's writes of tags keep. -/
theorem putTags_keeps (Q : MemState → Prop) (hm : ∀ m pa d, Q m → Q (physWrite m pa d)) (t : Fin 9 × Nat) (ls : List Nat)
    (m : MemState) (h : Q m) : Q (putTags t ls m) :=
  foldl_keeps Q _ (fun _ _ hb => hm _ _ _ hb) ls m h

/-- What every write of bytes into physical or host memory keeps, a write at a place keeps. -/
theorem writePlace_keeps (P : State → Prop) (p : Place) (data : List Byte) (s : State) (hs : P s)
    (hm : ∀ t pa d, P t → P { t with mem := physWrite t.mem pa d })
    (hh : ∀ t ha d, P t → P { t with pcie := { t.pcie with host := memWrite t.pcie.host ha d } }) : P (writePlace p data s) := by
  have hQ : ∀ m pa d, P { s with mem := m } → P { s with mem := physWrite m pa d } := fun m pa d h => hm _ pa d h
  unfold writePlace
  split
  · exact hm _ _ _ hs
  · refine putTags_keeps (fun m => P { s with mem := m }) hQ _ _ _ (hQ _ _ _ ?_)
    exact foldl_keeps (fun m => P { s with mem := m }) _ (fun _ _ hb => hQ _ _ _ hb) _ _ hs
  · exact hs
  · exact hh _ _ _ hs

/-- What every write of bytes into physical or host memory keeps, a write by device address keeps. -/
theorem writeDev_keeps (P : State → Prop) (tile : Fin 24) (c : Fin 9) (a : Nat) (data : List Byte) (s : State) (hs : P s)
    (hm : ∀ t pa d, P t → P { t with mem := physWrite t.mem pa d })
    (hh : ∀ t ha d, P t → P { t with pcie := { t.pcie with host := memWrite t.pcie.host ha d } }) :
    P (writeDev tile c a data s).1 := by
  simp only [writeDev]
  apply foldl_keeps (fun acc : State × List Byte × MemFault => P acc.1) _ _ _ _ hs
  intro acc x h
  split
  · exact writePlace_keeps P _ _ _ h hm hh
  · exact h

/-- A write by device address changes physical memory, what lies aside of it, and host memory only (R211, R212, R217). -/
theorem writeDev_frame (tile : Fin 24) (c : Fin 9) (a : Nat) (data : List Byte) (s : State) :
    ∃ p o q, (writeDev tile c a data s).1 =
      { s with mem := { s.mem with phys := p, aside := o }, pcie := { s.pcie with host := q } } := by
  apply writeDev_keeps fun t => ∃ p o q, t =
    { s with mem := { s.mem with phys := p, aside := o }, pcie := { s.pcie with host := q } }
  · exact ⟨s.mem.phys, s.mem.aside, s.pcie.host, rfl⟩
  · rintro t pa d ⟨p, o, q, rfl⟩; exact ⟨_, _, q, rfl⟩
  · rintro t ha d ⟨p, o, q, rfl⟩; exact ⟨p, o, _, rfl⟩

/-- A write by device address keeps both memories canonical. -/
theorem writeDev_wf (tile : Fin 24) (c : Fin 9) (a : Nat) (data : List Byte) (s : State)
    (h : Memory.wf s.mem.phys = true ∧ Memory.wf s.pcie.host = true) :
    Memory.wf (writeDev tile c a data s).1.mem.phys = true ∧ Memory.wf (writeDev tile c a data s).1.pcie.host = true := by
  apply writeDev_keeps (fun t => Memory.wf t.mem.phys = true ∧ Memory.wf t.pcie.host = true) _ _ _ _ _ h
  · exact fun t pa d h => ⟨memWrite_wf _ _ _ h.1, h.2⟩
  · exact fun t ha d h => ⟨h.1, memWrite_wf _ _ _ h.2⟩

/-- A latch changes the context's fault fields only, and those only if it held no fault; a failed tag check counts in INTEG (R212,
R221). -/
theorem latchFault_frame (c : Fin 9) (addr cause : Nat) (s : State) :
    latchFault c addr cause s = { s with mem := { s.mem with ctx := (latchFault c addr cause s).mem.ctx } } ∧
    (∀ d : Fin 9, d ≠ c → (latchFault c addr cause s).mem.ctx[d] = s.mem.ctx[d]) ∧
    (latchFault c addr cause s).mem.ctx[c] =
      if cause = tagCause then { s.mem.ctx[c] with integ := satInc 32 s.mem.ctx[c].integ }
      else if s.mem.ctx[c].faultValid = true then s.mem.ctx[c]
      else { s.mem.ctx[c] with faultValid := true, faultAddr := addr % 2 ^ 48, faultCause := cause } := by
  unfold latchFault
  split
  · exact ⟨rfl, fun d hd => upd_other _ _ _ _ hd, upd_same _ _ _⟩
  · exact ⟨rfl, fun d hd => upd_other _ _ _ _ hd, upd_same _ _ _⟩

theorem latchIf_frame (c : Fin 9) (f : MemFault) (s : State) :
    latchIf c f s = { s with mem := { s.mem with ctx := (latchIf c f s).mem.ctx } } ∧
    ∀ d : Fin 9, d ≠ c → (latchIf c f s).mem.ctx[d] = s.mem.ctx[d] := by
  cases f with
  | none => exact ⟨rfl, fun _ _ => rfl⟩
  | some x => exact ⟨(latchFault_frame c x.1 x.2 s).1, fun d hd => (latchFault_frame c x.1 x.2 s).2.1 d hd⟩

end Sys2Proof.Machine
end

