-- ==== Sys2Proof/Laws/Code.lean ====
section
/-!
SUPPORT. What code on a hart can do, whatever its instructions are: the core keeps its kind, its mode and its clocks, and its
memory keeps every property that stores within the memory which user code reaches keep. So memory stays canonical, and no byte
outside that memory changes.
-/
namespace Sys2Proof.Machine

/-- What no instruction changes: the kind of core, ct_mode, mtime, the time taken in ct_mode. -/
def Core.fixed (c : Core) : Bool × Bool × W64 × W64 := (c.cham, c.ct, c.mtime, c.ctTime)
/-- That and the memory, which only stores change. -/
def Core.env (c : Core) : Mem × Bool × Bool × W64 × W64 := (c.mem, c.fixed)

@[simp] theorem setX_env (r : Reg) (v : W64) (c : Core) : (c.setX r v).env = c.env := rfl
@[simp] theorem setF_env (dbl : Bool) (r : Reg) (v : FpRes) (c : Core) : (c.setF dbl r v).env = c.env := rfl
@[simp] theorem freeBytes_env (n : Nat) (c : Core) : (c.freeBytes n).2.env = c.env := rfl
@[simp] theorem put_fixed (a n v : Nat) (c : Core) : (c.put a n v).fixed = c.fixed := rfl
@[simp] theorem rvOk_core (c : Core) : (rvOk c).core = c := rfl
@[simp] theorem rvTrap_core (n : Nat) (v : W64) (c : Core) : (rvTrap n v c).core = c := rfl
@[simp] theorem rvIllegal_core (c : Core) : (rvIllegal c).core = c := rfl
@[simp] theorem enterTrap_env (t : RvTrap) (c : Core) : (enterTrap t c).env = c.env := rfl
@[simp] theorem rvRetire_mem (r : RvStep) (c : Core) (o : RvOut) : (rvRetire r c o).mem = o.core.mem := rfl

@[simp] theorem csrWrite_env (num x : Nat) (c : Core) : (c.csrWrite num x).env = c.env := by
  unfold Core.csrWrite
  split <;> rfl

/-! ### A property that stores within reach keep -/

/-- P is a property of memories that a store to bytes which a core with these fixed parts reaches keeps. -/
def KeptByStores (P : Mem → Prop) (f : Bool × Bool × W64 × W64) : Prop :=
  ∀ (c : Core) (a n v : Nat), c.fixed = f → c.reaches a n = true → P c.mem → P (c.put a n v).mem

/-- A core with these fixed parts and a memory with the property. -/
def Core.Has (P : Mem → Prop) (f : Bool × Bool × W64 × W64) (c : Core) : Prop := c.fixed = f ∧ P c.mem

theorem has_of_env {P : Mem → Prop} {f : Bool × Bool × W64 × W64} {c d : Core} (h : c.Has P f) (e : d.env = c.env) : d.Has P f := by
  have e' : d.mem = c.mem ∧ d.fixed = c.fixed := by simpa [Core.env] using e
  exact ⟨e'.2.trans h.1, e'.1 ▸ h.2⟩

theorem put_has {P : Mem → Prop} {f : Bool × Bool × W64 × W64} (hP : KeptByStores P f) (a n v : Nat) (c : Core)
    (r : c.reaches a n = true) (h : c.Has P f) : (c.put a n v).Has P f := ⟨h.1, hP c a n v h.1 r h.2⟩

/-- An access that does not trap lies within reach. -/
theorem reaches_of_accessTrap {c : Core} {store : Bool} {a size : Nat} (h : c.accessTrap store a size = none) :
    c.reaches a (2 ^ size) = true := by
  unfold Core.accessTrap at h
  split at h
  · cases h
  · split at h
    · assumption
    · cases h

theorem vIf_env (ok : Bool) (c k : Core) (h : k.env = c.env) : (vIf ok c k).core.env = c.env := by
  unfold vIf
  split
  · exact h
  · rfl

theorem vFloat_env (ok : Bool) (c : Core) (k : Rnd → Core) (h : ∀ r, (k r).env = c.env) : (vFloat ok c k).core.env = c.env := by
  unfold vFloat
  split
  · exact vIf_env _ _ _ (h _)
  · rfl

@[simp] theorem vApply_env (vd : Reg) (w : Nat) (is : List Nat) (f : Nat → VEl) (c : Core) : (vApply vd w is f c).env = c.env := by
  simp only [vApply]
  exact foldl_keeps (fun d : Core => d.env = c.env) _ (fun _ _ h => by exact h) is c rfl

@[simp] theorem vMap_env (vm : Bool) (vd : Reg) (w : Nat) (f : Nat → VEl) (c : Core) : (vMap vm vd w f c).env = c.env :=
  vApply_env _ _ _ _ _

theorem vReduce_env (ok vm : Bool) (vd vs2 vs1 : Reg) (w rw : Nat) (f : VEl → Nat → VEl) (c : Core) :
    (vReduce ok vm vd vs2 vs1 w rw f c).core.env = c.env := by
  refine vIf_env _ _ _ ?_
  split
  · rfl
  · exact vApply_env _ _ _ _ _

theorem rounding_env (rm : Nat) (c : Core) (k : Rnd → Core) (h : ∀ r, (k r).env = c.env) : (rounding rm c k).core.env = c.env := by
  unfold rounding
  split
  · exact h _
  · rfl

theorem loaded_env (c : Core) (a size : Nat) (k : Nat → Core → Core) (h : ∀ v d, (k v d).env = d.env) :
    (c.loaded a size k).core.env = c.env := by
  unfold Core.loaded
  split
  · exact h _ _
  · split
    · rfl
    · exact h _ _

theorem storing_has {P : Mem → Prop} {f : Bool × Bool × W64 × W64} (hP : KeptByStores P f) (c : Core) (a size v : Nat)
    (h : c.Has P f) : (c.storing a size v).core.Has P f := by
  unfold Core.storing
  split
  · exact h
  · split
    · exact h
    · rename_i e
      exact put_has hP _ _ _ _ (reaches_of_accessTrap e) h

theorem rvCsr_env (op : CsrOp) (rd : Reg) (num : Nat) (src : Src) (cclk : Nat) (c : Core) :
    (rvCsr op rd num src cclk c).core.env = c.env := by
  unfold rvCsr
  split
  · rfl
  · split
    · split
      · rfl
      · simp
    · rfl

theorem rvLr_env (dbl : Bool) (rd rs1 : Reg) (c : Core) : (rvLr dbl rd rs1 c).core.env = c.env := by
  simp only [rvLr]
  split <;> rfl

theorem rvSc_has {P : Mem → Prop} {f : Bool × Bool × W64 × W64} (hP : KeptByStores P f) (dbl : Bool) (rd rs1 rs2 : Reg) (c : Core)
    (h : c.Has P f) : (rvSc dbl rd rs1 rs2 c).core.Has P f := by
  simp only [rvSc]
  split
  · exact h
  · rename_i e
    refine has_of_env ?_ (setX_env _ _ _)
    split
    · exact put_has hP _ _ _ _ (reaches_of_accessTrap e) h
    · exact h

theorem rvAmo_has {P : Mem → Prop} {f : Bool × Bool × W64 × W64} (hP : KeptByStores P f) (op : AmoOp) (dbl : Bool)
    (rd rs1 rs2 : Reg) (c : Core) (h : c.Has P f) : (rvAmo op dbl rd rs1 rs2 c).core.Has P f := by
  simp only [rvAmo]
  split
  · exact h
  · rename_i e
    exact has_of_env (put_has hP _ _ _ _ (reaches_of_accessTrap e) h) (setX_env _ _ _)

theorem rvEcall_env (served : Bool) (c : Core) : (rvEcall served c).core.env = c.env := by
  unfold rvEcall
  split <;> rfl

theorem rvF2_env (op : F2Op) (dbl : Bool) (rm : Nat) (rd rs1 rs2 : Reg) (c : Core) :
    (rvF2 op dbl rm rd rs1 rs2 c).core.env = c.env := by
  simp only [rvF2]
  split
  · exact rounding_env _ _ _ fun _ => rfl
  · rfl

/-- A scalar instruction. -/
theorem scalarExec_has {P : Mem → Prop} {f : Bool × Bool × W64 × W64} (hP : KeptByStores P f) (len : Nat) (i : Rv) (c : Core)
    (h : c.Has P f) : (scalarExec len i c).core.Has P f := by
  have keep : ∀ {o : RvOut}, o.core.env = c.env → o.core.Has P f := fun e => has_of_env h e
  cases i with
  | load size uns rd rs1 ofs => exact keep (loaded_env _ _ _ _ fun _ _ => rfl)
  | fload dbl rd rs1 ofs => exact keep (loaded_env _ _ _ _ fun _ _ => rfl)
  | store size rs2 rs1 ofs => exact storing_has hP _ _ _ _ h
  | fstore dbl rs2 rs1 ofs => exact storing_has hP _ _ _ _ h
  | lr dbl rd rs1 => exact keep (rvLr_env _ _ _ _)
  | sc dbl rd rs1 rs2 => exact rvSc_has hP _ _ _ _ _ h
  | amo op dbl rd rs1 rs2 => exact rvAmo_has hP _ _ _ _ _ _ h
  | ecall served => exact keep (rvEcall_env _ _)
  | csr op rd num src cclk => exact keep (rvCsr_env _ _ _ _ _ _)
  | f2 op dbl rm rd rs1 rs2 => exact keep (rvF2_env _ _ _ _ _ _ _)
  | fsqrt dbl rm rd rs1 => exact keep (rounding_env _ _ _ fun _ => rfl)
  | fma op dbl rm rd rs1 rs2 rs3 => exact keep (rounding_env _ _ _ fun _ => rfl)
  | fToInt dbl rm ty rd rs1 => exact keep (rounding_env _ _ _ fun _ => rfl)
  | fFromInt dbl rm ty rd rs1 => exact keep (rounding_env _ _ _ fun _ => rfl)
  | fcvt dbl rm rd rs1 => exact keep (rounding_env _ _ _ fun _ => rfl)
  | _ => exact h

/-- A width in bits of 8, 16, 32 or 64 names that many bytes. -/
theorem pow_log2_width (k : Nat) : 2 ^ (8 * 2 ^ k / 8).log2 = 8 * 2 ^ k / 8 := by
  rw [Nat.mul_div_cancel_left _ (by decide), Nat.log2_two_pow]

/-- The element width of a vector access is a power of two bytes. -/
theorem vAccess_width (mode : VAddr) (size nf : Nat) (vm store : Bool) (vd : Reg) (v : VecUnit) :
    ∃ k, (vAccess mode size nf vm store vd v).w = 8 * 2 ^ k := by
  cases mode with
  | mask => exact ⟨0, rfl⟩
  | indexed vs2 => exact ⟨bits v.vtype 5 3, rfl⟩
  | _ => exact ⟨size, rfl⟩

theorem vFields_has {P : Mem → Prop} {f : Bool × Bool × W64 × W64} (hP : KeptByStores P f) (store : Bool) (vd : Reg) (regs w i : Nat)
    (hw : 2 ^ (w / 8).log2 = w / 8) (addr : Nat → Nat) (ks : List Nat) (c : Core) (h : c.Has P f) :
    (vFields store vd regs w i addr ks c).1.Has P f := by
  induction ks generalizing c with
  | nil => exact h
  | cons k ks ih =>
    simp only [vFields]
    split
    · exact h
    · rename_i e
      apply ih
      split
      · exact put_has hP _ _ _ _ (hw ▸ reaches_of_accessTrap e) h
      · exact h

theorem vElements_has {P : Mem → Prop} {f : Bool × Bool × W64 × W64} (hP : KeptByStores P f) (store first : Bool) (vd : Reg)
    (regs w nf : Nat) (hw : 2 ^ (w / 8).log2 = w / 8) (addr : Nat → Nat → Nat) (is : List Nat) (c : Core) (h : c.Has P f) :
    (vElements store first vd regs w nf addr is c).core.Has P f := by
  induction is generalizing c with
  | nil => exact h
  | cons i is ih =>
    have hf := vFields_has hP store vd regs w i hw (addr i) (List.range nf) c h
    simp only [vElements]
    split
    · exact ih _ hf
    · split
      · exact h
      · exact hf

theorem vSet_env (rd : Reg) (avl : Avl) (vtype : Src) (c : Core) : (vSet rd avl vtype c).core.env = c.env := by
  simp only [vSet]
  split <;> rfl

theorem vCarry_env (op : VcarryOp) (withMask : Bool) (vd vs2 : Reg) (src : VSrc) (c : Core) :
    (vCarry op withMask vd vs2 src c).core.env = c.env := by
  cases op <;> exact vIf_env _ _ _ (vMap_env _ _ _ _ _)

theorem vSlide_env (up vm : Bool) (vd vs2 : Reg) (src : Src) (c : Core) : (vSlide up vm vd vs2 src c).core.env = c.env := by
  cases up
  · exact vIf_env _ _ _ (vMap_env _ _ _ _ _)
  · exact vIf_env _ _ _ (vApply_env _ _ _ _ _)

theorem vFred_env (op : VfredOp) (vm : Bool) (vd vs2 vs1 : Reg) (c : Core) : (vFred op vm vd vs2 vs1 c).core.env = c.env := by
  unfold vFred
  split
  · rfl
  · exact vReduce_env _ _ _ _ _ _ _ _ _

/-- A vector instruction. -/
theorem vectorExec_has {P : Mem → Prop} {f : Bool × Bool × W64 × W64} (hP : KeptByStores P f) (i : Rv) (c : Core) (h : c.Has P f) :
    (vectorExec i c).core.Has P f := by
  have keep : ∀ {o : RvOut}, o.core.env = c.env → o.core.Has P f := fun e => has_of_env h e
  have memory : ∀ store mode size nf vm vd rs1, (vMemory store mode size nf vm vd rs1 c).core.Has P f := by
    intro store mode size nf vm vd rs1
    simp only [vMemory]
    split
    · obtain ⟨k, hk⟩ := vAccess_width mode size nf vm store vd c.vec
      exact vElements_has hP _ _ _ _ _ _ (by rw [hk]; exact pow_log2_width k) _ _ _ h
    · exact h
  have map : ∀ ok vm vd w g, (vIf ok c (vMap vm vd w g c)).core.Has P f :=
    fun _ _ _ _ _ => keep (vIf_env _ _ _ (vMap_env _ _ _ _ _))
  have apply_ : ∀ ok vd w is g, (vIf ok c (vApply vd w is g c)).core.Has P f :=
    fun _ _ _ _ _ => keep (vIf_env _ _ _ (vApply_env _ _ _ _ _))
  have float : ∀ ok vm vd w (g : Rnd → Nat → VEl), (vFloat ok c fun r => vMap vm vd w (g r) c).core.Has P f :=
    fun _ _ _ _ _ => keep (vFloat_env _ _ _ fun _ => vMap_env _ _ _ _ _)
  cases i with
  | vset rd avl vtype => exact keep (vSet_env _ _ _ _)
  | vload mode size nf vm vd rs1 => exact memory _ _ _ _ _ _ _
  | vstore mode size nf vm vs3 rs1 => exact memory _ _ _ _ _ _ _
  | vint op vm vd vs2 src => exact map _ _ _ _ _
  | vcmp op vm vd vs2 src => exact map _ _ _ _ _
  | vcarry op withMask vd vs2 src => exact keep (vCarry_env _ _ _ _ _ _)
  | vmerge vd vs2 src => exact map _ _ _ _ _
  | vmv vd src => exact map _ _ _ _ _
  | vwide op vm wideVs2 vd vs2 src => exact map _ _ _ _ _
  | vnarrow op vm vd vs2 src => exact map _ _ _ _ _
  | vext signed log vm vd vs2 => exact map _ _ _ _ _
  | vred op vm vd vs2 vs1 => exact keep (vReduce_env _ _ _ _ _ _ _ _ _)
  | vmask op vd vs2 vs1 => exact map _ _ _ _ _
  | vcpop vm rd vs2 => exact keep (vIf_env _ _ _ rfl)
  | vfirst vm rd vs2 => exact keep (vIf_env _ _ _ rfl)
  | vmset op vm vd vs2 => exact map _ _ _ _ _
  | viota vm vd vs2 => exact map _ _ _ _ _
  | vid vm vd => exact map _ _ _ _ _
  | vmvXS rd vs2 => exact keep (vIf_env _ _ _ rfl)
  | vmvSX vd rs1 => exact apply_ _ _ _ _ _
  | vfmvFS rd vs2 => exact keep (vIf_env _ _ _ rfl)
  | vfmvSF vd rs1 => exact apply_ _ _ _ _ _
  | vslide up vm vd vs2 src => exact keep (vSlide_env _ _ _ _ _ _)
  | vslide1 up vm vd vs2 src => exact map _ _ _ _ _
  | vgather ei16 vm vd vs2 src => exact map _ _ _ _ _
  | vcompress vd vs2 vs1 => exact apply_ _ _ _ _ _
  | vmvr log vd vs2 => exact apply_ _ _ _ _ _
  | vfp op vm vd vs2 src => exact float _ _ _ _ _
  | vfcmp op vm vd vs2 src => exact float _ _ _ _ _
  | vf1 op vm vd vs2 => exact float _ _ _ _ _
  | vfcvt op w vm vd vs2 => exact float _ _ _ _ _
  | vfwide op vm wideVs2 vd vs2 src => exact float _ _ _ _ _
  | vfred op vm vd vs2 vs1 => exact keep (vFred_env _ _ _ _ _ _)
  | _ => exact h

/-- One instruction of code. -/
theorem rvAttempt_has {P : Mem → Prop} {f : Bool × Bool × W64 × W64} (hP : KeptByStores P f) (r : RvStep) (c : Core)
    (h : c.Has P f) : (rvAttempt r c).core.Has P f := by
  unfold rvAttempt
  split
  · exact h
  · split
    · exact h
    · unfold rvExec
      split
      · exact scalarExec_has hP _ _ _ h
      · split
        · exact vectorExec_has hP _ _ h
        · exact h

/-- An instruction changes none of the fixed parts. -/
theorem rvAttempt_fixed (r : RvStep) (c : Core) : (rvAttempt r c).core.fixed = c.fixed :=
  (rvAttempt_has (P := fun _ => True) (fun _ _ _ _ _ _ _ => trivial) r c ⟨rfl, trivial⟩).1

/-- Stores of a kind of core keep a property: that core's kind decides what it reaches. -/
def KeptByKind (P : Mem → Prop) (cham : Bool) : Prop :=
  ∀ (c : Core) (a n v : Nat), c.cham = cham → c.reaches a n = true → P c.mem → P (c.put a n v).mem

theorem KeptByKind.fixed {P : Mem → Prop} {cham : Bool} (hP : KeptByKind P cham) (f : Bool × Bool × W64 × W64) (hf : f.1 = cham) :
    KeptByStores P f := fun c a n v e => hP c a n v ((congrArg Prod.fst e).trans hf)

theorem rvRetire_cham (r : RvStep) (c : Core) : (rvRetire r c (rvAttempt r c)).cham = c.cham :=
  congrArg Prod.fst (rvAttempt_fixed r c)

/-- Code keeps what stores of its core's kind keep. -/
theorem runCode_keeps (P : Mem → Prop) (l : List RvStep) (c : Core) (hP : KeptByKind P c.cham) (h : P c.mem) : P (runCode l c).1.mem := by
  induction l generalizing c with
  | nil => exact h
  | cons r rs ih =>
    have ho := (rvAttempt_has (hP.fixed c.fixed rfl) r c ⟨rfl, h⟩).2
    simp only [runCode]
    split
    · exact ho
    · exact ih _ (by rw [rvRetire_cham]; exact hP) ho

/-- Code keeps the memory that it reaches canonical. -/
theorem runCode_wf (l : List RvStep) (c : Core) (h : Memory.wf c.mem = true) : Memory.wf (runCode l c).1.mem = true :=
  runCode_keeps (fun m => Memory.wf m = true) l c (fun _ _ _ _ _ _ h => memWrite_wf _ _ _ h) h

end Sys2Proof.Machine
end

