-- ==== Sys2Proof/Laws/Ops.lean ====
section
/-!
SUPPORT. What the shared operations of Machine/Ops.lean can do: how a job is found after a change, what keeps a property
that each elementary change keeps, and the parts of the state that stopping and completing a job, and what follows of
itself, leave alone.
-/
namespace Sys2Proof.Machine

/-! ### Finding a job -/

theorem findJob_modJob (s : State) (k k' : JobRef) (f : Job → Job) (hf : ∀ j, (f j).ref = j.ref) :
    findJob (modJob k f s) k' = (findJob s k').map fun j => if j.ref == k then f j else j := by
  simp only [findJob, modJob_jobs, List.find?_map]
  congr 2
  funext j
  simp only [Function.comp_apply]
  split <;> simp [hf]

theorem findJob_ref (s : State) (k : JobRef) (j : Job) (h : findJob s k = some j) : j.ref = k := by
  simpa using List.find?_some h

theorem findJob_modJob_same (s : State) (k : JobRef) (f : Job → Job) (hf : ∀ j, (f j).ref = j.ref) (j : Job)
    (h : findJob s k = some j) : findJob (modJob k f s) k = some (f j) := by
  simp [findJob_modJob s k k f hf, h, findJob_ref s k j h]

theorem findJob_modJob_other (s : State) (k k' : JobRef) (f : Job → Job) (hf : ∀ j, (f j).ref = j.ref) (hk : k' ≠ k) :
    findJob (modJob k f s) k' = findJob s k' := by
  rw [findJob_modJob s k k' f hf]
  cases h : findJob s k' with
  | none => rfl
  | some j => simp [findJob_ref s k' j h, hk]

@[simp] theorem findJob_dropJob_same (s : State) (k : JobRef) : findJob (dropJob k s) k = none := by
  simp [findJob, dropJob_jobs, List.find?_eq_none]

theorem findJob_dropJob_other (s : State) (k k' : JobRef) (hk : k' ≠ k) : findJob (dropJob k s) k' = findJob s k' := by
  simp only [findJob, dropJob_jobs, List.find?_filter]
  congr 1
  funext j
  by_cases h : j.ref = k' <;> simp [h, hk]

theorem mem_jobs_modJob (s : State) (k : JobRef) (f : Job → Job) (j : Job) (h : j.ref ≠ k) (hf : ∀ j, (f j).ref = j.ref) :
    j ∈ (modJob k f s).jobs ↔ j ∈ s.jobs := by
  simp only [modJob_jobs, List.mem_map]
  constructor
  · rintro ⟨i, hi, rfl⟩
    split at h
    · rename_i he; simp_all
    · rw [if_neg ‹_›]; exact hi
  · intro hj; exact ⟨j, hj, by simp [h]⟩

/-! ### Keeping a property -/

/-- What every element's change keeps, the changes in turn keep. -/
theorem forEach_keeps {α : Type} (P : State → Prop) (l : List α) (f : α → State → State) (hf : ∀ a ∈ l, ∀ s, P s → P (f a s))
    (s : State) (hs : P s) : P (forEach l f s) := by
  induction l generalizing s with
  | nil => exact hs
  | cons a l ih => exact ih (fun b hb => hf b (List.mem_cons_of_mem _ hb)) _ (hf a List.mem_cons_self s hs)

@[simp] theorem forEach_nil {α : Type} (f : α → State → State) (s : State) : forEach [] f s = s := rfl
@[simp] theorem forEach_cons {α : Type} (a : α) (l : List α) (f : α → State → State) (s : State) :
    forEach (a :: l) f s = forEach l f (f a s) := rfl

/-- The elementary changes that ending jobs, writing records and releasing waits are made of: a property that each of them
keeps is kept by all of that. -/
structure KeptByEnds (P : State → Prop) : Prop where
  jobs : ∀ s l, P s → P { s with jobs := l }
  que : ∀ s v, P s → P { s with que := v }
  evt : ∀ s v, P s → P { s with evt := v }
  err : ∀ s v, P s → P { s with err := v }
  msix : ∀ s l, P s → P { s with out := { s.out with msix := l } }
  ctx : ∀ s v, P s → P { s with mem := { s.mem with ctx := v } }
  phys : ∀ s pa d, P s → P { s with mem := physWrite s.mem pa d }
  host : ∀ s ha d, P s → P { s with pcie := { s.pcie with host := memWrite s.pcie.host ha d } }
  shadow : ∀ s n, P s → P (modTickJob n (fun t => { t with shadow := none }) s)
  purge : ∀ s k, P s → P (purgeJob k s)

section
variable {P : State → Prop} (K : KeptByEnds P)
include K

theorem keeps_modJob (k : JobRef) (f : Job → Job) (s : State) (h : P s) : P (modJob k f s) := K.jobs s _ h
theorem keeps_dropJob (k : JobRef) (s : State) (h : P s) : P (dropJob k s) := K.jobs s _ h
theorem keeps_modQue (i : Fin 33) (f : Queue → Queue) (s : State) (h : P s) : P (modQue i f s) := K.que s _ h
theorem keeps_modPkt (i : Fin 33) (pos : W32) (f : Pkt → Pkt) (s : State) (h : P s) : P (modPkt i pos f s) := K.que s _ h
theorem keeps_decide (i : Fin 33) (pos : W32) (d : Done) (s : State) (h : P s) : P (decide' i pos d s) := K.que s _ h
theorem keeps_modEvt (n : Fin 8) (f : EvtRgn → EvtRgn) (s : State) (h : P s) : P (modEvt n f s) := K.evt s _ h
theorem keeps_modErr (f : ErrState → ErrState) (s : State) (h : P s) : P (modErr f s) := K.err s _ h
theorem keeps_sendMsix (fn : Fin 9) (v : Nat) (s : State) (h : P s) : P (sendMsix fn v s) := K.msix s _ h
theorem keeps_logRegion (n : Fin 8) (r : ErrRec) (s : State) (h : P s) : P (logRegion n r s) := K.err s _ h
theorem keeps_logDevice (r : ErrRec) (s : State) (h : P s) : P (logDevice r s) := K.err s _ h
theorem keeps_modEvent (n : Fin 8) (e : Nat) (f : Event → Event) (s : State) (h : P s) : P (modEvent n e f s) := K.evt s _ h
theorem keeps_recordEvent (n : Fin 8) (e : Nat) (s : State) (h : P s) : P (recordEvent n e s) := K.evt s _ h
theorem keeps_endEvent (n : Fin 8) (e g : Nat) (st : EState) (s : State) (h : P s) : P (endEvent n e g st s) := K.evt s _ h
theorem keeps_cancelEvent (n : Fin 8) (e : Nat) (s : State) (h : P s) : P (cancelEvent n e s) :=
  keeps_endEvent K _ _ _ _ _ (keeps_recordEvent K _ _ _ h)
theorem keeps_raiseFence (n : Fin 8) (f : Nat) (v : W64) (s : State) (h : P s) : P (raiseFence n f v s) := K.evt s _ h

theorem keeps_dropArm (n : Fin 8) (a : Arm) (s : State) (h : P s) : P (dropArm n a s) := by
  unfold dropArm; split
  · exact keeps_cancelEvent K _ _ _ h
  · exact h

theorem keeps_modLock (n : Fin 8) (l : Nat) (f : LockReg → LockReg) (s : State) (h : P s) : P (modLock n l f s) := by
  unfold modLock; split
  · exact K.evt s _ h
  · exact K.evt s _ h

theorem keeps_setLockCw (k : JobRef) (b : Bool) (s : State) (h : P s) : P (setLockCw k b s) := K.jobs s _ h

theorem keeps_unlockLock (n : Fin 8) (l : Nat) (s : State) (h : P s) : P (unlockLock n l s) := by
  simp only [unlockLock]; split
  · exact keeps_setLockCw K _ _ _ (keeps_modLock K _ _ _ _ h)
  · exact keeps_modLock K _ _ _ _ h

theorem keeps_breakLock (n : Fin 8) (l : Nat) (s : State) (h : P s) : P (breakLock n l s) := by
  simp only [breakLock]; split
  · exact keeps_setLockCw K _ _ _ (keeps_modLock K _ _ _ _ h)
  · exact keeps_modLock K _ _ _ _ h

theorem keeps_leaveLocks (k : JobRef) (s : State) (h : P s) : P (leaveLocks k s) := K.evt _ _ (K.evt s _ h)

theorem keeps_breakLocks (k : JobRef) (s : State) (h : P s) : P (breakLocks k s) := by
  apply forEach_keeps P _ _ _ s h
  intro l _ s h
  split
  · exact keeps_breakLock K _ _ _ h
  · exact h

theorem keeps_latchIf (c : Fin 9) (f : MemFault) (s : State) (h : P s) : P (latchIf c f s) := by
  unfold latchIf; split
  · unfold latchFault; split
    · exact K.ctx s _ h
    · exact K.ctx s _ h
  · exact h

theorem keeps_writeDev (tile : Fin 24) (c : Fin 9) (a : Nat) (data : List Byte) (s : State) (h : P s) :
    P (writeDev tile c a data s).1 := writeDev_keeps P tile c a data s h K.phys K.host

theorem keeps_writeRecord (i : Fin 33) (p : Pkt) (d : Done) (s : State) (h : P s) : P (writeRecord i p d s) := by
  simp only [writeRecord]
  have hw : P (if s.que[i].cloc = true then writeHost (s.que[i].cbase.toNat + 32 * (s.que[i].cdone.toNat % 2 ^ s.que[i].csize))
      (recordBytes s.que[i] p d s.tick.tn) s else
      latchIf (qCtx i) (writeDev (queueTile s i) (qCtx i) (s.que[i].cbase.toNat + 32 * (s.que[i].cdone.toNat % 2 ^ s.que[i].csize))
        (recordBytes s.que[i] p d s.tick.tn) s).2
        (writeDev (queueTile s i) (qCtx i) (s.que[i].cbase.toNat + 32 * (s.que[i].cdone.toNat % 2 ^ s.que[i].csize))
        (recordBytes s.que[i] p d s.tick.tn) s).1) := by
    split
    · exact K.host s _ _ h
    · exact keeps_latchIf K _ _ _ (keeps_writeDev K _ _ _ _ _ h)
  split
  · exact keeps_sendMsix K _ _ _ (keeps_modQue K _ _ _ hw)
  · exact keeps_modQue K _ _ _ hw

theorem keeps_beginDrain (n : Fin 8) (s : State) (h : P s) : P (beginDrain n s) := by
  unfold beginDrain; split
  · split
    · exact keeps_modJob K _ _ _ h
    · exact h
  · exact h

/-- Stopping a job is made of elementary changes. -/
theorem keeps_stopJob (k : JobRef) (cause : Option (Nat × Nat)) (b : Option PktRef) (s : State) (h : P s) :
    P (stopJob k cause b s) := by
  simp only [stopJob]
  refine keeps_beginDrain K _ _ (keeps_modErr K _ _ (keeps_modJob K _ _ _ ?_))
  exact forEach_keeps P _ _ (fun a _ s h => keeps_dropArm K _ _ _ h) _ (keeps_leaveLocks K _ _ (K.purge _ _ h))

/-- A job-level error is made of elementary changes. -/
theorem keeps_jobError (k : JobRef) (e : Err) (site : Site) (s : State) (h : P s) : P (jobError k e site s) := by
  unfold jobError; split
  · exact h
  · simp only
    split
    · exact keeps_stopJob K _ _ _ _ (keeps_logRegion K _ _ _ h)
    · exact keeps_stopJob K _ _ _ _ (keeps_logRegion K _ _ _ h)
    · exact keeps_modJob K _ _ _ (keeps_logRegion K _ _ _ h)
    · exact keeps_logRegion K _ _ _ h
    · exact keeps_logRegion K _ _ _ h

theorem keeps_endDeferred (k : JobRef) (st : EState) (s : State) (h : P s) : P (endDeferred k st s) := by
  unfold endDeferred; split
  · exact h
  · refine keeps_modJob K _ _ _ (forEach_keeps P _ _ (fun d _ s h => ?_) _ h)
    split
    · exact keeps_endEvent K _ _ _ _ _ h
    · exact h
    · exact h

/-- Completing a job is made of elementary changes. -/
theorem keeps_completeJob (k : JobRef) (status : Nat) (s : State) (h : P s) : P (completeJob k status s) := by
  unfold completeJob; split
  · exact h
  · simp only
    refine keeps_beginDrain K _ _ (keeps_decide K _ _ _ _ (keeps_dropJob K _ _ (K.err _ _ (keeps_breakLocks K _ _
      (keeps_leaveLocks K _ _ ?_)))))
    split
    · exact h
    · exact keeps_endDeferred K _ _ _ h

theorem keeps_dropStaged (k : JobRef) (s : State) (h : P s) : P (dropStaged k s) := by
  unfold dropStaged; split
  · split
    · exact h
    · split
      · exact K.shadow _ _ (keeps_dropJob K _ _ h)
      · exact keeps_dropJob K _ _ h
  · exact h

theorem keeps_releaseWord (s t : State) (j : Job) (h : P s) (ht : releaseWord s j = some t) : P t := by
  unfold releaseWord at ht
  split at ht
  · cases ht
  · split at ht
    · split at ht
      · cases ht
      · cases ht; exact keeps_modJob K _ _ _ h
    · split at ht
      · cases ht
      · cases ht; exact keeps_modJob K _ _ _ h
    · split at ht
      · cases ht; exact keeps_modJob K _ _ _ h
      · cases ht
    · split at ht
      · cases ht
      · simp only at ht
        split at ht
        · cases ht; exact keeps_jobError K _ _ _ _ (keeps_modJob K _ _ _ h)
        · cases ht; exact keeps_modJob K _ _ _ (keeps_modJob K _ _ _ h)
    · cases ht
    · cases ht
    · cases ht

theorem keeps_latchArms (s t : State) (j : Job) (h : P s) (ht : latchArms s j = some t) : P t := by
  simp only [latchArms] at ht
  split at ht
  · cases ht; exact keeps_modJob K _ _ _ h
  · cases ht

theorem keeps_endArms (s t : State) (j : Job) (h : P s) (ht : endArms s j = some t) : P t := by
  unfold endArms at ht
  split at ht
  · cases ht
    exact keeps_modJob K _ _ _ (forEach_keeps P _ _ (fun a _ s h => keeps_dropArm K _ _ _ h) _ h)
  · cases ht

theorem keeps_jobSettles (s t : State) (j : Job) (h : P s) (ht : jobSettles s j = some t) : P t := by
  unfold jobSettles at ht
  cases h1 : releaseWord s j with
  | some x => simp only [h1, Option.orElse] at ht; cases ht; exact keeps_releaseWord K s _ j h h1
  | none =>
    simp only [h1, Option.orElse] at ht
    cases h2 : latchArms s j with
    | some x => simp only [h2] at ht; cases ht; exact keeps_latchArms K s _ j h h2
    | none =>
      simp only [h2] at ht
      cases h3 : endArms s j with
      | some x => simp only [h3] at ht; cases ht; exact keeps_endArms K s _ j h h3
      | none =>
        simp only [h3] at ht
        split at ht
        · cases ht; exact keeps_completeJob K _ _ _ (keeps_modJob K _ _ _ h)
        · cases ht

theorem keeps_recordSettles (n : Fin 8) (s t : State) (r : Nat × Nat × Fin 4 × W32) (h : P s)
    (ht : recordSettles n s r = some t) : P t := by
  simp only [recordSettles] at ht
  split at ht
  · cases ht; exact keeps_modEvt K _ _ _ (keeps_endEvent K _ _ _ _ _ h)
  · split at ht
    · cases ht; exact keeps_modEvt K _ _ _ (keeps_endEvent K _ _ _ _ _ h)
    · cases ht

theorem keeps_packetSettles (i : Fin 33) (p : Pkt) (s t : State) (h : P s) (ht : packetSettles i p s = some t) : P t := by
  simp only [packetSettles] at ht
  repeat' split at ht
  all_goals first
    | (cases ht; done)
    | (cases ht; exact keeps_decide K _ _ _ _ h)
    | (cases ht; exact keeps_decide K _ _ _ _ (keeps_cancelEvent K _ _ _ h))
    | (cases ht; exact keeps_decide K _ _ _ _ (keeps_dropStaged K _ _ h))

theorem keeps_queueSettles (i : Fin 33) (s t : State) (h : P s) (ht : queueSettles i s = some t) : P t := by
  simp only [queueSettles] at ht
  repeat' split at ht
  all_goals first
    | (cases ht; done)
    | (cases ht; exact keeps_writeRecord K _ _ _ _ h)
    | exact keeps_packetSettles K _ _ _ _ h ht

theorem keeps_regionSettles (n : Fin 8) (s t : State) (h : P s) (ht : regionSettles n s = some t) : P t := by
  unfold regionSettles at ht
  cases h1 : (s.evt.rgn[n]).records.findSome? (recordSettles n s) with
  | some x =>
    simp only [h1, Option.orElse] at ht
    cases ht
    obtain ⟨r, -, hr⟩ := List.exists_of_findSome?_eq_some h1
    exact keeps_recordSettles K n s _ r h hr
  | none =>
    simp only [h1, Option.orElse] at ht
    cases h2 : (allFin 4).findSome? fun q => queueSettles (qIndex n q) s with
    | some x =>
      simp only [h2] at ht
      cases ht
      obtain ⟨q, -, hq⟩ := List.exists_of_findSome?_eq_some h2
      exact keeps_queueSettles K _ s _ h hq
    | none =>
      simp only [h2] at ht
      obtain ⟨j, -, hj⟩ := List.exists_of_findSome?_eq_some ht
      split at hj
      · exact keeps_jobSettles K s _ j h hj
      · unfold lockSettles at hj
        split at hj
        · split at hj
          · exact keeps_releaseWord K s _ j h hj
          · cases hj
        · cases hj

/-- What follows of itself in a region is made of elementary changes. -/
theorem keeps_settle (n : Fin 8) (s : State) (h : P s) : P (settle n s) := by
  unfold settle
  generalize 96 = k
  induction k generalizing s with
  | zero => exact h
  | succ k ih =>
    unfold settleUpTo
    split
    · exact ih _ (keeps_regionSettles K n s _ h ‹_›)
    · exact h

/-- What the maintenance queue does of itself is made of elementary changes. -/
theorem keeps_settleMaint (s : State) (h : P s) : P (settleMaint s) := by
  unfold settleMaint
  generalize 16 = k
  induction k generalizing s with
  | zero => exact h
  | succ k ih =>
    unfold settleMaintUpTo
    split
    · exact ih _ (keeps_queueSettles K _ s _ h ‹_›)
    · exact h

theorem keeps_settleQueue (i : Fin 33) (s : State) (h : P s) : P (settleQueue i s) := by
  unfold settleQueue; split
  · exact keeps_settle K _ _ h
  · exact keeps_settleMaint K _ h

theorem keeps_finish (i : Fin 33) (pos : W32) (st : Nat) (s : State) (h : P s) : P (finish i pos st s) :=
  keeps_settleQueue K _ _ (keeps_decide K _ _ _ _ h)

end

end Sys2Proof.Machine
end

