-- ==== Sys2Proof/Laws/Recovery.lean ====
section
/-!
SUPPORT. What ends work (Machine/Recovery.lean) can do: a property that each elementary change keeps is kept by writes to
destinations, kills, region-level and device-level errors, teardown and power withdrawal.
-/
namespace Sys2Proof.Machine

/-- The elementary changes that recovery is made of. A tile's change keeps its memory canonical. -/
structure KeptByRecovery (P : State → Prop) : Prop extends KeptByEnds P where
  rgn : ∀ s v, P s → P { s with rgn := v }
  tickRgn : ∀ s n f, P s → P (modTickRgn n f s)
  job : ∀ s n f, P s → P (modTickJob n f s)
  anl : ∀ s v, P s → P { s with anl := v }
  ring : ∀ s n f, P s → P (modRingRgn n f s)
  noise : ∀ s n f, P s → P (modNoiseRgn n f s)
  sec : ∀ s v, P s → P { s with sec := v }
  cp : ∀ s v, P s → P { s with mkh := { s.mkh with cp := v } }
  mesh : ∀ s v, P s → P { s with mesh := v }
  rim : ∀ s v, P s → P { s with rim := v }
  haly : ∀ s v, P s → P { s with haly := v }
  herd : ∀ s i f, (∀ x, Memory.wf x.mem = true → Memory.wf (f x).mem = true) →
    (∀ x, ((f x).key = x.key ∨ (f x).key = none)) → P s → P (modHerd i f s)
  ibex : ∀ s i f, (∀ x, Memory.wf x.mem = true → Memory.wf (f x).mem = true) → P s → P (modIbex i f s)
  cham : ∀ s i f, (∀ x, Memory.wf x.mem = true → Memory.wf (f x).mem = true) → P s → P (modCham i f s)
  kudu : ∀ s i f, (∀ x, Memory.wf x.mem = true → Memory.wf (f x).mem = true) → P s → P (modKudu i f s)
  pe : ∀ s v, P s → P { s with pe := v }
  eng : ∀ s v, P s → P { s with eng := v }
  put : ∀ s e f, (∀ m, Memory.wf m = true → Memory.wf (f m) = true) → P s → P (modLocal e f s)
  frame : ∀ s f o, P s → P { s with mem := giveFrame f o s.mem }
  tlb : ∀ s v, P s → P { s with mem := { s.mem with tlb := v } }
  free : ∀ s k, P s → P { s with free := k }

section
variable {P : State → Prop} (K : KeptByRecovery P)
include K

theorem keeps_modRgn (n : Fin 8) (f : Region → Region) (s : State) (h : P s) : P (modRgn n f s) := K.rgn s _ h
theorem keeps_modSecRgn (n : Fin 8) (f : SecRgn → SecRgn) (s : State) (h : P s) : P (modSecRgn n f s) := K.sec s _ h
theorem keeps_modAnl (n : Fin 8) (f : AnlRgn → AnlRgn) (s : State) (h : P s) : P (modAnl n f s) := K.anl s _ h
theorem keeps_modPe (e : Fin 4) (f : Pe → Pe) (s : State) (h : P s) : P (modPe e f s) := K.pe s _ h
theorem keeps_modEng (f : EngState → EngState) (s : State) (h : P s) : P (modEng f s) := K.eng s _ h
theorem keeps_modCtx (c : Fin 9) (f : MemCtx → MemCtx) (s : State) (h : P s) : P (modCtx c f s) := K.ctx s _ h
theorem keeps_useFree (n : Nat) (s : State) (h : P s) : P (useFree n s) := K.free s _ h

/-- Writing into a tile's local memory. -/
theorem keeps_localWrite (e : Eng) (a : Nat) (d : List Byte) (s : State) (h : P s) : P (localWrite e a d s) := by
  have around : ∀ lo hi m, Memory.wf m = true → Memory.wf (writeAround m lo hi a d) = true :=
    fun lo hi m hm => memWrite_wf _ _ _ (memWrite_wf _ _ _ hm)
  cases e with
  | herd i =>
    simp only [localWrite]
    split
    · split
      · exact K.tickRgn _ _ _ (K.put _ _ _ (around _ _) h)
      · exact K.put _ _ _ (around _ _) h
    · exact K.put _ _ _ (around _ _) h
  | kudu m => exact K.kudu _ _ _ (fun _ hm => memWrite_wf _ _ _ hm) h
  | ibex i => exact K.put s (.ibex i) (fun m => memWrite m a d) (fun _ hm => memWrite_wf _ _ _ hm) h
  | cham i => exact K.put s (.cham i) (fun m => memWrite m a d) (fun _ hm => memWrite_wf _ _ _ hm) h
  | pe p => exact h
  | dma => exact h

/-- A packet's write at its destination. -/
theorem keeps_landPacket (e : Eng) (p : MeshPacket) (s : State) (h : P s) : P (landPacket e p s) := by
  unfold landPacket
  split
  · exact h
  · split
    · exact keeps_localWrite K _ _ _ _ h
    · split
      · exact keeps_settle K.toKeptByEnds _ _ (keeps_jobError K.toKeptByEnds _ _ _ _ h)
      · exact h

/-- The packets that wait at a tile. -/
theorem keeps_serveHeld (x y : Nat) (s : State) (h : P s) : P (serveHeld x y s) := by
  unfold serveHeld
  refine forEach_keeps P _ _ (fun l _ s h => forEach_keeps P _ _ (fun vc _ s h => ?_) _ h) _ h
  simp only
  split
  · exact forEach_keeps P _ _ (fun p _ s h => keeps_landPacket K _ _ _ h) _ (K.mesh _ _ h)
  · exact K.mesh _ _ h

theorem keeps_dropSource (e : Eng) (s : State) (h : P s) : P (dropSource e s) := by
  unfold dropSource
  split
  · exact K.mesh _ _ h
  · exact h

/-- Writing to a destination. -/
theorem keeps_writeDst (e : Eng) (n : Fin 8) (d : Dst) (b : List Byte) (s : State) (h : P s) : P (writeDst e n d b s).1 := by
  unfold writeDst
  split
  · split
    · exact keeps_localWrite K _ _ _ _ h
    · exact h
  · exact keeps_writeDev K.toKeptByEnds _ _ _ _ _ h

theorem keeps_undefDst (e : Eng) (n : Fin 8) (d : Dst) (len : Nat) (s : State) (h : P s) : P (undefDst e n d len s) :=
  keeps_useFree K _ _ (keeps_writeDst K _ _ _ _ _ h)

/-- Abandoning what a unit executes. -/
theorem keeps_resetUnit (e : Eng) (s : State) (h : P s) : P (resetUnit e s) := by
  simp only [resetUnit]
  have hs : P (forEach (runningOn s e) (fun d s => forEach (openDsts s e d) (fun p s => undefDst e d.job.r p.1 p.2 s) s) s) :=
    forEach_keeps P _ _ (fun d _ s h => forEach_keeps P _ _ (fun p _ s h => keeps_undefDst K _ _ _ _ _ h) s h) s h
  replace hs := keeps_dropSource K e _ hs
  cases e with
  | herd i => exact K.herd _ _ _ (fun _ h => h) (fun _ => .inl rfl) hs
  | ibex i => exact keeps_serveHeld K _ _ _ (K.ibex _ _ _ (fun _ h => h) hs)
  | cham i => exact K.cham _ _ _ (fun _ h => h) hs
  | kudu m => exact K.kudu _ _ _ (fun _ h => h) hs
  | pe p => exact K.pe _ _ hs
  | dma => exact hs

/-- Scrubbing a unit. -/
theorem keeps_scrubUnit (e : Eng) (s : State) (h : P s) : P (scrubUnit e s) := by
  cases e with
  | herd i => exact K.herd _ _ _ (fun _ _ => rfl) (fun _ => .inr rfl) h
  | ibex i => exact K.ibex _ _ _ (fun _ _ => rfl) h
  | cham i => exact K.cham _ _ _ (fun _ _ => rfl) h
  | kudu m => exact K.kudu _ _ _ (fun _ _ => rfl) h
  | pe p => exact K.pe _ _ h
  | dma => exact h

theorem keeps_reloadUnit (e : Eng) (s : State) (h : P s) : P (reloadUnit e s) := by
  cases e with
  | cham i => exact K.cham _ _ _ (fun _ h => h) h
  | kudu m => exact K.kudu _ _ _ (fun _ hm => memWrite_wf _ _ _ hm) h
  | _ => exact h

theorem keeps_clearUnit (e : Eng) (s : State) (h : P s) : P (clearUnit e s) := by
  cases e with
  | herd i => exact K.herd _ _ _ (fun _ h => h) (fun _ => .inl rfl) h
  | ibex i => exact K.ibex _ _ _ (fun _ h => h) h
  | cham i => exact K.cham _ _ _ (fun _ h => h) h
  | kudu m => exact K.kudu _ _ _ (fun _ h => h) h
  | pe p => exact h
  | dma => exact h

/-- The end of ticking. -/
theorem keeps_endTicking (n : Fin 8) (s : State) (h : P s) : P (endTicking n s) := by
  simp only [endTicking]
  refine K.ring _ _ _ (K.noise _ _ _ (keeps_modAnl K _ _ _ ?_))
  refine forEach_keeps P _ _ (fun i _ s h => by exact K.ibex _ _ _ (fun _ h => h) h) _ ?_
  refine forEach_keeps P _ _ (fun i _ s h => by exact K.herd _ _ _ (fun _ h => h) (fun _ => .inl rfl) h) _ ?_
  exact K.job _ _ _ (K.tickRgn _ _ _ h)

theorem keeps_dropMerge (n : Fin 8) (s : State) (h : P s) : P (dropMerge n s) :=
  K.job _ _ _ (keeps_modAnl K _ _ _ (forEach_keeps P _ _ (fun m _ s h => by exact K.kudu _ _ _ (fun _ h => h) h) s h))

theorem keeps_dropReady (j : Job) (s : State) (h : P s) : P (dropReady j s) :=
  forEach_keeps P _ _ (fun _ _ _ h => keeps_dropArm K.toKeptByEnds _ _ _ h) s h

theorem keeps_scrubAll (es : List Eng) (s : State) (h : P s) : P (scrubAll es s) :=
  forEach_keeps P _ _ (fun _ _ _ h => keeps_reloadUnit K _ _ (keeps_scrubUnit K _ _ h)) s h

/-- A kill. -/
theorem keeps_killJob (k : JobRef) (scrub : Bool) (s : State) (h : P s) : P (killJob k scrub s) := by
  unfold killJob
  split
  · exact h
  · rename_i j _
    simp only
    have h1 := forEach_keeps P j.engines resetUnit (fun e _ s h => keeps_resetUnit K e s h) _
      (K.purge _ k (keeps_dropReady K j s h))
    revert h1
    generalize forEach j.engines resetUnit (purgeJob k (dropReady j s)) = t
    intro h1
    have h2 := forEach_keeps P (t.eng.dmaRunning.filter fun d => d.job == k) (fun d s =>
      forEach (openDsts s .dma d) (fun p s => undefDst .dma d.job.r p.1 p.2 s) s)
      (fun d _ s h => forEach_keeps P _ _ (fun p _ s h => keeps_undefDst K _ _ _ _ _ h) s h) t h1
    have h3 := keeps_modEng K (fun x => { x with dmaRunning := x.dmaRunning.filter fun d => d.job != k }) _ h2
    revert h3
    generalize modEng (fun x => { x with dmaRunning := x.dmaRunning.filter fun d => d.job != k }) _ = u
    intro h3
    have h4 : P (if j.tick = true then dropMerge k.r (endTicking k.r u) else u) := by
      split
      · exact keeps_dropMerge K _ _ (keeps_endTicking K _ _ h3)
      · exact h3
    split
    · exact keeps_scrubAll K _ _ h4
    · exact h4

theorem keeps_killWith (k : JobRef) (scrub : Bool) (st : Nat) (s : State) (h : P s) : P (killWith k scrub st s) :=
  keeps_completeJob K.toKeptByEnds _ _ _ (keeps_killJob K _ _ _ h)

theorem keeps_dropHostPages (c : Fin 9) (s : State) (h : P s) : P (dropHostPages c s) := by
  simp only [dropHostPages]
  split
  · exact forEach_keeps P _ _ (fun x _ s h => K.phys s _ _ h) s h
  · exact keeps_modCtx K _ _ _ (forEach_keeps P _ _ (fun x _ s h => K.phys s _ _ h) s h)

/-- A TDI leaves its state. -/
theorem keeps_setTdi (n : Fin 8) (t : Tdi) (s : State) (h : P s) : P (setTdi n t s) := by
  simp only [setTdi]
  split
  · exact keeps_dropHostPages K _ _ (keeps_modSecRgn K _ _ _ h)
  · exact keeps_modSecRgn K _ _ _ h

theorem keeps_tdiError (n : Fin 8) (s : State) (h : P s) : P (tdiError n s) := by
  simp only [tdiError]
  split
  · exact keeps_setTdi K _ _ _ h
  · exact h

theorem keeps_endRegionJobs (n : Fin 8) (own : Option (JobRef × Nat)) (s : State) (h : P s) : P (endRegionJobs n own s) := by
  simp only [endRegionJobs]
  split
  · exact forEach_keeps P _ _ (fun e _ s h => keeps_scrubUnit K _ _ h) _
      (forEach_keeps P _ _ (fun j _ s h => keeps_killWith K _ _ _ _ h) s h)
  · exact forEach_keeps P _ _ (fun j _ s h => keeps_killWith K _ _ _ _ h) s h

theorem keeps_haltRegion (n : Fin 8) (s : State) (h : P s) : P (haltRegion n s) := by
  simp only [haltRegion]
  have h1 := forEach_keeps P (startedJobs s n) (fun j t =>
    dropJob j.ref (breakLocks j.ref (leaveLocks j.ref (endDeferred j.ref .error (killJob j.ref (ctxSealed s (ctxOf n)) t)))))
    (fun j _ t h => keeps_dropJob K.toKeptByEnds _ _ (keeps_breakLocks K.toKeptByEnds _ _ (keeps_leaveLocks K.toKeptByEnds _ _
      (keeps_endDeferred K.toKeptByEnds _ _ _ (keeps_killJob K _ _ _ h))))) s h
  have h2 := K.jobs _ ((forEach (startedJobs s n) (fun j t =>
    dropJob j.ref (breakLocks j.ref (leaveLocks j.ref (endDeferred j.ref .error (killJob j.ref (ctxSealed s (ctxOf n)) t))))) s).jobs.filter
      fun j => j.ref.r != n) h1
  split
  · exact forEach_keeps P _ _ (fun e _ s h => keeps_scrubUnit K _ _ h) _
      (forEach_keeps P _ _ (fun e _ s h => keeps_resetUnit K _ _ h) _ h2)
  · exact forEach_keeps P _ _ (fun e _ s h => keeps_resetUnit K _ _ h) _ h2

theorem keeps_failMaint (op : Nat) (n : Fin 8) (st : Nat) (s : State) (h : P s) : P (failMaint op n st s) := by
  unfold failMaint
  split
  · split
    · exact keeps_decide K.toKeptByEnds _ _ _ _ h
    · exact h
  · exact h

theorem keeps_ownSave (n : Fin 8) (o : Nat) (s : State) (h : P s) : P (ownSave n o s) :=
  forEach_keeps P _ _ (fun _ _ _ h => K.frame _ _ _ h) s h

theorem keeps_giveUpSeal (n : Fin 8) (s : State) (h : P s) : P (giveUpSeal n s) := K.sec s _ h

/-- A region-level error opens the recovery of an OPEN or SEALED region. -/
theorem keeps_opensRecovery (n : Fin 8) (e : Err) (own : Option (JobRef × Nat)) (b st : RState) (t : State) (h : P t) :
    P (settleMaint (settle n (modRgn n (fun r =>
        if e = .cpOffline then { r with state := .disabled, recovery := 0 } else { r with state := .faulted })
        (let u := tdiError n (modRgn n (fun r => { r with before := b, recovery := 3 }) t)
         let u := if u.sec.rgn[n].sealing = true then giveUpSeal n (failMaint 0x42 n Status.regionFaulted u) else u
         let u := lapseOffer n u
         let u := if st = .sealed then ownSave n 8 u else u
         if e = .cpOffline then haltRegion n u else endRegionJobs n own u)))) := by
  simp only
  refine keeps_settleMaint K.toKeptByEnds _ (keeps_settle K.toKeptByEnds _ _ (keeps_modRgn K _ _ _ ?_))
  have h2 := keeps_tdiError K n _ (keeps_modRgn K n (fun r => { r with before := b, recovery := 3 }) _ h)
  revert h2
  generalize tdiError n (modRgn n (fun r => { r with before := b, recovery := 3 }) t) = u
  intro h2
  have h3 : P (lapseOffer n (if u.sec.rgn[n].sealing = true then giveUpSeal n (failMaint 0x42 n Status.regionFaulted u) else u)) := by
    refine keeps_modSecRgn K _ _ _ ?_
    split
    · exact keeps_giveUpSeal K _ _ (keeps_failMaint K _ _ _ _ h2)
    · exact h2
  revert h3
  generalize lapseOffer n (if u.sec.rgn[n].sealing = true then giveUpSeal n (failMaint 0x42 n Status.regionFaulted u) else u) = v
  intro h3
  have h4 : P (if st = .sealed then ownSave n 8 v else v) := by
    split
    · exact keeps_ownSave K _ _ _ h3
    · exact h3
  split
  · exact keeps_haltRegion K _ _ h4
  · exact keeps_endRegionJobs K _ _ _ h4

/-- A region-level error. -/
theorem keeps_regionError (n : Fin 8) (e : Err) (site : Site) (own : Option (JobRef × Nat)) (s : State) (h : P s) :
    P (regionError n e site own s) := by
  simp only [regionError]
  split
  · exact h
  · have h1 : ∀ entry, P (sendMsix (vfOf n) 0 (logRegion n entry s)) := fun entry =>
      keeps_sendMsix K.toKeptByEnds _ _ _ (keeps_logRegion K.toKeptByEnds _ _ _ h)
    split
    · split
      · exact keeps_modRgn K _ _ _ (h1 _)
      · exact h1 _
    · split
      · exact keeps_opensRecovery K n e own _ _ _ (h1 _)
      · exact keeps_opensRecovery K n e own _ _ _ (h1 _)
      · exact keeps_modRgn K _ _ _ (forEach_keeps P _ _ (fun e _ s h => keeps_resetUnit K _ _ h) _ (h1 _))
      all_goals exact h1 _

/-- What a memory access met is recorded. -/
theorem keeps_noteFault (n : Fin 8) (f : Nat × Nat) (site : Site) (s : State) (h : P s) : P (noteFault n f site s) := by
  have hl : P (latchFault (ctxOf n) f.1 f.2 s) := keeps_latchIf K.toKeptByEnds (ctxOf n) (some f) s h
  simp only [noteFault]
  split
  · exact keeps_regionError K _ _ _ _ _ hl
  · exact hl

theorem keeps_noteIf (c : Fin 9) (f : MemFault) (site : Site) (s : State) (h : P s) : P (noteIf c f site s) := by
  unfold noteIf
  split
  · exact h
  · split
    · exact keeps_noteFault K _ _ _ _ h
    · exact keeps_latchIf K.toKeptByEnds c (some _) s h

theorem keeps_memError (k : JobRef) (f : Nat × Nat) (site : Site) (s : State) (h : P s) : P (memError k f site s) := by
  have hl : P (latchFault (ctxOf k.r) f.1 f.2 s) := keeps_latchIf K.toKeptByEnds (ctxOf k.r) (some f) s h
  simp only [memError]
  split
  · exact keeps_regionError K _ _ _ _ _ hl
  · exact keeps_jobError K.toKeptByEnds _ _ _ _ hl

theorem keeps_walls (s : State) (m : MeshState) (g : RgnState) (r : RimState) (h : P s) :
    P { s with mesh := m, rgn := g, rim := r } := K.rim _ r (K.rgn _ g (K.mesh s m h))

theorem keeps_clearBuffers (n : Fin 8) (s : State) (h : P s) : P (clearBuffers n s) := by
  have h1 : P (mapLinks s.rgn.rgn[n] (fun l => { l with vc0 := [] }) s) := K.mesh s _ h
  revert h1
  simp only [clearBuffers]
  generalize mapLinks s.rgn.rgn[n] (fun l => { l with vc0 := [] }) s = u
  intro h1
  exact keeps_walls K u _ u.rgn _ h1

theorem keeps_closeWalls (n : Fin 8) (s : State) (h : P s) : P (closeWalls n s) := by
  simp only [closeWalls]
  have h1 := keeps_clearBuffers K n (mapLinks s.rgn.rgn[n] (fun l => { l with bank0 := [], bank1 := [], vc := [] }) s) (K.mesh s _ h)
  revert h1
  generalize clearBuffers n (mapLinks s.rgn.rgn[n] (fun l => { l with bank0 := [], bank1 := [], vc := [] }) s) = u
  intro h1
  exact keeps_walls K u _ _ _ h1

theorem keeps_freeFrames (n : Fin 8) (s : State) (h : P s) : P (freeFrames n s) :=
  forEach_keeps P _ _ (fun _ _ _ h => K.frame _ _ _ h) s h

theorem keeps_returnPe (e : Fin 4) (s : State) (h : P s) : P (returnPe e s) := K.pe _ _ (keeps_scrubUnit K (.pe e) s h)

/-- The freeing of a region. -/
theorem keeps_freeRegion (n : Fin 8) (s : State) (h : P s) : P (freeRegion n s) := by
  have h1 := forEach_keeps P
    (lentPes (forEach (regionUnits s.rgn.rgn[n]) (fun e s => clearUnit e (scrubUnit e s)) (closeWalls n s)) n)
    returnPe (fun e _ s h => keeps_returnPe K e s h) _
    (forEach_keeps P (regionUnits s.rgn.rgn[n]) (fun e s => clearUnit e (scrubUnit e s))
      (fun e _ s h => keeps_clearUnit K _ _ (keeps_scrubUnit K _ _ h)) _ (keeps_closeWalls K n s h))
  revert h1
  simp only [freeRegion]
  generalize forEach (lentPes (forEach (regionUnits s.rgn.rgn[n]) (fun e s => clearUnit e (scrubUnit e s)) (closeWalls n s)) n)
    returnPe (forEach (regionUnits s.rgn.rgn[n]) (fun e s => clearUnit e (scrubUnit e s)) (closeWalls n s)) = u
  intro h1
  refine keeps_modRgn K _ _ _ (K.job _ _ _ (keeps_modEng K _ _ (K.jobs _ _ ?_)))
  split
  · exact keeps_modSecRgn K _ _ _ (K.noise _ _ _ (K.tlb _ _ (keeps_modCtx K _ _ _ (keeps_freeFrames K _ _ h1))))
  · exact K.cp _ _ (keeps_modSecRgn K _ _ _ (K.noise _ _ _ (K.tlb _ _ (keeps_modCtx K _ _ _ (keeps_freeFrames K _ _ h1)))))

theorem keeps_quietRegion (n : Fin 8) (s : State) (h : P s) : P (quietRegion n s) := K.haly s _ h

/-- Steps 1-3 of a teardown. -/
theorem keeps_beginTeardown (n : Fin 8) (s : State) (h : P s) : P (beginTeardown n s) := by
  simp only [beginTeardown]
  refine keeps_settle K.toKeptByEnds _ _ (keeps_quietRegion K _ _ ?_)
  have h1 := K.jobs _ ((forEach (startedJobs (tdiError n (modRgn n (fun r => { r with tearingDown := true }) s)) n)
      (fun j => killWith j.ref (ctxSealed s (ctxOf n)) Status.cancelled)
      (tdiError n (modRgn n (fun r => { r with tearingDown := true }) s))).jobs.filter fun j => j.ref.r != n)
    (forEach_keeps P (startedJobs (tdiError n (modRgn n (fun r => { r with tearingDown := true }) s)) n)
      (fun j => killWith j.ref (ctxSealed s (ctxOf n)) Status.cancelled) (fun j _ s h => keeps_killWith K _ _ _ _ h)
      _ (keeps_tdiError K n _ (keeps_modRgn K n (fun r => { r with tearingDown := true }) s h)))
  split
  · exact h1
  · exact forEach_keeps P _ _ (fun q _ s h => forEach_keeps P _ _ (fun p _ s h => keeps_decide K.toKeptByEnds _ _ _ _ h) s h) _ h1

theorem keeps_creationFails (n : Fin 8) (st : Nat) (s : State) (h : P s) : P (creationFails n st s) := by
  simp only [creationFails]
  have h1 := keeps_modRgn K n (fun r => { r with byFlr := false, destroyWaits := false, flrWaits := false }) _
    (keeps_freeRegion K n s h)
  split
  · exact keeps_failMaint K _ _ _ _ h1
  · exact keeps_failMaint K _ _ _ _ h1

theorem keeps_settleAll (s : State) (h : P s) : P (settleAll s) :=
  keeps_settleMaint K.toKeptByEnds _ (forEach_keeps P _ _ (fun n _ s h => keeps_settle K.toKeptByEnds n s h) s h)

/-- A device-level error. -/
theorem keeps_deviceError (e : Err) (site : Site) (region stack : Nat) (s : State) (h : P s) :
    P (deviceError e site region stack s) := by
  simp only [deviceError]
  refine keeps_settleAll K _ (forEach_keeps P _ _ (fun j _ s h => ?_) _
    (keeps_sendMsix K.toKeptByEnds _ _ _ (keeps_logDevice K.toKeptByEnds _ _ (K.err _ _ h))))
  unfold endByDevice
  split
  · exact keeps_killWith K _ _ _ _ h
  · split
    · exact keeps_modJob K.toKeptByEnds _ _ _ h
    · exact keeps_stopJob K.toKeptByEnds _ _ _ _ h

/-- A withdrawal of power. -/
theorem keeps_withdraw (cause : Nat) (warned : Bool) (site : Site) (affected : List (Fin 8)) (s : State) (h : P s) :
    P (withdraw cause warned site affected s) := by
  simp only [withdraw]
  split
  · exact h
  · refine forEach_keeps P _ _ (fun n _ s h => ?_) _ (K.sec s _ h)
    simp only [withdrawRegion]
    refine keeps_settle K.toKeptByEnds _ _ (keeps_tdiError K _ _ (keeps_modSecRgn K _ _ _ ?_))
    exact forEach_keeps P _ _ (fun j _ s h => keeps_killWith K _ _ _ _ (keeps_logRegion K.toKeptByEnds _ _ _ h)) s h

end

end Sys2Proof.Machine
end

