-- ==== Sys2Proof/Laws/Kept.lean ====
section
/-!
SUPPORT. Two properties that ending work keeps: the canonical form of every memory, and what noise has come to.
-/
namespace Sys2Proof.Machine

theorem upd_forall {α : Type} {n : Nat} (p : α → Prop) (v : Vector α n) (i : Fin n) (f : α → α) (h : ∀ j : Fin n, p v[j])
    (hf : p (f v[i])) : ∀ j : Fin n, p (upd v i f)[j] := by
  intro j
  by_cases e : j = i
  · subst e; simpa using hf
  · rw [upd_other v i j f e]; exact h j

/-- A byte written into a canonical memory at a time. -/
theorem memPuts_wf (l : List (Nat × Byte)) (m : Mem) (hm : Memory.wf m = true) :
    Memory.wf (l.foldl (fun p c => memPut p c.1 c.2) m) = true :=
  foldl_keeps (fun m => Memory.wf m = true) _ (fun _ _ h => memPut_wf _ _ _ h) l m hm

/-- A frame's change of owner keeps physical memory canonical. -/
theorem giveFrame_wf (f o : Nat) (m : MemState) (hm : Memory.wf m.phys = true) : Memory.wf (giveFrame f o m).phys = true := by
  simp only [giveFrame, setOwner]
  exact memPuts_wf _ _ (memZero_wf _ _ _ hm)

/-- Writing bytes into one tile's memory keeps every memory canonical. -/
theorem modLocal_canonical (e : Eng) (f : Mem → Mem) (hf : ∀ m, Memory.wf m = true → Memory.wf (f m) = true) (s : State)
    (h : MemoriesCanonical s) : MemoriesCanonical (modLocal e f s) := by
  obtain ⟨h1, h2, h3, h4, h5⟩ := h
  cases e with
  | herd i => exact ⟨h1, h2, upd_forall (fun x : HerdTile => Memory.wf x.mem = true) _ _ _ h3 (hf _ (h3 i)), h4, h5⟩
  | ibex i =>
    exact ⟨h1, h2, h3, fun k => ⟨upd_forall (fun x : Ibex => Memory.wf x.mem = true) _ _ _ (fun j => (h4 j).1) (hf _ (h4 i).1) k,
      (h4 k).2⟩, h5⟩
  | cham i =>
    exact ⟨h1, h2, h3, fun k => ⟨(h4 k).1,
      upd_forall (fun x : Cham => Memory.wf x.mem = true) _ _ _ (fun j => (h4 j).2) (hf _ (h4 i).2) k⟩, h5⟩
  | kudu m => exact ⟨h1, h2, h3, h4, upd_forall (fun x : Kudu => Memory.wf x.mem = true) _ _ _ h5 (hf _ (h5 m))⟩
  | pe p => exact ⟨h1, h2, h3, h4, h5⟩
  | dma => exact ⟨h1, h2, h3, h4, h5⟩

/-- Ending work keeps every memory canonical. -/
theorem memoriesCanonical_kept : KeptByRecovery MemoriesCanonical where
  jobs _ _ h := h
  que _ _ h := h
  evt _ _ h := h
  err _ _ h := h
  msix _ _ h := h
  ctx _ _ h := h
  phys _ _ _ h := ⟨memWrite_wf _ _ _ h.1, h.2⟩
  host _ _ _ h := ⟨h.1, memWrite_wf _ _ _ h.2.1, h.2.2⟩
  shadow _ _ h := h
  purge s k h := by
    obtain ⟨h1, h2, h3, h4, h5⟩ := h
    refine ⟨h1, h2, h3, fun i => ⟨?_, ?_⟩, fun m => ?_⟩
    · simpa [purgeJob] using (h4 i).1
    · simpa [purgeJob] using (h4 i).2
    · simpa [purgeJob] using h5 m
  rgn _ _ h := h
  tickRgn _ _ _ h := h
  job _ _ _ h := h
  anl _ _ h := h
  ring _ _ _ h := h
  noise _ _ _ h := h
  sec _ _ h := h
  cp _ _ h := h
  mesh _ _ h := h
  rim _ _ h := h
  haly _ _ h := h
  herd s i f hf _ h :=
    ⟨h.1, h.2.1, upd_forall (fun x : HerdTile => Memory.wf x.mem = true) _ _ _ h.2.2.1 (hf _ (h.2.2.1 i)), h.2.2.2⟩
  ibex s i f hf h :=
    ⟨h.1, h.2.1, h.2.2.1, fun k => ⟨upd_forall (fun x : Ibex => Memory.wf x.mem = true) _ _ _ (fun j => (h.2.2.2.1 j).1)
      (hf _ (h.2.2.2.1 i).1) k, (h.2.2.2.1 k).2⟩, h.2.2.2.2⟩
  cham s i f hf h :=
    ⟨h.1, h.2.1, h.2.2.1, fun k => ⟨(h.2.2.2.1 k).1, upd_forall (fun x : Cham => Memory.wf x.mem = true) _ _ _
      (fun j => (h.2.2.2.1 j).2) (hf _ (h.2.2.2.1 i).2) k⟩, h.2.2.2.2⟩
  kudu s i f hf h :=
    ⟨h.1, h.2.1, h.2.2.1, h.2.2.2.1, upd_forall (fun x : Kudu => Memory.wf x.mem = true) _ _ _ h.2.2.2.2
      (hf _ (h.2.2.2.2 i))⟩
  pe _ _ h := h
  eng _ _ h := h
  put s e f hf h := modLocal_canonical e f hf s h
  frame _ _ _ h := ⟨giveFrame_wf _ _ _ h.1, h.2⟩
  tlb _ _ h := h
  free _ _ h := h

/-- Ending work leaves the state of noise, its DRBG and its sources. -/
theorem noise_kept (x : NoiseState) : KeptByRecovery fun s => { s.noise with rgn := x.rgn } = x where
  jobs _ _ h := h
  que _ _ h := h
  evt _ _ h := h
  err _ _ h := h
  msix _ _ h := h
  ctx _ _ h := h
  phys _ _ _ h := h
  host _ _ _ h := h
  shadow _ _ h := h
  purge _ _ h := h
  rgn _ _ h := h
  tickRgn _ _ _ h := h
  job _ _ _ h := h
  anl _ _ h := h
  ring _ _ _ h := h
  noise _ _ _ h := h
  sec _ _ h := h
  cp _ _ h := h
  mesh _ _ h := h
  rim _ _ h := h
  haly _ _ h := h
  herd _ _ _ _ _ h := h
  ibex _ _ _ _ h := h
  cham _ _ _ _ h := h
  kudu _ _ _ _ h := h
  pe _ _ h := h
  eng _ _ h := h
  put s e f _ h := by cases e <;> exact h
  frame _ _ _ h := h
  tlb _ _ h := h
  free _ _ h := h

end Sys2Proof.Machine
end

