-- ==== Sys2Proof/Tests/Slice0.lean ====
section
/-!
SUPPORT. Tests: an ill-formed command for each check of WellFormed, worked values of the spec, and for each statement of
Obligations.lean states and operands that meet its hypotheses, clause by clause (`witness_<statement>`).
-/
section
open Sys2Proof Sys2Proof.Machine
-- Each test is evaluated before the next begins, which keeps the memory of the compile small.
set_option Elab.async false

namespace Sys2Proof.Tests

/-! ### Small states -/

/-- Bytes filled up with zeros. -/
def padTo (n : Nat) (l : List Byte) : List Byte := slice l 0 n

/-- A packet's 64 bytes: its opcode and its bytes from 16 on. -/
def pktBytes (op : Byte) (body : List Byte) : List Byte := padTo 64 ([op] ++ List.replicate 15 0 ++ body)

/-- A fetched packet that has not started. -/
def mkPkt (op : Byte) (body : List Byte) : Pkt :=
  { pos := 0, bytes := pktBytes op body, marked := false, started := false, gen := 0, done := none }

/-- The same state with these packets as the only ones of queue i, which is enabled and ACTIVE. -/
def withPkts (i : Fin 33) (l : List Pkt) (s : State) : State :=
  modQue i (fun q => { q with enable := true, state := .active, size := 4, csize := 4, gen := 1, latched := 1, cons := 1, pkts := l }) s

/-- Frame 12,160 of stack 0, in the carve-out, holds context 0's page table: page 0 is frame 1, page 1 a host page, page 2
is not valid, page 3 is frame 2 and read-only; 4,096 bytes on, context 8's: page 0 is frame 3, page 1 a host page. -/
def ptbAt : Nat := 12160 * 2 ^ 21

/-- Where context 0's device address a of page 0 lies. -/
def paOf (a : Nat) : Nat := 2 ^ 21 + a

/-- A ready block in tick 100 with region 0 OPEN on macro-block 0, served by cp 2, its page table, READY noise, all cores
and secure Criward. -/
def bench : State :=
  let s := State.reset
  { s with
    dev := { s.dev with ready := true, stage := Stage.ready },
    tick := { s.tick with running := true, tn := 100 },
    haly := { s.haly with outEnable := true },
    rgn := { rgn := upd s.rgn.rgn 0 (fun r => { r with state := .opened, gen := 1, cp := 2, rimUnits := 1, segMask := 1, claimed := [1] }),
             mbOwner := s.rgn.mbOwner.set 0 (some 0) },
    mesh := { s.mesh with tag := s.mesh.tag.set 0 (some 0) },
    noise := { s.noise with
      state := .ready, startupDone := true,
      drbg := some { key := List.replicate 32 0, v := List.replicate 16 0, requests := 0, ticks := 0 } },
    kudu := upd s.kudu 0 (fun k => { k with execLoaded := true }),
    cham := upd s.cham 0 (fun c => { c with monitor := true }),
    mkh := { s.mkh with
      lockstepOk := true,
      cp := upd (s.mkh.cp.map fun c => { c with online := true }) 2 fun c => { c with regions := 1 } },
    mem := { s.mem with
      ctx := upd (upd s.mem.ctx 0 (fun c => { c with ptb := ptbAt, pages := 4, keyValid := true })) 8 (fun c => { c with ptb := ptbAt + 4096 }),
      owner := [(1, 0), (2, 0), (3, 8)],
      phys := memWrite (memWrite [] ptbAt (leBytes 8 0x13 ++ leBytes 8 7 ++ leBytes 8 0 ++ leBytes 8 0x21))
        (ptbAt + 4096) (leBytes 8 0x33 ++ leBytes 8 7) },
    sec := { s.sec with up := true, aliasOk := true } }

/-! ### Witnesses: the queue of commands, Pennant, the Halyard lines -/

theorem witness_StepPerformsFrontCommand :
    ({ bench with pending := [.tickBoundary, .getState] } : State).pending = .tickBoundary :: [.getState] ∧
    bench.pending = [] := by decide +kernel

/-- A lock state and the runs of R31 under a source. -/
def lockAt (src : TickSource) (l : Lock) (w b m : Nat) : State :=
  modTick (fun t => { t with source := src, lock := l, runWithin := w, runBeyond := b, runMissed := m }) bench

theorem witness_ReferenceEventsMoveTheLock :
    (∀ src ∈ [TickSource.halyard, .ring], ∀ l ∈ [Lock.acquiring, .locked, .holdover, .freeRun],
      (lockAt src l 63 3 3).tick.running = true ∧ (lockAt src l 63 3 3).tick.source ≠ .internal ∧
      (lockAt src l 63 3 3).tick.lock = l) ∧
    (512 : Int).natAbs ≤ 512 ∧ ¬ (513 : Int).natAbs ≤ 512 ∧ (-1280 : Int).natAbs ≤ 1280 ∧ ¬ (-1281 : Int).natAbs ≤ 1280 ∧
    64 ≤ (lockAt .halyard .acquiring 63 0 0).tick.runWithin + 1 ∧ ¬ 64 ≤ (lockAt .halyard .acquiring 62 0 0).tick.runWithin + 1 ∧
    4 ≤ (lockAt .ring .locked 0 3 3).tick.runBeyond + 1 ∧ ¬ 4 ≤ (lockAt .ring .locked 0 2 2).tick.runMissed + 1 ∧
    (lockAt .internal .freeRun 0 0 0).tick.source = .internal ∧ State.reset.tick.running = false ∧
    (let t := (lockAt .halyard .locked 0 0 0).tick
     let inWindow (e : RefEdge) : Bool := decide (e.input.val = t.inSel ∧ e.rising = (!t.inEdge) ∧ t.inOfs - 1600 ≤ e.at16 / 16 ∧
       e.at16 / 16 ≤ t.inOfs + 1599)
     (0 ≤ (t.tn.toNat : Int) + 0 ∧ ((t.tn.toNat : Int) + 0) % ((t.inDiv : Int) + 1) = t.inPhase ∧
       (0 : Int) * 3200 + t.inOfs + 1599 < 3200 ∧ t.refDone = none) ∧ ¬ (1 : Int) * 3200 + t.inOfs + 1599 < 3200 ∧
     inWindow { input := 0, rising := true, at16 := -16 * 1600 } ∧ inWindow { input := 0, rising := true, at16 := 16 * 1599 + 15 } ∧
     ¬ inWindow { input := 0, rising := true, at16 := 16 * 1600 }) ∧
    (modTick (fun t => { t with refDone := some 100 }) (lockAt .ring .locked 0 0 0)).tick.refDone = some (bench.tick.tn.toNat : Int) ∧
    (lockAt .ring .locked 0 0 0).tick.refDone ≠ some (bench.tick.tn.toNat : Int) := by decide +kernel

theorem witness_SourceWritesMoveTheLock :
    let s := lockAt .halyard .locked 9 0 0
    s.dev.ready = true ∧ s.tick.source = .halyard ∧
    (bits (0x0 : W32).toNat 1 0 = 0 ∧ TickSource.internal ≠ s.tick.source) ∧
    (bits (0x2 : W32).toNat 1 0 = 2 ∧ TickSource.ring ≠ s.tick.source) ∧
    (bits (0x5 : W32).toNat 1 0 = 1 ∧ bits (0x5 : W32).toNat 3 2 ≠ s.tick.inSel) ∧
    (bits (0x11 : W32).toNat 3 2 = s.tick.inSel ∧ bit (0x11 : W32).toNat 4 ≠ s.tick.inEdge) ∧
    (bits (0x3 : W32).toNat 1 0 = 3 ∧ bits (0x3 : W32).toNat 3 2 = s.tick.inSel ∧ bit (0x3 : W32).toNat 4 = s.tick.inEdge) ∧
    (bits (0x20003 : W32).toNat 31 16 ≤ bits (0x20003 : W32).toNat 15 0 ∧ bits (0x20003 : W32).toNat 15 0 ≠ s.tick.inDiv) ∧
    (¬ bits (0x40003 : W32).toNat 31 16 ≤ bits (0x40003 : W32).toNat 15 0 ∧ bits (0 : W32).toNat 15 0 = s.tick.inDiv) ∧
    (toSigned 16 (0xF380 : W32).toNat = -3200 ∧ toSigned 16 (3199 : W32).toNat = 3199 ∧ (3199 : Int) ≠ s.tick.inOfs) ∧
    ¬ toSigned 16 (3200 : W32).toNat ≤ 3199 ∧ s.tick.inOfs = 0 ∧
    State.reset.dev.ready = false := by decide +kernel

/-- An input of region 0 with timestamps. -/
def inputs (n : Nat) : State :=
  modIn 2 (fun i => { i with owner := .rgn 0, edges := 1, fifo := List.replicate n { tn := 7, ofs := 9, rising := true, lost := false } }) bench

theorem witness_ReadsWithSideEffects :
    viewOk bench .pf = true ∧ viewOk bench (.vf 0) = true ∧ viewOk bench (.tvf 0) = true ∧
    showsRegion .pf 7 = true ∧ showsRegion (.vf 0) 0 = true ∧
    ownsLine .pf (inputs 1).haly.inp[2].owner = true ∧ ownsLine (.vf 0) (inputs 1).haly.inp[2].owner = true ∧
    viewOk (inputs 2) (.vf 0) = true ∧
    (inputs 2).haly.inp[2].fifo = { tn := 7, ofs := 9, rising := true, lost := false } :: (inputs 1).haly.inp[2].fifo ∧
    (inputs 0).haly.inp[2].fifo = [] := by decide +kernel

/-- A request that satisfies R35 and R36 on the bench. -/
def request : ArmReq :=
  { start := 102, offset := 3199, mode := 2, widthTicks := 1, widthCclk := 0, period := 2, count := 3, endSel := 1, endEn := true,
    endEdge := false }

/-- An output of region 0. -/
def outputs (f : HalyOut → HalyOut) : State := modOut 3 (fun o => f { o with owner := .rgn 0 }) bench

theorem witness_ArmSucceedsOrNamesFirstFailure :
    let s := outputs id
    let a := request
    let late (a : ArmReq) : Prop := a.start < s.tick.tn.toNat + 2
    let badMode (a : ArmReq) : Prop := ¬ (a.mode = 1 ∨ a.mode = 2) ∨ 3200 ≤ a.offset
    let w (a : ArmReq) := a.widthTicks * 3200 + a.widthCclk
    let badWidth (a : ArmReq) : Prop := ¬ (a.widthCclk < 3200 ∧ 16 ≤ w a ∧ w a ≤ (if a.mode = 1 then 3200 else 65535 * 3200))
    let badPeriod (a : ArmReq) : Prop := ¬ (a.period = 0 ∨ w a < a.period * 3200 ∧ a.period < 2 ^ 24)
    late { a with start := 101 } ∧
    (¬ late { a with offset := 3200 } ∧ badMode { a with offset := 3200 }) ∧
    (¬ late a ∧ ¬ badMode a ∧ badWidth { a with widthTicks := 0, widthCclk := 15 } ∧ badWidth { a with mode := 1, widthCclk := 1 }) ∧
    (¬ badWidth a ∧ badPeriod { a with period := 1 } ∧ badPeriod { a with period := 2 ^ 24 }) ∧
    (¬ badPeriod a ∧ s.haly.out[3].owner ≠ .device ∧ s.haly.out[3].owner = .rgn 0 ∧ s.haly.outEnable = true) ∧
    ¬ badPeriod { a with period := 0 } ∧
    ({ s with haly := { s.haly with outEnable := false } } : State).haly.outEnable = false ∧
    s.dev.ready = true ∧ viewOk s (.vf 0) = true ∧ s.haly.out[4].owner ≠ .rgn 0 := by decide +kernel

/-- A schedule with pulses in ticks 100, 102 and 104. -/
def schedule : Sched :=
  { start := 100, offset := 10, mode := .strobe, width := 3200, period := 2, count := 3, endSel := 1, endEn := true, endEdge := false,
    next := 0, cutoff := none }

/-- A STROBE pulse that began at offset 10 of tick 99. -/
def aPulse : Pulse := { tn := 99, offset := 10, width := 3200, endSel := 1, endEn := true, endEdge := false, strobe := true }

theorem witness_PulsesRiseAndFallAndReplacedSchedulesEnd :
    let s := outputs fun o => { o with sched := some schedule, pulses := [aPulse], pin := .high }
    let u := outputs fun o => { o with old := [{ schedule with cutoff := some 101 }] }
    (∃ d ∈ (startSched request s.haly.out[3]).old, d.live = true) ∧
    viewOk s (.vf 0) = true ∧ ownsLine (.vf 0) s.haly.out[3].owner = true ∧ viewOk s .pf = true ∧
    ownsLine (.vf 0) s.haly.out[4].owner = false ∧ s.tick.running = true ∧
    s.haly.out[3].old.find? (Sched.dueNow 100) = none ∧ s.haly.out[3].sched = some schedule ∧ schedule.live = true ∧
    schedule.start + schedule.next * schedule.period = 100 ∧
    u.haly.out[3].old.find? (Sched.dueNow 100) = some { schedule with cutoff := some 101 } ∧
    s.haly.out[3].pulses.find? (fun p => decide ((p.tn * 3200 + p.offset + p.width) / 3200 ≤ 100)) = some aPulse ∧
    s.haly.out[3].pulses = [aPulse] ∧ aPulse.strobe = true ∧ aPulse.endEn = true ∧ aPulse.endSel = (1 : Fin 4).val ∧
    aPulse.endEdge = (!true) ∧ s.haly.inp[1].filter ≤ 0 ∧ 8 ≤ s.haly.inp[1].filter + 8 ∧ aPulse.tn * 3200 + aPulse.offset ≤ 100 * 3200 + 9 ∧
    100 * 3200 + 9 < aPulse.tn * 3200 + aPulse.offset + aPulse.width ∧
    ¬ 100 * 3200 + 10 < aPulse.tn * 3200 + aPulse.offset + aPulse.width := by decide +kernel

theorem witness_OwnerWritesQuietOnlyChangedLines :
    let s := outputs fun o => { o with pulses := [aPulse], pin := .high }
    s.dev.ready = true ∧ ownerOf (bits (0x8000 : W32).toNat 15 12) s.haly.out[3].owner ≠ s.haly.out[3].owner ∧
    ownerOf (bits (0x9000 : W32).toNat 15 12) s.haly.out[3].owner = s.haly.out[3].owner ∧
    ownerOf (bits (0x0000 : W32).toNat 15 12) s.haly.out[3].owner = s.haly.out[3].owner ∧
    ownerOf (bits (0xF00 : W32).toNat 11 8) (inputs 1).haly.inp[2].owner ≠ (inputs 1).haly.inp[2].owner ∧
    ownerOf (bits (0xE00 : W32).toNat 11 8) (inputs 1).haly.inp[2].owner = (inputs 1).haly.inp[2].owner ∧
    bench.haly.inp[0].edges = 0 ∧ bits (0x501 : W32).toNat 1 0 ≠ 0 ∧ (inputs 1).haly.inp[2].edges ≠ 0 := by decide +kernel

theorem witness_InputEdgesAreStampedForTheirOwner :
    let s := inputs 63
    let full := inputs 64
    let late := modIn 2 (fun i => { i with ownerSince := some (100 * 3200 + 5) }) s
    s.tick.running = true ∧ (3199 : Nat) < 3200 ∧ s.haly.inp[2].level = !true ∧ s.haly.inp[2].level = false ∧
    bit s.haly.inp[2].edges 0 = true ∧ s.haly.inp[2].ownerSince = none ∧ s.haly.inp[2].fifo.length < 64 ∧
    64 ≤ full.haly.inp[2].fifo.length ∧ late.haly.inp[2].ownerSince = some (100 * 3200 + 5) ∧
    s.haly.inp[2].filter ≤ 0 ∧ (modIn 2 (fun i => { i with filter := 9 }) s).haly.inp[2].filter > 8 ∧
    100 * 3200 + 5 < (late.tick.tn.toNat - 0) * 3200 + 6 ∧ ¬ 100 * 3200 + 5 < (late.tick.tn.toNat - 0) * 3200 + 5 := by
  decide +kernel

/-! ### Witnesses: the Herd and annealing -/

/-- A RUN packet: program at 0x1000, parameters at 0x2000, capture list at 0x3000. -/
def runPkt (mode caps : Nat) : List Byte :=
  pktBytes 1 (leBytes 6 0x1000 ++ leBytes 2 mode ++ leBytes 6 0x2000 ++ leBytes 2 caps ++ leBytes 6 0x3000)

/-- The job of region 0's queue 0 at position 0. -/
def key0 : JobRef := { r := 0, q := 0, pos := 0 }

/-- A running job of region 0's queue 0; mode 0x4C ticks and may restart once. -/
def runner (mode : Nat) : Job := { newJob key0 (runPkt mode 0) [] with phase := .running, jobId := 1 }

/-- An HCB of two classes of one slice of 256 units, with two halo flits after class 0 and one after class 1. -/
def smallHcb : List Byte :=
  padTo 64 (padTo 24 [0x11, 0, 0, 0, 1, 4] ++ padTo 28 [2, 0, 1, 0] ++ [0, 1, 0, 0, 1])

/-- A tick plan for Herd tile 0, with schedule β = 256. -/
def smallPlan : Plan :=
  { entries := [], tiles := [0], fields := [], acb := padTo 64 [], sched := [(0, 256)], stream := 0, outs := [], ins := [], pos := 0 }

/-- The bench with a ticking job on Herd tile 0. -/
def ticking (f : TickJob → TickJob) (g : HerdTile → HerdTile) : State :=
  let s := modTickRgn 0 (fun t => { t with ticking := true }) { bench with jobs := [runner 0x4C] }
  let s := modTickJob 0 (fun t => f { t with plan := some smallPlan }) s
  modPwrRgn 0 (fun x => { x with level := 16 })
    (modHerd 0 (fun t => g { t with hcb := smallHcb, key := some (padTo 32 []), colours := List.replicate 256 0 }) s)

theorem witness_TickBoundaryCountsTn :
    bench.dev.powered = true ∧ bench.dev.perst = false ∧ State.reset.tick.running = false ∧ bench.tick.running = true ∧
    bench.tick.newTn = none ∧ (modTick (fun t => { t with newTn := some 5 }) bench).tick.newTn = some 5 ∧
    -10000 ≤ (modTick (fun t => { t with trim := 10000 }) bench).tick.trim ∧
    (modTick (fun t => { t with trim := 10000 }) bench).tick.trim ≤ 10000 ∧
    (lockAt .ring .holdover 0 0 4).tick.lock = .holdover ∧
    ({ bench with dev := { bench.dev with powered := false } } : State).dev.powered = false ∧
    ({ bench with dev := { bench.dev with perst := true } } : State).dev.perst = true := by decide +kernel

theorem witness_SweepsHoldForNoiseAndBeginOnce :
    let s := ticking id id
    let u : State := { s with noise := { s.noise with state := .gathering } }
    (∀ t ∈ [s, u], sweepRegion t 0 = some 0 ∧ sweepingJob t 0 = some (runner 0x4C) ∧ t.herd.job[0].init = false ∧
      t.herd.job[0].excluded = false ∧ t.herd.job[0].part = .ingest ∧ t.herd.job[0].late = false ∧
      t.herd.job[0].active = false ∧
      t.pwr.tile[Fin.ofNat 192 ((engXY (.herd 0)).2 * 16 + (engXY (.herd 0)).1)].cut = false) ∧
    u.noise.state ≠ .ready ∧ s.noise.state = .ready ∧ 16 ≤ s.pwr.rgn[0].level ∧ s.herd.tile[0].state ≠ .sweeping ∧
    ∀ k ∈ planTiles s 0, needsKey s.noise.rgn[0] (s.herd.job[0].jt + 1) s.herd.tile[k] = true →
      s.herd.tile[k].shadowKey ≠ none := by decide +kernel

theorem witness_ClassesWaitForHaloFlits :
    let at_ (waits : Bool) (cls flits : Nat) : State := ticking (fun b => { b with part := .sweep })
      (fun x => { x with state := .sweeping, waits := waits, cls := cls, haloFlits := flits })
    let c := readHcb smallHcb
    (∀ s ∈ [at_ false 0 2, at_ false 0 1, at_ true 0 1, at_ true 0 0], sweepRegion s 0 = some 0 ∧ s.herd.job[0].part = .sweep ∧
      s.herd.tile[0].state = .sweeping ∧ s.herd.tile[0].hcb = smallHcb ∧ formatEnd c s.herd.tile[0].mem ≤ 0x1FE000) ∧
    0 + 1 < c.c ∧ c.halo.getD 0 0 ≤ 2 ∧ 1 < c.halo.getD 0 0 ∧ c.halo.getD (c.c - 1) 0 ≤ 1 ∧ 0 < c.halo.getD (c.c - 1) 0 := by
  decide +kernel

theorem witness_ClassUpdatesAndSweepDoneKeepTheRest :
    let s := ticking (fun b => { b with part := .sweep }) (fun x => { x with state := .sweeping, cls := 1 })
    Memory.wf s.herd.tile[0].mem = true ∧ s.herd.tile[0].colours.length ≤ 16384 ∧
    3 ∉ classSlots s.herd.tile[0].colours (readHcb smallHcb) 1 ∧ 3 ∈ classSlots s.herd.tile[0].colours (readHcb smallHcb) 0 ∧
    sweepRegion s 0 = some 0 ∧ s.herd.tile[0].state = .sweeping ∧ s.herd.tile[0].waits = false ∧
    s.herd.tile[0].cls + 1 = (readHcb s.herd.tile[0].hcb).c ∧ (3199 : Nat) < 3200 := by decide +kernel

theorem witness_BudgetTestCountsOverruns :
    let at_ (late : Bool) (consec cclk : Nat) : State := modTickRgn 0 (fun x => { x with consec := consec })
      (ticking (fun b => { b with part := .sweep, late := late })
        (fun x => { x with sweepDone := true, doneTn := 100, doneCclk := cclk }))
    let early := modHerd 0 (fun x => { x with doneTn := 99 }) (at_ false 0 3000)
    let done (s : State) : Prop :=
      ∀ h ∈ planTiles s 0, s.herd.tile[h].sweepDone = true ∧ (s.herd.tile[h].doneTn = 100 → s.herd.tile[h].doneCclk < 2800)
    let group := modHerd 0 (fun x => { x with hcb := padTo 64 (padTo 3 [0x11] ++ [2, 1, 4]) }) (at_ false 0 0)
    (∀ s ∈ [at_ false 0 2799, at_ false 2 2800, at_ true 3 2800, early, group],
      sweepingJob s 0 = some (runner 0x4C) ∧ s.tick.rgn[0].ticking = true ∧ s.herd.job[0].part = .sweep ∧
      findJob s (runner 0x4C).ref = some (runner 0x4C)) ∧
    (group.herd.job[0].late = false ∧ group.herd.job[0].groupTick + 1 < sweepTicks group 0) ∧
    sweepTicks (at_ false 0 2799) 0 ≤ (at_ false 0 2799).herd.job[0].groupTick + 1 ∧
    bench.tick.tn.toNat = 100 ∧ done (at_ false 0 2799) ∧ done early ∧ ¬ done (at_ false 2 2800) ∧
    (planTiles (at_ false 0 2799) 0).Nodup ∧
    (at_ false 2 2800).tick.rgn[0].consec + 1 < (at_ false 2 2800).tick.rgn[0].limit ∧
    (at_ true 3 2800).tick.rgn[0].limit ≤ (at_ true 3 2800).tick.rgn[0].consec + 1 ∧
    (at_ true 3 2800).herd.job[0].late = true := by decide +kernel

/-- A record on its way. -/
def anEmission : Emission :=
  { chain := 0, t := 3, tn := 99, epoch := 0, sweep := 3, energy := -7, flags := 0, skip := false,
    addr := 0x8000, countAddr := 0x9000, head := 0, write := 5 }

/-- Reservoir entries in two slots. -/
def entries : List ResEntry :=
  [{ energy := -9, hash := 4, sweep := 1, slot := 1, valid := true }, { energy := -9, hash := 6, sweep := 2, slot := 0, valid := true }]

theorem witness_HeadersAndReservoirOffersFollowTheirSteps :
    let parts (left : Nat) : List PartWrite := [{ id := 5, left := left, dropped := false, masked := false }]
    let s := ticking (fun b => { b with emissions := [anEmission], writes := parts 0 }) id
    let held := ticking (fun b => { b with emissions := [anEmission], writes := parts 1 }) id
    (s.herd.job[0].writes.find? fun w => w.id == anEmission.write && w.left == 0) = some { id := 5, left := 0, dropped := false, masked := false } ∧
    (held.herd.job[0].writes.find? fun w => w.id == anEmission.write && w.left == 0) = none ∧
    s.herd.job[0].emissions.find? (fun e => e.chain == 0) = some anEmission ∧ tickJobOf s 0 = some (runner 0x4C) ∧
    s.herd.job[0].emissions.find? (fun e => e.chain == 1) = none ∧
    (-(2 ^ 39) ≤ (-(2 ^ 39) : Int) ∧ (2 ^ 39 - 1 : Int) ≤ 2 ^ 39 - 1 ∧ ¬ (2 ^ 39 : Int) ≤ 2 ^ 39 - 1) ∧
    (∃ x ∈ entries, x.hash = 4) ∧ (¬ ∃ x ∈ entries, x.hash = 5) ∧ entries.length < 3 ∧ 2 ≤ entries.length ∧
    (entries.map ResEntry.slot).Nodup ∧
    (∀ worst ∈ entries.drop 1, entries = entries.take 1 ++ [worst] ∧ ((-9 : Int) = worst.energy ∧ (5 : W64) < worst.hash) ∧
      ¬ ((-9 : Int) < worst.energy ∨ (-9 : Int) = worst.energy ∧ (7 : W64) < worst.hash)) ∧
    2 < (readHcb (padTo 20 [0x11] ++ [3, 0, 0, 0])).burnIn := by decide +kernel

theorem witness_ReservoirStaysOrderedAndDistinct :
    (entries.Pairwise (fun x y => x.energy < y.energy ∨ x.energy = y.energy ∧ x.hash < y.hash) ∧
      (entries.map ResEntry.hash).Nodup ∧ (entries.map ResEntry.slot).Nodup ∧ (∀ x ∈ entries, x.slot < 2) ∧ entries.length ≤ 2) ∧
    resOffer 2 9 (-9) 5 false entries = .inserted 0
      [{ energy := -9, hash := 4, sweep := 1, slot := 1, valid := true }, { energy := -9, hash := 5, sweep := 9, slot := 0, valid := false }] := by decide +kernel

/-- An ACB with stall_on, of window 3, step 16, offset_max 100, decay 5. -/
def anAcb (decayMode : Bool) : Acb :=
  { readAcb [] with stallOn := true, decayMode := decayMode, stallFlips := 10, window := 3, step := 16, offsetMax := 100, decay := 5 }

theorem witness_AnnealingUpdateMatchesItsProgram :
    let c : Chain := { freshChain 0 with best := -5, quiet := 1, offset := 100 }
    (-6 < c.best ∧ ¬ (-5 : Int) < c.best) ∧ (readAcb []).stallOn = false ∧ (anAcb true).stallOn = true ∧
    (anAcb true).decayMode = true ∧ (anAcb false).decayMode = false ∧ (anAcb true).stallFlips ≤ 10 ∧ 9 < (anAcb true).stallFlips ∧
    c.quiet + 1 < (anAcb true).window ∧ (anAcb true).window ≤ { c with quiet := 2 }.quiet + 1 ∧ c.offset ≤ (anAcb true).offsetMax := by
  decide +kernel

theorem witness_MergeKeepsTheLowestDistinctStates :
    let cs : List Chain := [{ freshChain 0 with res := entries }, { freshChain 4 with res := entries.take 1 }]
    (cs.map Chain.idx).Nodup ∧ (∀ c ∈ cs, (c.res.map ResEntry.hash).Nodup) ∧ (mergeKept 1 cs).length = 1 ∧
    (gather cs).length = 3 ∧ (mergeKept 3 cs).length = 2 := by decide +kernel

theorem witness_TickingEndsAndMergesRun :
    let s := ticking (fun b => { b with
      pending := [(0, 2, 5)], stop := true, writes := [{ id := 5, left := 0, dropped := false, masked := false }] }) id
    let w := ticking (fun b => { b with pending := [] }) id
    let m := modKudu 0 (fun k => { k with mergeWaits := true }) w
    let g := modKudu 0 (fun k => { k with merging := true }) w
    let dropped := ticking (fun b => { b with pending := [(0, 2, 5)], writes := [{ id := 5, left := 0, dropped := true, masked := false }] }) id
    let found (s : State) (slot : Nat) := s.herd.job[0].pending.find? fun x => (x.1, x.2.1) == (0, slot)
    let write (s : State) := s.herd.job[0].writes.find? fun w => w.id == 5 && w.left == 0
    found s 2 = some (0, 2, 5) ∧ found s 3 = none ∧ write s = some { id := 5, left := 0, dropped := false, masked := false } ∧
    write dropped = some { id := 5, left := 0, dropped := true, masked := false } ∧
    write (ticking (fun b => { b with pending := [(0, 2, 5)], writes := [{ id := 5, left := 2, dropped := false, masked := false }] }) id) = none ∧
    sweepingJob s 0 = some (runner 0x4C) ∧
    s.tick.rgn[0].ticking = true ∧ ticksLast s 0 (runner 0x4C) = true ∧ (m.rgn.rgn[0]).mbs.head? = some 0 ∧
    sweepingJob m 0 = some (runner 0x4C) ∧ m.kudu[0].mergeWaits = true ∧ m.herd.job[0].pending = [] ∧
    (modTickJob 0 (fun b => { b with pending := [(0, 2, 5)] }) m).herd.job[0].pending ≠ [] ∧ (g.rgn.rgn[0]).mbs.head? = some 0 ∧
    sweepingJob g 0 = some (runner 0x4C) ∧ g.kudu[0].merging = true := by decide +kernel

/-! ### Witnesses: the mesh, the Rim, regions, noise -/

/-- A VC0 flit of a region for a tile. -/
def aFlit (tag dx : Nat) : Vc0Flit := { tag := tag, dx := dx, dy := 0, load := .halo 0 [1] }

/-- The link direction from (2, 0) to (1, 0), inside region 0. -/
def inward : LinkDir := { x := 2, y := 0, port := .w }
/-- The link direction from (10, 0) to (11, 0), in no region. -/
def outside : LinkDir := { x := 10, y := 0, port := .e }

/-- The direction from (3, 0) to (2, 0), an Ibex tile; the inward link takes from its buffer as from input E. -/
def toIbex : LinkDir := { x := 3, y := 0, port := .w }

def modAt (d : LinkDir) (f : Link → Link) (s : State) : State := modLink (Fin.ofNat 768 (linkIdx d)) f s

/-- A ticking job, and one slot-table entry of the inward link: one flit of buffer `src` in slot 3. The tile sends `own`; the
buffer behind it holds `behind`, that ahead `ahead`. -/
def sending (src : Nat) (own behind ahead : List Vc0Flit) : State :=
  let hold (l : List Vc0Flit) : List Vc0Held := l.map fun f => { flit := f, ready := 0 }
  let s := modAt toIbex (fun k => { k with vc0 := hold behind })
    (modAt inward (fun k => { k with bank0 := [{ slot := 3, src := src, flits := 1 }], vc0 := hold ahead }) (ticking id id))
  { s with mesh := { s.mesh with src := upd s.mesh.src (tileIdx 2 0) fun _ => own } }

theorem witness_Vc0FlitsStayInsideTheirRegion :
    let s := sending 5 [aFlit 0 1] [] []
    let i : Fin 768 := Fin.ofNat 768 (linkIdx inward)
    let a : SlotEnt := { slot := 3, src := 5, flits := 1 }
    (∀ d ∈ [inward, outside], linkIdx d < 768 ∧ onDie d.x d.y = true ∧ linkExists (linkIdx d) = true) ∧
    linkTag s (linkIdx outside) = none ∧ linkTag s (linkIdx inward) = some 0 ∧ entryAt s i 3 = some a ∧ entryAt s i 2 = none ∧
    vc0Head (sending 5 [] [] []) 2 0 5 0 3 = none ∧ vc0Head s 2 0 5 0 3 = some (aFlit 0 1) ∧
    entryAt (sending 2 [] [aFlit 1 1] []) i 3 = some { a with src := 2 } ∧
    vc0Head (sending 2 [] [aFlit 1 1] []) 2 0 2 0 3 = some (aFlit 1 1) ∧ (0 : Fin 8).val ≠ (aFlit 1 1).tag ∧
    (0 : Fin 8).val = (aFlit 0 1).tag ∧ linkEnd (linkIdx inward) = ((aFlit 0 1).dx, (aFlit 0 1).dy) ∧
    linkEnd (linkIdx inward) ≠ ((aFlit 0 3).dx, (aFlit 0 3).dy) ∧
    vc0Head (sending 5 [aFlit 0 3] [] []) 2 0 5 0 3 = some (aFlit 0 3) ∧
    (sending 5 [aFlit 0 3] [] (List.replicate 31 (aFlit 0 4))).mesh.links[i].vc0.length < 32 ∧
    32 ≤ (sending 5 [aFlit 0 3] [] (List.replicate 32 (aFlit 0 4))).mesh.links[i].vc0.length ∧
    tickJobOf s 0 = some (runner 0x4C) ∧ findJob s key0 = some (runner 0x4C) ∧ (runner 0x4C).phase = .running := by decide +kernel

/-- A VC1 packet for a tile. -/
def aPacket (tag dx dy : Nat) : MeshPacket :=
  { vc := .vc1, ctx := 0, tag := tag, job := some (0, 0), dx := dx, dy := dy, flits := 1, addr := 0, data := [5] }

/-- The bench with a ticking job and these packets at the end of the inward link. -/
def packets (l : List MeshPacket) : State := modAt inward (fun k => { k with vc := l }) (ticking id id)

/-- A descriptor of region 0's queue 0. -/
def aDesc (b : List Byte) : Desc := { job := key0, chain := 0, bytes := padTo 64 b, next := .none, stamp := 4 }

/-- A Rim flit of a context that waits clockwise at a position. -/
def rimHeld (pos : Fin 24) (ctx : Fin 9) (dest : Fin 24) : RimHeld :=
  { pos := pos, ccw := false, ready := 0, flit := { ctx := ctx, dest := dest, load := .other 128 } }

/-- The bench with these flits in the Rim's buffers. -/
def rimWith (l : List RimHeld) : State := { bench with rim := { bench.rim with held := l } }

theorem witness_PacketsAndRimFlitsKeepTheirWalls :
    let s := packets (List.replicate 31 (aPacket 0 3 0))
    let i : Fin 768 := Fin.ofNat 768 (linkIdx inward)
    let k : Fin 768 := Fin.ofNat 768 (linkIdx toIbex)
    let busy := modIbex 0 (fun x => { x with running := some (aDesc [1]) }) (packets [])
    linkIdx inward < 768 ∧ onDie 2 0 = true ∧ linkExists (linkIdx inward) = true ∧
    nextPacket (packets (List.replicate 32 (aPacket 0 3 0))) inward i (some (aPacket 0 1 0)) = none ∧
    nextPacket s inward i (some (aPacket 0 1 0)) = some (4, aPacket 0 1 0) ∧
    nextPacket s inward i (some { aPacket 0 1 0 with vc := .vc3 }) = some (4, { aPacket 0 1 0 with vc := .vc3 }) ∧
    linkTag s (linkIdx inward) = some 0 ∧ (0 : Fin 8).val ≠ (aPacket 1 1 0).tag ∧
    nextPacket s inward i (some (aPacket 1 1 0)) = some (4, aPacket 1 1 0) ∧
    linkEnd (linkIdx inward) = (1, 0) ∧ Sys2Proof.Machine.interior 1 0 = true ∧ linkEnd (linkIdx toIbex) = (2, 0) ∧ unitAt 2 0 = .ibex 0 ∧
    (∀ l ∈ linksInto 1 0, (packets []).mesh.links[l].vc = []) ∧ (∀ l ∈ linksInto 2 0, busy.mesh.links[l].vc = []) ∧
    servesWrite s (unitAt 1 0) 0 1 = true ∧ servesWrite busy (unitAt 2 0) 0 1 = false ∧
    linkExists (linkIdx toIbex) = true ∧ linkTag busy (linkIdx toIbex) = some 0 ∧
    nextPacket busy toIbex k (some (aPacket 0 2 0)) = some (4, aPacket 0 2 0) := by decide +kernel

theorem witness_PacketsAndRimFlitsKeepTheirWalls_rim :
    let waits (s : State) := s.rim.held.find? fun h => h.pos == 2 && h.ccw == false && h.flit.ctx == 8 && decide (h.ready ≤ 0)
    let room (s : State) : Bool := decide ((s.rim.held.filter fun h => h.pos == 3 && h.ccw == false && h.flit.ctx == 8).length < 32)
    bench.rim.owner[(4 : Fin 48)][rimUnit 0 0] = some 8 ∧ bench.rim.owner[(4 : Fin 48)][rimUnit 0 7] = none ∧
    waits bench = none ∧ waits (rimWith [rimHeld 2 8 3]) = some (rimHeld 2 8 3) ∧ (rimHeld 2 8 3).flit.dest = 3 ∧
    waits (rimWith [rimHeld 2 8 9]) = some (rimHeld 2 8 9) ∧ (rimHeld 2 8 9).flit.dest ≠ 3 ∧ room (rimWith [rimHeld 2 8 9]) ∧
    ¬ room (rimWith (rimHeld 2 8 9 :: List.replicate 32 (rimHeld 3 8 9))) := by decide +kernel

/-- A part of a record that is staged. -/
def aPart : Staged := { id := 5, addr := 64, masked := false, data := [1] }

/-- The bench with a part in region 0's staging buffer at position 5. -/
def stagedAt : State :=
  { bench with rim := { bench.rim with staging := upd bench.rim.staging 0 fun v => v.set 5 [aPart] } }

theorem witness_PacketsAndRimFlitsKeepTheirWalls_enter :
    stagedAt.rim.staging[(0 : Fin 8)][(5 : Fin 24)] = aPart :: [] ∧ bench.rim.staging[(0 : Fin 8)][(5 : Fin 24)] = [] ∧ (9 : Fin 24) ≠ 5 ∧
    (bench.rim.held.filter fun h => h.pos == 5 && h.ccw == false && h.flit.ctx == ctxOf 0).length < 32 ∧
    aPart.data.length ≤ 2 ^ 21 - aPart.addr % 2 ^ 21 ∧
    (translate stagedAt 5 (ctxOf 0) aPart.addr true).toOption = some (.dev (paOf 64) none) ∧ placeTile (.dev (paOf 64) none) ≠ 5 := by
  decide +kernel

/-- REGION_CREATE. -/
def createPkt (id rect units : Byte) (seg pages : Nat) : Pkt :=
  mkPkt 0x40 ([id, rect, units, 0] ++ leBytes 4 seg ++ leBytes 4 pages)

/-- The bench with a packet at the head of the maintenance queue. -/
def maint (p : Pkt) : State := withPkts 32 [p] bench

theorem witness_RegionCreateFailsByFirstCheck :
    let good := createPkt 1 0x01 31 1 4
    let idBad (c : Create) : Bool := decide (7 < c.id ∨ bench.rgn.rgn[Fin.ofNat 8 c.id].state ≠ .free)
    let rectBad (c : Create) : Bool := decide (¬ (c.bx0 + c.bwM1 + 1 ≤ 2 ∧ c.by0 + c.bhM1 + 1 ≤ 4))
    let overlap (c : Create) : Bool :=
      decide (∃ i : Fin 8, bench.rgn.rgn[i].state ≠ .free ∧ ∃ m ∈ bench.rgn.rgn[i].mbs, c.rect.hasMb m.val = true)
    let request (c : Create) : Bool := decide (c.segMask = 0 ∨ ¬ (1 ≤ c.units ∧ c.units ≤ 31))
    let scarce (c : Create) : Bool :=
      decide ((∃ d ∈ segDirs c.segMask, freeUnits bench d < c.units) ∨ framesEnough bench.mem c.bx0 c.bwM1 c.pages = false)
    let ok (p : Pkt) : Bool :=
      decide (currentOp (maint p) maintQ 0x40 = some p ∧ coreTakes (maint p) maintQ = true ∧ pktReject 32 p.bytes = none)
    let first := withPkts 0 [mkPkt 2 []]
      { maint good with mkh := { bench.mkh with cp := upd bench.mkh.cp 1 fun c => { c with regions := 1 } } }
    ok good ∧ (currentOp first maintQ 0x40 = some good ∧ coreTakes first maintQ = false) ∧
    coreTakes (maint (createPkt 1 0x41 31 1 4)) maintQ = true ∧ currentOp (maint (createPkt 1 0x41 31 1 4)) maintQ 0x40 = some (createPkt 1 0x41 31 1 4) ∧
    pktReject 32 (createPkt 1 0x41 31 1 4).bytes = some Status.reservedNonzero ∧
    (modErr (fun e => { e with rimUe := true }) bench).err.rimUe = true ∧
    (∃ k : Fin 4, (modErr (fun e => { e with hbmUe := e.hbmUe.set 3 true }) bench).err.hbmUe[k] = true) ∧
    maintRefused 0x40 bench = false ∧ (ok (createPkt 8 0x01 1 1 4) ∧ idBad (readCreate (createPkt 8 0x01 1 1 4).bytes)) ∧
    (ok (createPkt 0 0x01 1 1 4) ∧ idBad (readCreate (createPkt 0 0x01 1 1 4).bytes)) ∧
    (ok (createPkt 1 0x09 1 1 4) ∧ ¬ idBad (readCreate (createPkt 1 0x09 1 1 4).bytes) ∧ rectBad (readCreate (createPkt 1 0x09 1 1 4).bytes)) ∧
    (ok (createPkt 1 0x08 1 1 4) ∧ ¬ rectBad (readCreate (createPkt 1 0x08 1 1 4).bytes) ∧ overlap (readCreate (createPkt 1 0x08 1 1 4).bytes)) ∧
    (ok (createPkt 1 1 0 1 4) ∧ ¬ overlap (readCreate (createPkt 1 1 0 1 4).bytes) ∧ request (readCreate (createPkt 1 1 0 1 4).bytes)) ∧
    (ok (createPkt 1 1 32 1 4) ∧ request (readCreate (createPkt 1 1 32 1 4).bytes)) ∧
    (ok (createPkt 1 1 31 1 65536) ∧ ¬ request (readCreate (createPkt 1 1 31 1 65536).bytes) ∧
      scarce (readCreate (createPkt 1 1 31 1 65536).bytes)) ∧
    (¬ idBad (readCreate good.bytes) ∧ ¬ rectBad (readCreate good.bytes) ∧ ¬ overlap (readCreate good.bytes) ∧
      ¬ request (readCreate good.bytes) ∧ ¬ scarce (readCreate good.bytes)) ∧
    pickCore bench ≠ none ∧ pickCore { bench with mkh := State.reset.mkh } = none ∧ bench.noise.state ≠ .failed ∧
    ({ bench with noise := { bench.noise with state := .failed } } : State).noise.state = .failed := by decide +kernel

/-- A region that forms on macro-block 1, its Rim units its own. -/
def forming (n : Fin 8) : State :=
  let s := modRgn n (fun r => { r with state := .forming, bx0 := 1, segMask := 1, rimUnits := 1 }) bench
  let mine (v : Vector (Option (Fin 9)) 32) : Vector (Option (Fin 9)) 32 := v.set 1 (some (ctxOf n))
  { s with rim := { s.rim with owner := upd (upd s.rim.owner 0 mine) 1 mine } }

theorem witness_CreationOpensOrFreesTheRegion :
    let s := forming 7
    let u : State := { s with mkh := { s.mkh with cp := State.reset.mkh.cp } }
    (∀ t ∈ [s, u], t.rgn.rgn[7].state = .forming ∧ drbgServes t 3 = true ∧ unitsTaken t 7 = true ∧ creators t false = true ∧
      t.rgn.rgn[7].byFlr = false ∧ t.rgn.rgn[7].destroyWaits = false ∧ t.rgn.rgn[7].flrWaits = false) ∧
    pickCore s = some 0 ∧ pickCore u = none ∧ bench.rgn.rgn[0].state ≠ .forming ∧ State.reset.noise.state ≠ .ready := by
  decide +kernel

theorem witness_DestructionClosesTheRegion :
    let a := mkPkt 0x41 [1]
    let b := mkPkt 0x41 [0]
    let s := modOut 3 (fun o => { o with owner := .rgn 0, pulses := [aPulse], pin := .high }) (maint b)
    let t := modRgn 0 (fun r => { r with tearingDown := true }) bench
    currentOp (maint a) maintQ 0x41 = some a ∧ coreTakes (maint a) maintQ = true ∧ coreTakes s maintQ = true ∧ pktReject 32 a.bytes = none ∧ (maint a).err.rimUe = false ∧
    Fin.ofNat 8 (fieldAt a.bytes 16 1) = 1 ∧ (maint a).rgn.rgn[1].state = .free ∧
    currentOp s maintQ 0x41 = some b ∧ pktReject 32 b.bytes = none ∧ s.rgn.rgn[0].state ≠ .free ∧ s.rgn.rgn[0].state ≠ .forming ∧
    s.rgn.rgn[0].byFlr = false ∧ s.haly.out[3].owner = .rgn 0 ∧ t.rgn.rgn[0].tearingDown = true ∧ t.rgn.rgn[0].byFlr = false ∧
    bench.rgn.rgn[0].tearingDown = false := by decide +kernel

/-- The bench with a change of entropy source 5. -/
def source (f : Source → Source) : State := modSource 5 f bench

theorem witness_SamplesFeedTheHealthTests :
    let s := source fun x => { x with count := 1023, run := 60, last := some true, first := true, same := 809, gathered := List.replicate 39 true }
    let r := source fun x => { x with run := 61 }
    let w := source fun x => { x with count := 1024, same := 810, passed := true }
    let p := source fun x => { x with count := 1024, same := 809 }
    let stuck := source fun x => { x with run := 90, stuck := true, last := some true }
    (stuck.noise.src[5].stuck = true ∧ s.noise.src[5].stuck = false ∧ r.noise.src[5].stuck = false) ∧
    (p.noise.src[5].failed = false ∧ (source fun x => { x with count := 1024, failed := true }).noise.src[5].failed = true) ∧
    s.dev.powered = true ∧ s.noise.src[5].count < 1024 ∧ s.noise.src[5].run < 61 ∧ bench.noise.src[5].count = 0 ∧
    s.noise.src[5].count ≠ 0 ∧ s.noise.startupDone = true ∧ s.noise.state ≠ .failed ∧ s.noise.src[5].gathered.length < 40 ∧
    61 ≤ r.noise.src[5].run ∧ r.noise.state ≠ .failed ∧ r.noise.src[5].passed = false ∧ s.noise.src[5].count ≠ 1024 ∧
    w.noise.src[5].count = 1024 ∧ 810 ≤ w.noise.src[5].same ∧ w.noise.state ≠ .failed ∧ w.noise.src[5].passed = true ∧
    p.noise.src[5].count = 1024 ∧ p.noise.src[5].same < 810 ∧ p.noise.src[5].passed = false ∧
    (∀ i : Fin 16, i ≠ 5 → ({ p with noise := { p.noise with src := p.noise.src.map fun x => { x with passed := true } } } : State).noise.src[i].passed = true) := by
  decide +kernel

theorem witness_ConditionedBlocksSeedTheDrbg :
    let full : State := { bench with noise := { bench.noise with src := bench.noise.src.map fun x => { x with gathered := List.replicate 40 true } } }
    let held : State := { bench with noise := { bench.noise with state := .gathering, held := [padTo 32 [1], padTo 32 [2]], drbg := none } }
    let due (r t : Nat) : State := { held with noise := { held.noise with
      state := .ready, drbg := some { key := padTo 32 [], v := padTo 16 [], requests := r, ticks := t } } }
    let full' := modSource 5 (fun x => { x with run := 90, stuck := true }) full
    (∀ s ∈ [full, full'], s.dev.powered = true ∧ s.noise.startupDone = true ∧ ∀ k : Fin 16, 40 ≤ s.noise.src[k].gathered.length ∧
      (s.noise.src[k].stuck = true ∨ s.noise.src[k].run < 61 ∧ s.noise.src[k].same < 810)) ∧
    ({ held with dev := { held.dev with stage := .entropy } } : State).dev.stage = .entropy ∧
    (let rom : State := { State.reset with dev := { State.reset.dev with powered := true, stage := .rom } };
      rom.dev.stage = .rom ∧ rom.dev.powered = true ∧ rom.noise.state ≠ .failed) ∧
    held.noise.state = .gathering ∧ held.noise.startupDone = true ∧ held.noise.held.length = 2 ∧
    (∀ x ∈ [(65536, 0), (0, 500000)], (due x.1 x.2).noise.drbg =
        some { key := padTo 32 [], v := padTo 16 [], requests := x.1, ticks := x.2 } ∧
      (65536 ≤ x.1 ∨ 500000 ≤ x.2) ∧ (due x.1 x.2).noise.held.length = 2 ∧ (due x.1 x.2).noise.state ≠ .failed) ∧
    ¬ (65536 ≤ 65535 ∨ 500000 ≤ 499999) ∧ bench.noise.held.length ≠ 2 := by decide +kernel

theorem witness_FreshKeysReachTheShadowRegisters :
    let s := modNoiseRgn 0 (fun x => { x with requested := true }) (ticking id id)
    let k := modNoiseRgn 0 (fun x => { x with nextKey := some (padTo 32 [7]) }) (ticking id id)
    s.noise.rgn[0].requested = true ∧ drbgServes s 1 = true ∧ bench.noise.rgn[0].requested = false ∧
    State.reset.noise.state ≠ .ready ∧ k.noise.rgn[0].nextKey = some (padTo 32 [7]) ∧ k.herd.job[0].plan = some smallPlan := by
  decide +kernel

theorem witness_NoiseFailureEndsWhatNeedsNoise :
    bench.noise.state ≠ .failed ∧ ({ bench with noise := { bench.noise with state := .failed } } : State).noise.state = .failed := by
  decide +kernel

/-! ### Witnesses: the engines -/

/-- Write bytes at context 0's device address a. -/
def poke (a : Nat) (bs : List Byte) (s : State) : State :=
  { s with mem := { s.mem with phys := memWrite s.mem.phys (paOf a) bs } }

/-- A DMA descriptor of one row of 64 bytes. -/
def dmaBytes (src dst : Nat) : List Byte :=
  padTo 64 (padTo 16 [5] ++ padTo 8 (leBytes 6 src) ++ padTo 8 (leBytes 6 dst) ++ [64])

/-- A PE descriptor: operation, slot 0, one component of each operand at 0x10000, 0x20000, 0x30000, 0x40000, 0x50000. -/
def peBytes (op : Byte) (ncomp : Byte) (xa : Nat) : List Byte :=
  padTo 64 (padTo 16 [4] ++ [op, 0, 4 * ncomp, 4, 4 * ncomp, 0, 0, 0] ++ leBytes 6 xa ++ leBytes 6 xa ++ leBytes 6 0x30000
    ++ leBytes 6 0x40000 ++ leBytes 6 0x50000 ++ [0, 1, 1, 1])

/-- An Ibex descriptor: int8, one K-step, with these bytes 16 and 17 and this B address. -/
def ibexBytes (b16 b17 : Byte) (b : Nat) : List Byte :=
  padTo 64 (padTo 16 [1, 1] ++ padTo 16 [b16, b17] ++ leBytes 4 b)

/-- The bench with a running job and these descriptors in flight. -/
def flying (l : List Desc) : State := { bench with jobs := [runner 0], eng := { bench.eng with flight := l } }

theorem witness_DescriptorsArriveAndAreAdmittedInOrder :
    let d := aDesc (dmaBytes 0 0x100)
    let p := aDesc (peBytes 3 1 0)
    let i := aDesc (ibexBytes 0 0 0x1000)
    let full := modIbex 0 (fun x => { x with queue := List.replicate 16 i }) (flying [i])
    let open_ := modIbex 0 (fun x => { x with queue := List.replicate 15 i }) (flying [i])
    let wait : State := { bench with eng := { bench.eng with dmaQueue := [d] } }
    let poor : State := { wait with pwr := { wait.pwr with capW := 40 } }
    (flying [d, p]).eng.flight[0]? = some d ∧ descEngine (flying [d, p]) 0 d.bytes = some .dma ∧
    tileOpen (flying [d, p]) .dma = true ∧ queueRoom (flying [d, p]) .dma = true ∧
    (flying [d, p]).eng.flight[1]? = some p ∧ descEngine (flying [d, p]) 0 p.bytes = some (.pe 0) ∧
    (flying [d, p]).pe[0].owner ≠ some 0 ∧ (modPe 0 (fun x => { x with owner := some 0 }) bench).pe[0].owner = some 0 ∧
    full.eng.flight[0]? = some i ∧ descEngine full 0 i.bytes = some (.ibex 0) ∧ queueRoom full (.ibex 0) = false ∧
    queueRoom open_ (.ibex 0) = true ∧ tileOpen open_ (.ibex 0) = true ∧
    ({ bench with pwr := { bench.pwr with admitHold := true } } : State).pwr.admitHold = true ∧
    (modPwrRgn 7 (fun x => { x with waits := true }) bench).pwr.rgn[7].waits = true ∧ bench.pwr.admitHold = false ∧
    (∀ n : Fin 8, bench.pwr.rgn[n].waits = false) ∧ (∃ c ∈ candidates wait, fits c.admitted = true) ∧
    (candidates poor).length = 1 ∧ (∀ c ∈ candidates poor, fits c.admitted = false) := by decide +kernel

theorem witness_IbexOperationsCompleteAndSaturate :
    let d := aDesc (ibexBytes 0 0 0x1000)
    let bad := aDesc (ibexBytes 0 0 0x1001)
    let late := aDesc (ibexBytes 0x20 0 0x1000)
    let at_ (d : Desc) : State := modIbex 0 (fun x => { x with queue := [d], admitted := true }) bench
    let run := modIbex 0 (fun x => { x with running := some d }) bench
    (∀ x ∈ [d, bad, late], (at_ x).ibex[0].running = none ∧ (engTile (at_ x) (.ibex 0)).cut = false ∧
      ibexHead (at_ x) 0 = some x ∧ (at_ x).ibex[0].admitted = true ∧ (at_ x).ibex[0].queue.head? = some x ∧
      dutyAllows (at_ x) (.ibex 0) = true) ∧
    ibexWaits (at_ late).ibex[0] late = true ∧ ibexWaits (at_ d).ibex[0] d = false ∧ ibexCheck (at_ d) 0 d = none ∧
    ibexWaits (at_ bad).ibex[0] bad = false ∧ ibexCheck (at_ bad) 0 bad = some (.descriptor, 1) ∧
    run.ibex[0].running = some d ∧ (readIbex d.bytes).fmt = 0 ∧ (readIbex d.bytes).field = false ∧
    (run.mesh.links.toList.all fun l => l.vc.isEmpty) = true ∧
    dstServes run (dstOf run 0 (readIbex (ibexBytes 0 0x10 0x1000)).out) (outBytes 1) = true ∧
    (∀ w ∈ [8, 16, 32], -(2 ^ (w - 1)) ≤ (2 ^ (w - 1) - 1 : Int) ∧ -(2 ^ (w - 1)) - 1 < (-(2 ^ (w - 1)) : Int) ∧
      (2 ^ (w - 1) - 1 : Int) < 2 ^ (w - 1)) ∧
    (0 : Int) ≤ 0 ∧ ¬ (0 : Int) ≤ -1 := by decide +kernel

/-- A descriptor for Chamois tile 0, of a kind, with x10-x13 from byte 32. -/
def chamBytes (kind : Byte) : List Byte := padTo 64 (padTo 16 [2, 2] ++ padTo 16 [kind] ++ [1, 2])

/-- Code whose instructions are all of 32 bits. -/
def codeOf (l : List Rv) : List RvStep := l.map fun i => { short := false, insn := i }

theorem witness_KernelsStartEndAndTrap :
    let d := aDesc (chamBytes 0)
    let s := modCham 0 (fun x => { x with queue := [d] }) bench
    let run := modCham 0 (fun x => { x with running := some d }) { bench with jobs := [runner 0] }
    chamKind s 0 0 = some d ∧ s.cham[0].monitor = true ∧ run.cham[0].running = some d ∧ findJob run d.job = some (runner 0) ∧
    (runner 0).phase = .running ∧ bench.cham[0].running = none ∧
    let nop := codeOf [.alu .add false 0 0 (.imm 0)]
    let bad := codeOf [.load 3 false 1 0 4]
    let ct (f : Cham → Cham) := modCham 0 (fun x => f { x with ctMode := true }) run
    (runCham 0 nop run).2 = none ∧ (runCham 0 bad run).2 = some { cause := 4, tval := 4 } ∧
    run.cham[0].core.pc.toNat + 4 ≤ 0x80000 ∧ run.cham[0].ctMode = false ∧ (chamCore run 0).ea 0 4 % 2 ^ 3 ≠ 0 ∧
    (ct id).cham[0].ctMode = true ∧ ctCclk (ct id).cham[0].vec (.mul .div false 1 2 3) = none ∧
    (runCham 0 nop (ct id)).2 = none := by decide +kernel

theorem witness_MoverReachesItsRegionOnly :
    let d := aDesc (chamBytes 0)
    let s := modCham 0 (fun x => { x with running := some d }) { bench with jobs := [runner 0] }
    (runCham 0 (codeOf [.load 3 false 1 0 4]) s).2 = some { cause := 4, tval := 4 } ∧ (runCham 0 [] s).2 = none ∧
    s.cham[0].running = some d ∧ (s.rgn.rgn[0]).holds 6 2 = true ∧ (s.rgn.rgn[0]).holds 7 2 = false ∧
    (s.rgn.rgn[0]).holds 6 3 = false ∧ 0x7FFFF + 1 ≤ 0x80000 ∧ unitOf s.rgn.rgn[0] 6 2 = .herd 7 ∧
    backed (unitOf s.rgn.rgn[0] 6 2) 0x1FFF 1 = true ∧ servesWrite s (unitOf s.rgn.rgn[0] 6 2) 0x1FFF 1 = true := by
  decide +kernel

/-- A partial of a job's slot. -/
def aPartial (idx : Nat) : Partial := { job := key0, src := 0, idx := idx, words := [1, 2] }

/-- A spill of two partials without output. -/
def spillBytes : List Byte := padTo 64 (padTo 16 [2, 2] ++ [1, 0, 2, 0])

/-- An object header with flags valid and serial 5. -/
def shareHead (sk : List Byte) (param : Nat) : Obj :=
  { sk := sk, param := param, hash := padTo 8 [], comps := 1, limb0 := 0, limbs := 1, ntt := false, valid := true, modT := true,
    serial := 5, scale := padTo 8 [] }

/-- RECOMBINE of the share at 0x10000 with the plaintext at 0x20000, r = 2. -/
def recombineBytes : List Byte :=
  padTo 64 (padTo 16 [2, 2] ++ padTo 8 [2, 0, 1] ++ padTo 8 (leBytes 6 0x10000) ++ padTo 8 (leBytes 6 0x20000) ++ padTo 8 (leBytes 6 0x30000) ++ [2])

theorem witness_SpillsAddInOrderAndSharesRecombine :
    let d := aDesc spillBytes
    let at_ (coming slots : List Partial) (queue : List Desc) : State :=
      modCham 0 (fun x => { x with coming := coming, slots := slots, queue := queue }) bench
    let few := at_ [] [aPartial 1] [d]
    let all := at_ [] [aPartial 1, aPartial 0] [d]
    let z := aDesc recombineBytes
    let shares (param : Nat) : State := modRgn 0 (fun r => { r with state := .sealed })
      (poke 0x10000 (objBytes (shareHead (padTo 16 [9]) param)) (poke 0x20000 (objBytes (shareHead noKey 7)) (at_ [] [] [z])))
    (at_ [aPartial 1] [aPartial 1] []).cham[0].coming[0]? = some (aPartial 1) ∧
    (∃ y ∈ (at_ [aPartial 1] [aPartial 1] []).cham[0].slots, y.job = key0 ∧ y.idx = 1) ∧
    (¬ ∃ y ∈ (at_ [aPartial 1] [aPartial 0] []).cham[0].slots, y.job = key0 ∧ y.idx = 1) ∧
    spillWaiting (at_ [aPartial 1] [aPartial 0] []) 0 = none ∧
    (let s := at_ [aPartial 1] [{ aPartial 0 with words := [] }] [d];
      spillWaiting s 0 = some d ∧ spillAddrsOk s 0 d (readSpill d.bytes) = true ∧ (aPartial 1).idx < (readSpill d.bytes).p ∧
      (aPartial 1).words ≠ [] ∧ (∀ y ∈ s.cham[0].slots, y.job = key0 → y.words = []) ∧ d.job = key0) ∧
    (∀ s ∈ [few, all], chamKind s 0 1 = some d ∧ spillAddrsOk s 0 d (readSpill d.bytes) = true ∧
      ∀ x ∈ s.cham[0].slots, x.job = d.job → x.idx < (readSpill d.bytes).p) ∧
    (readSpill d.bytes).listed = true ∧ received few 0 key0 2 < (readSpill d.bytes).p ∧
    received all 0 key0 2 = (readSpill d.bytes).p ∧ (readSpill d.bytes).fmt = 0 ∧
    (2 : Nat) ≤ 2 ∧ (2 ^ 64 : Nat) ≤ 2 ^ 64 ∧
    (∀ s ∈ [shares 7, shares 8], chamKind s 0 2 = some z ∧ s.cham[0].monitor = true ∧
      (readDev s (engEntry (.cham 0)) 0 (fieldAt z.bytes 24 6) 64).2 = none ∧
      (readDev s (engEntry (.cham 0)) 0 (fieldAt z.bytes 32 6) 64).2 = none) ∧
    fieldAt z.bytes 18 1 ≤ 1 ∧ bit (fieldAt z.bytes 17 1) 0 = false ∧ dChain z.bytes = false ∧
    ((shares 7).mesh.links.toList.all fun l => l.vc.isEmpty) = true ∧
    (∀ a ∈ [0x10000, 0x20000], objReservedOk (readDev (shares 7) (engEntry (.cham 0)) 0 a 64).1 = true) ∧
    objReservedOk (padTo 31 [] ++ [8] ++ padTo 32 []) = false ∧
    (∀ x ∈ [(7, true), (8, false)], recombineOk (shares x.1) 0
      (readObj (readDev (shares x.1) (engEntry (.cham 0)) 0 0x10000 64).1)
      (readObj (readDev (shares x.1) (engEntry (.cham 0)) 0 0x20000 64).1) (fieldAt z.bytes 48 8) = x.2) := by decide +kernel

theorem witness_KuduHartsRunDescriptors :
    let d := aDesc [3]
    let busy (l : List (Fin 16)) : State := modKudu 0 (fun k => { k with
      queue := [d], core := k.core.map fun x => { x with pc := 0x40000 }, hart := Vector.ofFn fun h => if h ∈ l then some d else none }) { bench with jobs := [runner 0] }
    let s := busy [1]
    let off := modKudu 0 (fun k => { k with merging := true }) s
    let all := busy (allFin 16)
    s.kudu[0].queue = d :: [] ∧ s.kudu[0].hart[2] = none ∧ (∀ k : Fin 16, 1 ≤ k.val → k < 2 → s.kudu[0].hart[k] ≠ none) ∧
    kuduReady s 0 = true ∧ kuduReady off 0 = false ∧ bench.kudu[0].queue = [] ∧
    (∀ k : Fin 16, 1 ≤ k.val → all.kudu[0].hart[k] ≠ none) ∧ s.kudu[0].hart[1] = some d ∧
    (s.mesh.links.toList.all fun l => l.vc.isEmpty) = true ∧ (runKudu 0 1 (codeOf [.fence]) s).2 = none ∧
    (runKudu 0 1 (codeOf [.ebreak]) s).2 = some { cause := 3, tval := 0x40000 } ∧
    findJob s d.job = some (runner 0) ∧ (runner 0).phase = .running := by decide +kernel

/-- The SHA-256 digest of no bytes. -/
def emptyDigest : List Byte :=
  [0xE3, 0xB0, 0xC4, 0x42, 0x98, 0xFC, 0x1C, 0x14, 0x9A, 0xFB, 0xF4, 0xC8, 0x99, 0x6F, 0xB9, 0x24,
    0x27, 0xAE, 0x41, 0xE4, 0x64, 0x9B, 0x93, 0x4C, 0xA4, 0x95, 0x99, 0x1B, 0x78, 0x52, 0xB8, 0x55]

/-- An image of five empty components with svn 3 and bytes in both signatures. -/
def anImage : List Byte :=
  let zeros (n : Nat) : List Byte := List.replicate n 0
  let entry (k : Byte) : List Byte := [k, 0, 0, 0, 128, 1] ++ zeros 26 ++ emptyDigest
  [0x43, 0x52, 0x57, 0x44, 1, 0, 5, 0, 0, 0, 0, 0, 3] ++ zeros 51 ++ (entry 0 ++ (entry 1 ++ (entry 2 ++ (entry 3 ++ entry 4))))
    ++ [1] ++ zeros 63 ++ [1] ++ zeros 63

theorem witness_MarkhorCoresFailAndBootsFallBack :
    let p := mkPkt 0x46 (padTo 8 [] ++ padTo 8 [] ++ leBytes 4 512)
    let put (s : State) : State := withPkts 32 [p] { s with mem := { s.mem with phys := memWrite s.mem.phys (3 * 2 ^ 21) anImage } }
    let lock := modSecRgn 3 (fun x => { x with noFw := true, tdi := .run }) (maint p)
    let c := modCp 1 (fun x => { x with regions := 1 }) bench
    let b : State := { State.reset with dev := { State.reset.dev with powered := true }, mkh := { State.reset.mkh with trial := true } }
    bench.mkh.lockstepOk = true ∧ State.reset.mkh.lockstepOk = false ∧ c.mkh.cp[1].online = true ∧
    c.mkh.cp[1].regions.getLsbD 0 = true ∧ c.rgn.rgn[0].tearingDown = false ∧ c.rgn.rgn[0].state = .opened ∧
    State.reset.mkh.cp[1].online = false ∧
    (∀ s ∈ [maint p, lock, put bench], currentOp s maintQ 0x46 = some p ∧ coreTakes s maintQ = true ∧ maintRefused 0x46 s = false) ∧ pktReject 32 p.bytes = none ∧
    (∃ n : Fin 8, lock.sec.rgn[n].noFw = true ∧ (lock.sec.rgn[n].tdi = .locked ∨ lock.sec.rgn[n].tdi = .run)) ∧
    (¬ ∃ n : Fin 8, bench.sec.rgn[n].noFw = true ∧ (bench.sec.rgn[n].tdi = .locked ∨ bench.sec.rgn[n].tdi = .run)) ∧
    (readDev (maint p) (queueTile (maint p) maintQ) 8 0 512).2 = none ∧
    imageOk bench.stag.floor (readDev (maint p) (queueTile (maint p) maintQ) 8 0 512).1 512 = false ∧
    (readDev (put bench) (queueTile bench maintQ) 8 0 512) = (anImage, none) ∧
    manifestOk anImage 512 = true ∧ digestsOk anImage = true ∧ bench.stag.floor ≤ imgSvn anImage ∧
    b.dev.powered = true ∧ b.mkh.trial = true ∧ b.dev.ready = false := by decide +kernel

/-- An image that its manifest describes is accepted where the fused policy accepts its signatures, which the model leaves free. -/
theorem witness_MarkhorCoresFailAndBootsFallBack_image (h : policyOk anImage = true) : imageOk 0 anImage 512 = true := by
  have a : (manifestOk anImage 512 && digestsOk anImage && decide (0 ≤ imgSvn anImage)) = true := by decide +kernel
  unfold imageOk
  rw [a, h]
  rfl

theorem witness_DmaCopiesRowByRow :
    let d := aDesc (dmaBytes 0x10000 0x20000)
    let u := aDesc (dmaBytes (2 ^ 47 + 0x2000) 0x20000)
    let f := aDesc (dmaBytes 0x10000 0x400000)
    let at_ (d : Desc) : State := { bench with jobs := [runner 0], eng := { bench.eng with dmaRunning := [d] } }
    ({ bench with eng := { bench.eng with dmaAdmitted := some d } } : State).eng.dmaAdmitted = some d ∧ bench.eng.dmaAdmitted = none ∧
    (∀ x ∈ [d, u, f], (at_ x).eng.dmaRunning[0]? = some x ∧ (dmaRows (at_ x) x).all (rowServed (at_ x) 64) = true ∧
      fieldAt x.bytes 32 4 = 64) ∧
    (copyRows 0 64 (dmaRows (at_ d) d) (at_ d)).2 = (none, 1) ∧
    (copyRows 0 64 (dmaRows (at_ u) u) (at_ u)).2 = (some (.unbacked 2), 0) ∧
    (copyRows 0 64 (dmaRows (at_ f) f) (at_ f)).2 = (some (.fault (0x400000, 2)), 0) ∧
    (∀ x ∈ dmaRows (at_ d) d, dstBacked x.1 64 = true ∧ dstBacked x.2 64 = true ∧ (readDst (at_ d) .dma 0 x.1 64).2 = none ∧
      (writeDst .dma 0 x.2 (readDst (at_ d) .dma 0 x.1 64).1 (at_ d)).2 = none) := by decide +kernel

/-! ### Witnesses: the Polynomial Engines -/

/-- A parameter set of scheme 1: N = 4,096, L = K = dnum = 1, t = 257, two moduli. -/
def aSet : List Byte :=
  leBytes 4 7 ++ [1, 12, 1, 1, 1, 1] ++ List.replicate 6 0 ++ leBytes 8 257 ++ List.replicate 40 0 ++
    (leBytes 8 1073153 ++ leBytes 8 869188 ++ (leBytes 8 1097729 ++ leBytes 8 693469))

/-- The first 8 bytes of its SHA-256. -/
def aSetHash : List Byte := [0x5D, 0x34, 0xA9, 0x12, 0x91, 0xA2, 0x6B, 0x8E]

/-- An object header under that set: two components of one limb. -/
def setHead (ntt : Bool) : List Byte :=
  objBytes { sk := padTo 16 [9], param := 7, hash := aSetHash, comps := 2, limb0 := 0, limbs := 1, ntt := ntt, valid := true,
             modT := false, serial := 0, scale := padTo 8 [] }

/-- A key header under that set: of kind 1, with the tag of no blob. -/
def keyHead : List Byte :=
  padTo 16 [9] ++ leBytes 4 7 ++ aSetHash ++ [1, 1, 0, 0] ++ List.replicate 32 0

/-- A PE descriptor: x and y at xa with nx and one components, z of nz components at za, the key at 0x10080, the scratch
area at 0x80000, kind 1, limb 0 to limb 1. -/
def peOpBytes (op nx nz : Byte) (xa za : Nat) : List Byte :=
  padTo 64 (padTo 16 [4] ++ [op, 0, 4 * nx, 4, 4 * nz, 2, 0, 0] ++ leBytes 6 xa ++ leBytes 6 xa ++ leBytes 6 za
    ++ leBytes 6 0x10080 ++ leBytes 6 0x80000 ++ [0, 1, 1, 1])

/-- The bench with objects at 0x10000 (coefficients) and 0x10040 (evaluations), a key at 0x10080 and the set's descriptor
at 0x100C0, the set in slot 0 of PE 0, which region 0 owns, a running job, and this descriptor admitted. -/
def peAt (d : Desc) : State :=
  modPe 0 (fun x => { x with
    owner := some 0, tagKey := some (padTo 32 []), queue := [d], admitted := true, pset := x.pset.set 0 (some aSet) })
    (poke 0x10000 (setHead false ++ (setHead true ++ (keyHead ++ aSet))) { bench with jobs := [runner 0] })

/-- An operation with its function, x and z's number of components. -/
def peOps : List (Byte × (State → Fin 4 → Fin 8 → PeOp → Pres PeRun) × Nat × Byte) :=
  [(1, runPsetLoad, 0x100C0, 1), (2, runNtt, 0x10000, 1), (3, runIntt, 0x10040, 1), (4, runAdd, 0x10000, 1), (5, runSub, 0x10040, 1),
   (6, runMul, 0x10040, 1), (7, runAuto, 0x10000, 1), (8, runBaseExt, 0x10000, 1), (9, runKeyswitch, 0x10000, 2)]

/-- The operation passes its checks, and whether its opening writes are translated is as said. -/
def peRuns (s : State) (r : Pres PeRun) (written : Bool) : Bool :=
  match r with
  | .ok r => (peWrites 0 0 r.first s).2.isNone == written
  | .error _ => false

/-- The operation fails a check with a cause. -/
def peErrs (r : Pres PeRun) : Bool :=
  match r with
  | .ok _ => false
  | .error (.err _ c) => decide (1 ≤ c)
  | .error (.fault _) => false

/-- An access of the operation is not translated. -/
def peTrips (r : Pres PeRun) : Bool :=
  match r with
  | .ok _ => false
  | .error (.err _ _) => false
  | .error (.fault _) => true

theorem witness_PeOperationsStartOrFault :
    (∀ x ∈ peOps,
      let run (xa za : Nat) (f : State → Pres PeRun → Bool) : Bool :=
        let d := aDesc (peOpBytes x.1 1 x.2.2.2 xa za)
        let s := peAt d
        decide (peNext s 0 x.1.toNat = some d ∧ findJob s d.job = some (runner 0) ∧ (runner 0).phase = .running) &&
          f s (x.2.1 s 0 0 (readPe d.bytes))
      run x.2.2.1 0x30000 (fun s r => peRuns s r true) = true ∧ run 0x60000 0x30000 (fun _ r => peErrs r) = true ∧
      run 0x400000 0x30000 (fun _ r => peTrips r) = true ∧ peNext bench 0 x.1.toNat = none) ∧
    ∀ x ∈ peOps, 2 ≤ x.1 → x.1 ≤ 8 →
      let d := aDesc (peOpBytes x.1 1 x.2.2.2 x.2.2.1 0x600000)
      peNext (peAt d) 0 x.1.toNat = some d ∧ peRuns (peAt d) (x.2.1 (peAt d) 0 0 (readPe d.bytes)) false = true := by decide +kernel

theorem witness_MaskDrawsOnceAndPeResultsCommit :
    let d := aDesc (peOpBytes 10 2 2 0x10000 0x30000)
    let sealed : State := modRgn 0 (fun r => { r with state := .sealed }) (peAt d)
    let dry : State := { sealed with noise := { sealed.noise with state := .gathering } }
    let run (s : State) : Pres PeRun := runMask s 0 0 (readPe d.bytes) (drbgDraw s).1 1
    let at_ (op : Byte) (r : PeResult) : State := modPe 0 (fun x => { x with
      running := some (aDesc (peOpBytes op 1 1 0x10000 0x30000)), result := some r }) bench
    (∀ s ∈ [sealed, dry, peAt d], (peHead s 0).filter (fun d => fieldAt d.bytes 16 1 == 10) = some d ∧ s.pe[0].admitted = true) ∧
    drbgServes dry 1 = false ∧ drbgServes sealed 1 = true ∧ drbgServes (peAt d) 1 = true ∧ sealed.pe[0].serial = 0 ∧
    peRuns sealed (run sealed) true = true ∧ peErrs (run (peAt d)) = true ∧
    (at_ 2 (.commit [] [(0x30000, [1])] none)).pe[0].running.isSome = true ∧
    (at_ 2 (.commit [] [(0x30000, [1])] none)).pe[0].result = some (.commit [] [(0x30000, [1])] none) ∧
    (peCommit 0 0 (.commit [] [(0x30000, [1])] none) (at_ 2 (.commit [] [(0x30000, [1])] none))).2 = none ∧
    (peCommit 0 0 (.commit [] [(0x600000, [1])] none) (at_ 2 (.commit [] [(0x600000, [1])] none))).2.isSome = true ∧
    (peCommit 0 0 (.badTag (0x30000, 16) 8) (at_ 9 (.badTag (0x30000, 16) 8))).2 = some (.err .keyIntegrity 3) ∧
    (peCommit 0 0 (.slot 1 aSet) (at_ 1 (.slot 1 aSet))).2 = none ∧ fieldAt (peOpBytes 2 1 1 0x10000 0x30000) 16 1 ≠ 1 ∧
    bench.pe[0].running = none := by decide +kernel

theorem witness_LendingScrubsThePe :
    let s := peAt (aDesc (peOpBytes 2 1 1 0 0))
    let idle := modPe 0 (fun x => { x with owner := some 1 }) bench
    let shut := modPe 0 (fun x => { x with owner := some 1 }) (modRgn 1 (fun r => { r with state := .sealed }) bench)
    let sealing := modSecRgn 1 (fun x => { x with sealing := true }) idle
    State.reset.dev.ready = false ∧ bench.dev.ready = true ∧ s.pe[0].queue ≠ [] ∧
    (∀ t ∈ [idle, shut, sealing, bench], t.dev.ready = true ∧ t.pe[0].state = .idle ∧ t.pe[0].queue = []) ∧
    (¬ ∃ n, idle.pe[0].owner = some n ∧ (ctxSealed idle (ctxOf n) = true ∨ idle.sec.rgn[n].sealing = true)) ∧
    (shut.pe[0].owner = some 1 ∧ ctxSealed shut (ctxOf 1) = true) ∧
    (sealing.pe[0].owner = some 1 ∧ sealing.sec.rgn[(1 : Fin 8)].sealing = true) ∧
    idle.pe[0].owner ≠ some 7 ∧ idle.pe[0].owner ≠ none ∧ (0x1F : W32).toNat % 16 = 15 ∧ (0x17 : W32).toNat % 16 = 7 ∧
    (8 : W32).toNat % 16 = 8 ∧ (14 : W32).toNat % 16 = 14 ∧ bit (0x17 : W32).toNat 4 = true := by decide +kernel

theorem witness_PolynomialArithmeticIsModular :
    (2 : Nat) ≤ 5 ∧ ([1, 2] : Limb).length = 2 ^ 1 ∧ 2 ^ (2 * 2 ^ 1) % 5 = 1 ∧ 1 < 2 ^ 1 ∧
    (1 : Nat) ≤ 1 ∧ 1 < ([0, 4] : Limb).length ∧ 1 < ([2, 3, 9] : Limb).length := by decide +kernel

theorem witness_InttUndoesNtt :
    modulusOk (2 ^ 1) (1048589, 1009596) = true ∧ modulusOk (2 ^ 12) (1073153, 869188) = true ∧
    modulusOk (2 ^ 17) (5767169, 1893080) = true ∧ (17 : Nat) ≤ 17 ∧ ([0, 1048588] : Limb).length = 2 ^ 1 ∧
    (∀ w ∈ ([0, 1048588] : Limb), w < 1048589) := by decide +kernel
/-! ### Witnesses: memory, host, owners, power -/

/-- A request of context 0 from the Herd tile at (1, 0), of region 0's queue 0. -/
def req (addr : Nat) (write : Option (List Byte)) (port : PortEvent) : MemReq :=
  { ctx := 0, x := 1, y := 0, job := some (0, 0), addr := addr, write := write, len := 8, port := port }

/-- The bench with a running job, region 0 as said. -/
def runs (state : RState) : State := modRgn 0 (fun r => { r with state := state }) { bench with jobs := [runner 0] }

theorem witness_MemoryRequestsTranslateOrFault :
    let s := runs .opened
    let sealed := runs .sealed
    let inv : State := { s with mem := { s.mem with ctx := upd s.mem.ctx 2 fun c => { c with invBusy := true } } }
    let at_ (m : MemReq) (w : Bool) : Nat ⊕ Bool := match translate s (entryTile m.x m.y) m.ctx m.addr w with
      | .ok (.dev _ _) => .inr true
      | .ok (.host _) => .inr false
      | .ok .shut => .inl 98
      | .error e => .inl e
    at_ (req 0 none .clean) true = .inr true ∧ at_ (req 0x200000 none .clean) true = .inr false ∧
    at_ (req 0x600000 none .clean) true = .inl 3 ∧ at_ (req 0 none .clean) false = .inr true ∧
    at_ (req 0x200000 none .clean) false = .inr false ∧ at_ (req 0x400000 none .clean) false = .inl 2 ∧
    (∀ a ∈ [0, 0x200000, 0x400000, 0x600000, 0x1FFFF8], a % 2 ^ 21 + 8 ≤ 2 ^ 21) ∧
    requestJob bench (req 0x600000 none .clean) = none ∧ requestJob s (req 0x600000 none .clean) = some (runner 0) ∧
    findJob s (runner 0).ref = some (runner 0) ∧ (runner 0).phase = .running ∧
    requestStack s (entryTile 1 0) (req 0 none .corrected) = some 0 ∧
    requestStack s (entryTile 1 0) (req 0 (some [1]) .uncorrectable) = some 0 ∧
    requestStack sealed (entryTile 1 0) (req 0 none .tagMismatch) = some 0 ∧ sealed.rgn.rgn[(0 : Fin 8)].state = .sealed ∧
    sealed.rgn.rgn[(0 : Fin 8)].tearingDown = false ∧ s.mem.tlb = [] ∧ (65535 : Nat) < 65536 ∧
    (s.mem.tlb.filter (Tlb.at 3 2)).length ≤ 64 ∧ s.dev.ready = true ∧ State.reset.dev.ready = false ∧
    (0x18 : W32).toNat % 16 = 8 ∧ 9 ≤ (9 : W32).toNat % 16 ∧ inv.dev.powered = true ∧ inv.dev.perst = false ∧
    inv.mem.ctx[(2 : Fin 9)].invBusy = true := by decide +kernel

theorem witness_MemoryRequestsTranslateOrFault_tags :
    let s := modMem (fun m => { m with ctx := upd m.ctx 0 fun c => { c with tags := true } }) (runs .sealed)
    let good := modMem (putTags (0, 0) [16384]) s
    (∀ w ∈ [true, false], (translate s (entryTile 1 0) 0 0 w).toOption = some (.dev (2 ^ 21) (some (0, 0)))) ∧
    (partLines (2 ^ 21) 8).all (fun l => !tagBad good.mem (0, 0) l) = true ∧ linesOf (2 ^ 21) 8 = [16384] ∧
    (128 * 16384 + 128 ≤ tagAddr 0 16384 ∨ tagAddr 0 16384 + 8 ≤ 128 * 16384) ∧
    tagBad good.mem (0, 0) 16384 = false ∧ tagBad s.mem (0, 0) (2 ^ 21 / 128) = true ∧ 2 ^ 21 % 128 + 8 ≤ 128 ∧
    (0 : Fin 9) = ctxOf 0 ∧ s.rgn.rgn[(0 : Fin 8)].state = .sealed ∧ s.rgn.rgn[(0 : Fin 8)].tearingDown = false ∧
    requestStack s (entryTile 1 0) (req 0 none .tagMismatch) = some 0 ∧
    requestPlace s (entryTile 1 0) (req 0 none .tagMismatch) = some (.dev (2 ^ 21) (some (0, 0))) := by decide +kernel

/-- Context 8's page 3 is the frame that holds region 0's page table, which is SEALED. -/
theorem witness_MemoryRequestsTranslateOrFault_shut :
    let s := modMem (fun m => { m with
      phys := memWrite m.phys (ptbAt + 4096 + 24) (leBytes 8 (16 * 12160 + 3)) }) (runs .sealed)
    (translate s (entryTile 1 0) 8 0x600000 true).toOption = some .shut ∧
    (translate s hostTile 8 0x600000 true).toOption = some .shut ∧ ctxSealed s 8 = false := by decide +kernel

theorem witness_HostAccessesReachOrAreRefused :
    let win (entry ctx page : Nat) : WinEnt := { entry := entry, valid := true, ctx := ctx, page := page }
    let s : State := { bench with mem := { bench.mem with win := [win 0 0 0, win 1 0 1, win 2 0 2, win 3 8 0], frameSel := 5 } }
    let sealed := modRgn 0 (fun r => { r with state := .sealed }) s
    let mine (f : Nat) (state : RState) (sealing : Bool) : State := modSecRgn 0 (fun x => { x with sealing := sealing })
      (modRgn 0 (fun r => { r with state := state }) { s with mem := { s.mem with frameSel := f } })
    let out (o : Nat) (write : Bool) : Nat ⊕ Bool :=
      match (s.mem.win.find? fun w => w.valid && w.entry == o / 2 ^ 21) with
      | none => .inl 99
      | some w => match translate s hostTile (Fin.ofNat 9 w.ctx) (w.page * 2 ^ 21 + o % 2 ^ 21) write with
        | .ok (.dev _ _) => .inr true
        | .ok (.host _) => .inr false
        | .ok .shut => .inl 98
        | .error e => .inl e
    let keyed : State := modMem (fun m => { m with frameSel := 1, ctx := upd m.ctx 0 fun c => { c with key := some (padTo 64 [3]) } }) s
    (frameOwner keyed.mem 1 = 0 ∧ keyed.mem.frameSel = 1 ∧ keyed.mem.aside = [] ∧ Memory.wf keyed.mem.phys = true ∧
      ownerKey keyed.mem 0 = some (padTo 64 [3]) ∧ ownerKey keyed.mem 15 ≠ some (padTo 64 [3]) ∧ (0 : W32).toNat % 16 = 0) ∧
    ((2 ^ 21 - 1) % 2 ^ 21 + ([1] : List Byte).length = 2 ^ 21 ∧ 2 ^ 21 - 1 + 1 < 2 ^ (30 + s.pcie.bar4)) ∧
    s.dev.ready = true ∧ 0x200000 * 4 < 2 ^ (30 + s.pcie.bar4) ∧ out (0x200000 * 4) false = .inl 99 ∧
    out 0x40 false = .inr true ∧ out 0x40 true = .inr true ∧ out 0x200040 false = .inr false ∧ out 0x200040 true = .inr false ∧
    out 0x400000 false = .inl 2 ∧ out 0x600000 false = .inr true ∧ ctxSealed sealed 0 = true ∧ ctxSealed s 0 = false ∧
    isFrame 5 = true ∧ frameOwner s.mem 5 = 15 ∧ frameOwner s.mem 1 = 0 ∧ isFrame 0x3FFF = false ∧
    (s.rgn.rgn[(0 : Fin 8)].state = .opened ∧ s.sec.rgn[(0 : Fin 8)].sealing = false) ∧
    (mine 1 .sealed false).rgn.rgn[(0 : Fin 8)].state = .sealed ∧ (mine 1 .opened true).sec.rgn[(0 : Fin 8)].sealing = true ∧
    (8 : W32).toNat % 16 < 9 ∧ ¬ ((9 : W32).toNat % 16 < 9 ∨ (9 : W32).toNat % 16 = 15) ∧ (15 : W32).toNat % 16 = 15 := by
  decide +kernel

theorem witness_FunctionsTakeTheirConfiguration :
    let t (d : Tdi) : State := modSecRgn 7 (fun x => { x with tdi := d }) bench
    let r (state : RState) (sealing : Bool) : State := modSecRgn 0 (fun x => { x with sealing := sealing })
      (modRgn 0 (fun r => { r with state := state }) bench)
    (t .locked).sec.rgn[(7 : Fin 8)].tdi = .locked ∧ (t .run).sec.rgn[(7 : Fin 8)].tdi = .run ∧ (7 : Nat) ≤ 7 ∧
    0x20 % 8 = 0 ∧ 0x20 % 4 = 0 ∧ 0x22 % 4 ≠ 0 ∧ 0x24 % 8 ≠ 0 ∧ bench.dev.stage ≠ .failed ∧ State.reset.dev.ready = false ∧
    0x10000 % 4 = 0 ∧ bench.dev.ready = true ∧
    (∀ s ∈ [r .opened false, r .forming false, r .opened true, r .sealed false, r .faulted false],
      s.rgn.rgn[(0 : Fin 8)].tearingDown = false ∧ s.sec.rgn[(0 : Fin 8)].tdi = .unlocked) ∧
    bench.rgn.rgn[(1 : Fin 8)].state = .free ∧ bench.rgn.rgn[(1 : Fin 8)].tearingDown = false ∧
    bench.sec.rgn[(1 : Fin 8)].tdi = .unlocked ∧ (r .forming false).rgn.rgn[(0 : Fin 8)].state = .forming ∧
    (r .opened true).sec.rgn[(0 : Fin 8)].sealing = true ∧ (r .opened true).rgn.rgn[(0 : Fin 8)].state ≠ .free := by decide +kernel

/-- A session of owner 5…5. -/
def aSession : Session := { sid := 3, owner := List.replicate 32 5, mutualAuth := true, since := 9 }

/-- The bench with this session, region 0 in a state and with these security registers. -/
def inSession (x : Session) (state : RState) (f : SecRgn → SecRgn) : State :=
  modSecRgn 0 (fun y => f { y with owner := List.replicate 32 5, epoch := 4 })
    (modRgn 0 (fun r => { r with state := state }) { bench with sec := { bench.sec with sessions := [x] } })

theorem witness_SessionsServeTheirOwner :
    let full : State := { bench with sec := { bench.sec with sessions := List.replicate 8 aSession } }
    let m1 : List Byte := [0x80, 1, 0, 3, 1, 0, 0, 0]
    let late : List Byte := [0x80, 1, 0, 3, 2, 0, 0, 0]
    let m2 : List Byte := [0x80, 2, 0, 0, 4, 0, 0, 0]
    let old : List Byte := [0x80, 2, 0, 0, 3, 0, 0, 0]
    let m3 : List Byte := [0x80, 3, 0, 0] ++ List.replicate 32 1
    let o : Offer := { sid := 3, owner := List.replicate 32 5, policy := 3, gen := 1 }
    let s := inSession aSession .opened id
    let offered := inSession aSession .opened fun y => { y with offer := some o }
    let due := inSession aSession .sealed fun y => { y with attest := true, withdrawnAt := 8 }
    let early := inSession aSession .sealed fun y => { y with attest := true, withdrawnAt := 9 }
    let calm := inSession aSession .sealed id
    let other := inSession { aSession with owner := List.replicate 32 6 } .sealed id
    let lone := inSession { aSession with mutualAuth := false } .opened id
    secureServes bench = true ∧ secureServes State.reset = false ∧ 8 ≤ full.sec.sessions.length ∧
    bench.sec.sessions.length < 8 ∧ bench.sec.aliasOk = true ∧
    (∀ t ∈ [s, offered, due, early, calm, other, lone, inSession aSession .faulted id],
      secureServes t = true ∧ (findSession t 3).isSome = true) ∧
    (∀ m ∈ [m1, late], m.length = 8 ∧ slice m 0 2 = [0x80, 1] ∧ fieldAt m 2 1 ≤ 7 ∧ fieldAt m 3 1 < 4) ∧
    ¬ (fieldAt [0x80, 1, 0, 4, 0, 0, 0, 0] 3 1 < 4) ∧
    (∀ m ∈ [m2, old], m.length = 8 ∧ slice m 0 2 = [0x80, 2] ∧ fieldAt m 2 1 ≤ 7 ∧ fieldAt m 3 1 = 0) ∧
    (m3.length = 36 ∧ slice m3 0 2 = [0x80, 3] ∧ fieldAt m3 2 1 ≤ 7 ∧ fieldAt m3 3 1 = 0) ∧
    (slice [0x80, 4, 7, 0] 0 2 = [0x80, 4] ∧ fieldAt [0x80, 4, 7, 0] 2 1 = 7 ∧ fieldAt [0x80, 4, 7, 0] 3 1 = 0) ∧
    findSession lone 3 = some { aSession with mutualAuth := false } ∧ findSession s 3 = some aSession ∧
    due.rgn.rgn[(0 : Fin 8)].state ≠ .opened ∧ s.rgn.rgn[(0 : Fin 8)].state = .opened ∧
    s.rgn.rgn[(0 : Fin 8)].gen.toNat = fieldAt m1 4 4 ∧ s.rgn.rgn[(0 : Fin 8)].gen.toNat ≠ fieldAt late 4 4 ∧
    s.sec.rgn[(0 : Fin 8)].offer = none ∧ offered.sec.rgn[(0 : Fin 8)].offer ≠ none ∧
    (∀ t ∈ [due, early, calm], aSession.owner = ownerMeas t 0) ∧ List.replicate 32 6 ≠ ownerMeas other 0 ∧
    other.rgn.rgn[(0 : Fin 8)].state = .sealed ∧
    (due.sec.rgn[(0 : Fin 8)].attest = true ∧ due.sec.rgn[(0 : Fin 8)].withdrawnAt < aSession.since ∧
      due.sec.rgn[(0 : Fin 8)].epoch.toNat = fieldAt m2 4 4 ∧ due.sec.rgn[(0 : Fin 8)].epoch.toNat ≠ fieldAt old 4 4) ∧
    aSession.since ≤ early.sec.rgn[(0 : Fin 8)].withdrawnAt ∧ calm.sec.rgn[(0 : Fin 8)].attest = false ∧
    (inSession aSession .faulted id).rgn.rgn[(0 : Fin 8)].state ≠ .sealed := by decide +kernel

/-- The empty message has no vendor-defined wrapper. -/
theorem witness_SessionsServeTheirOwner_bare (b : List Byte) : ([] : List Byte) ≠ vendorMsg 0xFE b := by
  simp [vendorMsg]

theorem witness_StreamsAndInterfacesMoveAsStated :
    let y : Stream := { id := 1, secure := true, keySet := 0, fn := 1, fails := 65535, keys := Vector.replicate 2 (Vector.replicate 6 (some [1])) }
    let stream (y : Stream) (s : State) : State := { s with sec := { s.sec with stream := s.sec.stream.set 7 y } }
    let s := stream y (inSession aSession .sealed id)
    let bare := stream { y with secure := false, keys := Vector.replicate 2 ((Vector.replicate 6 (some [1])).set 3 none) } s
    let due := stream y (inSession aSession .sealed fun x => { x with attest := true })
    let t (d : Tdi) : State := stream y (inSession aSession .sealed fun x => { x with tdi := d, stream := some 7 })
    (∀ u ∈ [s, bare, due, t .locked, t .run], secureServes u = true ∧ findSession u 3 = some aSession) ∧
    bare.sec.stream[(7 : Fin 8)].secure = false ∧ s.sec.stream[(7 : Fin 8)].secure = true ∧
    s.sec.stream[(7 : Fin 8)].keySet = 0 ∧ (∀ i : Fin 6, s.sec.stream[(7 : Fin 8)].keys[(1 : Fin 2)][i] ≠ none) ∧
    bare.sec.stream[(7 : Fin 8)].keys[(1 : Fin 2)][(3 : Fin 6)] = none ∧ s.sec.stream[(7 : Fin 8)].id ≠ 2 ∧
    (s.sec.rgn[(0 : Fin 8)].tdi = .unlocked ∧ s.sec.rgn[(0 : Fin 8)].attest = false ∧
      s.rgn.rgn[(0 : Fin 8)].state = .sealed ∧ aSession.owner = ownerMeas s 0 ∧ s.sec.stream[(7 : Fin 8)].fn = vfOf 0) ∧
    due.sec.rgn[(0 : Fin 8)].attest = true ∧ (t .locked).sec.rgn[(0 : Fin 8)].tdi = .locked ∧
    (t .run).sec.rgn[(0 : Fin 8)].tdi ≠ .locked ∧
    ((t .run).sec.rgn[(0 : Fin 8)].stream = some 7 ∧ (t .run).sec.rgn[(0 : Fin 8)].tdi = .run) := by decide +kernel

theorem witness_SealingChecksTakesAndCompletes :
    let own : List Byte := List.replicate 32 5
    let p := mkPkt 0x42 (padTo 16 [0] ++ own)
    let o : Offer := { sid := 3, owner := own, policy := 1, gen := 1 }
    let s := withPkts 32 [p] (inSession aSession .opened fun y => { y with offer := some o })
    let stale := withPkts 32 [p] (inSession aSession .opened fun y => { y with offer := some { o with gen := 2 } })
    let shut := modRgn 0 (fun r => { r with tearingDown := true }) s
    let waits := withPkts (qIndex 0 3) [mkPkt 3 []] s
    let busy : State := { s with jobs := [runner 0] }
    let failed : State := { s with noise := { s.noise with state := .failed } }
    let sealing := inSession aSession .opened fun y => { y with sealing := true }
    (∀ t ∈ [s, stale, shut, waits, busy, failed], currentOp t maintQ 0x42 = some p ∧ coreTakes t maintQ = true ∧ maintRefused 0x42 t = false) ∧
    pktReject 32 p.bytes = none ∧ shut.rgn.rgn[(0 : Fin 8)].tearingDown = true ∧
    (∀ t ∈ [s, stale, waits, busy, failed], t.rgn.rgn[(0 : Fin 8)].state = .opened ∧ t.rgn.rgn[(0 : Fin 8)].tearingDown = false) ∧
    undispatched waits.que[qIndex 0 3] = true ∧ (∃ j ∈ busy.jobs, j.ref.r = 0 ∧ j.phase ≠ .staged) ∧
    (∀ t ∈ [s, stale, failed], (¬ ∃ q : Fin 4, undispatched t.que[qIndex 0 q] = true) ∧ t.jobs = []) ∧
    (s.sec.rgn[(0 : Fin 8)].offer = some o ∧ o.owner = slice p.bytes 32 32 ∧ o.gen = s.rgn.rgn[(0 : Fin 8)].gen) ∧
    stale.sec.rgn[(0 : Fin 8)].offer = some { o with gen := 2 } ∧ stale.rgn.rgn[(0 : Fin 8)].gen = 1 ∧
    failed.noise.state = .failed ∧ s.noise.state ≠ .failed ∧ bench.sec.rgn[(0 : Fin 8)].sealing = false ∧
    (sealing.sec.rgn[(0 : Fin 8)].sealing = true ∧ creators sealing false = true ∧
      sealing.rgn.rgn[(0 : Fin 8)].state = .opened ∧ sealing.rgn.rgn[(0 : Fin 8)].tearingDown = false ∧
      sealing.rgn.rgn[(0 : Fin 8)].flrWaits = false ∧ drbgServes sealing 4 = true) := by decide +kernel

theorem witness_GatesDutyHeatAndCuts :
    let sel (k : Nat) (s : State) : State := { s with pwr := { s.pwr with tileSel := k } }
    let cut (due : Bool) : State := modTile 1 (fun t => { t with cut := true, scrubDue := due }) bench
    let job : Job := { runner 0 with engines := [.herd 0] }
    let busy : State := sel 1 { bench with jobs := [job] }
    let sealed := sel 1 (runs .sealed)
    let sealedBusy : State := { sealed with jobs := [job] }
    let off : State := { bench with tick := { bench.tick with tn := 128 } }
    (∀ x ∈ [0, 15], ∀ y ∈ [0, 11], x < 16 ∧ y < 12) ∧ 165000 < 165001 ∧ ¬ 172000 < 172000 ∧ bench.dev.ready = true ∧
    State.reset.dev.ready = false ∧ gatable 0 0 = false ∧ gatable 1 0 = true ∧ gateSealed sealed 1 0 = true ∧
    gateSealed busy 1 0 = false ∧ tileBusy busy 1 0 = true ∧ tileBusy bench 1 0 = false ∧ sealed.mkh.lockstepOk = true ∧
    tileBusy sealedBusy 1 0 = true ∧ gateSealed sealedBusy 1 0 = true ∧ tileBusy sealed 1 0 = false ∧
    State.reset.mkh.lockstepOk = false ∧ (1 : W32).toNat % 2 = 1 ∧ off.tick.running = true ∧ off.tick.tn.toNat % 64 = 0 ∧
    bench.tick.tn.toNat % 64 ≠ 0 ∧ tileIdx 1 0 = 1 ∧ bench.pwr.tile[tileIdx 1 0].cut = false ∧ bench.dev.powered = true ∧
    cutUnit 1 0 = some (.herd 0) ∧ cutUnit 0 0 = none ∧ cutUnit 15 4 = some (.pe 2) ∧ findJob busy job.ref = some job ∧
    job.phase ≠ .staged ∧ ctxSealed busy (ctxOf job.ref.r) = false ∧ tileOf sealed 0 1 0 = true ∧
    sealed.rgn.rgn[(0 : Fin 8)].state = .sealed ∧ (cut true).pwr.tile[tileIdx 1 0].scrubDue = true ∧
    (cut false).pwr.tile[tileIdx 1 0].scrubDue = false ∧ (cut false).pwr.tile[tileIdx 1 0].cut = true ∧
    ({ State.reset with dev := { State.reset.dev with powered := false } } : State).dev.powered = false ∧
    (1519 : Int) < 1520 ∧ (1760 : Int) ≤ 1760 := by decide +kernel
/-! ### Witnesses: queues, packets, jobs -/

theorem witness_QueuesTakeDoorbellsAndFetchPackets :
    let q (n : Nat) : State := withPkts 0 (List.replicate n (mkPkt 0 [])) bench
    let more (n : Nat) : State := modQue 0 (fun q => { q with latched := 2 }) (q n)
    let sealed := modRgn 0 (fun r => { r with state := .sealed }) (q 0)
    let bell (gen pos : Nat) : W64 := BitVec.ofNat 64 (gen * 2 ^ 32 + pos)
    let rest (d : W64) : Bool := decide ((q 0).que[(0 : Fin 33)].enable = true ∧ pageShut (q 0) .pf 0 = false ∧
      ((d.setWidth 32 : W32) - (q 0).que[(0 : Fin 33)].cons).toNat ≤ 2 ^ (q 0).que[(0 : Fin 33)].size ∧
      ((q 0).que[(0 : Fin 33)].latched - (q 0).que[(0 : Fin 33)].cons).toNat ≤
        ((d.setWidth 32 : W32) - (q 0).que[(0 : Fin 33)].cons).toNat)
    pageOf .pf 0 = true ∧ pageOf (.vf 1) 0 = false ∧ tdiAdmits (q 0) .pf = true ∧ rest (bell 1 17) = true ∧
    rest (bell 1 18) = false ∧ rest (bell 2 2) = true ∧ (bell 1 17).toNat / 2 ^ 32 = (q 0).que[(0 : Fin 33)].gen.toNat ∧
    (bell 2 2).toNat / 2 ^ 32 ≠ (q 0).que[(0 : Fin 33)].gen.toNat ∧ pageShut (q 0) .pf 0 = false ∧ pageShut sealed .pf 0 = true ∧
    queWritable (q 0) .pf 0 = true ∧ queWritable bench .pf 0 = true ∧ queWritable sealed .pf 0 = false ∧
    (0x2041 : W32).toNat % 2 = 1 ∧ bits (0x2041 : W32).toNat 8 4 = 4 ∧ bits (0x2041 : W32).toNat 13 9 = 16 ∧
    bits (0x2031 : W32).toNat 8 4 = 3 ∧ bench.que[(0 : Fin 33)].enable = false ∧ bench.que[(0 : Fin 33)].size < 4 ∧
    (q 0).que[(0 : Fin 33)].enable = true ∧ (0 : W32).toNat % 2 = 0 ∧ (q 0).que[(0 : Fin 33)].pkts = [] ∧
    (modQue 0 (fun q => { q with state := .idle }) (q 0)).que[(0 : Fin 33)].state = .idle ∧ (q 1).que[(0 : Fin 33)].pkts ≠ [] ∧
    fetches bench 0 = false ∧ fetches (q 0) 0 = true ∧ (q 0).que[(0 : Fin 33)].latched = (q 0).que[(0 : Fin 33)].cons ∧
    fetches (more 5) 0 = true ∧ (more 5).que[(0 : Fin 33)].latched ≠ (more 5).que[(0 : Fin 33)].cons ∧ 5 ≤ ahead (more 5) 0 ∧
    fetches (more 4) 0 = true ∧ ahead (more 4) 0 < 5 ∧ (more 0).rgn.rgn[(0 : Fin 8)].tearingDown = false ∧
    fetches (modRgn 0 (fun r => { r with tearingDown := true }) (more 0)) 0 = true ∧
    (modQue 0 (fun q => { q with loc := true }) (more 0)).que[(0 : Fin 33)].loc = true := by decide +kernel

theorem witness_PacketsHaveTheirEffect :
    let one (i : Fin 33) (op : Byte) (body : List Byte) : State := withPkts i [mkPkt op body] bench
    let now (s : State) (i : Fin 33) (op : Nat) : Bool := decide (coreTakes s i = true ∧ ∃ p ∈ currentOp s i op, pktReject i.val p.bytes = none)
    let two (p : Pkt) (q : Byte) (pos : Nat) : State :=
      withPkts 0 [mkPkt 2 ([q, 0, 0, 0] ++ leBytes 4 pos)] (withPkts 1 [p] { bench with jobs := [{ runner 0 with ref := { r := 0, q := 1, pos := 0 } }] })
    let armed := modOut 0 (fun o => { o with sched := some schedule }) (one 32 0x45 [])
    (∀ op ∈ [0, 2, 3, 4, 5, 6, 7], currentOp bench 0 op = none) ∧
    (∀ x ∈ ([(0, []), (2, [0, 0, 0, 0, 9]), (3, [63, 0, 0, 0, 0, 0, 0, 0, 5]), (4, [63]), (5, [255]), (6, [255]),
        (6, [7, 0, 0, 0, 3]), (7, [])] : List (Byte × List Byte)), now (one 0 x.1 x.2) 0 x.1.toNat = true) ∧
    (∃ p ∈ currentOp (one 0 0 [1]) 0 0, pktReject 0 p.bytes = some Status.reservedNonzero) ∧
    bench.evt.rgn[(0 : Fin 8)].event[(255 : Fin 256)].gen = 0 ∧
    (modEvent 0 255 (fun _ => { state := .signalled, gen := 4 }) bench).evt.rgn[(0 : Fin 8)].event[(255 : Fin 256)].gen.toNat ≠ 0 ∧
    (let b := querySnapshot (one 0 7 []) 0 0 (qIndex 0 0)
     0 + b.length ≤ 2 ^ 21 ∧ (translate (one 0 7 []) (queueTile bench 0) (qCtx 0) 0 true).toOption = some (.dev (paOf 0) none) ∧
       writeFails (one 0 7 []) (.dev (paOf 0) none) b.length = false ∧ b ≠ []) ∧
    (∀ x ∈ [(two (mkPkt 3 []) 1 9, Target.none), (two (mkPkt 3 []) 1 0, .unstarted),
        (two { mkPkt 4 [] with started := true } 1 0, .waiting),
        (two { mkPkt 1 [] with started := true } 1 0, .job { r := 0, q := 1, pos := 0 })],
      (currentOp x.1 0 2).isSome = true ∧ coreTakes x.1 0 = true ∧
        cancelTarget x.1 0 1 ((currentOp x.1 0 2).map (fun p => BitVec.ofNat 32 (fieldAt p.bytes 20 4)) |>.getD 0) = x.2) ∧
    ((findJob (two { mkPkt 1 [] with started := true } 1 0) { r := 0, q := 1, pos := 0 }).map Job.phase = some .running) ∧
    (let s := withPkts 0 [mkPkt 2 [0, 0, 0, 0, 1], { mkPkt 3 [] with pos := 1 }] bench
     (currentOp s 0 2).isSome = true ∧ cancelTarget s 0 0 1 = .unstarted) ∧
    (∀ s ∈ [one 32 0x45 [], armed], (∃ p ∈ currentOp s maintQ 0x45, pktReject 32 p.bytes = none) ∧ coreTakes s maintQ = true ∧ maintRefused 0x45 s = false) ∧
    (∀ n : Fin 8, bench.tick.rgn[n].ticking = false) ∧ (∀ o : Fin 8, bench.haly.out[o].armed = false) ∧
    armed.haly.out[(0 : Fin 8)].armed = true := by decide +kernel

/-- A control word. -/
def word (op flags : Byte) (t x y : Nat) : List Byte := [op, flags] ++ leBytes 2 t ++ leBytes 4 x ++ leBytes 8 y

/-- END. -/
def endWord : List Byte := word 14 0 0 0 0

/-- A program at 0x1000 that preloads the plan at 0x1040: no slot entry, the HERD descriptor at 0x10C0, its HCB at 0x1100,
its ACB at 0x1140 with one breakpoint at 0x1180. -/
def planBytes : List Byte :=
  word 11 0 0 0 0x1040 ++ (endWord ++ (padTo 32 [] ++ (padTo 64 (leBytes 4 80 ++ leBytes 4 64 ++ leBytes 6 0x10C0 ++ [1]) ++
    (padTo 64 [1, 1] ++ (padTo 64 (padTo 16 [] ++ leBytes 6 0x1100 ++ [0, 0] ++ leBytes 6 0x1140) ++ (smallHcb ++
      (padTo 64 ([1, 0, 0, 0] ++ List.replicate 14 0 ++ leBytes 6 0x1180) ++ padTo 8 [0, 0, 0, 0, 0, 0, 0, 1])))))))

/-- What staging answers: a plan, none, or a status. -/
def stagedAs (s : State) (p : Pkt) : Option Bool × Nat :=
  match stageRun s 0 0 p with
  | .ok (_, some _) => (some true, 0)
  | .ok (_, none) => (some false, 0)
  | .error e => (none, e.status)

/-- The RUN packet of a mode. -/
def runP (mode : Nat) : Pkt :=
  { pos := 0, bytes := runPkt mode 0, marked := false, started := false, gen := 0, done := none }

/-- The bench with these bytes at 0x1000, and a RUN at the head of queue 0 whose job is as said. -/
def atRun (mode : Nat) (bs : List Byte) (j : Option (Job → Job)) : State :=
  withPkts 0 [runP mode] (poke 0x1000 bs { bench with jobs := (j.map fun f => f (runner mode)).toList })

/-- What standsAt says of a job of region 0's queue 0 whose word has an opcode. -/
def stands (s : State) (j : Job) (op : Nat) : Bool :=
  let w := readCw (currentWord s j).1
  decide ((stepJobs s 0 0).head? = some j ∧ coreTakes s (qIndex 0 0) = true ∧ findJob s j.ref = some j ∧ (currentWord s j).2 = none ∧ cwOk w = true ∧ w.op = op)

/-- The 64 bytes at a device address, as the command processor of region 0 reads them. -/
def headAt (s : State) (a : Nat) : List Byte × MemFault := readDev s (regionCpTile s 0) (ctxOf 0) a 64

theorem witness_JobsStageStartAndLaunch :
    let ready (j : Job) : Job := { j with phase := .staged, go := true }
    let run := atRun 0 endWord none
    let tick := atRun 0x4C planBytes none
    let full := modTickJob 0 (fun t => { t with shadow := some smallPlan }) tick
    let bad := atRun 0x4C endWord none
    let staged := modTickJob 0 (fun t => { t with shadow := some smallPlan }) (atRun 0x4C [] (some ready))
    let due := modSecRgn 0 (fun x => { x with attest := true }) staged
    let at_ (w : List Byte) (f : Job → Job) : State := atRun 0 (w ++ (endWord ++ (padTo 32 [] ++ dmaBytes 0 0))) (some f)
    let launch := at_ (word 1 0 0 0 0x1040) id
    let arm := at_ (word 2 0 7 0 0x1040) id
    let anArm (e : EState) : Arm := { event := 7, gen := 1, head := 0x1040, doneEvent := some 3, due := e }
    nextRun bench 0 0 = none ∧
    (∀ s ∈ [(run, 0), (tick, 0x4C), (full, 0x4C), (bad, 0x4C)], nextRun s.1 0 0 = some (runP s.2) ∧
      startsPackets s.1 0 = true ∧ s.1.rgn.rgn[(0 : Fin 8)].state ≠ .disabled ∧ currentOp s.1 0 1 = some (runP s.2)) ∧
    stagedAs run (runP 0) = (some false, 0) ∧ stagedAs tick (runP 0x4C) = (some true, 0) ∧
    stagedAs full (runP 0x4C) = (some true, 0) ∧ shadowFree tick 0 = true ∧ shadowFree full 0 = false ∧
    stagedAs bad (runP 0x4C) = (none, Status.tickPlanInvalid) ∧
    (∀ s ∈ [staged, due], currentOp s (qIndex 0 0) 1 = some (runP 0x4C) ∧ findJob s key0 = some (ready (runner 0x4C))) ∧
    (∀ s ∈ [staged, due], ticksAlone s (ready (runner 0x4C)) = true ∧ coreTakes s (qIndex 0 0) = true) ∧
    startRefused staged 0 (runner 0x4C).pkt = none ∧ startRefused due 0 (runner 0x4C).pkt = some Status.securePowerWithdrawn ∧
    staged.herd.job[(0 : Fin 8)].shadow = some smallPlan ∧
    (findJob (atRun 0 [] (some id)) key0).map Job.phase = some .running ∧
    (∀ s ∈ [(launch, 1, 0x1040), (at_ (word 1 4 0 0 0x1040) id, 1, 0x1040), (at_ (word 1 0 0 0 0x1048) id, 1, 0x1048),
        (at_ (word 1 0 0 0 0x1000) id, 1, 0x1000), (arm, 2, 0x1040)],
      let w := readCw (currentWord s.1 (runner 0)).1
      stands s.1 (runner 0) s.2.1 = true ∧ (addrOperand s.1 0 (runParam (runner 0).pkt) 0 w).toOption = some s.2.2) ∧
    (headAt launch 0x1040).2 = none ∧ launch.noise.state ≠ .failed ∧ dispatchError launch 0 (headAt launch 0x1040).1 = none ∧ 0x1048 % 64 ≠ 0 ∧
    dispatchError (at_ (word 1 0 0 0 0x1000) id) 0 (headAt (at_ (word 1 0 0 0 0x1000) id) 0x1000).1 ≠ none ∧
    (let s := at_ (word 2 0 7 0 0x1040) fun j => { j with arms := List.replicate 16 (anArm .unset) }
     ∃ j ∈ s.jobs, stands s j 2 = true ∧ 16 ≤ j.arms.length) := by decide +kernel

theorem witness_JobsStageStartAndLaunch_later :
    let at_ (w : List Byte) (f : Job → Job) : State := atRun 0 (w ++ (endWord ++ (padTo 32 [] ++ dmaBytes 0 0))) (some f)
    let anArm (e : EState) : Arm := { event := 7, gen := 1, head := 0x1040, doneEvent := some 3, due := e }
    let fire (e : EState) : State := at_ endWord fun j => { j with arms := [anArm e] }
    let later (e : Effect) : State := at_ endWord fun j => { j with deferred := [{ eff := e, after := [] }] }
    (∀ e ∈ [EState.signalled, .error], ∃ j ∈ (fire e).jobs, j.ref = key0 ∧ j.firing = true ∧ j.arms[0]? = some (anArm e) ∧
      (anArm e).due ≠ .unset ∧ findJob (fire e) j.ref = some j ∧ (headAt (fire e) 0x1040).2 = none ∧
      dispatchError (fire e) 0 (headAt (fire e) 0x1040).1 = none) ∧
    (∀ e ∈ [Effect.fence 63 5, .event 7 0, .store 0x8 5], ∃ j ∈ (later e).jobs, j.ref = key0 ∧ j.pointDue = true ∧
      findJob (later e) j.ref = some j ∧ j.deferred = [{ eff := e, after := [] }]) ∧
    (translate (later (.store 8 5)) (regionCpTile bench 0) (ctxOf 0) 8 true).toOption = some (.dev (paOf 8) none) := by decide +kernel
/-! ### Witnesses: control words, faults -/

/-- The bench with a running job of region 0's queue 0 at this word, with this mode. -/
def wordAtMode (mode : Nat) (w : List Byte) (f : Job → Job) : State := atRun mode (w ++ endWord) (some f)

/-- Does the job of that state stand at a word of an opcode, kind and operands as said? -/
def standsAs (s : State) (op : Nat) (p : Job → Word → Bool) : Bool :=
  match s.jobs with
  | [j] => stands s j op && p j (readCw (currentWord s j).1)
  | _ => false

/-- A word's value and address operand. -/
def valueOf (s : State) (j : Job) (w : Word) : Option Nat := (valueOperand s 0 (runParam j.pkt) j.lc[0].toNat w).toOption
def addrOf (s : State) (j : Job) (w : Word) : Option Nat := (addrOperand s 0 (runParam j.pkt) j.lc[0].toNat w).toOption

/-- What R303's comparison of a kind says of v and x. -/
def cmpHolds (kind : Nat) (v : W64) (x : W32) : Bool :=
  let z : W64 := x.setWidth 64
  match kind with
  | 0 => decide (v = z) | 1 => decide (v ≠ z) | 2 => decide (v.toNat < x.toNat) | 3 => decide (x.toNat ≤ v.toNat)
  | 4 => decide (v.toInt < x.toInt) | 5 => decide (x.toInt ≤ v.toInt) | 6 => decide (v &&& z ≠ 0) | _ => decide (v &&& z = 0)

theorem witness_ControlWordsHaveTheirEffect :
    let at_ (w : List Byte) : State := wordAtMode 0 w id
    let is (w : List Byte) (op : Nat) (p : Job → Word → Bool) : Bool := standsAs (at_ w) op p
    let val (w : List Byte) (op v : Nat) : Bool := is w op fun j w => valueOf (at_ []) j w == some v
    let lock (l : LockReg) : State := modLock 0 47 (fun _ => l) (at_ (word 9 0 47 0 0))
    let held (k : JobRef) (ws : List JobRef) : LockReg := { state := .held, holder := some k, epoch := 0, waiters := ws }
    let other : JobRef := { r := 0, q := 1, pos := 0 }
    is (word 3 0 255 0 0) 3 (fun _ w => w.x % 2 ^ 28 == 0 && (getEvent bench 0 w.t).gen == 0) = true ∧
    is (word 3 4 0 (2 ^ 28 + 1) 0) 3 (fun _ w => w.x % 2 ^ 28 == 1) = true ∧
    val (word 4 0 63 0 7) 4 7 = true ∧ val (word 5 0 63 0 7) 5 7 = true ∧
    is (word 5 4 255 0 0) 5 (fun _ w => bits w.flags 3 2 == 1) = true ∧
    (∀ k ∈ List.range 8, (cmpHolds k 1 1 || cmpHolds k 1 2 || cmpHolds k 1 0) = true ∧
      (cmpHolds k 1 1 && cmpHolds k 1 2 && cmpHolds k 1 0) = false) ∧
    is (word 6 4 9 1 0) 6 (fun _ w => bit w.flags 2) = true ∧
    standsAs (at_ (word 6 0 9 1 0x1008)) 6 (fun j w => addrOf bench j w == some 0x1008 &&
      (readWord (at_ []) (regionCpTile bench 0) (ctxOf 0) 0x1008).2 == none) = true ∧
    is (word 6 1 9 1 4) 6 (fun j w => w.amode == 1 && addrOf bench j w == some 0x2004) = true ∧
    (∀ f ∈ ([0, 4, 8, 12] : List Byte), val (word 7 f 9 0 3) 7 3 = true) ∧ is (word 8 0 65535 0 0) 8 (fun _ _ => true) = true ∧
    (∀ l ∈ [{ held key0 [] with state := .free, holder := none }, { held key0 [] with state := .broken, holder := none },
        held key0 [], held other [], held key0 [other]],
      standsAs (lock l) 9 (fun _ w => getLock (lock l) 0 w.t == l) = true) ∧
    standsAs (modLock 0 0 (fun _ => held key0 [other]) (at_ (word 10 0 0 0 0))) 10 (fun _ w => w.t == 0) = true ∧
    standsAs (wordAtMode 0x4C (word 11 0 0 0 0) id) 11 (fun j _ => j.pc == 0 && j.tick) = true ∧
    is (word 11 0 0 0 0) 11 (fun j _ => !j.tick) = true ∧ val (word 12 0 0 0 100) 12 100 = true ∧ val (word 12 4 0 0 101) 12 101 = true := by decide +kernel

/-- The rest of the clauses of ControlWordsHaveTheirEffect: arms, EMIT and its kinds, unreadable operands, ended words. -/
theorem witness_ControlWordsHaveTheirEffect_arms_and_emits :
    let at_ (w : List Byte) : State := wordAtMode 0 w id
    let is (w : List Byte) (op : Nat) (p : Job → Word → Bool) : Bool := standsAs (at_ w) op p
    let noVal (w : List Byte) (op : Nat) : Bool := is w op fun j w => (valueOf (at_ []) j w).isNone
    let noAddr (w : List Byte) (op : Nat) : Bool := is w op fun j w => (addrOf (at_ []) j w).isNone
    let arm (y : Nat) (rec : List Byte) : State := modOut 7 (fun o => { o with owner := .rgn 0 })
      (poke 0x2000 rec (at_ (word 12 0x78 0 0 y)))
    let map (kind y : Nat) : List Byte := word 13 8 0 (3 + kind * 2 ^ 16 + 2 ^ 18) y
    let sealed (w : List Byte) : State := modRgn 0 (fun r => { r with state := .sealed }) (at_ w)
    (∀ x ∈ [(arm 110 (padTo 32 [0, 0, 1, 0, 0, 0, 16]), true, 0), (arm 101 (padTo 32 [0, 0, 1, 0, 0, 0, 16]), true, 1),
        (arm 110 (padTo 32 [0, 0, 1, 0x10]), false, 0)],
      standsAs x.1 12 (fun j w => bit w.flags 3 && bits w.flags 6 4 == 7 && (valueOf x.1 j w).isSome) = true ∧
        (readDev x.1 (regionCpTile x.1 0) (ctxOf 0) 0x2000 32).2 = none ∧
        schedRecOk (readDev x.1 (regionCpTile x.1 0) (ctxOf 0) 0x2000 32).1 = x.2.1 ∧
        (x.2.1 = true → armCheck x.1 (.rgn 0) 7
          (recordRequest (readDev x.1 (regionCpTile x.1 0) (ctxOf 0) 0x2000 32).1 (if x.2.2 = 0 then 110 else 101)) = x.2.2)) ∧
    is (word 13 0 0 5 0x1008) 13 (fun j w => w.emitKind == 0 && addrOf bench j w == some 0x1008) = true ∧
    is (word 13 4 0 0 0) 13 (fun _ w => w.emitKind == 1) = true ∧
    (∀ x ∈ [(0, 0), (1, 0), (2, 0x40001), (3, 0x200000)],
      is (map x.1 x.2) 13 (fun j w => w.emitKind == 2 && w.mapKind == x.1 && valueOf bench j w == some x.2) = true) ∧
    tagBits (sealed (map 1 0)) 0 3 = none ∧ tagBits bench 0 3 = some 0 ∧
    (5 < 12160 ∧ pageStack (bench.rgn.rgn[(0 : Fin 8)]).bx0 (bench.rgn.rgn[(0 : Fin 8)]).bwM1 3 = 1 ∧ frameOwner bench.mem (2 ^ 14 + 5) = 15) ∧
    isStore 0x40001 = true ∧ frameOwner { bench.mem with owner := [(0x40001, 0)] } 0x40001 = 0 ∧ frameOwner bench.mem 0x40001 ≠ 0 ∧
    0x200000 % 2 ^ 21 = 0 ∧ hostMaps bench 0 = true ∧ is endWord 14 (fun _ _ => true) = true ∧
    (∀ x ∈ ([(4, 1), (5, 1), (7, 1), (12, 1), (12, 9)] : List (Nat × Nat)),
      noVal (word (BitVec.ofNat 8 x.1) (BitVec.ofNat 8 x.2) 0 0 1) x.1 = true) ∧
    (∀ k ∈ [2, 3], noVal (word 13 9 0 (k * 2 ^ 16) 1) 13 = true) ∧
    (∀ x ∈ ([(1, 2), (2, 2), (6, 2), (13, 2)] : List (Nat × Nat)),
      noAddr (word (BitVec.ofNat 8 x.1) (BitVec.ofNat 8 x.2) 0 0 1) x.1 = true) ∧
    stepJobs bench 0 0 = [] ∧
    (∀ s ∈ [at_ (word 15 0 0 0 0), wordAtMode 0 [] fun j => { j with pkt := pktBytes 1 (leBytes 6 0x400000) }],
      ∃ j ∈ s.jobs, (stepJobs s 0 0).head? = some j ∧ findJob s j.ref = some j ∧
        ((currentWord s j).2 ≠ none ∨ cwOk (readCw (currentWord s j).1) = false)) ∧
    (wordAtMode 0 [] fun j => { j with wait := .tick 100 }).jobs.any (fun j => match j.wait with
      | .tick t => decide (t ≤ bench.tick.tn.toNat)
      | _ => false) = true := by decide +kernel

theorem witness_FaultsDrainKillAndRestart :
    let st (mode : Nat) (f : Job → Job) : State := atRun mode endWord (some fun j => f { j with phase := .stopped, drainOn := true })
    let locked (ws : List JobRef) : State := modLock 0 47 (fun _ => { state := .held, holder := some key0, epoch := 0, waiters := ws })
      { bench with jobs := [runner 0] }
    let plain := st 0x0C id
    let busy (f : Job → Job) : State := modIbex 0 (fun x => { x with running := some (aDesc [1]) }) (st 0x0C f)
    let cause (f : Job → Job) : Job → Job := fun j => f { j with cause := some (5, Status.jobFault) }
    (∀ ws ∈ [[], [({ r := 0, q := 1, pos := 0 } : JobRef)]], findJob (locked ws) key0 = some (runner 0) ∧
      (getLock (locked ws) key0.r 47).holder = some key0) ∧
    (bench.jobs.find? fun j => j.firing && decide (j.budget ≤ j.idle)) = none ∧
    (∃ j ∈ (atRun 0 [] (some fun j => { j with budget := 3, idle := 3 })).jobs, j.ref = key0 ∧ j.firing = true ∧ j.budget ≤ j.idle) ∧
    drainingJob bench 0 0 = none ∧
    (∀ s ∈ [plain, busy id, busy fun j => { j with stopTn := 36 }, st 0x0C (cause id), st 0x0C (cause fun j => { j with epoch := 1 }),
        st 0x0C fun j => { j with cancel := some { i := 1, pos := 0 } }],
      ∃ j ∈ drainingJob s 0 0, findJob s j.ref = some j ∧ modeRestartable j.pkt = true ∧ modeRestartBudget j.pkt = 1 ∧
        threeFaulted s j.ref = false) ∧
    (∀ j ∈ plain.jobs, draining plain j = false ∧ j.cancel = none ∧ j.cause = none) ∧
    (∀ j ∈ (busy fun j => { j with stopTn := 37 }).jobs, draining (busy fun j => { j with stopTn := 37 }) j = true ∧
      ¬ j.stopTn + bench.err.drainTicks[(0 : Fin 8)] ≤ (bench.tick.tn.toNat : Int)) ∧
    (∀ j ∈ (busy fun j => { j with stopTn := 36 }).jobs, j.stopTn + bench.err.drainTicks[(0 : Fin 8)] ≤ (bench.tick.tn.toNat : Int)) ∧
    codeRestartable 5 = true ∧ codeRestartable (0, Status.jobFault).1 = false := by decide +kernel

theorem witness_FaultsDrainKillAndRestart_captures :
    let capped (a : Nat) : State := atRun 0 [] (some fun j => { j with phase := .staged, caps := [(a, 64)] })
    let again (f : Job → Job) (bs : List Byte) : State := atRun 0x0C bs (some fun j => f { j with phase := .restoring, go := true })
    let faulted := modRgn 0 (fun r => { r with state := .faulted, before := .opened, recovery := 4 }) bench
    (∀ a ∈ ([0x2000, 0x400000] : List Nat), currentOp (capped a) (qIndex 0 0) 1 = some (runP 0) ∧ freeSaveSlot (capped a) 0 0 = some 0 ∧
      ∃ j ∈ (capped a).jobs, findJob (capped a) key0 = some j ∧ j.phase = .staged ∧ j.caps ≠ [] ∧ j.saveSlot = none) ∧
    (copyOut 0 [(0x2000, 64)] (saveAddr key0 0) (capped 0x2000)).2 = none ∧
    (copyOut 0 [(0x400000, 64)] (saveAddr key0 0) (capped 0x400000)).2.isSome = true ∧
    (∀ e ∈ ([1, 2] : List Nat), ∀ bs ∈ [endWord, word 15 0 0 0 0], ∃ j ∈ (again (fun j => { j with epoch := e }) bs).jobs, j.ref = key0 ∧
      j.phase = .restoring ∧ j.go = true ∧ j.epoch + j.extra = e ∧ modeRestartBudget j.pkt = 1 ∧ j.saveSlot = none) ∧
    (again id endWord).que[qIndex 0 0].pkts.find? (fun p => p.pos == 0) = some (runP 0x0C) ∧
    stagedAs (again id endWord) (runP 0x0C) = (some false, 0) ∧
    stagedAs (again id (word 15 0 0 0 0)) (runP 0x0C) = (none, Status.reservedNonzero) ∧
    (faulted.rgn.rgn[(0 : Fin 8)].state = .faulted ∧ faulted.rgn.rgn[(0 : Fin 8)].recovery = 4 ∧
      faulted.rgn.rgn[(0 : Fin 8)].tearingDown = false) ∧ bench.rgn.rgn[(0 : Fin 8)].state ≠ .faulted ∧
    viewOk bench .pf = true ∧ viewOk bench (.vf 0) = true ∧ viewOk bench (.vf 1) = false ∧ viewRegion .pf = none ∧
    viewRegion (.vf 0) = some 0 := by decide +kernel
/-! ### Witnesses: the ring, start-up, Stag -/

/-- The bench as member 2 of a formed ring with both ports UP, region 0's stream 9 registered; port Up and the ring as said. -/
def member (g : RingState → RingState) (f : RingPort → RingPort) : State :=
  let up (x : RingPort) : RingPort := { x with link := .up }
  let s := modRingRgn 0 (fun x => { x with stream := 9 }) bench
  modPort 0 f (modPort 0 up (modPort 1 up (modRing (fun r => g { r with
    state := .joined, insert := true, position := 2, present := 0x0017, id := 77 }) s)))

/-- The first 12 bytes of a flit of stream 9 from member 1 for a position, its seq 0. -/
def flitHead (dst : Byte) : List Byte := [1, 8, 9, 1 + 16 * dst, 0, 0, 0, 0, 0, 0, 8, 0]

/-- That flit with a CRC and 240 bytes of ones. -/
def ringFlit (dst : Byte) (crc : Nat) : List Byte := flitHead dst ++ (leBytes 4 crc ++ List.replicate 240 1)

/-- Do these states follow each other, one after each piece of a CRC-32C's bytes? -/
def crcChain : List (List Byte) → W32 → List W32 → Bool
  | [], _, [] => true
  | p :: ps, c, d :: ds => p.foldl crcByte c == d && crcChain ps d ds
  | _, _, _ => false

theorem crcChain_foldl (ps : List (List Byte)) (c : W32) (ds : List W32) (h : crcChain ps c ds = true) :
    ps.flatten.foldl crcByte c = ds.getLastD c := by
  induction ps generalizing c ds with
  | nil => cases ds with
    | nil => rfl
    | cons d ds => simp [crcChain] at h
  | cons p ps ih => cases ds with
    | nil => simp [crcChain] at h
    | cons d ds =>
      simp only [crcChain, Bool.and_eq_true, beq_iff_eq] at h
      rw [List.flatten_cons, List.foldl_append, h.1, ih d ds h.2, List.getLastD_cons]

/-- The flit's bytes under the CRC, in pieces. -/
def flitPieces (dst : Byte) : List (List Byte) := flitHead dst :: List.replicate 8 (List.replicate 30 1)

theorem ringFlit_sound (dst : Byte) (crc : Nat) (ds : List W32)
    (hs : slice (ringFlit dst crc) 0 12 ++ slice (ringFlit dst crc) 16 240 = (flitPieces dst).flatten)
    (hf : fieldAt (ringFlit dst crc) 12 4 = crc) (h : crcChain (flitPieces dst) 0xFFFFFFFF ds = true)
    (hc : (~~~ds.getLastD 0xFFFFFFFF).toNat = crc) :
    fieldAt (ringFlit dst crc) 12 4 = (flitCrc (ringFlit dst crc)).toNat := by
  rw [flitCrc, crc32c, hs, crcChain_foldl _ _ _ h, hf, hc]

/-- The codewords that carry it in flit slot 0, before a flit of zeros. -/
def flitCodewords : List (List Byte) := ((tickCodewords (padTo 80 []) [ringFlit 2 0xCD17CA33, padTo 256 []]).drop 1).take 4

/-- The flit is read from its codewords, and its CRC holds. -/
theorem witness_RingPortsCarryMarkersAndFlits_sound : soundFlit 0 flitCodewords = some (ringFlit 2 0xCD17CA33) := by
  have h : readFlit 0 flitCodewords = some (ringFlit 2 0xCD17CA33) := by decide +kernel
  have c : fieldAt (ringFlit 2 0xCD17CA33) 12 4 = (flitCrc (ringFlit 2 0xCD17CA33)).toNat :=
    ringFlit_sound 2 _ [0x476159BB, 0x081EC65F, 0xC09C0F3D, 0xCAEB7486, 0x3219BCCA, 0xADDE2E90, 0xA18C87AE, 0xD08A57A5, 0x32E835CC]
      (by decide +kernel) (by decide +kernel) (by decide +kernel) (by decide +kernel)
  have l : (ringFlit 2 0xCD17CA33).length = 256 := by decide +kernel
  rw [soundFlit, h, Option.filter_some, if_pos]
  rw [l, c]
  simp

/-- A marker of the lead at position 0. -/
def aMarker : Marker :=
  { tn := 100, ringId := 77, pos := 0, state := 2, lead := true, line := false, hops := 0, ack := 0, nak := false, echoTn := 99,
    echoHold := 0, serial := padTo 16 [], present := 0x0017 }

/-- The codeword that carries it, and that codeword with a wrong byte. -/
def markerWord : List Byte := (tickCodewords aMarker.bytes []).headD []

theorem witness_RingPortsCarryMarkersAndFlits_marker :
    readMarker markerWord = some (aMarker, false) ∧ readMarker (flipAt (9, 5) markerWord) = some (aMarker, true) ∧
    readMarker [] = none := by decide +kernel

theorem witness_RingPortsCarryMarkersAndFlits :
    let s := member id id
    let waits := member id fun x => { x with retry := [{ bytes := [], fwd := true }], ackTicks := 2 }
    let quiet := member id fun x => { x with missed := 3 }
    let tired := member id fun x => { x with resent := 8 }
    let alone := modPort 1 (fun x => { x with link := .down }) (modTick (fun t => { t with source := .ring, lock := .locked }) quiet)
    let trains := member (fun r => { r with state := .joining }) fun x => { x with link := .training, good := 63 }
    let lead := modTick (fun t => { t with source := .ring }) (member (fun r => { r with lead := true }) id)
    let own := ringFlit 2 0xCD17CA33
    (waits.ring.port[(0 : Fin 2)].link = .up ∧ waits.ring.port[(0 : Fin 2)].retry ≠ [] ∧ 2 ≤ waits.ring.port[(0 : Fin 2)].ackTicks) ∧
    s.ring.port[(0 : Fin 2)].retry = [] ∧ alone.ring.port[(1 : Fin 2)].link = .down ∧ s.ring.port[(0 : Fin 2)].link = .up ∧
    4 ≤ silentTicks quiet.ring.port[(0 : Fin 2)] ∧ 8 ≤ tired.ring.port[(0 : Fin 2)].resent ∧ silentTicks s.ring.port[(0 : Fin 2)] < 4 ∧
    s.ring.port[(0 : Fin 2)].resent < 8 ∧
    (alone.ring.state = .joined ∧ alone.ring.lead = false ∧ alone.ring.port[(1 : Fin 2)].link ≠ .up ∧ alone.tick.source = .ring ∧
      alone.tick.lock = .locked ∧ 4 ≤ silentTicks alone.ring.port[(0 : Fin 2)]) ∧
    bench.ring.insert = false ∧ s.ring.insert = true ∧ trains.ring.state = .joining ∧ 64 ≤ trains.ring.port[(0 : Fin 2)].good + 1 ∧
    trains.ring.port[(0 : Fin 2)].link = .training ∧
    (lead.ring.state = .joined ∧ aMarker.ringId = lead.ring.id ∧ lead.ring.lead = true ∧ aMarker.lead = true ∧
      aMarker.pos < lead.ring.position ∧ lead.ring.port[(0 : Fin 2)].link = .up ∧ aMarker.hops = 0 ∧ lead.tick.source = .ring) ∧
    (let other := modRing (fun r => { r with position := 3, present := 0x001B }) s
     flitType own = 1 ∧ flitSeq own = s.ring.port[(0 : Fin 2)].rxSeq ∧ flitDst own = s.ring.position ∧
     (flitDst own ≠ other.ring.position ∧ other.ring.state = .joined) ∧ other.ring.present.getLsbD (flitDst own) = false ∧
     (modRing (fun r => { r with position := 3 }) s).ring.present.getLsbD (flitDst own) = true ∧ soundFlit 0 [] = none) ∧
    flitSeq own ≠ (member id fun x => { x with rxSeq := 1 }).ring.port[(0 : Fin 2)].rxSeq ∧ s.ring.state = .joined ∧
    s.ring.port[(1 : Fin 2)].link = .up ∧ streamRegion bench own = none ∧ streamRegion s own = some 0 ∧
    s.ring.rgn[(0 : Fin 8)].sealed = false := by decide +kernel

/-- What a joining module sees of a ring with a lead, one hop Down of it. -/
def aRing : Formation :=
  { closedLoop := true, leadSeen := true, lowerSerialSeen := false, hopsDown := some 1, hopsUp := none, formed := false, present := 1,
    members := 2, tn := 101 }

theorem witness_RingMembersJoinLeaveAndExchangeBlocks :
    let join (flags : Byte) : Pkt := mkPkt 0x43 [77, 0, 0, 0, 2, flags]
    let with_ (p : Pkt) (g : RingState → RingState) : State := withPkts 32 [p] (member g id)
    let alone (p : Pkt) : State := with_ p fun r => { r with state := .alone }
    let late : State := modTickRgn 7 (fun t => { t with ticking := true }) (alone (join 1))
    let leave := mkPkt 0x44 []
    let joining (from_ : Bool) (limit : Nat) : State :=
      member (fun r => { r with state := .joining, fromRing := from_, joinLimit := limit, joinTicks := 20 }) id
    (∀ f ∈ ([0, 1] : List Byte), pktReject 32 (join f).bytes = none ∧ currentOp (alone (join f)) maintQ 0x43 = some (join f) ∧
      coreTakes (alone (join f)) maintQ = true ∧ maintRefused 0x43 (alone (join f)) = false) ∧ (alone (join 0)).ring.state = .alone ∧
    (with_ (join 1) id).ring.state ≠ .alone ∧ currentOp late maintQ 0x43 = some (join 1) ∧ late.ring.state = .alone ∧
    (fieldAt (join 1).bytes 21 1 % 2 = 1 ∧ tnFree late = false ∧ late.tick.tn.toNat ≠ 99) ∧ fieldAt (join 0).bytes 21 1 % 2 = 0 ∧
    currentOp (with_ leave id) maintQ 0x44 = some leave ∧ coreTakes (with_ leave id) maintQ = true ∧ pktReject 32 leave.bytes = none ∧
    maintRefused 0x44 (with_ leave id) = false ∧ (with_ leave id).ring.state = .joined ∧
    currentOp (alone leave) maintQ 0x44 = some leave ∧ (alone leave).ring.state ≠ .joined ∧ bench.ring.state ≠ .joining ∧
    (joining true 100).ring.state = .joining ∧ (joining true 101).tick.tn.toNat < (joining true 101).ring.joinLimit ∧
    (joining true 100).ring.joinLimit ≤ (joining true 100).tick.tn.toNat ∧ (joining true 100).ring.leadSeen = false ∧
    (joining false 110).ring.fromRing = false ∧ (joining false 110).ring.joinLimit ≤ 100 + (joining false 110).ring.joinTicks / 2 ∧
    aRing.leadSeen = true ∧ givenPosition { aRing with members := 1 } = none ∧ givenPosition aRing = some 1 ∧
    (joining true 110).tick.tn + 1 = BitVec.ofNat 64 aRing.tn ∧
    tnFree (modTickRgn 7 (fun t => { t with ticking := true }) (joining true 110)) = false ∧ tnFree (joining true 110) = true := by decide +kernel

theorem witness_RingMembersJoinLeaveAndExchangeBlocks_blocks :
    let plan : Plan := { smallPlan with
      outs := [{ bid := 15, dst := 4, down := true, len := 240 }],
      ins := [{ src := 1, bid := 0, lx := 0, ly := 0, cutoff := 24, addr := 0x102000, len := 121, cham := false }] }
    let buf (n : Option (Nat × List Byte)) : InBuf := { newest := n, last := (9, []), coming := [] }
    let ring (f : RingRgn → RingRgn) : State := modTickJob 0 (fun t => { t with plan := some plan, part := .ingest, init := false })
      (modTickRgn 0 (fun t => { t with ticking := true }) (modNoiseRgn 0 (fun x => { x with mode := 2 }) (modPwrRgn 0 (fun x => { x with level := 16 })
        (modRingRgn 0 f (member id id)))))
    let staged (n : Nat) : State :=
      { ring id with rim := { bench.rim with blocks := upd bench.rim.blocks 0 fun _ => [(5, 15, List.replicate n 1)] } }
    ((takeStaged (staged 240) 0 15 240).map Prod.fst = some (List.replicate 240 1) ∧
      (∀ b ∈ (staged 239).rim.blocks[(0 : Fin 8)], b.2.1 = 15 → b.2.2.length < 240) ∧
      ownsWay (ring id) 0 0 = false ∧ ownsWay (ring id) 0 1 = false ∧
      routeFrom (modPort 0 (fun x => { x with link := .down }) (modRing (fun r => { r with line := true }) (ring id))) 0 4 = some 1) ∧
    (ring fun x => { x with key := some [1], keyTicks := 2 ^ 21 - 1 }).ring.rgn[(0 : Fin 8)].keyTicks < 2 ^ 21 ∧
    (ring fun x => { x with key := some [1], keyTicks := 2 ^ 21 }).ring.rgn[(0 : Fin 8)].key ≠ none ∧
    (ring id).ring.rgn[(0 : Fin 8)].sealed = false ∧ (ring id).ring.state = .joined ∧ streamLead (ring id) 0 = false ∧
    drbgServes (ring id) 2 = true ∧ (ring fun x => { x with sealed := true }).ring.rgn[(0 : Fin 8)].sealed = true ∧
    ((ring id).herd.job[(0 : Fin 8)].plan).bind (fun p => p.outs.find? fun o => o.bid == 15) = some { bid := 15, dst := 4, down := true, len := 240 } ∧
    ((ring id).herd.job[(0 : Fin 8)].plan).bind (fun p => p.outs.find? fun o => o.bid == 14) = none ∧
    routeFrom (ring id) 1 4 = some 1 ∧ routeFrom (modPort 1 (fun x => { x with link := .down }) (ring id)) 1 4 = none ∧
    (List.replicate 240 (1 : Byte)).length = 240 ∧ (ring id).ring.rgn[(0 : Fin 8)].stream ≠ 0 ∧
    bench.ring.rgn[(0 : Fin 8)].stream = 0 ∧ (ring id).ring.position < 16 ∧
    (ring fun x => { x with sealed := true }).ring.rgn[(0 : Fin 8)].key = none ∧ startsFresh (ring id) 0 = true ∧
    startsFresh bench 0 = false ∧ unitOf (ring id).rgn.rgn[(0 : Fin 8)] 0 0 = .herd 0 ∧
    (∀ n ∈ [some (10, [(1 : Byte)]), some (9, [1]), none], ((ring fun x => { x with bufs := [buf n] }).ring.rgn[(0 : Fin 8)].bufs[0]?) = some (buf n)) ∧
    (9 : Nat) < 10 ∧ bits (0xC0 : W32).toNat 7 0 = 192 ∧ 192 + ((allFin 8).map fun m => bench.ring.rgn[m].rsvUp).sum ≤ 192 ∧
    bits (0xC1 : W32).toNat 7 0 = 193 ∧ State.reset.dev.ready = false := by decide +kernel

theorem witness_ResetsPowerAndStartup :
    let at_ (g : Stage) (trial bad : Bool) : State := { State.reset with
      dev := { State.reset.dev with stage := g }, mkh := { State.reset.mkh with trial := trial },
      stag := { State.reset.stag with bank := State.reset.stag.bank.set 1 { img := [], invalid := bad } },
      noise := bench.noise }
    let off : State := { State.reset with dev := { State.reset.dev with powered := false } }
    (∀ g ∈ [Stage.power, .rom, .verify, .hbm, .selftest, .entropy, .normal], (at_ g false false).dev.powered = true ∧
      (at_ g false false).dev.stage = g) ∧
    bench.dev.powered = true ∧ bench.dev.perst = false ∧ off.dev.powered = false ∧ bench.dev.stage = .ready ∧
    (bankBoots (at_ .verify true false) (bootBank (at_ .verify true false)) true = true) ∧
    (bankBoots (at_ .verify true true) (bootBank (at_ .verify true true)) true = false ∧ (at_ .verify true true).mkh.trial = true) ∧
    (bankBoots (at_ .verify false false) (bootBank (at_ .verify false false)) false = false ∧
      (at_ .verify false false).mkh.trial = false) ∧
    State.reset.noise.state = .gathering ∧ (at_ .entropy false false).noise.state ≠ .gathering ∧
    ({ bench with pwr := { bench.pwr with aux := true } } : State).pwr.aux = true ∧ State.reset.pwr.aux = false ∧
    (1 ≤ 5 ∧ 5 ≤ (5 : Nat) ∧ 16 ∈ [1, 2, 4, 8, 12, 16] ∧ ¬ 3 ∈ [1, 2, 4, 8, 12, 16]) ∧
    (decide (10800 ≤ (10799 : Nat)) && true && true) = false ∧ (decide (10800 ≤ (10800 : Nat)) && true && true) = true := by
  decide +kernel

theorem witness_StagAndTheTapAnswer :
    let failed : State := { State.reset with dev := { State.reset.dev with stage := .failed } }
    let off : State := { State.reset with dev := { State.reset.dev with powered := false } }
    failed.dev.stage = .failed ∧ State.reset.dev.stage ≠ .failed ∧ (List.replicate 240 (1 : Byte)).length = 240 ∧
    2 ^ 24 - 240 + 240 ≤ (2 ^ 24 : Nat) ∧ (1 : Nat) ≤ 11 ∧ off.dev.powered = false ∧ State.reset.dev.powered = true := by decide +kernel

theorem witness_EveryStepKeepsMemoriesCanonical :
    MemoriesCanonical bench ∧ step bench = .next bench := ⟨by unfold MemoriesCanonical; decide +kernel, rfl⟩

theorem witness_NoiseStaysFailedUntilAReset :
    let s : State := { bench with noise := { bench.noise with state := .failed }, pending := [.nop 0] }
    s.noise.state = .failed ∧ (∀ c ∈ s.pending.head?, ¬ Resets c) ∧ (∃ t, step s = .next t) :=
  ⟨rfl, fun c h => by cases h; exact id, ⟨_, rfl⟩⟩

theorem witness_WhatFollowsStaysInTheRegion :
    ∃ i ∈ ({ bench with jobs := [{ runner 0 with ref := { r := 1, q := 0, pos := 0 } }] } : State).jobs, i.ref.r ≠ 0 := by decide +kernel
/-! ### Ill-formed commands: WellFormed refuses each -/

theorem test_wf_places_and_offsets :
    Instr.wf (.sweepDone 0 3200) = false ∧ Instr.wf (.strobeEndEdge 0 0 true 0 3200 0 0) = false ∧
    Instr.wf (.inOwnerWrite 0 3200) = false ∧ Instr.wf (.inputEdge 0 true 1 3200 0) = false ∧ Instr.wf (.railFault 16 0) = false ∧
    Instr.wf (.tilePowerReturn 0 12) = false ∧ Instr.wf (.thermalTrip 16 0 1760) = false ∧ Instr.wf (.tileCooled 0 12 0) = false ∧
    Instr.wf (.dutyUpdate [(192, 0)]) = false ∧ Instr.wf (.chainFire 0 0 16) = false ∧
    Instr.wf (.translationMissFill 0 0 (2 ^ 27) 0) = false ∧ Instr.wf (.moverSwap 0 16 0 0 []) = false ∧
    Instr.wf (.sweepDone 0 3199) = true ∧ Instr.wf (.railFault 15 11) = true := by decide +kernel

theorem test_wf_flits_and_packets :
    (∀ f ∈ [aFlit 16 0, aFlit 0 16, { aFlit 0 0 with load := .halo 0 (List.replicate 121 0) },
        { aFlit 0 0 with load := .field (List.replicate 31 (0, 0)) }, { aFlit 0 0 with load := .emit 0 0 false (List.replicate 121 0) },
        { aFlit 0 0 with load := .ring 16 [] }, { aFlit 0 0 with load := .ring 0 (List.replicate 121 0) }],
      Instr.wf (.vc0FlitArrival inward (.stray f) .clean) = false) ∧ Instr.wf (.vc0FlitArrival inward (.planned 200) .clean) = false ∧
    Instr.wf (.vc0FlitArrival { inward with x := 16 } (.planned 199) .clean) = false ∧
    (∀ p ∈ [aPacket 16 0 0, aPacket 0 16 0, { aPacket 0 0 0 with flits := 0 }, { aPacket 0 0 0 with flits := 17 },
        { aPacket 0 0 0 with vc := .vc3, flits := 5 }, { aPacket 0 0 0 with data := List.replicate 129 0 }],
      Instr.wf (.meshPacketArrival inward (some p) .clean) = false) ∧
    Instr.wf (.rimFlitArrival (.enter 0 0 1 129) .clean) = false ∧ Instr.wf (.vc0FlitArrival inward (.planned 199) .clean) = true ∧
    Instr.wf (.vc0FlitArrival inward (.stray (aFlit 0 0)) .clean) = true ∧
    Instr.wf (.meshPacketArrival inward (some (aPacket 0 0 0)) .clean) = true := by
  decide +kernel

theorem test_wf_memory_and_host :
    (∀ m ∈ [{ req 0 none .clean with x := 16 }, req (2 ^ 48) none .clean, req 0 (some [1]) .clean],
      Instr.wf (.memoryRequest m) = false) ∧
    Instr.wf (.bar4Access (2 ^ 37) (.read 1)) = false ∧ Instr.wf (.bar4Access 0 (.read 0)) = false ∧
    Instr.wf (.bar4Access 0 (.write [])) = false ∧ Instr.wf (.doorbell .pf 0 0 [(2 ^ 64, 1)]) = false ∧
    Instr.wf (.doorbell .pf 0 0 [(0, 1), (0, 2)]) = false ∧ 
    (∀ i ∈ [Rv.lui 1 1, .jal 1 3, .jalr 1 1 2048, .branch .eq 1 1 1, .alu .sub false 1 1 (.imm 0), .alu .sll true 1 1 (.imm 32),
        .alu .xor true 1 1 (.reg 1), .mul .mulh true 1 1 1, .csr .write 1 4096 (.imm 0) 0, .fsqrt true 8 1 1,
        .vset 1 (.imm 32) (.imm 0), .vload .unit 0 0 true 1 1, .vmv 1 (.imm 32), .vslide false true 1 1 (.imm (-1))],
      Instr.wf (.kernelDone 0 (codeOf [i])) = false) ∧ Instr.wf (.kuduDescriptorComplete 0 1 (codeOf [.jal 1 1])) = false ∧
    (∀ m ∈ [MoverCmd.toTile 0 16 0 0 1, .fromTile 0 16 0 0 1, .toDevice 0 (2 ^ 48) 1, .fromDevice (2 ^ 48) 0 1, .toStaging 0 16 1],
      Instr.wf (.moverTransfer 0 m []) = false) ∧
    Instr.wf (.registerWrite .pf 0x20 24 0 0) = false ∧ Instr.wf (.registerWrite .pf (2 ^ 24) 32 0 0) = false ∧
    Instr.wf (.memoryRequest (req 0 none .clean)) = true := by decide +kernel

theorem test_wf_messages_and_ring :
    Instr.wf (.keyExchange true (List.replicate 63 0)) = false ∧ Instr.wf (.getMeasurements 256) = false ∧
    Instr.wf (.getCertificate 8) = false ∧ Instr.wf (.ringJoin (2 ^ 64) true true 0) = false ∧
    Instr.wf (.markerArrival 0 (List.replicate 84 0) 0) = false ∧ Instr.wf (.markerArrival 0 (List.replicate 85 0) 3200) = false ∧
    Instr.wf (.ringFlitArrival 0 195 []) = false ∧ Instr.wf (.ringFlitArrival 0 0 [List.replicate 86 0]) = false ∧
    Instr.wf (.ringFormation { aRing with members := 17 }) = false ∧
    Instr.wf (.ringFormation { aRing with tn := 2 ^ 64 }) = false ∧
    Instr.wf (.writeBank 0 []) = false ∧ Instr.wf (.writeBank 0 (List.replicate 241 0)) = false ∧
    Instr.wf (.pldmSensorRead (2 ^ 16) 0) = false ∧ Instr.wf (.markerArrival 0 (List.replicate 85 0) 3199) = true := by decide +kernel

/-! ### Worked values of the spec -/

/-- 02_pennant_tick.md, worked case: armed at TN 999,998 for TN 1,000,000, the camera schedule meets R36. -/
theorem test_camera_arm :
    armCheck (modOut 0 (fun o => { o with owner := .rgn 0 }) (modTick (fun t => { t with tn := 999998 }) bench)) (.rgn 0) 0
      { start := 1000000, offset := 160, mode := 1, widthTicks := 0, widthCclk := 1600, period := 2000, count := 0, endSel := 0,
        endEn := false, endEdge := false } = 0 := by decide +kernel

/-- 04_herd_arrays.md, worked case: idx(−40), idx(−25), GUMB[3,584], GUMB[1,024], and LOGI[3,248]. -/
theorem test_disparity_unit :
    idx 384 4 (-40) = -480 ∧ idx 384 4 (-25) = -300 ∧ gumb 3584 = 258 ∧ gumb 1024 = -42 ∧ idx 384 4 100 = 1200 ∧
    logi 3248 = 65530 := by decide +kernel

/-- 04_herd_arrays.md, worked case: the HCB's words read as the job says. -/
theorem test_disparity_hcb :
    let h := readHcb (padTo 64 (padTo 16 (leBytes 4 0x2054001F ++ leBytes 4 0x0000FD01) ++ padTo 36 (leBytes 4 0x96) ++ leBytes 4 32768 ++ [1]))
    h.s = 16 ∧ h.c = 2 ∧ h.rule = 0 ∧ h.format = 0 ∧ h.efrac = 4 ∧ h.pairFn = true ∧ h.tau = 2 ∧ h.init = 1 ∧ h.k = 1 ∧
    h.slices = 1 ∧ h.n = 1024 ∧ h.head = true ∧ h.parts = 32 ∧ h.frame = 164 ∧ h.units = 32768 ∧ h.chains = 1 ∧
    32 + h.payload = 16416 := by decide +kernel

/-- 05_noise.md, worked case: the counter block of draw q = 8,195 of unit 1,025, sweep 10. -/
theorem test_counter_block :
    counterBlock 11 0 1024 0x400 = [0, 0, 0, 0, 0, 0x0B, 1, 0, 0, 0, 0, 4, 0, 0, 4, 0] := by decide +kernel

/-- 06_annealing_low_states.md, worked case: β at jt 401 and 417. -/
theorem test_stall_beta :
    betaSched [(0, 0x80), (1000, 0x300)] 401 = 385 ∧ betaSched [(0, 0x80), (1000, 0x300)] 417 = 395 := by decide +kernel

/-- 07_ibex_chamois.md, worked case: 1,232,567 and 9,000,000 scaled by 2^−8 to int16, RNE and RTZ. -/
theorem test_cost_panel :
    (convert 2 .rne (-8) (fpInt 1232567)).code = 4815 ∧ (convert 2 .rtz (-8) (fpInt 1232567)).code = 4814 ∧
    (convert 2 .rne (-8) (fpInt 9000000)).code = 32767 ∧ (convert 2 .rne (-8) (fpInt 9000000)).sat = true := by decide +kernel

/-- 08_kudu_markhor_criward.md, worked case: the cores of regions 0 to 7, created in order. -/
theorem test_core_assignment :
    let s : State := { State.reset with mkh := { State.reset.mkh with cp := State.reset.mkh.cp.map fun c => { c with online := true } } }
    ((allFin 8).foldl (fun (a : Option State × List Nat) n => match a.1.bind (assignCore n) with
      | some t => (some t, a.2 ++ [t.rgn.rgn[n].cp])
      | none => (none, a.2)) (some s, [])).2 = [0, 2, 4, 3, 5, 1, 0, 2] := by decide +kernel

/-- 09_polynomial_engine.md, worked case: T of a key switch with log2n = 16, L = 40, K = 10, dnum = 4, pace 55. -/
theorem test_relinearisation_time :
    opTime { id := 0xB17, scheme := 2, lg := 16, l := 40, k := 10, dnum := 4, pace := 55, t := 0, mods := [], hash := [] } 9 1 0 0 = 768256 := by
  decide +kernel

/-- 16_power_energy_startup.md, R383: u = 12 excludes exactly the ticks 3, 7, 11 and 15 of 16. -/
theorem test_duty_twelve : ((List.range 16).filter fun t => !decide (brv4 t < 12)) = [3, 7, 11, 15] := by decide +kernel

/-- FIPS 197, appendix C.3: AES-256. -/
theorem test_aes256 :
    aes256 ((List.range 32).map fun i => BitVec.ofNat 8 i) ((List.range 16).map fun i => BitVec.ofNat 8 (17 * i)) =
      [0x8E, 0xA2, 0xB7, 0xCA, 0x51, 0x67, 0x45, 0xBF, 0xEA, 0xFC, 0x49, 0x90, 0x4B, 0x49, 0x60, 0x89] := by decide +kernel

/-- The CRC-32C of the nine ASCII digits 1 to 9, its customary check value. -/
theorem test_crc32c : crc32c [0x31, 0x32, 0x33, 0x34, 0x35, 0x36, 0x37, 0x38, 0x39] = 0xE3069283 := by decide +kernel

/-- 15_guidon_ring.md R351: lane 0 carries bits 7:6. -/
theorem test_lane_symbols : laneSymbols 0x1B = [0, 1, 2, 3] ∧ laneByte [0, 1, 2, 3] = 0x1B ∧ tickSymbols * 8 = 625 * 85 * 8 := by
  decide +kernel

/-- A Chamois tile that runs a kernel with x10 = 5. -/
def kernelState (f : Cham → Cham) : State :=
  modCham 0 (fun x => f { x with running := some (aDesc (chamBytes 0)), core := { x.core with x := x.core.x.set 10 5 } }) bench

/-- The vector extension: vl = 4 of e32, each element 5 + 3, their sum with element 0. -/
theorem test_vector_sum : (runCham 0 (codeOf [.vset 0 (.imm 4) (.imm 0x10), .vmv 8 (.x 10), .vint .add true 8 8 (.imm 3), .vmv 4 (.imm 0),
    .vred .sum true 4 8 4, .vmvXS 12 4]) (kernelState id)).1.cham[(0 : Fin 48)].core.x[12] = 0x20 := by decide +kernel

/-- 07_ibex_chamois.md Table 7-3: in ct_mode a division is an illegal instruction. -/
theorem test_ct_division : (runCham 0 (codeOf [.mul .div false 1 2 3]) (kernelState fun x => { x with ctMode := true })).2.map RvTrap.cause =
    some 2 := by decide +kernel

end Sys2Proof.Tests
end
end

section
/-!
PROOFS. Halyard outputs, arming (02_pennant_tick.md R35-R37): the first failing condition of an arm and what each arm request
leaves.
-/
namespace Sys2Proof.Machine

/-- The PF view reaches the registers of a ready module. -/
@[simp] theorem viewOk_pf (s : State) : viewOk s .pf = s.dev.ready := by
  simp [viewOk, tdiAdmits, viewRegion]

/-! ### Changing an output or an input -/

theorem modOut_eq_set (n : Fin 8) (f : HalyOut → HalyOut) (s : State) :
    modOut n f s = { s with haly := { s.haly with out := s.haly.out.set n (f s.haly.out[n]) } } := rfl

theorem modOut_congr (n : Fin 8) (f g : HalyOut → HalyOut) (s : State) (h : f s.haly.out[n] = g s.haly.out[n]) :
    modOut n f s = modOut n g s := by
  rw [modOut_eq_set, modOut_eq_set, h]

theorem modIn_eq_set (n : Fin 4) (f : HalyIn → HalyIn) (s : State) :
    modIn n f s = { s with haly := { s.haly with inp := s.haly.inp.set n (f s.haly.inp[n]) } } := rfl

/-! ### Arming (R35-R37) -/

/-- The first condition of R36: the start TN is less than TN + 2. -/
def ArmReq.late (a : ArmReq) (tn : Nat) : Prop := a.start < tn + 2
/-- The second: no such mode, or an offset beyond the tick. -/
def ArmReq.badMode (a : ArmReq) : Prop := ¬ (a.mode = 1 ∨ a.mode = 2) ∨ 3200 ≤ a.offset
/-- The width asked for, in CCLK. -/
def ArmReq.width (a : ArmReq) : Nat := a.widthTicks * 3200 + a.widthCclk
/-- The third: the width breaks R35. -/
def ArmReq.badWidth (a : ArmReq) : Prop :=
  ¬ (a.widthCclk < 3200 ∧ 16 ≤ a.width ∧ a.width ≤ (if a.mode = 1 then 3200 else 65535 * 3200))
/-- The fourth: the period breaks R35. -/
def ArmReq.badPeriod (a : ArmReq) : Prop := ¬ (a.period = 0 ∨ a.width < a.period * 3200 ∧ a.period < 2 ^ 24)

theorem widthOf_eq (t c : Nat) : widthOf t c = t * 3200 + c := rfl

theorem modeRefused_iff (a : ArmReq) : (!(a.mode == 1 || a.mode == 2) || decide (3200 ≤ a.offset)) = true ↔ a.badMode := by
  simp [ArmReq.badMode]

theorem widthRefused_iff (a : ArmReq) (hm : ¬ a.badMode) :
    (!widthOk (modeOf a.mode) a.widthTicks a.widthCclk) = true ↔ a.badWidth := by
  have hmode : a.mode = 1 ∨ a.mode = 2 := by_contra fun h => hm (.inl h)
  rcases hmode with h | h <;>
    simp only [widthOk, modeOf, h, ArmReq.badWidth, Bool.not_eq_true', ← Bool.not_eq_true, Bool.and_eq_true, decide_eq_true_eq,
      if_true, OfNat.ofNat_ne_one, if_false] <;>
    rw [and_assoc] <;> rfl

theorem periodRefused_iff (a : ArmReq) : (!periodOk a.period (widthOf a.widthTicks a.widthCclk)) = true ↔ a.badPeriod := by
  simp only [periodOk, ArmReq.badPeriod, Bool.not_eq_true', ← Bool.not_eq_true, Bool.or_eq_true, beq_iff_eq, Bool.and_eq_true,
    decide_eq_true_eq]
  rfl

/-- The code of R36, read off the first condition that fails. -/
theorem armCheck_eq (s : State) (w : Owner) (n : Fin 8) (a : ArmReq) [Decidable (a.late s.tick.tn.toNat)] [Decidable a.badMode]
    [Decidable a.badWidth] [Decidable a.badPeriod] :
    armCheck s w n a = if a.late s.tick.tn.toNat then 1 else if a.badMode then 6 else if a.badWidth then 2
      else if a.badPeriod then 3 else if s.haly.out[n].owner ≠ w then 4 else if s.haly.outEnable = false then 5 else 0 := by
  have hlate : a.start < s.tick.tn.toNat + 2 ↔ a.late s.tick.tn.toNat := Iff.rfl
  simp only [armCheck, hlate, modeRefused_iff, periodRefused_iff]
  by_cases hm : a.badMode
  · simp [hm]
  · simp [hm, widthRefused_iff a hm]

/-- An arm with a failing condition changes arm_err alone (R36). -/
theorem armOutput_refused (s : State) (w : Owner) (n : Fin 8) (a : ArmReq) (e : Nat) (h : armCheck s w n a = e) (he : e ≠ 0) :
    armOutput w n a s = { s with haly := { s.haly with out := s.haly.out.set n { s.haly.out[n] with armErr := e } } } := by
  simp only [armOutput, h, if_neg he, modOut_eq_set]

/-- An arm whose conditions hold starts the schedule (R36). -/
theorem armOutput_accepted (s : State) (w : Owner) (n : Fin 8) (a : ArmReq) (h : armCheck s w n a = 0) :
    armOutput w n a s = { s with haly := { s.haly with out := s.haly.out.set n (startSched a s.haly.out[n]) } } := by
  simp only [armOutput, h, if_true, modOut_eq_set]

/-- What an arm of output n for a writer does, condition by condition (R36). -/
theorem armOutput_cases (w : Owner) (n : Fin 8) (a : ArmReq) (s : State) :
    let refused (e : Nat) : State :=
      { s with haly := { s.haly with out := s.haly.out.set n { s.haly.out[n] with armErr := e } } }
    let late := a.late s.tick.tn.toNat
    (late → armOutput w n a s = refused 1) ∧
    (¬ late → a.badMode → armOutput w n a s = refused 6) ∧
    (¬ late → ¬ a.badMode → a.badWidth → armOutput w n a s = refused 2) ∧
    (¬ late → ¬ a.badMode → ¬ a.badWidth → a.badPeriod → armOutput w n a s = refused 3) ∧
    (¬ late → ¬ a.badMode → ¬ a.badWidth → ¬ a.badPeriod → s.haly.out[n].owner ≠ w → armOutput w n a s = refused 4) ∧
    (¬ late → ¬ a.badMode → ¬ a.badWidth → ¬ a.badPeriod → s.haly.out[n].owner = w → s.haly.outEnable = false →
      armOutput w n a s = refused 5) ∧
    (¬ late → ¬ a.badMode → ¬ a.badWidth → ¬ a.badPeriod → s.haly.out[n].owner = w → s.haly.outEnable = true →
      ∃ o, armOutput w n a s = { s with haly := { s.haly with out := s.haly.out.set n o } } ∧
        o = { s.haly.out[n] with sched := o.sched, old := o.old, armErr := 0, pulsesDone := 0 } ∧
        o.sched = some { start := a.start, offset := a.offset, mode := if a.mode = 1 then .trigger else .strobe,
                         width := a.width, period := a.period, count := a.count, endSel := a.endSel, endEn := a.endEn,
                         endEdge := a.endEdge, next := 0, cutoff := none }) := by
  classical
  intro refused late
  have hc : ∀ e, armCheck s w n a = e → e ≠ 0 → armOutput w n a s = refused e := armOutput_refused s w n a
  rw [armCheck_eq] at hc
  refine ⟨fun h1 => hc 1 ?_ (by decide), fun h1 h2 => hc 6 ?_ (by decide), fun h1 h2 h3 => hc 2 ?_ (by decide),
    fun h1 h2 h3 h4 => hc 3 ?_ (by decide), fun h1 h2 h3 h4 h5 => hc 4 ?_ (by decide),
    fun h1 h2 h3 h4 h5 h6 => hc 5 ?_ (by decide), fun h1 h2 h3 h4 h5 h6 => ?_⟩
  · rw [if_pos h1]
  · rw [if_neg h1, if_pos h2]
  · rw [if_neg h1, if_neg h2, if_pos h3]
  · rw [if_neg h1, if_neg h2, if_neg h3, if_pos h4]
  · rw [if_neg h1, if_neg h2, if_neg h3, if_neg h4, if_pos h5]
  · rw [if_neg h1, if_neg h2, if_neg h3, if_neg h4, if_neg (not_not.mpr h5), if_pos h6]
  · have h0 : armCheck s w n a = 0 := by
      rw [armCheck_eq, if_neg h1, if_neg h2, if_neg h3, if_neg h4, if_neg (not_not.mpr h5), if_neg (by simp [h6])]
    have hmode : a.mode = 1 ∨ a.mode = 2 := by_contra fun h => h2 (.inl h)
    refine ⟨_, armOutput_accepted s w n a h0, rfl, ?_⟩
    rcases hmode with hm | hm <;> simp only [startSched, modeOf, hm] <;> rfl

/-- An arm request through the PF view is the device's (R36). -/
theorem exec_arm_pf (n : Fin 8) (s : State) (hr : s.dev.ready = true) :
    exec (.arm .pf n false) s = .next (armOutput .device n s.haly.out[n].request s) := by
  simp [exec, execArm, hr, ownsLine, viewOwner, viewRegion]

/-- An arm request through a VF view is its region's (R36). -/
theorem exec_arm_vf (r n : Fin 8) (s : State) (hv : viewOk s (.vf r) = true) :
    exec (.arm (.vf r) n false) s = .next (if s.haly.out[n].owner = .rgn r then armOutput (.rgn r) n s.haly.out[n].request s
      else modOut n (fun o => { o with armErr := 4 }) s) := by
  by_cases h : s.haly.out[n].owner = .rgn r <;> simp_all [exec, execArm, ownsLine, viewOwner, viewRegion]

/-- Settles O5, from the code of the first failing condition. -/
theorem armSucceedsOrNamesFirstFailure : Obligations.ArmSucceedsOrNamesFirstFailure := by
  refine ⟨armOutput_cases, exec_arm_pf, fun r n s hv => ⟨fun ho => ?_, fun ho => ?_⟩⟩
  · rw [exec_arm_vf r n s hv, if_pos ho]
  · rw [exec_arm_vf r n s hv, if_neg ho, modOut_eq_set]

end Sys2Proof.Machine
end

section
/-!
PROOFS. Halyard outputs, pulses (02_pennant_tick.md R34, R35, R37): what a replaced schedule may still do, a disarm, and
the rise, fall and cut of a pulse.
-/
namespace Sys2Proof.Machine

/-! ### Pulses (R34, R35, R37) -/

/-- A schedule cut off at or before `c` has no pulse to rise at or after `c` (R37). -/
theorem dueTn_lt_of_live {d : Sched} {c k : Nat} (hc : d.cutoff = some k) (hk : k ≤ c) (hl : d.live = true) : d.dueTn < c := by
  simp only [Sched.live, hc, Bool.and_eq_true, decide_eq_true_eq] at hl
  exact lt_of_lt_of_le hl.2 hk

/-- A start leaves earlier schedules only cut off at or before its start TN (R37). -/
theorem startSched_old_cutoff (a : ArmReq) (o : HalyOut) : ∀ d ∈ (startSched a o).old, ∃ k, d.cutoff = some k ∧ k ≤ a.start := by
  intro d hd
  simp only [startSched, List.mem_filter, List.mem_map] at hd
  obtain ⟨⟨x, -, rfl⟩, -⟩ := hd
  cases x.cutoff with
  | none => exact ⟨_, rfl, le_rfl⟩
  | some c => exact ⟨_, rfl, min_le_right _ _⟩

theorem drive_eq (enable : Bool) (l : List Pulse) :
    drive enable l = if enable = false then .hiZ else if l = [] then .low else .high := by
  cases enable <;> cases l <;> rfl

/-- A disarm that the view may make cancels the pulses not yet risen (R37). -/
theorem exec_disarm (w : View) (n : Fin 8) (s : State) :
    exec (.disarm w n) s = if viewOk s w = true ∧ ownsLine w s.haly.out[n].owner = true then .next (modOut n disarmOut s)
      else .next s := by
  simp only [exec, execDisarm, Bool.and_eq_true]

/-- A disarm with the arm: the arm sees the disarmed output (R37). -/
theorem exec_arm_disarm (w : View) (n : Fin 8) (s : State) (hv : viewOk s w = true)
    (ho : ownsLine w s.haly.out[n].owner = true) :
    exec (.arm w n true) s = .next (armOutput (viewOwner w) n s.haly.out[n].request (modOut n disarmOut s)) := by
  simp only [exec, execArm, hv, ho, if_true]
  have hreq : (modOut n disarmOut s).haly.out[n].request = (disarmOut s.haly.out[n]).request :=
    congrArg HalyOut.request (upd_same s.haly.out n disarmOut)
  rw [hreq]
  rfl

theorem exec_pulseRise_old (n : Fin 8) (s : State) (hr : s.tick.running = true) (d : Sched)
    (hd : s.haly.out[n].old.find? (Sched.dueNow s.tick.tn.toNat) = some d) :
    exec (.pulseRise n) s = .next (modOut n (riseOld s.haly.outEnable d) s) := by
  simp only [exec, execPulseRise, hr, hd]

theorem exec_pulseRise_new (n : Fin 8) (s : State) (hr : s.tick.running = true) (d : Sched)
    (hold : s.haly.out[n].old.find? (Sched.dueNow s.tick.tn.toNat) = none) (hd : s.haly.out[n].sched = some d)
    (hl : d.live = true) (hdue : d.dueTn = s.tick.tn.toNat) :
    exec (.pulseRise n) s = .next (modOut n (riseNew s.haly.outEnable d) s) := by
  simp only [exec, execPulseRise, hr, hold, hd, Sched.dueNow, hl, hdue, beq_self_eq_true, Bool.and_self, if_true]

theorem exec_pulseFall (n : Fin 8) (s : State) (p : Pulse)
    (hp : s.haly.out[n].pulses.find? (fun p => decide (p.fall / 3200 ≤ s.tick.tn.toNat)) = some p) :
    exec (.pulseFall n) s = .next (modOut n (endPulse s.haly.outEnable p) s) := by
  have hp' : s.haly.out[n].pulses.find? (fun p => decide (p.fall / Config.tickCclk ≤ s.tick.tn.toNat)) = some p := hp
  simp only [exec, execPulseFall, hp']

/-- The instants of a pulse, in CCLK. -/
theorem endedBy_iff (p : Pulse) (input : Fin 4) (rising : Bool) (x : Int) :
    p.endedBy input rising x = true ↔ p.strobe = true ∧ p.endEn = true ∧ p.endSel = input.val ∧ p.endEdge = (!rising) ∧
      ((p.tn * 3200 + p.offset : Nat) : Int) ≤ x ∧ x < ((p.tn * 3200 + p.offset : Nat) : Int) + p.width := by
  have hedge : (p.endEdge != rising) = true ↔ p.endEdge = (!rising) := by cases p.endEdge <;> cases rising <;> simp
  simp only [Pulse.endedBy, Bool.and_eq_true, beq_iff_eq, hedge, decide_eq_true_eq, and_assoc]
  rfl

/-- An edge at the input of an output with one pulse in progress: an end edge that the filter passes cuts it (R35). -/
theorem exec_strobeEndEdge_single (n : Fin 8) (input : Fin 4) (rising : Bool) (ago cclk held delay : Nat) (s : State) (p : Pulse)
    (hp : s.haly.out[n].pulses = [p]) :
    exec (.strobeEndEdge n input rising ago cclk held delay) s =
      if p.endedBy input rising (atCclk s ago cclk) = true ∧ s.haly.inp[input].filter ≤ held ∧
          delay ≤ s.haly.inp[input].filter + 8 then
        .next (modOut n (fun o => { o with pulses := [p.cutAt (atCclk s ago cclk) delay] }) s)
      else .next s := by
  simp only [exec, execStrobeEndEdge, hp, List.find?_singleton]
  by_cases he : p.endedBy input rising (atCclk s ago cclk) = true
  · have hmap := modOut_congr n
      (fun o => { o with pulses := o.pulses.map fun x => if x = p then p.cutAt (atCclk s ago cclk) delay else x })
      (fun o => { o with pulses := [p.cutAt (atCclk s ago cclk) delay] }) s
      (by simp only [hp, List.map_cons, List.map_nil, if_true])
    simp only [he, if_true, true_and, hmap]
  · simp only [he, if_false, false_and, ite_self, Bool.false_eq_true]

/-- After a start every pulse still to rise of an earlier schedule, its next one and each later one, rises before the new start
TN (R37). -/
theorem startSched_replaces (a : ArmReq) (o : HalyOut) :
    (∀ d ∈ (startSched a o).old, d.live = true → d.dueTn < a.start) ∧
    (∀ d ∈ (startSched a o).old, ∀ k, ({ d with next := k } : Sched).live = true →
      ({ d with next := k } : Sched).dueTn < a.start) := by
  refine ⟨fun d hd hl => ?_, fun d hd k hl => ?_⟩ <;> obtain ⟨c, hc, hk⟩ := startSched_old_cutoff a o d hd
  · exact dueTn_lt_of_live hc hk hl
  · exact dueTn_lt_of_live (d := { d with next := k }) hc hk hl

/-- Settles O6: a replaced schedule is cut off at the new start, and each pulse event changes its output alone. -/
theorem pulsesRiseAndFallAndReplacedSchedulesEnd : Obligations.PulsesRiseAndFallAndReplacedSchedulesEnd := by
  refine ⟨⟨fun a o => ⟨(startSched_replaces a o).1, (startSched_replaces a o).2, rfl, rfl, rfl, rfl⟩, fun s w n hv ho => ⟨?_, ?_⟩,
    fun s w n _ ho => ?_⟩, fun s n hr => ⟨fun d hold hd hl hdue => ?_, fun d hd => ?_, fun p hp => ?_, ?_⟩⟩
  · rw [exec_disarm, if_pos ⟨hv, ho⟩]; rfl
  · exact exec_arm_disarm w n s hv ho
  · rw [exec_disarm, if_neg fun h => Bool.eq_false_iff.mp ho h.2]
  · rw [exec_pulseRise_new n s hr d hold hd hl hdue, modOut_eq_set]
    simp only [riseNew, drive_eq]
    rfl
  · rw [exec_pulseRise_old n s hr d hd, modOut_eq_set]
    simp only [riseOld, drive_eq]
    exact ⟨_, rfl⟩
  · rw [exec_pulseFall n s p hp, modOut_eq_set]
    simp only [endPulse, drive_eq]
  · intro input rising ago cclk held delay p hp connector rise filter here cut
    rw [exec_strobeEndEdge_single n input rising ago cclk held delay s p hp]
    have hends : p.endedBy input rising (atCclk s ago cclk) = true ∧ filter ≤ held ∧ delay ≤ filter + 8 ↔ here := by
      simp only [endedBy_iff, and_assoc]; rfl
    refine ⟨fun h => ?_, fun h => if_neg fun he => h (hends.1 he)⟩
    rw [if_pos (hends.2 h)]; rfl

end Sys2Proof.Machine
end

section
/-!
PROOFS. Halyard lines' registers and input edges (02_pennant_tick.md R34, R39, R41, R42): a write changes each line by itself,
and an edge that the filter passes is stamped, dropped or ignored.
-/
namespace Sys2Proof.Machine

/-! ### A change of several elements of a vector -/

/-- Each listed element of a vector changed once, in turn. -/
def updEach {α : Type} {n : Nat} (l : List (Fin n)) (g : Fin n → α → α) (v : Vector α n) : Vector α n :=
  l.foldl (fun v i => upd v i (g i)) v

@[simp] theorem updEach_cons {α : Type} {n : Nat} (a : Fin n) (l : List (Fin n)) (g : Fin n → α → α) (v : Vector α n) :
    updEach (a :: l) g v = updEach l g (upd v a (g a)) := rfl

theorem updEach_of_not_mem {α : Type} {n : Nat} (l : List (Fin n)) (g : Fin n → α → α) (v : Vector α n) (i : Fin n)
    (h : i ∉ l) : (updEach l g v)[i] = v[i] := by
  induction l generalizing v with
  | nil => rfl
  | cons a l ih =>
    rw [List.mem_cons, not_or] at h
    rw [updEach_cons, ih _ h.2, upd_other v a i (g a) h.1]

theorem updEach_of_mem {α : Type} {n : Nat} (l : List (Fin n)) (hl : l.Nodup) (g : Fin n → α → α) (v : Vector α n) (i : Fin n)
    (h : i ∈ l) : (updEach l g v)[i] = g i v[i] := by
  induction l generalizing v with
  | nil => cases h
  | cons a l ih =>
    obtain ⟨ha, hl⟩ := List.nodup_cons.mp hl
    rw [updEach_cons]
    rcases List.mem_cons.mp h with rfl | h
    · rw [updEach_of_not_mem l g _ i ha, upd_same]
    · rw [ih hl _ h, upd_other v a i (g a) fun e => ha (e ▸ h)]

theorem forEach_modOut (l : List (Fin 8)) (g : Fin 8 → HalyOut → HalyOut) (s : State) :
    forEach l (fun n => modOut n (g n)) s = { s with haly := { s.haly with out := updEach l g s.haly.out } } := by
  induction l generalizing s with
  | nil => rfl
  | cons a l ih => rw [forEach_cons, ih]; rfl

theorem forEach_modIn (l : List (Fin 4)) (g : Fin 4 → HalyIn → HalyIn) (s : State) :
    forEach l (fun n => modIn n (g n)) s = { s with haly := { s.haly with inp := updEach l g s.haly.inp } } := by
  induction l generalizing s with
  | nil => rfl
  | cons a l ih => rw [forEach_cons, ih]; rfl

theorem updEach_allFin8 {α : Type} (g : Fin 8 → α → α) (v : Vector α 8) (i : Fin 8) : (updEach (allFin 8) g v)[i] = g i v[i] :=
  updEach_of_mem _ (by decide) g v i (by revert i; decide)

theorem updEach_allFin4 {α : Type} (g : Fin 4 → α → α) (v : Vector α 4) (i : Fin 4) : (updEach (allFin 4) g v)[i] = g i v[i] :=
  updEach_of_mem _ (by decide) g v i (by revert i; decide)

/-! ### Writes of the lines' registers (R34, R39, R41) -/

theorem ownerOf_eq (code : Nat) (old : Owner) :
    ownerOf code old = if h : code < 8 then .rgn ⟨code, h⟩ else if code = 8 then .device else if code = 15 then .nobody else old := by
  unfold ownerOf
  by_cases h : code < 8
  · rw [if_pos h, dif_pos h]
    exact congrArg Owner.rgn (Fin.ext (Nat.mod_eq_of_lt h))
  · rw [if_neg h, dif_neg h]

theorem setOutOwner_changed (enable : Bool) (code : Nat) (o : HalyOut) (h : ownerOf code o.owner ≠ o.owner) :
    setOutOwner enable code o = { o with
      owner := ownerOf code o.owner, sched := none, old := [], pulsesDone := 0, pulses := [],
      pin := if enable = true then .low else .hiZ } := by
  simp only [setOutOwner, if_neg h, quietOut, disarmOut]
  cases enable <;> rfl

theorem exec_outOwnerWrite (v : W32) (s : State) (hr : s.dev.ready = true) :
    exec (.outOwnerWrite v) s = .next { s with haly := { s.haly with
      out := updEach (allFin 8) (fun n => setOutOwner s.haly.outEnable (bits v.toNat (4 * n.val + 3) (4 * n.val))) s.haly.out } } := by
  simp only [exec, execOutOwnerWrite, viewOk_pf, hr, if_true, forEach_modOut]

theorem exec_inOwnerWrite (v : W32) (cclk : Nat) (s : State) (hr : s.dev.ready = true) :
    exec (.inOwnerWrite v cclk) s = .next { s with haly := { s.haly with
      inp := updEach (allFin 4) (fun n => setInOwner (atCclk s 0 cclk) (bits v.toNat (4 * n.val + 3) (4 * n.val))) s.haly.inp } } := by
  simp only [exec, execInOwnerWrite, viewOk_pf, hr, if_true, forEach_modIn]

theorem exec_outEnableWrite (v : W32) (s : State) (hr : s.dev.ready = true) :
    exec (.outEnableWrite v) s = .next { s with haly := { s.haly with
      outEnable := bit v.toNat 0, out := s.haly.out.map fun o => { o with pin := drive (bit v.toNat 0) o.pulses } } } := by
  simp only [exec, execOutEnableWrite, viewOk_pf, hr, if_true]

theorem exec_halyInCfgWrite_pf (n : Fin 4) (v : W32) (s : State) (hr : s.dev.ready = true) :
    exec (.halyInCfgWrite .pf n v) s = .next (modIn n (setInCfg v.toNat) s) := by
  simp [exec, execHalyInCfgWrite, hr, ownsLine, viewRegion]

/-- The instant of a write in the present tick, in CCLK from TN 0. -/
theorem atCclk_now (s : State) (cclk : Nat) : atCclk s 0 cclk = (s.tick.tn.toNat : Int) * 3200 + cclk := by
  simp [atCclk, Config.tickCclk]

/-- Settles O7: each write is a change of every line by itself. -/
theorem ownerWritesQuietOnlyChangedLines : Obligations.OwnerWritesQuietOnlyChangedLines := by
  intro s v hr
  refine ⟨⟨_, exec_outOwnerWrite v s hr, rfl, fun n => ⟨fun h => ?_, fun h => ?_⟩⟩,
    fun cclk => ⟨_, exec_inOwnerWrite v cclk s hr, rfl, fun n => ⟨fun h => ?_, fun h => ?_⟩⟩, ownerOf_eq,
    ⟨_, exec_outEnableWrite v s hr, rfl, fun n => ?_⟩, fun n => ?_⟩
  · rw [updEach_allFin8]
    exact if_pos h
  · rw [updEach_allFin8]
    exact setOutOwner_changed _ _ _ h
  · rw [updEach_allFin4]
    exact if_pos h
  · rw [updEach_allFin4, ← atCclk_now]
    exact if_neg h
  · simp only [Fin.getElem_fin, Vector.getElem_map, drive_eq]
  · rw [exec_halyInCfgWrite_pf n v s hr, modIn_eq_set]
    rfl

/-! ### Input edges (R39, R41, R42) -/

theorem modIn_modIn (n : Fin 4) (f g : HalyIn → HalyIn) (s : State) : modIn n g (modIn n f s) = modIn n (g ∘ f) s := by
  simp only [modIn, upd_upd]

/-- Does an edge at an instant belong to the present owner of an input (R39)? -/
def HalyIn.owns (i : HalyIn) (at_ : Int) : Bool :=
  match i.ownerSince with
  | none => true
  | some t => decide (t < at_)

theorem owns_iff (i : HalyIn) (x : Int) : i.owns x = true ↔ ∀ c, i.ownerSince = some c → c < x := by
  unfold HalyIn.owns
  cases i.ownerSince <;> simp

theorem selectsEdge_eq (edges : Nat) (rising : Bool) : selectsEdge edges rising = bit edges (if rising = true then 0 else 1) := by
  cases rising <;> rfl

/-- An edge that the filter does not pass, or that is none of this tick or the one before, changes nothing (R41). -/
theorem exec_inputEdge_discarded (n : Fin 4) (rising : Bool) (ago cclk held : Nat) (s : State)
    (h : held < s.haly.inp[n].filter ∨ 3200 ≤ cclk ∨ 1 < ago) : exec (.inputEdge n rising ago cclk held) s = .next s := by
  simp only [exec, execInputEdge]
  exact if_pos h

/-- Where no tick runs an edge moves the connector's level alone. -/
theorem exec_inputEdge_noTick (n : Fin 4) (rising : Bool) (ago cclk held : Nat) (s : State)
    (h : ¬ (held < s.haly.inp[n].filter ∨ 3200 ≤ cclk ∨ 1 < ago)) (hr : s.tick.running = false) :
    exec (.inputEdge n rising ago cclk held) s = .next (modIn n (fun i => { i with pin := rising }) s) := by
  simp only [exec, execInputEdge, modIn_tick, hr, if_true]
  exact if_neg h

/-- An edge that the filter passes moves the connector's level and then the input as `passEdge` says. -/
theorem exec_inputEdge_passed (n : Fin 4) (rising : Bool) (ago cclk held : Nat) (s : State)
    (h : ¬ (held < s.haly.inp[n].filter ∨ 3200 ≤ cclk ∨ 1 < ago)) (hr : s.tick.running = true) :
    exec (.inputEdge n rising ago cclk held) s = .next (modIn n (fun i =>
      passEdge (tnAgo s.tick ago) cclk rising (s.haly.inp[n].owns (atCclk s ago cclk)) { i with pin := rising }) s) := by
  have he : ¬ (held < s.haly.inp[n].filter ∨ Config.tickCclk ≤ cclk ∨ 1 < ago) := h
  simp only [exec, execInputEdge, if_neg he, modIn_tick, hr, Bool.true_eq_false, if_false, modIn_modIn]
  rfl

/-- An edge to the level that the filter has is no edge. -/
theorem passEdge_same (tn cclk : Nat) (rising ours : Bool) (i : HalyIn) (h : i.level = rising) :
    passEdge tn cclk rising ours i = i := if_pos h

/-- A selected edge of the present owner enters a FIFO with room (R42). -/
theorem passEdge_stamped (tn cclk : Nat) (rising ours : Bool) (i : HalyIn) (h : i.level = (!rising))
    (hs : selectsEdge i.edges rising = true) (ho : ours = true) (hf : i.fifo.length < 64) :
    passEdge tn cclk rising ours i = { i with
      level := rising, lost := false,
      fifo := i.fifo ++ [{ tn := tn % 2 ^ 48, ofs := cclk, rising := rising, lost := i.lost }] } := by
  have hne : ¬ i.level = rising := by simp [h]
  simp [passEdge, hne, hs, ho, stampEdge, hf]

/-- A full FIFO drops and counts it (R42). -/
theorem passEdge_dropped (tn cclk : Nat) (rising ours : Bool) (i : HalyIn) (h : i.level = (!rising))
    (hs : selectsEdge i.edges rising = true) (ho : ours = true) (hf : 64 ≤ i.fifo.length) :
    passEdge tn cclk rising ours i = { i with level := rising, lost := true, lostCount := min (i.lostCount + 1) 65535 } := by
  have hne : ¬ i.level = rising := by simp [h]
  simp [passEdge, hne, hs, ho, stampEdge, hf.not_gt, satInc, satAdd]

/-- Another edge moves the filtered level alone (R39, R41). -/
theorem passEdge_ignored (tn cclk : Nat) (rising ours : Bool) (i : HalyIn) (h : i.level = (!rising))
    (hs : ¬ (selectsEdge i.edges rising = true ∧ ours = true)) : passEdge tn cclk rising ours i = { i with level := rising } := by
  have hne : ¬ i.level = rising := by simp [h]
  have hb : (selectsEdge i.edges rising && ours) = false := by simpa using hs
  simp [passEdge, hne, hb]

/-- Settles O8, by the branches of the input's filter, its FIFO and its owner. -/
theorem inputEdgesAreStampedForTheirOwner : Obligations.InputEdgesAreStampedForTheirOwner := by
  intro s n rising ago cclk held i tn put connector ours selected edge
  refine ⟨exec_inputEdge_discarded n rising ago cclk held s, fun hf hc ha => ?_⟩
  have hpass : ¬ (held < s.haly.inp[n].filter ∨ 3200 ≤ cclk ∨ 1 < ago) := by
    rintro (h | h | h)
    · exact absurd hf h.not_ge
    · exact absurd hc h.not_gt
    · exact absurd ha h.not_ge
  have hsel : selectsEdge i.edges rising = true ↔ selected := by rw [selectsEdge_eq]
  have hours : i.owns (atCclk s ago cclk) = true ↔ ours := owns_iff i _
  have hrun : s.tick.running = true → ∀ x, passEdge tn cclk rising (i.owns (atCclk s ago cclk)) { i with pin := rising } = x →
      exec edge s = .next (put x) := fun hr x hx =>
    (exec_inputEdge_passed n rising ago cclk held s hpass hr).trans (congrArg (fun x => Host.Outcome.next (put x)) hx)
  refine ⟨fun h => ?_, fun hr hl => ⟨fun hs ho hfifo => ?_, fun hs ho hfifo => ?_, fun hn => ?_⟩⟩
  · cases hr : s.tick.running with
    | false => exact exec_inputEdge_noTick n rising ago cclk held s hpass hr
    | true => exact hrun hr _ (passEdge_same _ _ _ _ { i with pin := rising } (h.resolve_left (by simp [hr])))
  · exact hrun hr _ (passEdge_stamped _ _ _ _ { i with pin := rising } hl (hsel.2 hs) (hours.2 ho) hfifo)
  · exact hrun hr _ (passEdge_dropped _ _ _ _ { i with pin := rising } hl (hsel.2 hs) (hours.2 ho) hfifo)
  · exact hrun hr _ (passEdge_ignored _ _ _ _ { i with pin := rising } hl fun hc => hn ⟨hsel.1 hc.1, hours.1 hc.2⟩)

end Sys2Proof.Machine
end

section
/-!
PROOFS. Pennant's tick source (02_pennant_tick.md R31, R33): writes of its registers and reference events move the lock
state.
-/
namespace Sys2Proof.Machine

/-! ### Writes of the tick source's registers (R31, R33) -/

/-- A lock state with its history: the runs of references and the tick evaluated last. -/
def TickState.withLock (t : TickState) (l : Lock) (w b m : Nat) (k : Option Int) : TickState :=
  { t with lock := l, runWithin := w, runBeyond := b, runMissed := m, refDone := k }

/-- What a write leaves that acquires under condition c: ACQUIRING where c holds, else the lock state and its history. -/
theorem exists_withLock_of_acquire (t : TickState) (c : Prop) [Decidable c] :
    ∃ l w b m k, (if c then acquire t else t) = t.withLock l w b m k ∧ (c → l = .acquiring) ∧
      (¬ c → l = t.lock ∧ w = t.runWithin ∧ b = t.runBeyond ∧ m = t.runMissed ∧ k = t.refDone) := by
  by_cases h : c
  · exact ⟨.acquiring, 0, 0, 0, none, by rw [if_pos h]; rfl, fun _ => rfl, absurd h⟩
  · exact ⟨_, _, _, _, _, by rw [if_neg h]; rfl, fun hc => absurd hc h, fun _ => ⟨rfl, rfl, rfl, rfl, rfl⟩⟩

/-- TICK_CTRL's registers after a write. -/
def TickState.withCtrl (t : TickState) (v : Nat) : TickState :=
  { t with source := sourceOf (bits v 1 0) t.source, inSel := bits v 3 2, inEdge := bit v 4 }

/-- A write that keeps the source acquires where the source is HALYARD and the input changes. -/
theorem setTickCtrl_same (v : Nat) (t : TickState) (h : sourceOf (bits v 1 0) t.source = t.source) :
    setTickCtrl v t = if t.source = .halyard ∧ (bits v 3 2 ≠ t.inSel ∨ bit v 4 ≠ t.inEdge) then acquire (t.withCtrl v)
      else t.withCtrl v := by
  simp only [setTickCtrl, TickState.withCtrl, h, ne_eq, not_true_eq_false, if_false]

/-- A write that changes the source goes to FREE_RUN for INTERNAL, else to ACQUIRING. -/
theorem setTickCtrl_changed (v : Nat) (t : TickState) (h : sourceOf (bits v 1 0) t.source ≠ t.source) :
    setTickCtrl v t = (t.withCtrl v).withLock
      (if sourceOf (bits v 1 0) t.source = .internal then .freeRun else .acquiring) 0 0 0 none := by
  simp only [setTickCtrl, if_pos h, TickState.withCtrl]
  cases sourceOf (bits v 1 0) t.source <;> rfl

theorem exec_tickCtrlWrite (v : W32) (s : State) :
    exec (.tickCtrlWrite v) s = if s.dev.ready = true then .next (modTick (setTickCtrl v.toNat) s) else .next s := by
  simp only [exec, execTickCtrlWrite, viewOk_pf]

theorem exec_tickInWrite (ofs : Bool) (v : W32) (s : State) :
    exec (.tickInWrite ofs v) s = if s.dev.ready = true then
      .next (modTick (if ofs then setTickInOfs v.toNat else setTickInCfg v.toNat) s) else .next s := by
  simp only [exec, execTickInWrite, viewOk_pf]

/-- A PF write of TICK_CTRL: what becomes of the lock state. -/
theorem tickCtrlWrite_moves (s : State) (v : W32) (hr : s.dev.ready = true) :
    let src := sourceOf (bits v.toNat 1 0) s.tick.source
    ∃ l w b m k, exec (.tickCtrlWrite v) s = .next { s with tick := (s.tick.withCtrl v.toNat).withLock l w b m k } ∧
      (src ≠ s.tick.source → l = if src = .internal then .freeRun else .acquiring) ∧
      (src = s.tick.source → src = .halyard → (bits v.toNat 3 2 ≠ s.tick.inSel ∨ bit v.toNat 4 ≠ s.tick.inEdge) →
        l = .acquiring) ∧
      (src = s.tick.source → (src = .halyard → bits v.toNat 3 2 = s.tick.inSel ∧ bit v.toNat 4 = s.tick.inEdge) →
        l = s.tick.lock ∧ w = s.tick.runWithin ∧ b = s.tick.runBeyond ∧ m = s.tick.runMissed ∧ k = s.tick.refDone) := by
  intro src
  rw [exec_tickCtrlWrite, if_pos hr]
  by_cases h : src = s.tick.source
  · obtain ⟨l, w, b, m, k, ht, hacq, hkeep⟩ := exists_withLock_of_acquire (s.tick.withCtrl v.toNat)
      (s.tick.source = .halyard ∧ (bits v.toNat 3 2 ≠ s.tick.inSel ∨ bit v.toNat 4 ≠ s.tick.inEdge))
    refine ⟨l, w, b, m, k, by rw [modTick, setTickCtrl_same _ _ h, ht], absurd h,
      fun _ hs hc => hacq ⟨h ▸ hs, hc⟩, fun _ hs => hkeep ?_⟩
    rintro ⟨hsrc, hsel | hedge⟩
    · exact hsel (hs (h.trans hsrc)).1
    · exact hedge (hs (h.trans hsrc)).2
  · exact ⟨_, _, _, _, _, by rw [modTick, setTickCtrl_changed _ _ h], fun _ => rfl, fun e => absurd e h, fun e => absurd e h⟩

/-- A PF write of TICK_IN_CFG: what becomes of the lock state. -/
theorem tickInCfgWrite_moves (s : State) (v : W32) (hr : s.dev.ready = true) :
    let d := bits v.toNat 15 0
    let p := if bits v.toNat 31 16 ≤ d then bits v.toNat 31 16 else s.tick.inPhase
    ∃ l w b m k, exec (.tickInWrite false v) s =
        .next { s with tick := ({ s.tick with inDiv := d, inPhase := p }).withLock l w b m k } ∧
      (s.tick.source = .halyard → (d ≠ s.tick.inDiv ∨ p ≠ s.tick.inPhase) → l = .acquiring) ∧
      ((s.tick.source = .halyard → d = s.tick.inDiv ∧ p = s.tick.inPhase) →
        l = s.tick.lock ∧ w = s.tick.runWithin ∧ b = s.tick.runBeyond ∧ m = s.tick.runMissed ∧ k = s.tick.refDone) := by
  intro d p
  obtain ⟨l, w, b, m, k, ht, hacq, hkeep⟩ := exists_withLock_of_acquire { s.tick with inDiv := d, inPhase := p }
    (s.tick.source = .halyard ∧ (d ≠ s.tick.inDiv ∨ p ≠ s.tick.inPhase))
  refine ⟨l, w, b, m, k, ?_, fun hs hc => hacq ⟨hs, hc⟩, fun hs => hkeep ?_⟩
  · rw [exec_tickInWrite, if_pos hr, ← ht]
    simp only [modTick, setTickInCfg, Order.lt_add_one_iff, Bool.false_eq_true, if_false, d, p]
  · rintro ⟨hsrc, hd | hp⟩
    · exact hd (hs hsrc).1
    · exact hp (hs hsrc).2

/-- A PF write of TICK_IN_OFS: what becomes of the lock state. -/
theorem tickInOfsWrite_moves (s : State) (v : W32) (hr : s.dev.ready = true) :
    let x := toSigned 16 v.toNat
    let o := if -3200 ≤ x ∧ x ≤ 3199 then x else s.tick.inOfs
    ∃ l w b m k, exec (.tickInWrite true v) s = .next { s with tick := ({ s.tick with inOfs := o }).withLock l w b m k } ∧
      (s.tick.source = .halyard → o ≠ s.tick.inOfs → l = .acquiring) ∧
      ((s.tick.source = .halyard → o = s.tick.inOfs) →
        l = s.tick.lock ∧ w = s.tick.runWithin ∧ b = s.tick.runBeyond ∧ m = s.tick.runMissed ∧ k = s.tick.refDone) := by
  intro x o
  obtain ⟨l, w, b, m, k, ht, hacq, hkeep⟩ := exists_withLock_of_acquire { s.tick with inOfs := o }
    (s.tick.source = .halyard ∧ o ≠ s.tick.inOfs)
  refine ⟨l, w, b, m, k, ?_, fun hs hc => hacq ⟨hs, hc⟩, fun hs => hkeep fun hc => hc.2 (hs hc.1)⟩
  rw [exec_tickInWrite, if_pos hr, ← ht]
  simp only [modTick, setTickInOfs, if_true, x, o]

/-- Settles O3: each write either acquires or keeps the lock state with its history. -/
theorem sourceWritesMoveTheLock : Obligations.SourceWritesMoveTheLock := by
  intro s v
  refine ⟨fun hr => ⟨tickCtrlWrite_moves s v hr, tickInCfgWrite_moves s v hr, tickInOfsWrite_moves s v hr⟩, fun hr => ?_⟩
  have hn : ¬ s.dev.ready = true := by simp [hr]
  exact ⟨by rw [exec_tickCtrlWrite, if_neg hn], fun ofs => by rw [exec_tickInWrite, if_neg hn]⟩

/-! ### Reference events (R31, Tables 2-2 and 2-3) -/

/-- The distance of an edge from the expected instant, in 1/16 CCLK. -/
def refDistance (t : TickState) (e : RefEdge) : Nat := (e.at16 - 16 * t.inOfs).natAbs

/-- Does edge a come before edge b in the choice of the reference edge: it is nearer, or of two equally near not the later? -/
def Nearer (t : TickState) (a b : RefEdge) : Prop :=
  refDistance t a < refDistance t b ∨ refDistance t a = refDistance t b ∧ a.at16 ≤ b.at16

theorem nearer_refl (t : TickState) (a : RefEdge) : Nearer t a a := .inr ⟨rfl, le_rfl⟩

theorem nearer_trans {t : TickState} {a b c : RefEdge} (hab : Nearer t a b) (hbc : Nearer t b c) : Nearer t a c := by
  simp only [Nearer] at *
  omega

/-- The edge that `nearerEdge` picks is one of the two and comes before both. -/
theorem nearerEdge_spec (t : TickState) (a b : RefEdge) :
    (nearerEdge t a b = a ∨ nearerEdge t a b = b) ∧ Nearer t (nearerEdge t a b) a ∧ Nearer t (nearerEdge t a b) b := by
  simp only [nearerEdge]
  split
  · refine ⟨.inr rfl, ?_, nearer_refl t b⟩
    simp only [Nearer, refDistance]; omega
  · refine ⟨.inl rfl, nearer_refl t a, ?_⟩
    simp only [Nearer, refDistance]; omega

/-- The choice among several edges is one of them and comes before each. -/
theorem foldl_nearerEdge_spec (t : TickState) (l : List RefEdge) (e : RefEdge) :
    l.foldl (nearerEdge t) e ∈ e :: l ∧ ∀ y ∈ e :: l, Nearer t (l.foldl (nearerEdge t) e) y := by
  induction l generalizing e with
  | nil => exact ⟨List.mem_singleton.mpr rfl, fun y hy => by rw [List.mem_singleton.mp hy]; exact nearer_refl t e⟩
  | cons b l ih =>
    obtain ⟨hmem, hbest⟩ := ih (nearerEdge t e b)
    obtain ⟨hpick, hle, hlb⟩ := nearerEdge_spec t e b
    have hhead := hbest _ List.mem_cons_self
    rw [List.foldl_cons]
    refine ⟨?_, fun y hy => ?_⟩
    · rcases List.mem_cons.mp hmem with h | h
      · rw [h]; rcases hpick with h | h <;> rw [h] <;> simp
      · exact List.mem_cons_of_mem _ (List.mem_cons_of_mem _ h)
    · rcases List.mem_cons.mp hy with rfl | hy
      · exact nearer_trans hhead hle
      · rcases List.mem_cons.mp hy with rfl | hy
        · exact nearer_trans hhead hlb
        · exact hbest y (List.mem_cons_of_mem _ hy)

/-- Is an edge one of the selected input and kind, inside the window? -/
def InWindow (t : TickState) (e : RefEdge) : Prop :=
  e.input.val = t.inSel ∧ e.rising = (!t.inEdge) ∧ t.inOfs - 1600 ≤ e.at16 / 16 ∧ e.at16 / 16 ≤ t.inOfs + 1599

theorem mem_refEdges (t : TickState) (l : List RefEdge) (e : RefEdge) : e ∈ refEdges t l ↔ e ∈ l ∧ InWindow t e := by
  have hkind : (e.rising != t.inEdge) = true ↔ e.rising = (!t.inEdge) := by cases e.rising <;> cases t.inEdge <;> simp
  simp only [refEdges, List.mem_filter, Bool.and_eq_true, beq_iff_eq, hkind, decide_eq_true_eq, and_assoc, InWindow]

theorem refEdge_none (t : TickState) (l : List RefEdge) (h : ∀ e ∈ l, ¬ InWindow t e) : refEdge t l = none := by
  have hnil : refEdges t l = [] := List.eq_nil_iff_forall_not_mem.mpr fun e he => h e ((mem_refEdges t l e).1 he).1
    ((mem_refEdges t l e).1 he).2
  simp only [refEdge, hnil]

/-- Where an edge lies in the window, the reference edge is one of those that do, and comes before each. -/
theorem refEdge_some (t : TickState) (l : List RefEdge) (e : RefEdge) (he : e ∈ l) (hw : InWindow t e) :
    ∃ x, refEdge t l = some x ∧ x ∈ l ∧ InWindow t x ∧ ∀ y ∈ l, InWindow t y → Nearer t x y := by
  have hmem := (mem_refEdges t l e).2 ⟨he, hw⟩
  cases hl : refEdges t l with
  | nil => rw [hl] at hmem; cases hmem
  | cons a as =>
    obtain ⟨hx, hbest⟩ := foldl_nearerEdge_spec t as a
    rw [← hl] at hx hbest
    obtain ⟨hxl, hxw⟩ := (mem_refEdges t l _).1 hx
    exact ⟨_, by simp only [refEdge, hl], hxl, hxw, fun y hy hyw => hbest y ((mem_refEdges t l y).2 ⟨hy, hyw⟩)⟩

/-- Is the tick TN + d to be evaluated for HALYARD: a reference tick whose window closes by the end of the present tick, and
later than the tick evaluated last? -/
theorem refDue_iff (t : TickState) (d : Int) :
    refDue t d = true ↔ 0 ≤ t.tn.toNat + d ∧ (t.tn.toNat + d) % ((t.inDiv : Int) + 1) = t.inPhase ∧
      d * 3200 + t.inOfs + 1599 < 3200 ∧ ∀ k, t.refDone = some k → k < t.tn.toNat + d := by
  have hlast : (match t.refDone with | none => true | some l => decide (l < refTick t d)) = true ↔
      ∀ k, t.refDone = some k → k < t.tn.toNat + d := by
    cases t.refDone with
    | none => simp
    | some l => exact decide_eq_true_iff.trans (by simp [refTick])
  unfold refDue
  simp only [Bool.and_eq_true, decide_eq_true_eq, and_assoc]
  exact and_congr Iff.rfl (and_congr Iff.rfl (and_congr Iff.rfl hlast))

theorem markerDue_iff (t : TickState) : markerDue t = true ↔ t.refDone ≠ some (t.tn.toNat : Int) := by
  simp [markerDue]

/-- What a reference that is evaluated for tick `done` leaves of the tick state. -/
def afterReference (t : TickState) (phase done : Int) : TickState := { refArrives phase t with refDone := some done }
/-- What a missed reference leaves. -/
def afterMiss (t : TickState) (done : Int) : TickState := { refMissed t with refDone := some done }

/-! What each event does, by source. -/

theorem exec_edges_none (d : Int) (l : List RefEdge) (s : State) (hr : s.tick.running = true) (hs : s.tick.source = .halyard)
    (hx : refEdge s.tick l = none) : exec (.referenceEvent (.edges d l)) s = .next s := by
  simp only [exec, execReferenceEvent, hr, Bool.true_eq_false, if_false, hs, hx]

theorem exec_edges_some (d : Int) (l : List RefEdge) (s : State) (hr : s.tick.running = true) (hs : s.tick.source = .halyard)
    (x : RefEdge) (hx : refEdge s.tick l = some x) :
    exec (.referenceEvent (.edges d l)) s = .next (if refDue s.tick d = true then
      { s with tick := afterReference s.tick (refPhase s.tick x) (s.tick.tn.toNat + d) } else s) := by
  simp only [exec, execReferenceEvent, hr, Bool.true_eq_false, if_false, hs, hx]
  cases refDue s.tick d <;> rfl

theorem exec_marker (phase : Int) (s : State) (hr : s.tick.running = true) (hs : s.tick.source = .ring) :
    exec (.referenceEvent (.marker phase)) s = .next (if markerDue s.tick = true then
      { s with tick := afterReference s.tick phase s.tick.tn.toNat } else s) := by
  simp only [exec, execReferenceEvent, hr, Bool.true_eq_false, if_false, hs]
  cases markerDue s.tick <;> rfl

theorem exec_missed_halyard (d : Int) (s : State) (hr : s.tick.running = true) (hs : s.tick.source = .halyard) :
    exec (.missedReferenceEvent d) s = .next (if refDue s.tick d = true then
      { s with tick := afterMiss s.tick (s.tick.tn.toNat + d) } else s) := by
  simp only [exec, execMissedReferenceEvent, hr, Bool.true_eq_false, if_false, hs]
  cases refDue s.tick d <;> rfl

theorem exec_missed_ring (d : Int) (s : State) (hr : s.tick.running = true) (hs : s.tick.source = .ring) :
    exec (.missedReferenceEvent d) s = .next (if markerDue s.tick = true then
      { s with tick := afterMiss s.tick s.tick.tn.toNat } else s) := by
  simp only [exec, execMissedReferenceEvent, hr, Bool.true_eq_false, if_false, hs]
  cases markerDue s.tick <;> rfl

theorem exec_edges_otherSource (d : Int) (l : List RefEdge) (s : State) (hs : s.tick.source ≠ .halyard) :
    exec (.referenceEvent (.edges d l)) s = .next s := by
  simp only [exec, execReferenceEvent]
  split
  · rfl
  · cases h : s.tick.source with
    | halyard => exact absurd h hs
    | internal => rfl
    | ring => rfl

theorem exec_marker_otherSource (phase : Int) (s : State) (hs : s.tick.source ≠ .ring) :
    exec (.referenceEvent (.marker phase)) s = .next s := by
  simp only [exec, execReferenceEvent]
  split
  · rfl
  · cases h : s.tick.source with
    | ring => exact absurd h hs
    | internal => rfl
    | halyard => rfl

/-- Before the first tick, and with the internal source, no event changes anything. -/
theorem exec_reference_idle (e : RefEvent) (d : Int) (s : State) (h : s.tick.running = false ∨ s.tick.source = .internal) :
    exec (.referenceEvent e) s = .next s ∧ exec (.missedReferenceEvent d) s = .next s := by
  rcases h with h | h
  · simp only [exec, execReferenceEvent, execMissedReferenceEvent, h, if_true, and_self]
  · refine ⟨?_, ?_⟩
    · cases e with
      | edges d l => exact exec_edges_otherSource d l s (by simp [h])
      | marker phase => exact exec_marker_otherSource phase s (by simp [h])
    · simp only [exec, execMissedReferenceEvent, h, ite_self]

theorem phaseBound_eq (src : TickSource) (h : src ≠ .internal) : phaseBound src = if src = .halyard then 512 else 1280 := by
  cases src with
  | internal => exact absurd rfl h
  | halyard => rfl
  | ring => rfl

/-- What a reference leaves: the runs, and the lock state that Table 2-3 gives. -/
theorem afterReference_moves (t : TickState) (phase done : Int) (hs : t.source ≠ .internal) :
    let within := phase.natAbs ≤ (if t.source = .halyard then 512 else 1280)
    ∃ l, afterReference t phase done = { t with
        phaseErr := satInt 16 phase, runMissed := 0, lock := l, refDone := some done,
        runWithin := if within then t.runWithin + 1 else 0, runBeyond := if within then 0 else t.runBeyond + 1 } ∧
      (t.lock = .acquiring → l = if within ∧ 63 ≤ t.runWithin then .locked else .acquiring) ∧
      (t.lock = .locked → l = if ¬ within ∧ 3 ≤ t.runBeyond then .acquiring else .locked) ∧
      (t.lock = .holdover → l = .acquiring) ∧ (t.lock = .freeRun → l = .freeRun) := by
  intro within
  have hb : (phase.natAbs ≤ phaseBound t.source) = within := by rw [phaseBound_eq _ hs]
  refine ⟨_, by simp only [afterReference, refArrives, hb, decide_eq_true_eq]; rfl, fun h => ?_, fun h => ?_, fun h => ?_,
    fun h => ?_⟩
  · by_cases hw : within <;> simp [h, hw]
  · by_cases hw : within <;> simp [h, hw]
  · simp [h]
  · simp [h]

/-- What a missed reference leaves. -/
theorem afterMiss_eq (t : TickState) (done : Int) :
    afterMiss t done = { t with
      runWithin := 0, runBeyond := 0, runMissed := t.runMissed + 1, refDone := some done,
      lock := if 3 ≤ t.runMissed ∧ (t.lock = .acquiring ∨ t.lock = .locked) then .holdover else t.lock } := by
  simp only [afterMiss, refMissed, Nat.reduceLeDiff]

/-- Settles O2, source by source: the reference edge is nearest, and an evaluated event moves the runs as Table 2-3 says. -/
theorem referenceEventsMoveTheLock : Obligations.ReferenceEventsMoveTheLock := by
  intro s t after moved missed due inWindow
  refine ⟨fun hr hs d es => ⟨fun hd e he hw => ?_, fun hd => ?_, fun hd => ⟨?_, ?_⟩, fun hes => ?_⟩,
    fun hr hs phase d => ⟨fun hd => ⟨?_, ?_⟩, fun hd => ⟨?_, ?_⟩⟩,
    fun hs d es => exec_edges_otherSource d es s hs, fun hs phase => exec_marker_otherSource phase s hs,
    fun h e d => exec_reference_idle e d s h⟩
  · obtain ⟨x, hx, hxl, hxw, hbest⟩ := refEdge_some t es e he hw
    obtain ⟨l, hl, hmoves⟩ := afterReference_moves t (refPhase t x) (t.tn.toNat + d) (by rw [hs]; decide)
    refine ⟨x, l, hxl, hxw, hbest, ?_, hmoves⟩
    rw [exec_edges_some d es s hr hs x hx, if_pos ((refDue_iff t d).2 hd)]
    exact congrArg (fun u => Host.Outcome.next { s with tick := u }) hl
  · rw [exec_missed_halyard d s hr hs, if_pos ((refDue_iff t d).2 hd), afterMiss_eq]
  · cases hx : refEdge s.tick es with
    | none => exact exec_edges_none d es s hr hs hx
    | some x => rw [exec_edges_some d es s hr hs x hx, if_neg fun h => hd ((refDue_iff t d).1 h)]
  · rw [exec_missed_halyard d s hr hs, if_neg fun h => hd ((refDue_iff t d).1 h)]
  · exact exec_edges_none d es s hr hs (refEdge_none t es hes)
  · obtain ⟨l, hl, hmoves⟩ := afterReference_moves t phase t.tn.toNat (by rw [hs]; decide)
    refine ⟨l, ?_, hmoves⟩
    rw [exec_marker phase s hr hs, if_pos ((markerDue_iff t).2 hd)]
    exact congrArg (fun u => Host.Outcome.next { s with tick := u }) hl
  · rw [exec_missed_ring d s hr hs, if_pos ((markerDue_iff t).2 hd), afterMiss_eq]
  · rw [exec_marker phase s hr hs, if_neg fun h => (markerDue_iff t).1 h hd]
  · rw [exec_missed_ring d s hr hs, if_neg fun h => (markerDue_iff t).1 h hd]

end Sys2Proof.Machine
end

section
/-!
PROOFS. The tick boundary (02_pennant_tick.md R23, R24, R32): what happens at CCLK 0 leaves the clock alone but for TN and the
trim.
-/
namespace Sys2Proof.Machine

/-! ### The clock: everything of TICK but the regions' registers -/

/-- The clock of a state, its tick state apart from the TICK_RGN registers, is that of x. -/
def ClockIs (x : TickState) (s : State) : Prop := { s.tick with rgn := x.rgn } = x

theorem clockIs_self (s : State) : ClockIs s.tick s := rfl

/-- Ending work, and what follows of itself, leaves the clock. -/
theorem clockIs_kept (x : TickState) : KeptByRecovery (ClockIs x) where
  jobs _ _ h := h
  que _ _ h := h
  evt _ _ h := h
  err _ _ h := h
  msix _ _ h := h
  ctx _ _ h := h
  phys _ _ _ h := h
  host _ _ _ h := h
  shadow _ _ h := h
  purge _ _ h := h
  rgn _ _ h := h
  tickRgn _ _ _ h := h
  job _ _ _ h := h
  anl _ _ h := h
  ring _ _ _ h := h
  noise _ _ _ h := h
  sec _ _ h := h
  cp _ _ h := h
  mesh _ _ h := h
  rim _ _ h := h
  haly _ _ h := h
  herd _ _ _ _ _ h := h
  ibex _ _ _ _ h := h
  cham _ _ _ _ h := h
  kudu _ _ _ _ h := h
  pe _ _ h := h
  eng _ _ h := h
  put s e f _ h := by cases e <;> exact h
  frame _ _ _ h := h
  tlb _ _ h := h
  free _ _ h := h

section
variable {x : TickState} {s : State} (h : ClockIs x s)
include h

theorem ClockIs.eq : { s.tick with rgn := x.rgn } = x := h
theorem ClockIs.running_eq : s.tick.running = x.running := (congrArg TickState.running h.eq :)
theorem ClockIs.tn_eq : s.tick.tn = x.tn := (congrArg TickState.tn h.eq :)
theorem ClockIs.tnEpoch_eq : s.tick.tnEpoch = x.tnEpoch := (congrArg TickState.tnEpoch h.eq :)
theorem ClockIs.trim_eq : s.tick.trim = x.trim := (congrArg TickState.trim h.eq :)

end

/-- A change of anything but TICK leaves the clock. -/
theorem ClockIs.of_tick {x : TickState} {s t : State} (h : ClockIs x s) (ht : t.tick = s.tick) : ClockIs x t := by
  rw [ClockIs, ht]; exact h

/-! ### What a tick boundary does besides TN, the trim and the ramp -/

/-- A swap taken keeps a tile's memory and its key. -/
theorem applySwap_keeps (t : HerdTile) : (applySwap t).mem = t.mem ∧ (applySwap t).key = t.key := by
  unfold applySwap
  split <;> exact ⟨rfl, rfl⟩

section
variable {P : State → Prop} (K : KeptByRecovery P)
include K

theorem keeps_maintDone (p : Pkt) (status : Nat) (s : State) (h : P s) : P (settleMaint (maintDone p status s)) :=
  keeps_settleMaint K.toKeptByEnds _ (keeps_decide K.toKeptByEnds _ _ _ _ h)

theorem keeps_tickConfigDone (s : State) (h : P s) : P (tickConfigDone s) := by
  unfold tickConfigDone
  split
  · split
    · exact keeps_maintDone K _ _ _ h
    · exact h
  · exact h

theorem keeps_idleSlots (n : Fin 8) (s : State) (h : P s) : P (idleSlots n s) := by
  simp only [idleSlots]
  split
  · exact h
  · exact K.mesh _ _ h

theorem keeps_endNormally (n : Fin 8) (j : Job) (s : State) (h : P s) : P (endNormally n j s) := by
  have hend : ∀ f, P (endTicking n (modJob j.ref f (modTickJob n (fun t => { t with ended := true, stop := false }) s))) :=
    fun f => keeps_endTicking K n _ (keeps_modJob K.toKeptByEnds _ f _ (K.job _ _ _ h))
  simp only [endNormally]
  refine keeps_settle K.toKeptByEnds n _ ?_
  split
  · split
    · exact K.kudu _ _ _ (fun _ h => h) (hend _)
    · exact hend _
  · exact hend _

theorem keeps_ticksEnd (n : Fin 8) (s : State) (h : P s) : P (ticksEnd n s) := by
  unfold ticksEnd
  split
  · exact h
  · split
    · exact h
    · split
      · exact keeps_endTicking K n s h
      · split
        · exact keeps_endNormally K n _ s h
        · exact h

theorem keeps_recoverLinks (n : Fin 8) (s : State) (h : P s) : P (recoverLinks n s) := by
  simp only [recoverLinks]
  split
  · exact h
  · exact keeps_modRgn K _ _ _ (keeps_clearBuffers K n s h)

theorem keeps_emptyIndexes (n : Fin 8) (s : State) (h : P s) : P (emptyIndexes n s) := by
  unfold emptyIndexes
  split
  · exact h
  · exact forEach_keeps P _ _ (fun p _ s h => K.herd s p.tile (showRes p.i [])
      (fun _ hm => memWrite_wf _ _ _ (memZero_wf _ _ _ hm)) (fun _ => .inl rfl) h) s h

theorem keeps_resetOnSwap (n : Fin 8) (s : State) (h : P s) : P (resetOnSwap n s) := by
  simp only [resetOnSwap]
  split
  · exact keeps_emptyIndexes K n _ (K.job _ _ _ (keeps_modAnl K _ _ _ h))
  · exact h

theorem keeps_takeSwaps (n : Fin 8) (due : List (Fin 64)) (s : State) (h : P s) : P (takeSwaps n due s) := by
  have hswap : P (forEach due (fun h => modHerd h applySwap) s) := forEach_keeps P _ _ (fun i _ s h => K.herd s i applySwap
    (fun t hm => by rw [(applySwap_keeps t).1]; exact hm) (fun t => .inl (applySwap_keeps t).2) h) s h
  simp only [takeSwaps]
  split
  · exact hswap
  · refine keeps_resetOnSwap K n _ ?_
    split
    · exact forEach_keeps P _ _ (fun i _ s h => K.herd s i (fun x => { x with state := .idle, sweepDone := false, waits := false })
        (fun _ hm => hm) (fun _ => .inl rfl) h) _ (K.job _ _ _ hswap)
    · exact hswap

theorem keeps_swapEvidence (n : Fin 8) (s : State) (h : P s) : P (swapEvidence n s) := by
  simp only [swapEvidence]
  split
  · exact forEach_keeps P _ _ (fun i _ s h => K.herd s i (fun x => { x with held := x.dueSwap, swap := none })
      (fun _ hm => hm) (fun _ => .inl rfl) h) s h
  · exact keeps_takeSwaps K n _ s h

theorem keeps_invalidate (c : Fin 9) (s : State) (h : P s) : P (invalidate c s) := by
  simp only [invalidate]
  split
  · exact h
  · refine forEach_keeps P _ _ (fun j _ s h => keeps_modJob K.toKeptByEnds j.ref Job.advance s h) _ (keeps_modCtx K _ _ _ ?_)
    exact forEach_keeps P _ _ (fun f _ s h => K.frame s f 15 h) _ (K.tlb _ _ h)

theorem keeps_lateFlr (n : Fin 8) (s : State) (h : P s) : P (lateFlr n s) := by
  simp only [lateFlr]
  split
  · exact keeps_beginTeardown K n _ (keeps_modRgn K _ _ _ (keeps_modErr K.toKeptByEnds _ _ h))
  · exact h

end

/-! ### The clock at a tick boundary (R23, R24, R32) -/

section
variable {x : TickState}

theorem clockIs_rampRise (n : Fin 8) (s : State) (h : ClockIs x s) : ClockIs x (rampRise n s) := by
  simp only [rampRise]
  split
  · exact h
  · split
    · exact h.of_tick rfl
    · split <;> exact h.of_tick rfl

theorem clockIs_rampStep (s : State) (h : ClockIs x s) : ClockIs x (rampStep s) := by
  simp only [rampStep]
  refine forEach_keeps (ClockIs x) _ _ (fun n _ s h => ?_) _ ?_
  · exact h.of_tick rfl
  · refine forEach_keeps (ClockIs x) _ _ (fun n _ s h => clockIs_rampRise n s h) _ ?_
    exact h.of_tick rfl

theorem clockIs_takeRim (s : State) (h : ClockIs x s) : ClockIs x (takeRim s) := h.of_tick rfl
theorem clockIs_drbgTick (s : State) (h : ClockIs x s) : ClockIs x (drbgTick s) := h.of_tick rfl
theorem clockIs_ringTick (s : State) (h : ClockIs x s) : ClockIs x (ringTick s) := h.of_tick rfl

theorem clockIs_enterTick (n : Fin 8) (s : State) (h : ClockIs x s) : ClockIs x (enterTick n s) := by
  have hinit : ClockIs x (if s.herd.job[n].init = true then
      forEach (planTiles s n) (fun h => modHerd h fun x => { initQ x with state := .idle, haloFlits := 0 }) s else s) := by
    split
    · refine forEach_keeps (ClockIs x) _ _ (fun i _ s h => ?_) _ h
      exact h.of_tick rfl
    · exact h
  revert hinit
  simp only [enterTick]
  generalize (if s.herd.job[n].init = true then
      forEach (planTiles s n) (fun h => modHerd h fun x => { initQ x with state := .idle, haloFlits := 0 }) s else s) = u
  intro hu
  refine keeps_swapEvidence (clockIs_kept x) n _ ((clockIs_kept x).tickRgn _ _ _ ((clockIs_kept x).job _ _ _ ?_))
  split
  · exact hu.of_tick rfl
  · exact hu

theorem clockIs_enterTicks (s : State) (h : ClockIs x s) : ClockIs x (enterTicks s) := by
  have hswap : ClockIs x (swapOthers s) := h.of_tick (by simp only [swapOthers])
  unfold enterTicks
  exact forEach_keeps (ClockIs x) _ enterTick (fun n _ s h => clockIs_enterTick n s h) _ hswap

theorem clockIs_stagingEnds (s : State) (h : ClockIs x s) : ClockIs x (stagingEnds s) := by
  unfold stagingEnds
  split
  · exact h
  · simp only
    split
    · split
      · exact keeps_maintDone (clockIs_kept x) _ _ _ (h.of_tick rfl)
      · exact h.of_tick rfl
    · exact h.of_tick rfl

/-- All that happens at CCLK 0 after TN is set leaves the clock. -/
theorem clockIs_afterTn (s : State) (h : ClockIs x s) :
    ClockIs x (settleAll (forEach (allFin 8) lateFlr (stagingEnds (ringTick (drbgTick (forEach (allFin 9) invalidate
      (enterTicks (rampStep (takeRim (forEach (allFin 8) recoverLinks (forEach (allFin 8) ticksEnd
        (forEach (allFin 8) idleSlots s)))))))))))) := by
  have K := clockIs_kept x
  have h1 := forEach_keeps (ClockIs x) (allFin 8) idleSlots (fun n _ s => keeps_idleSlots K n s) s h
  have h2 := forEach_keeps (ClockIs x) (allFin 8) ticksEnd (fun n _ s => keeps_ticksEnd K n s) _ h1
  have h3 := forEach_keeps (ClockIs x) (allFin 8) recoverLinks (fun n _ s => keeps_recoverLinks K n s) _ h2
  have h4 := clockIs_rampStep _ (clockIs_takeRim _ h3)
  have h5 := forEach_keeps (ClockIs x) (allFin 9) invalidate (fun c _ s => keeps_invalidate K c s) _ (clockIs_enterTicks _ h4)
  have h6 := clockIs_stagingEnds _ (clockIs_ringTick _ (clockIs_drbgTick _ h5))
  exact keeps_settleAll K _ (forEach_keeps (ClockIs x) (allFin 8) lateFlr (fun n _ s => keeps_lateFlr K n s) _ h6)

end

/-- The clock that a tick boundary leaves is that of TN and the trim set on what the tick before ends with, whose clock is
unchanged. -/
theorem newTick_clock (s : State) : ∃ u, u.tick = s.tick ∧ ClockIs (nextTn (trimStep u)).tick (newTick s) := by
  refine ⟨if s.tick.running = true then countVc0Empty (idleCounts (markStarts s)) else markStarts s, ?_, ?_⟩
  · split
    · simp only [countVc0Empty, idleCounts, markStarts]
    · rfl
  · simp only [newTick]
    exact clockIs_afterTn _ (clockIs_self _)

/-- A trim in the band of 100 ppm stays in it, and moves by at most 0.05 ppm (R24, R32). -/
theorem trimNext_bounded (step : Int) (t : TickState) (hlo : -10000 ≤ t.trim) (hhi : t.trim ≤ 10000) :
    -10000 ≤ trimNext step t ∧ trimNext step t ≤ 10000 ∧ (trimNext step t - t.trim).natAbs ≤ 5 := by
  unfold trimNext
  cases t.lock with
  | freeRun =>
    simp only
    split
    · omega
    · split <;> omega
  | holdover => simp only; omega
  | acquiring => simp only; omega
  | locked => simp only; omega

theorem trimNext_holdover (step : Int) (t : TickState) (h : t.lock = .holdover) : trimNext step t = t.trim := by
  simp only [trimNext, h]

/-- The first tick after a reset is TN 0 (R23). -/
theorem nextTn_first (s : State) (h : s.tick.running = false) :
    (nextTn s).tick = { s.tick with running := true, tn := 0, newTn := none } := by
  simp only [nextTn, h, if_true]

/-- A tick without a new TN counts one more (R23). -/
theorem nextTn_counts (s : State) (h : s.tick.running = true) (hn : s.tick.newTn = none) :
    (nextTn s).tick = { s.tick with
      lastTn := s.tick.tn, mtime := s.tick.mtime + BitVec.ofNat 64 Config.tickCclk, tn := s.tick.tn + 1 } := by
  simp only [nextTn, h, Bool.true_eq_false, if_false, hn]

/-- The new TN of TICK_CONFIG or of the ring also counts tn_epoch (R23). -/
theorem nextTn_new (s : State) (v : W64) (h : s.tick.running = true) (hn : s.tick.newTn = some v) :
    ClockIs { s.tick with
      lastTn := s.tick.tn, mtime := s.tick.mtime + BitVec.ofNat 64 Config.tickCclk, refDone := none, tn := v,
      tnEpoch := s.tick.tnEpoch + 1, newTn := none } (nextTn s) := by
  simp only [nextTn, h, Bool.true_eq_false, if_false, hn]
  exact keeps_tickConfigDone (clockIs_kept _) _ rfl

/-- Ticks run in every tick begun, with the trim that the tick took over. -/
theorem nextTn_running_trim (s : State) : (nextTn s).tick.running = true ∧ (nextTn s).tick.trim = s.tick.trim := by
  cases h : s.tick.running with
  | false => rw [nextTn_first s h]; exact ⟨rfl, rfl⟩
  | true =>
    cases hn : s.tick.newTn with
    | none => rw [nextTn_counts s h hn]; exact ⟨h, rfl⟩
    | some v =>
      have hc := nextTn_new s v h hn
      exact ⟨hc.running_eq.trans h, hc.trim_eq⟩

/-- Settles O9: the clock after the boundary is what R23 and R32 make of it. -/
theorem tickBoundaryCountsTn : Obligations.TickBoundaryCountsTn := by
  refine ⟨fun s hp hperst => ?_, fun s h => ?_⟩
  · obtain ⟨u, hu, hc⟩ := newTick_clock s
    have htrim : (trimStep u).tick = { s.tick with trim := trimNext (Config.trimStep u.free) s.tick } := by
      rw [← hu]; rfl
    obtain ⟨hrun, htr⟩ := nextTn_running_trim (trimStep u)
    have htrim' : (newTick s).tick.trim = trimNext (Config.trimStep u.free) s.tick := by
      rw [hc.trim_eq, htr, htrim]
    have htn := hc.tn_eq
    have hep := hc.tnEpoch_eq
    refine ⟨newTick s, by simp only [exec, execTickBoundary, hp, hperst, Bool.not_false, Bool.and_self, if_true],
      hc.running_eq.trans hrun, fun hr => ?_, fun hr hn => ?_, fun v hr hn => ?_, fun hlo hhi => ?_, fun hl => ?_⟩
    · rw [nextTn_first _ (by rw [htrim]; exact hr), htrim] at htn hep
      exact ⟨htn, hep⟩
    · rw [nextTn_counts _ (by rw [htrim]; exact hr) (by rw [htrim]; exact hn), htrim] at htn hep
      exact ⟨htn, hep⟩
    · have hnew := nextTn_new (trimStep u) v (by rw [htrim]; exact hr) (by rw [htrim]; exact hn)
      rw [htrim] at hnew
      exact ⟨htn.trans hnew.tn_eq, hep.trans hnew.tnEpoch_eq⟩
    · rw [htrim']; exact trimNext_bounded _ _ hlo hhi
    · rw [htrim']; exact trimNext_holdover _ _ hl
  · have hoff : (s.dev.powered && !s.dev.perst) = false := by rcases h with h | h <;> simp [h]
    simp only [exec, execTickBoundary, hoff, Bool.false_eq_true, if_false]

end Sys2Proof.Machine
end

section
/-!
PROOFS. A stopped job (14_faults_restart.md R330): what follows of itself in a region leaves it stopped.
-/
namespace Sys2Proof.Machine

/-! ### A stopped job stays stopped while what follows of itself happens (R330) -/

/-- There is a job of packet k, and each such job is stopped. -/
def StoppedJob (k : JobRef) (s : State) : Prop := (∃ j ∈ s.jobs, j.ref = k) ∧ ∀ j ∈ s.jobs, j.ref = k → j.phase = .stopped

/-- Does a change of a job keep its packet and either its phase or stop it? -/
def MayStop (f : Job → Job) : Prop := ∀ j, (f j).ref = j.ref ∧ ((f j).phase = j.phase ∨ (f j).phase = .stopped)

theorem writeDev_jobs (tile : Fin 24) (c : Fin 9) (a : Nat) (data : List Byte) (s : State) :
    (writeDev tile c a data s).1.jobs = s.jobs := by
  obtain ⟨p, o, q, h⟩ := writeDev_frame tile c a data s
  rw [h]

theorem latchIf_jobs (c : Fin 9) (f : MemFault) (s : State) : (latchIf c f s).jobs = s.jobs := by
  rw [(latchIf_frame c f s).1]

theorem decide_jobs (i : Fin 33) (pos : W32) (d : Done) (s : State) : (decide' i pos d s).jobs = s.jobs := rfl

theorem dropArm_jobs (n : Fin 8) (a : Arm) (s : State) : (dropArm n a s).jobs = s.jobs := by
  unfold dropArm; split <;> rfl

theorem modLock_jobs (n : Fin 8) (l : Nat) (f : LockReg → LockReg) (s : State) : (modLock n l f s).jobs = s.jobs := by
  unfold modLock; split <;> rfl

theorem writeRecord_jobs (i : Fin 33) (p : Pkt) (d : Done) (s : State) : (writeRecord i p d s).jobs = s.jobs := by
  simp only [writeRecord]
  split
  · simp only [sendMsix_jobs, modQue_jobs]
    split
    · rfl
    · rw [latchIf_jobs, writeDev_jobs]
  · simp only [modQue_jobs]
    split
    · rfl
    · rw [latchIf_jobs, writeDev_jobs]

/-- What a queue does of itself is to write a record, or what its packet whose turn it is does. -/
theorem queueSettles_cases (i : Fin 33) (s t : State) (ht : queueSettles i s = some t) :
    (∃ p d, t = writeRecord i p d s) ∨ ∃ p, packetSettles i p s = some t := by
  simp only [queueSettles] at ht
  repeat' split at ht
  all_goals grind

namespace StoppedJob
variable {k : JobRef} {s t : State}

/-- The job that the packet has is stopped. -/
theorem find (h : StoppedJob k s) : ∃ j, findJob s k = some j ∧ j.phase = .stopped := by
  obtain ⟨⟨j, hj, hk⟩, hall⟩ := h
  cases hf : findJob s k with
  | none => exact absurd hk (by simpa using List.find?_eq_none.mp hf j hj)
  | some i => exact ⟨i, rfl, hall i (List.mem_of_find?_eq_some hf) (findJob_ref s k i hf)⟩

theorem of_jobs (h : StoppedJob k s) (ht : t.jobs = s.jobs) : StoppedJob k t := by
  rw [StoppedJob, ht]; exact h

theorem modJob (h : StoppedJob k s) (k' : JobRef) (f : Job → Job) (hf : MayStop f) : StoppedJob k (modJob k' f s) := by
  obtain ⟨⟨j, hj, hk⟩, hall⟩ := h
  rw [StoppedJob, modJob_jobs]
  refine ⟨⟨_, List.mem_map_of_mem hj, ?_⟩, fun i hi hik => ?_⟩
  · split
    · exact (hf j).1.trans hk
    · exact hk
  · obtain ⟨i, him, rfl⟩ := List.mem_map.mp hi
    by_cases hc : (i.ref == k') = true
    · rw [if_pos hc] at hik ⊢
      have hs := hall i him ((hf i).1.symm.trans hik)
      exact (hf i).2.elim (fun e => e.trans hs) id
    · rw [if_neg hc] at hik ⊢
      exact hall i him hik

/-- Every job of a packet is stopped by a change that stops it. -/
theorem of_modJob {f : Job → Job} (hf : ∀ j, (f j).ref = j.ref ∧ (f j).phase = .stopped) {j : Job} (hj : findJob s k = some j) :
    StoppedJob k (Machine.modJob k f s) := by
  have hk := findJob_ref s k j hj
  rw [StoppedJob, modJob_jobs]
  refine ⟨⟨f j, List.mem_map.mpr ⟨j, List.mem_of_find?_eq_some hj, if_pos (by simp [hk])⟩, (hf j).1.trans hk⟩, fun i hi hik => ?_⟩
  obtain ⟨i, -, rfl⟩ := List.mem_map.mp hi
  by_cases hc : (i.ref == k) = true
  · rw [if_pos hc]; exact (hf i).2
  · rw [if_neg hc] at hik
    exact absurd hik (by simpa using hc)

theorem dropJob (h : StoppedJob k s) (k' : JobRef) (hk : k' ≠ k) : StoppedJob k (dropJob k' s) := by
  obtain ⟨⟨j, hj, hjk⟩, hall⟩ := h
  rw [StoppedJob, dropJob_jobs]
  refine ⟨⟨j, List.mem_filter.mpr ⟨hj, by simp [hjk, hk.symm]⟩, hjk⟩, fun i hi => hall i (List.mem_of_mem_filter hi)⟩

theorem beginDrain (h : StoppedJob k s) (n : Fin 8) : StoppedJob k (beginDrain n s) := by
  unfold Machine.beginDrain
  split
  · split
    · exact h.modJob _ _ fun _ => ⟨rfl, .inl rfl⟩
    · exact h
  · exact h

theorem stopJob (h : StoppedJob k s) (k' : JobRef) (cause : Option (Nat × Nat)) (b : Option PktRef) :
    StoppedJob k (stopJob k' cause b s) := by
  simp only [Machine.stopJob]
  refine beginDrain (of_jobs ?_ (modErr_jobs _ _)) _
  refine modJob ?_ k' _ fun _ => ⟨rfl, .inr rfl⟩
  exact forEach_keeps (StoppedJob k) _ _ (fun a _ s h => h.of_jobs (dropArm_jobs _ a s)) _ (h.of_jobs rfl)

theorem jobError (h : StoppedJob k s) (k' : JobRef) (e : Err) (site : Site) : StoppedJob k (jobError k' e site s) := by
  unfold Machine.jobError
  split
  · exact h
  · rename_i j _
    have hl : StoppedJob k (logRegion k'.r (jobRecord e site j s.tick.tn) s) := h.of_jobs rfl
    simp only
    split
    · exact hl.stopJob _ _ _
    · exact hl.stopJob _ _ _
    · exact hl.modJob _ _ fun _ => ⟨rfl, .inl rfl⟩
    · exact hl
    · exact hl

theorem breakLock (h : StoppedJob k s) (n : Fin 8) (l : Nat) : StoppedJob k (breakLock n l s) := by
  have hm : StoppedJob k (modLock n l (fun x => LockReg.pass .broken { x with epoch := x.epoch + 1 }) s) :=
    h.of_jobs (modLock_jobs _ _ _ _)
  simp only [Machine.breakLock]
  split
  · exact hm.modJob _ _ fun _ => ⟨rfl, .inl rfl⟩
  · exact hm

theorem breakLocks (h : StoppedJob k s) (k' : JobRef) : StoppedJob k (breakLocks k' s) := by
  refine forEach_keeps (StoppedJob k) _ _ (fun l _ s h => ?_) s h
  split
  · exact h.breakLock _ _
  · exact h

theorem endDeferred (h : StoppedJob k s) (k' : JobRef) (st : EState) : StoppedJob k (endDeferred k' st s) := by
  unfold Machine.endDeferred
  split
  · exact h
  · refine modJob (forEach_keeps (StoppedJob k) _ _ (fun d _ s h => ?_) s h) _ _ fun _ => ⟨rfl, .inl rfl⟩
    split
    · exact h.of_jobs rfl
    · exact h
    · exact h

/-- Completing another job. -/
theorem completeJob (h : StoppedJob k s) (k' : JobRef) (hk : k' ≠ k) (status : Nat) : StoppedJob k (completeJob k' status s) := by
  unfold Machine.completeJob
  split
  · exact h
  · simp only
    have hd : StoppedJob k (if statusClass status = 0 then s else Machine.endDeferred k'
        (if statusClass status = 1 ∧ status ≠ Status.depCancelled then .cancelled else .error) s) := by
      split
      · exact h
      · exact h.endDeferred _ _
    revert hd
    generalize (if statusClass status = 0 then s else Machine.endDeferred k'
        (if statusClass status = 1 ∧ status ≠ Status.depCancelled then .cancelled else .error) s) = u
    intro hd
    have hl : StoppedJob k (leaveLocks k' u) := hd.of_jobs rfl
    refine beginDrain (of_jobs ?_ (decide_jobs _ _ _ _)) _
    exact dropJob (of_jobs (hl.breakLocks k') (modErr_jobs _ _)) k' hk

/-- A staged job is not the stopped one. -/
theorem dropStaged (h : StoppedJob k s) (k' : JobRef) : StoppedJob k (dropStaged k' s) := by
  unfold Machine.dropStaged
  split
  · rename_i j hj
    split
    · exact h
    · rename_i hns
      have hne : k' ≠ k := by
        rintro rfl
        have hs := h.2 j (List.mem_of_find?_eq_some hj) (findJob_ref s _ j hj)
        exact hns (by simp [Job.started, hs])
      split
      · exact of_jobs (h.dropJob k' hne) rfl
      · exact h.dropJob k' hne
  · exact h

theorem releaseWord (h : StoppedJob k s) (j : Job) (ht : releaseWord s j = some t) : StoppedJob k t := by
  have hadv : ∀ u, StoppedJob k u → StoppedJob k (Machine.modJob j.ref Job.advance u) := fun u hu =>
    hu.modJob _ _ fun _ => ⟨rfl, .inl rfl⟩
  unfold Machine.releaseWord at ht
  split at ht
  · cases ht
  · split at ht
    · split at ht
      · cases ht
      · cases ht; exact hadv s h
    · split at ht
      · cases ht
      · cases ht; exact hadv s h
    · split at ht
      · cases ht; exact hadv s h
      · cases ht
    · split at ht
      · cases ht
      · have hcw : ∀ f, MayStop f → StoppedJob k (Machine.modJob j.ref f s) := fun f hf => h.modJob _ f hf
        simp only at ht
        split at ht
        · cases ht
          refine jobError ?_ _ _ _
          exact hcw _ fun _ => ⟨rfl, .inl rfl⟩
        · cases ht
          refine hadv _ ?_
          exact hcw _ fun _ => ⟨rfl, .inl rfl⟩
    · cases ht
    · cases ht
    · cases ht

theorem endArms (h : StoppedJob k s) (j : Job) (ht : endArms s j = some t) : StoppedJob k t := by
  unfold Machine.endArms at ht
  split at ht
  · cases ht
    exact modJob (forEach_keeps (StoppedJob k) _ _ (fun a _ s h => h.of_jobs (dropArm_jobs _ a s)) s h) _ _
      fun _ => ⟨rfl, .inl rfl⟩
  · cases ht

theorem latchArms (h : StoppedJob k s) (j : Job) (ht : latchArms s j = some t) : StoppedJob k t := by
  simp only [Machine.latchArms] at ht
  split at ht
  · cases ht; exact h.modJob _ _ fun _ => ⟨rfl, .inl rfl⟩
  · cases ht

/-- A job that completes of itself has executed END, so it is another one. -/
theorem jobSettles (h : StoppedJob k s) (j : Job) (hj : j ∈ s.jobs) (ht : jobSettles s j = some t) : StoppedJob k t := by
  unfold Machine.jobSettles at ht
  cases h1 : Machine.releaseWord s j with
  | some x => simp only [h1, Option.orElse] at ht; cases ht; exact h.releaseWord j h1
  | none =>
    simp only [h1, Option.orElse] at ht
    cases h2 : Machine.latchArms s j with
    | some x => simp only [h2] at ht; cases ht; exact h.latchArms j h2
    | none =>
      simp only [h2] at ht
      cases h3 : Machine.endArms s j with
      | some x => simp only [h3] at ht; cases ht; exact h.endArms j h3
      | none =>
        simp only [h3] at ht
        split at ht
        · rename_i hover
          have hne : j.ref ≠ k := by
            intro hk
            simp [Job.over, h.2 j hj hk] at hover
          cases ht
          refine completeJob ?_ _ hne _
          exact h.modJob _ _ fun _ => ⟨rfl, .inl rfl⟩
        · cases ht

theorem recordSettles (h : StoppedJob k s) (n : Fin 8) (r : Nat × Nat × Fin 4 × W32) (ht : recordSettles n s r = some t) :
    StoppedJob k t := by
  simp only [Machine.recordSettles] at ht
  split at ht
  · cases ht; exact h.of_jobs rfl
  · split at ht
    · cases ht; exact h.of_jobs rfl
    · cases ht

/-- A packet that has not started completes marked, of itself, or rejected. -/
theorem packetSettles_unstarted (h : StoppedJob k s) (i : Fin 33) (p : Pkt) (hp : p.started = false)
    (ht : packetSettles i p s = some t) : StoppedJob k t := by
  simp only [Machine.packetSettles, hp, Bool.not_false, if_true] at ht
  split at ht
  · cases ht
  · split at ht
    · split at ht
      · cases ht
        refine of_jobs ?_ (decide_jobs _ _ _ _)
        split
        · exact h.of_jobs rfl
        · exact h.dropStaged _
      · cases ht; exact h.of_jobs (decide_jobs _ _ _ _)
    · split at ht
      · cases ht; exact h.of_jobs (decide_jobs _ _ _ _)
      · cases ht

/-- A packet that has started is released from its wait. -/
theorem packetSettles_started (h : StoppedJob k s) (i : Fin 33) (p : Pkt) (hp : p.started = true)
    (ht : packetSettles i p s = some t) : StoppedJob k t := by
  have hdone : ∀ d u, some (decide' i p.pos d s) = some u → StoppedJob k u := by
    rintro d u ⟨⟩
    exact h.of_jobs (decide_jobs _ _ _ _)
  simp only [Machine.packetSettles, hp, Bool.not_true, Bool.false_eq_true, if_false] at ht
  split at ht
  · cases ht
  · split at ht
    · split at ht
      · exact hdone _ _ ht
      · cases ht
    · split at ht
      · cases ht
      · exact hdone _ _ ht
    · split at ht
      · exact hdone _ _ ht
      · exact hdone _ _ ht
      · exact hdone _ _ ht
      · cases ht
    · cases ht

theorem packetSettles (h : StoppedJob k s) (i : Fin 33) (p : Pkt) (ht : packetSettles i p s = some t) : StoppedJob k t := by
  cases hp : p.started with
  | false => exact h.packetSettles_unstarted i p hp ht
  | true => exact h.packetSettles_started i p hp ht

theorem queueSettles (h : StoppedJob k s) (i : Fin 33) (ht : queueSettles i s = some t) : StoppedJob k t := by
  rcases queueSettles_cases i s t ht with ⟨p, d, rfl⟩ | ⟨p, hp⟩
  · exact h.of_jobs (writeRecord_jobs _ _ _ _)
  · exact h.packetSettles i p hp

theorem regionSettles (h : StoppedJob k s) (n : Fin 8) (ht : regionSettles n s = some t) : StoppedJob k t := by
  unfold Machine.regionSettles at ht
  cases h1 : (s.evt.rgn[n]).records.findSome? (Machine.recordSettles n s) with
  | some x =>
    simp only [h1, Option.orElse] at ht
    cases ht
    obtain ⟨r, -, hr⟩ := List.exists_of_findSome?_eq_some h1
    exact h.recordSettles n r hr
  | none =>
    simp only [h1, Option.orElse] at ht
    cases h2 : (allFin 4).findSome? fun q => Machine.queueSettles (qIndex n q) s with
    | some x =>
      simp only [h2] at ht
      cases ht
      obtain ⟨q, -, hq⟩ := List.exists_of_findSome?_eq_some h2
      exact h.queueSettles _ hq
    | none =>
      simp only [h2] at ht
      obtain ⟨j, hjm, hj⟩ := List.exists_of_findSome?_eq_some ht
      split at hj
      · exact h.jobSettles j hjm hj
      · unfold lockSettles at hj
        split at hj
        · split at hj
          · exact h.releaseWord j hj
          · cases hj
        · cases hj

/-- What follows of itself in any region leaves a stopped job stopped. -/
theorem settle (h : StoppedJob k s) (n : Fin 8) : StoppedJob k (settle n s) := by
  unfold Machine.settle
  generalize 96 = rounds
  induction rounds generalizing s with
  | zero => exact h
  | succ m ih =>
    unfold settleUpTo
    split
    · rename_i u hu
      exact ih (h.regionSettles n hu)
    · exact h

end StoppedJob

end Sys2Proof.Machine
end

section
/-!
PROOFS. The budget test (02_pennant_tick.md R25-R30): its outcomes, and what the records, the annealing and the stop that follow
leave alone.
-/
namespace Sys2Proof.Machine

/-! ### What the records and the annealing after a test leave alone -/

/-- What a test leaves of a tile's sample: its sweeps, its captured states and the flips of its slices. -/
def HerdTile.sample (t : HerdTile) : W32 × List Nat × List Nat := (t.sweeps, t.captured, t.slices.map Slice.flips)

/-- How far a ticking job's sweep has come. -/
def TickJob.sweep (t : TickJob) : Nat × Bool × Bool := (t.w, t.late, t.active)

theorem sample_eq_iff (t : HerdTile) (n : W32) (c f : List Nat) :
    t.sample = (n, c, f) ↔ t.sweeps = n ∧ t.captured = c ∧ t.slices.map Slice.flips = f := by
  simp only [HerdTile.sample, Prod.mk.injEq]

theorem sweep_eq_iff (t : TickJob) (w : Nat) (l a : Bool) : t.sweep = (w, l, a) ↔ t.w = w ∧ t.late = l ∧ t.active = a := by
  simp only [TickJob.sweep, Prod.mk.injEq]

/-- The elementary changes that records, reservoir offers and annealing updates are made of. -/
structure KeptByRecords (P : State → Prop) : Prop where
  mesh : ∀ s v, P s → P { s with mesh := v }
  anl : ∀ s v, P s → P { s with anl := v }
  job : ∀ s n f, (∀ t, (f t).sweep = t.sweep) → P s → P (modTickJob n f s)
  herd : ∀ s h f, (∀ t, (f t).sample = t.sample) → P s → P (modHerd h f s)

section
variable {P : State → Prop} (K : KeptByRecords P)
include K

theorem keeps_forHerd (l : List (Fin 64)) (f : HerdTile → HerdTile) (hf : ∀ t, (f t).sample = t.sample) (s : State) (h : P s) :
    P (forEach l (fun i => modHerd i f) s) := forEach_keeps P _ _ (fun i _ s h => K.herd s i f hf h) s h

theorem keeps_sendPayload (n : Fin 8) (base : Nat) (masked : Bool) (parts : List (Fin 64 × Nat × List Byte)) (s : State)
    (h : P s) : P (sendPayload n base masked parts s).2 := by
  simp only [sendPayload]
  exact K.job _ _ _ (fun _ => rfl) (forEach_keeps P _ _ (fun p _ s h => K.mesh s _ h) s h)

theorem keeps_endWrite (n : Fin 8) (id : Nat) (s : State) (h : P s) : P (endWrite n id s) :=
  K.job _ _ _ (fun _ => rfl) h

theorem keeps_emitChain (j : Job) (g t w : Nat) (late skip : Bool) (s : State) (h : P s) : P (emitChain j g t w late skip s) := by
  simp only [emitChain]
  split
  · split
    · split
      · exact h
      · exact keeps_endWrite K _ _ _ (keeps_sendPayload K _ _ _ _ _ h)
    · exact h
  · exact K.job _ _ _ (fun _ => rfl) (keeps_sendPayload K _ _ _ _ _ h)

/-- An emission keeps what its elementary changes keep. -/
theorem keeps_emission (j : Job) (gs : List Nat) (w : Nat) (late skip : Bool) (s : State) (h : P s) :
    P (emission j gs w late skip s) := by
  have hs : P (modTickJob j.ref.r (fun x => { x with emitNo := s.herd.job[j.ref.r].emitNo + 1 })
      (forEach gs (fun g => emitChain j g s.herd.job[j.ref.r].emitNo w late skip) s)) :=
    K.job _ _ _ (fun _ => rfl) (forEach_keeps P _ _ (fun g _ s h => keeps_emitChain K _ _ _ _ _ _ s h) s h)
  simp only [emission]
  split
  · exact h
  · split
    · exact hs
    · refine keeps_forHerd K _ _ ?_ _ hs
      exact fun _ => rfl

theorem keeps_maskedWrite (n : Fin 8) (g w : Nat) (hd : Part) (ps : List Part) (c : Chain) (s : State) (h : P s) :
    P (maskedWrite n g w hd ps c s) := by
  simp only [maskedWrite]
  split
  · exact keeps_sendPayload K _ _ _ _ _ h
  · exact h

theorem keeps_offerState (j : Job) (g w : Nat) (hd : Part) (ps : List Part) (c : Chain) (s : State) (h : P s) :
    P (offerState j g w hd ps c s) := by
  simp only [offerState]
  split
  · exact keeps_maskedWrite K _ _ _ _ _ _ _ h
  · split
    · exact keeps_maskedWrite K _ _ _ _ _ _ _ h
    · exact keeps_maskedWrite K _ _ _ _ _ _ _ (K.anl s _ h)
    · exact K.job _ _ _ (fun _ => rfl) (keeps_sendPayload K _ _ _ _ _
        (K.herd _ _ _ (fun _ => rfl) (K.anl s _ h)))

/-- An annealing update keeps what its elementary changes keep. -/
theorem keeps_updateChain (j : Job) (w g : Nat) (s : State) (h : P s) : P (updateChain j w g s) := by
  simp only [updateChain]
  split
  · exact keeps_offerState K _ _ _ _ _ _ _ (K.anl s _ h)
  · exact K.anl s _ h
  · exact h

end

/-- A state as another has it in what the budget test decides: TICK, the sweeps' progress and the tiles' samples. -/
structure SameTest (x s : State) : Prop where
  tick : s.tick = x.tick
  job : ∀ n : Fin 8, s.herd.job[n].sweep = x.herd.job[n].sweep
  tile : ∀ h : Fin 64, s.herd.tile[h].sample = x.herd.tile[h].sample

theorem SameTest.refl (s : State) : SameTest s s := ⟨rfl, fun _ => rfl, fun _ => rfl⟩

/-- A change of one element keeps what the change keeps of it. -/
theorem upd_keeps {α β : Type} {n : Nat} (g : α → β) (v : Vector α n) (i : Fin n) (f : α → α) (hf : ∀ a, g (f a) = g a)
    (j : Fin n) : g (upd v i f)[j] = g v[j] := by
  by_cases h : j = i
  · rw [h, upd_same, hf]
  · rw [upd_other v i j f h]

theorem SameTest.modTickJob {x s : State} (h : SameTest x s) (n : Fin 8) (f : TickJob → TickJob)
    (hf : ∀ t, (f t).sweep = t.sweep) : SameTest x (modTickJob n f s) :=
  ⟨h.tick, fun m => (upd_keeps TickJob.sweep s.herd.job n f hf m).trans (h.job m), h.tile⟩

theorem SameTest.modHerd {x s : State} (h : SameTest x s) (i : Fin 64) (f : HerdTile → HerdTile)
    (hf : ∀ t, (f t).sample = t.sample) : SameTest x (modHerd i f s) :=
  ⟨h.tick, h.job, fun m => (upd_keeps HerdTile.sample s.herd.tile i f hf m).trans (h.tile m)⟩

/-- Records and annealing leave what the test decides. -/
theorem sameTest_records (x : State) : KeptByRecords (SameTest x) where
  mesh _ _ h := ⟨h.tick, h.job, h.tile⟩
  anl _ _ h := ⟨h.tick, h.job, h.tile⟩
  job _ n f hf h := h.modTickJob n f hf
  herd _ i f hf h := h.modHerd i f hf

/-- They leave the jobs. -/
theorem jobs_records (l : List Job) : KeptByRecords fun s => s.jobs = l where
  mesh _ _ h := h
  anl _ _ h := h
  job _ _ _ _ h := h
  herd _ _ _ _ h := h

/-- So does what stops a job and what follows of itself. -/
theorem sameTest_ends (x : State) : KeptByEnds (SameTest x) where
  jobs _ _ h := ⟨h.tick, h.job, h.tile⟩
  que _ _ h := ⟨h.tick, h.job, h.tile⟩
  evt _ _ h := ⟨h.tick, h.job, h.tile⟩
  err _ _ h := ⟨h.tick, h.job, h.tile⟩
  msix _ _ h := ⟨h.tick, h.job, h.tile⟩
  ctx _ _ h := ⟨h.tick, h.job, h.tile⟩
  phys _ _ _ h := ⟨h.tick, h.job, h.tile⟩
  host _ _ _ h := ⟨h.tick, h.job, h.tile⟩
  shadow _ n h := h.modTickJob n _ fun _ => rfl
  purge _ _ h := ⟨h.tick, h.job, h.tile⟩

/-! ### The test (R25-R30) -/

/-- Did every tile of region n's plan raise sweep_done before CCLK 2,800 of tick `now` (R25)? -/
def AllInTime (s : State) (n : Fin 8) (now : Nat) : Prop :=
  ∀ h ∈ planTiles s n, s.herd.tile[h].sweepDone = true ∧ (s.herd.tile[h].doneTn = now → s.herd.tile[h].doneCclk < 2800)

theorem inTime_iff (tn : Nat) (t : HerdTile) : inTime tn t = true ↔ t.sweepDone = true ∧ (t.doneTn = tn → t.doneCclk < 2800) := by
  by_cases h : t.doneTn = tn <;> simp [inTime, h]

theorem allInTime_iff (s : State) (n : Fin 8) (now : Nat) :
    ((planTiles s n).all fun h => inTime now s.herd.tile[h]) = true ↔ AllInTime s n now := by
  simp only [List.all_eq_true, inTime_iff, AllInTime]

/-- The state in which the test is made: the job's Sweep phase is over. -/
def testedState (s : State) (r : Fin 8) : State := modTickJob r (fun t => { t with part := .emit }) s

theorem planTiles_congr (s t : State) (n : Fin 8) (h : t.herd.job[n].plan = s.herd.job[n].plan) : planTiles t n = planTiles s n := by
  simp only [planTiles, h]

theorem testedState_job (s : State) (r : Fin 8) : (testedState s r).herd.job[r] = { s.herd.job[r] with part := .emit } :=
  upd_same _ _ _

theorem testedState_planTiles (s : State) (r : Fin 8) : planTiles (testedState s r) r = planTiles s r :=
  planTiles_congr _ _ _ (by rw [testedState_job])

theorem testedState_sweepTicks (s : State) (r : Fin 8) : sweepTicks (testedState s r) r = sweepTicks s r := by
  rw [sweepTicks, testedState_planTiles]; rfl

/-- A tick in which nothing sweeps has no test. -/
theorem exec_overrunTest_idle (s : State) (r : Fin 8)
    (h : sweepingJob s r = none ∨ s.tick.rgn[r].ticking = false ∨ s.herd.job[r].part ≠ .sweep) :
    exec (.overrunTest r) s = .next s := by
  simp only [exec, execOverrunTest]
  rcases h with h | h | h
  · rw [h]
  · split
    · rfl
    · rw [if_pos (by rw [h]; rfl)]
  · split
    · rfl
    · rw [if_pos (by rw [Bool.or_eq_true, bne_iff_ne]; exact .inr h)]

/-- The test of a ticking job that sweeps: the group goes on, the sweep passes, or it is overrun. -/
theorem exec_overrunTest (s : State) (r : Fin 8) (j : Job) (hj : sweepingJob s r = some j)
    (ht : s.tick.rgn[r].ticking = true) (hp : s.herd.job[r].part = .sweep) [Decidable (AllInTime s r s.tick.tn.toNat)] :
    exec (.overrunTest r) s = .next (
      if s.herd.job[r].late = false ∧ s.herd.job[r].groupTick + 1 < sweepTicks s r then
        modTickJob r (fun t => { t with groupTick := t.groupTick + 1 }) (testedState s r)
      else if AllInTime s r s.tick.tn.toNat then settle r (sweepPasses r j (testedState s r))
      else settle r (sweepOverruns r j (testedState s r))) := by
  have hgo : (!s.tick.rgn[r].ticking || s.herd.job[r].part != .sweep) = false := by rw [ht, hp]; rfl
  have hin : ((planTiles (testedState s r) r).all fun h => inTime s.tick.tn.toNat s.herd.tile[h]) = true ↔
      AllInTime s r s.tick.tn.toNat := by rw [testedState_planTiles, allInTime_iff]
  have hst : sweepTicks (modTickJob r (fun t => { t with part := .emit }) s) r = sweepTicks s r := testedState_sweepTicks s r
  simp only [exec, execOverrunTest, hj, hgo, Bool.false_eq_true, if_false, hst]
  by_cases hg : s.herd.job[r].late = false ∧ s.herd.job[r].groupTick + 1 < sweepTicks s r
  · rw [if_pos hg, if_pos hg]; rfl
  · rw [if_neg hg, if_neg hg]
    by_cases hd : AllInTime s r s.tick.tn.toNat
    · rw [if_pos hd]; exact if_pos (hin.2 hd)
    · rw [if_neg hd]; exact if_neg fun h => hd (hin.1 h)

theorem forEach_modHerd (l : List (Fin 64)) (f : HerdTile → HerdTile) (s : State) :
    forEach l (fun h => modHerd h f) s = { s with herd := { s.herd with tile := updEach l (fun _ => f) s.herd.tile } } := by
  induction l generalizing s with
  | nil => rfl
  | cons a l ih => rw [forEach_cons, ih]; rfl

/-! #### Every tile in time -/

/-- A captured sample (R93, R95). -/
theorem captureTile_sample (t : HerdTile) : (captureTile t).sample = (t.sweeps + 1,
    (List.range (readHcb t.hcb).slots).map ((readHcb t.hcb).stateAt t.mem 0), t.slices.map Slice.flipsNow) := by
  simp only [captureTile, HerdTile.sample, List.map_map, Function.comp_def]

/-- The slot in which the last tile of region n's plan raised sweep_done (R30). -/
def planSlot (s : State) (n : Fin 8) : Nat := lastSlot ((planTiles s n).map fun h => s.herd.tile[h])

/-- The state once the samples are captured. -/
def capturedState (s : State) (n : Fin 8) : State :=
  forEach (planTiles s n) (fun h => modHerd h captureTile) (modTickRgn n (fun x => slack (planSlot s n) { x with consec := 0 }) s)

theorem capturedState_tick (s : State) (n : Fin 8) :
    (capturedState s n).tick.rgn[n] = slack (planSlot s n) { s.tick.rgn[n] with consec := 0 } := by
  rw [capturedState, forEach_modHerd]; exact upd_same _ _ _

theorem capturedState_job (s : State) (n : Fin 8) : (capturedState s n).herd.job = s.herd.job := by
  rw [capturedState, forEach_modHerd]; rfl

theorem capturedState_tile (s : State) (n : Fin 8) (hn : (planTiles s n).Nodup) (h : Fin 64) (hh : h ∈ planTiles s n) :
    (capturedState s n).herd.tile[h] = captureTile s.herd.tile[h] := by
  rw [capturedState, forEach_modHerd]; exact updEach_of_mem _ hn (fun _ => captureTile) s.herd.tile h hh

/-- A sweep that passes: the samples are captured; what follows changes nothing of the test but that the sweep is over. -/
theorem sweepPasses_eq (n : Fin 8) (j : Job) (s : State) : ∃ c full, SameTest (capturedState s n) c ∧
    sweepPasses n j s = modJob j.ref (Job.progressBy 1) (modTickJob n (fun t => { t with
      w := t.w + 1, active := false, groupTick := 0, late := false, stop := t.stop || full }) c) := by
  refine ⟨_, _, ?_, rfl⟩
  have K := sameTest_records (capturedState s n)
  refine keeps_forHerd K _ clearSat (fun t => by simp [HerdTile.sample, clearSat, Function.comp_def]) _ ?_
  refine forEach_keeps _ _ _ (fun g _ s h => keeps_updateChain K j _ g s h) _ ?_
  exact keeps_emission K j _ _ _ _ _ (SameTest.refl _)

/-- The test passed: the slack, the sweep counted, and each tile's sample (R28, R30, R93, R95). -/
theorem passed_test (s : State) (r : Fin 8) (j : Job) :
    let t := settle r (sweepPasses r j (testedState s r))
    t.tick.rgn[r] = slack (planSlot s r) { s.tick.rgn[r] with consec := 0 } ∧
    t.herd.job[r].sweep = (s.herd.job[r].w + 1, false, false) ∧
    ((planTiles s r).Nodup → ∀ h ∈ planTiles s r, t.herd.tile[h].sample = (captureTile s.herd.tile[h]).sample) := by
  intro t
  obtain ⟨c, full, hc, heq⟩ := sweepPasses_eq r j (testedState s r)
  have ht : SameTest _ t := keeps_settle (sameTest_ends _) r _ (SameTest.refl _)
  rw [heq] at ht
  have hplan := testedState_planTiles s r
  have hslot : planSlot (testedState s r) r = planSlot s r := by rw [planSlot, hplan]; rfl
  have htick : t.tick = (capturedState (testedState s r) r).tick := ht.tick.trans hc.tick
  have hsample : ∀ h : Fin 64, t.herd.tile[h].sample = (capturedState (testedState s r) r).herd.tile[h].sample :=
    fun h => (ht.tile h).trans (hc.tile h)
  have hsweep : t.herd.job[r].sweep = (c.herd.job[r].w + 1, false, false) :=
    (ht.job r).trans (congrArg TickJob.sweep (upd_same c.herd.job r _))
  have hw : c.herd.job[r].w = s.herd.job[r].w := by
    have hcw := congrArg Prod.fst (hc.job r)
    rw [capturedState_job, testedState_job] at hcw
    exact hcw
  refine ⟨?_, by rw [hsweep, hw], fun hn h hh => ?_⟩
  · rw [htick, capturedState_tick, hslot]; rfl
  · rw [hsample, capturedState_tile _ _ (by rw [hplan]; exact hn) h (by rw [hplan]; exact hh)]; rfl

/-! #### A tile late -/

/-- The counts of an overrun tick (R28, R30). -/
def overrunCounts (now : Nat) (x : TickRgn) : TickRgn :=
  slack 0xFF { x with consec := min 15 (x.consec + 1), overruns := satInc 32 x.overruns, lastOverrunTn := now }

/-- A sweep that is overrun: the counts; then the job is stopped at the limit, or the sweep goes on (R26-R28). -/
theorem sweepOverruns_eq (n : Fin 8) (j : Job) (s : State) :
    ∃ c site, SameTest (modTickRgn n (overrunCounts s.tick.tn.toNat) s) c ∧ c.jobs = s.jobs ∧
      sweepOverruns n j s = if s.tick.rgn[n].limit ≤ s.tick.rgn[n].consec + 1 then
        jobError j.ref .overrun site (modTickJob n (fun t => { t with active := false, late := false }) c)
      else modTickJob n (fun t => { t with late := true }) c := by
  refine ⟨_, _, ?_, ?_, rfl⟩
  · exact keeps_emission (sameTest_records _) j _ _ _ _ _ (SameTest.refl _)
  · exact keeps_emission (jobs_records s.jobs) j _ _ _ _ _ rfl

/-- A job-level error of a running job stops it (R330). -/
theorem jobError_stops (k : JobRef) (e : Err) (site : Site) (s : State) (j : Job) (hj : findJob s k = some j)
    (hf : j.firing = true) : StoppedJob k (jobError k e site s) := by
  have hstop : ∀ cause u, findJob u k = some j → StoppedJob k (stopJob k cause none u) := by
    intro cause u hu
    simp only [stopJob]
    refine StoppedJob.beginDrain (StoppedJob.of_jobs ?_ (modErr_jobs _ _)) _
    exact StoppedJob.of_modJob (fun _ => ⟨rfl, rfl⟩) hu
  have hl : findJob (logRegion k.r (jobRecord e site j s.tick.tn) s) k = some j := hj
  unfold jobError
  simp only [hj]
  cases hp : j.phase with
  | running => exact hstop _ _ hl
  | ending => exact hstop _ _ hl
  | staged => simp [Job.firing, hp] at hf
  | stopped => simp [Job.firing, hp] at hf
  | restoring => simp [Job.firing, hp] at hf

/-- The test failed: the counts, and the sweep goes on or is discarded with its job (R26-R28, R30). -/
theorem overrun_test (s : State) (r : Fin 8) (j : Job) :
    let t := settle r (sweepOverruns r j (testedState s r))
    t.tick.rgn[r] = overrunCounts s.tick.tn.toNat s.tick.rgn[r] ∧
    t.herd.job[r].sweep = (if s.tick.rgn[r].limit ≤ s.tick.rgn[r].consec + 1 then (s.herd.job[r].w, false, false)
      else (s.herd.job[r].w, true, s.herd.job[r].active)) ∧
    (s.tick.rgn[r].limit ≤ s.tick.rgn[r].consec + 1 → findJob s j.ref = some j → j.firing = true → StoppedJob j.ref t) := by
  intro t
  obtain ⟨c, site, hc, hjobs, heq⟩ := sweepOverruns_eq r j (testedState s r)
  have hrgn : c.tick.rgn[r] = overrunCounts s.tick.tn.toNat s.tick.rgn[r] := by rw [hc.tick]; exact upd_same _ _ _
  have hjob : c.herd.job[r].sweep = (s.herd.job[r].w, s.herd.job[r].late, s.herd.job[r].active) :=
    (hc.job r).trans (congrArg TickJob.sweep (testedState_job s r) :)
  have hw : c.herd.job[r].w = s.herd.job[r].w := congrArg Prod.fst hjob
  by_cases hlimit : s.tick.rgn[r].limit ≤ s.tick.rgn[r].consec + 1
  · have hover : sweepOverruns r j (testedState s r) = jobError j.ref .overrun site
        (modTickJob r (fun t => { t with active := false, late := false }) c) := heq.trans (if_pos hlimit)
    have ht : SameTest (modTickJob r (fun t => { t with active := false, late := false }) c) t :=
      keeps_settle (sameTest_ends _) r _ (by rw [hover]; exact keeps_jobError (sameTest_ends _) _ _ _ _ (SameTest.refl _))
    refine ⟨by rw [ht.tick]; exact hrgn, ?_, fun _ hf hfire => ?_⟩
    · rw [if_pos hlimit, ← hw]
      exact (ht.job r).trans (congrArg TickJob.sweep (upd_same c.herd.job r _))
    · have hfc : findJob (modTickJob r (fun t => { t with active := false, late := false }) c) j.ref = some j := by
        rw [← hf, findJob, findJob, modTickJob_jobs, hjobs]; rfl
      have hstop := (jobError_stops j.ref .overrun site _ j hfc hfire).settle r
      rw [← hover] at hstop
      exact hstop
  · have hover : sweepOverruns r j (testedState s r) = modTickJob r (fun t => { t with late := true }) c := heq.trans (if_neg hlimit)
    have ht : SameTest (modTickJob r (fun t => { t with late := true }) c) t :=
      keeps_settle (sameTest_ends _) r _ (by rw [hover]; exact SameTest.refl _)
    refine ⟨by rw [ht.tick]; exact hrgn, ?_, fun h => absurd h hlimit⟩
    rw [if_neg hlimit, ← hw, ← show c.herd.job[r].active = s.herd.job[r].active from congrArg (fun p => p.2.2) hjob]
    exact (ht.job r).trans (congrArg TickJob.sweep (upd_same c.herd.job r _))

/-! #### The slot of the last tile -/

/-- The greatest of a list, from a start that is no greater. -/
theorem foldl_max_eq (l : List Nat) (m a : Nat) (hm : a = m ∨ m ∈ l) (ha : a ≤ m) (hl : ∀ x ∈ l, x ≤ m) : l.foldl max a = m := by
  induction l generalizing a with
  | nil => exact hm.resolve_right List.not_mem_nil
  | cons b l ih =>
    have hb := hl b List.mem_cons_self
    rw [List.foldl_cons]
    refine ih (max a b) ?_ (max_le ha hb) fun x hx => hl x (List.mem_cons_of_mem _ hx)
    rcases hm with rfl | hm
    · exact .inl (max_eq_left hb)
    · rcases List.mem_cons.mp hm with rfl | hm
      · exact .inl (max_eq_right ha)
      · exact .inr hm

/-- The slot is the greatest among the tiles that were last (R30). -/
theorem lastSlot_eq (ts : List HerdTile) (k : HerdTile) (hk : k ∈ ts) (hlast : ∀ x ∈ ts, x.doneTn ≤ k.doneTn)
    (hslot : ∀ x ∈ ts, x.doneTn = k.doneTn → x.doneCclk / 16 ≤ k.doneCclk / 16) : lastSlot ts = k.doneCclk / 16 := by
  have htn : (ts.map HerdTile.doneTn).foldl max 0 = k.doneTn :=
    foldl_max_eq _ _ 0 (.inr (List.mem_map_of_mem hk)) (Nat.zero_le _) (by simpa using hlast)
  simp only [lastSlot, htn]
  refine foldl_max_eq _ _ 0 (.inr (List.mem_map_of_mem (f := fun t : HerdTile => t.doneCclk / 16)
    (List.mem_filter.mpr ⟨hk, beq_self_eq_true _⟩))) (Nat.zero_le _) fun x hx => ?_
  obtain ⟨t, ht, rfl⟩ := List.mem_map.mp hx
  obtain ⟨hmem, heq⟩ := List.mem_filter.mp ht
  exact hslot t hmem (beq_iff_eq.mp heq)

/-- A job that sweeps is running or ending. -/
theorem firing_of_sweepingJob {s : State} {r : Fin 8} {j : Job} (h : sweepingJob s r = some j) : j.firing = true :=
  (Option.filter_eq_some_iff.mp h).2

/-- Settles O13: the three outcomes of the test, and what each leaves after all that follows of itself. -/
theorem budgetTestCountsOverruns : Obligations.BudgetTestCountsOverruns := by
  classical
  refine ⟨?_, exec_overrunTest_idle, lastSlot_eq⟩
  intro s r j hj ht hp b x now done goesOn
  refine ⟨_, exec_overrunTest s r j hj ht hp, fun hg => ?_, fun hg hd => ?_, fun hg hd => ?_⟩
  · rw [if_pos hg]
    simp only [testedState, modTickJob, upd_upd]
    rfl
  · rw [if_neg hg, if_pos (show AllInTime s r s.tick.tn.toNat from hd)]
    obtain ⟨hrgn, hsweep, htile⟩ := passed_test s r j
    obtain ⟨hw, hlate, hactive⟩ := (sweep_eq_iff _ _ _ _).1 hsweep
    exact ⟨planSlot s r, rfl, hrgn, hw, hactive, hlate,
      fun hn h hh => (sample_eq_iff _ _ _ _).1 ((htile hn h hh).trans (captureTile_sample _))⟩
  · rw [if_neg hg, if_neg (show ¬ AllInTime s r s.tick.tn.toNat from hd)]
    obtain ⟨hrgn, hsweep, hstop⟩ := overrun_test s r j
    by_cases hlimit : x.limit ≤ x.consec + 1
    · rw [if_pos hlimit] at hsweep
      obtain ⟨hw, hlate, hactive⟩ := (sweep_eq_iff _ _ _ _).1 hsweep
      exact ⟨hrgn, hw, fun h => absurd hlimit h.not_ge, fun _ => ⟨hlate, hactive,
        fun hf => (hstop hlimit hf (firing_of_sweepingJob hj)).find⟩⟩
    · rw [if_neg hlimit] at hsweep
      obtain ⟨hw, hlate, -⟩ := (sweep_eq_iff _ _ _ _).1 hsweep
      exact ⟨hrgn, hw, fun _ => hlate, fun h => absurd h hlimit⟩

end Sys2Proof.Machine
end

section
/-!
PROOFS. VC0 flits on the links of the mesh (03_mesh_regions_rim.md R48, R50, R51, R56, R66): which flit a slot's entry sends, and what
the router at the far end does with it.
-/
namespace Sys2Proof.Machine

/-! ### The slot's entry and the link's tag (R50, R66) -/

/-- The entry that may send in a slot is an active one of that slot, not idle, with a CCLK left. -/
theorem entryAt_some {s : State} {l : Fin 768} {slot : Nat} {a : SlotEnt} (h : entryAt s l slot = some a) :
    a ∈ activeEntries s l ∧ a.slot = slot ∧ a.src ≠ 0 ∧ s.mesh.links[l].vc0Slot ≤ slot ∧
      (s.mesh.links[l].vc0Slot = slot → s.mesh.links[l].vc0InSlot < a.flits) := by
  obtain ⟨hfind, hleft⟩ := Option.filter_eq_some_iff.mp h
  have hent := List.find?_some hfind
  simp only [Bool.and_eq_true, beq_iff_eq, bne_iff_ne] at hent
  simp only [Bool.and_eq_true, Bool.or_eq_true, decide_eq_true_eq, bne_iff_ne] at hleft
  exact ⟨List.mem_of_find?_eq_some hfind, hent.1, hent.2, hleft.1, fun hs => hleft.2.resolve_left fun hne => hne hs⟩

/-- A link's tag is that of its tiles' blocks. -/
theorem linkTag_congr {s t : State} (h : t.mesh.tag = s.mesh.tag) (l : Nat) : linkTag t l = linkTag s l := by
  have ht : tileTag t = tileTag s := by funext x y; rw [tileTag, tileTag, h]
  rw [linkTag, linkTag, ht]

theorem takeVc0_tag (x y src : Nat) (f : Vc0Flit) (s : State) : (takeVc0 x y src f s).mesh.tag = s.mesh.tag := by
  unfold takeVc0
  split
  · rfl
  · split <;> rfl

/-! ### The router at the far end (R48, R56, R66) -/

/-- Where an error of link l is raised: the router at its far end. -/
def linkSite (l : Fin 768) : Site := { x := (linkEnd l.val).1, y := (linkEnd l.val).2, engine := 7, detail := 0 }

/-- A corrected error on link l counts (R48). -/
def linkCorrected (l : Fin 768) (ecc : Ecc) (s : State) : State :=
  if ecc = .single then modLink l (fun k => { k with ceCount := min (k.ceCount + 1) 65535 }) s else s

/-- A flit lost at the wall of link l counts (R66). -/
def linkDropped (l : Fin 768) (s : State) : State := modLink l (fun k => { k with wallDrop := min (k.wallDrop + 1) 65535 }) s

/-- A region-level error of the region whose tag a link carries; on a link of no region none (log entry 98). -/
def tagError (t : Option (Fin 8)) (e : Err) (site : Site) (s : State) : State :=
  match t with
  | some n => regionError n e site none s
  | none => s

/-- A flit with a double-bit error is lost. -/
theorem admitFlit_double (l : Fin 768) (tag : Nat) (s : State) :
    admitFlit l tag .double s = (.lost, tagError (linkTag s l.val) .meshUe (linkSite l) s) := by
  unfold admitFlit tagError
  cases linkTag s l.val <;> rfl

/-- A flit without an uncorrectable error passes under its link's tag. -/
theorem admitFlit_same (l : Fin 768) (tag : Nat) (ecc : Ecc) (s : State) (hecc : ecc ≠ .double)
    (ht : (linkTag s l.val).map Fin.val = some tag) : admitFlit l tag ecc s = (.take, linkCorrected l ecc s) := by
  cases ecc with
  | double => exact absurd rfl hecc
  | clean => exact if_pos ht
  | single => exact if_pos ht

/-- Under any other tag it is lost and counted. -/
theorem admitFlit_other (l : Fin 768) (tag : Nat) (ecc : Ecc) (s : State) (hecc : ecc ≠ .double)
    (ht : (linkTag s l.val).map Fin.val ≠ some tag) :
    admitFlit l tag ecc s = (.lost, tagError (linkTag s l.val) .wallDrop (linkSite l) (linkDropped l (linkCorrected l ecc s))) := by
  cases ecc with
  | double => exact absurd rfl hecc
  | clean => exact if_neg ht
  | single => exact if_neg ht

/-! ### The command (R50, R51, R56) -/

/-- The state once the slot's entry has sent its flit. -/
def sentVc0 (d : LinkDir) (l : Fin 768) (a : SlotEnt) (slot : Nat) (f : Vc0Flit) (s : State) : State :=
  modLink l (fun k => { k with
    vc0Sent := k.vc0Sent + 1, vc0Slot := slot, vc0InSlot := if k.vc0Slot = slot then k.vc0InSlot + 1 else 1 })
    (takeVc0 d.x d.y a.src f s)

theorem sentVc0_linkTag (d : LinkDir) (l : Fin 768) (a : SlotEnt) (slot : Nat) (f : Vc0Flit) (s : State) (k : Nat) :
    linkTag (sentVc0 d l a slot f s) k = linkTag s k :=
  linkTag_congr (takeVc0_tag _ _ _ _ _) k

section
variable {s : State} {d : LinkDir} {h : linkIdx d < 768} (hd : onDie d.x d.y = true) (hl : linkExists (linkIdx d) = true)
include hd hl

/-- A slot of a link of no region, or without an entry, sends nothing. -/
theorem exec_vc0_idle (slot : Nat) (ecc : Ecc) (hi : linkTag s (linkIdx d) = none ∨ entryAt s ⟨linkIdx d, h⟩ slot = none) :
    exec (.vc0FlitArrival d (.planned slot) ecc) s = .next s := by
  simp only [exec, execVc0FlitArrival, dif_pos h, hd, hl, Bool.not_true, Bool.or_self, Bool.false_eq_true, if_false]
  rcases hi with hi | hi
  · rw [hi]
  · rw [hi]; split <;> simp_all

/-- An entry that finds no flit sends nothing. -/
theorem exec_vc0_empty (slot : Nat) (ecc : Ecc) (n : Fin 8) (a : SlotEnt) (hn : linkTag s (linkIdx d) = some n)
    (ha : entryAt s ⟨linkIdx d, h⟩ slot = some a) (hf : vc0Head s d.x d.y a.src n slot = none) :
    exec (.vc0FlitArrival d (.planned slot) ecc) s = .next s := by
  simp only [exec, execVc0FlitArrival, dif_pos h, hd, hl, Bool.not_true, Bool.or_self, Bool.false_eq_true, if_false, hn, ha, hf]

/-- The flit that an entry sends is lost at the far end, or arrives there. -/
theorem exec_vc0_sent (slot : Nat) (ecc : Ecc) (n : Fin 8) (a : SlotEnt) (f : Vc0Flit) (hn : linkTag s (linkIdx d) = some n)
    (ha : entryAt s ⟨linkIdx d, h⟩ slot = some a) (hf : vc0Head s d.x d.y a.src n slot = some f) :
    exec (.vc0FlitArrival d (.planned slot) ecc) s =
      match admitFlit ⟨linkIdx d, h⟩ f.tag ecc (sentVc0 d ⟨linkIdx d, h⟩ a slot f s) with
      | (.lost, t) => .next t
      | (.take, t) => .next (settle n (arriveVc0 ⟨linkIdx d, h⟩ n slot f t)) := by
  simp only [exec, execVc0FlitArrival, dif_pos h, hd, hl, Bool.not_true, Bool.or_self, Bool.false_eq_true, if_false, hn, ha, hf]
  rw [← sentVc0]
  generalize admitFlit ⟨linkIdx d, h⟩ f.tag ecc (sentVc0 d ⟨linkIdx d, h⟩ a slot f s) = r
  obtain ⟨_ | _, t⟩ := r <;> rfl

/-- A flit that no entry sends meets the wall only under another tag than the link's. -/
theorem exec_vc0_stray (f : Vc0Flit) (ecc : Ecc) :
    exec (.vc0FlitArrival d (.stray f) ecc) s = .next
      (if (linkTag s (linkIdx d)).map Fin.val = some f.tag then s else (admitFlit ⟨linkIdx d, h⟩ f.tag ecc s).2) := by
  simp only [exec, execVc0FlitArrival, dif_pos h, hd, hl, Bool.not_true, Bool.or_self, Bool.false_eq_true, if_false]
  split <;> rfl

end

/-- Ending work leaves the mesh. -/
theorem mesh_ends (m : MeshState) : KeptByEnds fun s => s.mesh = m where
  jobs _ _ h := h
  que _ _ h := h
  evt _ _ h := h
  err _ _ h := h
  msix _ _ h := h
  ctx _ _ h := h
  phys _ _ _ h := h
  host _ _ _ h := h
  shadow _ _ h := h
  purge _ _ h := h

/-- A flit that finds its buffer full counts on link l (R56). -/
def linkOverflow (l : Fin 768) (s : State) : State := modLink l (fun k => { k with vc0Overflow := min (k.vc0Overflow + 1) 65535 }) s

theorem linkOverflow_get (l : Fin 768) (s : State) : (linkOverflow l s).mesh.links[l] =
    { s.mesh.links[l] with vc0Overflow := min (s.mesh.links[l].vc0Overflow + 1) 65535 } := upd_same _ _ _

/-- It is counted, and is an error of the region's ticking job. -/
theorem overflowVc0_eq (l : Fin 768) (n : Fin 8) (s : State) : overflowVc0 l n s =
    match tickJobOf s n with
    | some j => settle n (jobError j.ref .vc0Overflow (linkSite l) (linkOverflow l s))
    | none => linkOverflow l s := rfl

/-- A flit that finds its buffer full counts in the mesh, and stops the region's ticking job (R56). -/
theorem overflowVc0_spec (l : Fin 768) (n : Fin 8) (s : State) :
    (settle n (overflowVc0 l n s)).mesh = (linkOverflow l s).mesh ∧
    ∀ j, tickJobOf s n = some j → findJob s j.ref = some j → j.phase = .running →
      StoppedJob j.ref (settle n (overflowVc0 l n s)) := by
  have K := mesh_ends (linkOverflow l s).mesh
  rw [overflowVc0_eq]
  refine ⟨keeps_settle K n _ ?_, fun j hj hf hr => ?_⟩
  · split
    · exact keeps_settle K n _ (keeps_jobError K _ _ _ _ rfl)
    · rfl
  · rw [hj]
    exact ((jobError_stops j.ref .vc0Overflow _ (linkOverflow l s) j hf (by rw [Job.firing, hr]; rfl)).settle n).settle n

/-- Settles O19: what an entry sends, and what becomes of it at the far end by its error, its tag, its destination and the
buffer's room. -/
theorem vc0FlitsStayInsideTheirRegion : Obligations.Vc0FlitsStayInsideTheirRegion := by
  intro s d ecc h hd hl l e site corrected dropped
  refine ⟨fun slot a ha => entryAt_some ha, fun slot hi => exec_vc0_idle hd hl slot ecc hi, fun slot n a hn ha =>
    ⟨exec_vc0_empty hd hl slot ecc n a hn ha, fun f hf => ?_⟩, fun f => ⟨fun n hn => ⟨fun ht => ?_, fun ht hecc => ?_, fun ht hecc => ?_⟩,
      fun hn => ⟨fun hecc => ?_, fun hecc => ?_⟩⟩⟩
  · intro s1 s2
    have hexec := exec_vc0_sent hd hl slot ecc n a f hn ha hf
    have hn1 : linkTag (sentVc0 d l a slot f s) l.val = some n := (sentVc0_linkTag d l a slot f s l.val).trans hn
    refine ⟨fun hecc => ?_, fun hecc ht => ?_, fun hecc ht => ?_⟩
    · subst hecc
      rw [hexec, admitFlit_double, hn1]
      rfl
    · rw [hexec, admitFlit_other _ _ _ _ hecc (by rw [hn1]; simpa using ht), hn1]
      rfl
    · have hcome : exec (.vc0FlitArrival d (.planned slot) ecc) s = .next (settle n (arriveVc0 l n slot f s2)) := by
        rw [hexec, admitFlit_same _ _ _ _ hecc (by rw [hn1]; simpa using ht)]
        rfl
      rw [hcome]
      refine ⟨fun he => ?_, fun he hroom => ?_, fun he hfull => ?_⟩
      · rw [arriveVc0, if_pos he]
      · rw [arriveVc0, if_neg he, if_pos hroom]
      · rw [arriveVc0, if_neg he, if_neg (Nat.not_lt.mpr hfull)]
        obtain ⟨hmesh, hstop⟩ := overflowVc0_spec l n s2
        refine ⟨_, rfl, ?_, ?_, fun j hj hfj hr => (hstop j hj hfj hr).find⟩
        · rw [hmesh, linkOverflow_get]
        · rw [hmesh, linkOverflow_get]
  · rw [exec_vc0_stray (h := h) hd hl, if_pos (by rw [hn]; simpa using ht)]
  · subst hecc
    rw [exec_vc0_stray (h := h) hd hl, if_neg (by rw [hn]; simpa using ht), admitFlit_double, hn]
    rfl
  · have hne : (linkTag s (linkIdx d)).map Fin.val ≠ some f.tag := by rw [hn]; simpa using ht
    rw [exec_vc0_stray (h := h) hd hl, if_neg hne, admitFlit_other l _ _ _ hecc hne, hn]
    rfl
  · subst hecc
    rw [exec_vc0_stray (h := h) hd hl, if_neg (by simp [hn]), admitFlit_double, hn]
    rfl
  · have hne : (linkTag s (linkIdx d)).map Fin.val ≠ some f.tag := by simp [hn]
    rw [exec_vc0_stray (h := h) hd hl, if_neg hne, admitFlit_other l _ _ _ hecc hne, hn]
    rfl

end Sys2Proof.Machine
end

section
/-!
PROOFS. Mesh packets and Rim flits (03_mesh_regions_rim.md R49-R52, R59-R61, R64, R66; 07_ibex_chamois.md R148; 10_memory_host_link.md
R231): which packet an output sends, what its arrival serves, and what a flit does on the Rim.
-/
namespace Sys2Proof.Machine

/-! ### The packet that an output sends (R50, R52) -/

/-- An input offers a packet of the channel that leaves by the port. -/
theorem offer_some {s : State} {x y : Nat} {port : Port} {own : Option MeshPacket} {vc : Vc} {i : Fin 5} {p : MeshPacket}
    (h : offer s x y port own vc i = some p) : p.vc = vc ∧ nextPort x y p.dx p.dy = some port := by
  obtain ⟨hp, hport⟩ := Option.filter_eq_some_iff.mp h
  refine ⟨?_, by simpa using hport⟩
  split at hp
  · have := (Option.filter_eq_some_iff.mp hp).2
    simp only [Bool.and_eq_true, beq_iff_eq] at this
    exact this.1
  · split at hp
    · simpa using (List.mem_filter.mp (List.mem_of_mem_head? hp)).2
    · cases hp

/-- Round-robin: the five inputs after any one are all of them. -/
theorem exists_input_after (k : Nat) (i : Fin 5) : ∃ j ∈ List.range 5, Fin.ofNat 5 (k + 1 + j) = i := by
  refine ⟨(i.val + 5 * (k + 1) - (k + 1)) % 5, List.mem_range.mpr (Nat.mod_lt _ (by decide)), Fin.ext ?_⟩
  have := i.isLt
  simp only [Fin.ofNat]
  omega

/-- The first input in turn that offers a packet of a channel for which there is room. -/
def offered (s : State) (d : LinkDir) (l : Fin 768) (own : Option MeshPacket) (vc : Vc) : Option (Fin 5 × MeshPacket) :=
  (List.range 5).findSome? fun i =>
    let i : Fin 5 := Fin.ofNat 5 (s.mesh.links[l].served[vcIdx vc].val + 1 + i)
    ((offer s d.x d.y d.port own vc i).filter s.mesh.links[l].hasRoom).map fun p => (i, p)

theorem offered_some {s : State} {d : LinkDir} {l : Fin 768} {own : Option MeshPacket} {vc : Vc} {i : Fin 5} {p : MeshPacket}
    (h : offered s d l own vc = some (i, p)) :
    p.vc = vc ∧ s.mesh.links[l].hasRoom p = true ∧ nextPort d.x d.y p.dx p.dy = some d.port := by
  obtain ⟨k, -, hk⟩ := List.exists_of_findSome?_eq_some h
  obtain ⟨q, hq, hqp⟩ := Option.map_eq_some_iff.mp hk
  obtain ⟨hoff, hroom⟩ := Option.filter_eq_some_iff.mp hq
  obtain ⟨-, rfl⟩ := Prod.mk.injEq _ _ _ _ ▸ hqp
  exact ⟨(offer_some hoff).1, hroom, (offer_some hoff).2⟩

theorem offered_none {s : State} {d : LinkDir} {l : Fin 768} {own : Option MeshPacket} {vc : Vc}
    (h : offered s d l own vc = none) (i : Fin 5) (q : MeshPacket) (hq : offer s d.x d.y d.port own vc i = some q) :
    s.mesh.links[l].hasRoom q = false := by
  obtain ⟨k, hk, rfl⟩ := exists_input_after s.mesh.links[l].served[vcIdx vc].val i
  have hnone := List.findSome?_eq_none_iff.mp h k hk
  simp only [Option.map_eq_none_iff] at hnone
  exact Bool.eq_false_iff.mpr fun hroom => Option.filter_eq_none_iff.mp hnone q hq hroom

/-- Of the channels, VC3 sends first, then VC1, then VC2. -/
theorem nextPacket_eq (s : State) (d : LinkDir) (l : Fin 768) (own : Option MeshPacket) :
    nextPacket s d l own = [Vc.vc3, Vc.vc1, Vc.vc2].findSome? (offered s d l own) := rfl

/-- What an output sends has room ahead and leaves by it, and no packet of VC3 with room waits for another channel's. -/
theorem nextPacket_some {s : State} {d : LinkDir} {l : Fin 768} {own : Option MeshPacket} {i : Fin 5} {p : MeshPacket}
    (h : nextPacket s d l own = some (i, p)) :
    s.mesh.links[l].hasRoom p = true ∧ nextPort d.x d.y p.dx p.dy = some d.port ∧
      (p.vc ≠ .vc3 → ∀ i : Fin 5, ∀ q, offer s d.x d.y d.port own .vc3 i = some q → s.mesh.links[l].hasRoom q = false) := by
  rw [nextPacket_eq] at h
  obtain ⟨vc, -, hvc⟩ := List.exists_of_findSome?_eq_some h
  obtain ⟨hp, hroom, hport⟩ := offered_some hvc
  refine ⟨hroom, hport, fun hne => ?_⟩
  cases h3 : offered s d l own .vc3 with
  | none => exact offered_none h3
  | some x =>
    rw [List.findSome?_cons, h3] at h
    exact absurd (offered_some (h3.trans h)).1 hne

/-! ### What a tile's unit serves (R148) -/

/-- A link leads into the tile at its far end. -/
theorem linkIdx_mem_linksInto (d : LinkDir) (h : linkIdx d < 768) (hd : onDie d.x d.y = true) (hl : linkExists (linkIdx d) = true) :
    (⟨linkIdx d, h⟩ : Fin 768) ∈ linksInto (linkEnd (linkIdx d)).1 (linkEnd (linkIdx d)).2 := by
  obtain ⟨x, y, port⟩ := d
  simp only [onDie, Bool.and_eq_true, decide_eq_true_eq] at hd
  have hx : linkIdx ⟨x, y, port⟩ / 4 % 16 = x := by cases port <;> simp only [linkIdx, portCode] <;> omega
  have hy : linkIdx ⟨x, y, port⟩ / 64 = y := by cases port <;> simp only [linkIdx, portCode] <;> omega
  have hp : linkIdx ⟨x, y, port⟩ % 4 = portCode port := by cases port <;> simp only [linkIdx, portCode] <;> omega
  refine List.mem_filterMap.mpr ⟨[3, 4, 1, 2].getD (portCode port) 0, by cases port <;> decide, ?_⟩
  refine Option.map_eq_some_iff.mpr ⟨linkIdx ⟨x, y, port⟩, Option.filter_eq_some_iff.mpr ⟨?_, ?_⟩, Fin.ext (Nat.mod_eq_of_lt h)⟩
  · rw [linkExists, hx, hy, hp] at hl
    rw [linkEnd, hx, hy, hp]
    cases port <;> simp [portCode, interior, linkIdx] at hl ⊢ <;> omega
  · refine Bool.and_eq_true_iff.mpr ⟨?_, hl⟩
    rw [linkExists, hx, hy, hp] at hl
    rw [linkEnd, hx, hy, hp]
    cases port <;> simp [portCode, onDie] at hl ⊢ <;> omega

/-- Does a list's element that alone acts, act once, the list acts as it does. -/
theorem forEach_once {α : Type} (l : List α) (f : α → State → State) (a : α) (s t : State) (ha : a ∈ l)
    (hother : ∀ b ∈ l, b ≠ a → f b s = s) (hf : f a s = t) (ht : ∀ b ∈ l, f b t = t) : forEach l f s = t := by
  induction l with
  | nil => cases ha
  | cons b l ih =>
    have hrest : forEach l f t = t :=
      forEach_keeps (· = t) l f (fun c hc u hu => by rw [hu]; exact ht c (List.mem_cons_of_mem _ hc)) t rfl
    rw [forEach_cons]
    by_cases hb : b = a
    · rw [hb, hf, hrest]
    · rw [hother b List.mem_cons_self hb]
      exact ih ((List.mem_cons.mp ha).resolve_left (Ne.symm hb)) (fun c hc => hother c (List.mem_cons_of_mem _ hc))
        (fun c hc => ht c (List.mem_cons_of_mem _ hc))

theorem modLink_id (l : Fin 768) (f : Link → Link) (s : State) (h : f s.mesh.links[l] = s.mesh.links[l]) : modLink l f s = s := by
  rw [modLink, upd_id _ _ _ h]

/-- The packets of a channel in a link's buffer that a tile serves. -/
def serveVc (x y : Nat) (l : Fin 768) (vc : Vc) (s : State) : State :=
  let ps := servable s x y l vc
  let s := modLink l (fun k => { k with vc := ps.foldl List.erase k.vc }) s
  if interior x y then forEach ps (landPacket (unitAt x y)) s else s

theorem serveHeld_eq (x y : Nat) (s : State) :
    serveHeld x y s = forEach (linksInto x y) (fun l => forEach [Vc.vc3, Vc.vc1, Vc.vc2] (serveVc x y l)) s := rfl

theorem serveVc_nothing {x y : Nat} {l : Fin 768} {vc : Vc} {s : State} (h : servable s x y l vc = []) : serveVc x y l vc s = s := by
  simp only [serveVc, h, List.foldl_nil, forEach_nil, ite_self]
  exact modLink_id _ _ _ rfl

/-- A channel of which no packet waits has none to serve. -/
theorem servable_of_none {s : State} {x y : Nat} {l : Fin 768} {vc : Vc} (h : ∀ p ∈ s.mesh.links[l].vc, p.vc ≠ vc) :
    servable s x y l vc = [] := by
  have hf : (s.mesh.links[l].vc.filter fun p => p.vc == vc) = [] := by
    simpa only [List.filter_eq_nil_iff, beq_iff_eq] using h
  rw [servable, hf]
  exact ite_self _

theorem servable_of_empty {s : State} {x y : Nat} {l : Fin 768} (h : s.mesh.links[l].vc = []) (vc : Vc) : servable s x y l vc = [] :=
  servable_of_none fun p hp => by rw [h] at hp; cases hp

theorem serveLink_empty {x y : Nat} {l : Fin 768} {s : State} (h : s.mesh.links[l].vc = []) :
    forEach [Vc.vc3, Vc.vc1, Vc.vc2] (serveVc x y l) s = s :=
  forEach_keeps (· = s) _ _ (fun vc _ u hu => by rw [hu]; exact serveVc_nothing (servable_of_empty h vc)) s rfl

/-- A packet's write leaves the mesh. -/
theorem localWrite_mesh (e : Eng) (a : Nat) (data : List Byte) (s : State) : (localWrite e a data s).mesh = s.mesh := by
  cases e with
  | herd i => simp only [localWrite]; split <;> first | rfl | (split <;> rfl)
  | _ => rfl

theorem landPacket_mesh (e : Eng) (p : MeshPacket) (s : State) : (landPacket e p s).mesh = s.mesh := by
  have K := mesh_ends s.mesh
  unfold landPacket
  split
  · rfl
  · split
    · exact localWrite_mesh _ _ _ _
    · split
      · exact keeps_settle K _ _ (keeps_jobError K _ _ _ _ rfl)
      · rfl

/-! #### A packet that alone waits at a tile -/

/-- The state once a packet has joined link l's buffer. -/
def joined (l : Fin 768) (p : MeshPacket) (s : State) : State := modLink l (fun k => { k with vc := k.vc ++ [p] }) s

section
variable {s : State} {x y : Nat} {l : Fin 768} {p : MeshPacket}

theorem joined_same (hempty : s.mesh.links[l].vc = []) : (joined l p s).mesh.links[l].vc = [p] := by
  have : (joined l p s).mesh.links[l] = { s.mesh.links[l] with vc := s.mesh.links[l].vc ++ [p] } := upd_same _ _ _
  rw [this, hempty]; rfl

theorem joined_other (k : Fin 768) (hk : k ≠ l) : (joined l p s).mesh.links[k] = s.mesh.links[k] := upd_other _ _ _ _ hk

/-- Served, a packet leaves the buffer as it was. -/
theorem joined_leaves (hempty : s.mesh.links[l].vc = []) : modLink l (fun k => { k with vc := [p].foldl List.erase k.vc }) (joined l p s) = s := by
  have : (modLink l (fun k => { k with vc := [p].foldl List.erase k.vc }) (joined l p s)) =
      modLink l ((fun k => { k with vc := [p].foldl List.erase k.vc }) ∘ fun k => { k with vc := k.vc ++ [p] }) s := by
    simp only [joined, modLink, upd_upd]
  have hid : ∀ k : Link, k.vc = [] → { k with vc := [p].foldl List.erase (k.vc ++ [p]) } = k := by
    rintro ⟨⟩ hk
    obtain rfl : _ = [] := hk
    simp
  rw [this]
  exact modLink_id _ _ _ (hid _ hempty)

/-- The tile serves a write on VC1 or VC2 that is for it if its unit serves it now. -/
theorem servable_joined (hxy : (x, y) = (p.dx, p.dy)) (hin : interior x y = true) (hvc : p.vc ≠ .vc3) (hempty : s.mesh.links[l].vc = []) :
    servable (joined l p s) x y l p.vc = if servesWrite s (unitAt x y) p.addr p.data.length = true then [p] else [] := by
  have h3 : (p.vc == Vc.vc3) = false := by simpa using hvc
  have hserve : servesWrite (joined l p s) = servesWrite s := rfl
  simp only [servable, h3, Bool.false_and, Bool.false_eq_true, if_false, joined_same hempty, hserve, hin]
  cases hs : servesWrite s (unitAt x y) p.addr p.data.length <;> simp [hs, ← hxy]

theorem serveHeld_lands (hxy : (x, y) = (p.dx, p.dy)) (hin : interior x y = true) (hvc : p.vc ≠ .vc3) (hl : l ∈ linksInto x y)
    (hempty : ∀ k ∈ linksInto x y, s.mesh.links[k].vc = []) (hs : servesWrite s (unitAt x y) p.addr p.data.length = true) :
    serveHeld x y (joined l p s) = landPacket (unitAt x y) p s := by
  have hland : ∀ k ∈ linksInto x y, (landPacket (unitAt x y) p s).mesh.links[k].vc = [] := by
    rw [landPacket_mesh]; exact hempty
  rw [serveHeld_eq]
  refine forEach_once _ _ l _ _ hl (fun k hk hne => serveLink_empty (by rw [joined_other k hne]; exact hempty k hk)) ?_
    fun k hk => serveLink_empty (hland k hk)
  refine forEach_once _ _ p.vc _ _ (by cases p.vc <;> decide) (fun vc _ hne => serveVc_nothing (servable_of_none ?_)) ?_
    fun vc _ => serveVc_nothing (servable_of_empty (hland l hl) vc)
  · rw [joined_same (hempty l hl)]; simpa using hne.symm
  · simp only [serveVc, servable_joined hxy hin hvc (hempty l hl), if_pos hs, joined_leaves (hempty l hl), hin, if_true, forEach_cons, forEach_nil]

theorem serveHeld_waits (hxy : (x, y) = (p.dx, p.dy)) (hin : interior x y = true) (hvc : p.vc ≠ .vc3) 
    (hempty : ∀ k ∈ linksInto x y, s.mesh.links[k].vc = []) (hs : servesWrite s (unitAt x y) p.addr p.data.length = false) :
    serveHeld x y (joined l p s) = joined l p s := by
  rw [serveHeld_eq]
  refine forEach_keeps (· = joined l p s) _ _ (fun k hk u hu => ?_) _ rfl
  rw [hu]
  by_cases hkl : k = l
  · rw [hkl]
    refine forEach_keeps (· = joined l p s) _ _ (fun vc _ u hu => ?_) _ rfl
    rw [hu]
    refine serveVc_nothing ?_
    by_cases hv : vc = p.vc
    · rw [hv, servable_joined hxy hin hvc (hempty l (hkl ▸ hk)), hs]; rfl
    · refine servable_of_none ?_
      rw [joined_same (hempty l (hkl ▸ hk))]; simpa using Ne.symm hv
  · exact serveLink_empty (by rw [joined_other k hkl]; exact hempty k hk)

end

/-! ### MESH_PACKET_ARRIVAL (R49, R50, R66) -/

theorem takePacket_tag (x y : Nat) (i : Fin 5) (p : MeshPacket) (s : State) : (takePacket x y i p s).mesh.tag = s.mesh.tag := by
  unfold takePacket
  split <;> rfl

/-- The state once an output has sent its packet. -/
def sentPacket (d : LinkDir) (l : Fin 768) (i : Fin 5) (p : MeshPacket) (s : State) : State :=
  modLink l (fun k => { k with served := k.served.set (vcIdx p.vc) i }) (takePacket d.x d.y i p s)

theorem sentPacket_linkTag (d : LinkDir) (l : Fin 768) (i : Fin 5) (p : MeshPacket) (s : State) (k : Nat) :
    linkTag (sentPacket d l i p s) k = linkTag s k := linkTag_congr (takePacket_tag _ _ _ _ _) k

section
variable {s : State} {d : LinkDir} {h : linkIdx d < 768} (hd : onDie d.x d.y = true) (hl : linkExists (linkIdx d) = true)
include hd hl

theorem exec_packet_none (own : Option MeshPacket) (ecc : Ecc) (hn : nextPacket s d ⟨linkIdx d, h⟩ own = none) :
    exec (.meshPacketArrival d own ecc) s = .next s := by
  simp only [exec, execMeshPacketArrival, dif_pos h, hd, hl, Bool.not_true, Bool.or_self, Bool.false_eq_true, if_false, hn]

/-- The packet that an output sends is lost at the far end, or joins the buffer there. -/
theorem exec_packet_sent (own : Option MeshPacket) (ecc : Ecc) (i : Fin 5) (p : MeshPacket)
    (hp : nextPacket s d ⟨linkIdx d, h⟩ own = some (i, p)) :
    exec (.meshPacketArrival d own ecc) s =
      match admitFlit ⟨linkIdx d, h⟩ p.tag ecc (sentPacket d ⟨linkIdx d, h⟩ i p s) with
      | (.lost, t) => .next t
      | (.take, t) => .next (serveHeld (linkEnd (linkIdx d)).1 (linkEnd (linkIdx d)).2 (joined ⟨linkIdx d, h⟩ p t)) := by
  simp only [exec, execMeshPacketArrival, dif_pos h, hd, hl, Bool.not_true, Bool.or_self, Bool.false_eq_true, if_false, hp]
  have hsent : modLink ⟨linkIdx d, h⟩ (fun k => { k with served := upd k.served (vcIdx p.vc) fun _ => i })
      (takePacket d.x d.y i p s) = sentPacket d ⟨linkIdx d, h⟩ i p s := rfl
  rw [hsent]
  generalize admitFlit ⟨linkIdx d, h⟩ p.tag ecc (sentPacket d ⟨linkIdx d, h⟩ i p s) = r
  obtain ⟨_ | _, t⟩ := r <;> rfl

end

/-! ### The Rim (R59-R61, R64, R231) -/

/-- Is there room for a flit of context c at ring position p, in its direction (R61)? -/
theorem rimRoom_iff (s : State) (p : Fin 24) (ccw : Bool) (c : Fin 9) : rimRoom s p ccw c = true ↔
    (s.rim.held.filter fun h => h.pos == p && h.ccw == ccw && h.flit.ctx == c).length < 32 := decide_eq_true_iff

/-- A flit for another tile enters the buffer of its direction. -/
def heldAt (p : Fin 24) (f : RimFlit) (s : State) : State :=
  { s with rim := { s.rim with held := s.rim.held ++ [{ pos := p, ccw := goesCcw p f.dest, ready := 0, flit := f }] } }

/-- Is there room at ring position p for a flit of context c for position q? -/
def RoomToward (s : State) (p q : Fin 24) (c : Fin 9) : Prop :=
  (s.rim.held.filter fun h => h.pos == p && h.ccw == goesCcw p q && h.flit.ctx == c).length < 32

theorem enterRim_here (p : Fin 24) (f : RimFlit) (s : State) (hd : f.dest = p) : enterRim p f s = some (landRim f s) := if_pos hd

theorem enterRim_room {p : Fin 24} {f : RimFlit} {s : State} (hd : f.dest ≠ p) (hr : RoomToward s p f.dest f.ctx) :
    enterRim p f s = some (heldAt p f s) :=
  (if_neg hd).trans (if_pos ((rimRoom_iff _ _ _ _).mpr hr))

theorem enterRim_full {p : Fin 24} {f : RimFlit} {s : State} (hd : f.dest ≠ p) (hr : ¬ RoomToward s p f.dest f.ctx) :
    enterRim p f s = none :=
  (if_neg hd).trans (if_neg fun h => hr ((rimRoom_iff _ _ _ _).mp h))

theorem ctxOf_lt (r : Fin 8) : (ctxOf r).val < 8 := by revert r; decide
theorem ofNat_ctxOf (r : Fin 8) : Fin.ofNat 8 (ctxOf r).val = r := by revert r; decide

/-- Other traffic of a region enters the Rim once none of its records waits there (R231). -/
theorem exec_enter (s : State) (r : Fin 8) (p dest : Fin 24) (bytes : Nat) (ecc : Ecc) :
    exec (.rimFlitArrival (.enter p (ctxOf r) dest bytes) ecc) s = .next (if s.rim.staging[r][p] ≠ [] then s else
      (enterRim p { ctx := ctxOf r, dest := dest, load := .other bytes } s).getD s) := by
  simp only [exec, execRimFlitArrival, ofNat_ctxOf, ctxOf_lt, decide_true, Bool.true_and]
  cases s.rim.staging[r][p] <;> rfl

theorem emitRim_nothing (s : State) (r : Fin 8) (p : Fin 24) (hx : s.rim.staging[r][p] = []) : emitRim r p s = s := by
  simp only [emitRim, hx]

/-- The oldest part has left an emit staging buffer. -/
def unstaged (r : Fin 8) (p : Fin 24) (rest : List Staged) (s : State) : State :=
  { s with rim := { s.rim with staging := s.rim.staging.set r (s.rim.staging[r].set p rest) } }

/-- The oldest part of a record enters the Rim as one flit if its page holds all of it (R211, R231). -/
theorem emitRim_whole (s : State) (r : Fin 8) (p : Fin 24) (x : Staged) (rest : List Staged) (place : Place)
    (hx : s.rim.staging[r][p] = x :: rest) (hlen : x.data.length ≤ 2 ^ 21 - x.addr % 2 ^ 21)
    (htr : translate s p (ctxOf r) x.addr true = .ok place) :
    emitRim r p s = (enterRim p { ctx := ctxOf r, dest := placeTile place, load := .write x.id place x.masked x.data }
      (unstaged r p rest s)).getD s := by
  simp only [emitRim, hx, htr, min_eq_left hlen, lt_irrefl, if_false, List.take_length]
  rfl

/-- The segment direction that a crossing takes. -/
theorem segDir_eq (seg : Fin 24) (ccw : Bool) (h : 2 * seg.val + (if ccw = true then 1 else 0) < 48) :
    Fin.ofNat 48 (2 * seg.val + b2n ccw) = ⟨2 * seg.val + (if ccw = true then 1 else 0), h⟩ :=
  Fin.ext (Nat.mod_eq_of_lt h)

/-- The flits sent in a lane-slot of a segment direction in the present tick (R60). -/
def rimSent (s : State) (key : Nat) : Nat := ((s.rim.used.find? fun u => u.1 == key).map Prod.snd).getD 0

/-- The flit of a context that may leave a buffer in a slot (R61). -/
def rimWaits (s : State) (here : Fin 24) (ccw : Bool) (c : Fin 9) (slot : Nat) : Option RimHeld :=
  s.rim.held.find? fun h => h.pos == here && h.ccw == ccw && h.flit.ctx == c && decide (h.ready ≤ slot)

/-- A flit has left its buffer in a lane-slot. -/
def rimLeft (key sent : Nat) (x : RimHeld) (s : State) : State :=
  { s with rim := { s.rim with held := s.rim.held.erase x, used := (key, sent + 1) :: s.rim.used.filter fun u => u.1 != key } }

/-- A flit comes to the next tile: it lands there, or waits in that tile's buffer. -/
def rimComes (next : Fin 24) (slot : Nat) (x : RimHeld) (s : State) : State :=
  if x.flit.dest = next then landRim x.flit s
  else { s with rim := { s.rim with held := s.rim.held ++ [{ x with pos := next, ready := slot + 1 }] } }

/-- A corrected error counts on a segment direction (R64). -/
def rimCorrected (d : Fin 48) (s : State) : State :=
  { s with rim := { s.rim with ceCount := s.rim.ceCount.set d (min (s.rim.ceCount[d] + 1) 65535) } }

/-- The end of a crossing, by its error (R64). -/
def rimCross (d : Fin 48) (next : Fin 24) (slot : Nat) (ecc : Ecc) (x : RimHeld) (s : State) : State :=
  match ecc with
  | .clean => rimComes next slot x s
  | .single => rimComes next slot x (rimCorrected d s)
  | .double => deviceError .rimUe { x := (edgeXY next).1, y := (edgeXY next).2, engine := 8, detail := 0 } 15 0 s

section
variable {s : State} {seg : Fin 24} {ccw : Bool} {lane : Fin 4} {slot : Nat} {ecc : Ecc} {d : Fin 48}
  (hd : Fin.ofNat 48 (2 * seg.val + b2n ccw) = d)
include hd

/-- A lane-slot of a unit that no context owns carries nothing (R60). -/
theorem crossRim_unowned (ho : s.rim.owner[d][rimUnit lane slot] = none) : crossRim seg ccw lane slot ecc s = s := by
  simp only [crossRim, hd, ho]

variable {c : Fin 9} (ho : s.rim.owner[d][rimUnit lane slot] = some c)
include ho

theorem crossRim_none (hw : rimWaits s (if ccw = true then seg + 1 else seg) ccw c slot = none) :
    crossRim seg ccw lane slot ecc s = s := by
  rw [rimWaits] at hw
  simp only [crossRim, hd, ho, hw]

/-- The flit that waits crosses into room ahead, 16 in one lane-slot at most (R60, R61). -/
theorem crossRim_some (x : RimHeld) (hw : rimWaits s (if ccw = true then seg + 1 else seg) ccw c slot = some x)
    (next : Fin 24) (hn : (if ccw = true then seg else seg + 1) = next) (key : Nat) (hk : 800 * d.val + 4 * slot + lane.val = key) :
    crossRim seg ccw lane slot ecc s =
      if 200 ≤ slot ∨ 16 ≤ rimSent s key ∨ !(x.flit.dest == next || rimRoom s next ccw c) then s
      else rimCross d next slot ecc x (rimLeft key (rimSent s key) x s) := by
  rw [rimWaits] at hw
  simp only [crossRim, hd, ho, hw, hn, hk]
  refine if_congr Iff.rfl rfl ?_
  cases ecc
  · rfl
  · rw [if_pos rfl]; rfl
  · rfl

end

/-! ### The statement -/

/-- What an output sends, and what becomes of it by its error and its tag. -/
theorem packet_arrivals (s : State) (d : LinkDir) (own : Option MeshPacket) (ecc : Ecc) (h : linkIdx d < 768)
    (hd : onDie d.x d.y = true) (hl : linkExists (linkIdx d) = true) (i : Fin 5) (p : MeshPacket) (n : Fin 8)
    (hp : nextPacket s d ⟨linkIdx d, h⟩ own = some (i, p)) (hn : linkTag s (linkIdx d) = some n) :
    let l : Fin 768 := ⟨linkIdx d, h⟩
    let s1 := sentPacket d l i p s
    (ecc = .double → exec (.meshPacketArrival d own ecc) s = .next (regionError n .meshUe (linkSite l) none s1)) ∧
    (ecc = .clean → n.val ≠ p.tag →
      exec (.meshPacketArrival d own ecc) s = .next (regionError n .wallDrop (linkSite l) none (linkDropped l s1))) ∧
    (ecc = .clean → n.val = p.tag → exec (.meshPacketArrival d own ecc) s =
      .next (serveHeld (linkEnd (linkIdx d)).1 (linkEnd (linkIdx d)).2 (joined l p s1))) := by
  intro l s1
  have hn1 : linkTag s1 l.val = some n := (sentPacket_linkTag d l i p s l.val).trans hn
  have hexec := exec_packet_sent hd hl own ecc i p hp
  refine ⟨fun hecc => ?_, fun hecc ht => ?_, fun hecc ht => ?_⟩
  · subst hecc
    rw [hexec, admitFlit_double, hn1]
    rfl
  · subst hecc
    rw [hexec, admitFlit_other l _ _ _ (by decide) (by rw [hn1]; simpa using ht), hn1]
    rfl
  · subst hecc
    rw [hexec, admitFlit_same l _ _ _ (by decide) (by rw [hn1]; simpa using ht)]
    rfl

/-- Settles O20: packets by what an output sends and what is served where it arrives; Rim flits by the segment's owner, the room
ahead, and the staged records. -/
theorem packetsAndRimFlitsKeepTheirWalls : Obligations.PacketsAndRimFlitsKeepTheirWalls := by
  refine ⟨?_, ?_, ?_⟩
  · intro s d own ecc h hd hl l e site
    refine ⟨exec_packet_none hd hl own ecc, ?_⟩
    intro i p hp s1 s2
    obtain ⟨hroom, hport, hvc3⟩ := nextPacket_some hp
    refine ⟨hroom, hport, hvc3, fun n hn hecc => ?_, fun n hn hecc => ?_⟩
    · exact (packet_arrivals s d own ecc h hd hl i p n hp hn).1 hecc
    · obtain ⟨-, hwall, htake⟩ := packet_arrivals s d own ecc h hd hl i p n hp hn
      refine ⟨hwall hecc, htake hecc, fun ht hdst hin hvc hempty => ⟨fun hs => ?_, fun hs => ?_⟩⟩
      · rw [htake hecc ht]
        exact congrArg _ (serveHeld_lands hdst hin hvc (linkIdx_mem_linksInto d h hd hl) hempty hs)
      · rw [htake hecc ht]
        exact congrArg _ (serveHeld_waits hdst hin hvc hempty hs)
  · intro s seg ccw lane slot ecc d here next key sent
    have hdir := segDir_eq seg ccw d.isLt
    refine ⟨fun ho => congrArg _ (crossRim_unowned hdir ho), ?_⟩
    intro c ho waits
    refine ⟨fun hw => congrArg _ (crossRim_none hdir ho hw), ?_⟩
    intro x hw room s1
    have hcross := congrArg (Host.Outcome.next (φ := Fault) (ρ := Refusal)) (crossRim_some (ecc := ecc) hdir ho x hw next rfl key rfl)
    have hroom : (!(x.flit.dest == next || rimRoom s next ccw c)) = true ↔ ¬ room := by
      rw [Bool.not_eq_true', Bool.eq_false_iff, ne_eq, Bool.or_eq_true, beq_iff_eq, rimRoom_iff]
    refine ⟨fun hstay => hcross.trans (congrArg _ (if_pos (hstay.imp_right (Or.imp_right hroom.mpr)))), fun hslot hsent hr => ?_⟩
    replace hcross := hcross.trans (congrArg _ (if_neg (by
      rintro (hlate | hfull | hnone)
      · exact absurd hslot hlate.not_gt
      · exact absurd hsent (Nat.not_lt.mpr hfull)
      · exact hroom.mp hnone hr)))
    refine ⟨fun hecc hdst => ?_, fun hecc hdst => ?_, fun hecc hdst => ?_, fun hecc => ?_⟩
    · subst hecc; exact hcross.trans (congrArg _ (if_pos hdst))
    · subst hecc; exact hcross.trans (congrArg _ (if_neg hdst))
    · subst hecc; exact hcross.trans (congrArg _ (if_neg hdst))
    · subst hecc; exact hcross
  · intro s r p dest bytes ecc ccw room enter
    refine ⟨fun hstay => ?_, fun hst hdst hroom => ?_, fun hst => congrArg _ (emitRim_nothing s r p hst),
      fun x rest place hst hlen htr hdst hroom => ?_⟩
    · refine (exec_enter s r p dest bytes ecc).trans (congrArg _ ?_)
      by_cases hst : s.rim.staging[r][p] = []
      · rw [if_neg (not_not.mpr hst)]
        by_cases hdst : dest = p
        · rw [enterRim_here _ _ _ hdst]; rfl
        · have hfull : ¬ RoomToward s p dest (ctxOf r) := (hstay.resolve_left (not_not.mpr hst)).resolve_left hdst
          rw [enterRim_full (f := { ctx := ctxOf r, dest := dest, load := .other bytes }) hdst hfull]
          rfl
      · exact if_pos hst
    · refine (exec_enter s r p dest bytes ecc).trans (congrArg _ ?_)
      rw [if_neg (not_not.mpr hst), enterRim_room (f := { ctx := ctxOf r, dest := dest, load := .other bytes }) hdst hroom]
      rfl
    · refine congrArg _ ((emitRim_whole s r p x rest place hst hlen htr).trans ?_)
      rw [enterRim_room (f := { ctx := ctxOf r, dest := placeTile place, load := .write x.id place x.masked x.data })
        (s := unstaged r p rest s) hdst hroom]
      rfl

end Sys2Proof.Machine
end

section
/-!
PROOFS. REGION_CREATE (03_mesh_regions_rim.md R62, R69, Table 3-5 steps 1-3): the checks in their order, and the region that forms.
-/
namespace Sys2Proof.Machine

/-! ### A maintenance command (R271, R289, R341) -/

theorem finish_maintQ (pos : W32) (st : Nat) (s : State) :
    finish maintQ pos st s = settleMaint (decide' maintQ pos (plainDone st) s) := rfl

section
variable {s : State} {op : Nat} {p : Pkt} (act : Pkt → State → State) (hp : currentOp s maintQ op = some p)
include hp

/-- While its core takes another queue first, the command waits. -/
theorem maintCommand_waits (hc : coreTakes s maintQ = false) : maintCommand op act s = .next s := by
  simp only [maintCommand, hp, hc, Bool.not_false, if_true]

theorem maintCommand_rejected {st : Nat} (hc : coreTakes s maintQ = true) (hr : pktReject 32 p.bytes = some st) :
    maintCommand op act s = .next (settleMaint (decide' maintQ p.pos (plainDone st) s)) := by
  simp only [maintCommand, hp, hc, Bool.not_true, Bool.false_eq_true, if_false, hr, finish_maintQ]

theorem maintCommand_refused (hc : coreTakes s maintQ = true) (hr : pktReject 32 p.bytes = none) (hf : maintRefused op s = true) :
    maintCommand op act s = .next (settleMaint (decide' maintQ p.pos (plainDone Status.deviceFault) s)) := by
  simp only [maintCommand, hp, hc, Bool.not_true, Bool.false_eq_true, if_false, hr, hf, if_true, finish_maintQ]

theorem maintCommand_acts (hc : coreTakes s maintQ = true) (hr : pktReject 32 p.bytes = none) (hf : maintRefused op s = false) :
    maintCommand op act s = .next (settleMaint (act p s)) := by
  simp only [maintCommand, hp, hc, Bool.not_true, Bool.false_eq_true, if_false, hr, hf]

end

/-- The device-level errors that refuse a creation (Table 14-4). -/
theorem maintRefused_create (s : State) : maintRefused 0x40 s = true ↔
    s.err.rimUe = true ∨ s.err.lockstep = true ∨ ∃ k : Fin 4, s.err.hbmUe[k] = true := by
  have hh : s.err.hbmUe.toList.any id = true ↔ ∃ k : Fin 4, s.err.hbmUe[k] = true := by
    simp only [List.any_eq_true, Vector.mem_toList_iff, Vector.mem_iff_getElem, id]
    exact ⟨fun ⟨x, ⟨i, hi, hx⟩, ht⟩ => ⟨⟨i, hi⟩, hx.trans ht⟩, fun ⟨k, hk⟩ => ⟨true, ⟨k.val, k.isLt, hk⟩, rfl⟩⟩
  simp only [maintRefused, beq_self_eq_true, Bool.and_true, Bool.true_or, Bool.or_eq_true, hh]
  tauto

/-! ### The checks (R62, R65, R69) -/

theorem rectOk_iff (c : Create) : c.rectOk = true ↔ c.bx0 + c.bwM1 + 1 ≤ 2 ∧ c.by0 + c.bhM1 + 1 ≤ 4 := by
  simp only [Create.rectOk, Bool.and_eq_true, decide_eq_true_eq]

theorem overlaps_iff (c : Create) (s : State) : c.overlaps s = true ↔
    ∃ i : Fin 8, s.rgn.rgn[i].state ≠ .free ∧ ∃ m ∈ s.rgn.rgn[i].mbs, c.rect.hasMb m.val = true := by
  simp only [Create.overlaps, List.any_eq_true, Vector.mem_toList_iff, Vector.mem_iff_getElem, Bool.and_eq_true, bne_iff_ne]
  exact ⟨fun ⟨x, ⟨i, hi, hx⟩, ht⟩ => ⟨⟨i, hi⟩, by rw [show s.rgn.rgn[(⟨i, hi⟩ : Fin 8)] = x from hx]; exact ht⟩,
    fun ⟨k, hk⟩ => ⟨_, ⟨k.val, k.isLt, rfl⟩, hk⟩⟩

/-- The checks of a creation that can fail by its operands (R69). -/
def Create.idBad (c : Create) (s : State) : Prop := 7 < c.id ∨ s.rgn.rgn[Fin.ofNat 8 c.id].state ≠ .free
def Create.rectBad (c : Create) : Prop := ¬ (c.bx0 + c.bwM1 + 1 ≤ 2 ∧ c.by0 + c.bhM1 + 1 ≤ 4)
def Create.overlap (c : Create) (s : State) : Prop :=
  ∃ i : Fin 8, s.rgn.rgn[i].state ≠ .free ∧ ∃ m ∈ s.rgn.rgn[i].mbs, c.rect.hasMb m.val = true
def Create.badRequest (c : Create) : Prop := c.segMask = 0 ∨ ¬ (1 ≤ c.units ∧ c.units ≤ 31)
def Create.scarce (c : Create) (s : State) : Prop :=
  (∃ d ∈ segDirs c.segMask, freeUnits s d < c.units) ∨ framesEnough s.mem c.bx0 c.bwM1 c.pages = false

open Classical in
/-- The first check that fails gives the status. -/
theorem createCheck_eq (c : Create) (s : State) : createCheck c s =
    if c.idBad s then some Status.createIdState
    else if c.rectBad then some Status.createRect
    else if c.overlap s then some Status.createOverlap
    else if c.badRequest then some Status.createRimRequest
    else if c.scarce s then some Status.createResources
    else if pickCore s = none then some Status.createNoCp
    else if s.noise.state = .failed then some Status.entropyFailure
    else none := by
  have hrect : (!c.rectOk) = true ↔ c.rectBad := by rw [Bool.not_eq_true', Bool.eq_false_iff, ne_eq, rectOk_iff]; rfl
  have hreq : (c.segMask = 0 ∨ c.units = 0 ∨ 31 < c.units) ↔ c.badRequest := by rw [Create.badRequest]; omega
  have hscarce : ((segDirs c.segMask).any (fun d => decide (freeUnits s d < c.units)) ||
      !framesEnough s.mem c.bx0 c.bwM1 c.pages) = true ↔ c.scarce s := by
    simp only [Create.scarce, Bool.or_eq_true, List.any_eq_true, decide_eq_true_eq, Bool.not_eq_true']
  refine if_congr Iff.rfl rfl (if_congr hrect rfl (if_congr (overlaps_iff c s) rfl (if_congr hreq rfl (if_congr hscarce rfl
    (if_congr Option.isNone_iff_eq_none rfl (if_congr Iff.rfl rfl rfl))))))

/-! ### The region that forms (R62, R69, R216) -/

/-- The region as REGION_CREATE writes it. -/
def formed (c : Create) (r : Region) : Region :=
  { r with
    bx0 := c.bx0, by0 := c.by0, bwM1 := c.bwM1, bhM1 := c.bhM1, rimUnits := c.units, segMask := c.segMask,
    state := .forming, tearingDown := false, activeBank := false, gen := r.gen + 1, before := .free, claimed := [],
    jobCounter := 0, recovery := 0 }

/-- The blocks of a region take its tag. -/
def tagMbs (n : Fin 8) (ms : List (Fin 8)) (s : State) : State :=
  forEach ms (fun m s => { s with
    mesh := { s.mesh with tagNext := s.mesh.tagNext.set m (some n) },
    rgn := { s.rgn with mbOwner := s.rgn.mbOwner.set m (some n) } }) s

theorem tagMbs_rgn (n : Fin 8) (ms : List (Fin 8)) (s : State) : (tagMbs n ms s).rgn.rgn = s.rgn.rgn := by
  refine forEach_keeps (fun t => t.rgn.rgn = s.rgn.rgn) _ _ ?_ s rfl
  exact fun _ _ _ h => h

theorem tagMbs_mem (n : Fin 8) (ms : List (Fin 8)) (s : State) (m : Fin 8) (hm : m ∈ ms ∨ s.mesh.tagNext[m] = some n) :
    (tagMbs n ms s).mesh.tagNext[m] = some n := by
  induction ms generalizing s with
  | nil => exact hm.resolve_left List.not_mem_nil
  | cons k ms ih =>
    refine ih _ ?_
    by_cases hk : m = k
    · exact .inr (by rw [hk]; exact Vector.getElem_set_self _)
    · have hset : (s.mesh.tagNext.set k (some n))[m] = s.mesh.tagNext[m] :=
        Vector.getElem_set_ne _ _ fun h => hk (Fin.ext h.symm)
      exact hm.imp (fun h => (List.mem_cons.mp h).resolve_left hk) fun h => hset.trans h

theorem pickFrames_length (ks : List (Fin 4)) (i : Nat) (free : Vector (List Nat) 4) : (pickFrames ks i free).length = ks.length := by
  induction ks generalizing i free with
  | nil => rfl
  | cons k ks ih => simp only [pickFrames, List.length_cons, ih]

/-- The claim of a region's frames, one for each stack that is named. -/
theorem claimFrames_rgn (n : Fin 8) (ks : List (Fin 4)) (s : State) :
    ∃ fs : List Nat, fs.length = ks.length ∧ (claimFrames n ks s).rgn = (modRgn n (fun r => { r with claimed := fs }) s).rgn :=
  ⟨_, pickFrames_length ks s.free _, rfl⟩

/-- The Ibex and Chamois counters of a region return to their reset values and nothing of the walls changes. -/
theorem freshRegion_walls (n : Fin 8) (s : State) : (freshRegion n s).rgn = s.rgn ∧ (freshRegion n s).mesh = s.mesh := by
  refine forEach_keeps (fun t => t.rgn = s.rgn ∧ t.mesh = s.mesh) _ _ (fun e _ t h => ?_) _ ⟨rfl, rfl⟩
  cases e <;> exact h

/-- The Rim units of a region's segments, in force from the next tick on. -/
def allocUnits (n : Fin 8) (c : Create) (s : State) : State :=
  forEach (segDirs c.segMask) (fun d s =>
    { s with rim := { s.rim with alloc := upd s.rim.alloc d (takeUnitsV (ctxOf n) c.units) } }) s

theorem allocUnits_walls (n : Fin 8) (c : Create) (s : State) : (allocUnits n c s).rgn = s.rgn ∧ (allocUnits n c s).mesh = s.mesh := by
  refine forEach_keeps (fun t => t.rgn = s.rgn ∧ t.mesh = s.mesh) _ _ ?_ s ⟨rfl, rfl⟩
  exact fun _ _ _ h => h

/-- Steps 1-3 of creation, one after another. -/
theorem startCreate_eq (c : Create) (s : State) (n : Fin 8) (hn : n = Fin.ofNat 8 c.id) :
    let s0 := modRgn n (formed c) s
    startCreate c s = freshRegion n (mapLinks s0.rgn.rgn[n] (fun _ => Link.reset) (allocUnits n c (tagMbs n s0.rgn.rgn[n].mbs
      (modCtx (ctxOf n) (fun x => { x with pages := c.pages })
        (claimFrames n ((List.range c.pages).map fun v => Fin.ofNat 4 (pageStack c.bx0 c.bwM1 v)) s0))))) := by
  subst hn
  rfl

theorem modRgn_get (n : Fin 8) (f : Region → Region) (s : State) : (modRgn n f s).rgn.rgn[n] = f s.rgn.rgn[n] := upd_same s.rgn.rgn n f

theorem mapLinks_walls (r : Region) (f : Link → Link) (s : State) :
    (mapLinks r f s).rgn = s.rgn ∧ (mapLinks r f s).mesh.tagNext = s.mesh.tagNext := by
  simp only [mapLinks, and_self]

/-- A region forms with its rectangle, one more generation and a frame for each page, and its blocks' tags are its own from
the next tick on. -/
theorem startCreate_forms (c : Create) (s : State) (n : Fin 8) (hn : n = Fin.ofNat 8 c.id) :
    ∃ fs : List Nat, fs.length = c.pages ∧
      (startCreate c s).rgn.rgn[n] = { formed c s.rgn.rgn[n] with claimed := fs } ∧
      ∀ m ∈ (formed c s.rgn.rgn[n]).mbs, (startCreate c s).mesh.tagNext[m] = some n := by
  have hs0 := modRgn_get n (formed c) s
  obtain ⟨fs, hlen, hfs⟩ := claimFrames_rgn n ((List.range c.pages).map fun v => Fin.ofNat 4 (pageStack c.bx0 c.bwM1 v))
    (modRgn n (formed c) s)
  rw [startCreate_eq c s n hn]
  refine ⟨fs, by rw [hlen, List.length_map, List.length_range], ?_, fun m hm => ?_⟩
  · rw [(freshRegion_walls _ _).1, (mapLinks_walls _ _ _).1, (allocUnits_walls _ _ _).1, tagMbs_rgn, modCtx_rgn, hfs, modRgn_get, hs0]
  · rw [(freshRegion_walls _ _).2, (mapLinks_walls _ _ _).2, (allocUnits_walls _ _ _).2, hs0]
    generalize modCtx _ _ _ = t
    exact tagMbs_mem n _ t m (.inl hm)

/-- Writing records leaves the regions and the mesh. -/
theorem walls_ends (g : RgnState) (m : MeshState) : KeptByEnds fun s => s.rgn = g ∧ s.mesh = m where
  jobs _ _ h := h
  que _ _ h := h
  evt _ _ h := h
  err _ _ h := h
  msix _ _ h := h
  ctx _ _ h := h
  phys _ _ _ h := h
  host _ _ _ h := h
  shadow _ _ h := h
  purge _ _ h := h

/-! ### The statement -/

/-- Creation by a command, not by an FLR. -/
def byCommand (r : Region) : Region := { r with byFlr := false }

/-- The state in which a region forms that REGION_CREATE asked for. -/
def createdState (c : Create) (p : Pkt) (s : State) : State :=
  maintStart p (modRgn (Fin.ofNat 8 c.id) byCommand (startCreate c s))

/-- What REGION_CREATE does in its turn: a failed check completes it, else creation starts. -/
def createAct (p : Pkt) (s : State) : State :=
  match createCheck (readCreate p.bytes) s with
  | some st => maintDone p st s
  | none => createdState (readCreate p.bytes) p s

theorem exec_regionCreate (s : State) : exec .regionCreate s = maintCommand 0x40 createAct s := by
  simp only [exec, execRegionCreate]
  exact congrArg (fun a => maintCommand 0x40 a s) rfl

theorem maintStart_walls (p : Pkt) (s : State) : (maintStart p s).rgn = s.rgn ∧ (maintStart p s).mesh = s.mesh := ⟨rfl, rfl⟩

/-- A region that forms by a command, as the command leaves it once its records are written. -/
theorem settled_created (c : Create) (p : Pkt) (s : State) (n : Fin 8) (hn : n = Fin.ofNat 8 c.id) :
    (settleMaint (createdState c p s)).rgn.rgn[n] = byCommand (startCreate c s).rgn.rgn[n] ∧
    (settleMaint (createdState c p s)).mesh = (startCreate c s).mesh := by
  rw [createdState, ← hn]
  generalize startCreate c s = t
  obtain ⟨hrgn, hmesh⟩ := keeps_settleMaint (walls_ends (modRgn n byCommand t).rgn t.mesh) (maintStart p (modRgn n byCommand t))
    ((maintStart_walls p (modRgn n byCommand t)).imp_right fun h => h.trans (modRgn_mesh n byCommand t))
  exact ⟨by rw [hrgn, modRgn_get], hmesh⟩

section
variable {s : State} {p : Pkt} (hp : currentOp s maintQ 0x40 = some p) (hc : coreTakes s maintQ = true)
  (hr : pktReject 32 p.bytes = none) (hf : maintRefused 0x40 s = false)
include hp hc hr hf

/-- A check that fails completes the command. -/
theorem exec_regionCreate_fails {st : Nat} (h : createCheck (readCreate p.bytes) s = some st) :
    exec .regionCreate s = .next (settleMaint (decide' maintQ p.pos (plainDone st) s)) := by
  have hact : createAct p s = maintDone p st s := by rw [createAct, h]
  exact (exec_regionCreate s).trans ((maintCommand_acts createAct hp hc hr hf).trans (congrArg (fun t => (.next (settleMaint t) : Out)) hact))

/-- With no check failed, the region forms. -/
theorem exec_regionCreate_forms (h : createCheck (readCreate p.bytes) s = none) :
    exec .regionCreate s = .next (settleMaint (createdState (readCreate p.bytes) p s)) := by
  have hact : createAct p s = createdState (readCreate p.bytes) p s := by rw [createAct, h]
  exact (exec_regionCreate s).trans ((maintCommand_acts createAct hp hc hr hf).trans (congrArg (fun t => (.next (settleMaint t) : Out)) hact))

end

/-- Settles O21: the command's turn, R289, the device-level errors, and then the checks one after another. -/
theorem regionCreateFailsByFirstCheck : Obligations.RegionCreateFailsByFirstCheck := by
  intro s p hp c idBad rectBad overlap request scarce ends
  refine ⟨fun hc => ?_, fun st hc hr => ?_, fun hc hr => ⟨fun hdev => ?_, fun hf => ?_⟩⟩
  · rw [exec_regionCreate, maintCommand_waits createAct hp hc]
  · exact (exec_regionCreate s).trans (maintCommand_rejected createAct hp hc hr)
  · exact (exec_regionCreate s).trans (maintCommand_refused createAct hp hc hr ((maintRefused_create s).mpr hdev))
  have hfails : ∀ {st}, createCheck c s = some st → ends st := exec_regionCreate_fails hp hc hr hf
  have hcheck := createCheck_eq c s
  refine ⟨fun h1 => hfails ?_, fun h1 h2 => hfails ?_, fun h1 h2 h3 => hfails ?_, fun h1 h2 h3 h4 => hfails ?_,
    fun h1 h2 h3 h4 h5 => hfails ?_, fun h1 h2 h3 h4 h5 h6 => hfails ?_, fun h1 h2 h3 h4 h5 h6 h7 => hfails ?_,
    fun h1 h2 h3 h4 h5 h6 h7 => ?_⟩
  · exact hcheck.trans (if_pos h1)
  · rw [hcheck, if_neg (c := c.idBad s) h1]
    exact if_pos h2
  · rw [hcheck, if_neg (c := c.idBad s) h1, if_neg (c := c.rectBad) h2]
    exact if_pos h3
  · rw [hcheck, if_neg (c := c.idBad s) h1, if_neg (c := c.rectBad) h2, if_neg (c := c.overlap s) h3]
    exact if_pos h4
  · rw [hcheck, if_neg (c := c.idBad s) h1, if_neg (c := c.rectBad) h2, if_neg (c := c.overlap s) h3, if_neg (c := c.badRequest) h4]
    exact if_pos h5
  · rw [hcheck, if_neg (c := c.idBad s) h1, if_neg (c := c.rectBad) h2, if_neg (c := c.overlap s) h3, if_neg (c := c.badRequest) h4,
      if_neg (c := c.scarce s) h5, if_pos h6]
  · rw [hcheck, if_neg (c := c.idBad s) h1, if_neg (c := c.rectBad) h2, if_neg (c := c.overlap s) h3, if_neg (c := c.badRequest) h4,
      if_neg (c := c.scarce s) h5, if_neg h6, if_pos h7]
  · rw [if_neg (c := c.idBad s) h1, if_neg (c := c.rectBad) h2, if_neg (c := c.overlap s) h3, if_neg (c := c.badRequest) h4,
      if_neg (c := c.scarce s) h5, if_neg h6, if_neg h7] at hcheck
    obtain ⟨fs, hlen, hform, htag⟩ := startCreate_forms c s (Fin.ofNat 8 c.id) rfl
    obtain ⟨hrgn, hmesh⟩ := settled_created c p s (Fin.ofNat 8 c.id) rfl
    refine ⟨settleMaint (createdState c p s), exec_regionCreate_forms hp hc hr hf hcheck, ?_⟩
    intro r
    have hr : r = byCommand { formed c s.rgn.rgn[Fin.ofNat 8 c.id] with claimed := fs } := hrgn.trans (congrArg byCommand hform)
    rw [hr]
    refine ⟨rfl, rfl, rfl, rfl, rfl, rfl, rfl, rfl, hlen, fun m hm => ?_⟩
    rw [hmesh]
    exact htag m hm

end Sys2Proof.Machine
end

section
/-!
PROOFS. What the records of the maintenance queue leave alone (12_queues_commands.md R288, R289), and what is left of a region that
is freed (03_mesh_regions_rim.md Table 3-6 steps 4-7).
-/
namespace Sys2Proof.Machine

/-! ### The records of the maintenance queue -/

/-- The regions, walls, cores and jobs are the same, and so are the frames' owners and every context's key and pages. -/
structure SameByRecords (s t : State) : Prop where
  rgn : t.rgn = s.rgn
  mesh : t.mesh = s.mesh
  rim : t.rim = s.rim
  mkh : t.mkh = s.mkh
  jobs : t.jobs = s.jobs
  owner : t.mem.owner = s.mem.owner
  key : ∀ c : Fin 9, t.mem.ctx[c].key = s.mem.ctx[c].key
  keyValid : ∀ c : Fin 9, t.mem.ctx[c].keyValid = s.mem.ctx[c].keyValid
  pages : ∀ c : Fin 9, t.mem.ctx[c].pages = s.mem.ctx[c].pages

namespace SameByRecords
variable {s t u : State}

theorem refl (s : State) : SameByRecords s s := ⟨rfl, rfl, rfl, rfl, rfl, rfl, fun _ => rfl, fun _ => rfl, fun _ => rfl⟩

theorem trans (h : SameByRecords s t) (k : SameByRecords t u) : SameByRecords s u where
  rgn := k.rgn.trans h.rgn
  mesh := k.mesh.trans h.mesh
  rim := k.rim.trans h.rim
  mkh := k.mkh.trans h.mkh
  jobs := k.jobs.trans h.jobs
  owner := k.owner.trans h.owner
  key c := (k.key c).trans (h.key c)
  keyValid c := (k.keyValid c).trans (h.keyValid c)
  pages c := (k.pages c).trans (h.pages c)

/-- Another queue, or another signal to the host. -/
theorem modQue (i : Fin 33) (f : Queue → Queue) (s : State) : SameByRecords s (modQue i f s) :=
  ⟨rfl, rfl, rfl, rfl, rfl, rfl, fun _ => rfl, fun _ => rfl, fun _ => rfl⟩

theorem sendMsix (fn : Fin 9) (v : Nat) (s : State) : SameByRecords s (sendMsix fn v s) :=
  ⟨rfl, rfl, rfl, rfl, rfl, rfl, fun _ => rfl, fun _ => rfl, fun _ => rfl⟩

theorem decide (i : Fin 33) (pos : W32) (d : Done) (s : State) : SameByRecords s (decide' i pos d s) :=
  modQue _ _ s

theorem writeHost (a : Nat) (data : List Byte) (s : State) : SameByRecords s (writeHost a data s) :=
  ⟨rfl, rfl, rfl, rfl, rfl, rfl, fun _ => rfl, fun _ => rfl, fun _ => rfl⟩

theorem writeDev (tile : Fin 24) (c : Fin 9) (a : Nat) (data : List Byte) (s : State) : SameByRecords s (writeDev tile c a data s).1 := by
  obtain ⟨p, o, q, h⟩ := writeDev_frame tile c a data s
  rw [h]
  exact ⟨rfl, rfl, rfl, rfl, rfl, rfl, fun _ => rfl, fun _ => rfl, fun _ => rfl⟩

/-- A latched fault of a context leaves its key and its pages. -/
theorem latchFault (c : Fin 9) (addr cause : Nat) (s : State) : SameByRecords s (latchFault c addr cause s) := by
  obtain ⟨hframe, hother, hc⟩ := latchFault_frame c addr cause s
  have hctx : ∀ d : Fin 9, (Machine.latchFault c addr cause s).mem.ctx[d].key = s.mem.ctx[d].key ∧
      (Machine.latchFault c addr cause s).mem.ctx[d].keyValid = s.mem.ctx[d].keyValid ∧
      (Machine.latchFault c addr cause s).mem.ctx[d].pages = s.mem.ctx[d].pages := by
    intro d
    by_cases hd : d = c
    · rw [hd, hc]
      split_ifs
      · exact ⟨rfl, rfl, rfl⟩
      · exact ⟨rfl, rfl, rfl⟩
      · exact ⟨rfl, rfl, rfl⟩
    · rw [hother d hd]
      exact ⟨rfl, rfl, rfl⟩
  refine ⟨?_, ?_, ?_, ?_, ?_, ?_, fun d => (hctx d).1, fun d => (hctx d).2.1, fun d => (hctx d).2.2⟩ <;> rw [hframe]

theorem latchIf (c : Fin 9) (f : MemFault) (s : State) : SameByRecords s (latchIf c f s) := by
  cases f with
  | none => exact refl s
  | some x => exact latchFault c x.1 x.2 s

theorem writeRecord (i : Fin 33) (p : Pkt) (d : Done) (s : State) : SameByRecords s (writeRecord i p d s) := by
  have hw (a : Nat) (b : List Byte) : SameByRecords s (if s.que[i].cloc = true then Machine.writeHost a b s else
      Machine.latchIf (qCtx i) (Machine.writeDev (queueTile s i) (qCtx i) a b s).2 (Machine.writeDev (queueTile s i) (qCtx i) a b s).1) := by
    split
    · exact writeHost a b s
    · exact (writeDev _ _ a b s).trans (latchIf _ _ _)
  simp only [Machine.writeRecord]
  split
  · exact (hw _ _).trans ((modQue _ _ _).trans (sendMsix _ _ _))
  · exact (hw _ _).trans (modQue _ _ _)

/-- A packet of the maintenance queue that does something of itself is decided. -/
theorem packetSettles (p : Pkt) (ht : packetSettles maintQ p s = some t) : SameByRecords s t := by
  have hq : qRegion maintQ = none := rfl
  have hdone : ∀ d u, some (decide' maintQ p.pos d s) = some u → SameByRecords s u := by
    rintro d u ⟨⟩
    exact decide _ _ _ _
  simp only [Machine.packetSettles, hq] at ht
  split at ht
  · split at ht
    · cases ht
    · split at ht
      · exact hdone _ _ ht
      · split at ht
        · exact hdone _ _ ht
        · cases ht
  · cases ht

theorem queueSettles (ht : queueSettles maintQ s = some t) : SameByRecords s t := by
  rcases queueSettles_cases maintQ s t ht with ⟨p, d, rfl⟩ | ⟨p, hp⟩
  · exact writeRecord maintQ p d s
  · exact packetSettles p hp

/-- What follows of itself on the maintenance queue. -/
theorem settleMaint (s : State) : SameByRecords s (settleMaint s) := by
  unfold Machine.settleMaint
  generalize 16 = rounds
  induction rounds generalizing s with
  | zero => exact refl s
  | succ k ih =>
    unfold settleMaintUpTo
    split
    · exact (queueSettles ‹_›).trans (ih _)
    · exact refl s

theorem failMaint (op : Nat) (n : Fin 8) (st : Nat) (s : State) : SameByRecords s (failMaint op n st s) := by
  unfold Machine.failMaint
  split
  · split
    · exact decide _ _ _ _
    · exact refl s
  · exact refl s

end SameByRecords

/-! ### A region that is freed -/

/-- Nothing but the tiles' units differs of what a region is made of. -/
structure SameButUnits (s t : State) : Prop where
  rgn : t.rgn = s.rgn
  mesh : t.mesh = s.mesh
  rim : t.rim = s.rim
  mkh : t.mkh = s.mkh
  mem : t.mem = s.mem
  jobs : t.jobs = s.jobs

namespace SameButUnits
variable {s t u : State}

theorem refl (s : State) : SameButUnits s s := ⟨rfl, rfl, rfl, rfl, rfl, rfl⟩

theorem trans (h : SameButUnits s t) (k : SameButUnits t u) : SameButUnits s u :=
  ⟨k.rgn.trans h.rgn, k.mesh.trans h.mesh, k.rim.trans h.rim, k.mkh.trans h.mkh, k.mem.trans h.mem, k.jobs.trans h.jobs⟩

theorem scrubUnit (e : Eng) (s : State) : SameButUnits s (scrubUnit e s) := by
  cases e <;> exact ⟨rfl, rfl, rfl, rfl, rfl, rfl⟩

theorem clearUnit (e : Eng) (s : State) : SameButUnits s (clearUnit e s) := by
  cases e <;> exact ⟨rfl, rfl, rfl, rfl, rfl, rfl⟩

theorem reloadUnit (e : Eng) (s : State) : SameButUnits s (reloadUnit e s) := by
  cases e <;> exact ⟨rfl, rfl, rfl, rfl, rfl, rfl⟩

theorem returnPe (e : Fin 4) (s : State) : SameButUnits s (returnPe e s) :=
  (scrubUnit (.pe e) s).trans ⟨rfl, rfl, rfl, rfl, rfl, rfl⟩

theorem forEach {α : Type} (l : List α) (f : α → State → State) (hf : ∀ a s, SameButUnits s (f a s)) (s : State) :
    SameButUnits s (forEach l f s) :=
  forEach_keeps (SameButUnits s) l f (fun a _ t h => h.trans (hf a t)) s (refl s)

end SameButUnits

/-- A region's units, and the PEs lent to it, cleared after its walls are closed. -/
def unitsCleared (n : Fin 8) (s : State) : State :=
  let t := forEach (regionUnits s.rgn.rgn[n]) (fun e s => clearUnit e (scrubUnit e s)) (closeWalls n s)
  forEach (lentPes t n) returnPe t

theorem unitsCleared_same (n : Fin 8) (s : State) : SameButUnits (closeWalls n s) (unitsCleared n s) :=
  (SameButUnits.forEach _ _ (fun e t => (SameButUnits.scrubUnit e t).trans (SameButUnits.clearUnit e _)) _).trans
    (SameButUnits.forEach _ returnPe SameButUnits.returnPe _)

/-- Returning a region's frames changes the memory alone. -/
theorem freeFrames_frame (n : Fin 8) (s : State) : ∃ m, freeFrames n s = { s with mem := m } := by
  refine forEach_keeps (fun t => ∃ m, t = { s with mem := m }) _ _ ?_ s ⟨s.mem, rfl⟩
  rintro f - _ ⟨m, rfl⟩
  exact ⟨_, rfl⟩

/-- The region as it is freed. -/
def freed (r : Region) : Region := { r with state := .free, tearingDown := false, recovery := 0, claimed := [] }

/-- Steps 6 and 7 of Table 3-6: keys, translations, the core's place and jobs go. -/
def releaseRegion (n : Fin 8) (byFlr : Bool) (s : State) : State :=
  let s := modCtx (ctxOf n) (fun _ => MemCtx.reset) s
  let s := modMem (fun m => { m with tlb := m.tlb.filter fun t => t.ctx != ctxOf n }) s
  let s := modNoiseRgn n (fun _ => NoiseRgn.reset) s
  let s := modSecRgn n (fun x => { SecRgn.reset with tdi := x.tdi, stream := x.stream }) s
  let s := if byFlr then s else leaveCore n s
  let s := { s with jobs := s.jobs.filter fun j => j.ref.r != n }
  let s := modEng (fun x => { x with flight := x.flight.filter fun d => d.job.r != n,
                                     dmaQueue := x.dmaQueue.filter fun d => d.job.r != n,
                                     dmaAdmitted := x.dmaAdmitted.filter fun d => d.job.r != n,
                                     dmaRunning := x.dmaRunning.filter fun d => d.job.r != n }) s
  let s := modTickJob n (fun t => { TickJob.reset with lastTiles := t.lastTiles }) s
  modRgn n freed s

theorem freeRegion_eq (n : Fin 8) (s : State) :
    freeRegion n s = releaseRegion n s.rgn.rgn[n].byFlr (freeFrames n (unitsCleared n s)) := rfl

/-- What is left of region n: the walls, regions and frame owners of s, its context at reset, and no job. -/
structure Released (n : Fin 8) (s t : State) : Prop where
  rgn : t.rgn.rgn = upd s.rgn.rgn n freed
  mesh : t.mesh = s.mesh
  rim : t.rim = s.rim
  owner : t.mem.owner = s.mem.owner
  ctx : t.mem.ctx = upd s.mem.ctx (ctxOf n) fun _ => MemCtx.reset
  jobs : t.jobs = s.jobs.filter fun j => j.ref.r != n

theorem releaseRegion_released (n : Fin 8) (byFlr : Bool) (s : State) : Released n s (releaseRegion n byFlr s) := by
  cases byFlr
  · constructor <;> simp [releaseRegion, leaveCore]
  · constructor <;> simp [releaseRegion]

/-- Closing the walls leaves the regions' records, the memory and the jobs. -/
theorem closeWalls_frame (n : Fin 8) (s : State) :
    (closeWalls n s).rgn.rgn = s.rgn.rgn ∧ (closeWalls n s).mem = s.mem ∧ (closeWalls n s).jobs = s.jobs := by
  simp only [closeWalls, clearBuffers, mapLinks, and_self]

theorem freeRegion_rgn (n : Fin 8) (s : State) : (freeRegion n s).rgn.rgn[n] = freed s.rgn.rgn[n] := by
  obtain ⟨m, hm⟩ := freeFrames_frame n (unitsCleared n s)
  have hrgn : (freeFrames n (unitsCleared n s)).rgn.rgn = s.rgn.rgn := by
    rw [hm]
    exact (congrArg RgnState.rgn (unitsCleared_same n s).rgn).trans (closeWalls_frame n s).1
  have hrel := (releaseRegion_released n s.rgn.rgn[n].byFlr (freeFrames n (unitsCleared n s))).rgn
  rw [freeRegion_eq, hrel, hrgn]
  exact upd_same s.rgn.rgn n freed

end Sys2Proof.Machine
end

section
/-!
PROOFS. CREATION_COMPLETE (03_mesh_regions_rim.md R70, Table 3-5 steps 4-6; 08_kudu_markhor_criward.md R171): the region opens on
the core that R171 picks, or is FREE where there is none.
-/
namespace Sys2Proof.Machine

/-! ### The memory key (R105, R218) -/

/-- A generate request changes the noise hardware alone. -/
theorem drbgDraw_frame (s : State) : ∃ v, (drbgDraw s).2 = { s with noise := v } := by
  have hre : ∃ v, reseedBetween s = { s with noise := v } := by
    unfold reseedBetween
    split
    · split
      · exact ⟨_, rfl⟩
      · exact ⟨s.noise, rfl⟩
    · exact ⟨s.noise, rfl⟩
  obtain ⟨v, hv⟩ := hre
  simp only [drbgDraw, hv]
  split
  · exact ⟨v, rfl⟩
  · exact ⟨_, rfl⟩

theorem drawXts_frame (s : State) : ∃ v, (drawXts s).2 = { s with noise := v } := by
  obtain ⟨v1, h1⟩ := drbgDraw_frame s
  obtain ⟨v2, h2⟩ := drbgDraw_frame (drbgDraw s).2
  obtain ⟨v3, h3⟩ := drbgDraw_frame (drbgDraw (drbgDraw s).2).2
  simp only [drawXts]
  split
  · exact ⟨v3, by rw [h3, h2, h1]⟩
  · exact ⟨v2, by rw [h2, h1]⟩

/-- Step 4 gives the region's context a key and leaves regions and cores. -/
theorem openMemory_keyed (n : Fin 8) (s : State) :
    (openMemory n s).rgn = s.rgn ∧ (openMemory n s).mkh = s.mkh ∧ (openMemory n s).mem.ctx[ctxOf n].keyValid = true ∧
      (openMemory n s).mem.ctx[ctxOf n].key = some (drawXts s).1 := by
  obtain ⟨v, hv⟩ := drawXts_frame s
  simp only [openMemory, hv, modCtx_rgn, modMem_rgn, useFree_rgn, modCtx_mkh, modMem_mkh, useFree_mkh, modCtx_mem, upd_same, and_self]

/-- The core that R171 picks depends on the cores alone. -/
theorem pickCore_congr {s t : State} (h : t.mkh = s.mkh) : pickCore t = pickCore s := by
  simp only [pickCore, h]

/-! ### The region opens -/

/-- A region on its core. -/
def onCore (n : Fin 8) (c : Fin 6) (s : State) : State :=
  modCp c (fun x => { x with regions := x.regions ||| ((1 : BitVec 8) <<< n.val) }) (modRgn n (fun r => { r with cp := c.val }) s)

/-- A region that is not created again for an FLR goes to the core that R171 picks. -/
theorem assignCore_eq (n : Fin 8) (s : State) (hflr : s.rgn.rgn[n].byFlr = false) :
    assignCore n s = (pickCore s).map fun c => onCore n c s := by
  simp only [assignCore, hflr, Bool.false_and, Bool.false_eq_true, if_false, Option.orElse]
  cases pickCore s <;> rfl

theorem onCore_serves (n : Fin 8) (c : Fin 6) (s : State) :
    (onCore n c s).rgn.rgn[n] = { s.rgn.rgn[n] with cp := c.val } ∧ (onCore n c s).mkh.cp[c].regions.getLsbD n.val = true ∧
      (onCore n c s).mem = s.mem := by
  refine ⟨upd_same s.rgn.rgn n _, ?_, rfl⟩
  have hcp : (onCore n c s).mkh.cp[c] = { s.mkh.cp[c] with regions := s.mkh.cp[c].regions ||| ((1 : BitVec 8) <<< n.val) } :=
    upd_same s.mkh.cp c _
  rw [hcp]
  simp

/-- The region as it opens. -/
def opened (r : Region) : Region := { r with state := .opened, byFlr := false }

/-- Step 6, with no destruction or FLR waiting: OPEN, and the command completes. -/
theorem creationDone_eq (n : Fin 8) (s : State) (hflr : s.rgn.rgn[n].byFlr = false) (hd : s.rgn.rgn[n].destroyWaits = false)
    (hf : s.rgn.rgn[n].flrWaits = false) :
    creationDone n s = failMaint 0x40 n Status.ok (modRgn n opened
      (modNoiseRgn n (fun x => { x with root := some (noiseRoot (List.replicate 32 0)) })
        (forEach (regionUnits s.rgn.rgn[n]) reloadUnit s))) := by
  simp only [creationDone, hflr, hd, hf, Bool.false_eq_true, if_false]
  rfl

theorem creationDone_opens (n : Fin 8) (s : State) (hflr : s.rgn.rgn[n].byFlr = false) (hd : s.rgn.rgn[n].destroyWaits = false)
    (hf : s.rgn.rgn[n].flrWaits = false) :
    (creationDone n s).rgn.rgn[n] = opened s.rgn.rgn[n] ∧ (creationDone n s).mkh = s.mkh ∧
      ∀ c : Fin 9, (creationDone n s).mem.ctx[c].key = s.mem.ctx[c].key ∧
        (creationDone n s).mem.ctx[c].keyValid = s.mem.ctx[c].keyValid := by
  have hu := SameButUnits.forEach (regionUnits s.rgn.rgn[n]) reloadUnit SameButUnits.reloadUnit s
  rw [creationDone_eq n s hflr hd hf]
  generalize forEach (regionUnits s.rgn.rgn[n]) reloadUnit s = u at hu ⊢
  generalize hv : modNoiseRgn n (fun x => { x with root := some (noiseRoot (List.replicate 32 0)) }) u = v
  have hvu : v.rgn = u.rgn ∧ v.mkh = u.mkh ∧ v.mem = u.mem := by rw [← hv]; exact ⟨rfl, rfl, rfl⟩
  obtain ⟨hrgn, hmkh, hmem⟩ := hvu
  have hm := SameByRecords.failMaint 0x40 n Status.ok (modRgn n opened v)
  refine ⟨?_, ?_, fun c => ⟨?_, ?_⟩⟩
  · rw [hm.rgn, modRgn_get, hrgn, hu.rgn]
  · rw [hm.mkh, modRgn_mkh, hmkh, hu.mkh]
  · rw [hm.key, modRgn_mem, hmem, hu.mem]
  · rw [hm.keyValid, modRgn_mem, hmem, hu.mem]

/-! ### No core -/

/-- Nothing waits for the re-creation of the region any more. -/
def nothingWaits (r : Region) : Region := { r with byFlr := false, destroyWaits := false, flrWaits := false }

theorem creationFails_rgn (n : Fin 8) (st : Nat) (s : State) :
    (creationFails n st s).rgn = (modRgn n nothingWaits (freeRegion n s)).rgn := by
  simp only [creationFails]
  split
  · exact (SameByRecords.failMaint _ n _ _).rgn
  · exact (SameByRecords.failMaint _ n _ _).rgn

/-- A creation that fails leaves the region FREE with the generation it has. -/
theorem creationFails_free (n : Fin 8) (st : Nat) (s : State) :
    (creationFails n st s).rgn.rgn[n].state = .free ∧ (creationFails n st s).rgn.rgn[n].gen = s.rgn.rgn[n].gen := by
  rw [creationFails_rgn, modRgn_get, freeRegion_rgn]
  exact ⟨rfl, rfl⟩

/-! ### The statement -/

/-- What the step does once its turn has come (R70). -/
theorem exec_creationComplete_due (r : Fin 8) (s : State) (hf : s.rgn.rgn[r].state = .forming) (hd : drbgServes s 3 = true)
    (hu : unitsTaken s r = true) (hc : creators s false = true) (hflr : s.rgn.rgn[r].byFlr = false) :
    exec (.creationComplete r) s = .next (settleMaint ((pickCore s).elim (creationFails r Status.createNoCp (openMemory r s))
      fun c => creationDone r (onCore r c (openMemory r s)))) := by
  obtain ⟨hrgn, hmkh, -, -⟩ := openMemory_keyed r s
  have hcore := assignCore_eq r (openMemory r s) (by rw [hrgn]; exact hflr)
  rw [pickCore_congr hmkh] at hcore
  have hdo : exec (.creationComplete r) s = .next (settleMaint (match assignCore r (openMemory r s) with
      | none => creationFails r Status.createNoCp (openMemory r s)
      | some s => creationDone r s)) := if_pos ⟨hf, hd, hu, by rw [hflr]; exact hc⟩
  rw [hdo, hcore]
  cases pickCore s <;> rfl

theorem exec_creationComplete_early (r : Fin 8) (s : State) (h : s.rgn.rgn[r].state ≠ .forming ∨ s.noise.state ≠ .ready) :
    exec (.creationComplete r) s = .next s := by
  refine if_neg ?_
  rintro ⟨hf, hd, -, -⟩
  rcases h with h | h
  · exact h hf
  · simp only [drbgServes, Bool.and_eq_true, beq_iff_eq] at hd
    exact h hd.1

/-- Settles O22: the memory key first, then the core that R171 picks opens the region or its lack frees it. -/
theorem creationOpensOrFreesTheRegion : Obligations.CreationOpensOrFreesTheRegion := by
  intro s r
  refine ⟨fun hf hd hu hc hflr hdw hfw => ?_, exec_creationComplete_early r s⟩
  have hex := exec_creationComplete_due r s hf hd hu hc hflr
  obtain ⟨hrgn, hmkh, hvalid, hkey⟩ := openMemory_keyed r s
  generalize openMemory r s = m at hex hrgn hmkh hvalid hkey
  constructor
  · intro c hpick
    rw [hpick] at hex
    obtain ⟨hcrgn, hserves, hmem⟩ := onCore_serves r c m
    rw [hrgn] at hcrgn
    have hsettle := SameByRecords.settleMaint (creationDone r (onCore r c m))
    obtain ⟨hopen, hdmkh, hctx⟩ := creationDone_opens r (onCore r c m) (by rw [hcrgn]; exact hflr) (by rw [hcrgn]; exact hdw)
      (by rw [hcrgn]; exact hfw)
    obtain ⟨hckey, hcvalid⟩ := hctx (ctxOf r)
    refine ⟨settleMaint (creationDone r (onCore r c m)), hex, ?_⟩
    rw [hsettle.rgn, hsettle.mkh, hsettle.keyValid, hsettle.key, hopen, hcrgn, hdmkh, hckey, hcvalid, hmem, hvalid, hkey]
    exact ⟨rfl, rfl, rfl, hserves, rfl, Option.some_ne_none _⟩
  · intro hpick
    rw [hpick] at hex
    refine ⟨settleMaint (creationFails r Status.createNoCp m), hex, ?_⟩
    rw [(SameByRecords.settleMaint _).rgn, ← hrgn]
    exact creationFails_free r Status.createNoCp m

end Sys2Proof.Machine
end

section
/-!
PROOFS. What follows of itself in a region starts no job (12_queues_commands.md R288, 13_jobs R320, R321): the jobs after it are
jobs of packets that had one.
-/
namespace Sys2Proof.Machine

theorem orElse_some_cases {α : Type} {a : Option α} {b : Unit → Option α} {t : α} (h : a.orElse b = some t) :
    a = some t ∨ b () = some t := by
  cases a with
  | none => exact .inr h
  | some x => exact .inl h

/-- Every job's packet is one of a set. -/
def RefsIn (Q : JobRef → Prop) (s : State) : Prop := ∀ j ∈ s.jobs, Q j.ref

namespace RefsIn
variable {Q : JobRef → Prop} {s t : State}

theorem of_jobs (h : RefsIn Q s) (ht : t.jobs = s.jobs) : RefsIn Q t := by
  rw [RefsIn, ht]; exact h

theorem modJob (h : RefsIn Q s) (k : JobRef) (f : Job → Job) (hf : ∀ j, (f j).ref = j.ref) : RefsIn Q (modJob k f s) := by
  intro i hi
  rw [modJob_jobs] at hi
  obtain ⟨j, hj, rfl⟩ := List.mem_map.mp hi
  split
  · rw [hf]; exact h j hj
  · exact h j hj

theorem filter (h : RefsIn Q s) (p : Job → Bool) : RefsIn Q { s with jobs := s.jobs.filter p } :=
  fun j hj => h j (List.mem_of_mem_filter hj)

theorem dropJob (h : RefsIn Q s) (k : JobRef) : RefsIn Q (dropJob k s) := h.filter _

theorem forEach {α : Type} (h : RefsIn Q s) (l : List α) (f : α → State → State) (hf : ∀ a s, RefsIn Q s → RefsIn Q (f a s)) :
    RefsIn Q (forEach l f s) := forEach_keeps (RefsIn Q) l f (fun a _ s h => hf a s h) s h

theorem dropArms (h : RefsIn Q s) (n : Fin 8) (l : List Arm) : RefsIn Q (Machine.forEach l (dropArm n) s) :=
  h.forEach l _ fun a s h => h.of_jobs (dropArm_jobs n a s)

theorem beginDrain (h : RefsIn Q s) (n : Fin 8) : RefsIn Q (beginDrain n s) := by
  unfold Machine.beginDrain
  split
  · split
    · exact h.modJob _ _ fun _ => rfl
    · exact h
  · exact h

theorem stopJob (h : RefsIn Q s) (k : JobRef) (cause : Option (Nat × Nat)) (b : Option PktRef) : RefsIn Q (stopJob k cause b s) := by
  simp only [Machine.stopJob]
  refine beginDrain (of_jobs ?_ (modErr_jobs _ _)) _
  refine modJob (dropArms ?_ _ _) k _ fun _ => rfl
  exact h.of_jobs rfl

theorem jobError (h : RefsIn Q s) (k : JobRef) (e : Err) (site : Site) : RefsIn Q (jobError k e site s) := by
  unfold Machine.jobError
  split
  · exact h
  · rename_i j _
    have hl : RefsIn Q (logRegion k.r (jobRecord e site j s.tick.tn) s) := h.of_jobs rfl
    simp only
    split
    · exact hl.stopJob _ _ _
    · exact hl.stopJob _ _ _
    · exact hl.modJob _ _ fun _ => rfl
    · exact hl
    · exact hl

theorem breakLocks (h : RefsIn Q s) (k : JobRef) : RefsIn Q (breakLocks k s) := by
  refine h.forEach _ _ fun l s h => ?_
  split
  · have hm : RefsIn Q (modLock k.r l (fun x => LockReg.pass .broken { x with epoch := x.epoch + 1 }) s) := h.of_jobs (modLock_jobs _ _ _ _)
    simp only [breakLock]
    split
    · exact hm.modJob _ _ fun _ => rfl
    · exact hm
  · exact h

theorem endDeferred (h : RefsIn Q s) (k : JobRef) (st : EState) : RefsIn Q (endDeferred k st s) := by
  unfold Machine.endDeferred
  split
  · exact h
  · refine modJob (h.forEach _ _ fun d s h => ?_) _ _ fun _ => rfl
    split
    · exact h.of_jobs rfl
    · exact h
    · exact h

theorem completeJob (h : RefsIn Q s) (k : JobRef) (status : Nat) : RefsIn Q (completeJob k status s) := by
  unfold Machine.completeJob
  split
  · exact h
  · have hd : RefsIn Q (if statusClass status = 0 then s else Machine.endDeferred k
        (if statusClass status = 1 ∧ status ≠ Status.depCancelled then .cancelled else .error) s) := by
      split
      · exact h
      · exact h.endDeferred _ _
    have hl := (hd.of_jobs (t := leaveLocks k _) rfl).breakLocks k
    exact beginDrain (of_jobs (dropJob (hl.of_jobs (modErr_jobs _ _)) k) (decide_jobs _ _ _ _)) _

theorem dropStaged (h : RefsIn Q s) (k : JobRef) : RefsIn Q (dropStaged k s) := by
  unfold Machine.dropStaged
  split
  · split
    · exact h
    · split
      · exact of_jobs (h.dropJob k) rfl
      · exact h.dropJob k
  · exact h

theorem releaseWord (h : RefsIn Q s) (j : Job) (ht : releaseWord s j = some t) : RefsIn Q t := by
  have hadv : ∀ u v, RefsIn Q u → some (Machine.modJob j.ref Job.advance u) = some v → RefsIn Q v := by
    rintro u _ hu ⟨⟩
    exact hu.modJob _ _ fun _ => rfl
  unfold Machine.releaseWord at ht
  split at ht
  · cases ht
  · split at ht
    case h_1 => split at ht; exacts [(nomatch ht), hadv _ _ h ht]
    case h_2 => split at ht; exacts [(nomatch ht), hadv _ _ h ht]
    case h_3 => split at ht; exacts [hadv _ _ h ht, (nomatch ht)]
    case h_4 =>
      split at ht
      · cases ht
      · have hcw : ∀ f, (∀ j, (f j).ref = j.ref) → RefsIn Q (Machine.modJob j.ref f s) := fun f hf => h.modJob _ f hf
        simp only at ht
        split at ht
        · cases ht
          refine jobError ?_ _ _ _
          exact hcw _ fun _ => rfl
        · refine hadv _ _ ?_ ht
          exact hcw _ fun _ => rfl
    all_goals cases ht

theorem latchArms (h : RefsIn Q s) (j : Job) (ht : latchArms s j = some t) : RefsIn Q t := by
  simp only [Machine.latchArms] at ht
  split at ht
  · cases ht; exact h.modJob _ _ fun _ => rfl
  · cases ht

theorem endArms (h : RefsIn Q s) (j : Job) (ht : endArms s j = some t) : RefsIn Q t := by
  unfold Machine.endArms at ht
  split at ht
  · cases ht; exact modJob (h.dropArms _ _) _ _ fun _ => rfl
  · cases ht

theorem jobSettles (h : RefsIn Q s) (j : Job) (ht : jobSettles s j = some t) : RefsIn Q t := by
  unfold Machine.jobSettles at ht
  rcases orElse_some_cases ht with ht | ht
  · exact h.releaseWord j ht
  rcases orElse_some_cases ht with ht | ht
  · exact h.latchArms j ht
  rcases orElse_some_cases ht with ht | ht
  · exact h.endArms j ht
  split at ht
  · cases ht
    exact (h.modJob j.ref (Job.progressBy 1) fun _ => rfl).completeJob _ _
  · cases ht

theorem recordSettles (h : RefsIn Q s) (n : Fin 8) (r : Nat × Nat × Fin 4 × W32) (ht : recordSettles n s r = some t) : RefsIn Q t := by
  simp only [Machine.recordSettles] at ht
  split at ht
  · cases ht; exact h.of_jobs rfl
  · split at ht
    · cases ht; exact h.of_jobs rfl
    · cases ht

/-- A packet completes marked, of itself, released or rejected; a marked RUN takes its staged job with it. -/
theorem packetSettles (h : RefsIn Q s) (i : Fin 33) (p : Pkt) (ht : packetSettles i p s = some t) : RefsIn Q t := by
  have hdone : ∀ d (u v : State), RefsIn Q u → some (decide' i p.pos d u) = some v → RefsIn Q v := by
    rintro d u _ hu ⟨⟩
    exact hu.of_jobs (decide_jobs _ _ _ _)
  simp only [Machine.packetSettles] at ht
  split at ht
  · split at ht
    · cases ht
    · split at ht
      · split at ht
        · refine hdone _ _ _ ?_ ht
          split
          · exact h.of_jobs rfl
          · exact h.dropStaged _
        · exact hdone _ _ _ h ht
      · split at ht
        · exact hdone _ _ _ h ht
        · cases ht
  · split at ht
    · cases ht
    · split at ht
      · split at ht
        · exact hdone _ _ _ h ht
        · cases ht
      · split at ht
        · cases ht
        · exact hdone _ _ _ h ht
      · split at ht
        · exact hdone _ _ _ h ht
        · exact hdone _ _ _ h ht
        · exact hdone _ _ _ h ht
        · cases ht
      · cases ht

theorem queueSettles (h : RefsIn Q s) (i : Fin 33) (ht : queueSettles i s = some t) : RefsIn Q t := by
  rcases queueSettles_cases i s t ht with ⟨p, d, rfl⟩ | ⟨p, hp⟩
  · exact h.of_jobs (writeRecord_jobs _ _ _ _)
  · exact h.packetSettles i p hp

theorem regionSettles (h : RefsIn Q s) (n : Fin 8) (ht : regionSettles n s = some t) : RefsIn Q t := by
  unfold Machine.regionSettles at ht
  rcases orElse_some_cases ht with ht | ht
  · obtain ⟨r, -, hr⟩ := List.exists_of_findSome?_eq_some ht
    exact h.recordSettles n r hr
  rcases orElse_some_cases ht with ht | ht
  · obtain ⟨q, -, hq⟩ := List.exists_of_findSome?_eq_some ht
    exact h.queueSettles _ hq
  obtain ⟨j, -, hj⟩ := List.exists_of_findSome?_eq_some ht
  split at hj
  · exact h.jobSettles j hj
  · unfold lockSettles at hj
    split at hj
    · split at hj
      · exact h.releaseWord j hj
      · cases hj
    · cases hj

/-- What follows of itself in a region. -/
theorem settle (h : RefsIn Q s) (n : Fin 8) : RefsIn Q (settle n s) := by
  unfold Machine.settle
  generalize 96 = rounds
  induction rounds generalizing s with
  | zero => exact h
  | succ m ih =>
    unfold settleUpTo
    split
    · exact ih (h.regionSettles n ‹_›)
    · exact h

end RefsIn

end Sys2Proof.Machine
end

section
/-!
PROOFS. A kill leaves the regions' records as they are (14_faults_restart.md R332).
-/
namespace Sys2Proof.Machine

/-- The regions' records are g. -/
def RgnIs (g : RgnState) (s : State) : Prop := s.rgn = g

theorem rgnIs_ends (g : RgnState) : KeptByEnds (RgnIs g) where
  jobs _ _ h := h
  que _ _ h := h
  evt _ _ h := h
  err _ _ h := h
  msix _ _ h := h
  ctx _ _ h := h
  phys _ _ _ h := h
  host _ _ _ h := h
  shadow _ _ h := h
  purge _ _ h := h

namespace RgnIs
variable {g : RgnState} {s : State}

theorem forEach {α : Type} (h : RgnIs g s) (l : List α) (f : α → State → State) (hf : ∀ a s, RgnIs g s → RgnIs g (f a s)) :
    RgnIs g (forEach l f s) := forEach_keeps (RgnIs g) l f (fun a _ s h => hf a s h) s h

theorem localWrite (h : RgnIs g s) (e : Eng) (a : Nat) (data : List Byte) : RgnIs g (localWrite e a data s) := by
  cases e with
  | herd i =>
    simp only [Machine.localWrite]
    split
    · split
      · exact h
      · exact h
    · exact h
  | ibex i => exact h
  | cham i => exact h
  | kudu m => exact h
  | pe p => exact h
  | dma => exact h

theorem landPacket (h : RgnIs g s) (e : Eng) (p : MeshPacket) : RgnIs g (landPacket e p s) := by
  unfold Machine.landPacket
  split
  · exact h
  · split
    · exact h.localWrite _ _ _
    · split
      · exact keeps_settle (rgnIs_ends g) _ _ (keeps_jobError (rgnIs_ends g) _ _ _ _ h)
      · exact h

theorem serveHeld (h : RgnIs g s) (x y : Nat) : RgnIs g (serveHeld x y s) := by
  refine h.forEach _ _ fun l s h => h.forEach _ _ fun vc s h => ?_
  have hl : ∀ f, RgnIs g (modLink l f s) := fun _ => h
  simp only
  split
  · exact forEach (hl _) _ _ fun p s h => h.landPacket _ p
  · exact hl _

theorem writeDst (h : RgnIs g s) (e : Eng) (n : Fin 8) (d : Dst) (b : List Byte) : RgnIs g (writeDst e n d b s).1 := by
  unfold Machine.writeDst
  split
  · split
    · exact h.localWrite _ _ _
    · exact h
  · exact keeps_writeDev (rgnIs_ends g) _ _ _ _ _ h

theorem undefDst (h : RgnIs g s) (e : Eng) (n : Fin 8) (d : Dst) (len : Nat) : RgnIs g (undefDst e n d len s) :=
  h.writeDst e n d (undefBytes s len)

theorem dropSource (h : RgnIs g s) (e : Eng) : RgnIs g (dropSource e s) := by
  unfold Machine.dropSource
  split
  · exact h
  · exact h

theorem resetUnit (h : RgnIs g s) (e : Eng) : RgnIs g (resetUnit e s) := by
  have hu := h.forEach (runningOn s e) (fun d s => Machine.forEach (openDsts s e d) (fun p s => Machine.undefDst e d.job.r p.1 p.2 s) s)
    fun d s h => h.forEach _ _ fun p s h => h.undefDst _ _ _ _
  replace hu := hu.dropSource e
  cases e with
  | ibex i =>
    simp only [Machine.resetUnit]
    exact serveHeld ((modIbex_rgn i _ _).trans hu) _ _
  | herd i => exact hu
  | cham i => exact hu
  | kudu m => exact hu
  | pe p => exact hu
  | dma => exact hu

theorem scrubAll (h : RgnIs g s) (es : List Eng) : RgnIs g (scrubAll es s) :=
  h.forEach es _ fun e s h =>
    (((SameButUnits.scrubUnit e s).trans (SameButUnits.reloadUnit e _)).rgn.trans h)

theorem endTicking (h : RgnIs g s) (n : Fin 8) : RgnIs g (endTicking n s) := by
  simp only [Machine.endTicking]
  refine (modRingRgn_rgn _ _ _).trans ((modNoiseRgn_rgn _ _ _).trans ((modAnl_rgn _ _ _).trans ?_))
  refine forEach (forEach ?_ _ _ fun i s h => ?_) _ _ fun i s h => ?_
  · exact (modTickJob_rgn _ _ _).trans ((modTickRgn_rgn _ _ _).trans h)
  · exact (modHerd_rgn _ _ _).trans h
  · exact (modIbex_rgn _ _ _).trans h

theorem dropMerge (h : RgnIs g s) (n : Fin 8) : RgnIs g (dropMerge n s) :=
  (modTickJob_rgn _ _ _).trans ((modAnl_rgn _ _ _).trans (h.forEach _ _ fun _ _ h => (modKudu_rgn _ _ _).trans h))

/-- A job is killed: its tiles reset, its DMA abandoned, its ticking ended, and its units scrubbed. -/
theorem killJob (h : RgnIs g s) (k : JobRef) (scrub : Bool) : RgnIs g (killJob k scrub s) := by
  unfold Machine.killJob
  split
  · exact h
  · rename_i j _
    have hdrop : RgnIs g (purgeJob k (dropReady j s)) :=
      h.forEach _ _ fun _ _ h => keeps_dropArm (rgnIs_ends g) _ _ _ h
    have hreset := hdrop.forEach j.engines Machine.resetUnit fun e s h => h.resetUnit e
    simp only
    generalize Machine.forEach j.engines Machine.resetUnit (purgeJob k (dropReady j s)) = t at hreset ⊢
    have hdma := hreset.forEach (t.eng.dmaRunning.filter fun d => d.job == k) (fun d s =>
      Machine.forEach (openDsts s .dma d) (fun p s => Machine.undefDst .dma d.job.r p.1 p.2 s) s)
      fun d s h => h.forEach _ _ fun p s h => h.undefDst _ _ _ _
    have heng := (modEng_rgn (fun x => { x with dmaRunning := x.dmaRunning.filter fun d => d.job != k }) _).trans hdma
    generalize modEng (fun x => { x with dmaRunning := x.dmaRunning.filter fun d => d.job != k }) _ = u at heng ⊢
    have htick : RgnIs g (if j.tick = true then Machine.dropMerge k.r (Machine.endTicking k.r u) else u) := by
      split
      · exact dropMerge (endTicking heng _) _
      · exact heng
    split
    · exact htick.scrubAll _
    · exact htick

theorem killWith (h : RgnIs g s) (k : JobRef) (scrub : Bool) (st : Nat) : RgnIs g (killWith k scrub st s) :=
  keeps_completeJob (rgnIs_ends g) _ _ _ (h.killJob k scrub)

/-- The TDI of a region goes to ERROR. -/
theorem tdiError (h : RgnIs g s) (n : Fin 8) : RgnIs g (tdiError n s) := by
  have hpages : ∀ c t, RgnIs g t → RgnIs g (dropHostPages c t) := by
    intro c t ht
    simp only [dropHostPages]
    split
    · exact forEach ht _ _ fun _ _ h => h
    · exact (modCtx_rgn _ _ _).trans (forEach ht _ _ fun _ _ h => h)
  simp only [Machine.tdiError]
  split
  · simp only [setTdi]
    split
    · exact hpages _ _ ((modSecRgn_rgn _ _ _).trans h)
    · exact (modSecRgn_rgn _ _ _).trans h
  · exact h

end RgnIs

end Sys2Proof.Machine
end

section
/-!
PROOFS. Destruction (03_mesh_regions_rim.md R71, Table 3-6): the teardown ends the region's jobs and quiets its Halyard outputs, and
its completion leaves no tag, unit, frame or key of the region.
-/
namespace Sys2Proof.Machine

/-! ### The teardown (Table 3-6 steps 1-3, 02_pennant_tick.md R38) -/

/-- Every output that region n owns is without a schedule, a pulse or a high level. -/
def Quiet (n : Fin 8) (h : HalyState) : Prop :=
  ∀ o : Fin 8, h.out[o].owner = .rgn n → h.out[o].sched = none ∧ h.out[o].old = [] ∧ h.out[o].pulses = [] ∧ h.out[o].pin ≠ .high

theorem drive_nil_ne_high (enable : Bool) : drive enable [] ≠ .high := by
  cases enable <;> decide

theorem quietRegion_quiet (n : Fin 8) (s : State) : Quiet n (quietRegion n s).haly := by
  intro o ho
  have hout : (quietRegion n s).haly.out[o] =
      if s.haly.out[o].owner = .rgn n then quietOut s.haly.outEnable s.haly.out[o] else s.haly.out[o] := Vector.getElem_map _ _
  by_cases hown : s.haly.out[o].owner = .rgn n
  · rw [hout, if_pos hown]
    exact ⟨rfl, rfl, rfl, drive_nil_ne_high _⟩
  · rw [hout, if_neg hown] at ho
    exact absurd ho hown

/-- Writing records and releasing waits leaves the regions' records and the Halyard outputs. -/
theorem rgnHaly_ends (g : RgnState) (h : HalyState) : KeptByEnds fun s => s.rgn = g ∧ s.haly = h where
  jobs _ _ h := h
  que _ _ h := h
  evt _ _ h := h
  err _ _ h := h
  msix _ _ h := h
  ctx _ _ h := h
  phys _ _ _ h := h
  host _ _ _ h := h
  shadow _ _ h := h
  purge _ _ h := h

/-- The packets of region n that no job has begun complete with CANCELLED_BEFORE_START; the regions' records and jobs stay. -/
theorem cancelQueues_frame (n : Fin 8) (s : State) :
    ∃ v, forEach (allFin 4) (fun q s =>
      forEach (s.que[qIndex n q].pkts.filter fun p => p.done.isNone && pktOp p.bytes == 1)
        (fun p => decide' (qIndex n q) p.pos (plainDone Status.cancelledBeforeStart)) s) s = { s with que := v } := by
  refine forEach_keeps (fun t => ∃ v, t = { s with que := v }) _ _ ?_ s ⟨s.que, rfl⟩
  rintro q - t ht
  refine forEach_keeps (fun t => ∃ v, t = { s with que := v }) _ _ ?_ t ht
  rintro p - _ ⟨v, rfl⟩
  exact ⟨_, rfl⟩

/-- The region as its teardown begins. -/
def torn (r : Region) : Region := { r with tearingDown := true }

/-- A region without a job: its record and those of the others are g. -/
structure Ending (n : Fin 8) (g : RgnState) (s : State) : Prop where
  rgn : s.rgn = g
  jobs : RefsIn (fun k => k.r ≠ n) s

/-- The teardown before what follows of it: no job, and quiet outputs. -/
def stopRegion (n : Fin 8) (s : State) : State :=
  let disabled := s.rgn.rgn[n].state == .disabled
  let shut := ctxSealed s (ctxOf n)
  let s := tdiError n (modRgn n torn s)
  let s := forEach (startedJobs s n) (fun j => killWith j.ref shut Status.cancelled) s
  let s := { s with jobs := s.jobs.filter fun j => j.ref.r != n }
  if disabled then s else
    forEach (allFin 4) (fun q s =>
      forEach (s.que[qIndex n q].pkts.filter fun p => p.done.isNone && pktOp p.bytes == 1)
        (fun p => decide' (qIndex n q) p.pos (plainDone Status.cancelledBeforeStart)) s) s

theorem beginTeardown_eq (n : Fin 8) (s : State) : beginTeardown n s = settle n (quietRegion n (stopRegion n s)) := rfl

theorem stopRegion_ending (n : Fin 8) (s : State) : Ending n (modRgn n torn s).rgn (stopRegion n s) := by
  have htdi : RgnIs (modRgn n torn s).rgn (tdiError n (modRgn n torn s)) := RgnIs.tdiError rfl n
  have hkill := htdi.forEach (startedJobs (tdiError n (modRgn n torn s)) n)
    (fun j => killWith j.ref (ctxSealed s (ctxOf n)) Status.cancelled) fun j t h => h.killWith _ _ _
  simp only [stopRegion]
  generalize forEach (startedJobs (tdiError n (modRgn n torn s)) n)
    (fun j => killWith j.ref (ctxSealed s (ctxOf n)) Status.cancelled) (tdiError n (modRgn n torn s)) = t at hkill ⊢
  have hgone : RefsIn (fun k => k.r ≠ n) { t with jobs := t.jobs.filter fun j => j.ref.r != n } :=
    fun j hj => bne_iff_ne.mp (List.mem_filter.mp hj).2
  obtain ⟨v, hv⟩ := cancelQueues_frame n { t with jobs := t.jobs.filter fun j => j.ref.r != n }
  split
  · exact ⟨hkill, hgone⟩
  · rw [hv]
    exact ⟨hkill, hgone⟩

/-- A teardown leaves no job of the region and quiet outputs, and the region is being torn down. -/
theorem beginTeardown_ends (n : Fin 8) (s : State) :
    (beginTeardown n s).rgn.rgn[n].tearingDown = true ∧ RefsIn (fun k => k.r ≠ n) (beginTeardown n s) ∧ Quiet n (beginTeardown n s).haly := by
  obtain ⟨hrgn, hjobs⟩ := stopRegion_ending n s
  rw [beginTeardown_eq]
  generalize stopRegion n s = t at hrgn hjobs ⊢
  have hq : (quietRegion n t).rgn = t.rgn := rfl
  have hjq : RefsIn (fun k => k.r ≠ n) (quietRegion n t) := hjobs
  obtain ⟨hsr, hsh⟩ := keeps_settle (rgnHaly_ends (quietRegion n t).rgn (quietRegion n t).haly) n (quietRegion n t) ⟨rfl, rfl⟩
  refine ⟨?_, hjq.settle n, ?_⟩
  · rw [hsr, hq, hrgn, modRgn_get]
    rfl
  · rw [hsh]
    exact quietRegion_quiet n t

/-! ### The walls, the frames and the keys that are left (Table 3-6 steps 4-7, R215, R217) -/

theorem filter_ne_some {k : Nat} (o : Option (Fin k)) (n : Fin k) : o.filter (· != n) ≠ some n := by
  intro h
  simpa using (Option.filter_eq_some_iff.mp h).2

/-- No block carries a closed region's tag, and no Rim unit is its context's. -/
theorem closeWalls_shut (n : Fin 8) (s : State) :
    (∀ m : Fin 8, (closeWalls n s).mesh.tag[m] ≠ some n ∧ (closeWalls n s).mesh.tagNext[m] ≠ some n) ∧
    ∀ (d : Fin 48) (u : Fin 32), (closeWalls n s).rim.owner[d][u] ≠ some (ctxOf n) ∧ (closeWalls n s).rim.alloc[d][u] ≠ some (ctxOf n) := by
  simp only [closeWalls, Fin.getElem_fin, Vector.getElem_map]
  exact ⟨fun m => ⟨filter_ne_some _ n, filter_ne_some _ n⟩, fun d u => ⟨filter_ne_some _ (ctxOf n), filter_ne_some _ (ctxOf n)⟩⟩

theorem giveFrame_owner (f o : Nat) (m : MemState) : (giveFrame f o m).owner = (setOwner f o m).owner := rfl

/-- A frame that returns to its owner at reset is listed with no owner. -/
theorem setOwner_reset (f : Nat) (m : MemState) :
    (setOwner f (if isCarve f then 8 else 15) m).owner = m.owner.filter fun e => e.1 != f := by
  simp only [setOwner, if_true]

/-- Frames given back one after another: an entry that names owner n is of a frame still to come. -/
theorem giveBack_owner (n : Nat) (l : List Nat) (s : State) (h : ∀ e ∈ s.mem.owner, e.2 = n → e.1 ∈ l) :
    ∀ e ∈ (forEach l (fun f => modMem fun m => giveFrame f (if isCarve f then 8 else 15) m) s).mem.owner, e.2 ≠ n := by
  induction l generalizing s with
  | nil => exact fun e he hn => List.not_mem_nil (h e he hn)
  | cons f l ih =>
    refine ih _ fun e he hn => ?_
    rw [modMem_mem, giveFrame_owner, setOwner_reset] at he
    obtain ⟨hmem, hne⟩ := List.mem_filter.mp he
    exact (List.mem_cons.mp (h e hmem hn)).resolve_left (bne_iff_ne.mp hne)

theorem freeFrames_owner (n : Fin 8) (s : State) : ∀ e ∈ (freeFrames n s).mem.owner, e.2 ≠ n.val := by
  refine giveBack_owner n.val _ s fun e he hn => ?_
  exact List.mem_map_of_mem (List.mem_filter.mpr ⟨he, beq_iff_eq.mpr hn⟩)

/-- A region that no entry names owns no frame. -/
theorem frameOwner_ne (n : Fin 8) (m : MemState) (f : Nat) (h : ∀ e ∈ m.owner, e.2 ≠ n.val) : frameOwner m f ≠ n.val := by
  have hn := n.isLt
  unfold frameOwner
  split
  · exact h _ (List.mem_of_find?_eq_some ‹_›)
  · split <;> omega

/-- What is true of region n once it is destroyed. -/
structure Gone (n : Fin 8) (s : State) : Prop where
  state : s.rgn.rgn[n].state = .free
  tearingDown : s.rgn.rgn[n].tearingDown = false
  tags : ∀ m : Fin 8, s.mesh.tag[m] ≠ some n ∧ s.mesh.tagNext[m] ≠ some n
  units : ∀ (d : Fin 48) (u : Fin 32), s.rim.owner[d][u] ≠ some (ctxOf n) ∧ s.rim.alloc[d][u] ≠ some (ctxOf n)
  owner : ∀ e ∈ s.mem.owner, e.2 ≠ n.val
  key : s.mem.ctx[ctxOf n].key = none
  pages : s.mem.ctx[ctxOf n].pages = 0
  jobs : ∀ j ∈ s.jobs, j.ref.r ≠ n

theorem freeRegion_gone (n : Fin 8) (s : State) : Gone n (freeRegion n s) := by
  have hrgn := freeRegion_rgn n s
  have howner := freeFrames_owner n (unitsCleared n s)
  have hu := unitsCleared_same n s
  obtain ⟨hshut, hunits⟩ := closeWalls_shut n s
  obtain ⟨m, hm⟩ := freeFrames_frame n (unitsCleared n s)
  have hmesh : (freeFrames n (unitsCleared n s)).mesh = (closeWalls n s).mesh := by rw [hm]; exact hu.mesh
  have hrim : (freeFrames n (unitsCleared n s)).rim = (closeWalls n s).rim := by rw [hm]; exact hu.rim
  rw [freeRegion_eq] at hrgn ⊢
  generalize freeFrames n (unitsCleared n s) = t at hrgn howner hmesh hrim ⊢
  obtain ⟨-, hrmesh, hrrim, hrowner, hrctx, hrjobs⟩ := releaseRegion_released n s.rgn.rgn[n].byFlr t
  have hctx : (releaseRegion n s.rgn.rgn[n].byFlr t).mem.ctx[ctxOf n] = MemCtx.reset := by rw [hrctx]; exact upd_same _ _ _
  refine ⟨by rw [hrgn]; rfl, by rw [hrgn]; rfl, ?_, ?_, ?_, by rw [hctx]; rfl, by rw [hctx]; rfl, ?_⟩
  · rw [hrmesh, hmesh]; exact hshut
  · rw [hrrim, hrim]; exact hunits
  · rw [hrowner]; exact howner
  · rw [hrjobs]
    exact fun j hj => bne_iff_ne.mp (List.mem_filter.mp hj).2

/-- The records of the maintenance queue leave a destroyed region destroyed. -/
theorem Gone.of_records {n : Fin 8} {s t : State} (h : Gone n s) (k : SameByRecords s t) : Gone n t where
  state := by rw [k.rgn]; exact h.state
  tearingDown := by rw [k.rgn]; exact h.tearingDown
  tags := by rw [k.mesh]; exact h.tags
  units := by rw [k.rim]; exact h.units
  owner := by rw [k.owner]; exact h.owner
  key := (k.key _).trans h.key
  pages := (k.pages _).trans h.pages
  jobs := by rw [k.jobs]; exact h.jobs

theorem SameByRecords.modEvt (n : Fin 8) (f : EvtRgn → EvtRgn) (s : State) : SameByRecords s (modEvt n f s) :=
  ⟨rfl, rfl, rfl, rfl, rfl, rfl, fun _ => rfl, fun _ => rfl, fun _ => rfl⟩

theorem SameByRecords.discardQueues (n : Fin 8) (s : State) : SameByRecords s (discardQueues n s) :=
  forEach_keeps (SameByRecords s) _ _ (fun _ _ t h => h.trans (SameByRecords.modQue _ _ t)) s (SameByRecords.refl s)

/-! ### The statement -/

/-- What REGION_DESTROY does in its turn (R71). -/
def destroyAct (p : Pkt) (s : State) : State :=
  let n : Fin 8 := Fin.ofNat 8 (fieldAt p.bytes 16 1)
  let r := s.rgn.rgn[n]
  if r.state = .free then maintDone p Status.regionState s
  else if r.byFlr || r.state == .forming then maintStart p (modRgn n (fun r => { r with destroyWaits := true }) s)
  else startDestroy n (maintStart p s)

theorem exec_regionDestroy (s : State) : exec .regionDestroy s = maintCommand 0x41 destroyAct s := rfl

/-- Of the device-level errors RIM_UE alone refuses a destruction (Table 14-4). -/
theorem maintRefused_destroy (s : State) : maintRefused 0x41 s = s.err.rimUe := by
  simp [maintRefused]

theorem destroyAct_free (p : Pkt) (s : State) (h : s.rgn.rgn[Fin.ofNat 8 (fieldAt p.bytes 16 1)].state = .free) :
    destroyAct p s = decide' maintQ p.pos (plainDone Status.regionState) s := if_pos h

theorem destroyAct_starts (p : Pkt) (s : State) (n : Fin 8) (hn : n = Fin.ofNat 8 (fieldAt p.bytes 16 1))
    (h1 : s.rgn.rgn[n].state ≠ .free) (h2 : s.rgn.rgn[n].state ≠ .forming) (h3 : s.rgn.rgn[n].byFlr = false) :
    destroyAct p s = beginTeardown n (maintStart p s) := by
  subst hn
  have hopen := Bool.or_eq_false_iff.mpr ⟨h3, beq_eq_false_iff_ne.mpr h2⟩
  exact (if_neg h1).trans (if_neg (ne_true_of_eq_false hopen))

/-- The records of the maintenance queue leave a teardown as it is. -/
theorem settleMaint_teardown (n : Fin 8) (s : State) :
    let t := settleMaint (beginTeardown n s)
    t.rgn.rgn[n].tearingDown = true ∧ (∀ j ∈ t.jobs, j.ref.r ≠ n) ∧ Quiet n t.haly := by
  obtain ⟨htear, hjobs, hquiet⟩ := beginTeardown_ends n s
  generalize beginTeardown n s = u at htear hjobs hquiet ⊢
  have hsame := SameByRecords.settleMaint u
  obtain ⟨-, hhaly⟩ := keeps_settleMaint (rgnHaly_ends u.rgn u.haly) u ⟨rfl, rfl⟩
  intro t
  refine ⟨?_, ?_, ?_⟩
  · rw [hsame.rgn]; exact htear
  · rw [hsame.jobs]; exact hjobs
  · rw [hhaly]; exact hquiet

/-- A freed region's queues and records of events are discarded. -/
def discarded (r : Fin 8) (s : State) : State := modEvt r (fun e => { e with records := [] }) (discardQueues r (freeRegion r s))

/-- What the destruction of a region, not for an FLR, completes with. -/
def destroyed (r : Fin 8) (s : State) : State :=
  match destroyPkt s r with
  | some p => maintDone p Status.ok s
  | none => s

theorem SameByRecords.destroyed (r : Fin 8) (s : State) : SameByRecords s (destroyed r s) := by
  unfold Machine.destroyed
  split
  · exact SameByRecords.decide _ _ _ s
  · exact SameByRecords.refl s

theorem exec_destroyComplete (r : Fin 8) (s : State) (ht : s.rgn.rgn[r].tearingDown = true) (hf : s.rgn.rgn[r].byFlr = false) :
    exec (.destroyComplete r) s = .next (settleMaint (destroyed r (discarded r s))) :=
  (if_pos ht).trans (if_neg (ne_true_of_eq_false hf))

theorem destroyComplete_gone (r : Fin 8) (s : State) : Gone r (settleMaint (destroyed r (discarded r s))) :=
  (freeRegion_gone r s).of_records ((SameByRecords.discardQueues r (freeRegion r s)).trans ((SameByRecords.modEvt r _ _).trans
    ((SameByRecords.destroyed r (discarded r s)).trans (SameByRecords.settleMaint _))))

section
variable {s : State} {p : Pkt} (hp : currentOp s maintQ 0x41 = some p) (hc : coreTakes s maintQ = true)
  (hr : pktReject 32 p.bytes = none) (hrim : s.err.rimUe = false)
include hp hc hr hrim

theorem exec_regionDestroy_acts : exec .regionDestroy s = .next (settleMaint (destroyAct p s)) :=
  (exec_regionDestroy s).trans (maintCommand_acts destroyAct hp hc hr ((maintRefused_destroy s).trans hrim))

end

/-- Settles O23: the teardown of an open region, and the region that is freed. -/
theorem destructionClosesTheRegion : Obligations.DestructionClosesTheRegion := by
  refine ⟨fun s p hp hc hr hrim => ?_, fun s r => ⟨fun ht hf => ?_, fun ht => ?_⟩⟩
  · have hex := exec_regionDestroy_acts hp hc hr hrim
    refine ⟨fun h => ?_, fun h1 h2 h3 => ?_⟩
    · rw [hex, destroyAct_free p s h]
    · rw [destroyAct_starts p s _ rfl h1 h2 h3] at hex
      exact ⟨_, hex, settleMaint_teardown _ (maintStart p s)⟩
  · obtain ⟨hstate, htear, htags, hunits, howner, hkey, hpages, hjobs⟩ := destroyComplete_gone r s
    exact ⟨_, exec_destroyComplete r s ht hf, hstate, htear, htags, hunits, fun f => frameOwner_ne r _ f howner, hkey, hpages, hjobs⟩
  · exact if_neg (ne_true_of_eq_false ht)

end Sys2Proof.Machine
end

section
/-!
PROOFS. The colour classes of a sweep (04_herd_arrays.md R75, R80, R84): when a tile's next class begins, and where the tile then
stands.
-/
namespace Sys2Proof.Machine

/-! ### Where a tile stands in its sweep -/

/-- Herd tile h sweeps and has updated class c, and its class 0 does not wait. -/
structure AtClass (h : Fin 64) (c : Nat) (s : State) : Prop where
  cls : s.herd.tile[h].cls = c
  sweeps : s.herd.tile[h].state = .sweeping
  runs : s.herd.tile[h].waits = false

section
variable {h : Fin 64} {c : Nat} {s : State}

theorem AtClass.of_tile {t : State} (k : AtClass h c s) (e : t.herd.tile[h] = s.herd.tile[h]) : AtClass h c t :=
  ⟨e ▸ k.cls, e ▸ k.sweeps, e ▸ k.runs⟩

/-- Stopping a job, and what follows of itself, leaves a tile at its class. -/
theorem atClass_ends (h : Fin 64) (c : Nat) : KeptByEnds (AtClass h c) where
  jobs _ _ k := k.of_tile rfl
  que _ _ k := k.of_tile rfl
  evt _ _ k := k.of_tile rfl
  err _ _ k := k.of_tile rfl
  msix _ _ k := k.of_tile rfl
  ctx _ _ k := k.of_tile rfl
  phys _ _ _ k := k.of_tile rfl
  host _ _ _ k := k.of_tile rfl
  shadow _ _ k := k.of_tile rfl
  purge _ _ k := k.of_tile rfl

/-- A copy of the tile to itself changes its memory and its count of flits only. -/
theorem AtClass.copySelf (k : AtClass h c s) (e : SendEnt) : AtClass h c (modHerd h (copySelf e) s) := by
  have htile : (modHerd h (Machine.copySelf e) s).herd.tile[h] = Machine.copySelf e s.herd.tile[h] := upd_same _ _ _
  exact ⟨htile ▸ k.cls, htile ▸ k.sweeps, htile ▸ k.runs⟩

/-- Sending a class's entries, and the descriptor fault of an unbacked one (R77), leaves a tile at its class. -/
theorem AtClass.sendClass (k : AtClass h c s) (n : Fin 8) (d : Nat) : AtClass h c (sendClass n h d s) := by
  have hsent : ∀ es : List SendEnt, AtClass h c (forEach es (fun e u =>
      if (e.lx, e.ly) == logicalOf s.rgn.rgn[n] (.herd h) then modHerd h (Machine.copySelf e) u
      else pushVc0 (engXY (.herd h)) (entFlits n s.rgn.rgn[n] h u.herd.tile[h].mem e) u) s) := fun es => by
    refine forEach_keeps (AtClass h c) es _ (fun e _ u hu => ?_) s k
    split
    · exact hu.copySelf e
    · exact hu.of_tile rfl
  simp only [Machine.sendClass]
  split
  · exact hsent _
  · split
    · exact keeps_jobError (atClass_ends h c) _ _ _ _ (hsent _)
    · exact hsent _

end

/-- The update of a class leaves the tile at that class; the class's flits are counted from 0 (R80). -/
theorem updateClass_stands (c : Nat) (x : HerdTile) :
    (updateClass c x).cls = c ∧ (updateClass c x).state = x.state ∧ (updateClass c x).waits = false ∧
      (updateClass c x).haloFlits = 0 :=
  ⟨rfl, rfl, rfl, rfl⟩

/-- With the format data inside the format area (R77), a sweeping tile runs a class and stands at it. -/
theorem runClass_atClass (n : Fin 8) (h : Fin 64) (c : Nat) (s : State) (hs : s.herd.tile[h].state = .sweeping)
    (hf : formatEnd (readHcb s.herd.tile[h].hcb) s.herd.tile[h].mem ≤ 0x1FE000) : AtClass h c (runClass n h c s) := by
  have htile : (modHerd h (updateClass c) s).herd.tile[h] = updateClass c s.herd.tile[h] := upd_same _ _ _
  obtain ⟨hcls, hstate, hwaits, -⟩ := updateClass_stands c s.herd.tile[h]
  have hupdated : AtClass h c (modHerd h (updateClass c) s) := ⟨htile ▸ hcls, htile ▸ hstate.trans hs, htile ▸ hwaits⟩
  simp only [runClass, if_pos hf]
  exact hupdated.sendClass n c

/-! ### CLASS_BEGIN (R80) -/

/-- The class that a sweeping tile begins next, once its halo flits are there. -/
def nextClass (x : HerdTile) : Option Nat :=
  let c := readHcb x.hcb
  if x.waits = true then if c.halo.getD (c.c - 1) 0 ≤ x.haloFlits then some 0 else none
  else if x.cls + 1 < c.c ∧ c.halo.getD x.cls 0 ≤ x.haloFlits then some (x.cls + 1) else none

/-- CLASS_BEGIN at a sweeping tile of a job in its Sweep phase runs the next class. -/
theorem exec_classBegin {s : State} {h : Fin 64} {n : Fin 8} (hn : sweepRegion s h = some n)
    (hp : s.herd.job[n].part = .sweep) (hs : s.herd.tile[h].state = .sweeping) :
    exec (.classBegin h) s = .next ((nextClass s.herd.tile[h]).elim s fun c => settle n (runClass n h c s)) := by
  have hgo : ¬ (s.herd.job[n].part ≠ .sweep ∨ s.herd.tile[h].state ≠ .sweeping) := not_or.2 ⟨not_not.2 hp, not_not.2 hs⟩
  simp only [exec, execClassBegin, hn, if_neg hgo, nextClass]
  rw [cfgOf]
  split_ifs <;> rfl

section
variable {x : HerdTile}

theorem nextClass_later (hw : x.waits = false) (hc : x.cls + 1 < (readHcb x.hcb).c)
    (hl : (readHcb x.hcb).halo.getD x.cls 0 ≤ x.haloFlits) : nextClass x = some (x.cls + 1) := by
  simp only [nextClass, if_neg (ne_true_of_eq_false hw), if_pos (And.intro hc hl)]

theorem nextClass_few (hw : x.waits = false) (hl : x.haloFlits < (readHcb x.hcb).halo.getD x.cls 0) : nextClass x = none := by
  simp only [nextClass, if_neg (ne_true_of_eq_false hw), if_neg fun k => hl.not_ge (And.right k)]

theorem nextClass_first (hw : x.waits = true)
    (hl : (readHcb x.hcb).halo.getD ((readHcb x.hcb).c - 1) 0 ≤ x.haloFlits) : nextClass x = some 0 := by
  simp only [nextClass, if_pos hw, if_pos hl]

theorem nextClass_firstFew (hw : x.waits = true)
    (hl : x.haloFlits < (readHcb x.hcb).halo.getD ((readHcb x.hcb).c - 1) 0) : nextClass x = none := by
  simp only [nextClass, if_pos hw, if_neg hl.not_ge]

end

/-- A class that CLASS_BEGIN runs is the one where the tile then stands. -/
theorem settle_runClass_atClass {s : State} {h : Fin 64} (n : Fin 8) (c : Nat) (hs : s.herd.tile[h].state = .sweeping)
    (hf : formatEnd (readHcb s.herd.tile[h].hcb) s.herd.tile[h].mem ≤ 0x1FE000) :
    AtClass h c (settle n (runClass n h c s)) :=
  keeps_settle (atClass_ends h c) n _ (runClass_atClass n h c s hs hf)

/-- Settles O11: the next class begins with the halo flits of the class before, and not without them. -/
theorem classesWaitForHaloFlits : Obligations.ClassesWaitForHaloFlits := by
  refine ⟨fun s h n hn hp hs => ?_, fun c x => ?_⟩
  · have hex := exec_classBegin hn hp hs
    have hruns (c : Nat) := settle_runClass_atClass n c hs
    refine ⟨fun hw hc hl hf => ?_, fun hw hl => ?_, fun hw hl hf => ?_, fun hw hl => ?_⟩
    · rw [nextClass_later hw hc hl] at hex
      exact ⟨_, hex, (hruns _ hf).cls, (hruns _ hf).sweeps⟩
    · rwa [nextClass_few hw hl] at hex
    · rw [nextClass_first hw hl] at hex
      exact ⟨_, hex, (hruns _ hf).cls, (hruns _ hf).runs⟩
    · rwa [nextClass_firstFew hw hl] at hex
  · obtain ⟨hcls, -, -, hflits⟩ := updateClass_stands c x
    exact ⟨hflits, hcls⟩

end Sys2Proof.Machine
end

section
/-!
PROOFS. The update of a colour class and sweep_done (04_herd_arrays.md R75, R88, R91, R95, Table 4-1): which states an update
writes, and what it leaves of the tile.
-/
namespace Sys2Proof.Machine

/-! ### One nibble (Table 4-1) -/

theorem putNib_wf (m : Mem) (base j v : Nat) (hm : Memory.wf m = true) : Memory.wf (putNib m base j v) = true :=
  memPut_wf _ _ _ hm

/-- A nibble put changes no other byte. -/
theorem memGet_putNib_other (m : Mem) (base j v a : Nat) (hm : Memory.wf m = true) (ha : a ≠ base + j / 2) :
    memGet (putNib m base j v) a = memGet m a := by
  rw [putNib, memGet_memPut _ _ _ _ hm, if_neg ha]

/-- The byte that a nibble is put into keeps its other nibble. -/
theorem memGet_putNib_same (m : Mem) (base j v : Nat) (hm : Memory.wf m = true) :
    (memGet (putNib m base j v) (base + j / 2)).toNat =
      let b := (memGet m (base + j / 2)).toNat
      if j % 2 = 0 then b / 16 * 16 + v % 16 else b % 16 + v % 16 * 16 := by
  have hb := (memGet m (base + j / 2)).isLt
  rw [putNib, memGet_memPut _ _ _ _ hm, if_pos rfl, BitVec.toNat_ofNat, Nat.mod_eq_of_lt]
  split <;> omega

/-- A nibble put is read back, and every other nibble of the array reads as before. -/
theorem nib_putNib (m : Mem) (base j v i : Nat) (hm : Memory.wf m = true) :
    nib (putNib m base j v) base i = if i = j then v % 16 else nib m base i := by
  by_cases hbyte : i / 2 = j / 2
  · have hput := memGet_putNib_same m base j v hm
    simp only [nib, hbyte, hput]
    split_ifs <;> omega
  · have hne : i ≠ j := fun e => hbyte (e ▸ rfl)
    rw [if_neg hne]
    simp only [nib, memGet_putNib_other m base j v _ hm fun e => hbyte (Nat.add_left_cancel e)]

/-! ### The states that a list of updates writes (R75, R88) -/

/-- The new states of updated units are put into a memory. -/
def putStates (us : List UnitUpdate) (m : Mem) : Mem := us.foldl (fun m u => putNib m 0 u.slot u.new) m

theorem putStates_cons (u : UnitUpdate) (us : List UnitUpdate) (m : Mem) :
    putStates (u :: us) m = putStates us (putNib m 0 u.slot u.new) := rfl

theorem nib_putStates_other (us : List UnitUpdate) (m : Mem) (j : Nat) (hm : Memory.wf m = true)
    (hj : j ∉ us.map UnitUpdate.slot) : nib (putStates us m) 0 j = nib m 0 j := by
  induction us generalizing m with
  | nil => rfl
  | cons u us ih =>
    obtain ⟨hne, hrest⟩ := not_or.1 (mt List.mem_cons.2 hj)
    rw [putStates_cons, ih _ (putNib_wf _ _ _ _ hm) hrest, nib_putNib _ _ _ _ _ hm, if_neg hne]

/-- Of updates of different slots, each one's state stays. -/
theorem nib_putStates_mem (us : List UnitUpdate) (m : Mem) (hm : Memory.wf m = true) (hd : (us.map UnitUpdate.slot).Nodup)
    (u : UnitUpdate) (hu : u ∈ us) : nib (putStates us m) 0 u.slot = u.new % 16 := by
  induction us generalizing m with
  | nil => cases hu
  | cons w us ih =>
    obtain ⟨hfresh, hrest⟩ := List.nodup_cons.1 hd
    have hput := putNib_wf m 0 w.slot w.new hm
    rw [putStates_cons]
    rcases List.mem_cons.1 hu with rfl | hu
    · rw [nib_putStates_other _ _ _ hput hfresh, nib_putNib _ _ _ _ _ hm, if_pos rfl]
    · exact ih _ hput hrest hu

/-- Updates of slots below 16,384 write below 0x2000. -/
theorem memGet_putStates_beyond (us : List UnitUpdate) (m : Mem) (hm : Memory.wf m = true)
    (hs : ∀ u ∈ us, u.slot < 16384) (a : Nat) (ha : 0x2000 ≤ a) : memGet (putStates us m) a = memGet m a := by
  induction us generalizing m with
  | nil => rfl
  | cons u us ih =>
    have hu := hs u List.mem_cons_self
    rw [putStates_cons, ih _ (putNib_wf _ _ _ _ hm) fun w hw => hs w (List.mem_cons_of_mem _ hw),
      memGet_putNib_other _ _ _ _ _ hm (by omega)]

/-! ### The update of a class (R75) -/

theorem classSlots_nodup (cols : List Nat) (h : Hcb) (c : Nat) : (classSlots cols h c).Nodup := by
  have hall : (cols.zipIdx.map Prod.snd).Nodup := by
    rw [List.zipIdx_map_snd]; exact List.nodup_range'
  exact hall.sublist (List.filter_sublist.map _)

theorem classSlots_lt (cols : List Nat) (h : Hcb) (c j : Nat) (hj : j ∈ classSlots cols h c) : j < cols.length := by
  obtain ⟨x, hx, rfl⟩ := List.mem_map.1 hj
  exact List.snd_lt_of_mem_zipIdx (List.mem_filter.1 hx).1

/-- The updates of a class are those of its slots, each once. -/
theorem classUpdates_slots (x : HerdTile) (c : Nat) :
    (classUpdates x c).map UnitUpdate.slot = classSlots x.colours (readHcb x.hcb) c := by
  simp only [classUpdates, List.map_map]
  exact List.zipIdx_map_fst _ _

theorem updateClass_mem (c : Nat) (x : HerdTile) : (updateClass c x).mem = putStates (classUpdates x c) x.mem := rfl

/-- What the update of a class leaves of a tile: its HCB, key, colours, active unary buffer and the sweep's jt. -/
theorem updateClass_keeps (c : Nat) (x : HerdTile) :
    (updateClass c x).hcb = x.hcb ∧ (updateClass c x).key = x.key ∧ (updateClass c x).colours = x.colours ∧
      (updateClass c x).activeUnary = x.activeUnary ∧ (updateClass c x).sweepJt = x.sweepJt :=
  ⟨rfl, rfl, rfl, rfl, rfl⟩

/-! ### SWEEP_DONE (R91) -/

/-- The update of the last class of a sweep raises sweep_done; the tile is idle. -/
theorem exec_sweepDone (s : State) (h : Fin 64) (n : Fin 8) (cclk : Nat) (hn : sweepRegion s h = some n)
    (hs : s.herd.tile[h].state = .sweeping) (hw : s.herd.tile[h].waits = false)
    (hc : s.herd.tile[h].cls + 1 = (readHcb s.herd.tile[h].hcb).c) (ht : cclk < 3200) :
    exec (.sweepDone h cclk) s = .next (modHerd h (finishTile s.tick.tn.toNat cclk) s) :=
  if_pos ⟨hn ▸ rfl, hs, hw, hc, ht⟩

/-- A tile that does not sweep, waits, or stands before its last class raises nothing. -/
theorem exec_sweepDone_not (s : State) (h : Fin 64) (cclk : Nat) (hx : s.herd.tile[h].state ≠ .sweeping ∨
    s.herd.tile[h].waits = true ∨ s.herd.tile[h].cls + 1 < (readHcb s.herd.tile[h].hcb).c) :
    exec (.sweepDone h cclk) s = .next s := by
  refine if_neg ?_
  rintro ⟨-, hs, hw, hc, -⟩
  rcases hx with hx | hx | hx
  · exact hx hs
  · exact ne_true_of_eq_false hw hx
  · exact hx.ne hc

/-- Settles O12: a class update writes its slots' states alone, and sweep_done comes after the last class. -/
theorem classUpdatesAndSweepDoneKeepTheRest : Obligations.ClassUpdatesAndSweepDoneKeepTheRest := by
  refine ⟨fun c x hm hlen => ?_, exec_sweepDone, exec_sweepDone_not⟩
  have hslots := classUpdates_slots x c
  have hlow : ∀ u ∈ classUpdates x c, u.slot < 16384 := fun u hu =>
    (classSlots_lt _ _ _ _ (hslots ▸ List.mem_map_of_mem hu)).trans_le hlen
  simp only [updateClass_mem]
  refine ⟨fun j hj => ?_, fun u hu => ?_, fun a ha => ?_, updateClass_keeps c x⟩
  · exact nib_putStates_other _ _ j hm (hslots ▸ hj)
  · exact nib_putStates_mem _ _ hm (hslots ▸ classSlots_nodup _ _ _) u hu
  · exact memGet_putStates_beyond _ _ hm hlow a ha

end Sys2Proof.Machine
end

section
/-!
PROOFS. HEADER_WRITE (04_herd_arrays.md R97, 10_memory_host_link.md R231, R232): what it writes for a record whose parts are all
visible or discarded.
-/
namespace Sys2Proof.Machine

theorem leBytes_length (n v : Nat) : (leBytes n v).length = n := by
  induction n generalizing v with
  | zero => rfl
  | succ n ih => rw [leBytes, List.length_cons, ih]

/-- A header is a 32-byte block (Table 4-5). -/
theorem headerBytes_length (n : Fin 8) (e : Emission) : (headerBytes n e).length = 32 := by
  simp only [headerBytes, List.length_append, leBytes_length, List.length_cons, List.length_nil]

/-- Region r's job with an emission taken off and its write booked off. -/
def emissionEnded (r : Fin 8) (e : Emission) (w : PartWrite) (s : State) : State :=
  let b := s.herd.job[r]
  { s with herd := { s.herd with job := s.herd.job.set r { b with
    emissions := b.emissions.erase e, writes := b.writes.filter fun x => x.id != w.id } } }

theorem endWrite_emission (r : Fin 8) (e : Emission) (w : PartWrite) (s : State) :
    endWrite r w.id (modTickJob r (fun x => { x with emissions := x.emissions.erase e }) s) = emissionEnded r e w s := by
  simp only [endWrite, modTickJob, upd_upd]
  rfl

section
variable {s : State} {r : Fin 8} {chain : Nat} {e : Emission} {j : Job}

/-- The header, unless a part of the record was discarded, then the count word, and the record counted. -/
theorem exec_headerWrite_done (he : s.herd.job[r].emissions.find? (fun e => e.chain == chain) = some e)
    (hj : tickJobOf s r = some j) (w : PartWrite) (hw : doneWrite s r e.write = some w) :
    let s1 := emissionEnded r e w s
    let s2 := if w.dropped = true then s1 else jobWrite j.ref (.herd e.head) e.addr (headerBytes r e) s1
    let s3 := jobWrite j.ref (.herd e.head) e.countAddr (leBytes 8 (e.t + 1)) s2
    exec (.headerWrite r chain) s = .next (settle r (modHerd e.head (fun t => { t with records := t.records + 1 }) s3)) := by
  simp only [exec, execHeaderWrite, he, hj, hw, endWrite_emission]

/-- Parts of the record are still on their way. -/
theorem exec_headerWrite_early (he : s.herd.job[r].emissions.find? (fun e => e.chain == chain) = some e)
    (hj : tickJobOf s r = some j) (hw : doneWrite s r e.write = none) : exec (.headerWrite r chain) s = .next s := by
  simp only [exec, execHeaderWrite, he, hj, hw]

theorem exec_headerWrite_none (he : s.herd.job[r].emissions.find? (fun e => e.chain == chain) = none) :
    exec (.headerWrite r chain) s = .next s := by
  simp only [exec, execHeaderWrite, he]

end

end Sys2Proof.Machine
end

section
/-!
PROOFS. Reservoir offers (06_annealing_low_states.md R130, R131; 11_owners_secrecy.md R265): what an offer to a reservoir does, and
what a sweep of the burn-in may change.
-/
namespace Sys2Proof.Machine

/-! ### One reservoir (R130, R131) -/

/-- An offer that R131 refuses outright: no reservoir, a saturated energy, or one outside int40. -/
def OfferRefused (k : Nat) (e : Int) (sat : Bool) : Prop := k = 0 ∨ sat = true ∨ ¬ (-(2 ^ 39) ≤ e ∧ e ≤ 2 ^ 39 - 1)

/-- The entry that an admitted offer makes. -/
def offeredEntry (w : Nat) (e : Int) (h : W64) (slot : Nat) : ResEntry :=
  { energy := e, hash := h, sweep := w % 2 ^ 32, slot := slot, valid := false }

theorem resInsert_perm (x : ResEntry) (l : List ResEntry) : (resInsert x l).Perm (x :: l) := by
  induction l with
  | nil => exact .refl _
  | cons y l ih =>
    rw [resInsert]
    split
    · exact .refl _
    · exact (ih.cons y).trans (.swap x y l)

theorem resBefore_iff (e : Int) (h : W64) (x : ResEntry) :
    resBefore e h x = true ↔ e < x.energy ∨ e = x.energy ∧ h < x.hash := by
  simp only [resBefore, Bool.or_eq_true, Bool.and_eq_true, decide_eq_true_eq, beq_iff_eq, BitVec.ult_iff_lt]

/-- With fewer than k entries some slot below k is free. -/
theorem exists_free_slot (k : Nat) (l : List ResEntry) (hl : l.length < k) : ∃ j < k, ∀ x ∈ l, x.slot ≠ j := by
  by_contra hfull
  push Not at hfull
  have hsub : List.range k ⊆ l.map ResEntry.slot := fun j hj => by
    obtain ⟨x, hx, rfl⟩ := hfull j (List.mem_range.1 hj)
    exact List.mem_map_of_mem hx
  have hle := (List.nodup_range.subperm hsub).length_le
  rw [List.length_range, List.length_map] at hle
  omega

/-- `freeSlot` answers the lowest-numbered free slot. -/
theorem freeSlot_spec (k : Nat) (l : List ResEntry) (hl : l.length < k) :
    freeSlot k l < k ∧ (∀ x ∈ l, x.slot ≠ freeSlot k l) ∧ ∀ i < freeSlot k l, ∃ x ∈ l, x.slot = i := by
  have hfree : ∀ j, (!l.any fun x => x.slot == j) = true ↔ ∀ x ∈ l, x.slot ≠ j := fun j => by simp
  cases hj : (List.range k).find? fun j => !l.any fun x => x.slot == j with
  | none =>
    obtain ⟨j, hjk, hnot⟩ := exists_free_slot k l hl
    exact absurd ((hfree j).2 hnot) (List.find?_eq_none.1 hj j (List.mem_range.2 hjk))
  | some j =>
    have hslot : freeSlot k l = j := by rw [freeSlot, hj]; rfl
    obtain ⟨hnot, hjk, hbelow⟩ := List.find?_range_eq_some.1 hj
    rw [hslot]
    refine ⟨List.mem_range.1 hjk, (hfree j).1 hnot, fun i hi => ?_⟩
    simpa using hbelow i hi

section
variable {k : Nat} {e : Int} {sat : Bool} {h : W64} {l : List ResEntry}

theorem offerRefused_iff : (k = 0 ∨ sat = true ∨ inInt 40 e = false) ↔ OfferRefused k e sat := by
  have hint : inInt 40 e = false ↔ ¬ (-(2 ^ 39) ≤ e ∧ e ≤ 2 ^ 39 - 1) := by
    rw [← Bool.not_eq_true, inInt, Bool.and_eq_true, decide_eq_true_eq, decide_eq_true_eq]
  rw [hint, OfferRefused]

theorem hasHash_iff : (l.any fun x => x.hash == h) = true ↔ ∃ x ∈ l, x.hash = h := by simp

theorem resOffer_refused (w : Nat) (hr : OfferRefused k e sat) : resOffer k w e h sat l = .nothing :=
  if_pos (offerRefused_iff.2 hr)

variable (hr : ¬ OfferRefused k e sat)
include hr

theorem resOffer_duplicate (w : Nat) (hs : ∃ x ∈ l, x.hash = h) : resOffer k w e h sat l = .duplicate :=
  (if_neg (mt offerRefused_iff.1 hr)).trans (if_pos (hasHash_iff.2 hs))

variable (hs : ¬ ∃ x ∈ l, x.hash = h)
include hs

theorem resOffer_room (w : Nat) (hl : l.length < k) :
    resOffer k w e h sat l = .inserted (freeSlot k l) (resInsert (offeredEntry w e h (freeSlot k l)) l) :=
  (if_neg (mt offerRefused_iff.1 hr)).trans ((if_neg (mt hasHash_iff.1 hs)).trans (if_pos hl))

/-- Without room the offer is held against the worst entry, the last. -/
theorem resOffer_full (w : Nat) (hl : k ≤ l.length) (worst : ResEntry) (best : List ResEntry) (hb : l = best ++ [worst]) :
    resOffer k w e h sat l = if resBefore e h worst = true then
      .inserted worst.slot (resInsert (offeredEntry w e h worst.slot) best) else .nothing := by
  subst hb
  simp only [resOffer, if_neg (mt offerRefused_iff.1 hr), if_neg (mt hasHash_iff.1 hs), if_neg hl.not_gt,
    List.getLast?_concat, List.dropLast_concat, offeredEntry]

end

/-! ### A sweep's offer (R131, R265) -/

/-- Parts of a payload enter the sources of their tiles. -/
theorem forEach_pushVc0 {α : Type} (l : List α) (p : α → Nat × Nat) (f : α → List Vc0Flit) (s : State) :
    ∃ src, forEach l (fun a => pushVc0 (p a) (f a)) s = { s with mesh := { s.mesh with src := src } } := by
  induction l generalizing s with
  | nil => exact ⟨s.mesh.src, rfl⟩
  | cons a l ih =>
    obtain ⟨src, hsrc⟩ := ih (pushVc0 (p a) (f a) s)
    exact ⟨src, hsrc⟩

/-- The parts of a payload change the tiles' VC0 sources and the job's writes only. -/
theorem sendPayload_frame (n : Fin 8) (base : Nat) (masked : Bool) (parts : List (Fin 64 × Nat × List Byte)) (s : State) :
    ∃ src job, (sendPayload n base masked parts s).2 =
      { s with mesh := { s.mesh with src := src }, herd := { s.herd with job := s.herd.job.set n job } } := by
  obtain ⟨src, hsrc⟩ := forEach_pushVc0 parts (fun p => engXY (.herd p.1))
    (fun p => partFlits n s.herd.job[n].nextWrite base masked p) s
  simp only [sendPayload, hsrc]
  exact ⟨src, _, rfl⟩

/-- A masked write changes no more than its parts do. -/
theorem maskedWrite_frame (n : Fin 8) (g w : Nat) (hd : Part) (ps : List Part) (c : Chain) (s : State) :
    ∃ src job, maskedWrite n g w hd ps c s =
      { s with mesh := { s.mesh with src := src }, herd := { s.herd with job := s.herd.job.set n job } } := by
  simp only [maskedWrite]
  split
  · exact sendPayload_frame _ _ _ _ _
  · exact ⟨s.mesh.src, s.herd.job[n], by simp⟩

/-- Outside a SEALED region there is no masked write. -/
theorem maskedWrite_open (n : Fin 8) (g w : Nat) (hd : Part) (ps : List Part) (c : Chain) (s : State)
    (ho : ctxSealed s (ctxOf n) = false) : maskedWrite n g w hd ps c s = s := by
  simp [maskedWrite, ho]

theorem offerState_burnIn (j : Job) (g w : Nat) (hd : Part) (ps : List Part) (c : Chain) (s : State) (hw : w < hd.cfg.burnIn) :
    offerState j g w hd ps c s = maskedWrite j.ref.r g w hd ps c s := if_pos hw

/-- Settles O14: a header after its parts, and an offer by the steps of R131. -/
theorem headersAndReservoirOffersFollowTheirSteps : Obligations.HeadersAndReservoirOffersFollowTheirSteps := by
  refine ⟨fun s r chain => ⟨fun e j he hj => ⟨fun w hw => ?_, exec_headerWrite_early he hj⟩, exec_headerWrite_none⟩,
    fun k w e h sat l => ⟨resOffer_refused w, fun hr => resOffer_duplicate hr w, fun hr hs hl _ => ?_,
      fun worst best hr hs hl hb => ?_⟩,
    fun j g w hd ps c s hw => ?_⟩
  · exact ⟨headerBytes_length r e, exec_headerWrite_done he hj w hw⟩
  · obtain ⟨hlt, hfree, hbelow⟩ := freeSlot_spec k l hl
    exact ⟨_, _, resOffer_room hr hs w hl, hlt, hfree, hbelow, resInsert_perm _ _⟩
  · have hfull := resOffer_full hr hs w hl worst best hb
    refine ⟨fun hbetter => ?_, fun hnot => ?_⟩
    · rw [if_pos ((resBefore_iff e h worst).2 hbetter)] at hfull
      exact ⟨_, hfull, resInsert_perm _ _⟩
    · rwa [if_neg (mt (resBefore_iff e h worst).1 hnot)] at hfull
  · rw [offerState_burnIn j g w hd ps c s hw]
    exact ⟨maskedWrite_frame _ _ _ _ _ _ _, maskedWrite_open _ _ _ _ _ _ _⟩

end Sys2Proof.Machine
end

section
/-!
PROOFS. Failed noise stays failed (05_noise.md R108, R110): what every operation and every command that does not reset the block
leaves of NOISE_STATUS.state, fail_cause and fail_src.
-/
namespace Sys2Proof.Machine

/-! ### The verdict on noise -/

/-- What R110 keeps of failed noise: its state, first cause and source. -/
def NoiseState.verdict (x : NoiseState) : NState × Nat × Nat := (x.state, x.failCause, x.failSrc)

@[simp] theorem verdict_rgn (x : NoiseState) (v : Vector NoiseRgn 8) :
    NoiseState.verdict { x with rgn := v } = x.verdict := rfl

/-- If a command answers a next state, the verdict is as it was. -/
def KeepsVerdict (s : State) : Out → Prop
  | .next t => t.noise.verdict = s.noise.verdict
  | .fault _ => True
  | .refused _ => True

@[simp] theorem keepsVerdict_next (s t : State) :
    KeepsVerdict s (Host.Outcome.next t) ↔ t.noise.verdict = s.noise.verdict := Iff.rfl

@[simp] theorem keepsVerdict_fault (s : State) (f : Fault) : KeepsVerdict s (Host.Outcome.fault f) ↔ True := Iff.rfl

@[simp] theorem keepsVerdict_ite (s : State) (c : Prop) [Decidable c] (a b : Out) :
    KeepsVerdict s (if c then a else b) ↔ (c → KeepsVerdict s a) ∧ (¬ c → KeepsVerdict s b) := by split <;> simp [*]

@[simp] theorem ite_verdict (c : Prop) [Decidable c] (s t : State) :
    (if c then s else t).noise.verdict = if c then s.noise.verdict else t.noise.verdict := by split <;> rfl

/-- What ending work keeps of noise (`noise_kept`) includes the verdict. -/
theorem verdict_of_kept {s t : State} (h : { t.noise with rgn := s.noise.rgn } = s.noise) :
    t.noise.verdict = s.noise.verdict :=
  have e : NoiseState.verdict { t.noise with rgn := s.noise.rgn } = t.noise.verdict := rfl
  e.symm.trans (congrArg NoiseState.verdict h)

@[simp] theorem forEach_verdict {α : Type} (l : List α) (f : α → State → State) (s : State)
    (hf : ∀ a s, (f a s).noise.verdict = s.noise.verdict) : (forEach l f s).noise.verdict = s.noise.verdict :=
  forEach_keeps (fun t => t.noise.verdict = s.noise.verdict) l f (fun a _ t ht => (hf a t).trans ht) s rfl

/-! ### What the operations and commands of Machine/Memory.lean leave -/

@[simp] theorem writePlace_verdict (p : Place) (data : List Byte) (s : State) :
    (writePlace p data s).noise.verdict = s.noise.verdict := by
  unfold writePlace; split <;> simp
@[simp] theorem writeDev_verdict (tile : Fin 24) (c : Fin 9) (a : Nat) (data : List Byte) (s : State) :
    (writeDev tile c a data s).1.noise.verdict = s.noise.verdict :=
  verdict_of_kept (keeps_writeDev (noise_kept s.noise).toKeptByEnds tile c a data s rfl)
@[simp] theorem latchFault_verdict (c : Fin 9) (addr cause : Nat) (s : State) :
    (latchFault c addr cause s).noise.verdict = s.noise.verdict := by simp [latchFault]
@[simp] theorem latchIf_verdict (c : Fin 9) (f : MemFault) (s : State) :
    (latchIf c f s).noise.verdict = s.noise.verdict :=
  verdict_of_kept (keeps_latchIf (noise_kept s.noise).toKeptByEnds c f s rfl)

@[simp] theorem writeHost_verdict (a : Nat) (data : List Byte) (s : State) :
    (writeHost a data s).noise.verdict = s.noise.verdict := by simp [writeHost]

/-! ### What the operations and commands of Machine/Ops.lean leave -/

@[simp] theorem logRegion_verdict (n : Fin 8) (r : ErrRec) (s : State) :
    (logRegion n r s).noise.verdict = s.noise.verdict :=
  verdict_of_kept (keeps_logRegion (noise_kept s.noise).toKeptByEnds n r s rfl)
@[simp] theorem dropStaged_verdict (k : JobRef) (s : State) : (dropStaged k s).noise.verdict = s.noise.verdict :=
  verdict_of_kept (keeps_dropStaged (noise_kept s.noise).toKeptByEnds k s rfl)
@[simp] theorem modLock_verdict (n : Fin 8) (l : Nat) (f : LockReg → LockReg) (s : State) :
    (modLock n l f s).noise.verdict = s.noise.verdict :=
  verdict_of_kept (keeps_modLock (noise_kept s.noise).toKeptByEnds n l f s rfl)
@[simp] theorem setLockCw_verdict (k : JobRef) (b : Bool) (s : State) :
    (setLockCw k b s).noise.verdict = s.noise.verdict :=
  verdict_of_kept (keeps_setLockCw (noise_kept s.noise).toKeptByEnds k b s rfl)
@[simp] theorem unlockLock_verdict (n : Fin 8) (l : Nat) (s : State) :
    (unlockLock n l s).noise.verdict = s.noise.verdict :=
  verdict_of_kept (keeps_unlockLock (noise_kept s.noise).toKeptByEnds n l s rfl)
@[simp] theorem breakLocks_verdict (k : JobRef) (s : State) : (breakLocks k s).noise.verdict = s.noise.verdict :=
  verdict_of_kept (keeps_breakLocks (noise_kept s.noise).toKeptByEnds k s rfl)
@[simp] theorem recordEvent_verdict (n : Fin 8) (e : Nat) (s : State) :
    (recordEvent n e s).noise.verdict = s.noise.verdict :=
  verdict_of_kept (keeps_recordEvent (noise_kept s.noise).toKeptByEnds n e s rfl)
@[simp] theorem endEvent_verdict (n : Fin 8) (e g : Nat) (st : EState) (s : State) :
    (endEvent n e g st s).noise.verdict = s.noise.verdict :=
  verdict_of_kept (keeps_endEvent (noise_kept s.noise).toKeptByEnds n e g st s rfl)
@[simp] theorem dropArm_verdict (n : Fin 8) (a : Arm) (s : State) : (dropArm n a s).noise.verdict = s.noise.verdict :=
  verdict_of_kept (keeps_dropArm (noise_kept s.noise).toKeptByEnds n a s rfl)
@[simp] theorem raiseFence_verdict (n : Fin 8) (f : Nat) (v : W64) (s : State) :
    (raiseFence n f v s).noise.verdict = s.noise.verdict :=
  verdict_of_kept (keeps_raiseFence (noise_kept s.noise).toKeptByEnds n f v s rfl)
@[simp] theorem modPkt_verdict (i : Fin 33) (pos : W32) (f : Pkt → Pkt) (s : State) :
    (modPkt i pos f s).noise.verdict = s.noise.verdict :=
  verdict_of_kept (keeps_modPkt (noise_kept s.noise).toKeptByEnds i pos f s rfl)
@[simp] theorem decide'_verdict (i : Fin 33) (pos : W32) (d : Done) (s : State) :
    (decide' i pos d s).noise.verdict = s.noise.verdict := by simp [decide']

@[simp] theorem served_verdict (i : Fin 33) (s : State) : (served i s).noise.verdict = s.noise.verdict := by
  simp only [served]
  repeat' split
  all_goals simp

@[simp] theorem beginDrain_verdict (n : Fin 8) (s : State) : (beginDrain n s).noise.verdict = s.noise.verdict :=
  verdict_of_kept (keeps_beginDrain (noise_kept s.noise).toKeptByEnds n s rfl)
@[simp] theorem stopJob_verdict (k : JobRef) (cause : Option (Nat × Nat)) (by_ : Option PktRef) (s : State) :
    (stopJob k cause by_ s).noise.verdict = s.noise.verdict :=
  verdict_of_kept (keeps_stopJob (noise_kept s.noise).toKeptByEnds k cause by_ s rfl)
@[simp] theorem jobError_verdict (k : JobRef) (e : Err) (site : Site) (s : State) :
    (jobError k e site s).noise.verdict = s.noise.verdict :=
  verdict_of_kept (keeps_jobError (noise_kept s.noise).toKeptByEnds k e site s rfl)
@[simp] theorem endDeferred_verdict (k : JobRef) (st : EState) (s : State) :
    (endDeferred k st s).noise.verdict = s.noise.verdict :=
  verdict_of_kept (keeps_endDeferred (noise_kept s.noise).toKeptByEnds k st s rfl)
@[simp] theorem completeJob_verdict (k : JobRef) (status : Nat) (s : State) :
    (completeJob k status s).noise.verdict = s.noise.verdict :=
  verdict_of_kept (keeps_completeJob (noise_kept s.noise).toKeptByEnds k status s rfl)
@[simp] theorem settle_verdict (n : Fin 8) (s : State) : (settle n s).noise.verdict = s.noise.verdict :=
  verdict_of_kept (keeps_settle (noise_kept s.noise).toKeptByEnds n s rfl)
@[simp] theorem settleMaint_verdict (s : State) : (settleMaint s).noise.verdict = s.noise.verdict :=
  verdict_of_kept (keeps_settleMaint (noise_kept s.noise).toKeptByEnds  s rfl)
@[simp] theorem settleQueue_verdict (i : Fin 33) (s : State) : (settleQueue i s).noise.verdict = s.noise.verdict :=
  verdict_of_kept (keeps_settleQueue (noise_kept s.noise).toKeptByEnds i s rfl)

@[simp] theorem finish_verdict (i : Fin 33) (pos : W32) (status : Nat) (s : State) :
    (finish i pos status s).noise.verdict = s.noise.verdict :=
  verdict_of_kept (keeps_finish (noise_kept s.noise).toKeptByEnds i pos status s rfl)

/-! ### What the operations and commands of Machine/Access.lean leave -/

@[simp] theorem missRead_verdict (w : View) (s : State) : (missRead w s).noise.verdict = s.noise.verdict := by
  simp [missRead]

@[simp] theorem sendTlp_verdict (c : Fin 9) (write : Bool) (s : State) :
    (sendTlp c write s).noise.verdict = s.noise.verdict := by simp [sendTlp]

/-! ### What the operations and commands of Machine/Halyard.lean leave -/

@[simp] theorem armOutput_verdict (writer : Owner) (n : Fin 8) (a : ArmReq) (s : State) :
    (armOutput writer n a s).noise.verdict = s.noise.verdict := by simp [armOutput]
@[simp] theorem execOutEnableWrite_verdict (v : W32) (s : State) : KeepsVerdict s (execOutEnableWrite v s) := by
  simp [execOutEnableWrite]
@[simp] theorem execArm_verdict (w : View) (n : Fin 8) (alsoDisarm : Bool) (s : State) :
    KeepsVerdict s (execArm w n alsoDisarm s) := by simp [execArm]
@[simp] theorem execDisarm_verdict (w : View) (n : Fin 8) (s : State) : KeepsVerdict s (execDisarm w n s) := by
  simp [execDisarm]

@[simp] theorem execPulseRise_verdict (n : Fin 8) (s : State) : KeepsVerdict s (execPulseRise n s) := by
  simp only [execPulseRise]
  repeat' split
  all_goals simp

@[simp] theorem execPulseFall_verdict (n : Fin 8) (s : State) : KeepsVerdict s (execPulseFall n s) := by
  unfold execPulseFall; split <;> simp

@[simp] theorem execStrobeEndEdge_verdict (n : Fin 8) (input : Fin 4) (rising : Bool) (ago cclk held delay : Nat)
    (s : State)
   :
    KeepsVerdict s (execStrobeEndEdge n input rising ago cclk held delay s) := by
  simp only [execStrobeEndEdge]
  repeat' split
  all_goals simp

@[simp] theorem execOutOwnerWrite_verdict (v : W32) (s : State) : KeepsVerdict s (execOutOwnerWrite v s) := by
  simp -implicitDefEqProofs [execOutOwnerWrite]
@[simp] theorem execInOwnerWrite_verdict (v : W32) (cclk : Nat) (s : State) :
    KeepsVerdict s (execInOwnerWrite v cclk s) := by
  simp -implicitDefEqProofs [execInOwnerWrite]
@[simp] theorem execHalyInCfgWrite_verdict (w : View) (n : Fin 4) (v : W32) (s : State) :
    KeepsVerdict s (execHalyInCfgWrite w n v s) := by simp [execHalyInCfgWrite]

@[simp] theorem execInputEdge_verdict (n : Fin 4) (rising : Bool) (ago cclk held : Nat) (s : State) :
    KeepsVerdict s (execInputEdge n rising ago cclk held s) := by
  simp only [execInputEdge]
  repeat' split
  all_goals simp

@[simp] theorem execTimestampPop_verdict (w : View) (n : Fin 4) (wide : Bool) (s : State) :
    KeepsVerdict s (execTimestampPop w n wide s) := by
  simp only [execTimestampPop]
  repeat' split
  all_goals simp

/-! ### What the operations and commands of Machine/Tiles.lean leave -/

@[simp] theorem localWrite_verdict (e : Eng) (a : Nat) (data : List Byte) (s : State) :
    (localWrite e a data s).noise.verdict = s.noise.verdict :=
  verdict_of_kept (keeps_localWrite (noise_kept s.noise) e a data s rfl)
@[simp] theorem modQueueOf_verdict (e : Eng) (f : List Desc → List Desc) (s : State) :
    (modQueueOf e f s).noise.verdict = s.noise.verdict := by
  unfold modQueueOf; split <;> simp
@[simp] theorem scrubUnit_verdict (e : Eng) (s : State) : (scrubUnit e s).noise.verdict = s.noise.verdict :=
  verdict_of_kept (keeps_scrubUnit (noise_kept s.noise) e s rfl)

@[simp] theorem reloadUnit_verdict (e : Eng) (s : State) : (reloadUnit e s).noise.verdict = s.noise.verdict :=
  verdict_of_kept (keeps_reloadUnit (noise_kept s.noise) e s rfl)

/-! ### What the operations and commands of Machine/Router.lean leave -/

@[simp] theorem modLink_verdict (l : Fin 768) (f : Link → Link) (s : State) :
    (modLink l f s).noise.verdict = s.noise.verdict := by simp [modLink]

@[simp] theorem serveHeld_verdict (x y : Nat) (s : State) : (serveHeld x y s).noise.verdict = s.noise.verdict :=
  verdict_of_kept (keeps_serveHeld (noise_kept s.noise) x y s rfl)

/-! ### What the operations and commands of Machine/Recovery.lean leave -/

@[simp] theorem writeDst_verdict (e : Eng) (n : Fin 8) (d : Dst) (b : List Byte) (s : State) :
    (writeDst e n d b s).1.noise.verdict = s.noise.verdict :=
  verdict_of_kept (keeps_writeDst (noise_kept s.noise) e n d b s rfl)
@[simp] theorem undefDst_verdict (e : Eng) (n : Fin 8) (d : Dst) (len : Nat) (s : State) :
    (undefDst e n d len s).noise.verdict = s.noise.verdict :=
  verdict_of_kept (keeps_undefDst (noise_kept s.noise) e n d len s rfl)
@[simp] theorem endTicking_verdict (n : Fin 8) (s : State) : (endTicking n s).noise.verdict = s.noise.verdict :=
  verdict_of_kept (keeps_endTicking (noise_kept s.noise) n s rfl)
@[simp] theorem dropMerge_verdict (n : Fin 8) (s : State) : (dropMerge n s).noise.verdict = s.noise.verdict :=
  verdict_of_kept (keeps_dropMerge (noise_kept s.noise) n s rfl)
@[simp] theorem scrubAll_verdict (es : List Eng) (s : State) : (scrubAll es s).noise.verdict = s.noise.verdict :=
  verdict_of_kept (keeps_scrubAll (noise_kept s.noise) es s rfl)
@[simp] theorem killJob_verdict (k : JobRef) (scrub : Bool) (s : State) :
    (killJob k scrub s).noise.verdict = s.noise.verdict :=
  verdict_of_kept (keeps_killJob (noise_kept s.noise) k scrub s rfl)
@[simp] theorem killWith_verdict (k : JobRef) (scrub : Bool) (status : Nat) (s : State) :
    (killWith k scrub status s).noise.verdict = s.noise.verdict :=
  verdict_of_kept (keeps_killWith (noise_kept s.noise) k scrub status s rfl)
@[simp] theorem setTdi_verdict (n : Fin 8) (t : Tdi) (s : State) : (setTdi n t s).noise.verdict = s.noise.verdict :=
  verdict_of_kept (keeps_setTdi (noise_kept s.noise) n t s rfl)
@[simp] theorem tdiError_verdict (n : Fin 8) (s : State) : (tdiError n s).noise.verdict = s.noise.verdict :=
  verdict_of_kept (keeps_tdiError (noise_kept s.noise) n s rfl)
@[simp] theorem failMaint_verdict (op : Nat) (n : Fin 8) (status : Nat) (s : State) :
    (failMaint op n status s).noise.verdict = s.noise.verdict :=
  verdict_of_kept (keeps_failMaint (noise_kept s.noise) op n status s rfl)
@[simp] theorem ownSave_verdict (n : Fin 8) (o : Nat) (s : State) : (ownSave n o s).noise.verdict = s.noise.verdict :=
  verdict_of_kept (keeps_ownSave (noise_kept s.noise) n o s rfl)
@[simp] theorem lapseOffer_verdict (n : Fin 8) (s : State) : (lapseOffer n s).noise.verdict = s.noise.verdict := by
  simp [lapseOffer]
@[simp] theorem regionError_verdict (n : Fin 8) (e : Err) (site : Site) (own : Option (JobRef × Nat)) (s : State) :
    (regionError n e site own s).noise.verdict = s.noise.verdict :=
  verdict_of_kept (keeps_regionError (noise_kept s.noise) n e site own s rfl)
@[simp] theorem noteFault_verdict (n : Fin 8) (f : Nat × Nat) (site : Site) (s : State) :
    (noteFault n f site s).noise.verdict = s.noise.verdict :=
  verdict_of_kept (keeps_noteFault (noise_kept s.noise) n f site s rfl)
@[simp] theorem noteIf_verdict (c : Fin 9) (f : MemFault) (site : Site) (s : State) :
    (noteIf c f site s).noise.verdict = s.noise.verdict :=
  verdict_of_kept (keeps_noteIf (noise_kept s.noise) c f site s rfl)
@[simp] theorem memError_verdict (k : JobRef) (f : Nat × Nat) (site : Site) (s : State) :
    (memError k f site s).noise.verdict = s.noise.verdict :=
  verdict_of_kept (keeps_memError (noise_kept s.noise) k f site s rfl)
@[simp] theorem mapLinks_verdict (r : Region) (f : Link → Link) (s : State) :
    (mapLinks r f s).noise.verdict = s.noise.verdict := by simp [mapLinks]
@[simp] theorem clearBuffers_verdict (n : Fin 8) (s : State) : (clearBuffers n s).noise.verdict = s.noise.verdict :=
  verdict_of_kept (keeps_clearBuffers (noise_kept s.noise) n s rfl)
@[simp] theorem returnPe_verdict (e : Fin 4) (s : State) : (returnPe e s).noise.verdict = s.noise.verdict :=
  verdict_of_kept (keeps_returnPe (noise_kept s.noise) e s rfl)
@[simp] theorem clearUnit_verdict (e : Eng) (s : State) : (clearUnit e s).noise.verdict = s.noise.verdict :=
  verdict_of_kept (keeps_clearUnit (noise_kept s.noise) e s rfl)
@[simp] theorem freeRegion_verdict (n : Fin 8) (s : State) : (freeRegion n s).noise.verdict = s.noise.verdict :=
  verdict_of_kept (keeps_freeRegion (noise_kept s.noise) n s rfl)
@[simp] theorem beginTeardown_verdict (n : Fin 8) (s : State) : (beginTeardown n s).noise.verdict = s.noise.verdict :=
  verdict_of_kept (keeps_beginTeardown (noise_kept s.noise) n s rfl)
@[simp] theorem creationFails_verdict (n : Fin 8) (status : Nat) (s : State) :
    (creationFails n status s).noise.verdict = s.noise.verdict :=
  verdict_of_kept (keeps_creationFails (noise_kept s.noise) n status s rfl)

@[simp] theorem endByDevice_verdict (e : Err) (j : Job) (s : State) :
    (endByDevice e j s).noise.verdict = s.noise.verdict := by
  simp only [endByDevice]
  repeat' split
  all_goals simp

@[simp] theorem settleAll_verdict (s : State) : (settleAll s).noise.verdict = s.noise.verdict :=
  verdict_of_kept (keeps_settleAll (noise_kept s.noise)  s rfl)
@[simp] theorem deviceError_verdict (e : Err) (site : Site) (region stack : Nat) (s : State) :
    (deviceError e site region stack s).noise.verdict = s.noise.verdict :=
  verdict_of_kept (keeps_deviceError (noise_kept s.noise) e site region stack s rfl)
theorem noiseFail_of_failed (cause src : Nat) (s : State) (h : s.noise.state = .failed) : noiseFail cause src s = s :=
  if_pos h

@[simp] theorem withdraw_verdict (cause : Nat) (warned : Bool) (site : Site) (affected : List (Fin 8)) (s : State) :
    (withdraw cause warned site affected s).noise.verdict = s.noise.verdict :=
  verdict_of_kept (keeps_withdraw (noise_kept s.noise) cause warned site affected s rfl)

/-! ### What the operations and commands of Machine/Noise.lean leave -/

@[simp] theorem reseed_verdict (d : Drbg) (s : State) : (reseed d s).noise.verdict = s.noise.verdict := rfl
@[simp] theorem reseedBetween_verdict (s : State) : (reseedBetween s).noise.verdict = s.noise.verdict := by
  unfold reseedBetween; split <;> simp
@[simp] theorem drbgDraw_verdict (s : State) : (drbgDraw s).2.noise.verdict = s.noise.verdict := by
  simp only [drbgDraw]
  split <;> exact reseedBetween_verdict s

@[simp] theorem drbgDraws_verdict (k : Nat) (s : State) : (drbgDraws k s).2.noise.verdict = s.noise.verdict := by
  induction k generalizing s with
  | zero => rfl
  | succ k ih => exact (ih _).trans (drbgDraw_verdict s)

@[simp] theorem drawXts_verdict (s : State) : (drawXts s).2.noise.verdict = s.noise.verdict := by
  simp only [drawXts]
  repeat' split
  all_goals simp

@[simp] theorem modSource_verdict (i : Fin 16) (f : Source → Source) (s : State) :
    (modSource i f s).noise.verdict = s.noise.verdict := rfl
@[simp] theorem execRawSample_verdict (src : Fin 16) (b : Bool) (s : State) :
    KeepsVerdict s (execRawSample src b s) := by
  simp [execRawSample]

theorem execRepetitionCountFail_verdict (src : Fin 16) (s : State) (h : s.noise.state = .failed) :
    KeepsVerdict s (execRepetitionCountFail src s) := by
  simp only [execRepetitionCountFail]
  split
  · rw [noiseFail_of_failed _ _ _ (by exact h)]; rfl
  · rfl

theorem execAdaptiveWindowEnd_verdict (src : Fin 16) (s : State) (h : s.noise.state = .failed) :
    KeepsVerdict s (execAdaptiveWindowEnd src s) := by
  simp only [execAdaptiveWindowEnd]
  split
  · rw [noiseFail_of_failed _ _ _ (by exact h)]
    split
    · rfl
    · split <;> rfl
  · rfl

@[simp] theorem execConditionedBlock_verdict (s : State) : KeepsVerdict s (execConditionedBlock s) := by
  unfold execConditionedBlock
  split <;> rfl
theorem execDrbgInstantiate_verdict (drbgKat : Bool) (s : State) (h : s.noise.state = .failed) :
    KeepsVerdict s (execDrbgInstantiate drbgKat s) := by
  simp [execDrbgInstantiate, h]

theorem execDrbgReseed_verdict (drbgKat : Bool) (s : State) (h : s.noise.state = .failed) :
    KeepsVerdict s (execDrbgReseed drbgKat s) := by
  unfold execDrbgReseed
  split <;> simp [noiseFail_of_failed _ _ s h]

@[simp] theorem execDrbgGenerate_verdict (r : Fin 8) (s : State) : KeepsVerdict s (execDrbgGenerate r s) := by
  simp [execDrbgGenerate]

@[simp] theorem execFreshKeyStaged_verdict (r : Fin 8) (s : State) : KeepsVerdict s (execFreshKeyStaged r s) := by
  unfold execFreshKeyStaged
  split <;> simp -implicitDefEqProofs

/-! ### What the operations and commands of Machine/Mesh.lean leave -/

@[simp] theorem admitFlit_verdict (l : Fin 768) (tag : Nat) (ecc : Ecc) (s : State) :
    (admitFlit l tag ecc s).2.noise.verdict = s.noise.verdict := by
  simp only [admitFlit]
  repeat' split
  all_goals simp

@[simp] theorem pushVc0_verdict (p : Nat × Nat) (fs : List Vc0Flit) (s : State) :
    (pushVc0 p fs s).noise.verdict = s.noise.verdict := by simp [pushVc0]

@[simp] theorem takeVc0_verdict (x y src : Nat) (f : Vc0Flit) (s : State) :
    (takeVc0 x y src f s).noise.verdict = s.noise.verdict := by
  simp only [takeVc0]
  repeat' split
  all_goals simp

@[simp] theorem endPart_verdict (n : Fin 8) (id : Nat) (dropped : Bool) (s : State) :
    (endPart n id dropped s).noise.verdict = s.noise.verdict := by simp [endPart]

@[simp] theorem deliverVc0_verdict (n : Fin 8) (x y : Nat) (load : Vc0Load) (s : State) :
    (deliverVc0 n x y load s).noise.verdict = s.noise.verdict := by
  simp only [deliverVc0]
  repeat' split
  all_goals simp [stageEmit, stageBlock, storeFields]

@[simp] theorem overflowVc0_verdict (l : Fin 768) (n : Fin 8) (s : State) :
    (overflowVc0 l n s).noise.verdict = s.noise.verdict := by
  simp only [overflowVc0]
  repeat' split
  all_goals simp

@[simp] theorem execVc0FlitArrival_verdict (d : LinkDir) (f : Vc0Arrival) (ecc : Ecc) (s : State) :
    KeepsVerdict s (execVc0FlitArrival d f ecc s) := by
  simp only [execVc0FlitArrival]
  repeat' split
  all_goals simp [arriveVc0]

@[simp] theorem takePacket_verdict (x y : Nat) (i : Fin 5) (p : MeshPacket) (s : State) :
    (takePacket x y i p s).noise.verdict = s.noise.verdict := by
  unfold takePacket; split <;> simp

@[simp] theorem execMeshPacketArrival_verdict (d : LinkDir) (own : Option MeshPacket) (ecc : Ecc) (s : State) :
    KeepsVerdict s (execMeshPacketArrival d own ecc s) := by
  simp only [execMeshPacketArrival]
  repeat' split
  all_goals simp

@[simp] theorem landRim_verdict (f : RimFlit) (s : State) : (landRim f s).noise.verdict = s.noise.verdict := by
  simp only [landRim]
  repeat' split
  all_goals simp

/-- A flit that enters the Rim leaves what noise has come to, as one that finds no room does. -/

@[simp] theorem enterRim_verdict (p : Fin 24) (f : RimFlit) (s u : State) (hu : u.noise.verdict = s.noise.verdict) :
    ((enterRim p f s).getD u).noise.verdict = s.noise.verdict := by
  simp only [enterRim]
  split
  · simp
  · split <;> simp [hu]

@[simp] theorem emitRim_verdict (r : Fin 8) (p : Fin 24) (s : State) :
    (emitRim r p s).noise.verdict = s.noise.verdict := by
  simp only [emitRim]
  split
  · rfl
  · split
    · split <;> simp
    · simp

@[simp] theorem crossRim_verdict (seg : Fin 24) (ccw : Bool) (lane : Fin 4) (slot : Nat) (ecc : Ecc) (s : State) :
    (crossRim seg ccw lane slot ecc s).noise.verdict = s.noise.verdict := by
  simp only [crossRim]
  repeat' split
  all_goals simp

@[simp] theorem execRimFlitArrival_verdict (m : RimMove) (ecc : Ecc) (s : State) :
    KeepsVerdict s (execRimFlitArrival m ecc s) := by
  unfold execRimFlitArrival
  split <;> simp

/-! ### What the operations and commands of Machine/Herd.lean leave -/

@[simp] theorem jobWrite_verdict (k : JobRef) (e : Eng) (a : Nat) (data : List Byte) (s : State) :
    (jobWrite k e a data s).noise.verdict = s.noise.verdict := by
  simp only [jobWrite]
  repeat' split
  all_goals simp

@[simp] theorem jobRead_verdict (k : JobRef) (e : Eng) (a n : Nat) (s : State) :
    (jobRead k e a n s).2.noise.verdict = s.noise.verdict := by
  simp only [jobRead]
  repeat' split
  all_goals simp

@[simp] theorem sendClass_verdict (n : Fin 8) (h : Fin 64) (c : Nat) (s : State) :
    (sendClass n h c s).noise.verdict = s.noise.verdict := by
  simp only [sendClass]
  repeat' split
  all_goals simp

@[simp] theorem sendPayload_verdict (n : Fin 8) (base : Nat) (masked : Bool) (parts : List
    (Fin 64 × Nat × List Byte)) (s : State)
   :
    (sendPayload n base masked parts s).2.noise.verdict = s.noise.verdict := by simp [sendPayload]

@[simp] theorem endWrite_verdict (n : Fin 8) (id : Nat) (s : State) :
    (endWrite n id s).noise.verdict = s.noise.verdict := by
  simp [endWrite]

@[simp] theorem emptyIndexes_verdict (n : Fin 8) (s : State) :
    (emptyIndexes n s).noise.verdict = s.noise.verdict := by
  unfold emptyIndexes
  split
  · rfl
  · exact forEach_verdict _ _ _ fun _ _ => rfl

@[simp] theorem initHerd_verdict (n : Fin 8) (k : JobRef) (h : Fin 64) (s : State) :
    (initHerd n k h s).noise.verdict = s.noise.verdict := by simp [initHerd]
@[simp] theorem swapBanks_verdict (n : Fin 8) (s : State) : (swapBanks n s).noise.verdict = s.noise.verdict := by
  simp [swapBanks]
@[simp] theorem startKeys_verdict (n : Fin 8) (pkt : List Byte) (s : State) :
    (startKeys n pkt s).noise.verdict = s.noise.verdict := by
  simp -implicitDefEqProofs [startKeys]

@[simp] theorem startTicking_verdict (n : Fin 8) (j : Job) (s : State) :
    (startTicking n j s).noise.verdict = s.noise.verdict := by
  simp only [startTicking]
  split <;> simp -implicitDefEqProofs

@[simp] theorem lateRepeatKey_verdict (n : Fin 8) (pkt : List Byte) (s : State) :
    (lateRepeatKey n pkt s).noise.verdict = s.noise.verdict := by
  simp -implicitDefEqProofs [lateRepeatKey]
@[simp] theorem takeKeys_verdict (n : Fin 8) (jt : Nat) (s : State) :
    (takeKeys n jt s).noise.verdict = s.noise.verdict := by
  simp -implicitDefEqProofs [takeKeys]
@[simp] theorem resetOnSwap_verdict (n : Fin 8) (s : State) : (resetOnSwap n s).noise.verdict = s.noise.verdict := by
  simp [resetOnSwap]
@[simp] theorem takeSwaps_verdict (n : Fin 8) (due : List (Fin 64)) (s : State) :
    (takeSwaps n due s).noise.verdict = s.noise.verdict := by
  simp -implicitDefEqProofs [takeSwaps]
@[simp] theorem beginSweep_verdict (n : Fin 8) (s : State) : (beginSweep n s).noise.verdict = s.noise.verdict := by
  simp -implicitDefEqProofs [beginSweep]
@[simp] theorem runClass_verdict (n : Fin 8) (h : Fin 64) (c : Nat) (s : State) :
    (runClass n h c s).noise.verdict = s.noise.verdict := by
  unfold runClass; split <;> simp

@[simp] theorem execSweepStart_verdict (h : Fin 64) (s : State) : KeepsVerdict s (execSweepStart h s) := by
  simp only [execSweepStart]
  repeat' split
  all_goals simp [startTile, openSweep]

@[simp] theorem execClassBegin_verdict (h : Fin 64) (s : State) : KeepsVerdict s (execClassBegin h s) := by
  unfold execClassBegin; split <;> simp
@[simp] theorem execSweepDone_verdict (h : Fin 64) (cclk : Nat) (s : State) :
    KeepsVerdict s (execSweepDone h cclk s) := by
  simp [execSweepDone]

@[simp] theorem emitChain_verdict (j : Job) (g t w : Nat) (late skip : Bool) (s : State) :
    (emitChain j g t w late skip s).noise.verdict = s.noise.verdict := by
  simp only [emitChain]
  repeat' split
  all_goals simp

@[simp] theorem emission_verdict (j : Job) (gs : List Nat) (w : Nat) (late skip : Bool) (s : State) :
    (emission j gs w late skip s).noise.verdict = s.noise.verdict := by
  simp -implicitDefEqProofs [emission]

@[simp] theorem execHeaderWrite_verdict (r : Fin 8) (chain : Nat) (s : State) :
    KeepsVerdict s (execHeaderWrite r chain s) := by
  simp only [execHeaderWrite]
  repeat' split
  all_goals simp

@[simp] theorem modChain_verdict (n : Fin 8) (g : Nat) (f : Chain → Chain) (s : State) :
    (modChain n g f s).noise.verdict = s.noise.verdict := by simp [modChain]

@[simp] theorem offerState_verdict (j : Job) (g w : Nat) (hd : Part) (ps : List Part) (c : Chain) (s : State) :
    (offerState j g w hd ps c s).noise.verdict = s.noise.verdict := by
  simp only [offerState]
  repeat' split
  all_goals simp [maskedWrite]

@[simp] theorem updateChain_verdict (j : Job) (w g : Nat) (s : State) :
    (updateChain j w g s).noise.verdict = s.noise.verdict := by
  simp only [updateChain]
  repeat' split
  all_goals simp

@[simp] theorem execReservoirWriteDone_verdict (r : Fin 8) (chain slot : Nat) (s : State) :
    KeepsVerdict s (execReservoirWriteDone r chain slot s) := by
  simp only [execReservoirWriteDone]
  repeat' split
  all_goals simp

@[simp] theorem sweepPasses_verdict (n : Fin 8) (j : Job) (s : State) :
    (sweepPasses n j s).noise.verdict = s.noise.verdict := by
  simp -implicitDefEqProofs [sweepPasses]
@[simp] theorem execOverrunTest_verdict (r : Fin 8) (s : State) : KeepsVerdict s (execOverrunTest r s) := by
  unfold execOverrunTest; split <;> simp [sweepOverruns]
@[simp] theorem swapEvidence_verdict (n : Fin 8) (s : State) :
    (swapEvidence n s).noise.verdict = s.noise.verdict := by
  simp -implicitDefEqProofs [swapEvidence]
@[simp] theorem enterTick_verdict (n : Fin 8) (s : State) : (enterTick n s).noise.verdict = s.noise.verdict := by
  simp -implicitDefEqProofs [enterTick]

@[simp] theorem endNormally_verdict (n : Fin 8) (j : Job) (s : State) :
    (endNormally n j s).noise.verdict = s.noise.verdict := by
  simp only [endNormally]
  repeat' split
  all_goals simp

@[simp] theorem execTickingEnd_verdict (r : Fin 8) (s : State) : KeepsVerdict s (execTickingEnd r s) := by
  unfold execTickingEnd; split <;> simp
@[simp] theorem execMergeStart_verdict (r : Fin 8) (s : State) : KeepsVerdict s (execMergeStart r s) := by
  unfold execMergeStart; split <;> simp

@[simp] theorem execMergeComplete_verdict (r : Fin 8) (s : State) : KeepsVerdict s (execMergeComplete r s) := by
  unfold execMergeComplete; split <;> simp [mergeOutput]

/-! ### What the operations and commands of Machine/Plan.lean leave -/

@[simp] theorem writeImage_verdict (n : Fin 8) (i : Image) (s : State) :
    (writeImage n i s).noise.verdict = s.noise.verdict := by
  simp -implicitDefEqProofs [writeImage]

/-! ### What the operations and commands of Machine/Regions.lean leave -/

@[simp] theorem maintCommand_verdict (op : Nat) (act : Pkt → State → State) (s : State)
    (hact : ∀ a (u : State), (act a u).noise.verdict = u.noise.verdict) :
    KeepsVerdict s (maintCommand op act s) := by
  unfold maintCommand
  split
  · rfl
  · split
    · rfl
    · split <;> simp [hact]

@[simp] theorem maintDone_verdict (p : Pkt) (status : Nat) (s : State) :
    (maintDone p status s).noise.verdict = s.noise.verdict := by simp [maintDone]
@[simp] theorem maintStart_verdict (p : Pkt) (s : State) : (maintStart p s).noise.verdict = s.noise.verdict := by
  simp [maintStart]
@[simp] theorem freshRegion_verdict (n : Fin 8) (s : State) : (freshRegion n s).noise.verdict = s.noise.verdict := by
  simp only [freshRegion]
  exact forEach_verdict _ _ _ fun e s => by cases e <;> rfl
@[simp] theorem startCreate_verdict (c : Create) (s : State) : (startCreate c s).noise.verdict = s.noise.verdict := by
  simp [startCreate, claimFrames]
@[simp] theorem openMemory_verdict (n : Fin 8) (s : State) : (openMemory n s).noise.verdict = s.noise.verdict := by
  simp [openMemory]

theorem assignCore_verdict (n : Fin 8) (s t : State) (h : assignCore n s = some t) :
    t.noise.verdict = s.noise.verdict := by
  simp only [assignCore] at h
  split at h
  · cases h
  · cases h; rfl

@[simp] theorem discardQueues_verdict (n : Fin 8) (s : State) :
    (discardQueues n s).noise.verdict = s.noise.verdict := by
  simp -implicitDefEqProofs [discardQueues]
@[simp] theorem startDestroy_verdict (n : Fin 8) (s : State) :
    (startDestroy n s).noise.verdict = s.noise.verdict := by
  simp [startDestroy]
@[simp] theorem startFlr_verdict (n : Fin 8) (s : State) : (startFlr n s).noise.verdict = s.noise.verdict := by
  simp [startFlr]
@[simp] theorem execRegionCreate_verdict (s : State) : KeepsVerdict s (execRegionCreate s) := by
  exact maintCommand_verdict _ _ _ fun p s => by dsimp only; split <;> simp
@[simp] theorem creationDone_verdict (n : Fin 8) (s : State) :
    (creationDone n s).noise.verdict = s.noise.verdict := by
  simp [creationDone]

@[simp] theorem execCreationComplete_verdict (r : Fin 8) (s : State) : KeepsVerdict s (execCreationComplete r s) := by
  simp only [execCreationComplete]
  split
  · split
    · simp
    · rename_i _ u hu
      simpa using assignCore_verdict _ _ u hu
  · rfl

@[simp] theorem execRegionDestroy_verdict (s : State) : KeepsVerdict s (execRegionDestroy s) := by
  simp [execRegionDestroy]

@[simp] theorem execDestroyComplete_verdict (r : Fin 8) (s : State) : KeepsVerdict s (execDestroyComplete r s) := by
  simp only [execDestroyComplete]
  repeat' split
  all_goals simp

/-! ### What the operations and commands of Machine/Queues.lean leave -/

@[simp] theorem execDoorbell_verdict (w : View) (i : Fin 33) (data : W64) (stores : List (Nat × Byte)) (s : State) :
    KeepsVerdict s (execDoorbell w i data stores s) := by simp [execDoorbell]
@[simp] theorem execCconsWrite_verdict (w : View) (i : Fin 33) (v : W32) (s : State) :
    KeepsVerdict s (execCconsWrite w i v s) := by simp [execCconsWrite]
@[simp] theorem execQueueEnable_verdict (w : View) (i : Fin 33) (v : W32) (s : State) :
    KeepsVerdict s (execQueueEnable w i v s) := by simp [execQueueEnable]
@[simp] theorem execQueueDisable_verdict (w : View) (i : Fin 33) (v : W32) (s : State) :
    KeepsVerdict s (execQueueDisable w i v s) := by simp [execQueueDisable]
@[simp] theorem execPacketFetch_verdict (i : Fin 33) (s : State) : KeepsVerdict s (execPacketFetch i s) := by
  simp [execPacketFetch]

@[simp] theorem packetCommand_verdict (i : Fin 33) (op : Nat) (act : Pkt → State → State) (s : State)
    (hact : ∀ a (u : State), (act a u).noise.verdict = u.noise.verdict) :
    KeepsVerdict s (packetCommand i op act s) := by
  unfold packetCommand
  split
  · rfl
  · split
    · rfl
    · split <;> simp [hact]

@[simp] theorem done_verdict (i : Fin 33) (p : Pkt) (status : Nat) (s : State) :
    (done i p status s).noise.verdict = s.noise.verdict := by simp [done]
@[simp] theorem started_verdict (i : Fin 33) (p : Pkt) (s : State) :
    (started i p s).noise.verdict = s.noise.verdict := by
  simp [started]
@[simp] theorem execNop_verdict (i : Fin 33) (s : State) : KeepsVerdict s (execNop i s) := by simp [execNop]
@[simp] theorem execFenceSignal_verdict (i : Fin 33) (s : State) : KeepsVerdict s (execFenceSignal i s) := by
  simp [execFenceSignal]
@[simp] theorem execFenceWait_verdict (i : Fin 33) (s : State) : KeepsVerdict s (execFenceWait i s) := by
  simp [execFenceWait]
@[simp] theorem execEventRecord_verdict (i : Fin 33) (s : State) : KeepsVerdict s (execEventRecord i s) := by
  simp [execEventRecord]
@[simp] theorem execEventWait_verdict (i : Fin 33) (s : State) : KeepsVerdict s (execEventWait i s) := by
  simp [execEventWait]
@[simp] theorem execQuery_verdict (i : Fin 33) (s : State) : KeepsVerdict s (execQuery i s) := by simp [execQuery]
@[simp] theorem markPacket_verdict (n : Fin 8) (q : Fin 4) (pos : W32) (s : State) :
    (markPacket n q pos s).noise.verdict = s.noise.verdict := by simp [markPacket]

@[simp] theorem cancelJob_verdict (k : JobRef) (by_ : PktRef) (s : State) :
    (cancelJob k by_ s).noise.verdict = s.noise.verdict := by
  simp only [cancelJob]
  repeat' split
  all_goals simp

@[simp] theorem execCancel_verdict (i : Fin 33) (s : State) : KeepsVerdict s (execCancel i s) := by
  exact packetCommand_verdict _ _ _ _ fun p s => by dsimp only; split <;> simp
@[simp] theorem execTickConfig_verdict (s : State) : KeepsVerdict s (execTickConfig s) := by simp [execTickConfig]

/-! ### What the operations and commands of Machine/RunProg.lean leave -/

@[simp] theorem execRun_verdict (i : Fin 33) (s : State) : KeepsVerdict s (execRun i s) := by
  simp only [execRun]
  repeat' split
  all_goals simp

@[simp] theorem startAttempt_verdict (k : JobRef) (s : State) :
    (startAttempt k s).noise.verdict = s.noise.verdict := by
  unfold startAttempt; split <;> simp

@[simp] theorem execJobStart_verdict (r : Fin 8) (q : Fin 4) (s : State) : KeepsVerdict s (execJobStart r q s) := by
  simp only [execJobStart]
  repeat' split
  all_goals simp [startJob]

@[simp] theorem cpFault_verdict (k : JobRef) (f : Nat × Nat) (s : State) :
    (cpFault k f s).noise.verdict = s.noise.verdict := by simp [cpFault]
@[simp] theorem operandFault_verdict (k : JobRef) (f : MemFault) (s : State) :
    (operandFault k f s).noise.verdict = s.noise.verdict := by
  unfold operandFault; split <;> simp

@[simp] theorem wordCommand_verdict (n : Fin 8) (q : Fin 4) (is : Word → Bool) (act : Job → Word → State → State)
    (s : State)
    (hact : ∀ a b (u : State), (act a b u).noise.verdict = u.noise.verdict) :
    KeepsVerdict s (wordCommand n q is act s) := by
  simp only [wordCommand]
  split
  · rfl
  · split
    · rfl
    · split <;> simp [hact]

@[simp] theorem withAddr_verdict (j : Job) (w : Word) (f : Nat → State → State) (s : State)
    (hf : ∀ a (u : State), (f a u).noise.verdict = u.noise.verdict) :
    (withAddr j w f s).noise.verdict = s.noise.verdict := by
  unfold withAddr
  split <;> simp [hf]

@[simp] theorem withValue_verdict (j : Job) (w : Word) (f : Nat → State → State) (s : State)
    (hf : ∀ a (u : State), (f a u).noise.verdict = u.noise.verdict) :
    (withValue j w f s).noise.verdict = s.noise.verdict := by
  unfold withValue
  split <;> simp [hf]

@[simp] theorem stepOn_verdict (k : JobRef) (s : State) : (stepOn k s).noise.verdict = s.noise.verdict := by
  simp [stepOn]
@[simp] theorem jumpTo_verdict (k : JobRef) (t : Nat) (s : State) :
    (jumpTo k t s).noise.verdict = s.noise.verdict := by
  simp [jumpTo]
@[simp] theorem waitFor_verdict (k : JobRef) (w : Wait) (s : State) :
    (waitFor k w s).noise.verdict = s.noise.verdict := by
  simp [waitFor]
@[simp] theorem endIfFailed_verdict (k : JobRef) (b : List Byte) (s : State) :
    (endIfFailed k b s).noise.verdict = s.noise.verdict := by
  unfold endIfFailed; split <;> simp
@[simp] theorem dispatchDesc_verdict (k : JobRef) (chain : Nat) (b : List Byte) (s : State) :
    (dispatchDesc k chain b s).noise.verdict = s.noise.verdict := by simp [dispatchDesc]

@[simp] theorem startChain_verdict (k : JobRef) (a : Nat) (s : State) :
    (startChain k a s).1.noise.verdict = s.noise.verdict := by
  simp only [startChain]
  repeat' split
  all_goals simp

@[simp] theorem execLaunch_verdict (r : Fin 8) (q : Fin 4) (s : State) : KeepsVerdict s (execLaunch r q s) := by
  exact wordCommand_verdict _ _ _ _ _ fun j w u => withAddr_verdict _ _ _ _ fun a s => by
    have h := startChain_verdict j.ref a s
    split <;> simp_all

@[simp] theorem execChainArm_verdict (r : Fin 8) (q : Fin 4) (s : State) : KeepsVerdict s (execChainArm r q s) := by
  simp [execChainArm]

@[simp] theorem execChainFire_verdict (r : Fin 8) (q : Fin 4) (k : Nat) (s : State) :
    KeepsVerdict s (execChainFire r q k s) := by
  simp only [execChainFire]
  repeat' split
  all_goals simp

@[simp] theorem execWaitEvent_verdict (r : Fin 8) (q : Fin 4) (s : State) : KeepsVerdict s (execWaitEvent r q s) := by
  simp [execWaitEvent]
@[simp] theorem execWaitFence_verdict (r : Fin 8) (q : Fin 4) (s : State) : KeepsVerdict s (execWaitFence r q s) := by
  simp [execWaitFence]
@[simp] theorem deferEffect_verdict (k : JobRef) (e : Effect) (s : State) :
    (deferEffect k e s).noise.verdict = s.noise.verdict := by simp [deferEffect]
@[simp] theorem execSignalFence_verdict (r : Fin 8) (q : Fin 4) (s : State) :
    KeepsVerdict s (execSignalFence r q s) := by
  simp [execSignalFence]
@[simp] theorem execSignalEvent_verdict (r : Fin 8) (q : Fin 4) (s : State) :
    KeepsVerdict s (execSignalEvent r q s) := by
  simp [execSignalEvent]

@[simp] theorem applyEffect_verdict (k : JobRef) (e : Effect) (s : State) :
    (applyEffect k e s).noise.verdict = s.noise.verdict := by
  simp only [applyEffect]
  repeat' split
  all_goals simp

@[simp] theorem execRecordPoint_verdict (r : Fin 8) (q : Fin 4) (s : State) :
    KeepsVerdict s (execRecordPoint r q s) := by
  simp only [execRecordPoint]
  repeat' split
  all_goals simp

@[simp] theorem execIfCmp_verdict (r : Fin 8) (q : Fin 4) (s : State) : KeepsVerdict s (execIfCmp r q s) := by
  refine wordCommand_verdict _ _ _ _ _ fun j w u => ?_
  dsimp only
  split
  · simp
  · exact withAddr_verdict _ _ _ _ fun a s => by split <;> [simp; (split <;> simp)]

@[simp] theorem execLoop_verdict (r : Fin 8) (q : Fin 4) (s : State) : KeepsVerdict s (execLoop r q s) := by
  simp [execLoop]
@[simp] theorem execJump_verdict (r : Fin 8) (q : Fin 4) (s : State) : KeepsVerdict s (execJump r q s) := by
  simp [execJump]
@[simp] theorem execLock_verdict (r : Fin 8) (q : Fin 4) (s : State) : KeepsVerdict s (execLock r q s) := by
  simp [execLock]
@[simp] theorem execUnlock_verdict (r : Fin 8) (q : Fin 4) (s : State) : KeepsVerdict s (execUnlock r q s) := by
  simp [execUnlock]
@[simp] theorem execPreload_verdict (r : Fin 8) (q : Fin 4) (s : State) : KeepsVerdict s (execPreload r q s) := by
  simp [execPreload]
@[simp] theorem execAtTickWait_verdict (r : Fin 8) (q : Fin 4) (s : State) : KeepsVerdict s
    (execAtTickWait r q s) := by
  simp [execAtTickWait]

@[simp] theorem execAtTickReached_verdict (r : Fin 8) (q : Fin 4) (s : State) :
    KeepsVerdict s (execAtTickReached r q s) := by
  simp only [execAtTickReached]
  repeat' split
  all_goals simp

@[simp] theorem execAtTickArm_verdict (r : Fin 8) (q : Fin 4) (s : State) : KeepsVerdict s (execAtTickArm r q s) := by
  refine wordCommand_verdict _ _ _ _ _ fun j w u => withValue_verdict _ _ _ _ fun v s => ?_
  dsimp only
  split
  · simp
  · simp

@[simp] theorem execEmitStore_verdict (r : Fin 8) (q : Fin 4) (s : State) : KeepsVerdict s (execEmitStore r q s) := by
  simp [execEmitStore]
@[simp] theorem execTickStop_verdict (r : Fin 8) (q : Fin 4) (s : State) : KeepsVerdict s (execTickStop r q s) := by
  simp [execTickStop]
@[simp] theorem mapPage_verdict (k : JobRef) (v pte : Nat) (s : State) :
    (mapPage k v pte s).noise.verdict = s.noise.verdict := by simp [mapPage]
@[simp] theorem mapFault_verdict (k : JobRef) (s : State) : (mapFault k s).noise.verdict = s.noise.verdict := by
  simp [mapFault]
@[simp] theorem execMapUnmap_verdict (r : Fin 8) (q : Fin 4) (s : State) : KeepsVerdict s (execMapUnmap r q s) := by
  simp [execMapUnmap]

@[simp] theorem execMapHbm_verdict (r : Fin 8) (q : Fin 4) (s : State) : KeepsVerdict s (execMapHbm r q s) := by
  refine wordCommand_verdict _ _ _ _ _ fun j w u => ?_
  dsimp only
  split <;> simp

@[simp] theorem execMapStore_verdict (r : Fin 8) (q : Fin 4) (s : State) : KeepsVerdict s (execMapStore r q s) := by
  simp [execMapStore]
@[simp] theorem execMapHost_verdict (r : Fin 8) (q : Fin 4) (s : State) : KeepsVerdict s (execMapHost r q s) := by
  simp [execMapHost]

@[simp] theorem execEndJob_verdict (r : Fin 8) (q : Fin 4) (s : State) : KeepsVerdict s (execEndJob r q s) := by
  exact wordCommand_verdict _ _ _ _ _ fun j w u => rfl

/-! ### What the operations and commands of Machine/Engines.lean leave -/

@[simp] theorem readNext_verdict (e : Eng) (d : Desc) (s : State) :
    (readNext e d s).2.noise.verdict = s.noise.verdict := by
  simp only [readNext]
  repeat' split
  all_goals simp

@[simp] theorem doneEvent_verdict (n : Fin 8) (e : Nat) (s : State) :
    (doneEvent n e s).noise.verdict = s.noise.verdict := by
  simp [doneEvent]

@[simp] theorem followChain_verdict (e : Eng) (d : Desc) (s : State) :
    (followChain e d s).noise.verdict = s.noise.verdict := by
  simp only [followChain]
  repeat' split
  all_goals simp [endChain]

@[simp] theorem completeDesc_verdict (e : Eng) (d : Desc) (s : State) :
    (completeDesc e d s).noise.verdict = s.noise.verdict := by simp [completeDesc]
@[simp] theorem descError_verdict (e : Eng) (d : Desc) (er : Err) (detail : Nat) (s : State) :
    (descError e d er detail s).noise.verdict = s.noise.verdict := by simp [descError]
@[simp] theorem descFault_verdict (e : Eng) (d : Desc) (f : Nat × Nat) (s : State) :
    (descFault e d f s).noise.verdict = s.noise.verdict := by simp [descFault]
@[simp] theorem endDesc_verdict (e : Eng) (d : Desc) (f : MemFault) (s : State) :
    (endDesc e d f s).noise.verdict = s.noise.verdict := by
  unfold endDesc; split <;> simp
@[simp] theorem useStamp_verdict (s : State) : (useStamp s).noise.verdict = s.noise.verdict := by simp [useStamp]
@[simp] theorem serveTile_verdict (e : Eng) (s : State) : (serveTile e s).noise.verdict = s.noise.verdict := by
  simp [serveTile]
@[simp] theorem takeQueued_verdict (e : Eng) (d : Desc) (s : State) :
    (takeQueued e d s).noise.verdict = s.noise.verdict := by
  simp [takeQueued, stampHead]
@[simp] theorem popQueue_verdict (e : Eng) (s : State) : (popQueue e s).noise.verdict = s.noise.verdict := by
  simp [popQueue]

@[simp] theorem execEngineDescriptorArrival_verdict (k : Nat) (s : State) :
    KeepsVerdict s (execEngineDescriptorArrival k s) := by
  simp only [execEngineDescriptorArrival]
  repeat' split
  all_goals simp

/-! ### What the operations and commands of Machine/Ibex.lean leave -/

@[simp] theorem putAcc_verdict (i : Fin 48) (d : Desc) (acc : List W32) (s : State) :
    (putAcc i d acc s).noise.verdict = s.noise.verdict := by simp [putAcc]

@[simp] theorem startIbex_verdict (i : Fin 48) (d : Desc) (s : State) :
    (startIbex i d s).noise.verdict = s.noise.verdict := by
  unfold startIbex
  extract_lets _ u
  split
  · simp [u]
  · split <;> simp +zetaDelta

@[simp] theorem execIbexOpStart_verdict (i : Fin 48) (s : State) : KeepsVerdict s (execIbexOpStart i s) := by
  unfold execIbexOpStart; split <;> simp

@[simp] theorem sendSums_verdict (i : Fin 48) (d : Desc) (acc : List W32) (s : State) :
    (sendSums i d acc s).noise.verdict = s.noise.verdict := by
  simp only [sendSums]
  repeat' split
  all_goals simp

@[simp] theorem execIbexOpComplete_verdict (i : Fin 48) (s : State) : KeepsVerdict s (execIbexOpComplete i s) := by
  unfold execIbexOpComplete; split <;> simp [finishIbex]

/-! ### What the operations and commands of Machine/Kernel.lean leave -/

@[simp] theorem runCham_verdict (c : Fin 48) (code : List RvStep) (s : State) :
    (runCham c code s).1.noise.verdict = s.noise.verdict := by simp [runCham]

@[simp] theorem runKudu_verdict (m : Fin 8) (h : Fin 16) (code : List RvStep) (s : State) :
    (runKudu m h code s).1.noise.verdict = s.noise.verdict := by simp [runKudu]

/-! ### What the operations and commands of Machine/Chamois.lean leave -/

@[simp] theorem drawRandom_verdict (c : Fin 48) (d : Desc) (s : State) :
    (drawRandom c d s).noise.verdict = s.noise.verdict := by
  unfold drawRandom
  split <;> simp

@[simp] theorem startCham_verdict (c : Fin 48) (d : Desc) (s : State) :
    (startCham c d s).2.noise.verdict = s.noise.verdict := by simp [startCham]
@[simp] theorem execKernel_verdict (c : Fin 48) (s : State) : KeepsVerdict s (execKernel c s) := by
  unfold execKernel; split <;> simp
@[simp] theorem kernelTraps_verdict (c : Fin 48) (d : Desc) (t : RvTrap) (s : State) :
    (kernelTraps c d t s).noise.verdict = s.noise.verdict := by simp [kernelTraps]

@[simp] theorem afterCode_verdict (c : Fin 48) (d : Desc) (code : List RvStep) (k : State → State) (s : State)
    (hk : ∀ (u : State), (k u).noise.verdict = u.noise.verdict) :
    (afterCode c d code k s).noise.verdict = s.noise.verdict := by
  simp only [afterCode]
  split <;> simp [hk]

@[simp] theorem execKernelDone_verdict (c : Fin 48) (code : List RvStep) (s : State) :
    KeepsVerdict s (execKernelDone c code s) := by
  unfold execKernelDone; split <;> simp

@[simp] theorem execChamoisTrap_verdict (c : Fin 48) (cause : BitVec 8) (tval : W64) (code : List RvStep)
    (s : State) :
    KeepsVerdict s (execChamoisTrap c cause tval code s) := by
  unfold execChamoisTrap; split <;> simp

@[simp] theorem moveToTile_verdict (c : Fin 48) (d : Desc) (t : Dst) (data : List Byte) (s : State) :
    (moveToTile c d t data s).noise.verdict = s.noise.verdict := by simp [moveToTile]

theorem moveData_verdict (c : Fin 48) (d : Desc) (m : MoverCmd) (s t : State) (h : moveData c d m s = some t) :
    t.noise.verdict = s.noise.verdict := by
  revert h
  cases m <;> simp only [moveData]
  all_goals repeat' split
  all_goals rintro ⟨⟩
  all_goals simp

@[simp] theorem execMoverTransfer_verdict (c : Fin 48) (m : MoverCmd) (code : List RvStep) (s : State) :
    KeepsVerdict s (execMoverTransfer c m code s) := by
  simp only [execMoverTransfer]
  split
  · rfl
  · split
    · simp
    · split
      · rename_i t ht
        simpa using moveData_verdict _ _ _ _ t ht
      · rfl

@[simp] theorem execMoverSwap_verdict (c : Fin 48) (lx ly : Nat) (buf : Fin 2) (code : List RvStep) (s : State) :
    KeepsVerdict s (execMoverSwap c lx ly buf code s) := by
  unfold execMoverSwap
  split
  · rfl
  · exact afterCode_verdict _ _ _ _ _ fun u => by dsimp only; split <;> [simp; (split <;> simp)]

@[simp] theorem beyondP_verdict (x : Partial) (d : Desc) (s : State) :
    (beyondP x d s).noise.verdict = s.noise.verdict := by
  simp [beyondP]
@[simp] theorem landPartials_verdict (c : Fin 48) (d : Desc) (s : State) :
    (landPartials c d s).noise.verdict = s.noise.verdict := by simp [landPartials]

@[simp] theorem execSpillPartial_verdict (c : Fin 48) (k : Nat) (s : State) :
    KeepsVerdict s (execSpillPartial c k s) := by
  simp only [execSpillPartial]
  repeat' split
  all_goals simp

@[simp] theorem execSpill_verdict (c : Fin 48) (s : State) : KeepsVerdict s (execSpill c s) := by
  simp only [execSpill]
  repeat' split
  all_goals simp [finishSpill]

@[simp] theorem recombineWork_verdict (c : Fin 48) (d : Desc) (x : Obj) (s : State) :
    (recombineWork c d x s).1.noise.verdict = s.noise.verdict := by
  simp only [recombineWork]
  repeat' split
  all_goals simp

@[simp] theorem execRecombine_verdict (c : Fin 48) (s : State) : KeepsVerdict s (execRecombine c s) := by
  simp only [execRecombine]
  repeat' split
  all_goals simp

/-! ### What the operations and commands of Machine/PolyEngine.lean leave -/

@[simp] theorem peWrites_verdict (e : Fin 4) (n : Fin 8) (l : List (Nat × List Byte)) (s : State) :
    (peWrites e n l s).1.noise.verdict = s.noise.verdict := by
  induction l generalizing s with
  | nil => rfl
  | cons w rest ih =>
    simp only [peWrites]
    split
    · simp
    · simp [ih]

@[simp] theorem peFails_verdict (e : Fin 4) (d : Desc) (f : PeFail) (s : State) :
    (peFails e d f s).noise.verdict = s.noise.verdict := by
  unfold peFails; split <;> simp

@[simp] theorem startPe_verdict (e : Fin 4) (d : Desc) (run : Pres PeRun) (s : State) :
    (startPe e d run s).noise.verdict = s.noise.verdict := by
  simp only [startPe]
  split
  · simp
  · split <;> simp

@[simp] theorem peStart_verdict (e : Fin 4) (op : Nat) (run : State → Fin 4 → Fin 8 → PeOp → Pres PeRun) (s : State) :
    KeepsVerdict s (peStart e op run s) := by
  unfold peStart; split <;> simp
@[simp] theorem execPsetLoad_verdict (e : Fin 4) (s : State) : KeepsVerdict s (execPsetLoad e s) := by
  simp [execPsetLoad]
@[simp] theorem execNtt_verdict (e : Fin 4) (s : State) : KeepsVerdict s (execNtt e s) := by simp [execNtt]
@[simp] theorem execIntt_verdict (e : Fin 4) (s : State) : KeepsVerdict s (execIntt e s) := by simp [execIntt]
@[simp] theorem execAdd_verdict (e : Fin 4) (s : State) : KeepsVerdict s (execAdd e s) := by simp [execAdd]
@[simp] theorem execSub_verdict (e : Fin 4) (s : State) : KeepsVerdict s (execSub e s) := by simp [execSub]
@[simp] theorem execMul_verdict (e : Fin 4) (s : State) : KeepsVerdict s (execMul e s) := by simp [execMul]
@[simp] theorem execAuto_verdict (e : Fin 4) (s : State) : KeepsVerdict s (execAuto e s) := by simp [execAuto]
@[simp] theorem execBaseExt_verdict (e : Fin 4) (s : State) : KeepsVerdict s (execBaseExt e s) := by
  simp [execBaseExt]
@[simp] theorem execKeyswitch_verdict (e : Fin 4) (s : State) : KeepsVerdict s (execKeyswitch e s) := by
  simp [execKeyswitch]

@[simp] theorem execMask_verdict (e : Fin 4) (s : State) : KeepsVerdict s (execMask e s) := by
  simp only [execMask]
  repeat' split
  all_goals simp

@[simp] theorem peCommit_verdict (e : Fin 4) (n : Fin 8) (r : PeResult) (s : State) :
    (peCommit e n r s).1.noise.verdict = s.noise.verdict := by
  unfold peCommit
  split <;> simp

@[simp] theorem execPeOpComplete_verdict (e : Fin 4) (s : State) : KeepsVerdict s (execPeOpComplete e s) := by
  simp only [execPeOpComplete]
  repeat' split
  all_goals simp

@[simp] theorem execPePaceFault_verdict (e : Fin 4) (s : State) : KeepsVerdict s (execPePaceFault e s) := by
  simp only [execPePaceFault]
  repeat' split
  all_goals simp

@[simp] theorem execPeOwnerWrite_verdict (secure : Bool) (e : Fin 4) (v : W32) (s : State) :
    KeepsVerdict s (execPeOwnerWrite secure e v s) := by simp [execPeOwnerWrite, lendPe]

/-! ### What the operations and commands of Machine/Admission.lean leave -/

theorem candidates_verdict (s : State) (c : Candidate) (h : c ∈ candidates s) :
    c.admitted.noise.verdict = s.noise.verdict := by
  have hi (i : Fin 48) (h : ibexCandidate s i = some c) : c.admitted.noise.verdict = s.noise.verdict := by
    simp only [ibexCandidate] at h
    split at h
    · cases h
    · split at h
      · cases h
      · split at h <;> cases h; rfl
  have hp (e : Fin 4) (h : peCandidate s e = some c) : c.admitted.noise.verdict = s.noise.verdict := by
    unfold peCandidate at h
    split at h
    · cases h
    · split at h
      · cases h
      · split at h <;> cases h; rfl
  have hd (h : dmaCandidate s = some c) : c.admitted.noise.verdict = s.noise.verdict := by
    unfold dmaCandidate at h
    split at h <;> cases h
    simp
  simp only [candidates, List.mem_append, List.mem_filterMap, Option.mem_toList] at h
  obtain (⟨i, -, h⟩ | ⟨e, -, h⟩) | h := h
  · exact hi i h
  · exact hp e h
  · exact hd h

theorem oldestFit_mem (l : List Candidate) (c : Candidate) (h : oldestFit l = some c) : c ∈ l := by
  have hall : ∀ x ∈ oldestFit l, x ∈ l := by
    refine List.foldlRecOn (motive := fun b => ∀ x ∈ b, x ∈ l) _ _ (by simp) fun b hb a ha => ?_
    have hal : a ∈ l := List.mem_of_mem_filter ha
    split
    · simpa using hal
    · split
      · simpa using hal
      · exact hb
  exact hall c h

@[simp] theorem execDescriptorAdmission_verdict (s : State) : KeepsVerdict s (execDescriptorAdmission s) := by
  unfold execDescriptorAdmission
  split
  · rfl
  · split
    · rename_i c hc
      exact candidates_verdict s c (oldestFit_mem _ _ hc)
    · rfl

@[simp] theorem execDmaDescriptor_verdict (s : State) : KeepsVerdict s (execDmaDescriptor s) := by
  unfold execDmaDescriptor; split <;> simp
@[simp] theorem rowTlps_verdict (n : Fin 8) (r : Dst × Dst) (s : State) :
    (rowTlps n r s).noise.verdict = s.noise.verdict := by
  simp [rowTlps]

@[simp] theorem copyRows_verdict (n : Fin 8) (len : Nat) (l : List (Dst × Dst)) (s : State) :
    (copyRows n len l s).1.noise.verdict = s.noise.verdict := by
  induction l generalizing s with
  | nil => rfl
  | cons r rest ih =>
    simp only [copyRows]
    repeat' split
    all_goals simp [ih]

@[simp] theorem execDmaComplete_verdict (k : Nat) (s : State) : KeepsVerdict s (execDmaComplete k s) := by
  simp only [execDmaComplete]
  split
  · rfl
  · split
    · rfl
    · split <;> simp

/-! ### What the operations and commands of Machine/Faults.lean leave -/

@[simp] theorem execHangDetected_verdict (r : Fin 8) (q : Fin 4) (s : State) :
    KeepsVerdict s (execHangDetected r q s) := by
  unfold execHangDetected; split <;> simp
@[simp] theorem attemptEnds_verdict (k : JobRef) (s : State) : (attemptEnds k s).noise.verdict = s.noise.verdict := by
  unfold attemptEnds; split <;> simp [purgeJob]
@[simp] theorem execDrainEnd_verdict (r : Fin 8) (q : Fin 4) (s : State) : KeepsVerdict s (execDrainEnd r q s) := by
  unfold execDrainEnd; split <;> simp
@[simp] theorem execKill_verdict (r : Fin 8) (q : Fin 4) (s : State) : KeepsVerdict s (execKill r q s) := by
  unfold execKill; split <;> simp

@[simp] theorem copyOut_verdict (n : Fin 8) (l : List (Nat × Nat)) (pa : Nat) (s : State) :
    (copyOut n l pa s).1.noise.verdict = s.noise.verdict := by
  induction l generalizing pa s with
  | nil => rfl
  | cons b rest ih =>
    simp only [copyOut]
    split
    · rfl
    · simp [ih]

@[simp] theorem copyBack_verdict (n : Fin 8) (l : List (Nat × Nat)) (pa : Nat) (s : State) :
    (copyBack n l pa s).1.noise.verdict = s.noise.verdict := by
  induction l generalizing pa s with
  | nil => rfl
  | cons b rest ih =>
    simp only [copyBack]
    split
    · simp
    · simp [ih]

@[simp] theorem captureFails_verdict (k : JobRef) (f : Nat × Nat) (s : State) :
    (captureFails k f s).noise.verdict = s.noise.verdict := by
  simp only [captureFails]
  repeat' split
  all_goals simp

@[simp] theorem execCaptureCopyDone_verdict (r : Fin 8) (q : Fin 4) (s : State) :
    KeepsVerdict s (execCaptureCopyDone r q s) := by
  simp only [execCaptureCopyDone]
  split
  · split
    · rfl
    · split
      · rfl
      · split <;> simp
  · rfl

@[simp] theorem startAgain_verdict (j : Job) (p : Pkt) (s : State) :
    (startAgain j p s).noise.verdict = s.noise.verdict := by
  simp only [startAgain]
  repeat' split
  all_goals simp [discardStaged]

@[simp] theorem restartJob_verdict (j : Job) (s : State) : (restartJob j s).noise.verdict = s.noise.verdict := by
  simp only [restartJob]
  split
  · simp
  · cases j.saveSlot with
    | none => dsimp only; split <;> simp
    | some slot =>
      dsimp only
      split
      · simp
      · split <;> simp

@[simp] theorem execRestart_verdict (r : Fin 8) (q : Fin 4) (s : State) : KeepsVerdict s (execRestart r q s) := by
  unfold execRestart; split <;> simp
@[simp] theorem execRegionRecoveryComplete_verdict (r : Fin 8) (s : State) :
    KeepsVerdict s (execRegionRecoveryComplete r s) := by simp [execRegionRecoveryComplete]

@[simp] theorem execLogClear_verdict (w : View) (log : Fin 9) (s : State) : KeepsVerdict s
    (execLogClear w log s) := by
  simp only [execLogClear]
  repeat' split
  all_goals simp

/-! ### What the operations and commands of Machine/Kudu.lean leave -/

@[simp] theorem execKuduDescriptor_verdict (m : Fin 8) (s : State) : KeepsVerdict s (execKuduDescriptor m s) := by
  unfold execKuduDescriptor; split <;> simp
@[simp] theorem hartTraps_verdict (m : Fin 8) (hart : Fin 16) (d : Desc) (t : RvTrap) (s : State) :
    (hartTraps m hart d t s).noise.verdict = s.noise.verdict := by simp [hartTraps]

@[simp] theorem afterHart_verdict (m : Fin 8) (hart : Fin 16) (d : Desc) (code : List RvStep) (k : State → State)
    (s : State)
    (hk : ∀ (u : State), (k u).noise.verdict = u.noise.verdict) :
    (afterHart m hart d code k s).noise.verdict = s.noise.verdict := by
  simp only [afterHart]
  split <;> simp [hk]

@[simp] theorem execKuduDescriptorComplete_verdict (m : Fin 8) (hart : Fin 16) (code : List RvStep) (s : State) :
    KeepsVerdict s (execKuduDescriptorComplete m hart code s) := by
  unfold execKuduDescriptorComplete; split <;> simp

@[simp] theorem execKuduTrap_verdict (m : Fin 8)
    (hart : Fin 16) (cause : BitVec 8) (tval : W64) (code : List RvStep) (s : State) :
    KeepsVerdict s (execKuduTrap m hart cause tval code s) := by
  unfold execKuduTrap; split <;> simp

@[simp] theorem execLockstepMismatch_verdict (s : State) : KeepsVerdict s (execLockstepMismatch s) := by
  simp [execLockstepMismatch]

@[simp] theorem execWatchdogExpiry_verdict (cp : Fin 6) (s : State) : KeepsVerdict s (execWatchdogExpiry cp s) := by
  simp [execWatchdogExpiry]

/-! ### What the operations and commands of Machine/MemHost.lean leave -/

@[simp] theorem putData_verdict (b : List Byte) (s : State) : (putData b s).noise.verdict = s.noise.verdict := by
  simp [putData]

@[simp] theorem performRequest_verdict (tile : Fin 24) (m : MemReq) (s : State) :
    (performRequest tile m s).noise.verdict = s.noise.verdict := by
  simp only [performRequest]
  repeat' split
  all_goals simp

@[simp] theorem spoilTag_verdict (p : Option Place) (s : State) : (spoilTag p s).noise.verdict = s.noise.verdict := by
  unfold spoilTag; split <;> simp

@[simp] theorem execMemoryRequest_verdict (m : MemReq) (s : State) : KeepsVerdict s (execMemoryRequest m s) := by
  simp only [execMemoryRequest]
  repeat' split
  all_goals simp [lineLost, countCorrected]

@[simp] theorem execTranslationMissFill_verdict (tile : Fin 24) (ctx : Fin 9) (v drop : Nat) (s : State) :
    KeepsVerdict s (execTranslationMissFill tile ctx v drop s) := by simp [execTranslationMissFill, cacheEntry]
@[simp] theorem execMemInv_verdict (v : W32) (s : State) : KeepsVerdict s (execMemInv v s) := by simp [execMemInv]
@[simp] theorem execMemFrameOwnWrite_verdict (secure : Bool) (v : W32) (s : State) :
    KeepsVerdict s (execMemFrameOwnWrite secure v s) := by simp [execMemFrameOwnWrite]

@[simp] theorem bar4Reads_verdict (l : List (Nat × Nat)) (s : State) :
    (bar4Reads l s).2.2.noise.verdict = s.noise.verdict := by
  induction l generalizing s with
  | nil => rfl
  | cons p rest ih =>
    simp only [bar4Reads]
    split <;> simp [ih]

@[simp] theorem bar4Writes_verdict (l : List (Nat × Nat)) (data : List Byte) (s : State) :
    (bar4Writes l data s).noise.verdict = s.noise.verdict := by
  induction l generalizing data s with
  | nil => rfl
  | cons p rest ih =>
    rw [bar4Writes, ih]
    split <;> simp

@[simp] theorem execBar4Access_verdict (o : Nat) (a : HostAccess) (s : State) :
    KeepsVerdict s (execBar4Access o a s) := by
  simp only [execBar4Access]
  split
  · rfl
  · split <;> simp

@[simp] theorem execPowerStateChange_verdict (fn : Fin 9) (d3 : Bool) (s : State) :
    KeepsVerdict s (execPowerStateChange fn d3 s) := by simp [execPowerStateChange]
@[simp] theorem execConfigurationWrite_verdict (c : CfgWrite) (s : State) :
    KeepsVerdict s (execConfigurationWrite c s) := by
  unfold execConfigurationWrite; split <;> simp [setSizes, touchVf]

@[simp] theorem execVfFlr_verdict (r : Fin 8) (s : State) : KeepsVerdict s (execVfFlr r s) := by
  simp only [execVfFlr]
  repeat' split
  all_goals simp

/-! ### What the operations and commands of Machine/Firmware.lean leave -/

@[simp] theorem execFwStage_verdict (s : State) : KeepsVerdict s (execFwStage s) := by simp [execFwStage]

@[simp] theorem stagingEnds_verdict (s : State) : (stagingEnds s).noise.verdict = s.noise.verdict := by
  simp only [stagingEnds]
  repeat' split
  all_goals simp [putPending]

@[simp] theorem measureRest_verdict (img : List Byte) (s : State) :
    (measureRest img s).noise.verdict = s.noise.verdict := by
  simp [measureRest]

/-! ### What the operations and commands of Machine/Startup.lean leave -/

@[simp] theorem warnAll_verdict (s : State) : (warnAll s).noise.verdict = s.noise.verdict := by simp [warnAll]
/-- R110: a warm reset keeps FAILED with its first cause and source. -/
theorem resetNoise_verdict (x : NoiseState) (h : x.state = .failed) : (resetNoise true x).verdict = x.verdict := by
  simp [resetNoise, NoiseState.verdict, h]

theorem execWarmReset_verdict (aux : Bool) (s : State) (h : s.noise.state = .failed) :
    KeepsVerdict s (execWarmReset aux s) := by
  simp only [execWarmReset]
  split
  · have hw : (warnAll s).noise.verdict = s.noise.verdict := by simp
    exact (resetNoise_verdict _ ((congrArg Prod.fst hw).trans h)).trans hw
  · rfl

@[simp] theorem execPerstDeassertion_verdict (speed width : Nat) (s : State) :
    KeepsVerdict s (execPerstDeassertion speed width s) := by simp [execPerstDeassertion]
@[simp] theorem atStage_verdict (t : Stage) (s : State) : (atStage t s).noise.verdict = s.noise.verdict := by
  simp [atStage]
theorem stageRom_verdict (kat : Bool) (s : State) (h : s.noise.state = .failed) :
    (stageRom kat s).noise.verdict = s.noise.verdict := by
  simp [stageRom, noiseFail_of_failed _ _ s h]
@[simp] theorem stageVerify_verdict (ok : Bool) (s : State) : (stageVerify ok s).noise.verdict = s.noise.verdict := by
  simp [stageVerify, startSecure, measureRom]
@[simp] theorem stageHbm_verdict (ok : Bool) (ms : Nat) (s : State) :
    (stageHbm ok ms s).noise.verdict = s.noise.verdict := by
  simp [stageHbm]
@[simp] theorem stageSelftest_verdict (ok : Bool) (s : State) :
    (stageSelftest ok s).noise.verdict = s.noise.verdict := by
  simp [stageSelftest]
@[simp] theorem startCores_verdict (cores : BitVec 6) (s : State) :
    (startCores cores s).noise.verdict = s.noise.verdict := by
  simp [startCores]
@[simp] theorem commitTrial_verdict (s : State) : (commitTrial s).noise.verdict = s.noise.verdict := by
  simp [commitTrial]
@[simp] theorem stageNormal_verdict (cores : BitVec 6) (s : State) :
    (stageNormal cores s).noise.verdict = s.noise.verdict := by simp [stageNormal]
@[simp] theorem addMs_verdict (ms : Nat) (s : State) : (addMs ms s).noise.verdict = s.noise.verdict := by
  simp [addMs]

theorem execStartupStageComplete_verdict (ok : Bool) (ms : Nat) (cores : BitVec 6) (kat : Bool) (s : State)
    (h : s.noise.state = .failed) : KeepsVerdict s (execStartupStageComplete ok ms cores kat s) := by
  have hr := stageRom_verdict kat (addMs ms s) h
  simp only [execStartupStageComplete]
  split
  · rfl
  · split <;> simp [hr]

@[simp] theorem execPfFlr_verdict (s : State) : KeepsVerdict s (execPfFlr s) := by
  simp [execPfFlr, discardAll, clearDevErrors, retire]

/-! ### What the operations and commands of Machine/Governor.lean leave -/

@[simp] theorem execPowerLimitExceeded_verdict (m : PowerAvg) (s : State) :
    KeepsVerdict s (execPowerLimitExceeded m s) := by
  simp -implicitDefEqProofs [execPowerLimitExceeded]
@[simp] theorem execAdmitHoldClear_verdict (m : PowerAvg) (s : State) : KeepsVerdict s (execAdmitHoldClear m s) := by
  simp [execAdmitHoldClear]
@[simp] theorem execGateWrite_verdict (secure : Bool) (v : W32) (s : State) :
    KeepsVerdict s (execGateWrite secure v s) := by
  simp [execGateWrite, setGate, denyGate, gateCode]
@[simp] theorem execDutyUpdate_verdict (tj : List (Nat × ℤ)) (s : State) : KeepsVerdict s (execDutyUpdate tj s) := by
  simp [execDutyUpdate]
@[simp] theorem powerUnit_verdict (e : Eng) (s : State) : (powerUnit e s).noise.verdict = s.noise.verdict := by
  simp [powerUnit]
@[simp] theorem execTileCooled_verdict (x y : Nat) (tj : ℤ) (s : State) : KeepsVerdict s
    (execTileCooled x y tj s) := by
  unfold execTileCooled; split <;> simp
@[simp] theorem execRailFault_verdict (x y : Nat) (s : State) : KeepsVerdict s (execRailFault x y s) := by
  simp [execRailFault]
@[simp] theorem scrubStore_verdict (k : Nat) (s : State) : (scrubStore k s).noise.verdict = s.noise.verdict := by
  simp -implicitDefEqProofs [scrubStore]

@[simp] theorem execTilePowerReturn_verdict (x y : Nat) (s : State) : KeepsVerdict s (execTilePowerReturn x y s) := by
  simp only [execTilePowerReturn]
  split
  · split <;> simp -implicitDefEqProofs
  · rfl

/-! ### What the operations and commands of Machine/Pennant.lean leave -/

@[simp] theorem modTick_verdict (f : TickState → TickState) (s : State) :
    (modTick f s).noise.verdict = s.noise.verdict := by
  simp [modTick]

@[simp] theorem execReferenceEvent_verdict (e : RefEvent) (s : State) : KeepsVerdict s (execReferenceEvent e s) := by
  simp only [execReferenceEvent]
  repeat' split
  all_goals simp

@[simp] theorem execMissedReferenceEvent_verdict (d : ℤ) (s : State) :
    KeepsVerdict s (execMissedReferenceEvent d s) := by
  simp only [execMissedReferenceEvent]
  repeat' split
  all_goals simp

@[simp] theorem execTickCtrlWrite_verdict (v : W32) (s : State) : KeepsVerdict s (execTickCtrlWrite v s) := by
  simp [execTickCtrlWrite]
@[simp] theorem execTickInWrite_verdict (ofs : Bool) (v : W32) (s : State) :
    KeepsVerdict s (execTickInWrite ofs v s) := by
  simp [execTickInWrite]
@[simp] theorem execTnLatchRead_verdict (w : View) (wide : Bool) (s : State) :
    KeepsVerdict s (execTnLatchRead w wide s) := by
  simp [execTnLatchRead]

@[simp] theorem execSlackRead_verdict (w : View) (r : Fin 8) (s : State) : KeepsVerdict s (execSlackRead w r s) := by
  simp [execSlackRead]

/-! ### What the operations and commands of Machine/Ring.lean leave -/

@[simp] theorem countUnreachable_verdict (s : State) : (countUnreachable s).noise.verdict = s.noise.verdict := by
  simp [countUnreachable]
@[simp] theorem execRetryTimeout_verdict (p : Fin 2) (s : State) : KeepsVerdict s (execRetryTimeout p s) := by
  simp [execRetryTimeout]

@[simp] theorem electLead_verdict (s : State) : (electLead s).noise.verdict = s.noise.verdict := by
  simp only [electLead]
  repeat' split
  all_goals simp

@[simp] theorem yieldLead_verdict (m : Marker) (s : State) : (yieldLead m s).noise.verdict = s.noise.verdict := by
  simp only [yieldLead]
  repeat' split
  all_goals simp

@[simp] theorem countFixed_verdict (p : Fin 2) (n : Nat) (s : State) :
    (countFixed p n s).noise.verdict = s.noise.verdict := by
  simp [countFixed]

@[simp] theorem execMarkerArrival_verdict (p : Fin 2) (word : List Byte) (cclk : Nat) (s : State) :
    KeepsVerdict s (execMarkerArrival p word cclk s) := by
  simp only [execMarkerArrival]
  repeat' split
  all_goals simp [memberMarker]

@[simp] theorem execPortDown_verdict (p : Fin 2) (s : State) : KeepsVerdict s (execPortDown p s) := by
  simp [execPortDown]
@[simp] theorem execPortRetrain_verdict (p : Fin 2) (s : State) : KeepsVerdict s (execPortRetrain p s) := by
  simp [execPortRetrain]
@[simp] theorem stageFlit_verdict (n : Fin 8) (f payload : List Byte) (s : State) :
    (stageFlit n f payload s).noise.verdict = s.noise.verdict := by
  unfold stageFlit; split <;> simp
@[simp] theorem countCrc_verdict (p : Fin 2) (s : State) : (countCrc p s).noise.verdict = s.noise.verdict := by
  simp [countCrc]

@[simp] theorem receiveFlit_verdict (p : Fin 2) (f : List Byte) (s : State) :
    (receiveFlit p f s).noise.verdict = s.noise.verdict := by
  simp only [receiveFlit]
  repeat' split
  all_goals simp

@[simp] theorem execRingFlitArrival_verdict (p : Fin 2) (slot : Nat) (words : List (List Byte)) (s : State) :
    KeepsVerdict s (execRingFlitArrival p slot words s) := by
  simp only [execRingFlitArrival]
  repeat' split
  all_goals simp [forwardFlit]

@[simp] theorem finishJoin_verdict (status : Nat) (s : State) :
    (finishJoin status s).noise.verdict = s.noise.verdict := by
  unfold finishJoin; split <;> simp
@[simp] theorem failJoin_verdict (err : Nat) (s : State) : (failJoin err s).noise.verdict = s.noise.verdict := by
  simp [failJoin]
@[simp] theorem execRingJoin_verdict (ringTn : Nat) (trained attested : Bool) (meas : BitVec 2) (s : State) :
    KeepsVerdict s (execRingJoin ringTn trained attested meas s) := by simp [execRingJoin, startJoin]
@[simp] theorem execRingLeave_verdict (s : State) : KeepsVerdict s (execRingLeave s) := by simp [execRingLeave]
@[simp] theorem execRingJoinTimeout_verdict (s : State) : KeepsVerdict s (execRingJoinTimeout s) := by
  simp [execRingJoinTimeout]

@[simp] theorem execRingFormation_verdict (f : Formation) (s : State) : KeepsVerdict s (execRingFormation f s) := by
  simp only [execRingFormation]
  repeat' split
  all_goals simp [adoptTn, joinAs]

@[simp] theorem newStreamKey_verdict (n : Fin 8) (s : State) :
    (newStreamKey n s).2.noise.verdict = s.noise.verdict := by
  unfold newStreamKey; split <;> simp

@[simp] theorem execStreamKeyAdvance_verdict (r : Fin 8) (s : State) : KeepsVerdict s (execStreamKeyAdvance r s) := by
  simp only [execStreamKeyAdvance]
  repeat' split
  all_goals simp

theorem takeStaged_verdict (s t : State) (n : Fin 8) (bid len : Nat) (data : List Byte)
    (h : takeStaged s n bid len = some (data, t)) :
    t.noise.verdict = s.noise.verdict := by
  simp only [takeStaged] at h
  split at h <;> cases h
  rfl

@[simp] theorem sendBlock_verdict (n : Fin 8) (o : RingOut) (data : List Byte) (s : State) :
    (sendBlock n o data s).noise.verdict = s.noise.verdict := by
  simp only [sendBlock]
  repeat' split
  all_goals simp

@[simp] theorem execBlockStaged_verdict (r : Fin 8) (bid : Fin 16) (s : State) :
    KeepsVerdict s (execBlockStaged r bid s) := by
  unfold execBlockStaged
  split
  · rfl
  · split
    · rfl
    · split
      · rfl
      · rename_i data t ht
        simpa using takeStaged_verdict _ t _ _ _ data ht

@[simp] theorem markStale_verdict (n : Fin 8) (e : RingIn) (s : State) :
    (markStale n e s).noise.verdict = s.noise.verdict := by
  simp only [markStale]
  repeat' split
  all_goals simp

@[simp] theorem execRingCutoff_verdict (r : Fin 8) (entry : Nat) (s : State) :
    KeepsVerdict s (execRingCutoff r entry s) := by
  simp only [execRingCutoff]
  repeat' split
  all_goals simp [deliverBlock]

@[simp] theorem execRingRgnRsvWrite_verdict (r : Fin 8) (v : W32) (s : State) :
    KeepsVerdict s (execRingRgnRsvWrite r v s) := by simp [execRingRgnRsvWrite]

/-! ### What the operations and commands of Machine/Boundary.lean leave -/

@[simp] theorem tickConfigDone_verdict (s : State) : (tickConfigDone s).noise.verdict = s.noise.verdict := by
  unfold tickConfigDone; split <;> simp

@[simp] theorem nextTn_verdict (s : State) : (nextTn s).noise.verdict = s.noise.verdict := by
  simp only [nextTn]
  repeat' split
  all_goals simp [moveTn]

@[simp] theorem ticksEnd_verdict (n : Fin 8) (s : State) : (ticksEnd n s).noise.verdict = s.noise.verdict := by
  simp only [ticksEnd]
  repeat' split
  all_goals simp

@[simp] theorem rampRise_verdict (n : Fin 8) (s : State) : (rampRise n s).noise.verdict = s.noise.verdict := by
  simp [rampRise]
@[simp] theorem rampStep_verdict (s : State) : (rampStep s).noise.verdict = s.noise.verdict := by
  simp -implicitDefEqProofs [rampStep]
@[simp] theorem invalidate_verdict (c : Fin 9) (s : State) : (invalidate c s).noise.verdict = s.noise.verdict := by
  simp -implicitDefEqProofs [invalidate]
@[simp] theorem drbgTick_verdict (s : State) : (drbgTick s).noise.verdict = s.noise.verdict := rfl

@[simp] theorem execTickBoundary_verdict (s : State) : KeepsVerdict s (execTickBoundary s) := by
  simp [execTickBoundary, newTick, countVc0Empty, ringTick, trimStep, enterTicks, idleSlots, recoverLinks,
    idleCounts, takeRim, markStarts, lateFlr, swapOthers]

/-! ### What the operations and commands of Machine/Secure.lean leave -/

@[simp] theorem answer_verdict (b : List Byte) (s : State) : (answer b s).noise.verdict = s.noise.verdict := by
  simp [answer]
@[simp] theorem execKeyExchange_verdict (mutualAuth : Bool) (reqKey : List Byte) (s : State) :
    KeepsVerdict s (execKeyExchange mutualAuth reqKey s) := by simp [execKeyExchange]
@[simp] theorem execSessionEnd_verdict (sid : Nat) (s : State) : KeepsVerdict s (execSessionEnd sid s) := by
  simp [execSessionEnd]
@[simp] theorem execGetCertificate_verdict (slot : Nat) (s : State) : KeepsVerdict s (execGetCertificate slot s) := by
  simp [execGetCertificate]
@[simp] theorem execGetMeasurements_verdict (index : Nat) (s : State) :
    KeepsVerdict s (execGetMeasurements index s) := by
  simp [execGetMeasurements]
@[simp] theorem reply_verdict (op status : Byte) (data : List Byte) (s : State) :
    (reply op status data s).noise.verdict = s.noise.verdict := by simp [reply]

@[simp] theorem serveMsg_verdict (op : Byte) (len : Nat) (ok : List Byte → Bool) (sid : Nat) (msg : List Byte)
    (act : Session → Fin 8 → List Byte → State → State) (s : State)
    (hact : ∀ a b c (u : State), (act a b c u).noise.verdict = u.noise.verdict) :
    KeepsVerdict s (serveMsg op len ok sid msg act s) := by
  unfold serveMsg
  split
  · rfl
  · split
    · rfl
    · split
      · simp
      · simp [hact]

@[simp] theorem execSealOffer_verdict (sid : Nat) (msg : List Byte) (s : State) :
    KeepsVerdict s (execSealOffer sid msg s) := by simp [execSealOffer]
@[simp] theorem execSealResume_verdict (sid : Nat) (msg : List Byte) (s : State) :
    KeepsVerdict s (execSealResume sid msg s) := by simp [execSealResume]
@[simp] theorem putTagKey_verdict (n : Fin 8) (k : Option (List Byte)) (s : State) :
    (putTagKey n k s).noise.verdict = s.noise.verdict := by
  simp -implicitDefEqProofs [putTagKey]
@[simp] theorem execTagKeySet_verdict (sid : Nat) (msg : List Byte) (s : State) :
    KeepsVerdict s (execTagKeySet sid msg s) := by simp [execTagKeySet]
@[simp] theorem execSealQuery_verdict (sid : Nat) (msg : List Byte) (s : State) :
    KeepsVerdict s (execSealQuery sid msg s) := by simp [execSealQuery]

@[simp] theorem execKeyProg_verdict (sid : Nat) (k : Fin 8) (streamId : Byte) (fn : Fin 9) (keySet : Fin 2)
    (sub : Fin 3) (transmit : Bool) (key : List Byte) (s : State)
   :
    KeepsVerdict s (execKeyProg sid k streamId fn keySet sub transmit key s) := by simp [execKeyProg]

@[simp] theorem execKSetGo_verdict (sid : Nat) (k : Fin 8) (keySet : Fin 2) (s : State) :
    KeepsVerdict s (execKSetGo sid k keySet s) := by simp [execKSetGo]
@[simp] theorem execIdeIntegrityFailure_verdict (k : Fin 8) (s : State) :
    KeepsVerdict s (execIdeIntegrityFailure k s) := by
  simp [execIdeIntegrityFailure]

@[simp] theorem serveTdi_verdict (sid : Nat) (ok : Session → Bool) (code : Byte) (act : State → State) (s : State)
    (hact : ∀ (u : State), (act u).noise.verdict = u.noise.verdict) :
    KeepsVerdict s (serveTdi sid ok code act s) := by
  unfold serveTdi
  split
  · rfl
  · simp [hact]

@[simp] theorem execLockInterfaceRequest_verdict (sid : Nat) (r k : Fin 8) (noFwUpdate : Bool) (s : State) :
    KeepsVerdict s (execLockInterfaceRequest sid r k noFwUpdate s) := by
  exact serveTdi_verdict _ _ _ _ _ fun u => rfl
@[simp] theorem execStartInterfaceRequest_verdict (sid : Nat) (r : Fin 8) (s : State) :
    KeepsVerdict s (execStartInterfaceRequest sid r s) := by simp [execStartInterfaceRequest]
@[simp] theorem execStopInterfaceRequest_verdict (sid : Nat) (r : Fin 8) (s : State) :
    KeepsVerdict s (execStopInterfaceRequest sid r s) := by simp [execStopInterfaceRequest]
@[simp] theorem startSeal_verdict (n : Fin 8) (owner : List Byte) (s : State) :
    (startSeal n owner s).noise.verdict = s.noise.verdict := by
  unfold startSeal; split <;> simp
@[simp] theorem execRegionSeal_verdict (s : State) : KeepsVerdict s (execRegionSeal s) := by
  exact maintCommand_verdict _ _ _ fun p s => by dsimp only; split <;> simp

@[simp] theorem layTags_verdict (n : Fin 8) (s : State) : (layTags n s).noise.verdict = s.noise.verdict := by
  simp only [layTags]
  refine (forEach_verdict _ _ _ fun e u => ?_).trans (by simp -implicitDefEqProofs)
  split <;> rfl

@[simp] theorem sealMemory_verdict (n : Fin 8) (s : State) : (sealMemory n s).noise.verdict = s.noise.verdict := by
  simp [sealMemory]
@[simp] theorem setCtMode_verdict (n : Fin 8) (s : State) : (setCtMode n s).noise.verdict = s.noise.verdict := by
  exact forEach_verdict _ _ _ fun e s => by cases e <;> rfl

@[simp] theorem execSealComplete_verdict (r : Fin 8) (measured : Bool) (s : State) :
    KeepsVerdict s (execSealComplete r measured s) := by simp [execSealComplete, sealDone]

/-! ### What the operations and commands of Machine/Stag.lean leave -/

@[simp] theorem execGetState_verdict (s : State) : KeepsVerdict s (execGetState s) := by simp [execGetState]
@[simp] theorem execWriteBank_verdict (ofs : Nat) (data : List Byte) (s : State) :
    KeepsVerdict s (execWriteBank ofs data s) := by simp [execWriteBank]
@[simp] theorem execPldmSensorRead_verdict (id : Nat) (measured : ℤ) (s : State) :
    KeepsVerdict s (execPldmSensorRead id measured s) := by simp [execPldmSensorRead]
@[simp] theorem shiftOut_verdict (b : List Bool) (s : State) : (shiftOut b s).noise.verdict = s.noise.verdict := by
  simp [shiftOut]
@[simp] theorem execSamplePreload_verdict (pins : List Bool) (s : State) :
    KeepsVerdict s (execSamplePreload pins s) := by
  simp [execSamplePreload]
@[simp] theorem execIdcode_verdict (s : State) : KeepsVerdict s (execIdcode s) := by simp [execIdcode]

@[simp] theorem execBypass_verdict (_code : Nat) (s : State) : KeepsVerdict s (execBypass _code s) := by
  simp [execBypass]

/-! ### What the operations and commands of Machine/Regs.lean leave -/

@[simp] theorem stateAfter_verdict (o : Out) (s : State) (h : KeepsVerdict s o) :
    (stateAfter o s).noise.verdict = s.noise.verdict := by
  cases o with
  | next t => exact h
  | fault _ => rfl
  | refused _ => rfl

@[simp] theorem writeTickStat_verdict (pf : Bool) (n : Fin 8) (v : Nat) (s : State) :
    (writeTickStat pf n v s).noise.verdict = s.noise.verdict := by simp [writeTickStat]
@[simp] theorem writeHalyLine_verdict (w : View) (o : Nat) (v : W32) (s : State) :
    (writeHalyLine w o v s).noise.verdict = s.noise.verdict := by simp [writeHalyLine]
@[simp] theorem writeQue_verdict (w : View) (o : Nat) (v : W32) (s : State) :
    (writeQue w o v s).noise.verdict = s.noise.verdict := by simp [writeQue]
@[simp] theorem clearFault_verdict (c : Fin 9) (v : Nat) (s : State) :
    (clearFault c v s).noise.verdict = s.noise.verdict := by
  simp [clearFault]

@[simp] theorem writeMem_verdict (o : Nat) (v : W32) (s : State) :
    (writeMem o v s).noise.verdict = s.noise.verdict := by
  simp only [writeMem]
  repeat' split
  all_goals simp [writePtb]

@[simp] theorem writeAnlSel_verdict (pf : Bool) (n : Fin 8) (o v : Nat) (s : State) :
    (writeAnlSel pf n o v s).noise.verdict = s.noise.verdict := by
  unfold writeAnlSel; split <;> simp
@[simp] theorem writeMesh_verdict (o v : Nat) (s : State) : (writeMesh o v s).noise.verdict = s.noise.verdict := by
  unfold writeMesh; split <;> simp
@[simp] theorem writeRim_verdict (o v : Nat) (s : State) : (writeRim o v s).noise.verdict = s.noise.verdict := by
  simp [writeRim]

@[simp] theorem writeErr_verdict (pf : Bool) (w : View) (o : Nat) (v : W32) (s : State) :
    (writeErr pf w o v s).noise.verdict = s.noise.verdict := by
  simp only [writeErr]
  repeat' split
  all_goals simp

@[simp] theorem writePwr_verdict (o : Nat) (v : W32) (s : State) :
    (writePwr o v s).noise.verdict = s.noise.verdict := by
  unfold writePwr; split <;> simp
@[simp] theorem writeNoise_verdict (o v : Nat) (s : State) : (writeNoise o v s).noise.verdict = s.noise.verdict := by
  unfold writeNoise
  split <;> rfl
@[simp] theorem writeTick_verdict (o : Nat) (v : W32) (s : State) :
    (writeTick o v s).noise.verdict = s.noise.verdict := by
  simp [writeTick]
@[simp] theorem writeHaly_verdict (o : Nat) (v : W32) (cclk : Nat) (s : State) :
    (writeHaly o v cclk s).noise.verdict = s.noise.verdict := by simp [writeHaly]
@[simp] theorem writeMsix_verdict (fn : Fin 9) (o : Nat) (v : W32) (s : State) :
    (writeMsix fn o v s).noise.verdict = s.noise.verdict := by simp [writeMsix]

@[simp] theorem writePfBlocks_verdict (o : Nat) (v : W32) (cclk : Nat) (s : State) :
    (writePfBlocks o v cclk s).noise.verdict = s.noise.verdict := by
  simp only [writePfBlocks, ite_verdict, writeTick_verdict, writeHaly_verdict, writeMesh_verdict, writeRim_verdict,
    writeQue_verdict, writeErr_verdict, writePwr_verdict, writeNoise_verdict, writeAnlSel_verdict, modHerd_noise, ite_self,
    writeMem_verdict, execRingRgnRsvWrite_verdict, stateAfter_verdict, writeMsix_verdict, ite_eq_left_iff, ite_eq_right_iff]
  intros
  split <;> simp

@[simp] theorem regWrite_verdict (w : View) (o : Nat) (v : W32) (cclk : Nat) (s : State) :
    (regWrite w o v cclk s).noise.verdict = s.noise.verdict := by
  unfold regWrite; split <;> simp [writePf, writeVf]

@[simp] theorem execRegisterWrite_verdict (w : View) (off width : Nat) (v : W64) (cclk : Nat) (s : State) :
    KeepsVerdict s (execRegisterWrite w off width v cclk s) := by simp [execRegisterWrite]

/-! ### Every command that does not reset the block -/

theorem tripJob_verdict (e : Eng) (k : JobRef) (s : State) : (tripJob e k s).noise.verdict = s.noise.verdict := by
  simp only [tripJob]
  split
  · simp
  · split <;> simp

theorem execThermalTrip_verdict (x y : Nat) (tj : Int) (s : State) (hu : cutUnit x y ≠ none) :
    KeepsVerdict s (execThermalTrip x y tj s) := by
  simp only [execThermalTrip]
  split
  · rfl
  · split
    · contradiction
    · simp -implicitDefEqProofs [tripJob_verdict]

/-- A command that does not reset the block leaves failed noise as it is. -/

theorem exec_keepsVerdict (c : Instr) (s : State) (h : s.noise.state = .failed) (hc : ¬ Resets c) :
    KeepsVerdict s (exec c s) := by
  cases c with
  | repetitionCountFail src => exact execRepetitionCountFail_verdict src s h
  | adaptiveWindowEnd src => exact execAdaptiveWindowEnd_verdict src s h
  | drbgInstantiate kat => exact execDrbgInstantiate_verdict kat s h
  | drbgReseed kat => exact execDrbgReseed_verdict kat s h
  | startupStageComplete ok ms cores kat => exact execStartupStageComplete_verdict ok ms cores kat s h
  | warmReset aux => exact execWarmReset_verdict aux s h
  | thermalTrip x y tj => exact execThermalTrip_verdict x y tj s hc
  | coldReset | trialBootTimeout | inputPowerLoss | auxPresentChange | stagColdReset | commitBank
  | extest | clamp | highz => exact absurd trivial hc
  | _ => simp [exec]

/-- Settles O60: each command that does not reset the block keeps the verdict on failed noise. -/

theorem noiseStaysFailedUntilAReset : Obligations.NoiseStaysFailedUntilAReset := by
  unfold Obligations.NoiseStaysFailedUntilAReset
  intro s t hf hc hst
  have hv : t.noise.verdict = s.noise.verdict := by
    unfold step at hst
    split at hst
    · cases hst; rfl
    · rename_i c rest hp
      have hk := exec_keepsVerdict c { s with pending := rest } hf (hc c (by simp [hp]))
      rwa [hst] at hk
  obtain ⟨hstate, hcause, hsrc⟩ : t.noise.state = s.noise.state ∧ t.noise.failCause = s.noise.failCause ∧
      t.noise.failSrc = s.noise.failSrc := by simpa [NoiseState.verdict] using hv
  exact ⟨hstate.trans hf, hcause, hsrc⟩

end Sys2Proof.Machine
end

section
/-!
PROOFS. The failure of noise (05_noise.md R108, R109; 14_faults_restart.md R341, Table 14-4): what the end of jobs leaves alone, and
what is gone once noise has failed.
-/
namespace Sys2Proof.Machine

/-! ### What the end of a job leaves of the error registers -/

/-- The device log and ERR_DEV_STAT.entropy. -/
def ErrState.device (e : ErrState) : ErrLog × Bool := (e.dev, e.entropy)

@[simp] theorem ite_device (c : Prop) [Decidable c] (s t : State) :
    (if c then s else t).err.device = if c then s.err.device else t.err.device := by split <;> rfl

@[simp] theorem forEach_device {α : Type} (l : List α) (f : α → State → State) (s : State)
    (hf : ∀ a s, (f a s).err.device = s.err.device) : (forEach l f s).err.device = s.err.device :=
  forEach_keeps (fun t => t.err.device = s.err.device) l f (fun a _ t ht => (hf a t).trans ht) s rfl

theorem writeDev_device (tile : Fin 24) (c : Fin 9) (a : Nat) (data : List Byte) (s : State) :
    (writeDev tile c a data s).1.err.device = s.err.device := by
  obtain ⟨p, o, q, h⟩ := writeDev_frame tile c a data s
  rw [h]

theorem latchIf_device (c : Fin 9) (f : MemFault) (s : State) : (latchIf c f s).err.device = s.err.device := by
  rw [(latchIf_frame c f s).1]

theorem dropArm_device (n : Fin 8) (a : Arm) (s : State) : (dropArm n a s).err.device = s.err.device := by
  unfold dropArm; split <;> rfl

theorem modLock_device (n : Fin 8) (l : Nat) (f : LockReg → LockReg) (s : State) :
    (modLock n l f s).err.device = s.err.device := by
  unfold modLock; split <;> rfl

theorem breakLocks_device (k : JobRef) (s : State) : (breakLocks k s).err.device = s.err.device := by
  refine forEach_device _ _ _ fun l s => ?_
  split
  · simp only [breakLock]
    split
    · exact modLock_device _ _ _ s
    · exact modLock_device _ _ _ s
  · rfl

theorem endDeferred_device (k : JobRef) (st : EState) (s : State) : (endDeferred k st s).err.device = s.err.device := by
  unfold endDeferred
  split
  · rfl
  · refine (congrArg ErrState.device (modJob_err _ _ _)).trans (forEach_device _ _ _ fun d s => ?_)
    split <;> rfl

theorem beginDrain_device (n : Fin 8) (s : State) : (beginDrain n s).err.device = s.err.device := by
  unfold beginDrain
  split
  · split <;> rfl
  · rfl

theorem stopJob_device (k : JobRef) (cause : Option (Nat × Nat)) (b : Option PktRef) (s : State) :
    (stopJob k cause b s).err.device = s.err.device := by
  have harms (l : List Arm) : (forEach l (dropArm k.r) (leaveLocks k (purgeJob k s))).err.device = s.err.device :=
    forEach_device l _ (leaveLocks k (purgeJob k s)) fun a t => dropArm_device k.r a t
  simp only [stopJob]
  rw [beginDrain_device]
  exact harms _

theorem jobError_device (k : JobRef) (e : Err) (site : Site) (s : State) :
    (jobError k e site s).err.device = s.err.device := by
  unfold jobError
  split
  · rfl
  · dsimp only
    split
    · exact stopJob_device _ _ _ _
    · exact stopJob_device _ _ _ _
    · rfl
    · rfl
    · rfl

theorem completeJob_device (k : JobRef) (status : Nat) (s : State) :
    (completeJob k status s).err.device = s.err.device := by
  unfold completeJob
  split
  · rfl
  · have hkeep (j : Job) (u : State) : (keepJobRegs j u).err.device = u.err.device := rfl
    have hdecide (i : Fin 33) (pos : W32) (d : Done) (u : State) : (decide' i pos d u).err = u.err := rfl
    have hleave (u : State) : (leaveLocks k u).err = u.err := rfl
    simp only [beginDrain_device, hdecide, dropJob_err, hkeep, breakLocks_device, hleave]
    split
    · rfl
    · exact endDeferred_device _ _ s

theorem writeRecord_device (i : Fin 33) (p : Pkt) (d : Done) (s : State) :
    (writeRecord i p d s).err.device = s.err.device := by
  simp [writeRecord, writeHost, latchIf_device, writeDev_device]

theorem dropStaged_device (k : JobRef) (s : State) : (dropStaged k s).err.device = s.err.device := by
  unfold dropStaged
  split
  · simp
  · rfl

theorem releaseWord_device (s t : State) (j : Job) (h : releaseWord s j = some t) : t.err.device = s.err.device := by
  unfold releaseWord at h
  repeat' split at h
  all_goals grind [jobError_device, modJob_err]

theorem jobSettles_device (s t : State) (j : Job) (h : jobSettles s j = some t) : t.err.device = s.err.device := by
  rcases orElse_some_cases h with h | h
  · exact releaseWord_device s t j h
  rcases orElse_some_cases h with h | h
  · simp only [latchArms] at h
    split at h <;> cases h
    rfl
  rcases orElse_some_cases h with h | h
  · unfold endArms at h
    split at h <;> cases h
    exact forEach_device _ _ s fun a s => dropArm_device j.ref.r a s
  · split at h <;> cases h
    exact completeJob_device _ _ _

theorem recordSettles_device (n : Fin 8) (s t : State) (r : Nat × Nat × Fin 4 × W32) (h : recordSettles n s r = some t) :
    t.err.device = s.err.device := by
  simp only [recordSettles] at h
  split at h
  · cases h; rfl
  · split at h <;> cases h
    rfl

theorem packetSettles_device (i : Fin 33) (p : Pkt) (s t : State) (h : packetSettles i p s = some t) :
    t.err.device = s.err.device := by
  simp only [packetSettles] at h
  repeat' split at h
  all_goals cases h
  · rfl
  · exact dropStaged_device _ s
  all_goals rfl

theorem queueSettles_device (i : Fin 33) (s t : State) (h : queueSettles i s = some t) : t.err.device = s.err.device := by
  rcases queueSettles_cases i s t h with ⟨p, d, rfl⟩ | ⟨p, hp⟩
  · exact writeRecord_device i p d s
  · exact packetSettles_device i p s t hp

theorem regionSettles_device (n : Fin 8) (s t : State) (h : regionSettles n s = some t) : t.err.device = s.err.device := by
  rcases orElse_some_cases h with h | h
  · obtain ⟨r, -, hr⟩ := List.exists_of_findSome?_eq_some h
    exact recordSettles_device n s t r hr
  rcases orElse_some_cases h with h | h
  · obtain ⟨q, -, hq⟩ := List.exists_of_findSome?_eq_some h
    exact queueSettles_device _ s t hq
  · obtain ⟨j, -, hj⟩ := List.exists_of_findSome?_eq_some h
    split at hj
    · exact jobSettles_device s t j hj
    · unfold lockSettles at hj
      split at hj
      · split at hj
        · exact releaseWord_device s t j hj
        · cases hj
      · cases hj

theorem settle_device (n : Fin 8) (s : State) : (settle n s).err.device = s.err.device := by
  unfold settle
  generalize 96 = rounds
  induction rounds generalizing s with
  | zero => rfl
  | succ k ih =>
    unfold settleUpTo
    split
    · exact (ih _).trans (regionSettles_device n s _ ‹_›)
    · rfl

theorem settleMaint_device (s : State) : (settleMaint s).err.device = s.err.device := by
  unfold settleMaint
  generalize 16 = rounds
  induction rounds generalizing s with
  | zero => rfl
  | succ k ih =>
    unfold settleMaintUpTo
    split
    · exact (ih _).trans (queueSettles_device _ s _ ‹_›)
    · rfl

/-! ### What the end of a job leaves of the regions and of the generator keys -/

/-- No Herd tile holds a generator key (R109 item 2). -/
def Keyless (s : State) : Prop := ∀ h : Fin 64, s.herd.tile[h].key = none ∧ s.herd.tile[h].shadowKey = none

/-- The regions' records, their offers and seals, the device log and its ENTROPY bit are the same, and no generator
key has appeared. -/
structure FailureFrame (s t : State) : Prop where
  rgn : t.rgn.rgn = s.rgn.rgn
  sec : t.sec = s.sec
  device : t.err.device = s.err.device
  keyless : Keyless s → Keyless t

/-- What ends jobs and writes records keeps the regions' records and every Herd tile. -/
theorem ends_keep (s : State) : KeptByEnds fun t => t.rgn.rgn = s.rgn.rgn ∧ t.sec = s.sec ∧ t.herd.tile = s.herd.tile where
  jobs _ _ h := h
  que _ _ h := h
  evt _ _ h := h
  err _ _ h := h
  msix _ _ h := h
  ctx _ _ h := h
  phys _ _ _ h := h
  host _ _ _ h := h
  shadow _ _ h := h
  purge _ _ h := h

namespace FailureFrame
variable {s t u : State}

theorem refl (s : State) : FailureFrame s s := ⟨rfl, rfl, rfl, id⟩

theorem trans (h : FailureFrame s t) (k : FailureFrame t u) : FailureFrame s u where
  rgn := k.rgn.trans h.rgn
  sec := k.sec.trans h.sec
  device := k.device.trans h.device
  keyless h0 := k.keyless (h.keyless h0)

theorem of_ends (h : t.rgn.rgn = s.rgn.rgn ∧ t.sec = s.sec ∧ t.herd.tile = s.herd.tile) (hd : t.err.device = s.err.device) :
    FailureFrame s t :=
  ⟨h.1, h.2.1, hd, fun h0 => by rw [Keyless, h.2.2]; exact h0⟩

/-- A change of nothing that the frame speaks of. -/
theorem of_same (hr : t.rgn.rgn = s.rgn.rgn) (hs : t.sec = s.sec) (he : t.err = s.err) (hh : t.herd = s.herd) :
    FailureFrame s t :=
  of_ends ⟨hr, hs, congrArg HerdState.tile hh⟩ (congrArg ErrState.device he)

theorem forEach {α : Type} (l : List α) (f : α → State → State) (hf : ∀ a s, FailureFrame s (f a s)) (s : State) :
    FailureFrame s (forEach l f s) :=
  forEach_keeps (FailureFrame s) l f (fun a _ t h => h.trans (hf a t)) s (refl s)

theorem settle (n : Fin 8) (s : State) : FailureFrame s (settle n s) :=
  of_ends (keeps_settle (ends_keep s) n s ⟨rfl, rfl, rfl⟩) (settle_device n s)

theorem settleMaint (s : State) : FailureFrame s (settleMaint s) :=
  of_ends (keeps_settleMaint (ends_keep s) s ⟨rfl, rfl, rfl⟩) (settleMaint_device s)

theorem jobError (k : JobRef) (e : Err) (site : Site) (s : State) : FailureFrame s (jobError k e site s) :=
  of_ends (keeps_jobError (ends_keep s) k e site s ⟨rfl, rfl, rfl⟩) (jobError_device k e site s)

theorem stopJob (k : JobRef) (cause : Option (Nat × Nat)) (b : Option PktRef) (s : State) :
    FailureFrame s (stopJob k cause b s) :=
  of_ends (keeps_stopJob (ends_keep s) k cause b s ⟨rfl, rfl, rfl⟩) (stopJob_device k cause b s)

theorem completeJob (k : JobRef) (status : Nat) (s : State) : FailureFrame s (completeJob k status s) :=
  of_ends (keeps_completeJob (ends_keep s) k status s ⟨rfl, rfl, rfl⟩) (completeJob_device k status s)

theorem dropArm (n : Fin 8) (a : Arm) (s : State) : FailureFrame s (dropArm n a s) :=
  of_ends (keeps_dropArm (ends_keep s) n a s ⟨rfl, rfl, rfl⟩) (dropArm_device n a s)

theorem writeDev (tile : Fin 24) (c : Fin 9) (a : Nat) (data : List Byte) (s : State) :
    FailureFrame s (writeDev tile c a data s).1 :=
  of_ends (keeps_writeDev (ends_keep s) tile c a data s ⟨rfl, rfl, rfl⟩) (writeDev_device tile c a data s)

/-- A Herd tile's change that gives it no generator key. -/
theorem modHerd (i : Fin 64) (f : HerdTile → HerdTile) (s : State)
    (hf : ∀ x, x.key = none ∧ x.shadowKey = none → (f x).key = none ∧ (f x).shadowKey = none) :
    FailureFrame s (modHerd i f s) :=
  ⟨rfl, rfl, rfl, fun h0 => upd_forall (fun x : HerdTile => x.key = none ∧ x.shadowKey = none) _ _ _ h0 (hf _ (h0 i))⟩

theorem tickRgn (n : Fin 8) (f : TickRgn → TickRgn) (s : State) : FailureFrame s (modTickRgn n f s) := ⟨rfl, rfl, rfl, id⟩

theorem tickJob (n : Fin 8) (f : TickJob → TickJob) (s : State) : FailureFrame s (modTickJob n f s) := ⟨rfl, rfl, rfl, id⟩

theorem anl (n : Fin 8) (f : AnlRgn → AnlRgn) (s : State) : FailureFrame s (modAnl n f s) := ⟨rfl, rfl, rfl, id⟩

theorem noiseRgn (n : Fin 8) (f : NoiseRgn → NoiseRgn) (s : State) : FailureFrame s (modNoiseRgn n f s) := ⟨rfl, rfl, rfl, id⟩

theorem ringRgn (n : Fin 8) (f : RingRgn → RingRgn) (s : State) : FailureFrame s (modRingRgn n f s) := ⟨rfl, rfl, rfl, id⟩

theorem modIbex (i : Fin 48) (f : Ibex → Ibex) (s : State) : FailureFrame s (modIbex i f s) := ⟨rfl, rfl, rfl, id⟩

theorem localWrite (e : Eng) (a : Nat) (data : List Byte) (s : State) : FailureFrame s (localWrite e a data s) := by
  cases e with
  | herd i =>
    have hmem (f : Mem → Mem) : FailureFrame s (modLocal (.herd i) f s) :=
      modHerd i _ s fun _ h => h
    simp only [Machine.localWrite]
    split
    · split
      · exact (hmem _).trans (tickRgn _ _ _)
      · exact hmem _
    · exact hmem _
  | _ => exact ⟨rfl, rfl, rfl, id⟩

theorem landPacket (e : Eng) (p : MeshPacket) (s : State) : FailureFrame s (landPacket e p s) := by
  unfold Machine.landPacket
  split
  · exact refl s
  · split
    · exact localWrite _ _ _ s
    · split
      · exact (jobError _ _ _ s).trans (settle _ _)
      · exact refl s

theorem serveHeld (x y : Nat) (s : State) : FailureFrame s (serveHeld x y s) := by
  refine forEach _ _ (fun l s => forEach _ _ (fun vc s => ?_) s) s
  have hlink (f : Link → Link) : FailureFrame s (modLink l f s) := ⟨rfl, rfl, rfl, id⟩
  dsimp only
  split
  · exact (hlink _).trans (forEach _ _ (landPacket _) _)
  · exact hlink _

theorem undefDst (e : Eng) (n : Fin 8) (d : Dst) (len : Nat) (s : State) : FailureFrame s (undefDst e n d len s) := by
  have hw : FailureFrame s (writeDst e n d (undefBytes s len) s).1 := by
    unfold Machine.writeDst
    split
    · split
      · exact localWrite _ _ _ s
      · exact refl s
    · exact writeDev _ _ _ _ s
  exact hw.trans ⟨rfl, rfl, rfl, id⟩

theorem resetUnit (e : Eng) (s : State) : FailureFrame s (resetUnit e s) := by
  have hopen := forEach (runningOn s e) (fun d s =>
    Machine.forEach (openDsts s e d) (fun p s => Machine.undefDst e d.job.r p.1 p.2 s) s)
    (fun d s => forEach _ _ (fun _ s => undefDst e d.job.r _ _ s) s) s
  have hdrop (t : State) : FailureFrame t (dropSource e t) := by
    unfold dropSource
    split <;> exact ⟨rfl, rfl, rfl, id⟩
  refine (hopen.trans (hdrop _)).trans ?_
  cases e with
  | herd i => exact modHerd i _ _ fun _ h => h
  | ibex i => exact (modIbex i _ _).trans (serveHeld _ _ _)
  | _ => exact ⟨rfl, rfl, rfl, id⟩

theorem scrubUnit (e : Eng) (s : State) : FailureFrame s (scrubUnit e s) := by
  cases e with
  | herd i => exact modHerd i _ s fun _ _ => ⟨rfl, rfl⟩
  | _ => exact ⟨rfl, rfl, rfl, id⟩

theorem reloadUnit (e : Eng) (s : State) : FailureFrame s (reloadUnit e s) := by
  cases e <;> exact ⟨rfl, rfl, rfl, id⟩

theorem clearUnit (e : Eng) (s : State) : FailureFrame s (clearUnit e s) := by
  cases e with
  | herd i => exact modHerd i _ s fun _ h => h
  | _ => exact ⟨rfl, rfl, rfl, id⟩

theorem endTicking (n : Fin 8) (s : State) : FailureFrame s (endTicking n s) := by
  have hidle (tiles : List (Fin 64)) (t : State) : FailureFrame t
      (Machine.forEach tiles (fun h => Machine.modHerd h fun x => { x with state := .idle, sweepDone := false, cls := 0 }) t) :=
    forEach tiles (fun h => Machine.modHerd h fun x => { x with state := .idle, sweepDone := false, cls := 0 })
      (fun h t => modHerd h _ t fun _ h => h) t
  have hfield (l : List (Fin 48)) (t : State) : FailureFrame t
      (Machine.forEach l (fun i => Machine.modIbex i fun x => { x with fieldRsv := none }) t) :=
    forEach l (fun i => Machine.modIbex i fun x => { x with fieldRsv := none }) (fun _ _ => ⟨rfl, rfl, rfl, id⟩) t
  simp only [Machine.endTicking]
  refine trans ?_ (ringRgn n _ _)
  refine trans ?_ (noiseRgn n _ _)
  refine trans ?_ (anl n _ _)
  exact (((tickRgn n _ s).trans (tickJob n _ _)).trans (hidle _ _)).trans (hfield _ _)

theorem dropMerge (n : Fin 8) (s : State) : FailureFrame s (dropMerge n s) :=
  (forEach ((allFin 8).filter fun m => s.rgn.mbOwner[m] == some n)
    (fun m => modKudu m fun k => { k with mergeWaits := false, merging := false }) (fun _ _ => ⟨rfl, rfl, rfl, id⟩) s).trans
    ⟨rfl, rfl, rfl, id⟩

theorem scrubAll (es : List Eng) (s : State) : FailureFrame s (scrubAll es s) :=
  forEach _ _ (fun e s => (scrubUnit e s).trans (reloadUnit e _)) s

/-- A kill. -/
theorem killJob (k : JobRef) (scrub : Bool) (s : State) : FailureFrame s (killJob k scrub s) := by
  unfold Machine.killJob
  split
  · exact refl s
  · rename_i j _
    have hdrop : FailureFrame s (purgeJob k (dropReady j s)) :=
      FailureFrame.trans (forEach _ _ (fun a s => dropArm j.ref.r a s) s) ⟨rfl, rfl, rfl, id⟩
    have hreset := hdrop.trans (forEach j.engines Machine.resetUnit resetUnit _)
    dsimp only
    generalize Machine.forEach j.engines Machine.resetUnit (purgeJob k (dropReady j s)) = t at hreset ⊢
    have hdma := hreset.trans (forEach (t.eng.dmaRunning.filter fun d => d.job == k) (fun d s =>
      Machine.forEach (openDsts s .dma d) (fun p s => Machine.undefDst .dma d.job.r p.1 p.2 s) s)
      (fun d s => forEach _ _ (fun _ s => undefDst .dma d.job.r _ _ s) s) t)
    have heng := hdma.trans (u := modEng (fun x => { x with dmaRunning := x.dmaRunning.filter fun d => d.job != k }) _)
      ⟨rfl, rfl, rfl, id⟩
    generalize modEng (fun x => { x with dmaRunning := x.dmaRunning.filter fun d => d.job != k }) _ = u at heng ⊢
    have htick : FailureFrame s (if j.tick = true then Machine.dropMerge k.r (Machine.endTicking k.r u) else u) := by
      split
      · exact heng.trans ((endTicking _ u).trans (dropMerge _ _))
      · exact heng
    split
    · exact htick.trans (scrubAll _ _)
    · exact htick

theorem killWith (k : JobRef) (scrub : Bool) (st : Nat) (s : State) : FailureFrame s (killWith k scrub st s) :=
  (killJob k scrub s).trans (completeJob _ _ _)

/-- What a device-level error does to a job that it ends. -/
theorem endByDevice (e : Err) (j : Job) (s : State) : FailureFrame s (endByDevice e j s) := by
  unfold Machine.endByDevice
  split
  · exact killWith _ _ _ s
  · split
    · exact ⟨rfl, rfl, rfl, id⟩
    · exact stopJob _ _ _ s

theorem settleAll (s : State) : FailureFrame s (settleAll s) :=
  (forEach _ _ settle s).trans (settleMaint _)

theorem failMaint (op : Nat) (n : Fin 8) (st : Nat) (s : State) : FailureFrame s (failMaint op n st s) := by
  unfold Machine.failMaint
  split
  · split
    · exact ⟨rfl, rfl, rfl, id⟩
    · exact refl s
  · exact refl s

theorem returnPe (e : Fin 4) (s : State) : FailureFrame s (returnPe e s) :=
  (scrubUnit (.pe e) s).trans ⟨rfl, rfl, rfl, id⟩

theorem closeWalls (n : Fin 8) (s : State) : FailureFrame s (closeWalls n s) := by
  simp only [Machine.closeWalls, clearBuffers, mapLinks]
  exact of_same rfl rfl rfl rfl

theorem unitsCleared (n : Fin 8) (s : State) : FailureFrame s (unitsCleared n s) := by
  have hclear (es : List Eng) (t : State) :
      FailureFrame t (Machine.forEach es (fun e s => Machine.clearUnit e (Machine.scrubUnit e s)) t) :=
    forEach es _ (fun e t => (scrubUnit e t).trans (clearUnit e _)) t
  simp only [Machine.unitsCleared]
  exact ((closeWalls n s).trans (hclear _ _)).trans (forEach _ Machine.returnPe returnPe _)

theorem freeFrames (n : Fin 8) (s : State) : FailureFrame s (freeFrames n s) := by
  obtain ⟨m, hm⟩ := freeFrames_frame n s
  rw [hm]
  exact ⟨rfl, rfl, rfl, id⟩

end FailureFrame

/-! ### What a failure of noise does to a region -/

/-- Region n is not FORMING, and its seal is not in progress (R109 item 7). -/
def Settled (n : Fin 8) (s : State) : Prop := s.rgn.rgn[n].state ≠ .forming ∧ s.sec.rgn[n].sealing = false

/-- Region n is settled, the other regions' records are the same, so is the device log, and no generator key has
appeared. -/
structure Settles (n : Fin 8) (s t : State) : Prop where
  settled : Settled n t
  rgn : ∀ m : Fin 8, m ≠ n → t.rgn.rgn[m] = s.rgn.rgn[m]
  sec : ∀ m : Fin 8, m ≠ n → t.sec.rgn[m] = s.sec.rgn[m]
  device : t.err.device = s.err.device
  keyless : Keyless s → Keyless t

theorem Settled.of_frame {n : Fin 8} {s t : State} (h : Settled n s) (k : FailureFrame s t) : Settled n t := by
  rw [Settled, k.rgn, k.sec]
  exact h

/-- A region that is settled stays settled while another is. -/
theorem Settled.of_settles {n m : Fin 8} {s t : State} (h : Settled m s) (k : Settles n s t) : Settled m t := by
  by_cases hm : m = n
  · rw [hm]
    exact k.settled
  · rw [Settled, k.rgn m hm, k.sec m hm]
    exact h

namespace Settles
variable {n : Fin 8} {s t u : State}

theorem of_frame (h : FailureFrame s t) (k : Settles n t u) : Settles n s u where
  settled := k.settled
  rgn m hm := by rw [k.rgn m hm, h.rgn]
  sec m hm := by rw [k.sec m hm, h.sec]
  device := k.device.trans h.device
  keyless h0 := k.keyless (h.keyless h0)

theorem then_frame (h : Settles n s t) (k : FailureFrame t u) : Settles n s u where
  settled := h.settled.of_frame k
  rgn m hm := by rw [k.rgn, h.rgn m hm]
  sec m hm := by rw [k.sec, h.sec m hm]
  device := k.device.trans h.device
  keyless h0 := k.keyless (h.keyless h0)

theorem releaseRegion (n : Fin 8) (byFlr : Bool) (s : State) : Settles n s (releaseRegion n byFlr s) := by
  have hrgn := (releaseRegion_released n byFlr s).rgn
  have hsec : (Machine.releaseRegion n byFlr s).sec.rgn =
      upd s.sec.rgn n fun x => { SecRgn.reset with tdi := x.tdi, stream := x.stream } := by
    cases byFlr <;> rfl
  have hherd : (Machine.releaseRegion n byFlr s).herd.tile = s.herd.tile := by
    cases byFlr <;> simp [Machine.releaseRegion, leaveCore]
  have herr : (Machine.releaseRegion n byFlr s).err = s.err := by
    cases byFlr <;> simp [Machine.releaseRegion, leaveCore]
  refine ⟨?_, fun m hm => ?_, fun m hm => ?_, ?_, ?_⟩
  · rw [Settled, hrgn, hsec, upd_same, upd_same]
    exact ⟨by simp [freed], rfl⟩
  · rw [hrgn, upd_other _ _ _ _ hm]
  · rw [hsec, upd_other _ _ _ _ hm]
  · rw [herr]
  · simp only [Keyless, hherd, imp_self]

theorem freeRegion (n : Fin 8) (s : State) : Settles n s (freeRegion n s) :=
  of_frame ((FailureFrame.unitsCleared n s).trans (FailureFrame.freeFrames n _)) (releaseRegion n _ _)

/-- A creation that fails frees its region. -/
theorem creationFails (n : Fin 8) (st : Nat) (s : State) : Settles n s (creationFails n st s) := by
  have hwait : Settles n s (modRgn n nothingWaits (Machine.freeRegion n s)) := by
    have hf := freeRegion n s
    refine ⟨?_, fun m hm => ?_, hf.sec, hf.device, hf.keyless⟩
    · rw [Settled, modRgn_get]
      exact hf.settled
    · rw [modRgn_rgn, upd_other _ _ _ _ hm]
      exact hf.rgn m hm
  simp only [Machine.creationFails]
  split
  · exact hwait.then_frame (FailureFrame.failMaint _ _ _ _)
  · exact hwait.then_frame (FailureFrame.failMaint _ _ _ _)

/-- A seal that is given up is no more in progress. -/
theorem giveUpSeal (n : Fin 8) (s : State) (h : s.rgn.rgn[n].state ≠ .forming) : Settles n s (giveUpSeal n s) := by
  refine ⟨⟨h, ?_⟩, fun _ _ => rfl, fun m hm => upd_other _ _ _ _ hm, rfl, id⟩
  exact congrArg SecRgn.sealing (upd_same _ _ _)

end Settles

/-- What a failure of noise does to region n (R109 items 5 and 7). -/
def endNeed (n : Fin 8) (s : State) : State :=
  if s.rgn.rgn[n].state = .forming then creationFails n Status.entropyFailure s
  else if s.sec.rgn[n].sealing then giveUpSeal n (failMaint 0x42 n Status.entropyFailure s)
  else s

theorem endNeed_settles (n : Fin 8) (s : State) : Settles n s (endNeed n s) := by
  unfold endNeed
  split
  · exact Settles.creationFails n _ s
  · have hf := FailureFrame.failMaint 0x42 n Status.entropyFailure s
    split
    · exact .of_frame hf (Settles.giveUpSeal n _ (by rwa [hf.rgn]))
    · exact ⟨⟨‹_›, Bool.eq_false_iff.mpr ‹_›⟩, fun _ _ => rfl, fun _ _ => rfl, rfl, id⟩

/-- The regions dealt with one after another are all settled. -/
theorem forEach_endNeed (l : List (Fin 8)) (s : State) : ∀ n ∈ l, Settled n (forEach l endNeed s) := by
  induction l generalizing s with
  | nil => exact fun n hn => nomatch hn
  | cons m l ih =>
    intro n hn
    rw [forEach_cons]
    rcases List.mem_cons.mp hn with rfl | hl
    · exact forEach_keeps (Settled n) l endNeed (fun k _ t ht => ht.of_settles (endNeed_settles k t)) _
        (endNeed_settles n s).settled
    · exact ih _ n hl

/-! ### The device-level error -/

theorem FailureFrame.sendMsix (fn : Fin 9) (v : Nat) (s : State) : FailureFrame s (sendMsix fn v s) := ⟨rfl, rfl, rfl, id⟩

/-- The state after ERR_DEV_STAT.entropy is set and the error logged. -/
def entropyLogged (s : State) : State :=
  logDevice (mkRec .entropy 15 0 noSite 0 s.tick.tn 0) (modErr (setDevBit .entropy 0) s)

theorem entropyLogged_device (s : State) :
    (entropyLogged s).err.entropy = true ∧ (entropyLogged s).err.dev.count = min (s.err.dev.count + 1) 65535 := ⟨rfl, rfl⟩

theorem entropyLogged_keyless (s : State) (h : Keyless s) : Keyless (entropyLogged s) := h

theorem entropyLogged_settled (n : Fin 8) (s : State) (h : Settled n s) : Settled n (entropyLogged s) := h

/-- Once it is logged, the device-level error of noise ends jobs alone (R341). -/
theorem deviceError_frame (s : State) : FailureFrame (entropyLogged s) (deviceError .entropy noSite 15 0 s) := by
  have hends (l : List Job) (t : State) : FailureFrame t (forEach l (endByDevice .entropy) t) :=
    FailureFrame.forEach l _ (FailureFrame.endByDevice .entropy) t
  exact ((FailureFrame.sendMsix 0 0 _).trans (hends _ _)).trans (FailureFrame.settleAll _)

/-! ### The statement -/

/-- Noise FAILED with its cause and source, its DRBG and the generator keys gone (R108, R109 items 1 and 2). -/
def noiseEnds (cause src : Nat) (s : State) : State :=
  { s with
    noise := { s.noise with state := .failed, failCause := cause, failSrc := src, drbg := none,
                            rgn := s.noise.rgn.map fun x => { x with nextKey := none, requested := false } },
    herd := { s.herd with tile := s.herd.tile.map fun t => { t with key := none, shadowKey := none } },
    pe := s.pe.map abandonMask }

theorem noiseFail_eq (cause src : Nat) (s : State) (h : s.noise.state ≠ .failed) :
    noiseFail cause src s = deviceError .entropy noSite 15 0 (forEach (allFin 8) endNeed (noiseEnds cause src s)) := if_neg h

theorem noiseEnds_keyless (cause src : Nat) (s : State) : Keyless (noiseEnds cause src s) := by
  intro h
  simp [noiseEnds]

theorem forEach_endNeed_device (l : List (Fin 8)) (s : State) : (forEach l endNeed s).err.device = s.err.device :=
  forEach_device l endNeed s fun n t => (endNeed_settles n t).device

theorem mem_allFin8 (n : Fin 8) : n ∈ allFin 8 := by
  revert n
  decide

theorem ErrState.dev_of_device {x y : ErrState} (h : x.device = y.device) : x.dev = y.dev := congrArg Prod.fst h

theorem ErrState.entropy_of_device {x y : ErrState} (h : x.device = y.device) : x.entropy = y.entropy := congrArg Prod.snd h

theorem forEach_endNeed_keyless (l : List (Fin 8)) (s : State) (h : Keyless s) : Keyless (forEach l endNeed s) :=
  forEach_keeps Keyless l endNeed (fun n _ t ht => (endNeed_settles n t).keyless ht) s h

/-- Of noise itself, a failure changes its state, cause, source and DRBG, and the regions' part, alone. -/
theorem noiseFail_noise (cause src : Nat) (s : State) (h : s.noise.state ≠ .failed) :
    { (noiseFail cause src s).noise with rgn := s.noise.rgn } =
      { s.noise with state := .failed, failCause := cause, failSrc := src, drbg := none } := by
  have K := noise_kept { s.noise with state := .failed, failCause := cause, failSrc := src, drbg := none }
  rw [noiseFail_eq cause src s h]
  refine keeps_deviceError K .entropy noSite 15 0 _ (forEach_keeps
    (fun t => { t.noise with rgn := s.noise.rgn } = _) (allFin 8) endNeed (fun n _ t ht => ?_) (noiseEnds cause src s) rfl)
  unfold endNeed
  split
  · exact keeps_creationFails K _ _ _ ht
  · split
    · exact keeps_giveUpSeal K _ _ (keeps_failMaint K _ _ _ _ ht)
    · exact ht

/-- What else a failure does, from any state in which noise has not failed. -/
theorem noiseFail_ends (cause src : Nat) (s : State) (h : s.noise.state ≠ .failed) :
    Keyless (noiseFail cause src s) ∧ (∀ n, Settled n (noiseFail cause src s)) ∧
    (noiseFail cause src s).err.entropy = true ∧
    (noiseFail cause src s).err.dev.count = min (s.err.dev.count + 1) 65535 := by
  rw [noiseFail_eq cause src s h]
  have hdev : (forEach (allFin 8) endNeed (noiseEnds cause src s)).err.dev = s.err.dev :=
    ErrState.dev_of_device (forEach_endNeed_device (allFin 8) (noiseEnds cause src s))
  have hkey := forEach_endNeed_keyless (allFin 8) _ (noiseEnds_keyless cause src s)
  have hset := forEach_endNeed (allFin 8) (noiseEnds cause src s)
  generalize forEach (allFin 8) endNeed (noiseEnds cause src s) = t at hdev hkey hset ⊢
  have hf := deviceError_frame t
  obtain ⟨hbit, hcount⟩ := entropyLogged_device t
  generalize deviceError .entropy noSite 15 0 t = u at hf ⊢
  refine ⟨hf.keyless (entropyLogged_keyless t hkey),
    fun n => (entropyLogged_settled n t (hset n (mem_allFin8 n))).of_frame hf, ?_, ?_⟩
  · exact (ErrState.entropy_of_device hf.device).trans hbit
  · rw [ErrState.dev_of_device hf.device, hcount, hdev]

/-- Settles O27: the regions are dealt with one after another, and what ends jobs and logs the error gives no key, FORMING
region or seal back. -/
theorem noiseFailureEndsWhatNeedsNoise : Obligations.NoiseFailureEndsWhatNeedsNoise := by
  intro s cause src
  refine ⟨fun h => ?_, noiseFail_of_failed cause src s⟩
  have hnoise := noiseFail_noise cause src s h
  obtain ⟨hkey, hset, hbit, hcount⟩ := noiseFail_ends cause src s h
  exact ⟨congrArg NoiseState.state hnoise, congrArg NoiseState.failCause hnoise, congrArg NoiseState.failSrc hnoise,
    congrArg NoiseState.drbg hnoise, hkey, fun n => (hset n).1, fun n => (hset n).2, hbit, hcount⟩

end Sys2Proof.Machine
end

section
/-!
PROOFS. FRESH keys (05_noise.md R105, R107, R115): what a generate request that the DRBG serves returns, and where the key is
staged.
-/
namespace Sys2Proof.Machine

/-- The DRBG serves a request when noise is READY and it is instantiated with no reseed due (R105, R107). -/
theorem drbgServes_cases {s : State} {k : Nat} (h : drbgServes s k = true) :
    s.noise.state = .ready ∧ ∃ d, s.noise.drbg = some d ∧ d.due = false := by
  unfold drbgServes at h
  obtain ⟨hready, hd⟩ := Bool.and_eq_true_iff.mp h
  split at hd
  · exact ⟨eq_of_beq hready, _, ‹_›, by simpa using (Bool.and_eq_true_iff.mp hd).1⟩
  · cases hd

/-- The DRBG after one generate request (R105). -/
def Drbg.drawn (d : Drbg) : Drbg :=
  { d with key := (drbgOutput (d.key, d.v)).2.1, v := (drbgOutput (d.key, d.v)).2.2, requests := d.requests + 1 }

@[simp] theorem Drbg.drawn_requests (d : Drbg) : d.drawn.requests = d.requests + 1 := rfl

@[simp] theorem Drbg.drawn_ticks (d : Drbg) : d.drawn.ticks = d.ticks := rfl

/-- A generate request before which no reseed is due takes the output of the DRBG as it stands. -/
theorem drbgDraw_eq {s : State} {d : Drbg} (hs : s.noise.drbg = some d) (hd : d.due = false ∨ s.noise.held.length ≠ 2) :
    drbgDraw s = ((drbgOutput (d.key, d.v)).1, { s with noise := { s.noise with drbg := some d.drawn } }) := by
  have hnone : reseedBetween s = s := by
    simp only [reseedBetween, hs]
    rcases hd with hd | hd <;> simp [hd]
  simp only [drbgDraw, hnone, hs]
  rfl

/-- Every tile of a list holds the key in its shadow register, and no other tile changes. -/
theorem stageKey_tile (k : List Byte) (l : List (Fin 64)) (s : State) (h : Fin 64) :
    (forEach l (fun h => modHerd h fun t => { t with shadowKey := some k }) s).herd.tile[h] =
      if h ∈ l then { s.herd.tile[h] with shadowKey := some k } else s.herd.tile[h] := by
  induction l generalizing s with
  | nil => simp
  | cons a l ih =>
    rw [forEach_cons, ih, modHerd_herd]
    by_cases ha : h = a
    · subst ha
      simp
    · simp [upd_other _ _ _ _ ha, ha]

theorem exec_drbgGenerate_idle {s : State} {r : Fin 8} (h : s.noise.rgn[r].requested = false ∨ s.noise.state ≠ .ready) :
    exec (.drbgGenerate r) s = .next s := by
  refine if_neg fun ⟨hreq, hserves⟩ => ?_
  rcases h with h | h
  · rw [h] at hreq
    cases hreq
  · exact h (drbgServes_cases hserves).1

/-- Settles O26: a request that is served finds no reseed due, so it is one draw; the staging writes tile by tile. -/
theorem freshKeysReachTheShadowRegisters : Obligations.FreshKeysReachTheShadowRegisters := by
  intro s r
  refine ⟨fun hreq hserves => ?_, exec_drbgGenerate_idle, fun k p hk hp => ?_⟩
  · obtain ⟨-, d, hd, hdue⟩ := drbgServes_cases hserves
    have hdraw := drbgDraw_eq hd (.inl hdue)
    refine ⟨d, d.drawn, hd, d.drawn_requests, d.drawn_ticks, ?_⟩
    have hexec : exec (.drbgGenerate r) s =
        .next (modNoiseRgn r (fun x => { x with requested := false, nextKey := some (drbgDraw s).1 }) (drbgDraw s).2) :=
      if_pos ⟨hreq, hserves⟩
    rw [hexec, hdraw]
    rfl
  · have hexec : exec (.freshKeyStaged r) s = .next (modNoiseRgn r (fun x => { x with nextKey := none, keyWait := false })
        (forEach p.tiles (fun h => modHerd h fun t => { t with shadowKey := some k }) s)) := by
      simp only [exec, execFreshKeyStaged, hk, hp]
    have htile := stageKey_tile k p.tiles s
    rw [forEach_modHerd] at hexec htile
    exact ⟨_, hexec, rfl, rfl, htile⟩

end Sys2Proof.Machine
end

section
/-!
PROOFS. The health tests of the sources (05_noise.md R99-R101, R108): what one sample does, and what a run of 61 and the end of a
window of 1,024 samples do.
-/
namespace Sys2Proof.Machine

/-! ### What a failure leaves of the sources -/

/-- Whether or not noise had failed, it has failed after, and the sources, their bits and the blocks held are the same. -/
theorem noiseFail_sources (cause src : Nat) (s : State) :
    (noiseFail cause src s).noise.state = .failed ∧ (noiseFail cause src s).noise.src = s.noise.src ∧
      (noiseFail cause src s).noise.srcOk = s.noise.srcOk := by
  by_cases h : s.noise.state = .failed
  · rw [noiseFail_of_failed cause src s h]
    exact ⟨h, rfl, rfl⟩
  · have hn := noiseFail_noise cause src s h
    exact ⟨congrArg NoiseState.state hn, (congrArg NoiseState.src hn :), (congrArg NoiseState.srcOk hn :)⟩

/-- A first failure names its source and cause. -/
theorem noiseFail_names (cause src : Nat) (s : State) (h : s.noise.state ≠ .failed) :
    (noiseFail cause src s).noise.failSrc = src ∧ (noiseFail cause src s).noise.failCause = cause :=
  have hn := noiseFail_noise cause src s h
  ⟨(congrArg NoiseState.failSrc hn :), (congrArg NoiseState.failCause hn :)⟩

/-! ### One sample -/

theorem takeSample_fails_iff (b keep : Bool) (x : Source) :
    (takeSample b keep x).fails = true ↔ 61 ≤ (takeSample b keep x).run ∨ 810 ≤ (takeSample b keep x).same := by
  simp [Source.fails]

/-- A source after a sample on a module; `keep`: start-up testing is done. -/
def sampled (b keep : Bool) (x : Source) : Source :=
  if (takeSample b keep x).fails then { takeSample b keep x with gathered := x.gathered } else takeSample b keep x

/-- A sample is gathered, to at most 40, unless its run or window fails with it; the tests count it in any case. -/
theorem sampled_eq (b keep : Bool) (x : Source) :
    sampled b keep x = { takeSample b keep x with
      gathered := if keep = true ∧ (takeSample b keep x).run < 61 ∧ (takeSample b keep x).same < 810 ∧ x.gathered.length < 40
        then x.gathered ++ [b] else x.gathered } := by
  unfold sampled
  by_cases hf : (takeSample b keep x).fails = true
  · rw [if_pos hf, if_neg]
    rintro ⟨-, hr, hs, -⟩
    have := (takeSample_fails_iff b keep x).mp hf
    omega
  · rw [if_neg hf]
    have hok := mt (takeSample_fails_iff b keep x).mpr hf
    push Not at hok
    simp only [hok, true_and]
    simp only [takeSample, Bool.and_eq_true, decide_eq_true_eq]

theorem exec_rawSample {s : State} {k : Fin 16} (b : Bool) (hp : s.dev.powered = true) (hc : s.noise.src[k].count < 1024)
    (hr : s.noise.src[k].run < 61 ∨ s.noise.src[k].stuck = true) :
    exec (.rawSample k b) s = .next (modSource k (sampled b s.noise.startupDone) s) :=
  if_pos ⟨hp, hc, hr⟩

theorem takeSample_stuck_iff (b keep : Bool) (x : Source) :
    (takeSample b keep x).stuck = true ↔ x.stuck = true ∧ x.last = some b := by
  simp [takeSample]

/-- The first sample of a window opens it. -/
theorem takeSample_opens (b keep : Bool) (x : Source) (h : x.count = 0) :
    (takeSample b keep x).first = b ∧ (takeSample b keep x).same = 1 := by
  simp [takeSample, h, b2n]

/-- A later sample of a window counts if it equals the first. -/
theorem takeSample_counts (b keep : Bool) (x : Source) (h : x.count ≠ 0) :
    (takeSample b keep x).first = x.first ∧
      (takeSample b keep x).same = if b = x.first then x.same + 1 else x.same := by
  refine ⟨if_neg h, ?_⟩
  by_cases hb : b = x.first <;> simp [takeSample, h, hb, b2n]

theorem takeSample_ones (b keep : Bool) (x : Source) :
    (takeSample b keep x).ones = if b = true then x.ones + 1 else x.ones := by
  cases b <;> simp [takeSample, b2n]

/-! ### The tests -/

/-- A source that fails a test loses its bit of src_ok and what it gathered. -/
theorem failSource_noise (k : Fin 16) (s : State) :
    (failSource k s).noise.srcOk.getLsbD k.val = false ∧
      (failSource k s).noise.src[k] = { s.noise.src[k] with failed := true, gathered := [] } :=
  ⟨by simp [failSource, modSource], upd_same s.noise.src k fun x => { x with failed := true, gathered := [] }⟩

/-- A failed test: noise is FAILED, the source has lost its bit and what it gathered, and a first failure is named. -/
theorem testFails_noise (cause : Nat) (k : Fin 16) (s : State) :
    let t := noiseFail cause k.val (failSource k s)
    t.noise.state = .failed ∧ t.noise.srcOk.getLsbD k.val = false ∧
      t.noise.src[k] = { s.noise.src[k] with failed := true, gathered := [] } ∧
      (s.noise.state ≠ .failed → t.noise.failSrc = k.val ∧ t.noise.failCause = cause) := by
  obtain ⟨hok, hsrc⟩ := failSource_noise k s
  obtain ⟨hstate, hsources, hbits⟩ := noiseFail_sources cause k.val (failSource k s)
  exact ⟨hstate, by rw [hbits]; exact hok, by rw [hsources]; exact hsrc, noiseFail_names cause k.val (failSource k s)⟩

theorem modSource_src (k : Fin 16) (f : Source → Source) (s : State) : (modSource k f s).noise.src[k] = f s.noise.src[k] :=
  upd_same s.noise.src k f

/-- A run of 61 that has not been dealt with fails (R100). -/
theorem exec_repetitionCountFail {s : State} {k : Fin 16} (hr : 61 ≤ s.noise.src[k].run) (hs : s.noise.src[k].stuck = false) :
    exec (.repetitionCountFail k) s = .next (noiseFail (if s.noise.src[k].passed then 3 else 1) k.val
      (failSource k (modSource k (fun x => { x with stuck := true }) s))) := if_pos ⟨hr, hs⟩

/-- The window is over, and its source is in the state that the next one starts from (R100, Table 5-5). -/
theorem exec_adaptiveWindowEnd {s : State} {k : Fin 16} (hc : s.noise.src[k].count = 1024) :
    exec (.adaptiveWindowEnd k) s =
      if 810 ≤ s.noise.src[k].same then
        .next (noiseFail (if s.noise.src[k].passed then 4 else 2) k.val (failSource k (modSource k endWindow s)))
      else if s.noise.src[k].passed || s.noise.src[k].failed then .next (modSource k endWindow s)
      else .next (passSource k (modSource k endWindow s)) := if_pos hc

theorem all_sources_iff (p : Source → Bool) (v : Vector Source 16) :
    v.toList.all p = true ↔ ∀ i : Fin 16, p v[i] = true := by
  rw [Vector.all_toList, Vector.all_eq_true]
  exact ⟨fun h i => h i i.isLt, fun h i hi => h ⟨i, hi⟩⟩

/-- A source that passes has its bit of src_ok, and start-up testing is done when all have passed (R101). -/
theorem passSource_noise (k : Fin 16) (s : State) :
    let t := passSource k s
    t.noise.state = s.noise.state ∧ t.noise.src[k] = { s.noise.src[k] with passed := true } ∧
      t.noise.srcOk.getLsbD k.val = true ∧ (t.noise.startupDone = true ↔ ∀ i : Fin 16, t.noise.src[i].passed = true) := by
  refine ⟨rfl, modSource_src k _ s, ?_, all_sources_iff _ _⟩
  simp [passSource, modSource]

/-! ### The statement -/

/-- Settles O24: a sample writes its source alone; a failed run or window fails noise after the source has lost its bit. -/
theorem samplesFeedTheHealthTests : Obligations.SamplesFeedTheHealthTests := by
  intro s k
  refine ⟨fun b hp hc hr => ?_, fun h => ?_, fun hr hs => ?_, fun hc => if_neg hc, fun hc hs => ?_, fun hc hs => ?_⟩
  · have hsrc : (modSource k (sampled b s.noise.startupDone) s).noise.src[k] = sampled b s.noise.startupDone s.noise.src[k] :=
      modSource_src k _ s
    refine ⟨_, exec_rawSample b hp hc hr, ?_, ?_⟩
    · rw [hsrc]
      rfl
    · rw [hsrc, sampled_eq]
      generalize s.noise.startupDone = keep
      generalize s.noise.src[k] = x
      exact ⟨rfl, rfl, rfl, rfl, takeSample_stuck_iff b keep x, takeSample_opens b keep x, takeSample_counts b keep x,
        takeSample_ones b keep x, rfl⟩
  · refine if_neg fun ⟨hrun, hstuck⟩ => ?_
    rcases h with h | h
    · omega
    · rw [hstuck] at h
      cases h
  · obtain ⟨hstate, hok, hsrc, hnames⟩ := testFails_noise (if s.noise.src[k].passed then 3 else 1) k
      (modSource k (fun x => { x with stuck := true }) s)
    rw [modSource_src] at hsrc
    exact ⟨_, exec_repetitionCountFail hr hs, hstate, hok, by rw [hsrc], by rw [hsrc], by rw [hsrc], hnames⟩
  · obtain ⟨hstate, hok, hsrc, hnames⟩ := testFails_noise (if s.noise.src[k].passed then 4 else 2) k (modSource k endWindow s)
    rw [modSource_src] at hsrc
    exact ⟨_, (exec_adaptiveWindowEnd hc).trans (if_pos hs), hstate, hok, by rw [hsrc]; rfl, hnames⟩
  · have hexec := (exec_adaptiveWindowEnd hc).trans (if_neg (Nat.not_le.mpr hs))
    by_cases hold : (s.noise.src[k].passed || s.noise.src[k].failed) = true
    · rw [if_pos hold] at hexec
      have hsrc := modSource_src k endWindow s
      refine ⟨_, hexec, rfl, by rw [hsrc]; rfl, by rw [hsrc]; rfl, by rw [hsrc]; rfl, fun hf => ?_, fun hf hp => ?_⟩
      · rw [hf, Bool.or_false] at hold
        rw [hsrc]
        exact hold
      · rw [hf, hp] at hold
        cases hold
    · rw [if_neg hold] at hexec
      obtain ⟨hstate, hsrc, hok, hdone⟩ := passSource_noise k (modSource k endWindow s)
      rw [modSource_src] at hsrc
      exact ⟨_, hexec, hstate, by rw [hsrc]; rfl, by rw [hsrc]; rfl, by rw [hsrc]; rfl, fun _ => by rw [hsrc],
        fun _ _ => ⟨hok, hdone⟩⟩

end Sys2Proof.Machine
end

section
/-!
PROOFS. Conditioned blocks and the DRBG (05_noise.md R103-R106; 16_power_energy_startup.md Table 16-3): how a block is held, what an
instantiation draws, and when a reseed takes the blocks.
-/
namespace Sys2Proof.Machine

/-- The block is taken once every source has its 40 samples, and no failure is still to be dealt with (R103). -/
theorem exec_conditionedBlock {s : State} (hp : s.dev.powered = true) (hd : s.noise.startupDone = true)
    (hsrc : ∀ k : Fin 16, 40 ≤ s.noise.src[k].gathered.length ∧
      (s.noise.src[k].stuck = true ∨ s.noise.src[k].run < 61 ∧ s.noise.src[k].same < 810)) :
    exec .conditionedBlock s = .next { s with noise := { s.noise with
      held := (if s.noise.held.length < 2 then s.noise.held else s.noise.held.drop 1) ++
        [sha256 (s.noise.src.toList.flatMap fun x => packSamples (x.gathered.take 40))],
      src := s.noise.src.map fun x => { x with gathered := [] } } } := by
  refine if_pos ⟨hp, hd, (all_sources_iff _ _).mpr fun k => ?_⟩
  obtain ⟨hlen, hok⟩ := hsrc k
  refine Bool.and_eq_true_iff.mpr ⟨decide_eq_true hlen, ?_⟩
  rcases hok with hstuck | ⟨hrun, hsame⟩
  · rw [hstuck, Bool.or_true]
  · have hfails : s.noise.src[k].fails = false := by
      simp only [Source.fails, Bool.or_eq_false_iff, decide_eq_false_iff_not]
      omega
    rw [hfails]
    rfl

/-! ### Instantiation (R104) -/

/-- The state of an instantiated DRBG, before its first draw. -/
def instantiated (d : Drbg) (s : State) : State :=
  { s with noise := { s.noise with state := .ready, readyTn := s.tick.tn.toNat, held := [], reseeds := 0, drbg := some d } }

/-- With no block held, no reseed comes between draws, so a key is two draws of the DRBG, or three. -/
theorem drawXts_eq {s : State} {d : Drbg} (hs : s.noise.drbg = some d) (hheld : s.noise.held = []) :
    ∃ d' : Drbg, (drawXts s).2 = { s with noise := { s.noise with drbg := some d' } } ∧
      (d'.requests = d.requests + 2 ∨ d'.requests = d.requests + 3) ∧ d'.ticks = d.ticks := by
  have hdraw (e : Drbg) (t : State) (ht : t.noise.drbg = some e) (hh : t.noise.held = []) :=
    drbgDraw_eq ht (.inr (by rw [hh]; decide))
  have ha := hdraw d s hs hheld
  have hb := hdraw d.drawn { s with noise := { s.noise with drbg := some d.drawn } } rfl hheld
  have hc := hdraw d.drawn.drawn { s with noise := { s.noise with drbg := some d.drawn.drawn } } rfl hheld
  simp only [drawXts, ha, hb]
  split
  · exact ⟨d.drawn.drawn.drawn, by rw [hc], .inr (by simp), by simp⟩
  · exact ⟨d.drawn.drawn, rfl, .inl (by simp), by simp⟩

/-- The seed of an instantiation (R104). -/
def seeded (s : State) : Drbg :=
  let kv := drbgInstantiate (s.noise.held.flatten.take 48) (s.noise.held.flatten.drop 48) (serialBytes ++ s.mkh.meas[0])
  { key := kv.1, v := kv.2, requests := 0, ticks := 0 }

theorem exec_drbgInstantiate {s : State} (kat : Bool) (hg : s.noise.state = .gathering) (hst : s.dev.stage = .entropy)
    (hd : s.noise.startupDone = true) (hh : s.noise.held.length = 2) :
    exec (.drbgInstantiate kat) s = if (!kat) = true then .next (noiseFail 6 0 s)
      else .next (modCtx 8 (fun c => { c with key := some (drawXts (instantiated (seeded s) s)).1, keyValid := true })
        (drawXts (instantiated (seeded s) s)).2) := if_pos ⟨hg, hst, hd, hh⟩

/-! ### Reseeds (R105) -/

theorem Drbg.due_iff (d : Drbg) : d.due = true ↔ 65536 ≤ d.requests ∨ 500000 ≤ d.ticks := by
  simp [Drbg.due]

/-- The DRBG after a reseed, with both counts at 0. -/
def reseeded (d : Drbg) (s : State) : Drbg :=
  let kv := drbgReseed (s.noise.held.flatten.take 48) (d.key, d.v)
  { key := kv.1, v := kv.2, requests := 0, ticks := 0 }

theorem exec_drbgReseed {s : State} {d : Drbg} (kat : Bool) (hs : s.noise.drbg = some d) :
    exec (.drbgReseed kat) s = if d.due ∧ s.noise.held.length = 2 then
      if (!kat) = true then .next (noiseFail 6 0 s) else .next (reseed d s) else .next s := by
  simp only [exec, execDrbgReseed, hs]

/-! ### The statement -/

/-- The conditioner's test, as the ROM stage ends. -/
theorem exec_startupStageComplete_rom {s : State} (ok : Bool) (ms : Nat) (cores : BitVec 6) (hp : s.dev.powered = true)
    (hst : s.dev.stage = .rom) : exec (.startupStageComplete ok ms cores false) s = .next (stageRom false (addMs ms s)) := by
  simp [exec, execStartupStageComplete, hp, hst]

/-- A failed test from a state in which noise has not failed. -/
theorem noiseFail_outcome (cause : Nat) (s : State) (h : s.noise.state ≠ .failed) :
    (noiseFail cause 0 s).noise.state = .failed ∧ (noiseFail cause 0 s).noise.failCause = cause :=
  ⟨(noiseFail_sources cause 0 s).1, (noiseFail_names cause 0 s h).2⟩

/-- Settles O25: the draws of an instantiation find no block held, so none of them reseeds. -/
theorem conditionedBlocksSeedTheDrbg : Obligations.ConditionedBlocksSeedTheDrbg := by
  intro s
  refine ⟨fun hp hd hsrc => ⟨_, exec_conditionedBlock hp hd hsrc, rfl⟩, fun hg hst hd hh => ⟨?_, ?_⟩,
    fun hp hst hf ok ms cores => ?_, fun d hs => ?_⟩
  · obtain ⟨d', hxts, hreq, htick⟩ := drawXts_eq (s := instantiated (seeded s) s) (d := seeded s) rfl rfl
    refine ⟨d', (drawXts (instantiated (seeded s) s)).1, ?_, by simpa [seeded] using hreq, htick⟩
    rw [exec_drbgInstantiate true hg hst hd hh, hxts]
    rfl
  · exact ⟨_, exec_drbgInstantiate false hg hst hd hh, noiseFail_outcome 6 s (by rw [hg]; decide)⟩
  · exact ⟨_, exec_startupStageComplete_rom ok ms cores hp hst, noiseFail_outcome 5 (addMs ms s) hf⟩
  · have hexec (kat : Bool) := exec_drbgReseed kat hs
    simp only [Drbg.due_iff] at hexec
    refine ⟨fun hdue hh => ⟨⟨reseeded d s, ?_, rfl, rfl⟩, fun hf => ⟨_, ?_, noiseFail_outcome 6 s hf⟩⟩,
      fun hnot kat => ?_⟩
    · rw [hexec, if_pos ⟨hdue, hh⟩]
      rfl
    · rw [hexec, if_pos ⟨hdue, hh⟩]
      rfl
    · rw [hexec, if_neg hnot]

end Sys2Proof.Machine
end

section
/-!
PROOFS. SWEEP_START (04_herd_arrays.md R92; 05_noise.md R113; 06_annealing_low_states.md R124): a job holds for noise, and the first
tile of a tick begins the job's next sweep.
-/
namespace Sys2Proof.Machine

/-! ### What opens a sweep -/

/-- The part of SWEEP_START that opens the sweep is reached: nothing of the tick is skipped, and the tile is not cut. -/
structure Opens (s : State) (h : Fin 64) (n : Fin 8) (j : Job) : Prop where
  region : sweepRegion s h = some n
  job : sweepingJob s n = some j
  init : s.herd.job[n].init = false
  excluded : s.herd.job[n].excluded = false
  part : s.herd.job[n].part = .ingest
  late : s.herd.job[n].late = false
  active : s.herd.job[n].active = false
  power : s.pwr.tile[Fin.ofNat 192 ((engXY (.herd h)).2 * 16 + (engXY (.herd h)).1)].cut = false

/-- SWEEP_START after the sweep is opened, or not. -/
def sweepOpened (h : Fin 64) (n : Fin 8) (s : State) : Out :=
  if s.herd.job[n].part ≠ .sweep then
    .next (if s.herd.job[n].holds then modHerd h (fun x => { x with state := .waiting }) s else s)
  else if s.herd.tile[h].state = .sweeping ∨ s.herd.tile[h].sweepDone then .next s
  else .next (settle n (startTile n h s))

theorem exec_sweepStart {s : State} {h : Fin 64} {n : Fin 8} {j : Job} (k : Opens s h n j) :
    exec (.sweepStart h) s = sweepOpened h n (openSweep n j s) := by
  have hgo : (s.herd.job[n].init || s.herd.job[n].excluded || s.herd.job[n].part == .emit ||
      s.pwr.tile[Fin.ofNat 192 ((engXY (.herd h)).2 * 16 + (engXY (.herd h)).1)].cut) = false := by
    rw [k.init, k.excluded, k.part, k.power]
    rfl
  simp only [exec, execSweepStart, k.region, k.job, hgo, Bool.false_eq_true, if_false, if_pos k.part]
  rfl

/-- A sweep's tile is one of its job's plan. -/
theorem sweepRegion_plan {s : State} {h : Fin 64} {n : Fin 8} (hn : sweepRegion s h = some n) : h ∈ planTiles s n := by
  unfold sweepRegion at hn
  split at hn
  · split at hn
    · rename_i hticks
      cases hn
      exact List.contains_iff_mem.mp (Bool.and_eq_true_iff.mp hticks).2
    · cases hn
  · cases hn

/-- While noise is not READY the job holds (R113). -/
theorem openSweep_holds {s : State} {h : Fin 64} {n : Fin 8} {j : Job} (k : Opens s h n j) (hnoise : s.noise.state ≠ .ready) :
    openSweep n j s = modTickJob n (fun t => { t with holds := true }) s := by
  simp only [openSweep, k.late, k.active, Bool.false_eq_true, if_false, if_pos hnoise]

/-! ### What precedes the sweep -/

/-- Region n's job stands before its next sweep, and tile h does not sweep. -/
structure BeforeSweep (h : Fin 64) (n : Fin 8) (jt : Nat) (tiles : List (Fin 64)) (sched : List (Nat × Nat))
    (s : State) : Prop where
  jt : s.herd.job[n].jt = jt
  active : s.herd.job[n].active = false
  tiles : planTiles s n = tiles
  sched : s.anl.rgn[n].sched = sched
  idle : s.herd.tile[h].state ≠ .sweeping

namespace BeforeSweep
variable {h : Fin 64} {n : Fin 8} {jt : Nat} {tiles : List (Fin 64)} {sched : List (Nat × Nat)} {s : State}

theorem modHerd (k : BeforeSweep h n jt tiles sched s) (i : Fin 64) (f : HerdTile → HerdTile)
    (hf : ∀ x, (f x).state = x.state) :
    BeforeSweep h n jt tiles sched (modHerd i f s) where
  jt := k.jt
  active := k.active
  tiles := k.tiles
  sched := k.sched
  idle := by
    have hstate : (upd s.herd.tile i f)[h].state = s.herd.tile[h].state := upd_keeps HerdTile.state s.herd.tile i f hf h
    exact fun e => k.idle (hstate ▸ e)

theorem forEach {α : Type} (k : BeforeSweep h n jt tiles sched s) (l : List α) (i : α → Fin 64)
    (f : α → HerdTile → HerdTile) (hf : ∀ a x, (f a x).state = x.state) :
    BeforeSweep h n jt tiles sched (forEach l (fun a => Machine.modHerd (i a) (f a)) s) :=
  forEach_keeps (BeforeSweep h n jt tiles sched) l _ (fun a _ _ h => h.modHerd (i a) (f a) (hf a)) s k

theorem modAnl (k : BeforeSweep h n jt tiles sched s) (f : AnlRgn → AnlRgn) (hf : ∀ a, (f a).sched = a.sched) :
    BeforeSweep h n jt tiles sched (modAnl n f s) where
  jt := k.jt
  active := k.active
  tiles := k.tiles
  sched := (upd_keeps AnlRgn.sched s.anl.rgn n f hf n).trans k.sched
  idle := k.idle

theorem noiseRgn (k : BeforeSweep h n jt tiles sched s) (f : NoiseRgn → NoiseRgn) :
    BeforeSweep h n jt tiles sched (modNoiseRgn n f s) := ⟨k.jt, k.active, k.tiles, k.sched, k.idle⟩

theorem tickJob (k : BeforeSweep h n jt tiles sched s) (f : TickJob → TickJob) (hjt : ∀ t, (f t).jt = t.jt)
    (hactive : ∀ t, (f t).active = t.active) (hplan : ∀ t, (f t).plan = t.plan) :
    BeforeSweep h n jt tiles sched (modTickJob n f s) where
  jt := (upd_keeps TickJob.jt s.herd.job n f hjt n).trans k.jt
  active := (upd_keeps TickJob.active s.herd.job n f hactive n).trans k.active
  tiles := (planTiles_congr _ _ n (upd_keeps TickJob.plan s.herd.job n f hplan n)).trans k.tiles
  sched := k.sched
  idle := k.idle

theorem lateRepeatKey (k : BeforeSweep h n jt tiles sched s) (pkt : List Byte) :
    BeforeSweep h n jt tiles sched (lateRepeatKey n pkt s) := by
  unfold Machine.lateRepeatKey
  split
  · exact k.forEach _ id _ fun _ x => by split <;> rfl
  · exact k

theorem resetOnSwap (k : BeforeSweep h n jt tiles sched s) : BeforeSweep h n jt tiles sched (resetOnSwap n s) := by
  unfold Machine.resetOnSwap
  split
  · have hcleared := (k.modAnl (fun a => { a with chains := a.chains.map fun c =>
      { c with best := 2 ^ 63 - 1, quiet := 0, offset := 0, decaying := false, res := [] } }) fun _ => rfl).tickJob
        (fun t => { t with pending := [] }) (fun _ => rfl) (fun _ => rfl) fun _ => rfl
    dsimp only [emptyIndexes]
    split
    · exact hcleared
    · exact hcleared.forEach _ Part.tile (fun p => showRes p.i []) fun _ _ => rfl
  · exact k

/-- The buffer swaps that are due before the sweep (R132). -/
theorem takeSwaps (k : BeforeSweep h n jt tiles sched s) (due : List (Fin 64)) :
    BeforeSweep h n jt tiles sched (takeSwaps n due s) := by
  have happlied : BeforeSweep h n jt tiles sched (Machine.forEach due (fun h => Machine.modHerd h applySwap) s) :=
    k.forEach due id (fun _ => applySwap) fun _ x => by unfold applySwap; split <;> rfl
  have hidle := happlied.active
  simp only [Machine.takeSwaps]
  split
  · exact happlied
  · rw [if_neg (by rw [hidle]; decide)]
    exact happlied.resetOnSwap

theorem takeKeys (k : BeforeSweep h n jt tiles sched s) (q : Nat) : BeforeSweep h n jt tiles sched (takeKeys n q s) := by
  simp only [Machine.takeKeys]
  split
  · exact k
  · exact (k.forEach _ id (fun _ t => { t with key := t.shadowKey, shadowKey := none }) fun _ _ => rfl).noiseRgn _

end BeforeSweep

/-! ### The keys at hand (R113) -/

/-- A tile of a REPEAT job takes the late key if it has none (R118). -/
def takeLate (key : List Byte) (t : HerdTile) : HerdTile :=
  if t.key.isNone && t.shadowKey.isNone then { t with shadowKey := some key } else t

/-- A tile that takes a late key has the same key register, and no shadow register has been emptied. -/
theorem takeLate_keeps (key : List Byte) (x : HerdTile) :
    (takeLate key x).key = x.key ∧ ((takeLate key x).shadowKey = none → x.shadowKey = none) := by
  unfold takeLate
  split
  · exact ⟨rfl, fun h => nomatch h⟩
  · exact ⟨rfl, id⟩

/-- A late REPEAT key changes Herd tiles alone. -/
theorem lateRepeatKey_frame (n : Fin 8) (pkt : List Byte) (s : State) :
    ∃ v, lateRepeatKey n pkt s = { s with herd := { s.herd with tile := v } } := by
  unfold lateRepeatKey
  split
  · refine forEach_keeps (fun t => ∃ v, t = { s with herd := { s.herd with tile := v } }) _ _ ?_ s ⟨s.herd.tile, rfl⟩
    rintro a - _ ⟨v, rfl⟩
    exact ⟨_, rfl⟩
  · exact ⟨s.herd.tile, rfl⟩

/-- A late REPEAT key empties no shadow register and leaves the key registers. -/
theorem lateRepeatKey_tile (n : Fin 8) (pkt : List Byte) (s : State) (i : Fin 64) :
    (lateRepeatKey n pkt s).herd.tile[i].key = s.herd.tile[i].key ∧
      ((lateRepeatKey n pkt s).herd.tile[i].shadowKey = none → s.herd.tile[i].shadowKey = none) := by
  unfold lateRepeatKey
  split
  · refine forEach_keeps (fun t => t.herd.tile[i].key = s.herd.tile[i].key ∧
      (t.herd.tile[i].shadowKey = none → s.herd.tile[i].shadowKey = none)) _ _ (fun a _ t ht => ?_) s ⟨rfl, id⟩
    generalize repeatKey ((s.noise.rgn[n].root).getD []) (runSeed pkt) = key
    change (upd t.herd.tile a (takeLate key))[i].key = _ ∧ ((upd t.herd.tile a (takeLate key))[i].shadowKey = none → _)
    by_cases ha : i = a
    · subst ha
      obtain ⟨hkey, hshadow⟩ := takeLate_keeps key t.herd.tile[i]
      rw [upd_same]
      exact ⟨hkey.trans ht.1, fun h => ht.2 (hshadow h)⟩
    · rw [upd_other _ _ _ _ ha]
      exact ht
  · exact ⟨rfl, id⟩

/-- With a key at hand for every tile that needs one, no tile is without after a late REPEAT key. -/
theorem lateRepeatKey_keyed {n : Fin 8} {s : State} (pkt : List Byte) {jt : Nat} {tiles : List (Fin 64)}
    (hk : ∀ k ∈ tiles, needsKey s.noise.rgn[n] jt s.herd.tile[k] = true → s.herd.tile[k].shadowKey ≠ none) :
    (tiles.any fun h => needsKey s.noise.rgn[n] jt (lateRepeatKey n pkt s).herd.tile[h] &&
      (lateRepeatKey n pkt s).herd.tile[h].shadowKey.isNone) = false := by
  refine List.any_eq_false.mpr fun k hmem hbad => ?_
  obtain ⟨hneeds, hnone⟩ := Bool.and_eq_true_iff.mp hbad
  obtain ⟨hkey, hshadow⟩ := lateRepeatKey_tile n pkt s k
  rw [needsKey, hkey] at hneeds
  exact hk k hmem hneeds (hshadow (Option.isNone_iff_eq_none.mp hnone))

/-- With noise READY, the keys at hand and the ramp at its top, the sweep begins (R92, R113, R381). -/
theorem openSweep_begins {s : State} {h : Fin 64} {n : Fin 8} {j : Job} (k : Opens s h n j) (hnoise : s.noise.state = .ready)
    (hramp : 16 ≤ s.pwr.rgn[n].level)
    (hk : ∀ k ∈ planTiles s n, needsKey s.noise.rgn[n] (s.herd.job[n].jt + 1) s.herd.tile[k] = true →
      s.herd.tile[k].shadowKey ≠ none) :
    openSweep n j s = beginSweep n (modNoiseRgn n (fun x => { x with keyWait := false }) (lateRepeatKey n j.pkt s)) := by
  have hkeyed := lateRepeatKey_keyed j.pkt hk
  obtain ⟨v, hv⟩ := lateRepeatKey_frame n j.pkt s
  rw [hv] at hkeyed ⊢
  simp only [openSweep, k.late, k.active, Bool.false_eq_true, if_false, hnoise, ne_eq, not_true_eq_false, hv,
    planTiles] at hkeyed ⊢
  rw [hkeyed]
  simp only [Bool.false_eq_true, if_false, if_neg hramp.not_gt]

/-! ### The sweep that begins -/

/-- Region n's job sweeps at jt with the schedule's β. -/
structure Begun (n : Fin 8) (jt beta : Nat) (s : State) : Prop where
  jobJt : s.herd.job[n].jt = jt
  active : s.herd.job[n].active = true
  part : s.herd.job[n].part = .sweep
  beta : s.anl.rgn[n].betaSched = beta

/-- A change of Herd tiles that leaves what a function reads of them leaves it of every tile. -/
theorem forEach_modHerd_keeps {α : Type} (g : HerdTile → α) (f : HerdTile → HerdTile) (hf : ∀ x, g (f x) = g x)
    (l : List (Fin 64)) (s : State) (h : Fin 64) : g (forEach l (fun i => modHerd i f) s).herd.tile[h] = g s.herd.tile[h] :=
  forEach_keeps (fun t => g t.herd.tile[h] = g s.herd.tile[h]) l _
    (fun a _ t ht => (upd_keeps g t.herd.tile a f hf h).trans ht) s rfl

/-- What a sweep takes of keys leaves the analysis, and every tile's sweep_done (R113). -/
theorem takeKeys_keeps (n : Fin 8) (q : Nat) (s : State) (h : Fin 64) :
    (takeKeys n q s).anl = s.anl ∧ (takeKeys n q s).herd.tile[h].sweepDone = s.herd.tile[h].sweepDone := by
  simp only [takeKeys]
  split
  · exact ⟨rfl, rfl⟩
  · refine ⟨?_, forEach_modHerd_keeps HerdTile.sweepDone
      (fun t => { t with key := t.shadowKey, shadowKey := none }) (fun _ => rfl) _ s h⟩
    rw [forEach_modHerd]
    rfl

/-- The tiles of a plan have swept nothing of the sweep that begins. -/
theorem clearDone_tile {l : List (Fin 64)} {h : Fin 64} (hh : h ∈ l) (s : State) :
    (forEach l (fun h => modHerd h fun t => { t with sweepDone := false }) s).herd.tile[h].sweepDone = false := by
  induction l generalizing s with
  | nil => cases hh
  | cons a l ih =>
    rw [forEach_cons]
    rcases List.mem_cons.mp hh with rfl | hl
    · exact forEach_keeps (fun t => t.herd.tile[h].sweepDone = false) _ _
        (fun b _ t ht => by
          by_cases hb : h = b
          · rw [hb]
            exact congrArg HerdTile.sweepDone (upd_same _ _ _)
          · exact (congrArg HerdTile.sweepDone (upd_other _ _ _ _ hb)).trans ht) _
        (congrArg HerdTile.sweepDone (upd_same _ _ _))
    · exact ih hl _

/-- The β of a chain for a sweep (R124). -/
def setBeta (b : Nat) (a : AnlRgn) : AnlRgn :=
  { a with betaSched := b, chains := a.chains.map fun c => { c with beta := betaEff (readAcb a.acb) b c.offset } }

/-- The job and its keys enter the sweep at jt, with β from the schedule. -/
def enterSweep (n : Fin 8) (jt beta : Nat) (s : State) : State :=
  modTickJob n (fun t => { t with jt := jt, part := .sweep, active := true, groupTick := 0, holds := false })
    (takeKeys n jt (modAnl n (setBeta beta) s))

/-- No tile of the plan has swept. -/
def clearDone (n : Fin 8) (s : State) : State :=
  forEach (planTiles s n) (fun h => modHerd h fun t => { t with sweepDone := false }) s

theorem BeforeSweep.clearDone {h : Fin 64} {n : Fin 8} {jt : Nat} {tiles : List (Fin 64)} {sched : List (Nat × Nat)} {s : State}
    (k : BeforeSweep h n jt tiles sched s) : BeforeSweep h n jt tiles sched (clearDone n s) :=
  k.forEach (planTiles s n) id (fun _ t => { t with sweepDone := false }) fun _ _ => rfl

theorem BeforeSweep.clearDone_done {h : Fin 64} {n : Fin 8} {jt : Nat} {tiles : List (Fin 64)} {sched : List (Nat × Nat)}
    {s : State} (k : BeforeSweep h n jt tiles sched s) (hh : h ∈ tiles) :
    (Machine.clearDone n s).herd.tile[h].sweepDone = false :=
  clearDone_tile (k.tiles.symm ▸ hh) s

theorem beginSweep_eq (n : Fin 8) (s : State) :
    let u := takeSwaps n ((planTiles s n).filter fun h => s.herd.tile[h].held.isSome) s
    beginSweep n s = enterSweep n (u.herd.job[n].jt + 1) (betaSched u.anl.rgn[n].sched (u.herd.job[n].jt + 1)) (clearDone n u) :=
  rfl

theorem enterSweep_begun {h : Fin 64} {n : Fin 8} {jt : Nat} {tiles : List (Fin 64)} {sched : List (Nat × Nat)} {s : State}
    (k : BeforeSweep h n jt tiles sched s) (q beta : Nat) :
    Begun n q beta (enterSweep n q beta s) ∧ (enterSweep n q beta s).herd.tile[h].state ≠ .sweeping ∧
      (enterSweep n q beta s).herd.tile[h].sweepDone = s.herd.tile[h].sweepDone := by
  obtain ⟨hanl, hdone⟩ := takeKeys_keeps n q (modAnl n (setBeta beta) s) h
  have hkeyed := (k.modAnl (setBeta beta) fun _ => rfl).takeKeys q
  refine ⟨⟨?_, ?_, ?_, ?_⟩, hkeyed.idle, hdone⟩
  · exact congrArg TickJob.jt (upd_same _ _ _)
  · exact congrArg TickJob.active (upd_same _ _ _)
  · exact congrArg TickJob.part (upd_same _ _ _)
  · rw [enterSweep, modTickJob_anl, hanl]
    exact congrArg AnlRgn.betaSched (upd_same _ _ _)

/-- The sweep begins at the job's next jt, and a tile of the plan may start it. -/
theorem beginSweep_begun {h : Fin 64} {n : Fin 8} {jt : Nat} {tiles : List (Fin 64)} {sched : List (Nat × Nat)} {s : State}
    (k : BeforeSweep h n jt tiles sched s) (hh : h ∈ tiles) :
    Begun n (jt + 1) (betaSched sched (jt + 1)) (beginSweep n s) ∧ (beginSweep n s).herd.tile[h].state ≠ .sweeping ∧
      (beginSweep n s).herd.tile[h].sweepDone = false := by
  have hswapped := k.takeSwaps ((planTiles s n).filter fun h => s.herd.tile[h].held.isSome)
  obtain ⟨hbegun, hidle, hkept⟩ := enterSweep_begun hswapped.clearDone (jt + 1) (betaSched sched (jt + 1))
  rw [beginSweep_eq, hswapped.jt, hswapped.sched]
  exact ⟨hbegun, hidle, hkept.trans (hswapped.clearDone_done hh)⟩

/-! ### The tile that starts -/

/-- Tile h sweeps class 0 of the sweep at jt. -/
structure SweepsFirst (h : Fin 64) (n : Fin 8) (jt beta : Nat) (s : State) : Prop extends Begun n jt beta s where
  sweeps : s.herd.tile[h].state = .sweeping
  tileJt : s.herd.tile[h].sweepJt = jt
  cls : s.herd.tile[h].cls = 0

section
variable {h : Fin 64} {n : Fin 8} {jt beta : Nat}

/-- A change that leaves the job's part in the sweep, its β and the tile. -/
theorem SweepsFirst.of_same {s t : State} (k : SweepsFirst h n jt beta s) (hj : t.herd.job[n] = s.herd.job[n])
    (ha : t.anl = s.anl) (ht : t.herd.tile[h] = s.herd.tile[h]) : SweepsFirst h n jt beta t :=
  ⟨⟨hj ▸ k.jobJt, hj ▸ k.active, hj ▸ k.part, ha ▸ k.beta⟩, ht ▸ k.sweeps, ht ▸ k.tileJt, ht ▸ k.cls⟩

/-- A change of tile h that leaves what it sweeps. -/
theorem SweepsFirst.modHerd {s : State} (k : SweepsFirst h n jt beta s) (f : HerdTile → HerdTile)
    (hf : (f s.herd.tile[h]).state = s.herd.tile[h].state ∧ (f s.herd.tile[h]).sweepJt = s.herd.tile[h].sweepJt ∧
      (f s.herd.tile[h]).cls = 0) : SweepsFirst h n jt beta (modHerd h f s) := by
  have htile : (Machine.modHerd h f s).herd.tile[h] = f s.herd.tile[h] := upd_same _ _ _
  obtain ⟨hstate, hjt, hcls⟩ := hf
  exact ⟨⟨k.jobJt, k.active, k.part, k.beta⟩, htile ▸ hstate.trans k.sweeps, htile ▸ hjt.trans k.tileJt, htile ▸ hcls⟩

/-- Ending jobs leaves the sweep. -/
theorem sweepsFirst_ends (h : Fin 64) (n : Fin 8) (jt beta : Nat) : KeptByEnds (SweepsFirst h n jt beta) where
  jobs _ _ k := k.of_same rfl rfl rfl
  que _ _ k := k.of_same rfl rfl rfl
  evt _ _ k := k.of_same rfl rfl rfl
  err _ _ k := k.of_same rfl rfl rfl
  msix _ _ k := k.of_same rfl rfl rfl
  ctx _ _ k := k.of_same rfl rfl rfl
  phys _ _ _ k := k.of_same rfl rfl rfl
  host _ _ _ k := k.of_same rfl rfl rfl
  shadow s m k :=
    have hjob {α : Type} (g : TickJob → α) (hg : ∀ t : TickJob, g { t with shadow := none } = g t) :
        g (modTickJob m (fun t => { t with shadow := none }) s).herd.job[n] = g s.herd.job[n] :=
      upd_keeps g s.herd.job m _ hg n
    ⟨⟨(hjob TickJob.jt fun _ => rfl).trans k.jobJt, (hjob TickJob.active fun _ => rfl).trans k.active,
      (hjob TickJob.part fun _ => rfl).trans k.part, k.beta⟩, k.sweeps, k.tileJt, k.cls⟩
  purge _ _ k := k.of_same rfl rfl rfl

theorem SweepsFirst.sendClass {s : State} (k : SweepsFirst h n jt beta s) (c : Nat) :
    SweepsFirst h n jt beta (sendClass n h c s) := by
  have hsent : ∀ es : List SendEnt, SweepsFirst h n jt beta (forEach es (fun e u =>
      if (e.lx, e.ly) == logicalOf s.rgn.rgn[n] (.herd h) then Machine.modHerd h (copySelf e) u
      else pushVc0 (engXY (.herd h)) (entFlits n s.rgn.rgn[n] h u.herd.tile[h].mem e) u) s) := fun es => by
    refine forEach_keeps (SweepsFirst h n jt beta) es _ (fun e _ u hu => ?_) s k
    split
    · exact hu.modHerd _ ⟨rfl, rfl, hu.cls⟩
    · exact hu.of_same rfl rfl rfl
  simp only [Machine.sendClass]
  split
  · exact hsent _
  · split
    · exact keeps_jobError (sweepsFirst_ends h n jt beta) _ _ _ _ (hsent _)
    · exact hsent _

theorem SweepsFirst.runClass {s : State} (k : SweepsFirst h n jt beta s) : SweepsFirst h n jt beta (runClass n h 0 s) := by
  simp only [Machine.runClass]
  split
  · exact (k.modHerd (updateClass 0) ⟨rfl, rfl, rfl⟩).sendClass 0
  · split
    · exact keeps_jobError (sweepsFirst_ends h n jt beta) _ _ _ _ k
    · exact k

/-- A tile that starts sweeps class 0 with the job's jt, whether its class 0 runs now or waits (R80). -/
theorem startTile_sweeps {s : State} (k : Begun n jt beta s) : SweepsFirst h n jt beta (startTile n h s) := by
  have hstart (f : HerdTile → HerdTile) (hf : (f s.herd.tile[h]).state = .sweeping ∧ (f s.herd.tile[h]).sweepJt = jt ∧
      (f s.herd.tile[h]).cls = 0) : SweepsFirst h n jt beta (Machine.modHerd h f s) := by
    have htile : (Machine.modHerd h f s).herd.tile[h] = f s.herd.tile[h] := upd_same _ _ _
    obtain ⟨hstate, hjt, hcls⟩ := hf
    exact ⟨⟨k.jobJt, k.active, k.part, k.beta⟩, htile ▸ hstate, htile ▸ hjt, htile ▸ hcls⟩
  simp only [startTile]
  split
  · exact (hstart _ ⟨rfl, k.jobJt, rfl⟩).runClass
  · exact hstart _ ⟨rfl, k.jobJt, rfl⟩

end

/-! ### The statement -/

/-- Settles O10: the hold is one change of the job and one of the tile; what follows the start of a sweep stops jobs at most. -/
theorem sweepsHoldForNoiseAndBeginOnce : Obligations.SweepsHoldForNoiseAndBeginOnce := by
  intro s h n j hregion hjob b hinit hexcluded hpart hlate hactive hpower
  have k : Opens s h n j := ⟨hregion, hjob, hinit, hexcluded, hpart, hlate, hactive, hpower⟩
  refine ⟨fun hnoise => ?_, fun hnoise hramp hstate hkeys => ?_⟩
  · have hheld : (modTickJob n (fun t => { t with holds := true }) s).herd.job[n] = { s.herd.job[n] with holds := true } :=
      upd_same _ _ _
    have hingest : s.herd.job[n].part ≠ .sweep := by rw [hpart]; decide
    rw [exec_sweepStart k, openSweep_holds k hnoise, sweepOpened, hheld, if_pos hingest, if_pos rfl]
    rfl
  · have hbefore : BeforeSweep h n b.jt (planTiles s n) s.anl.rgn[n].sched s := ⟨rfl, hactive, rfl, rfl, hstate⟩
    obtain ⟨hbegun, hidle, hdone⟩ := beginSweep_begun
      ((hbefore.lateRepeatKey j.pkt).noiseRgn fun x => { x with keyWait := false }) (sweepRegion_plan hregion)
    rw [← openSweep_begins k hnoise hramp hkeys] at hbegun hidle hdone
    have hsweeps := keeps_settle (sweepsFirst_ends h n _ _) n _ (startTile_sweeps (h := h) hbegun)
    have hstarts : ¬ ((openSweep n j s).herd.tile[h].state = .sweeping ∨ (openSweep n j s).herd.tile[h].sweepDone = true) :=
      not_or.2 ⟨hidle, ne_true_of_eq_false hdone⟩
    refine ⟨_, ?_, hsweeps.jobJt, hsweeps.active, hsweeps.part, hsweeps.beta, hsweeps.sweeps, hsweeps.tileJt, hsweeps.cls⟩
    rw [exec_sweepStart k, sweepOpened, if_neg (not_not.2 hbegun.part), if_neg hstarts]

end Sys2Proof.Machine
end

section
/-!
PROOFS. Insertion in the order of a key, which reservoirs (06_annealing_low_states.md R130) and the merge (R135) share: into a
sorted list an element of a new key goes in order.
-/
namespace Sys2Proof.Machine

section
variable {α β : Type} [LinearOrder β] (key : α → β)

theorem pairwise_orderedInsert_key (a : α) (l : List α) (hl : l.Pairwise fun x y => key x < key y)
    (ha : ∀ x ∈ l, key x ≠ key a) :
    (l.orderedInsert (fun x y => key x < key y) a).Pairwise fun x y => key x < key y := by
  induction l with
  | nil => exact List.pairwise_singleton _ _
  | cons x l ih =>
    obtain ⟨hx, hl'⟩ := List.pairwise_cons.1 hl
    rw [List.orderedInsert_cons]
    split
    case isTrue hax =>
      refine List.pairwise_cons.2 ⟨fun y hy => ?_, hl⟩
      obtain rfl | hy := List.mem_cons.1 hy
      · exact hax
      · exact hax.trans (hx y hy)
    case isFalse hax =>
      have hxa : key x < key a := (not_lt.1 hax).lt_of_ne (ha x List.mem_cons_self)
      refine List.pairwise_cons.2 ⟨fun y hy => ?_, ih hl' fun y hy => ha y (List.mem_cons_of_mem _ hy)⟩
      obtain rfl | hy := (List.mem_orderedInsert _).1 hy
      · exact hxa
      · exact hx y hy

theorem pairwise_insertionSort_key (l : List α) (hl : l.Pairwise fun x y => key x ≠ key y) :
    (l.insertionSort fun x y => key x < key y).Pairwise fun x y => key x < key y := by
  induction l with
  | nil => exact List.Pairwise.nil
  | cons a l ih =>
    obtain ⟨ha, hl⟩ := List.pairwise_cons.1 hl
    exact pairwise_orderedInsert_key key a _ (ih hl) fun x hx => (ha x ((List.mem_insertionSort _).1 hx)).symm

end

end Sys2Proof.Machine
end

section
/-!
PROOFS. Reservoirs stay sound (06_annealing_low_states.md R130, R131): an admitted entry joins entries of other hashes and other
slots, fewer than res_k.
-/
namespace Sys2Proof.Machine

/-! ### Reservoir order (R130) -/

/-- What reservoir order compares: the energy, then the hash. -/
def ResEntry.key (x : ResEntry) : ℤ ×ₗ ℕ := toLex (x.energy, x.hash.toNat)

theorem ResEntry.key_lt_iff (x y : ResEntry) :
    x.key < y.key ↔ x.energy < y.energy ∨ x.energy = y.energy ∧ x.hash < y.hash := Prod.Lex.toLex_lt_toLex

theorem ResEntry.hash_eq_of_key {x y : ResEntry} (h : x.key = y.key) : x.hash = y.hash :=
  BitVec.eq_of_toNat_eq (congrArg (fun k => (ofLex k).2) h)

theorem resInsert_eq_orderedInsert (x : ResEntry) (l : List ResEntry) :
    resInsert x l = l.orderedInsert (fun a b => a.key < b.key) x := by
  induction l with
  | nil => rfl
  | cons y l ih =>
    have hbefore : resBefore x.energy x.hash y = true ↔ x.key < y.key :=
      (resBefore_iff x.energy x.hash y).trans (x.key_lt_iff y).symm
    simp only [resInsert, List.orderedInsert_cons, hbefore, ih]

/-! ### Sound reservoirs (R130, R131) -/

section
variable {k : Nat} {l m : List ResEntry}

theorem reservoirSound_nil (k : Nat) : ReservoirSound k [] := ⟨.nil, .nil, .nil, nofun, Nat.zero_le k⟩

theorem reservoirSound_sublist (h : ReservoirSound k m) (hs : l.Sublist m) : ReservoirSound k l := by
  obtain ⟨hord, hhash, hslot, hlt, hlen⟩ := h
  exact ⟨hord.sublist hs, hhash.sublist (hs.map _), hslot.sublist (hs.map _), fun x hx => hlt x (hs.subset hx),
    hs.length_le.trans hlen⟩

theorem reservoirSound_resInsert (h : ReservoirSound k l) (x : ResEntry) (hlen : l.length < k) (hslot : x.slot < k)
    (hnew : ∀ y ∈ l, y.hash ≠ x.hash ∧ y.slot ≠ x.slot) : ReservoirSound k (resInsert x l) := by
  obtain ⟨hord, hhashes, hslots, hlt, -⟩ := h
  have hperm := resInsert_perm x l
  refine ⟨?_, (hperm.map _).nodup_iff.2 (List.nodup_cons.2 ⟨?_, hhashes⟩),
    (hperm.map _).nodup_iff.2 (List.nodup_cons.2 ⟨?_, hslots⟩), fun y hy => ?_, hperm.length_eq.trans_le hlen⟩
  · rw [resInsert_eq_orderedInsert]
    simp only [← ResEntry.key_lt_iff] at hord ⊢
    exact pairwise_orderedInsert_key _ x l hord fun y hy e => (hnew y hy).1 (ResEntry.hash_eq_of_key e)
  · intro hx
    obtain ⟨y, hy, e⟩ := List.mem_map.1 hx
    exact (hnew y hy).1 e
  · intro hx
    obtain ⟨y, hy, e⟩ := List.mem_map.1 hx
    exact (hnew y hy).2 e
  · obtain rfl | hy := List.mem_cons.1 (hperm.mem_iff.1 hy)
    · exact hslot
    · exact hlt y hy

end

/-- An insertion into a sound reservoir is one of the offered entry, in a slot that is free, among entries of other hashes: all
that were there while there was room, else all but the worst. -/
theorem resOffer_inserted {k w j : Nat} {e : Int} {h : W64} {sat : Bool} {l res : List ResEntry} (hl : ReservoirSound k l)
    (ho : resOffer k w e h sat l = .inserted j res) :
    ∃ kept, kept.Sublist l ∧ kept.length < k ∧ j < k ∧ (∀ x ∈ kept, x.hash ≠ h ∧ x.slot ≠ j) ∧
      res = resInsert (offeredEntry w e h j) kept := by
  obtain ⟨-, -, hslots, hlt, hlen⟩ := hl
  have hr : ¬ OfferRefused k e sat := fun hr => by simp [resOffer_refused w hr] at ho
  have hs : ¬ ∃ x ∈ l, x.hash = h := fun hs => by simp [resOffer_duplicate hr w hs] at ho
  have hother : ∀ x ∈ l, x.hash ≠ h := fun x hx hh => hs ⟨x, hx, hh⟩
  by_cases hroom : l.length < k
  · rw [resOffer_room hr hs w hroom] at ho
    obtain ⟨rfl, rfl⟩ := Offered.inserted.inj ho
    obtain ⟨hj, hfree, -⟩ := freeSlot_spec k l hroom
    exact ⟨l, .refl l, hroom, hj, fun x hx => ⟨hother x hx, hfree x hx⟩, rfl⟩
  · have hk : 0 < k := Nat.pos_of_ne_zero fun h0 => hr (.inl h0)
    obtain rfl | ⟨best, worst, rfl⟩ := l.eq_nil_or_concat'
    · exact absurd hk hroom
    · rw [resOffer_full hr hs w (not_lt.1 hroom) worst best rfl] at ho
      split at ho
      · obtain ⟨rfl, rfl⟩ := Offered.inserted.inj ho
        rw [List.length_append, List.length_singleton] at hlen
        have hslot : ∀ x ∈ best, x.slot ≠ worst.slot := fun x hx heq => by
          rw [List.map_append, List.nodup_append] at hslots
          exact hslots.2.2 _ (List.mem_map_of_mem hx) _ (List.mem_singleton_self _) heq
        exact ⟨best, List.sublist_append_left _ _, hlen, hlt worst (by simp),
          fun x hx => ⟨hother x (List.mem_append_left _ hx), hslot x hx⟩, rfl⟩
      · cases ho

/-- Settles O15: the insertion is of a new hash and a free slot among fewer than res_k entries. -/
theorem reservoirStaysOrderedAndDistinct : Obligations.ReservoirStaysOrderedAndDistinct := by
  refine fun k => ⟨reservoirSound_nil k, fun w e h sat l hl j res ho => ?_⟩
  obtain ⟨kept, hsub, hlen, hj, hnew, rfl⟩ := resOffer_inserted hl ho
  exact reservoirSound_resInsert (reservoirSound_sublist hl hsub) (offeredEntry w e h j) hlen hj hnew

end Sys2Proof.Machine
end

section
/-!
PROOFS. The merge (06_annealing_low_states.md R135): the gathered entries in the order of energy, hash, chain and sweep, the first
of each hash, and of these the first merge_k.
-/
namespace Sys2Proof.Machine

/-! ### The order of the merge (R135 step 2) -/

/-- What the merge compares: the energy, the hash, the chain and the sweep. -/
def Gathered.key (x : Gathered) : ℤ ×ₗ ℕ ×ₗ ℕ ×ₗ ℕ := toLex (x.energy, toLex (x.hash.toNat, toLex (x.chain, x.sweep)))

theorem Gathered.before_iff (x y : Gathered) : x.before y = true ↔ x.key < y.key := by
  simp only [Gathered.before, Gathered.key, Prod.Lex.toLex_lt_toLex, Bool.or_eq_true, Bool.and_eq_true, decide_eq_true_eq,
    beq_iff_eq, BitVec.ult_iff_lt, BitVec.lt_def, BitVec.toNat_inj]

theorem Gathered.key_inj {x y : Gathered} (h : x.key = y.key) : x.hash = y.hash ∧ x.chain = y.chain :=
  ⟨BitVec.eq_of_toNat_eq (congrArg (fun k => (ofLex (ofLex k).2).1) h),
    congrArg (fun k => (ofLex (ofLex (ofLex k).2).2).1) h⟩

theorem insertGathered_eq_orderedInsert (x : Gathered) (l : List Gathered) :
    insertGathered x l = l.orderedInsert (fun a b => a.key < b.key) x := by
  induction l with
  | nil => rfl
  | cons y l ih => simp only [insertGathered, List.orderedInsert_cons, Gathered.before_iff, ih]

/-- The gathered entries in the order of the merge. -/
def gatheredInOrder (cs : List Chain) : List Gathered := (gather cs).reverse.insertionSort fun a b => a.key < b.key

theorem mergeKept_eq (k : Nat) (cs : List Chain) : mergeKept k cs = (firstOfHash (gatheredInOrder cs) []).take k := by
  rw [mergeKept, gatheredInOrder, List.insertionSort, List.foldr_reverse]
  simp only [insertGathered_eq_orderedInsert]

theorem mem_gatheredInOrder (cs : List Chain) (x : Gathered) : x ∈ gatheredInOrder cs ↔ x ∈ gather cs :=
  (List.mem_insertionSort _).trans List.mem_reverse

theorem mem_gather (cs : List Chain) (x : Gathered) : x ∈ gather cs ↔ ∃ c ∈ cs, ∃ q ∈ c.res, q.valid = true ∧
    x = { energy := q.energy, hash := q.hash, chain := c.idx, sweep := q.sweep, slot := q.slot } := by
  simp only [gather, List.mem_flatMap, List.mem_map, List.mem_filter, and_assoc, eq_comm]

/-- Of chains of distinct numbers, each with entries of distinct hashes, no two entries are equal in the order of the merge. -/
theorem gather_keys (cs : List Chain) (hidx : (cs.map Chain.idx).Nodup) (hres : ∀ c ∈ cs, (c.res.map ResEntry.hash).Nodup) :
    (gather cs).Pairwise fun x y => x.key ≠ y.key := by
  refine List.pairwise_flatMap.2 ⟨fun c hc => ?_, (List.pairwise_map.1 hidx).imp fun hne x hx y hy e => ?_⟩
  · refine List.pairwise_map.2 (((List.pairwise_map.1 (hres c hc)).filter _).imp fun hne e => ?_)
    exact hne (Gathered.key_inj e).1
  · obtain ⟨p, -, rfl⟩ := List.mem_map.1 hx
    obtain ⟨q, -, rfl⟩ := List.mem_map.1 hy
    exact hne (Gathered.key_inj e).2

theorem gatheredInOrder_sorted (cs : List Chain) (hidx : (cs.map Chain.idx).Nodup)
    (hres : ∀ c ∈ cs, (c.res.map ResEntry.hash).Nodup) :
    (gatheredInOrder cs).Pairwise fun x y => x.before y = true := by
  simp only [Gathered.before_iff]
  refine pairwise_insertionSort_key _ _ (List.pairwise_reverse.2 ?_)
  exact (gather_keys cs hidx hres).imp Ne.symm

/-! ### The first entry of each hash (R135 step 3) -/

theorem firstOfHash_sublist (l : List Gathered) (seen : List W64) : (firstOfHash l seen).Sublist l := by
  induction l generalizing seen with
  | nil => exact .slnil
  | cons x l ih =>
    rw [firstOfHash]
    split
    · exact (ih seen).cons x
    · exact (ih _).cons_cons x

theorem firstOfHash_unseen (l : List Gathered) (seen : List W64) : ∀ x ∈ firstOfHash l seen, x.hash ∉ seen := by
  induction l generalizing seen with
  | nil => nofun
  | cons y l ih =>
    rw [firstOfHash]
    split
    case isTrue => exact ih seen
    case isFalse hnew =>
      intro x hx
      obtain rfl | hx := List.mem_cons.1 hx
      · simpa using hnew
      · exact fun hseen => ih _ x hx (List.mem_cons_of_mem _ hseen)

theorem firstOfHash_nodup (l : List Gathered) (seen : List W64) : ((firstOfHash l seen).map Gathered.hash).Nodup := by
  induction l generalizing seen with
  | nil => exact .nil
  | cons y l ih =>
    rw [firstOfHash]
    split
    · exact ih seen
    · refine List.nodup_cons.2 ⟨fun hy => ?_, ih _⟩
      obtain ⟨x, hx, e⟩ := List.mem_map.1 hy
      exact firstOfHash_unseen l _ x hx (e ▸ List.mem_cons_self)

/-- An entry that is not the first of its hash comes after one of its hash, or its hash was seen before. -/
theorem firstOfHash_dropped {R : Gathered → Gathered → Prop} (l : List Gathered) (seen : List W64) (hl : l.Pairwise R)
    (x : Gathered) (hx : x ∈ l) (hnot : x ∉ firstOfHash l seen) : x.hash ∈ seen ∨ ∃ y ∈ l, y.hash = x.hash ∧ R y x := by
  induction l generalizing seen with
  | nil => cases hx
  | cons z l ih =>
    obtain ⟨hz, hl⟩ := List.pairwise_cons.1 hl
    have hin : (∃ y ∈ l, y.hash = x.hash ∧ R y x) → ∃ y ∈ z :: l, y.hash = x.hash ∧ R y x :=
      fun ⟨y, hy, hyx⟩ => ⟨y, List.mem_cons_of_mem _ hy, hyx⟩
    rw [firstOfHash] at hnot
    split at hnot
    case isTrue hseen =>
      obtain rfl | hx := List.mem_cons.1 hx
      · exact .inl (by simpa using hseen)
      · exact (ih seen hl hx hnot).imp_right hin
    case isFalse =>
      obtain ⟨hne, hnot⟩ := not_or.1 (mt List.mem_cons.2 hnot)
      have hx := (List.mem_cons.1 hx).resolve_left hne
      obtain hseen | hdrop := ih _ hl hx hnot
      · obtain e | hseen := List.mem_cons.1 hseen
        · exact .inr ⟨z, List.mem_cons_self, e.symm, hz x hx⟩
        · exact .inl hseen
      · exact .inr (hin hdrop)

/-! ### The first merge_k (R135 step 4) -/

/-- Of a sorted list, an element that is not among the first k comes after k of them. -/
theorem take_beyond {α : Type} {R : α → α → Prop} (k : Nat) (l : List α) (hl : l.Pairwise R) (x : α) (hx : x ∈ l)
    (hnot : x ∉ l.take k) : (l.take k).length = k ∧ ∀ y ∈ l.take k, R y x := by
  rw [← List.take_append_drop k l] at hl hx
  have hdrop : x ∈ l.drop k := (List.mem_append.1 hx).resolve_left hnot
  have hlen : 0 < (l.drop k).length := List.length_pos_of_mem hdrop
  rw [List.length_drop] at hlen
  exact ⟨List.length_take_of_le (by omega), fun y hy => (List.pairwise_append.1 hl).2.2 y hy x hdrop⟩

/-- Settles O17: the entries kept are the first merge_k of those that are the first of their hash in the sorted list. -/
theorem mergeKeepsTheLowestDistinctStates : Obligations.MergeKeepsTheLowestDistinctStates := by
  intro k cs hidx hres
  simp only [mergeKept_eq]
  have hsorted := gatheredInOrder_sorted cs hidx hres
  have hfirst := firstOfHash_sublist (gatheredInOrder cs) []
  have htake := List.take_sublist k (firstOfHash (gatheredInOrder cs) [])
  refine ⟨List.length_take_le _ _, (firstOfHash_nodup _ _).sublist (htake.map _), hsorted.sublist (htake.trans hfirst),
    fun x hx => ?_, fun x hx hnot => ?_⟩
  · exact (mem_gather cs x).1 ((mem_gatheredInOrder cs x).1 ((htake.trans hfirst).subset hx))
  · by_cases hkept : x ∈ firstOfHash (gatheredInOrder cs) []
    · exact .inr (take_beyond k _ (hsorted.sublist hfirst) x hkept hnot)
    · obtain hseen | ⟨y, hy, hyx⟩ := firstOfHash_dropped _ [] hsorted x ((mem_gatheredInOrder cs x).2 hx) hkept
      · cases hseen
      · exact .inl ⟨y, (mem_gatheredInOrder cs y).1 hy, hyx⟩

end Sys2Proof.Machine
end

section
/-!
PROOFS. The annealing update (06_annealing_low_states.md R126, R128): its best, its quiet sweeps and growth, and the decay of its
offset.
-/
namespace Sys2Proof.Machine

/-! ### The decay of an offset -/

/-- An offset and whether it decays, after the decay of an update. -/
def decayed (a : Acb) (on : Bool) (o : Nat) : Nat × Bool :=
  if on = true then (o - a.decay, decide (o - a.decay ≠ 0)) else (o, on)

theorem decayed_le (a : Acb) (on : Bool) (o : Nat) : (decayed a on o).1 ≤ o := by
  rw [decayed]
  split
  · exact Nat.sub_le o a.decay
  · exact le_rfl

theorem decayStep_grew (a : Acb) (c : Chain) : decayStep a true c = c := by simp [decayStep]

/-- Where the offset has not grown, the decay is a change of the offset and its mark only. -/
theorem decayStep_not_grew (a : Acb) (c : Chain) :
    decayStep a false c =
      { c with offset := (decayed a c.decaying c.offset).1, decaying := (decayed a c.decaying c.offset).2 } := by
  by_cases hd : c.decaying = true
  · have hmark : (c.offset - a.decay != 0) = decide (c.offset - a.decay ≠ 0) := by rw [Bool.eq_iff_iff]; simp
    simp only [decayStep, decayed, hd, if_true, Bool.not_false, Bool.and_true, hmark]
  · simp only [decayStep, decayed, if_neg hd, Bool.not_false, Bool.and_true]

/-! ### The update, case by case -/

section
variable {a : Acb} {e : Int} {sat : Bool} {f : Nat} {c : Chain}

theorem improved_iff : (!sat && decide (e < c.best)) = true ↔ sat = false ∧ e < c.best := by simp

theorem annealUpdate_off (hon : a.stallOn = false) :
    annealUpdate a e sat f c = if sat = false ∧ e < c.best then { c with best := e } else c := by
  simp only [annealUpdate, hon, improved_iff, Bool.not_false, if_true]

theorem annealUpdate_better (hon : a.stallOn = true) (hb : sat = false ∧ e < c.best) :
    annealUpdate a e sat f c = decayStep a false (if a.decayMode = true then { c with best := e, quiet := 0, decaying := true }
      else { c with best := e, quiet := 0, offset := 0 }) := by
  simp only [annealUpdate, hon, improved_iff.2 hb, stallStep, if_true, Bool.not_true, Bool.false_eq_true, if_false]

section
variable (hon : a.stallOn = true) (hb : ¬ (sat = false ∧ e < c.best))
include hon hb

/-- Without an improvement the best stays, and the update is that of quiet sweeps. -/
theorem annealUpdate_not_better :
    annealUpdate a e sat f c = decayStep a (stallStep a false f c).2 (stallStep a false f c).1 := by
  have hno : (!sat && decide (e < c.best)) = false := Bool.eq_false_iff.2 (mt improved_iff.1 hb)
  simp only [annealUpdate, hon, hno, Bool.not_true, Bool.false_eq_true, if_false]

theorem annealUpdate_moving (hf : a.stallFlips ≤ f) : annealUpdate a e sat f c = decayStep a false { c with quiet := 0 } := by
  simp only [annealUpdate_not_better hon hb, stallStep, Bool.false_eq_true, if_false, if_neg hf.not_gt]

theorem annealUpdate_quiet (hf : f < a.stallFlips) (hw : c.quiet + 1 < a.window) :
    annealUpdate a e sat f c = decayStep a false { c with quiet := c.quiet + 1 } := by
  simp only [annealUpdate_not_better hon hb, stallStep, Bool.false_eq_true, if_false, if_pos hf, if_neg hw.not_ge]

theorem annealUpdate_grows (hf : f < a.stallFlips) (hw : a.window ≤ c.quiet + 1) :
    annealUpdate a e sat f c =
      { c with offset := min a.offsetMax (c.offset + a.step), quiet := 0, decaying := false, grow := satInc 16 c.grow } := by
  simp only [annealUpdate_not_better hon hb, stallStep, Bool.false_eq_true, if_false, if_pos hf, if_pos hw, decayStep_grew]

end

end

/-! ### What every update leaves alone, and its bound (R128) -/

/-- A chain but for its best, with an offset that does not pass `top`. -/
def StallMoves (top : Nat) (c d : Chain) : Prop :=
  ∃ q o on g, d = { c with quiet := q, offset := o, decaying := on, grow := g } ∧ (c.offset ≤ top → o ≤ top)

theorem decayStep_moves (a : Acb) (grew : Bool) (top : Nat) (c : Chain) : StallMoves top c (decayStep a grew c) := by
  cases grew with
  | true => exact ⟨_, _, _, _, decayStep_grew a c, id⟩
  | false => exact ⟨_, _, _, _, decayStep_not_grew a c, (decayed_le a _ _).trans⟩

theorem stallStep_moves (a : Acb) (improved : Bool) (f : Nat) (c : Chain) :
    StallMoves a.offsetMax c (stallStep a improved f c).1 := by
  simp only [stallStep]
  split
  · split
    · exact ⟨_, _, _, _, rfl, id⟩
    · exact ⟨_, _, _, _, rfl, fun _ => Nat.zero_le _⟩
  · split
    · split
      · exact ⟨_, _, _, _, rfl, fun _ => Nat.min_le_left _ _⟩
      · exact ⟨_, _, _, _, rfl, id⟩
    · exact ⟨_, _, _, _, rfl, id⟩

theorem StallMoves.trans {top : Nat} {c d u : Chain} (h : StallMoves top c d) (k : StallMoves top d u) : StallMoves top c u := by
  obtain ⟨q, o, on, g, rfl, ho⟩ := h
  obtain ⟨q', o', on', g', rfl, ho'⟩ := k
  exact ⟨q', o', on', g', rfl, ho' ∘ ho⟩

/-- Whatever the ACB says, an update sets the best and moves the stall state. -/
theorem annealUpdate_moves (a : Acb) (e : Int) (sat : Bool) (f : Nat) (c : Chain) :
    StallMoves a.offsetMax { c with best := if sat = false ∧ e < c.best then e else c.best } (annealUpdate a e sat f c) := by
  have hbest : (if sat = false ∧ e < c.best then { c with best := e } else c) =
      { c with best := if sat = false ∧ e < c.best then e else c.best } := by split <;> rfl
  cases hon : a.stallOn with
  | false => exact ⟨_, _, _, _, (annealUpdate_off hon).trans hbest, id⟩
  | true =>
    simp only [annealUpdate, improved_iff, hbest, hon, Bool.not_true, Bool.false_eq_true, if_false]
    exact (stallStep_moves a _ f _).trans (decayStep_moves a _ _ _)

/-! ### The statement -/

/-- Settles O16: each branch of the program of R126 by its equation, what all leave alone by the form of every update. -/
theorem annealingUpdateMatchesItsProgram : Obligations.AnnealingUpdateMatchesItsProgram := by
  intro a e sat f c better r
  have hmoves : StallMoves _ _ r := annealUpdate_moves a e sat f c
  obtain ⟨q, o, on, g, hr, ho⟩ := hmoves
  refine ⟨fun hb => ?_, fun hb => ?_, ?_, fun hon => ?_, fun hon hb => ?_, fun hon hb hf => ?_, fun hon hb hf hw => ?_,
    fun hon hb hf hw => ?_, fun hmax => ?_⟩
  · exact (congrArg Chain.best hr).trans (if_pos hb)
  · exact (congrArg Chain.best hr).trans (if_neg hb)
  · rw [hr]
    exact ⟨rfl, rfl, rfl, rfl⟩
  · rw [show r = _ from annealUpdate_off hon]
    split <;> exact ⟨rfl, rfl, rfl, rfl⟩
  · rw [show r = _ from annealUpdate_better hon hb, decayStep_not_grew]
    cases a.decayMode
    · exact ⟨rfl, rfl, fun _ => rfl, nofun⟩
    · exact ⟨rfl, rfl, nofun, fun _ => rfl⟩
  · rw [show r = _ from annealUpdate_moving hon hb hf, decayStep_not_grew]
    exact ⟨rfl, rfl, rfl⟩
  · rw [show r = _ from annealUpdate_quiet hon hb hf hw, decayStep_not_grew]
    exact ⟨rfl, rfl, rfl⟩
  · rw [show r = _ from annealUpdate_grows hon hb hf hw]
    exact ⟨rfl, rfl, rfl, rfl⟩
  · exact (congrArg Chain.offset hr).trans_le (ho hmax)

end Sys2Proof.Machine
end

section
/-!
PROOFS. The end of ticking and the run of the merge (06_annealing_low_states.md R132, R134, R135): a state with a discarded part
leaves its entry as it was (the model's choice, log entry 27).
-/
namespace Sys2Proof.Machine

/-! ### RESERVOIR_WRITE_DONE (R132) -/

/-- Region r's job with a pending state taken off and its write booked off. -/
def stateEnded (r : Fin 8) (x : Nat × Nat × Nat) (w : PartWrite) (s : State) : State :=
  endWrite r w.id (modTickJob r (fun t => { t with pending := t.pending.erase x }) s)

/-- The entry of a slot is valid. -/
def validateSlot (slot : Nat) (c : Chain) : Chain :=
  { c with res := c.res.map fun x => if x.slot = slot then { x with valid := true } else x }

/-- Every entry in a slot is valid. -/
def SlotValid (slot : Nat) (c : Chain) : Prop := ∀ x ∈ c.res, x.slot = slot → x.valid = true

theorem validateSlot_valid (slot : Nat) (c : Chain) : SlotValid slot (validateSlot slot c) := by
  intro x hx hslot
  obtain ⟨y, -, rfl⟩ := List.mem_map.1 hx
  split at hslot
  case isTrue hy => simp only [if_pos hy]
  case isFalse hy => exact absurd hslot hy

/-- What a change brings about in every chain holds of the chains of the number that it changes. -/
theorem modChain_forall (n : Fin 8) (g : Nat) (f : Chain → Chain) (s : State) (p : Chain → Prop) (hp : ∀ c, p (f c)) :
    ∀ c ∈ (modChain n g f s).anl.rgn[n].chains, c.idx = g → p c := by
  intro c hc hidx
  simp only [modChain, modAnl_anl, Fin.getElem_fin, upd_get, List.mem_map] at hc
  obtain ⟨d, -, rfl⟩ := hc
  split at hidx
  case isTrue hd => simpa only [if_pos hd] using hp d
  case isFalse hd => exact absurd (beq_iff_eq.2 hidx) hd

section
variable {s : State} {r : Fin 8} {chain slot : Nat} {x : Nat × Nat × Nat}

/-- Besides the job and the chain only Herd memory changes: the index of the chain's head tile. -/
theorem exec_reservoirWriteDone_done (hx : (s.herd.job[r].pending.find? fun x => (x.1, x.2.1) == (chain, slot)) = some x)
    (w : PartWrite) (hw : doneWrite s r x.2.2 = some w) :
    let t := if w.dropped = true then stateEnded r x w s else modChain r chain (validateSlot slot) (stateEnded r x w s)
    ∃ tile, exec (.reservoirWriteDone r chain slot) s =
      .next (settle r { t with herd := { t.herd with tile := tile } }) := by
  simp only [exec, execReservoirWriteDone, hx, hw]
  split
  · exact ⟨_, rfl⟩
  · exact ⟨_, rfl⟩

/-- Parts of the state are still on their way. -/
theorem exec_reservoirWriteDone_early (hx : (s.herd.job[r].pending.find? fun x => (x.1, x.2.1) == (chain, slot)) = some x)
    (hw : doneWrite s r x.2.2 = none) : exec (.reservoirWriteDone r chain slot) s = .next s := by
  simp only [exec, execReservoirWriteDone, hx, hw]

theorem exec_reservoirWriteDone_none
    (hx : (s.herd.job[r].pending.find? fun x => (x.1, x.2.1) == (chain, slot)) = none) :
    exec (.reservoirWriteDone r chain slot) s = .next s := by
  simp only [exec, execReservoirWriteDone, hx]

end

/-! ### TICKING_END (R134) -/

/-- Region n neither ticks nor anneals. -/
def TickingEnded (n : Fin 8) (s : State) : Prop := s.tick.rgn[n].ticking = false ∧ s.anl.rgn[n].active = false

/-- What ends work starts no ticking. -/
theorem tickingEnded_kept (n : Fin 8) : KeptByEnds (TickingEnded n) where
  jobs _ _ h := h
  que _ _ h := h
  evt _ _ h := h
  err _ _ h := h
  msix _ _ h := h
  ctx _ _ h := h
  phys _ _ _ h := h
  host _ _ _ h := h
  shadow _ _ h := h
  purge _ _ h := h

theorem TickingEnded.modKudu {n : Fin 8} {s : State} (h : TickingEnded n s) (m : Fin 8) (f : Kudu → Kudu) :
    TickingEnded n (modKudu m f s) := h

theorem endTicking_ended (n : Fin 8) (s : State) : TickingEnded n (endTicking n s) := by
  refine ⟨?_, congrArg AnlRgn.active (upd_same _ _ _)⟩
  simp only [endTicking, modRingRgn_tick, modNoiseRgn_tick, modAnl_tick]
  refine forEach_keeps (fun t => t.tick.rgn[n].ticking = false) _ _ (fun i _ t h => by exact h) _ ?_
  refine forEach_keeps (fun t => t.tick.rgn[n].ticking = false) _ _ (fun i _ t h => by exact h) _ ?_
  exact congrArg TickRgn.ticking (upd_same _ _ _)

theorem endNormally_ended (n : Fin 8) (j : Job) (s : State) : TickingEnded n (endNormally n j s) := by
  simp only [endNormally]
  refine keeps_settle (tickingEnded_kept n) n _ ?_
  split
  · split
    · exact (endTicking_ended n _).modKudu _ _
    · exact endTicking_ended n _
  · exact endTicking_ended n _

theorem exec_tickingEnd (s : State) (r : Fin 8) (j : Job) (hj : sweepingJob s r = some j) (ht : s.tick.rgn[r].ticking = true)
    (hl : ticksLast s r j = true) : exec (.tickingEnd r) s = .next (endNormally r j s) := by
  simp only [exec, execTickingEnd, hj, ht, hl, Bool.and_self, if_true]

/-! ### MERGE_START and MERGE_COMPLETE (R135) -/

section
variable {s : State} {r m : Fin 8} {j : Job} (hm : (s.rgn.rgn[r]).mbs.head? = some m) (hj : sweepingJob s r = some j)
include hm hj

theorem exec_mergeStart (hw : s.kudu[m].mergeWaits = true) : exec (.mergeStart r) s = .next
    (if s.herd.job[r].pending = [] then modAnl r (fun a => { a with merging := true })
      (modKudu m (fun k => { k with mergeWaits := false, merging := true }) s) else s) := by
  simp only [exec, execMergeStart, hm, hj, hw, Bool.true_and, List.isEmpty_iff]
  split <;> rfl

theorem exec_mergeComplete (hk : s.kudu[m].merging = true) : exec (.mergeComplete r) s = .next (settle r
    (modTickJob r (fun t => { t with ended := false }) (modKudu m (fun k => { k with merging := false })
      (mergeOutput r m j s)))) := by
  simp only [exec, execMergeComplete, hm, hj, hk, if_true]

end

/-- What ends work starts no merge. -/
theorem notMerging_kept (m : Fin 8) : KeptByEnds fun s => s.kudu[m].merging = false where
  jobs _ _ h := h
  que _ _ h := h
  evt _ _ h := h
  err _ _ h := h
  msix _ _ h := h
  ctx _ _ h := h
  phys _ _ _ h := h
  host _ _ _ h := h
  shadow _ _ h := h
  purge s k h := by simpa [purgeJob] using h

/-! ### The statement -/

/-- Settles O18: each command by its equation; what follows of itself starts neither ticking nor a merge. -/
theorem tickingEndsAndMergesRun : Obligations.TickingEndsAndMergesRun := by
  refine fun s r => ⟨fun chain slot => ⟨fun x hx => ⟨fun w hw => ?_, exec_reservoirWriteDone_early hx⟩,
      exec_reservoirWriteDone_none⟩,
    fun j hj ht hl => ⟨_, exec_tickingEnd s r j hj ht hl, endNormally_ended r j s⟩,
    fun m j hm hj hw => ⟨fun hp => ?_, fun hp => ?_⟩, fun m j hm hj hk => ⟨_, exec_mergeComplete hm hj hk, ?_⟩⟩
  · obtain ⟨tile, hexec⟩ := exec_reservoirWriteDone_done hx w hw
    have hpending : (stateEnded r x w s).herd.job[r].pending = s.herd.job[r].pending.erase x := by
      simp [stateEnded, endWrite]
    refine ⟨_, hexec, ?_⟩
    by_cases hd : w.dropped = true
    · rw [if_pos hd]
      exact ⟨hpending, fun hn => absurd hd (ne_true_of_eq_false hn), fun _ => rfl, rfl, rfl, rfl⟩
    · rw [if_neg hd]
      exact ⟨hpending, fun _ => modChain_forall r chain (validateSlot slot) _ (SlotValid slot) (validateSlot_valid slot),
        fun ht => absurd ht hd, rfl, rfl, rfl⟩
  · rw [exec_mergeStart hm hj hw, if_pos hp]
    rfl
  · rw [exec_mergeStart hm hj hw, if_neg hp]
  · exact keeps_settle (notMerging_kept m) r _ (congrArg Kudu.merging (upd_same _ _ _))

end Sys2Proof.Machine
end

section
/-!
PROOFS. What ends work leaves of a Chamois tile, and how a descriptor starts there (07_ibex_chamois.md R148, R157, R160, R311, R330).
-/
namespace Sys2Proof.Machine

/-! ### What the end of a job leaves of a Chamois tile (R330) -/

/-- A Chamois tile after the descriptors and panels of a job are taken out. -/
def purgedCham (k : JobRef) (x : Cham) : Cham :=
  let ours := match x.queue with
    | d :: _ => d.job == k
    | [] => false
  { x with queue := x.queue.filter fun d => d.job != k, state := if x.state == .spill && ours then .idle else x.state,
           coming := x.coming.filter fun p => p.job != k, slots := x.slots.filter fun p => p.job != k }

theorem purgeJob_cham (k : JobRef) (s : State) (c : Fin 48) : (purgeJob k s).cham[c] = purgedCham k s.cham[c] :=
  Vector.getElem_map _ c.isLt

theorem purgedCham_state (k : JobRef) (x : Cham) (h : x.state ≠ .spill) : (purgedCham k x).state = x.state := by
  simp [purgedCham, h]

/-- What ends work keeps of a tile is what the removal of a job's descriptors keeps. -/
theorem keptByEnds_cham (c : Fin 48) (p : Cham → Prop) (hp : ∀ k x, p x → p (purgedCham k x)) :
    KeptByEnds fun s => p s.cham[c] where
  jobs _ _ h := h
  que _ _ h := h
  evt _ _ h := h
  err _ _ h := h
  msix _ _ h := h
  ctx _ _ h := h
  phys _ _ _ h := h
  host _ _ _ h := h
  shadow _ _ h := h
  purge s k h := by rw [purgeJob_cham]; exact hp k _ h

/-! ### Starting a descriptor (R148, R160, R311) -/

/-- A tile for which no packet waits serves none. -/
theorem serveHeld_empty (x y : Nat) (s : State) (h : ∀ l : Fin 768, s.mesh.links[l].vc = []) : serveHeld x y s = s := by
  rw [serveHeld_eq]
  exact forEach_keeps (· = s) _ _ (fun l _ u hu => by rw [hu]; exact serveLink_empty (h l)) s rfl

theorem popQueue_cham (c : Fin 48) (s : State) (h : ∀ l : Fin 768, s.mesh.links[l].vc = []) :
    popQueue (.cham c) s = modCham c (fun x => { x with queue := x.queue.tail }) s := by
  simp only [popQueue, serveTile]
  split
  · exact serveHeld_empty _ _ _ h
  · rfl

/-- The read of a descriptor's successor latches at most a fault of its context. -/
theorem readNext_frame (e : Eng) (d : Desc) (s : State) : ∃ v, (readNext e d s).2 = { s with mem := { s.mem with ctx := v } } := by
  simp only [readNext]
  split
  · exact ⟨_, rfl⟩
  · split
    · exact ⟨_, rfl⟩
    · split
      · exact ⟨_, (latchFault_frame _ _ _ _).1⟩
      · exact ⟨_, rfl⟩

/-- It keeps the descriptor but for the successor read. -/
theorem readNext_desc (e : Eng) (d : Desc) (s : State) : ∃ n, (readNext e d s).1 = { d with next := n } := by
  simp only [readNext]
  split
  · exact ⟨_, rfl⟩
  · split
    · exact ⟨_, rfl⟩
    · split
      · exact ⟨_, rfl⟩
      · exact ⟨_, rfl⟩

theorem readNext_cham (e : Eng) (d : Desc) (s : State) : (readNext e d s).2.cham = s.cham := by
  obtain ⟨v, hv⟩ := readNext_frame e d s
  rw [hv]

theorem readNext_unchained (e : Eng) (d : Desc) (s : State) (h : dChain d.bytes = false) : readNext e d s = (d, s) := by
  simp [readNext, h]

theorem drbgDraws_frame (k : Nat) (s : State) : ∃ v, (drbgDraws k s).2 = { s with noise := v } := by
  induction k generalizing s with
  | zero => exact ⟨s.noise, rfl⟩
  | succ k ih =>
    obtain ⟨v, hv⟩ := drbgDraw_frame s
    obtain ⟨w, hw⟩ := ih (drbgDraw s).2
    exact ⟨w, hw.trans (by rw [hv])⟩

theorem drawRandom_queue (c : Fin 48) (d : Desc) (s : State) : (drawRandom c d s).cham[c].queue = s.cham[c].queue := by
  obtain ⟨v, hv⟩ := drbgDraws_frame 2 s
  simp only [drawRandom]
  split
  · simp [hv]
  · rfl

theorem drawRandom_none (c : Fin 48) (d : Desc) (s : State) (h : bit (fieldAt d.bytes 17 1) 0 = false) : drawRandom c d s = s := by
  simp [drawRandom, h]

/-- A descriptor that starts keeps its bytes and its job. -/
theorem startCham_desc (c : Fin 48) (d : Desc) (s : State) : ∃ n, (startCham c d s).1 = { d with next := n } := readNext_desc _ _ _

theorem startCham_queue (c : Fin 48) (d : Desc) (s : State) (h : ∀ l : Fin 768, s.mesh.links[l].vc = []) :
    (startCham c d s).2.cham[c].queue = s.cham[c].queue.tail := by
  simp only [startCham, readNext_cham, drawRandom_queue, popQueue_cham c s h, modCham_cham, upd_same]

/-- A descriptor without random bytes and successor leaves the queue, and that is all. -/
theorem startCham_plain (c : Fin 48) (d : Desc) (s : State) (h : ∀ l : Fin 768, s.mesh.links[l].vc = [])
    (hr : bit (fieldAt d.bytes 17 1) 0 = false) (hc : dChain d.bytes = false) :
    startCham c d s = (d, modCham c (fun x => { x with queue := x.queue.tail }) s) := by
  rw [startCham, drawRandom_none c d _ hr, readNext_unchained _ d _ hc, popQueue_cham c s h]

theorem chamKind_running {s : State} {c : Fin 48} {kind : Nat} {d : Desc} (h : chamKind s c kind = some d) :
    s.cham[c].running = none := by
  have hr := (Option.filter_eq_some_iff.mp h).1
  unfold chamReady at hr
  split at hr
  · assumption
  · cases hr

end Sys2Proof.Machine
end

section
/-!
PROOFS. Kernels (07_ibex_chamois.md R157, R158, R160, R161, Table 7-3): what code changes of its tile, what a trap leaves, and how a
kernel starts and ends.
-/
namespace Sys2Proof.Machine

/-! ### One instruction, and code (R157, R161) -/

theorem runCode_traps {i : RvStep} {rest : List RvStep} {c : Core} {t : RvTrap} (h : (rvAttempt i c).trap = some t) :
    runCode (i :: rest) c = (enterTrap t (rvAttempt i c).core, some t, 0) := by
  simp only [runCode, h]

theorem runCode_retires {i : RvStep} {rest : List RvStep} {c : Core} (h : (rvAttempt i c).trap = none) :
    runCode (i :: rest) c = let x := runCode rest (rvRetire i c (rvAttempt i c)); (x.1, x.2.1, x.2.2 + 1) := by
  simp only [runCode, h]

/-- User code of a Chamois core reaches what lies below 512 KiB. -/
theorem reaches_of_cham {c : Core} (hc : c.cham = true) {a n : Nat} (h : a + n ≤ 0x80000) : c.reaches a n = true := by
  simp [Core.reaches, hc, h]

/-- An instruction that lies there is fetched. -/
theorem fetch_reaches {c : Core} (hc : c.cham = true) (i : RvStep) (h : c.hart.pc.toNat + 4 ≤ 0x80000) :
    c.reaches c.hart.pc.toNat (rvLen i) = true := by
  refine reaches_of_cham hc (le_trans (Nat.add_le_add_left ?_ _) h)
  unfold rvLen
  split <;> decide

theorem rvAttempt_illegal {i : RvStep} {c : Core} (hr : c.reaches c.hart.pc.toNat (rvLen i) = true) (hct : c.ct = true)
    (h : ctCclk c.vec i.insn = none) : rvAttempt i c = rvIllegal c := by
  simp [rvAttempt, hr, hct, h]

theorem rvAttempt_exec {i : RvStep} {c : Core} (hr : c.reaches c.hart.pc.toNat (rvLen i) = true) (hct : c.ct = false) :
    rvAttempt i c = rvExec (rvLen i) i.insn c := by
  simp [rvAttempt, hr, hct]

/-- In ct_mode an instruction that does not trap is one of Table 7-3. -/
theorem ctCclk_of_no_trap {i : RvStep} {c : Core} (hct : c.ct = true) (h : (rvAttempt i c).trap = none) :
    ∃ k, ctCclk c.vec i.insn = some k := by
  refine Option.ne_none_iff_exists'.mp fun hn => ?_
  unfold rvAttempt at h
  split at h
  · cases h
  · rw [hct, hn] at h
    cases h

theorem rvExec_load (len : Nat) (size : Fin 4) (uns : Bool) (rd rs1 : Reg) (ofs : Int) (c : Core) :
    rvExec len (.load size uns rd rs1 ofs) c =
      c.loaded (c.ea rs1 ofs) size.val fun v c => c.setX rd (extend uns (2 ^ size.val) v) := rfl

theorem loaded_misaligned (c : Core) (a size : Nat) (k : Nat → Core → Core) (h : a % 2 ^ size ≠ 0) :
    c.loaded a size k = { core := c, trap := some { cause := 4, tval := BitVec.ofNat 64 a }, jump := none } := by
  simp [Core.loaded, Core.accessTrap, h]

/-- An instruction that retires takes the time of its row of Table 7-3. -/
theorem rvRetire_ctTime (i : RvStep) (c : Core) (hct : c.ct = true) :
    (rvRetire i c (rvAttempt i c)).ctTime = c.ctTime + BitVec.ofNat 64 ((ctCclk c.vec i.insn).getD 0) := by
  have ht : (rvAttempt i c).core.ctTime = c.ctTime := congrArg (fun x => x.2.2.2) (rvAttempt_fixed i c)
  simp only [rvRetire, hct, if_true, ht]

/-- No code changes a byte from 512 KiB on. -/
theorem runCode_beyond (l : List RvStep) (c : Core) (hc : c.cham = true) (a : Nat) (ha : 0x80000 ≤ a) :
    memGet (runCode l c).1.mem a = memGet c.mem a := by
  refine runCode_keeps (fun m => memGet m a = memGet c.mem a) l c (fun b x n v hb hr h => ?_) rfl
  rw [hc] at hb
  have hlt : x + n ≤ 0x80000 := by simpa [Core.reaches, hb] using hr
  rw [Core.put, memGet_memWrite, leBytes_length, if_neg (by omega)]
  exact h

/-! ### Code on a tile (R157, R160, R161) -/

/-- A tile after code. -/
def chamAfter (x : Cham) (r : Core × Option RvTrap × Nat) : Cham :=
  { x with core := r.1.hart, vec := r.1.vec, mem := r.1.mem, ctTime := r.1.ctTime, instret := x.instret + BitVec.ofNat 32 r.2.2 }

theorem runCham_tile (c : Fin 48) (code : List RvStep) (s : State) :
    (runCham c code s).1.cham[c] = chamAfter s.cham[c] (runCode code (chamCore s c)) := upd_same _ _ _

theorem runCham_trap (c : Fin 48) (code : List RvStep) (s : State) :
    (runCham c code s).2 = (runCode code (chamCore s c)).2.1 := rfl

/-- Code changes its tile and the counter of free values. -/
theorem runCham_frame (c : Fin 48) (code : List RvStep) (s : State) :
    (runCham c code s).1 = { s with
      free := (runCham c code s).1.free, cham := s.cham.set c (runCham c code s).1.cham[c] } := by
  rw [runCham_tile]
  rfl

/-- In ct_mode an instruction outside Table 7-3 traps as illegal with nothing done. -/
theorem runCham_illegal {c : Fin 48} {s : State} {i : RvStep} {rest : List RvStep} (hpc : s.cham[c].core.pc.toNat + 4 ≤ 0x80000)
    (hct : s.cham[c].ctMode = true) (h : ctCclk s.cham[c].vec i.insn = none) :
    (runCham c (i :: rest) s).2 = some { cause := 2, tval := 0 } ∧
      (runCham c (i :: rest) s).1.cham[c] =
        chamAfter s.cham[c] (enterTrap { cause := 2, tval := 0 } (chamCore s c), some { cause := 2, tval := 0 }, 0) := by
  have ha : rvAttempt i (chamCore s c) = rvIllegal (chamCore s c) := rvAttempt_illegal (fetch_reaches rfl i hpc) hct h
  have hrun := runCode_traps (i := i) (rest := rest) (c := chamCore s c) (congrArg RvOut.trap ha)
  rw [runCham_trap, runCham_tile, hrun, ha]
  exact ⟨rfl, rfl⟩

/-- A misaligned load traps with cause 4 and its address. -/
theorem runCham_misaligned {c : Fin 48} {s : State} {i : RvStep} {rest : List RvStep} {size : Fin 4} {uns : Bool} {rd rs1 : Reg}
    {ofs : Int} (hpc : s.cham[c].core.pc.toNat + 4 ≤ 0x80000) (hct : s.cham[c].ctMode = false)
    (hi : i.insn = .load size uns rd rs1 ofs) (h : (chamCore s c).ea rs1 ofs % 2 ^ size.val ≠ 0) :
    let t : RvTrap := { cause := 4, tval := BitVec.ofNat 64 ((chamCore s c).ea rs1 ofs) }
    (runCham c (i :: rest) s).2 = some t ∧
      (runCham c (i :: rest) s).1.cham[c] = chamAfter s.cham[c] (enterTrap t (chamCore s c), some t, 0) := by
  intro t
  have ha : rvAttempt i (chamCore s c) = { core := chamCore s c, trap := some t, jump := none } := by
    rw [rvAttempt_exec (fetch_reaches rfl i hpc) hct, hi, rvExec_load, loaded_misaligned _ _ _ _ h]
  have hrun := runCode_traps (i := i) (rest := rest) (c := chamCore s c) (congrArg RvOut.trap ha)
  rw [runCham_trap, runCham_tile, hrun, ha]
  exact ⟨rfl, rfl⟩

/-- In ct_mode an instruction that does not trap takes the time of its row. -/
theorem runCham_ctTime {c : Fin 48} {s : State} {i : RvStep} (hct : s.cham[c].ctMode = true) (h : (runCham c [i] s).2 = none) :
    ∃ k, ctCclk s.cham[c].vec i.insn = some k ∧
      (runCham c [i] s).1.cham[c].ctTime = s.cham[c].ctTime + BitVec.ofNat 64 k := by
  rw [runCham_trap] at h
  cases ht : (rvAttempt i (chamCore s c)).trap with
  | some t => rw [runCode_traps ht] at h; cases h
  | none =>
    obtain ⟨k, hk⟩ := ctCclk_of_no_trap (c := chamCore s c) hct ht
    refine ⟨k, hk, ?_⟩
    rw [runCham_tile, runCode_retires ht]
    refine (rvRetire_ctTime i (chamCore s c) hct).trans ?_
    rw [hk]
    rfl

/-- The time of a vector instruction depends on its base, vl and vtype. -/
theorem ctVector_congr {v w : VecUnit} (hl : v.vl = w.vl) (ht : v.vtype = w.vtype) (base : Nat) : ctVector v base = ctVector w base := by
  simp only [ctVector, VecUnit.sew, hl, ht]

theorem ctCclk_congr {v w : VecUnit} (hl : v.vl = w.vl) (ht : v.vtype = w.vtype) (i : Rv) : ctCclk v i = ctCclk w i := by
  cases i <;> simp only [ctCclk, ctVector_congr hl ht]

/-! ### Traps (R160, Table 7-5) -/

/-- The tile shows a trap, with what the code had done. -/
structure Trapped (cause : BitVec 8) (tval : W32) (before x : Cham) : Prop where
  running : x.running = none
  state : x.state = .fault
  cause : x.cause = cause
  tval : x.tval = tval
  mem : x.mem = before.mem
  instret : x.instret = before.instret

theorem trapped_ends (c : Fin 48) (cause : BitVec 8) (tval : W32) (before : Cham) :
    KeptByEnds fun s => Trapped cause tval before s.cham[c] :=
  keptByEnds_cham c _ fun k x h =>
    ⟨h.running, (purgedCham_state k x (by rw [h.state]; decide)).trans h.state, h.cause, h.tval, h.mem, h.instret⟩

theorem kernelTraps_trapped (c : Fin 48) (d : Desc) (x : RvTrap) (s : State) :
    Trapped (BitVec.ofNat 8 x.cause) (x.tval.setWidth 32) s.cham[c] (kernelTraps c d x s).cham[c] := by
  have K := trapped_ends c (BitVec.ofNat 8 x.cause) (x.tval.setWidth 32) s.cham[c]
  refine keeps_settle K _ _ (keeps_jobError K _ _ _ _ ?_)
  simp only [modCham_cham, upd_same]
  exact ⟨rfl, rfl, rfl, rfl, rfl, rfl⟩

/-- The trap is an error of the running job, which stops. -/
theorem kernelTraps_stops (c : Fin 48) (d : Desc) (x : RvTrap) (s : State) (j : Job) (hj : findJob s d.job = some j)
    (hr : j.phase = .running) : ∃ j', findJob (kernelTraps c d x s) d.job = some j' ∧ j'.phase = .stopped := by
  have hf : j.firing = true := by simp [Job.firing, hr]
  have hfault : ∀ f, findJob (modCham c f s) d.job = some j := fun _ => hj
  simp only [kernelTraps, descError]
  exact StoppedJob.find (StoppedJob.settle (jobError_stops d.job _ _ _ j (hfault _) hf) _)

theorem afterCode_traps {c : Fin 48} {d : Desc} {code : List RvStep} {s : State} {x : RvTrap} (k : State → State)
    (h : (runCham c code s).2 = some x) : afterCode c d code k s = kernelTraps c d x (runCham c code s).1 := by
  simp only [afterCode, h]

theorem afterCode_ends {c : Fin 48} {d : Desc} {code : List RvStep} {s : State} (k : State → State)
    (h : (runCham c code s).2 = none) : afterCode c d code k s = k (runCham c code s).1 := by
  simp only [afterCode, h]

/-! ### The commands (R157, R160) -/

section
variable {s : State} {c : Fin 48}

/-- A kernel that ends without a trap. -/
def kernelEnded (c : Fin 48) (d : Desc) (s : State) : State :=
  completeDesc (.cham c) d (modCham c (fun x => { x with running := none, state := .idle }) s)

/-- The core takes a trap that is no instruction's. -/
def trapTaken (c : Fin 48) (t : RvTrap) (s : State) : State :=
  modCham c (fun x => { x with
    core := { x.core with machine := true, mepc := x.core.pc, mcause := BitVec.ofNat 64 t.cause, mtval := t.tval } }) s

theorem exec_kernelDone {d : Desc} (hd : s.cham[c].running = some d) (code : List RvStep) :
    exec (.kernelDone c code) s = .next (afterCode c d code (kernelEnded c d) s) := by
  simp only [exec, execKernelDone, kernelOf, hd]
  rfl

theorem exec_chamoisTrap {d : Desc} (hd : s.cham[c].running = some d) (cause : BitVec 8) (tval : W64) (code : List RvStep) :
    exec (.chamoisTrap c cause tval code) s = .next (afterCode c d code (fun u =>
      kernelTraps c d { cause := cause.toNat, tval := tval } (trapTaken c { cause := cause.toNat, tval := tval } u)) s) := by
  simp only [exec, execChamoisTrap, kernelOf, hd]
  rfl

theorem exec_kernelDone_none (hd : s.cham[c].running = none) (code : List RvStep) : exec (.kernelDone c code) s = .next s := by
  simp only [exec, execKernelDone, kernelOf, hd]

theorem exec_chamoisTrap_none (hd : s.cham[c].running = none) (cause : BitVec 8) (tval : W64) (code : List RvStep) :
    exec (.chamoisTrap c cause tval code) s = .next s := by
  simp only [exec, execChamoisTrap, kernelOf, hd]

/-- A tile on which a kernel begins. -/
def kernelBegun (d d' : Desc) (x : Cham) : Cham :=
  { x with running := some d', state := .kernel, args := kernelArgs d.bytes, entry := fieldAt d.bytes 20 4,
           core := beginCode (fieldAt d.bytes 20 4) (kernelArgs d.bytes).toList x.core }

theorem exec_kernel {d : Desc} (hk : chamKind s c 0 = some d) (hm : s.cham[c].monitor = true) :
    exec (.kernel c) s = .next (modCham c (kernelBegun d (startCham c d s).1) (startCham c d s).2) := by
  simp only [exec, execKernel, hk, hm]
  rfl

end

/-- The registers in which a kernel finds its arguments. -/
theorem beginCode_x (entry : Nat) (v : Vector W64 4) (h : Hart) (k : Fin 4) : (beginCode entry v.toList h).x[10 + k.val] = v[k] := by
  have hl : v.toList = [v[0], v[1], v[2], v[3]] := by
    apply List.ext_getElem (by simp)
    intro i h1 h2
    match i, h2 with
    | 0, _ | 1, _ | 2, _ | 3, _ => rfl
  have hx : (beginCode entry [v[0], v[1], v[2], v[3]] h).x = (((h.x.set 10 v[0]).set 11 v[1]).set 12 v[2]).set 13 v[3] := rfl
  simp only [hl, hx]
  match k with
  | 0 | 1 | 2 | 3 => simp

/-! ### The statement -/

/-- A kernel that starts shows its descriptor, its mode and its registers. -/
theorem kernel_starts (s : State) (c : Fin 48) (d : Desc) (hk : chamKind s c 0 = some d) (hm : s.cham[c].monitor = true) :
    ∃ t d', exec (.kernel c) s = .next t ∧
      t.cham[c].running = some d' ∧ d'.bytes = d.bytes ∧ d'.job = d.job ∧ t.cham[c].state = .kernel ∧
      ((∀ l : Fin 768, s.mesh.links[l].vc = []) → t.cham[c].queue = s.cham[c].queue.tail) ∧
      t.cham[c].entry = fieldAt d.bytes 20 4 ∧ t.cham[c].core.pc = BitVec.ofNat 64 (fieldAt d.bytes 20 4) ∧
      t.cham[c].core.machine = false ∧
      ∀ k : Fin 4, t.cham[c].args[k] = BitVec.ofNat 64 (fieldAt d.bytes (32 + 8 * k.val) 8) ∧
        t.cham[c].core.x[10 + k.val] = BitVec.ofNat 64 (fieldAt d.bytes (32 + 8 * k.val) 8) := by
  obtain ⟨n, hn⟩ := startCham_desc c d s
  have ht : (modCham c (kernelBegun d (startCham c d s).1) (startCham c d s).2).cham[c] =
      kernelBegun d (startCham c d s).1 (startCham c d s).2.cham[c] := upd_same _ _ _
  have hargs : ∀ k : Fin 4, (kernelArgs d.bytes)[k] = BitVec.ofNat 64 (fieldAt d.bytes (32 + 8 * k.val) 8) :=
    fun k => Vector.getElem_ofFn k.isLt
  refine ⟨_, (startCham c d s).1, exec_kernel hk hm, ?_⟩
  simp only [ht]
  exact ⟨rfl, by rw [hn], by rw [hn], rfl, startCham_queue c d s, rfl, rfl, rfl,
    fun k => ⟨hargs k, (beginCode_x _ _ _ k).trans (hargs k)⟩⟩

/-- Settles O30: a trap is a job-level error; code is run by its instructions, of which each keeps what stores within 512 KiB keep. -/
theorem kernelsStartEndAndTrap : Obligations.KernelsStartEndAndTrap := by
  refine ⟨fun s c => ⟨kernel_starts s c, fun d code hd => ?_, fun hd code cause tval =>
      ⟨exec_kernelDone_none hd code, exec_chamoisTrap_none hd cause tval code⟩⟩,
    fun s c code => ?_, fun v w i hl ht => ctCclk_congr hl ht i, fun v word rd a b dbl rm => ⟨rfl, rfl, rfl, rfl⟩⟩
  · intro r trapped
    have htrapped : ∀ x u, u.jobs = s.jobs → u.cham[c].mem = r.1.cham[c].mem → u.cham[c].instret = r.1.cham[c].instret →
        trapped (kernelTraps c d x u) (BitVec.ofNat 8 x.cause) x.tval := by
      intro x u hjobs hmem hinstret
      have h := kernelTraps_trapped c d x u
      refine ⟨h.running, h.state, h.cause, h.tval, h.mem.trans hmem, h.instret.trans hinstret, fun j hj hr => ?_⟩
      exact kernelTraps_stops c d x u j (by rw [← hj]; exact congrArg (List.find? _) hjobs) hr
    refine ⟨fun hn => ⟨?_, fun cause tval => ⟨_, exec_chamoisTrap hd cause tval code, ?_⟩⟩, fun x hx =>
      ⟨_, exec_kernelDone hd code, ?_, fun cause tval => ?_⟩⟩
    · rw [exec_kernelDone hd, afterCode_ends _ hn]
      rfl
    · rw [afterCode_ends _ hn]
      have h := htrapped { cause := cause.toNat, tval := tval } (trapTaken c { cause := cause.toNat, tval := tval } r.1) rfl
        (by simp [trapTaken]) (by simp [trapTaken])
      simpa using h
    · rw [afterCode_traps _ hx]
      exact htrapped x r.1 rfl rfl rfl
    · rw [exec_chamoisTrap hd, afterCode_traps _ hx, afterCode_traps _ hx]
  · intro x r y
    have hy : y = chamAfter x (runCode code (chamCore s c)) := runCham_tile c code s
    refine ⟨runCham_frame c code s, by rw [hy]; rfl, fun a ha => ?_, fun i rest hcode hpc => ⟨fun hct hn => ?_,
      fun size uns rd rs1 ofs hct hi => ?_⟩, fun i hcode hct hn => ?_⟩
    · rw [hy]
      exact runCode_beyond code (chamCore s c) rfl a ha
    · subst hcode
      obtain ⟨htrap, htile⟩ := runCham_illegal (rest := rest) hpc hct hn
      have hy : y = _ := htile
      rw [hy]
      exact ⟨⟨0, htrap⟩, rfl, rfl, BitVec.add_zero _⟩
    · subst hcode
      intro a ha
      obtain ⟨htrap, htile⟩ := runCham_misaligned (rest := rest) hpc hct hi ha
      have hy : y = _ := htile
      rw [hy]
      exact ⟨htrap, rfl, rfl⟩
    · subst hcode
      exact runCham_ctTime hct hn

end Sys2Proof.Machine
end

section
/-!
PROOFS. The mover (07_ibex_chamois.md R159; 03_mesh_regions_rim.md R67; 02_pennant_tick.md R43; 15_guidon_ring.md R366): it reaches the
tiles of its region and the edge tile of its row.
-/
namespace Sys2Proof.Machine

/-! ### Flit payloads (R366) -/

theorem length_of_mem_pieces {α : Type} (n k : Nat) (l : List α) : ∀ p ∈ pieces n k l, p.length ≤ n := by
  induction k generalizing l with
  | zero => intro p hp; cases hp
  | succ k ih =>
    intro p hp
    rw [pieces] at hp
    split at hp
    · cases hp
    · rcases List.mem_cons.mp hp with rfl | hp
      · exact List.length_take_le n l
      · exact ih _ p hp

/-- A flit carries at most 120 bytes. -/
theorem length_of_mem_chunks (data : List Byte) : ∀ x ∈ chunks data, x.2.length ≤ 120 := by
  intro x hx
  obtain ⟨p, hp, rfl⟩ := List.mem_map.mp hx
  exact length_of_mem_pieces vc0Bytes _ data _ (List.fst_mem_of_mem_zipIdx hp)

/-! ### The commands after the code that leads up to them (R159, R160) -/

section
variable {s : State} {c : Fin 48} {d : Desc} {code : List RvStep} (hd : s.cham[c].running = some d)
include hd

theorem exec_moverTransfer_traps {x : RvTrap} (m : MoverCmd) (hx : (runCham c code s).2 = some x) :
    exec (.moverTransfer c m code) s = .next (kernelTraps c d x (runCham c code s).1) := by
  simp only [exec, execMoverTransfer, kernelOf, hd, hx]

theorem exec_moverTransfer_moves {t : State} (m : MoverCmd) (hn : (runCham c code s).2 = none)
    (ht : moveData c d m (runCham c code s).1 = some t) : exec (.moverTransfer c m code) s = .next t := by
  simp only [exec, execMoverTransfer, kernelOf, hd, hn, ht]

/-- What a swap request does: the tile latches it, or the descriptor ends. -/
def swapRequest (c : Fin 48) (d : Desc) (lx ly : Nat) (buf : Fin 2) (s : State) : State :=
  let r := s.rgn.rgn[d.job.r]
  if !r.holds lx ly then descError (.cham c) d .descriptor 0 s
  else match unitOf r lx ly with
    | .herd h => modHerd h (fun t => { t with swap := some (buf == 1) }) s
    | _ => descError (.cham c) d .descriptor 0 s

theorem exec_moverSwap (lx ly : Nat) (buf : Fin 2) :
    exec (.moverSwap c lx ly buf code) s = .next (afterCode c d code (swapRequest c d lx ly buf) s) := by
  simp only [exec, execMoverSwap, kernelOf, hd]
  rfl

end

/-! ### What a transfer does, by its target (R67, R77, R366) -/

section
variable {s : State} {c : Fin 48} {d : Desc}

theorem moveData_outside {lx ly : Nat} (h : (s.rgn.rgn[d.job.r]).holds lx ly = false) (src addr len : Nat) :
    moveData c d (.toTile src lx ly addr len) s = some (descError (.cham c) d .descriptor 0 s) := by
  simp only [moveData, h, Bool.not_false, Bool.true_or, if_true]

theorem moveData_toTile {src lx ly addr len : Nat} (h : (s.rgn.rgn[d.job.r]).holds lx ly = true) (hs : src + len ≤ 0x80000)
    (hb : backed (unitOf s.rgn.rgn[d.job.r] lx ly) addr len = true)
    (hw : servesWrite s (unitOf s.rgn.rgn[d.job.r] lx ly) addr len = true) :
    moveData c d (.toTile src lx ly addr len) s =
      some (localWrite (unitOf s.rgn.rgn[d.job.r] lx ly) addr (memRead s.cham[c].mem src len) s) := by
  simp only [moveData, moveToTile, chamHolds, dstServes, dstBacked, writeDst, memRead_length, h, hs, hb, hw, decide_true, Bool.not_true,
    Bool.or_self, Bool.false_eq_true, if_false, if_true]

/-- The flits that carry a stretch of local memory to a ring block's staging buffer. -/
def stagingFlits (c : Fin 48) (d : Desc) (bid : Nat) (data : List Byte) : List Vc0Flit :=
  let p := edgeXY (engEntry (.cham c))
  (chunks data).map fun x => { tag := d.job.r.val, dx := p.1, dy := p.2, load := .ring bid x.2 }

theorem moveData_toStaging {src len : Nat} (bid : Nat) (hs : src + len ≤ 0x80000) :
    moveData c d (.toStaging src bid len) s =
      some (pushVc0 (engXY (.cham c)) (stagingFlits c d bid (memRead s.cham[c].mem src len)) s) := by
  simp [moveData, chamHolds, stagingFlits, hs]

theorem stagingFlits_spec (c : Fin 48) (d : Desc) (bid : Nat) (data : List Byte) : ∀ f ∈ stagingFlits c d bid data,
    f.tag = d.job.r.val ∧ (f.dx, f.dy) = edgeXY (engEntry (.cham c)) ∧ ∃ b, f.load = .ring bid b ∧ b.length ≤ 120 := by
  intro f hf
  obtain ⟨x, hx, rfl⟩ := List.mem_map.mp hf
  exact ⟨rfl, rfl, x.2, rfl, length_of_mem_chunks data x hx⟩

theorem swapRequest_latched {lx ly : Nat} {h : Fin 64} (hh : (s.rgn.rgn[d.job.r]).holds lx ly = true)
    (hu : unitOf s.rgn.rgn[d.job.r] lx ly = .herd h) (buf : Fin 2) :
    swapRequest c d lx ly buf s = modHerd h (fun t => { t with swap := some (buf == 1) }) s := by
  simp only [swapRequest, hh, hu, Bool.not_true, Bool.false_eq_true, if_false]

theorem swapRequest_outside {lx ly : Nat} (hh : (s.rgn.rgn[d.job.r]).holds lx ly = false) (buf : Fin 2) :
    swapRequest c d lx ly buf s = descError (.cham c) d .descriptor 0 s := by
  simp only [swapRequest, hh, Bool.not_false, if_true]

end

/-! ### The statement -/

/-- Settles O31: code leaves the regions' rectangles and the other tiles, so each command is what its target makes of it. -/
theorem moverReachesItsRegionOnly : Obligations.MoverReachesItsRegionOnly := by
  intro s c d code hd r s1
  refine ⟨fun x m lx ly buf hx => ⟨exec_moverTransfer_traps hd m hx, ?_⟩, fun hn => ⟨fun src lx ly addr len =>
      ⟨fun hh hs hb hw => exec_moverTransfer_moves hd _ hn (moveData_toTile (s := s1) hh hs hb hw),
        fun hh => exec_moverTransfer_moves hd _ hn (moveData_outside (s := s1) hh _ _ _)⟩,
    fun src bid len hs => ⟨_, exec_moverTransfer_moves hd _ hn (moveData_toStaging (s := s1) bid hs), stagingFlits_spec c d bid _⟩,
    fun lx ly buf => ⟨fun h hh hu => ?_, fun hh => ?_⟩⟩⟩
  · rw [exec_moverSwap hd, afterCode_traps _ hx]
  · rw [exec_moverSwap hd, afterCode_ends _ hn, swapRequest_latched (s := s1) hh hu]
    rfl
  · rw [exec_moverSwap hd, afterCode_ends _ hn, swapRequest_outside (s := s1) hh]

end Sys2Proof.Machine
end

section
/-!
PROOFS. The end of work, on the side of one Chamois tile (14_faults_restart.md R330, R332, R339-R341): whatever a kill, a region-level error
or a descriptor's completion does, it resets, scrubs, reloads or writes to a tile and takes descriptors and partials away.
-/
namespace Sys2Proof.Machine

/-- What ends work may do to a Chamois tile keeps a property of it. -/
structure KeptByTileEnds (p : Cham → Prop) : Prop where
  purge : ∀ k x, p x → p (purgedCham k x)
  mem : ∀ x m, p x → p { x with mem := m }
  reset : ∀ x, p x → p { x with running := none, state := .idle, core := Hart.reset, vec := VecUnit.reset }
  scrub : ∀ x, p x → p { x with
    mem := [], slots := [], args := Vector.replicate 4 0, monitor := false, code := [], core := Hart.reset, vec := VecUnit.reset }
  reload : ∀ x code m, p x → p { x with code := code, monitor := m }

/-- A Chamois tile has a property. -/
def TileHas (c : Fin 48) (p : Cham → Prop) (s : State) : Prop := p s.cham[c]

namespace TileHas
variable {c : Fin 48} {p : Cham → Prop} {s t : State}

theorem of_cham (h : TileHas c p s) (ht : t.cham = s.cham) : TileHas c p t := by rw [TileHas, ht]; exact h

theorem forEach {α : Type} (h : TileHas c p s) (l : List α) (f : α → State → State)
    (hf : ∀ a s, TileHas c p s → TileHas c p (f a s)) : TileHas c p (forEach l f s) := forEach_keeps (TileHas c p) l f (fun a _ s h => hf a s h) s h

/-- A change of any Chamois tile that keeps the property. -/
theorem modCham (h : TileHas c p s) (i : Fin 48) (f : Cham → Cham) (hf : ∀ x, p x → p (f x)) : TileHas c p (modCham i f s) := by
  by_cases hi : c = i
  · subst hi
    have hsame : (Machine.modCham c f s).cham[c] = f s.cham[c] := upd_same _ _ _
    rw [TileHas, hsame]
    exact hf _ h
  · have hother : (Machine.modCham i f s).cham[c] = s.cham[c] := upd_other _ _ _ _ hi
    rw [TileHas, hother]
    exact h

section
variable (K : KeptByTileEnds p)
include K

theorem ends : KeptByEnds (TileHas c p) := keptByEnds_cham c p K.purge

/-! ### Writes (R44, R77, R148, R332) -/

theorem localWrite (h : TileHas c p s) (e : Eng) (a : Nat) (data : List Byte) : TileHas c p (localWrite e a data s) := by
  cases e with
  | herd i =>
    simp only [Machine.localWrite]
    split
    · split
      · exact h
      · exact h
    · exact h
  | ibex i => exact h
  | cham i => exact h.modCham i _ fun x => K.mem x _
  | kudu m => exact h
  | pe p => exact h
  | dma => exact h

theorem landPacket (h : TileHas c p s) (e : Eng) (q : MeshPacket) : TileHas c p (landPacket e q s) := by
  unfold Machine.landPacket
  split
  · exact h
  · split
    · exact h.localWrite K _ _ _
    · split
      · exact keeps_settle (ends K) _ _ (keeps_jobError (ends K) _ _ _ _ h)
      · exact h

theorem serveHeld (h : TileHas c p s) (x y : Nat) : TileHas c p (serveHeld x y s) := by
  refine h.forEach _ _ fun l s h => h.forEach _ _ fun vc s h => ?_
  have hl : ∀ f, TileHas c p (modLink l f s) := fun _ => h
  simp only
  split
  · exact (hl _).forEach _ _ fun q s h => h.landPacket K _ q
  · exact hl _

theorem writeDst (h : TileHas c p s) (e : Eng) (n : Fin 8) (d : Dst) (b : List Byte) : TileHas c p (writeDst e n d b s).1 := by
  unfold Machine.writeDst
  split
  · split
    · exact h.localWrite K _ _ _
    · exact h
  · exact keeps_writeDev (ends K) _ _ _ _ _ h

theorem undefDsts (h : TileHas c p s) (e : Eng) (n : Fin 8) (l : List (Dst × Nat)) :
    TileHas c p (Machine.forEach l (fun x s => undefDst e n x.1 x.2 s) s) :=
  h.forEach l _ fun x s h => h.writeDst K e n x.1 (undefBytes s x.2)

/-! ### Units and kills (R204, R332) -/

theorem resetUnit (h : TileHas c p s) (e : Eng) : TileHas c p (resetUnit e s) := by
  have hu : TileHas c p (dropSource e (Machine.forEach (runningOn s e)
      (fun d s => Machine.forEach (openDsts s e d) (fun x s => undefDst e d.job.r x.1 x.2 s) s) s)) := by
    have hopen := h.forEach (runningOn s e) (fun d s => Machine.forEach (openDsts s e d) (fun x s => undefDst e d.job.r x.1 x.2 s) s)
      fun d s h => h.undefDsts K _ _ _
    unfold dropSource
    split
    · exact hopen
    · exact hopen
  cases e with
  | ibex i =>
    simp only [Machine.resetUnit]
    exact serveHeld K (hu.of_cham (modIbex_cham i _ _)) _ _
  | cham i => exact hu.modCham i _ K.reset
  | herd i => exact hu
  | kudu m => exact hu
  | pe q => exact hu
  | dma => exact hu

theorem scrubUnit (h : TileHas c p s) (e : Eng) : TileHas c p (scrubUnit e s) := by
  cases e with
  | cham i => exact h.modCham i _ K.scrub
  | _ => exact h

theorem reloadUnit (h : TileHas c p s) (e : Eng) : TileHas c p (reloadUnit e s) := by
  cases e with
  | cham i => exact h.modCham i _ fun x => K.reload x _ _
  | _ => exact h

theorem scrubAll (h : TileHas c p s) (es : List Eng) : TileHas c p (scrubAll es s) :=
  h.forEach es _ fun e _ h => (h.scrubUnit K e).reloadUnit K e

omit K in
theorem endTicking (h : TileHas c p s) (n : Fin 8) : TileHas c p (endTicking n s) := by
  simp only [Machine.endTicking]
  refine of_cham ?_ (modRingRgn_cham _ _ _)
  refine of_cham ?_ (modNoiseRgn_cham _ _ _)
  refine of_cham ?_ (modAnl_cham _ _ _)
  refine forEach (forEach ?_ _ _ fun i _ h => h.of_cham (modHerd_cham _ _ _)) _ _ fun i _ h => h.of_cham (modIbex_cham _ _ _)
  exact h

omit K in
theorem dropMerge (h : TileHas c p s) (n : Fin 8) : TileHas c p (dropMerge n s) := by
  have hk : TileHas c p (Machine.forEach ((allFin 8).filter fun m => s.rgn.mbOwner[m] == some n)
      (fun m => modKudu m fun k => { k with mergeWaits := false, merging := false }) s) := h.forEach _ _ fun _ _ h => h
  exact hk

theorem killJob (h : TileHas c p s) (k : JobRef) (scrub : Bool) : TileHas c p (killJob k scrub s) := by
  unfold Machine.killJob
  split
  · exact h
  · rename_i j _
    have hpurged : TileHas c p (purgeJob k (dropReady j s)) :=
      (ends K).purge _ _ (h.forEach _ _ fun _ _ h => keeps_dropArm (ends K) _ _ _ h)
    have hreset := hpurged.forEach j.engines Machine.resetUnit fun e _ h => h.resetUnit K e
    simp only
    generalize Machine.forEach j.engines Machine.resetUnit (purgeJob k (dropReady j s)) = t at hreset ⊢
    have hdma : TileHas c p (modEng (fun x => { x with dmaRunning := x.dmaRunning.filter fun d => d.job != k })
        (Machine.forEach (t.eng.dmaRunning.filter fun d => d.job == k) (fun d s =>
          Machine.forEach (openDsts s .dma d) (fun x s => undefDst .dma d.job.r x.1 x.2 s) s) t)) :=
      hreset.forEach _ (fun d s => Machine.forEach (openDsts s .dma d) (fun x s => undefDst .dma d.job.r x.1 x.2 s) s)
        fun d s h => h.undefDsts K _ _ _
    generalize modEng _ _ = u at hdma ⊢
    have htick : TileHas c p (if j.tick = true then Machine.dropMerge k.r (Machine.endTicking k.r u) else u) := by
      split
      · exact (hdma.endTicking _).dropMerge _
      · exact hdma
    split
    · exact htick.scrubAll K _
    · exact htick

theorem killWith (h : TileHas c p s) (k : JobRef) (scrub : Bool) (st : Nat) : TileHas c p (killWith k scrub st s) :=
  keeps_completeJob (ends K) _ _ _ (h.killJob K k scrub)

theorem endByDevice (h : TileHas c p s) (e : Err) (j : Job) : TileHas c p (endByDevice e j s) := by
  unfold Machine.endByDevice
  split
  · exact h.killWith K _ _ _
  · split
    · exact keeps_modJob (ends K) _ _ _ h
    · exact keeps_stopJob (ends K) _ _ _ _ h

/-! ### A descriptor's completion (R310, R311) -/

theorem dispatchDesc (h : TileHas c p s) (k : JobRef) (chain : Nat) (b : List Byte) : TileHas c p (dispatchDesc k chain b s) := by
  simp only [Machine.dispatchDesc, endIfFailed]
  split
  · split
    · exact endByDevice K (s := modEng _ (modJob k _ s)) h _ _
    · exact h
  · exact h

theorem doneEvent (h : TileHas c p s) (n : Fin 8) (e : Nat) : TileHas c p (doneEvent n e s) :=
  keeps_endEvent (ends K) _ _ _ _ _ (keeps_recordEvent (ends K) _ _ _ h)

theorem followChain (h : TileHas c p s) (e : Eng) (d : Desc) : TileHas c p (followChain e d s) := by
  unfold Machine.followChain
  split
  · exact h
  · split
    · exact h
    · split
      · exact forEach (s := modJob _ _ s) h _ _ fun _ _ h => h.doneEvent K _ _
      · exact keeps_jobError (ends K) _ _ _ _ h
      · split
        · exact keeps_jobError (ends K) _ _ _ _ h
        · exact h.dispatchDesc K _ _ _

theorem completeDesc (h : TileHas c p s) (e : Eng) (d : Desc) : TileHas c p (completeDesc e d s) := by
  have hp : TileHas c p (modJob d.job (Job.progressBy 1) s) := h
  refine keeps_settle (ends K) _ _ (followChain K ?_ e d)
  split
  · exact hp.doneEvent K _ _
  · exact hp

/-! ### Failed accesses (R212, R221, R339) -/

theorem endRegionJobs (h : TileHas c p s) (n : Fin 8) (own : Option (JobRef × Nat)) : TileHas c p (endRegionJobs n own s) := by
  have hk := h.forEach (startedJobs s n) (fun j => Machine.killWith j.ref (ctxSealed s (ctxOf n))
    (recoveryStatus j (own.filter fun o => o.1 == j.ref))) fun j _ h => h.killWith K _ _ _
  simp only [Machine.endRegionJobs]
  split
  · exact hk.forEach _ _ fun e _ h => h.scrubUnit K e
  · exact hk

omit K in
theorem tdiError (h : TileHas c p s) (n : Fin 8) : TileHas c p (tdiError n s) := by
  have hpages : ∀ x (t : State), TileHas c p t → TileHas c p (dropHostPages x t) := by
    intro x t ht
    simp only [dropHostPages]
    split
    · exact ht.forEach _ _ fun _ _ h => h
    · exact ht.forEach _ _ fun _ _ h => h
  simp only [Machine.tdiError]
  split
  · simp only [setTdi]
    split
    · exact hpages _ _ h
    · exact h
  · exact h

omit K in
theorem failMaint (h : TileHas c p s) (op : Nat) (n : Fin 8) (st : Nat) : TileHas c p (failMaint op n st s) := by
  unfold Machine.failMaint
  split
  · split
    · exact h
    · exact h
  · exact h

/-- A region-level error other than the loss of the region's core. -/
theorem regionError (h : TileHas c p s) (n : Fin 8) (e : Err) (he : e ≠ .cpOffline) (site : Site) (own : Option (JobRef × Nat)) :
    TileHas c p (regionError n e site own s) := by
  have hopens : ∀ (t : State) (sealed_ : Prop) [Decidable sealed_] f, TileHas c p t → TileHas c p (settleMaint (settle n (modRgn n f
      (Machine.endRegionJobs n own (if sealed_ then ownSave n 8 (lapseOffer n t) else lapseOffer n t))))) := by
    intro t _ _ f ht
    refine keeps_settleMaint (ends K) _ (keeps_settle (ends K) _ _ (endRegionJobs K ?_ n own))
    split
    · exact forEach (s := lapseOffer n t) ht _ _ fun _ _ h => h
    · exact ht
  have hseal : ∀ t : State, TileHas c p t → TileHas c p (if t.sec.rgn[n].sealing = true then
      giveUpSeal n (Machine.failMaint 0x42 n Status.regionFaulted t) else t) := by
    intro t ht
    split
    · exact ht.failMaint _ _ _
    · exact ht
  simp only [Machine.regionError, he, false_and, if_false]
  split
  · exact h
  · split
    · exact h
    · split
      · exact hopens _ _ _ (hseal _ (tdiError (s := modRgn _ _ (sendMsix _ _ (logRegion _ _ s))) h n))
      · exact hopens _ _ _ (hseal _ (tdiError (s := modRgn _ _ (sendMsix _ _ (logRegion _ _ s))) h n))
      · exact forEach (s := sendMsix _ _ (logRegion _ _ s)) h _ _ fun e _ h => h.resetUnit K e
      · exact h
      · exact h
      · exact h

theorem descFault (h : TileHas c p s) (e : Eng) (d : Desc) (f : Nat × Nat) : TileHas c p (descFault e d f s) := by
  have hl : TileHas c p (latchFault (ctxOf d.job.r) f.1 f.2 s) := keeps_latchIf (ends K) (ctxOf d.job.r) (some f) s h
  refine keeps_settle (ends K) _ _ ?_
  simp only [memError]
  split
  · exact hl.regionError K _ _ (by decide) _ _
  · exact keeps_jobError (ends K) _ _ _ _ hl

/-- A descriptor ends, by what its accesses met or by its completion. -/
theorem endDesc (h : TileHas c p s) (e : Eng) (d : Desc) (f : MemFault) : TileHas c p (endDesc e d f s) := by
  cases f with
  | none => exact h.completeDesc K e d
  | some f => exact h.descFault K e d f

end

end TileHas

end Sys2Proof.Machine
end

section
/-!
PROOFS. Spills and recombination (07_ibex_chamois.md R149; 11_owners_secrecy.md R255, R256).
-/
namespace Sys2Proof.Machine

/-! ### Partials (R149) -/

/-- A partial goes into its slot and comes no more. -/
def slotTaken (c : Fin 48) (k : Nat) (x : Partial) (s : State) : State :=
  modCham c (fun t => { t with coming := t.coming.eraseIdx k, slots := t.slots ++ [x] }) s

/-- A tile in whose spill area the partials of a spill's job have landed. -/
def landed (d : Desc) (t : Cham) : Cham :=
  let o := readSpill d.bytes
  let ours := t.slots.filter fun x => x.job == d.job && decide (x.idx < o.p) && !x.words.isEmpty
  { t with
    mem := ours.foldl (fun m x => memWrite m (o.area + 0x4000 * x.idx) (panelBytes x.words)) t.mem,
    slots := t.slots.map fun x => if x.job == d.job && decide (x.idx < o.p) then { x with words := [] } else x }

theorem landPartials_eq {c : Fin 48} {d : Desc} {s : State} (hl : (readSpill d.bytes).listed = true)
    (ha : spillAddrsOk s c d (readSpill d.bytes) = true) : landPartials c d s = modCham c (landed d) s := by
  simp only [landPartials, hl, ha, Bool.and_self, if_true]
  rfl

/-- Where every earlier partial of the job has landed, a new one lands alone. -/
theorem landed_mem (d : Desc) (t : Cham) (l : List Partial) (x : Partial) (hs : t.slots = l ++ [x]) (hj : x.job = d.job)
    (hp : x.idx < (readSpill d.bytes).p) (hw : x.words ≠ []) (h : ∀ y ∈ l, y.job = d.job → y.words = []) :
    (landed d t).mem = memWrite t.mem ((readSpill d.bytes).area + 0x4000 * x.idx) (panelBytes x.words) := by
  have hrest : (l.filter fun y => y.job == d.job && decide (y.idx < (readSpill d.bytes).p) && !y.words.isEmpty) = [] := by
    refine List.filter_eq_nil_iff.mpr fun y hy hc => ?_
    simp only [Bool.and_eq_true, beq_iff_eq, Bool.not_eq_true'] at hc
    simp [h y hy hc.1.1] at hc
  have hself : ([x].filter fun y => y.job == d.job && decide (y.idx < (readSpill d.bytes).p) && !y.words.isEmpty) = [x] := by
    simp [hj, hp, hw]
  simp only [landed, hs, List.filter_append, hrest, hself, List.nil_append, List.foldl_cons, List.foldl_nil]

theorem spillWaiting_slotTaken (c : Fin 48) (k : Nat) (x : Partial) (s : State) :
    spillWaiting (slotTaken c k x s) c = spillWaiting s c := by
  simp only [spillWaiting, slotTaken, modCham_cham, upd_same]

section
variable {s : State} {c : Fin 48} {k : Nat} {x : Partial} (hx : s.cham[c].coming[k]? = some x)
include hx

theorem exec_spillPartial_waits (hu : ∃ y ∈ s.cham[c].slots, y.job = x.job ∧ y.idx = x.idx) :
    exec (.spillPartial c k) s = .next s := by
  have hany : (s.cham[c].slots.any fun y => y.job == x.job && y.idx == x.idx) = true := by simpa using hu
  simp only [exec, execSpillPartial, hx, hany, if_true]

theorem exec_spillPartial_taken (hu : ¬ ∃ y ∈ s.cham[c].slots, y.job = x.job ∧ y.idx = x.idx) (hw : spillWaiting s c = none) :
    exec (.spillPartial c k) s = .next (slotTaken c k x s) := by
  have hany : (s.cham[c].slots.any fun y => y.job == x.job && y.idx == x.idx) = false := by simpa using hu
  have hwait := (spillWaiting_slotTaken c k x s).trans hw
  simp only [slotTaken] at hwait
  simp only [exec, execSpillPartial, hx, hany, Bool.false_eq_true, if_false, hwait]
  rfl

theorem exec_spillPartial_lands {d : Desc} (hu : ¬ ∃ y ∈ s.cham[c].slots, y.job = x.job ∧ y.idx = x.idx)
    (hw : spillWaiting s c = some d) (hj : d.job = x.job) (hp : x.idx < (readSpill d.bytes).p) :
    exec (.spillPartial c k) s = .next (landPartials c d (slotTaken c k x s)) := by
  have hany : (s.cham[c].slots.any fun y => y.job == x.job && y.idx == x.idx) = false := by simpa using hu
  have hwait := (spillWaiting_slotTaken c k x s).trans hw
  have hp' : ¬ fieldAt d.bytes 18 1 ≤ x.idx := Nat.not_le.mpr hp
  simp only [slotTaken] at hwait
  simp only [exec, execSpillPartial, hx, hany, Bool.false_eq_true, if_false, hwait, hj, bne_self_eq_false, hp']
  rfl

end

/-! ### SPILL (R149) -/

/-- A tile that a spill of job k has left: idle, with no slot of that job. -/
def SpillGone (k : JobRef) (x : Cham) : Prop := x.state = .idle ∧ ∀ y ∈ x.slots, y.job ≠ k

theorem spillGone_kept (k : JobRef) : KeptByTileEnds (SpillGone k) where
  purge i x h := ⟨(purgedCham_state i x (by rw [h.1]; decide)).trans h.1, fun y hy => h.2 y (List.mem_of_mem_filter hy)⟩
  mem _ _ h := h
  reset _ h := ⟨rfl, h.2⟩
  scrub _ h := ⟨h.1, fun _ hy => nomatch hy⟩
  reload _ _ _ h := h

section
variable {s : State} {c : Fin 48} {d : Desc} (hk : chamKind s c 1 = some d) (hl : (readSpill d.bytes).listed = true)
  (ha : spillAddrsOk s c d (readSpill d.bytes) = true)
  (hp : ∀ x ∈ s.cham[c].slots, x.job = d.job → x.idx < (readSpill d.bytes).p)
include hk hl ha hp

/-- Partials are still to come. -/
theorem exec_spill_waits (hn : received s c d.job (readSpill d.bytes).p < (readSpill d.bytes).p) :
    exec (.spill c) s = .next (modCham c (fun t => { t with state := .spill }) (landPartials c d s)) := by
  have hfind : (s.cham[c].slots.find? fun x => x.job == d.job && decide ((readSpill d.bytes).p ≤ x.idx)) = none := by
    simpa using hp
  simp only [exec, execSpill, hk, hl, ha, hfind, hn, Bool.not_true, Bool.false_eq_true, if_false, decide_true, Bool.true_or, if_true]

/-- All partials are there, and no output is asked for. -/
theorem exec_spill_completes (hn : received s c d.job (readSpill d.bytes).p = (readSpill d.bytes).p) (hf : (readSpill d.bytes).fmt = 0) :
    exec (.spill c) s = .next (completeDesc (.cham c) (startCham c d (landPartials c d s)).1
      (modCham c (fun t => { t with state := .idle, slots := t.slots.filter fun y => y.job != d.job })
        (startCham c d (landPartials c d s)).2)) := by
  have hfind : (s.cham[c].slots.find? fun x => x.job == d.job && decide ((readSpill d.bytes).p ≤ x.idx)) = none := by
    simpa using hp
  simp only [exec, execSpill, hk, hl, ha, hfind, hn, hf, finishSpill, Bool.not_true, Bool.false_eq_true, if_false, lt_irrefl,
    decide_false, BEq.rfl, Bool.true_or, Bool.or_self, if_true]

end

/-! ### RECOMBINE (R255, R256) -/

/-- A tile whose last descriptor has ended without an error. -/
def TileIdle (x : Cham) : Prop := x.state = .idle ∧ x.running = none

theorem tileIdle_kept : KeptByTileEnds TileIdle where
  purge i x h := ⟨(purgedCham_state i x (by rw [h.1]; decide)).trans h.1, h.2⟩
  mem _ _ h := h
  reset _ _ := ⟨rfl, rfl⟩
  scrub _ h := h
  reload _ _ _ h := h

/-- A tile whose last descriptor has ended in an error. -/
def TileFault (x : Cham) : Prop := x.state = .fault ∧ x.running = none

theorem tileFault_ends (c : Fin 48) : KeptByEnds (TileHas c TileFault) :=
  keptByEnds_cham c _ fun i x h => ⟨(purgedCham_state i x (by rw [h.1]; decide)).trans h.1, h.2⟩

theorem descError_fault {c : Fin 48} {s : State} (h : TileHas c TileFault s) (e : Eng) (d : Desc) (er : Err) (detail : Nat) :
    TileHas c TileFault (descError e d er detail s) :=
  keeps_settle (tileFault_ends c) _ _ (keeps_jobError (tileFault_ends c) _ _ _ _ h)

theorem writeDev_cham (tile : Fin 24) (c : Fin 9) (a : Nat) (data : List Byte) (s : State) :
    (writeDev tile c a data s).1.cham = s.cham := by
  obtain ⟨p, o, q, h⟩ := writeDev_frame tile c a data s
  rw [h]

/-- Recombination writes device memory alone. -/
theorem recombineWork_cham (c : Fin 48) (d : Desc) (x : Obj) (s : State) : (recombineWork c d x s).1.cham = s.cham := by
  simp only [recombineWork]
  split
  · rfl
  · split
    · exact writeDev_cham _ _ _ _ _
    · simp only [writeDev_cham, useFree_cham]

/-- The state in which RECOMBINE reads its headers: the descriptor has left the queue, and the tile is idle. -/
def recombining (c : Fin 48) (s : State) : State :=
  modCham c (fun x => { x with state := .idle }) (modCham c (fun x => { x with queue := x.queue.tail }) s)

/-- The header at a device address that a descriptor of the tile's names at byte b. -/
def shareHeader (s : State) (c : Fin 48) (d : Desc) (b : Nat) : List Byte × MemFault :=
  readDev s (engEntry (.cham c)) (ctxOf d.job.r) (fieldAt d.bytes b 6) 64

theorem recombining_tile (c : Fin 48) (s : State) :
    (recombining c s).cham[c] = { s.cham[c] with queue := s.cham[c].queue.tail, state := .idle } := by
  simp only [recombining, modCham_cham, upd_same]

section
variable {s : State} {c : Fin 48} {d : Desc} (hk : chamKind s c 2 = some d) (hm : s.cham[c].monitor = true)
  (hform : fieldAt d.bytes 18 1 ≤ 1) (hrand : bit (fieldAt d.bytes 17 1) 0 = false) (hchain : dChain d.bytes = false)
  (hx : (shareHeader s c d 24).2 = none) (hy : (shareHeader s c d 32).2 = none) (hlinks : ∀ l : Fin 768, s.mesh.links[l].vc = [])
include hk hm hform hrand hchain hx hy hlinks

/-- What RECOMBINE does by its checks. -/
theorem exec_recombine : exec (.recombine c) s = .next (
    let fault := modCham c (fun x => { x with state := .fault }) (recombining c s)
    if !objReservedOk (shareHeader s c d 24).1 || !objReservedOk (shareHeader s c d 32).1 then
      descError (.cham c) d .reserved 0 fault
    else if !recombineOk s d.job.r (readObj (shareHeader s c d 24).1) (readObj (shareHeader s c d 32).1) (fieldAt d.bytes 48 8) then
      descError (.cham c) d .descriptor 0 fault
    else
      let r := recombineWork c d (readObj (shareHeader s c d 24).1) (recombining c s)
      endDesc (.cham c) d r.2 r.1) := by
  have hstart := startCham_plain c d s hlinks hrand hchain
  have hread : ∀ b, readDev (recombining c s) (engEntry (.cham c)) (ctxOf d.job.r) (fieldAt d.bytes b 6) 64 = shareHeader s c d b :=
    fun _ => rfl
  have hok : ∀ x y r, recombineOk (recombining c s) d.job.r x y r = recombineOk s d.job.r x y r := fun _ _ _ => rfl
  simp only [recombining] at hread hok
  simp only [exec, execRecombine, hk, hm, hstart, hread, hok, hx, hy, Nat.not_lt.mpr hform, recombining, decide_false, Bool.false_or,
    Bool.not_true, Bool.false_eq_true, if_false, Option.orElse]
  split
  · rfl
  · split
    · rfl
    · rfl

theorem recombine_ends (hok : (objReservedOk (shareHeader s c d 24).1 && objReservedOk (shareHeader s c d 32).1 &&
      recombineOk s d.job.r (readObj (shareHeader s c d 24).1) (readObj (shareHeader s c d 32).1) (fieldAt d.bytes 48 8)) = true) :
    ∃ t, exec (.recombine c) s = .next t ∧ TileHas c TileIdle t := by
  simp only [Bool.and_eq_true] at hok
  obtain ⟨⟨hox, hoy⟩, hcheck⟩ := hok
  refine ⟨_, exec_recombine hk hm hform hrand hchain hx hy hlinks, ?_⟩
  simp only [hox, hoy, hcheck, Bool.not_true, Bool.or_self, Bool.false_eq_true, if_false]
  refine TileHas.endDesc tileIdle_kept ?_ _ _ _
  refine TileHas.of_cham (s := recombining c s) ?_ (recombineWork_cham _ _ _ _)
  rw [TileHas, recombining_tile]
  exact ⟨rfl, chamKind_running hk⟩

theorem recombine_fails (hok : (objReservedOk (shareHeader s c d 24).1 && objReservedOk (shareHeader s c d 32).1 &&
      recombineOk s d.job.r (readObj (shareHeader s c d 24).1) (readObj (shareHeader s c d 32).1) (fieldAt d.bytes 48 8)) = false) :
    ∃ t, exec (.recombine c) s = .next t ∧ TileHas c TileFault t := by
  have hfault : TileHas c TileFault (modCham c (fun x => { x with state := .fault }) (recombining c s)) := by
    rw [TileHas, modCham_cham, upd_same, recombining_tile]
    exact ⟨rfl, chamKind_running hk⟩
  refine ⟨_, exec_recombine hk hm hform hrand hchain hx hy hlinks, ?_⟩
  simp only
  split
  · exact descError_fault hfault _ _ _ _
  · rename_i hres
    simp only [Bool.or_eq_true, Bool.not_eq_true', not_or, Bool.not_eq_false] at hres
    rw [hres.1, hres.2, Bool.true_and, Bool.true_and] at hok
    rw [hok]
    exact descError_fault hfault _ _ _ _

end

/-! ### The output word (R256) -/

theorem recombineWord_zero (r y x : Nat) : recombineWord 0 r y x = (y + x) % r := (Nat.add_mod y x r).symm

/-- A word is the two's complement code of its own number. -/
theorem ofSigned_ofNat {v : Nat} (h : v < 2 ^ 64) : ofSigned 64 (v : Int) = v := by
  rw [ofSigned]
  omega

theorem recombineWord_one {r : Nat} (y x : Nat) (h2 : 2 ≤ r) (h64 : r ≤ 2 ^ 64) :
    ∃ v : Int, recombineWord 1 r y x = ofSigned 64 v ∧ (v - (y + x : Nat)) % (r : Int) = 0 ∧ -(r : Int) < 2 * v ∧ 2 * v ≤ r := by
  have hv : (y % r + x % r) % r = (y + x) % r := (Nat.add_mod y x r).symm
  have hlt : (y + x) % r < r := Nat.mod_lt _ (by omega)
  have hdvd : (r : Int) ∣ ((y + x) % r : Nat) - (y + x : Nat) := by
    rw [Int.natCast_emod, Int.emod_def]
    exact ⟨-((y + x : Nat) / r : Int), by ring⟩
  simp only [recombineWord, hv]
  by_cases hhalf : r / 2 < (y + x) % r
  · refine ⟨((y + x) % r : Nat) - r, by rw [if_pos ⟨trivial, hhalf⟩], ?_, by omega, by omega⟩
    refine Int.emod_eq_zero_of_dvd ?_
    rw [sub_right_comm]
    exact dvd_sub_self_right.mpr hdvd
  · refine ⟨((y + x) % r : Nat), ?_, Int.emod_eq_zero_of_dvd hdvd, by omega, by omega⟩
    rw [if_neg fun h => hhalf h.2, ofSigned_ofNat (by omega)]

/-! ### The statement -/

/-- Settles O32: each command by its equation, and what follows a descriptor's end on the tile's side. -/
theorem spillsAddInOrderAndSharesRecombine : Obligations.SpillsAddInOrderAndSharesRecombine := by
  refine ⟨⟨fun s c k x hx => ⟨exec_spillPartial_waits hx, exec_spillPartial_taken hx, fun d hu hw hj hp hl ha hwords hland =>
      ⟨_, exec_spillPartial_lands hx hu hw hj hp, ?_⟩⟩, fun s c d hk hl ha hp => ⟨exec_spill_waits hk hl ha hp, fun hn hf =>
      ⟨_, exec_spill_completes hk hl ha hp hn hf, ?_⟩⟩, fun fp p ps => rfl⟩,
    fun r y x h2 h64 => ⟨recombineWord_zero r y x, recombineWord_one y x h2 h64⟩,
    fun s c d hk hm hform hrand hchain hx hy hlinks => ⟨recombine_ends hk hm hform hrand hchain hx hy hlinks,
      recombine_fails hk hm hform hrand hchain hx hy hlinks⟩⟩
  · rw [landPartials_eq (s := slotTaken c k x s) hl ha]
    have htile : (modCham c (landed d) (slotTaken c k x s)).cham[c] =
        landed d { s.cham[c] with coming := s.cham[c].coming.eraseIdx k, slots := s.cham[c].slots ++ [x] } := by
      simp only [slotTaken, modCham_cham, upd_same]
    rw [htile]
    exact landed_mem d _ _ x rfl hj.symm hp hwords fun y hy hyd => hland y hy (hyd.trans hj)
  · refine TileHas.completeDesc (spillGone_kept d.job) ?_ _ _
    rw [TileHas, modCham_cham, upd_same]
    exact ⟨rfl, fun y hy => by simpa using (List.mem_filter.mp hy).2⟩

end Sys2Proof.Machine
end

section
/-!
PROOFS. An Ibex operation that completes (07_ibex_chamois.md R147, R150): the panel it leaves can be gone at once. Its successor may
request randomness while noise has FAILED (05_noise.md R106, R109); a SEALED region's job is then killed with scrub, and the tile's
memory is 0 (14_faults_restart.md R332, R341).
-/
namespace Sys2Proof.Machine

/-- The job whose descriptors the counterexample carries. -/
def lastJobRef : JobRef := { r := 0, q := 0, pos := 0 }

/-- A descriptor for logical tile (2, 0), a Chamois tile, that requests a random block. -/
def randomKernelBytes : List Byte := slice ([2, 2] ++ List.replicate 15 0 ++ [1]) 0 64

/-- An int8 operation of one K-step on logical tile (1, 0), without output, whose successor has been read. -/
def lastOp : Desc :=
  { job := lastJobRef, chain := 0, bytes := slice [0x11, 1] 0 64, next := .got randomKernelBytes, stamp := 0 }

/-- Noise has failed, SEALED region 0 runs a job on Ibex tile 0, and that tile holds a byte at local address 0. -/
def lastRun : State :=
  { State.reset with
    rgn := { State.reset.rgn with rgn := upd State.reset.rgn.rgn 0 fun x => { x with state := .sealed } }
    noise := { State.reset.noise with state := .failed }
    ibex := upd State.reset.ibex 0 fun x => { x with running := some lastOp, state := .busy, mem := [(0, 1)] }
    jobs := [{ newJob lastJobRef [] [] with phase := .running, engines := [.ibex 0] }] }

/-- What a command leaves of an Ibex tile's memory. -/
def memAfter (i : Fin 48) (o : Out) : Option Mem :=
  match o with
  | .next t => some t.ibex[i].mem
  | _ => none

/-- The premises of O29 that the counterexample meets: the operation runs, without field mode and output, and no packet waits. -/
theorem lastRun_running : lastRun.ibex[(0 : Fin 48)].running = some lastOp := congrArg Ibex.running (upd_same _ _ _)

theorem lastRun_links (l : Fin 768) : lastRun.mesh.links[l].vc = [] :=
  congrArg Link.vc (Vector.getElem_replicate (n := 768) (a := Link.reset) l.isLt)

theorem lastOp_plain : (readIbex lastOp.bytes).field = false ∧ (readIbex lastOp.bytes).fmt = 0 := by decide

/-- The accumulators lie behind the byte at address 0, which a panel leaves there. -/
theorem lastRun_panel (bs : List Byte) :
    memGet (memWrite lastRun.ibex[(0 : Fin 48)].mem (0x100000 + 0x4000 * (readIbex lastOp.bytes).acc) bs) 0 = 1 := by
  have hmem : lastRun.ibex[(0 : Fin 48)].mem = [(0, 1)] := congrArg Ibex.mem (upd_same _ _ _)
  rw [memGet_memWrite, if_neg (by omega), hmem]
  rfl

/-- The completion dispatches the successor, which ends the job with scrub. -/
theorem lastRun_scrubbed : memAfter 0 (exec (.ibexOpComplete 0) lastRun) = some [] := by decide +kernel

/-- Refutes O29: an operation without output on a SEALED region's tile completes with no packet waiting, and its successor requests
randomness while noise has failed. The tile's memory is empty, where the accumulator panel over what the tile held would leave a byte. -/
theorem not_ibexOperationsCompleteAndSaturate : ¬ Obligations.IbexOperationsCompleteAndSaturate := by
  intro h
  obtain ⟨hfield, hfmt⟩ := lastOp_plain
  obtain ⟨t, hexec, -, -, -, -, hpanel⟩ := (h.1 lastRun 0).2 lastOp lastRun_running (.inr (.inl hfmt))
  have hgone : t.ibex[(0 : Fin 48)].mem = [] := Option.some.inj ((congrArg (memAfter 0) hexec).symm.trans lastRun_scrubbed)
  have hbyte : memGet t.ibex[(0 : Fin 48)].mem 0 = 1 :=
    (congrArg (memGet · 0) (hpanel hfield hfmt lastRun_links)).trans (lastRun_panel _)
  rw [hgone] at hbyte
  exact absurd hbyte (by decide)

end Sys2Proof.Machine
end

section
/-!
PROOFS. Kudu clusters (08_kudu_markhor_criward.md R165-R167, Table 8-1): which hart starts a descriptor, what code changes of its
cluster, and what a descriptor's end or trap leaves.
-/
namespace Sys2Proof.Machine

/-! ### What ends work leaves of a Kudu cluster (R330) -/

theorem purgeJob_kudu (k : JobRef) (s : State) (m : Fin 8) :
    (purgeJob k s).kudu[m] = { s.kudu[m] with queue := s.kudu[m].queue.filter fun d => d.job != k } :=
  Vector.getElem_map _ m.isLt

/-- What ends work keeps of a cluster is what the removal of a job's descriptors keeps. -/
theorem keptByEnds_kudu (m : Fin 8) (p : Kudu → Prop)
    (hp : ∀ k x, p x → p { x with queue := x.queue.filter fun d => d.job != k }) : KeptByEnds fun s => p s.kudu[m] where
  jobs _ _ h := h
  que _ _ h := h
  evt _ _ h := h
  err _ _ h := h
  msix _ _ h := h
  ctx _ _ h := h
  phys _ _ _ h := h
  host _ _ _ h := h
  shadow _ _ h := h
  purge s k h := by rw [purgeJob_kudu]; exact hp k _ h

/-- The descriptors on the harts of cluster m. -/
def HartsAre (m : Fin 8) (v : Vector (Option Desc) 16) (s : State) : Prop := s.kudu[m].hart = v

theorem hartsAre_ends (m : Fin 8) (v : Vector (Option Desc) 16) : KeptByEnds (HartsAre m v) :=
  keptByEnds_kudu m (fun x => x.hart = v) fun _ _ h => h

namespace HartsAre
variable {m : Fin 8} {v : Vector (Option Desc) 16} {s : State}

/-- A change of any cluster that leaves what its harts run. -/
theorem modKudu (h : HartsAre m v s) (i : Fin 8) (f : Kudu → Kudu) (hf : ∀ x, (f x).hart = x.hart) :
    HartsAre m v (modKudu i f s) := (upd_keeps Kudu.hart s.kudu i f hf m).trans h

theorem localWrite (h : HartsAre m v s) (e : Eng) (a : Nat) (data : List Byte) : HartsAre m v (localWrite e a data s) := by
  cases e with
  | kudu i => exact h.modKudu i _ fun _ => rfl
  | herd i =>
    simp only [Machine.localWrite]
    split
    · split
      · exact h
      · exact h
    · exact h
  | ibex i => exact h
  | cham i => exact h
  | pe p => exact h
  | dma => exact h

theorem landPacket (h : HartsAre m v s) (e : Eng) (p : MeshPacket) : HartsAre m v (landPacket e p s) := by
  unfold Machine.landPacket
  split
  · exact h
  · split
    · exact h.localWrite _ _ _
    · split
      · exact keeps_settle (hartsAre_ends m v) _ _ (keeps_jobError (hartsAre_ends m v) _ _ _ _ h)
      · exact h

/-- Packets that are served change no hart's descriptor. -/
theorem serveHeld (h : HartsAre m v s) (x y : Nat) : HartsAre m v (serveHeld x y s) := by
  refine forEach_keeps (HartsAre m v) _ _ (fun l _ s h => forEach_keeps (HartsAre m v) _ _ (fun vc _ s h => ?_) s h) s h
  have hl : ∀ f, HartsAre m v (modLink l f s) := fun _ => h
  simp only
  split
  · exact forEach_keeps (HartsAre m v) _ _ (fun p _ s h => h.landPacket _ p) _ (hl _)
  · exact hl _

end HartsAre

/-! ### The lowest-numbered idle hart (R166) -/

theorem mem_allFin16 (h : Fin 16) : h ∈ allFin 16 := by
  revert h
  decide

/-- The harts are listed in the order of their numbers. -/
theorem allFin16_sorted : (allFin 16).Pairwise (· < ·) := by decide

theorem idle_iff (k : Kudu) (h : Fin 16) : (h != 0 && k.hart[h].isNone) = true ↔ 1 ≤ h.val ∧ k.hart[h] = none := by
  rw [Bool.and_eq_true, Option.isNone_iff_eq_none, bne_iff_ne, Fin.ne_iff_vne]
  exact and_congr_left' Nat.one_le_iff_ne_zero.symm

theorem idleHart_eq_none {k : Kudu} (h : ∀ i : Fin 16, 1 ≤ i.val → k.hart[i] ≠ none) : idleHart k = none :=
  List.find?_eq_none.mpr fun i _ hi => h i ((idle_iff k i).mp hi).1 ((idle_iff k i).mp hi).2

theorem idleHart_eq_some {k : Kudu} {h : Fin 16} (hh : 1 ≤ h.val ∧ k.hart[h] = none)
    (hlow : ∀ i : Fin 16, 1 ≤ i.val → i < h → k.hart[i] ≠ none) : idleHart k = some h := by
  obtain ⟨before, after, hsplit⟩ := List.append_of_mem (mem_allFin16 h)
  refine List.find?_eq_some_iff_append.mpr ⟨(idle_iff k h).mpr hh, before, after, hsplit, fun i hi => ?_⟩
  have hlt : i < h := by
    have hp := allFin16_sorted
    rw [hsplit, List.pairwise_append] at hp
    exact hp.2.2 i hi h List.mem_cons_self
  rw [Bool.not_eq_true', ← Bool.not_eq_true, idle_iff]
  exact fun hidle => hlow i hidle.1 hlt hidle.2

/-! ### A descriptor that starts (R166) -/

section
variable {s : State} {m : Fin 8}

theorem popQueue_kudu_harts (m : Fin 8) (s : State) : (popQueue (.kudu m) s).kudu[m].hart = s.kudu[m].hart := by
  have h : HartsAre m s.kudu[m].hart (modQueueOf (.kudu m) List.tail s) :=
    HartsAre.modKudu (s := s) rfl m _ fun _ => rfl
  simp only [popQueue, serveTile]
  split
  · exact h.serveHeld _ _
  · exact h

theorem popQueue_kudu (m : Fin 8) (s : State) (h : ∀ l : Fin 768, s.mesh.links[l].vc = []) :
    popQueue (.kudu m) s = modKudu m (fun x => { x with queue := x.queue.tail }) s := by
  simp only [popQueue, serveTile]
  split
  · exact serveHeld_empty _ _ _ h
  · rfl

theorem readNext_kudu (e : Eng) (d : Desc) (s : State) : (readNext e d s).2.kudu = s.kudu := by
  obtain ⟨v, hv⟩ := readNext_frame e d s
  rw [hv]

theorem exec_kuduDescriptor {d : Desc} {rest : List Desc} {h : Fin 16} (hq : s.kudu[m].queue = d :: rest)
    (hh : idleHart s.kudu[m] = some h) (hr : kuduReady s m = true) : exec (.kuduDescriptor m) s = .next
      (modKudu m (putHart h (readNext (.kudu m) d (popQueue (.kudu m) s)).1) (readNext (.kudu m) d (popQueue (.kudu m) s)).2) := by
  simp only [exec, execKuduDescriptor, hq, hh, hr, if_true]

theorem exec_kuduDescriptor_unready (hr : kuduReady s m = false) : exec (.kuduDescriptor m) s = .next s := by
  simp only [exec, execKuduDescriptor, hr]
  split
  · rfl
  · rfl

theorem exec_kuduDescriptor_nothing (h : s.kudu[m].queue = [] ∨ idleHart s.kudu[m] = none) : exec (.kuduDescriptor m) s = .next s := by
  simp only [exec, execKuduDescriptor]
  split
  case h_1 d rest hart hq hh =>
    rcases h with h | h
    · rw [hq] at h; cases h
    · rw [hh] at h; cases h
  case h_2 => rfl

end

theorem beginCode_mode (entry : Nat) (args : List W64) (h : Hart) :
    (beginCode entry args h).pc = BitVec.ofNat 64 entry ∧ (beginCode entry args h).machine = false := ⟨rfl, rfl⟩

/-- A descriptor that a ready cluster starts, on its lowest-numbered idle hart. -/
theorem kuduDescriptor_starts (s : State) (m : Fin 8) (d : Desc) (rest : List Desc) (h : Fin 16) (hq : s.kudu[m].queue = d :: rest)
    (hh : idleHart s.kudu[m] = some h) (hr : kuduReady s m = true) :
    ∃ t d', exec (.kuduDescriptor m) s = .next t ∧ t.kudu[m].hart[h] = some d' ∧ d'.bytes = d.bytes ∧
      d'.job = d.job ∧ ((∀ l : Fin 768, s.mesh.links[l].vc = []) → t.kudu[m].queue = rest) ∧
      t.kudu[m].core[h].pc = BitVec.ofNat 64 (fieldAt d.bytes 20 4) ∧ t.kudu[m].core[h].machine = false ∧
      (∀ k : Fin 16, k ≠ h → t.kudu[m].hart[k] = s.kudu[m].hart[k]) := by
  obtain ⟨n, hn⟩ := readNext_desc (.kudu m) d (popQueue (.kudu m) s)
  refine ⟨_, (readNext (.kudu m) d (popQueue (.kudu m) s)).1, exec_kuduDescriptor hq hh hr, ?_⟩
  have hbytes : (readNext (.kudu m) d (popQueue (.kudu m) s)).1.bytes = d.bytes := by rw [hn]
  have hjob : (readNext (.kudu m) d (popQueue (.kudu m) s)).1.job = d.job := by rw [hn]
  generalize (readNext (.kudu m) d (popQueue (.kudu m) s)).1 = d' at hbytes hjob ⊢
  simp only [modKudu_kudu, upd_same, readNext_kudu, putHart, beginCode_mode, kuduArgs, hbytes, true_and]
  refine ⟨hjob, fun hl => ?_, fun k hk => ?_⟩
  · rw [popQueue_kudu m s hl, modKudu_kudu, upd_same, hq]
    rfl
  · rw [upd_other _ _ _ _ hk, popQueue_kudu_harts]

/-! ### Code on a hart (R165, Table 8-1) -/

/-- User code of a Kudu hart changes no byte outside the job memory. -/
theorem runCode_outside_job_memory (l : List RvStep) (c : Core) (hc : c.cham = false) (a : Nat) (ha : a < 0x40000 ∨ 0x3F8000 ≤ a) :
    memGet (runCode l c).1.mem a = memGet c.mem a := by
  refine runCode_keeps (fun m => memGet m a = memGet c.mem a) l c (fun b x n v hb hr h => ?_) rfl
  have hin : 0x40000 ≤ x ∧ x + n ≤ 0x3F8000 := by simpa [Core.reaches, hb.trans hc] using hr
  refine (memGet_memWrite b.mem x a (leBytes n v)).trans ?_
  rw [leBytes_length, if_neg (by omega)]
  exact h

/-- A cluster after code on one of its harts. -/
def kuduAfter (h : Fin 16) (x : Kudu) (c : Core) : Kudu :=
  { x with mem := c.mem, core := upd (x.core.map (breakResv c.stored)) h fun _ => c.hart }

theorem runKudu_cluster (m : Fin 8) (h : Fin 16) (code : List RvStep) (s : State) :
    (runKudu m h code s).1.kudu[m] = kuduAfter h s.kudu[m] (runCode code (kuduCore s m h)).1 := upd_same _ _ _

/-- Code changes its cluster and the counter of free values. -/
theorem runKudu_frame (m : Fin 8) (h : Fin 16) (code : List RvStep) (s : State) :
    (runKudu m h code s).1 = { s with
      free := (runKudu m h code s).1.free, kudu := s.kudu.set m (runKudu m h code s).1.kudu[m] } := by
  rw [runKudu_cluster]
  rfl

/-- A store takes at most its reservation from another hart. -/
theorem breakResv_cases (stored : List (Nat × Nat)) (h : Hart) :
    breakResv stored h = h ∨ breakResv stored h = { h with resv := none } := by
  unfold breakResv
  split
  · split
    · exact .inr rfl
    · exact .inl rfl
  · exact .inl rfl

theorem kuduAfter_other_hart {h k : Fin 16} (x : Kudu) (c : Core) (hk : k ≠ h) :
    (kuduAfter h x c).core[k] = breakResv c.stored x.core[k] :=
  (upd_other _ _ _ _ hk).trans (Vector.getElem_map _ k.isLt)

/-! ### Traps (R167, Table 8-6) -/

/-- The cluster shows a trap of a hart, which is idle, with what the code had done. -/
structure HartTrapped (h : Fin 16) (cause : BitVec 8) (tval : W32) (mem : Mem) (x : Kudu) : Prop where
  idle : x.hart[h] = none
  cause : x.cause = cause
  trapHart : x.trapHart = h.val
  tval : x.tval = tval
  mem : x.mem = mem

theorem hartTraps_trapped (m : Fin 8) (h : Fin 16) (d : Desc) (t : RvTrap) (s : State) :
    HartTrapped h (BitVec.ofNat 8 t.cause) (t.tval.setWidth 32) s.kudu[m].mem (hartTraps m h d t s).kudu[m] := by
  have K := keptByEnds_kudu m (HartTrapped h (BitVec.ofNat 8 t.cause) (t.tval.setWidth 32) s.kudu[m].mem)
    fun _ _ x => ⟨x.idle, x.cause, x.trapHart, x.tval, x.mem⟩
  refine keeps_settle K _ _ (keeps_jobError K _ _ _ _ ?_)
  simp only [modKudu_kudu, upd_same]
  exact ⟨upd_same _ _ _, rfl, rfl, rfl, rfl⟩

/-- The trap is an error of the running job, which stops. -/
theorem hartTraps_stops (m : Fin 8) (h : Fin 16) (d : Desc) (t : RvTrap) (s : State) (j : Job) (hj : findJob s d.job = some j)
    (hr : j.phase = .running) : ∃ j', findJob (hartTraps m h d t s) d.job = some j' ∧ j'.phase = .stopped := by
  have hf : j.firing = true := by simp [Job.firing, hr]
  have hsame : ∀ f, findJob (modKudu m f s) d.job = some j := fun _ => hj
  simp only [hartTraps, descError]
  exact StoppedJob.find (StoppedJob.settle (jobError_stops d.job _ _ _ j (hsame _) hf) _)

theorem afterHart_traps {m : Fin 8} {h : Fin 16} {d : Desc} {code : List RvStep} {s : State} {x : RvTrap} (k : State → State)
    (hx : (runKudu m h code s).2 = some x) : afterHart m h d code k s = hartTraps m h d x (runKudu m h code s).1 := by
  simp only [afterHart, hx]

theorem afterHart_ends {m : Fin 8} {h : Fin 16} {d : Desc} {code : List RvStep} {s : State} (k : State → State)
    (hn : (runKudu m h code s).2 = none) : afterHart m h d code k s = k (runKudu m h code s).1 := by
  simp only [afterHart, hn]

/-! ### The commands (R166, R167) -/

section
variable {s : State} {m : Fin 8} {h : Fin 16}

/-- A descriptor that ends without a trap. -/
def hartEnded (m : Fin 8) (h : Fin 16) (d : Desc) (s : State) : State :=
  completeDesc (.kudu m) d (modKudu m (fun k => { k with hart := upd k.hart h fun _ => none, done := k.done + 1 }) s)

/-- The hart takes a trap that is no instruction's. -/
def hartTakes (m : Fin 8) (h : Fin 16) (t : RvTrap) (s : State) : State :=
  modKudu m (fun k => { k with core := upd k.core h fun c => { c with
    machine := true, mepc := c.pc, mcause := BitVec.ofNat 64 t.cause, mtval := t.tval } }) s

theorem exec_kuduDescriptorComplete {d : Desc} (hd : s.kudu[m].hart[h] = some d) (code : List RvStep) :
    exec (.kuduDescriptorComplete m h code) s = .next (afterHart m h d code (hartEnded m h d) s) := by
  simp only [exec, execKuduDescriptorComplete, hd]
  rfl

theorem exec_kuduTrap {d : Desc} (hd : s.kudu[m].hart[h] = some d) (cause : BitVec 8) (tval : W64) (code : List RvStep) :
    exec (.kuduTrap m h cause tval code) s = .next (afterHart m h d code (fun u =>
      hartTraps m h d { cause := cause.toNat, tval := tval } (hartTakes m h { cause := cause.toNat, tval := tval } u)) s) := by
  simp only [exec, execKuduTrap, hd]
  rfl

theorem exec_kuduDescriptorComplete_idle (hd : s.kudu[m].hart[h] = none) (code : List RvStep) :
    exec (.kuduDescriptorComplete m h code) s = .next s := by
  simp only [exec, execKuduDescriptorComplete, hd]

theorem exec_kuduTrap_idle (hd : s.kudu[m].hart[h] = none) (cause : BitVec 8) (tval : W64) (code : List RvStep) :
    exec (.kuduTrap m h cause tval code) s = .next s := by
  simp only [exec, execKuduTrap, hd]

end

/-! ### The statement -/

/-- Settles O33: the first idle hart in the order of the numbers, a trap as a job-level error, and code by its instructions, of which
each keeps what stores within the job memory keep. -/
theorem kuduHartsRunDescriptors : Obligations.KuduHartsRunDescriptors := by
  refine ⟨fun s m => ⟨fun d rest h hq hh hlow => ⟨kuduDescriptor_starts s m d rest h hq (idleHart_eq_some hh hlow),
      exec_kuduDescriptor_unready⟩, fun hnone => exec_kuduDescriptor_nothing (hnone.imp_right idleHart_eq_none),
    fun hart code => ⟨fun d hd => ?_, fun hd => ⟨exec_kuduDescriptorComplete_idle hd code, fun cause tval =>
      exec_kuduTrap_idle hd cause tval code⟩⟩⟩, fun s m hart code => ?_⟩
  · intro trapped
    have htrapped : ∀ x u, u.jobs = s.jobs → u.kudu[m].mem = (runKudu m hart code s).1.kudu[m].mem →
        trapped (hartTraps m hart d x u) (BitVec.ofNat 8 x.cause) x.tval := by
      intro x u hjobs hmem
      obtain ⟨hidle, hcause, hhart, htval, hkept⟩ := hartTraps_trapped m hart d x u
      refine ⟨hidle, hcause, hhart, htval, hkept.trans hmem, fun j hj hr => ?_⟩
      exact hartTraps_stops m hart d x u j (by rw [← hj]; exact congrArg (List.find? _) hjobs) hr
    refine ⟨fun hn => ⟨?_, fun cause tval => ⟨_, exec_kuduTrap hd cause tval code, ?_⟩⟩, fun x hx =>
      ⟨_, exec_kuduDescriptorComplete hd code, ?_, fun cause tval => ?_⟩⟩
    · rw [exec_kuduDescriptorComplete hd, afterHart_ends _ hn]
      rfl
    · rw [afterHart_ends _ hn]
      have h := htrapped { cause := cause.toNat, tval := tval }
        (hartTakes m hart { cause := cause.toNat, tval := tval } (runKudu m hart code s).1) rfl (by simp [hartTakes])
      simpa using h
    · rw [afterHart_traps _ hx]
      exact htrapped x _ rfl rfl
    · rw [exec_kuduTrap hd, afterHart_traps _ hx, afterHart_traps _ hx]
  · intro x t y
    have hy : y = kuduAfter hart x (runCode code (kuduCore s m hart)).1 := runKudu_cluster m hart code s
    refine ⟨runKudu_frame m hart code s, by rw [hy]; rfl, fun a ha => ?_, fun k hk => ?_⟩
    · rw [hy]
      exact runCode_outside_job_memory code (kuduCore s m hart) rfl a ha
    · rw [hy, kuduAfter_other_hart x _ hk]
      exact breakResv_cases _ _

end Sys2Proof.Machine
end

section
/-!
PROOFS. What the end of work leaves of the device (14_faults_restart.md R330, R332, R341): stopping, completing and killing jobs, and
what follows of itself, leave the regions' records, the Markhor block and ERR_DEV_STAT as they are.
-/
namespace Sys2Proof.Machine

/-- ERR_DEV_STAT (14 Table 14-5). -/
def ErrState.stat (e : ErrState) : Bool × Bool × Bool × Bool × Vector Bool 4 := (e.rimUe, e.lockstep, e.entropy, e.maintCp, e.hbmUe)

/-- The regions' records, the Markhor block and ERR_DEV_STAT are those of x. -/
def SameDevice (x s : State) : Prop := s.rgn = x.rgn ∧ s.mkh = x.mkh ∧ s.err.stat = x.err.stat

namespace SameDevice
variable {x s t : State}

theorem refl (s : State) : SameDevice s s := ⟨rfl, rfl, rfl⟩

theorem of_eq (h : SameDevice x s) (hr : t.rgn = s.rgn) (hm : t.mkh = s.mkh) (he : t.err = s.err) : SameDevice x t := by
  rw [SameDevice, hr, hm, he]; exact h

theorem forEach {α : Type} (h : SameDevice x s) (l : List α) (f : α → State → State)
    (hf : ∀ a s, SameDevice x s → SameDevice x (f a s)) : SameDevice x (forEach l f s) :=
  forEach_keeps (SameDevice x) l f (fun a _ s h => hf a s h) s h

theorem modJob (h : SameDevice x s) (k : JobRef) (f : Job → Job) : SameDevice x (modJob k f s) := h

theorem modQue (h : SameDevice x s) (i : Fin 33) (f : Queue → Queue) : SameDevice x (modQue i f s) := h

theorem sendMsix (h : SameDevice x s) (fn : Fin 9) (v : Nat) : SameDevice x (sendMsix fn v s) := h

theorem modCtx (h : SameDevice x s) (c : Fin 9) (f : MemCtx → MemCtx) : SameDevice x (modCtx c f s) := h

theorem modSecRgn (h : SameDevice x s) (n : Fin 8) (f : SecRgn → SecRgn) : SameDevice x (modSecRgn n f s) := h

theorem leaveLocks (h : SameDevice x s) (k : JobRef) : SameDevice x (leaveLocks k s) := h

theorem dropJob (h : SameDevice x s) (k : JobRef) : SameDevice x (dropJob k s) := h

/-! ### Events, locks and memory -/

theorem dropArm (h : SameDevice x s) (n : Fin 8) (a : Arm) : SameDevice x (dropArm n a s) := by
  unfold Machine.dropArm
  split
  · exact h
  · exact h

theorem breakLock (h : SameDevice x s) (n : Fin 8) (l : Nat) : SameDevice x (breakLock n l s) := by
  have hm : ∀ f, SameDevice x (modLock n l f s) := fun f => by
    unfold modLock
    split
    · exact h
    · exact h
  simp only [Machine.breakLock]
  split
  · exact hm _
  · exact hm _

theorem breakLocks (h : SameDevice x s) (k : JobRef) : SameDevice x (breakLocks k s) := by
  refine h.forEach _ _ fun l s h => ?_
  split
  · exact h.breakLock _ _
  · exact h

theorem latchIf (h : SameDevice x s) (c : Fin 9) (f : MemFault) : SameDevice x (latchIf c f s) := by
  rw [(latchIf_frame c f s).1]; exact h

theorem writeDev (h : SameDevice x s) (tile : Fin 24) (c : Fin 9) (a : Nat) (data : List Byte) :
    SameDevice x (writeDev tile c a data s).1 := by
  obtain ⟨p, o, q, hw⟩ := writeDev_frame tile c a data s
  rw [hw]; exact h

theorem writeRecord (h : SameDevice x s) (i : Fin 33) (p : Pkt) (d : Done) : SameDevice x (writeRecord i p d s) := by
  have hw : ∀ a b, SameDevice x (if s.que[i].cloc = true then writeHost a b s else
      Machine.latchIf (qCtx i) (Machine.writeDev (queueTile s i) (qCtx i) a b s).2
        (Machine.writeDev (queueTile s i) (qCtx i) a b s).1) := by
    intro a b
    split
    · exact h
    · exact (h.writeDev _ _ _ _).latchIf _ _
  simp only [Machine.writeRecord]
  split
  · exact ((hw _ _).modQue _ _).sendMsix _ _
  · exact (hw _ _).modQue _ _

/-! ### Stopping and completing a job (R325, R330) -/

theorem beginDrain (h : SameDevice x s) (n : Fin 8) : SameDevice x (beginDrain n s) := by
  unfold Machine.beginDrain
  split
  · split
    · exact h
    · exact h
  · exact h

theorem stopJob (h : SameDevice x s) (k : JobRef) (cause : Option (Nat × Nat)) (b : Option PktRef) :
    SameDevice x (stopJob k cause b s) := by
  have hpurge : SameDevice x (purgeJob k s) := h
  have herr : ∀ n u, SameDevice x u → SameDevice x (modErr (fun e => { e with detected := n }) u) := fun _ _ h => h
  simp only [Machine.stopJob]
  exact beginDrain (herr _ _ (((hpurge.leaveLocks k).forEach _ _ fun a _ h => h.dropArm _ a).modJob k _)) _

theorem jobError (h : SameDevice x s) (k : JobRef) (e : Err) (site : Site) : SameDevice x (jobError k e site s) := by
  unfold Machine.jobError
  split
  · exact h
  · rename_i j _
    have hl : SameDevice x (logRegion k.r (jobRecord e site j s.tick.tn) s) := h
    simp only
    split
    · exact hl.stopJob _ _ _
    · exact hl.stopJob _ _ _
    · exact hl
    · exact hl
    · exact hl

theorem endDeferred (h : SameDevice x s) (k : JobRef) (st : EState) : SameDevice x (endDeferred k st s) := by
  unfold Machine.endDeferred
  split
  · exact h
  · refine modJob (h.forEach _ _ fun d s h => ?_) k _
    split
    · exact h
    · exact h
    · exact h

theorem completeJob (h : SameDevice x s) (k : JobRef) (status : Nat) : SameDevice x (completeJob k status s) := by
  unfold Machine.completeJob
  split
  · exact h
  · rename_i j _
    have hd : SameDevice x (if statusClass status = 0 then s else Machine.endDeferred k
        (if statusClass status = 1 ∧ status ≠ Status.depCancelled then .cancelled else .error) s) := by
      split
      · exact h
      · exact h.endDeferred _ _
    have hout : ∀ i pos d u, SameDevice x u → SameDevice x (decide' i pos d (Machine.dropJob k (keepJobRegs j u))) :=
      fun _ _ _ _ h => h
    exact beginDrain (hout _ _ _ _ ((hd.leaveLocks k).breakLocks k)) _

theorem dropStaged (h : SameDevice x s) (k : JobRef) : SameDevice x (dropStaged k s) := by
  unfold Machine.dropStaged
  split
  · split
    · exact h
    · split
      · exact h
      · exact h
  · exact h

/-! ### What follows of itself -/

theorem releaseWord (h : SameDevice x s) (j : Job) (ht : releaseWord s j = some t) : SameDevice x t := by
  have hadv : ∀ u v, SameDevice x u → some (Machine.modJob j.ref Job.advance u) = some v → SameDevice x v := by
    rintro u _ hu ⟨⟩
    exact hu.modJob _ _
  unfold Machine.releaseWord at ht
  split at ht
  · cases ht
  · split at ht
    case h_1 => split at ht; exacts [(nomatch ht), hadv _ _ h ht]
    case h_2 => split at ht; exacts [(nomatch ht), hadv _ _ h ht]
    case h_3 => split at ht; exacts [hadv _ _ h ht, (nomatch ht)]
    case h_4 =>
      split at ht
      · cases ht
      · simp only at ht
        split at ht
        · cases ht
          exact (h.modJob j.ref _).jobError _ _ _
        · exact hadv _ _ (h.modJob j.ref _) ht
    all_goals cases ht

theorem latchArms (h : SameDevice x s) (j : Job) (ht : latchArms s j = some t) : SameDevice x t := by
  simp only [Machine.latchArms] at ht
  split at ht
  · cases ht; exact h
  · cases ht

theorem endArms (h : SameDevice x s) (j : Job) (ht : endArms s j = some t) : SameDevice x t := by
  unfold Machine.endArms at ht
  split at ht
  · cases ht
    exact (h.forEach j.arms _ fun a _ h => h.dropArm _ a).modJob _ _
  · cases ht

theorem jobSettles (h : SameDevice x s) (j : Job) (ht : jobSettles s j = some t) : SameDevice x t := by
  unfold Machine.jobSettles at ht
  rcases orElse_some_cases ht with ht | ht
  · exact h.releaseWord j ht
  rcases orElse_some_cases ht with ht | ht
  · exact h.latchArms j ht
  rcases orElse_some_cases ht with ht | ht
  · exact h.endArms j ht
  split at ht
  · cases ht
    exact (h.modJob j.ref (Job.progressBy 1)).completeJob _ _
  · cases ht

theorem recordSettles (h : SameDevice x s) (n : Fin 8) (r : Nat × Nat × Fin 4 × W32) (ht : recordSettles n s r = some t) :
    SameDevice x t := by
  simp only [Machine.recordSettles] at ht
  split at ht
  · cases ht; exact h
  · split at ht
    · cases ht; exact h
    · cases ht

theorem packetSettles (h : SameDevice x s) (i : Fin 33) (p : Pkt) (ht : packetSettles i p s = some t) : SameDevice x t := by
  have hdone : ∀ d (u v : State), SameDevice x u → some (decide' i p.pos d u) = some v → SameDevice x v := by
    rintro d u _ hu ⟨⟩
    exact hu
  simp only [Machine.packetSettles] at ht
  split at ht
  · split at ht
    · cases ht
    · split at ht
      · split at ht
        · refine hdone _ _ _ ?_ ht
          split
          · exact h
          · exact h.dropStaged _
        · exact hdone _ _ _ h ht
      · split at ht
        · exact hdone _ _ _ h ht
        · cases ht
  · split at ht
    · cases ht
    · split at ht
      · split at ht
        · exact hdone _ _ _ h ht
        · cases ht
      · split at ht
        · cases ht
        · exact hdone _ _ _ h ht
      · split at ht
        · exact hdone _ _ _ h ht
        · exact hdone _ _ _ h ht
        · exact hdone _ _ _ h ht
        · cases ht
      · cases ht

theorem queueSettles (h : SameDevice x s) (i : Fin 33) (ht : queueSettles i s = some t) : SameDevice x t := by
  rcases queueSettles_cases i s t ht with ⟨p, d, rfl⟩ | ⟨p, hp⟩
  · exact h.writeRecord _ _ _
  · exact h.packetSettles i p hp

theorem regionSettles (h : SameDevice x s) (n : Fin 8) (ht : regionSettles n s = some t) : SameDevice x t := by
  unfold Machine.regionSettles at ht
  rcases orElse_some_cases ht with ht | ht
  · obtain ⟨r, -, hr⟩ := List.exists_of_findSome?_eq_some ht
    exact h.recordSettles n r hr
  rcases orElse_some_cases ht with ht | ht
  · obtain ⟨q, -, hq⟩ := List.exists_of_findSome?_eq_some ht
    exact h.queueSettles _ hq
  obtain ⟨j, -, hj⟩ := List.exists_of_findSome?_eq_some ht
  split at hj
  · exact h.jobSettles j hj
  · unfold lockSettles at hj
    split at hj
    · split at hj
      · exact h.releaseWord j hj
      · cases hj
    · cases hj

theorem settle (h : SameDevice x s) (n : Fin 8) : SameDevice x (settle n s) := by
  unfold Machine.settle
  generalize 96 = rounds
  induction rounds generalizing s with
  | zero => exact h
  | succ k ih =>
    unfold settleUpTo
    split
    · exact ih (h.regionSettles n ‹_›)
    · exact h

theorem settleMaint (h : SameDevice x s) : SameDevice x (settleMaint s) := by
  unfold Machine.settleMaint
  generalize 16 = rounds
  induction rounds generalizing s with
  | zero => exact h
  | succ k ih =>
    unfold settleMaintUpTo
    split
    · exact ih (h.queueSettles _ ‹_›)
    · exact h

theorem settleAll (h : SameDevice x s) : SameDevice x (settleAll s) :=
  (h.forEach _ _ fun n _ h => h.settle n).settleMaint

/-! ### Kills (R332) -/

theorem localWrite (h : SameDevice x s) (e : Eng) (a : Nat) (data : List Byte) : SameDevice x (localWrite e a data s) := by
  cases e with
  | herd i =>
    simp only [Machine.localWrite]
    split
    · split
      · exact h
      · exact h
    · exact h
  | _ => exact h

theorem landPacket (h : SameDevice x s) (e : Eng) (p : MeshPacket) : SameDevice x (landPacket e p s) := by
  unfold Machine.landPacket
  split
  · exact h
  · split
    · exact h.localWrite _ _ _
    · split
      · exact (h.jobError _ _ _).settle _
      · exact h

theorem serveHeld (h : SameDevice x s) (a b : Nat) : SameDevice x (serveHeld a b s) := by
  refine h.forEach _ _ fun l s h => h.forEach _ _ fun vc s h => ?_
  have hl : ∀ f, SameDevice x (modLink l f s) := fun _ => h
  simp only
  split
  · exact (hl _).forEach _ _ fun p _ h => h.landPacket _ p
  · exact hl _

theorem undefDst (h : SameDevice x s) (e : Eng) (n : Fin 8) (d : Dst) (len : Nat) : SameDevice x (undefDst e n d len s) := by
  have hw : SameDevice x (writeDst e n d (undefBytes s len) s).1 := by
    unfold writeDst
    split
    · split
      · exact h.localWrite _ _ _
      · exact h
    · exact h.writeDev _ _ _ _
  exact hw

/-- The destinations of abandoned operations. -/
theorem undefOpen (h : SameDevice x s) (e : Eng) (l : List Desc) :
    SameDevice x (Machine.forEach l (fun d s => Machine.forEach (openDsts s e d) (fun p s => Machine.undefDst e d.job.r p.1 p.2 s) s) s) :=
  h.forEach l _ fun _ _ h => h.forEach _ _ fun _ _ h => h.undefDst _ _ _ _

theorem resetUnit (h : SameDevice x s) (e : Eng) : SameDevice x (resetUnit e s) := by
  have hu := h.undefOpen e (runningOn s e)
  have hd : SameDevice x (dropSource e (Machine.forEach (runningOn s e)
      (fun d s => Machine.forEach (openDsts s e d) (fun p s => Machine.undefDst e d.job.r p.1 p.2 s) s) s)) := by
    unfold dropSource
    split
    · exact hu
    · exact hu
  cases e with
  | ibex i =>
    simp only [Machine.resetUnit]
    exact serveHeld (hd.of_eq (modIbex_rgn i _ _) (modIbex_mkh i _ _) (modIbex_err i _ _)) _ _
  | _ => exact hd

theorem scrubUnit (h : SameDevice x s) (e : Eng) : SameDevice x (scrubUnit e s) := by
  cases e with
  | _ => exact h

theorem scrubAll (h : SameDevice x s) (es : List Eng) : SameDevice x (scrubAll es s) := by
  refine h.forEach es _ fun e s h => ?_
  have hs := h.scrubUnit e
  cases e with
  | _ => exact hs

theorem endTicking (h : SameDevice x s) (n : Fin 8) : SameDevice x (endTicking n s) := by
  have hidle : ∀ (l : List (Fin 64)) (u : State), SameDevice x u → SameDevice x
      (Machine.forEach l (fun h => modHerd h fun t => { t with state := .idle, sweepDone := false, cls := 0 }) u) :=
    fun l _ hu => hu.forEach l _ fun _ _ h => h
  have hfield : ∀ (l : List (Fin 48)) (u : State), SameDevice x u → SameDevice x
      (Machine.forEach l (fun i => modIbex i fun t => { t with fieldRsv := none }) u) :=
    fun l _ hu => hu.forEach l _ fun _ _ h => h
  have hjob : ∀ f g, SameDevice x (modTickJob n f (modTickRgn n g s)) := fun _ _ => h
  have hrest : ∀ f g k u, SameDevice x u → SameDevice x (modRingRgn n f (modNoiseRgn n g (modAnl n k u))) := fun _ _ _ _ h => h
  simp only [Machine.endTicking]
  exact hrest _ _ _ _ (hfield _ _ (hidle _ _ (hjob _ _)))

theorem dropMerge (h : SameDevice x s) (n : Fin 8) : SameDevice x (dropMerge n s) := by
  have hk : SameDevice x (Machine.forEach ((allFin 8).filter fun m => s.rgn.mbOwner[m] == some n)
      (fun m => modKudu m fun k => { k with mergeWaits := false, merging := false }) s) := h.forEach _ _ fun _ _ h => h
  exact hk

theorem killJob (h : SameDevice x s) (k : JobRef) (scrub : Bool) : SameDevice x (killJob k scrub s) := by
  unfold Machine.killJob
  split
  · exact h
  · rename_i j _
    have hdrop : SameDevice x (purgeJob k (dropReady j s)) := h.forEach _ _ fun a _ h => h.dropArm _ a
    have hreset := hdrop.forEach j.engines Machine.resetUnit fun e _ h => h.resetUnit e
    simp only
    generalize Machine.forEach j.engines Machine.resetUnit (purgeJob k (dropReady j s)) = t at hreset ⊢
    have hdma : SameDevice x (modEng (fun y => { y with dmaRunning := y.dmaRunning.filter fun d => d.job != k }) _) :=
      hreset.undefOpen .dma (t.eng.dmaRunning.filter fun d => d.job == k)
    generalize modEng _ _ = u at hdma ⊢
    have htick : SameDevice x (if j.tick = true then Machine.dropMerge k.r (Machine.endTicking k.r u) else u) := by
      split
      · exact (hdma.endTicking _).dropMerge _
      · exact hdma
    split
    · exact htick.scrubAll _
    · exact htick

theorem endByDevice (h : SameDevice x s) (e : Err) (j : Job) : SameDevice x (endByDevice e j s) := by
  unfold Machine.endByDevice
  split
  · exact (h.killJob _ _).completeJob _ _
  · split
    · exact h
    · exact h.stopJob _ _ _

/-! ### The end of everything of a region (R172, R339) -/

theorem tdiError (h : SameDevice x s) (n : Fin 8) : SameDevice x (tdiError n s) := by
  have hpages : ∀ c u, SameDevice x u → SameDevice x (dropHostPages c u) := by
    intro c u hu
    simp only [dropHostPages]
    split
    · exact hu.forEach _ _ fun _ _ h => h
    · exact (forEach hu _ _ fun _ _ h => by exact h).modCtx _ _
  simp only [Machine.tdiError]
  split
  · simp only [setTdi]
    split
    · exact hpages _ _ (h.modSecRgn _ _)
    · exact h.modSecRgn _ _
  · exact h

theorem failMaint (h : SameDevice x s) (op : Nat) (n : Fin 8) (st : Nat) : SameDevice x (failMaint op n st s) := by
  unfold Machine.failMaint
  split
  · split
    · exact h
    · exact h
  · exact h

theorem ownSave (h : SameDevice x s) (n : Fin 8) (o : Nat) : SameDevice x (ownSave n o s) := h.forEach _ _ fun _ _ h => h

theorem haltRegion (h : SameDevice x s) (n : Fin 8) : SameDevice x (haltRegion n s) := by
  have hkill := h.forEach (startedJobs s n) (fun j t => Machine.dropJob j.ref (Machine.breakLocks j.ref (Machine.leaveLocks j.ref
    (Machine.endDeferred j.ref .error (Machine.killJob j.ref (ctxSealed s (ctxOf n)) t)))))
    fun j t h => ((((h.killJob _ _).endDeferred _ _).leaveLocks _).breakLocks _).dropJob _
  simp only [Machine.haltRegion]
  generalize Machine.forEach (startedJobs s n) _ s = t at hkill ⊢
  have hreset := forEach (s := { t with jobs := t.jobs.filter fun j => j.ref.r != n }) hkill
    (regionUnits t.rgn.rgn[n] ++ (lentPes t n).map Eng.pe) Machine.resetUnit fun e _ h => h.resetUnit e
  split
  · exact hreset.forEach _ _ fun e _ h => h.scrubUnit e
  · exact hreset

end SameDevice

/-! ### A device-level error (R341) -/

/-- A device-level error sets its bit, and leaves the regions' records and the Markhor block. -/
theorem deviceError_device (e : Err) (site : Site) (region stack : Nat) (s : State) :
    SameDevice (modErr (setDevBit e stack) s) (deviceError e site region stack s) := by
  have hlog : ∀ r, SameDevice (modErr (setDevBit e stack) s) (sendMsix 0 0 (logDevice r (modErr (setDevBit e stack) s))) :=
    fun _ => SameDevice.refl _
  simp only [deviceError]
  exact ((hlog _).forEach _ _ fun j _ h => h.endByDevice e j).settleAll

end Sys2Proof.Machine
end
section
/-!
PROOFS. The Markhor cores and their images (08_kudu_markhor_criward.md R169, R172, R174-R176; 11_owners_secrecy.md R251): a lockstep
mismatch, a watchdog's expiry, FW_STAGE and a trial that times out.
-/
namespace Sys2Proof.Machine

/-! ### A lockstep mismatch (R169) -/

/-- The Secure Markhor halts, and the mismatch is counted. -/
def lockstepLost (s : State) : State :=
  { s with mkh := { s.mkh with lockstepOk := false, mismatch := satInc 16 s.mkh.mismatch }, sec := { s.sec with up := false } }

theorem exec_lockstepMismatch {s : State} (h : s.mkh.lockstepOk = true) :
    exec .lockstepMismatch s = .next (deviceError .lockstep secureSite 15 0 (lockstepLost s)) := by
  simp only [exec, execLockstepMismatch, h, if_true]
  rfl

theorem exec_lockstepMismatch_halted {s : State} (h : s.mkh.lockstepOk = false) : exec .lockstepMismatch s = .next s := by
  simp only [exec, execLockstepMismatch, h, Bool.false_eq_true, if_false]

theorem ErrState.lockstep_of_stat {x y : ErrState} (h : x.stat = y.stat) : x.lockstep = y.lockstep :=
  congrArg (fun p => p.2.1) h

theorem ErrState.maintCp_of_stat {x y : ErrState} (h : x.stat = y.stat) : x.maintCp = y.maintCp :=
  congrArg (fun p => p.2.2.2.1) h

theorem lockstepMismatch_halts (s : State) (h : s.mkh.lockstepOk = true) :
    ∃ t, exec .lockstepMismatch s = .next t ∧ t.mkh.lockstepOk = false ∧
      t.mkh.mismatch = min (s.mkh.mismatch + 1) 65535 ∧ t.err.lockstep = true := by
  obtain ⟨-, hmkh, hstat⟩ := deviceError_device .lockstep secureSite 15 0 (lockstepLost s)
  exact ⟨_, exec_lockstepMismatch h, congrArg MkhState.lockstepOk hmkh, congrArg MkhState.mismatch hmkh,
    ErrState.lockstep_of_stat hstat⟩

/-! ### The loss of a region's core (R172, R339) -/

/-- The error CP_OFFLINE of region n as it is logged and signalled. -/
def offlineLogged (n : Fin 8) (site : Site) (s : State) : State :=
  sendMsix (vfOf n) 0 (logRegion n (mkRec .cpOffline n.val 0 site 0 s.tick.tn 0) s)

/-- Region n as it goes to DISABLED. -/
def disable (n : Fin 8) (s : State) : State := modRgn n (fun r => { r with state := .disabled, recovery := 0 }) s

/-- What the device stops of region n itself, in the state st, before it is DISABLED. -/
def regionHalted (n : Fin 8) (st : RState) (s : State) : State :=
  let s := tdiError n (modRgn n (fun r => { r with before := r.state, recovery := 3 }) s)
  let s := if s.sec.rgn[n].sealing then giveUpSeal n (failMaint 0x42 n Status.regionFaulted s) else s
  let s := lapseOffer n s
  haltRegion n (if st = .sealed then ownSave n 8 s else s)

/-- What CP_OFFLINE does to a region, by its state (R339, R345, Table 3-4). -/
def offlineOutcome (n : Fin 8) (site : Site) (s : State) : State :=
  let r := s.rgn.rgn[n]
  let t := offlineLogged n site s
  if r.state = .free then s
  else if r.tearingDown then if r.state = .opened ∨ r.state = .sealed ∨ r.state = .faulted then disable n t else t
  else match r.state with
    | .opened | .sealed => settleMaint (settle n (disable n (regionHalted n r.state t)))
    | .faulted => disable n (forEach (regionUnits r) resetUnit t)
    | .free | .forming | .disabled => t

theorem regionError_cpOffline (n : Fin 8) (site : Site) (s : State) :
    regionError n .cpOffline site none s = offlineOutcome n site s := by
  simp only [regionError, true_and, if_true]
  rfl

theorem regionHalted_device (n : Fin 8) (st : RState) (s : State) :
    SameDevice (modRgn n (fun r => { r with before := r.state, recovery := 3 }) s) (regionHalted n st s) := by
  have htdi := (SameDevice.refl (modRgn n (fun r => { r with before := r.state, recovery := 3 }) s)).tdiError n
  simp only [regionHalted]
  generalize modRgn n _ s = x at htdi ⊢
  generalize tdiError n x = t at htdi ⊢
  have hseal : SameDevice x (if t.sec.rgn[n].sealing then giveUpSeal n (failMaint 0x42 n Status.regionFaulted t) else t) := by
    split
    · exact (htdi.failMaint _ _ _).modSecRgn _ _
    · exact htdi
  have hoffer := hseal.modSecRgn n (fun x => { x with offer := none })
  refine SameDevice.haltRegion ?_ n
  split
  · exact hoffer.ownSave _ _
  · exact hoffer

/-- Of the regions and the Markhor block, at most region n's record differs. -/
structure OnlyRegion (n : Fin 8) (s t : State) : Prop where
  mkh : t.mkh = s.mkh
  others : ∀ m : Fin 8, m ≠ n → t.rgn.rgn[m] = s.rgn.rgn[m]

namespace OnlyRegion
variable {n : Fin 8} {s t u : State}

theorem of_device (h : SameDevice s t) : OnlyRegion n s t := ⟨h.2.1, fun _ _ => by rw [h.1]⟩

theorem trans (h : OnlyRegion n s t) (k : OnlyRegion n t u) : OnlyRegion n s u :=
  ⟨k.mkh.trans h.mkh, fun m hm => (k.others m hm).trans (h.others m hm)⟩

theorem modRgn (n : Fin 8) (f : Region → Region) (s : State) : OnlyRegion n s (modRgn n f s) :=
  ⟨rfl, fun _ hm => upd_other _ _ _ _ hm⟩

theorem logged (n : Fin 8) (site : Site) (s : State) : OnlyRegion n s (offlineLogged n site s) := ⟨rfl, fun _ _ => rfl⟩

/-- CP_OFFLINE of a region (R339). -/
theorem regionError (n : Fin 8) (site : Site) (s : State) : OnlyRegion n s (regionError n .cpOffline site none s) := by
  have hlog := logged n site s
  have hstops : ∀ st, OnlyRegion n s
      (settleMaint (settle n (disable n (regionHalted n st (offlineLogged n site s))))) := fun st =>
    ((hlog.trans (modRgn n _ _)).trans (of_device (regionHalted_device n st _))).trans
      ((modRgn n _ _).trans (of_device (((SameDevice.refl _).settle n).settleMaint)))
  simp only [regionError_cpOffline, offlineOutcome]
  split
  · exact of_device (.refl s)
  · split
    · split
      · exact hlog.trans (modRgn n _ _)
      · exact hlog
    · split
      · exact hstops _
      · exact hstops _
      · exact (hlog.trans (of_device ((SameDevice.refl _).forEach _ _ fun e _ h => h.resetUnit e))).trans (modRgn n _ _)
      · exact hlog
      · exact hlog
      · exact hlog

end OnlyRegion

theorem disable_state (n : Fin 8) (s : State) : (disable n s).rgn.rgn[n].state = .disabled :=
  congrArg Region.state (upd_same _ _ _)

theorem regionError_disables {n : Fin 8} {s : State} (site : Site) (ht : s.rgn.rgn[n].tearingDown = false)
    (h : s.rgn.rgn[n].state = .opened ∨ s.rgn.rgn[n].state = .sealed) :
    (regionError n .cpOffline site none s).rgn.rgn[n].state = .disabled := by
  have hstops : ∀ st, (settleMaint (settle n (disable n (regionHalted n st (offlineLogged n site s))))).rgn.rgn[n].state = .disabled := by
    intro st
    rw [(((SameDevice.refl _).settle n).settleMaint).1]
    exact disable_state n _
  rw [regionError_cpOffline, offlineOutcome]
  rcases h with h | h
  · simpa only [h, ht, reduceCtorEq, Bool.false_eq_true, if_false] using hstops _
  · simpa only [h, ht, reduceCtorEq, Bool.false_eq_true, if_false] using hstops _

theorem regionError_of_disabled {n : Fin 8} {s : State} (site : Site) (h : s.rgn.rgn[n].state = .disabled) :
    (regionError n .cpOffline site none s).rgn.rgn[n].state = .disabled := by
  have hlog : (offlineLogged n site s).rgn.rgn[n].state = .disabled := h
  rw [regionError_cpOffline, offlineOutcome]
  simpa only [h, reduceCtorEq, or_self, if_false, ite_self] using hlog

/-- Region n is DISABLED, or OPEN or SEALED and not being torn down. -/
def LosesCore (n : Fin 8) (s : State) : Prop :=
  s.rgn.rgn[n].state = .disabled ∨
    s.rgn.rgn[n].tearingDown = false ∧ (s.rgn.rgn[n].state = .opened ∨ s.rgn.rgn[n].state = .sealed)

theorem LosesCore.disabled {n : Fin 8} {s : State} (h : LosesCore n s) (site : Site) :
    (regionError n .cpOffline site none s).rgn.rgn[n].state = .disabled := by
  rcases h with h | ⟨ht, h⟩
  · exact regionError_of_disabled site h
  · exact regionError_disables site ht h

/-- The error of any region keeps that, and keeps a DISABLED region so. -/
theorem LosesCore.regionError {n : Fin 8} {s : State} (h : LosesCore n s) (m : Fin 8) (site : Site) :
    LosesCore n (regionError m .cpOffline site none s) := by
  by_cases hm : n = m
  · subst hm
    exact .inl (h.disabled site)
  · rw [LosesCore, (OnlyRegion.regionError m site s).others n hm]
    exact h

/-- The core's regions take the error one after another, and those that were OPEN or SEALED are DISABLED. -/
theorem forEach_regionError_disables (l : List (Fin 8)) (site : Site) (n : Fin 8) (hn : n ∈ l) (s : State) (h : LosesCore n s) :
    (forEach l (fun n => regionError n .cpOffline site none) s).rgn.rgn[n].state = .disabled := by
  induction l generalizing s with
  | nil => cases hn
  | cons m l ih =>
    rw [forEach_cons]
    rcases List.mem_cons.mp hn with rfl | hl
    · refine forEach_keeps (fun t => t.rgn.rgn[n].state = .disabled) l _ (fun m _ t ht => ?_) _ (h.disabled site)
      by_cases hm : n = m
      · subst hm
        exact regionError_of_disabled site ht
      · rw [(OnlyRegion.regionError m site t).others n hm]
        exact ht
    · exact ih hl _ (h.regionError m site)

theorem forEach_regionError_mkh (l : List (Fin 8)) (site : Site) (s : State) :
    (forEach l (fun n => regionError n .cpOffline site none) s).mkh = s.mkh :=
  forEach_keeps (fun t => t.mkh = s.mkh) l _ (fun n _ t ht => (OnlyRegion.regionError n site t).mkh.trans ht) s rfl

/-! ### A watchdog's expiry (R172) -/

section
variable {s : State} {cp : Fin 6}

/-- The core is lost, and its regions have taken CP_OFFLINE. -/
def coreLost (cp : Fin 6) (s : State) : State :=
  forEach ((allFin 8).filter fun n => s.mkh.cp[cp].regions.getLsbD n.val)
    (fun n => regionError n .cpOffline (coreSite cp) none) (modCp cp CpCore.lost s)

theorem exec_watchdogExpiry (h : s.mkh.cp[cp].online = true) : exec (.watchdogExpiry cp) s =
    .next (if cp = 1 then deviceError .maintCp (coreSite cp) 15 0 (coreLost cp s) else coreLost cp s) := by
  simp only [exec, execWatchdogExpiry, h, if_true]
  rfl

theorem exec_watchdogExpiry_offline (h : s.mkh.cp[cp].online = false) : exec (.watchdogExpiry cp) s = .next s := by
  simp only [exec, execWatchdogExpiry, h, Bool.false_eq_true, if_false]

theorem coreLost_core (cp : Fin 6) (s : State) : (coreLost cp s).mkh.cp[cp] = s.mkh.cp[cp].lost := by
  rw [coreLost, forEach_regionError_mkh]
  exact upd_same _ _ _

theorem coreLost_disables (n : Fin 8) (hn : s.mkh.cp[cp].regions.getLsbD n.val = true) (ht : s.rgn.rgn[n].tearingDown = false)
    (h : s.rgn.rgn[n].state = .opened ∨ s.rgn.rgn[n].state = .sealed) : (coreLost cp s).rgn.rgn[n].state = .disabled :=
  forEach_regionError_disables _ _ n (List.mem_filter.mpr ⟨mem_allFin8 n, hn⟩) _ (.inr ⟨ht, h⟩)

/-- The device-level error for cp 1 leaves what the loss of the core has done. -/
theorem watchdogExpiry_takes_offline (h : s.mkh.cp[cp].online = true) : ∃ t, exec (.watchdogExpiry cp) s = .next t ∧
    t.rgn = (coreLost cp s).rgn ∧ t.mkh = (coreLost cp s).mkh ∧ (cp = 1 → t.err.maintCp = true) := by
  refine ⟨_, exec_watchdogExpiry h, ?_⟩
  split
  · obtain ⟨hrgn, hmkh, hstat⟩ := deviceError_device .maintCp (coreSite cp) 15 0 (coreLost cp s)
    exact ⟨hrgn, hmkh, fun _ => ErrState.maintCp_of_stat hstat⟩
  · exact ⟨rfl, rfl, fun hcp => absurd hcp ‹_›⟩

end

/-! ### FW_STAGE (R174, R175, R251) -/

section
variable {s : State} {p : Pkt}

/-- What FW_STAGE does in its turn: the lock, then the image, then the write. -/
def stageAct (p : Pkt) (s : State) : State :=
  let size := fieldAt p.bytes 32 4
  if fwLocked s then maintDone p Status.fwLocked s
  else
    let r := readDev s (queueTile s maintQ) 8 (fieldAt p.bytes 24 6) size
    let s := latchIf 8 r.2 s
    if imageOk s.stag.floor r.1 size then maintStart p { s with stag := { s.stag with writing := some r.1 } }
    else maintDone p Status.fwImageInvalid s

theorem exec_fwStage (s : State) : exec .fwStage s = maintCommand 0x46 stageAct s := rfl

theorem fwLocked_iff (s : State) :
    fwLocked s = true ↔ ∃ n : Fin 8, s.sec.rgn[n].noFw = true ∧ (s.sec.rgn[n].tdi = .locked ∨ s.sec.rgn[n].tdi = .run) := by
  simp only [fwLocked, List.any_eq_true, Bool.and_eq_true, Bool.or_eq_true, beq_iff_eq, Vector.mem_toList_iff]
  constructor
  · rintro ⟨x, hx, h⟩
    obtain ⟨i, hi, rfl⟩ := Vector.mem_iff_getElem.mp hx
    exact ⟨⟨i, hi⟩, h⟩
  · rintro ⟨n, h⟩
    exact ⟨_, Vector.getElem_mem n.isLt, h⟩

theorem stageAct_locked (h : fwLocked s = true) : stageAct p s = maintDone p Status.fwLocked s := by
  simp only [stageAct, h, if_true]

theorem stageAct_unlocked (h : fwLocked s = false)
    (hr : (readDev s (queueTile s maintQ) 8 (fieldAt p.bytes 24 6) (fieldAt p.bytes 32 4)).2 = none) : stageAct p s =
    let img := (readDev s (queueTile s maintQ) 8 (fieldAt p.bytes 24 6) (fieldAt p.bytes 32 4)).1
    if imageOk s.stag.floor img (fieldAt p.bytes 32 4) then
      maintStart p { s with stag := { s.stag with writing := some img } }
    else maintDone p Status.fwImageInvalid s := by
  simp only [stageAct, h, Bool.false_eq_true, if_false, hr, latchIf]

end

/-- What follows of itself leaves Stag. -/
theorem stag_ends (g : StagState) : KeptByEnds fun s => s.stag = g where
  jobs _ _ h := h
  que _ _ h := h
  evt _ _ h := h
  err _ _ h := h
  msix _ _ h := h
  ctx _ _ h := h
  phys _ _ _ h := h
  host _ _ _ h := h
  shadow _ _ h := h
  purge _ _ h := h

/-! ### A trial that times out (R176) -/

/-- The block after the cold reset that Stag applies to a trial. -/
def trialEnded (aux : Bool) (s : State) : State :=
  let s := resetState false .stag aux { s with stag := { s.stag with pending := false } }
  { s with mkh := { s.mkh with fallback := true } }

theorem exec_trialBootTimeout {s : State} (aux : Bool) (hp : s.dev.powered = true) (ht : s.mkh.trial = true)
    (hr : s.dev.ready = false) : exec (.trialBootTimeout aux) s = .next (trialEnded aux s) := by
  simp only [exec, execTrialBootTimeout, hp, ht, hr, and_self, if_true]
  rfl

/-- Whether or not the reset breaks a staging, no bank is pending. -/
theorem stagingBreaks_pending {s : State} (h : s.stag.pending = false) : (stagingBreaks s).pending = false := by
  unfold stagingBreaks
  split
  · rfl
  · exact h

theorem trialEnded_pending (aux : Bool) (s : State) : (trialEnded aux s).mkh.pending = false ∧ (trialEnded aux s).stag.pending = false :=
  have h : (stagingBreaks { s with stag := { s.stag with pending := false } }).pending = false := stagingBreaks_pending rfl
  ⟨h, h⟩

/-! ### The statement -/

/-- Settles O34: the device-level and region-level errors leave the cores' records, the commands by their equations, and the reset of a
trial clears what a staging would leave pending. -/
theorem markhorCoresFailAndBootsFallBack : Obligations.MarkhorCoresFailAndBootsFallBack := by
  refine ⟨fun s => ⟨lockstepMismatch_halts s, exec_lockstepMismatch_halted⟩, fun s cp => ⟨fun h => ?_, exec_watchdogExpiry_offline⟩,
    fun s p hp hc hr hf => ?_, fun s aux hp ht hr => ?_⟩
  · obtain ⟨t, hexec, hrgn, hmkh, hmaint⟩ := watchdogExpiry_takes_offline h
    have hcore : t.mkh.cp[cp] = s.mkh.cp[cp].lost := by rw [hmkh, coreLost_core]
    refine ⟨t, hexec, by rw [hcore]; rfl, by rw [hcore]; rfl, by rw [hcore]; rfl, hmaint, fun n hn htear hopen => ?_⟩
    rw [hrgn]
    exact coreLost_disables n hn htear hopen
  · have hacts : exec .fwStage s = .next (settleMaint (stageAct p s)) := (exec_fwStage s).trans (maintCommand_acts stageAct hp hc hr hf)
    intro img locked
    refine ⟨fun hl => ?_, fun hl hread => ⟨fun hbad => ?_, fun hgood => ?_⟩⟩
    · rw [hacts, stageAct_locked ((fwLocked_iff s).mpr hl)]
      rfl
    · rw [hacts, stageAct_unlocked (Bool.eq_false_iff.mpr (mt (fwLocked_iff s).mp hl)) hread]
      simp only [img] at hbad
      simp only [hbad, Bool.false_eq_true, if_false]
      rfl
    · refine ⟨_, hacts, ?_⟩
      rw [stageAct_unlocked (Bool.eq_false_iff.mpr (mt (fwLocked_iff s).mp hl)) hread]
      simp only [img] at hgood
      simp only [hgood, if_true]
      exact keeps_settleMaint (stag_ends _) _ rfl
  · obtain ⟨hmkh, hstag⟩ := trialEnded_pending aux s
    exact ⟨_, exec_trialBootTimeout aux hp ht hr, rfl, rfl, hmkh, rfl, hstag, rfl, rfl⟩

end Sys2Proof.Machine
end

section
/-!
PROOFS. The arithmetic of the Polynomial Engine (09_polynomial_engine.md R185, R189, R190): powers and inverses modulo q, the two
transforms as sums over ZMod q, and the sums of odd powers of ψ that make INTT undo NTT.
-/
namespace Sys2Proof.Machine
open Finset

/-! ### Powers, inverses and differences modulo q -/

theorem powModGo_eq (f b e m acc : Nat) (he : e < 2 ^ f) (hacc : acc % m = acc) : powModGo f b e m acc = acc * b ^ e % m := by
  induction f generalizing b e acc with
  | zero =>
    obtain rfl : e = 0 := by simpa using he
    simp [powModGo, hacc]
  | succ f ih =>
    have hhalf : e / 2 < 2 ^ f := by rw [pow_succ] at he; omega
    have hsq : (b * b % m) ^ (e / 2) ≡ b ^ (2 * (e / 2)) [MOD m] := by
      rw [pow_mul, pow_two]; exact (Nat.mod_modEq _ _).pow _
    simp only [powModGo]
    split
    · rename_i hodd
      rw [ih _ _ _ hhalf (Nat.mod_mod _ _)]
      refine ((Nat.mod_modEq _ _).mul hsq).trans (congrArg (· % m) ?_)
      rw [mul_assoc, ← pow_succ', show 2 * (e / 2) + 1 = e by omega]
    · rename_i heven
      rw [ih _ _ _ hhalf hacc]
      refine (Nat.ModEq.rfl.mul hsq).trans (congrArg (· % m) ?_)
      rw [show 2 * (e / 2) = e by omega]

/-- powMod is the power modulo m, for exponents of 64 bits. -/
theorem powMod_eq (b e m : Nat) (he : e < 2 ^ 64) : powMod b e m = b ^ e % m := by
  rw [powMod, powModGo_eq 64 _ _ _ _ he (Nat.mod_mod _ _)]
  exact ((Nat.mod_modEq 1 m).mul ((Nat.mod_modEq b m).pow e)).trans (congrArg (· % m) (one_mul _))

theorem euclid_zero (f a : Nat) (s t : Int) : euclid (f + 1) a 0 s t = (a, s) := by simp [euclid]

theorem euclid_succ (f a b : Nat) (s t : Int) (hb : b ≠ 0) :
    euclid (f + 1) a b s t = euclid f b (a % b) t (s - ((a / b : Nat) : Int) * t) := by simp [euclid, hb]

/-- The coefficient that Euclid's algorithm finds for n, which leaves 1 in q at once. -/
theorem euclid_coefficient (n q : Nat) (hn : 1 ≤ n) (hq : q % n = 1 % n) :
    (euclid 128 q n 0 1).2 = if n = 1 then 1 else -((q / n : Nat) : Int) := by
  rw [euclid_succ 127 q n 0 1 (by omega), hq]
  split
  · subst n; rw [Nat.mod_one, euclid_zero]
  · rw [Nat.mod_eq_of_lt (by omega), euclid_succ 126 n 1 _ _ one_ne_zero, Nat.mod_one, euclid_zero]; simp

/-- The inverse of n modulo a greater q that leaves 1 when divided by n. -/
theorem invMod_mul (n q : Nat) (hn : 1 ≤ n) (hq : q % n = 1 % n) (hlt : n < q) : (n : ZMod q) * (invMod n q : ZMod q) = 1 := by
  have hpos : (0 : Int) < q := by omega
  have hcast : (invMod n q : ZMod q) = (((euclid 128 q n 0 1).2 : Int) : ZMod q) := by
    rw [invMod, Nat.mod_eq_of_lt hlt, ← Int.cast_natCast, Int.toNat_of_nonneg (Int.emod_nonneg _ hpos.ne'), ZMod.intCast_mod]
  rw [hcast, euclid_coefficient n q hn hq]
  split
  · subst n; simp
  · have hdiv : ((n * (q / n) + 1 : Nat) : ZMod q) = 0 := by
      rw [show n * (q / n) + 1 = q by have h := Nat.div_add_mod q n; rw [hq, Nat.mod_eq_of_lt (by omega)] at h; exact h]
      exact ZMod.natCast_self q
    push_cast at hdiv
    rw [Int.cast_neg, Int.cast_natCast]
    linear_combination -hdiv

theorem subMod_lt (q a b : Nat) (hq : 1 ≤ q) : subMod q a b < q := Nat.mod_lt _ hq

theorem subMod_add (q a b : Nat) (hq : 1 ≤ q) : (subMod q a b + b) % q = a % q := by
  have hb : b % q < q := Nat.mod_lt _ hq
  have hdiv := Nat.div_add_mod b q
  calc (subMod q a b + b) % q = (a + (q - b % q) + b) % q := Nat.mod_add_mod _ _ _
    _ = (a + q * (1 + b / q)) % q := by rw [mul_add, mul_one]; congr 1; omega
    _ = a % q := Nat.add_mul_mod_self_left _ _ _

/-! ### Limbs word by word (R190) -/

theorem getD_zipWith (f : Nat → Nat → Nat) (a b : Limb) (k : Nat) (ha : k < a.length) (hb : k < b.length) :
    (List.zipWith f a b).getD k 0 = f (a.getD k 0) (b.getD k 0) := by
  simp [List.getD_eq_getElem?_getD, ha, hb]

theorem addLimb_word (q : Nat) (a b : Limb) (k : Nat) (ha : k < a.length) (hb : k < b.length) :
    (addLimb q a b).getD k 0 = (a.getD k 0 + b.getD k 0) % q := getD_zipWith _ a b k ha hb

theorem subLimb_word (q : Nat) (a b : Limb) (k : Nat) (ha : k < a.length) (hb : k < b.length) :
    (subLimb q a b).getD k 0 = subMod q (a.getD k 0) (b.getD k 0) := getD_zipWith _ a b k ha hb

theorem mulLimb_word (q : Nat) (a b : Limb) (k : Nat) (ha : k < a.length) (hb : k < b.length) :
    (mulLimb q a b).getD k 0 = a.getD k 0 * b.getD k 0 % q := getD_zipWith _ a b k ha hb

/-! ### The table of powers and the sums over a limb -/

/-- The table after m powers of ψ, with the next one. -/
theorem psiTable_fold (q psi m : Nat) :
    (List.range m).foldl (fun (a : Array Nat × Nat) _ => (a.1.push a.2, a.2 * psi % q)) (#[], 1 % q) =
      (((List.range m).map fun i => psi ^ i % q).toArray, psi ^ m % q) := by
  induction m with
  | zero => simp
  | succ m ih => simp [List.range_succ, ih, pow_succ]

theorem psiTable_word (q psi n i : Nat) (hi : i < 2 * n) : (psiTable q psi n).getD i 0 = psi ^ i % q := by
  simp [psiTable, psiTable_fold, Array.getD, hi]

/-- A fold over a limb's words with their indices is the sum over its indices. -/
theorem foldl_zipIdx_eq_sum (g : Nat → Nat) (a : Limb) :
    a.zipIdx.foldl (fun acc x => acc + x.1 * g x.2) 0 = ∑ i ∈ range a.length, a.getD i 0 * g i := by
  induction a using List.reverseRecOn with
  | nil => simp
  | append_singleton a w ih =>
    rw [List.zipIdx_append, List.foldl_append, ih, List.length_append, List.length_singleton, sum_range_succ]
    simp only [List.zipIdx_singleton, List.foldl_cons, List.foldl_nil, List.getD_eq_getElem?_getD]
    congr 1
    · exact sum_congr rfl fun i hi => by rw [List.getElem?_append_left (mem_range.mp hi)]
    · simp

theorem ntt_length (lg q psi : Nat) (a : Limb) : (ntt lg q psi a).length = 2 ^ lg := by simp [ntt]
theorem intt_length (lg q psi : Nat) (a : Limb) : (intt lg q psi a).length = 2 ^ lg := by simp [intt]

/-- The exponent −i·e modulo n, written without negation. -/
theorem sub_mul_mod (n i e : Nat) (hi : i < n) : (n - i * e % n) % n = (n - i) * e % n := by
  have hmod : i * e % n < n := Nat.mod_lt _ (by omega)
  have hl : n - i * e % n + i * e ≡ 0 [MOD n] := by
    have hn : n - i * e % n + i * e % n ≡ 0 [MOD n] := by
      rw [Nat.sub_add_cancel hmod.le]
      exact Nat.modEq_zero_iff_dvd.mpr dvd_rfl
    exact (Nat.ModEq.rfl.add (Nat.mod_modEq _ _).symm).trans hn
  have hr : (n - i) * e + i * e ≡ 0 [MOD n] := by
    rw [← add_mul, Nat.sub_add_cancel hi.le]
    exact Nat.modEq_zero_iff_dvd.mpr (dvd_mul_right _ _)
  exact Nat.ModEq.add_right_cancel' (i * e) (hl.trans hr.symm)

/-- The exponent of ψ at which word k of the evaluation form is taken (R189). -/
def oddPower (lg k : Nat) : Nat := 2 * bitRev lg k + 1

section
variable {lg q psi : Nat} (hpsi : (psi : ZMod q) ^ (2 * 2 ^ lg) = 1)
include hpsi

/-- Exponents of ψ count modulo 2N. -/
theorem psi_pow_congr {x y : Nat} (h : x % (2 * 2 ^ lg) = y % (2 * 2 ^ lg)) : (psi : ZMod q) ^ x = (psi : ZMod q) ^ y := by
  rw [pow_eq_pow_mod x hpsi, pow_eq_pow_mod y hpsi, h]

/-- The table's entry for an exponent taken modulo 2N. -/
theorem psiTable_cast {x y : Nat} (h : x % (2 * 2 ^ lg) = y % (2 * 2 ^ lg)) :
    (((psiTable q psi (2 ^ lg)).getD (x % (2 * 2 ^ lg)) 0 : Nat) : ZMod q) = (psi : ZMod q) ^ y := by
  rw [psiTable_word q psi (2 ^ lg) _ (Nat.mod_lt _ (by positivity)), ZMod.natCast_mod, Nat.cast_pow]
  exact psi_pow_congr hpsi ((Nat.mod_mod _ _).trans h)

/-- A word of the NTT is the polynomial's value at an odd power of ψ. -/
theorem ntt_word_cast (a : Limb) (ha : a.length = 2 ^ lg) (k : Nat) (hk : k < 2 ^ lg) :
    (((ntt lg q psi a).getD k 0 : Nat) : ZMod q) =
      ∑ i ∈ range (2 ^ lg), (a.getD i 0 : ZMod q) * (psi : ZMod q) ^ (i * oddPower lg k) := by
  have hword : (ntt lg q psi a).getD k 0 =
      (∑ i ∈ range a.length, a.getD i 0 * (psiTable q psi (2 ^ lg)).getD (i * oddPower lg k % (2 * 2 ^ lg)) 0) % q := by
    rw [← foldl_zipIdx_eq_sum fun i => (psiTable q psi (2 ^ lg)).getD (i * oddPower lg k % (2 * 2 ^ lg)) 0]
    simp [ntt, List.getD_eq_getElem?_getD, hk, oddPower]
  rw [hword, ZMod.natCast_mod, Nat.cast_sum, ha]
  exact sum_congr rfl fun i _ => by rw [Nat.cast_mul, psiTable_cast hpsi rfl]

/-- A word of the INTT: the powers of ψ go down, as far as 2N − i above 0. -/
theorem intt_word_cast (a : Limb) (ha : a.length = 2 ^ lg) (i : Nat) (hi : i < 2 ^ lg) :
    (((intt lg q psi a).getD i 0 : Nat) : ZMod q) =
      (∑ k ∈ range (2 ^ lg), (a.getD k 0 : ZMod q) * (psi : ZMod q) ^ ((2 * 2 ^ lg - i) * oddPower lg k)) *
        (invMod (2 ^ lg) q : ZMod q) := by
  have hword : (intt lg q psi a).getD i 0 = (∑ k ∈ range a.length, a.getD k 0 *
      (psiTable q psi (2 ^ lg)).getD ((2 * 2 ^ lg - i * oddPower lg k % (2 * 2 ^ lg)) % (2 * 2 ^ lg)) 0) % q * invMod (2 ^ lg) q % q := by
    rw [← foldl_zipIdx_eq_sum fun k =>
      (psiTable q psi (2 ^ lg)).getD ((2 * 2 ^ lg - i * oddPower lg k % (2 * 2 ^ lg)) % (2 * 2 ^ lg)) 0]
    simp [intt, List.getD_eq_getElem?_getD, hi, oddPower]
  rw [hword, ZMod.natCast_mod, Nat.cast_mul, ZMod.natCast_mod, Nat.cast_sum, ha]
  congr 1
  exact sum_congr rfl fun k _ => by rw [Nat.cast_mul, psiTable_cast hpsi (sub_mul_mod _ i _ (by omega))]

end

/-! ### Sums of odd powers of ψ -/

theorem sum_range_mul_two {M : Type} [AddCommMonoid M] (n : Nat) (f : Nat → M) :
    ∑ k ∈ range (n * 2), f k = ∑ j ∈ range n, (f (2 * j) + f (2 * j + 1)) := by
  induction n with
  | zero => simp
  | succ n ih =>
    rw [show (n + 1) * 2 = n * 2 + 1 + 1 by ring, sum_range_succ, sum_range_succ, ih, sum_range_succ, add_assoc, mul_comm n 2]

/-- Summing over the reversed indices is summing over the indices. -/
theorem sum_bitRev {M : Type} [AddCommMonoid M] (w : Nat) (f : Nat → M) :
    ∑ k ∈ range (2 ^ w), f (bitRev w k) = ∑ m ∈ range (2 ^ w), f m := by
  induction w generalizing f with
  | zero => simp [bitRev]
  | succ w ih =>
    have heven : ∀ j, bitRev (w + 1) (2 * j) = bitRev w j := fun j => by simp [bitRev]
    have hodd : ∀ j, bitRev (w + 1) (2 * j + 1) = 2 ^ w + bitRev w j := fun j => by
      simp [bitRev, show (2 * j + 1) / 2 = j by omega]
    rw [pow_succ, sum_range_mul_two]
    simp only [heven, hodd, sum_add_distrib]
    rw [ih f, ih fun m => f (2 ^ w + m), mul_two, sum_range_add]

/-- A geometric sum of 2^w terms vanishes where a power of two below turns the ratio into −1, whether or not q is prime. -/
theorem geom_sum_eq_zero_of_pow_eq_neg_one {R : Type} [CommRing R] (x : R) (w t : Nat) (ht : t < w) (hx : x ^ 2 ^ t = -1) :
    ∑ m ∈ range (2 ^ w), x ^ m = 0 := by
  induction w with
  | zero => omega
  | succ w ih =>
    have hsplit : ∑ m ∈ range (2 ^ (w + 1)), x ^ m = (1 + x ^ 2 ^ w) * ∑ m ∈ range (2 ^ w), x ^ m := by
      rw [pow_succ, mul_two, sum_range_add, add_mul, one_mul, mul_sum]
      simp only [pow_add]
    rcases Nat.lt_succ_iff_lt_or_eq.mp ht with h | rfl
    · rw [hsplit, ih h, mul_zero]
    · rw [hsplit, hx, add_neg_cancel, zero_mul]

/-- Where ψ^N = −1, the odd powers of ψ^d sum to 0 unless N divides d. -/
theorem sum_odd_powers_eq_zero {R : Type} [CommRing R] (x : R) (lg d : Nat) (hx : x ^ 2 ^ lg = -1) (hd : ¬ 2 ^ lg ∣ d) :
    ∑ m ∈ range (2 ^ lg), x ^ (d * (2 * m + 1)) = 0 := by
  have hd0 : d ≠ 0 := by rintro rfl; exact hd (dvd_zero _)
  obtain ⟨s, o, ho, rfl⟩ := Nat.exists_eq_two_pow_mul_odd hd0
  have hs : s < lg := by
    by_contra hge
    exact hd ((pow_dvd_pow 2 (by omega)).trans (dvd_mul_right _ _))
  have hratio : (x ^ (2 * (2 ^ s * o))) ^ 2 ^ (lg - 1 - s) = -1 := by
    have he : 2 * (2 ^ s * o) * 2 ^ (lg - 1 - s) = 2 ^ lg * o := by
      have h2 : 2 ^ lg = 2 * 2 ^ s * 2 ^ (lg - 1 - s) := by
        rw [← pow_succ', ← pow_add]; congr 1; omega
      rw [h2]; ring
    rw [← pow_mul, he, pow_mul, hx, ho.neg_one_pow]
  calc ∑ m ∈ range (2 ^ lg), x ^ (2 ^ s * o * (2 * m + 1))
      = x ^ (2 ^ s * o) * ∑ m ∈ range (2 ^ lg), (x ^ (2 * (2 ^ s * o))) ^ m := by
        rw [mul_sum]
        exact sum_congr rfl fun m _ => by rw [← pow_mul, ← pow_add]; congr 1; ring
    _ = 0 := by rw [geom_sum_eq_zero_of_pow_eq_neg_one _ lg (lg - 1 - s) (by omega) hratio, mul_zero]

/-- Where ψ^N = −1, the powers of ψ that NTT of word j and INTT of word i apply together sum to N for j = i, else to 0. -/
theorem sum_transform_powers {R : Type} [CommRing R] (x : R) (lg i j : Nat) (hx : x ^ 2 ^ lg = -1) (hi : i < 2 ^ lg) (hj : j < 2 ^ lg) :
    ∑ k ∈ range (2 ^ lg), x ^ (j * oddPower lg k) * x ^ ((2 * 2 ^ lg - i) * oddPower lg k) = if j = i then (2 ^ lg : R) else 0 := by
  have hjoin : ∀ k, x ^ (j * oddPower lg k) * x ^ ((2 * 2 ^ lg - i) * oddPower lg k) =
      x ^ ((j + (2 * 2 ^ lg - i)) * (2 * bitRev lg k + 1)) := fun k => by rw [← pow_add, ← add_mul]; rfl
  simp only [hjoin]
  rw [sum_bitRev lg fun m => x ^ ((j + (2 * 2 ^ lg - i)) * (2 * m + 1))]
  split
  · subst j
    have hone : ∀ m, x ^ ((i + (2 * 2 ^ lg - i)) * (2 * m + 1)) = 1 := fun m => by
      rw [show i + (2 * 2 ^ lg - i) = 2 ^ lg * 2 by omega, pow_mul, pow_mul, hx, neg_one_sq, one_pow]
    simp [hone]
  · refine sum_odd_powers_eq_zero x lg _ hx fun hdvd => ?_
    obtain ⟨c, hc⟩ := hdvd
    have h1 : 1 < c := by
      by_contra h
      have : 2 ^ lg * c ≤ 2 ^ lg * 1 := Nat.mul_le_mul_left _ (by omega)
      omega
    have h3 : c < 3 := by
      by_contra h
      have : 2 ^ lg * 3 ≤ 2 ^ lg * c := Nat.mul_le_mul_left _ (by omega)
      omega
    obtain rfl : c = 2 := by omega
    omega

/-! ### The statements -/

/-- What the check of R185 says of a modulus and its root, for N up to 2^17. -/
theorem modulusOk_root {lg q psi : Nat} (hlg : lg ≤ 17) (h : modulusOk (2 ^ lg) (q, psi) = true) :
    2 ^ lg < q ∧ q % 2 ^ lg = 1 % 2 ^ lg ∧ (psi : ZMod q) ^ 2 ^ lg = -1 := by
  simp only [modulusOk, Bool.and_eq_true, beq_iff_eq, decide_eq_true_eq] at h
  obtain ⟨⟨⟨⟨⟨-, hbig⟩, -⟩, hmod⟩, -⟩, hroot⟩ := h
  have hn : 2 ^ lg ≤ 2 ^ 17 := Nat.pow_le_pow_right (by omega) hlg
  refine ⟨by omega, ?_, ?_⟩
  · rw [← Nat.mod_mul_left_mod q 2 (2 ^ lg), hmod]
  · have hcast := congrArg (Nat.cast : Nat → ZMod q) hroot
    rw [powMod_eq _ _ _ (by omega), ZMod.natCast_mod, Nat.cast_pow, Nat.cast_sub (by omega), ZMod.natCast_self, Nat.cast_one,
      zero_sub] at hcast
    exact hcast

/-- INTT after NTT, as residues: the sums change places, and only the word's own power stays. -/
theorem intt_ntt_word_cast {lg q psi : Nat} (hroot : (psi : ZMod q) ^ 2 ^ lg = -1)
    (hinv : ((2 ^ lg : Nat) : ZMod q) * (invMod (2 ^ lg) q : ZMod q) = 1) (a : Limb) (ha : a.length = 2 ^ lg) (i : Nat) (hi : i < 2 ^ lg) :
    (((intt lg q psi (ntt lg q psi a)).getD i 0 : Nat) : ZMod q) = (a.getD i 0 : ZMod q) := by
  have hpsi : (psi : ZMod q) ^ (2 * 2 ^ lg) = 1 := by rw [mul_comm, pow_mul, hroot, neg_one_sq]
  have hsum : ∑ k ∈ range (2 ^ lg), (((ntt lg q psi a).getD k 0 : Nat) : ZMod q) * (psi : ZMod q) ^ ((2 * 2 ^ lg - i) * oddPower lg k) =
      (a.getD i 0 : ZMod q) * (2 ^ lg : Nat) := by
    calc _ = ∑ k ∈ range (2 ^ lg), ∑ j ∈ range (2 ^ lg), (a.getD j 0 : ZMod q) *
          ((psi : ZMod q) ^ (j * oddPower lg k) * (psi : ZMod q) ^ ((2 * 2 ^ lg - i) * oddPower lg k)) :=
          sum_congr rfl fun k hk => by
            rw [ntt_word_cast hpsi a ha k (mem_range.mp hk), sum_mul]
            exact sum_congr rfl fun j _ => mul_assoc _ _ _
      _ = ∑ j ∈ range (2 ^ lg), (a.getD j 0 : ZMod q) * if j = i then (2 ^ lg : ZMod q) else 0 := by
          rw [sum_comm]
          exact sum_congr rfl fun j hj => by rw [← mul_sum, sum_transform_powers _ lg i j hroot hi (mem_range.mp hj)]
      _ = _ := by simp [hi]
  rw [intt_word_cast hpsi _ (ntt_length lg q psi a) i hi, hsum, mul_assoc, hinv, mul_one]

theorem intt_word_lt {lg q psi : Nat} (a : Limb) (i : Nat) (hq : 0 < q) : (intt lg q psi a).getD i 0 < q := by
  by_cases hi : i < 2 ^ lg
  · simp [intt, List.getD_eq_getElem?_getD, hi, Nat.mod_lt _ hq]
  · simp [intt, List.getD_eq_getElem?_getD, hi, hq]

/-- Settles O40: both sides are limbs of N words below q with the same residues, word by word. -/
theorem inttUndoesNtt : Obligations.InttUndoesNtt := by
  intro lg q psi a hlg hok ha hlt
  obtain ⟨hn, hone, hroot⟩ := modulusOk_root hlg hok
  have hinv := invMod_mul (2 ^ lg) q Nat.one_le_two_pow hone hn
  refine List.ext_getElem ((intt_length _ _ _ _).trans ha.symm) fun i hi hia => ?_
  have hcast := intt_ntt_word_cast hroot hinv a ha i (ha ▸ hia)
  rw [ZMod.natCast_eq_natCast_iff', Nat.mod_eq_of_lt (intt_word_lt _ _ (by omega)), List.getD_eq_getElem _ _ hi,
    List.getD_eq_getElem _ _ hia, Nat.mod_eq_of_lt (hlt _ (List.getElem_mem hia))] at hcast
  exact hcast

/-- Settles O39: an NTT's word is reduced, so it is the remainder of the sum to which it is congruent; the rest is word by word. -/
theorem polynomialArithmeticIsModular : Obligations.PolynomialArithmeticIsModular := by
  refine ⟨fun lg q psi a k hq ha hpsi hk => ?_, fun q a b k hq ha hb => ?_⟩
  · have hroot : (psi : ZMod q) ^ (2 * 2 ^ lg) = 1 := by
      rw [← Nat.cast_pow, ← Nat.cast_one, ZMod.natCast_eq_natCast_iff', hpsi, Nat.mod_eq_of_lt hq]
    have hlt : (ntt lg q psi a).getD k 0 < q := by
      simp [ntt, List.getD_eq_getElem?_getD, hk, Nat.mod_lt _ (by omega : 0 < q)]
    have hcast := ntt_word_cast hroot a ha k hk
    have hsum : ((List.range (2 ^ lg)).map fun i => a.getD i 0 * psi ^ (i * (2 * bitRev lg k + 1))).sum =
        ∑ i ∈ range (2 ^ lg), a.getD i 0 * psi ^ (i * oddPower lg k) := rfl
    rw [hsum, ← Nat.mod_eq_of_lt hlt, ← ZMod.natCast_eq_natCast_iff', hcast]
    push_cast
    rfl
  · rw [addLimb_word q a b k ha hb, subLimb_word q a b k ha hb, mulLimb_word q a b k ha hb]
    exact ⟨rfl, subMod_add q _ _ hq, subMod_lt q _ _ hq, rfl⟩

end Sys2Proof.Machine
end

section
/-!
PROOFS. The end of work, on the side of one Polynomial Engine (09_polynomial_engine.md R201, R204; 14_faults_restart.md R330, R332,
R339): the end of jobs takes descriptors out of its queue, a region-level error also resets and scrubs it.
-/
namespace Sys2Proof.Machine

/-- A PE after the descriptors of a job are taken out of its queue. -/
def purgedPe (k : JobRef) (x : Pe) : Pe :=
  let ours := match x.queue with
    | d :: _ => d.job == k
    | [] => false
  { x with queue := x.queue.filter fun d => d.job != k, admitted := x.admitted && !ours,
           state := if x.state == .waiting && ours then .idle else x.state }

theorem purgeJob_pe (k : JobRef) (s : State) (e : Fin 4) : (purgeJob k s).pe[e] = purgedPe k s.pe[e] :=
  Vector.getElem_map _ e.isLt

theorem purgedPe_state (k : JobRef) (x : Pe) (h : x.state ≠ .waiting) : (purgedPe k x).state = x.state := by
  simp [purgedPe, h]

/-- A PE has a property. -/
def PeHas (e : Fin 4) (p : Pe → Prop) (s : State) : Prop := p s.pe[e]

/-- What the end of jobs keeps of a PE is what the removal of a job's descriptors keeps. -/
theorem keptByEnds_pe (e : Fin 4) (p : Pe → Prop) (hp : ∀ k x, p x → p (purgedPe k x)) : KeptByEnds (PeHas e p) where
  jobs _ _ h := h
  que _ _ h := h
  evt _ _ h := h
  err _ _ h := h
  msix _ _ h := h
  ctx _ _ h := h
  phys _ _ _ h := h
  host _ _ _ h := h
  shadow _ _ h := h
  purge s k h := by rw [PeHas, purgeJob_pe]; exact hp k _ h

/-- What a region-level error may do to a PE keeps a property of it. -/
structure KeptByPeEnds (p : Pe → Prop) : Prop where
  purge : ∀ k x, p x → p (purgedPe k x)
  reset : ∀ x, p x → p { x with running := none, result := none, state := .idle }
  scrub : ∀ x, p x → p { x with pset := Vector.replicate 4 none, tagKey := none, result := none }

/-! ### What leaves every PE as it is -/

theorem forEach_pe {α : Type} (l : List α) (f : α → State → State) (hf : ∀ a s, (f a s).pe = s.pe) (s : State) :
    (forEach l f s).pe = s.pe :=
  forEach_keeps (fun t => t.pe = s.pe) l f (fun a _ t h => (hf a t).trans h) s rfl

theorem writeDev_pe (tile : Fin 24) (c : Fin 9) (a : Nat) (data : List Byte) (s : State) : (writeDev tile c a data s).1.pe = s.pe := by
  obtain ⟨p, o, q, h⟩ := writeDev_frame tile c a data s
  rw [h]

theorem localWrite_pe (u : Eng) (a : Nat) (data : List Byte) (s : State) : (localWrite u a data s).pe = s.pe := by
  cases u with
  | herd i =>
    simp only [localWrite]
    split
    · split
      · rfl
      · rfl
    · rfl
  | _ => rfl

theorem undefDst_pe (u : Eng) (n : Fin 8) (d : Dst) (len : Nat) (s : State) : (undefDst u n d len s).pe = s.pe := by
  simp only [undefDst, useFree_pe, writeDst]
  split
  · split
    · exact localWrite_pe _ _ _ _
    · rfl
  · exact writeDev_pe _ _ _ _ _

/-- The destinations that abandoned descriptors of a unit leave undefined. -/
theorem undefOpen_pe (u : Eng) (l : List Desc) (s : State) :
    (forEach l (fun d s => forEach (openDsts s u d) (fun w s => undefDst u d.job.r w.1 w.2 s) s) s).pe = s.pe :=
  forEach_pe l _ (fun _ s => forEach_pe _ _ (fun _ s => undefDst_pe _ _ _ _ s) s) s

theorem dropSource_pe (u : Eng) (s : State) : (dropSource u s).pe = s.pe := by
  unfold dropSource
  split
  · rfl
  · rfl

theorem reloadUnit_pe (u : Eng) (s : State) : (reloadUnit u s).pe = s.pe := by cases u <;> rfl

theorem endTicking_pe (n : Fin 8) (s : State) : (endTicking n s).pe = s.pe := by
  simp only [endTicking, modRingRgn_pe, modNoiseRgn_pe, modAnl_pe]
  rw [forEach_pe _ _ fun _ _ => modIbex_pe _ _ _, forEach_pe _ _ fun _ _ => modHerd_pe _ _ _]
  rfl

theorem dropMerge_pe (n : Fin 8) (s : State) : (dropMerge n s).pe = s.pe := by
  simp only [dropMerge, modTickJob_pe, modAnl_pe]
  exact forEach_pe _ _ (fun _ _ => modKudu_pe _ _ _) s

theorem tdiError_pe (n : Fin 8) (s : State) : (tdiError n s).pe = s.pe := by
  have hpages : ∀ c t, (dropHostPages c t).pe = t.pe := fun c t => by
    simp only [dropHostPages]
    split
    · exact forEach_pe _ _ (fun _ _ => modMem_pe _ _) t
    · exact (modCtx_pe _ _ _).trans (forEach_pe _ _ (fun _ _ => modMem_pe _ _) t)
  simp only [tdiError]
  split
  · simp only [setTdi]
    split
    · exact hpages _ _
    · rfl
  · rfl

theorem failMaint_pe (op : Nat) (n : Fin 8) (st : Nat) (s : State) : (failMaint op n st s).pe = s.pe := by
  unfold failMaint
  split
  · split
    · rfl
    · rfl
  · rfl

theorem ownSave_pe (n : Fin 8) (o : Nat) (s : State) : (ownSave n o s).pe = s.pe := forEach_pe _ _ (fun _ _ => modMem_pe _ _) s

namespace PeHas
variable {e : Fin 4} {p : Pe → Prop} {s t : State}

theorem of_pe (h : PeHas e p s) (ht : t.pe = s.pe) : PeHas e p t := by rw [PeHas, ht]; exact h

theorem forEach {α : Type} (h : PeHas e p s) (l : List α) (f : α → State → State)
    (hf : ∀ a s, PeHas e p s → PeHas e p (f a s)) : PeHas e p (forEach l f s) :=
  forEach_keeps (PeHas e p) l f (fun a _ s h => hf a s h) s h

/-- A change of any PE that keeps the property. -/
theorem modPe (h : PeHas e p s) (i : Fin 4) (f : Pe → Pe) (hf : ∀ x, p x → p (f x)) : PeHas e p (modPe i f s) := by
  rw [PeHas, modPe_pe]
  by_cases hi : e = i
  · subst hi
    rw [upd_same]
    exact hf _ h
  · rw [upd_other _ _ _ _ hi]
    exact h

section
variable (K : KeptByPeEnds p)
include K

theorem ends : KeptByEnds (PeHas e p) := keptByEnds_pe e p K.purge

/-! ### Units and kills (R204, R332) -/

theorem landPacket (h : PeHas e p s) (u : Eng) (q : MeshPacket) : PeHas e p (landPacket u q s) := by
  unfold Machine.landPacket
  split
  · exact h
  · split
    · exact h.of_pe (localWrite_pe _ _ _ _)
    · split
      · exact keeps_settle (ends K) _ _ (keeps_jobError (ends K) _ _ _ _ h)
      · exact h

theorem serveHeld (h : PeHas e p s) (x y : Nat) : PeHas e p (serveHeld x y s) := by
  refine h.forEach _ _ fun l s h => h.forEach _ _ fun vc s h => ?_
  have hl : ∀ f, PeHas e p (modLink l f s) := fun _ => h
  simp only
  split
  · exact (hl _).forEach _ _ fun q s h => h.landPacket K _ q
  · exact hl _

theorem resetUnit (h : PeHas e p s) (u : Eng) : PeHas e p (resetUnit u s) := by
  have hu := h.of_pe ((dropSource_pe u _).trans (undefOpen_pe u (runningOn s u) s))
  cases u with
  | ibex i =>
    simp only [Machine.resetUnit]
    exact serveHeld K (hu.of_pe (modIbex_pe i _ _)) _ _
  | pe i => exact hu.modPe i _ K.reset
  | _ => exact hu

theorem scrubUnit (h : PeHas e p s) (u : Eng) : PeHas e p (scrubUnit u s) := by
  cases u with
  | pe i => exact h.modPe i _ K.scrub
  | _ => exact h

theorem killJob (h : PeHas e p s) (k : JobRef) (scrub : Bool) : PeHas e p (killJob k scrub s) := by
  unfold Machine.killJob
  split
  · exact h
  · rename_i j _
    have hpurged : PeHas e p (purgeJob k (dropReady j s)) :=
      (ends K).purge _ _ (h.forEach _ _ fun _ _ h => keeps_dropArm (ends K) _ _ _ h)
    have hreset := hpurged.forEach j.engines Machine.resetUnit fun u _ h => h.resetUnit K u
    simp only
    generalize Machine.forEach j.engines Machine.resetUnit (purgeJob k (dropReady j s)) = t at hreset ⊢
    have hdma : PeHas e p (modEng (fun x => { x with dmaRunning := x.dmaRunning.filter fun d => d.job != k }) _) :=
      hreset.of_pe (undefOpen_pe .dma (t.eng.dmaRunning.filter fun d => d.job == k) t)
    generalize modEng _ _ = u at hdma ⊢
    have htick : PeHas e p (if j.tick = true then dropMerge k.r (endTicking k.r u) else u) := by
      split
      · exact hdma.of_pe ((dropMerge_pe _ _).trans (endTicking_pe _ _))
      · exact hdma
    split
    · exact htick.forEach _ _ fun u _ h => (h.scrubUnit K u).of_pe (reloadUnit_pe u _)
    · exact htick

/-! ### Region-level errors and failed accesses (R212, R221, R339) -/

theorem endRegionJobs (h : PeHas e p s) (n : Fin 8) (own : Option (JobRef × Nat)) : PeHas e p (endRegionJobs n own s) := by
  have hk := h.forEach (startedJobs s n) (fun j => killWith j.ref (ctxSealed s (ctxOf n))
    (recoveryStatus j (own.filter fun o => o.1 == j.ref))) fun j _ h => keeps_completeJob (ends K) _ _ _ (h.killJob K _ _)
  simp only [Machine.endRegionJobs]
  split
  · exact hk.forEach _ _ fun u _ h => h.scrubUnit K u
  · exact hk

/-- A region-level error other than the loss of the region's core. -/
theorem regionError (h : PeHas e p s) (n : Fin 8) (er : Err) (he : er ≠ .cpOffline) (site : Site) (own : Option (JobRef × Nat)) :
    PeHas e p (regionError n er site own s) := by
  have hlog : ∀ r f, PeHas e p (Machine.tdiError n (modRgn n f (sendMsix (vfOf n) 0 (logRegion n r s)))) :=
    fun _ _ => h.of_pe (tdiError_pe _ _)
  have hseal : ∀ t : State, PeHas e p t → PeHas e p (lapseOffer n (if t.sec.rgn[n].sealing = true then
      giveUpSeal n (failMaint 0x42 n Status.regionFaulted t) else t)) := by
    intro t ht
    split
    · exact ht.of_pe (failMaint_pe _ _ _ t)
    · exact ht
  have hopens : ∀ (t : State) (shut : Prop) [Decidable shut] f, PeHas e p t → PeHas e p (settleMaint (settle n (modRgn n f
      (Machine.endRegionJobs n own (if shut then ownSave n 8 t else t))))) := by
    intro t _ _ f ht
    refine keeps_settleMaint (ends K) _ (keeps_settle (ends K) _ _ (endRegionJobs K ?_ n own))
    split
    · exact ht.of_pe (ownSave_pe _ _ _)
    · exact ht
  simp only [Machine.regionError, he, if_false, false_and]
  split
  · exact h
  · split
    · exact h
    · split
      · exact hopens _ _ _ (hseal _ (hlog _ _))
      · exact hopens _ _ _ (hseal _ (hlog _ _))
      · exact forEach (s := sendMsix _ _ (logRegion _ _ s)) h _ _ fun u _ h => h.resetUnit K u
      all_goals exact h

theorem descFault (h : PeHas e p s) (u : Eng) (d : Desc) (f : Nat × Nat) : PeHas e p (descFault u d f s) := by
  have hl : PeHas e p (latchFault (ctxOf d.job.r) f.1 f.2 s) := keeps_latchIf (ends K) (ctxOf d.job.r) (some f) s h
  refine keeps_settle (ends K) _ _ ?_
  simp only [memError]
  split
  · exact hl.regionError K _ _ (by decide) _ _
  · exact keeps_jobError (ends K) _ _ _ _ hl

end

end PeHas

end Sys2Proof.Machine
end

section
/-!
PROOFS. What the outcome of a write by device address depends on (10_memory_host_link.md R210-R212, R221, R222): translations, owners and
keys, and not on the fault latches of a context (R212) nor on the engines.
-/
namespace Sys2Proof.Machine

/-- What a context gives to an access: its page table, whether it has tags, its keys. -/
def MemCtx.access (x : MemCtx) : Nat × Bool × Option (List Byte) × Option (List Byte) := (x.ptb, x.tags, x.key, x.integKey)

/-- Two memories in which an access meets the same. -/
structure SameMem (m m' : MemState) : Prop where
  phys : m'.phys = m.phys
  owner : m'.owner = m.owner
  tlb : m'.tlb = m.tlb
  ctx : ∀ c : Fin 9, m'.ctx[c].access = m.ctx[c].access

/-- Two states in which an access meets the same. -/
structure SameAccess (s t : State) : Prop where
  rgn : t.rgn = s.rgn
  sec : t.sec = s.sec
  mem : SameMem s.mem t.mem

/-- One page's part of a write by device address: the state, the bytes that are left, the first failure. -/
def writePart (s : State) (tile : Fin 24) (c : Fin 9) (acc : State × List Byte × MemFault) (p : Nat × Nat) : State × List Byte × MemFault :=
  match translate s tile c p.1 true with
  | .ok place => (writePlace place (acc.2.1.take p.2) acc.1, acc.2.1.drop p.2,
      acc.2.2.orElse fun _ => if writeFails acc.1 place p.2 then some (p.1, tagCause) else none)
  | .error e => (acc.1, acc.2.1.drop p.2, acc.2.2.orElse fun _ => some (p.1, e))

theorem writeDev_eq (tile : Fin 24) (c : Fin 9) (a : Nat) (b : List Byte) (s : State) :
    writeDev tile c a b s =
      (((pageParts (b.length / 2 ^ 21 + 2) a b.length).foldl (writePart s tile c) (s, b, none)).1,
        ((pageParts (b.length / 2 ^ 21 + 2) a b.length).foldl (writePart s tile c) (s, b, none)).2.2) := rfl

namespace SameMem
variable {m m' : MemState}

theorem ptb (h : SameMem m m') (c : Fin 9) : m'.ctx[c].ptb = m.ctx[c].ptb := congrArg Prod.fst (h.ctx c)
theorem tags (h : SameMem m m') (c : Fin 9) : m'.ctx[c].tags = m.ctx[c].tags := congrArg (·.2.1) (h.ctx c)
theorem key (h : SameMem m m') (c : Fin 9) : m'.ctx[c].key = m.ctx[c].key := congrArg (·.2.2.1) (h.ctx c)
theorem integKey (h : SameMem m m') (c : Fin 9) : m'.ctx[c].integKey = m.ctx[c].integKey := congrArg (·.2.2.2) (h.ctx c)

theorem physRead (h : SameMem m m') (pa n : Nat) : physRead m' pa n = physRead m pa n := by simp only [Machine.physRead, h.phys]

theorem physWrite (h : SameMem m m') (pa : Nat) (b : List Byte) : SameMem (physWrite m pa b) (physWrite m' pa b) :=
  ⟨congrArg (memWrite · pa b) h.phys, h.owner, h.tlb, h.ctx⟩

theorem lineTag (h : SameMem m m') (c : Fin 9) (l : Nat) : lineTag m' c l = lineTag m c l := by
  simp only [Machine.lineTag, h.phys, h.key, h.integKey]

theorem tagBad (h : SameMem m m') (t : Fin 9 × Nat) : tagBad m' t = tagBad m t := by
  funext l
  simp only [Machine.tagBad, h.phys, h.lineTag]

theorem putTags (h : SameMem m m') (t : Fin 9 × Nat) (ls : List Nat) : SameMem (putTags t ls m) (putTags t ls m') := by
  refine List.foldl_rel (r := SameMem) h fun l _ m m' h => ?_
  rw [h.lineTag]
  exact h.physWrite _ _

end SameMem

namespace SameAccess
variable {s t : State}

theorem translate (h : SameAccess s t) (tile : Fin 24) (c : Fin 9) (a : Nat) (w : Bool) : translate t tile c a w = translate s tile c a w := by
  have hsealed : ∀ c, ctxSealed t c = ctxSealed s c := fun c => by simp only [ctxSealed, h.rgn]
  have hstack : ∀ k, seesStack t c k = seesStack s c k := fun k => by simp only [seesStack, h.rgn]
  have hentry : pageEntry t tile c (a >>> 21) = pageEntry s tile c (a >>> 21) := by
    simp only [pageEntry, tableEntry, h.mem.tlb, h.mem.ptb, h.mem.physRead]
  have howner : ∀ f, frameOwner t.mem f = frameOwner s.mem f := fun f => by simp only [frameOwner, h.mem.owner]
  have hshut : ∀ f, tableShut t f = tableShut s f := fun f => by simp only [tableShut, hsealed, h.sec, h.mem.ptb]
  have htags : ∀ v, pageTags t c v = pageTags s c v := fun v => by simp only [pageTags, h.mem.tags]
  simp only [Machine.translate, hstack, hentry, howner, hshut, htags]

theorem writeFails (h : SameAccess s t) (p : Place) (n : Nat) : writeFails t p n = writeFails s p n := by
  unfold Machine.writeFails
  split
  · rw [h.mem.tagBad]
  · rfl

theorem writePlace (h : SameAccess s t) (p : Place) (b : List Byte) : SameAccess (writePlace p b s) (writePlace p b t) := by
  unfold Machine.writePlace
  split
  · exact ⟨h.rgn, h.sec, h.mem.physWrite _ _⟩
  · rw [h.mem.tagBad]
    refine ⟨h.rgn, h.sec, SameMem.putTags (SameMem.physWrite ?_ _ _) _ _⟩
    exact List.foldl_rel (r := SameMem) h.mem fun l _ m m' h => h.physWrite _ _
  · exact h
  · exact ⟨h.rgn, h.sec, h.mem⟩

/-- A page's part of a write meets the same, and leaves the same to write. -/
theorem writePart (h : SameAccess s t) (tile : Fin 24) (c : Fin 9) (p : Nat × Nat) {x y : State × List Byte × MemFault}
    (hxy : SameAccess x.1 y.1 ∧ y.2 = x.2) :
    SameAccess (writePart s tile c x p).1 (writePart t tile c y p).1 ∧ (writePart t tile c y p).2 = (writePart s tile c x p).2 := by
  obtain ⟨hacc, hrest⟩ := hxy
  simp only [Machine.writePart, h.translate, hrest]
  split
  · rw [hacc.writeFails]
    exact ⟨hacc.writePlace _ _, rfl⟩
  · exact ⟨hacc, rfl⟩

/-- A write by device address meets the same, and leaves states in which an access meets the same. -/
theorem writeDev (h : SameAccess s t) (tile : Fin 24) (c : Fin 9) (a : Nat) (b : List Byte) :
    SameAccess (writeDev tile c a b s).1 (writeDev tile c a b t).1 ∧ (writeDev tile c a b t).2 = (writeDev tile c a b s).2 := by
  obtain ⟨hacc, hrest⟩ := List.foldl_rel (l := pageParts (b.length / 2 ^ 21 + 2) a b.length) (a := (s, b, none)) (b := (t, b, none))
    (f := Machine.writePart s tile c) (g := Machine.writePart t tile c)
    (r := fun x y : State × List Byte × MemFault => SameAccess x.1 y.1 ∧ y.2 = x.2) ⟨h, rfl⟩ fun p _ _ _ hxy => h.writePart tile c p hxy
  have hfault := congrArg Prod.snd hrest
  exact ⟨hacc, hfault⟩

/-- The writes of a PE meet the same. -/
theorem peWrites (h : SameAccess s t) (e : Fin 4) (n : Fin 8) (l : List (Nat × List Byte)) :
    (peWrites e n l t).2 = (peWrites e n l s).2 := by
  induction l generalizing s t with
  | nil => rfl
  | cons w rest ih =>
    obtain ⟨hacc, hfault⟩ := h.writeDev (peTile e) (ctxOf n) w.1 w.2
    simp only [Machine.peWrites, hfault]
    split
    · rfl
    · exact ih hacc

/-- A latched fault does not matter to accesses (R212, R221). -/
theorem latchFault (h : SameAccess s t) (c : Fin 9) (a cause : Nat) : SameAccess s (latchFault c a cause t) := by
  have hupd : ∀ f : MemCtx → MemCtx, (∀ x, (f x).access = x.access) →
      ∀ k : Fin 9, (upd t.mem.ctx c f)[k].access = t.mem.ctx[k].access := by
    intro f hf k
    by_cases hk : k = c
    · subst hk; rw [upd_same, hf]
    · rw [upd_other _ _ _ _ hk]
  unfold Machine.latchFault
  split
  · refine ⟨h.rgn, h.sec, h.mem.phys, h.mem.owner, h.mem.tlb, fun k => (hupd _ (fun x => ?_) k).trans (h.mem.ctx k)⟩
    rfl
  · refine ⟨h.rgn, h.sec, h.mem.phys, h.mem.owner, h.mem.tlb, fun k => (hupd _ (fun x => ?_) k).trans (h.mem.ctx k)⟩
    split
    · rfl
    · rfl

/-- So the prefetch of a successor does not matter to them (R311). -/
theorem readNext (h : SameAccess s t) (u : Eng) (d : Desc) : SameAccess s (readNext u d t).2 := by
  simp only [Machine.readNext]
  split
  · exact h
  · split
    · exact h
    · split
      · exact h.latchFault _ _ _
      · exact h

end SameAccess

end Sys2Proof.Machine
end

section
/-!
PROOFS. The operations of a Polynomial Engine (09_polynomial_engine.md R183, R196, R199, R201, Table 9-6): one at the admitted head of the
queue starts, ends with its cause, or ends on what its accesses met.
-/
namespace Sys2Proof.Machine

/-! ### What leaves the queue -/

/-- The edge tile of a PE holds no packets for an engine's queue. -/
theorem serveTile_pe (e : Fin 4) (s : State) : serveTile (.pe e) s = s := by
  have hedge : ∀ e : Fin 4, interior (engXY (.pe e)).1 (engXY (.pe e)).2 = false := by decide
  simp only [serveTile, hedge, Bool.false_eq_true, if_false]

/-- The state as the descriptor has left PE e's queue. -/
def peTaken (e : Fin 4) (d : Desc) (s : State) : State := modPe e (fun x => { x with admitted := false }) (takeQueued (.pe e) d s)

theorem peTaken_eq (e : Fin 4) (d : Desc) (s : State) :
    peTaken e d s = modPe e (fun x => { x with admitted := false }) (takeQueued (.pe e) d s) := rfl

theorem peTaken_pe (e : Fin 4) (d : Desc) (s : State) : ∃ q, (peTaken e d s).pe[e] = { s.pe[e] with queue := q, admitted := false } := by
  simp only [peTaken, takeQueued, serveTile_pe, stampHead, useStamp, modQueueOf, modPe_pe, modEng_pe, upd_same]
  exact ⟨_, rfl⟩

theorem peTaken_jobs (e : Fin 4) (d : Desc) (s : State) : (peTaken e d s).jobs = s.jobs := by
  simp only [peTaken, takeQueued, serveTile_pe, stampHead, useStamp, modQueueOf, modPe_jobs, modEng_jobs]

theorem peTaken_access (e : Fin 4) (d : Desc) (s : State) : SameAccess s (peTaken e d s) := by
  rw [peTaken, takeQueued, serveTile_pe]
  exact ⟨rfl, rfl, rfl, rfl, rfl, fun _ => rfl⟩

theorem readNext_pe (u : Eng) (d : Desc) (s : State) : (readNext u d s).2.pe = s.pe := by
  obtain ⟨v, hv⟩ := readNext_frame u d s
  rw [hv]

theorem peWrites_pe (e : Fin 4) (n : Fin 8) (l : List (Nat × List Byte)) (s : State) : (peWrites e n l s).1.pe = s.pe := by
  induction l generalizing s with
  | nil => rfl
  | cons w rest ih =>
    simp only [peWrites]
    split
    · exact writeDev_pe _ _ _ _ _
    · exact (ih _).trans (writeDev_pe _ _ _ _ _)

/-! ### A descriptor that ends with an error (Table 9-6) -/

/-- A PE in FAULT with a cause and without operation. -/
structure PeFaulted (cause : Nat) (x : Pe) : Prop where
  running : x.running = none
  state : x.state = .fault
  cause : x.faultCause = cause

/-- A PE without operation, whose fault cause is as said. -/
structure PeEmptied (cause : Nat) (x : Pe) : Prop where
  running : x.running = none
  cause : x.faultCause = cause

theorem peFaulted_ends (e : Fin 4) (cause : Nat) : KeptByEnds (PeHas e (PeFaulted cause)) :=
  keptByEnds_pe e _ fun k x h => ⟨h.running, (purgedPe_state k x (by rw [h.state]; decide)).trans h.state, h.cause⟩

theorem peEmptied_kept (cause : Nat) : KeptByPeEnds (PeEmptied cause) where
  purge _ _ h := ⟨h.running, h.cause⟩
  reset _ h := ⟨rfl, h.cause⟩
  scrub _ h := ⟨h.running, h.cause⟩

/-- The PE stops, with a cause or with the one it had. -/
def stopPe (e : Fin 4) (cause : Nat) (s : State) : State :=
  modPe e (fun x => { x with running := none, result := none, state := .fault,
                             faultCause := if cause = 0 then x.faultCause else cause }) s

theorem peFails_err (e : Fin 4) (d : Desc) (er : Err) (c : Nat) (s : State) :
    peFails e d (.err er c) s = descError (.pe e) d er c (stopPe e c s) := rfl

theorem peFails_fault (e : Fin 4) (d : Desc) (f : Nat × Nat) (s : State) :
    peFails e d (.fault f) s = descFault (.pe e) d f (stopPe e 0 s) := rfl

theorem stopPe_faulted (e : Fin 4) (c : Nat) (s : State) :
    PeHas e (PeFaulted (if c = 0 then s.pe[e].faultCause else c)) (stopPe e c s) := by
  rw [PeHas, stopPe, modPe_pe, upd_same]
  exact ⟨rfl, rfl, rfl⟩

theorem peFails_err_faulted (e : Fin 4) (d : Desc) (er : Err) (c : Nat) (hc : 1 ≤ c) (s : State) :
    PeHas e (PeFaulted c) (peFails e d (.err er c) s) := by
  have hstop := stopPe_faulted e c s
  rw [if_neg (by omega)] at hstop
  rw [peFails_err]
  exact keeps_settle (peFaulted_ends e c) _ _ (keeps_jobError (peFaulted_ends e c) _ _ _ _ hstop)

/-- The error is one of the running job, which stops (R330). -/
theorem peFails_err_stops (e : Fin 4) (d : Desc) (er : Err) (c : Nat) (s : State) (j : Job) (hj : findJob s d.job = some j)
    (hr : j.phase = .running) : ∃ j', findJob (peFails e d (.err er c) s) d.job = some j' ∧ j'.phase = .stopped := by
  have hf : j.firing = true := by simp [Job.firing, hr]
  have hstop : findJob (stopPe e c s) d.job = some j := hj
  rw [peFails_err]
  exact StoppedJob.find (StoppedJob.settle (jobError_stops d.job _ _ _ j hstop hf) _)

/-- An access that is not translated leaves the PE in FAULT; a failed tag check, an error of the region, leaves it empty. -/
theorem peFails_fault_emptied (e : Fin 4) (d : Desc) (f : Nat × Nat) (s : State) :
    PeHas e (PeEmptied s.pe[e].faultCause) (peFails e d (.fault f) s) ∧
    (f.2 ≠ tagCause → PeHas e (PeFaulted s.pe[e].faultCause) (peFails e d (.fault f) s)) := by
  have hstop := stopPe_faulted e 0 s
  rw [if_pos rfl] at hstop
  rw [peFails_fault]
  refine ⟨PeHas.descFault (peEmptied_kept _) ⟨hstop.running, hstop.cause⟩ _ d f, fun hf => ?_⟩
  have K := peFaulted_ends e s.pe[e].faultCause
  simp only [descFault, memError, hf, if_false]
  exact keeps_settle K _ _ (keeps_jobError K _ _ _ _ (keeps_latchIf K (ctxOf d.job.r) (some f) _ hstop))

/-! ### The start (R199, R201) -/

/-- An operation that failed its checks or whose opening writes fail. -/
theorem startPe_error (e : Fin 4) (d : Desc) (f : PeFail) (s : State) : startPe e d (.error f) s = peFails e d f (peTaken e d s) := rfl

theorem startPe_writeFault {e : Fin 4} {d : Desc} {r : PeRun} {s : State} {f : Nat × Nat}
    (hw : (peWrites e d.job.r r.first s).2 = some f) :
    ∃ t, startPe e d (.ok r) s = peFails e d (.fault f) t ∧ t.pe = (peTaken e d s).pe := by
  have hacc := ((peTaken_access e d s).readNext (.pe e) d).peWrites e d.job.r r.first
  refine ⟨(peWrites e d.job.r r.first (readNext (.pe e) d (peTaken e d s)).2).1, ?_, (peWrites_pe _ _ _ _).trans (readNext_pe _ _ _)⟩
  rw [hw] at hacc
  simp only [startPe, ← peTaken_eq, hacc]

/-- The PE as the operation runs on it. -/
structure PeRuns (d : Desc) (r : PeRun) (x : Pe) : Prop where
  running : ∃ d', x.running = some d' ∧ d'.bytes = d.bytes ∧ d'.job = d.job
  result : x.result = some r.result
  state : x.state = .busy
  lastT : x.lastT = r.time
  admitted : x.admitted = false

theorem startPe_runs {e : Fin 4} {d : Desc} {r : PeRun} {s : State} (hw : (peWrites e d.job.r r.first s).2 = none) :
    PeRuns d r (startPe e d (.ok r) s).pe[e] := by
  have hacc := ((peTaken_access e d s).readNext (.pe e) d).peWrites e d.job.r r.first
  obtain ⟨q, hq⟩ := peTaken_pe e d s
  obtain ⟨n, hn⟩ := readNext_desc (.pe e) d (peTaken e d s)
  rw [hw] at hacc
  simp only [startPe, ← peTaken_eq, hacc, modPe_pe, upd_same, peWrites_pe, readNext_pe, hq]
  exact ⟨⟨_, rfl, by rw [hn], by rw [hn]⟩, rfl, rfl, rfl, rfl⟩

/-- The fault cause that stood before an operation that was taken off the queue. -/
theorem peTaken_cause (e : Fin 4) (d : Desc) (s : State) : (peTaken e d s).pe[e].faultCause = s.pe[e].faultCause := by
  obtain ⟨q, hq⟩ := peTaken_pe e d s
  rw [hq]

theorem peStart_next {e : Fin 4} {op : Nat} {run : State → Fin 4 → Fin 8 → PeOp → Pres PeRun} {s : State} {d : Desc}
    (h : peNext s e op = some d) : peStart e op run s = .next (startPe e d (run s e d.job.r (readPe d.bytes)) s) := by
  simp only [peStart, h]

theorem peStart_none {e : Fin 4} {op : Nat} {run : State → Fin 4 → Fin 8 → PeOp → Pres PeRun} {s : State} (h : peNext s e op = none) :
    peStart e op run s = .next s := by
  simp only [peStart, h]

/-- Settles O36: each of the nine commands is peStart with its code and its function; what peStart does is said by what its checks and
opening writes answer. -/
theorem peOperationsStartOrFault : Obligations.PeOperationsStartOrFault := by
  intro s e x hx
  have hexec : exec x.1 s = peStart e x.2.1 x.2.2 s := by
    simp only [List.mem_cons, List.not_mem_nil, or_false] at hx
    rcases hx with rfl | rfl | rfl | rfl | rfl | rfl | rfl | rfl | rfl
    all_goals rfl
  rw [hexec]
  refine ⟨fun d hd => ?_, peStart_none⟩
  rw [peStart_next hd]
  generalize x.2.2 s e d.job.r (readPe d.bytes) = run
  refine ⟨fun r hr hw => ?_, fun er c hr hc => ?_, fun f hr => ?_, fun r f hr hw => ?_⟩
  · obtain ⟨⟨d', hrun, hbytes, hjob⟩, hres, hbusy, hlast, hadm⟩ := startPe_runs hw
    subst hr
    exact ⟨_, d', rfl, hrun, hbytes, hjob, hres, hbusy, hlast, hadm⟩
  · subst hr
    obtain ⟨hrun, hstate, hcause⟩ := peFails_err_faulted e d er c hc (peTaken e d s)
    refine ⟨_, rfl, hrun, hstate, hcause, fun j hj hphase => peFails_err_stops e d er c (peTaken e d s) j ?_ hphase⟩
    rw [findJob, peTaken_jobs]
    exact hj
  · subst hr
    obtain ⟨⟨hrun, hcause⟩, hfault⟩ := peFails_fault_emptied e d f (peTaken e d s)
    exact ⟨_, rfl, hrun, fun hf => (hfault hf).state, hcause.trans (peTaken_cause e d s)⟩
  · subst hr
    obtain ⟨t, ht, hpe⟩ := startPe_writeFault hw
    obtain ⟨⟨hrun, hcause⟩, hfault⟩ := peFails_fault_emptied e d f t
    rw [ht]
    refine ⟨_, rfl, hrun, fun hf => (hfault hf).state, hcause.trans ?_⟩
    rw [hpe]
    exact peTaken_cause e d s

end Sys2Proof.Machine
end

section
/-!
PROOFS. Lending (09_polynomial_engine.md R180, R181, R194): a write of PE_OWNER while the PE is idle and empty, and every other write.
That a PE in FAULT or WAITING is not idle is the model's choice (log entry 34).
-/
namespace Sys2Proof.Machine

/-- Is the owner of PE e SEALED, or being sealed (Table 11-6 step 3), so that the PF may not take the PE from it (R181)? -/
def lendShut (s : State) (e : Fin 4) : Bool :=
  match s.pe[e].owner with
  | some n => ctxSealed s (ctxOf n) || s.sec.rgn[n].sealing
  | none => false

theorem lendShut_iff (s : State) (e : Fin 4) :
    lendShut s e = true ↔ ∃ n, s.pe[e].owner = some n ∧ (ctxSealed s (ctxOf n) = true ∨ s.sec.rgn[n].sealing = true) := by
  unfold lendShut
  cases s.pe[e].owner with
  | none => simp
  | some n => simp

/-- The region that a code of PE_OWNER names. -/
def lendTo (code : Nat) : Option (Fin 8) := if h : code < 8 then some ⟨code, h⟩ else none

/-- lend_err as a write leaves it, if the write itself is accepted (W1C). -/
def lendErrAfter (v : W32) (x : Pe) : Bool := if bit v.toNat 4 = true then false else x.lendErr

/-- PE e with that lend_err. -/
def lendCleared (e : Fin 4) (v : W32) (s : State) : State := modPe e (fun x => { x with lendErr := lendErrAfter v x }) s

theorem lendCleared_eq (e : Fin 4) (v : W32) (s : State) :
    (if bit v.toNat 4 then modPe e (fun x => { x with lendErr := false }) s else s) = lendCleared e v s := by
  unfold lendCleared
  cases h : bit v.toNat 4 with
  | true => simp [lendErrAfter, h]
  | false => simp [lendErrAfter, h, modPe]

theorem lendTo_eq (code : Nat) : (if code < 8 then some (Fin.ofNat 8 code) else none) = lendTo code := by
  by_cases h : code < 8
  · rw [if_pos h, lendTo, dif_pos h]
    exact congrArg some (Fin.ext (Nat.mod_eq_of_lt h))
  · rw [if_neg h, lendTo, dif_neg h]

/-! ### The write -/

theorem peOwnerWrite_notReady {s : State} (secure : Bool) (e : Fin 4) (v : W32) (hr : s.dev.ready = false) :
    exec (.peOwnerWrite secure e v) s = .next s := by
  simp [exec, execPeOwnerWrite, hr]

/-- A write to a ready module is accepted if the PE is idle and empty, and the writer is the secure world or the owner is not shut. -/
theorem peOwnerWrite_ready {s : State} (secure : Bool) (e : Fin 4) (v : W32) (hr : s.dev.ready = true) :
    exec (.peOwnerWrite secure e v) s =
      if s.pe[e].state = .idle ∧ s.pe[e].queue = [] ∧ (secure = true ∨ lendShut s e = false) then
        .next (lendPe e (v.toNat % 16) (lendCleared e v s))
      else .next (modPe e (fun x => { x with lendErr := true }) (lendCleared e v s)) := by
  rw [← lendCleared_eq]
  simp only [exec, execPeOwnerWrite, hr, Bool.not_true, Bool.false_eq_true, if_false]
  rfl

theorem peOwnerWrite_accepted {s : State} {secure : Bool} {e : Fin 4} (v : W32) (hr : s.dev.ready = true) (hi : s.pe[e].state = .idle)
    (hq : s.pe[e].queue = []) (hw : secure = true ∨ ¬ lendShut s e = true) :
    exec (.peOwnerWrite secure e v) s = .next (lendPe e (v.toNat % 16) (lendCleared e v s)) := by
  rw [Bool.not_eq_true] at hw
  rw [peOwnerWrite_ready secure e v hr, if_pos ⟨hi, hq, hw⟩]

theorem peOwnerWrite_refused {s : State} {secure : Bool} {e : Fin 4} (v : W32) (hr : s.dev.ready = true)
    (hw : s.pe[e].state ≠ .idle ∨ s.pe[e].queue ≠ [] ∨ (secure = false ∧ lendShut s e = true)) :
    exec (.peOwnerWrite secure e v) s = .next { s with pe := s.pe.set e { s.pe[e] with lendErr := true } } := by
  have hno : ¬ (s.pe[e].state = .idle ∧ s.pe[e].queue = [] ∧ (secure = true ∨ lendShut s e = false)) := by
    rintro ⟨hi, hq, hs⟩
    rcases hw with h | h | ⟨hpf, hshut⟩
    · exact h hi
    · exact h hq
    · simp [hpf, hshut] at hs
  rw [peOwnerWrite_ready secure e v hr, if_neg hno]
  simp [lendCleared, modPe, upd]

/-! ### The new owner -/

/-- A reserved code, and the present owner's. -/
theorem lendPe_same {e : Fin 4} {code : Nat} {s : State} (h : 8 ≤ code ∧ code < 15 ∨ s.pe[e].owner = lendTo code) :
    lendPe e code s = s := by
  simp only [lendPe, lendTo_eq]
  split
  · rfl
  · rename_i hcode
    rw [if_pos (h.resolve_left hcode)]

/-- A new owner finds the PE scrubbed, with the region's blob-tag key. -/
theorem lendPe_new {e : Fin 4} {code : Nat} {s : State} (hcode : ¬ (8 ≤ code ∧ code < 15)) (hnew : s.pe[e].owner ≠ lendTo code) :
    (lendPe e code s).pe[e] = { s.pe[e] with
      owner := lendTo code, tagKey := (lendTo code).bind fun n => s.sec.rgn[n].tagKey, queue := [], admitted := false, running := none,
      state := .idle, pset := Vector.replicate 4 none, result := none } := by
  simp only [lendPe, lendTo_eq, hcode, hnew, if_false, returnPe, scrubUnit, modPe_pe, upd_same]

theorem lendCleared_pe (e : Fin 4) (v : W32) (s : State) :
    (lendCleared e v s).pe[e] = { s.pe[e] with lendErr := lendErrAfter v s.pe[e] } := by
  rw [lendCleared, modPe_pe, upd_same]

/-- Settles O38: the write is refused, changes lend_err alone, or lends the PE. -/
theorem lendingScrubsThePe : Obligations.LendingScrubsThePe := by
  intro s e secure v x code shut new bit4
  have hshut : lendShut s e = true ↔ shut := lendShut_iff s e
  rw [← hshut]
  refine ⟨peOwnerWrite_notReady secure e v, fun hr hi hq hw => ⟨fun hsame => ?_, fun hcode hnew => ?_⟩, peOwnerWrite_refused v⟩
  · have howner : (lendCleared e v s).pe[e].owner = x.owner := by rw [lendCleared_pe]
    rw [peOwnerWrite_accepted v hr hi hq hw, lendPe_same (by rw [howner]; exact hsame)]
    rfl
  · have hne : (lendCleared e v s).pe[e].owner ≠ lendTo code := by rw [lendCleared_pe]; exact hnew
    have hpe := lendPe_new hcode hne
    rw [lendCleared_pe] at hpe
    refine ⟨_, peOwnerWrite_accepted v hr hi hq hw, by rw [hpe]; rfl, by rw [hpe], by rw [hpe]; rfl, fun k => by rw [hpe]; simp, ?_, ?_⟩
    · intro hnone
      rw [hpe]
      exact congrArg (fun o : Option (Fin 8) => o.bind fun n => s.sec.rgn[n].tagKey) hnone
    · intro n hn
      rw [hpe]
      exact congrArg (fun o : Option (Fin 8) => o.bind fun n => s.sec.rgn[n].tagKey) hn

end Sys2Proof.Machine
end

section
/-!
PROOFS. The last write of a PE operation (09_polynomial_engine.md R185, R201): the parameter set that PSET_LOAD puts into its slot can be
gone at once. Its successor may request randomness while noise has FAILED (05_noise.md R106, R109); a SEALED region's job is then killed
with scrub, which empties every slot of the PEs lent to the region (R204; 14_faults_restart.md R332, R341).
-/
namespace Sys2Proof.Machine

/-- A PSET_LOAD into slot 1 of PE 0 with chain = 1, whose successor has been read: it requests a random block. -/
def lastLoad : Desc :=
  { job := lastJobRef, chain := 0, bytes := slice (0x14 :: List.replicate 15 0 ++ [1, 1]) 0 64, next := .got randomKernelBytes, stamp := 0 }

/-- Noise has failed, and SEALED region 0 runs a job whose PSET_LOAD awaits its last write on PE 0, which is lent to it. -/
def lastLoading : State :=
  { State.reset with
    rgn := { State.reset.rgn with rgn := upd State.reset.rgn.rgn 0 fun x => { x with state := .sealed } }
    noise := { State.reset.noise with state := .failed }
    pe := upd State.reset.pe 0 fun x =>
      { x with owner := some 0, running := some lastLoad, state := .busy, result := some (.slot 1 []) }
    jobs := [{ newJob lastJobRef [] [] with phase := .running, engines := [.pe 0] }] }

/-- What a command leaves in a parameter-set slot of a PE. -/
def slotAfter (e k : Fin 4) (o : Out) : Option (Option (List Byte)) :=
  match o with
  | .next t => some t.pe[e].pset[k]
  | _ => none

theorem lastLoading_running : lastLoading.pe[(0 : Fin 4)].running = some lastLoad := congrArg Pe.running (upd_same _ _ _)
theorem lastLoading_result : lastLoading.pe[(0 : Fin 4)].result = some (.slot 1 []) := congrArg Pe.result (upd_same _ _ _)

/-- The completion dispatches the successor, which ends the job with scrub. -/
theorem lastLoading_scrubbed : slotAfter 0 1 (exec (.peOpComplete 0) lastLoading) = some none := by decide +kernel

/-- Refutes O37: a PSET_LOAD of a SEALED region completes, and its successor requests randomness while noise has failed. The slot is empty
where the descriptor should be. -/
theorem not_maskDrawsOnceAndPeResultsCommit : ¬ Obligations.MaskDrawsOnceAndPeResultsCommit := by
  rintro ⟨-, hcomplete⟩
  obtain ⟨hrun, -⟩ := hcomplete lastLoading 0
  obtain ⟨hcommit, -, -, hslot⟩ := hrun lastLoad (.slot 1 []) lastLoading_running lastLoading_result
  obtain ⟨t, hexec, -, -, -, -, hpset⟩ := hcommit (hslot 1 [] rfl)
  have hheld : some t.pe[(0 : Fin 4)].pset[(1 : Fin 4)] = some none := (congrArg (slotAfter 0 1) hexec).symm.trans lastLoading_scrubbed
  rw [(hpset 1 [] rfl).1] at hheld
  exact absurd hheld (by decide)

end Sys2Proof.Machine
end

section
/-!
PROOFS. Every step keeps every memory in its canonical form (10_memory_host_link.md R208, R230; 04_herd_arrays.md Table 4-1): what
every operation and every command leaves of the memories. A change of other parts of the state leaves them by definition, so that
only operations that write memory, or that branch, have a lemma.
-/
namespace Sys2Proof.Machine

/-! ### Changes of memories -/

/-- If a command answers a next state, every memory of it is in its canonical form. -/
def KeepsCanonical : Out → Prop
  | .next t => MemoriesCanonical t
  | .fault _ => True
  | .refused _ => True

section
variable {pending : List Instr} {dev : DevState} {tick : TickState} {haly : HalyState} {mesh : MeshState}
    {rim : RimState} {rgn : RgnState} {anl : AnlState} {noise : NoiseState} {pe : Vector Pe 4} {eng : EngState} {mkh : MkhState}
    {sec : SecState} {que : Vector Queue 33} {jobs : List Job} {evt : EvtState} {err : ErrState} {ring : RingState}
    {pwr : PwrState} {stag : StagState} {out : OutState} {free : Nat} {s : State}

/-- A change of other parts than those that hold memories leaves every memory in its canonical form. -/
theorem other_canonical (hs : MemoriesCanonical s) :
    MemoriesCanonical (State.mk pending dev tick haly mesh rim rgn s.herd anl noise s.ibex s.cham s.kudu pe eng mkh s.mem
      s.pcie sec que jobs evt err ring pwr stag out free) := hs

/-- So does a change beside physical memory. -/
theorem memState_canonical {aside : List Aside} {owner : List (Nat × Nat)} {ctx : Vector MemCtx 9} {tlb : List Tlb}
    {frameSel winSel : Nat} {win : List WinEnt} {stack : Vector Stack 4} {link : Nat × Nat × Nat} (hs : MemoriesCanonical s) :
    MemoriesCanonical (State.mk pending dev tick haly mesh rim rgn s.herd anl noise s.ibex s.cham s.kudu pe eng mkh
      ⟨s.mem.phys, aside, owner, ctx, tlb, frameSel, winSel, win, stack, link⟩ s.pcie sec que jobs evt err ring pwr stag
        out free) := hs

/-- So does a change beside physical memory and host memory. -/
theorem memPcie_canonical {aside : List Aside} {owner : List (Nat × Nat)} {ctx : Vector MemCtx 9} {tlb : List Tlb}
    {frameSel winSel : Nat} {win : List WinEnt} {stack : Vector Stack 4} {link : Nat × Nat × Nat} {d3 : Vector Bool 9}
    {command : Vector (BitVec 16) 9} {bars : Vector (Vector W32 6) 9} {sizes : Vector (Nat × Nat) 9} {vfEnable : Bool}
    {bar4 : Nat} {tileSel : Vector Nat 8} {msixTab : List (Nat × Nat × W32)} (hs : MemoriesCanonical s) :
    MemoriesCanonical (State.mk pending dev tick haly mesh rim rgn s.herd anl noise s.ibex s.cham s.kudu pe eng mkh
      ⟨s.mem.phys, aside, owner, ctx, tlb, frameSel, winSel, win, stack, link⟩
      ⟨d3, command, bars, sizes, vfEnable, bar4, s.pcie.host, tileSel, msixTab⟩ sec que jobs evt err ring pwr stag
        out free) := hs

/-- So does a change beside the Herd's tiles. -/
theorem tickJob_canonical {job : Vector TickJob 8} (hs : MemoriesCanonical s) :
    MemoriesCanonical (State.mk pending dev tick haly mesh rim rgn ⟨s.herd.tile, job⟩ anl noise s.ibex s.cham s.kudu pe eng
      mkh s.mem s.pcie sec que jobs evt err ring pwr stag out free) := hs

/-- So does any change beside the memories. -/
theorem canonical_same {mem : MemState} {pcie : PcieState} {herd : HerdState} (hs : MemoriesCanonical s)
    (hm : mem.phys = s.mem.phys) (hp : pcie.host = s.pcie.host) (hh : herd.tile = s.herd.tile) :
    MemoriesCanonical (State.mk pending dev tick haly mesh rim rgn herd anl noise s.ibex s.cham s.kudu pe eng mkh mem pcie
      sec que jobs evt err ring pwr stag out free) := by
  unfold MemoriesCanonical at hs ⊢
  rwa [hm, hp, hh]

end

theorem modHerd_canonical {i : Fin 64} {f : HerdTile → HerdTile} {s : State}
    (hf : ∀ x, Memory.wf x.mem = true → Memory.wf (f x).mem = true) (hs : MemoriesCanonical s) :
    MemoriesCanonical (modHerd i f s) :=
  ⟨hs.1, hs.2.1, upd_forall (fun x : HerdTile => Memory.wf x.mem = true) _ _ _ hs.2.2.1 (hf _ (hs.2.2.1 i)), hs.2.2.2⟩

theorem modIbex_canonical {i : Fin 48} {f : Ibex → Ibex} {s : State}
    (hf : ∀ x, Memory.wf x.mem = true → Memory.wf (f x).mem = true) (hs : MemoriesCanonical s) :
    MemoriesCanonical (modIbex i f s) := memoriesCanonical_kept.ibex s i f hf hs

theorem modCham_canonical {i : Fin 48} {f : Cham → Cham} {s : State}
    (hf : ∀ x, Memory.wf x.mem = true → Memory.wf (f x).mem = true) (hs : MemoriesCanonical s) :
    MemoriesCanonical (modCham i f s) := memoriesCanonical_kept.cham s i f hf hs

theorem modKudu_canonical {i : Fin 8} {f : Kudu → Kudu} {s : State}
    (hf : ∀ x, Memory.wf x.mem = true → Memory.wf (f x).mem = true) (hs : MemoriesCanonical s) :
    MemoriesCanonical (modKudu i f s) := memoriesCanonical_kept.kudu s i f hf hs

theorem modMem_canonical {f : MemState → MemState} {s : State}
    (hf : ∀ x, Memory.wf x.phys = true → Memory.wf (f x).phys = true) (hs : MemoriesCanonical s) :
    MemoriesCanonical (modMem f s) := ⟨hf _ hs.1, hs.2⟩

/-- Other Herd tiles, each with a canonical memory. -/
theorem withHerd_canonical {s : State} (hs : MemoriesCanonical s) (v : HerdState)
    (hv : ∀ h : Fin 64, Memory.wf v.tile[h].mem = true) : MemoriesCanonical { s with herd := v } :=
  ⟨hs.1, hs.2.1, hv, hs.2.2.2⟩

/-- So does any change beside the memories, however it is written. -/
theorem canonical_of_memories {s t : State} (hs : MemoriesCanonical s) (hm : t.mem.phys = s.mem.phys)
    (hp : t.pcie.host = s.pcie.host) (hh : t.herd.tile = s.herd.tile) (hi : t.ibex = s.ibex) (hc : t.cham = s.cham)
    (hk : t.kudu = s.kudu) : MemoriesCanonical t := by
  unfold MemoriesCanonical at hs ⊢
  rwa [hm, hp, hh, hi, hc, hk]

theorem ite_canonical {c : Prop} [Decidable c] {s t : State} (hs : MemoriesCanonical s) (ht : MemoriesCanonical t) :
    MemoriesCanonical (if c then s else t) := by split <;> assumption

theorem ite_keepsCanonical {c : Prop} [Decidable c] {a b : Out} (ha : KeepsCanonical a) (hb : KeepsCanonical b) :
    KeepsCanonical (if c then a else b) := by split <;> assumption

/-- What each element's change keeps canonical, the changes in turn do. -/
theorem forEach_canonical {α : Type} {l : List α} {f : α → State → State}
    (hf : ∀ a s, MemoriesCanonical s → MemoriesCanonical (f a s)) {s : State} (hs : MemoriesCanonical s) :
    MemoriesCanonical (forEach l f s) :=
  forEach_keeps MemoriesCanonical l f (fun a _ t ht => hf a t ht) s hs

/-- A state that a command left, or the one before it. -/
theorem stateAfter_canonical {o : Out} {s : State} (ho : KeepsCanonical o) (hs : MemoriesCanonical s) :
    MemoriesCanonical (stateAfter o s) := by
  cases o with
  | next t => exact ho
  | fault _ => exact hs
  | refused _ => exact hs

theorem physWrite_wf (pa : Nat) (d : List Byte) (m : MemState) (hm : Memory.wf m.phys = true) :
    Memory.wf (physWrite m pa d).phys = true := memWrite_wf _ _ _ hm

theorem dropFrame_wf (f : Nat) (m : MemState) (hm : Memory.wf m.phys = true) : Memory.wf (dropFrame f m).phys = true :=
  memZero_wf _ _ _ hm

theorem putTags_wf (t : Fin 9 × Nat) (ls : List Nat) (m : MemState) (hm : Memory.wf m.phys = true) :
    Memory.wf (putTags t ls m).phys = true :=
  putTags_keeps (fun m => Memory.wf m.phys = true) (fun m _ _ h => physWrite_wf _ _ m h) t ls m hm

theorem zeroFrame_wf (f : Nat) (t : Option (Fin 9 × Nat)) (m : MemState) (hm : Memory.wf m.phys = true) :
    Memory.wf (zeroFrame f t m).phys = true := by
  unfold zeroFrame
  split
  · exact dropFrame_wf _ _ hm
  · exact putTags_wf _ _ _ (dropFrame_wf _ _ hm)

theorem zeroPage_wf (s : State) (n : Fin 8) (f pte : Nat) (m : MemState) (hm : Memory.wf m.phys = true) :
    Memory.wf (zeroPage s n f pte m).phys = true := by
  unfold zeroPage
  split
  · exact zeroFrame_wf _ _ _ hm
  · exact hm

theorem applySwap_wf (x : HerdTile) (hx : Memory.wf x.mem = true) : Memory.wf (applySwap x).mem = true := by
  unfold applySwap
  split <;> exact hx

theorem updateClass_wf (c : Nat) (x : HerdTile) (hx : Memory.wf x.mem = true) : Memory.wf (updateClass c x).mem = true :=
  foldl_keeps (fun m => Memory.wf m = true) _ (fun _ _ h => putNib_wf _ _ _ _ h) _ _ hx

theorem initStates_wf (x : HerdTile) (hx : Memory.wf x.mem = true) : Memory.wf (initStates x).mem = true := by
  have hput : ∀ (f : Mem → Nat → Nat) (l : List Nat), Memory.wf (l.foldl (fun m j => putNib m 0 j (f m j)) x.mem) = true :=
    fun f l => foldl_keeps (fun m => Memory.wf m = true) (fun m j => putNib m 0 j (f m j)) (fun _ _ h => putNib_wf _ _ _ _ h) l x.mem hx
  simp only [initStates]
  split
  · exact hput _ _
  · exact memZero_wf _ _ _ hx
  · exact hput _ _

theorem showRes_wf (i : Nat) (l : List ResEntry) (x : HerdTile) (hx : Memory.wf x.mem = true) :
    Memory.wf (showRes i l x).mem = true := memWrite_wf _ _ _ (memZero_wf _ _ _ hx)

theorem copySelf_wf (e : SendEnt) (x : HerdTile) (hx : Memory.wf x.mem = true) : Memory.wf (copySelf e x).mem = true :=
  memWrite_wf _ _ _ hx

theorem initTile_wf (x : HerdTile) (hx : Memory.wf x.mem = true) : Memory.wf (initTile x).mem = true :=
  initStates_wf _ hx

/-! ### What the operations and commands of Machine/Memory.lean leave -/

theorem writePlace_canonical {p : Place} {data : List Byte} {s : State} (hs : MemoriesCanonical s) :
    MemoriesCanonical (writePlace p data s) :=
  writePlace_keeps MemoriesCanonical p data s hs memoriesCanonical_kept.phys memoriesCanonical_kept.host

theorem writeDev_canonical {tile : Fin 24} {c : Fin 9} {a : Nat} {data : List Byte} {s : State} (hs : MemoriesCanonical s) :
    MemoriesCanonical (writeDev tile c a data s).1 := keeps_writeDev memoriesCanonical_kept.toKeptByEnds _ _ _ _ _ hs

theorem latchFault_canonical {c : Fin 9} {addr cause : Nat} {s : State} (hs : MemoriesCanonical s) :
    MemoriesCanonical (latchFault c addr cause s) := ite_canonical hs hs

theorem latchIf_canonical {c : Fin 9} {f : MemFault} {s : State} (hs : MemoriesCanonical s) :
    MemoriesCanonical (latchIf c f s) := keeps_latchIf memoriesCanonical_kept.toKeptByEnds _ _ _ hs

theorem writeHost_canonical {a : Nat} {data : List Byte} {s : State} (hs : MemoriesCanonical s) :
    MemoriesCanonical (writeHost a data s) := memoriesCanonical_kept.host _ _ _ hs

/-! ### What the operations and commands of Machine/Ops.lean leave -/

theorem purgeJob_canonical {k : JobRef} {s : State} (hs : MemoriesCanonical s) :
    MemoriesCanonical (purgeJob k s) := memoriesCanonical_kept.purge _ _ hs

theorem dropStaged_canonical {k : JobRef} {s : State} (hs : MemoriesCanonical s) :
    MemoriesCanonical (dropStaged k s) := keeps_dropStaged memoriesCanonical_kept.toKeptByEnds _ _ hs

theorem modLock_canonical {n : Fin 8} {l : Nat} {f : LockReg → LockReg} {s : State} (hs : MemoriesCanonical s) :
    MemoriesCanonical (modLock n l f s) := keeps_modLock memoriesCanonical_kept.toKeptByEnds _ _ _ _ hs

theorem unlockLock_canonical {n : Fin 8} {l : Nat} {s : State} (hs : MemoriesCanonical s) :
    MemoriesCanonical (unlockLock n l s) := keeps_unlockLock memoriesCanonical_kept.toKeptByEnds _ _ _ hs

theorem breakLocks_canonical {k : JobRef} {s : State} (hs : MemoriesCanonical s) :
    MemoriesCanonical (breakLocks k s) := keeps_breakLocks memoriesCanonical_kept.toKeptByEnds _ _ hs

theorem dropArm_canonical {n : Fin 8} {a : Arm} {s : State} (hs : MemoriesCanonical s) :
    MemoriesCanonical (dropArm n a s) := keeps_dropArm memoriesCanonical_kept.toKeptByEnds _ _ _ hs

theorem served_canonical {i : Fin 33} {s : State} (hs : MemoriesCanonical s) :
    MemoriesCanonical (served i s) := by
  unfold served
  split
  · exact hs
  · split
    · exact hs
    · exact hs

theorem beginDrain_canonical {n : Fin 8} {s : State} (hs : MemoriesCanonical s) :
    MemoriesCanonical (beginDrain n s) := keeps_beginDrain memoriesCanonical_kept.toKeptByEnds _ _ hs

theorem stopJob_canonical {k : JobRef} {cause : Option (Nat × Nat)} {by_ : Option PktRef} {s : State}
    (hs : MemoriesCanonical s) :
    MemoriesCanonical (stopJob k cause by_ s) := keeps_stopJob memoriesCanonical_kept.toKeptByEnds _ _ _ _ hs

theorem jobError_canonical {k : JobRef} {e : Err} {site : Site} {s : State} (hs : MemoriesCanonical s) :
    MemoriesCanonical (jobError k e site s) := keeps_jobError memoriesCanonical_kept.toKeptByEnds _ _ _ _ hs

theorem endDeferred_canonical {k : JobRef} {st : EState} {s : State} (hs : MemoriesCanonical s) :
    MemoriesCanonical (endDeferred k st s) := keeps_endDeferred memoriesCanonical_kept.toKeptByEnds _ _ _ hs

theorem completeJob_canonical {k : JobRef} {status : Nat} {s : State} (hs : MemoriesCanonical s) :
    MemoriesCanonical (completeJob k status s) := keeps_completeJob memoriesCanonical_kept.toKeptByEnds _ _ _ hs

theorem settle_canonical {n : Fin 8} {s : State} (hs : MemoriesCanonical s) :
    MemoriesCanonical (settle n s) := keeps_settle memoriesCanonical_kept.toKeptByEnds _ _ hs

theorem settleMaint_canonical {s : State} (hs : MemoriesCanonical s) :
    MemoriesCanonical (settleMaint s) := keeps_settleMaint memoriesCanonical_kept.toKeptByEnds _ hs

theorem settleQueue_canonical {i : Fin 33} {s : State} (hs : MemoriesCanonical s) :
    MemoriesCanonical (settleQueue i s) := keeps_settleQueue memoriesCanonical_kept.toKeptByEnds _ _ hs

theorem finish_canonical {i : Fin 33} {pos : W32} {status : Nat} {s : State} (hs : MemoriesCanonical s) :
    MemoriesCanonical (finish i pos status s) := keeps_finish memoriesCanonical_kept.toKeptByEnds _ _ _ _ hs

/-! ### What the operations and commands of Machine/Access.lean leave -/

theorem missRead_canonical {w : View} {s : State} (hs : MemoriesCanonical s) :
    MemoriesCanonical (missRead w s) := ite_canonical hs hs

/-! ### What the operations and commands of Machine/Halyard.lean leave -/

theorem armOutput_canonical {writer : Owner} {n : Fin 8} {a : ArmReq} {s : State} (hs : MemoriesCanonical s) :
    MemoriesCanonical (armOutput writer n a s) := ite_canonical hs hs

@[simp] theorem execOutEnableWrite_canonical {v : W32} {s : State} (hs : MemoriesCanonical s) :
    KeepsCanonical (execOutEnableWrite v s) := ite_keepsCanonical hs hs

@[simp] theorem execArm_canonical {w : View} {n : Fin 8} {alsoDisarm : Bool} {s : State} (hs : MemoriesCanonical s) :
    KeepsCanonical (execArm w n alsoDisarm s) :=
      ite_keepsCanonical (ite_keepsCanonical (armOutput_canonical (ite_canonical hs hs)) hs) hs

@[simp] theorem execDisarm_canonical {w : View} {n : Fin 8} {s : State} (hs : MemoriesCanonical s) :
    KeepsCanonical (execDisarm w n s) := ite_keepsCanonical hs hs

@[simp] theorem execPulseRise_canonical {n : Fin 8} {s : State} (hs : MemoriesCanonical s) :
    KeepsCanonical (execPulseRise n s) := by
  unfold execPulseRise
  dsimp only
  split
  · exact hs
  · exact ite_keepsCanonical hs hs
  · exact hs

@[simp] theorem execPulseFall_canonical {n : Fin 8} {s : State} (hs : MemoriesCanonical s) :
    KeepsCanonical (execPulseFall n s) := by
  unfold execPulseFall
  split
  · exact hs
  · exact hs

@[simp] theorem execStrobeEndEdge_canonical {n : Fin 8} {input : Fin 4} {rising : Bool} {ago cclk held delay : Nat}
    {s : State} (hs : MemoriesCanonical s) :
    KeepsCanonical (execStrobeEndEdge n input rising ago cclk held delay s) := by
  unfold execStrobeEndEdge
  dsimp only
  split
  · split
    · exact hs
    · exact hs
  · exact hs

@[simp] theorem execOutOwnerWrite_canonical {v : W32} {s : State} (hs : MemoriesCanonical s) :
    KeepsCanonical (execOutOwnerWrite v s) := ite_keepsCanonical (forEach_canonical (fun _ _ ht => by exact ht) hs) hs

@[simp] theorem execInOwnerWrite_canonical {v : W32} {cclk : Nat} {s : State} (hs : MemoriesCanonical s) :
    KeepsCanonical (execInOwnerWrite v cclk s) := ite_keepsCanonical (forEach_canonical (fun _ _ ht => by exact ht) hs) hs

@[simp] theorem execHalyInCfgWrite_canonical {w : View} {n : Fin 4} {v : W32} {s : State} (hs : MemoriesCanonical s) :
    KeepsCanonical (execHalyInCfgWrite w n v s) := ite_keepsCanonical hs hs

@[simp] theorem execInputEdge_canonical {n : Fin 4} {rising : Bool} {ago cclk held : Nat} {s : State}
    (hs : MemoriesCanonical s) :
    KeepsCanonical (execInputEdge n rising ago cclk held s) := ite_keepsCanonical hs (ite_keepsCanonical hs (canonical_same hs rfl rfl rfl))

@[simp] theorem execTimestampPop_canonical {w : View} {n : Fin 4} {wide : Bool} {s : State} (hs : MemoriesCanonical s) :
    KeepsCanonical (execTimestampPop w n wide s) := by
  unfold execTimestampPop
  split
  · split
    · exact canonical_same hs rfl rfl rfl
    · exact hs
  · exact missRead_canonical hs

/-! ### What the operations and commands of Machine/Tiles.lean leave -/

theorem localWrite_canonical {e : Eng} {a : Nat} {data : List Byte} {s : State} (hs : MemoriesCanonical s) :
    MemoriesCanonical (localWrite e a data s) := keeps_localWrite memoriesCanonical_kept _ _ _ _ hs

theorem modQueueOf_canonical {e : Eng} {f : List Desc → List Desc} {s : State} (hs : MemoriesCanonical s) :
    MemoriesCanonical (modQueueOf e f s) := by
  unfold modQueueOf
  split
  · exact hs
  · exact modIbex_canonical (fun _ hx => hx) hs
  · exact modCham_canonical (fun _ hx => hx) hs
  · exact modKudu_canonical (fun _ hx => hx) hs
  · exact hs
  · exact hs

theorem scrubUnit_canonical {e : Eng} {s : State} (hs : MemoriesCanonical s) :
    MemoriesCanonical (scrubUnit e s) := keeps_scrubUnit memoriesCanonical_kept _ _ hs

theorem reloadUnit_canonical {e : Eng} {s : State} (hs : MemoriesCanonical s) :
    MemoriesCanonical (reloadUnit e s) := keeps_reloadUnit memoriesCanonical_kept _ _ hs

/-! ### What the operations and commands of Machine/Router.lean leave -/

theorem serveHeld_canonical {x y : Nat} {s : State} (hs : MemoriesCanonical s) :
    MemoriesCanonical (serveHeld x y s) := keeps_serveHeld memoriesCanonical_kept _ _ _ hs

/-! ### What the operations and commands of Machine/Recovery.lean leave -/

theorem writeDst_canonical {e : Eng} {n : Fin 8} {d : Dst} {b : List Byte} {s : State} (hs : MemoriesCanonical s) :
    MemoriesCanonical (writeDst e n d b s).1 := keeps_writeDst memoriesCanonical_kept _ _ _ _ _ hs

theorem undefDst_canonical {e : Eng} {n : Fin 8} {d : Dst} {len : Nat} {s : State} (hs : MemoriesCanonical s) :
    MemoriesCanonical (undefDst e n d len s) := keeps_undefDst memoriesCanonical_kept _ _ _ _ _ hs

theorem endTicking_canonical {n : Fin 8} {s : State} (hs : MemoriesCanonical s) :
    MemoriesCanonical (endTicking n s) := keeps_endTicking memoriesCanonical_kept _ _ hs

theorem dropMerge_canonical {n : Fin 8} {s : State} (hs : MemoriesCanonical s) :
    MemoriesCanonical (dropMerge n s) := keeps_dropMerge memoriesCanonical_kept _ _ hs

theorem scrubAll_canonical {es : List Eng} {s : State} (hs : MemoriesCanonical s) :
    MemoriesCanonical (scrubAll es s) := keeps_scrubAll memoriesCanonical_kept _ _ hs

theorem killJob_canonical {k : JobRef} {scrub : Bool} {s : State} (hs : MemoriesCanonical s) :
    MemoriesCanonical (killJob k scrub s) := keeps_killJob memoriesCanonical_kept _ _ _ hs

theorem killWith_canonical {k : JobRef} {scrub : Bool} {status : Nat} {s : State} (hs : MemoriesCanonical s) :
    MemoriesCanonical (killWith k scrub status s) := keeps_killWith memoriesCanonical_kept _ _ _ _ hs

theorem setTdi_canonical {n : Fin 8} {t : Tdi} {s : State} (hs : MemoriesCanonical s) :
    MemoriesCanonical (setTdi n t s) := keeps_setTdi memoriesCanonical_kept _ _ _ hs

theorem tdiError_canonical {n : Fin 8} {s : State} (hs : MemoriesCanonical s) :
    MemoriesCanonical (tdiError n s) := keeps_tdiError memoriesCanonical_kept _ _ hs

theorem failMaint_canonical {op : Nat} {n : Fin 8} {status : Nat} {s : State} (hs : MemoriesCanonical s) :
    MemoriesCanonical (failMaint op n status s) := keeps_failMaint memoriesCanonical_kept _ _ _ _ hs

theorem ownSave_canonical {n : Fin 8} {o : Nat} {s : State} (hs : MemoriesCanonical s) :
    MemoriesCanonical (ownSave n o s) := keeps_ownSave memoriesCanonical_kept _ _ _ hs

theorem regionError_canonical {n : Fin 8} {e : Err} {site : Site} {own : Option (JobRef × Nat)} {s : State}
    (hs : MemoriesCanonical s) :
    MemoriesCanonical (regionError n e site own s) := keeps_regionError memoriesCanonical_kept _ _ _ _ _ hs

theorem noteFault_canonical {n : Fin 8} {f : Nat × Nat} {site : Site} {s : State} (hs : MemoriesCanonical s) :
    MemoriesCanonical (noteFault n f site s) := keeps_noteFault memoriesCanonical_kept _ _ _ _ hs

theorem noteIf_canonical {c : Fin 9} {f : MemFault} {site : Site} {s : State} (hs : MemoriesCanonical s) :
    MemoriesCanonical (noteIf c f site s) := keeps_noteIf memoriesCanonical_kept _ _ _ _ hs

theorem memError_canonical {k : JobRef} {f : Nat × Nat} {site : Site} {s : State} (hs : MemoriesCanonical s) :
    MemoriesCanonical (memError k f site s) := keeps_memError memoriesCanonical_kept _ _ _ _ hs

theorem mapLinks_canonical {r : Region} {f : Link → Link} {s : State} (hs : MemoriesCanonical s) :
    MemoriesCanonical (mapLinks r f s) := by
  unfold mapLinks
  exact canonical_same hs rfl rfl rfl

theorem clearBuffers_canonical {n : Fin 8} {s : State} (hs : MemoriesCanonical s) :
    MemoriesCanonical (clearBuffers n s) := keeps_clearBuffers memoriesCanonical_kept _ _ hs

theorem clearUnit_canonical {e : Eng} {s : State} (hs : MemoriesCanonical s) :
    MemoriesCanonical (clearUnit e s) := keeps_clearUnit memoriesCanonical_kept _ _ hs

theorem freeRegion_canonical {n : Fin 8} {s : State} (hs : MemoriesCanonical s) :
    MemoriesCanonical (freeRegion n s) := keeps_freeRegion memoriesCanonical_kept _ _ hs

theorem beginTeardown_canonical {n : Fin 8} {s : State} (hs : MemoriesCanonical s) :
    MemoriesCanonical (beginTeardown n s) := keeps_beginTeardown memoriesCanonical_kept _ _ hs

theorem creationFails_canonical {n : Fin 8} {status : Nat} {s : State} (hs : MemoriesCanonical s) :
    MemoriesCanonical (creationFails n status s) := keeps_creationFails memoriesCanonical_kept _ _ _ hs

theorem endByDevice_canonical {e : Err} {j : Job} {s : State} (hs : MemoriesCanonical s) :
    MemoriesCanonical (endByDevice e j s) := by
  unfold endByDevice
  split
  · exact killWith_canonical hs
  · split
    · exact hs
    · exact stopJob_canonical hs

theorem settleAll_canonical {s : State} (hs : MemoriesCanonical s) :
    MemoriesCanonical (settleAll s) := keeps_settleAll memoriesCanonical_kept _ hs

theorem deviceError_canonical {e : Err} {site : Site} {region stack : Nat} {s : State} (hs : MemoriesCanonical s) :
    MemoriesCanonical (deviceError e site region stack s) := keeps_deviceError memoriesCanonical_kept _ _ _ _ _ hs

theorem noiseFail_canonical {cause src : Nat} {s : State} (hs : MemoriesCanonical s) :
    MemoriesCanonical (noiseFail cause src s) := by
  unfold noiseFail
  split
  · exact hs
  · refine deviceError_canonical (forEach_canonical (fun n t ht => ?_) ?_)
    · have hseal := failMaint_canonical (op := 0x42) (n := n) (status := Status.entropyFailure) ht
      split
      · exact creationFails_canonical ht
      · split
        · exact hseal
        · exact ht
    · exact withHerd_canonical hs _ fun h => by simpa using hs.2.2.1 h

theorem withdraw_canonical {cause : Nat} {warned : Bool} {site : Site} {affected : List (Fin 8)} {s : State}
    (hs : MemoriesCanonical s) :
    MemoriesCanonical (withdraw cause warned site affected s) := keeps_withdraw memoriesCanonical_kept _ _ _ _ _ hs

/-! ### What the operations and commands of Machine/Noise.lean leave -/

theorem reseedBetween_canonical {s : State} (hs : MemoriesCanonical s) :
    MemoriesCanonical (reseedBetween s) := by
  unfold reseedBetween
  split
  · exact ite_canonical hs hs
  · exact hs

theorem drbgDraw_canonical {s : State} (hs : MemoriesCanonical s) :
    MemoriesCanonical (drbgDraw s).2 := by
  unfold drbgDraw
  dsimp only
  split
  · exact reseedBetween_canonical hs
  · exact reseedBetween_canonical hs

theorem drbgDraws_canonical {k : Nat} {s : State} (hs : MemoriesCanonical s) :
    MemoriesCanonical (drbgDraws k s).2 := by
  induction k generalizing s with
  | zero => exact hs
  | succ k ih => exact ih (drbgDraw_canonical hs)

theorem drawXts_canonical {s : State} (hs : MemoriesCanonical s) :
    MemoriesCanonical (drawXts s).2 := by
  unfold drawXts
  dsimp only
  split
  · exact drbgDraw_canonical (drbgDraw_canonical (drbgDraw_canonical hs))
  · exact drbgDraw_canonical (drbgDraw_canonical hs)

@[simp] theorem execRawSample_canonical {src : Fin 16} {b : Bool} {s : State} (hs : MemoriesCanonical s) :
    KeepsCanonical (execRawSample src b s) := ite_keepsCanonical hs hs

@[simp] theorem execRepetitionCountFail_canonical {src : Fin 16} {s : State} (hs : MemoriesCanonical s) :
    KeepsCanonical (execRepetitionCountFail src s) := ite_keepsCanonical (noiseFail_canonical (canonical_same hs rfl rfl rfl)) hs

@[simp] theorem execAdaptiveWindowEnd_canonical {src : Fin 16} {s : State} (hs : MemoriesCanonical s) :
    KeepsCanonical (execAdaptiveWindowEnd src s) := by
  unfold execAdaptiveWindowEnd
  dsimp only
  split
  · split
    · exact noiseFail_canonical (canonical_same hs rfl rfl rfl)
    · exact ite_keepsCanonical hs (canonical_same hs rfl rfl rfl)
  · exact hs

@[simp] theorem execConditionedBlock_canonical {s : State} (hs : MemoriesCanonical s) :
    KeepsCanonical (execConditionedBlock s) := ite_keepsCanonical hs hs

@[simp] theorem execDrbgInstantiate_canonical {drbgKat : Bool} {s : State} (hs : MemoriesCanonical s) :
    KeepsCanonical (execDrbgInstantiate drbgKat s) := by
  unfold execDrbgInstantiate
  split
  · split
    · exact noiseFail_canonical hs
    · exact memState_canonical (drawXts_canonical (other_canonical hs))
  · exact hs

@[simp] theorem execDrbgReseed_canonical {drbgKat : Bool} {s : State} (hs : MemoriesCanonical s) :
    KeepsCanonical (execDrbgReseed drbgKat s) := by
  unfold execDrbgReseed
  split
  · exact hs
  · exact ite_keepsCanonical (ite_keepsCanonical (noiseFail_canonical hs) hs) hs

@[simp] theorem execDrbgGenerate_canonical {r : Fin 8} {s : State} (hs : MemoriesCanonical s) :
    KeepsCanonical (execDrbgGenerate r s) := ite_keepsCanonical (drbgDraw_canonical hs) hs

@[simp] theorem execFreshKeyStaged_canonical {r : Fin 8} {s : State} (hs : MemoriesCanonical s) :
    KeepsCanonical (execFreshKeyStaged r s) := by
  unfold execFreshKeyStaged
  split
  · exact forEach_canonical (fun _ _ ht => modHerd_canonical (fun _ hx => by exact hx) ht) hs
  · exact hs

/-! ### What the operations and commands of Machine/Mesh.lean leave -/

theorem admitFlit_canonical {l : Fin 768} {tag : Nat} {ecc : Ecc} {s : State} (hs : MemoriesCanonical s) :
    MemoriesCanonical (admitFlit l tag ecc s).2 := by
  unfold admitFlit
  split
  · dsimp only
    split
    · exact regionError_canonical hs
    · exact hs
  · split
    · dsimp only
      split
      · exact hs
      · split
        · dsimp only
          exact regionError_canonical (canonical_same hs rfl rfl rfl)
        · exact canonical_same hs rfl rfl rfl
    · dsimp only
      split
      · exact hs
      · split
        · dsimp only
          exact regionError_canonical hs
        · exact hs

theorem takeVc0_canonical {x y src : Nat} {f : Vc0Flit} {s : State} (hs : MemoriesCanonical s) :
    MemoriesCanonical (takeVc0 x y src f s) := by
  unfold takeVc0
  split
  · exact hs
  · split
    · exact hs
    · exact hs

theorem deliverVc0_canonical {n : Fin 8} {x y : Nat} {load : Vc0Load} {s : State} (hs : MemoriesCanonical s) :
    MemoriesCanonical (deliverVc0 n x y load s) := by
  unfold deliverVc0
  split
  · split
    · exact ite_canonical hs (canonical_same hs rfl rfl rfl)
    · exact hs
    · exact hs
  · split
    · exact modHerd_canonical (fun _ hx => hx) (localWrite_canonical hs)
    · exact modHerd_canonical (fun _ hx => hx) (forEach_canonical (fun _ _ ht => ite_canonical (localWrite_canonical ht) ht) hs)
    · exact modHerd_canonical (fun _ hx => hx) (localWrite_canonical hs)
    · exact modIbex_canonical (fun _ hx => hx) (localWrite_canonical hs)
    · exact localWrite_canonical hs
    · exact hs

theorem overflowVc0_canonical {l : Fin 768} {n : Fin 8} {s : State} (hs : MemoriesCanonical s) :
    MemoriesCanonical (overflowVc0 l n s) := by
  unfold overflowVc0
  dsimp only
  split
  · exact settle_canonical (jobError_canonical hs)
  · exact hs

@[simp] theorem execVc0FlitArrival_canonical {d : LinkDir} {f : Vc0Arrival} {ecc : Ecc} {s : State} (hs : MemoriesCanonical s) :
    KeepsCanonical (execVc0FlitArrival d f ecc s) := by
  unfold execVc0FlitArrival
  split
  · split
    · exact ite_keepsCanonical hs (ite_keepsCanonical hs (admitFlit_canonical hs))
    · dsimp only
      split
      · exact hs
      · split
        · split
          · exact hs
          · split
            · exact admitFlit_canonical (takeVc0_canonical hs)
            · refine settle_canonical ?_
              unfold arriveVc0
              split
              · dsimp only
                split
                · exact deliverVc0_canonical (admitFlit_canonical (takeVc0_canonical hs))
                · exact admitFlit_canonical (takeVc0_canonical hs)
              · dsimp only
                split
                · exact deliverVc0_canonical (admitFlit_canonical (takeVc0_canonical hs))
                · exact overflowVc0_canonical (admitFlit_canonical (takeVc0_canonical hs))
        · exact hs
  · exact hs

theorem takePacket_canonical {x y : Nat} {i : Fin 5} {p : MeshPacket} {s : State} (hs : MemoriesCanonical s) :
    MemoriesCanonical (takePacket x y i p s) := by
  unfold takePacket
  split
  · exact hs
  · exact hs

@[simp] theorem execMeshPacketArrival_canonical {d : LinkDir} {own : Option MeshPacket} {ecc : Ecc} {s : State}
    (hs : MemoriesCanonical s) :
    KeepsCanonical (execMeshPacketArrival d own ecc s) := by
  unfold execMeshPacketArrival
  split
  · dsimp only
    split
    · exact hs
    · split
      · exact hs
      · split
        · exact admitFlit_canonical (takePacket_canonical hs)
        · exact serveHeld_canonical ((admitFlit_canonical (takePacket_canonical hs)))
  · exact hs

theorem landRim_canonical {f : RimFlit} {s : State} (hs : MemoriesCanonical s) :
    MemoriesCanonical (landRim f s) := by
  unfold landRim
  split
  · exact hs
  · refine settle_canonical ?_
    split
    · split
      · exact memError_canonical (ite_canonical hs (writePlace_canonical hs))
      · exact noteFault_canonical (ite_canonical hs (writePlace_canonical hs))
    · exact ite_canonical hs (writePlace_canonical hs)

theorem enterRim_canonical {p : Fin 24} {f : RimFlit} {s u : State} (hs : MemoriesCanonical s) (hu : MemoriesCanonical u) :
    MemoriesCanonical ((enterRim p f s).getD u) := by
  unfold enterRim
  split
  · exact landRim_canonical hs
  · dsimp only
    split
    · exact hs
    · exact hu

theorem emitRim_canonical {r : Fin 8} {p : Fin 24} {s : State} (hs : MemoriesCanonical s) :
    MemoriesCanonical (emitRim r p s) := by
  unfold emitRim
  split
  · exact hs
  · split
    · dsimp only
      split
      · exact settle_canonical (jobError_canonical (latchFault_canonical hs))
      · exact latchFault_canonical hs
    · exact enterRim_canonical (ite_canonical hs hs) hs

theorem crossRim_canonical {seg : Fin 24} {ccw : Bool} {lane : Fin 4} {slot : Nat} {ecc : Ecc} {s : State}
    (hs : MemoriesCanonical s) :
    MemoriesCanonical (crossRim seg ccw lane slot ecc s) := by
  unfold crossRim
  dsimp only
  split
  · exact hs
  · split
    · exact hs
    · split
      · split
        · exact hs
        · split
          · exact deviceError_canonical hs
          · exact ite_canonical (landRim_canonical (ite_canonical hs hs)) (ite_canonical hs hs)
      · split
        · exact hs
        · split
          · exact deviceError_canonical hs
          · exact ite_canonical (landRim_canonical (ite_canonical hs hs)) (ite_canonical hs hs)

@[simp] theorem execRimFlitArrival_canonical {m : RimMove} {ecc : Ecc} {s : State} (hs : MemoriesCanonical s) :
    KeepsCanonical (execRimFlitArrival m ecc s) := by
  cases m with
  | enter p c dest bytes =>
    unfold execRimFlitArrival
    dsimp only
    split
    · exact hs
    · exact enterRim_canonical hs hs
  | emit r p => exact emitRim_canonical hs
  | cross seg ccw lane slot => exact crossRim_canonical hs

/-! ### What the operations and commands of Machine/Herd.lean leave -/

theorem jobWrite_canonical {k : JobRef} {e : Eng} {a : Nat} {data : List Byte} {s : State} (hs : MemoriesCanonical s) :
    MemoriesCanonical (jobWrite k e a data s) := by
  unfold jobWrite
  dsimp only
  split
  · exact writeDev_canonical hs
  · exact memError_canonical (writeDev_canonical hs)

theorem jobRead_canonical {k : JobRef} {e : Eng} {a n : Nat} {s : State} (hs : MemoriesCanonical s) :
    MemoriesCanonical (jobRead k e a n s).2 := by
  unfold jobRead
  dsimp only
  split
  · exact hs
  · exact memError_canonical hs

theorem sendClass_canonical {n : Fin 8} {h : Fin 64} {c : Nat} {s : State} (hs : MemoriesCanonical s) :
    MemoriesCanonical (sendClass n h c s) := by
  unfold sendClass
  extract_lets r es s1
  have h1 : MemoriesCanonical s1 := by
    refine forEach_canonical (fun e t ht => ?_) hs
    split
    · exact modHerd_canonical (copySelf_wf e) ht
    · exact canonical_same ht rfl rfl rfl
  split
  · exact h1
  · split
    · exact jobError_canonical h1
    · exact h1

theorem sendPayload_canonical {n : Fin 8} {base : Nat} {masked : Bool} {parts : List (Fin 64 × Nat × List Byte)} {s : State}
    (hs : MemoriesCanonical s) :
    MemoriesCanonical (sendPayload n base masked parts s).2 := forEach_canonical (fun _ _ ht => by exact ht) hs

theorem emptyIndexes_canonical {n : Fin 8} {s : State} (hs : MemoriesCanonical s) :
    MemoriesCanonical (emptyIndexes n s) := by
  unfold emptyIndexes
  split
  · exact hs
  · exact forEach_canonical (fun _ _ ht => modHerd_canonical (showRes_wf _ _) ht) hs

theorem initHerd_canonical {n : Fin 8} {k : JobRef} {h : Fin 64} {s : State} (hs : MemoriesCanonical s) :
    MemoriesCanonical (initHerd n k h s) := by
  unfold initHerd
  refine forEach_canonical (fun _ _ ht => sendClass_canonical ht) ?_
  split
  · split
    · exact modHerd_canonical (fun _ hx => initTile_wf _ hx) hs
    · exact jobError_canonical (modHerd_canonical (fun _ hx => initTile_wf _ hx) hs)
  · refine jobError_canonical ?_
    split
    · exact modHerd_canonical (fun _ hx => initTile_wf _ hx) hs
    · exact jobError_canonical (modHerd_canonical (fun _ hx => initTile_wf _ hx) hs)

theorem startKeys_canonical {n : Fin 8} {pkt : List Byte} {s : State} (hs : MemoriesCanonical s) :
    MemoriesCanonical (startKeys n pkt s) := by
  unfold startKeys
  split
  · exact ite_canonical (forEach_canonical (fun _ _ ht => modHerd_canonical (fun _ hx => by exact hx) ht) hs) hs
  · dsimp only
    split
    · exact forEach_canonical (fun _ _ ht => modHerd_canonical (fun _ hx => by exact hx) ht) (drbgDraw_canonical hs)
    · exact canonical_same hs rfl rfl rfl

theorem startTicking_canonical {n : Fin 8} {j : Job} {s : State} (hs : MemoriesCanonical s) :
    MemoriesCanonical (startTicking n j s) := by
  unfold startTicking
  split
  · dsimp only
    split
    · exact hs
    · exact startKeys_canonical (emptyIndexes_canonical ((forEach_canonical (fun _ _ ht => initHerd_canonical ht)
      ((forEach_canonical (fun _ _ ht => modIbex_canonical (fun _ hx => by exact hx) ht) (canonical_same hs rfl rfl rfl))))))
  · dsimp only
    split
    · exact hs
    · exact startKeys_canonical (emptyIndexes_canonical ((forEach_canonical (fun _ _ ht => initHerd_canonical ht)
      ((forEach_canonical (fun _ _ ht => modIbex_canonical (fun _ hx => by exact hx) ht) (canonical_same hs rfl rfl rfl))))))

theorem lateRepeatKey_canonical {n : Fin 8} {pkt : List Byte} {s : State} (hs : MemoriesCanonical s) :
    MemoriesCanonical (lateRepeatKey n pkt s) := by
  unfold lateRepeatKey
  split
  · exact forEach_canonical (fun _ _ ht => modHerd_canonical (fun _ hx => by split <;> exact hx) ht) hs
  · exact hs

theorem takeKeys_canonical {n : Fin 8} {jt : Nat} {s : State} (hs : MemoriesCanonical s) :
    MemoriesCanonical (takeKeys n jt s) := by
  unfold takeKeys
  dsimp only
  split
  · exact hs
  · exact forEach_canonical (fun _ _ ht => modHerd_canonical (fun _ hx => by exact hx) ht) hs

theorem resetOnSwap_canonical {n : Fin 8} {s : State} (hs : MemoriesCanonical s) :
    MemoriesCanonical (resetOnSwap n s) := ite_canonical (emptyIndexes_canonical (canonical_same hs rfl rfl rfl)) hs

theorem takeSwaps_canonical {n : Fin 8} {due : List (Fin 64)} {s : State} (hs : MemoriesCanonical s) :
    MemoriesCanonical (takeSwaps n due s) := by
  unfold takeSwaps
  dsimp only
  split
  · exact forEach_canonical (fun _ _ ht => modHerd_canonical (fun _ hx => applySwap_wf _ hx) ht) hs
  · refine resetOnSwap_canonical ?_
    split
    · exact forEach_canonical (fun _ _ ht => modHerd_canonical (fun _ hx => by exact hx) ht) ((forEach_canonical (fun _ _
      ht => modHerd_canonical (fun _ hx => applySwap_wf _ hx) ht) hs))
    · exact forEach_canonical (fun _ _ ht => modHerd_canonical (fun _ hx => applySwap_wf _ hx) ht) hs

theorem beginSweep_canonical {n : Fin 8} {s : State} (hs : MemoriesCanonical s) : MemoriesCanonical (beginSweep n s) := by
  unfold beginSweep
  extract_lets s1 jt a b s2 s3
  have h1 : MemoriesCanonical s1 := takeSwaps_canonical hs
  have h2 : MemoriesCanonical s2 := forEach_canonical (fun _ _ ht => modHerd_canonical (fun _ hx => by exact hx) ht) h1
  have h3 : MemoriesCanonical s3 := canonical_same h2 rfl rfl rfl
  exact canonical_same (takeKeys_canonical h3) rfl rfl rfl

theorem runClass_canonical {n : Fin 8} {h : Fin 64} {c : Nat} {s : State} (hs : MemoriesCanonical s) :
    MemoriesCanonical (runClass n h c s) := by
  unfold runClass
  split
  · dsimp only
    split
    · exact sendClass_canonical (modHerd_canonical (fun _ hx => updateClass_wf _ _ hx) hs)
    · exact jobError_canonical hs
  · dsimp only
    split
    · exact sendClass_canonical (modHerd_canonical (fun _ hx => updateClass_wf _ _ hx) hs)
    · exact hs

theorem startTile_canonical {n : Fin 8} {h : Fin 64} {s : State} (hs : MemoriesCanonical s) :
    MemoriesCanonical (startTile n h s) :=
  ite_canonical (runClass_canonical (modHerd_canonical (fun _ hx => hx) hs)) (modHerd_canonical (fun _ hx => hx) hs)

theorem openSweep_canonical {n : Fin 8} {j : Job} {s : State} (hs : MemoriesCanonical s) :
    MemoriesCanonical (openSweep n j s) := by
  have hkey : MemoriesCanonical (lateRepeatKey n j.pkt s) := lateRepeatKey_canonical hs
  simp only [openSweep]
  generalize lateRepeatKey n j.pkt s = u at hkey ⊢
  split
  · exact hs
  split
  · exact hs
  split
  · exact hs
  split
  · exact hkey
  split
  · exact hkey
  · exact beginSweep_canonical (s := modNoiseRgn n _ u) hkey

@[simp] theorem execSweepStart_canonical {h : Fin 64} {s : State} (hs : MemoriesCanonical s) :
    KeepsCanonical (execSweepStart h s) := by
  unfold execSweepStart
  split
  · exact hs
  · split
    · exact hs
    · extract_lets t s1 x
      have h1 : MemoriesCanonical s1 := ite_canonical (openSweep_canonical hs) hs
      exact ite_keepsCanonical hs (ite_keepsCanonical (ite_canonical (modHerd_canonical (fun _ hx => by exact hx) h1) h1)
        (ite_keepsCanonical h1 (settle_canonical (startTile_canonical h1))))

@[simp] theorem execClassBegin_canonical {h : Fin 64} {s : State} (hs : MemoriesCanonical s) :
    KeepsCanonical (execClassBegin h s) := by
  unfold execClassBegin
  split
  · exact hs
  · dsimp only
    split
    · exact hs
    · split
      · exact ite_keepsCanonical (settle_canonical (runClass_canonical hs)) hs
      · exact ite_keepsCanonical (settle_canonical (runClass_canonical hs)) hs

@[simp] theorem execSweepDone_canonical {h : Fin 64} {cclk : Nat} {s : State} (hs : MemoriesCanonical s) :
    KeepsCanonical (execSweepDone h cclk s) := ite_keepsCanonical (modHerd_canonical (fun _ hx => hx) hs) hs

theorem emitChain_canonical {j : Job} {g t w : Nat} {late skip : Bool} {s : State} (hs : MemoriesCanonical s) :
    MemoriesCanonical (emitChain j g t w late skip s) := by
  unfold emitChain
  extract_lets n ps
  split
  · split
    · split
      · exact hs
      · extract_lets r
        have hr : MemoriesCanonical r.2 := sendPayload_canonical hs
        clear_value r
        exact hr
    · exact hs
  · extract_lets addr r
    have hr : MemoriesCanonical r.2 := sendPayload_canonical hs
    clear_value r
    exact hr

theorem emission_canonical {j : Job} {gs : List Nat} {w : Nat} {late skip : Bool} {s : State} (hs : MemoriesCanonical s) :
    MemoriesCanonical (emission j gs w late skip s) := by
  unfold emission
  split
  · exact hs
  · dsimp only
    split
    · exact forEach_canonical (fun _ _ ht => emitChain_canonical ht) hs
    · exact forEach_canonical (fun _ _ ht => modHerd_canonical (fun _ hx => by exact hx) ht) (forEach_canonical (fun _ _
      ht => emitChain_canonical ht) hs)

@[simp] theorem execHeaderWrite_canonical {r : Fin 8} {chain : Nat} {s : State} (hs : MemoriesCanonical s) :
    KeepsCanonical (execHeaderWrite r chain s) := by
  unfold execHeaderWrite
  split
  · split
    · exact hs
    · exact settle_canonical (modHerd_canonical (fun _ hx => hx) (jobWrite_canonical (ite_canonical (canonical_same hs rfl rfl rfl)
      (jobWrite_canonical (canonical_same hs rfl rfl rfl)))))
  · exact hs

theorem maskedWrite_canonical {n : Fin 8} {g w : Nat} {hd : Part} {ps : List Part} {c : Chain} {s : State}
    (hs : MemoriesCanonical s) : MemoriesCanonical (maskedWrite n g w hd ps c s) :=
  ite_canonical (sendPayload_canonical hs) hs

theorem offerState_canonical {j : Job} {g w : Nat} {hd : Part} {ps : List Part} {c : Chain} {s : State}
    (hs : MemoriesCanonical s) : MemoriesCanonical (offerState j g w hd ps c s) := by
  unfold offerState
  extract_lets n a refused
  have hr : ∀ t, MemoriesCanonical t → MemoriesCanonical (refused t) := fun _ ht => maskedWrite_canonical ht
  split
  · exact hr _ hs
  · split
    · exact hr _ hs
    · exact hr _ (canonical_same hs rfl rfl rfl)
    · extract_lets s1 r
      have h1 : MemoriesCanonical s1 := modHerd_canonical (showRes_wf _ _) (canonical_same hs rfl rfl rfl)
      exact canonical_same (sendPayload_canonical h1) rfl rfl rfl

theorem updateChain_canonical {j : Job} {w g : Nat} {s : State} (hs : MemoriesCanonical s) :
    MemoriesCanonical (updateChain j w g s) := by
  unfold updateChain
  dsimp only
  split
  · exact offerState_canonical hs
  · exact hs
  · exact hs

theorem endWrite_canonical {n : Fin 8} {id : Nat} {s : State} (hs : MemoriesCanonical s) :
    MemoriesCanonical (endWrite n id s) := canonical_same hs rfl rfl rfl

@[simp] theorem execReservoirWriteDone_canonical {r : Fin 8} {chain slot : Nat} {s : State} (hs : MemoriesCanonical s) :
    KeepsCanonical (execReservoirWriteDone r chain slot s) := by
  unfold execReservoirWriteDone
  split
  · exact hs
  · split
    · exact hs
    · extract_lets s1 s2
      have h1 : MemoriesCanonical s1 := endWrite_canonical (canonical_same hs rfl rfl rfl)
      have h2 : MemoriesCanonical s2 := ite_canonical h1 (canonical_same h1 rfl rfl rfl)
      refine settle_canonical ?_
      split
      · exact modHerd_canonical (showRes_wf _ _) h2
      · exact h2

theorem sweepPasses_canonical {n : Fin 8} {j : Job} {s : State} (hs : MemoriesCanonical s) :
    MemoriesCanonical (sweepPasses n j s) :=
  other_canonical (tickJob_canonical (forEach_canonical (fun _ _ ht => modHerd_canonical (fun _ hx => by exact hx) ht)
    (forEach_canonical (fun _ _ ht => updateChain_canonical ht) (emission_canonical
      (forEach_canonical (fun _ _ ht => modHerd_canonical (fun _ hx => by exact hx) ht) (other_canonical hs))))))

theorem sweepOverruns_canonical {n : Fin 8} {j : Job} {s : State} (hs : MemoriesCanonical s) :
    MemoriesCanonical (sweepOverruns n j s) := by
  unfold sweepOverruns
  extract_lets job x s1 s2
  have h2 : MemoriesCanonical s2 := emission_canonical (canonical_same hs rfl rfl rfl)
  clear_value s2
  split
  · exact jobError_canonical (canonical_same h2 rfl rfl rfl)
  · exact canonical_same h2 rfl rfl rfl

@[simp] theorem execOverrunTest_canonical {r : Fin 8} {s : State} (hs : MemoriesCanonical s) :
    KeepsCanonical (execOverrunTest r s) := by
  unfold execOverrunTest
  split
  · exact hs
  · extract_lets t s1
    have h1 : MemoriesCanonical s1 := canonical_same hs rfl rfl rfl
    clear_value s1
    refine ite_keepsCanonical hs (ite_keepsCanonical ?_ (ite_keepsCanonical ?_ ?_))
    · exact canonical_same h1 rfl rfl rfl
    · exact settle_canonical (sweepPasses_canonical h1)
    · exact settle_canonical (sweepOverruns_canonical h1)

theorem swapEvidence_canonical {n : Fin 8} {s : State} (hs : MemoriesCanonical s) :
    MemoriesCanonical (swapEvidence n s) := by
  unfold swapEvidence
  dsimp only
  split
  · exact forEach_canonical (fun _ _ ht => modHerd_canonical (fun _ hx => by exact hx) ht) hs
  · exact takeSwaps_canonical hs

theorem enterTick_canonical {n : Fin 8} {s : State} (hs : MemoriesCanonical s) : MemoriesCanonical (enterTick n s) := by
  unfold enterTick
  extract_lets t s1 out s2 s3 s4
  have h1 : MemoriesCanonical s1 :=
    ite_canonical (forEach_canonical (fun _ _ ht => modHerd_canonical (fun _ hx => by exact hx) ht) hs) hs
  clear_value s1
  have h2 : MemoriesCanonical s2 := ite_canonical (canonical_same h1 rfl rfl rfl) h1
  clear_value s2
  have h4 : MemoriesCanonical s4 := canonical_same h2 rfl rfl rfl
  exact swapEvidence_canonical h4

theorem endNormally_canonical {n : Fin 8} {j : Job} {s : State} (hs : MemoriesCanonical s) :
    MemoriesCanonical (endNormally n j s) := by
  unfold endNormally
  refine settle_canonical ?_
  split
  · split
    · exact modKudu_canonical (fun _ hx => hx) (endTicking_canonical (canonical_same hs rfl rfl rfl))
    · exact endTicking_canonical (canonical_same hs rfl rfl rfl)
  · exact endTicking_canonical (canonical_same hs rfl rfl rfl)

@[simp] theorem execTickingEnd_canonical {r : Fin 8} {s : State} (hs : MemoriesCanonical s) :
    KeepsCanonical (execTickingEnd r s) := by
  unfold execTickingEnd
  split
  · exact ite_keepsCanonical (endNormally_canonical hs) hs
  · exact hs

@[simp] theorem execMergeStart_canonical {r : Fin 8} {s : State} (hs : MemoriesCanonical s) :
    KeepsCanonical (execMergeStart r s) := by
  unfold execMergeStart
  split
  · exact ite_keepsCanonical (modKudu_canonical (fun _ hx => by exact hx) hs) hs
  · exact hs

theorem mergeOutput_canonical {r m : Fin 8} {j : Job} {s : State} (hs : MemoriesCanonical s) :
    MemoriesCanonical (mergeOutput r m j s) := by
  unfold mergeOutput
  extract_lets a cs cfg kept e s1 rest zero s2 s3 head s4
  have hzero : ∀ x n t, MemoriesCanonical t → MemoriesCanonical (zero x n t) := fun _ _ _ ht =>
    ite_canonical ht (jobWrite_canonical ht)
  have h1 : MemoriesCanonical s1 := forEach_canonical
    (fun _ _ ht => ite_canonical ht (jobWrite_canonical (jobRead_canonical (jobWrite_canonical ht)))) hs
  have h3 : MemoriesCanonical s3 := hzero _ _ _ (hzero _ _ _ h1)
  exact ite_canonical h3 (other_canonical (other_canonical (jobWrite_canonical h3)))

@[simp] theorem execMergeComplete_canonical {r : Fin 8} {s : State} (hs : MemoriesCanonical s) :
    KeepsCanonical (execMergeComplete r s) := by
  unfold execMergeComplete
  split
  · split
    · exact settle_canonical (canonical_same (modKudu_canonical (fun _ hx => hx) (mergeOutput_canonical hs)) rfl rfl rfl)
    · exact hs
  · exact hs

/-! ### What the operations and commands of Machine/Plan.lean leave -/

theorem writeImage_canonical {n : Fin 8} {i : Image} {s : State} (hs : MemoriesCanonical s) :
    MemoriesCanonical (writeImage n i s) :=
  canonical_same (forEach_canonical (fun _ _ ht => modHerd_canonical (fun _ hx => by exact hx) ht) (canonical_same hs rfl rfl rfl)) rfl rfl rfl

/-! ### What the operations and commands of Machine/Regions.lean leave -/

theorem maintCommand_canonical {op : Nat} {act : Pkt → State → State} {s : State}
    (hact : ∀ a (u : State), MemoriesCanonical u → MemoriesCanonical (act a u)) (hs : MemoriesCanonical s) :
    KeepsCanonical (maintCommand op act s) := by
  unfold maintCommand
  split
  · exact hs
  · split
    · exact hs
    · split
      · exact finish_canonical hs
      · exact ite_keepsCanonical (finish_canonical hs) (settleMaint_canonical (hact _ _ hs))

theorem freshRegion_canonical {n : Fin 8} {s : State} (hs : MemoriesCanonical s) :
    MemoriesCanonical (freshRegion n s) := by
  unfold freshRegion
  refine forEach_canonical (fun e t ht => ?_) (canonical_same hs rfl rfl rfl)
  split
  · exact modIbex_canonical (fun _ hx => hx) ht
  · exact modCham_canonical (fun _ hx => hx) ht
  · exact ht

theorem claimFrames_canonical {n : Fin 8} {ks : List (Fin 4)} {s : State} (hs : MemoriesCanonical s) :
    MemoriesCanonical (claimFrames n ks s) := other_canonical (other_canonical (memState_canonical hs))

theorem startCreate_canonical {c : Create} {s : State} (hs : MemoriesCanonical s) :
    MemoriesCanonical (startCreate c s) :=
  freshRegion_canonical (mapLinks_canonical (forEach_canonical (fun _ _ ht => other_canonical ht)
    (forEach_canonical (fun _ _ ht => other_canonical ht) (memState_canonical (claimFrames_canonical (other_canonical hs))))))

theorem openMemory_canonical {n : Fin 8} {s : State} (hs : MemoriesCanonical s) : MemoriesCanonical (openMemory n s) := by
  unfold openMemory
  extract_lets c k s1 r l base s2 s3 mask
  have h1 : MemoriesCanonical s1 := drawXts_canonical hs
  have h2 : MemoriesCanonical s2 := canonical_same h1 rfl rfl rfl
  have h3 : MemoriesCanonical s3 := modMem_canonical (fun m hx => physWrite_wf _ _ (dropFrame _ m) (dropFrame_wf _ m hx)) h2
  exact canonical_same h3 rfl rfl rfl

theorem assignCore_canonical {n : Fin 8} {s t : State} (e : assignCore n s = some t) (hs : MemoriesCanonical s) :
    MemoriesCanonical t := by
  simp only [assignCore] at e
  split at e
  · cases e
  · cases e; exact hs

theorem discardQueues_canonical {n : Fin 8} {s : State} (hs : MemoriesCanonical s) :
    MemoriesCanonical (discardQueues n s) := forEach_canonical (fun _ _ ht => by exact ht) hs

theorem startDestroy_canonical {n : Fin 8} {s : State} (hs : MemoriesCanonical s) :
    MemoriesCanonical (startDestroy n s) := beginTeardown_canonical hs

theorem startFlr_canonical {n : Fin 8} {s : State} (hs : MemoriesCanonical s) :
    MemoriesCanonical (startFlr n s) := startDestroy_canonical (canonical_same hs rfl rfl rfl)

theorem maintDone_canonical {p : Pkt} {status : Nat} {s : State} (hs : MemoriesCanonical s) :
    MemoriesCanonical (maintDone p status s) := canonical_same hs rfl rfl rfl

theorem maintStart_canonical {p : Pkt} {s : State} (hs : MemoriesCanonical s) :
    MemoriesCanonical (maintStart p s) := canonical_same hs rfl rfl rfl

@[simp] theorem execRegionCreate_canonical {s : State} (hs : MemoriesCanonical s) : KeepsCanonical (execRegionCreate s) := by
  refine maintCommand_canonical (fun p t ht => ?_) hs
  dsimp only
  split
  · exact maintDone_canonical ht
  · exact maintStart_canonical (other_canonical (startCreate_canonical ht))

theorem creationDone_canonical {n : Fin 8} {s : State} (hs : MemoriesCanonical s) : MemoriesCanonical (creationDone n s) := by
  unfold creationDone
  extract_lets r s1 s2 s3 s4
  have h1 : MemoriesCanonical s1 := forEach_canonical (fun _ _ ht => reloadUnit_canonical ht) hs
  clear_value s1
  have h3 : MemoriesCanonical s3 := canonical_same h1 rfl rfl rfl
  clear_value s3
  have h4 : MemoriesCanonical s4 := ite_canonical h3 (failMaint_canonical h3)
  clear_value s4
  exact ite_canonical (startDestroy_canonical (canonical_same h4 rfl rfl rfl)) (ite_canonical (startFlr_canonical h4) h4)

@[simp] theorem execCreationComplete_canonical {r : Fin 8} {s : State} (hs : MemoriesCanonical s) :
    KeepsCanonical (execCreationComplete r s) := by
  unfold execCreationComplete
  split
  · refine settleMaint_canonical ?_
    split
    · exact creationFails_canonical (openMemory_canonical hs)
    · exact creationDone_canonical (assignCore_canonical ‹_› (openMemory_canonical hs))
  · exact hs

@[simp] theorem execRegionDestroy_canonical {s : State} (hs : MemoriesCanonical s) :
    KeepsCanonical (execRegionDestroy s) :=
      maintCommand_canonical (fun _ _ ht => ite_canonical ht (ite_canonical (canonical_same ht rfl rfl rfl) (startDestroy_canonical ht))) hs

@[simp] theorem execDestroyComplete_canonical {r : Fin 8} {s : State} (hs : MemoriesCanonical s) :
    KeepsCanonical (execDestroyComplete r s) := by
  unfold execDestroyComplete
  extract_lets g pages s1 s2
  have h1 : MemoriesCanonical s1 := discardQueues_canonical (freeRegion_canonical hs)
  have h2 : MemoriesCanonical s2 := canonical_same h1 rfl rfl rfl
  split
  · split
    · split
      · exact settleMaint_canonical (creationFails_canonical h2)
      · exact startCreate_canonical h2
    · refine settleMaint_canonical ?_
      split
      · exact maintDone_canonical h2
      · exact h2
  · exact hs

/-! ### What the operations and commands of Machine/Queues.lean leave -/

@[simp] theorem execDoorbell_canonical {w : View} {i : Fin 33} {data : W64} {stores : List (Nat × Byte)} {s : State}
    (hs : MemoriesCanonical s) :
    KeepsCanonical (execDoorbell w i data stores s) := by
  unfold execDoorbell
  dsimp only
  split
  · exact forEach_canonical (fun _ _ ht => writeHost_canonical ht) hs
  · split
    · exact forEach_canonical (fun _ _ ht => writeHost_canonical ht) hs
    · exact forEach_canonical (fun _ _ ht => writeHost_canonical ht) hs

@[simp] theorem execCconsWrite_canonical {w : View} {i : Fin 33} {v : W32} {s : State} (hs : MemoriesCanonical s) :
    KeepsCanonical (execCconsWrite w i v s) := ite_keepsCanonical hs (settleQueue_canonical hs)

@[simp] theorem execQueueEnable_canonical {w : View} {i : Fin 33} {v : W32} {s : State} (hs : MemoriesCanonical s) :
    KeepsCanonical (execQueueEnable w i v s) := ite_keepsCanonical hs hs

@[simp] theorem execQueueDisable_canonical {w : View} {i : Fin 33} {v : W32} {s : State} (hs : MemoriesCanonical s) :
    KeepsCanonical (execQueueDisable w i v s) := ite_keepsCanonical hs hs

@[simp] theorem execPacketFetch_canonical {i : Fin 33} {s : State} (hs : MemoriesCanonical s) :
    KeepsCanonical (execPacketFetch i s) := by
  unfold execPacketFetch
  split
  · exact hs
  · split
    · exact ite_keepsCanonical hs hs
    · exact ite_keepsCanonical hs (settleQueue_canonical (noteIf_canonical hs))

theorem packetCommand_canonical {i : Fin 33} {op : Nat} {act : Pkt → State → State} {s : State}
    (hact : ∀ a (u : State), MemoriesCanonical u → MemoriesCanonical (act a u)) (hs : MemoriesCanonical s) :
    KeepsCanonical (packetCommand i op act s) := by
  unfold packetCommand
  split
  · exact hs
  · split
    · exact hs
    · split
      · exact finish_canonical (served_canonical hs)
      · exact settleQueue_canonical (hact _ _ (served_canonical hs))

@[simp] theorem execNop_canonical {i : Fin 33} {s : State} (hs : MemoriesCanonical s) :
    KeepsCanonical (execNop i s) := packetCommand_canonical (fun _ _ ht => ht) hs

@[simp] theorem execFenceSignal_canonical {i : Fin 33} {s : State} (hs : MemoriesCanonical s) :
    KeepsCanonical (execFenceSignal i s) := packetCommand_canonical (fun _ _ ht => canonical_same ht rfl rfl rfl) hs

@[simp] theorem execFenceWait_canonical {i : Fin 33} {s : State} (hs : MemoriesCanonical s) :
    KeepsCanonical (execFenceWait i s) := packetCommand_canonical (fun _ _ ht => ht) hs

@[simp] theorem execEventRecord_canonical {i : Fin 33} {s : State} (hs : MemoriesCanonical s) :
    KeepsCanonical (execEventRecord i s) := packetCommand_canonical (fun _ _ ht => canonical_same ht rfl rfl rfl) hs

@[simp] theorem execEventWait_canonical {i : Fin 33} {s : State} (hs : MemoriesCanonical s) :
    KeepsCanonical (execEventWait i s) := packetCommand_canonical (fun _ _ ht => ite_canonical ht ht) hs

@[simp] theorem execQuery_canonical {i : Fin 33} {s : State} (hs : MemoriesCanonical s) :
    KeepsCanonical (execQuery i s) :=
      packetCommand_canonical (fun _ _ ht => canonical_same (noteIf_canonical (writeDev_canonical ht)) rfl rfl rfl) hs

theorem markPacket_canonical {n : Fin 8} {q : Fin 4} {pos : W32} {s : State} (hs : MemoriesCanonical s) :
    MemoriesCanonical (markPacket n q pos s) := dropStaged_canonical (ite_canonical (canonical_same hs rfl rfl rfl) hs)

theorem cancelJob_canonical {k : JobRef} {by_ : PktRef} {s : State} (hs : MemoriesCanonical s) :
    MemoriesCanonical (cancelJob k by_ s) := by
  unfold cancelJob
  split
  · split
    · exact completeJob_canonical hs
    · exact hs
    · exact stopJob_canonical hs
  · exact hs

theorem done_canonical {i : Fin 33} {p : Pkt} {status : Nat} {s : State} (hs : MemoriesCanonical s) :
    MemoriesCanonical (done i p status s) := canonical_same hs rfl rfl rfl

theorem started_canonical {i : Fin 33} {p : Pkt} {s : State} (hs : MemoriesCanonical s) :
    MemoriesCanonical (started i p s) := canonical_same hs rfl rfl rfl

@[simp] theorem execCancel_canonical {i : Fin 33} {s : State} (hs : MemoriesCanonical s) : KeepsCanonical (execCancel i s) := by
  refine packetCommand_canonical (fun p t ht => ?_) hs
  dsimp only
  split
  · exact done_canonical ht
  · exact ite_canonical (done_canonical (markPacket_canonical ht)) (started_canonical (markPacket_canonical ht))
  · exact started_canonical (cancelJob_canonical ht)
  · exact started_canonical (canonical_same ht rfl rfl rfl)

@[simp] theorem execTickConfig_canonical {s : State} (hs : MemoriesCanonical s) :
    KeepsCanonical (execTickConfig s) := maintCommand_canonical (fun _ _ ht => ite_canonical ht ht) hs

/-! ### What the operations and commands of Machine/RunProg.lean leave -/

@[simp] theorem execRun_canonical {i : Fin 33} {s : State} (hs : MemoriesCanonical s) :
    KeepsCanonical (execRun i s) := by
  unfold execRun
  split
  · exact hs
  · split
    · exact hs
    · split
      · exact hs
      · split
        · split
          · exact hs
          · split
            · exact writeImage_canonical hs
            · exact hs
        · split
          · exact ite_keepsCanonical (finish_canonical (noteIf_canonical hs)) hs
          · exact hs

theorem startAttempt_canonical {k : JobRef} {s : State} (hs : MemoriesCanonical s) :
    MemoriesCanonical (startAttempt k s) := by
  unfold startAttempt
  split
  · exact hs
  · exact ite_canonical (startTicking_canonical hs) hs

@[simp] theorem execJobStart_canonical {r : Fin 8} {q : Fin 4} {s : State} (hs : MemoriesCanonical s) :
    KeepsCanonical (execJobStart r q s) := by
  have hserved : MemoriesCanonical (served (qIndex r q) s) := served_canonical hs
  simp only [execJobStart]
  generalize served (qIndex r q) s = u at hserved ⊢
  split
  · exact hs
  · split
    · exact hs
    · split
      · exact hs
      · split
        · exact finish_canonical (dropStaged_canonical hserved)
        · exact settle_canonical (startAttempt_canonical hserved)

theorem cpFault_canonical {k : JobRef} {f : Nat × Nat} {s : State} (hs : MemoriesCanonical s) :
    MemoriesCanonical (cpFault k f s) := memError_canonical hs

theorem operandFault_canonical {k : JobRef} {f : MemFault} {s : State} (hs : MemoriesCanonical s) :
    MemoriesCanonical (operandFault k f s) := by
  unfold operandFault
  split
  · exact jobError_canonical hs
  · exact ite_canonical (memError_canonical hs) (jobError_canonical (latchFault_canonical hs))

theorem wordCommand_canonical {n : Fin 8} {q : Fin 4} {is : Word → Bool} {act : Job → Word → State → State} {s : State}
    (hact : ∀ a b (u : State), MemoriesCanonical u → MemoriesCanonical (act a b u)) (hs : MemoriesCanonical s) :
    KeepsCanonical (wordCommand n q is act s) := by
  unfold wordCommand
  split
  · exact hs
  · split
    · exact hs
    · dsimp only
      split
      · exact settle_canonical (cpFault_canonical (served_canonical hs))
      · split
        · exact settle_canonical (hact _ _ _ (served_canonical hs))
        · exact settle_canonical (jobError_canonical (served_canonical hs))

theorem withAddr_canonical {j : Job} {w : Word} {f : Nat → State → State} {s : State}
    (hf : ∀ a (u : State), MemoriesCanonical u → MemoriesCanonical (f a u)) (hs : MemoriesCanonical s) :
    MemoriesCanonical (withAddr j w f s) := by
  unfold withAddr
  split
  · exact hf _ _ hs
  · exact operandFault_canonical hs

theorem withValue_canonical {j : Job} {w : Word} {f : Nat → State → State} {s : State}
    (hf : ∀ a (u : State), MemoriesCanonical u → MemoriesCanonical (f a u)) (hs : MemoriesCanonical s) :
    MemoriesCanonical (withValue j w f s) := by
  unfold withValue
  split
  · exact hf _ _ hs
  · exact operandFault_canonical hs

theorem endIfFailed_canonical {k : JobRef} {b : List Byte} {s : State} (hs : MemoriesCanonical s) :
    MemoriesCanonical (endIfFailed k b s) := by
  unfold endIfFailed
  split
  · exact ite_canonical (endByDevice_canonical hs) hs
  · exact hs

theorem dispatchDesc_canonical {k : JobRef} {chain : Nat} {b : List Byte} {s : State} (hs : MemoriesCanonical s) :
    MemoriesCanonical (dispatchDesc k chain b s) := endIfFailed_canonical (canonical_same hs rfl rfl rfl)

theorem startChain_canonical {k : JobRef} {a : Nat} {s : State} (hs : MemoriesCanonical s) :
    MemoriesCanonical (startChain k a s).1 := by
  unfold startChain
  split
  · exact jobError_canonical hs
  · dsimp only
    split
    · exact cpFault_canonical hs
    · exact hs
    · split
      · exact jobError_canonical hs
      · exact dispatchDesc_canonical hs

@[simp] theorem execLaunch_canonical {r : Fin 8} {q : Fin 4} {s : State} (hs : MemoriesCanonical s) :
    KeepsCanonical (execLaunch r q s) := by
  refine wordCommand_canonical (fun j _ _ ht => withAddr_canonical (fun a u hu => ?_) ht) hs
  have hc := startChain_canonical (k := j.ref) (a := a) hu
  split
  · rename_i he; rw [he] at hc; split <;> exact hc
  · rename_i he; rwa [he] at hc

@[simp] theorem execChainArm_canonical {r : Fin 8} {q : Fin 4} {s : State} (hs : MemoriesCanonical s) :
    KeepsCanonical (execChainArm r q s) :=
      wordCommand_canonical (fun _ _ _ ht => withAddr_canonical (fun _ _ ht => ite_canonical (jobError_canonical ht)
        (canonical_same ht rfl rfl rfl)) ht) hs

@[simp] theorem execChainFire_canonical {r : Fin 8} {q : Fin 4} {k : Nat} {s : State} (hs : MemoriesCanonical s) :
    KeepsCanonical (execChainFire r q k s) := by
  unfold execChainFire
  dsimp only
  split
  · exact hs
  · split
    · exact hs
    · split
      · exact settle_canonical (startChain_canonical hs)
      · exact settle_canonical (dropArm_canonical (canonical_same hs rfl rfl rfl))

@[simp] theorem execWaitEvent_canonical {r : Fin 8} {q : Fin 4} {s : State} (hs : MemoriesCanonical s) :
    KeepsCanonical (execWaitEvent r q s) := wordCommand_canonical (fun _ _ _ ht => ite_canonical (canonical_same ht rfl rfl rfl) ht) hs

@[simp] theorem execWaitFence_canonical {r : Fin 8} {q : Fin 4} {s : State} (hs : MemoriesCanonical s) :
    KeepsCanonical (execWaitFence r q s) := wordCommand_canonical (fun _ _ _ ht => withValue_canonical (fun _ _ ht => ht) ht) hs

@[simp] theorem execSignalFence_canonical {r : Fin 8} {q : Fin 4} {s : State} (hs : MemoriesCanonical s) :
    KeepsCanonical (execSignalFence r q s) :=
      wordCommand_canonical (fun _ _ _ ht => withValue_canonical (fun _ _ ht => canonical_same ht rfl rfl rfl) ht) hs

@[simp] theorem execSignalEvent_canonical {r : Fin 8} {q : Fin 4} {s : State} (hs : MemoriesCanonical s) :
    KeepsCanonical (execSignalEvent r q s) := wordCommand_canonical (fun _ _ _ ht => canonical_same ht rfl rfl rfl) hs

theorem applyEffect_canonical {k : JobRef} {e : Effect} {s : State} (hs : MemoriesCanonical s) :
    MemoriesCanonical (applyEffect k e s) := by
  unfold applyEffect
  split
  · exact hs
  · exact hs
  · dsimp only
    split
    · exact writeDev_canonical hs
    · exact cpFault_canonical (writeDev_canonical hs)

@[simp] theorem execRecordPoint_canonical {r : Fin 8} {q : Fin 4} {s : State} (hs : MemoriesCanonical s) :
    KeepsCanonical (execRecordPoint r q s) := by
  unfold execRecordPoint
  split
  · exact hs
  · split
    · exact hs
    · exact settle_canonical (applyEffect_canonical hs)

theorem stepOn_canonical {k : JobRef} {s : State} (hs : MemoriesCanonical s) :
    MemoriesCanonical (stepOn k s) := canonical_same hs rfl rfl rfl

theorem jumpTo_canonical {k : JobRef} {t : Nat} {s : State} (hs : MemoriesCanonical s) :
    MemoriesCanonical (jumpTo k t s) := canonical_same hs rfl rfl rfl

@[simp] theorem execIfCmp_canonical {r : Fin 8} {q : Fin 4} {s : State} (hs : MemoriesCanonical s) :
    KeepsCanonical (execIfCmp r q s) := by
  have htest : ∀ (k : JobRef) (t : Nat) (p : Prop) [Decidable p] (u : State), MemoriesCanonical u →
      MemoriesCanonical (if p then jumpTo k t u else stepOn k u) := fun _ _ _ _ _ hu =>
    ite_canonical (jumpTo_canonical hu) (stepOn_canonical hu)
  refine wordCommand_canonical (fun j w t ht => ?_) hs
  split
  · exact htest _ _ _ _ ht
  · refine withAddr_canonical (fun a u hu => ite_canonical (operandFault_canonical hu) ?_) ht
    split
    · exact htest _ _ _ _ hu
    · exact cpFault_canonical hu

@[simp] theorem execLoop_canonical {r : Fin 8} {q : Fin 4} {s : State} (hs : MemoriesCanonical s) :
    KeepsCanonical (execLoop r q s) :=
      wordCommand_canonical (fun _ _ _ ht => withValue_canonical (fun _ _ ht => ite_canonical (canonical_same ht rfl rfl rfl)
        (canonical_same ht rfl rfl rfl)) ht) hs

@[simp] theorem execJump_canonical {r : Fin 8} {q : Fin 4} {s : State} (hs : MemoriesCanonical s) :
    KeepsCanonical (execJump r q s) := wordCommand_canonical (fun _ _ _ ht => ht) hs

@[simp] theorem execLock_canonical {r : Fin 8} {q : Fin 4} {s : State} (hs : MemoriesCanonical s) :
    KeepsCanonical (execLock r q s) := by
  unfold execLock
  refine wordCommand_canonical (fun j w t ht => ?_) hs
  have hwait : MemoriesCanonical (modLock r w.t (fun l => { l with waiters := l.waiters ++ [j.ref] }) t) := modLock_canonical ht
  have hheld : MemoriesCanonical (modLock r w.t (fun l => { l with state := .held, holder := some j.ref }) t) := modLock_canonical ht
  dsimp only
  generalize modLock r w.t (fun l => { l with waiters := l.waiters ++ [j.ref] }) t = u at hwait ⊢
  generalize modLock r w.t (fun l => { l with state := .held, holder := some j.ref }) t = v at hheld ⊢
  split
  · split
    · exact canonical_same ht rfl rfl rfl
    · exact canonical_same hwait rfl rfl rfl
  · exact canonical_same hheld rfl rfl rfl

@[simp] theorem execUnlock_canonical {r : Fin 8} {q : Fin 4} {s : State} (hs : MemoriesCanonical s) :
    KeepsCanonical (execUnlock r q s) :=
      wordCommand_canonical (fun _ _ _ ht => ite_canonical (unlockLock_canonical ht) (jobError_canonical ht)) hs

@[simp] theorem execPreload_canonical {r : Fin 8} {q : Fin 4} {s : State} (hs : MemoriesCanonical s) :
    KeepsCanonical (execPreload r q s) := wordCommand_canonical (fun _ _ _ ht => ite_canonical ht (stopJob_canonical ht)) hs

@[simp] theorem execAtTickWait_canonical {r : Fin 8} {q : Fin 4} {s : State} (hs : MemoriesCanonical s) :
    KeepsCanonical (execAtTickWait r q s) :=
      wordCommand_canonical (fun _ _ _ ht => withValue_canonical (fun _ _ ht => ite_canonical ht ht) ht) hs

@[simp] theorem execAtTickReached_canonical {r : Fin 8} {q : Fin 4} {s : State} (hs : MemoriesCanonical s) :
    KeepsCanonical (execAtTickReached r q s) := by
  unfold execAtTickReached
  dsimp only
  split
  · exact hs
  · exact settle_canonical hs

@[simp] theorem execAtTickArm_canonical {r : Fin 8} {q : Fin 4} {s : State} (hs : MemoriesCanonical s) :
    KeepsCanonical (execAtTickArm r q s) := by
  refine wordCommand_canonical (fun j w t ht => withValue_canonical (fun v u hu => ?_) ht) hs
  extract_lets d n a e s1 s2
  have h1 : MemoriesCanonical s1 := armOutput_canonical hu
  have h2 : MemoriesCanonical s2 := ite_canonical (canonical_same h1 rfl rfl rfl) h1
  split
  · exact cpFault_canonical hu
  · exact ite_canonical (jobError_canonical hu) (stepOn_canonical (canonical_same h2 rfl rfl rfl))

@[simp] theorem execEmitStore_canonical {r : Fin 8} {q : Fin 4} {s : State} (hs : MemoriesCanonical s) :
    KeepsCanonical (execEmitStore r q s) :=
      wordCommand_canonical (fun _ _ _ ht => withAddr_canonical (fun _ _ ht => canonical_same ht rfl rfl rfl) ht) hs

@[simp] theorem execTickStop_canonical {r : Fin 8} {q : Fin 4} {s : State} (hs : MemoriesCanonical s) :
    KeepsCanonical (execTickStop r q s) := wordCommand_canonical (fun _ _ _ ht => (ite_canonical ht ht)) hs

theorem mapPage_canonical {k : JobRef} {v pte : Nat} {s : State} (hs : MemoriesCanonical s) :
    MemoriesCanonical (mapPage k v pte s) := modMem_canonical (fun _ hx => physWrite_wf _ _ _ hx) hs

theorem mapFault_canonical {k : JobRef} {s : State} (hs : MemoriesCanonical s) :
    MemoriesCanonical (mapFault k s) := jobError_canonical hs

@[simp] theorem execMapUnmap_canonical {r : Fin 8} {q : Fin 4} {s : State} (hs : MemoriesCanonical s) :
    KeepsCanonical (execMapUnmap r q s) := wordCommand_canonical (fun _ _ _ ht => mapPage_canonical ht) hs

@[simp] theorem execMapHbm_canonical {r : Fin 8} {q : Fin 4} {s : State} (hs : MemoriesCanonical s) :
    KeepsCanonical (execMapHbm r q s) := by
  unfold execMapHbm
  refine wordCommand_canonical ?_ hs
  intro _ _ _ ht
  dsimp only
  split
  · exact mapPage_canonical (modMem_canonical (fun _ hx => zeroPage_wf _ _ _ _ _ hx) (modMem_canonical (fun _ hx =>
    giveFrame_wf _ _ _ hx) ht))
  · exact mapFault_canonical ht

@[simp] theorem execMapStore_canonical {r : Fin 8} {q : Fin 4} {s : State} (hs : MemoriesCanonical s) :
    KeepsCanonical (execMapStore r q s) := by
  unfold execMapStore
  refine wordCommand_canonical ?_ hs
  intro _ _ _ ht
  refine withValue_canonical ?_ ht
  intro _ _ ht
  split
  · exact mapPage_canonical (modMem_canonical (fun _ hx => zeroPage_wf _ _ _ _ _ hx) ht)
  · exact mapFault_canonical ht

@[simp] theorem execMapHost_canonical {r : Fin 8} {q : Fin 4} {s : State} (hs : MemoriesCanonical s) :
    KeepsCanonical (execMapHost r q s) :=
      wordCommand_canonical (fun _ _ _ ht => withValue_canonical (fun _ _ ht => ite_canonical (mapPage_canonical ht)
        (mapFault_canonical ht)) ht) hs

@[simp] theorem execEndJob_canonical {r : Fin 8} {q : Fin 4} {s : State} (hs : MemoriesCanonical s) :
    KeepsCanonical (execEndJob r q s) := wordCommand_canonical (fun _ _ _ ht => ht) hs

/-! ### What the operations and commands of Machine/Engines.lean leave -/

theorem readNext_canonical {e : Eng} {d : Desc} {s : State} (hs : MemoriesCanonical s) :
    MemoriesCanonical (readNext e d s).2 := by
  unfold readNext
  split
  · exact hs
  · split
    · exact hs
    · dsimp only
      split
      · exact latchFault_canonical hs
      · exact hs

theorem followChain_canonical {e : Eng} {d : Desc} {s : State} (hs : MemoriesCanonical s) :
    MemoriesCanonical (followChain e d s) := by
  unfold followChain
  split
  · exact hs
  · split
    · exact hs
    · split
      · exact forEach_canonical (fun _ _ ht => canonical_same ht rfl rfl rfl) hs
      · exact jobError_canonical hs
      · split
        · exact jobError_canonical hs
        · exact dispatchDesc_canonical hs

theorem completeDesc_canonical {e : Eng} {d : Desc} {s : State} (hs : MemoriesCanonical s) :
    MemoriesCanonical (completeDesc e d s) := settle_canonical (followChain_canonical (ite_canonical (canonical_same hs rfl rfl rfl) hs))

theorem descError_canonical {e : Eng} {d : Desc} {er : Err} {detail : Nat} {s : State} (hs : MemoriesCanonical s) :
    MemoriesCanonical (descError e d er detail s) := settle_canonical (jobError_canonical hs)

theorem descFault_canonical {e : Eng} {d : Desc} {f : Nat × Nat} {s : State} (hs : MemoriesCanonical s) :
    MemoriesCanonical (descFault e d f s) := settle_canonical (memError_canonical hs)

theorem endDesc_canonical {e : Eng} {d : Desc} {f : MemFault} {s : State} (hs : MemoriesCanonical s) :
    MemoriesCanonical (endDesc e d f s) := by
  unfold endDesc
  split
  · exact descFault_canonical hs
  · exact completeDesc_canonical hs

theorem serveTile_canonical {e : Eng} {s : State} (hs : MemoriesCanonical s) :
    MemoriesCanonical (serveTile e s) := ite_canonical (serveHeld_canonical hs) hs

theorem takeQueued_canonical {e : Eng} {d : Desc} {s : State} (hs : MemoriesCanonical s) :
    MemoriesCanonical (takeQueued e d s) := serveTile_canonical (modQueueOf_canonical (modQueueOf_canonical hs))

theorem popQueue_canonical {e : Eng} {s : State} (hs : MemoriesCanonical s) :
    MemoriesCanonical (popQueue e s) := serveTile_canonical (modQueueOf_canonical hs)

@[simp] theorem execEngineDescriptorArrival_canonical {k : Nat} {s : State} (hs : MemoriesCanonical s) :
    KeepsCanonical (execEngineDescriptorArrival k s) := by
  unfold execEngineDescriptorArrival
  split
  · exact hs
  · split
    · exact hs
    · split
      · split
        · exact ite_keepsCanonical (descError_canonical hs) hs
        · exact ite_keepsCanonical (descError_canonical hs) (modQueueOf_canonical hs)
      · split
        · exact ite_keepsCanonical (descError_canonical hs) hs
        · exact ite_keepsCanonical (descError_canonical hs) (modQueueOf_canonical hs)

/-! ### What the operations and commands of Machine/Ibex.lean leave -/

theorem putAcc_canonical {i : Fin 48} {d : Desc} {acc : List W32} {s : State} (hs : MemoriesCanonical s) :
    MemoriesCanonical (putAcc i d acc s) := modIbex_canonical (fun _ hx => memWrite_wf _ _ _ hx) hs

theorem startIbex_canonical {i : Fin 48} {d : Desc} {s : State} (hs : MemoriesCanonical s) :
    MemoriesCanonical (startIbex i d s) := by
  unfold startIbex
  extract_lets e s1 r s2
  have h1 : MemoriesCanonical s1 := modIbex_canonical (fun _ hx => by exact hx) (takeQueued_canonical hs)
  have h2 : MemoriesCanonical s2 := modIbex_canonical (fun _ hx => by exact hx) (readNext_canonical h1)
  split
  · exact descError_canonical (modIbex_canonical (fun _ hx => by exact hx) h1)
  · exact ite_canonical (other_canonical (modIbex_canonical (fun _ hx => by exact hx) (putAcc_canonical h2))) h2

@[simp] theorem execIbexOpStart_canonical {i : Fin 48} {s : State} (hs : MemoriesCanonical s) :
    KeepsCanonical (execIbexOpStart i s) := by
  unfold execIbexOpStart
  split
  · exact ite_keepsCanonical hs hs
  · dsimp only
    split
    · exact hs
    · split
      · exact modIbex_canonical (fun _ hx => hx) hs
      · exact ite_keepsCanonical (startIbex_canonical hs) hs

theorem sendSums_canonical {i : Fin 48} {d : Desc} {acc : List W32} {s : State} (hs : MemoriesCanonical s) :
    MemoriesCanonical (sendSums i d acc s) := by
  unfold sendSums
  split
  · dsimp only
    split
    · split
      · exact modCham_canonical (fun _ hx => hx) (ite_canonical (modIbex_canonical (fun _ hx => hx) hs) hs)
      · exact ite_canonical (modIbex_canonical (fun _ hx => hx) hs) hs
    · exact ite_canonical (modIbex_canonical (fun _ hx => hx) hs) hs
  · dsimp only
    split
    · split
      · exact modCham_canonical (fun _ hx => hx) (ite_canonical hs hs)
      · exact ite_canonical hs hs
    · exact ite_canonical hs hs

theorem finishIbex_canonical {i : Fin 48} {d : Desc} {o : IbexOp} {p : OutPanel} {s : State} (hs : MemoriesCanonical s) :
    MemoriesCanonical (finishIbex i d o p s) :=
  ite_canonical (completeDesc_canonical (serveHeld_canonical (canonical_same hs rfl rfl rfl))) <|
    ite_canonical (completeDesc_canonical (serveHeld_canonical hs)) <|
    ite_canonical (descError_canonical (serveHeld_canonical hs)) (endDesc_canonical (serveHeld_canonical (writeDst_canonical
      hs)))

@[simp] theorem execIbexOpComplete_canonical {i : Fin 48} {s : State} (hs : MemoriesCanonical s) :
    KeepsCanonical (execIbexOpComplete i s) := by
  unfold execIbexOpComplete
  split
  · exact hs
  · extract_lets o dst own acc s1 p
    have h1 : MemoriesCanonical s1 := ite_canonical hs (putAcc_canonical hs)
    exact ite_keepsCanonical hs
      (finishIbex_canonical (modIbex_canonical (fun _ hx => by exact hx) (sendSums_canonical h1)))

/-! ### What the operations and commands of Machine/Kernel.lean leave -/

theorem runCham_canonical {c : Fin 48} {code : List RvStep} {s : State} (hs : MemoriesCanonical s) :
    MemoriesCanonical (runCham c code s).1 := by
  unfold runCham
  have hc : Memory.wf (runCode code (chamCore s c)).1.mem = true := runCode_wf _ _ (hs.2.2.2.1 c).2
  exact canonical_same (modCham_canonical (s := s) (fun _ _ => by exact hc) hs) rfl rfl rfl

theorem runKudu_canonical {m : Fin 8} {h : Fin 16} {code : List RvStep} {s : State} (hs : MemoriesCanonical s) :
    MemoriesCanonical (runKudu m h code s).1 := by
  unfold runKudu
  have hc : Memory.wf (runCode code (kuduCore s m h)).1.mem = true := runCode_wf _ _ (hs.2.2.2.2 m)
  exact canonical_same (modKudu_canonical (s := s) (fun _ _ => by exact hc) hs) rfl rfl rfl

/-! ### What the operations and commands of Machine/Chamois.lean leave -/

theorem drawRandom_canonical {c : Fin 48} {d : Desc} {s : State} (hs : MemoriesCanonical s) :
    MemoriesCanonical (drawRandom c d s) := by
  unfold drawRandom
  split
  · exact modCham_canonical (fun _ hx => memWrite_wf _ _ _ hx) (drbgDraws_canonical hs)
  · exact hs

theorem startCham_canonical {c : Fin 48} {d : Desc} {s : State} (hs : MemoriesCanonical s) :
    MemoriesCanonical (startCham c d s).2 := readNext_canonical (drawRandom_canonical (popQueue_canonical hs))

@[simp] theorem execKernel_canonical {c : Fin 48} {s : State} (hs : MemoriesCanonical s) :
    KeepsCanonical (execKernel c s) := by
  unfold execKernel
  split
  · exact hs
  · exact ite_keepsCanonical hs (modCham_canonical (fun _ hx => hx) (startCham_canonical hs))

theorem kernelTraps_canonical {c : Fin 48} {d : Desc} {t : RvTrap} {s : State} (hs : MemoriesCanonical s) :
    MemoriesCanonical (kernelTraps c d t s) := descError_canonical (modCham_canonical (fun _ hx => hx) hs)

theorem afterCode_canonical {c : Fin 48} {d : Desc} {code : List RvStep} {k : State → State} {s : State}
    (hk : ∀ (u : State), MemoriesCanonical u → MemoriesCanonical (k u)) (hs : MemoriesCanonical s) :
    MemoriesCanonical (afterCode c d code k s) := by
  unfold afterCode
  dsimp only
  split
  · exact kernelTraps_canonical (runCham_canonical hs)
  · exact hk _ (runCham_canonical hs)

@[simp] theorem execKernelDone_canonical {c : Fin 48} {code : List RvStep} {s : State} (hs : MemoriesCanonical s) :
    KeepsCanonical (execKernelDone c code s) := by
  unfold execKernelDone
  split
  · exact hs
  · exact afterCode_canonical (fun _ ht => completeDesc_canonical (modCham_canonical (fun _ hx => hx) ht)) hs

@[simp] theorem execChamoisTrap_canonical {c : Fin 48} {cause : BitVec 8} {tval : W64} {code : List RvStep} {s : State}
    (hs : MemoriesCanonical s) :
    KeepsCanonical (execChamoisTrap c cause tval code s) := by
  unfold execChamoisTrap
  split
  · exact hs
  · exact afterCode_canonical (fun _ ht => kernelTraps_canonical (modCham_canonical (fun _ hx => hx) ht)) hs

theorem moveToTile_canonical {c : Fin 48} {d : Desc} {t : Dst} {data : List Byte} {s : State} (hs : MemoriesCanonical s) :
    MemoriesCanonical (moveToTile c d t data s) := ite_canonical (descError_canonical hs) (writeDst_canonical hs)

theorem moveData_canonical {c : Fin 48} {d : Desc} {m : MoverCmd} {s t : State} (e : moveData c d m s = some t)
    (hs : MemoriesCanonical s) : MemoriesCanonical t := by
  have hbad : ∀ cause u, some (descError (.cham c) d .descriptor cause s) = some u → MemoriesCanonical u := by
    rintro cause u ⟨⟩
    exact descError_canonical hs
  cases m with
  | toTile src lx ly addr len =>
    simp only [moveData] at e
    split at e
    · exact hbad _ _ e
    · split at e <;> cases e
      exact moveToTile_canonical hs
  | fromTile lx ly addr dst len =>
    simp only [moveData] at e
    split at e
    · exact hbad _ _ e
    · repeat' split at e
      all_goals cases e
      · exact descError_canonical hs
      · exact localWrite_canonical hs
      · exact descError_canonical hs
      · exact localWrite_canonical hs
  | toDevice src addr len =>
    simp only [moveData] at e
    split at e
    · exact hbad _ _ e
    · cases e
      exact settle_canonical (jobWrite_canonical hs)
  | fromDevice addr dst len =>
    simp only [moveData] at e
    split at e
    · exact hbad _ _ e
    · cases e
      exact settle_canonical (localWrite_canonical (jobRead_canonical hs))
  | toStaging src bid len =>
    simp only [moveData] at e
    split at e
    · exact hbad _ _ e
    · cases e
      exact canonical_same hs rfl rfl rfl

@[simp] theorem execMoverTransfer_canonical {c : Fin 48} {m : MoverCmd} {code : List RvStep} {s : State}
    (hs : MemoriesCanonical s) : KeepsCanonical (execMoverTransfer c m code s) := by
  unfold execMoverTransfer
  split
  · exact hs
  · have hc := runCham_canonical (c := c) (code := code) hs
    dsimp only
    split
    · exact kernelTraps_canonical hc
    · split
      · exact moveData_canonical ‹_› hc
      · exact hs

@[simp] theorem execMoverSwap_canonical {c : Fin 48} {lx ly : Nat} {buf : Fin 2} {code : List RvStep} {s : State}
    (hs : MemoriesCanonical s) :
    KeepsCanonical (execMoverSwap c lx ly buf code s) := by
  unfold execMoverSwap
  split
  · exact hs
  · refine afterCode_canonical ?_ hs
    intro _ ht
    dsimp only
    split
    · exact descError_canonical ht
    · split
      · exact modHerd_canonical (fun _ hx => hx) ht
      · exact descError_canonical ht

theorem beyondP_canonical {x : Partial} {d : Desc} {s : State} (hs : MemoriesCanonical s) :
    MemoriesCanonical (beyondP x d s) := settle_canonical (jobError_canonical (modIbex_canonical (fun _ hx => hx) hs))

theorem landPartials_canonical {c : Fin 48} {d : Desc} {s : State} (hs : MemoriesCanonical s) :
    MemoriesCanonical (landPartials c d s) :=
  ite_canonical
    (modCham_canonical (fun _ hx => foldl_keeps (fun m => Memory.wf m = true) _ (fun _ _ h => memWrite_wf _ _ _ h) _ _ hx)
      hs) hs

@[simp] theorem execSpillPartial_canonical {c : Fin 48} {k : Nat} {s : State} (hs : MemoriesCanonical s) :
    KeepsCanonical (execSpillPartial c k s) := by
  unfold execSpillPartial
  split
  · exact hs
  · split
    · exact hs
    · dsimp only
      split
      · split
        · exact modCham_canonical (fun _ hx => hx) hs
        · split
          · exact beyondP_canonical (modCham_canonical (fun _ hx => hx) hs)
          · exact landPartials_canonical (modCham_canonical (fun _ hx => hx) hs)
      · exact modCham_canonical (fun _ hx => hx) hs

@[simp] theorem execSpill_canonical {c : Fin 48} {s : State} (hs : MemoriesCanonical s) :
    KeepsCanonical (execSpill c s) := by
  unfold execSpill
  split
  · exact hs
  · dsimp only
    split
    · exact descError_canonical (modCham_canonical (fun _ hx => hx) (startCham_canonical hs))
    · split
      · exact descError_canonical (modCham_canonical (fun _ hx => hx) (startCham_canonical hs))
      · split
        · exact beyondP_canonical (modCham_canonical (fun _ hx => hx) (startCham_canonical hs))
        · split
          · exact modCham_canonical (fun _ hx => hx) (landPartials_canonical hs)
          · unfold finishSpill
            split
            · exact completeDesc_canonical (modCham_canonical (fun _ hx => hx) (startCham_canonical (landPartials_canonical
              hs)))
            · dsimp only
              split
              · exact descError_canonical (modCham_canonical (fun _ hx => hx) (startCham_canonical (landPartials_canonical hs)))
              · exact endDesc_canonical (writeDst_canonical (modCham_canonical (fun _ hx => hx) (startCham_canonical
                (landPartials_canonical hs))))

theorem recombineWork_canonical {c : Fin 48} {d : Desc} {x : Obj} {s : State} (hs : MemoriesCanonical s) :
    MemoriesCanonical (recombineWork c d x s).1 := by
  unfold recombineWork
  extract_lets e b n share len sw yw out w z h
  split
  · exact hs
  · have hu : MemoriesCanonical (useFree 1 s) := canonical_same hs rfl rfl rfl
    have hw : MemoriesCanonical w.1 := writeDev_canonical hu
    split
    · exact hw
    · have hz : MemoriesCanonical z.1 := writeDev_canonical hw
      have hh : MemoriesCanonical h.1 := writeDev_canonical hz
      exact hh

@[simp] theorem execRecombine_canonical {c : Fin 48} {s : State} (hs : MemoriesCanonical s) :
    KeepsCanonical (execRecombine c s) := by
  unfold execRecombine
  split
  · exact hs
  · split
    · exact hs
    · dsimp only
      split
      · exact descFault_canonical (modCham_canonical (fun _ hx => hx) (modCham_canonical (fun _ hx => hx)
        (startCham_canonical hs)))
      · split
        · exact descError_canonical (modCham_canonical (fun _ hx => hx) (modCham_canonical (fun _ hx => hx)
          (startCham_canonical hs)))
        · split
          · exact descError_canonical (modCham_canonical (fun _ hx => hx) (modCham_canonical (fun _ hx => hx)
            (startCham_canonical hs)))
          · exact endDesc_canonical (recombineWork_canonical (modCham_canonical (fun _ hx => hx) (startCham_canonical hs)))

/-! ### What the operations and commands of Machine/PolyEngine.lean leave -/

theorem peWrites_canonical {e : Fin 4} {n : Fin 8} {l : List (Nat × List Byte)} {s : State} (hs : MemoriesCanonical s) :
    MemoriesCanonical (peWrites e n l s).1 := by
  induction l generalizing s with
  | nil => exact hs
  | cons w rest ih =>
    simp only [peWrites]
    split
    · exact writeDev_canonical hs
    · exact ih (writeDev_canonical hs)

theorem peFails_canonical {e : Fin 4} {d : Desc} {f : PeFail} {s : State} (hs : MemoriesCanonical s) :
    MemoriesCanonical (peFails e d f s) := by
  unfold peFails
  split
  · exact descFault_canonical hs
  · exact descError_canonical hs

theorem startPe_canonical {e : Fin 4} {d : Desc} {run : Pres PeRun} {s : State} (hs : MemoriesCanonical s) :
    MemoriesCanonical (startPe e d run s) := by
  unfold startPe
  have h1 : MemoriesCanonical (modPe e (fun x => { x with admitted := false }) (takeQueued (.pe e) d s)) :=
    canonical_same (takeQueued_canonical hs) rfl rfl rfl
  dsimp only
  generalize modPe e (fun x => { x with admitted := false }) (takeQueued (.pe e) d s) = u at h1 ⊢
  split
  · exact peFails_canonical h1
  · rename_i r
    have hw : MemoriesCanonical (peWrites e d.job.r r.first (readNext (.pe e) d u).2).1 :=
      peWrites_canonical (readNext_canonical h1)
    generalize peWrites e d.job.r r.first (readNext (.pe e) d u).2 = w at hw ⊢
    split
    · exact peFails_canonical hw
    · exact canonical_same hw rfl rfl rfl

theorem peStart_canonical {e : Fin 4} {op : Nat} {run : State → Fin 4 → Fin 8 → PeOp → Pres PeRun} {s : State}
    (hs : MemoriesCanonical s) :
    KeepsCanonical (peStart e op run s) := by
  unfold peStart
  split
  · exact hs
  · exact startPe_canonical hs

@[simp] theorem execPsetLoad_canonical {e : Fin 4} {s : State} (hs : MemoriesCanonical s) :
    KeepsCanonical (execPsetLoad e s) := peStart_canonical hs

@[simp] theorem execNtt_canonical {e : Fin 4} {s : State} (hs : MemoriesCanonical s) :
    KeepsCanonical (execNtt e s) := peStart_canonical hs

@[simp] theorem execIntt_canonical {e : Fin 4} {s : State} (hs : MemoriesCanonical s) :
    KeepsCanonical (execIntt e s) := peStart_canonical hs

@[simp] theorem execAdd_canonical {e : Fin 4} {s : State} (hs : MemoriesCanonical s) :
    KeepsCanonical (execAdd e s) := peStart_canonical hs

@[simp] theorem execSub_canonical {e : Fin 4} {s : State} (hs : MemoriesCanonical s) :
    KeepsCanonical (execSub e s) := peStart_canonical hs

@[simp] theorem execMul_canonical {e : Fin 4} {s : State} (hs : MemoriesCanonical s) :
    KeepsCanonical (execMul e s) := peStart_canonical hs

@[simp] theorem execAuto_canonical {e : Fin 4} {s : State} (hs : MemoriesCanonical s) :
    KeepsCanonical (execAuto e s) := peStart_canonical hs

@[simp] theorem execBaseExt_canonical {e : Fin 4} {s : State} (hs : MemoriesCanonical s) :
    KeepsCanonical (execBaseExt e s) := peStart_canonical hs

@[simp] theorem execKeyswitch_canonical {e : Fin 4} {s : State} (hs : MemoriesCanonical s) :
    KeepsCanonical (execKeyswitch e s) := peStart_canonical hs

@[simp] theorem execMask_canonical {e : Fin 4} {s : State} (hs : MemoriesCanonical s) :
    KeepsCanonical (execMask e s) := by
  unfold execMask
  split
  · exact hs
  · split
    · exact hs
    · split
      · exact hs
      · dsimp only
        split
        · exact startPe_canonical (drbgDraw_canonical hs)
        · exact startPe_canonical hs

theorem peCommit_canonical {e : Fin 4} {n : Fin 8} {r : PeResult} {s : State} (hs : MemoriesCanonical s) :
    MemoriesCanonical (peCommit e n r s).1 := by
  unfold peCommit
  split
  · exact hs
  · exact peWrites_canonical hs
  · exact peWrites_canonical hs
  · exact peWrites_canonical hs

@[simp] theorem execPeOpComplete_canonical {e : Fin 4} {s : State} (hs : MemoriesCanonical s) :
    KeepsCanonical (execPeOpComplete e s) := by
  unfold execPeOpComplete
  split
  · dsimp only
    split
    · exact peFails_canonical (peCommit_canonical hs)
    · exact completeDesc_canonical (peCommit_canonical hs)
  · exact hs

@[simp] theorem execPePaceFault_canonical {e : Fin 4} {s : State} (hs : MemoriesCanonical s) :
    KeepsCanonical (execPePaceFault e s) := by
  unfold execPePaceFault
  split
  · exact hs
  · split
    · exact hs
    · refine peFails_canonical ?_
      split
      · exact forEach_canonical (fun _ _ ht => undefDst_canonical ht) hs
      · split
        · exact peCommit_canonical hs
        · exact hs
      · exact peCommit_canonical hs
      · exact hs
      · exact hs

@[simp] theorem execPeOwnerWrite_canonical {secure : Bool} {e : Fin 4} {v : W32} {s : State} (hs : MemoriesCanonical s) :
    KeepsCanonical (execPeOwnerWrite secure e v s) := by
  unfold execPeOwnerWrite
  split
  · exact hs
  · split
    · dsimp only
      split
      · split
        · exact ite_canonical hs (ite_canonical hs (scrubUnit_canonical hs))
        · exact canonical_same hs rfl rfl rfl
      · split
        · exact ite_canonical hs (ite_canonical hs (scrubUnit_canonical hs))
        · exact canonical_same hs rfl rfl rfl
    · dsimp only
      split
      · split
        · exact ite_canonical hs (ite_canonical hs (scrubUnit_canonical hs))
        · exact hs
      · split
        · exact ite_canonical hs (ite_canonical hs (scrubUnit_canonical hs))
        · exact hs

/-! ### What the operations and commands of Machine/Admission.lean leave -/

theorem candidates_canonical {s : State} {c : Candidate} (e : c ∈ candidates s) (hs : MemoriesCanonical s) :
    MemoriesCanonical c.admitted := by
  simp only [candidates, List.mem_append, List.mem_filterMap, Option.mem_toList] at e
  obtain (⟨i, -, e⟩ | ⟨p, -, e⟩) | e := e
  · simp only [ibexCandidate] at e
    split at e
    · cases e
    · split at e
      · cases e
      · split at e <;> cases e
        exact modIbex_canonical (fun _ hx => hx) hs
  · unfold peCandidate at e
    split at e
    · cases e
    · split at e
      · cases e
      · split at e <;> cases e
        exact hs
  · unfold dmaCandidate at e
    split at e <;> cases e
    exact takeQueued_canonical hs

@[simp] theorem execDescriptorAdmission_canonical {s : State} (hs : MemoriesCanonical s) :
    KeepsCanonical (execDescriptorAdmission s) := by
  unfold execDescriptorAdmission
  split
  · exact hs
  · split
    · exact candidates_canonical (oldestFit_mem _ _ ‹_›) hs
    · exact hs

@[simp] theorem execDmaDescriptor_canonical {s : State} (hs : MemoriesCanonical s) :
    KeepsCanonical (execDmaDescriptor s) := by
  unfold execDmaDescriptor
  split
  · exact hs
  · exact readNext_canonical hs

theorem rowTlps_canonical {n : Fin 8} {r : Dst × Dst} {s : State} (hs : MemoriesCanonical s) :
    MemoriesCanonical (rowTlps n r s) := ite_canonical (ite_canonical hs hs) (ite_canonical hs hs)

theorem copyRows_canonical {n : Fin 8} {len : Nat} {l : List (Dst × Dst)} {s : State} (hs : MemoriesCanonical s) :
    MemoriesCanonical (copyRows n len l s).1 := by
  induction l generalizing s with
  | nil => exact hs
  | cons r rest ih =>
    simp only [copyRows]
    split
    · exact hs
    · split
      · exact hs
      · split
        · exact rowTlps_canonical hs
        · split
          · exact writeDst_canonical (rowTlps_canonical hs)
          · exact ih (writeDst_canonical (rowTlps_canonical hs))

@[simp] theorem execDmaComplete_canonical {k : Nat} {s : State} (hs : MemoriesCanonical s) :
    KeepsCanonical (execDmaComplete k s) := by
  unfold execDmaComplete
  split
  · exact hs
  · extract_lets len rows r s1
    have h1 : MemoriesCanonical s1 := canonical_same (copyRows_canonical (canonical_same hs rfl rfl rfl)) rfl rfl rfl
    split
    · exact hs
    · split
      · exact descError_canonical h1
      · exact descFault_canonical h1
      · exact completeDesc_canonical h1

/-! ### What the operations and commands of Machine/Faults.lean leave -/

@[simp] theorem execHangDetected_canonical {r : Fin 8} {q : Fin 4} {s : State} (hs : MemoriesCanonical s) :
    KeepsCanonical (execHangDetected r q s) := by
  unfold execHangDetected
  split
  · exact settle_canonical (jobError_canonical hs)
  · exact hs

theorem attemptEnds_canonical {k : JobRef} {s : State} (hs : MemoriesCanonical s) :
    MemoriesCanonical (attemptEnds k s) := by
  unfold attemptEnds
  split
  · exact hs
  · extract_lets s1 c
    have h1 : MemoriesCanonical s1 := ite_canonical (dropMerge_canonical hs) hs
    exact ite_canonical (completeJob_canonical h1) (ite_canonical (completeJob_canonical h1)
      (ite_canonical (completeJob_canonical h1)
        (other_canonical (purgeJob_canonical (breakLocks_canonical (endDeferred_canonical h1))))))

@[simp] theorem execDrainEnd_canonical {r : Fin 8} {q : Fin 4} {s : State} (hs : MemoriesCanonical s) :
    KeepsCanonical (execDrainEnd r q s) := by
  unfold execDrainEnd
  split
  · exact ite_keepsCanonical hs (settle_canonical (attemptEnds_canonical hs))
  · exact hs

@[simp] theorem execKill_canonical {r : Fin 8} {q : Fin 4} {s : State} (hs : MemoriesCanonical s) :
    KeepsCanonical (execKill r q s) := by
  unfold execKill
  split
  · exact ite_keepsCanonical (settle_canonical (attemptEnds_canonical (killJob_canonical hs))) hs
  · exact hs

theorem copyOut_canonical {n : Fin 8} {l : List (Nat × Nat)} {pa : Nat} {s : State} (hs : MemoriesCanonical s) :
    MemoriesCanonical (copyOut n l pa s).1 := by
  induction l generalizing pa s with
  | nil => exact hs
  | cons b rest ih =>
    simp only [copyOut]
    split
    · exact hs
    · exact ih (memoriesCanonical_kept.phys _ _ _ hs)

theorem copyBack_canonical {n : Fin 8} {l : List (Nat × Nat)} {pa : Nat} {s : State} (hs : MemoriesCanonical s) :
    MemoriesCanonical (copyBack n l pa s).1 := by
  induction l generalizing pa s with
  | nil => exact hs
  | cons b rest ih =>
    simp only [copyBack]
    split
    · exact writeDev_canonical hs
    · exact ih (writeDev_canonical hs)

theorem captureFails_canonical {k : JobRef} {f : Nat × Nat} {s : State} (hs : MemoriesCanonical s) :
    MemoriesCanonical (captureFails k f s) := by
  unfold captureFails
  extract_lets id s1 s2
  have h2 : MemoriesCanonical s2 := canonical_same (noteFault_canonical hs) rfl rfl rfl
  split
  · exact h2
  · extract_lets s3 s4
    have h3 : MemoriesCanonical s3 := canonical_same h2 rfl rfl rfl
    have h4 : MemoriesCanonical s4 := ite_canonical (canonical_same h3 rfl rfl rfl) h3
    exact completeJob_canonical h4

@[simp] theorem execCaptureCopyDone_canonical {r : Fin 8} {q : Fin 4} {s : State} (hs : MemoriesCanonical s) :
    KeepsCanonical (execCaptureCopyDone r q s) := by
  unfold execCaptureCopyDone
  split
  · dsimp only
    split
    · exact hs
    · split
      · exact hs
      · split
        · exact copyOut_canonical hs
        · exact settle_canonical (captureFails_canonical (copyOut_canonical hs))
  · exact hs

theorem startAgain_canonical {j : Job} {p : Pkt} {s : State} (hs : MemoriesCanonical s) :
    MemoriesCanonical (startAgain j p s) := by
  unfold startAgain
  split
  · dsimp only
    split
    · exact completeJob_canonical (noteIf_canonical hs)
    · refine startAttempt_canonical ?_
      split
      · exact writeImage_canonical (forEach_canonical (fun _ _ ht => dropStaged_canonical ht) hs)
      · exact forEach_canonical (fun _ _ ht => dropStaged_canonical ht) hs
  · dsimp only
    split
    · exact completeJob_canonical (noteIf_canonical hs)
    · refine startAttempt_canonical ?_
      split
      · exact writeImage_canonical hs
      · exact hs

theorem restartJob_canonical {j : Job} {s : State} (hs : MemoriesCanonical s) :
    MemoriesCanonical (restartJob j s) := by
  unfold restartJob
  dsimp only
  split
  · exact completeJob_canonical hs
  · split
    · refine cpFault_canonical ?_
      split
      · exact copyBack_canonical hs
      · exact hs
    · split
      · refine beginDrain_canonical ?_
        refine startAgain_canonical ?_
        split
        · exact copyBack_canonical hs
        · exact hs
      · split
        · exact copyBack_canonical hs
        · exact hs

@[simp] theorem execRestart_canonical {r : Fin 8} {q : Fin 4} {s : State} (hs : MemoriesCanonical s) :
    KeepsCanonical (execRestart r q s) := by
  unfold execRestart
  split
  · exact settle_canonical (restartJob_canonical hs)
  · exact hs

@[simp] theorem execRegionRecoveryComplete_canonical {r : Fin 8} {s : State} (hs : MemoriesCanonical s) :
    KeepsCanonical (execRegionRecoveryComplete r s) := by
  unfold execRegionRecoveryComplete
  extract_lets g s1 s2
  have h1 : MemoriesCanonical s1 := forEach_canonical (fun _ _ ht => reloadUnit_canonical ht) hs
  have h2 : MemoriesCanonical s2 := ite_canonical (ownSave_canonical h1) h1
  exact ite_keepsCanonical (settle_canonical (canonical_same h2 rfl rfl rfl)) hs

@[simp] theorem execLogClear_canonical {w : View} {log : Fin 9} {s : State} (hs : MemoriesCanonical s) :
    KeepsCanonical (execLogClear w log s) := by
  unfold execLogClear
  split
  · exact hs
  · split
    · split
      · exact hs
      · exact hs
    · exact ite_keepsCanonical hs hs

/-! ### What the operations and commands of Machine/Kudu.lean leave -/

@[simp] theorem execKuduDescriptor_canonical {m : Fin 8} {s : State} (hs : MemoriesCanonical s) :
    KeepsCanonical (execKuduDescriptor m s) := by
  unfold execKuduDescriptor
  split
  · split
    · exact modKudu_canonical (fun _ hx => hx) (readNext_canonical (popQueue_canonical hs))
    · exact hs
  · exact hs

theorem hartTraps_canonical {m : Fin 8} {hart : Fin 16} {d : Desc} {t : RvTrap} {s : State} (hs : MemoriesCanonical s) :
    MemoriesCanonical (hartTraps m hart d t s) := descError_canonical (modKudu_canonical (fun _ hx => hx) hs)

theorem afterHart_canonical {m : Fin 8} {hart : Fin 16} {d : Desc} {code : List RvStep} {k : State → State} {s : State}
    (hk : ∀ (u : State), MemoriesCanonical u → MemoriesCanonical (k u)) (hs : MemoriesCanonical s) :
    MemoriesCanonical (afterHart m hart d code k s) := by
  unfold afterHart
  dsimp only
  split
  · exact hartTraps_canonical (runKudu_canonical hs)
  · exact hk _ (runKudu_canonical hs)

@[simp] theorem execKuduDescriptorComplete_canonical {m : Fin 8} {hart : Fin 16} {code : List RvStep} {s : State}
    (hs : MemoriesCanonical s) :
    KeepsCanonical (execKuduDescriptorComplete m hart code s) := by
  unfold execKuduDescriptorComplete
  split
  · exact hs
  · exact afterHart_canonical (fun _ ht => completeDesc_canonical (modKudu_canonical (fun _ hx => hx) ht)) hs

@[simp] theorem execKuduTrap_canonical {m : Fin 8} {hart : Fin 16} {cause : BitVec 8} {tval : W64} {code : List RvStep}
    {s : State} (hs : MemoriesCanonical s) :
    KeepsCanonical (execKuduTrap m hart cause tval code s) := by
  unfold execKuduTrap
  split
  · exact hs
  · exact afterHart_canonical (fun _ ht => hartTraps_canonical (modKudu_canonical (fun _ hx => hx) ht)) hs

@[simp] theorem execLockstepMismatch_canonical {s : State} (hs : MemoriesCanonical s) :
    KeepsCanonical (execLockstepMismatch s) := ite_keepsCanonical (deviceError_canonical hs) hs

@[simp] theorem execWatchdogExpiry_canonical {cp : Fin 6} {s : State} (hs : MemoriesCanonical s) :
    KeepsCanonical (execWatchdogExpiry cp s) := by
  unfold execWatchdogExpiry
  split
  · dsimp only
    split
    · exact deviceError_canonical (forEach_canonical (fun _ _ ht => regionError_canonical ht) hs)
    · exact hs
  · exact ite_keepsCanonical (forEach_canonical (fun _ _ ht => regionError_canonical ht) hs) hs

/-! ### What the operations and commands of Machine/MemHost.lean leave -/

theorem performRequest_canonical {tile : Fin 24} {m : MemReq} {s : State} (hs : MemoriesCanonical s) :
    MemoriesCanonical (performRequest tile m s) := by
  unfold performRequest
  split
  · split
    · dsimp only
      split
      · exact writeDev_canonical hs
      · split
        · exact settle_canonical (memError_canonical (writeDev_canonical hs))
        · exact noteIf_canonical (writeDev_canonical hs)
    · dsimp only
      split
      · exact canonical_same hs rfl rfl rfl
      · split
        · exact settle_canonical (memError_canonical (canonical_same hs rfl rfl rfl))
        · exact noteIf_canonical (canonical_same hs rfl rfl rfl)
  · split
    · dsimp only
      split
      · exact writeDev_canonical hs
      · split
        · exact settle_canonical (memError_canonical (writeDev_canonical hs))
        · exact noteIf_canonical (writeDev_canonical hs)
    · dsimp only
      split
      · exact hs
      · split
        · exact settle_canonical (memError_canonical hs)
        · exact noteIf_canonical hs

theorem spoilTag_canonical {p : Option Place} {s : State} (hs : MemoriesCanonical s) :
    MemoriesCanonical (spoilTag p s) := by
  unfold spoilTag
  split
  · exact modMem_canonical (fun _ hx => physWrite_wf _ _ _ hx) hs
  · exact hs

theorem lineLost_canonical {k : Fin 4} {m : MemReq} {s : State} (hs : MemoriesCanonical s) :
    MemoriesCanonical (lineLost k m s) :=
  deviceError_canonical (canonical_same (ite_canonical (canonical_same hs rfl rfl rfl) hs) rfl rfl rfl)

@[simp] theorem execMemoryRequest_canonical {m : MemReq} {s : State} (hs : MemoriesCanonical s) :
    KeepsCanonical (execMemoryRequest m s) := by
  unfold execMemoryRequest
  extract_lets tile
  split
  · exact performRequest_canonical (spoilTag_canonical hs)
  · exact performRequest_canonical (canonical_same hs rfl rfl rfl)
  · exact lineLost_canonical hs
  · exact performRequest_canonical hs

@[simp] theorem execTranslationMissFill_canonical {tile : Fin 24} {ctx : Fin 9} {v drop : Nat} {s : State}
    (hs : MemoriesCanonical s) :
    KeepsCanonical (execTranslationMissFill tile ctx v drop s) := by
  unfold execTranslationMissFill
  unfold cacheEntry
  dsimp only
  split
  · exact ite_canonical hs (modMem_canonical (fun _ hx => hx) hs)
  · split
    · split
      · exact modMem_canonical (fun _ hx => hx) hs
      · exact modMem_canonical (fun _ hx => hx) (modMem_canonical (fun _ hx => hx) hs)
    · split
      · exact modMem_canonical (fun _ hx => hx) hs
      · exact modMem_canonical (fun _ hx => hx) (modMem_canonical (fun _ hx => hx) hs)

@[simp] theorem execMemInv_canonical {v : W32} {s : State} (hs : MemoriesCanonical s) :
    KeepsCanonical (execMemInv v s) := ite_keepsCanonical hs hs

@[simp] theorem execMemFrameOwnWrite_canonical {secure : Bool} {v : W32} {s : State} (hs : MemoriesCanonical s) :
    KeepsCanonical (execMemFrameOwnWrite secure v s) :=
      ite_keepsCanonical (modMem_canonical (fun _ hx => giveFrame_wf _ _ _ hx) hs) hs

theorem bar4Reads_canonical {l : List (Nat × Nat)} {s : State} (hs : MemoriesCanonical s) :
    MemoriesCanonical (bar4Reads l s).2.2 := by
  induction l generalizing s with
  | nil => exact hs
  | cons p rest ih =>
    simp only [bar4Reads]
    split
    · exact ih (latchFault_canonical hs)
    · exact ih hs

theorem bar4Writes_canonical {l : List (Nat × Nat)} {data : List Byte} {s : State} (hs : MemoriesCanonical s) :
    MemoriesCanonical (bar4Writes l data s) := by
  induction l generalizing data s with
  | nil => exact hs
  | cons p rest ih =>
    simp only [bar4Writes]
    refine ih ?_
    split
    · exact latchFault_canonical hs
    · exact writePlace_canonical hs

@[simp] theorem execBar4Access_canonical {o : Nat} {a : HostAccess} {s : State} (hs : MemoriesCanonical s) :
    KeepsCanonical (execBar4Access o a s) := by
  unfold execBar4Access
  split
  · exact hs
  · split
    · exact bar4Writes_canonical hs
    · exact bar4Reads_canonical hs

@[simp] theorem execPowerStateChange_canonical {fn : Fin 9} {d3 : Bool} {s : State} (hs : MemoriesCanonical s) :
    KeepsCanonical (execPowerStateChange fn d3 s) := hs

@[simp] theorem execConfigurationWrite_canonical {c : CfgWrite} {s : State} (hs : MemoriesCanonical s) :
    KeepsCanonical (execConfigurationWrite c s) := by
  unfold execConfigurationWrite
  split
  · exact ite_canonical hs (tdiError_canonical hs)
  · exact ite_canonical hs (tdiError_canonical hs)
  · exact ite_canonical hs (ite_canonical (modMem_canonical (fun _ hx => hx) hs) hs)
  · exact hs
  · exact ite_keepsCanonical hs hs

@[simp] theorem execVfFlr_canonical {r : Fin 8} {s : State} (hs : MemoriesCanonical s) :
    KeepsCanonical (execVfFlr r s) := by
  have htdi : MemoriesCanonical (tdiError r s) := tdiError_canonical hs
  simp only [execVfFlr]
  generalize tdiError r s = u at htdi ⊢
  refine ite_keepsCanonical ?_ (ite_keepsCanonical ?_ ?_)
  · exact canonical_same htdi rfl rfl rfl
  · exact canonical_same htdi rfl rfl rfl
  · exact startFlr_canonical (canonical_same htdi rfl rfl rfl)

/-! ### What the operations and commands of Machine/Firmware.lean leave -/

@[simp] theorem execFwStage_canonical {s : State} (hs : MemoriesCanonical s) : KeepsCanonical (execFwStage s) := by
  refine maintCommand_canonical (fun p t ht => ?_) hs
  extract_lets size r s1
  have h1 : MemoriesCanonical s1 := latchIf_canonical ht
  exact ite_canonical (maintDone_canonical ht)
    (ite_canonical (maintStart_canonical (canonical_same h1 rfl rfl rfl)) (maintDone_canonical h1))

theorem stagingEnds_canonical {s : State} (hs : MemoriesCanonical s) :
    MemoriesCanonical (stagingEnds s) := by
  unfold stagingEnds
  split
  · exact hs
  · dsimp only
    split
    · exact ite_canonical (settleMaint_canonical (canonical_same hs rfl rfl rfl)) hs
    · exact hs

/-! ### What the operations and commands of Machine/Startup.lean leave -/

theorem warnAll_canonical {s : State} (hs : MemoriesCanonical s) :
    MemoriesCanonical (warnAll s) := withdraw_canonical (forEach_canonical (fun _ _ ht => scrubAll_canonical ht) hs)

theorem resetState_canonical (warm aux : Bool) (cause : ResetCause) {s : State} (hs : MemoriesCanonical s) :
    MemoriesCanonical (resetState warm cause aux s) :=
  ⟨rfl, hs.2.1, fun h => by simp [resetState, State.reset, HerdTile.reset],
    fun i => by simp [resetState, State.reset, Ibex.reset, Cham.reset], fun m => by simp [resetState, State.reset, Kudu.reset]⟩

@[simp] theorem execWarmReset_canonical {aux : Bool} {s : State} (hs : MemoriesCanonical s) :
    KeepsCanonical (execWarmReset aux s) := by
  unfold execWarmReset
  extract_lets s1
  have h1 : MemoriesCanonical s1 := resetState_canonical _ _ _ (warnAll_canonical hs)
  exact ite_keepsCanonical (canonical_same h1 rfl rfl rfl) hs

@[simp] theorem execPerstDeassertion_canonical {speed width : Nat} {s : State} (hs : MemoriesCanonical s) :
    KeepsCanonical (execPerstDeassertion speed width s) := ite_canonical (modMem_canonical (fun _ hx => hx) hs) hs

theorem stageRom_canonical {kat : Bool} {s : State} (hs : MemoriesCanonical s) :
    MemoriesCanonical (stageRom kat s) := ite_canonical hs (noiseFail_canonical hs)

theorem stageVerify_canonical {ok : Bool} {s : State} (hs : MemoriesCanonical s) :
    MemoriesCanonical (stageVerify ok s) :=
      ite_canonical (canonical_same hs rfl rfl rfl) (ite_canonical (ite_canonical (canonical_same hs rfl rfl rfl) hs) hs)

theorem stageHbm_canonical {ok : Bool} {ms : Nat} {s : State} (hs : MemoriesCanonical s) :
    MemoriesCanonical (stageHbm ok ms s) := ite_canonical (canonical_same hs rfl rfl rfl) hs

theorem commitTrial_canonical {s : State} (hs : MemoriesCanonical s) :
    MemoriesCanonical (commitTrial s) := ite_canonical hs hs

theorem stageNormal_canonical {cores : BitVec 6} {s : State} (hs : MemoriesCanonical s) :
    MemoriesCanonical (stageNormal cores s) := by
  unfold stageNormal
  exact commitTrial_canonical (canonical_of_memories hs rfl rfl rfl rfl rfl rfl)

@[simp] theorem execStartupStageComplete_canonical {ok : Bool} {ms : Nat} {cores : BitVec 6} {kat : Bool} {s : State}
    (hs : MemoriesCanonical s) :
    KeepsCanonical (execStartupStageComplete ok ms cores kat s) := by
  unfold execStartupStageComplete
  split
  · exact hs
  · split
    · exact hs
    · exact stageRom_canonical hs
    · exact stageVerify_canonical hs
    · exact stageHbm_canonical hs
    · exact canonical_same hs rfl rfl rfl
    · exact ite_keepsCanonical hs (canonical_same hs rfl rfl rfl)
    · exact stageNormal_canonical hs
    · exact hs
    · exact hs

theorem retire_canonical {n : Fin 8} {s : State} (hs : MemoriesCanonical s) :
    MemoriesCanonical (retire n s) := by
  unfold retire
  split
  · exact hs
  · extract_lets s1
    have h1 : MemoriesCanonical s1 := ite_canonical hs (beginTeardown_canonical hs)
    clear_value s1
    have hfree := freeRegion_canonical (n := n) h1
    generalize freeRegion n s1 = u at hfree ⊢
    exact canonical_same hfree rfl rfl rfl

@[simp] theorem execPfFlr_canonical {s : State} (hs : MemoriesCanonical s) : KeepsCanonical (execPfFlr s) := by
  have hret : MemoriesCanonical (clearDevErrors (discardAll (forEach (allFin 8) retire s))) :=
    memState_canonical (other_canonical (forEach_canonical (fun _ _ ht => retire_canonical ht) hs))
  exact ite_keepsCanonical hs (other_canonical (other_canonical (memPcie_canonical hret)))

/-! ### What the operations and commands of Machine/Governor.lean leave -/

@[simp] theorem execPowerLimitExceeded_canonical {m : PowerAvg} {s : State} (hs : MemoriesCanonical s) :
    KeepsCanonical (execPowerLimitExceeded m s) := ite_keepsCanonical (forEach_canonical (fun _ _ ht => by exact ht) hs) hs

@[simp] theorem execAdmitHoldClear_canonical {m : PowerAvg} {s : State} (hs : MemoriesCanonical s) :
    KeepsCanonical (execAdmitHoldClear m s) := hs

@[simp] theorem execGateWrite_canonical {secure : Bool} {v : W32} {s : State} (hs : MemoriesCanonical s) :
    KeepsCanonical (execGateWrite secure v s) := by
  unfold execGateWrite
  split
  · exact ite_keepsCanonical (ite_canonical hs (canonical_same hs rfl rfl rfl)) hs
  · split
    · exact hs
    · exact ite_keepsCanonical hs (ite_keepsCanonical hs (ite_canonical hs (canonical_same hs rfl rfl rfl)))

@[simp] theorem execDutyUpdate_canonical {tj : List (Nat × Int)} {s : State} (hs : MemoriesCanonical s) :
    KeepsCanonical (execDutyUpdate tj s) := by
  unfold execDutyUpdate
  split
  · exact canonical_same hs rfl rfl rfl
  · exact hs

theorem powerUnit_canonical {e : Eng} {s : State} (hs : MemoriesCanonical s) :
    MemoriesCanonical (powerUnit e s) := by
  unfold powerUnit
  dsimp only
  split
  · exact reloadUnit_canonical (clearUnit_canonical (scrubUnit_canonical hs))
  · exact clearUnit_canonical (scrubUnit_canonical hs)

@[simp] theorem execTileCooled_canonical {x y : Nat} {tj : ℤ} {s : State} (hs : MemoriesCanonical s) :
    KeepsCanonical (execTileCooled x y tj s) := by
  unfold execTileCooled
  split
  · exact ite_keepsCanonical (powerUnit_canonical hs) hs
  · exact ite_keepsCanonical hs hs

@[simp] theorem execRailFault_canonical {x y : Nat} {s : State} (hs : MemoriesCanonical s) :
    KeepsCanonical (execRailFault x y s) := ite_keepsCanonical (settleAll_canonical (withdraw_canonical hs)) hs

theorem scrubStore_canonical {k : Nat} {s : State} (hs : MemoriesCanonical s) :
    MemoriesCanonical (scrubStore k s) :=
      forEach_canonical (fun _ _ ht => modMem_canonical (fun _ hx => dropFrame_wf _ _ hx) ht) hs

@[simp] theorem execTilePowerReturn_canonical {x y : Nat} {s : State} (hs : MemoriesCanonical s) :
    KeepsCanonical (execTilePowerReturn x y s) := by
  unfold execTilePowerReturn
  extract_lets t s1
  have h1 : MemoriesCanonical s1 := by
    unfold s1
    split
    · exact powerUnit_canonical hs
    · exact scrubStore_canonical hs
    · exact hs
  exact ite_keepsCanonical (canonical_same h1 rfl rfl rfl) hs

/-! ### What the operations and commands of Machine/Pennant.lean leave -/

@[simp] theorem execReferenceEvent_canonical {e : RefEvent} {s : State} (hs : MemoriesCanonical s) :
    KeepsCanonical (execReferenceEvent e s) := by
  unfold execReferenceEvent
  dsimp only
  split
  · exact hs
  · split
    · split
      · exact ite_keepsCanonical hs hs
      · exact hs
    · exact ite_keepsCanonical hs hs
    · exact hs

@[simp] theorem execMissedReferenceEvent_canonical {d : ℤ} {s : State} (hs : MemoriesCanonical s) :
    KeepsCanonical (execMissedReferenceEvent d s) := by
  unfold execMissedReferenceEvent
  dsimp only
  split
  · exact hs
  · split
    · exact ite_keepsCanonical hs hs
    · exact ite_keepsCanonical hs hs
    · exact hs

@[simp] theorem execTickCtrlWrite_canonical {v : W32} {s : State} (hs : MemoriesCanonical s) :
    KeepsCanonical (execTickCtrlWrite v s) := ite_keepsCanonical hs hs

@[simp] theorem execTickInWrite_canonical {ofs : Bool} {v : W32} {s : State} (hs : MemoriesCanonical s) :
    KeepsCanonical (execTickInWrite ofs v s) := ite_keepsCanonical hs hs

@[simp] theorem execTnLatchRead_canonical {w : View} {wide : Bool} {s : State} (hs : MemoriesCanonical s) :
    KeepsCanonical (execTnLatchRead w wide s) := ite_keepsCanonical (canonical_same hs rfl rfl rfl) (missRead_canonical hs)

@[simp] theorem execSlackRead_canonical {w : View} {r : Fin 8} {s : State} (hs : MemoriesCanonical s) :
    KeepsCanonical (execSlackRead w r s) := ite_keepsCanonical (canonical_same hs rfl rfl rfl) (missRead_canonical hs)

/-! ### What the operations and commands of Machine/Ring.lean leave -/

@[simp] theorem execRetryTimeout_canonical {p : Fin 2} {s : State} (hs : MemoriesCanonical s) :
    KeepsCanonical (execRetryTimeout p s) := ite_keepsCanonical hs hs

theorem electLead_canonical {s : State} (hs : MemoriesCanonical s) :
    MemoriesCanonical (electLead s) := ite_canonical (ite_canonical (canonical_same hs rfl rfl rfl) hs) hs

theorem memberMarker_canonical {p : Fin 2} {m : Marker} {s : State} (hs : MemoriesCanonical s) :
    MemoriesCanonical (memberMarker p m s) := by
  unfold memberMarker
  extract_lets s1 s2 fromRef s3 s4
  have h1 : MemoriesCanonical s1 :=
    ite_canonical (ite_canonical (canonical_same (canonical_same hs rfl rfl rfl) rfl rfl rfl) (canonical_same hs rfl rfl rfl)) hs
  have h2 : MemoriesCanonical s2 := canonical_same h1 rfl rfl rfl
  have h3 : MemoriesCanonical s3 := ite_canonical (canonical_same h2 rfl rfl rfl) h2
  have h4 : MemoriesCanonical s4 := ite_canonical (canonical_same h3 rfl rfl rfl) h3
  exact ite_canonical (ite_canonical (canonical_same (canonical_same h4 rfl rfl rfl) rfl rfl rfl) (canonical_same h4 rfl rfl rfl)) h4

@[simp] theorem execMarkerArrival_canonical {p : Fin 2} {word : List Byte} {cclk : Nat} {s : State} (hs : MemoriesCanonical s) :
    KeepsCanonical (execMarkerArrival p word cclk s) := by
  unfold execMarkerArrival
  split
  · exact hs
  · split
    · exact hs
    · extract_lets s1
      have h1 : MemoriesCanonical s1 := canonical_same hs rfl rfl rfl
      exact ite_keepsCanonical (canonical_same h1 rfl rfl rfl) (ite_keepsCanonical (memberMarker_canonical h1) h1)

@[simp] theorem execPortDown_canonical {p : Fin 2} {s : State} (hs : MemoriesCanonical s) :
    KeepsCanonical (execPortDown p s) := by
  unfold execPortDown
  dsimp only
  split
  · exact electLead_canonical (ite_canonical (canonical_same hs rfl rfl rfl) (canonical_same hs rfl rfl rfl))
  · exact hs

@[simp] theorem execPortRetrain_canonical {p : Fin 2} {s : State} (hs : MemoriesCanonical s) :
    KeepsCanonical (execPortRetrain p s) := ite_keepsCanonical hs hs

theorem stageFlit_canonical {n : Fin 8} {f payload : List Byte} {s : State} (hs : MemoriesCanonical s) :
    MemoriesCanonical (stageFlit n f payload s) := by
  unfold stageFlit
  split
  · exact hs
  · exact hs

theorem receiveFlit_canonical {p : Fin 2} {f : List Byte} {s : State} (hs : MemoriesCanonical s) :
    MemoriesCanonical (receiveFlit p f s) := by
  unfold receiveFlit
  split
  · exact hs
  · split
    · exact hs
    · split
      · exact stageFlit_canonical hs
      · exact hs

theorem forwardFlit_canonical {p : Fin 2} {f : List Byte} {s : State} (hs : MemoriesCanonical s) :
    MemoriesCanonical (forwardFlit p f s) := ite_canonical (canonical_same hs rfl rfl rfl) (canonical_same hs rfl rfl rfl)

@[simp] theorem execRingFlitArrival_canonical {p : Fin 2} {slot : Nat} {words : List (List Byte)} {s : State}
    (hs : MemoriesCanonical s) : KeepsCanonical (execRingFlitArrival p slot words s) := by
  unfold execRingFlitArrival
  extract_lets s1
  have h1 : MemoriesCanonical s1 := canonical_same hs rfl rfl rfl
  split
  · exact hs
  · split
    · exact canonical_same h1 rfl rfl rfl
    · extract_lets s2 s3
      have h2 : MemoriesCanonical s2 := canonical_same h1 rfl rfl rfl
      have h3 : MemoriesCanonical s3 := canonical_same h2 rfl rfl rfl
      exact ite_keepsCanonical h2 (ite_keepsCanonical (canonical_same h2 rfl rfl rfl)
        (ite_keepsCanonical (forwardFlit_canonical h3) (receiveFlit_canonical h3)))

theorem finishJoin_canonical {status : Nat} {s : State} (hs : MemoriesCanonical s) :
    MemoriesCanonical (finishJoin status s) := by
  unfold finishJoin
  split
  · exact ite_canonical hs hs
  · exact hs

theorem failJoin_canonical {err : Nat} {s : State} (hs : MemoriesCanonical s) :
    MemoriesCanonical (failJoin err s) := finishJoin_canonical hs

@[simp] theorem execRingJoin_canonical {ringTn : Nat} {trained attested : Bool} {meas : BitVec 2} {s : State}
    (hs : MemoriesCanonical s) :
    KeepsCanonical (execRingJoin ringTn trained attested meas s) := by
  unfold execRingJoin
  refine maintCommand_canonical ?_ hs
  intro _ _ ht
  split
  · exact ht
  · split
    · exact ite_canonical (failJoin_canonical ht) (failJoin_canonical ht)
    · exact ite_canonical (failJoin_canonical ht) (canonical_same ht rfl rfl rfl)

@[simp] theorem execRingLeave_canonical {s : State} (hs : MemoriesCanonical s) :
    KeepsCanonical (execRingLeave s) := maintCommand_canonical (fun _ _ ht => ite_canonical ht (canonical_same ht rfl rfl rfl)) hs

@[simp] theorem execRingJoinTimeout_canonical {s : State} (hs : MemoriesCanonical s) :
    KeepsCanonical (execRingJoinTimeout s) := ite_keepsCanonical (settleMaint_canonical (failJoin_canonical hs)) hs

@[simp] theorem execRingFormation_canonical {f : Formation} {s : State} (hs : MemoriesCanonical s) :
    KeepsCanonical (execRingFormation f s) := by
  unfold execRingFormation
  split
  · split
    · exact ite_keepsCanonical hs (ite_keepsCanonical (settleMaint_canonical (failJoin_canonical hs)) hs)
    · split
      · dsimp only
        split
        · exact hs
        · split
          · exact settleMaint_canonical (failJoin_canonical hs)
          · exact settleMaint_canonical (failJoin_canonical hs)
      · split
        · dsimp only
          split
          · exact hs
          · split
            · exact settleMaint_canonical (failJoin_canonical hs)
            · exact settleMaint_canonical (failJoin_canonical hs)
        · dsimp only
          split
          · exact hs
          · split
            · exact settleMaint_canonical (failJoin_canonical hs)
            · exact settleMaint_canonical (finishJoin_canonical (canonical_same hs rfl rfl rfl))
  · split
    · dsimp only
      split
      · exact hs
      · exact ite_keepsCanonical (ite_keepsCanonical (settleMaint_canonical (finishJoin_canonical hs)) hs) hs
    · split
      · dsimp only
        split
        · exact hs
        · split
          · exact ite_keepsCanonical (settleMaint_canonical (finishJoin_canonical hs)) hs
          · exact settleMaint_canonical (failJoin_canonical hs)
      · split
        · dsimp only
          split
          · exact hs
          · split
            · exact ite_keepsCanonical (settleMaint_canonical (finishJoin_canonical hs)) hs
            · exact settleMaint_canonical (failJoin_canonical hs)
        · dsimp only
          split
          · exact hs
          · split
            · exact ite_keepsCanonical (settleMaint_canonical (finishJoin_canonical hs)) hs
            · exact settleMaint_canonical (finishJoin_canonical (canonical_same hs rfl rfl rfl))

theorem newStreamKey_canonical {n : Fin 8} {s : State} (hs : MemoriesCanonical s) :
    MemoriesCanonical (newStreamKey n s).2 := by
  unfold newStreamKey
  split
  · exact drbgDraw_canonical hs
  · exact hs

@[simp] theorem execStreamKeyAdvance_canonical {r : Fin 8} {s : State} (hs : MemoriesCanonical s) :
    KeepsCanonical (execStreamKeyAdvance r s) := by
  unfold execStreamKeyAdvance
  extract_lets x now next
  split
  · exact hs
  · have hnow : MemoriesCanonical now.2 := by
      simp only [now]
      split
      · exact hs
      · exact newStreamKey_canonical hs
    have hnext : MemoriesCanonical next.2 := newStreamKey_canonical hnow
    clear_value next
    exact canonical_same hnext rfl rfl rfl

theorem takeStaged_canonical {s t : State} {n : Fin 8} {bid len : Nat} {data : List Byte}
    (e : takeStaged s n bid len = some (data, t)) (hs : MemoriesCanonical s) : MemoriesCanonical t := by
  simp only [takeStaged] at e
  split at e <;> cases e
  exact hs

theorem sendBlock_canonical {n : Fin 8} {o : RingOut} {data : List Byte} {s : State} (hs : MemoriesCanonical s) :
    MemoriesCanonical (sendBlock n o data s) := by
  unfold sendBlock
  split
  · dsimp only
    split
    · exact hs
    · exact ite_canonical hs (ite_canonical hs (canonical_same hs rfl rfl rfl))
  · dsimp only
    split
    · exact hs
    · exact ite_canonical hs (ite_canonical hs (canonical_same hs rfl rfl rfl))

@[simp] theorem execBlockStaged_canonical {r : Fin 8} {bid : Fin 16} {s : State} (hs : MemoriesCanonical s) :
    KeepsCanonical (execBlockStaged r bid s) := by
  unfold execBlockStaged
  split
  · exact hs
  · split
    · exact hs
    · split
      · exact hs
      · exact sendBlock_canonical (takeStaged_canonical ‹_› hs)

theorem markStale_canonical {n : Fin 8} {e : RingIn} {s : State} (hs : MemoriesCanonical s) :
    MemoriesCanonical (markStale n e s) := by
  unfold markStale
  dsimp only
  split
  · exact modHerd_canonical (fun _ hx => hx) hs
  · exact hs

@[simp] theorem execRingCutoff_canonical {r : Fin 8} {entry : Nat} {s : State} (hs : MemoriesCanonical s) :
    KeepsCanonical (execRingCutoff r entry s) := by
  unfold execRingCutoff
  split
  · split
    · exact hs
    · split
      · exact canonical_same hs rfl rfl rfl
      · exact markStale_canonical hs
  · exact hs

@[simp] theorem execRingRgnRsvWrite_canonical {r : Fin 8} {v : W32} {s : State} (hs : MemoriesCanonical s) :
    KeepsCanonical (execRingRgnRsvWrite r v s) := by
  unfold execRingRgnRsvWrite
  split
  · exact hs
  · split
    · exact ite_keepsCanonical (canonical_same hs rfl rfl rfl) (canonical_same hs rfl rfl rfl)
    · exact ite_keepsCanonical hs hs

/-! ### What the operations and commands of Machine/Boundary.lean leave -/

theorem tickConfigDone_canonical {s : State} (hs : MemoriesCanonical s) :
    MemoriesCanonical (tickConfigDone s) := by
  unfold tickConfigDone
  split
  · exact ite_canonical (settleMaint_canonical hs) hs
  · exact hs

theorem nextTn_canonical {s : State} (hs : MemoriesCanonical s) : MemoriesCanonical (nextTn s) := by
  unfold nextTn
  split
  · exact other_canonical hs
  · dsimp only
    split
    · exact other_canonical hs
    · exact tickConfigDone_canonical (other_canonical (other_canonical (other_canonical hs)))

theorem ticksEnd_canonical {n : Fin 8} {s : State} (hs : MemoriesCanonical s) :
    MemoriesCanonical (ticksEnd n s) := by
  unfold ticksEnd
  split
  · exact hs
  · split
    · exact hs
    · exact ite_canonical (endTicking_canonical hs) (ite_canonical (endNormally_canonical hs) hs)

theorem rampRise_canonical {n : Fin 8} {s : State} (hs : MemoriesCanonical s) :
    MemoriesCanonical (rampRise n s) := ite_canonical hs (ite_canonical hs (ite_canonical hs hs))

theorem rampStep_canonical {s : State} (hs : MemoriesCanonical s) :
    MemoriesCanonical (rampStep s) :=
      forEach_canonical (fun _ _ ht => by exact ht) (forEach_canonical (fun _ _ ht => rampRise_canonical ht) hs)

theorem invalidate_canonical {c : Fin 9} {s : State} (hs : MemoriesCanonical s) :
    MemoriesCanonical (invalidate c s) := by
  unfold invalidate
  dsimp only
  split
  · exact hs
  · exact forEach_canonical (fun _ _ ht => by exact ht) ((forEach_canonical (fun _ _ ht => modMem_canonical (fun _ hx =>
    giveFrame_wf _ _ _ hx) ht) (modMem_canonical (fun _ hx => by exact hx) hs)))

theorem swapOthers_canonical {s : State} (hs : MemoriesCanonical s) : MemoriesCanonical (swapOthers s) :=
  withHerd_canonical hs _ fun h => by
    simp only [Fin.getElem_fin, Vector.getElem_ofFn]
    split
    · exact hs.2.2.1 h
    · exact applySwap_wf _ (hs.2.2.1 h)

theorem recoverLinks_canonical {n : Fin 8} {s : State} (hs : MemoriesCanonical s) : MemoriesCanonical (recoverLinks n s) :=
  ite_canonical hs (other_canonical (clearBuffers_canonical hs))

theorem idleSlots_canonical {n : Fin 8} {s : State} (hs : MemoriesCanonical s) : MemoriesCanonical (idleSlots n s) :=
  ite_canonical hs (mapLinks_canonical hs)

theorem lateFlr_canonical {n : Fin 8} {s : State} (hs : MemoriesCanonical s) : MemoriesCanonical (lateFlr n s) :=
  ite_canonical (startFlr_canonical hs) hs

theorem newTick_canonical {s : State} (hs : MemoriesCanonical s) : MemoriesCanonical (newTick s) := by
  unfold newTick
  extract_lets s1 s2 s3 s4 s5
  have h1 : MemoriesCanonical s1 := nextTn_canonical (other_canonical (other_canonical
    (ite_canonical (other_canonical (other_canonical (other_canonical hs))) (other_canonical hs))))
  have h2 : MemoriesCanonical s2 := other_canonical (forEach_canonical (fun _ _ ht => recoverLinks_canonical ht)
    (forEach_canonical (fun _ _ ht => ticksEnd_canonical ht) (forEach_canonical (fun _ _ ht => idleSlots_canonical ht) h1)))
  have h3 : MemoriesCanonical s3 :=
    forEach_canonical (fun _ _ ht => enterTick_canonical ht) (swapOthers_canonical (rampStep_canonical h2))
  have h4 : MemoriesCanonical s4 := forEach_canonical (fun _ _ ht => invalidate_canonical ht) h3
  have h5 : MemoriesCanonical s5 := forEach_canonical (fun _ _ ht => lateFlr_canonical ht)
    (stagingEnds_canonical (other_canonical (other_canonical (other_canonical h4))))
  exact settleAll_canonical h5

@[simp] theorem execTickBoundary_canonical {s : State} (hs : MemoriesCanonical s) : KeepsCanonical (execTickBoundary s) :=
  ite_keepsCanonical (newTick_canonical hs) hs

/-! ### What the operations and commands of Machine/Secure.lean leave -/

@[simp] theorem execKeyExchange_canonical {mutualAuth : Bool} {reqKey : List Byte} {s : State} (hs : MemoriesCanonical s) :
    KeepsCanonical (execKeyExchange mutualAuth reqKey s) := ite_keepsCanonical hs (ite_keepsCanonical hs hs)

@[simp] theorem execSessionEnd_canonical {sid : Nat} {s : State} (hs : MemoriesCanonical s) :
    KeepsCanonical (execSessionEnd sid s) := hs

@[simp] theorem execGetCertificate_canonical {slot : Nat} {s : State} (hs : MemoriesCanonical s) :
    KeepsCanonical (execGetCertificate slot s) := ite_keepsCanonical hs (ite_keepsCanonical hs hs)

@[simp] theorem execGetMeasurements_canonical {index : Nat} {s : State} (hs : MemoriesCanonical s) :
    KeepsCanonical (execGetMeasurements index s) := ite_keepsCanonical hs (ite_keepsCanonical hs hs)

theorem serveMsg_canonical {op : Byte} {len : Nat} {ok : List Byte → Bool} {sid : Nat} {msg : List Byte}
    {act : Session → Fin 8 → List Byte → State → State} {s : State}
    (hact : ∀ a b c (u : State), MemoriesCanonical u → MemoriesCanonical (act a b c u)) (hs : MemoriesCanonical s) :
    KeepsCanonical (serveMsg op len ok sid msg act s) := by
  unfold serveMsg
  split
  · exact hs
  · split
    · exact hs
    · split
      · exact hs
      · exact ite_keepsCanonical hs (hact _ _ _ _ hs)

@[simp] theorem execSealOffer_canonical {sid : Nat} {msg : List Byte} {s : State} (hs : MemoriesCanonical s) :
    KeepsCanonical (execSealOffer sid msg s) := serveMsg_canonical (fun _ _ _ _ ht => (ite_canonical ht ht)) hs

@[simp] theorem execSealResume_canonical {sid : Nat} {msg : List Byte} {s : State} (hs : MemoriesCanonical s) :
    KeepsCanonical (execSealResume sid msg s) := serveMsg_canonical (fun _ _ _ _ ht => ite_canonical (canonical_same ht rfl rfl rfl) ht) hs

theorem putTagKey_canonical {n : Fin 8} {k : Option (List Byte)} {s : State} (hs : MemoriesCanonical s) :
    MemoriesCanonical (putTagKey n k s) := forEach_canonical (fun _ _ ht => by exact ht) hs

@[simp] theorem execTagKeySet_canonical {sid : Nat} {msg : List Byte} {s : State} (hs : MemoriesCanonical s) :
    KeepsCanonical (execTagKeySet sid msg s) :=
      serveMsg_canonical (fun _ _ _ _ ht => (ite_canonical (putTagKey_canonical ht) ht)) hs

@[simp] theorem execSealQuery_canonical {sid : Nat} {msg : List Byte} {s : State} (hs : MemoriesCanonical s) :
    KeepsCanonical (execSealQuery sid msg s) := serveMsg_canonical (fun _ _ _ _ ht => ht) hs

@[simp] theorem execKeyProg_canonical {sid : Nat} {k : Fin 8} {streamId : Byte} {fn : Fin 9} {keySet : Fin 2} {sub : Fin 3}
    {transmit : Bool} {key : List Byte} {s : State} (hs : MemoriesCanonical s) :
    KeepsCanonical (execKeyProg sid k streamId fn keySet sub transmit key s) :=
      ite_keepsCanonical hs (ite_keepsCanonical hs (canonical_same hs rfl rfl rfl))

@[simp] theorem execKSetGo_canonical {sid : Nat} {k : Fin 8} {keySet : Fin 2} {s : State} (hs : MemoriesCanonical s) :
    KeepsCanonical (execKSetGo sid k keySet s) := ite_keepsCanonical hs (canonical_same hs rfl rfl rfl)

@[simp] theorem execIdeIntegrityFailure_canonical {k : Fin 8} {s : State} (hs : MemoriesCanonical s) :
    KeepsCanonical (execIdeIntegrityFailure k s) :=
      ite_keepsCanonical (forEach_canonical (fun _ _ ht => tdiError_canonical ht) hs) hs

theorem serveTdi_canonical {sid : Nat} {ok : Session → Bool} {code : Byte} {act : State → State} {s : State}
    (hact : ∀ (u : State), MemoriesCanonical u → MemoriesCanonical (act u)) (hs : MemoriesCanonical s) :
    KeepsCanonical (serveTdi sid ok code act s) := by
  unfold serveTdi
  split
  · exact hs
  · exact ite_keepsCanonical hs (ite_keepsCanonical (hact _ hs) hs)

@[simp] theorem execLockInterfaceRequest_canonical {sid : Nat} {r k : Fin 8} {noFwUpdate : Bool} {s : State}
    (hs : MemoriesCanonical s) :
    KeepsCanonical (execLockInterfaceRequest sid r k noFwUpdate s) := serveTdi_canonical (fun _ ht => ht) hs

@[simp] theorem execStartInterfaceRequest_canonical {sid : Nat} {r : Fin 8} {s : State} (hs : MemoriesCanonical s) :
    KeepsCanonical (execStartInterfaceRequest sid r s) := serveTdi_canonical (fun _ ht => setTdi_canonical ht) hs

@[simp] theorem execStopInterfaceRequest_canonical {sid : Nat} {r : Fin 8} {s : State} (hs : MemoriesCanonical s) :
    KeepsCanonical (execStopInterfaceRequest sid r s) := serveTdi_canonical (fun _ ht => (setTdi_canonical ht)) hs

theorem startSeal_canonical {n : Fin 8} {owner : List Byte} {s : State} (hs : MemoriesCanonical s) :
    MemoriesCanonical (startSeal n owner s) := by
  unfold startSeal
  split
  · exact hs
  · exact hs

@[simp] theorem execRegionSeal_canonical {s : State} (hs : MemoriesCanonical s) :
    KeepsCanonical (execRegionSeal s) := by
  unfold execRegionSeal
  refine maintCommand_canonical ?_ hs
  intro _ _ ht
  dsimp only
  split
  · exact ht
  · exact startSeal_canonical ht

theorem layTags_canonical {n : Fin 8} {s : State} (hs : MemoriesCanonical s) :
    MemoriesCanonical (layTags n s) := by
  unfold layTags
  unfold modRgn
  refine forEach_canonical ?_ (forEach_canonical (fun _ _ ht => modMem_canonical (fun _ hx => dropFrame_wf _ _ hx) ht)
    (modMem_canonical (fun _ hx => physWrite_wf _ _ _ hx) hs))
  intro _ _ ht
  split
  · exact modMem_canonical (fun _ hx => zeroFrame_wf _ _ _ hx) ht
  · exact ht

theorem sealMemory_canonical {n : Fin 8} {s : State} (hs : MemoriesCanonical s) : MemoriesCanonical (sealMemory n s) := by
  unfold sealMemory
  extract_lets k i s1 s2
  have hi : MemoriesCanonical i.2 := drbgDraw_canonical (drawXts_canonical hs)
  have h1 : MemoriesCanonical s1 := canonical_same hi rfl rfl rfl
  have h2 : MemoriesCanonical s2 := canonical_same (layTags_canonical h1) rfl rfl rfl
  exact putTagKey_canonical h2

theorem setCtMode_canonical {n : Fin 8} {s : State} (hs : MemoriesCanonical s) :
    MemoriesCanonical (setCtMode n s) := by
  unfold setCtMode
  refine forEach_canonical ?_ hs
  intro _ _ ht
  split
  · exact modCham_canonical (fun _ hx => hx) ht
  · exact ht

theorem lapseOffer_canonical {n : Fin 8} {s : State} (hs : MemoriesCanonical s) :
    MemoriesCanonical (lapseOffer n s) := canonical_same hs rfl rfl rfl

theorem sealDone_canonical {n : Fin 8} {s : State} (hs : MemoriesCanonical s) : MemoriesCanonical (sealDone n s) := by
  unfold sealDone
  extract_lets s1 s2 s3
  have h1 : MemoriesCanonical s1 := ownSave_canonical (setCtMode_canonical (sealMemory_canonical hs))
  have h2 : MemoriesCanonical s2 := other_canonical (lapseOffer_canonical h1)
  have h3 : MemoriesCanonical s3 := failMaint_canonical (other_canonical h2)
  exact ite_canonical (startFlr_canonical h3) h3

@[simp] theorem execSealComplete_canonical {r : Fin 8} {measured : Bool} {s : State} (hs : MemoriesCanonical s) :
    KeepsCanonical (execSealComplete r measured s) :=
  ite_keepsCanonical hs (ite_keepsCanonical (settleAll_canonical (regionError_canonical hs))
    (ite_keepsCanonical (settleMaint_canonical (sealDone_canonical hs)) hs))

/-! ### What the operations and commands of Machine/Stag.lean leave -/

@[simp] theorem execGetState_canonical {s : State} (hs : MemoriesCanonical s) :
    KeepsCanonical (execGetState s) := hs

@[simp] theorem execWriteBank_canonical {ofs : Nat} {data : List Byte} {s : State} (hs : MemoriesCanonical s) :
    KeepsCanonical (execWriteBank ofs data s) := ite_keepsCanonical hs hs

@[simp] theorem execPldmSensorRead_canonical {id : Nat} {measured : ℤ} {s : State} (hs : MemoriesCanonical s) :
    KeepsCanonical (execPldmSensorRead id measured s) := ite_keepsCanonical hs hs

@[simp] theorem execSamplePreload_canonical {pins : List Bool} {s : State} (hs : MemoriesCanonical s) :
    KeepsCanonical (execSamplePreload pins s) := hs

@[simp] theorem execIdcode_canonical {s : State} (hs : MemoriesCanonical s) :
    KeepsCanonical (execIdcode s) := hs

@[simp] theorem execBypass_canonical {_code : Nat} {s : State} (hs : MemoriesCanonical s) :
    KeepsCanonical (execBypass _code s) := hs

/-! ### What the operations and commands of Machine/Regs.lean leave -/

theorem writeHalyLine_canonical {w : View} {o : Nat} {v : W32} {s : State} (hs : MemoriesCanonical s) :
    MemoriesCanonical (writeHalyLine w o v s) := by
  unfold writeHalyLine
  split
  · dsimp only
    split
    · split
      · exact stateAfter_canonical (execArm_canonical hs) hs
      · exact ite_canonical (stateAfter_canonical (execDisarm_canonical hs) hs) hs
    · exact ite_canonical hs hs
  · exact ite_canonical (stateAfter_canonical (execHalyInCfgWrite_canonical hs) hs) (ite_canonical hs hs)

theorem writeQue_canonical {w : View} {o : Nat} {v : W32} {s : State} (hs : MemoriesCanonical s) :
    MemoriesCanonical (writeQue w o v s) := ite_canonical hs hs

theorem clearFault_canonical {c : Fin 9} {v : Nat} {s : State} (hs : MemoriesCanonical s) :
    MemoriesCanonical (clearFault c v s) := ite_canonical hs hs

theorem writeMem_canonical {o : Nat} {v : W32} {s : State} (hs : MemoriesCanonical s) :
    MemoriesCanonical (writeMem o v s) := by
  unfold writeMem
  split
  · exact stateAfter_canonical (execMemInv_canonical hs) hs
  · split
    · exact modMem_canonical (fun _ hx => hx) hs
    · split
      · exact stateAfter_canonical (execMemFrameOwnWrite_canonical hs) hs
      · split
        · exact modMem_canonical (fun _ hx => hx) hs
        · split
          · exact modMem_canonical (fun _ hx => hx) hs
          · split
            · split
              · exact ite_canonical hs hs
              · exact ite_canonical hs hs
              · exact clearFault_canonical hs
              · exact hs
            · exact hs

theorem writeAnlSel_canonical {pf : Bool} {n : Fin 8} {o v : Nat} {s : State} (hs : MemoriesCanonical s) :
    MemoriesCanonical (writeAnlSel pf n o v s) := by
  unfold writeAnlSel
  split
  · exact hs
  · exact hs
  · exact hs

theorem writeMesh_canonical {o v : Nat} {s : State} (hs : MemoriesCanonical s) :
    MemoriesCanonical (writeMesh o v s) := by
  unfold writeMesh
  split
  · exact canonical_same hs rfl rfl rfl
  · exact canonical_same hs rfl rfl rfl
  · exact hs

theorem writeRim_canonical {o v : Nat} {s : State} (hs : MemoriesCanonical s) :
    MemoriesCanonical (writeRim o v s) := ite_canonical hs hs

theorem writeErr_canonical {pf : Bool} {w : View} {o : Nat} {v : W32} {s : State} (hs : MemoriesCanonical s) :
    MemoriesCanonical (writeErr pf w o v s) := by
  have hc : ∀ log, MemoriesCanonical (stateAfter (execLogClear w log s) s) := fun log =>
    stateAfter_canonical (execLogClear_canonical hs) hs
  refine ite_canonical (ite_canonical (hc _) hs) (ite_canonical ?_ hs)
  dsimp only
  split
  · exact ite_canonical hs hs
  · exact ite_canonical (hc _) hs
  · exact hs

theorem writePwr_canonical {o : Nat} {v : W32} {s : State} (hs : MemoriesCanonical s) :
    MemoriesCanonical (writePwr o v s) := by
  unfold writePwr
  split
  · exact hs
  · exact hs
  · exact stateAfter_canonical (execGateWrite_canonical hs) hs
  · exact hs

theorem writeNoise_canonical {o v : Nat} {s : State} (hs : MemoriesCanonical s) :
    MemoriesCanonical (writeNoise o v s) := by
  unfold writeNoise
  split
  · exact hs
  · exact hs
  · exact hs

theorem writeTick_canonical {o : Nat} {v : W32} {s : State} (hs : MemoriesCanonical s) :
    MemoriesCanonical (writeTick o v s) := by
  unfold writeTick
  split
  · exact stateAfter_canonical (execTickCtrlWrite_canonical hs) hs
  · split
    · exact stateAfter_canonical (execTickInWrite_canonical hs) hs
    · exact ite_canonical (stateAfter_canonical (execTickInWrite_canonical hs) hs) (ite_canonical hs hs)

theorem writeHaly_canonical {o : Nat} {v : W32} {cclk : Nat} {s : State} (hs : MemoriesCanonical s) :
    MemoriesCanonical (writeHaly o v cclk s) := by
  unfold writeHaly
  split
  · exact stateAfter_canonical (execOutEnableWrite_canonical hs) hs
  · split
    · exact stateAfter_canonical (execOutOwnerWrite_canonical hs) hs
    · split
      · exact stateAfter_canonical (execInOwnerWrite_canonical hs) hs
      · exact ite_canonical (writeHalyLine_canonical hs) hs

theorem writePfBlocks_canonical {o : Nat} {v : W32} {cclk : Nat} {s : State} (hs : MemoriesCanonical s) :
    MemoriesCanonical (writePfBlocks o v cclk s) := by
  refine ite_canonical (writeTick_canonical hs) <| ite_canonical (writeHaly_canonical hs) <|
    ite_canonical (writeMesh_canonical hs) <| ite_canonical hs <| ite_canonical (writeRim_canonical hs) <|
    ite_canonical hs <| ite_canonical (writeQue_canonical hs) <| ite_canonical hs <| ite_canonical (writeErr_canonical hs) <|
    ite_canonical (writePwr_canonical hs) <| ite_canonical (writeNoise_canonical hs) <|
    ite_canonical (writeAnlSel_canonical hs) <| ite_canonical (ite_canonical (modHerd_canonical (fun _ hx => hx) hs) hs) <|
    ite_canonical ?_ <| ite_canonical (writeMem_canonical hs) <|
    ite_canonical (stateAfter_canonical (execRingRgnRsvWrite_canonical hs) hs) <| ite_canonical hs <|
    ite_canonical hs hs
  dsimp only
  split
  · exact stateAfter_canonical (execPeOwnerWrite_canonical hs) hs
  · exact hs
  · exact hs

theorem writePf_canonical {o : Nat} {v : W32} {cclk : Nat} {s : State} (hs : MemoriesCanonical s) :
    MemoriesCanonical (writePf o v cclk s) :=
  ite_canonical (ite_canonical (canonical_same hs rfl rfl rfl) hs) (ite_canonical (writePfBlocks_canonical hs) hs)

theorem writeVf_canonical {w : View} {n : Fin 8} {o : Nat} {v : W32} {s : State} (hs : MemoriesCanonical s) :
    MemoriesCanonical (writeVf w n o v s) :=
  ite_canonical hs <| ite_canonical (canonical_same hs rfl rfl rfl) <| ite_canonical (clearFault_canonical hs) <|
    ite_canonical (writeAnlSel_canonical hs) <| ite_canonical (writeErr_canonical hs) <|
    ite_canonical (writeQue_canonical hs) <| ite_canonical (writeHalyLine_canonical hs) <|
    ite_canonical (canonical_same hs rfl rfl rfl) <| ite_canonical (canonical_same hs rfl rfl rfl) hs

theorem regWrite_canonical {w : View} {o : Nat} {v : W32} {cclk : Nat} {s : State} (hs : MemoriesCanonical s) :
    MemoriesCanonical (regWrite w o v cclk s) := by
  unfold regWrite
  split
  · exact writePf_canonical hs
  · exact writeVf_canonical hs

@[simp] theorem execRegisterWrite_canonical {w : View} {off width : Nat} {v : W64} {cclk : Nat} {s : State}
    (hs : MemoriesCanonical s) :
    KeepsCanonical (execRegisterWrite w off width v cclk s) := by
  unfold execRegisterWrite
  split
  · exact regWrite_canonical hs
  · exact ite_keepsCanonical (regWrite_canonical (regWrite_canonical hs)) (ite_keepsCanonical hs trivial)

/-! ### Every command that does not reset the block -/

theorem tripJob_canonical {e : Eng} {k : JobRef} {s : State} (hs : MemoriesCanonical s) :
    MemoriesCanonical (tripJob e k s) := by
  unfold tripJob
  dsimp only
  split
  · exact jobError_canonical hs
  · split
    · exact attemptEnds_canonical (killJob_canonical (jobError_canonical hs))
    · exact jobError_canonical hs

theorem stagApplies_canonical {cause : ResetCause} {aux : Bool} {s : State} (hs : MemoriesCanonical s) :
    MemoriesCanonical (stagApplies cause aux s) := by
  unfold stagApplies
  exact canonical_same (resetState_canonical _ _ _ hs) rfl rfl rfl

@[simp] theorem execThermalTrip_canonical {x y : Nat} {tj : Int} {s : State} (hs : MemoriesCanonical s) :
    KeepsCanonical (execThermalTrip x y tj s) := by
  unfold execThermalTrip
  split
  · exact hs
  · split
    · exact stagApplies_canonical (warnAll_canonical (canonical_same hs rfl rfl rfl))
    · exact settleAll_canonical (canonical_same (forEach_canonical (fun _ _ ht => tripJob_canonical ht)
        (withdraw_canonical (ite_canonical (canonical_same hs rfl rfl rfl) (scrubUnit_canonical (canonical_same hs rfl rfl rfl))))) rfl rfl rfl)

/-! ### Resets -/

theorem loseInput_canonical {s : State} (hs : MemoriesCanonical s) : MemoriesCanonical (loseInput s) := by
  unfold loseInput
  exact canonical_same (withdraw_canonical hs) rfl rfl rfl

@[simp] theorem execColdReset_canonical {aux : Bool} {s : State} (hs : MemoriesCanonical s) :
    KeepsCanonical (execColdReset aux s) := resetState_canonical _ _ _ hs

@[simp] theorem execTrialBootTimeout_canonical {aux : Bool} {s : State} (hs : MemoriesCanonical s) :
    KeepsCanonical (execTrialBootTimeout aux s) := by
  unfold execTrialBootTimeout
  split
  · exact canonical_same (resetState_canonical false aux .stag (canonical_same hs rfl rfl rfl)) rfl rfl rfl
  · exact hs

theorem loseAux_canonical {s : State} (hs : MemoriesCanonical s) : MemoriesCanonical (loseAux s) := by
  unfold loseAux
  exact canonical_same (stagApplies_canonical (loseInput_canonical hs)) rfl rfl rfl

@[simp] theorem execInputPowerLoss_canonical {all : Bool} {s : State} (hs : MemoriesCanonical s) :
    KeepsCanonical (execInputPowerLoss all s) := by
  unfold execInputPowerLoss
  split
  · exact hs
  · split
    · exact canonical_same (resetState_canonical _ _ _ (loseInput_canonical hs)) rfl rfl rfl
    · exact loseAux_canonical hs

@[simp] theorem execAuxPresentChange_canonical {mv : Nat} {a b : Bool} {s : State} (hs : MemoriesCanonical s) :
    KeepsCanonical (execAuxPresentChange mv a b s) := ite_keepsCanonical hs (ite_keepsCanonical (loseAux_canonical hs) hs)

theorem stagResets_canonical {s : State} (hs : MemoriesCanonical s) :
    MemoriesCanonical (stagResets s) := stagApplies_canonical (warnAll_canonical hs)

@[simp] theorem execStagColdReset_canonical {s : State} (hs : MemoriesCanonical s) :
    KeepsCanonical (execStagColdReset s) := canonical_same (stagResets_canonical hs) rfl rfl rfl

@[simp] theorem execCommitBank_canonical {s : State} (hs : MemoriesCanonical s) : KeepsCanonical (execCommitBank s) := by
  unfold execCommitBank
  split
  · exact canonical_same (stagResets_canonical (canonical_same hs rfl rfl rfl)) rfl rfl rfl
  · exact canonical_same hs rfl rfl rfl

theorem holdPins_canonical {t : TestMode} {s : State} (hs : MemoriesCanonical s) : MemoriesCanonical (holdPins t s) := by
  unfold holdPins
  exact canonical_same (resetState_canonical _ _ _ (warnAll_canonical hs)) rfl rfl rfl

@[simp] theorem execExtest_canonical {s : State} (hs : MemoriesCanonical s) :
    KeepsCanonical (execExtest s) := ite_keepsCanonical (holdPins_canonical hs) hs

@[simp] theorem execClamp_canonical {s : State} (hs : MemoriesCanonical s) :
    KeepsCanonical (execClamp s) := ite_keepsCanonical (holdPins_canonical hs) hs

@[simp] theorem execHighz_canonical {s : State} (hs : MemoriesCanonical s) :
    KeepsCanonical (execHighz s) := ite_keepsCanonical (holdPins_canonical hs) hs

/-! ### Every command -/

/-- Whatever command is executed, the memories stay in their canonical form. -/
theorem exec_canonical (c : Instr) {s : State} (hs : MemoriesCanonical s) : KeepsCanonical (exec c s) := by
  cases c <;> simp [exec, hs]

/-- Settles O59: the command at the front of the queue keeps every memory canonical, and an empty queue changes nothing. -/
theorem everyStepKeepsMemoriesCanonical : Obligations.EveryStepKeepsMemoriesCanonical := by
  unfold Obligations.EveryStepKeepsMemoriesCanonical
  intro s t hs hst
  unfold step at hst
  split at hst
  · cases hst
    exact hs
  · rename_i c rest _
    have hk : KeepsCanonical (exec c { s with pending := rest }) := exec_canonical c (other_canonical hs)
    rwa [hst] at hk

end Sys2Proof.Machine
end

section
/-!
PROOFS. The DMA engine (10_memory_host_link.md R229): a descriptor starts, the rows it copies one after another, and its last write.
-/
namespace Sys2Proof.Machine

@[simp] theorem latchFault_jobs (c : Fin 9) (addr cause : Nat) (s : State) : (latchFault c addr cause s).jobs = s.jobs := by
  unfold latchFault
  split <;> rfl

@[simp] theorem latchFault_eng (c : Fin 9) (addr cause : Nat) (s : State) : (latchFault c addr cause s).eng = s.eng := by
  unfold latchFault
  split <;> rfl

/-- Fetching a descriptor's successor keeps the descriptor's own bytes and job, and the engine's and the jobs' state. -/
theorem readNext_keeps (e : Eng) (d : Desc) (s : State) :
    (readNext e d s).1.bytes = d.bytes ∧ (readNext e d s).1.job = d.job ∧ (readNext e d s).2.eng = s.eng ∧
      (readNext e d s).2.jobs = s.jobs := by
  unfold readNext
  split
  · exact ⟨rfl, rfl, rfl, rfl⟩
  · split
    · exact ⟨rfl, rfl, rfl, rfl⟩
    · dsimp only
      split
      · exact ⟨rfl, rfl, latchFault_eng _ _ _ _, latchFault_jobs _ _ _ _⟩
      · exact ⟨rfl, rfl, rfl, rfl⟩

theorem execDmaDescriptor_starts {s : State} {d : Desc} (h : s.eng.dmaAdmitted = some d) :
    ∃ t d', execDmaDescriptor s = .next t ∧ t.eng.dmaAdmitted = none ∧ t.eng.dmaRunning = s.eng.dmaRunning ++ [d'] ∧
      d'.bytes = d.bytes ∧ d'.job = d.job ∧ t.jobs = s.jobs := by
  obtain ⟨hbytes, hjob, heng, hjobs⟩ := readNext_keeps .dma d (modEng (fun x => { x with dmaAdmitted := none }) s)
  unfold execDmaDescriptor
  rw [h]
  exact ⟨_, _, rfl, congrArg EngState.dmaAdmitted heng, congrArg (fun x => x.dmaRunning ++ _) heng, hbytes, hjob, hjobs⟩

theorem execDmaDescriptor_idle {s : State} (h : s.eng.dmaAdmitted = none) : execDmaDescriptor s = .next s := by
  unfold execDmaDescriptor
  rw [h]

/-- If no row stops the copy, every row is copied. -/
theorem copyRows_all {n : Fin 8} {len : Nat} {l : List (Dst × Dst)} {s : State} (h : (copyRows n len l s).2.1 = none) :
    (copyRows n len l s).2.2 = l.length := by
  induction l generalizing s with
  | nil => rfl
  | cons r rest ih =>
    simp only [copyRows] at h ⊢
    split at h
    · cases h
    · split at h
      · cases h
      · split at h
        · cases h
        · split at h
          · cases h
          · simpa [*] using ih h

/-- A row that is backed and translated is written, and the copy goes on behind it. -/
theorem copyRows_row {n : Fin 8} {len : Nat} {src dst : Dst} {rest : List (Dst × Dst)} {s : State}
    (hsrc : dstBacked src len = true) (hdst : dstBacked dst len = true)
    (hread : (readDst (rowTlps n (src, dst) s) .dma n src len).2 = none)
    (hwrite : (writeDst .dma n dst (readDst (rowTlps n (src, dst) s) .dma n src len).1 (rowTlps n (src, dst) s)).2 = none) :
    let b := copyRows n len rest
      (writeDst .dma n dst (readDst (rowTlps n (src, dst) s) .dma n src len).1 (rowTlps n (src, dst) s)).1
    copyRows n len ((src, dst) :: rest) s = (b.1, b.2.1, b.2.2 + 1) := by
  simp only [copyRows, hsrc, hdst, hread, hwrite, Bool.not_true, Bool.false_eq_true, if_false]

/-- The requests of a row's host pages are the whole of what it shows before it is copied. -/
theorem rowTlps_out (n : Fin 8) (r : Dst × Dst) (s : State) :
    rowTlps n r s = { s with out := { s.out with tlp := (rowTlps n r s).out.tlp } } := by
  unfold rowTlps
  dsimp only
  split <;> split <;> rfl

/-- What the copy of a descriptor's rows comes to, once its bytes are counted. -/
def dmaEnds (d : Desc) (s : State) : Option CopyStop → Out
  | some (.unbacked c) => .next (descError .dma d .descriptor c s)
  | some (.fault f) => .next (descFault .dma d f s)
  | none => .next (completeDesc .dma d s)

/-- The last write of a DMA descriptor whose rows the tiles serve. -/
theorem execDmaComplete_eq {s : State} {k : Nat} {d : Desc} (hd : s.eng.dmaRunning[k]? = some d)
    (hserved : (dmaRows s d).all (rowServed s (fieldAt d.bytes 32 4)) = true) :
    let r := copyRows d.job.r (fieldAt d.bytes 32 4) (dmaRows s d)
      { s with eng := { s.eng with dmaRunning := s.eng.dmaRunning.eraseIdx k } }
    execDmaComplete k s = dmaEnds d (modJob d.job (countMoved (fieldAt d.bytes 32 4 * r.2.2)) r.1) r.2.1 := by
  unfold execDmaComplete
  rw [hd]
  simp only [hserved, Bool.not_true, Bool.false_eq_true, if_false]
  rfl

theorem dmaRows_length (s : State) (d : Desc) : (dmaRows s d).length = fieldAt d.bytes 36 2 + 1 := by
  simp [dmaRows]

/-- Settles O35, by the recursion over the rows. -/
theorem dmaCopiesRowByRow : Obligations.DmaCopiesRowByRow := by
  unfold Obligations.DmaCopiesRowByRow
  refine ⟨fun s d h => execDmaDescriptor_starts h, fun s h => execDmaDescriptor_idle h, fun s k d hd => ?_⟩
  intro len rows hserved s1 r
  refine ⟨dmaRows_length s d, ?_⟩
  intro s2
  have hexec : exec (.dmaComplete k) s = dmaEnds d s2 r.2.1 := execDmaComplete_eq hd hserved
  refine ⟨fun hr => ⟨copyRows_all hr, ?_⟩, fun c hr => ?_, fun f hr => ?_, fun src dst rest hsrc hdst => ?_⟩
  · rw [hexec, hr]; rfl
  · rw [hexec, hr]; rfl
  · rw [hexec, hr]; rfl
  · exact ⟨rowTlps_out _ _ _, fun hread hwrite => copyRows_row hsrc hdst hread hwrite⟩

end Sys2Proof.Machine
end

section
/-!
PROOFS. PF BAR4 and frame owners (10_memory_host_link.md R215, R217, R218, R226): an access cut at its window entries, what a fault
latches, and the content of a frame that gets another owner and goes back.
-/
namespace Sys2Proof.Machine

/-! ### Accesses cut at page boundaries -/

@[simp] theorem pageParts_zero (k a : Nat) : pageParts k a 0 = [] := by
  cases k <;> simp [pageParts]

/-- An access within one page is one part. -/
theorem pageParts_one (k : Nat) {a n : Nat} (hn : 0 < n) (hpage : a % 2 ^ 21 + n ≤ 2 ^ 21) : pageParts (k + 1) a n = [(a, n)] := by
  have hmin : min n (2 ^ 21 - a % 2 ^ 21) = n := by omega
  rw [pageParts, if_neg (by omega)]
  dsimp only
  rw [hmin, Nat.sub_self, pageParts_zero]

/-- The first part of an access that reaches the end of its page. -/
theorem pageParts_page (k : Nat) {a n rest : Nat} (hn : 0 < n) (hpage : a % 2 ^ 21 + n = 2 ^ 21) :
    pageParts (k + 1) a (n + rest) = (a, n) :: pageParts k (a + n) rest := by
  have hmin : min (n + rest) (2 ^ 21 - a % 2 ^ 21) = n := by omega
  rw [pageParts, if_neg (by omega)]
  dsimp only
  rw [hmin, Nat.add_sub_cancel_left]

/-- From a page boundary, any number of parts that suffices cuts an access alike. -/
theorem pageParts_aligned (k k' : Nat) {a n : Nat} (ha : a % 2 ^ 21 = 0) (hk : n < 2 ^ 21 * k) (hk' : n < 2 ^ 21 * k') :
    pageParts k a n = pageParts k' a n := by
  induction k generalizing k' a n with
  | zero => omega
  | succ k ih =>
    cases k' with
    | zero => omega
    | succ k' =>
      simp only [pageParts]
      by_cases hn : n ≤ 2 ^ 21
      · have hmin : min n (2 ^ 21 - a % 2 ^ 21) = n := by omega
        rw [hmin, Nat.sub_self, pageParts_zero, pageParts_zero]
      · have hmin : min n (2 ^ 21 - a % 2 ^ 21) = 2 ^ 21 := by omega
        rw [hmin, ih k' (by omega) (by omega) (by omega)]

/-! ### What translation answers -/

/-- A translation fault has one of the causes 1 to 5 of R211. -/
theorem translate_error_le {s : State} {tile : Fin 24} {c : Fin 9} {a : Nat} {w : Bool} {e : Nat}
    (h : translate s tile c a w = .error e) : e ≤ 5 := by
  simp only [translate] at h
  repeat' split at h
  all_goals cases h
  all_goals omega

/-- A context's fault registers once a fault came to it. -/
def latchedCtx (addr cause : Nat) (x : MemCtx) : MemCtx :=
  if x.faultValid = true then x else { x with faultValid := true, faultAddr := addr % 2 ^ 48, faultCause := cause }

/-- A fault of translation changes the context's latch, unless that holds an earlier one. -/
theorem latchFault_eq (c : Fin 9) (addr : Nat) {cause : Nat} (h : cause ≤ 5) (s : State) :
    latchFault c addr cause s =
      { s with mem := { s.mem with ctx := s.mem.ctx.set c (latchedCtx addr cause s.mem.ctx[c]) } } := by
  have hne : cause ≠ tagCause := by unfold tagCause; omega
  unfold latchFault
  rw [if_neg hne]
  rfl

/-! ### An access in one window entry -/

/-- The state after an access whose translation answers with an address and cause, or with a place. -/
def bar4Answer (a : HostAccess) (s : State) : Except (Nat × Nat) Place → State
  | .error e => match a with
    | .read _ => { latchFault 8 e.1 e.2 s with out := { s.out with data := [], ur := true } }
    | .write _ => latchFault 8 e.1 e.2 s
  | .ok p => match a with
    | .read n => { s with out := { s.out with data := (readPlace s p n).1, ur := false } }
    | .write d => writePlace p d s

theorem latchFault_out (c : Fin 9) (addr cause : Nat) (s : State) : (latchFault c addr cause s).out = s.out := by
  unfold latchFault
  split <;> rfl

/-- An access that lies in one window entry is one part. -/
theorem execBar4Access_one {s : State} {o : Nat} {a : HostAccess} (hready : s.dev.ready = true)
    (hbar : o < 2 ^ (30 + s.pcie.bar4)) (hlen : 0 < accessLen a) (hpage : o % 2 ^ 21 + accessLen a ≤ 2 ^ 21) :
    execBar4Access o a s = .next (bar4Answer a s (bar4Place s o (isWrite a))) := by
  have hin : (!s.dev.ready || decide (2 ^ (30 + s.pcie.bar4) ≤ o)) = false := by simp [hready, hbar]
  simp only [execBar4Access, hin, Bool.false_eq_true, if_false, pageParts_one _ hlen hpage]
  cases a with
  | read n =>
    rcases h : bar4Place s o false with e | p
    · simp [bar4Reads, isWrite, bar4Answer, h, latchFault_out]
    · simp [bar4Reads, isWrite, bar4Answer, accessLen, h]
  | write d =>
    rcases h : bar4Place s o true with e | p <;> simp [bar4Writes, isWrite, bar4Answer, accessLen, h]

/-- A window entry that is not valid leads nowhere: cause 2, at the BAR4 offset. -/
theorem bar4Place_none {s : State} {o : Nat} {w : Bool}
    (h : (s.mem.win.find? fun w => w.valid && w.entry == o / 2 ^ 21) = none) : bar4Place s o w = .error (o, 2) := by
  simp only [bar4Place, Nat.shiftRight_eq_div_pow, h]

section
variable {s : State} {o : Nat} {write : Bool} {w : WinEnt}
  (h : (s.mem.win.find? fun w => w.valid && w.entry == o / 2 ^ 21) = some w)
include h

theorem bar4Place_sealed (hc : ctxSealed s (Fin.ofNat 9 w.ctx) = true) :
    bar4Place s o write = .error (w.page * 2 ^ 21 + o % 2 ^ 21, 5) := by
  simp only [bar4Place, Nat.shiftRight_eq_div_pow, h, hc, if_true]

theorem bar4Place_fault (hc : ctxSealed s (Fin.ofNat 9 w.ctx) = false) {e : Nat}
    (ht : translate s hostTile (Fin.ofNat 9 w.ctx) (w.page * 2 ^ 21 + o % 2 ^ 21) write = .error e) :
    bar4Place s o write = .error (w.page * 2 ^ 21 + o % 2 ^ 21, e) := by
  simp only [bar4Place, Nat.shiftRight_eq_div_pow, h, hc, Bool.false_eq_true, if_false, ht]

theorem bar4Place_ok (hc : ctxSealed s (Fin.ofNat 9 w.ctx) = false) {p : Place}
    (ht : translate s hostTile (Fin.ofNat 9 w.ctx) (w.page * 2 ^ 21 + o % 2 ^ 21) write = .ok p) :
    bar4Place s o write = .ok p := by
  simp only [bar4Place, Nat.shiftRight_eq_div_pow, h, hc, Bool.false_eq_true, if_false, ht]

end

/-- A refused access latches its case in context 8; a read of it answers Unsupported Request. -/
theorem bar4Answer_error (a : HostAccess) (s : State) (addr : Nat) {cause : Nat} (h : cause ≤ 5) :
    bar4Answer a s (.error (addr, cause)) =
      { s with
        mem := { s.mem with ctx := s.mem.ctx.set (8 : Fin 9) (latchedCtx addr cause s.mem.ctx[(8 : Fin 9)]) }
        out := match a with
          | .read _ => { s.out with data := [], ur := true }
          | .write _ => s.out } := by
  cases a <;> simp only [bar4Answer, latchFault_eq _ _ h]

/-! ### An access across window entries -/

/-- What an access inside BAR4 checks is as before after a write of a part. -/
theorem bar4Answer_write_keeps (d : List Byte) (s : State) (x : Except (Nat × Nat) Place) :
    (bar4Answer (.write d) s x).dev = s.dev ∧ (bar4Answer (.write d) s x).pcie.bar4 = s.pcie.bar4 := by
  cases x with
  | error e =>
    simp only [bar4Answer, latchFault]
    split <;> exact ⟨rfl, rfl⟩
  | ok p =>
    exact writePlace_keeps (fun t => t.dev = s.dev ∧ t.pcie.bar4 = s.pcie.bar4) p d s ⟨rfl, rfl⟩ (fun _ _ _ h => h) (fun _ _ _ h => h)

/-- A write that reaches the end of its window entry's page, and what follows it, are made one after the other. -/
theorem execBar4Access_append {s : State} {o : Nat} {d d' : List Byte} (hready : s.dev.ready = true)
    (hbar : o + d.length < 2 ^ (30 + s.pcie.bar4)) (hd : d ≠ []) (hpage : o % 2 ^ 21 + d.length = 2 ^ 21) :
    execBar4Access o (.write (d ++ d')) s =
      execBar4Access (o + d.length) (.write d') (bar4Answer (.write d) s (bar4Place s o true)) := by
  have hpos : 0 < d.length := List.length_pos_iff.2 hd
  obtain ⟨hdev, hbar4⟩ := bar4Answer_write_keeps d s (bar4Place s o true)
  have hin : (!s.dev.ready || decide (2 ^ (30 + s.pcie.bar4) ≤ o)) = false := by
    simp only [hready, Bool.not_true, Bool.false_or, decide_eq_false_iff_not]; omega
  have hin' : (!s.dev.ready || decide (2 ^ (30 + s.pcie.bar4) ≤ o + d.length)) = false := by
    simp only [hready, Bool.not_true, Bool.false_or, decide_eq_false_iff_not]; omega
  have hparts : pageParts ((d ++ d').length / 2 ^ 21 + 2) o (d ++ d').length =
      (o, d.length) :: pageParts (d'.length / 2 ^ 21 + 2) (o + d.length) d'.length := by
    rw [List.length_append, pageParts_page _ hpos hpage]
    exact congrArg _ (pageParts_aligned _ _ (by omega) (by omega) (by omega))
  simp only [execBar4Access, hdev, hbar4, hin, hin', Bool.false_eq_true, if_false, accessLen, hparts, bar4Writes,
    List.take_left', List.drop_left']
  cases bar4Place s o true <;> rfl

/-! ### Frame owners -/

theorem frameOwner_setOwner (f o : Nat) (m : MemState) : frameOwner (setOwner f o m) f = o := by
  have hnone : (m.owner.filter fun e => e.1 != f).find? (fun e => e.1 == f) = none := by
    simp [List.find?_eq_none]
  by_cases ho : o = if isCarve f then 8 else 15
  · simp only [frameOwner, setOwner, if_pos ho, hnone]
    exact ho.symm
  · simp [frameOwner, setOwner, ho]

theorem frameOwner_setOwner_ne {f g : Nat} (o : Nat) (m : MemState) (hg : g ≠ f) : frameOwner (setOwner f o m) g = frameOwner m g := by
  have hrest : (m.owner.filter fun e => e.1 != f).find? (fun e => e.1 == g) = m.owner.find? fun e => e.1 == g := by
    rw [List.find?_filter]
    congr 1
    funext e
    by_cases he : e.1 = g
    · simp [he, hg]
    · simp [he]
  have hfg : (f == g) = false := by simpa using fun h => hg h.symm
  by_cases ho : o = if isCarve f then 8 else 15
  · simp only [frameOwner, setOwner, if_pos ho, hrest]
  · simp only [frameOwner, setOwner, if_neg ho, List.find?_cons, hfg, hrest]

theorem frameOwner_giveFrame (f o : Nat) (m : MemState) : frameOwner (giveFrame f o m) f = o := frameOwner_setOwner _ _ _

theorem frameOwner_giveFrame_ne {f g : Nat} (o : Nat) (m : MemState) (hg : g ≠ f) : frameOwner (giveFrame f o m) g = frameOwner m g :=
  frameOwner_setOwner_ne _ _ hg

/-! ### The content of a frame -/

/-- A byte written changes no other, whatever the memory. -/
theorem memGet_memPut_ne (m : Mem) {a a' : Nat} (b : Byte) (h : a' ≠ a) : memGet (memPut m a b) a' = memGet m a' := by
  have hne : ¬ a = a' := fun e => h e.symm
  induction m with
  | nil => simp only [memPut]; split <;> simp [memGet, hne]
  | cons c r ih =>
    simp only [memPut]
    split
    · split <;> simp [memGet, hne]
    · split
      · have hc : ¬ c.1 = a' := by omega
        split <;> simp [memGet, hne, hc]
      · simp only [memGet, ih]

/-- Bytes put into a memory one at a time. -/
def putCells (l p : Mem) : Mem := l.foldl (fun p c => memPut p c.1 c.2) p

theorem memGet_putCells_ne {l : Mem} {a : Nat} (h : ∀ c ∈ l, a ≠ c.1) (p : Mem) : memGet (putCells l p) a = memGet p a := by
  induction l generalizing p with
  | nil => rfl
  | cons c r ih =>
    exact (ih (fun d hd => h d (List.mem_cons_of_mem _ hd)) _).trans (memGet_memPut_ne _ _ (h c (List.mem_cons_self ..)))

/-- The bytes of a canonical memory, put into another where that reads 0. -/
theorem memGet_putCells {l p : Mem} (hl : Memory.wf l = true) (hp : Memory.wf p = true) (a : Nat) :
    memGet (putCells l p) a = if memGet l a = 0 then memGet p a else memGet l a := by
  induction l generalizing p with
  | nil => simp [putCells, memGet]
  | cons c r ih =>
    obtain ⟨hc, hlt, hr⟩ := (memory_wf_cons c r).1 hl
    have hput := memGet_memPut p c.1 a c.2 hp
    refine (ih hr (memPut_wf _ _ _ hp)).trans ?_
    by_cases ha : a = c.1
    · have hzero : memGet r a = 0 := memGet_of_not_mem r a fun d hd => by have := hlt d hd; omega
      have hcons : memGet (c :: r) a = c.2 := if_pos ha.symm
      rw [if_pos hzero, hput, if_pos ha, hcons, if_neg hc]
    · have hcons : memGet (c :: r) a = memGet r a := if_neg fun e => ha e.symm
      rw [hput, if_neg ha, hcons]

/-- What lies aside of a frame under the key of its new owner. -/
def backCells (f o : Nat) (m : MemState) : Mem :=
  (m.aside.filter fun x => x.frame == f && some x.key == ownerKey m o).flatMap Aside.cells

theorem giveFrame_phys (f o : Nat) (m : MemState) :
    (giveFrame f o m).phys = putCells (backCells f o m) (memZero m.phys (f * 2 ^ 21) (2 ^ 21)) := rfl

theorem ownerKey_giveFrame (f o p : Nat) (m : MemState) : ownerKey (giveFrame f o m) p = ownerKey m p := rfl

/-- A frame's bytes are set to 0. -/
theorem memGet_memZero_frame (m : Mem) (f a : Nat) :
    memGet (memZero m (f * 2 ^ 21) (2 ^ 21)) a = if a / 2 ^ 21 = f then 0 else memGet m a := by
  have hin : (f * 2 ^ 21 ≤ a ∧ a < f * 2 ^ 21 + 2 ^ 21) ↔ a / 2 ^ 21 = f := by omega
  simp only [memGet_memZero, hin]

/-- If the new owner left nothing there, nothing is to be read in the frame. -/
theorem giveFrame_reads_zero {f o : Nat} {m : MemState} (h : ∀ x ∈ m.aside, x.frame = f → some x.key ≠ ownerKey m o) {a : Nat}
    (ha : a / 2 ^ 21 = f) : memGet (giveFrame f o m).phys a = 0 := by
  have hnone : backCells f o m = [] := by
    unfold backCells
    rw [List.filter_eq_nil_iff.2 fun x hx => by simpa using h x hx, List.flatMap_nil]
  rw [giveFrame_phys, hnone]
  exact (memGet_memZero_frame _ _ _).trans (if_pos ha)

/-- Outside the frame nothing changes. -/
theorem giveFrame_reads_other {f o : Nat} {m : MemState} (h : ∀ x ∈ m.aside, x.frame = f → ∀ c ∈ x.cells, c.1 / 2 ^ 21 = f) {a : Nat}
    (ha : a / 2 ^ 21 ≠ f) : memGet (giveFrame f o m).phys a = memGet m.phys a := by
  rw [giveFrame_phys, memGet_putCells_ne, memGet_memZero_frame, if_neg ha]
  intro c hc e
  obtain ⟨x, hx, hcx⟩ := List.mem_flatMap.1 hc
  obtain ⟨hmem, hframe⟩ := List.mem_filter.1 hx
  simp only [Bool.and_eq_true, beq_iff_eq] at hframe
  exact ha (e ▸ h x hmem hframe.1 c hcx)

/-- The bytes that lie in a frame. -/
def frameCells (f : Nat) (m : MemState) : Mem := m.phys.filter fun c => c.1 / 2 ^ 21 == f

/-- A frame given back to the owner whose key its content was written with finds that content. -/
theorem backCells_giveFrame {f o : Nat} {m : MemState} {k : List Byte} (haside : ∀ x ∈ m.aside, x.frame ≠ f)
    (hkey : ownerKey m (frameOwner m f) = some k) :
    backCells f (frameOwner m f) (giveFrame f o m) = frameCells f m := by
  have hkept : (giveFrame f o m).aside = (m.aside.filter fun x => !(x.frame == f && some x.key == ownerKey m o)) ++
      (if (frameCells f m).isEmpty then [] else [{ frame := f, key := k, cells := frameCells f m }]) := by
    simp only [giveFrame, setOwner, hkey]
    rfl
  have hold : ((m.aside.filter fun x => !(x.frame == f && some x.key == ownerKey m o)).filter
      fun x => x.frame == f && some x.key == some k) = [] :=
    List.filter_eq_nil_iff.2 fun x hx => by simp [haside x (List.mem_filter.1 hx).1]
  unfold backCells
  rw [ownerKey_giveFrame, hkey, hkept, List.filter_append, hold, List.nil_append]
  split
  · rename_i he
    simp [List.isEmpty_iff.1 he]
  · simp

/-- There and back: every byte reads as before. -/
theorem giveFrame_back {f o : Nat} {m : MemState} {k : List Byte} (hwf : Memory.wf m.phys = true) (haside : ∀ x ∈ m.aside, x.frame ≠ f)
    (hkey : ownerKey m (frameOwner m f) = some k) (a : Nat) :
    memGet (giveFrame f (frameOwner m f) (giveFrame f o m)).phys a = memGet m.phys a := by
  have hcells : Memory.wf (frameCells f m) = true := by
    obtain ⟨hp, h0⟩ := (memory_wf_iff m.phys).1 hwf
    exact (memory_wf_iff _).2 ⟨hp.sublist List.filter_sublist, fun c hc => h0 c (List.mem_filter.1 hc).1⟩
  have hget : memGet (frameCells f m) a = if a / 2 ^ 21 = f then memGet m.phys a else 0 := by
    simpa only [frameCells, beq_iff_eq] using memGet_filter m.phys (fun x => x / 2 ^ 21 == f) a
  rw [giveFrame_phys, backCells_giveFrame haside hkey, memGet_putCells hcells (memZero_wf _ _ _ (giveFrame_wf _ _ _ hwf)), hget,
    memGet_memZero_frame]
  by_cases ha : a / 2 ^ 21 = f
  · rw [if_pos ha, if_pos ha]
    split
    · exact Eq.symm ‹_›
    · rfl
  · rw [if_neg ha, if_neg ha, if_pos rfl]
    exact giveFrame_reads_other (fun x hx e => absurd e (haside x hx)) ha

/-! ### A write of MEM_FRAME_OWN -/

/-- May this write of MEM_FRAME_OWN give the selected frame an owner (R215)? -/
def OwnWriteAllowed (s : State) (secure : Bool) (v : W32) : Prop :=
  s.dev.ready = true ∧ isFrame s.mem.frameSel = true ∧ (v.toNat % 16 < 9 ∨ v.toNat % 16 = 15) ∧
    (secure = true ∨ frameOwner s.mem s.mem.frameSel = 15 ∨
      ∃ n : Fin 8, frameOwner s.mem s.mem.frameSel = n.val ∧ s.rgn.rgn[n].state = .opened ∧ s.sec.rgn[n].sealing = false)

theorem frameOpen_iff (s : State) (f : Nat) :
    frameOpen s f = true ↔ frameOwner s.mem f = 15 ∨
      ∃ n : Fin 8, frameOwner s.mem f = n.val ∧ s.rgn.rgn[n].state = .opened ∧ s.sec.rgn[n].sealing = false := by
  simp only [frameOpen, Bool.or_eq_true, beq_iff_eq, Bool.and_eq_true, decide_eq_true_eq, Bool.not_eq_true']
  refine or_congr_right ⟨?_, ?_⟩
  · rintro ⟨⟨hlt, hstate⟩, hseal⟩
    exact ⟨Fin.ofNat 8 (frameOwner s.mem f), (Nat.mod_eq_of_lt hlt).symm, hstate, hseal⟩
  · rintro ⟨n, hn, hstate, hseal⟩
    obtain rfl : n = Fin.ofNat 8 (frameOwner s.mem f) := Fin.ext (by rw [hn]; exact (Nat.mod_eq_of_lt n.isLt).symm)
    exact ⟨⟨by omega, hstate⟩, hseal⟩

theorem execMemFrameOwnWrite_eq (s : State) (secure : Bool) (v : W32) [Decidable (OwnWriteAllowed s secure v)] :
    execMemFrameOwnWrite secure v s =
      if OwnWriteAllowed s secure v ∧ v.toNat % 16 ≠ frameOwner s.mem s.mem.frameSel then
        .next { s with mem := giveFrame s.mem.frameSel (v.toNat % 16) s.mem }
      else .next s := by
  have hiff : ((s.dev.ready && isFrame s.mem.frameSel && (decide (v.toNat % 16 < 9) || v.toNat % 16 == 15) &&
      (secure || frameOpen s s.mem.frameSel) && v.toNat % 16 != frameOwner s.mem s.mem.frameSel) = true) ↔
      OwnWriteAllowed s secure v ∧ v.toNat % 16 ≠ frameOwner s.mem s.mem.frameSel := by
    simp only [OwnWriteAllowed, Bool.and_eq_true, Bool.or_eq_true, decide_eq_true_eq, beq_iff_eq, bne_iff_ne, frameOpen_iff, and_assoc]
  simp only [execMemFrameOwnWrite, hiff]
  rfl

/-- Settles O42: a BAR4 access in one window entry has one answer, one across two is made by each in turn, and a frame's content
is aside while the frame has another owner. -/
theorem hostAccessesReachOrAreRefused : Obligations.HostAccessesReachOrAreRefused := by
  unfold Obligations.HostAccessesReachOrAreRefused
  refine ⟨?_, ?_, ?_⟩
  · intro s o a hready hbar hlen hpage x latched out refused write entry
    have hexec : exec (.bar4Access o a) s = .next (bar4Answer a s (bar4Place s o write)) :=
      (execBar4Access_one hready hbar hlen hpage).trans (by cases a <;> rfl)
    have hrefused : ∀ addr cause, cause ≤ 5 → bar4Place s o write = .error (addr, cause) →
        exec (.bar4Access o a) s = .next (refused addr cause) := fun addr cause hc hp => by
      rw [hexec, hp, bar4Answer_error a s addr hc]; rfl
    refine ⟨fun hnone => hrefused o 2 (by omega) (bar4Place_none hnone), ?_⟩
    intro w hw c addr
    refine ⟨fun hc => hrefused addr 5 (by omega) (bar4Place_sealed hw hc), fun hc => ?_⟩
    have hok : ∀ p, translate s hostTile c addr write = .ok p → exec (.bar4Access o a) s = .next (bar4Answer a s (.ok p)) :=
      fun p hp => by rw [hexec, bar4Place_ok hw hc hp]
    refine ⟨fun e he => hrefused addr e (translate_error_le he) (bar4Place_fault hw hc he), ?_, ?_, ?_, ?_, ?_, ?_, ?_⟩
    · rintro pa n hp rfl; exact hok _ hp
    · rintro ha n hp rfl; exact hok _ hp
    · rintro p n hp rfl; exact hok _ hp
    · rintro p d hp rfl; exact hok _ hp
    · rintro hp d rfl; exact hok _ hp
    · rintro pa d hp rfl; exact ⟨_, hok _ hp, rfl, rfl⟩
    · rintro ha d hp rfl; exact hok _ hp
  · intro s o d d' hready hbar hd hpage
    have hpos : 0 < d.length := List.length_pos_iff.2 hd
    exact ⟨_, execBar4Access_one (a := .write d) hready (by omega) hpos (by simp only [accessLen]; omega),
      execBar4Access_append hready hbar hd hpage⟩
  · intro s secure v f o allowed within
    classical
    have hexec := execMemFrameOwnWrite_eq s secure v
    refine ⟨fun hallowed hne => ?_, fun hnot => ?_⟩
    · refine ⟨giveFrame f o s.mem, hexec.trans (if_pos ⟨hallowed, hne⟩), frameOwner_giveFrame _ _ _,
        fun g hg => frameOwner_giveFrame_ne _ _ hg, fun hnew a ha => giveFrame_reads_zero hnew ha,
        fun hin a ha => giveFrame_reads_other hin ha, fun k back hwf haside hkey _ hback hcode => ?_⟩
      have hback' : exec (.memFrameOwnWrite true back) { s with mem := giveFrame f o s.mem } =
          .next { s with mem := giveFrame f (frameOwner s.mem f) (giveFrame f o s.mem) } := by
        obtain ⟨hready, hframe, -, -⟩ := hallowed
        refine (execMemFrameOwnWrite_eq _ true back).trans ((if_pos ?_).trans (by rw [hback]; rfl))
        refine ⟨⟨hready, hframe, by rwa [hback], .inl rfl⟩, ?_⟩
        rw [hback]
        exact fun e => hne (e.trans (frameOwner_giveFrame f o s.mem)).symm
      exact ⟨_, hback', giveFrame_back hwf haside hkey, frameOwner_giveFrame _ _ _⟩
    · refine hexec.trans (if_neg fun hand => ?_)
      exact hnot.elim (fun h => h hand.1) fun h => hand.2 h

end Sys2Proof.Machine
end

section
/-!
PROOFS. Functions (10_memory_host_link.md R224, R225, R233, Table 10-4; 11_owners_secrecy.md R253; 18_register_index.md R412): what a
configuration write and a register write change, and what the FLR of the PF and of a VF leaves.
-/
namespace Sys2Proof.Machine

/-! ### Configuration writes -/

/-- Dropping the host pages of a context changes memory only. -/
theorem dropHostPages_sec_pcie (c : Fin 9) (s : State) : (dropHostPages c s).sec = s.sec ∧ (dropHostPages c s).pcie = s.pcie := by
  have hwrites : ∀ l : List (Nat × Byte),
      (forEach l (fun x => modMem fun m => physWrite m x.1 (List.replicate 8 0)) s).sec = s.sec ∧
      (forEach l (fun x => modMem fun m => physWrite m x.1 (List.replicate 8 0)) s).pcie = s.pcie := fun l =>
    forEach_keeps (fun t => t.sec = s.sec ∧ t.pcie = s.pcie) l (fun x => modMem fun m => physWrite m x.1 (List.replicate 8 0))
      (fun _ _ _ h => h) s ⟨rfl, rfl⟩
  simp only [dropHostPages]
  split
  · exact hwrites _
  · exact hwrites _

theorem setTdi_sec_pcie (n : Fin 8) (t : Tdi) (s : State) :
    (setTdi n t s).sec = (modSecRgn n (fun x => { x with tdi := t }) s).sec ∧ (setTdi n t s).pcie = s.pcie := by
  simp only [setTdi]
  split
  · exact dropHostPages_sec_pcie _ _
  · exact ⟨rfl, rfl⟩

/-- A TDI in CONFIG_LOCKED or RUN goes to ERROR, and nothing of the functions' registers changes. -/
theorem tdiError_locked {r : Fin 8} {s : State} (h : s.sec.rgn[r].tdi = .locked ∨ s.sec.rgn[r].tdi = .run) :
    (tdiError r s).sec.rgn[r].tdi = .error ∧ (tdiError r s).pcie = s.pcie := by
  obtain ⟨hsec, hpcie⟩ := setTdi_sec_pcie r .error s
  have herr : tdiError r s = setTdi r .error s := if_pos h
  rw [herr, hpcie, hsec]
  exact ⟨by simp, rfl⟩

theorem tdiError_unlocked {r : Fin 8} {s : State} (h : s.sec.rgn[r].tdi = .unlocked) : tdiError r s = s :=
  if_neg fun e => by rcases e with e | e <;> exact absurd (h.symm.trans e) (by decide)

theorem touchVf_vfOf (r : Fin 8) (s : State) : touchVf (vfOf r) s = tdiError r s := by
  have hne : vfOf r ≠ 0 := by revert r; decide
  have hback : Fin.ofNat 8 ((vfOf r).val - 1) = r := by revert r; decide
  rw [touchVf, if_neg hne, hback]

/-! ### Register writes -/

theorem execRegisterWrite_32 (w : View) {off : Nat} (v : W64) (cclk : Nat) (s : State) (h : off % 4 = 0) :
    execRegisterWrite w off 32 v cclk s = .next (regWrite w off (v.setWidth 32) cclk s) := if_pos ⟨rfl, h⟩

theorem execRegisterWrite_64 (w : View) {off : Nat} (v : W64) (cclk : Nat) (s : State) (h : off % 8 = 0) :
    execRegisterWrite w off 64 v cclk s =
      .next (regWrite w (off + 4) ((v >>> 32).setWidth 32) cclk (regWrite w off (v.setWidth 32) cclk s)) :=
  (if_neg (by simp)).trans (if_pos ⟨rfl, h⟩)

theorem execRegisterWrite_narrow (w : View) (off : Nat) {width : Nat} (v : W64) (cclk : Nat) (s : State) (h : width < 32) :
    execRegisterWrite w off width v cclk s = .next s :=
  (if_neg (by omega)).trans ((if_neg (by omega)).trans (if_pos h))

theorem execRegisterWrite_misaligned (w : View) {off width : Nat} (v : W64) (cclk : Nat) (s : State)
    (h : width = 32 ∧ off % 4 ≠ 0 ∨ width = 64 ∧ off % 8 ≠ 0) : execRegisterWrite w off width v cclk s = .fault .misalignedAccess :=
  (if_neg (by omega)).trans ((if_neg (by omega)).trans (if_neg (by omega)))

/-- DEV_SCRATCH. -/
theorem writePf_scratch (v : W32) (cclk : Nat) {s : State} (h : s.dev.stage ≠ .failed) :
    writePf 0x20 v cclk s = { s with dev := { s.dev with scratch := v } } :=
  (if_pos (by decide)).trans (if_pos ⟨rfl, h⟩)

/-- Before ready the blocks' registers take no write (R391). -/
theorem writePf_unready {o : Nat} (v : W32) (cclk : Nat) {s : State} (h : s.dev.ready = false) (ho : 0x10000 ≤ o) :
    writePf o v cclk s = s := by
  rw [writePf, if_neg (by omega), h]
  exact if_neg (by decide)

/-! ### The PF's FLR -/

/-- What the firmware's check of the cores reads, and how noise stands. -/
structure BootParts (x s : State) : Prop where
  noise : s.noise.state = x.noise.state
  stag : s.stag = x.stag
  meas : s.mkh.meas = x.mkh.meas
  bank : s.mkh.activeBank = x.mkh.activeBank

/-- Ending work, and what follows of itself, leaves them. -/
theorem bootParts_kept (x : State) : KeptByRecovery (BootParts x) where
  jobs _ _ h := ⟨h.1, h.2, h.3, h.4⟩
  que _ _ h := ⟨h.1, h.2, h.3, h.4⟩
  evt _ _ h := ⟨h.1, h.2, h.3, h.4⟩
  err _ _ h := ⟨h.1, h.2, h.3, h.4⟩
  msix _ _ h := ⟨h.1, h.2, h.3, h.4⟩
  ctx _ _ h := ⟨h.1, h.2, h.3, h.4⟩
  phys _ _ _ h := ⟨h.1, h.2, h.3, h.4⟩
  host _ _ _ h := ⟨h.1, h.2, h.3, h.4⟩
  shadow _ _ h := ⟨h.1, h.2, h.3, h.4⟩
  purge _ _ h := ⟨h.1, h.2, h.3, h.4⟩
  rgn _ _ h := ⟨h.1, h.2, h.3, h.4⟩
  tickRgn _ _ _ h := ⟨h.1, h.2, h.3, h.4⟩
  job _ _ _ h := ⟨h.1, h.2, h.3, h.4⟩
  anl _ _ h := ⟨h.1, h.2, h.3, h.4⟩
  ring _ _ _ h := ⟨h.1, h.2, h.3, h.4⟩
  noise _ _ _ h := ⟨h.1, h.2, h.3, h.4⟩
  sec _ _ h := ⟨h.1, h.2, h.3, h.4⟩
  cp _ _ h := ⟨h.1, h.2, h.3, h.4⟩
  mesh _ _ h := ⟨h.1, h.2, h.3, h.4⟩
  rim _ _ h := ⟨h.1, h.2, h.3, h.4⟩
  haly _ _ h := ⟨h.1, h.2, h.3, h.4⟩
  herd _ _ _ _ _ h := ⟨h.1, h.2, h.3, h.4⟩
  ibex _ _ _ _ h := ⟨h.1, h.2, h.3, h.4⟩
  cham _ _ _ _ h := ⟨h.1, h.2, h.3, h.4⟩
  kudu _ _ _ _ h := ⟨h.1, h.2, h.3, h.4⟩
  pe _ _ h := ⟨h.1, h.2, h.3, h.4⟩
  eng _ _ h := ⟨h.1, h.2, h.3, h.4⟩
  put s e f _ h := by cases e <;> exact ⟨h.1, h.2, h.3, h.4⟩
  frame _ _ _ h := ⟨h.1, h.2, h.3, h.4⟩
  tlb _ _ h := ⟨h.1, h.2, h.3, h.4⟩
  free _ _ h := ⟨h.1, h.2, h.3, h.4⟩

/-- A component's measurement is taken of the active bank's image. -/
theorem BootParts.partMatches_eq {x s : State} (h : BootParts x s) (k : Fin 8) : partMatches s k = partMatches x k := by
  simp only [partMatches, activeImage, activeBank, h.stag, h.meas, h.bank]

theorem freeRegion_regions (n : Fin 8) (s : State) : (freeRegion n s).rgn.rgn = upd s.rgn.rgn n freed := by
  obtain ⟨m, hm⟩ := freeFrames_frame n (unitsCleared n s)
  have hrgn : (freeFrames n (unitsCleared n s)).rgn.rgn = s.rgn.rgn := by
    rw [hm]
    exact (congrArg RgnState.rgn (unitsCleared_same n s).rgn).trans (closeWalls_frame n s).1
  rw [freeRegion_eq, (releaseRegion_released n s.rgn.rgn[n].byFlr (freeFrames n (unitsCleared n s))).rgn, hrgn]

/-- A teardown marks its region and leaves the other regions' records. -/
theorem beginTeardown_rgn (n : Fin 8) (s : State) : (beginTeardown n s).rgn = (modRgn n torn s).rgn := by
  have hrgn := (stopRegion_ending n s).rgn
  rw [beginTeardown_eq]
  exact (keeps_settle (rgnIs_ends _) n (quietRegion n (stopRegion n s)) rfl).trans hrgn

theorem retire_bootParts {x s : State} (n : Fin 8) (h : BootParts x s) : BootParts x (retire n s) := by
  unfold retire
  split
  · exact h
  · refine keeps_modRgn (bootParts_kept x) _ _ _ (keeps_freeRegion (bootParts_kept x) _ _ ?_)
    split
    · exact h
    · exact keeps_beginTeardown (bootParts_kept x) _ _ h

/-- A retired region is FREE. -/
theorem retire_free (n : Fin 8) (s : State) : (retire n s).rgn.rgn[n].state = .free := by
  unfold retire
  split
  · assumption
  · rw [modRgn_get, freeRegion_rgn]
    rfl

/-- Retiring a region leaves the other regions' records. -/
theorem retire_other {n m : Fin 8} (s : State) (h : m ≠ n) : (retire n s).rgn.rgn[m] = s.rgn.rgn[m] := by
  have htorn : (beginTeardown n s).rgn.rgn[m] = s.rgn.rgn[m] := by
    rw [beginTeardown_rgn]
    exact upd_other _ _ _ _ h
  unfold retire
  split
  · rfl
  · refine (upd_other _ _ _ _ h).trans ?_
    rw [freeRegion_regions, upd_other _ _ _ _ h]
    split
    · rfl
    · exact htorn

/-- Regions retired in turn are FREE. -/
theorem forEach_retire_free {l : List (Fin 8)} {s : State} {r : Fin 8} (h : r ∈ l ∨ s.rgn.rgn[r].state = .free) :
    (forEach l retire s).rgn.rgn[r].state = .free := by
  induction l generalizing s with
  | nil => exact h.resolve_left List.not_mem_nil
  | cons n l ih =>
    refine ih ?_
    by_cases hr : r = n
    · exact .inr (hr ▸ retire_free n s)
    · refine h.imp (fun hm => (List.mem_cons.1 hm).resolve_left hr) fun hf => ?_
      rw [retire_other s hr]
      exact hf

/-- What the PF's FLR clears once the regions are retired. -/
def pfFlrCleared (s : State) : State :=
  let s := clearDevErrors (discardAll s)
  { s with haly := { s.haly with outEnable := false, out := s.haly.out.map (quietOut false) },
           mem := { s.mem with owner := s.mem.owner.filter fun x => x.2 == 8 || (isCarve x.1 && x.2 == 15), win := [] },
           pcie := { s.pcie with vfEnable := false },
           dev := { s.dev with resetCause := .pfFlr } }

/-- Markhor and Criward start again as their components match their measurements. -/
def coresRestarted (s : State) : State :=
  let s := startCores (if partMatches s 1 then 0x3F else 0) s
  { s with mkh := { s.mkh with lockstepOk := partMatches s 0 }, sec := { s.sec with up := partMatches s 0 } }

theorem execPfFlr_ready {s : State} (h : s.dev.ready = true) :
    execPfFlr s = .next (coresRestarted (pfFlrCleared (forEach (allFin 8) retire s))) := by
  unfold execPfFlr pfFlrCleared coresRestarted
  rw [if_neg (by rw [h]; decide)]

/-- What the FLR leaves of everything that it resets, whatever state retiring the regions left. -/
theorem coresRestarted_pfFlrCleared (t : State) :
    let u := coresRestarted (pfFlrCleared t)
    u.jobs = [] ∧ u.haly.outEnable = false ∧ u.dev.resetCause = .pfFlr ∧ u.noise = t.noise ∧ u.rgn = t.rgn ∧
      u.que = t.que.map Queue.discard ∧ u.mkh.lockstepOk = partMatches t 0 ∧
      u.mkh.cp = Vector.ofFn fun c => { CpCore.reset with
        online := (if partMatches t 1 then (0x3F : BitVec 6) else 0).getLsbD c.val,
        offlineCause := if (if partMatches t 1 then (0x3F : BitVec 6) else 0).getLsbD c.val then 0 else 1 } :=
  ⟨rfl, rfl, rfl, rfl, rfl, rfl, rfl, rfl⟩

theorem allCores_online (b : Bool) (c : Fin 6) : (if b then (0x3F : BitVec 6) else 0).getLsbD c.val = b := by
  revert b c; decide

/-! ### A VF's FLR -/

/-- The FLR tears the region down, to create it again. -/
theorem startFlr_tears (n : Fin 8) (s : State) :
    (startFlr n s).rgn.rgn[n].tearingDown = true ∧ (startFlr n s).rgn.rgn[n].byFlr = true ∧ ∀ j ∈ (startFlr n s).jobs, j.ref.r ≠ n := by
  obtain ⟨htear, hjobs, -⟩ := beginTeardown_ends n (modRgn n (fun r => { r with byFlr := true, flrWaits := false })
    (modErr (fun e => { e with rgn := upd e.rgn n fun _ => ErrLog.reset }) s))
  refine ⟨htear, ?_, hjobs⟩
  have hrgn := beginTeardown_rgn n (modRgn n (fun r => { r with byFlr := true, flrWaits := false })
    (modErr (fun e => { e with rgn := upd e.rgn n fun _ => ErrLog.reset }) s))
  refine (congrArg (fun g : RgnState => g.rgn[n].byFlr) hrgn).trans ?_
  simp [torn]

/-! ### The statement -/

/-- Settles O43, function by function. -/
theorem functionsTakeTheirConfiguration : Obligations.FunctionsTakeTheirConfiguration := by
  unfold Obligations.FunctionsTakeTheirConfiguration
  refine ⟨?_, ?_, ?_, ?_, ?_⟩
  · intro s fn d3 v w n on g mps mrrs
    refine ⟨rfl, rfl, rfl, rfl, fun h => if_pos h, ?_, ?_, ?_, ?_⟩
    · intro hm hr hfn
      refine congrArg Host.Outcome.next ((if_neg (by omega)).trans (if_neg hfn))
    · intro hm hr
      refine ⟨_, congrArg Host.Outcome.next ((if_neg (by omega)).trans (if_pos rfl)), ?_, rfl⟩
      exact upd_same s.pcie.sizes 0 _
    · intro h
      exact congrArg Host.Outcome.next (if_pos h)
    · intro r hr
      refine ⟨⟨_, congrArg Host.Outcome.next (touchVf_vfOf r _), ?_, ?_⟩, ⟨_, congrArg Host.Outcome.next (touchVf_vfOf r _), ?_, ?_⟩⟩
      · refine (tdiError_locked ?_).1
        exact hr
      · refine (congrArg (fun p : PcieState => p.command[vfOf r]) (tdiError_locked ?_).2).trans (upd_same _ _ _)
        exact hr
      · refine (tdiError_locked ?_).1
        exact hr
      · refine (congrArg (fun p : PcieState => p.bars[vfOf r][n]) (tdiError_locked ?_).2).trans ?_
        · exact hr
        · exact (congrArg (fun b : Vector W32 6 => b[n]) (upd_same s.pcie.bars (vfOf r) _)).trans (upd_same _ _ _)
  · intro s w off v cclk
    refine ⟨fun h => ⟨_, execRegisterWrite_32 w v cclk s (by omega), ?_⟩, fun width h => execRegisterWrite_narrow w off v cclk s h,
      fun h => execRegisterWrite_misaligned w v cclk s (.inl ⟨rfl, h⟩),
      fun h => execRegisterWrite_misaligned w v cclk s (.inr ⟨rfl, h⟩), fun h => ?_, fun hready h ho => ?_⟩
    · exact (execRegisterWrite_64 w v cclk s h).trans (execRegisterWrite_32 w _ cclk _ (by omega)).symm
    · exact congrArg Host.Outcome.next (writePf_scratch _ cclk h)
    · exact (execRegisterWrite_32 .pf v cclk s h).trans (congrArg Host.Outcome.next (writePf_unready _ cclk hready ho))
  · intro s hready
    have hboot : BootParts s (forEach (allFin 8) retire s) :=
      forEach_keeps (BootParts s) (allFin 8) retire (fun n _ _ h => retire_bootParts n h) s ⟨rfl, rfl, rfl, rfl⟩
    have hfree : ∀ r : Fin 8, (forEach (allFin 8) retire s).rgn.rgn[r].state = .free := fun r =>
      forEach_retire_free (.inl (mem_allFin8 r))
    refine ⟨_, execPfFlr_ready hready, ?_⟩
    generalize forEach (allFin 8) retire s = t at hboot hfree ⊢
    obtain ⟨hjobs, hout, hcause, hnoise, hrgn, hque, hlock, hcp⟩ := coresRestarted_pfFlrCleared t
    refine ⟨hjobs, hout, hcause, hnoise ▸ hboot.noise, fun r => hrgn ▸ hfree r, fun i => ?_, ?_, fun c => ?_⟩
    · have hq : (coresRestarted (pfFlrCleared t)).que[i] = t.que[i].discard := by rw [hque]; exact Vector.getElem_map _ _
      rw [hq]
      exact ⟨rfl, rfl⟩
    · rw [hlock, hboot.partMatches_eq]
    · rw [hcp, ← hboot.partMatches_eq]
      exact (congrArg CpCore.online (Vector.getElem_ofFn _)).trans (allCores_online _ c)
  · intro s hready
    exact if_pos (by rw [hready]; rfl)
  · intro s r htear htdi u
    have hu : modErr (fun e => { e with rgn := upd e.rgn r fun _ => ErrLog.reset }) (tdiError r s) = u := by
      rw [tdiError_unlocked htdi]; rfl
    have hexec : exec (.vfFlr r) s = if s.rgn.rgn[r].state = .free ∨ s.rgn.rgn[r].tearingDown then .next u
        else if s.rgn.rgn[r].state = .forming ∨ u.sec.rgn[r].sealing then .next (modRgn r (fun g => { g with flrWaits := true }) u)
        else .next (startFlr r u) := by
      rw [← hu]; rfl
    refine ⟨fun hf => hexec.trans (if_pos (.inl hf)), fun hw => ?_, fun hf hform hseal => ?_⟩
    · have hfree : s.rgn.rgn[r].state ≠ .free := hw.elim (fun h e => by rw [h] at e; cases e) fun h => h.1
      refine hexec.trans ((if_neg ?_).trans (if_pos (hw.imp_right fun h => h.2)))
      exact fun h => h.elim hfree fun h => by rw [htear] at h; cases h
    · refine ⟨startFlr r u, hexec.trans ((if_neg ?_).trans (if_neg ?_)), startFlr_tears r u⟩
      · exact fun h => h.elim hf fun h => by rw [htear] at h; cases h
      · exact fun h => h.elim hform fun h => by
          have hs : s.sec.rgn[r].sealing = true := h
          rw [hseal] at hs; cases hs

end Sys2Proof.Machine
end

section
/-!
PROOFS. What ending work and a tick leave of the contexts' registers (10_memory_host_link.md R212-R214, R221): the first fault stays
latched, the count of failed tag checks does not fall, MEM_INV stays marked until it runs, and nothing but MEM_INV changes the caches.
-/
namespace Sys2Proof.Machine

/-! ### The registers of a context that only its own commands clear -/

/-- A latched fault stays, the count of failed tag checks (which ends at 2^32 - 1) does not fall, and MEM_INV stays marked. -/
structure CtxKept (x y : MemCtx) : Prop where
  fault : x.faultValid = true → y.faultValid = true ∧ y.faultCause = x.faultCause
  integ : ∀ k ≤ 2 ^ 32 - 1, k ≤ x.integ → k ≤ y.integ
  inv : x.invBusy = true → y.invBusy = true

namespace CtxKept
variable {x y z : MemCtx}

theorem refl (x : MemCtx) : CtxKept x x := ⟨fun h => ⟨h, rfl⟩, fun _ _ h => h, fun h => h⟩

theorem trans (h : CtxKept x y) (k : CtxKept y z) : CtxKept x z where
  fault hx := ⟨(k.fault (h.fault hx).1).1, (k.fault (h.fault hx).1).2.trans (h.fault hx).2⟩
  integ n hn hx := k.integ n hn (h.integ n hn hx)
  inv hx := k.inv (h.inv hx)

/-- One more failed tag check. -/
theorem count (x : MemCtx) : CtxKept x { x with integ := satInc 32 x.integ } :=
  ⟨fun h => ⟨h, rfl⟩, fun k hk h => by simp only [satInc, satAdd]; omega, fun h => h⟩

/-- One more fault. -/
theorem latch (addr cause : Nat) (x : MemCtx) :
    CtxKept x (if x.faultValid = true then x else { x with faultValid := true, faultAddr := addr, faultCause := cause }) := by
  split
  · exact refl x
  · rename_i hx
    exact ⟨fun h => absurd h hx, fun _ _ h => h, fun h => h⟩

end CtxKept

/-- The caches and the stacks' registers are the same, and every context's latch, count and mark are kept. -/
structure MemKept (m m' : MemState) : Prop where
  tlb : m'.tlb = m.tlb
  stack : m'.stack = m.stack
  ctx : ∀ c : Fin 9, CtxKept m.ctx[c] m'.ctx[c]

/-- So it is of the memory of x in s. -/
def LatchesKept (x s : State) : Prop := MemKept x.mem s.mem

namespace LatchesKept
variable {x s t : State}

theorem tlb (h : LatchesKept x s) : s.mem.tlb = x.mem.tlb := MemKept.tlb h
theorem stack (h : LatchesKept x s) : s.mem.stack = x.mem.stack := MemKept.stack h
theorem ctx (h : LatchesKept x s) (c : Fin 9) : CtxKept x.mem.ctx[c] s.mem.ctx[c] := MemKept.ctx h c

theorem refl (s : State) : LatchesKept s s := ⟨rfl, rfl, fun _ => CtxKept.refl _⟩

/-- A change of anything but the memory. -/
theorem of_mem (h : LatchesKept x s) (hm : t.mem = s.mem) : LatchesKept x t := by
  rw [LatchesKept, hm]; exact h

/-- A change of one context's registers that keeps what is to be kept. -/
theorem modCtx (h : LatchesKept x s) (c : Fin 9) (f : MemCtx → MemCtx) (hf : CtxKept s.mem.ctx[c] (f s.mem.ctx[c])) :
    LatchesKept x (modCtx c f s) := by
  refine ⟨h.tlb, h.stack, fun d => (h.ctx d).trans ?_⟩
  show CtxKept s.mem.ctx[d] (upd s.mem.ctx c f)[d]
  by_cases hd : d = c
  · subst hd
    rw [upd_same]
    exact hf
  · rw [upd_other _ _ _ _ hd]
    exact CtxKept.refl _

/-- Bytes written. -/
theorem physWrite (h : LatchesKept x s) (pa : Nat) (b : List Byte) : LatchesKept x (modMem (fun m => physWrite m pa b) s) :=
  ⟨h.tlb, h.stack, h.ctx⟩

/-- A frame's new owner. -/
theorem giveFrame (h : LatchesKept x s) (f o : Nat) : LatchesKept x (modMem (giveFrame f o) s) := ⟨h.tlb, h.stack, h.ctx⟩

theorem latchFault (h : LatchesKept x s) (c : Fin 9) (addr cause : Nat) : LatchesKept x (latchFault c addr cause s) := by
  unfold Machine.latchFault
  split
  · exact h.modCtx c _ (CtxKept.count _)
  · exact h.modCtx c _ (CtxKept.latch _ _ _)

theorem forEach {α : Type} (h : LatchesKept x s) (l : List α) (f : α → State → State)
    (hf : ∀ a s, LatchesKept x s → LatchesKept x (f a s)) : LatchesKept x (forEach l f s) :=
  forEach_keeps (LatchesKept x) l f (fun a _ s h => hf a s h) s h

theorem modJob (h : LatchesKept x s) (k : JobRef) (f : Job → Job) : LatchesKept x (modJob k f s) := h

theorem modQue (h : LatchesKept x s) (i : Fin 33) (f : Queue → Queue) : LatchesKept x (modQue i f s) := h

theorem sendMsix (h : LatchesKept x s) (fn : Fin 9) (v : Nat) : LatchesKept x (sendMsix fn v s) := h

theorem modSecRgn (h : LatchesKept x s) (n : Fin 8) (f : SecRgn → SecRgn) : LatchesKept x (modSecRgn n f s) := h

theorem leaveLocks (h : LatchesKept x s) (k : JobRef) : LatchesKept x (leaveLocks k s) := h

theorem dropJob (h : LatchesKept x s) (k : JobRef) : LatchesKept x (dropJob k s) := h

/-! ### Events, locks and memory -/

theorem dropArm (h : LatchesKept x s) (n : Fin 8) (a : Arm) : LatchesKept x (dropArm n a s) := by
  unfold Machine.dropArm
  split
  · exact h
  · exact h

theorem breakLock (h : LatchesKept x s) (n : Fin 8) (l : Nat) : LatchesKept x (breakLock n l s) := by
  have hm : ∀ f, LatchesKept x (modLock n l f s) := fun f => by
    unfold modLock
    split
    · exact h
    · exact h
  simp only [Machine.breakLock]
  split
  · exact hm _
  · exact hm _

theorem breakLocks (h : LatchesKept x s) (k : JobRef) : LatchesKept x (breakLocks k s) := by
  refine h.forEach _ _ fun l s h => ?_
  split
  · exact h.breakLock _ _
  · exact h

theorem latchIf (h : LatchesKept x s) (c : Fin 9) (f : MemFault) : LatchesKept x (latchIf c f s) := by
  cases f with
  | none => exact h
  | some f => exact h.latchFault c f.1 f.2

theorem writeDev (h : LatchesKept x s) (tile : Fin 24) (c : Fin 9) (a : Nat) (data : List Byte) :
    LatchesKept x (writeDev tile c a data s).1 := by
  obtain ⟨p, o, q, hw⟩ := writeDev_frame tile c a data s
  rw [hw]
  exact ⟨h.tlb, h.stack, h.ctx⟩

theorem writeRecord (h : LatchesKept x s) (i : Fin 33) (p : Pkt) (d : Done) : LatchesKept x (writeRecord i p d s) := by
  have hw : ∀ a b, LatchesKept x (if s.que[i].cloc = true then writeHost a b s else
      Machine.latchIf (qCtx i) (Machine.writeDev (queueTile s i) (qCtx i) a b s).2
        (Machine.writeDev (queueTile s i) (qCtx i) a b s).1) := by
    intro a b
    split
    · exact h
    · exact (h.writeDev _ _ _ _).latchIf _ _
  simp only [Machine.writeRecord]
  split
  · exact ((hw _ _).modQue _ _).sendMsix _ _
  · exact (hw _ _).modQue _ _

/-! ### Stopping and completing a job (R325, R330) -/

theorem beginDrain (h : LatchesKept x s) (n : Fin 8) : LatchesKept x (beginDrain n s) := by
  unfold Machine.beginDrain
  split
  · split
    · exact h
    · exact h
  · exact h

theorem stopJob (h : LatchesKept x s) (k : JobRef) (cause : Option (Nat × Nat)) (b : Option PktRef) :
    LatchesKept x (stopJob k cause b s) := by
  have hpurge : LatchesKept x (purgeJob k s) := h
  have herr : ∀ n u, LatchesKept x u → LatchesKept x (modErr (fun e => { e with detected := n }) u) := fun _ _ h => h
  simp only [Machine.stopJob]
  exact beginDrain (herr _ _ (((hpurge.leaveLocks k).forEach _ _ fun a _ h => h.dropArm _ a).modJob k _)) _

theorem jobError (h : LatchesKept x s) (k : JobRef) (e : Err) (site : Site) : LatchesKept x (jobError k e site s) := by
  unfold Machine.jobError
  split
  · exact h
  · rename_i j _
    have hl : LatchesKept x (logRegion k.r (jobRecord e site j s.tick.tn) s) := h
    simp only
    split
    · exact hl.stopJob _ _ _
    · exact hl.stopJob _ _ _
    · exact hl
    · exact hl
    · exact hl

theorem endDeferred (h : LatchesKept x s) (k : JobRef) (st : EState) : LatchesKept x (endDeferred k st s) := by
  unfold Machine.endDeferred
  split
  · exact h
  · refine modJob (h.forEach _ _ fun d s h => ?_) k _
    split
    · exact h
    · exact h
    · exact h

theorem completeJob (h : LatchesKept x s) (k : JobRef) (status : Nat) : LatchesKept x (completeJob k status s) := by
  unfold Machine.completeJob
  split
  · exact h
  · rename_i j _
    have hd : LatchesKept x (if statusClass status = 0 then s else Machine.endDeferred k
        (if statusClass status = 1 ∧ status ≠ Status.depCancelled then .cancelled else .error) s) := by
      split
      · exact h
      · exact h.endDeferred _ _
    have hout : ∀ i pos d u, LatchesKept x u → LatchesKept x (decide' i pos d (Machine.dropJob k (keepJobRegs j u))) :=
      fun _ _ _ _ h => h
    exact beginDrain (hout _ _ _ _ ((hd.leaveLocks k).breakLocks k)) _

theorem dropStaged (h : LatchesKept x s) (k : JobRef) : LatchesKept x (dropStaged k s) := by
  unfold Machine.dropStaged
  split
  · split
    · exact h
    · split
      · exact h
      · exact h
  · exact h

/-! ### What follows of itself -/

theorem releaseWord (h : LatchesKept x s) (j : Job) (ht : releaseWord s j = some t) : LatchesKept x t := by
  have hadv : ∀ u v, LatchesKept x u → some (Machine.modJob j.ref Job.advance u) = some v → LatchesKept x v := by
    rintro u _ hu ⟨⟩
    exact hu.modJob _ _
  unfold Machine.releaseWord at ht
  split at ht
  · cases ht
  · split at ht
    case h_1 => split at ht; exacts [(nomatch ht), hadv _ _ h ht]
    case h_2 => split at ht; exacts [(nomatch ht), hadv _ _ h ht]
    case h_3 => split at ht; exacts [hadv _ _ h ht, (nomatch ht)]
    case h_4 =>
      split at ht
      · cases ht
      · simp only at ht
        split at ht
        · cases ht
          exact (h.modJob j.ref _).jobError _ _ _
        · exact hadv _ _ (h.modJob j.ref _) ht
    all_goals cases ht

theorem latchArms (h : LatchesKept x s) (j : Job) (ht : latchArms s j = some t) : LatchesKept x t := by
  simp only [Machine.latchArms] at ht
  split at ht
  · cases ht; exact h
  · cases ht

theorem endArms (h : LatchesKept x s) (j : Job) (ht : endArms s j = some t) : LatchesKept x t := by
  unfold Machine.endArms at ht
  split at ht
  · cases ht
    exact (h.forEach j.arms _ fun a _ h => h.dropArm _ a).modJob _ _
  · cases ht

theorem jobSettles (h : LatchesKept x s) (j : Job) (ht : jobSettles s j = some t) : LatchesKept x t := by
  unfold Machine.jobSettles at ht
  rcases orElse_some_cases ht with ht | ht
  · exact h.releaseWord j ht
  rcases orElse_some_cases ht with ht | ht
  · exact h.latchArms j ht
  rcases orElse_some_cases ht with ht | ht
  · exact h.endArms j ht
  split at ht
  · cases ht
    exact (h.modJob j.ref (Job.progressBy 1)).completeJob _ _
  · cases ht

theorem recordSettles (h : LatchesKept x s) (n : Fin 8) (r : Nat × Nat × Fin 4 × W32) (ht : recordSettles n s r = some t) :
    LatchesKept x t := by
  simp only [Machine.recordSettles] at ht
  split at ht
  · cases ht; exact h
  · split at ht
    · cases ht; exact h
    · cases ht

theorem packetSettles (h : LatchesKept x s) (i : Fin 33) (p : Pkt) (ht : packetSettles i p s = some t) : LatchesKept x t := by
  have hdone : ∀ d (u v : State), LatchesKept x u → some (decide' i p.pos d u) = some v → LatchesKept x v := by
    rintro d u _ hu ⟨⟩
    exact hu
  simp only [Machine.packetSettles] at ht
  split at ht
  · split at ht
    · cases ht
    · split at ht
      · split at ht
        · refine hdone _ _ _ ?_ ht
          split
          · exact h
          · exact h.dropStaged _
        · exact hdone _ _ _ h ht
      · split at ht
        · exact hdone _ _ _ h ht
        · cases ht
  · split at ht
    · cases ht
    · split at ht
      · split at ht
        · exact hdone _ _ _ h ht
        · cases ht
      · split at ht
        · cases ht
        · exact hdone _ _ _ h ht
      · split at ht
        · exact hdone _ _ _ h ht
        · exact hdone _ _ _ h ht
        · exact hdone _ _ _ h ht
        · cases ht
      · cases ht

theorem queueSettles (h : LatchesKept x s) (i : Fin 33) (ht : queueSettles i s = some t) : LatchesKept x t := by
  rcases queueSettles_cases i s t ht with ⟨p, d, rfl⟩ | ⟨p, hp⟩
  · exact h.writeRecord _ _ _
  · exact h.packetSettles i p hp

theorem regionSettles (h : LatchesKept x s) (n : Fin 8) (ht : regionSettles n s = some t) : LatchesKept x t := by
  unfold Machine.regionSettles at ht
  rcases orElse_some_cases ht with ht | ht
  · obtain ⟨r, -, hr⟩ := List.exists_of_findSome?_eq_some ht
    exact h.recordSettles n r hr
  rcases orElse_some_cases ht with ht | ht
  · obtain ⟨q, -, hq⟩ := List.exists_of_findSome?_eq_some ht
    exact h.queueSettles _ hq
  obtain ⟨j, -, hj⟩ := List.exists_of_findSome?_eq_some ht
  split at hj
  · exact h.jobSettles j hj
  · unfold lockSettles at hj
    split at hj
    · split at hj
      · exact h.releaseWord j hj
      · cases hj
    · cases hj

theorem settle (h : LatchesKept x s) (n : Fin 8) : LatchesKept x (settle n s) := by
  unfold Machine.settle
  generalize 96 = rounds
  induction rounds generalizing s with
  | zero => exact h
  | succ k ih =>
    unfold settleUpTo
    split
    · exact ih (h.regionSettles n ‹_›)
    · exact h

theorem settleMaint (h : LatchesKept x s) : LatchesKept x (settleMaint s) := by
  unfold Machine.settleMaint
  generalize 16 = rounds
  induction rounds generalizing s with
  | zero => exact h
  | succ k ih =>
    unfold settleMaintUpTo
    split
    · exact ih (h.queueSettles _ ‹_›)
    · exact h

theorem settleAll (h : LatchesKept x s) : LatchesKept x (settleAll s) :=
  (h.forEach _ _ fun n _ h => h.settle n).settleMaint

/-! ### Kills (R332) -/

theorem localWrite (h : LatchesKept x s) (e : Eng) (a : Nat) (data : List Byte) : LatchesKept x (localWrite e a data s) := by
  cases e with
  | herd i =>
    simp only [Machine.localWrite]
    split
    · split
      · exact h
      · exact h
    · exact h
  | _ => exact h

theorem landPacket (h : LatchesKept x s) (e : Eng) (p : MeshPacket) : LatchesKept x (landPacket e p s) := by
  unfold Machine.landPacket
  split
  · exact h
  · split
    · exact h.localWrite _ _ _
    · split
      · exact (h.jobError _ _ _).settle _
      · exact h

theorem serveHeld (h : LatchesKept x s) (a b : Nat) : LatchesKept x (serveHeld a b s) := by
  refine h.forEach _ _ fun l s h => h.forEach _ _ fun vc s h => ?_
  have hl : ∀ f, LatchesKept x (modLink l f s) := fun _ => h
  simp only
  split
  · exact (hl _).forEach _ _ fun p _ h => h.landPacket _ p
  · exact hl _

theorem undefDst (h : LatchesKept x s) (e : Eng) (n : Fin 8) (d : Dst) (len : Nat) : LatchesKept x (undefDst e n d len s) := by
  have hw : LatchesKept x (writeDst e n d (undefBytes s len) s).1 := by
    unfold writeDst
    split
    · split
      · exact h.localWrite _ _ _
      · exact h
    · exact h.writeDev _ _ _ _
  exact hw

/-- The destinations of abandoned operations. -/
theorem undefOpen (h : LatchesKept x s) (e : Eng) (l : List Desc) :
    LatchesKept x (Machine.forEach l (fun d s => Machine.forEach (openDsts s e d) (fun p s => Machine.undefDst e d.job.r p.1 p.2 s) s) s) :=
  h.forEach l _ fun _ _ h => h.forEach _ _ fun _ _ h => h.undefDst _ _ _ _

theorem resetUnit (h : LatchesKept x s) (e : Eng) : LatchesKept x (resetUnit e s) := by
  have hu := h.undefOpen e (runningOn s e)
  have hd : LatchesKept x (dropSource e (Machine.forEach (runningOn s e)
      (fun d s => Machine.forEach (openDsts s e d) (fun p s => Machine.undefDst e d.job.r p.1 p.2 s) s) s)) := by
    unfold dropSource
    split
    · exact hu
    · exact hu
  cases e with
  | ibex i =>
    simp only [Machine.resetUnit]
    exact serveHeld (of_mem hd (modIbex_mem i _ _)) _ _
  | _ => exact hd

theorem scrubUnit (h : LatchesKept x s) (e : Eng) : LatchesKept x (scrubUnit e s) := by
  cases e with
  | _ => exact h

theorem scrubAll (h : LatchesKept x s) (es : List Eng) : LatchesKept x (scrubAll es s) := by
  refine h.forEach es _ fun e s h => ?_
  have hs := h.scrubUnit e
  cases e with
  | _ => exact hs

theorem endTicking (h : LatchesKept x s) (n : Fin 8) : LatchesKept x (endTicking n s) := by
  have hidle : ∀ (l : List (Fin 64)) (u : State), LatchesKept x u → LatchesKept x
      (Machine.forEach l (fun h => modHerd h fun t => { t with state := .idle, sweepDone := false, cls := 0 }) u) :=
    fun l _ hu => hu.forEach l _ fun _ _ h => h
  have hfield : ∀ (l : List (Fin 48)) (u : State), LatchesKept x u → LatchesKept x
      (Machine.forEach l (fun i => modIbex i fun t => { t with fieldRsv := none }) u) :=
    fun l _ hu => hu.forEach l _ fun _ _ h => h
  have hjob : ∀ f g, LatchesKept x (modTickJob n f (modTickRgn n g s)) := fun _ _ => h
  have hrest : ∀ f g k u, LatchesKept x u → LatchesKept x (modRingRgn n f (modNoiseRgn n g (modAnl n k u))) := fun _ _ _ _ h => h
  simp only [Machine.endTicking]
  exact hrest _ _ _ _ (hfield _ _ (hidle _ _ (hjob _ _)))

theorem dropMerge (h : LatchesKept x s) (n : Fin 8) : LatchesKept x (dropMerge n s) := by
  have hk : LatchesKept x (Machine.forEach ((allFin 8).filter fun m => s.rgn.mbOwner[m] == some n)
      (fun m => modKudu m fun k => { k with mergeWaits := false, merging := false }) s) := h.forEach _ _ fun _ _ h => h
  exact hk

theorem killJob (h : LatchesKept x s) (k : JobRef) (scrub : Bool) : LatchesKept x (killJob k scrub s) := by
  unfold Machine.killJob
  split
  · exact h
  · rename_i j _
    have hdrop : LatchesKept x (purgeJob k (dropReady j s)) := h.forEach _ _ fun a _ h => h.dropArm _ a
    have hreset := hdrop.forEach j.engines Machine.resetUnit fun e _ h => h.resetUnit e
    simp only
    generalize Machine.forEach j.engines Machine.resetUnit (purgeJob k (dropReady j s)) = t at hreset ⊢
    have hdma : LatchesKept x (modEng (fun y => { y with dmaRunning := y.dmaRunning.filter fun d => d.job != k }) _) :=
      hreset.undefOpen .dma (t.eng.dmaRunning.filter fun d => d.job == k)
    generalize modEng _ _ = u at hdma ⊢
    have htick : LatchesKept x (if j.tick = true then Machine.dropMerge k.r (Machine.endTicking k.r u) else u) := by
      split
      · exact (hdma.endTicking _).dropMerge _
      · exact hdma
    split
    · exact htick.scrubAll _
    · exact htick

theorem endByDevice (h : LatchesKept x s) (e : Err) (j : Job) : LatchesKept x (endByDevice e j s) := by
  unfold Machine.endByDevice
  split
  · exact (h.killJob _ _).completeJob _ _
  · split
    · exact h
    · exact h.stopJob _ _ _

/-! ### The end of everything of a region (R172, R339) -/

theorem tdiError (h : LatchesKept x s) (n : Fin 8) : LatchesKept x (tdiError n s) := by
  have hpages : ∀ c u, LatchesKept x u → LatchesKept x (dropHostPages c u) := by
    intro c u hu
    simp only [dropHostPages]
    have hdrop := hu.forEach (u.mem.phys.filter fun x =>
      decide (u.mem.ctx[c].ptb ≤ x.1) && decide (x.1 < u.mem.ctx[c].ptb + 2 ^ 19) && (x.1 - u.mem.ctx[c].ptb) % 8 == 0 &&
        bit x.2.toNat 0 && bit x.2.toNat 2) (fun x => modMem fun m => Machine.physWrite m x.1 (List.replicate 8 0))
      fun _ _ h => h.physWrite _ _
    split
    · exact hdrop
    · exact hdrop.modCtx _ _ ⟨fun h => ⟨h, rfl⟩, fun _ _ h => h, fun _ => rfl⟩
  simp only [Machine.tdiError]
  split
  · simp only [setTdi]
    split
    · exact hpages _ _ (h.modSecRgn _ _)
    · exact h.modSecRgn _ _
  · exact h

theorem failMaint (h : LatchesKept x s) (op : Nat) (n : Fin 8) (st : Nat) : LatchesKept x (failMaint op n st s) := by
  unfold Machine.failMaint
  split
  · split
    · exact h
    · exact h
  · exact h

theorem ownSave (h : LatchesKept x s) (n : Fin 8) (o : Nat) : LatchesKept x (ownSave n o s) := h.forEach _ _ fun f _ h => h.giveFrame f o

theorem endRegionJobs (h : LatchesKept x s) (n : Fin 8) (own : Option (JobRef × Nat)) : LatchesKept x (endRegionJobs n own s) := by
  have hkill := h.forEach (startedJobs s n) (fun j => killWith j.ref (ctxSealed s (ctxOf n))
    (recoveryStatus j (own.filter fun o => o.1 == j.ref))) fun j _ h => (h.killJob _ _).completeJob _ _
  simp only [Machine.endRegionJobs]
  split
  · exact hkill.forEach _ _ fun e _ h => h.scrubUnit e
  · exact hkill

/-! ### Region-level and device-level errors (R339, R341) -/

/-- A region-level error other than the loss of its core. -/
theorem regionError (h : LatchesKept x s) (n : Fin 8) {e : Err} (he : e ≠ .cpOffline) (site : Site)
    (own : Option (JobRef × Nat)) : LatchesKept x (regionError n e site own s) := by
  have hopen : ∀ b t, LatchesKept x t → LatchesKept x (Machine.endRegionJobs n own
      (let u := Machine.tdiError n (modRgn n (fun r => { r with before := b, recovery := 3 }) t)
       let u := if u.sec.rgn[n].sealing = true then giveUpSeal n (Machine.failMaint 0x42 n Status.regionFaulted u) else u
       let u := lapseOffer n u
       if b = .sealed then Machine.ownSave n 8 u else u)) := by
    intro b t ht
    have htdi : LatchesKept x (Machine.tdiError n (modRgn n (fun r => { r with before := b, recovery := 3 }) t)) :=
      tdiError (ht.of_mem (modRgn_mem _ _ _)) n
    revert htdi
    generalize Machine.tdiError n (modRgn n (fun r => { r with before := b, recovery := 3 }) t) = u
    intro hu
    have hseal : LatchesKept x
        (if u.sec.rgn[n].sealing = true then giveUpSeal n (Machine.failMaint 0x42 n Status.regionFaulted u) else u) := by
      split
      · exact (hu.failMaint 0x42 n Status.regionFaulted).of_mem (modSecRgn_mem _ _ _)
      · exact hu
    have hlapse : LatchesKept x (lapseOffer n
        (if u.sec.rgn[n].sealing = true then giveUpSeal n (Machine.failMaint 0x42 n Status.regionFaulted u) else u)) :=
      hseal.of_mem (modSecRgn_mem _ _ _)
    refine endRegionJobs ?_ n own
    dsimp only
    split
    · exact hlapse.ownSave n 8
    · exact hlapse
  have hsettle : ∀ f t, LatchesKept x t → LatchesKept x (Machine.settleMaint (Machine.settle n (modRgn n f t))) :=
    fun f t ht => (settle (ht.of_mem (modRgn_mem n f t)) n).settleMaint
  have hlog : ∀ r, LatchesKept x (Machine.sendMsix (vfOf n) 0 (logRegion n r s)) := fun _ => h
  simp only [Machine.regionError, he, if_false]
  split
  · exact h
  split
  · exact hlog _
  split
  · exact hsettle _ _ (hopen _ _ (hlog _))
  · exact hsettle _ _ (hopen _ _ (hlog _))
  · exact ((hlog _).forEach _ _ fun e _ h => h.resetUnit e).of_mem (modRgn_mem _ _ _)
  all_goals exact hlog _

theorem memError (h : LatchesKept x s) (k : JobRef) (f : Nat × Nat) (site : Site) : LatchesKept x (memError k f site s) := by
  have hlatch := h.latchFault (ctxOf k.r) f.1 f.2
  simp only [Machine.memError]
  split
  · exact hlatch.regionError _ (by decide) _ _
  · exact hlatch.jobError _ _ _

theorem deviceError (h : LatchesKept x s) (e : Err) (site : Site) (region stack : Nat) :
    LatchesKept x (deviceError e site region stack s) := by
  have hlog : ∀ r, LatchesKept x (Machine.sendMsix 0 0 (logDevice r (modErr (setDevBit e stack) s))) := fun _ => h
  simp only [Machine.deviceError]
  exact ((hlog _).forEach _ _ fun j _ h => h.endByDevice e j).settleAll

/-! ### A tick boundary but for MEM_INV (R23) -/

theorem tickConfigDone (h : LatchesKept x s) : LatchesKept x (tickConfigDone s) := by
  unfold Machine.tickConfigDone
  split
  · split
    · exact settleMaint (s := maintDone _ Status.ok s) h
    · exact h
  · exact h

theorem nextTn (h : LatchesKept x s) : LatchesKept x (nextTn s) := by
  unfold Machine.nextTn
  split
  · exact h
  · dsimp only
    split
    · exact h
    · refine tickConfigDone (h.of_mem ?_)
      simp only [moveTn]

theorem endNormally (h : LatchesKept x s) (n : Fin 8) (j : Job) : LatchesKept x (endNormally n j s) := by
  have hend : ∀ f, LatchesKept x (Machine.endTicking n (Machine.modJob j.ref f
      (modTickJob n (fun t => { t with ended := true, stop := false }) s))) := by
    intro f
    refine endTicking (h.of_mem ?_) n
    rw [modJob_mem, modTickJob_mem]
  simp only [Machine.endNormally]
  refine settle ?_ n
  split
  · split
    · exact (hend _).of_mem (modKudu_mem _ _ _)
    · exact hend _
  · exact hend _

theorem ticksEnd (h : LatchesKept x s) (n : Fin 8) : LatchesKept x (ticksEnd n s) := by
  unfold Machine.ticksEnd
  split
  · exact h
  · split
    · exact h
    · split
      · exact h.endTicking n
      · split
        · exact h.endNormally n _
        · exact h

theorem idleSlots (h : LatchesKept x s) (n : Fin 8) : LatchesKept x (idleSlots n s) := by
  simp only [Machine.idleSlots]
  split
  · exact h
  · exact h.of_mem (by simp only [mapLinks])

theorem recoverLinks (h : LatchesKept x s) (n : Fin 8) : LatchesKept x (recoverLinks n s) := by
  simp only [Machine.recoverLinks]
  split
  · exact h
  · exact h.of_mem (by simp only [modRgn_mem, clearBuffers, mapLinks])

theorem rampStep (h : LatchesKept x s) : LatchesKept x (rampStep s) := by
  simp only [Machine.rampStep]
  have hfall : LatchesKept x { s with pwr := { s.pwr with rgn := s.pwr.rgn.map rampFall } } := h.of_mem (by simp only)
  refine forEach (hfall.forEach _ _ fun n t ht => ?_) _ _ fun _ _ h => h.of_mem (modPwrRgn_mem _ _ _)
  simp only [rampRise]
  split
  · exact ht
  · split
    · exact ht.of_mem (modPwrRgn_mem _ _ _)
    · split
      · exact ht.of_mem (modPwrRgn_mem _ _ _)
      · exact ht.of_mem (modPwrRgn_mem _ _ _)

theorem emptyIndexes (h : LatchesKept x s) (n : Fin 8) : LatchesKept x (emptyIndexes n s) := by
  unfold Machine.emptyIndexes
  split
  · exact h
  · exact h.forEach _ _ fun _ _ h => h.of_mem rfl

theorem takeSwaps (h : LatchesKept x s) (n : Fin 8) (due : List (Fin 64)) : LatchesKept x (takeSwaps n due s) := by
  have hswap := h.forEach due (fun h => modHerd h applySwap) fun _ _ h => h.of_mem rfl
  have hreset : ∀ t, LatchesKept x t → LatchesKept x (resetOnSwap n t) := by
    intro t ht
    simp only [resetOnSwap]
    split
    · refine emptyIndexes (ht.of_mem ?_) n
      simp only [modTickJob_mem, modAnl_mem]
    · exact ht
  simp only [Machine.takeSwaps]
  split
  · exact hswap
  · refine hreset _ ?_
    split
    · refine forEach (hswap.of_mem ?_) _ _ fun _ _ h => h.of_mem rfl
      rw [modTickJob_mem]
    · exact hswap

theorem swapEvidence (h : LatchesKept x s) (n : Fin 8) : LatchesKept x (swapEvidence n s) := by
  simp only [Machine.swapEvidence]
  split
  · exact h.forEach _ _ fun _ _ h => h.of_mem rfl
  · exact h.takeSwaps n _

theorem enterTick (h : LatchesKept x s) (n : Fin 8) : LatchesKept x (enterTick n s) := by
  have hinit : LatchesKept x (if s.herd.job[n].init = true then
      Machine.forEach (planTiles s n) (fun h => modHerd h fun x => { initQ x with state := .idle, haloFlits := 0 }) s else s) := by
    split
    · exact h.forEach _ _ fun _ _ h => h.of_mem (modHerd_mem _ _ _)
    · exact h
  revert hinit
  simp only [Machine.enterTick]
  generalize (if s.herd.job[n].init = true then
    Machine.forEach (planTiles s n) (fun h => modHerd h fun x => { initQ x with state := .idle, haloFlits := 0 }) s else s) = u
  intro hu
  refine LatchesKept.swapEvidence (hu.of_mem ?_) n
  rw [modTickRgn_mem, modTickJob_mem]
  split
  · exact modPwrRgn_mem _ _ _
  · rfl

theorem enterTicks (h : LatchesKept x s) : LatchesKept x (enterTicks s) := by
  have hswap : LatchesKept x (swapOthers s) := h.of_mem (by simp only [swapOthers])
  exact hswap.forEach _ _ fun n _ h => h.enterTick n

theorem beginTeardown (h : LatchesKept x s) (n : Fin 8) : LatchesKept x (beginTeardown n s) := by
  have htdi : LatchesKept x (Machine.tdiError n (modRgn n (fun r => { r with tearingDown := true }) s)) :=
    tdiError (h.of_mem (modRgn_mem _ _ _)) n
  have hkill := htdi.forEach
    (startedJobs (Machine.tdiError n (modRgn n (fun r => { r with tearingDown := true }) s)) n)
    (fun j => killWith j.ref (ctxSealed s (ctxOf n)) Status.cancelled) fun j _ h => (h.killJob _ _).completeJob _ _
  simp only [Machine.beginTeardown]
  have hquiet : ∀ t, LatchesKept x t → LatchesKept x (quietRegion n t) := fun _ ht => ht.of_mem (by simp only [quietRegion])
  refine settle (hquiet _ ?_) n
  split
  · exact hkill.of_mem rfl
  · refine forEach (hkill.of_mem ?_) _ _ fun q _ h => h.forEach _ _ fun _ _ h => h.of_mem rfl
    rfl

theorem lateFlr (h : LatchesKept x s) (n : Fin 8) : LatchesKept x (lateFlr n s) := by
  simp only [Machine.lateFlr]
  split
  · refine beginTeardown (h.of_mem ?_) n
    rfl
  · exact h

theorem stagingEnds (h : LatchesKept x s) : LatchesKept x (stagingEnds s) := by
  unfold Machine.stagingEnds
  split
  · exact h
  · dsimp only
    split
    · split
      · exact settleMaint (h.of_mem rfl)
      · exact h.of_mem rfl
    · exact h.of_mem rfl

end LatchesKept

end Sys2Proof.Machine
end

section
/-!
PROOFS. MEM_INV and the translation caches (10_memory_host_link.md R213, R214): what a fill caches, and what the tick boundary after
MEM_INV leaves of a context's entries.
-/
namespace Sys2Proof.Machine

/-! ### MEM_INV at the tick boundary (R214) -/

/-- No cached entry is one of context c. -/
def Uncached (c : Fin 9) (s : State) : Prop := ∀ e ∈ s.mem.tlb, e.ctx ≠ c

theorem Uncached.of_latchesKept {c : Fin 9} {s t : State} (h : Uncached c s) (k : LatchesKept s t) : Uncached c t := by
  rw [Uncached, k.tlb]
  exact h

/-- What MEM_INV of a context leaves: the caches without its entries, and the other contexts' registers. -/
theorem invalidate_mem (c : Fin 9) (s : State) (h : s.mem.ctx[c].invBusy = true) :
    (invalidate c s).mem.tlb = s.mem.tlb.filter (fun t => t.ctx != c) ∧
      ∀ d : Fin 9, d ≠ c → (invalidate c s).mem.ctx[d] = s.mem.ctx[d] := by
  have hrelease := forEach_keeps (fun t => t.mem.tlb = s.mem.tlb.filter (fun t => t.ctx != c) ∧ t.mem.ctx = s.mem.ctx)
    s.mem.ctx[c].release (fun f => modMem (giveFrame f 15)) (fun _ _ _ ht => ht)
    (modMem (fun m => { m with tlb := m.tlb.filter fun t => t.ctx != c }) s) ⟨rfl, rfl⟩
  have hsteps (l : List Job) (t : State) : (forEach l (fun j => stepOn j.ref) t).mem = t.mem :=
    forEach_keeps (fun u => u.mem = t.mem) l (fun j => stepOn j.ref) (fun _ _ _ hu => hu) t rfl
  simp only [invalidate, h, Bool.not_true, Bool.false_eq_true, if_false, hsteps, modCtx_mem]
  refine ⟨hrelease.1, fun d hd => ?_⟩
  rw [upd_other _ _ _ _ hd]
  exact congrArg (·[d]) hrelease.2

theorem invalidate_idle (c : Fin 9) (s : State) (h : s.mem.ctx[c].invBusy = false) : invalidate c s = s := by
  simp only [invalidate, h, Bool.not_false, if_true]

theorem invalidate_uncaches (c : Fin 9) (s : State) (h : s.mem.ctx[c].invBusy = true ∨ Uncached c s) :
    Uncached c (invalidate c s) := by
  cases hb : s.mem.ctx[c].invBusy with
  | true =>
    intro e he
    rw [(invalidate_mem c s hb).1] at he
    simpa using (List.mem_filter.mp he).2
  | false =>
    rw [invalidate_idle c s hb]
    exact h.resolve_left (ne_true_of_eq_false hb)

/-- MEM_INV of one context leaves another marked, or uncached. -/
theorem invalidate_other {c d : Fin 9} (hd : c ≠ d) (s : State) (h : s.mem.ctx[c].invBusy = true ∨ Uncached c s) :
    (invalidate d s).mem.ctx[c].invBusy = true ∨ Uncached c (invalidate d s) := by
  cases hb : s.mem.ctx[d].invBusy with
  | true =>
    obtain ⟨htlb, hctx⟩ := invalidate_mem d s hb
    rw [hctx c hd]
    refine h.imp_right fun hc e he => hc e ?_
    rw [htlb] at he
    exact List.mem_of_mem_filter he
  | false =>
    rw [invalidate_idle d s hb]
    exact h

/-- Once MEM_INV has run for every context of a list, the marked ones among them are uncached. -/
theorem forEach_invalidate_uncaches (c : Fin 9) (l : List (Fin 9)) (s : State) (h : s.mem.ctx[c].invBusy = true ∨ Uncached c s)
    (hc : c ∈ l ∨ Uncached c s) : Uncached c (forEach l invalidate s) := by
  induction l generalizing s with
  | nil => exact hc.resolve_left List.not_mem_nil
  | cons d l ih =>
    by_cases hd : c = d
    · subst hd
      have hu := invalidate_uncaches c s h
      exact ih _ (.inr hu) (.inr hu)
    · refine ih _ (invalidate_other hd s h) ?_
      rcases hc with hc | hc
      · exact .inl ((List.mem_cons.mp hc).resolve_left hd)
      · cases hb : s.mem.ctx[d].invBusy with
        | true => exact .inr fun e he => hc e (List.mem_of_mem_filter ((invalidate_mem d s hb).1 ▸ he))
        | false => exact .inr (show Uncached c (invalidate d s) from (invalidate_idle d s hb).symm ▸ hc)

/-- The tick boundary after MEM_INV leaves no cached entry of the context. -/
theorem newTick_uncaches (c : Fin 9) (s : State) (h : s.mem.ctx[c].invBusy = true) : Uncached c (newTick s) := by
  have hall : ∀ c : Fin 9, c ∈ allFin 9 := by decide
  have hcount : LatchesKept s (if s.tick.running = true then countVc0Empty (idleCounts (markStarts s)) else markStarts s) := by
    split
    · exact (LatchesKept.refl s).of_mem (by simp only [countVc0Empty, idleCounts, markStarts])
    · exact (LatchesKept.refl s).of_mem (by simp only [markStarts])
  have htrim : ∀ t, LatchesKept s t → LatchesKept s (trimStep t) := fun t ht => ht.of_mem (by simp only [trimStep, useFree_mem])
  have hwalls : ∀ t, LatchesKept s t → LatchesKept s (takeRim t) := fun t ht => ht.of_mem (by simp only [takeRim])
  have hends := (((htrim _ hcount).nextTn.forEach (allFin 8) idleSlots fun n _ h => h.idleSlots n).forEach (allFin 8) ticksEnd
    fun n _ h => h.ticksEnd n).forEach (allFin 8) recoverLinks fun n _ h => h.recoverLinks n
  have hinv := (hwalls _ hends).rampStep.enterTicks
  have hdone := forEach_invalidate_uncaches c (allFin 9) _ (.inl ((hinv.ctx c).inv h)) (.inl (hall c))
  simp only [newTick]
  refine hdone.of_latchesKept ?_
  generalize forEach (allFin 9) invalidate _ = u
  have hring : LatchesKept u (ringTick (drbgTick u)) :=
    (LatchesKept.refl u).of_mem (by simp only [ringTick, drbgTick, modRing_mem])
  exact (hring.stagingEnds.forEach _ _ fun n _ h => h.lateFlr n).settleAll

/-! ### What a fill caches (R213) -/

/-- The caches with the entry v, of value `pte`, put into those of a tile and context. -/
def fillCache (tile : Fin 24) (c : Fin 9) (drop v pte : Nat) (l : List Tlb) : List Tlb :=
  let here := l.filter (Tlb.at tile c)
  if 65536 ≤ v || here.any (fun t => t.v == v) then l
  else l.filter (fun t => !Tlb.at tile c t) ++ (if here.length < 64 then here else here.eraseIdx (drop % 64)) ++
    [{ tile := tile, ctx := c, v := v, pte := pte }]

theorem cacheEntry_eq (tile : Fin 24) (c : Fin 9) (drop v : Nat) (s : State) :
    cacheEntry tile c drop v s =
      { s with mem := { s.mem with tlb := fillCache tile c drop v (tableEntry s c v) s.mem.tlb } } := by
  simp only [cacheEntry, fillCache]
  split
  · rfl
  · rfl

theorem tlbAt_iff (tile : Fin 24) (c : Fin 9) (e : Tlb) : Tlb.at tile c e = true ↔ e.tile = tile ∧ e.ctx = c := by
  simp [Tlb.at]

section
variable {tile : Fin 24} {c : Fin 9} {drop v pte : Nat} {l : List Tlb}

/-- A fill adds at most its entry. -/
theorem mem_of_mem_fillCache {e : Tlb} (h : e ∈ fillCache tile c drop v pte l) :
    e ∈ l ∨ e = { tile := tile, ctx := c, v := v, pte := pte } := by
  simp only [fillCache] at h
  split at h
  · exact .inl h
  · rcases List.mem_append.mp h with h | h
    · refine .inl ?_
      rcases List.mem_append.mp h with h | h
      · exact List.mem_of_mem_filter h
      · split at h
        · exact List.mem_of_mem_filter h
        · exact List.mem_of_mem_filter (List.mem_of_mem_eraseIdx h)
    · exact .inr (List.mem_singleton.mp h)

/-- The entries of the tile and context after a fill of one that is not cached: the newest is last. -/
theorem filter_fillCache (hv : v < 65536) (hnone : ∀ e ∈ l, ¬ (e.tile = tile ∧ e.ctx = c ∧ e.v = v)) :
    (fillCache tile c drop v pte l).filter (Tlb.at tile c) =
      (if (l.filter (Tlb.at tile c)).length < 64 then l.filter (Tlb.at tile c)
        else (l.filter (Tlb.at tile c)).eraseIdx (drop % 64)) ++ [{ tile := tile, ctx := c, v := v, pte := pte }] := by
  have hany : (l.filter (Tlb.at tile c)).any (fun t => t.v == v) = false := by
    rw [List.any_eq_false]
    intro e he hev
    obtain ⟨hel, hat⟩ := List.mem_filter.mp he
    obtain ⟨ht, hc⟩ := (tlbAt_iff tile c e).mp hat
    exact hnone e hel ⟨ht, hc, by simpa using hev⟩
  have hkept : ∀ k ⊆ l.filter (Tlb.at tile c), k.filter (Tlb.at tile c) = k := fun k hk =>
    List.filter_eq_self.mpr fun e he => (List.mem_filter.mp (hk he)).2
  have hothers : (l.filter fun t => !Tlb.at tile c t).filter (Tlb.at tile c) = [] := by
    rw [List.filter_eq_nil_iff]
    intro e he
    simpa using (List.mem_filter.mp he).2
  have hnew : Tlb.at tile c { tile := tile, ctx := c, v := v, pte := pte } = true := (tlbAt_iff _ _ _).mpr ⟨rfl, rfl⟩
  simp only [fillCache, hany, Bool.or_false, decide_eq_true_eq, Nat.not_le.mpr hv, if_false, List.filter_append, hothers,
    List.nil_append, List.filter_cons, hnew, if_true, List.filter_nil]
  congr 1
  split
  · exact hkept _ (List.Subset.refl _)
  · exact hkept _ (List.eraseIdx_subset)

/-- A fill keeps at most 64 entries of its tile and context. -/
theorem length_fillCache (h : (l.filter (Tlb.at tile c)).length ≤ 64) :
    ((fillCache tile c drop v pte l).filter (Tlb.at tile c)).length ≤ 64 := by
  by_cases hv : v < 65536 ∧ ∀ e ∈ l, ¬ (e.tile = tile ∧ e.ctx = c ∧ e.v = v)
  · rw [filter_fillCache hv.1 hv.2, List.length_append, List.length_singleton]
    split
    · omega
    · have := Nat.mod_lt drop (show 64 > 0 by decide)
      rw [List.length_eraseIdx_of_lt (by omega)]
      omega
  · have hsame : fillCache tile c drop v pte l = l := by
      simp only [fillCache]
      refine if_pos ?_
      by_contra hn
      simp only [Bool.or_eq_true, decide_eq_true_eq, List.any_eq_true, beq_iff_eq, not_or, not_exists, not_and] at hn
      exact hv ⟨by omega, fun e he h => hn.2 e (List.mem_filter.mpr ⟨he, (tlbAt_iff _ _ _).mpr ⟨h.1, h.2.1⟩⟩) h.2.2⟩
    rw [hsame]
    exact h

/-- The last of the tile's and context's entries does not give way to a fill that drops none but the first 63. -/
theorem last_mem_fillCache {k : List Tlb} {e : Tlb} (hl : l.filter (Tlb.at tile c) = k ++ [e]) (hdrop : drop < 63) :
    e ∈ fillCache tile c drop v pte l := by
  have he : e ∈ l := List.mem_of_mem_filter (hl ▸ List.mem_append_right k (List.mem_singleton_self e))
  simp only [fillCache]
  split
  · exact he
  · refine List.mem_append_left _ (List.mem_append_right _ ?_)
    rw [hl]
    split
    · exact List.mem_append_right _ (List.mem_singleton_self e)
    · rename_i hlen
      rw [List.length_append, List.length_singleton] at hlen
      rw [List.eraseIdx_append_of_lt_length (by omega)]
      exact List.mem_append_right _ (List.mem_singleton_self e)

end

/-- TRANSLATION_MISS_FILL caches an entry of the table and perhaps its successor. -/
theorem execTranslationMissFill_caches (s : State) (tile : Fin 24) (c : Fin 9) (v drop : Nat) : ∃ l,
    exec (.translationMissFill tile c v drop) s = .next { s with mem := { s.mem with tlb := l } } ∧
    (∀ e ∈ l, e ∈ s.mem.tlb ∨ e.tile = tile ∧ e.ctx = c ∧ (e.v = v ∨ e.v = v + 1) ∧ e.pte = tableEntry s c e.v) ∧
    (v < 65536 → (∀ e ∈ s.mem.tlb, ¬ (e.tile = tile ∧ e.ctx = c ∧ e.v = v)) →
      ∃ e ∈ l, e.tile = tile ∧ e.ctx = c ∧ e.v = v) ∧
    ((s.mem.tlb.filter (Tlb.at tile c)).length ≤ 64 → (l.filter (Tlb.at tile c)).length ≤ 64) := by
  refine ⟨fillCache tile c (drop % 63) (v + 1) (tableEntry s c (v + 1))
    (fillCache tile c drop v (tableEntry s c v) s.mem.tlb), ?_, ?_, ?_, fun h => length_fillCache (length_fillCache h)⟩
  · show execTranslationMissFill tile c v drop s = _
    rw [execTranslationMissFill, cacheEntry_eq tile c drop v s, cacheEntry_eq]
    rfl
  · intro e he
    rcases mem_of_mem_fillCache he with he | rfl
    · rcases mem_of_mem_fillCache he with he | rfl
      · exact .inl he
      · exact .inr ⟨rfl, rfl, .inl rfl, rfl⟩
    · exact .inr ⟨rfl, rfl, .inr rfl, rfl⟩
  · intro hv hnone
    exact ⟨_, last_mem_fillCache (filter_fillCache hv hnone) (Nat.mod_lt _ (by decide)), rfl, rfl, rfl⟩

/-! ### MEM_INV (R214) -/

/-- MEM_INV marks a context, and the next tick boundary leaves no cached entry of it. -/
theorem execMemInv_marks (s : State) (v : W32) (c : Fin 9) :
    (s.dev.ready = true → v.toNat % 16 = c.val → exec (.memInv v) s = .next { s with mem := { s.mem with
      ctx := s.mem.ctx.set c { s.mem.ctx[c] with invBusy := true } } }) ∧
    (s.dev.ready = false ∨ 9 ≤ v.toNat % 16 → exec (.memInv v) s = .next s) ∧
    (s.dev.powered = true → s.dev.perst = false → s.mem.ctx[c].invBusy = true →
      ∃ t, exec .tickBoundary s = .next t ∧ ∀ e ∈ t.mem.tlb, e.ctx ≠ c) := by
  refine ⟨fun hready hc => ?_, fun h => ?_, fun hpower hperst hbusy => ?_⟩
  · have hctx : Fin.ofNat 9 (v.toNat % 16) = c := Fin.ext (by rw [hc]; exact Nat.mod_eq_of_lt c.isLt)
    show execMemInv v s = _
    rw [execMemInv, if_pos ⟨hready, by omega⟩, hctx]
    rfl
  · show execMemInv v s = _
    refine if_neg fun hk => ?_
    rcases h with h | h
    · exact absurd hk.1 (by simp [h])
    · omega
  · refine ⟨newTick s, ?_, newTick_uncaches c s hbusy⟩
    show execTickBoundary s = _
    rw [execTickBoundary, if_pos (by simp [hpower, hperst])]

end Sys2Proof.Machine
end

section
/-!
PROOFS. Memory requests within one page (10_memory_host_link.md R211, R212, R221): what a request does whose translation leads to a
place, and what it meets where translation faults.
-/
namespace Sys2Proof.Machine

/-! ### An access within one page -/

section
variable {tile : Fin 24} {c : Fin 9} {a : Nat}

theorem writeDev_one_ok {d : List Byte} {s : State} {p : Place} (hd : d ≠ []) (hpage : a % 2 ^ 21 + d.length ≤ 2 ^ 21)
    (ht : translate s tile c a true = .ok p) :
    writeDev tile c a d s = (writePlace p d s, if writeFails s p d.length = true then some (a, tagCause) else none) := by
  simp only [writeDev, pageParts_one _ (List.length_pos_iff.mpr hd) hpage, List.foldl_cons, List.foldl_nil, ht, List.take_length,
    Option.orElse]

theorem writeDev_one_error {d : List Byte} {s : State} {e : Nat} (hd : d ≠ []) (hpage : a % 2 ^ 21 + d.length ≤ 2 ^ 21)
    (ht : translate s tile c a true = .error e) : writeDev tile c a d s = (s, some (a, e)) := by
  simp only [writeDev, pageParts_one _ (List.length_pos_iff.mpr hd) hpage, List.foldl_cons, List.foldl_nil, ht, Option.orElse]

theorem readDev_one_ok {n : Nat} {s : State} {p : Place} (hn : 0 < n) (hpage : a % 2 ^ 21 + n ≤ 2 ^ 21)
    (ht : translate s tile c a false = .ok p) :
    readDev s tile c a n = ((readPlace s p n).1, if (readPlace s p n).2 = true then some (a, tagCause) else none) := by
  simp only [readDev, pageParts_one _ hn hpage, List.foldl_cons, List.foldl_nil, ht, List.nil_append, Option.orElse]

theorem readDev_one_error {n : Nat} {s : State} {e : Nat} (hn : 0 < n) (hpage : a % 2 ^ 21 + n ≤ 2 ^ 21)
    (ht : translate s tile c a false = .error e) : readDev s tile c a n = (List.replicate n 0, some (a, e)) := by
  simp only [readDev, pageParts_one _ hn hpage, List.foldl_cons, List.foldl_nil, ht, List.nil_append, Option.orElse]

end

/-! ### A request -/

/-- The site that an error of a request names. -/
def reqSite (m : MemReq) : Site := { x := m.x, y := m.y, engine := tileEngine m.x m.y, detail := 0 }

/-- What the fault that a request met does. -/
def requestMet (m : MemReq) (f : Nat × Nat) (s : State) : State :=
  match requestJob s m with
  | some j => settle j.ref.r (memError j.ref f (reqSite m) s)
  | none => noteIf m.ctx (some f) (reqSite m) s

section
variable {tile : Fin 24} {m : MemReq} {s : State}

/-- A write to a place of the device, and a write that goes nowhere. -/
theorem performRequest_write {d : List Byte} {p : Place} (hw : m.write = some d) (hd : d ≠ [])
    (hpage : m.addr % 2 ^ 21 + d.length ≤ 2 ^ 21) (ht : translate s tile m.ctx m.addr true = .ok p) (hp : ∀ ha, p ≠ .host ha)
    (hf : writeFails s p d.length = false) : performRequest tile m s = writePlace p d s := by
  have hplace : requestPlace s tile m = some p := by simp [requestPlace, hw, ht, Except.toOption]
  cases p with
  | host ha => exact absurd rfl (hp ha)
  | _ => simp only [performRequest, hplace, hw, writeDev_one_ok hd hpage ht, hf, Bool.false_eq_true, if_false]

/-- A write to a host page leaves as a request. -/
theorem performRequest_write_host {d : List Byte} {ha : Nat} (hw : m.write = some d) (hd : d ≠ [])
    (hpage : m.addr % 2 ^ 21 + d.length ≤ 2 ^ 21) (ht : translate s tile m.ctx m.addr true = .ok (.host ha)) :
    performRequest tile m s = writePlace (.host ha) d (sendTlp m.ctx true s) := by
  have hplace : requestPlace s tile m = some (.host ha) := by simp [requestPlace, hw, ht, Except.toOption]
  have ht' : translate (sendTlp m.ctx true s) tile m.ctx m.addr true = .ok (.host ha) := ht
  simp only [performRequest, hplace, hw, Option.isSome_some, writeDev_one_ok hd hpage ht', writeFails, Bool.false_eq_true,
    if_false]

theorem performRequest_write_error {d : List Byte} {e : Nat} (hw : m.write = some d) (hd : d ≠ [])
    (hpage : m.addr % 2 ^ 21 + d.length ≤ 2 ^ 21) (ht : translate s tile m.ctx m.addr true = .error e) :
    performRequest tile m s = requestMet m (m.addr, e) s := by
  have hplace : requestPlace s tile m = none := by simp [requestPlace, hw, ht, Except.toOption]
  simp only [performRequest, hplace, hw, writeDev_one_error hd hpage ht]
  rfl

/-- A read of a place of the device. -/
theorem performRequest_read {p : Place} (hw : m.write = none) (hn : 0 < m.len) (hpage : m.addr % 2 ^ 21 + m.len ≤ 2 ^ 21)
    (ht : translate s tile m.ctx m.addr false = .ok p) (hp : ∀ ha, p ≠ .host ha) :
    performRequest tile m s = if (readPlace s p m.len).2 = true
      then requestMet m (m.addr, tagCause) (putData (readPlace s p m.len).1 s) else putData (readPlace s p m.len).1 s := by
  have hplace : requestPlace s tile m = some p := by simp [requestPlace, hw, ht, Except.toOption]
  have hread := readDev_one_ok hn hpage ht
  cases hb : (readPlace s p m.len).2 with
  | true =>
    rw [hb, if_pos rfl] at hread
    cases p with
    | host ha => exact absurd rfl (hp ha)
    | _ =>
      simp only [performRequest, hplace, hw, hread]
      rfl
  | false =>
    rw [hb, if_neg Bool.false_ne_true] at hread
    cases p with
    | host ha => exact absurd rfl (hp ha)
    | _ =>
      simp only [performRequest, hplace, hw, hread]
      rfl

theorem performRequest_read_host {ha : Nat} (hw : m.write = none) (hn : 0 < m.len) (hpage : m.addr % 2 ^ 21 + m.len ≤ 2 ^ 21)
    (ht : translate s tile m.ctx m.addr false = .ok (.host ha)) :
    performRequest tile m s = putData (memRead s.pcie.host ha m.len) (sendTlp m.ctx false s) := by
  have hplace : requestPlace s tile m = some (.host ha) := by simp [requestPlace, hw, ht, Except.toOption]
  have ht' : translate (sendTlp m.ctx false s) tile m.ctx m.addr false = .ok (.host ha) := ht
  simp only [performRequest, hplace, hw, Option.isSome_none, readDev_one_ok hn hpage ht', readPlace, Bool.false_eq_true,
    if_false]
  rfl

theorem performRequest_read_error {e : Nat} (hw : m.write = none) (hn : 0 < m.len) (hpage : m.addr % 2 ^ 21 + m.len ≤ 2 ^ 21)
    (ht : translate s tile m.ctx m.addr false = .error e) :
    performRequest tile m s = requestMet m (m.addr, e) (putData (List.replicate m.len 0) s) := by
  have hplace : requestPlace s tile m = none := by simp [requestPlace, hw, ht, Except.toOption]
  simp only [performRequest, hplace, hw, readDev_one_error hn hpage ht]
  rfl

theorem exec_memoryRequest_clean (h : m.port = .clean) :
    exec (.memoryRequest m) s = .next (performRequest (entryTile m.x m.y) m s) := by
  show execMemoryRequest m s = _
  simp only [execMemoryRequest, h]

end

end Sys2Proof.Machine
end

section
/-!
PROOFS. A memory request whose translation faults (10_memory_host_link.md R211, R212): what its context latches, and its job that stops.
-/
namespace Sys2Proof.Machine

theorem ctxOf_ofNat {c : Fin 9} (h : c.val < 8) : ctxOf (Fin.ofNat 8 c.val) = c := by
  revert c
  decide

/-- The job of a request is one of its context's region. -/
theorem requestJob_ctx {s : State} {m : MemReq} {j : Job} (h : requestJob s m = some j) :
    findJob s j.ref = some j ∧ ctxOf j.ref.r = m.ctx := by
  unfold requestJob at h
  split at h
  · rename_i hc
    split at h
    · have href := findJob_ref s _ j h
      refine ⟨by rw [href]; exact h, ?_⟩
      rw [href]
      exact ctxOf_ofNat hc
    · cases h
  · cases h

section
variable {m : MemReq} {u : State} {a e : Nat}

/-- The fault of a request that no job made is latched. -/
theorem requestMet_fault (he : e ≤ 5) (hj : requestJob u m = none) :
    requestMet m (a, e) u = { u with mem := { u.mem with ctx := u.mem.ctx.set m.ctx (latchedCtx a e u.mem.ctx[m.ctx]) } } := by
  have htag : e ≠ tagCause := by unfold tagCause; omega
  rw [← latchFault_eq m.ctx a he u]
  simp only [requestMet, hj, noteIf]
  split
  · simp only [noteFault, if_neg htag, ctxOf_ofNat ‹_›]
  · rfl

/-- A context holds the fault that came to it, or an earlier one. -/
theorem latchFault_holds (c : Fin 9) (a : Nat) (he : e ≤ 5) (s : State) :
    (latchFault c a e s).mem.ctx[c].faultValid = true ∧
      (s.mem.ctx[c].faultValid = false → (latchFault c a e s).mem.ctx[c].faultCause = e) := by
  have htag : e ≠ tagCause := by unfold tagCause; omega
  rw [(latchFault_frame c a e s).2.2, if_neg htag]
  split
  · rename_i hv
    exact ⟨hv, fun h => absurd (h.symm.trans hv) Bool.false_ne_true⟩
  · exact ⟨rfl, fun _ => rfl⟩

/-- A job whose request faults is stopped, and its context holds a fault. -/
theorem requestMet_stops (he : e ≤ 5) {j : Job} (hj : requestJob u m = some j) (hphase : j.phase = .running ∨ j.phase = .ending) :
    ∃ j', findJob (requestMet m (a, e) u) j.ref = some j' ∧ j'.phase = .stopped ∧
      (requestMet m (a, e) u).mem.ctx[m.ctx].faultValid = true ∧
      (u.mem.ctx[m.ctx].faultValid = false → (requestMet m (a, e) u).mem.ctx[m.ctx].faultCause = e) := by
  obtain ⟨hfind, hctx⟩ := requestJob_ctx hj
  have htag : e ≠ tagCause := by unfold tagCause; omega
  have hfiring : j.firing = true := by rcases hphase with h | h <;> simp [Job.firing, h]
  have hmet : requestMet m (a, e) u =
      settle j.ref.r (jobError j.ref .translation { reqSite m with detail := e } (latchFault m.ctx a e u)) := by
    simp only [requestMet, hj, memError, if_neg htag, hctx]
  have hlatch : findJob (latchFault m.ctx a e u) j.ref = some j := by
    rw [findJob, latchFault_jobs]
    exact hfind
  obtain ⟨j', hj', hstop⟩ := ((jobError_stops j.ref .translation { reqSite m with detail := e } _ j hlatch hfiring).settle j.ref.r).find
  have hkept := ((LatchesKept.refl (latchFault m.ctx a e u)).jobError j.ref .translation { reqSite m with detail := e }).settle j.ref.r
  obtain ⟨hvalid, hcause⟩ := latchFault_holds m.ctx a he u
  obtain ⟨hvalid', hcause'⟩ := (hkept.ctx m.ctx).fault hvalid
  rw [hmet]
  exact ⟨j', hj', hstop, hvalid', fun h => hcause'.trans (hcause h)⟩

end

end Sys2Proof.Machine
end

section
/-!
PROOFS. Integrity tags (10_memory_host_link.md R219, R221, R222): a write leaves lines that match their tags, a read of lines that match
answers their bytes, and a spoilt tag matches its line no more.
-/
namespace Sys2Proof.Machine

/-! ### A tag is 8 bytes -/

theorem shaBlocks_length (l : List (List Byte)) (h : List W32) (hh : h.length = 8) : (l.foldl shaBlock h).length = 8 := by
  induction l generalizing h with
  | nil => exact hh
  | cons b l ih => exact ih _ rfl

theorem sha256_length (msg : List Byte) : (sha256 msg).length = 32 := by
  have hwords : ∀ l : List W32, (l.flatMap fun w => beBytes 4 w.toNat).length = 4 * l.length := by
    intro l
    induction l with
    | nil => rfl
    | cons w l ih =>
      rw [List.flatMap_cons, List.length_append, ih, beBytes, List.length_reverse, leBytes_length, List.length_cons]
      omega
  rw [sha256, hwords, shaBlocks_length _ shaInit rfl]

theorem lineTag_length (m : MemState) (c : Fin 9) (l : Nat) : (lineTag m c l).length = 8 := by
  rw [lineTag, List.length_take, hmac, sha256_length]
  rfl

theorem tagBad_eq_false {m : MemState} {t : Fin 9 × Nat} {l : Nat} :
    tagBad m t l = false ↔ memRead m.phys (tagAddr t.2 l) 8 = lineTag m t.1 l := by
  simp [tagBad]

/-! ### Bytes written beside a line -/

/-- The bytes of a line are all of the memory that its tag depends on. -/
theorem lineTag_congr {m m' : MemState} (hctx : m'.ctx = m.ctx) (c : Fin 9) {l : Nat}
    (h : memRead m'.phys (128 * l) 128 = memRead m.phys (128 * l) 128) : lineTag m' c l = lineTag m c l := by
  simp only [lineTag, hctx, h]

/-- Bytes written beside a line leave its tag as it should be. -/
theorem lineTag_physWrite (m : MemState) (pa : Nat) (d : List Byte) (c : Fin 9) (l : Nat)
    (h : 128 * l + 128 ≤ pa ∨ pa + d.length ≤ 128 * l) : lineTag (physWrite m pa d) c l = lineTag m c l :=
  lineTag_congr (m := m) (m' := physWrite m pa d) rfl c (memRead_memWrite_other _ _ _ _ _ h)

/-! ### The tags that the port writes (R222) -/

theorem putTags_frame (t : Fin 9 × Nat) (ls : List Nat) (m : MemState) :
    ∃ p o, putTags t ls m = { m with phys := p, aside := o } := by
  induction ls generalizing m with
  | nil => exact ⟨_, _, rfl⟩
  | cons k ls ih =>
    obtain ⟨p, o, h⟩ := ih (physWrite m (tagAddr t.2 k) (lineTag m t.1 k))
    exact ⟨p, o, h⟩

/-- Once the tags of lines are written, one of them whose bytes and tag they leave alone matches its tag. -/
theorem putTags_matches (t : Fin 9 × Nat) (l : Nat) (ls : List Nat) (m : MemState)
    (htags : ∀ k ∈ ls, k ≠ l → tagAddr t.2 l + 8 ≤ tagAddr t.2 k ∨ tagAddr t.2 k + 8 ≤ tagAddr t.2 l)
    (hline : ∀ k ∈ ls, 128 * l + 128 ≤ tagAddr t.2 k ∨ tagAddr t.2 k + 8 ≤ 128 * l) (h : l ∈ ls ∨ tagBad m t l = false) :
    tagBad (putTags t ls m) t l = false := by
  induction ls generalizing m with
  | nil => exact h.resolve_left List.not_mem_nil
  | cons k ls ih =>
    have hlen := lineTag_length m t.1 k
    have hkeep := lineTag_physWrite m (tagAddr t.2 k) (lineTag m t.1 k) t.1 l
      (by rw [hlen]; exact hline k List.mem_cons_self)
    refine ih _ (fun i hi => htags i (List.mem_cons_of_mem _ hi)) (fun i hi => hline i (List.mem_cons_of_mem _ hi)) ?_
    by_cases hk : k = l
    · subst hk
      have hread := memRead_memWrite_same m.phys (tagAddr t.2 k) (lineTag m t.1 k)
      rw [hlen] at hread
      exact .inr (tagBad_eq_false.mpr (hread.trans hkeep.symm))
    · refine h.imp (fun hl => (List.mem_cons.mp hl).resolve_left (Ne.symm hk)) fun hgood => ?_
      have hread := memRead_memWrite_other m.phys (tagAddr t.2 k) (tagAddr t.2 l) 8 (lineTag m t.1 k)
        (by rw [hlen]; exact htags k List.mem_cons_self hk)
      exact tagBad_eq_false.mpr ((hread.trans (tagBad_eq_false.mp hgood)).trans hkeep.symm)

/-- A write to a page with tags whose lines written in part match their tags. -/
theorem writePlace_tagged {s : State} {pa : Nat} {t : Fin 9 × Nat} {d : List Byte}
    (h : (partLines pa d.length).all (fun l => !tagBad s.mem t l) = true) :
    writeFails s (.dev pa (some t)) d.length = false ∧
      writePlace (.dev pa (some t)) d s = { s with mem := putTags t (linesOf pa d.length) (physWrite s.mem pa d) } := by
  have hgood : ∀ l ∈ partLines pa d.length, tagBad s.mem t l = false := fun l hl => by
    simpa using List.all_eq_true.mp h l hl
  have hbad : (partLines pa d.length).filter (tagBad s.mem t) = [] := by
    rw [List.filter_eq_nil_iff]
    exact fun l hl => by simp [hgood l hl]
  refine ⟨?_, by simp only [writePlace, hbad, List.foldl_nil]⟩
  simp only [writeFails, List.any_eq_false]
  exact fun l hl => by simp [hgood l hl]

/-! ### Lines that are read (R221) -/

theorem memRead_append (m : Mem) (a n k : Nat) : memRead m a n ++ memRead m (a + n) k = memRead m a (n + k) := by
  simp only [memRead, List.range_add, List.map_append, List.map_map, Nat.add_assoc]
  rfl

/-- The lines from one on, one after another. -/
theorem flatMap_lines (m : Mem) (l k : Nat) :
    (((List.range k).map fun i => l + i).flatMap fun i => memRead m (128 * i) 128) = memRead m (128 * l) (128 * k) := by
  induction k with
  | zero => simp [memRead]
  | succ k ih =>
    rw [List.range_succ, List.map_append, List.flatMap_append, ih, List.map_singleton, List.flatMap_singleton,
      Nat.mul_add, memRead_append]
    rfl

theorem slice_memRead (m : Mem) (a n ofs len : Nat) (h : ofs + len ≤ n) :
    slice (memRead m a n) ofs len = memRead m (a + ofs) len := by
  refine List.map_congr_left fun i hi => ?_
  have := List.mem_range.mp hi
  rw [List.getD_eq_getElem _ _ (by rw [memRead_length]; omega)]
  simp only [memRead, List.getElem_map, List.getElem_range, Nat.add_assoc]

/-- A read of lines that match their tags answers their bytes. -/
theorem readPlace_matching {s : State} {pa n : Nat} {t : Fin 9 × Nat} (hn : 0 < n)
    (h : ∀ l ∈ linesOf pa n, tagBad s.mem t l = false) :
    readPlace s (.dev pa (some t)) n = (memRead s.mem.phys pa n, false) := by
  have hany : (linesOf pa n).any (tagBad s.mem t) = false := by
    rw [List.any_eq_false]
    exact fun l hl => by simp [h l hl]
  have hlines : ((linesOf pa n).flatMap fun l => if tagBad s.mem t l = true then List.replicate 128 0
      else memRead s.mem.phys (128 * l) 128) =
      memRead s.mem.phys (128 * (pa / 128)) (128 * ((pa + n - 1) / 128 - pa / 128 + 1)) := by
    rw [← flatMap_lines, linesOf, if_neg (by omega)]
    rw [linesOf, if_neg (by omega)] at h
    exact List.flatMap_congr fun l hl => by rw [h l hl, if_neg Bool.false_ne_true]
  have hspan : pa % 128 + n ≤ 128 * ((pa + n - 1) / 128 - pa / 128 + 1) := by omega
  have hstart : 128 * (pa / 128) + pa % 128 = pa := Nat.div_add_mod pa 128
  simp only [readPlace, hlines, hany, slice_memRead _ _ _ _ _ hspan, hstart]

/-- A read in a line that does not match its tag answers zeros. -/
theorem readPlace_mismatch {s : State} {pa n : Nat} {t : Fin 9 × Nat} (hn : 0 < n) (hline : pa % 128 + n ≤ 128)
    (h : tagBad s.mem t (pa / 128) = true) : readPlace s (.dev pa (some t)) n = (List.replicate n 0, true) := by
  have hlines : linesOf pa n = [pa / 128] := by
    have hone : (pa + n - 1) / 128 - pa / 128 + 1 = 1 := by omega
    rw [linesOf, if_neg (by omega), hone]
    rfl
  have hslice : slice (List.replicate 128 (0 : Byte)) (pa % 128) n = List.replicate n 0 := by
    refine List.eq_replicate_iff.mpr ⟨by simp [slice], fun b hb => ?_⟩
    simp only [slice, List.mem_map, List.mem_range] at hb
    obtain ⟨i, hi, rfl⟩ := hb
    rw [List.getD_eq_getElem _ _ (by rw [List.length_replicate]; omega), List.getElem_replicate]
  simp only [readPlace, hlines, List.flatMap_cons, List.flatMap_nil, h, if_true, List.append_nil, hslice, List.any_cons,
    List.any_nil, Bool.or_false]

/-! ### A spoilt tag (R221) -/

/-- A tag that is written with every bit changed matches its line no more. -/
theorem spoilTag_mismatch {s : State} {pa : Nat} {t : Fin 9 × Nat}
    (h : 128 * (pa / 128) + 128 ≤ tagAddr t.2 (pa / 128) ∨ tagAddr t.2 (pa / 128) + 8 ≤ 128 * (pa / 128)) :
    tagBad (spoilTag (some (.dev pa (some t))) s).mem t (pa / 128) = true := by
  have hlen : ((lineTag s.mem t.1 (pa / 128)).map fun b => ~~~b).length = 8 := by rw [List.length_map, lineTag_length]
  have hkeep := lineTag_physWrite s.mem (tagAddr t.2 (pa / 128)) ((lineTag s.mem t.1 (pa / 128)).map fun b => ~~~b) t.1 (pa / 128)
    (by rw [hlen]; exact h)
  have hread := memRead_memWrite_same s.mem.phys (tagAddr t.2 (pa / 128)) ((lineTag s.mem t.1 (pa / 128)).map fun b => ~~~b)
  rw [hlen] at hread
  have hne : (lineTag s.mem t.1 (pa / 128)).map (fun b => ~~~b) ≠ lineTag s.mem t.1 (pa / 128) := by
    intro heq
    have h0 := congrArg (fun l => l[0]?) heq
    have hpos : 0 < (lineTag s.mem t.1 (pa / 128)).length := by rw [lineTag_length]; decide
    rw [List.getElem?_map, List.getElem?_eq_getElem hpos] at h0
    have hnot : ∀ b : Byte, ~~~b ≠ b := by decide
    exact hnot _ (Option.some.inj h0)
  rw [← Bool.not_eq_false]
  intro hgood
  exact hne (hread.symm.trans ((tagBad_eq_false.mp hgood).trans hkeep))

end Sys2Proof.Machine
end

section
/-!
PROOFS. What a memory request finds wrong (10_memory_host_link.md R221; 14_faults_restart.md R341, R342): a read of a line that does not
match its tag leaves its region FAULTED, an uncorrectable error is one of the device, a corrected one is counted.
-/
namespace Sys2Proof.Machine

/-! ### Answered bytes stay on the output port -/

theorem outData_kept (b : List Byte) : KeptByRecovery fun s => s.out.data = b where
  jobs _ _ h := h
  que _ _ h := h
  evt _ _ h := h
  err _ _ h := h
  msix _ _ h := h
  ctx _ _ h := h
  phys _ _ _ h := h
  host _ _ _ h := h
  shadow _ _ h := h
  purge _ _ h := h
  rgn _ _ h := h
  tickRgn _ _ _ h := h
  job _ _ _ h := h
  anl _ _ h := h
  ring _ _ _ h := h
  noise _ _ _ h := h
  sec _ _ h := h
  cp _ _ h := h
  mesh _ _ h := h
  rim _ _ h := h
  haly _ _ h := h
  herd _ _ _ _ _ h := h
  ibex _ _ _ _ h := h
  cham _ _ _ _ h := h
  kudu _ _ _ _ h := h
  pe _ _ h := h
  eng _ _ h := h
  put s e f _ h := by cases e <;> exact h
  frame _ _ _ h := h
  tlb _ _ h := h
  free _ _ h := h

/-! ### A failed tag check (R221, R339) -/

/-- A region-level error other than the loss of its core leaves a SEALED region FAULTED. -/
theorem regionError_faults {n : Fin 8} {s : State} {e : Err} (he : e ≠ .cpOffline) (site : Site) (own : Option (JobRef × Nat))
    (hstate : s.rgn.rgn[n].state = .sealed) (htear : s.rgn.rgn[n].tearingDown = false) :
    (regionError n e site own s).rgn.rgn[n].state = .faulted := by
  have hfault : ∀ u, (settleMaint (settle n (modRgn n (fun r => { r with state := .faulted }) u))).rgn.rgn[n].state = .faulted := by
    intro u
    rw [(((SameDevice.refl _).settle n).settleMaint).1]
    exact congrArg Region.state (upd_same _ _ _)
  simpa only [regionError, he, hstate, htear, reduceCtorEq, Bool.false_eq_true, if_false] using hfault _

section
variable {n : Fin 8} {m : MemReq} {a : Nat} {u : State}

/-- A failed tag check of a region's request is counted, and is an error of the region. -/
theorem requestMet_tag (hn : m.ctx = ctxOf n) : ∃ site own,
    requestMet m (a, tagCause) u = regionError n .tagFail site own (latchFault m.ctx a tagCause u) ∨
    requestMet m (a, tagCause) u = settle n (regionError n .tagFail site own (latchFault m.ctx a tagCause u)) := by
  cases hj : requestJob u m with
  | none =>
    refine ⟨{ reqSite m with engine := 9, detail := 0 }, none, .inl ?_⟩
    simp only [requestMet, hj, noteIf, hn, if_pos (ctxOf_lt n), ofNat_ctxOf, noteFault, if_true]
  | some j =>
    have href : j.ref.r = n := by rw [← ofNat_ctxOf j.ref.r, (requestJob_ctx hj).2, hn, ofNat_ctxOf]
    refine ⟨{ reqSite m with engine := 9, detail := 0 }, (findJob (latchFault m.ctx a tagCause u) j.ref).map fun _ => (j.ref, Status.jobFault),
      .inr ?_⟩
    simp only [requestMet, hj, memError, href, hn, if_true]

/-- So the read answers what it has answered, its context has counted, and its SEALED region is FAULTED. -/
theorem requestMet_tag_faults (hn : m.ctx = ctxOf n) (hstate : u.rgn.rgn[n].state = .sealed)
    (htear : u.rgn.rgn[n].tearingDown = false) :
    (requestMet m (a, tagCause) u).out.data = u.out.data ∧ (requestMet m (a, tagCause) u).rgn.rgn[n].state = .faulted ∧
      min (u.mem.ctx[m.ctx].integ + 1) (2 ^ 32 - 1) ≤ (requestMet m (a, tagCause) u).mem.ctx[m.ctx].integ := by
  obtain ⟨site, own, hmet⟩ := requestMet_tag (a := a) (u := u) hn
  have hrgn : (latchFault m.ctx a tagCause u).rgn = u.rgn := by rw [(latchFault_frame m.ctx a tagCause u).1]
  have hcount : (latchFault m.ctx a tagCause u).mem.ctx[m.ctx].integ = min (u.mem.ctx[m.ctx].integ + 1) (2 ^ 32 - 1) := by
    rw [(latchFault_frame m.ctx a tagCause u).2.2, if_pos rfl]
    rfl
  have hdata := keeps_regionError (outData_kept u.out.data) n .tagFail site own (latchFault m.ctx a tagCause u)
    (congrArg OutState.data (latchFault_out m.ctx a tagCause u))
  have hfaulted := regionError_faults (n := n) (s := latchFault m.ctx a tagCause u) (e := .tagFail) (by decide) site own
    (by rw [hrgn]; exact hstate) (by rw [hrgn]; exact htear)
  have hkept := (LatchesKept.refl (latchFault m.ctx a tagCause u)).regionError n (e := .tagFail) (by decide) site own
  have hle : ∀ t, LatchesKept (latchFault m.ctx a tagCause u) t →
      min (u.mem.ctx[m.ctx].integ + 1) (2 ^ 32 - 1) ≤ t.mem.ctx[m.ctx].integ := fun t ht =>
    (ht.ctx m.ctx).integ _ (Nat.min_le_right _ _) hcount.ge
  rcases hmet with hmet | hmet
  · rw [hmet]
    exact ⟨hdata, hfaulted, hle _ hkept⟩
  · rw [hmet]
    refine ⟨keeps_settle (outData_kept u.out.data).toKeptByEnds n _ hdata, ?_, hle _ (hkept.settle n)⟩
    rw [((SameDevice.refl _).settle n).1]
    exact hfaulted

end

/-! ### An uncorrectable error (R341, R342) -/

theorem hbmUe_of_stat {e e' : ErrState} (h : e.stat = e'.stat) : e.hbmUe = e'.hbmUe := congrArg (·.2.2.2.2) h

/-- An uncorrectable error sets its stack's bits, and the line is discarded. -/
theorem lineLost_sets (k : Fin 4) (m : MemReq) (s : State) :
    (lineLost k m s).err.hbmUe[k] = true ∧ (lineLost k m s).mem.stack[k].ue = true ∧
      (m.write = none → (lineLost k m s).out.data = List.replicate m.len 0) := by
  have hsets : ∀ u : State, (modErr (setDevBit .hbmUe k.val) u).err.hbmUe[k] = true := by
    intro u
    have hk : k.val % 4 = k.val := Nat.mod_eq_of_lt k.isLt
    simp [setDevBit, hk]
  obtain ⟨u, hlost, hstack, hdata⟩ : ∃ u, lineLost k m s = deviceError .hbmUe (portSite m k.val) 15 k.val u ∧
      u.mem.stack[k].ue = true ∧ (m.write = none → u.out.data = List.replicate m.len 0) := by
    refine ⟨_, rfl, congrArg Stack.ue (upd_same _ _ _), fun hw => ?_⟩
    rw [hw]
    rfl
  rw [hlost]
  refine ⟨?_, ?_, fun hw => ?_⟩
  · rw [hbmUe_of_stat (deviceError_device .hbmUe (portSite m k.val) 15 k.val u).2.2]
    exact hsets u
  · rw [((LatchesKept.refl u).deviceError .hbmUe (portSite m k.val) 15 k.val).stack]
    exact hstack
  · exact keeps_deviceError (outData_kept _) _ _ _ _ _ (hdata hw)

/-! ### A corrected error (R342) -/

/-- A request leaves the latches and the stacks' registers. -/
theorem LatchesKept.performRequest {x s : State} (h : LatchesKept x s) (tile : Fin 24) (m : MemReq) :
    LatchesKept x (performRequest tile m s) := by
  have hnote : ∀ f site u, LatchesKept x u → LatchesKept x (noteIf m.ctx (some f) site u) := by
    intro f site u hu
    simp only [noteIf]
    split
    · simp only [noteFault]
      split
      · exact (hu.latchFault _ _ _).regionError _ (by decide) _ _
      · exact hu.latchFault _ _ _
    · exact hu.latchFault _ _ _
  unfold Machine.performRequest
  extract_lets sent d r site
  have hsent : LatchesKept x sent := by
    simp only [sent]
    split
    · exact h.of_mem rfl
    · exact h
  have hr : LatchesKept x r.1 := by
    simp only [r]
    split
    · exact hsent.writeDev _ _ _ _
    · exact hsent.of_mem rfl
  split
  · exact hr
  · split
    · exact (hr.memError _ _ _).settle _
    · exact hnote _ _ _ hr

theorem countCorrected_stack (k : Fin 4) (s : State) :
    (countCorrected k s).mem.stack[k].ceCount = min (s.mem.stack[k].ceCount + 1) 65535 :=
  congrArg Stack.ceCount (upd_same _ _ _)

end Sys2Proof.Machine
end

section
/-!
PROOFS. Memory requests (10_memory_host_link.md R211-R214, R221; 14_faults_restart.md R341, R342): every answer of one within a page, and
what its port finds.
-/
namespace Sys2Proof.Machine

section
variable {m : MemReq} {s : State}

/-- A write within one page, by where its translation leads. -/
theorem exec_cleanWrite {d : List Byte} (hport : m.port = .clean) (hw : m.write = some d) (hd : d ≠ [])
    (hpage : m.addr % 2 ^ 21 + d.length ≤ 2 ^ 21) {p : Place} (hp : ∀ ha, p ≠ .host ha)
    (ht : translate s (entryTile m.x m.y) m.ctx m.addr true = .ok p) (hf : writeFails s p d.length = false) :
    exec (.memoryRequest m) s = .next (writePlace p d s) := by
  rw [exec_memoryRequest_clean hport, performRequest_write hw hd hpage ht hp hf]

/-- A write to a page with tags leaves its lines matching them, where lines and tags lie apart. -/
theorem exec_cleanWrite_tagged {d : List Byte} (hport : m.port = .clean) (hw : m.write = some d) (hd : d ≠ [])
    (hpage : m.addr % 2 ^ 21 + d.length ≤ 2 ^ 21) {pa : Nat} {tag : Fin 9 × Nat}
    (ht : translate s (entryTile m.x m.y) m.ctx m.addr true = .ok (.dev pa (some tag)))
    (hgood : (partLines pa d.length).all (fun l => !tagBad s.mem tag l) = true) :
    ∃ t, exec (.memoryRequest m) s = .next t ∧
      t = { s with mem := { s.mem with phys := t.mem.phys, aside := t.mem.aside } } ∧
      ∀ l, l ∈ linesOf pa d.length →
        (∀ k ∈ linesOf pa d.length, k ≠ l → tagAddr tag.2 l + 8 ≤ tagAddr tag.2 k ∨ tagAddr tag.2 k + 8 ≤ tagAddr tag.2 l) →
        (∀ k ∈ linesOf pa d.length, 128 * l + 128 ≤ tagAddr tag.2 k ∨ tagAddr tag.2 k + 8 ≤ 128 * l) →
        tagBad t.mem tag l = false := by
  obtain ⟨hf, hwrite⟩ := writePlace_tagged hgood
  refine ⟨_, exec_cleanWrite hport hw hd hpage (fun _ => by simp) ht hf, ?_, fun l hl htags hline => ?_⟩
  · obtain ⟨p, o, hframe⟩ := putTags_frame tag (linesOf pa d.length) (physWrite s.mem pa d)
    rw [hwrite, hframe]
    rfl
  · rw [hwrite]
    exact putTags_matches tag l _ _ htags hline (.inl hl)

/-- A read within one page of a place of the device. -/
theorem exec_cleanRead {p : Place} {b : List Byte} (hport : m.port = .clean) (hw : m.write = none) (hn : 0 < m.len)
    (hpage : m.addr % 2 ^ 21 + m.len ≤ 2 ^ 21) (hp : ∀ ha, p ≠ .host ha)
    (ht : translate s (entryTile m.x m.y) m.ctx m.addr false = .ok p) (hb : readPlace s p m.len = (b, false)) :
    exec (.memoryRequest m) s = .next (putData b s) := by
  rw [exec_memoryRequest_clean hport, performRequest_read hw hn hpage ht hp, hb, if_neg Bool.false_ne_true]

/-- A read of a SEALED region in a line that does not match its tag. -/
theorem exec_cleanRead_mismatch {pa : Nat} {tag : Fin 9 × Nat} {n : Fin 8} (hport : m.port = .clean) (hw : m.write = none)
    (hn : 0 < m.len) (hpage : m.addr % 2 ^ 21 + m.len ≤ 2 ^ 21)
    (ht : translate s (entryTile m.x m.y) m.ctx m.addr false = .ok (.dev pa (some tag))) (hctx : m.ctx = ctxOf n)
    (hbad : tagBad s.mem tag (pa / 128) = true) (hline : pa % 128 + m.len ≤ 128) (hstate : s.rgn.rgn[n].state = .sealed)
    (htear : s.rgn.rgn[n].tearingDown = false) :
    ∃ t, exec (.memoryRequest m) s = .next t ∧ t.out.data = List.replicate m.len 0 ∧ t.rgn.rgn[n].state = .faulted ∧
      min (s.mem.ctx[m.ctx].integ + 1) (2 ^ 32 - 1) ≤ t.mem.ctx[m.ctx].integ := by
  have hread := readPlace_mismatch (s := s) hn hline hbad
  refine ⟨_, exec_memoryRequest_clean hport, ?_⟩
  rw [performRequest_read hw hn hpage ht (fun _ => by simp), hread, if_pos rfl]
  exact requestMet_tag_faults (u := putData (List.replicate m.len 0) s) hctx hstate htear

end

/-! ### What the port finds -/

section
variable {m : MemReq} {s : State} {k : Fin 4} (hk : requestStack s (entryTile m.x m.y) m = some k)
include hk

/-- A port that finds a line that does not match its tag: the stored tag is spoilt before the request. -/
theorem exec_tagMismatch (hport : m.port = .tagMismatch) : exec (.memoryRequest m) s =
    exec (.memoryRequest { m with port := .clean }) (spoilTag (requestPlace s (entryTile m.x m.y) m) s) := by
  rw [exec_memoryRequest_clean (m := { m with port := .clean }) rfl]
  show execMemoryRequest m s = _
  simp only [execMemoryRequest, hport, hk]
  rfl

theorem exec_uncorrectable (hport : m.port = .uncorrectable) : exec (.memoryRequest m) s = .next (lineLost k m s) := by
  show execMemoryRequest m s = _
  simp only [execMemoryRequest, hport, hk]

theorem exec_corrected (hport : m.port = .corrected) : ∃ t, exec (.memoryRequest m) s = .next t ∧
    t.mem.stack[k].ceCount = min (s.mem.stack[k].ceCount + 1) 65535 := by
  refine ⟨performRequest (entryTile m.x m.y) m (countCorrected k s), ?_, ?_⟩
  · show execMemoryRequest m s = _
    simp only [execMemoryRequest, hport, hk]
  · rw [((LatchesKept.refl (countCorrected k s)).performRequest (entryTile m.x m.y) m).stack]
    exact countCorrected_stack k s

end

/-- Settles O41: requests by where their translation leads and what their port finds, the caches' fills, and MEM_INV. -/
theorem memoryRequestsTranslateOrFault : Obligations.MemoryRequestsTranslateOrFault := by
  unfold Obligations.MemoryRequestsTranslateOrFault
  refine ⟨fun s m => ⟨fun d hport hw hd hpage => ⟨fun pa ht => ?_, fun pa tag ht hgood => ?_, fun ht => ?_, fun ha ht => ?_,
      fun e ht => ⟨fun hj => ?_, fun j hj _ hphase => ?_⟩⟩,
    fun hport hw hn hpage => ⟨fun pa ht => ?_, fun pa tag ht => ⟨fun hgood => ?_, fun n hctx hbad hline hstate htear => ?_⟩,
      fun ha ht => ?_, fun e ht => ⟨fun hj => ?_, fun j hj _ hphase => ?_⟩⟩,
    fun k hk => ⟨exec_tagMismatch hk, fun _ pa tag hplace h => ?_, fun hport => ?_, exec_corrected hk⟩⟩,
    execTranslationMissFill_caches, execMemInv_marks⟩
  · exact ⟨_, exec_cleanWrite hport hw hd hpage (fun _ => by simp) ht rfl, rfl, rfl⟩
  · obtain ⟨t, hexec, hframe, hmatch⟩ := exec_cleanWrite_tagged hport hw hd hpage ht hgood
    exact ⟨t, hexec, hframe, fun l hl _ _ htags hline => hmatch l hl htags hline⟩
  · exact exec_cleanWrite hport hw hd hpage (fun _ => by simp) ht rfl
  · rw [exec_memoryRequest_clean hport, performRequest_write_host hw hd hpage ht, hw]
    rfl
  · rw [exec_memoryRequest_clean hport, performRequest_write_error hw hd hpage ht, requestMet_fault (translate_error_le ht) hj]
    rfl
  · obtain ⟨j', hj', hstop⟩ := requestMet_stops (a := m.addr) (translate_error_le ht) hj hphase
    refine ⟨_, j', exec_memoryRequest_clean hport, ?_⟩
    rw [performRequest_write_error hw hd hpage ht]
    exact ⟨hj', hstop⟩
  · exact exec_cleanRead hport hw hn hpage (fun _ => by simp) ht rfl
  · exact exec_cleanRead hport hw hn hpage (fun _ => by simp) ht (readPlace_matching hn hgood)
  · exact exec_cleanRead_mismatch hport hw hn hpage ht hctx hbad hline hstate htear
  · rw [exec_memoryRequest_clean hport, performRequest_read_host hw hn hpage ht, hw]
    rfl
  · rw [exec_memoryRequest_clean hport, performRequest_read_error hw hn hpage ht,
      requestMet_fault (u := putData _ s) (translate_error_le ht) hj]
    rfl
  · obtain ⟨j', hj', hstop⟩ :=
      requestMet_stops (a := m.addr) (u := putData (List.replicate m.len 0) s) (translate_error_le ht) hj hphase
    refine ⟨_, j', exec_memoryRequest_clean hport, ?_⟩
    rw [performRequest_read_error hw hn hpage ht]
    exact ⟨hj', hstop⟩
  · rw [hplace]
    exact spoilTag_mismatch h
  · exact ⟨_, exec_uncorrectable hk hport, lineLost_sets k m s⟩

end Sys2Proof.Machine
end
